-- ==== Sys2Proof/Word.lean ====
section
/-!
DEFINITION. The words of the machine: 32-bit registers, bytes, 64-bit pairs, 128-bit lane masks and 56-bit
device virtual addresses (R11, R12, R15, R51).
-/

namespace Sys2Proof

/-- A 32-bit register value (R51). -/
abbrev Word := BitVec 32

/-- One byte of memory (R12). -/
abbrev Byte := BitVec 8

/-- A 64-bit value, held in an even-odd pair of registers (R140). -/
abbrev DWord := BitVec 64

/-- A device virtual address or an offset of 56 bits (R10, R15). -/
abbrev VA := BitVec 56

/-- One bit per lane of a wave (R51). -/
abbrev LaneMask := BitVec 128

/-- The seven sticky flags of a lane, in the bit order of R60. -/
abbrev Flags := BitVec 7

end Sys2Proof
end

