-- ==== Sys2Proof/Syntax.lean ====
section
/-!
DEFINITION. The steps of the machine: one constructor per row of spec/opcode_table.json. Instructions carry the
fields of the common word (R76), the fields of their group's FN layout (R91) and bits 127:64; events carry
the agent or the data they concern. Meaning lives in Sys2Proof/Machine alone.
-/

namespace Sys2Proof

/-- The three instruction lengths (R75). -/
inductive Len | w64 | w96 | w128
  deriving DecidableEq, Repr, Inhabited

/-- The type codes of TY, ST and DT (R92), in code order. -/
inductive Ty
  | i32 | n32 | i64 | n64 | i16 | n16 | i8 | n8 | b32 | b64 | f32 | f16 | bf16 | f64 | ce16 | nar
  deriving DecidableEq, Repr, Inhabited

/-- The float types of FT (R91), in code order. -/
inductive FT | f32 | f16 | bf16 | f64
  deriving DecidableEq, Repr, Inhabited

/-- The values of RND that name a rounding (R93); `dyn` is code 4, ac.RM, and `rs` code 5, stochastic. -/
inductive Rnd | rn | rz | ru | rd | dyn | rs
  deriving DecidableEq, Repr, Inhabited

/-- The comparisons of CMP (R94), in code order. -/
inductive Cmp | eq | ne | lt | le | gt | ge | num | nan | equ | neu | ltu | leu | gtu | geu
  deriving DecidableEq, Repr, Inhabited

/-- BOP (R94): how a comparison combines with the predicate of C. -/
inductive Bop | none | and | or | xor
  deriving DecidableEq, Repr, Inhabited

/-- ORD of the memory group (R95). -/
inductive MOrd | plain | acq | rel | ar
  deriving DecidableEq, Repr, Inhabited

/-- SZ of the memory group (R95), in code order. -/
inductive Size | b8 | b16 | b32 | b64 | b128 | b256 | i8 | i16
  deriving DecidableEq, Repr, Inhabited

/-- The fields of the common word but OP and FN (R76). -/
structure Hdr where
  /-- operand kinds -/
  mx : BitVec 4
  c : BitVec 8
  b : BitVec 8
  a : BitVec 8
  d : BitVec 8
  /-- negate the guard -/
  pn : Bool
  /-- guarding predicate -/
  pg : BitVec 3
  /-- uniform form -/
  u : Bool
  /-- settle marker -/
  s : Bool
  len : Len
  deriving DecidableEq, Repr, Inhabited

/-- FN of the integer and bit group (R91). -/
structure IntFn where
  sub : BitVec 3
  po : BitVec 3
  sat : Bool
  ty : Ty
  deriving DecidableEq, Repr, Inhabited

/-- FN of LOP3 (R91). -/
structure LutFn where
  lut : BitVec 8
  deriving DecidableEq, Repr, Inhabited

/-- FN of the float group (R91). -/
structure FltFn where
  sub : BitVec 2
  ft : FT
  aa : Bool
  nc : Bool
  nb : Bool
  na : Bool
  sat : Bool
  rnd : Rnd
  deriving DecidableEq, Repr, Inhabited

/-- FN of the conversion and narrow group (R91). -/
structure CvtFn where
  st : Ty
  dt : Ty
  sat : Bool
  rnd : Rnd
  deriving DecidableEq, Repr, Inhabited

/-- FN of the compare and select group (R91). -/
structure CmpFn where
  bop : Bop
  cmp : Cmp
  ty : Ty
  deriving DecidableEq, Repr, Inhabited

/-- FN of the moves and lanes group (R91). -/
structure LaneFn where
  lmod : BitVec 4
  lop : BitVec 4
  ty : Ty
  deriving DecidableEq, Repr, Inhabited

/-- FN of the control and synchronisation groups (R91): CODE or SUB. -/
structure CodeFn where
  code : BitVec 8
  deriving DecidableEq, Repr, Inhabited

/-- FN of the memory group (R91, R95). -/
structure MemFn where
  xs : Bool
  ord : MOrd
  hint : BitVec 2
  sz : Size
  seg : BitVec 3
  deriving DecidableEq, Repr, Inhabited

/-- FN of the engines, tensor, streams, neural, texture, ray and system groups (R91). -/
structure EngFn where
  sub : BitVec 8
  ty : Ty
  deriving DecidableEq, Repr, Inhabited

/-- A reliable connection: a host's queue pair, or that with a peer for a partition, 8 standing for the root's (R408, R420). -/
inductive Conn
  | host (qp : Nat)
  | peer (p part : Nat)
  deriving DecidableEq, Repr, Inhabited

/-- What the transport reads of a packet that arrives: its sequence number, and its congestion mark (R408). -/
structure Pkt where
  psn : Nat
  ce : Bool
  deriving DecidableEq, Repr, Inhabited

/-- A packet of a host's queue pair. -/
structure HostPkt where
  qp : Nat
  pkt : Pkt
  deriving DecidableEq, Repr, Inhabited

/-- Where an access is performed (R220): by a thread, of this module (0) or of member `m` of its region's group (m + 1), with its wave, lane, cluster and
core; on a queue pair; or by an operation, which no scope holds. -/
inductive Place
  | thread (mod uid lane cl core : Nat)
  | queue (qp : Nat)
  | op
  deriving DecidableEq, Repr, Inhabited

/-- A release that a read may take (R221, R223): its scope, its place, and the accesses that happen before it, by their numbers. -/
structure Rel where
  scope : Nat
  place : Place
  view : List Nat
  deriving DecidableEq, Repr, Inhabited

/-- The place of an access that crosses modules in the order of memory (R219 to R230): its performer, what happens before it, the releases that a write of it
carries, and whether it is the atomic of an ATOM, whose lane takes the old value. -/
structure PeerAcc where
  place : Place
  seen : List Nat
  rels : List Rel
  ret : Bool
  deriving DecidableEq, Repr, Inhabited

/-- What an answer says of the order of memory: the accesses at which it has its points, and the releases that its read may take. -/
structure Seen where
  ids : List Nat
  rels : List Rel
  deriving DecidableEq, Repr, Inhabited

/-- One access of a request to a sector of a peer: a store of bytes at an address, or an atomic with its operation, bytes, data and compare operand (R203, R209). -/
inductive SecOp
  | store (va : Nat) (bytes : List Byte) (acc : PeerAcc)
  | atomic (va aop size data cmp : Nat) (acc : PeerAcc)
  deriving DecidableEq, Repr, Inhabited

/-- What a SEND from a peer module carries (R420). `id` names the operation that the sender waits on; `task` is the task id of the cross-module
transfer to which it belongs (R272), which waits where it meets a fault (R442): none for an access to a page (R427), whose fault goes back. -/
inductive FabricMsg
  /-- bytes of a remote read, or the fault code the peer returned (R427) -/
  | readReply (id : Nat) (bytes : List Byte) (fault : Nat) (seen : Seen)
  /-- remote writes or atomics were performed, with the old bytes of each, or refused with a fault code (R427, R233) -/
  | ack (id : Nat) (old : List (List Byte)) (fault : Nat) (seen : Seen)
  /-- the peer writes bytes into this module's member region (R272) -/
  | write (task : Option Nat) (region va : Nat) (bytes : List Byte) (id : Nat) (acc : PeerAcc)
  /-- the peer reads bytes of this module's member region (R427, R272, R335) -/
  | read (task : Option Nat) (region va len id : Nat) (acc : PeerAcc)
  /-- the peer's accesses to one sector of this module's member region, performed indivisibly in their order (R203, R209, R427) -/
  | sector (region : Nat) (ops : List SecOp) (id : Nat)
  /-- the peer reduces into this module's member region (R272) -/
  | red (task region va xop xty : Nat) (bytes : List Byte) (id : Nat) (acc : PeerAcc)
  /-- an active message of a peer (R250, R254), after the accesses that `seen` names -/
  | amsg (region cluster index : Nat) (payload : List Word) (src peer id : Nat) (seen : List Nat)
  /-- every participant of the peer has arrived at the step (R185), after the accesses that `seen` names -/
  | stepArrive (region peer step : Nat) (seen : List Nat)
  /-- the peer's member region has retired: the group is over (R421) -/
  | retired (region peer : Nat)
  deriving DecidableEq, Repr, Inhabited

/-- A packet of a peer module's connection for a partition, with its message. -/
structure PeerPkt where
  pkt : Pkt
  peer : Nat
  part : Nat
  msg : FabricMsg
  deriving DecidableEq, Repr, Inhabited

/-- The steps of the machine: the instructions in opcode order, then the events in the order of spec/opcode_table.json. -/
inductive Instr
  -- integer and bit, 0x00 to 0x1F (R142)
  | iadd (h : Hdr) (f : IntFn) (x : BitVec 64)
  | isub (h : Hdr) (f : IntFn) (x : BitVec 64)
  | imul (h : Hdr) (f : IntFn) (x : BitVec 64)
  | imulh (h : Hdr) (f : IntFn) (x : BitVec 64)
  | imad (h : Hdr) (f : IntFn) (x : BitVec 64)
  | idiv (h : Hdr) (f : IntFn) (x : BitVec 64)
  | irem (h : Hdr) (f : IntFn) (x : BitVec 64)
  | imin (h : Hdr) (f : IntFn) (x : BitVec 64)
  | imax (h : Hdr) (f : IntFn) (x : BitVec 64)
  | iabs (h : Hdr) (f : IntFn) (x : BitVec 64)
  | ineg (h : Hdr) (f : IntFn) (x : BitVec 64)
  | and (h : Hdr) (f : IntFn) (x : BitVec 64)
  | or (h : Hdr) (f : IntFn) (x : BitVec 64)
  | xor (h : Hdr) (f : IntFn) (x : BitVec 64)
  | not (h : Hdr) (f : IntFn) (x : BitVec 64)
  | lop3 (h : Hdr) (f : LutFn) (x : BitVec 64)
  | shl (h : Hdr) (f : IntFn) (x : BitVec 64)
  | shr (h : Hdr) (f : IntFn) (x : BitVec 64)
  | rot (h : Hdr) (f : IntFn) (x : BitVec 64)
  | fshf (h : Hdr) (f : IntFn) (x : BitVec 64)
  | bfx (h : Hdr) (f : IntFn) (x : BitVec 64)
  | bfi (h : Hdr) (f : IntFn) (x : BitVec 64)
  | popc (h : Hdr) (f : IntFn) (x : BitVec 64)
  | clz (h : Hdr) (f : IntFn) (x : BitVec 64)
  | ctz (h : Hdr) (f : IntFn) (x : BitVec 64)
  | brev (h : Hdr) (f : IntFn) (x : BitVec 64)
  | prmt (h : Hdr) (f : IntFn) (x : BitVec 64)
  | lea (h : Hdr) (f : IntFn) (x : BitVec 64)
  | iaddc (h : Hdr) (f : IntFn) (x : BitVec 64)
  | isad (h : Hdr) (f : IntFn) (x : BitVec 64)
  | idp4 (h : Hdr) (f : IntFn) (x : BitVec 64)
  | movi (h : Hdr) (f : IntFn) (x : BitVec 64)
  -- float, 0x20 to 0x3F (R148)
  | fadd (h : Hdr) (f : FltFn) (x : BitVec 64)
  | fsub (h : Hdr) (f : FltFn) (x : BitVec 64)
  | fmul (h : Hdr) (f : FltFn) (x : BitVec 64)
  | ffma (h : Hdr) (f : FltFn) (x : BitVec 64)
  | fmin (h : Hdr) (f : FltFn) (x : BitVec 64)
  | fmax (h : Hdr) (f : FltFn) (x : BitVec 64)
  | fdiv (h : Hdr) (f : FltFn) (x : BitVec 64)
  | fsqrt (h : Hdr) (f : FltFn) (x : BitVec 64)
  | frcp (h : Hdr) (f : FltFn) (x : BitVec 64)
  | frsq (h : Hdr) (f : FltFn) (x : BitVec 64)
  | fexp2 (h : Hdr) (f : FltFn) (x : BitVec 64)
  | flog2 (h : Hdr) (f : FltFn) (x : BitVec 64)
  | fsin (h : Hdr) (f : FltFn) (x : BitVec 64)
  | fcos (h : Hdr) (f : FltFn) (x : BitVec 64)
  | ftanh (h : Hdr) (f : FltFn) (x : BitVec 64)
  | fsigm (h : Hdr) (f : FltFn) (x : BitVec 64)
  | ffrc (h : Hdr) (f : FltFn) (x : BitVec 64)
  | frnd (h : Hdr) (f : FltFn) (x : BitVec 64)
  | fldx (h : Hdr) (f : FltFn) (x : BitVec 64)
  | fcls (h : Hdr) (f : FltFn) (x : BitVec 64)
  | hadd2 (h : Hdr) (f : FltFn) (x : BitVec 64)
  | hmul2 (h : Hdr) (f : FltFn) (x : BitVec 64)
  | hfma2 (h : Hdr) (f : FltFn) (x : BitVec 64)
  | hmnx2 (h : Hdr) (f : FltFn) (x : BitVec 64)
  | dadd (h : Hdr) (f : FltFn) (x : BitVec 64)
  | dmul (h : Hdr) (f : FltFn) (x : BitVec 64)
  | dfma (h : Hdr) (f : FltFn) (x : BitVec 64)
  | ddiv (h : Hdr) (f : FltFn) (x : BitVec 64)
  | dsqrt (h : Hdr) (f : FltFn) (x : BitVec 64)
  | fdot2 (h : Hdr) (f : FltFn) (x : BitVec 64)
  | fdotn (h : Hdr) (f : FltFn) (x : BitVec 64)
  | fmed3 (h : Hdr) (f : FltFn) (x : BitVec 64)
  -- conversion and narrow, 0x40 to 0x49 (R152)
  | cvt (h : Hdr) (f : CvtFn) (x : BitVec 64)
  | cvtn (h : Hdr) (f : CvtFn) (x : BitVec 64)
  | cvtw (h : Hdr) (f : CvtFn) (x : BitVec 64)
  | npack (h : Hdr) (f : CvtFn) (x : BitVec 64)
  | nunpk (h : Hdr) (f : CvtFn) (x : BitVec 64)
  | fmtld (h : Hdr) (f : CvtFn) (x : BitVec 64)
  | fmtst (h : Hdr) (f : CvtFn) (x : BitVec 64)
  | srseed (h : Hdr) (f : CvtFn) (x : BitVec 64)
  | flgrd (h : Hdr) (f : CvtFn) (x : BitVec 64)
  | flgcl (h : Hdr) (f : CvtFn) (x : BitVec 64)
  -- compare, select, moves and lanes, 0x50 to 0x5F (R158, R160 to R168)
  | isetp (h : Hdr) (f : CmpFn) (x : BitVec 64)
  | fsetp (h : Hdr) (f : CmpFn) (x : BitVec 64)
  | psetp (h : Hdr) (f : CmpFn) (x : BitVec 64)
  | sel (h : Hdr) (f : CmpFn) (x : BitVec 64)
  | mov (h : Hdr) (f : LaneFn) (x : BitVec 64)
  | movs (h : Hdr) (f : LaneFn) (x : BitVec 64)
  | shfl (h : Hdr) (f : LaneFn) (x : BitVec 64)
  | ballot (h : Hdr) (f : LaneFn) (x : BitVec 64)
  | vote (h : Hdr) (f : LaneFn) (x : BitVec 64)
  | matchLanes (h : Hdr) (f : LaneFn) (x : BitVec 64)
  | redux (h : Hdr) (f : LaneFn) (x : BitVec 64)
  | scan (h : Hdr) (f : LaneFn) (x : BitVec 64)
  | elect (h : Hdr) (f : LaneFn) (x : BitVec 64)
  | xchgm (h : Hdr) (f : LaneFn) (x : BitVec 64)
  | getsr (h : Hdr) (f : LaneFn) (x : BitVec 64)
  | quads (h : Hdr) (f : LaneFn) (x : BitVec 64)
  -- control, 0x60 to 0x6A (R170)
  | bra (h : Hdr) (f : CodeFn) (x : BitVec 64)
  | brx (h : Hdr) (f : CodeFn) (x : BitVec 64)
  | call (h : Hdr) (f : CodeFn) (x : BitVec 64)
  | callx (h : Hdr) (f : CodeFn) (x : BitVec 64)
  | ret (h : Hdr) (f : CodeFn) (x : BitVec 64)
  | exit (h : Hdr) (f : CodeFn) (x : BitVec 64)
  | yield (h : Hdr) (f : CodeFn) (x : BitVec 64)
  | nop (h : Hdr) (f : CodeFn) (x : BitVec 64)
  | trap (h : Hdr) (f : CodeFn) (x : BitVec 64)
  | bkpt (h : Hdr) (f : CodeFn) (x : BitVec 64)
  | sleep (h : Hdr) (f : CodeFn) (x : BitVec 64)
  -- synchronisation, 0x70 to 0x7D (R174 to R187)
  | mjoin (h : Hdr) (f : CodeFn) (x : BitVec 64)
  | mleave (h : Hdr) (f : CodeFn) (x : BitVec 64)
  | mwait (h : Hdr) (f : CodeFn) (x : BitVec 64)
  | mset (h : Hdr) (f : CodeFn) (x : BitVec 64)
  | mops (h : Hdr) (f : CodeFn) (x : BitVec 64)
  | bar (h : Hdr) (f : CodeFn) (x : BitVec 64)
  | bararr (h : Hdr) (f : CodeFn) (x : BitVec 64)
  | barwt (h : Hdr) (f : CodeFn) (x : BitVec 64)
  | twait (h : Hdr) (f : CodeFn) (x : BitVec 64)
  | ttest (h : Hdr) (f : CodeFn) (x : BitVec 64)
  | sstep (h : Hdr) (f : CodeFn) (x : BitVec 64)
  | wfi (h : Hdr) (f : CodeFn) (x : BitVec 64)
  | uiret (h : Hdr) (f : CodeFn) (x : BitVec 64)
  | uimsk (h : Hdr) (f : CodeFn) (x : BitVec 64)
  -- memory, 0x80 to 0x8B (R196)
  | ld (h : Hdr) (f : MemFn) (x : BitVec 64)
  | st (h : Hdr) (f : MemFn) (x : BitVec 64)
  | ldx (h : Hdr) (f : MemFn) (x : BitVec 64)
  | stx (h : Hdr) (f : MemFn) (x : BitVec 64)
  | ldc (h : Hdr) (f : MemFn) (x : BitVec 64)
  | atom (h : Hdr) (f : MemFn) (x : BitVec 64)
  | red (h : Hdr) (f : MemFn) (x : BitVec 64)
  | ldmc (h : Hdr) (f : MemFn) (x : BitVec 64)
  | fence (h : Hdr) (f : MemFn) (x : BitVec 64)
  | pref (h : Hdr) (f : MemFn) (x : BitVec 64)
  | cmaint (h : Hdr) (f : MemFn) (x : BitVec 64)
  | gjoin (h : Hdr) (f : MemFn) (x : BitVec 64)
  -- engines, 0xA0 to 0xAE (R250, R273)
  | tkpost (h : Hdr) (f : EngFn) (x : BitVec 64)
  | tkdep (h : Hdr) (f : EngFn) (x : BitVec 64)
  | tksig (h : Hdr) (f : EngFn) (x : BitVec 64)
  | tkwait (h : Hdr) (f : EngFn) (x : BitVec 64)
  | tkcmt (h : Hdr) (f : EngFn) (x : BitVec 64)
  | tkdis (h : Hdr) (f : EngFn) (x : BitVec 64)
  | cbini (h : Hdr) (f : EngFn) (x : BitVec 64)
  | cbpsh (h : Hdr) (f : EngFn) (x : BitVec 64)
  | cbpop (h : Hdr) (f : EngFn) (x : BitVec 64)
  | cbwt (h : Hdr) (f : EngFn) (x : BitVec 64)
  | cbqry (h : Hdr) (f : EngFn) (x : BitVec 64)
  | evset (h : Hdr) (f : EngFn) (x : BitVec 64)
  | amsg (h : Hdr) (f : EngFn) (x : BitVec 64)
  | fetchw (h : Hdr) (f : EngFn) (x : BitVec 64)
  | spawn (h : Hdr) (f : EngFn) (x : BitVec 64)
  -- tensor, 0xB0 to 0xB4 (R315, R316)
  | tcpy (h : Hdr) (f : EngFn) (x : BitVec 64)
  | tcpyw (h : Hdr) (f : EngFn) (x : BitVec 64)
  | mma (h : Hdr) (f : EngFn) (x : BitVec 64)
  | mmas (h : Hdr) (f : EngFn) (x : BitVec 64)
  | mrpg (h : Hdr) (f : EngFn) (x : BitVec 64)
  -- streams and gather, 0xC0 to 0xC9 (R325)
  | stopn (h : Hdr) (f : EngFn) (x : BitVec 64)
  | stnxt (h : Hdr) (f : EngFn) (x : BitVec 64)
  | stskp (h : Hdr) (f : EngFn) (x : BitVec 64)
  | stsav (h : Hdr) (f : EngFn) (x : BitVec 64)
  | strst (h : Hdr) (f : EngFn) (x : BitVec 64)
  | stcls (h : Hdr) (f : EngFn) (x : BitVec 64)
  | isect (h : Hdr) (f : EngFn) (x : BitVec 64)
  | gsx (h : Hdr) (f : EngFn) (x : BitVec 64)
  | ssx (h : Hdr) (f : EngFn) (x : BitVec 64)
  | ssxa (h : Hdr) (f : EngFn) (x : BitVec 64)
  -- neural, texture, derivatives, 0xD0 to 0xDD (R358, R377)
  | ncall (h : Hdr) (f : EngFn) (x : BitVec 64)
  | npin (h : Hdr) (f : EngFn) (x : BitVec 64)
  | nunpin (h : Hdr) (f : EngFn) (x : BitVec 64)
  | npref (h : Hdr) (f : EngFn) (x : BitVec 64)
  | nqry (h : Hdr) (f : EngFn) (x : BitVec 64)
  | nflsh (h : Hdr) (f : EngFn) (x : BitVec 64)
  | texn (h : Hdr) (f : EngFn) (x : BitVec 64)
  | tex (h : Hdr) (f : EngFn) (x : BitVec 64)
  | tld (h : Hdr) (f : EngFn) (x : BitVec 64)
  | tqry (h : Hdr) (f : EngFn) (x : BitVec 64)
  | ddx (h : Hdr) (f : EngFn) (x : BitVec 64)
  | ddy (h : Hdr) (f : EngFn) (x : BitVec 64)
  -- rays and beams, 0xE0 to 0xE7 (R377)
  | rtrace (h : Hdr) (f : EngFn) (x : BitVec 64)
  | rld (h : Hdr) (f : EngFn) (x : BitVec 64)
  | rst (h : Hdr) (f : EngFn) (x : BitVec 64)
  | rverd (h : Hdr) (f : EngFn) (x : BitVec 64)
  | beam (h : Hdr) (f : EngFn) (x : BitVec 64)
  | covrd (h : Hdr) (f : EngFn) (x : BitVec 64)
  | rpool (h : Hdr) (f : EngFn) (x : BitVec 64)
  | rqry (h : Hdr) (f : EngFn) (x : BitVec 64)
  -- system, 0xF0 to 0xFB (R73, R191, R363, R417, R432, R439, R451, R468)
  | segld (h : Hdr) (f : EngFn) (x : BitVec 64)
  | segrd (h : Hdr) (f : EngFn) (x : BitVec 64)
  | csrrd (h : Hdr) (f : EngFn) (x : BitVec 64)
  | csrwr (h : Hdr) (f : EngFn) (x : BitVec 64)
  | tret (h : Hdr) (f : EngFn) (x : BitVec 64)
  | parkq (h : Hdr) (f : EngFn) (x : BitVec 64)
  | lanepc (h : Hdr) (f : EngFn) (x : BitVec 64)
  | rcbopReg (h : Hdr) (f : EngFn) (x : BitVec 64)
  | rcbopRet (h : Hdr) (f : EngFn) (x : BitVec 64)
  | rcbopUpd (h : Hdr) (f : EngFn) (x : BitVec 64)
  | rcbopQry (h : Hdr) (f : EngFn) (x : BitVec 64)
  | rcbopAdr (h : Hdr) (f : EngFn) (x : BitVec 64)
  | tlbopVa (h : Hdr) (f : EngFn) (x : BitVec 64)
  | tlbopAll (h : Hdr) (f : EngFn) (x : BitVec 64)
  | tlbopSva (h : Hdr) (f : EngFn) (x : BitVec 64)
  | tlbopSid (h : Hdr) (f : EngFn) (x : BitVec 64)
  | tlbopPart (h : Hdr) (f : EngFn) (x : BitVec 64)
  | svcallAtt (h : Hdr) (f : EngFn) (x : BitVec 64)
  | svcallCert (h : Hdr) (f : EngFn) (x : BitVec 64)
  | wtblSync (h : Hdr) (f : EngFn) (x : BitVec 64)
  | wtblUnpin (h : Hdr) (f : EngFn) (x : BitVec 64)
  | idle (h : Hdr) (f : EngFn) (x : BitVec 64)
  -- events of the cores (chapters 1, 3, 6, 7, 19)
  | issueSlot
  | instructionFill (core rid blk : Nat)
  | shortResultLand (k : Nat)
  | runaheadLand (uid lane tok : Nat)
  | memuePark (uid lane : Nat)
  | sleepExpire (uid lane : Nat)
  | uiDeliver (uid : Nat)
  | faultRecordDeferredWrite (rid : Nat)
  | faultHandlerStart (rid cl core : Nat)
  | svcFaultService (rid : Nat)
  | serviceBudgetExceed (rid : Nat)
  | stepEnd (rid : Nat)
  -- the work distributor (chapters 1, 10, 17, 19)
  | wdPlaceGang (lid cl core : Nat)
  | launchAged (lid : Nat)
  | fetchwServe (k : Nat)
  | preempt (cl core lid : Nat)
  | timeSliceExpire (rid cl core : Nat)
  | shadowSwap (cl core : Nat)
  | shadowFill (cl core : Nat)
  | spill (cl core : Nat)
  | gangRetire (gid : Nat)
  | regionRetire (rid : Nat)
  -- slices, networks, active messages (chapters 7, 9)
  | multicastRequestArrive (k : Nat)
  | multicastEntryClose (k : Nat)
  | multicastCopyAdvance (k : Nat)
  | busBeatGrant (bus : Nat)
  | busTransferAdvance (bus k : Nat)
  | drainStart (part : Nat)
  | drainComplete (part : Nat)
  | sliceSpareTakeover (slice spare : Nat)
  | amsgQueueEnter (cl core : Nat)
  | amsgRelayAdvance (k : Nat)
  | amHandlerStart (cl core : Nat)
  -- tasks and engines (chapters 10, 11, 12)
  | taskFire (cl slot unit : Nat)
  | taskComplete (cl slot : Nat)
  | taskCopyIn (cl slot : Nat)
  | taskCopyOut (cl slot : Nat)
  | taskCopy (cl slot : Nat)
  | taskMma (cl slot : Nat)
  | taskMmas (cl slot : Nat)
  | taskGsx (cl slot : Nat)
  | taskSsx (cl slot : Nat)
  | taskSsxa (cl slot : Nat)
  | taskXput (cl slot : Nat)
  | taskXget (cl slot : Nat)
  | taskXred (cl slot : Nat)
  | engineSuspend (ekind cl obj : Nat)
  -- the Asterism unit (chapter 13)
  | asuCallBin (cl : Nat)
  | binAgeDispatch (cl bin : Nat)
  | tileEnter (cl : Nat)
  | tilePlace (cl core : Nat)
  | tileRowWriteback (cl tile : Nat)
  | tileFail (cl tile code : Nat)
  -- rays, beams, streams, translation (chapters 12, 14, 18)
  | rayCachePlace (cl : Nat)
  | callbackWaveStart (cl core ray : Nat)
  | rayComplete (cl ray : Nat)
  | beamComplete (cl k : Nat)
  | stnxtDeliver (k : Nat)
  | pageWalk (rid va : Nat)
  -- containment (chapter 19)
  | deadlockWalk
  | fatalFault (rid code : Nat)
  | abortTokenReceive (rid peer step : Nat) (orig : Bool) (code : Nat)
  | abortAgree (rid : Nat)
  | abortTokenTimeout (rid peer : Nat)
  | groupActivate (rid : Nat)
  -- the host link (chapter 17)
  | rdmaWrite (qp : HostPkt) (rkey va : Nat) (bytes : List Byte)
  | rdmaRead (qp : HostPkt) (rkey va len : Nat)
  | roceSend (qp : HostPkt) (bytes : List Byte)
  | attach (k : Nat)
  | ctxnew (k : Nat)
  | launch (k : Nat)
  | ctxend (k : Nat)
  | query (k : Nat)
  -- debug (chapter 20)
  | debugStopr (cl core q : Nat)
  | debugResm (cl core q : Nat)
  | debugStep (cl core q : Nat)
  | debugDump (cl core q : Nat)
  | dumpWrite (cl core q : Nat)
  | debugWrite (cl core tgt : Nat)
  | debugRead (cl core tgt : Nat)
  | watchEval
  | sampleTag (cl core q wait : Nat)
  | registerWrite (addr : Nat) (data : DWord)
  -- service (chapters 19, 21)
  | coreSpareMigrate (cl core : Nat)
  | channelSpareMigrate (ch spare : Nat)
  | laneSpareRetrain (port : Nat)
  | sparesExhausted (kind unit : Nat)
  | errorRecord (group unit : Nat) (ue consumed : Bool) (src addr info : Nat)
  | wearSample (group unit wmpd wmrt : Nat)
  | telemetrySample (reg : Nat) (value : DWord) (high : Bool)
  | thermalStop
  | gddrRefresh (bank : Nat)
  | memoryScrub (sector : Nat)
  | moduleReset
  -- further events (chapters 7, 17, 20)
  | admissionChecksComplete (uid lane : Nat)
  | fabricMessageArrive (msg : PeerPkt)
  | retransmissionTimeout (c : Conn)
  | priorityFlowControl (port prio : Nat) (pause : Bool)
  | stallCounterIncrement (addr : Nat)
  | multicastFill (slice k : Nat)
  deriving DecidableEq, Repr, Inhabited

end Sys2Proof
end

