-- ==== Sys2Proof/Config.lean ====
section
/-!
DEFINITION. What an implementation or the world outside fixes, and the free values: constants without a body, so that nothing can be
proved of their values. The argument `t` of a free value is the model's step count (State.tick), which gives each use its own
value.
-/

namespace Sys2Proof.Config

/-- Which agent or input acts next (log 4). -/
opaque nextEvent (t : Nat) : Instr

/-- The order among agents, candidates or packets between which the spec gives none (log 4, 13). -/
opaque order (t k : Nat) : Nat

/-- A read of a register with a short result pending takes the new value (R23, log 5). -/
opaque readsNew (t k : Nat) : Bool

/-- A translation still cached is used although the tables have changed (R431, log 7). -/
opaque useStale (t k : Nat) : Bool

/-- The old bytes of an instruction-cache block are executed although memory has changed (R83, log 8). -/
opaque useOldBlock (t k : Nat) : Bool

/-- The point of a sector's coherence order at which an access is placed, among those that R230 allows (log 3). -/
opaque point (t k : Nat) : Nat

/-- The clk within which a write has become visible to every agent (R231, log 3). -/
opaque visible : Nat

/-- The texel coordinate of a coordinate that is infinite or not a number (R391 states none, log 23). -/
opaque freeCoord (x : Nat) : Int

/-- A value that the spec states for no one: an input of a neural call of a bin whose copy of the record names more inputs than the call gave
(R350), a field of a ray that failed or of a callback that has none (R374, R376) (log 25). -/
opaque freeInput (t k : Nat) : Nat

/-- Does an attached debugger still hold the WATCH lanes that the SVC has passed to it, at a step (R436, log 97)? -/
opaque debugHolds (t : Nat) : Bool

/-- The approximate function `f` of R150 on the pattern `x`: a fixed function of its input (log 11). -/
opaque approx (f x : Nat) : Nat

/-- How the home slices of a run of 64 blocks of 512 bytes are turned against the run before it: fixed at boot and not architected (R237, log 26). -/
opaque homeSpread (run : Nat) : Nat

/-- The memory channel of a sector (R9), which the spec does not lay out (log 26). -/
opaque channel (sector : Nat) : Nat

/-- The set of its home slice in which L2 keeps a line, and the set of a translation cache in which a page stands: the spec gives the ways alone (R236, R429, log 26). -/
opaque l2Set (line : Nat) : Nat
opaque tlbSet (page : Nat) : Nat

/-- The slice that serves the port block (R253), of the 64. -/
opaque portSlice : Nat

/-- The partition of a cluster in the signed configuration (R419), or none. -/
opaque partition (cl : Nat) : Option Nat

/-- The features that the module's signed configuration enables, the set M of R413. -/
opaque features : BitVec 64

/-- The place that the SVC allocates for a private page or table when it resolves a copy-on-write fault, in units of its size (R434, log 28). -/
opaque freePage (t k : Nat) : Nat

/-- The window that an R_Key names on a queue pair at a time (R408): a region, the first device virtual address and the size, as the root region has set it
up; none where there is no such window (log 27). -/
opaque window (t qp rkey : Nat) : Option (Nat × Nat × Nat)

/-- The level-3 entries that firmware writes into the top-level table of a new region, sharing read-only subtrees (R418), which the spec does not give; none
where the entry stays as it stands (log 46). -/
opaque topEntry (t i : Nat) : Option Nat

/-- The number of this module; the module that is member `m` of a collective group (R421); the fabric port by which the group table reaches a module, and that by which the table reaches
it once rewritten (R420, R463); and the priority of a connection's messages (R408). -/
opaque self : Nat
opaque member (group m : Nat) : Nat
opaque peerPort (module : Nat) : Nat
opaque newPort (module : Nat) : Nat
opaque connPrio (conn : Nat) : Nat

/-- The parts of a quote that the module holds, as numbers of 48, 48 and 8 bytes, and the 96 bytes of its signature over the numbers of its first
160 bytes and of the spare state (R469); the certificate chain of its identity key (R468) (log 14). -/
opaque fwDigest : Nat
opaque cfgDigest : Nat
opaque serial : Nat
opaque quoteSig (body spares : Nat) : Nat
opaque certificate : List (BitVec 8)

/-- The values that firmware chooses for the root region (R411): its priority, the address of its RCB in units of 256 bytes, its fault queue, its
handler pool, its fault handler, its g0, g6 and g7 defaults and its lane-private pool; its page-table root; and
the bytes, by physical address, that it has put into device memory: tables, programs and data (log 9). -/
opaque rootPtroot : Nat
opaque rootImage : List (Nat × BitVec 8)
opaque rootPrio : Nat
opaque rootRcb : Nat
opaque rootAmtbl : Nat
opaque rootEntry (hidx : Nat) : Nat
opaque rootFq : Nat
opaque rootFqn : Nat
opaque rootHpool : Nat
opaque rootHsreg : Nat
opaque rootHvreg : Nat
opaque rootFhnd : Nat
opaque rootG0b : Nat
opaque rootG0l : Nat
opaque rootG6b : Nat
opaque rootNhnd : Nat
opaque rootG7b : Nat
opaque rootNray : Nat
opaque rootPrva : Nat
opaque rootPrvmx : Nat
opaque rootPrvn : Nat

end Sys2Proof.Config
end

