-- ==== Sys2Proof/Machine/Bits.lean ====
section
/-!
DEFINITION. Bit fields, two's complement, little-endian byte strings (R12) and the sorted tables of which State is
made. Every helper that a meaning uses on raw numbers stands here.
-/

namespace Sys2Proof.Machine

/-- The field of `n` bits of `w` that starts at bit `lo`. -/
def bitsAt (w lo n : Nat) : Nat := (w >>> lo) % 2 ^ n

/-- Bit `i` of `w`. -/
def bitAt (w i : Nat) : Bool := w.testBit i

/-- `x` mod 2^n read as two's complement. -/
def signedOf (n x : Nat) : Int :=
  let y := x % 2 ^ n
  if y < 2 ^ (n - 1) then (y : Int) else (y : Int) - (2 ^ n : Nat)

/-- The pattern of `n` bits of the integer `i`. -/
def wrapTo (n : Nat) (i : Int) : Nat := (i % ((2 ^ n : Nat) : Int)).toNat

/-- 1 or 0. -/
def b2n (b : Bool) : Nat := if b then 1 else 0

/-- The smaller value of `i` in the range `lo` to `hi`. -/
def clampInt (lo hi i : Int) : Int := if i < lo then lo else if hi < i then hi else i

/-- Ceiling of the quotient. -/
def ceilDiv (a b : Nat) : Nat := (a + b - 1) / b

/-- ⌊log2 n⌋ of a positive number. -/
def log2 (n : Nat) : Nat := n.log2

/-- The number of one bits of the low `w` bits of `x`. -/
def popCount : Nat → Nat → Nat
  | 0, _ => 0
  | w + 1, x => (if x.testBit w then 1 else 0) + popCount w x

/-- The integer square root, by one bit of the result at a time from bit `k - 1` down. -/
def isqrtFrom : Nat → Nat → Nat → Nat
  | 0, r, _ => r
  | k + 1, r, n =>
    let r' := r + 2 ^ k
    isqrtFrom k (if r' * r' ≤ n then r' else r) n

/-- ⌊√n⌋. -/
def isqrt (n : Nat) : Nat := isqrtFrom (n.log2 / 2 + 1) 0 n

/-- The number of a little-endian byte string (R12). -/
def leNat : List Byte → Nat
  | [] => 0
  | b :: bs => b.toNat + 256 * leNat bs

/-- The `n` bytes of `x`, the least significant first (R12). -/
def leBytes : Nat → Nat → List Byte
  | 0, _ => []
  | n + 1, x => BitVec.ofNat 8 x :: leBytes n (x / 256)

/-- The 32-bit words of `x`, the least significant first. -/
def leWords : Nat → Nat → List Word
  | 0, _ => []
  | n + 1, x => BitVec.ofNat 32 x :: leWords n (x / 2 ^ 32)

/-- The number whose 32-bit words are given, the least significant first. -/
def wordsNat : List Word → Nat
  | [] => 0
  | w :: ws => w.toNat + 2 ^ 32 * wordsNat ws

/-- The lanes of a wave in ascending order. -/
def allLanes : List Nat := List.range 128

/-- The lanes set in a mask, ascending. -/
def lanesOf (m : LaneMask) : List Nat := allLanes.filter (fun l => m.toNat.testBit l)

/-- The mask with exactly the given lanes set. -/
def maskOf (ls : List Nat) : LaneMask := ls.foldl (fun m l => m ||| BitVec.ofNat 128 (2 ^ l)) 0

/-- Is lane `l` set in `m`? -/
def inMask (m : LaneMask) (l : Nat) : Bool := m.toNat.testBit l

/-- `m` with lane `l` set or cleared. -/
def setLane (m : LaneMask) (l : Nat) (v : Bool) : LaneMask :=
  if v then m ||| BitVec.ofNat 128 (2 ^ l) else m &&& ~~~(BitVec.ofNat 128 (2 ^ l))

/-- Takes the element at position `i` out of a list. -/
def takeAt {α : Type} : Nat → List α → Option (α × List α)
  | _, [] => none
  | 0, x :: xs => some (x, xs)
  | n + 1, x :: xs => (takeAt n xs).map (fun p => (p.1, x :: p.2))

/-- The `n`-th order of a list: the first element is number `n mod length`, and so on. -/
def reorder {α : Type} : Nat → Nat → List α → List α
  | 0, _, l => l
  | k + 1, n, l =>
    match takeAt (n % l.length) l with
    | none => l
    | some (x, xs) => x :: reorder k (n / l.length) xs

/-- The list in the order that the number `n` picks. -/
def orderBy {α : Type} (n : Nat) (l : List α) : List α := reorder l.length n l

/-- A table from numbers to values: keys strictly rising, and no entry equal to the default value. -/
abbrev Sparse (α : Type) := List (Nat × α)

/-- The value at key `k`, or the default `d`. -/
def Sparse.get {α : Type} (d : α) : Sparse α → Nat → α
  | [], _ => d
  | (k', v) :: m, k => if k' = k then v else Sparse.get d m k

/-- Lists `v` at key `k`. -/
def Sparse.insert {α : Type} : Sparse α → Nat → α → Sparse α
  | [], k, v => [(k, v)]
  | (k', v') :: m, k, v =>
    if k < k' then (k, v) :: (k', v') :: m else if k' = k then (k, v) :: m else (k', v') :: Sparse.insert m k v

/-- Puts `v` at key `k`; putting the default removes the entry. -/
def Sparse.put {α : Type} [DecidableEq α] (d : α) (m : Sparse α) (k : Nat) (v : α) : Sparse α :=
  if v = d then m.filter (fun p => p.1 ≠ k) else Sparse.insert m k v

/-- Changes the value at key `k`. -/
def Sparse.upd {α : Type} [DecidableEq α] (d : α) (m : Sparse α) (k : Nat) (f : α → α) : Sparse α :=
  Sparse.put d m k (f (Sparse.get d m k))

/-- The canonical form: keys strictly rising above `lo`, and no entry equal to the default. -/
def Sparse.wfFrom {α : Type} [DecidableEq α] (d : α) : Option Nat → Sparse α → Bool
  | _, [] => true
  | lo, (k, v) :: m =>
    (match lo with | none => true | some l => decide (l < k)) && decide (v ≠ d) && Sparse.wfFrom d (some k) m

/-- The canonical form of a table. -/
def Sparse.wf {α : Type} [DecidableEq α] (d : α) (m : Sparse α) : Bool := Sparse.wfFrom d none m

/-- The bytes of the memory `m` from address `a`. -/
def readBytes (m : Sparse Byte) (a : Nat) : Nat → List Byte
  | 0 => []
  | n + 1 => Sparse.get 0 m a :: readBytes m (a + 1) n

/-- Writes bytes to the memory `m` from address `a` upward. -/
def writeBytes (m : Sparse Byte) (a : Nat) : List Byte → Sparse Byte
  | [] => m
  | b :: bs => writeBytes (Sparse.put 0 m a b) (a + 1) bs

/-- The first element of a list that satisfies `p`, with its position. -/
def findIdx {α : Type} (p : α → Bool) (l : List α) : Option (Nat × α) :=
  ((List.range l.length).zip l).find? (fun x => p x.2)

/-- Replaces element `i` of a list. -/
def setAt {α : Type} : List α → Nat → α → List α
  | [], _, _ => []
  | _ :: xs, 0, v => v :: xs
  | x :: xs, n + 1, v => x :: setAt xs n v

/-- Changes element `i` of a list. -/
def updAt {α : Type} : List α → Nat → (α → α) → List α
  | [], _, _ => []
  | x :: xs, 0, f => f x :: xs
  | x :: xs, n + 1, f => x :: updAt xs n f

/-- The distinct elements of a list of numbers, in ascending order. -/
def sortedSet (l : List Nat) : List Nat :=
  l.foldl (fun acc x => acc.filter (· < x) ++ x :: acc.filter (x < ·)) []

end Sys2Proof.Machine
end

