-- ==== Sys2Proof/Machine/Flags.lean ====
section
/-!
DEFINITION. Floating point: the standard formats (R109), exact values, rounding once with its flags (R110 to R114, R136), the
arithmetic of chapter 5 on patterns, the approximate functions inside their bounds (R150), and the alignment rule of dot
products (R130 to R134).
-/

namespace Sys2Proof.Machine

/-! ## Flags (R60) -/

def flIV : Nat := 1
def flDZ : Nat := 2
def flOF : Nat := 4
def flUF : Nat := 8
def flNX : Nat := 16
def flLS : Nat := 32
def flRG : Nat := 64

/-- A pattern with the flags that its computation sets. -/
structure FRes where
  bits : Nat
  fl : Nat
  deriving DecidableEq, Repr, Inhabited

def FRes.or (r : FRes) (f : Nat) : FRes := ⟨r.bits, r.fl ||| f⟩

/-! ## Formats and values -/

/-- A binary format: exponent bits, fraction bits; the bias is 2^(e−1) − 1 (R109). -/
structure Fmt where
  eb : Nat
  mb : Nat
  deriving DecidableEq, Repr, Inhabited

def fp64 : Fmt := ⟨11, 52⟩
def fp32 : Fmt := ⟨8, 23⟩
def fp16 : Fmt := ⟨5, 10⟩
def bf16 : Fmt := ⟨8, 7⟩

def Fmt.bias (f : Fmt) : Nat := 2 ^ (f.eb - 1) - 1
def Fmt.width (f : Fmt) : Nat := 1 + f.eb + f.mb
/-- The canonical quiet NaN (R109). -/
def Fmt.nan (f : Fmt) : Nat := (2 ^ (f.eb + 1) - 1) * 2 ^ (f.mb - 1)
def Fmt.inf (f : Fmt) (neg : Bool) : Nat := b2n neg * 2 ^ (f.eb + f.mb) + (2 ^ f.eb - 1) * 2 ^ f.mb
def Fmt.zero (f : Fmt) (neg : Bool) : Nat := b2n neg * 2 ^ (f.eb + f.mb)
def Fmt.maxFin (f : Fmt) (neg : Bool) : Nat := f.inf neg - 1
/-- The exponent of the smallest normal value. -/
def Fmt.emin (f : Fmt) : Int := 1 - (f.bias : Int)
def Fmt.one (f : Fmt) : Nat := f.bias * 2 ^ f.mb
/-- FZ and DZI govern FP32 and BF16 alone (R113). -/
def Fmt.flushes (f : Fmt) : Bool := f.eb = 8

/-- The value of a pattern: a NaN, signalling or not; an infinity; or (−1)^neg m 2^e. -/
inductive FV
  | nan (sig : Bool)
  | inf (neg : Bool)
  | fin (neg : Bool) (m : Nat) (e : Int)
  deriving DecidableEq, Repr, Inhabited

def Fmt.value (f : Fmt) (x : Nat) : FV :=
  let neg := bitAt x (f.eb + f.mb)
  let ex := bitsAt x f.mb f.eb
  let fr := bitsAt x 0 f.mb
  if ex = 2 ^ f.eb - 1 then (if fr = 0 then .inf neg else .nan (!(bitAt fr (f.mb - 1))))
  else if ex = 0 then .fin neg fr (f.emin - f.mb)
  else .fin neg (2 ^ f.mb + fr) ((ex : Int) - f.bias - f.mb)

def FV.isNan : FV → Bool | .nan _ => true | _ => false
def FV.isSig : FV → Bool | .nan s => s | _ => false
def FV.isInf : FV → Bool | .inf _ => true | _ => false
def FV.isZero : FV → Bool | .fin _ m _ => m = 0 | _ => false
def FV.neg : FV → Bool | .nan _ => false | .inf n => n | .fin n _ _ => n

def FV.flip : FV → FV
  | .nan s => .nan s | .inf n => .inf (!n) | .fin n m e => .fin (!n) m e

def FV.abs : FV → FV
  | .nan s => .nan s | .inf _ => .inf false | .fin _ m e => .fin false m e

/-! ## Rounding -/

/-- The rounding directions (R93, R114). -/
inductive RM | rn | rz | ru | rd
  deriving DecidableEq, Repr, Inhabited

/-- ac.RM (R59). -/
def rmOf (n : Nat) : RM := match n with | 0 => .rn | 1 => .rz | 2 => .ru | _ => .rd

/-- m 2^e in units of 2^lsb, rounded, and whether that was inexact; `sticky`: the exact value lies a little above m 2^e, by less than
a quarter of the unit. -/
def quantize (rm : RM) (neg : Bool) (m : Nat) (e : Int) (sticky : Bool) (lsb : Int) : Nat × Bool :=
  if lsb ≤ e then (m * 2 ^ (e - lsb).toNat, sticky)
  else
    let sh := (lsb - e).toNat
    let q := m / 2 ^ sh
    let r := m % 2 ^ sh
    let inexact := r ≠ 0 || sticky
    let up := match rm with
      | .rn => 2 ^ sh < 2 * r || (2 * r = 2 ^ sh && (sticky || q % 2 = 1))
      | .rz => false
      | .ru => inexact && !neg
      | .rd => inexact && neg
    (if up then q + 1 else q, inexact)

/-- The exponent ⌊log2⌋ of m 2^e for m > 0. -/
def expOf (m : Nat) (e : Int) : Int := (log2 m : Int) + e

/-- The pattern of q 2^lsb, representable in the format and not above its range. -/
def Fmt.pack (f : Fmt) (neg : Bool) (q : Nat) (lsb : Int) : Nat :=
  let s := b2n neg * 2 ^ (f.eb + f.mb)
  if q = 0 then s
  else
    let k := log2 q
    let ex := (k : Int) + lsb
    if ex < f.emin then s + (if lsb ≤ f.emin - f.mb then q / 2 ^ (f.emin - f.mb - lsb).toNat else q * 2 ^ (lsb - (f.emin - f.mb)).toNat)
    else
      let frac := if k ≤ f.mb then q * 2 ^ (f.mb - k) else q / 2 ^ (k - f.mb)
      s + (ex + f.bias).toNat * 2 ^ f.mb + (frac - 2 ^ f.mb)

/-- The overflow result of a direction (R112). -/
def Fmt.overflow (f : Fmt) (rm : RM) (neg : Bool) : Nat :=
  match rm with
  | .rn => f.inf neg
  | .rz => f.maxFin neg
  | .ru => if neg then f.maxFin true else f.inf false
  | .rd => if neg then f.inf true else f.maxFin false

/-- Rounds a non-zero exact value once to the format (R110), with its flags: overflow, inexact, and underflow with tininess after
rounding (R112); FZ replaces a subnormal FP32 or BF16 result by zero (R113). -/
def Fmt.round (f : Fmt) (rm : RM) (fz : Bool) (neg : Bool) (m : Nat) (e : Int) (sticky : Bool) : FRes :=
  let ex := expOf m e
  let lsbU := ex - f.mb
  let lsb := max lsbU (f.emin - f.mb)
  let q := quantize rm neg m e sticky lsb
  let u := quantize rm neg m e sticky lsbU
  let tiny := u.1 = 0 || expOf u.1 lsbU < f.emin
  if q.1 ≠ 0 && (f.bias : Int) < expOf q.1 lsb then ⟨f.overflow rm neg, flOF ||| flNX⟩
  else
    let fl := (if q.2 then flNX else 0) ||| (if q.2 && tiny then flUF else 0)
    if fz && f.flushes && q.1 ≠ 0 && expOf q.1 lsb < f.emin then ⟨f.zero neg, flUF ||| flNX⟩
    else ⟨f.pack neg q.1 lsb, fl⟩

/-- Rounds an exact value, zero included: a zero keeps the sign given. -/
def Fmt.roundZ (f : Fmt) (rm : RM) (fz : Bool) (neg : Bool) (m : Nat) (e : Int) (sticky : Bool) : FRes :=
  if m = 0 && !sticky then ⟨f.zero neg, 0⟩ else f.round rm fz neg m e sticky

/-- The canonical NaN with the invalid flag where `iv` (R111, R112). -/
def Fmt.nanRes (f : Fmt) (iv : Bool) : FRes := ⟨f.nan, if iv then flIV else 0⟩

/-! ## Exact sums and products -/

/-- (−1)^n1 m1 2^e1 + (−1)^n2 m2 2^e2 as a signed integer in units of 2^e. -/
def addExact (n1 : Bool) (m1 : Nat) (e1 : Int) (n2 : Bool) (m2 : Nat) (e2 : Int) : Int × Int :=
  let e := min e1 e2
  let a : Int := (m1 * 2 ^ (e1 - e).toNat : Nat)
  let b : Int := (m2 * 2 ^ (e2 - e).toNat : Nat)
  ((if n1 then -a else a) + (if n2 then -b else b), e)

/-- Addition of two values (R110 to R112). -/
def Fmt.addV (f : Fmt) (rm : RM) (fz : Bool) (a b : FV) : FRes :=
  let sig := a.isSig || b.isSig
  match a, b with
  | .nan _, _ | _, .nan _ => f.nanRes sig
  | .inf n, .inf k => if n = k then ⟨f.inf n, 0⟩ else f.nanRes true
  | .inf n, _ | _, .inf n => ⟨f.inf n, 0⟩
  | .fin n1 m1 e1, .fin n2 m2 e2 =>
    let (x, e) := addExact n1 m1 e1 n2 m2 e2
    if x = 0 then
      ⟨f.zero (if m1 = 0 && m2 = 0 && n1 = n2 then n1 else decide (rm = .rd)), 0⟩
    else f.round rm fz (x < 0) x.natAbs e false

/-- The exact product of two values, or a NaN; `iv`: ∞ × 0 (R112). -/
def mulV (a b : FV) : FV × Bool :=
  match a, b with
  | .nan s, .nan t => (.nan (s || t), false)
  | .nan s, _ => (.nan s, false)
  | _, .nan s => (.nan s, false)
  | .inf n, .inf k => (.inf (n != k), false)
  | .inf n, .fin k m _ => if m = 0 then (.nan false, true) else (.inf (n != k), false)
  | .fin k m _, .inf n => if m = 0 then (.nan false, true) else (.inf (n != k), false)
  | .fin n m e, .fin k m' e' => (.fin (n != k) (m * m') (e + e'), false)

/-- Rounds a value. -/
def Fmt.ofV (f : Fmt) (rm : RM) (fz : Bool) (v : FV) : FRes :=
  match v with
  | .nan s => f.nanRes s
  | .inf n => ⟨f.inf n, 0⟩
  | .fin n m e => f.roundZ rm fz n m e false

def Fmt.mulRes (f : Fmt) (rm : RM) (fz : Bool) (a b : FV) : FRes :=
  let (p, iv) := mulV a b
  if iv then f.nanRes true else f.ofV rm fz p

/-- a × b + c, rounded once; ∞ × 0 is invalid whatever c holds (R112). -/
def Fmt.fmaRes (f : Fmt) (rm : RM) (fz : Bool) (a b c : FV) : FRes :=
  let (p, iv) := mulV a b
  if a.isNan || b.isNan then f.nanRes (a.isSig || b.isSig || c.isSig)
  else if iv then f.nanRes true
  else f.addV rm fz p c

/-- a ÷ b (R110, R112). -/
def Fmt.divRes (f : Fmt) (rm : RM) (fz : Bool) (a b : FV) : FRes :=
  let sig := a.isSig || b.isSig
  match a, b with
  | .nan _, _ | _, .nan _ => f.nanRes sig
  | .inf _, .inf _ => f.nanRes true
  | .inf n, .fin k _ _ => ⟨f.inf (n != k), 0⟩
  | .fin n _ _, .inf k => ⟨f.zero (n != k), 0⟩
  | .fin n m e, .fin k m' e' =>
    if m' = 0 then (if m = 0 then f.nanRes true else ⟨f.inf (n != k), flDZ⟩)
    else if m = 0 then ⟨f.zero (n != k), 0⟩
    else
      let sh := 2 * f.mb + 8 + log2 m'
      let q := m * 2 ^ sh / m'
      f.round rm fz (n != k) q (e - e' - sh) (m * 2 ^ sh % m' ≠ 0)

/-- The square root (R110). -/
def Fmt.sqrtRes (f : Fmt) (rm : RM) (fz : Bool) (a : FV) : FRes :=
  match a with
  | .nan s => f.nanRes s
  | .inf n => if n then f.nanRes true else ⟨f.inf false, 0⟩
  | .fin n m e =>
    if m = 0 then ⟨f.zero n, 0⟩
    else if n then f.nanRes true
    else
      let sh := 2 * (f.mb + 8)
      let odd := (e % 2 = 1)
      let x := (if odd then 2 * m else m) * 2 ^ sh
      let e' := (if odd then e - 1 else e) / 2 - (f.mb + 8)
      let q := isqrt x
      f.round rm fz false q e' (q * q ≠ x)

/-- −1, 0 or 1 as a is below, equal to or above b; both finite or infinite; −0 equals +0. -/
def cmpV (a b : FV) : Int :=
  match a, b with
  | .inf n, .inf k => if n = k then 0 else if n then -1 else 1
  | .inf n, _ => if n then -1 else 1
  | _, .inf n => if n then 1 else -1
  | .fin n1 m1 e1, .fin n2 m2 e2 => (addExact n1 m1 e1 (!n2) m2 e2).1.sign
  | _, _ => 0

/-- FMIN and FMAX (R149): −0 orders below +0; `prop`: a NaN operand gives NaN, else a single one is ignored. With FZ = 1 a subnormal result is flushed, with UF
and NX as R113 says, although R149 lets no flag but IV be set: the model's choice between the two rules (log 41). -/
def Fmt.minmax (f : Fmt) (fz isMax prop : Bool) (x y : Nat) : FRes :=
  let a := f.value x
  let b := f.value y
  let sig := a.isSig || b.isSig
  let out := fun (v : Nat) (w : FV) =>
    let r : FRes := match w with
      | .fin n m e => if fz && f.flushes && m ≠ 0 && expOf m e < f.emin then ⟨f.zero n, flUF ||| flNX⟩ else ⟨v, 0⟩
      | _ => ⟨v, 0⟩
    r.or (if sig then flIV else 0)
  if a.isNan && b.isNan then f.nanRes sig
  else if a.isNan then (if prop then f.nanRes sig else out y b)
  else if b.isNan then (if prop then f.nanRes sig else out x a)
  else
    let c := cmpV a b
    let aLess := c < 0 || (c = 0 && a.neg && !b.neg)
    if aLess != isMax then out x a else out y b

/-- The nearest integer in a direction to m 2^e. -/
def integral (rm : RM) (neg : Bool) (m : Nat) (e : Int) : Nat := (quantize rm neg m e false 0).1

/-- FRND: NX is never set (R148). -/
def Fmt.rndRes (f : Fmt) (rm : RM) (a : FV) : FRes :=
  match a with
  | .nan s => f.nanRes s
  | .inf n => ⟨f.inf n, 0⟩
  | .fin n m e => let q := integral rm n m e; ⟨(f.roundZ .rn false n q 0 false).bits, 0⟩

/-- FFRC: a − floor(a) (R148); an integer gives +0 (log 18). -/
def Fmt.frcRes (f : Fmt) (rm : RM) (fz : Bool) (a : FV) : FRes :=
  match a with
  | .nan s => f.nanRes s
  | .inf _ => f.nanRes true
  | .fin n m e =>
    let x : Int := if n then -(m : Int) else m
    if 0 ≤ e then ⟨f.zero false, 0⟩
    else
      let r := x % ((2 ^ (-e).toNat : Nat) : Int)
      f.roundZ rm fz false r.toNat e false

/-- FLDX: a × 2^n rounded once (R148). -/
def Fmt.ldxRes (f : Fmt) (rm : RM) (fz : Bool) (a : FV) (n : Int) : FRes :=
  match a with
  | .fin k m e => f.roundZ rm fz k m (e + n) false
  | v => f.ofV rm fz v

/-- The class bit of FCLS (R149). -/
def Fmt.cls (f : Fmt) (x : Nat) : Nat :=
  match f.value x with
  | .nan true => 1
  | .nan false => 2
  | .inf true => 4
  | .inf false => 512
  | .fin n m e =>
    if m = 0 then (if n then 32 else 64)
    else if expOf m e < f.emin then (if n then 16 else 128)
    else (if n then 8 else 256)

/-- SAT: the rounded result clamped to +0.0 to 1.0; NaN gives +0.0 (R147). -/
def Fmt.satRes (f : Fmt) (r : FRes) : FRes :=
  match f.value r.bits with
  | .nan _ => ⟨f.zero false, r.fl⟩
  | v => if v.neg || v.isZero then ⟨f.zero false, r.fl⟩ else if 0 < cmpV v (.fin false 1 0) then ⟨f.one, r.fl⟩ else r

/-! ## Approximate functions (R150)

The functions are evaluated in fixed point with 320 fraction bits, far beyond any bound of the table. The result is the
implementation's function where it lies within the bound, else the evaluation rounded to nearest. -/

def fxBits : Nat := 320
def fxOne : Int := ((2 ^ fxBits : Nat) : Int)

def fxMul (a b : Int) : Int := a * b / fxOne

/-- Σ t_k with t_0 = t and t_(k+1) = t_k x / (k + c), for `n` terms: a power series with factorial terms. -/
def expSeries (x : Int) : Nat → Nat → Int → Int
  | 0, _, _ => 0
  | n + 1, k, t => t + expSeries x n (k + 1) (fxMul t x / ((k + 1 : Nat) : Int))

/-- Σ z^(2k+1) / (2k+1) with alternating or constant signs: artanh, or arctan for `alt`. -/
def oddSeries (alt : Bool) (z2 : Int) : Nat → Nat → Int → Int
  | 0, _, _ => 0
  | n + 1, k, p => p / ((2 * k + 1 : Nat) : Int) + oddSeries alt z2 n (k + 1) (if alt then -(fxMul p z2) else fxMul p z2)

/-- ln 2 = 2 artanh (1/3). -/
def fxLn2 : Int := 2 * oddSeries false (fxOne / 9) 110 0 (fxOne / 3)

/-- π = 16 arctan (1/5) − 4 arctan (1/239). -/
def fxPi : Int := 16 * oddSeries true (fxOne / 25) 75 0 (fxOne / 5) - 4 * oddSeries true (fxOne / 57121) 25 0 (fxOne / 239)

/-- m 2^e in fixed point, rounded down. -/
def fxOf (neg : Bool) (m : Nat) (e : Int) : Int :=
  let k := e + fxBits
  let x : Int := if 0 ≤ k then ((m * 2 ^ k.toNat : Nat) : Int) else ((m / 2 ^ (-k).toNat : Nat) : Int)
  if neg then -x else x

/-- 2^x for x in fixed point. -/
def fxExp2 (x : Int) : Int :=
  let n := x / fxOne
  let fr := x - n * fxOne
  let y := expSeries (fxMul fr fxLn2) 90 0 fxOne
  if 0 ≤ n then y * ((2 ^ n.toNat : Nat) : Int) else y / ((2 ^ (-n).toNat : Nat) : Int)

/-- e^x. -/
def fxExp (x : Int) : Int := fxExp2 (x * fxOne / fxLn2)

/-- log2 of m 2^e, m > 0. -/
def fxLog2 (m : Nat) (e : Int) : Int :=
  let k := log2 m
  let y : Int := ((m * 2 ^ fxBits / 2 ^ k : Nat) : Int)
  let z := (y - fxOne) * fxOne / (y + fxOne)
  ((k : Int) + e) * fxOne + 2 * oddSeries false (fxMul z z) 110 0 z * fxOne / fxLn2

/-- sin and cos by their series after reduction to |y| ≤ π. -/
def fxSinCos (x : Int) (cos : Bool) : Int :=
  let y := x - (x + fxPi) / (2 * fxPi) * (2 * fxPi)
  let y2 := fxMul y y
  let rec go (n k : Nat) (t : Int) : Int :=
    match n with
    | 0 => 0
    | n + 1 => t + go n (k + 2) (-(fxMul t y2) / (((k + 1) * (k + 2) : Nat) : Int))
  if cos then go 60 0 fxOne else go 60 1 y

/-- tanh x. -/
def fxTanh (x : Int) : Int :=
  let a := if x < 0 then -x else x
  if 200 * fxOne < a then (if x < 0 then -fxOne else fxOne)
  else
    let t := fxExp (-2 * a)
    let r := (fxOne - t) * fxOne / (fxOne + t)
    if x < 0 then -r else r

/-- 1 / (1 + e^−x). -/
def fxSigm (x : Int) : Int :=
  if 220 * fxOne < x then fxOne
  else if x < -220 * fxOne then 1
  else fxOne * fxOne / (fxOne + fxExp (-x))

/-- The evaluation rounded to nearest. -/
def Fmt.ofFx (f : Fmt) (fz : Bool) (v : Int) : FRes :=
  if v = 0 then ⟨f.zero false, flNX⟩ else (f.round .rn fz (v < 0) v.natAbs (-(fxBits : Int)) true).or flNX

/-- One unit in the last place of the format at the exact result v. -/
def Fmt.fxUlp (f : Fmt) (v : Int) : Int :=
  let ex : Int := if v = 0 then f.emin else expOf v.natAbs (-(fxBits : Int))
  ((2 ^ ((max ex f.emin) - f.mb + fxBits).toNat : Nat) : Int)

/-- The implementation's result where it is a finite value within `bound` of v and satisfies `ok`, else the nearest. Every result here is inexact, and a tiny one sets
UF (R112). -/
def Fmt.within (f : Fmt) (fz : Bool) (cand : Nat) (v bound : Int) (ok : Int → Bool) : FRes :=
  let c := cand % 2 ^ f.width
  match f.value c with
  | .fin n m e =>
    let y := fxOf n m e
    if ((y - v).natAbs : Int) + 2 ^ 40 ≤ bound && ok y then
      let tiny := m = 0 || expOf m e < f.emin
      if fz && f.flushes && m ≠ 0 && tiny then ⟨f.zero n, flUF ||| flNX⟩
      else ⟨c, flNX ||| (if tiny then flUF else 0)⟩
    else f.ofFx fz v
  | _ => f.ofFx fz v

/-- Is m 2^e a power of two, and of which exponent? -/
def pow2Of (m : Nat) (e : Int) : Option Int := if m = 2 ^ log2 m then some (expOf m e) else none

/-- The approximate operation with opcode `op` (0x28 to 0x2F) on the pattern x (R150). An exact subnormal reciprocal of a power of two sets NX, since R150 sets it on
every result that its table does not mark exact, although R136 names only results that differ from the exact one: the model's choice (log 98). -/
def Fmt.approxRes (f : Fmt) (fz : Bool) (op x : Nat) : FRes :=
  let half := decide (f.eb = 5)
  let cand := Config.approx (2 * op + b2n half) x
  let any := fun (_ : Int) => true
  let none' : Int := 0
  let exact := fun (neg : Bool) (m : Nat) (e : Int) => (⟨(f.roundZ .rn fz neg m e false).bits, (f.roundZ .rn fz neg m e false).fl⟩ : FRes)
  match f.value x with
  | .nan s => f.nanRes s
  | .inf n =>
    match op with
    | 0x28 => ⟨f.zero n, 0⟩
    | 0x29 => if n then f.nanRes true else ⟨f.zero false, 0⟩
    | 0x2A => if n then ⟨f.zero false, 0⟩ else ⟨f.inf false, 0⟩
    | 0x2B => if n then f.nanRes true else ⟨f.inf false, 0⟩
    | 0x2C | 0x2D => f.nanRes true
    | 0x2E => exact n 1 0
    | _ => if n then ⟨f.zero false, 0⟩ else exact false 1 0
  | .fin n m e =>
    if m = 0 then
      match op with
      | 0x28 => ⟨f.inf n, flDZ⟩
      | 0x29 => ⟨f.inf n, flDZ⟩
      | 0x2A => exact false 1 0
      | 0x2B => ⟨f.inf true, flDZ⟩
      | 0x2C | 0x2E => ⟨f.zero n, 0⟩
      | 0x2D => exact false 1 0
      | _ => exact false 1 (-1)
    else
      let v := fxOf n m e
      match op with
      | 0x28 =>
        match pow2Of m e with
        | some k =>
          let r := f.roundZ .rn fz n 1 (-k) false
          if f.emin ≤ -k && -k ≤ f.bias then r else r.or flNX
        | none =>
          let sh := fxBits + log2 m
          let q := 2 ^ sh / m
          let ref := (f.round .rn fz n q (-(sh : Int) - e) true).or flNX
          if half || ref.bits = f.inf n then ref
          else
            -- within 1 ulp: one of the two values that bracket the exact reciprocal; one that overflows is infinite (R112)
            let dn := (f.round .rz fz n q (-(sh : Int) - e) true).or flNX
            let up := (f.round (if n then .rd else .ru) fz n q (-(sh : Int) - e) true).or flNX
            if cand = dn.bits then dn else if cand = up.bits then up else ref
      | 0x29 =>
        if n then f.nanRes true
        else
          match pow2Of m e with
          | some k => if k % 2 = 0 && f.emin ≤ -(k / 2) then exact false 1 (-(k / 2)) else
              -- 2^(-k/2), k odd: 1/√2 scaled
              let s := isqrt (2 ^ (2 * fxBits - 1))
              let r := (f.round .rn fz false s (-(fxBits : Int) - (k - 1) / 2) true).or flNX
              if half then r else
                let w := (isqrt (2 ^ (2 * fxBits - 1)) : Int)
                let c := cand % 2 ^ f.width
                match f.value c with
                | .fin false m' e' =>
                  let y := fxOf false m' (e' + (k - 1) / 2)
                  if ((y - w).natAbs : Int) + 2 ^ 40 ≤ 2 * f.fxUlp w then ⟨c, flNX⟩ else r
                | _ => r
          | none =>
            -- 1/√(m 2^e) with e made even, scaled to 2^(-e/2)
            let odd := (e % 2 = 1)
            let m2 := if odd then 2 * m else m
            let e2 := (if odd then e - 1 else e) / 2
            let w := isqrt (2 ^ (2 * fxBits + 64) / m2)
            let r := (f.round .rn fz false w (-(fxBits : Int) - 32 - e2) true).or flNX
            if half then r else
              let c := cand % 2 ^ f.width
              match f.value c with
              | .fin false m' e' =>
                let d := (fxOf false m' (e' + e2 + 32) - (w : Int)).natAbs
                let ulp := 2 ^ ((max (expOf w (-(fxBits : Int) - 32 - e2)) f.emin) - f.mb + fxBits + 32 + e2).toNat
                if d + 2 ^ 40 ≤ 2 * ulp then ⟨c, flNX⟩ else r
              | _ => r
      | 0x2A =>
        let big := (f.bias + 1 : Nat)
        if !n && ((big : Int) ≤ expOf m e || ((big : Int) * fxOne ≤ v)) then ⟨f.inf false, flOF ||| flNX⟩
        else if 0 ≤ e && expOf m e < 12 && (-(f.bias : Int) + 1 - f.mb ≤ (if n then -(m * 2 ^ e.toNat : Nat) else (m * 2 ^ e.toNat : Nat) : Int)) then
          exact false 1 (if n then -((m * 2 ^ e.toNat : Nat) : Int) else ((m * 2 ^ e.toNat : Nat) : Int))
        else if v % fxOne = 0 && expOf m e < 12 && (-(f.bias : Int) + 1 - f.mb ≤ v / fxOne) then exact false 1 (v / fxOne)
        else if n && (300 * fxOne ≤ -v || 12 ≤ expOf m e) then
          -- below the least subnormal: zero, or the least subnormal inside the bound
          if half then ⟨f.zero false, flUF ||| flNX⟩
          else if cand % 2 ^ f.width ≤ 1 && !fz then ⟨cand % 2 ^ f.width, flUF ||| flNX⟩ else ⟨f.zero false, flUF ||| flNX⟩
        else
          let r := fxExp2 v
          if half && v % fxOne = 0 then f.round .rn fz false 1 (v / fxOne) false
          else if half then f.ofFx fz r else f.within fz cand r (2 * f.fxUlp r) any
      | 0x2B =>
        if n then f.nanRes true
        else
          match pow2Of m e with
          | some k => exact (k < 0) k.natAbs 0
          | none =>
            let r := fxLog2 m e
            if half then f.ofFx fz r
            else if fxOne / 2 ≤ v && v ≤ 2 * fxOne then f.within fz cand r (((2 ^ (fxBits - 22) : Nat) : Int)) any
            else f.within fz cand r (2 * f.fxUlp r) any
      | 0x2C | 0x2D =>
        let inUnit := fun (y : Int) => -fxOne ≤ y && y ≤ fxOne
        if expOf m e < 15 || (m = 2 ^ log2 m && expOf m e = 15) then
          let r := fxSinCos v (op = 0x2D)
          if half then f.within fz cand r (f.fxUlp r) any
          else f.within fz cand r (((2 ^ (fxBits - 21) : Nat) : Int)) any
        else if half then
          let r := fxSinCos v (op = 0x2D)
          f.within fz cand r (f.fxUlp r) any
        else f.within fz cand none' (fxOne + 2 ^ 41) inUnit
      | 0x2E =>
        let r := fxTanh (if 9 ≤ expOf m e then (if n then -1000 * fxOne else 1000 * fxOne) else v)
        if half then f.within fz cand r (f.fxUlp r) any
        else f.within fz cand r (((2 ^ (fxBits - 21) : Nat) : Int)) any
      | _ =>
        let r := fxSigm (if 9 ≤ expOf m e then (if n then -1000 * fxOne else 1000 * fxOne) else v)
        if half then f.within fz cand r (f.fxUlp r) any
        else f.within fz cand r (((2 ^ (fxBits - 22) : Nat) : Int)) (fun y => 0 ≤ y && y ≤ fxOne)

/-! ## The alignment rule (R130 to R134) -/

/-- One product of a group: two CE16 operands; `pad`: an operand is an element padded in at a clipped edge, which sets no flag (R131). -/
structure Prod where
  a : Nat
  b : Nat
  pad : Bool
  deriving DecidableEq, Repr, Inhabited

/-- A term of a group: its value, whether it is a signalling NaN's product, whether it may set flags. -/
structure Term where
  v : FV
  sig : Bool
  pad : Bool
  deriving DecidableEq, Repr, Inhabited

/-- The terms of a group: the accumulator and the products whose operands are not zero (R131). -/
def groupTerms (acc : Nat) (ps : List Prod) : List Term :=
  let t0 : Term := ⟨fp32.value acc, (fp32.value acc).isSig, false⟩
  t0 :: ps.filterMap (fun p =>
    let a := bf16.value p.a
    let b := bf16.value p.b
    if a.isZero || b.isZero then none else some ⟨(mulV a b).1, a.isSig || b.isSig, p.pad⟩)

/-- One alignment group: the FP32 result and its flags, LS included (R132, R134). Of a padded product R131 says only that it sets no flag; the model's choice is
that the rounding of the group's result sets its own flags all the same, and that +∞ with −∞ sets IV only where both signs come from terms that are
not padded (log 43). -/
def dotGroup (aw acc : Nat) (ps : List Prod) : FRes :=
  let ts := groupTerms acc ps
  if ts.any (fun t => t.v.isNan) then fp32.nanRes (ts.any (fun t => t.sig && !t.pad))
  else
    let pinf := ts.any (fun t => t.v = .inf false)
    let ninf := ts.any (fun t => t.v = .inf true)
    if pinf && ninf then
      fp32.nanRes (ts.any (fun t => t.v = .inf false && !t.pad) && ts.any (fun t => t.v = .inf true && !t.pad))
    else if pinf then ⟨fp32.inf false, 0⟩
    else if ninf then ⟨fp32.inf true, 0⟩
    else
      let nz := ts.filterMap (fun t => match t.v with | .fin n m e => if m = 0 then none else some (n, m, e, t.pad) | _ => none)
      match nz with
      | [] => ⟨acc, 0⟩
      | (_, m0, e0, _) :: rest =>
        let emax := rest.foldl (fun x t => max x (expOf t.2.1 t.2.2.1)) (expOf m0 e0)
        let lsb := emax - (24 + 8 * aw : Nat) + 1
        let parts := nz.map (fun (n, m, e, pad) =>
          let q := if lsb ≤ e then m * 2 ^ (e - lsb).toNat else m / 2 ^ (lsb - e).toNat
          let lost := if lsb ≤ e then false else m % 2 ^ (lsb - e).toNat ≠ 0
          ((if n then -(q : Int) else (q : Int)), lost && !pad))
        let sum := parts.foldl (fun x p => x + p.1) (0 : Int)
        let ls := if parts.any (fun p => p.2) then flLS else 0
        if sum = 0 then ⟨0, ls⟩ else (fp32.round .rn false (sum < 0) sum.natAbs lsb false).or ls

/-- A dot product: groups of 32 consecutive positions in ascending order, each group's result the accumulator of the next (R130). -/
def dotGroups (aw : Nat) : FRes → List (List Prod) → FRes
  | r, [] => r
  | r, g :: gs =>
    let x := dotGroup aw r.bits g
    dotGroups aw (x.or r.fl) gs

end Sys2Proof.Machine
end

