-- ==== Sys2Proof/Machine/Encoding.lean ====
section
/-!
DEFINITION. The encoding tables: the common word and the FN layouts (R75, R76, R91 to R95), the operand kinds (R86), and for
every opcode the lengths, U and MX settings, field classes and register ranges that its entry accepts, with the
checks 1 to 5 of R101 made from them.
-/

namespace Sys2Proof.Machine

/-- An instruction as its fields: the opcode, the common word, FN, and bits 127:64 (zero where the length has none). -/
structure Enc where
  op : BitVec 8
  h : Hdr
  fn : BitVec 12
  x : BitVec 64
  deriving DecidableEq, Repr

/-- The kinds of an operand field (R86). -/
inductive Kind | v | s | i | none
  deriving DecidableEq, Repr

/-- The operand kinds of D, A, B and C under MX (R86). -/
def mxKinds (mx : BitVec 4) : Kind × Kind × Kind × Kind :=
  match mx.toNat with
  | 0x0 => (.v, .v, .v, .v) | 0x1 => (.v, .v, .v, .s) | 0x2 => (.v, .v, .s, .v) | 0x3 => (.v, .s, .v, .v)
  | 0x4 => (.v, .v, .i, .v) | 0x5 => (.v, .v, .v, .i) | 0x6 => (.s, .i, .none, .none) | 0x7 => (.v, .v, .i, .i)
  | 0x8 => (.v, .s, .v, .i) | 0x9 => (.v, .s, .i, .i) | 0xA => (.s, .s, .s, .s) | 0xB => (.s, .s, .i, .s)
  | 0xC => (.s, .s, .i, .i) | 0xD => (.s, .v, .v, .v) | 0xE => (.v, .v, .s, .i) | _ => (.i, .s, .none, .none)

def kindD (mx : BitVec 4) : Kind := (mxKinds mx).1
def kindA (mx : BitVec 4) : Kind := (mxKinds mx).2.1
def kindB (mx : BitVec 4) : Kind := (mxKinds mx).2.2.1
def kindC (mx : BitVec 4) : Kind := (mxKinds mx).2.2.2

/-! The codes of the FN fields. -/

def tyOf (n : Nat) : Ty :=
  match n with
  | 0 => .i32 | 1 => .n32 | 2 => .i64 | 3 => .n64 | 4 => .i16 | 5 => .n16 | 6 => .i8 | 7 => .n8
  | 8 => .b32 | 9 => .b64 | 10 => .f32 | 11 => .f16 | 12 => .bf16 | 13 => .f64 | 14 => .ce16 | _ => .nar

def tyCode : Ty → Nat
  | .i32 => 0 | .n32 => 1 | .i64 => 2 | .n64 => 3 | .i16 => 4 | .n16 => 5 | .i8 => 6 | .n8 => 7
  | .b32 => 8 | .b64 => 9 | .f32 => 10 | .f16 => 11 | .bf16 => 12 | .f64 => 13 | .ce16 => 14 | .nar => 15

def ftOf (n : Nat) : FT := match n with | 0 => .f32 | 1 => .f16 | 2 => .bf16 | _ => .f64
def ftCode : FT → Nat | .f32 => 0 | .f16 => 1 | .bf16 => 2 | .f64 => 3

def rndOf (n : Nat) : Option Rnd :=
  match n with | 0 => some .rn | 1 => some .rz | 2 => some .ru | 3 => some .rd | 4 => some .dyn | 5 => some .rs | _ => none
def rndCode : Rnd → Nat | .rn => 0 | .rz => 1 | .ru => 2 | .rd => 3 | .dyn => 4 | .rs => 5

def cmpOf (n : Nat) : Option Cmp :=
  match n with
  | 0 => some .eq | 1 => some .ne | 2 => some .lt | 3 => some .le | 4 => some .gt | 5 => some .ge | 6 => some .num
  | 7 => some .nan | 8 => some .equ | 9 => some .neu | 10 => some .ltu | 11 => some .leu | 12 => some .gtu
  | 13 => some .geu | _ => none
def cmpCode : Cmp → Nat
  | .eq => 0 | .ne => 1 | .lt => 2 | .le => 3 | .gt => 4 | .ge => 5 | .num => 6 | .nan => 7 | .equ => 8 | .neu => 9
  | .ltu => 10 | .leu => 11 | .gtu => 12 | .geu => 13

def bopOf (n : Nat) : Bop := match n with | 0 => .none | 1 => .and | 2 => .or | _ => .xor
def bopCode : Bop → Nat | .none => 0 | .and => 1 | .or => 2 | .xor => 3

def ordOf (n : Nat) : MOrd := match n with | 0 => .plain | 1 => .acq | 2 => .rel | _ => .ar
def ordCode : MOrd → Nat | .plain => 0 | .acq => 1 | .rel => 2 | .ar => 3

def szOf (n : Nat) : Option Size :=
  match n with
  | 0 => some .b8 | 1 => some .b16 | 2 => some .b32 | 3 => some .b64 | 4 => some .b128 | 5 => some .b256
  | 6 => some .i8 | 7 => some .i16 | _ => none
def szCode : Size → Nat
  | .b8 => 0 | .b16 => 1 | .b32 => 2 | .b64 => 3 | .b128 => 4 | .b256 => 5 | .i8 => 6 | .i16 => 7

/-! The FN layouts (R91): each is read from the 12 bits 59:48, here numbered 11:0, and written back. -/

def intFnOf (f : BitVec 12) : Option IntFn :=
  let n := f.toNat
  if bitsAt n 5 1 = 0 then
    some { sub := .ofNat 3 (bitsAt n 9 3), po := .ofNat 3 (bitsAt n 6 3), sat := bitAt n 4, ty := tyOf (bitsAt n 0 4) }
  else none
def intFnBits (f : IntFn) : BitVec 12 :=
  .ofNat 12 (f.sub.toNat * 512 + f.po.toNat * 64 + b2n f.sat * 16 + tyCode f.ty)

def lutFnOf (f : BitVec 12) : Option LutFn :=
  if bitsAt f.toNat 8 4 = 0 then some { lut := .ofNat 8 (bitsAt f.toNat 0 8) } else none
def lutFnBits (f : LutFn) : BitVec 12 := .ofNat 12 f.lut.toNat

def fltFnOf (f : BitVec 12) : Option FltFn :=
  let n := f.toNat
  match rndOf (bitsAt n 0 3) with
  | some r => some { sub := .ofNat 2 (bitsAt n 10 2), ft := ftOf (bitsAt n 8 2), aa := bitAt n 7, nc := bitAt n 6,
                     nb := bitAt n 5, na := bitAt n 4, sat := bitAt n 3, rnd := r }
  | none => none
def fltFnBits (f : FltFn) : BitVec 12 :=
  .ofNat 12 (f.sub.toNat * 1024 + ftCode f.ft * 256 + b2n f.aa * 128 + b2n f.nc * 64 + b2n f.nb * 32 + b2n f.na * 16
    + b2n f.sat * 8 + rndCode f.rnd)

def cvtFnOf (f : BitVec 12) : Option CvtFn :=
  let n := f.toNat
  match rndOf (bitsAt n 0 3) with
  | some r => some { st := tyOf (bitsAt n 8 4), dt := tyOf (bitsAt n 4 4), sat := bitAt n 3, rnd := r }
  | none => none
def cvtFnBits (f : CvtFn) : BitVec 12 :=
  .ofNat 12 (tyCode f.st * 256 + tyCode f.dt * 16 + b2n f.sat * 8 + rndCode f.rnd)

def cmpFnOf (f : BitVec 12) : Option CmpFn :=
  let n := f.toNat
  if bitsAt n 8 2 = 0 then
    match cmpOf (bitsAt n 4 4) with
    | some c => some { bop := bopOf (bitsAt n 10 2), cmp := c, ty := tyOf (bitsAt n 0 4) }
    | none => none
  else none
def cmpFnBits (f : CmpFn) : BitVec 12 :=
  .ofNat 12 (bopCode f.bop * 1024 + cmpCode f.cmp * 16 + tyCode f.ty)

def laneFnOf (f : BitVec 12) : Option LaneFn :=
  let n := f.toNat
  some { lmod := .ofNat 4 (bitsAt n 8 4), lop := .ofNat 4 (bitsAt n 4 4), ty := tyOf (bitsAt n 0 4) }
def laneFnBits (f : LaneFn) : BitVec 12 :=
  .ofNat 12 (f.lmod.toNat * 256 + f.lop.toNat * 16 + tyCode f.ty)

def codeFnOf (f : BitVec 12) : Option CodeFn :=
  if bitsAt f.toNat 8 4 = 0 then some { code := .ofNat 8 (bitsAt f.toNat 0 8) } else none
def codeFnBits (f : CodeFn) : BitVec 12 := .ofNat 12 f.code.toNat

def memFnOf (f : BitVec 12) : Option MemFn :=
  let n := f.toNat
  match szOf (bitsAt n 3 4) with
  | some z => some { xs := bitAt n 11, ord := ordOf (bitsAt n 9 2), hint := .ofNat 2 (bitsAt n 7 2), sz := z,
                     seg := .ofNat 3 (bitsAt n 0 3) }
  | none => none
def memFnBits (f : MemFn) : BitVec 12 :=
  .ofNat 12 (b2n f.xs * 2048 + ordCode f.ord * 512 + f.hint.toNat * 128 + szCode f.sz * 8 + f.seg.toNat)

def engFnOf (f : BitVec 12) : Option EngFn :=
  some { sub := .ofNat 8 (bitsAt f.toNat 4 8), ty := tyOf (bitsAt f.toNat 0 4) }
def engFnBits (f : EngFn) : BitVec 12 := .ofNat 12 (f.sub.toNat * 16 + tyCode f.ty)

/-! ## What the entries accept -/

/-- How an entry uses an operand field. -/
inductive Fld
  /-- unused: holds zero (R87) -/
  | zero
  /-- destination of `n` registers aligned to `al`: V under U = 0, S under U = 1 (R139) -/
  | dst (n al : Nat)
  /-- as dst, or `sn` scalars aligned to `sal` under MX 0xD (R164) -/
  | dstS (n al sn sal : Nat)
  /-- a register of an accepted kind, or an immediate -/
  | src (v s i : Bool) (n al : Nat)
  /-- an immediate of kind I with a value from `lo` to `hi` -/
  | imm (lo hi : Nat)
  /-- a field of fixed class with a value from `lo` to `hi` (R87) -/
  | cls (lo hi : Nat)
  /-- the "tok" format of R273; `must`: a token must be named -/
  | tok (must : Bool)
  deriving DecidableEq, Repr

/-- A register range that bits 127:64 name: kind, first register, count, alignment. -/
structure ExtReg where
  kind : Kind
  first : Nat
  n : Nat
  al : Nat
  deriving DecidableEq, Repr

/-- What an entry accepts. `mxs`: the listed MX values, or none where R139 decides by the field kinds. -/
structure Shape where
  lens : List Len
  us : List Bool
  mxs : Option (List Nat)
  fn : Bool
  d : Fld
  a : Fld
  b : Fld
  c : Fld
  /-- the reserved bits and value limits of bits 127:64, and immediate limits -/
  ext : Bool := true
  regs : List ExtReg := []
  priv : Bool := false
  deriving DecidableEq, Repr

/-- The kind of value a field holds under MX: `none` where MX has no say. -/
def Fld.useKind (f : Fld) (k : Kind) : Kind :=
  match f with
  | .dst .. | .dstS .. | .src .. | .imm .. => k
  | .zero | .cls .. | .tok .. => .none

/-- Is the field's kind under MX one that the entry accepts (R139)? -/
def Fld.kindOk (f : Fld) (k : Kind) (u : Bool) (mx : Nat) : Bool :=
  match f with
  | .zero | .cls .. | .tok .. => true
  | .dst .. => decide (k = (if u then .s else .v))
  | .dstS .. => if u then decide (k = .s) else decide (k = .v) || decide (mx = 0xD)
  | .src v s i .. => (match k with | .v => v | .s => s | .i => i | .none => false)
  | .imm .. => decide (k = .i)

/-- Is the value of a field of fixed class, or of an unused field, inside its limits (R87)? -/
def Fld.valOk (f : Fld) (v : Nat) : Bool :=
  match f with
  | .zero => v = 0
  | .cls lo hi => lo ≤ v && v ≤ hi
  | .tok must => v < 32 && (!must || 16 ≤ v)
  | .imm lo hi => lo ≤ v && v ≤ hi
  | .dst .. | .dstS .. | .src .. => true

/-- The operand that the 32-bit immediate word belongs to (R90): the highest-lettered field of kind I. -/
inductive Owner | d | a | b | c
  deriving DecidableEq, Repr

/-- Outside the memory and control groups (R90). -/
def wordGroup (op : Nat) : Bool := !((0x60 ≤ op && op ≤ 0x6A) || (0x80 ≤ op && op ≤ 0x8B))

def Shape.owner (sh : Shape) (mx : BitVec 4) : Option Owner :=
  if sh.c.useKind (kindC mx) = .i then some .c
  else if sh.b.useKind (kindB mx) = .i then some .b
  else if sh.a.useKind (kindA mx) = .i then some .a
  else if sh.d.useKind (kindD mx) = .i then some .d
  else none

/-- The owner of the immediate word of this encoding, if it has one. -/
def Enc.owner (e : Enc) (sh : Shape) : Option Owner :=
  if e.h.len = .w96 && wordGroup e.op.toNat then sh.owner e.h.mx else none

/-- The value of a field: the immediate word where it owns it. -/
def Enc.fieldVal (e : Enc) (sh : Shape) (o : Owner) : Nat :=
  if e.owner sh = some o then bitsAt e.x.toNat 0 32
  else match o with | .d => e.h.d.toNat | .a => e.h.a.toNat | .b => e.h.b.toNat | .c => e.h.c.toNat

/-- The number of registers of a type (R140). -/
def tyRegs (t : Ty) : Nat :=
  match t with | .i64 | .n64 | .b64 | .f64 => 2 | _ => 1

def isIntTy (t : Ty) : Bool :=
  match t with | .i32 | .n32 | .i64 | .n64 | .i16 | .n16 | .i8 | .n8 => true | _ => false

def isHalfFloat (t : Ty) : Bool := match t with | .f16 | .bf16 | .ce16 => true | _ => false

def badShape : Shape := ⟨[.w64, .w96, .w128], [false, true], none, false, .zero, .zero, .zero, .zero, true, [], false⟩

/-- A word that a 16-bit float immediate fills must have bits 31:16 zero (R88). -/
def halfWordOk (e : Enc) (k : Kind) : Bool :=
  !(e.h.len = .w96 && k = .i) || bitsAt e.x.toNat 16 16 = 0

/-- The 96-bit owner under a given field use, before the shape is complete. -/
def immOwnerKind (e : Enc) (b c : Bool) : Bool × Bool :=
  (b && !(c && kindC e.h.mx = .i) && kindB e.h.mx = .i, c && kindC e.h.mx = .i)

def rr : Nat → Fld := fun n => .src true true false n n
def rri : Nat → Fld := fun n => .src true true true n n
def cnt : Fld := .src true true true 1 1

/-- Integer and bit group (R142). -/
def shapeInt (e : Enc) (o : Nat) : Shape :=
  let n := e.fn.toNat
  let sub := bitsAt n 9 3
  let po := bitsAt n 6 3
  let sat := bitAt n 4
  let tc := bitsAt n 0 4
  let ty := tyOf tc
  let r := tyRegs ty
  let lens := [Len.w64, .w96]
  let us := [false, true]
  let mk (tys : List Nat) (subs : Nat) (satOk : Bool) (d a b c : Fld) : Shape :=
    ⟨lens, us, none, bitsAt n 5 1 = 0 && tys.contains tc && sub ≤ subs && (satOk || !sat), d, a, b, c, true, [], false⟩
  let i4 := [0, 1, 2, 3]
  let wide := sub = 1
  match o with
  | 0x00 | 0x01 | 0x05 => mk i4 0 true (.dst r r) (rr r) (rri r) .zero
  | 0x02 => if wide then mk [0, 1] 1 false (.dst 2 2) (rr 1) (rri 1) .zero else mk i4 0 true (.dst r r) (rr r) (rri r) .zero
  | 0x04 => if wide then mk [0, 1] 1 false (.dst 2 2) (rr 1) (rri 1) (rri 2)
            else mk i4 0 true (.dst r r) (rr r) (rri r) (rri r)
  | 0x03 | 0x06 | 0x07 | 0x08 => mk i4 0 false (.dst r r) (rr r) (rri r) .zero
  | 0x09 | 0x0A => mk [0, 2] 0 true (.dst r r) (rr r) .zero .zero
  | 0x0B | 0x0C | 0x0D => mk [8, 9] 0 false (.dst r r) (rr r) (rri r) .zero
  | 0x0E => mk [8, 9] 0 false (.dst r r) (rr r) .zero .zero
  | 0x0F => ⟨lens, us, none, bitsAt n 8 4 = 0, .dst 1 1, rr 1, rri 1, rri 1, true, [], false⟩
  | 0x10 => mk [8, 9] 1 false (.dst r r) (rr r) cnt .zero
  | 0x11 => mk [8, 9, 0, 2] 1 false (.dst r r) (rr r) cnt .zero
  | 0x12 => mk [8, 9] 1 false (.dst r r) (rr r) cnt .zero
  | 0x13 => mk [8] 3 false (.dst 1 1) (rr 1) cnt (rri 1)
  | 0x14 => mk i4 0 false (.dst r r) (rr r) cnt .zero
  | 0x15 => mk [8, 9] 0 false (.dst r r) (rr r) cnt (rri r)
  | 0x16 | 0x17 | 0x18 => mk [8, 9] 0 false (.dst 1 1) (rr r) .zero .zero
  | 0x19 => mk [8, 9] 0 false (.dst r r) (rr r) .zero .zero
  | 0x1A => mk [8] 0 false (.dst 1 1) (rr 1) cnt (rri 1)
  | 0x1B => mk [1, 3, 2] 7 false (.dst r r) (rr r) cnt .zero
  | 0x1C => mk i4 0 true (.dst r r) (rr r) (rri r) (.cls 0 7)
  | 0x1D => mk [0, 1] 0 true (.dst 1 1) (rr 1) (rri 1) (rri 1)
  | 0x1E => mk [0] 3 true (.dst 1 1) (rr 1) (rri 1) (rri 1)
  | _ => { mk [8, 9, 3, 2] 0 false (.dst r r) .zero (.imm 0 0xFFFFFFFF) .zero with
           fn := bitsAt n 5 1 = 0 && [8, 9, 3, 2].contains tc && sub = 0 && !sat && po = 0 }

/-- Float group (R148). -/
def shapeFlt (e : Enc) (o : Nat) : Shape :=
  let n := e.fn.toNat
  let sub := bitsAt n 10 2
  let ft := bitsAt n 8 2
  let mods := bitsAt n 4 4     -- AA NC NB NA
  let sat := bitAt n 3
  let rnd := bitsAt n 0 3
  let r := if ft = 3 then 2 else 1
  let modOk (m : Nat) : Bool := mods &&& (15 - m) = 0
  let m1 := 9; let m2 := 11; let m3 := 15
  let mk (us : List Bool) (fts : List Nat) (subs : Nat) (rnds : List Nat) (m : Nat) (satOk : Bool) (d a b c : Fld) (ext : Bool) : Shape :=
    ⟨[.w64, .w96], us, none,
      fts.contains ft && sub ≤ subs && rnds.contains rnd && modOk m && (satOk || !sat), d, a, b, c, ext, [], false⟩
  let us2 := [false, true]
  let us0 := [false]
  let all := [0, 1, 2, 3, 4]
  let f3 := [0, 1, 2]
  let half := decide (ft = 1) || decide (ft = 2)
  let w2 := !half || halfWordOk e (kindB e.h.mx)
  let w3 := !half || !(immOwnerKind e true true).1 && !(immOwnerKind e true true).2 || halfWordOk e .i
  match o with
  | 0x20 | 0x21 | 0x22 | 0x26 => mk us2 f3 0 all m2 true (.dst 1 1) (rr 1) (rri 1) .zero w2
  | 0x23 => mk us2 f3 0 all m3 true (.dst 1 1) (rr 1) (rri 1) (rri 1) w3
  | 0x24 | 0x25 => mk us2 f3 1 [0] m2 false (.dst 1 1) (rr 1) (rri 1) .zero w2
  | 0x27 | 0x30 => mk us2 f3 0 all m1 true (.dst 1 1) (rr 1) .zero .zero true
  | 0x28 | 0x29 | 0x2A | 0x2B | 0x2C | 0x2D | 0x2E | 0x2F =>
      mk us2 [0, 1] 0 [0, 4] m1 true (.dst 1 1) (rr 1) .zero .zero true
  | 0x31 => mk us2 f3 0 all m1 false (.dst 1 1) (rr 1) .zero .zero true
  | 0x32 => mk us2 f3 0 all m1 true (.dst 1 1) (rr 1) cnt .zero true
  | 0x33 => mk us2 [0, 1, 2, 3] 0 [0] 0 false (.dst 1 1) (rr r) .zero .zero true
  | 0x34 | 0x35 => mk us0 [1, 2] 0 all m2 true (.dst 1 1) (rr 1) (rri 1) .zero true
  | 0x36 => mk us0 [1, 2] 0 all m3 true (.dst 1 1) (rr 1) (rri 1) (rri 1) true
  | 0x37 => mk us0 [1, 2] 3 [0] m2 false (.dst 1 1) (rr 1) (rri 1) .zero true
  | 0x38 | 0x39 | 0x3B => mk us0 [3] 0 all m2 false (.dst 2 2) (rr 2) (rri 2) .zero true
  | 0x3A => mk us0 [3] 0 all m3 false (.dst 2 2) (rr 2) (rri 2) (rri 2) true
  | 0x3C => mk us0 [3] 0 all m2 false (.dst 2 2) (rr 2) .zero .zero true
  | 0x3D => mk us0 [2] 0 [0, 4] 4 false (.dst 1 1) (rr 1) (rri 1) (rri 1) true
  | 0x3E => mk us0 [2] 3 [0, 4] 4 false (.dst 1 1) (.src true false false (2 ^ (sub + 1)) 1)
              (.src true false false (2 ^ (sub + 1)) 1) (rri 1) true
  | _ => mk us2 f3 0 [0] m3 false (.dst 1 1) (rr 1) (rri 1) (rri 1) w3

/-- Conversion and narrow group (R152, R153, R155). -/
def shapeCvt (e : Enc) (o : Nat) : Shape :=
  let n := e.fn.toNat
  let st := bitsAt n 8 4
  let dt := bitsAt n 4 4
  let sat := bitAt n 3
  let rnd := bitsAt n 0 3
  let us2 := [false, true]
  let us0 := [false]
  let lens := [Len.w64, .w96]
  let fl := fun t => t = 0xA || t = 0xB || t = 0xC
  match o with
  | 0x40 =>
      ⟨lens, us2, none, st ≤ 14 && dt ≤ 14 && rnd ≤ 4 && (!sat || (st ≤ 7 && dt ≤ 7)),
        .dst (tyRegs (tyOf dt)) (tyRegs (tyOf dt)), rri (tyRegs (tyOf st)), .zero, .zero,
        !isHalfFloat (tyOf st) || halfWordOk e (kindA e.h.mx), [], false⟩
  | 0x41 =>
      ⟨lens, us0, none,
        ((dt = 15 && fl st && rnd ≤ 5) || (st = 15 && fl dt && rnd ≤ 4 && !sat)),
        .dst 1 1, rr 1, .src false true true 1 1, .cls 0 3, true, [], false⟩
  | 0x42 =>
      let packF := st = 0xA && (dt = 0xB || dt = 0xC)
      let unpF := (st = 0xB || st = 0xC) && dt = 0xA
      let packI := (st = 0 || st = 1) && (dt = 4 || dt = 5)
      let unpI := (st = 4 || st = 5) && (dt = 0 || dt = 1)
      ⟨lens, us2, none, (packF || unpF || packI || unpI) && (!sat || packI) && rnd ≤ 4,
        .dst (if unpF || unpI then 2 else 1) 1, rr 1, (if unpF || unpI then .zero else rr 1), .zero, true, [], false⟩
  | 0x43 => ⟨lens, us0, none, st = 0xA && dt = 15 && rnd ≤ 4, .dst 1 1, .src true false false 1 1, .zero, .cls 0 3, true, [], false⟩
  | 0x44 => ⟨lens, us0, none, st = 15 && (dt = 0xA || dt = 0xC) && rnd = 0 && !sat, .dst 1 1, .src true false false 1 1, .zero, .cls 0 3, true, [], false⟩
  | 0x45 => ⟨lens, [true], none, n = 0, .cls 0 3,
      .src false true (e.h.mx.toNat = 6 && e.h.len = .w96) 1 1, .zero, .zero, true, [], false⟩
  | 0x46 => ⟨lens, [true], none, n = 0, .dst 1 1, .cls 0 3, .zero, .zero, true, [], false⟩
  | 0x47 => ⟨lens, us0, none, n = 0, .zero, rri 1, .zero, .zero, true, [], false⟩
  | 0x48 => ⟨lens, us0, none, n = 0, .dst 1 1, .zero, .zero, .zero, true, [], false⟩
  | _ => ⟨lens, us0, none, n = 0, .zero, .zero, .imm 0 127, .zero, true, [], false⟩

/-- Compare and select, moves and lanes (R158 to R168). REDUX with MX 0xD and LMOD other than 0 fails check 4: the model's choice (log 58). -/
def shapeCmp (e : Enc) (o : Nat) : Shape :=
  let n := e.fn.toNat
  let bop := bitsAt n 10 2
  let cmp := bitsAt n 4 4
  let tc := bitsAt n 0 4
  let ty := tyOf tc
  let r := tyRegs ty
  let lmod := bitsAt n 8 4
  let lop := cmp
  let res := decide (bitsAt n 8 2 = 0)
  let us2 := [false, true]
  let us0 := [false]
  let lens := [Len.w64, .w96]
  let pC : Fld := if bop = 0 then .zero else .cls 0 7
  let isF := tc = 0xA || tc = 0xB || tc = 0xC || tc = 0xD
  let half := tc = 0xB || tc = 0xC
  let ab (bb cc : Bool) : Bool :=
    !half || !(e.h.len = .w96) || bitsAt e.x.toNat 16 16 = 0 || !(kindA e.h.mx = .i || (bb && kindB e.h.mx = .i) || (cc && kindC e.h.mx = .i))
  match o with
  | 0x50 => ⟨lens, us2, none, res && tc ≤ 3 && cmp ≤ 5, .cls 0 7, rri r, rri r, pC, true, [], false⟩
  | 0x51 => ⟨lens, us2, none, res && isF && cmp ≤ 13, .cls 0 7, rri r, rri r, pC, ab true false, [], false⟩
  | 0x52 => ⟨lens, us2, none, res && tc = 0 && cmp ≤ 2, .cls 0 7, .cls 0 7, .cls 0 7, pC, true, [], false⟩
  | 0x53 => ⟨lens, us2, none, res && bop = 0 && ((isF && cmp ≤ 13) || ([0, 1, 2, 3, 8, 9].contains tc && cmp ≤ 5)),
              .dst r r, rri r, rri r, rri r, ab true true, [], false⟩
  | 0x54 => ⟨lens, us2, none, lmod = 0 && lop = 0 && (tc = 8 || tc = 9), .dst r r, rr r, .zero, .zero, true, [], false⟩
  | 0x55 => ⟨lens, [true], some [0xA], n = 0, .cls 0 0, .src false true false 1 1, .zero, .zero, true, [], false⟩
  | 0x56 => ⟨lens, us0, none, lmod ≤ 6 && lop ≤ 3 && (tc = 8 || tc = 9), .dst r r, .src true false false r r, cnt, .zero, true, [], false⟩
  | 0x57 => ⟨lens, us0, none, lmod = 0 && lop ≤ 1 && tc = 0, .dstS 1 1 4 4,
              (if lop = 0 then .cls 0 7 else .src true false false 1 1), (if lop = 0 then .zero else cnt), .zero, true, [], false⟩
  | 0x58 => ⟨lens, us0, none, lmod ≤ 6 && lop ≤ 2 && tc = 0, .cls 0 7, .cls 0 7, .zero, .zero, true, [], false⟩
  | 0x59 => ⟨lens, us0, none, lmod ≤ 6 && lop ≤ 1 && (tc = 8 || tc = 9), .dst 1 1, .src true false false r r, .zero, .zero, true, [], false⟩
  | 0x5A => ⟨lens, us0, none, lmod ≤ 6 && (lmod = 0 || e.h.mx.toNat ≠ 0xD) && lop ≤ 5 &&
              (if lop ≤ 2 then [0, 1, 2, 3, 10].contains tc else tc = 8 || tc = 9),
              .dstS r r r r, .src true false false r r, .zero, .zero, true, [], false⟩
  | 0x5B => ⟨lens, us0, none, lmod ≤ 6 && lop % 8 ≤ 5 &&
              (if lop % 8 ≤ 2 then [0, 1, 2, 3, 10].contains tc else tc = 8 || tc = 9),
              .dst r r, .src true false false r r, .zero, .zero, true, [], false⟩
  | 0x5C => ⟨lens, us0, none, lmod ≤ 6 && lop = 0 && tc = 0, .cls 0 7, .zero, .zero, .zero, true, [], false⟩
  | 0x5D =>
      let own := (immOwnerKind e true true).1
      let dist := if e.h.len = .w96 && own then bitsAt e.x.toNat 0 32 else e.h.b.toNat
      ⟨lens, us0, some [0x7, 0x4], lmod = 0 && lop = 0 && tc = 8, .dst 1 1, .src true false false 1 1,
        .imm 0 0xFFFFFFFF, .src true false true 1 1, [1, 2, 4, 8, 16, 32, 64].contains dist, [], false⟩
  | 0x5E => ⟨lens, us2, some (if e.h.u then [0xA] else [0x0]), n = 0, .dst 1 1,
              (if e.h.u && (e.h.a.toNat = 0 || e.h.a.toNat = 0x13) then .cls 1 0 else .cls 0 0x13), .zero, .zero, true, [], false⟩
  | _ => ⟨lens, us0, none, lmod ≤ 6 && lop ≤ 3 && (tc = 8 || tc = 9), .dst r r, .src true false false r r,
              (if lop = 3 then cnt else .zero), .zero, true, [], false⟩

/-- Control group (R170, R84). -/
def shapeCtl (e : Enc) (o : Nat) : Shape :=
  let n := e.fn.toNat
  let us0 := [false]
  let pairA : Fld := .src true true false 2 2
  match o with
  | 0x0 | 0x2 => ⟨[.w96], us0, some [0], n = 0, .zero, .zero, .zero, .zero, true, [], false⟩
  | 0x1 | 0x3 => ⟨[.w64], us0, some [0, 3], n = 0, .zero, pairA, .zero, .zero, true, [], false⟩
  | 0x7 => ⟨[.w64, .w96], us0, some [0], n = 0, .zero, .zero, .zero, .zero, e.x.toNat = 0, [], false⟩
  | 0x8 | 0x9 => ⟨[.w64], us0, some [0], n < 256, .zero, .zero, .zero, .zero, true, [], false⟩
  | 0xA => ⟨[.w64], us0, some [0, 2, 4], n = 0, .zero, .zero, cnt, .zero, true, [], false⟩
  | _ => ⟨[.w64], us0, some [0], n = 0, .zero, .zero, .zero, .zero, true, [], false⟩

/-- Synchronisation group (R174 to R187). -/
def shapeSyn (e : Enc) (o : Nat) : Shape :=
  let n := e.fn.toNat
  let us0 := [false]
  let us1 := [true]
  let l1 := [Len.w64]
  let l2 := [Len.w64, .w96]
  let s4 : Fld := .src false true false 4 4
  match o with
  | 0x0 | 0x1 => ⟨l1, us0, some [0], n = 0, .cls 1 11, .zero, .zero, .zero, true, [], false⟩
  | 0x2 => ⟨l1, us0, some [0], n = 0, .zero, .cls 0 11, .zero, .zero, true, [], false⟩
  | 0x3 => ⟨l1, us1, some [0xA], n ≤ 2, .cls 1 11, (if n = 0 then s4 else .zero), .zero, .zero, true, [], false⟩
  | 0x4 => ⟨l1, us1, some [0xA], n ≤ 6, (if n = 5 then s4 else if n = 6 then .src false true false 1 1 else .cls 1 11),
             .cls 0 11, (if n ≤ 3 then .cls 0 11 else .zero), .zero, true, [], false⟩
  | 0x5 => ⟨l2, us0, some [2, 4], n < 48, .zero, .zero, cnt, .cls 0 11, true, [], false⟩
  | 0x6 => ⟨l2, us0, some [2, 4], n < 48, .cls 0 7, .zero, cnt, .cls 0 11, true, [], false⟩
  | 0x7 => ⟨l2, us0, some [0], n < 48, .zero, .cls 0 7, .zero, .zero, true, [], false⟩
  | 0x8 => ⟨l2, us0, some [2, 4], n = 0, .zero, .zero, cnt, .zero, true, [], false⟩
  | 0x9 => ⟨l2, us0, some [2, 4], n ≤ 1, .cls 0 7, .zero, cnt, .zero, true, [], false⟩
  | 0xA => ⟨l1, us0, some [0], n = 0, .zero, .zero, .zero, .cls 0 11, true, [], false⟩
  | 0xB => ⟨l1, us0, some [0], n = 0, .zero, .zero, .zero, .zero, true, [], false⟩
  | 0xC => ⟨l1, us1, some [0xA], n = 0, .zero, .zero, .zero, .zero, true, [], false⟩
  | _ => ⟨l1, us1, some [0xA, 0xB], n ≤ 1, .src false true false 1 1, .zero,
            (if n = 0 then .src false true true 1 1 else .zero), .zero, true, [], false⟩

/-- Registers of an access of size code `sz` (R198). -/
def szRegs (sz : Nat) : Nat := if sz = 3 then 2 else if sz = 4 then 4 else if sz = 5 then 8 else 1

/-- Memory group (R196 to R215). An unassigned value in bits 127:64, of AOP for one, fails check 4, here as in the other groups: the model's choice (log 58). -/
def shapeMem (e : Enc) (o : Nat) : Shape :=
  let n := e.fn.toNat
  let xs := bitAt n 11
  let ord := bitsAt n 9 2
  let hint := bitsAt n 7 2
  let sz := bitsAt n 3 4
  let seg := bitsAt n 0 3
  let x := e.x.toNat
  let mx := e.h.mx.toNat
  let is64 := e.h.len = .w64
  let aop := bitsAt x 27 5
  let scp := bitsAt x 24 3
  let xw := bitsAt x 32 32
  let disp0 := bitsAt x 0 24 = 0
  let noIdx := mx = 7 || mx = 9 || mx = 0xC
  -- the word of R96 and R197: no order in 64 bits; C zero in the longer forms; a scope only with an order
  let ordS := !is64 || ord = 0
  let wordS := is64 || (scp < 6 && (ord ≠ 0 || scp = 0))
  let cF : Fld := if is64 then .src true true true 1 1 else .zero
  let bF : Fld := if noIdx then .imm 0 0 else .src true true false 1 1
  let aF : Fld := .src true true false 1 1
  let vMx := [0x5, 0x7, 0x8, 0x9, 0xE]
  let xMx := [0x5, 0x8, 0xE]
  let m9 := some vMx
  let reg := fun (al : Nat) => Fld.src true true false al al
  let base := ordS && !(xs && noIdx)
  match o with
  | 0x0 => ⟨[.w64, .w96], [false, true], some (if e.h.u then [0xC] else vMx), sz ≤ 7 && base && (ord = 0 || ord = 1),
      .dst (szRegs sz) (szRegs sz), aF, bF, cF, wordS && aop = 0, [], false⟩
  | 0x1 => ⟨[.w64, .w96], [false], m9, sz ≤ 5 && base && (ord = 0 || ord = 2),
      reg (szRegs sz), aF, bF, cF, wordS && aop = 0, [], false⟩
  | 0x2 | 0x3 =>
      let w128 := e.h.len = .w128
      let iw := bitsAt xw 22 2
      let raOk := if o = 0x2 then (bitAt xw 31 || (bitsAt xw 24 4 = 0 && bitsAt xw 0 18 = 0))
                  else !bitAt xw 31 && bitsAt xw 24 4 = 0 && bitsAt xw 0 18 = 0
      ⟨[.w64, .w96, .w128], [false], some xMx,
        (if o = 0x2 then sz ≤ 7 && (ord = 0 || ord = 1) else sz ≤ 5 && (ord = 0 || ord = 2)) && base && !(w128 && xs),
        reg (szRegs sz), aF, (if w128 && iw = 3 then .src true true false 2 2 else .src true true false 1 1), cF,
        wordS && aop = 0 && (!w128 || (bitsAt xw 28 3 = 0 && raOk)), [], false⟩
  | 0x4 => ⟨[.w64, .w96], [true], some [0xC], sz ≤ 5 && ord = 0 && hint = 0 && !xs && (seg = 1 || seg = 6),
      .dst (szRegs sz) (szRegs sz), aF, bF, cF, wordS && aop = 0, [], false⟩
  | 0x5 =>
      let w128 := e.h.len = .w128
      -- 128 bits are of .cas, and of .cas alone (R196)
      ⟨[if aop = 0xE then .w128 else .w96], [false], m9, (sz = 2 || sz = 3) && base, .dst (szRegs sz) (szRegs sz), aF, bF, .zero,
        wordS && aop ≤ 0xE && (!w128 || bitsAt xw 8 24 = 0),
        (if w128 then [⟨.v, bitsAt xw 0 8, szRegs sz, szRegs sz⟩] else []), false⟩
  | 0x6 => ⟨[.w96], [false], m9, (sz = 2 || sz = 3) && base && (ord = 0 || ord = 2), reg (szRegs sz), aF, bF, .zero,
      wordS && 1 ≤ aop && aop ≤ 0xD, [], false⟩
  | 0x7 => ⟨[.w128], [false], some [0x7, 0x9], sz = 0 && ord = 0 && !xs && seg ≤ 1, .cls 0 15, aF, bF, .zero,
      aop = 0 && scp = 0 && bitsAt xw 20 2 = 0 && bitsAt xw 0 6 = 0 && bitsAt xw 26 6 ≤ 47,
      [⟨.s, bitsAt xw 12 8, 2, 2⟩], false⟩
  | 0x8 => ⟨[.w96], [false], some [0], !xs && ord ≠ 0 && hint = 0 && sz = 0 && seg = 0, .zero, .zero, .zero, .zero,
      aop = 0 && scp < 6 && disp0, [], false⟩
  | 0x9 => ⟨[.w64, .w96], [false], m9, sz = 0 && ord = 0 && base, .cls 0 1, aF, bF, cF, is64 || (aop = 0 && scp = 0), [], false⟩
  | 0xA => ⟨[.w64, .w96], [false], m9, sz = 0 && ord = 0 && hint = 0 && base, .cls 0 2, aF, bF, cF, is64 || (aop = 0 && scp = 0), [], false⟩
  | _ =>
      let w128 := e.h.len = .w128
      let m := bitsAt xw 0 4
      ⟨[.w64, .w128], [false], some [0], n = 0, .zero, .cls 0 15, .zero, .zero,
        !w128 || (bitsAt x 0 32 = 0 && 1 ≤ m && m ≤ 11 && bitsAt xw 4 28 = 0), [], false⟩

/-- Engines (R250, R273). -/
def shapeEng (e : Enc) (o : Nat) : Shape :=
  let n := e.fn.toNat
  let sub := bitsAt n 4 8
  let ty0 := decide (bitsAt n 0 4 = 0)
  let us0 := [false]
  let l1 := [Len.w64]
  let l2 := [Len.w64, .w96]
  let vs := rr 1
  let vsi : Fld := rri 1
  let m03 := some [0, 3]
  match o with
  | 0x0 => ⟨l1, us0, m03, ty0 && sub ≤ 4, .dst 1 1, .src true true false 2 2, .tok false, .zero, true, [], false⟩
  | 0x1 | 0x2 => ⟨l1, us0, some [0, 2, 4, 8, 9], ty0 && sub = 0, .cls 0 7, vs, vsi, .zero, true, [], false⟩
  | 0x3 => ⟨l1, us0, m03, ty0 && sub = 0, .dst 1 1, vs, .zero, .zero, true, [], false⟩
  | 0x4 | 0x5 => ⟨l1, us0, m03, ty0 && sub = 0, .zero, vs, .zero, .zero, true, [], false⟩
  | 0x6 => ⟨l2, us0, some [0x9, 0xE], ty0 && sub ≤ 7, .cls 0 63, vs, vsi, .zero, true, [], false⟩
  | 0x7 | 0x8 => ⟨l2, us0, some [0, 2, 4], ty0 && sub = 0, .cls 0 63, .zero, vsi, .zero, true, [], false⟩
  | 0x9 => ⟨l2, us0, some [0, 2, 4], ty0 && sub ≤ 1, .cls 0 63, .zero, vsi, .zero, true, [], false⟩
  | 0xA => ⟨l1, us0, some [0], ty0 && sub = 0, .dst 4 4, .cls 0 63, .zero, .zero, true, [], false⟩
  | 0xB => ⟨l1, us0, some [0, 2, 4], ty0 && sub ≤ 1, .cls 0 63, .zero, vsi, .zero, true, [], false⟩
  | 0xC => ⟨l1, us0, some [8, 9], ty0 && sub ≤ 15, .cls 0 15, .src false true false (sub + 1) 1, .src true false true 1 1,
             .cls 0 255, true, [], false⟩
  | 0xD => ⟨l1, us0, some [7, 9], ty0 && (sub = 2 || sub = 3), .tok true, vs, .zero, .imm 0 255, true, [], false⟩
  | _ => ⟨l1, [true], some [0xA], ty0 && sub = 0, .dst 2 2, .src false true false 4 4, .zero, .zero, true, [], true⟩

/-- Tensor group (R315, R316). -/
def shapeTen (e : Enc) (o : Nat) : Shape :=
  let n := e.fn.toNat
  let x := e.x.toNat
  let ten (k : Nat) (ext : Bool) : Shape :=
    ⟨[.w128], [false], some [3], n = 0, .tok false, .src false true false k 2, .zero, .cls 0 7, ext, [], false⟩
  match o with
  | 0x0 => ten 10 (bitsAt x 6 6 = 0 && bitsAt x 14 50 = 0)
  | 0x1 => ten 10 (bitsAt x 6 2 = 0 && [0, 1, 2, 3, 5].contains (bitsAt x 8 3) && bitsAt x 12 52 = 0)
  | 0x2 | 0x3 =>
      let unused := fun (lo v : Nat) => bitAt x v || bitsAt x lo 6 = 0
      ten 2 ((bitAt x 20 == decide (o = 0x3)) && unused 0 6 && unused 7 13 && unused 14 20 && unused 21 27 && bitsAt x 31 33 = 0)
  | _ => ⟨[.w64], [false], some [0, 3], n = 0, .dst 1 1, rr 1, .zero, .zero, true, [], false⟩

/-- Streams and gather (R325, R340). -/
def shapeStr (e : Enc) (o : Nat) : Shape :=
  let n := e.fn.toNat
  let sub := bitsAt n 4 8
  let tc := bitsAt n 0 4
  let x := e.x.toNat
  let us0 := [false]
  let l1 := [Len.w64]
  let pair : Fld := .src false true false 2 2
  let s16 : Fld := .src false true false 16 16
  let s4 : Fld := .src false true false 4 4
  match o with
  | 0x0 => ⟨l1, us0, some [0xA, 0xB], n = 0, .cls 0 7, pair, .src false true true 2 2, .zero, true, [], false⟩
  | 0x1 =>
      let mode := sub % 4
      let x64 := bitAt sub 2
      let pma := bitsAt x 8 4
      let pmb := bitsAt x 12 4
      let k := (if mode = 0 then 2 else 3) * (if x64 then 2 else 1)
      ⟨[.w128], us0, some [1], tc = 0 && sub < 8 && mode ≤ 2, .dst k (if x64 then 2 else 1), .cls 0 7,
        (if mode = 0 then .zero else if e.h.b = e.h.a then .cls 1 0 else .cls 0 7), .src false true false 1 1,
        !bitAt x 7 && bitsAt x 16 48 = 0 && pma ≤ 11 && pmb ≤ 11 && (mode = 2 || (pma = 0 && pmb = 0)), [], false⟩
  | 0x2 => ⟨l1, us0, some [0xA, 0xB], n = 0, .zero, .cls 0 7, .src false true true 2 2, .zero, true, [], false⟩
  | 0x3 => ⟨l1, us0, some [0xA], n = 0, s16, .cls 0 7, .zero, .zero, true, [], false⟩
  | 0x4 => ⟨l1, us0, some [0xA], n = 0, .cls 0 7, s16, .zero, .zero, true, [], false⟩
  | 0x5 => ⟨l1, us0, some [0xA], n = 0, .cls 0 7, .zero, .zero, .zero, true, [], false⟩
  | 0x6 =>
      let r := tyRegs (tyOf tc)
      ⟨l1, us0, some [1], sub < 8 && tc ≤ 3, .dst 2 1, .src true false false r r, .src true false false r r, s4, true, [], false⟩
  | _ =>
      let gs (ext : Bool) : Shape := ⟨[.w128], us0, some [3], n = 0, .tok false, pair, .zero, .cls 0 7, ext, [], false⟩
      let i0v := bitAt x 6
      let ov := bitAt x 13
      let spec := bitAt x 14
      let i0 := bitsAt x 0 6
      let oo := bitsAt x 7 6
      if o = 0x7 then gs (bitsAt x 15 49 = 0 && !i0v && i0 = 0 && (ov || (oo = 0 && !spec)))
      else gs (bitsAt x 15 49 = 0 && (i0v || i0 = 0) && !ov && oo = 0 && !spec)

/-- Neural, texture and derivatives (R358, R377). -/
def shapeNeu (e : Enc) (o : Nat) : Shape :=
  let n := e.fn.toNat
  let sub := bitsAt n 4 8
  let x := e.x.toNat
  let l1 := [Len.w64]
  let l4 := [Len.w128]
  let us0 := [false]
  let us1 := [true]
  let s4 : Fld := .src false true false 4 4
  let hS : Fld := .src false true false 1 1
  match o with
  | 0x0 =>
      ⟨l4, us0, some [0, 1], n = 0, .cls 0 15, .src true false false (bitsAt x 5 4 + 1) 1,
        .src true false false (bitsAt x 0 5 + 1) 1, rr 1, bitsAt x 9 55 = 0, [], false⟩
  | 0x1 => ⟨l1, us1, some [0xA], n = 0, .dst 2 2, hS, .zero, .zero, true, [], false⟩
  | 0x2 | 0x3 => ⟨l1, us1, some [0xA], n = 0, .zero, hS, .zero, .zero, true, [], false⟩
  | 0x4 => ⟨l1, us1, some [0xA], n = 0, .dst 4 4, hS, .zero, .zero, true, [], false⟩
  | 0x5 => ⟨l1, us1, some [0xA], bitsAt n 0 4 = 0 && sub ≤ 2, .zero, (if sub = 1 then hS else .zero), .zero, .zero, true, [], false⟩
  | 0x8 =>
      ⟨l4, us0, some [1], n = 0, .dst (bitsAt x 0 4 + 1) 1, .src true false false (if bitsAt x 9 2 = 0 then 3 else 2) 1, .zero, s4,
        bitsAt x 4 5 = 0 && bitsAt x 11 53 = 0 && bitsAt x 9 2 ≤ 2, [], false⟩
  | 0x9 =>
      ⟨l4, us0, some [1], n = 0, .cls 0 15, .src true false false (bitsAt x 0 4 + 1) 1,
        .src true false false (2 + bitsAt x 4 5 + (if bitsAt x 9 2 = 0 then 1 else 0)) 1, s4,
        bitsAt x 11 53 = 0 && bitsAt x 9 2 ≤ 2, [], false⟩
  | 0xA =>
      ⟨l4, us0, some [1], n = 0, .dst (bitsAt x 0 4 + 1) 1, .src true false false 3 1, .zero, s4, bitsAt x 4 60 = 0, [], false⟩
  | 0xB => ⟨l1, us0, some [1], bitsAt n 0 4 = 0 && sub ≤ 1, .dst (if sub = 0 then 2 else 1) 1, .src true false false 1 1, .zero,
             .src false true false 2 2, true, [], false⟩
  | _ => ⟨l1, us0, some [0], bitsAt n 0 4 = 0xA && sub ≤ 1, .dst 1 1, .src true false false 1 1, .zero, .zero, true, [], false⟩

/-- Rays and beams (R377). -/
def shapeRay (e : Enc) (o : Nat) : Shape :=
  let n := e.fn.toNat
  let sub := bitsAt n 4 8
  let ty0 := decide (bitsAt n 0 4 = 0)
  let l1 := [Len.w64]
  let us0 := [false]
  let v1 : Fld := .src true false false 1 1
  let s4 : Fld := .src false true false 4 4
  let pair : Fld := .src false true false 2 2
  match o with
  | 0x0 => ⟨l1, us0, some [1], n = 0, .cls 0 15, v1, .zero, s4, true, [], false⟩
  | 0x1 => ⟨l1, us0, some [4], ty0, .dst (sub + 1) 1, v1, .imm 0 15, .zero, true, [], false⟩
  | 0x2 => ⟨l1, us0, some [4], ty0, .src true false false (sub + 1) 1, v1, .imm 0 15, .zero, true, [], false⟩
  | 0x3 => ⟨l1, us0, some [0], ty0 && sub ≤ 2, .zero, v1, v1, .zero, true, [], false⟩
  | 0x4 => ⟨l1, us0, some [1], n = 0, .cls 0 15, v1, .zero, pair, true, [], false⟩
  | 0x5 => ⟨l1, us0, some [1], n = 0, .dst 4 4, v1, .zero, pair, true, [], false⟩
  | 0x6 => ⟨l1, us0, some [0], n = 0, .cls 0 7, v1, .zero, .zero, true, [], false⟩
  | _ => ⟨l1, [true], some [0xA], n = 0, .dst 4 4, .zero, .zero, .zero, true, [], false⟩

/-- System group (R73, R191, R363, R417, R432, R439, R451, R468). -/
def shapeSys (e : Enc) (o : Nat) : Shape :=
  let n := e.fn.toNat
  let sub := bitsAt n 4 8
  let ty0 := decide (bitsAt n 0 4 = 0)
  let l1 := [Len.w64]
  let us1 := [true]
  let s1 : Fld := .src false true false 1 1
  let s2 : Fld := .src false true false 2 2
  let s4 : Fld := .src false true false 4 4
  match o with
  | 0x0 => ⟨l1, us1, some [0xF], n = 0, .cls 0 7, s4, .zero, .zero, true, [], true⟩
  | 0x1 => ⟨l1, us1, some [0x6], n = 0, .dst 4 4, .cls 0 7, .zero, .zero, true, [], false⟩
  | 0x2 => ⟨l1, us1, some [0xA], n = 0, .dst 2 2, s1, .zero, .zero, true, [], true⟩
  | 0x3 => ⟨l1, us1, some [0xA], n = 0, .zero, s1, s2, .zero, true, [], true⟩
  | 0x4 => ⟨l1, us1, some [0xA], ty0 && sub ≤ 1, .zero, s1, .zero, .zero, true, [], true⟩
  | 0x5 => ⟨l1, us1, some [0xA, 0xB], ty0 && sub = 0, .dst 4 4, s1, .src false true true 1 1, .zero, true, [], true⟩
  | 0x6 => ⟨l1, [false], some [3], ty0 && sub ≤ 2, (if sub = 2 then .zero else .src true false false 2 2), s1,
             .src true false false 1 1, (if sub = 2 then .cls 1 11 else .zero), true, [], true⟩
  | 0x7 => ⟨l1, us1, some [0xA], ty0 && sub ≤ 4, .dst 2 2, (if sub = 0 then s2 else s1), .zero, .zero, true, [], true⟩
  | 0x8 => ⟨l1, us1, some [0xA], ty0 && sub ≤ 4, .dst 1 1, (if sub = 0 || sub = 2 then s2 else .zero), s1,
             (if sub = 2 || sub = 3 then s1 else .zero), true, [], true⟩
  | 0x9 => ⟨l1, us1, some [0xA], ty0 && sub ≤ 1, .dst 2 2, s2, .zero, .zero, true, [], false⟩
  | 0xA => ⟨l1, us1, some [0xA], ty0 && sub ≤ 1, .dst 2 2, s1, s1, s1, true, [], true⟩
  | _ => ⟨l1, us1, some [0xA], n = 0, .dst 1 1, s2, .zero, .zero, true, [], true⟩

/-- What the entry of an opcode accepts; none for an unassigned opcode (R97). -/
def shapeOf (e : Enc) : Option Shape :=
  let o := e.op.toNat
  let hi := o / 16
  let lo := o % 16
  match hi with
  | 0 | 1 => some (shapeInt e o)
  | 2 | 3 => some (shapeFlt e o)
  | 4 => if lo ≤ 9 then some (shapeCvt e o) else none
  | 5 => some (shapeCmp e o)
  | 6 => if lo ≤ 0xA then some (shapeCtl e lo) else none
  | 7 => if lo ≤ 0xD then some (shapeSyn e lo) else none
  | 8 => if lo ≤ 0xB then some (shapeMem e lo) else none
  | 0xA => if lo ≤ 0xE then some (shapeEng e lo) else none
  | 0xB => if lo ≤ 4 then some (shapeTen e lo) else none
  | 0xC => if lo ≤ 9 then some (shapeStr e lo) else none
  | 0xD => if lo ≤ 5 || (8 ≤ lo && lo ≤ 0xD) then some (shapeNeu e lo) else none
  | 0xE => if lo ≤ 7 then some (shapeRay e lo) else none
  | 0xF => if lo ≤ 0xB then some (shapeSys e lo) else none
  | _ => none

/-- Is a used field of kind V (R89, R139)? -/
def Shape.usesV (sh : Shape) (mx : BitVec 4) : Bool :=
  sh.d.useKind (kindD mx) = .v || sh.a.useKind (kindA mx) = .v || sh.b.useKind (kindB mx) = .v || sh.c.useKind (kindC mx) = .v

/-- The bits of bits 127:64 that the length does not have are zero. -/
def Enc.lenBitsOk (e : Enc) : Bool :=
  match e.h.len with
  | .w64 => e.x = 0
  | .w96 => e.x.toNat < 2 ^ 32
  | .w128 => true

/-- Check 2 of R101: the length and U. -/
def Enc.check2 (e : Enc) (sh : Shape) : Bool :=
  e.lenBitsOk && sh.lens.contains e.h.len && sh.us.contains e.h.u &&
    !(e.h.len = .w96 && wordGroup e.op.toNat && (sh.owner e.h.mx).isNone)

/-- Check 3 of R101: the operand kinds. -/
def Enc.check3 (e : Enc) (sh : Shape) : Bool :=
  let mx := e.h.mx
  let m := mx.toNat
  (match sh.mxs with | some l => l.contains m | none => true) && !(e.h.u && sh.usesV mx) &&
    sh.d.kindOk (kindD mx) e.h.u m && sh.a.kindOk (kindA mx) e.h.u m &&
    sh.b.kindOk (kindB mx) e.h.u m && sh.c.kindOk (kindC mx) e.h.u m

/-- The 8-bit field of the owner of the immediate word holds zero (R90). -/
def Enc.ownerZero (e : Enc) (sh : Shape) : Bool :=
  match e.owner sh with
  | none => true
  | some .d => e.h.d = 0
  | some .a => e.h.a = 0
  | some .b => e.h.b = 0
  | some .c => e.h.c = 0

/-- Check 4 of R101: FN values, reserved bits, unused fields and class limits. -/
def Enc.check4 (e : Enc) (sh : Shape) : Bool :=
  sh.fn && sh.ext && e.ownerZero sh && sh.d.valOk (e.fieldVal sh .d) && sh.a.valOk (e.fieldVal sh .a) &&
    sh.b.valOk (e.fieldVal sh .b) && sh.c.valOk (e.fieldVal sh .c)

/-- The first failing check of 1 to 4 of R101, or none: these depend on the instruction alone. -/
def Enc.failing (e : Enc) : Option Nat :=
  match shapeOf e with
  | none => some 1
  | some sh => if !e.check2 sh then some 2 else if !e.check3 sh then some 3 else if !e.check4 sh then some 4 else none

/-- A register range of kind `k` against the allocation (R52, R140, R198). -/
def rangeOk (k : Kind) (first n al V S : Nat) : Bool :=
  match k with
  | .v => first % al = 0 && first + n ≤ V
  | .s => first % al = 0 && first + n ≤ S
  | .i | .none => true

def Fld.regOk (f : Fld) (k : Kind) (val mx V S : Nat) : Bool :=
  match f with
  | .dst n al => rangeOk k val n al V S
  | .dstS n al sn sal => if mx = 0xD then rangeOk .s val sn sal V S else rangeOk k val n al V S
  | .src _ _ _ n al => rangeOk k val n al V S
  | .zero | .imm .. | .cls .. | .tok .. => true

/-- Check 5 of R101: the registers against the wave's V and S. -/
def Enc.check5 (e : Enc) (V S : Nat) : Bool :=
  match shapeOf e with
  | none => false
  | some sh =>
    let mx := e.h.mx
    let m := mx.toNat
    sh.d.regOk (kindD mx) e.h.d.toNat m V S && sh.a.regOk (kindA mx) e.h.a.toNat m V S &&
    sh.b.regOk (kindB mx) e.h.b.toNat m V S && sh.c.regOk (kindC mx) e.h.c.toNat m V S &&
    sh.regs.all (fun r => rangeOk r.kind r.first r.n r.al V S)

/-- Is the opcode privileged (R99)? -/
def Enc.priv (e : Enc) : Bool :=
  match shapeOf e with
  | none => false
  | some sh => sh.priv

/-- The bytes of an instruction of each length (R75). -/
def lenBytes : Len → Nat | .w64 => 8 | .w96 => 12 | .w128 => 16

/-- LEN (R75). -/
def lenCode : Len → Nat | .w64 => 0 | .w96 => 1 | .w128 => 2

/-- The 128 bits of a field form, in the layout of R76; a shorter instruction is the low part. -/
def Enc.bits (e : Enc) : BitVec 128 :=
  e.x ++ e.h.mx ++ e.fn ++ e.h.c ++ e.h.b ++ e.h.a ++ e.h.d ++ BitVec.ofBool e.h.pn ++ e.h.pg ++ e.op ++
    BitVec.ofBool e.h.u ++ BitVec.ofBool e.h.s ++ BitVec.ofNat 2 (lenCode e.h.len)

/-- Bits 127:64 that the length has. -/
def lenMask (l : Len) (x : BitVec 64) : BitVec 64 :=
  match l with
  | .w64 => 0
  | .w96 => x &&& 0xFFFFFFFF
  | .w128 => x

/-- The length that LEN names; none for 0b11 (R75). -/
def lenOf (n : Nat) : Option Len :=
  match n with | 0 => some .w64 | 1 => some .w96 | 2 => some .w128 | _ => none

/-- The fields of 128 bits (R76); none where LEN is 0b11. Bits that the length does not have are dropped. -/
def Enc.ofBits (w : BitVec 128) : Option Enc :=
  match lenOf (w.extractLsb' 0 2).toNat with
  | none => none
  | some l =>
    some { op := w.extractLsb' 4 8, fn := w.extractLsb' 48 12, x := lenMask l (w.extractLsb' 64 64),
           h := { mx := w.extractLsb' 60 4, c := w.extractLsb' 40 8, b := w.extractLsb' 32 8, a := w.extractLsb' 24 8,
                  d := w.extractLsb' 16 8, pn := w.getLsbD 15, pg := w.extractLsb' 12 3, u := w.getLsbD 3,
                  s := w.getLsbD 2, len := l } }

/-- The field form of an instruction; an event has none. -/
def encOf (i : Instr) : Option Enc :=
  match i with
  | .iadd h f x => some ⟨0x00, h, intFnBits f, x⟩
  | .isub h f x => some ⟨0x01, h, intFnBits f, x⟩
  | .imul h f x => some ⟨0x02, h, intFnBits f, x⟩
  | .imulh h f x => some ⟨0x03, h, intFnBits f, x⟩
  | .imad h f x => some ⟨0x04, h, intFnBits f, x⟩
  | .idiv h f x => some ⟨0x05, h, intFnBits f, x⟩
  | .irem h f x => some ⟨0x06, h, intFnBits f, x⟩
  | .imin h f x => some ⟨0x07, h, intFnBits f, x⟩
  | .imax h f x => some ⟨0x08, h, intFnBits f, x⟩
  | .iabs h f x => some ⟨0x09, h, intFnBits f, x⟩
  | .ineg h f x => some ⟨0x0A, h, intFnBits f, x⟩
  | .and h f x => some ⟨0x0B, h, intFnBits f, x⟩
  | .or h f x => some ⟨0x0C, h, intFnBits f, x⟩
  | .xor h f x => some ⟨0x0D, h, intFnBits f, x⟩
  | .not h f x => some ⟨0x0E, h, intFnBits f, x⟩
  | .lop3 h f x => some ⟨0x0F, h, lutFnBits f, x⟩
  | .shl h f x => some ⟨0x10, h, intFnBits f, x⟩
  | .shr h f x => some ⟨0x11, h, intFnBits f, x⟩
  | .rot h f x => some ⟨0x12, h, intFnBits f, x⟩
  | .fshf h f x => some ⟨0x13, h, intFnBits f, x⟩
  | .bfx h f x => some ⟨0x14, h, intFnBits f, x⟩
  | .bfi h f x => some ⟨0x15, h, intFnBits f, x⟩
  | .popc h f x => some ⟨0x16, h, intFnBits f, x⟩
  | .clz h f x => some ⟨0x17, h, intFnBits f, x⟩
  | .ctz h f x => some ⟨0x18, h, intFnBits f, x⟩
  | .brev h f x => some ⟨0x19, h, intFnBits f, x⟩
  | .prmt h f x => some ⟨0x1A, h, intFnBits f, x⟩
  | .lea h f x => some ⟨0x1B, h, intFnBits f, x⟩
  | .iaddc h f x => some ⟨0x1C, h, intFnBits f, x⟩
  | .isad h f x => some ⟨0x1D, h, intFnBits f, x⟩
  | .idp4 h f x => some ⟨0x1E, h, intFnBits f, x⟩
  | .movi h f x => some ⟨0x1F, h, intFnBits f, x⟩
  | .fadd h f x => some ⟨0x20, h, fltFnBits f, x⟩
  | .fsub h f x => some ⟨0x21, h, fltFnBits f, x⟩
  | .fmul h f x => some ⟨0x22, h, fltFnBits f, x⟩
  | .ffma h f x => some ⟨0x23, h, fltFnBits f, x⟩
  | .fmin h f x => some ⟨0x24, h, fltFnBits f, x⟩
  | .fmax h f x => some ⟨0x25, h, fltFnBits f, x⟩
  | .fdiv h f x => some ⟨0x26, h, fltFnBits f, x⟩
  | .fsqrt h f x => some ⟨0x27, h, fltFnBits f, x⟩
  | .frcp h f x => some ⟨0x28, h, fltFnBits f, x⟩
  | .frsq h f x => some ⟨0x29, h, fltFnBits f, x⟩
  | .fexp2 h f x => some ⟨0x2A, h, fltFnBits f, x⟩
  | .flog2 h f x => some ⟨0x2B, h, fltFnBits f, x⟩
  | .fsin h f x => some ⟨0x2C, h, fltFnBits f, x⟩
  | .fcos h f x => some ⟨0x2D, h, fltFnBits f, x⟩
  | .ftanh h f x => some ⟨0x2E, h, fltFnBits f, x⟩
  | .fsigm h f x => some ⟨0x2F, h, fltFnBits f, x⟩
  | .ffrc h f x => some ⟨0x30, h, fltFnBits f, x⟩
  | .frnd h f x => some ⟨0x31, h, fltFnBits f, x⟩
  | .fldx h f x => some ⟨0x32, h, fltFnBits f, x⟩
  | .fcls h f x => some ⟨0x33, h, fltFnBits f, x⟩
  | .hadd2 h f x => some ⟨0x34, h, fltFnBits f, x⟩
  | .hmul2 h f x => some ⟨0x35, h, fltFnBits f, x⟩
  | .hfma2 h f x => some ⟨0x36, h, fltFnBits f, x⟩
  | .hmnx2 h f x => some ⟨0x37, h, fltFnBits f, x⟩
  | .dadd h f x => some ⟨0x38, h, fltFnBits f, x⟩
  | .dmul h f x => some ⟨0x39, h, fltFnBits f, x⟩
  | .dfma h f x => some ⟨0x3A, h, fltFnBits f, x⟩
  | .ddiv h f x => some ⟨0x3B, h, fltFnBits f, x⟩
  | .dsqrt h f x => some ⟨0x3C, h, fltFnBits f, x⟩
  | .fdot2 h f x => some ⟨0x3D, h, fltFnBits f, x⟩
  | .fdotn h f x => some ⟨0x3E, h, fltFnBits f, x⟩
  | .fmed3 h f x => some ⟨0x3F, h, fltFnBits f, x⟩
  | .cvt h f x => some ⟨0x40, h, cvtFnBits f, x⟩
  | .cvtn h f x => some ⟨0x41, h, cvtFnBits f, x⟩
  | .cvtw h f x => some ⟨0x42, h, cvtFnBits f, x⟩
  | .npack h f x => some ⟨0x43, h, cvtFnBits f, x⟩
  | .nunpk h f x => some ⟨0x44, h, cvtFnBits f, x⟩
  | .fmtld h f x => some ⟨0x45, h, cvtFnBits f, x⟩
  | .fmtst h f x => some ⟨0x46, h, cvtFnBits f, x⟩
  | .srseed h f x => some ⟨0x47, h, cvtFnBits f, x⟩
  | .flgrd h f x => some ⟨0x48, h, cvtFnBits f, x⟩
  | .flgcl h f x => some ⟨0x49, h, cvtFnBits f, x⟩
  | .isetp h f x => some ⟨0x50, h, cmpFnBits f, x⟩
  | .fsetp h f x => some ⟨0x51, h, cmpFnBits f, x⟩
  | .psetp h f x => some ⟨0x52, h, cmpFnBits f, x⟩
  | .sel h f x => some ⟨0x53, h, cmpFnBits f, x⟩
  | .mov h f x => some ⟨0x54, h, laneFnBits f, x⟩
  | .movs h f x => some ⟨0x55, h, laneFnBits f, x⟩
  | .shfl h f x => some ⟨0x56, h, laneFnBits f, x⟩
  | .ballot h f x => some ⟨0x57, h, laneFnBits f, x⟩
  | .vote h f x => some ⟨0x58, h, laneFnBits f, x⟩
  | .matchLanes h f x => some ⟨0x59, h, laneFnBits f, x⟩
  | .redux h f x => some ⟨0x5A, h, laneFnBits f, x⟩
  | .scan h f x => some ⟨0x5B, h, laneFnBits f, x⟩
  | .elect h f x => some ⟨0x5C, h, laneFnBits f, x⟩
  | .xchgm h f x => some ⟨0x5D, h, laneFnBits f, x⟩
  | .getsr h f x => some ⟨0x5E, h, laneFnBits f, x⟩
  | .quads h f x => some ⟨0x5F, h, laneFnBits f, x⟩
  | .bra h f x => some ⟨0x60, h, codeFnBits f, x⟩
  | .brx h f x => some ⟨0x61, h, codeFnBits f, x⟩
  | .call h f x => some ⟨0x62, h, codeFnBits f, x⟩
  | .callx h f x => some ⟨0x63, h, codeFnBits f, x⟩
  | .ret h f x => some ⟨0x64, h, codeFnBits f, x⟩
  | .exit h f x => some ⟨0x65, h, codeFnBits f, x⟩
  | .yield h f x => some ⟨0x66, h, codeFnBits f, x⟩
  | .nop h f x => some ⟨0x67, h, codeFnBits f, x⟩
  | .trap h f x => some ⟨0x68, h, codeFnBits f, x⟩
  | .bkpt h f x => some ⟨0x69, h, codeFnBits f, x⟩
  | .sleep h f x => some ⟨0x6A, h, codeFnBits f, x⟩
  | .mjoin h f x => some ⟨0x70, h, codeFnBits f, x⟩
  | .mleave h f x => some ⟨0x71, h, codeFnBits f, x⟩
  | .mwait h f x => some ⟨0x72, h, codeFnBits f, x⟩
  | .mset h f x => some ⟨0x73, h, codeFnBits f, x⟩
  | .mops h f x => some ⟨0x74, h, codeFnBits f, x⟩
  | .bar h f x => some ⟨0x75, h, codeFnBits f, x⟩
  | .bararr h f x => some ⟨0x76, h, codeFnBits f, x⟩
  | .barwt h f x => some ⟨0x77, h, codeFnBits f, x⟩
  | .twait h f x => some ⟨0x78, h, codeFnBits f, x⟩
  | .ttest h f x => some ⟨0x79, h, codeFnBits f, x⟩
  | .sstep h f x => some ⟨0x7A, h, codeFnBits f, x⟩
  | .wfi h f x => some ⟨0x7B, h, codeFnBits f, x⟩
  | .uiret h f x => some ⟨0x7C, h, codeFnBits f, x⟩
  | .uimsk h f x => some ⟨0x7D, h, codeFnBits f, x⟩
  | .ld h f x => some ⟨0x80, h, memFnBits f, x⟩
  | .st h f x => some ⟨0x81, h, memFnBits f, x⟩
  | .ldx h f x => some ⟨0x82, h, memFnBits f, x⟩
  | .stx h f x => some ⟨0x83, h, memFnBits f, x⟩
  | .ldc h f x => some ⟨0x84, h, memFnBits f, x⟩
  | .atom h f x => some ⟨0x85, h, memFnBits f, x⟩
  | .red h f x => some ⟨0x86, h, memFnBits f, x⟩
  | .ldmc h f x => some ⟨0x87, h, memFnBits f, x⟩
  | .fence h f x => some ⟨0x88, h, memFnBits f, x⟩
  | .pref h f x => some ⟨0x89, h, memFnBits f, x⟩
  | .cmaint h f x => some ⟨0x8A, h, memFnBits f, x⟩
  | .gjoin h f x => some ⟨0x8B, h, memFnBits f, x⟩
  | .tkpost h f x => some ⟨0xA0, h, engFnBits f, x⟩
  | .tkdep h f x => some ⟨0xA1, h, engFnBits f, x⟩
  | .tksig h f x => some ⟨0xA2, h, engFnBits f, x⟩
  | .tkwait h f x => some ⟨0xA3, h, engFnBits f, x⟩
  | .tkcmt h f x => some ⟨0xA4, h, engFnBits f, x⟩
  | .tkdis h f x => some ⟨0xA5, h, engFnBits f, x⟩
  | .cbini h f x => some ⟨0xA6, h, engFnBits f, x⟩
  | .cbpsh h f x => some ⟨0xA7, h, engFnBits f, x⟩
  | .cbpop h f x => some ⟨0xA8, h, engFnBits f, x⟩
  | .cbwt h f x => some ⟨0xA9, h, engFnBits f, x⟩
  | .cbqry h f x => some ⟨0xAA, h, engFnBits f, x⟩
  | .evset h f x => some ⟨0xAB, h, engFnBits f, x⟩
  | .amsg h f x => some ⟨0xAC, h, engFnBits f, x⟩
  | .fetchw h f x => some ⟨0xAD, h, engFnBits f, x⟩
  | .spawn h f x => some ⟨0xAE, h, engFnBits f, x⟩
  | .tcpy h f x => some ⟨0xB0, h, engFnBits f, x⟩
  | .tcpyw h f x => some ⟨0xB1, h, engFnBits f, x⟩
  | .mma h f x => some ⟨0xB2, h, engFnBits f, x⟩
  | .mmas h f x => some ⟨0xB3, h, engFnBits f, x⟩
  | .mrpg h f x => some ⟨0xB4, h, engFnBits f, x⟩
  | .stopn h f x => some ⟨0xC0, h, engFnBits f, x⟩
  | .stnxt h f x => some ⟨0xC1, h, engFnBits f, x⟩
  | .stskp h f x => some ⟨0xC2, h, engFnBits f, x⟩
  | .stsav h f x => some ⟨0xC3, h, engFnBits f, x⟩
  | .strst h f x => some ⟨0xC4, h, engFnBits f, x⟩
  | .stcls h f x => some ⟨0xC5, h, engFnBits f, x⟩
  | .isect h f x => some ⟨0xC6, h, engFnBits f, x⟩
  | .gsx h f x => some ⟨0xC7, h, engFnBits f, x⟩
  | .ssx h f x => some ⟨0xC8, h, engFnBits f, x⟩
  | .ssxa h f x => some ⟨0xC9, h, engFnBits f, x⟩
  | .ncall h f x => some ⟨0xD0, h, engFnBits f, x⟩
  | .npin h f x => some ⟨0xD1, h, engFnBits f, x⟩
  | .nunpin h f x => some ⟨0xD2, h, engFnBits f, x⟩
  | .npref h f x => some ⟨0xD3, h, engFnBits f, x⟩
  | .nqry h f x => some ⟨0xD4, h, engFnBits f, x⟩
  | .nflsh h f x => some ⟨0xD5, h, engFnBits f, x⟩
  | .texn h f x => some ⟨0xD9, h, engFnBits f, x⟩
  | .tex h f x => some ⟨0xD8, h, engFnBits f, x⟩
  | .tld h f x => some ⟨0xDA, h, engFnBits f, x⟩
  | .tqry h f x => some ⟨0xDB, h, engFnBits f, x⟩
  | .ddx h f x => some ⟨0xDC, h, engFnBits f, x⟩
  | .ddy h f x => some ⟨0xDD, h, engFnBits f, x⟩
  | .rtrace h f x => some ⟨0xE0, h, engFnBits f, x⟩
  | .rld h f x => some ⟨0xE1, h, engFnBits f, x⟩
  | .rst h f x => some ⟨0xE2, h, engFnBits f, x⟩
  | .rverd h f x => some ⟨0xE3, h, engFnBits f, x⟩
  | .beam h f x => some ⟨0xE4, h, engFnBits f, x⟩
  | .covrd h f x => some ⟨0xE5, h, engFnBits f, x⟩
  | .rpool h f x => some ⟨0xE6, h, engFnBits f, x⟩
  | .rqry h f x => some ⟨0xE7, h, engFnBits f, x⟩
  | .segld h f x => some ⟨0xF0, h, engFnBits f, x⟩
  | .segrd h f x => some ⟨0xF1, h, engFnBits f, x⟩
  | .csrrd h f x => some ⟨0xF2, h, engFnBits f, x⟩
  | .csrwr h f x => some ⟨0xF3, h, engFnBits f, x⟩
  | .tret h f x => some ⟨0xF4, h, engFnBits f, x⟩
  | .parkq h f x => some ⟨0xF5, h, engFnBits f, x⟩
  | .lanepc h f x => some ⟨0xF6, h, engFnBits f, x⟩
  | .rcbopReg h f x => some ⟨0xF7, h, engFnBits f, x⟩
  | .rcbopRet h f x => some ⟨0xF7, h, engFnBits f, x⟩
  | .rcbopUpd h f x => some ⟨0xF7, h, engFnBits f, x⟩
  | .rcbopQry h f x => some ⟨0xF7, h, engFnBits f, x⟩
  | .rcbopAdr h f x => some ⟨0xF7, h, engFnBits f, x⟩
  | .tlbopVa h f x => some ⟨0xF8, h, engFnBits f, x⟩
  | .tlbopAll h f x => some ⟨0xF8, h, engFnBits f, x⟩
  | .tlbopSva h f x => some ⟨0xF8, h, engFnBits f, x⟩
  | .tlbopSid h f x => some ⟨0xF8, h, engFnBits f, x⟩
  | .tlbopPart h f x => some ⟨0xF8, h, engFnBits f, x⟩
  | .svcallAtt h f x => some ⟨0xF9, h, engFnBits f, x⟩
  | .svcallCert h f x => some ⟨0xF9, h, engFnBits f, x⟩
  | .wtblSync h f x => some ⟨0xFA, h, engFnBits f, x⟩
  | .wtblUnpin h f x => some ⟨0xFA, h, engFnBits f, x⟩
  | .idle h f x => some ⟨0xFB, h, engFnBits f, x⟩
  | .issueSlot => none
  | .instructionFill _ _ _ => none
  | .shortResultLand _ => none
  | .runaheadLand _ _ _ => none
  | .memuePark _ _ => none
  | .sleepExpire _ _ => none
  | .uiDeliver _ => none
  | .faultRecordDeferredWrite _ => none
  | .faultHandlerStart _ _ _ => none
  | .svcFaultService _ => none
  | .serviceBudgetExceed _ => none
  | .stepEnd _ => none
  | .wdPlaceGang _ _ _ => none
  | .launchAged _ => none
  | .fetchwServe _ => none
  | .preempt _ _ _ => none
  | .timeSliceExpire _ _ _ => none
  | .shadowSwap _ _ => none
  | .shadowFill _ _ => none
  | .spill _ _ => none
  | .gangRetire _ => none
  | .regionRetire _ => none
  | .multicastRequestArrive _ => none
  | .multicastEntryClose _ => none
  | .multicastCopyAdvance _ => none
  | .busBeatGrant _ => none
  | .busTransferAdvance _ _ => none
  | .drainStart _ => none
  | .drainComplete _ => none
  | .sliceSpareTakeover _ _ => none
  | .amsgQueueEnter _ _ => none
  | .amsgRelayAdvance _ => none
  | .amHandlerStart _ _ => none
  | .taskFire _ _ _ => none
  | .taskComplete _ _ => none
  | .taskCopyIn _ _ => none
  | .taskCopyOut _ _ => none
  | .taskCopy _ _ => none
  | .taskMma _ _ => none
  | .taskMmas _ _ => none
  | .taskGsx _ _ => none
  | .taskSsx _ _ => none
  | .taskSsxa _ _ => none
  | .taskXput _ _ => none
  | .taskXget _ _ => none
  | .taskXred _ _ => none
  | .engineSuspend _ _ _ => none
  | .asuCallBin _ => none
  | .binAgeDispatch _ _ => none
  | .tileEnter _ => none
  | .tilePlace _ _ => none
  | .tileRowWriteback _ _ => none
  | .tileFail _ _ _ => none
  | .rayCachePlace _ => none
  | .callbackWaveStart _ _ _ => none
  | .rayComplete _ _ => none
  | .beamComplete _ _ => none
  | .stnxtDeliver _ => none
  | .pageWalk _ _ => none
  | .deadlockWalk => none
  | .fatalFault _ _ => none
  | .abortTokenReceive _ _ _ _ _ => none
  | .abortAgree _ => none
  | .abortTokenTimeout _ _ => none
  | .groupActivate _ => none
  | .rdmaWrite _ _ _ _ => none
  | .rdmaRead _ _ _ _ => none
  | .roceSend _ _ => none
  | .attach _ => none
  | .ctxnew _ => none
  | .launch _ => none
  | .ctxend _ => none
  | .query _ => none
  | .debugStopr _ _ _ => none
  | .debugResm _ _ _ => none
  | .debugStep _ _ _ => none
  | .debugDump _ _ _ => none
  | .dumpWrite _ _ _ => none
  | .debugWrite _ _ _ => none
  | .debugRead _ _ _ => none
  | .watchEval => none
  | .sampleTag _ _ _ _ => none
  | .registerWrite _ _ => none
  | .coreSpareMigrate _ _ => none
  | .channelSpareMigrate _ _ => none
  | .laneSpareRetrain _ => none
  | .sparesExhausted _ _ => none
  | .errorRecord _ _ _ _ _ _ _ => none
  | .wearSample _ _ _ _ => none
  | .telemetrySample _ _ _ => none
  | .thermalStop => none
  | .gddrRefresh _ => none
  | .memoryScrub _ => none
  | .moduleReset => none
  | .admissionChecksComplete _ _ => none
  | .fabricMessageArrive _ => none
  | .retransmissionTimeout _ => none
  | .priorityFlowControl _ _ _ => none
  | .stallCounterIncrement _ => none
  | .multicastFill _ _ => none

/-- The SUB that the constructors sharing an opcode take (R363, R417, R432, R468). -/
def subOk (i : Instr) : Bool :=
  match i with
  | .rcbopReg _ f _ | .tlbopVa _ f _ | .svcallAtt _ f _ | .wtblSync _ f _ => f.sub = 0
  | .rcbopRet _ f _ | .tlbopAll _ f _ | .svcallCert _ f _ | .wtblUnpin _ f _ => f.sub = 1
  | .rcbopUpd _ f _ | .tlbopSva _ f _ => f.sub = 2
  | .rcbopQry _ f _ | .tlbopSid _ f _ => f.sub = 3
  | .rcbopAdr _ f _ | .tlbopPart _ f _ => f.sub = 4
  | _ => true

/-- Does the instruction pass the checks of R101 that depend on it alone? An event has no encoding. -/
def wellFormed (i : Instr) : Bool :=
  match encOf i with
  | none => false
  | some e => e.failing.isNone && subOk i

end Sys2Proof.Machine
end

