-- ==== Sys2Proof/Machine/Units.lean ====
section
/-!
DEFINITION. Plain data that the units outside the cores hold: tasks, circular buffers and messages (chapters 9 to 14), launches and gangs (chapters 1 and 19), and what the service core keeps (chapters 17 to 21).
-/

namespace Sys2Proof.Machine

/-! ## Memory order (R216 to R234) -/

/-- The ordering kind of a page (R219, R424). -/
inductive PageKind | so | rc | uo
  deriving DecidableEq, Repr, Inhabited

/-- Where one byte lies. -/
inductive Loc
  /-- device memory, through a page of a kind -/
  | dev (pa : Nat) (k : PageKind)
  /-- local store, by the key of State.ls -/
  | loc (key : Nat)
  /-- chip scratchpad -/
  | chip (a : Nat)
  /-- a peer module's memory (R427) -/
  | rem (peer va : Nat) (k : PageKind)
  deriving DecidableEq, Repr, Inhabited

/-- What binds the later accesses of an agent, by the numbers of accesses (R230): `all` those that bind each of them, its own among these; `hb` those that
bind accesses to pages that are not UO, and that its releases carry (R222, R223); `jn` those of operations whose completion it has observed and after
which it has made no access yet: they bind each of its accesses, and only one of these carries them on (R226, R404); the releases that FENCE leaves on its
later writes; and the releases that its reads have taken, for a later FENCE (R223). -/
structure View where
  all : List Nat
  hb : List Nat
  jn : List Nat
  fences : List Rel
  pool : List Rel
  deriving DecidableEq, Repr, Inhabited

/-- The view of an agent after all that `l` names. -/
def View.of (l : List Nat) : View := ⟨l, l, [], [], []⟩

/-- Who accesses memory (R216). -/
inductive Who
  | lane (uid lane : Nat)
  | task (cl slot : Nat)
  | ray (id : Nat)
  | beam (id : Nat)
  | tile (id : Nat)
  | stream (uid w : Nat)
  | mread (id : Nat)
  | queue (qp : Nat)
  /-- an operation of a peer, by its number (R427) -/
  | peer (n : Nat)
  /-- the fill of a block of the instruction cache of core 4 j + c for a region (R82) -/
  | fetch (core rid blk : Nat)
  /-- the walk unit (R431) -/
  | walker
  deriving DecidableEq, Repr, Inhabited

/-- The translation caches of R429. -/
inductive TlbAt
  /-- core 4 j + c -/
  | core (k : Nat)
  | cluster (j : Nat)
  | gse (i : Nat)
  | port
  deriving DecidableEq, Repr, Inhabited

/-- The agent whose accesses are now performed. -/
structure Agent where
  who : Who
  place : Place
  tlb : TlbAt
  vw : View
  deriving DecidableEq, Repr, Inhabited

/-- A write to a sector: its number; the bytes of the sector that it overwrote, by offset; whether it is an SO access; whether it is the write of an ATOM or
RED; the releases that a read of it takes, and those whose release sequence is open after it, with their bytes (R223); its clk and its step; and whether
every agent has seen it (R231). -/
structure WEv where
  id : Nat
  old : List (Nat × BitVec 8)
  so : Bool
  rmw : Bool
  own : List (Rel × List Nat)
  live : List (Rel × List Nat)
  clk : Nat
  step : Nat
  seen : Bool
  deriving DecidableEq, Repr, Inhabited

/-- An SO access in the order S (R230): its number, the access of which it is a part (R234), its sector, whether it writes, for a read the write after which
it has its point, and its clk. -/
structure SoNode where
  id : Nat
  grp : Nat
  sec : Loc
  write : Bool
  at' : Option Nat
  clk : Nat
  deriving DecidableEq, Repr, Inhabited

/-- A byte that an engine operation has put into a sector and not yet written: its operation, its virtual address and its place; its bits with a mask of
those put so far; and whether it is of a FILL (R295, R301). -/
structure PutByte where
  who : Who
  va : Nat
  at' : Loc
  byte : BitVec 8
  mask : BitVec 8
  pad : Bool
  deriving DecidableEq, Repr, Inhabited

/-- The order of memory: the latest writes of each sector, newest first (R217); the number of the next access; the agent that acts; the fences of R224; the
writes that every walk of the tables reads (R431), and for core 4 j + c those that every fill of its instruction cache reads (R83); the SO accesses in the order S (R230); for an engine operation the bytes of each sector as it has read
them, and the bytes that it has put into sectors and not yet written (R218, R301); and for the packet at hand what binds its accesses to a sector (R203). -/
structure Ord where
  hist : List (Loc × List WEv)
  next : Nat
  agent : Option Agent
  ars : List Rel
  walk : List Nat
  fills : List (Nat × List Nat)
  sos : List SoNode
  held : List (Who × Loc × List (BitVec 8))
  put : List PutByte
  pack : List (Loc × List Nat)
  deriving DecidableEq, Repr, Inhabited

/-! ## Translation misses (R430) -/

/-- A requester of a walk: who, the cache in which it missed, its region, its address, and whether it writes; for an instruction that skips an access which
fails a check (R212), the address after it and its settle marker. -/
structure WalkReq where
  who : Who
  tlb : TlbAt
  rid : Nat
  va : Nat
  write : Bool
  skip : Option (VA × Bool)
  deriving DecidableEq, Repr, Inhabited

/-! ## Caches (R204, R212) -/

/-- A line of 128 bytes that a core's data cache holds, or L2 (`core` none), with its replacement priority. -/
structure CLine where
  core : Option Nat
  line : Nat
  prio : Nat
  deriving DecidableEq, Repr, Inhabited

/-! ## Tasks and circular buffers (R258, R264) -/

/-- The states of an occupied task slot (R258). -/
inductive TaskSt | waiting | ready | running | specDone | done
  deriving DecidableEq, Repr, Inhabited

/-- An occupied task slot (R258, R261). -/
structure Task where
  cl : Nat
  slot : Nat
  gen : Nat
  st : TaskSt
  kind : Nat
  /-- bits 15:8 of the record: SPEC, IRQ, ROWCAST, COLCAST, WCM, KEEP -/
  opts : Nat
  evt : Nat
  succ : List Nat
  /-- IN0 to IN2 and OUT: cbuf and count or room in units of 32 bytes -/
  ins : List (Option (Nat × Nat))
  out : Option (Nat × Nat)
  ctr : Nat
  status : Nat
  /-- the place in the order of R260 and R264: clk of readiness, then slot -/
  asked : Nat
  /-- clk of its latest change of state (R449) -/
  since : Nat
  /-- the posting thread, its token, region, gang and superstep -/
  uid : Nat
  lane : Nat
  tok : Option Nat
  rid : Nat
  gid : Nat
  step : Nat
  /-- posted by a direct form (R315) -/
  direct : Bool
  /-- segment, address and core of the record -/
  src : Nat × Nat × Nat
  /-- the record's 512 bits once the payload is read -/
  body : Option Nat
  /-- the layout record or command block once read -/
  lrec : Option Nat
  /-- the engine that runs it: TCE or MXE of the cluster, or GSE of the four slices of R339 -/
  unit : Nat
  /-- ring offsets of its claims -/
  iOff : List Nat
  oOff : Nat
  /-- TKCMT or TKDIS met it running (R277) -/
  mark : Option Bool
  /-- its work is over, with this status -/
  fin : Option Nat
  /-- the fault that the engine has met, code and INFO, until the task is suspended (R313) -/
  fault : Option (Nat × Nat)
  susp : Bool
  /-- progress (R313, R304, R337) -/
  prog : Nat
  /-- strip accumulators of an MXE with each element's flags (R313, R311) -/
  acc : List (Nat × Nat)
  /-- READ, DELIV and SCNT of R296 -/
  rd : Nat
  dv : Nat
  sc : Nat
  /-- task flag word (R311) -/
  fl : Nat
  /-- outcome codes and fault records of a GSE task: index, code, chip, address (R338) -/
  codes : List Nat
  frecs : List (Nat × Nat × Nat × Nat)
  /-- the fabric message it waits for (R272) -/
  rmt : Option Nat
  /-- the writes that its accesses may not precede (R226) -/
  view : List Nat
  deriving DecidableEq, Repr, Inhabited

/-- An initialised circular buffer (R264). -/
structure Cbuf where
  cl : Nat
  cb : Nat
  /-- ring in g3, else in g2 of `core`; the context that holds it (R48) -/
  seg3 : Bool
  core : Nat
  ctx : Nat
  ring : Nat
  size : Nat
  /-- producer and consumer mode: engines -/
  pe : Bool
  ce : Bool
  prv : Nat
  pcm : Nat
  crv : Nat
  crl : Nat
  /-- the ring offsets of the four pointers -/
  prvO : Nat
  pcmO : Nat
  crvO : Nat
  crlO : Nat
  /-- what happens before its producer advances, and before its consumer releases (R226, R227) -/
  pview : List Nat
  cview : List Nat
  deriving DecidableEq, Repr, Inhabited

/-- Who holds a claim (R264). -/
inductive Owner2
  | task (slot : Nat)
  | copy (id : Nat)
  | bus (id : Nat)
  deriving DecidableEq, Repr, Inhabited

/-- A granted claim, unreleased: `fate` becomes true when it is to advance, false when it is to be rewound (R264, R269). -/
structure Claim where
  cl : Nat
  cb : Nat
  prod : Bool
  owner : Owner2
  spec : Bool
  n : Nat
  off : Nat
  fate : Option Bool
  /-- what happens before its advance or release (R226, R227) -/
  view : List Nat
  deriving DecidableEq, Repr, Inhabited

/-- A binding of a cluster event (R282). -/
structure Bind where
  cl : Nat
  evt : Nat
  uid : Nat
  rid : Nat
  idx : Nat
  deriving DecidableEq, Repr, Inhabited

/-- A FETCHW request (R284): the mailbox is `a` in segment `seg` of a core. -/
structure WgReq where
  uid : Nat
  lane : Nat
  tok : Nat
  lid : Nat
  seg : Nat
  a : Nat
  cl : Nat
  core : Nat
  deriving DecidableEq, Repr, Inhabited

/-- A destination of a bus transfer: not asked yet, claimed at a ring offset, dropped, or advanced (R247, R266). -/
inductive XferDst | asked | claimed (off : Nat) | dropped | over
  deriving DecidableEq, Repr, Inhabited

/-- A bus transfer (R246, R297, R312): bus 0 to 5 a row, 6 to 13 a column; `data` grows as a matrix engine reads. -/
structure Xfer where
  id : Nat
  bus : Nat
  cl : Nat
  slot : Nat
  gen : Nat
  rid : Nat
  cb : Nat
  total : Nat
  data : List Byte
  /-- pad bits of the 2-byte units (R295) -/
  pads : List Bool
  sent : Nat
  asked : Nat
  dsts : List (Nat × XferDst)
  /-- clk of its latest beat, or of its start: since when its next beat has waited -/
  since : Nat
  deriving DecidableEq, Repr, Inhabited

/-- A copy of a multicast on its way to one cbuf (R214, R215): `claim` is the ring offset of its claim. -/
structure MCopy where
  id : Nat
  req : Nat
  uid : Nat
  lane : Nat
  tok : Nat
  rid : Nat
  step : Nat
  cl : Nat
  cb : Nat
  bytes : List Byte
  asked : Nat
  deriving DecidableEq, Repr, Inhabited

/-- Where an active message is (R253): with its thread, in the core's queue, in a relay, in the target cluster's queue, sent to a
peer, in the hands of a handler wave. -/
inductive AmStage | thread | core | relay | queue | peer | handler
  deriving DecidableEq, Repr, Inhabited

/-- An active message (R252, R254). -/
structure AMsg where
  id : Nat
  /-- the sending thread and its token; `uid` 0 for a message of a peer -/
  uid : Nat
  lane : Nat
  tok : Nat
  rid : Nat
  step : Nat
  /-- s16 and bits 13 and 7:0 of s17 -/
  src : Nat
  peer : Nat
  away : Bool
  /-- the sending cluster and core -/
  cl : Nat
  core : Nat
  /-- target word of R251 -/
  target : Nat
  index : Nat
  words : List Word
  stage : AmStage
  view : List Nat
  deriving DecidableEq, Repr, Inhabited

/-- The cluster task schedulers, circular buffers, buses and messages. -/
structure Cts where
  /-- occupied slots -/
  tasks : List Task
  /-- generation of slot s of cluster j at key 256 j + s -/
  gens : Sparse Nat
  cbufs : List Cbuf
  /-- claims in the order in which they were granted -/
  claims : List Claim
  binds : List Bind
  wgreqs : List WgReq
  xfers : List Xfer
  /-- cluster position of the last grant of each bus -/
  busLast : Sparse Nat
  copies : List MCopy
  msgs : List AMsg
  /-- clk and slot of each cluster's latest completion (R260) -/
  doneAt : Sparse (Nat × Nat)
  deriving DecidableEq, Repr, Inhabited

/-! ## Streams (R324) -/

/-- A stream instruction that has arrived and is not yet performed: its opcode, fields, operands and participants. -/
structure StreamOp where
  uid : Nat
  lanes : List Nat
  pc : VA
  next : VA
  h : Hdr
  op : Nat
  sub : Nat
  x : Nat
  /-- operand values read at issue -/
  a : Nat
  b : Nat
  /-- superstep number at issue (R287) -/
  step : Nat
  view : List Nat
  deriving DecidableEq, Repr, Inhabited

/-! ## Neural calls (R350, R353) -/

/-- A neural call: its thread and token, its key within the region, its inputs and its output range; the registers of the range
that the thread has since written (R355). -/
structure ACall where
  uid : Nat
  lane : Nat
  tok : Nat
  rid : Nat
  step : Nat
  key : Nat
  /-- the 1,024 bits of the record that it read -/
  record : Nat
  first : Nat
  nout : Nat
  ins : List Nat
  /-- flags of a TEXN's sampling (R362) -/
  fl : Nat
  dropped : List Nat
  view : List Nat
  deriving DecidableEq, Repr, Inhabited

/-- An open bin (R350): `trig` once it is triggered and waits for the tile buffer. -/
structure Bin where
  cl : Nat
  n : Nat
  rid : Nat
  key : Nat
  record : Nat
  opened : Nat
  /-- number of its opening, for the order of R351 -/
  seq : Nat
  trig : Bool
  calls : List ACall
  deriving DecidableEq, Repr, Inhabited

/-- A row of a tile: the CE16 inputs of the next layer, and the flags so far. -/
structure TRow where
  vals : List Nat
  fl : Nat
  deriving DecidableEq, Repr, Inhabited

/-- A tile (R353): in the buffer, since a clk, or placed on an MXE; its next layer, its rows, and the rows written back. -/
structure Tile where
  cl : Nat
  id : Nat
  rid : Nat
  key : Nat
  record : Nat
  calls : List ACall
  entered : Nat
  unit : Option Nat
  layer : Nat
  rows : List TRow
  /-- every layer has been computed -/
  ready : Bool
  done : Nat
  fault : Option (Nat × Nat)
  susp : Bool
  deriving DecidableEq, Repr, Inhabited

/-- A way of a weight cache that holds a line of device memory (R255): `pins` names the sets, by region and record address, for which it
is pinned (R256, R363). -/
structure WcLine where
  cl : Nat
  line : Nat
  present : Bool
  pins : List (Nat × Nat)
  deriving DecidableEq, Repr, Inhabited

/-- The short result of an operation in progress: its lanes, its scalars that no later write has taken from it (R23, R455), and what it waits for: tiles (WTBL.sync,
R363), answers of peers, and what engine operations have put together and not yet written (TLBOP, R433). -/
structure WSync where
  uid : Nat
  lanes : List Nat
  regs : List (Nat × Word)
  tiles : List Nat
  ids : List Nat
  whos : List Who
  deriving DecidableEq, Repr, Inhabited

/-- The Asterism units and weight caches. -/
structure Asu where
  bins : List Bin
  tiles : List Tile
  /-- calls that wait for a bin, in arrival order: cluster and call -/
  waiting : List (Nat × ACall)
  /-- consecutive tiles that each MXE has taken, at key 4 cluster + core (R353) -/
  run : Sparse Nat
  wc : List WcLine
  syncs : List WSync
  deriving DecidableEq, Repr, Inhabited

/-! ## Rays and beams (R364, R374, R384) -/

/-- A hit: exact t as a quotient, with denominator 0 for +∞, and whether it is −0 (R380); the barycentrics as unorm16, the ids (R365, R371). -/
structure RayHit where
  num : Int
  den : Nat
  negZero : Bool
  bu : Nat
  bv : Nat
  prim : Nat
  inst : Nat
  geom : Nat
  sbtoff : Nat
  deriving DecidableEq, Repr, Inhabited

/-- Where a ray in flight stands: no place in the ray cache yet; in traversal; parked on a callback of a kind 0 to 3 at an entry since a
clk; its callback runs; to be completed with a status, and with a failed code and its INFO. -/
inductive RaySt
  | noPlace
  | traverse
  | parked (kind entry since : Nat)
  | inWave (kind : Nat)
  | finish (status code info : Nat)
  deriving DecidableEq, Repr, Inhabited

/-- What a traversal has still to look at (R368 to R371): a node, a reference with its box, a primitive record; with the root of its
BVH and the 512 bits of its instance record. -/
inductive RayItem
  | node (root addr : Nat) (inst : Option Nat)
  | ref (root : Nat) (box ref : Nat) (inst : Option Nat)
  | prim (addr : Nat) (inst : Option Nat)
  deriving DecidableEq, Repr, Inhabited

/-- A ray in flight (R364): its record copy, owner, roots, and traversal. -/
structure Ray where
  id : Nat
  cl : Nat
  rid : Nat
  /-- record index, and the record's device virtual address -/
  r : Nat
  va : Nat
  record : Nat
  uid : Nat
  lane : Nat
  tok : Nat
  step : Nat
  lid : Nat
  root : Nat
  sbt : Nat
  /-- privilege, segments and launch facts for its callback waves (R374) -/
  priv : Bool
  segs : Sparse (BitVec 128)
  al2 : Nat × Nat
  al3 : Nat × Nat
  ctx : Nat
  /-- V and S of its callback waves, from its table's header -/
  vs : Nat × Nat
  st : RaySt
  /-- what its traversal has still to look at, in no order -/
  work : List RayItem
  hit : Option RayHit
  /-- candidates already offered: primitive address and instance record -/
  offered : List (Nat × Option Nat)
  /-- the candidate of its callback -/
  cand : Option RayHit
  /-- traversal has been ended by FIRST or RVERD.term -/
  ended : Bool
  /-- beam that split it -/
  beam : Option Nat
  fault : Option (Nat × Nat)
  susp : Bool
  view : List Nat
  deriving DecidableEq, Repr, Inhabited

/-- A beam in flight: its block and tile word; the entry of each pixel resolved so far, and its split rays. -/
structure Beam where
  id : Nat
  cl : Nat
  rid : Nat
  uid : Nat
  lane : Nat
  tok : Nat
  step : Nat
  lid : Nat
  /-- OWNER of the records that it leaves for split pixels: the issuing lane and token (R385) -/
  owner : Nat
  priv : Bool
  segs : Sparse (BitVec 128)
  al2 : Nat × Nat
  al3 : Nat × Nat
  ctx : Nat
  /-- the beam unit of the chip that resolves it (R6) -/
  unit : Option Nat
  block : Nat
  tile : Nat
  /-- next pixel to look at, and the ray by which the BTU resolves it -/
  next : Nat
  cur : Option Ray
  /-- resolved pixels and their entries -/
  entries : List (Nat × Nat)
  /-- split pixels not complete -/
  split : List Nat
  failed : Option (Nat × Nat)
  written : Nat
  fault : Option (Nat × Nat)
  susp : Bool
  view : List Nat
  deriving DecidableEq, Repr, Inhabited

structure Rtu where
  rays : List Ray
  beams : List Beam
  deriving DecidableEq, Repr, Inhabited

/-! ## Launches, gangs and contexts (R18, R38, R285, R443) -/

/-- A queued or running launch: its record's fields (R285) and how far it has come. -/
structure Launch where
  lid : Nat
  rid : Nat
  entry : Nat
  grid : Nat × Nat × Nat
  waves : Nat
  gang : Nat
  quad : Bool
  pers : Bool
  V : Nat
  S : Nat
  cscr : Nat
  cshr : Nat
  lprv : Nat
  chscr : Nat
  nbar : Nat
  cblo : Nat
  cbn : Nat
  /-- priority delta (R38) -/
  delta : Int
  args : List Word
  argr : Nat
  htbl : Nat
  g0 : Nat × Nat
  g1 : Nat × Nat
  /-- next linear workgroup to place or withdraw -/
  nextWg : Nat
  /-- workgroups retired -/
  done : Nat
  /-- the first placement of a persistent launch is over (R42) -/
  persDone : Bool
  /-- clk since which it has had work unplaced while others were placed, and whether it is aged (R39) -/
  waitFrom : Nat
  passed : Bool
  aged : Bool
  /-- second completion record: address and tag (R412) -/
  cpl : Option (Nat × Nat)
  /-- what happens before its threads' accesses, and what its threads and their operations have done (R228) -/
  view : List Nat
  deriving DecidableEq, Repr, Inhabited

/-- A placed gang. -/
structure Gang where
  gid : Nat
  lid : Nat
  rid : Nat
  cl : Nat
  core : Nat
  n : Nat
  ctx : Nat
  bank : Nat
  /-- first byte of its core-scratchpad and cluster-shared allocations, and their sizes -/
  al2 : Nat × Nat
  al3 : Nat × Nat
  cblo : Nat
  cbn : Nat
  nbar : Nat
  waves : Nat
  V : Nat
  S : Nat
  /-- its blocks of the lane-private pool: pool region and block numbers (R473) -/
  pool : Nat
  blocks : List Nat
  /-- workgroups that its waves have withdrawn (R45) -/
  fetched : Nat
  deriving DecidableEq, Repr, Inhabited

/-- The states of a shadow bank that is not empty (R443). -/
inductive ShSt | filling | ready | dirty | spilling
  deriving DecidableEq, Repr, Inhabited

/-- A shadow bank that is not empty: the gangs of its context. -/
structure Shadow where
  cl : Nat
  core : Nat
  st : ShSt
  /-- it was filled in a case of R46 -/
  due : Bool
  gids : List Nat
  /-- its waves that belong to no gang: handlers and callbacks -/
  uids : List Nat
  /-- the gangs that the launch of a case of R46 pre-empts -/
  victims : List Nat
  deriving DecidableEq, Repr, Inhabited

/-- A context in its save slot: the 4 KiB blocks of device memory that the slot takes, and whether another agent has written to them (R444). -/
structure Saved where
  /-- the number of its spill: the images of one set of cores belong together (R46) -/
  set : Nat
  cl : Nat
  core : Nat
  rid : Nat
  gids : List Nat
  /-- its waves that belong to no gang -/
  uids : List Nat
  pages : List Nat
  bad : Bool
  deriving DecidableEq, Repr, Inhabited

structure Wd where
  launches : List Launch
  gangs : List Gang
  nextLid : Nat
  shadows : List Shadow
  saved : List Saved
  /-- cores of each region in the order in which they were first allocated (R443) -/
  saveIdx : List (Nat × Nat)
  /-- clk at which each region began to use its time slice (R46) -/
  sliceAt : Sparse Nat
  deriving DecidableEq, Repr, Inhabited

/-! ## The host link and the fabric (R408 to R412, R420) -/

/-- A request that waits for its root handler: its handler index, tag and payload words, and what happens before the handler (R229). -/
structure Req where
  qp : Nat
  hidx : Nat
  tag : Nat
  words : List Word
  view : List Nat
  deriving DecidableEq, Repr, Inhabited

/-- An operation of a host that is not yet performed: an RDMA WRITE or READ, or the request of a SEND (R408, R409). -/
inductive HostOp
  | write (rid va : Nat) (bytes : List Byte)
  | read (rid va len : Nat)
  | send (r : Req)
  deriving DecidableEq, Repr, Inhabited

/-- Why an operation of a host is refused (R408, R409). -/
inductive HostNak | invalidRequest | accessError
  deriving DecidableEq, Repr, Inhabited

/-- What leaves the module towards peers and hosts (R408, R420). -/
inductive OutMsg
  /-- an access to pages on a peer: a read, or the accesses of a packet or an operation to one sector (R427, R203, R209, R233, R336) -/
  | load (id rid peer va len : Nat) (acc : PeerAcc)
  | sector (id rid peer : Nat) (ops : List SecOp)
  /-- a cross-module write, read or reduction, with the id of its task (R272) -/
  | put (id task rid peer va : Nat) (bytes : List Byte) (acc : PeerAcc)
  | get (id task rid peer va len : Nat) (acc : PeerAcc)
  | red (id task rid peer va xop xty : Nat) (bytes : List Byte) (acc : PeerAcc)
  /-- an active message to a peer (R250), after the accesses that `seen` names -/
  | amsg (id rid peer target index : Nat) (words : List Word) (src : Nat) (seen : List Nat)
  /-- this member's arrival at a superstep (R185), after the accesses that `seen` names (R225) -/
  | stepArrive (rid peer step : Nat) (seen : List Nat)
  /-- an abort token: committed step, and originator with its code (R446) -/
  | abortToken (rid peer step : Nat) (orig : Option (Nat × Nat))
  /-- this member's region has retired (R421) -/
  | retired (rid peer : Nat)
  /-- replies to a peer's operations -/
  | readReply (c : Conn) (id : Nat) (bytes : List Byte) (fault : Nat) (seen : Seen)
  | ack (c : Conn) (id : Nat) (old : List (List Byte)) (fault : Nat) (seen : Seen)
  /-- replies to a host: acknowledgement, negative acknowledgement, data of an RDMA READ -/
  | hostAck (qp : Nat)
  | hostNak (qp : Nat) (why : HostNak)
  | hostData (qp : Nat) (bytes : List Byte)
  /-- of the transport: acknowledgement of a packet that came again, the sequence number awaited where another came, and the notice of congestion -/
  | linkAck (c : Conn) (psn : Nat)
  | linkNak (c : Conn) (psn : Nat)
  | cnp (c : Conn)
  deriving DecidableEq, Repr, Inhabited

/-- The number of an operation that waits for its answer. -/
def OutMsg.op (m : OutMsg) : Option Nat :=
  match m with
  | .load id _ _ _ _ _ | .sector id _ _ _ | .put id _ _ _ _ _ _ | .get id _ _ _ _ _ _ | .red id _ _ _ _ _ _ _ _ | .amsg id _ _ _ _ _ _ _ => some id
  | _ => none

/-- The connection of a message, where `mod` gives the module of a region's peer and `cls` the traffic class of a region. -/
def OutMsg.conn (mod : Nat → Nat → Nat) (cls : Nat → Nat) (m : OutMsg) : Conn :=
  match m with
  | .load _ rid p _ _ _ | .sector _ rid p _ | .put _ _ rid p _ _ _ | .get _ _ rid p _ _ _ | .red _ _ rid p _ _ _ _ _ | .amsg _ rid p _ _ _ _ _
  | .stepArrive rid p _ _ | .abortToken rid p _ _ | .retired rid p => .peer (mod rid p) (cls rid)
  | .readReply c _ _ _ _ | .ack c _ _ _ _ | .linkAck c _ | .linkNak c _ | .cnp c => c
  | .hostAck qp | .hostNak qp _ | .hostData qp _ => .host qp

/-- A number for a connection. -/
def connCode (c : Conn) : Nat := match c with | .host qp => 2 * qp | .peer p part => 2 * (16 * p + part) + 1

/-- What an atomic on a peer leaves in its lane when the old value comes: the destination's first register, and its operation, bytes, data and compare
operand, from which its flags follow (R209); and those of its registers that a debugger has written since (R455). -/
structure RemAtom where
  d : Nat
  aop : Nat
  size : Nat
  data : Nat
  cmp : Nat
  dropped : List Nat
  deriving DecidableEq, Repr, Inhabited

/-- The answer to an access on a peer: bytes, fault code, and its place in the order of memory. -/
structure RemAns where
  bytes : List Byte
  fault : Nat
  seen : Seen
  deriving DecidableEq, Repr, Inhabited

/-- An access to a page on a peer (R427): the number of its request, 0 until that is sent, and its place in it; its agent, region and local address; the peer,
the address there and the bytes; whether it writes, and for a write of a lane what is asked of the peer; the page's kind and the scope of its acquire;
the packet and the instruction of a lane; and the answer. -/
structure RemOp where
  id : Nat
  idx : Nat
  who : Who
  rid : Nat
  va : Nat
  peer : Nat
  pva : Nat
  n : Nat
  write : Bool
  ask : Option SecOp
  atom : Option RemAtom
  kind : PageKind
  acq : Option Nat
  step : Nat
  site : BitVec 56
  /-- the lanes that wait for it -/
  lanes : List Nat
  answer : Option RemAns
  deriving DecidableEq, Repr, Inhabited

/-- The attach port and the fabric ports. -/
structure Link where
  reqs : List Req
  /-- paused priorities: port and priority (R408) -/
  paused : List (Nat × Nat)
  /-- operations sent on a connection and not yet answered (R408) -/
  unacked : List (Conn × OutMsg)
  /-- messages that wait for a paused priority of their port -/
  waiting : List OutMsg
  /-- what has left the module, oldest first -/
  outbox : List OutMsg
  /-- accesses to pages on peers (R427) -/
  rops : List RemOp
  /-- what the operations of each connection may not precede (R229) -/
  views : List (Conn × List Nat)
  /-- operations of peers that wait, by their number (R427, R430, R442) -/
  inops : List (Nat × Conn × FabricMsg)
  /-- operations of hosts that are not yet performed, in the order of their arrival: queue pair, number, operation (R408) -/
  hops : List (Nat × Nat × HostOp)
  /-- the sequence number that each connection awaits (R408) -/
  psns : List (Conn × Nat)
  /-- the region id that CTXNEW assigns next (R411) -/
  nextRid : Nat
  /-- modules for which the group table has been rewritten, each with its port (R420, R463) -/
  ports : List (Nat × Nat)
  deriving DecidableEq, Repr, Inhabited

/-! ## The service core (chapters 19 to 21) -/

/-- Lanes whose outstanding result into a register a debugger cancelled, for the dump (R454, R455). -/
structure Cancel where
  cl : Nat
  core : Nat
  q : Nat
  slot : Nat
  scalar : Bool
  reg : Nat
  lanes : LaneMask
  deriving DecidableEq, Repr, Inhabited

/-- An instruction that a sampled quadrant has tagged, until its record is written (R459): its counter, the slot of its wave, its opcode, the threads of its
packet, its clk, the clk that its thread spent in fetch and ready before issue, the farthest level that it reached, and its thread. -/
structure Tagged where
  pc : VA
  slot : Nat
  op : Nat
  nt : Nat
  clk : Nat
  fet : Nat
  iss : Nat
  lvl : Nat
  uid : Nat
  lane : Nat
  deriving DecidableEq, Repr, Inhabited

/-- A sampled quadrant (R459): the clk at which its wait ends, the instruction tagged then, and since when each of its threads has been in fetch. -/
structure Sample where
  cl : Nat
  core : Nat
  q : Nat
  due : Nat
  tag : Option Tagged
  fets : List (Nat × Nat × Nat)
  deriving DecidableEq, Repr, Inhabited

/-- The slots that a quadrant loses, from a clk up to a clk: to a swap or a migration (cause 0), or to an activity of R450 (cause 1) (R47, R460, R461). -/
structure Busy where
  cl : Nat
  core : Nat
  q : Nat
  cause : Nat
  /-- the root's waves on logical core 0 of cluster 0 lose it too: a swap leaves them issuing (R47) -/
  all : Bool
  start : Nat
  till : Nat
  deriving DecidableEq, Repr, Inhabited

/-- The resolution of a copy-on-write fault by the SVC (R434): the record by its region and handle, the address, the page's size and its new place, the bytes
that the COPY task has moved, and the TCE on which it runs. -/
structure Cow where
  rid : Nat
  handle : Nat
  va : Nat
  size : Nat
  page : Nat
  done : Nat
  cl : Nat
  unit : Nat
  /-- the record of the task that the copy runs under, for accesses to peers -/
  slot : Nat
  deriving DecidableEq, Repr, Inhabited

/-- What the service core and the debug core keep. -/
structure Svc where
  /-- error signals raised and not cleared (R465) -/
  high : Bool
  low : Bool
  /-- thermal stop (R471) -/
  thermal : Bool
  /-- quote count (R469) -/
  quotes : Nat
  /-- partitions that drain, each since a clk; the root's set is never drained (R243) -/
  drains : List (Nat × Nat)
  /-- partitions that a spare slice's takeover has still to drain (R244) -/
  drainQ : List Nat
  /-- ports taken down (R463) -/
  portsDown : List Nat
  cancels : List Cancel
  samples : List Sample
  /-- slots that quadrants lose (R460) -/
  busy : List Busy
  /-- units, by the address of their block, that have counted a clk of the present slot as stalled, with the clk counted (R460) -/
  stalls : List (Nat × Nat)
  /-- what would start a spare action that has not been taken: kind (0 core, 1 slice, 2 channel, 3 lane) and unit (R461) -/
  wants : List (Nat × Nat)
  /-- corrected errors of the channels in the last 24 h: channel and clk (R461) -/
  corrected : List (Nat × Nat)
  /-- rows marked by scrub: group, unit and row, and whether the soft-repair table has been applied to the row at a boot (R461, R463, R467) -/
  rows : List (Nat × Nat × Nat × Bool)
  /-- the trend of the monitors over 30 days: the monitor's register, the clk of a sample, its two margins (R466) -/
  trend : List (Nat × Nat × Nat × Nat)
  /-- the router tables: for a partition's class and a port, the spare slice to which it leads (R243, R244) -/
  routes : List (Nat × Nat × Nat)
  /-- copy-on-write faults that the SVC is resolving (R434) -/
  cows : List Cow
  /-- the lowest task of each knot without a thread that has been reported: cluster, slot and generation (R449) -/
  knots : List (Nat × Nat × Nat)
  deriving DecidableEq, Repr, Inhabited

end Sys2Proof.Machine
end

