-- ==== Sys2Proof/Machine/State.lean ====
section
/-!
DEFINITION. The state of the machine as plain data: waves and their threads, short results on their way, memories, regions, launches,
queues and every unit's registers, each with the rule that names it; and the state right after module reset.
-/

namespace Sys2Proof.Machine

/-! ## Threads and waves -/

/-- A register that a short result writes: lane `lane` of a vector register, or a scalar register. -/
inductive RegRef
  | v (r lane : Nat)
  | s (r : Nat)
  deriving DecidableEq, Repr, Inhabited

/-- What holds a thread in the admission state (R22). -/
inductive Adm
  /-- its checks of R63 and its translation (R200) -/
  | checks
  /-- its call has no row yet (R350) -/
  | call
  /-- its ray has no place in the ray cache (R378) -/
  | ray
  /-- its message is not yet in the core's outgoing queue (R253) -/
  | message
  /-- its translation missed every cache, and it waits for the walk unit; the instruction issues again (R430) -/
  | walk
  /-- its data lies on a peer module and has been asked for; the instruction issues again (R427) -/
  | fetch
  /-- its store or atomic is performed on a peer module (R427, R233) -/
  | peer
  /-- the injection of its partition is stopped; the instruction issues again (R243) -/
  | drain
  /-- its access has met a fault; it parks once every other lane of its wave in the packet has been answered (R35) -/
  | failed (code info : Nat)
  /-- another lane of its quad waits; the quad issues the instruction again together (R33) -/
  | quad
  deriving DecidableEq, Repr, Inhabited

/-- What a thread in sync wait waits for (R22). -/
inductive Sync
  /-- MWAIT on a mask (R177) -/
  | mask (m : Nat)
  /-- BAR (R182) -/
  | bar (b : Nat)
  /-- BARWT until the parity differs from `par` (R182) -/
  | barwt (b : Nat) (par : Bool)
  /-- SSTEP (R185) -/
  | step
  /-- GJOIN of a run-ahead group, with the mask that GJOIN.m sets or 0 (R207) -/
  | gjoin (k m : Nat)
  /-- CBWT for `bytes` of data or of room (R279) -/
  | cbuf (cb bytes : Nat) (room : Bool)
  /-- TKWAIT on a task, with the destination register (R276) -/
  | task (id d : Nat)
  /-- a stream register in delivery (R324) -/
  | stream (w : Nat)
  deriving DecidableEq, Repr, Inhabited

/-- What a sleeping thread waits for (R172, R187, R439). -/
inductive Sleep
  | timer (till : Nat)
  | wfi
  /-- IDLE: the event mask, the clk of its timeout, the destination register, the selected events that have occurred since -/
  | idle (mask till d got : Nat)
  deriving DecidableEq, Repr, Inhabited

/-- The states of R22. Token wait and sync wait hold the address of the next instruction and the settle marker; pc stays at the
waiting instruction, which re-executes if the lane is parked (R190, R206). A token wait of TWAIT raises failed codes (R357). A sleep holds the
settle marker of its instruction: the thread settles when it wakes (R78, log 29). -/
inductive RunState
  | notLaunched
  | ready
  | fetching
  | settling
  | admission (a : Adm) (settle : Bool)
  | tokenWait (toks : BitVec 16) (next : VA) (settle raises : Bool)
  | syncWait (w : Sync) (next : VA) (settle : Bool)
  | sleeping (w : Sleep) (settle : Bool)
  | parked
  | exited
  deriving DecidableEq, Repr, Inhabited

/-- The state of a thread (R15) and of its lane (R60, R127). -/
structure Thread where
  pc : VA
  ra : VA
  sp : Word
  p : BitVec 7
  st : RunState
  age : Nat
  /-- generator state x (R127) -/
  gen : Word
  /-- sticky flags (R60) -/
  fl : Flags
  /-- not ready during the next slot after a YIELD (R172) -/
  yielded : Bool
  /-- set by an uncorrectable short result: the lane parks at its next boundary, with this INFO (R201) -/
  ue : Option Nat
  /-- clk at which it last issued: the begin of a wait (R449) -/
  since : Nat
  /-- the token whose failed code its latest TWAIT or TTEST raised, until the record is written (R357) -/
  ftok : Option Nat
  /-- what its later accesses may not precede (R230) -/
  vw : View
  /-- the step in which its latest instruction issued, which names its packet (R35) -/
  pkt : Nat
  /-- the segments and the scalars of its wave when the instruction issued that waits to issue again: they govern its access (R74) -/
  hseg : Option (Sparse (BitVec 128) × Sparse Word)
  deriving DecidableEq, Repr, Inhabited

/-- A lane that no launch set in m0 (R20). -/
def Thread.absent : Thread := ⟨0, 0, 0, 0, .notLaunched, 0, 0, 0, false, none, 0, none, View.of [], 0, none⟩

/-- The thread of a lane at launch (R20, R51, R127), after the accesses that `view` names (R228). -/
def Thread.atLaunch (entry : VA) (view : List Nat) (lane : Nat) : Thread :=
  ⟨entry, 0, 0, 0, .ready, 0, BitVec.ofNat 32 (lane + 1), 0, false, none, 0, none, View.of view, 0, none⟩

/-- Where a wave's context is held (R47, R443). -/
inductive Bank | active | shadow | saved
  deriving DecidableEq, Repr, Inhabited

/-- One lane of a callback wave: the ray it serves, 0 where that has been cancelled, the kind 0 to 3 of the callback, and whether its outcome was
taken (R374, R380). -/
structure CbLane where
  lane : Nat
  ray : Nat
  kind : Nat
  done : Bool
  deriving DecidableEq, Repr, Inhabited

/-- What started a wave. -/
inductive WaveKind
  | launch
  /-- a fault handler, for the record with this handle (R436) -/
  | fault (handle : Nat)
  /-- an active-message handler, for this message (R254) -/
  | amsg (msg : Nat)
  /-- ray callbacks (R374) -/
  | callback (rays : List CbLane)
  /-- an abort handler (R446) -/
  | abort
  /-- a handler of the root region's firmware, by its index (R410, R411) -/
  | firmware (hidx : Nat)
  deriving DecidableEq, Repr, Inhabited

/-- A wave: its identity and the registers of R51. Absent entries of the tables read as zero. -/
structure Wave where
  uid : Nat
  cl : Nat
  core : Nat
  quad : Nat
  slot : Nat
  bank : Bank
  /-- the context whose local store it addresses (R48) -/
  ctx : Nat
  kind : WaveKind
  /-- gang, or 0 for a handler wave -/
  gid : Nat
  /-- launch number, or 0 -/
  lid : Nat
  rid : Nat
  wg : Nat × Nat × Nat
  widx : Nat
  gangwg : Nat
  grid : Nat × Nat × Nat
  V : Nat
  S : Nat
  priv : Bool
  quadFlag : Bool
  /-- handler table address (R285) -/
  htbl : Nat
  /-- named barriers of its workgroup (R179) -/
  nbar : Nat
  /-- core-scratchpad and cluster-shared allocations, base and size (R65) -/
  al2 : Nat × Nat
  al3 : Nat × Nat
  threads : Sparse Thread
  /-- register r of lane l at key 128 r + l -/
  v : Sparse Word
  s : Sparse Word
  m : Sparse LaneMask
  /-- pending bits of k0 to k15 -/
  k : Sparse LaneMask
  /-- failed code and INFO of token j and lane l at key 128 j + l (R357) -/
  kfail : Sparse (Nat × Nat)
  /-- what happens before the completion that cleared token j in lane l, at key 128 j + l (R226) -/
  kview : Sparse (List Nat)
  /-- stream images (R322) -/
  w : Sparse (BitVec 512)
  g : Sparse (BitVec 128)
  n : Sparse Word
  ac : Word
  /-- run-ahead groups and their join sites (R206) -/
  jg : Sparse LaneMask
  jsite : Sparse VA
  /-- MWAIT sites (R177) -/
  msite : Sparse (Option VA)
  /-- what the lanes that have exited since a mask's last release have done: their exits count as arrivals (R24, R225) -/
  mview : Sparse (List Nat)
  /-- pending user interrupts, enable, handler thread with its resume address (R186) -/
  uiPend : List Nat
  uiEn : Bool
  uiRun : Option (Nat × VA)
  /-- what happens before the first instruction of its interrupt handler (R226) -/
  uiView : List Nat
  deriving DecidableEq, Repr, Inhabited

/-- A short result on its way (R23): its registers, the flags set when it is written (R136), the lanes that own it, the first
uncorrectable address met (R201), and the flags that belong to one of its registers, which go with that register (R137). -/
structure Pend where
  uid : Nat
  owners : List Nat
  regs : List (RegRef × Word)
  flags : List (Nat × Flags)
  ue : Option Nat
  rflags : List (RegRef × Flags) := []
  deriving DecidableEq, Repr, Inhabited

/-- A named barrier of a workgroup (R179, R181): its parity, and the record of its open phase. -/
structure Bar where
  gid : Nat
  gangwg : Nat
  b : Nat
  par : Bool
  isOpen : Bool
  /-- wave set, by WAVEIDX -/
  W : Nat
  /-- number of the mask register named -/
  c : Nat
  /-- mask of each wave at its first arrival -/
  mcs : List (Nat × LaneMask)
  /-- lanes arrived -/
  arr : List (Nat × LaneMask)
  /-- what happens before the arrivals of the open phase, and before those of the phases completed (R225) -/
  view : List Nat
  done : List Nat
  deriving DecidableEq, Repr, Inhabited

/-- A packet formed by a picker and not yet executed (R28): the pc, and its threads by wave, waves in ascending slot, lanes ascending. -/
structure Packet where
  cl : Nat
  core : Nat
  quad : Nat
  pc : VA
  waves : List (Nat × List Nat)
  deriving DecidableEq, Repr, Inhabited

/-! ## Fetch and translation -/

/-- A block of an instruction cache (R82): its bytes, or the fault of its fill. -/
structure IBlock where
  cl : Nat
  core : Nat
  /-- the page-table root it was filled through: none for the root region -/
  root : Option Nat
  blk : Nat
  bytes : List Byte
  fault : Option (Nat)
  deriving DecidableEq, Repr, Inhabited

/-- A leaf entry (R424), with whether its walk passed a shared subtree. -/
structure Leaf where
  lvl : Nat
  ord : PageKind
  ro : Bool
  cow : Bool
  rem : Bool
  peer : Nat
  /-- the page's physical address, or the peer's virtual address -/
  addr : Nat
  part : Nat
  shared : Bool
  deriving DecidableEq, Repr, Inhabited

/-- The tag of a cached translation (R428): a partition with a page-table root or with a share tag. -/
inductive Tag
  | root (part ptroot : Nat)
  | sid (part sid : Nat)
  deriving DecidableEq, Repr, Inhabited

/-- A cached translation (R429): where it is held, an address of the page and its leaf. -/
structure TlbEntry where
  tlb : TlbAt
  tag : Tag
  va : Nat
  leaf : Leaf
  deriving DecidableEq, Repr, Inhabited

/-- A level-3 entry in the top-entry cache of core 4 j + c (R428). -/
structure TopEntry where
  core : Nat
  part : Nat
  ptroot : Nat
  idx : Nat
  entry : Nat
  deriving DecidableEq, Repr, Inhabited

/-- A pointer entry in the walk cache (R429): the tag under which its level is reached, the level, the addresses it covers, by their upper bits. -/
structure PtrEntry where
  tag : Tag
  lvl : Nat
  pre : Nat
  entry : Nat
  deriving DecidableEq, Repr, Inhabited

/-- A miss of the walk unit's table (R430): its key (tag and va[55:16]) and its requesters. -/
structure Miss where
  tag : Tag
  page : Nat
  reqs : List WalkReq
  deriving DecidableEq, Repr, Inhabited

/-! ## Regions and fault records -/

/-- A registered region: its RCB as resolved at registration (R414, R415), and what the SVC keeps for it. -/
structure Region where
  rid : Nat
  /-- address of its RCB -/
  adr : Nat
  parent : Nat
  depth : Nat
  fdom : Bool
  ssm : Bool
  priv : Bool
  prio : Nat
  /-- none for the root (R411) -/
  part : Option Nat
  inh : Nat
  /-- the PTROOT field; none for a physical address space, which no event gives a region (log 22) -/
  ptroot : Option Nat
  cores : Nat
  vrkb : Nat
  lskb : Nat
  csmb : Nat
  /-- first byte of its chip-scratchpad allocation -/
  csmBase : Nat
  tslice : Nat
  tbud : Nat
  save : Nat
  fq : Nat
  fqn : Nat
  hpool : Nat
  hvreg : Nat
  hsreg : Nat
  fhnd : Nat
  abnd : Nat
  amtbl : Nat
  g0b : Nat
  g0l : Nat
  g6b : Nat
  nhnd : Nat
  g7b : Nat
  nray : Nat
  cgrp : Nat
  cgsz : Nat
  peerix : Nat
  prva : Nat
  prvmx : Nat
  prvn : Nat
  /-- the region whose lane-private pool it uses (R473) -/
  pool : Nat
  retiring : Bool
  /-- write and dispatch counts of its fault queue (R435) -/
  fqW : Nat
  fqD : Nat
  /-- service charge in clk (R438) -/
  charge : Nat
  /-- superstep number (R288), arrivals of the current step and the peers that have ended it (R185) -/
  stepno : Nat
  stepArr : List (Nat × LaneMask × LaneMask)
  /-- the waves of the current step (R287) -/
  stepSet : List Nat
  stepMask : Option Nat
  stepPeers : List Nat
  /-- what happens before the returns of the current step (R225) -/
  stepView : List Nat
  /-- the collective group: active, and its abort: the tokens held (peer, step, originator, code) (R421, R446) -/
  grpActive : Bool
  /-- a member has retired: the group is over (R421) -/
  grpOver : Bool
  aborting : Bool
  abTokens : List (Nat × Nat × Option Nat)
  abWave : Option Nat
  /-- agreed, and the records of its lanes held until the ABND wave retires (R446) -/
  abHold : Bool
  abClk : Nat
  deriving DecidableEq, Repr, Inhabited

/-- A parked lane: its own code and INFO, its resume pc marked changed (R189, R193). -/
structure ParkLane where
  lane : Nat
  code : Nat
  info : Nat
  changed : Bool
  deriving DecidableEq, Repr, Inhabited

/-- The fields of an engine record (R440). -/
structure EngObj where
  ekind : Nat
  ecl : Nat
  eun : Nat
  eobj : Nat
  /-- the model's own number of the operation, by which TRET finds it -/
  ref : Nat
  /-- the tasks of a knot, at 2^16 cluster + id -/
  knot : List Nat
  deriving DecidableEq, Repr, Inhabited

/-- How far a fault record has come (R435, R438): waiting for a handle or a slot, written, or dispatched, to a handler wave or (0) the SVC. -/
inductive RecState | waiting | written | served (server : Nat)
  deriving DecidableEq, Repr, Inhabited

/-- An open fault record: a parked sub-wave (R35, R188), or an engine operation (R440). -/
structure Rec where
  rid : Nat
  uid : Nat
  site : VA
  lanes : List ParkLane
  eng : Option EngObj
  code : Nat
  info : Nat
  handle : Option Nat
  st : RecState
  deriving DecidableEq, Repr, Inhabited

/-! ## Memory accesses under way -/

/-- The data of a run-ahead load on its way (R206). -/
structure Ahead where
  uid : Nat
  lane : Nat
  tok : Nat
  regs : List (RegRef × Word)
  deriving DecidableEq, Repr, Inhabited

/-- A hit of a watchpoint awaiting its evaluation (R457): `grp` numbers the packet. -/
structure Hit where
  grp : Nat
  uid : Nat
  lane : Nat
  /-- address of the accessing instruction -/
  site : VA
  /-- watchpoint -/
  n : Nat
  addr : Nat
  size : Nat
  /-- 0 load, 1 store, 2 atomic -/
  kind : Nat
  data : List Byte
  verdict : Option Bool
  deriving DecidableEq, Repr, Inhabited

/-- A multicast request (R213): its group, its issuer and the cbufs still to receive a copy, in order. -/
structure MReq where
  id : Nat
  uid : Nat
  lane : Nat
  tok : Nat
  rid : Nat
  /-- superstep number at issue (R287) -/
  step : Nat
  /-- window register: the partition's number, or 8 for the root (R248) -/
  win : Nat
  /-- first byte of the group: its virtual address, and where it lies -/
  va : Nat
  loc : Loc
  size : Nat
  dests : List (Nat × Nat)
  /-- the priority that its HINT gives to the lines of the fill in L2 (R213) -/
  hint : Option Nat
  /-- it waits in its slice for an entry (R248) -/
  waits : Bool
  /-- the table entry it joined -/
  entry : Option Nat
  /-- it joined after the first data, so that its flits are sent again (R214, R249) -/
  late : Bool
  /-- what happens before its copies, and then before its token's clearing (R226) -/
  view : List Nat
  deriving DecidableEq, Repr, Inhabited

/-- An entry of a slice's multicast table (R214), open until its window has passed; region, address, window and view of the request that opened it, and
after the fill the writes at which that has its points; the highest priority that its requests give to the lines. -/
structure MEntry where
  id : Nat
  slice : Nat
  rid : Nat
  va : Nat
  loc : Loc
  size : Nat
  win : Nat
  hint : Option Nat
  view : List Nat
  /-- clk of the fill and the bytes read at its single read point -/
  filled : Option Nat
  bytes : List Byte
  deriving DecidableEq, Repr, Inhabited

/-- Multicast reads, run-ahead loads and watch hits under way. -/
structure Flight where
  ahead : List Ahead
  hits : List Hit
  mreqs : List MReq
  ments : List MEntry
  deriving DecidableEq, Repr, Inhabited

/-! ## The state -/

/-- The machine stops with no fault of its own: every fault of the spec parks a thread or suspends an engine. -/
inductive Fault
  deriving DecidableEq, Repr

/-- Why an instruction has no meaning. -/
inductive Refusal
  /-- raised by Dispatch for an instruction that has no meaning yet; safe, since the run stops -/
  | notModelled (mnemonic : String)
  deriving DecidableEq, Repr

/-- The state of the machine. -/
structure State where
  /-- steps made: the model's own count, the argument of every free value (log 4) -/
  tick : Nat
  /-- packets of the current slot (log 4) -/
  packets : List Packet
  /-- next number of a wave, gang or operation (log 4) -/
  fresh : Nat
  /-- clk since module reset (R61) -/
  clk : Nat
  /-- firmware has registered the root region (R411) -/
  booted : Bool
  waves : List Wave
  pend : List Pend
  bars : List Bar
  /-- resumptions that take effect at the end of the slot: region, handle, exit, and what happens before them (R194, R228) -/
  tretQ : List (Nat × Nat × Bool × List Nat)
  icache : List IBlock
  tlb : List TlbEntry
  tops : List TopEntry
  /-- the walk cache (R429) and the misses, in their order of arrival (R430) -/
  ptrs : List PtrEntry
  misses : List Miss
  /-- misses that wait in their clusters for room in the table (R430) -/
  missQ : List WalkReq
  /-- walks that have failed for a fetch of a stream or an instruction cache, or for an operation of a host or a peer, with the fault's code, until that takes it -/
  refused : List (WalkReq × Nat)
  /-- lines of the data caches and of L2, by the lines' physical address over 128 (R204) -/
  lines : List CLine
  /-- device memory by physical address (R9, R199) -/
  mem : Sparse Byte
  /-- local store: offset o of the core scratchpad of logical core c of cluster j at (4 j + c) 2^20 + o, offset o of
  its contribution to cluster-shared memory 2^19 above that (R66, R68) -/
  ls : Sparse Byte
  /-- chip scratchpad: offset o of slice i at i 2^21 + o (R66, R237) -/
  chip : Sparse Byte
  /-- pad bits of the 2-byte units of local store, by half its key (R295) -/
  pads : Sparse Bool
  /-- sectors with uncorrectable data, of device memory and of the chip scratchpad (R201, R462) -/
  poison : List Loc
  /-- the order of memory: mem, ls and chip hold the newest byte of each place (R217, log 3) -/
  ord : Ord
  regions : List Region
  recs : List Rec
  /-- the granted feature vector G (R413) -/
  grant : BitVec 64
  /-- sectors at which an access met uncorrectable data, to be entered in an error bank, with whether that faulted its consumer (R201, R464, R465) -/
  ueLog : List (Loc × Bool)
  /-- fatal faults raised and not yet carried out: region and code (R445) -/
  fatals : List (Nat × Nat)
  /-- control registers by their address word; unlisted ones hold their reset value (R451) -/
  csrs : Sparse DWord
  /-- stopped quadrants whose STEP has not issued its packet (R452) -/
  stepping : List (Nat × Nat × Nat)
  /-- clk of the latest stop of each quadrant (R454) -/
  stopClk : List ((Nat × Nat × Nat) × Nat)
  flight : Flight
  cts : Cts
  /-- stream instructions that have arrived and are not performed, in order (R324) -/
  streams : List StreamOp
  asu : Asu
  rtu : Rtu
  wd : Wd
  link : Link
  svc : Svc
  deriving DecidableEq, Repr

/-- The machine right after module reset: the clk count 0 (R61), no region, wave, launch or task, every control register at its reset
value (R451), launch ids from 1 (R286), feature grant zero (R413); memory with nothing listed (log 1). -/
def State.reset : State :=
  { tick := 0
    packets := []
    fresh := 1
    clk := 0
    booted := false
    waves := []
    pend := []
    bars := []
    tretQ := []
    icache := []
    tlb := []
    tops := []
    ptrs := []
    misses := []
    missQ := []
    refused := []
    lines := []
    mem := []
    ls := []
    chip := []
    pads := []
    poison := []
    ord := ⟨[], 0, none, [], [], [], [], [], [], []⟩
    regions := []
    recs := []
    grant := 0
    ueLog := []
    fatals := []
    csrs := []
    stepping := []
    stopClk := []
    flight := ⟨[], [], [], []⟩
    cts := ⟨[], [], [], [], [], [], [], [], [], [], []⟩
    streams := []
    asu := ⟨[], [], [], [], [], []⟩
    rtu := ⟨[], []⟩
    wd := ⟨[], [], 1, [], [], [], []⟩
    link := ⟨[], [], [], [], [], [], [], [], [], [], 1, []⟩
    svc := ⟨false, false, false, 0, [], [], [], [], [], [], [], [], [], [], [], [], [], []⟩ }

end Sys2Proof.Machine
end

