-- ==== Sys2Proof/Machine/Order.lean ====
section
/-!
DEFINITION. The order of memory (R217 to R235): the point of each sector's coherence order at which an access is placed, and for an SO access its place in the
order S; what a read returns there, what a write leaves, and the releases that a read takes. The memories of State hold the newest byte of each place; the
latest writes, and what they overwrote, stand in State.ord (log 3).
-/

namespace Sys2Proof.Machine

/-! ## Sectors (R199) -/

/-- The sector that holds a byte, by its first byte. -/
def Loc.sec (l : Loc) : Loc :=
  match l with
  | .dev pa _ => .dev (32 * (pa / 32)) .rc
  | .loc k => .loc (32 * (k / 32))
  | .chip a => .chip (32 * (a / 32))
  | .rem p va _ => .rem p (32 * (va / 32)) .rc

/-- The place of a byte in its sector. -/
def Loc.off (l : Loc) : Nat := match l with | .dev a _ | .loc a | .chip a | .rem _ a _ => a % 32

/-- The ordering kind of an access to a byte: on-chip levels are RC (R219). -/
def Loc.kind (l : Loc) : PageKind := match l with | .dev _ k | .rem _ _ k => k | _ => .rc

/-- A number for a sector, argument of a free choice. -/
def Loc.code (l : Loc) : Nat := match l with | .dev a _ => 4 * (a / 32) | .loc a => 4 * (a / 32) + 1 | .chip a => 4 * (a / 32) + 2 | .rem _ a _ => 4 * (a / 32) + 3

/-- A number for an agent, argument of a free choice. -/
def Who.code (w : Who) : Nat :=
  match w with
  | .lane u l => 16 * (128 * u + l)
  | .task c k => 16 * (256 * c + k) + 1
  | .ray i => 16 * i + 2
  | .beam i => 16 * i + 3
  | .tile i => 16 * i + 4
  | .stream u w => 16 * (8 * u + w) + 5
  | .mread i => 16 * i + 6
  | .queue q => 16 * q + 7
  | .peer n => 16 * n + 8
  | .fetch c r b => 16 * (2 ^ 64 * (256 * r + c) + b) + 10
  | .walker => 9

/-! ## Scopes and views (R220 to R224) -/

/-- Do two performers lie within a scope (R220)? A queue pair lies in system scope alone, an operation in none. -/
def within (scope : Nat) (a b : Place) : Bool :=
  match a, b with
  | .thread m u l cl co, .thread m' u' l' cl' co' =>
    (match scope with
    | 0 => m = m' && u = u' && l = l'
    | 1 => m = m' && u = u'
    | 2 => m = m' && cl = cl' && co = co'
    | 3 => m = m' && cl = cl'
    | 4 => m = m'
    | _ => true)
  | .thread .., .queue _ | .queue _, .thread .. => scope = 5
  | _, _ => false

/-- Does a release synchronise with an acquire of a scope at a place: is each within the other's scope (R223)? -/
def relMeets (r : Rel) (scope : Nat) (me : Place) : Bool := within r.scope r.place me && within scope me r.place

/-- Joins sets of numbers. -/
def joinIds (a b : List Nat) : List Nat := a ++ b.filter (fun i => !a.contains i)

/-- What binds an access to a page of a kind (R221, R222, R226). -/
def View.bound (v : View) (k : PageKind) : List Nat := joinIds v.all (if k = .uo then v.jn else joinIds v.hb v.jn)

/-- What the accesses of an agent so far carry on: what happens before an operation that it starts (R226). -/
def View.ids (v : View) : List Nat := joinIds v.all v.hb

/-- What happens before an access of the agent that is not to a UO page, and so before a release that it makes with that access (R222). -/
def View.past (v : View) : List Nat := joinIds v.hb v.jn

/-- The agent makes an access through a page of a kind, which has its points at, or has itself, the numbers `is`. -/
def View.note (v : View) (is : List Nat) (k : PageKind) : View :=
  { v with all := joinIds (joinIds v.all v.jn) is, hb := if k = .uo then v.hb else joinIds v.past is, jn := if k = .uo then v.jn else [] }

/-- The agent observes the completion of what `l` names (R226): it happens before its later accesses. -/
def View.see (v : View) (l : List Nat) : View := { v with jn := joinIds v.jn l }

/-- What `l` names happens before all that follows (R228), or with an acquire before all but accesses to UO pages (R222). -/
def View.join (v : View) (l : List Nat) : View := { v with all := joinIds v.all l, hb := joinIds v.hb l }
def View.acquire (v : View) (l : List Nat) : View := { v with hb := joinIds v.hb l }

/-- The releases of a list that an acquire takes. -/
def View.takeRels (v : View) (scope : Nat) (me : Place) (rs : List Rel) : View :=
  (rs.filter (fun r => relMeets r scope me)).foldl (fun v r => v.acquire r.view) v

/-- The agent's read through a page of a kind: its points, and the releases that it has taken, which are there for a later fence; an acquire at scope `acq` joins
them, where the page is not UO (R221, R223). -/
def View.read (v : View) (me : Place) (k : PageKind) (acq : Option Nat) (is : List Nat) (rels : List Rel) : View :=
  let v := v.note is k
  let v := { v with pool := v.pool ++ rels.filter (fun r => !v.pool.contains r) }
  match acq with
  | some sc => if k = .uo then v else v.takeRels sc me rels
  | none => v

/-! ## Points of the coherence order (R217, R230) -/

/-- The latest writes to a sector, newest first. -/
def State.past (s : State) (l : Loc) : List WEv := ((s.ord.hist.find? (fun x => x.1 = l.sec)).map (fun x => x.2)).getD []

/-- Does a point lie between two writes of one packet, which are applied indivisibly (R203, R209)? The point `k` has `k` newer writes. -/
def splits (h : List WEv) (k : Nat) : Bool :=
  match k with
  | 0 => false
  | j + 1 => (match h[j]?, h[j + 1]? with | some a, some b => a.step = b.step | _, _ => false)

/-- Does a point lie directly before the write of an ATOM or RED, where no write may come (R230)? -/
def beforeRmw (h : List WEv) (k : Nat) : Bool :=
  match k with
  | 0 => false
  | j + 1 => (match h[j]? with | some a => a.rmw | none => false)

/-- The newest writes of a sector that an access may still precede: up to the first that binds it, that belongs to its own step, or that every agent has
seen (R230, R231). -/
def openTo (h : List WEv) (bound : List Nat) (step : Nat) : Nat :=
  (h.takeWhile (fun e => !(bound.contains e.id || e.step = step || e.seen))).length

/-- The points at which an access may be placed, the order S apart: the write of a lane stands directly after those of its packet (R203, R209). -/
def points (h : List WEv) (bound : List Nat) (step : Nat) (write : Bool) : List Nat :=
  match if write then h.findIdx? (fun e => e.step = step) else none with
  | some k => [k]
  | none => (List.range (openTo h bound step + 1)).filter (fun k => !splits h k && !(write && beforeRmw h k))

/-- What binds an access of the acting agent to a byte: its own view, and for the writes of a packet to one sector, which are adjacent, the views of all
its lanes there. -/
def State.binds (s : State) (a : Agent) (l : Loc) : List Nat :=
  joinIds (a.vw.bound l.kind) (((s.ord.pack.find? (fun x => x.1 = l.sec)).map (fun x => x.2)).getD [])

/-! ## The order S of SO accesses (R230, R234) -/

/-- The place of a write in S. -/
def soPlace (sos : List SoNode) (id : Nat) : Option Nat := (findIdx (fun x => x.id = id) sos).map (fun x => x.1)

/-- Does the point `k` of a sector with the writes `h` agree with place `p` of S? -/
def soFits (sos : List SoNode) (p : Nat) (h : List WEv) (l : Loc) (write : Bool) (k : Nat) : Bool :=
  let later := fun (i : Nat) => match soPlace sos i with | some q => decide (p ≤ q) | none => false
  let newer := h.take k
  newer.all (fun e => !e.so || later e.id) && (h.drop k).all (fun e => !e.so || !later e.id) &&
    (!write || (List.range sos.length).all (fun q => match sos[q]? with
      | some x => x.write || x.sec ≠ l.sec ||
          (let above := newer.any (fun e => x.at' = some e.id)
           if q < p then !above else above)
      | none => true))

/-- The number that an access gives its parts in S: those of one instruction of a thread, or all of one operation (R216, R218). -/
def Agent.soGroup (a : Agent) (step : Nat) : Nat := match a.who with | .lane .. => 4 * (step + 2 ^ 64 * a.who.code) | w => 4 * w.code + 1

/-- The places of S where an access may stand: after every access that happens before it, and between no two parts of another; beside its own parts, in
ascending address, where it has some. -/
def soPlaces (sos : List SoNode) (bound : List Nat) (grp : Nat) (l : Loc) : List Nat :=
  let own := (List.range sos.length).filter (fun q => match sos[q]? with | some x => x.grp = grp | none => false)
  let below := own.filter (fun q => match sos[q]? with | some x => x.sec.code ≤ l.sec.code | none => false)
  match below.getLast?, own.head? with
  | some q, _ => [q + 1]
  | none, some q => [q]
  | none, none =>
    let least := (List.range sos.length).foldl (fun n q => match sos[q]? with | some x => if bound.contains x.id then q + 1 else n | none => n) 0
    (List.range (sos.length + 1)).filter (fun p => least ≤ p && (p = 0 || (match sos[p - 1]?, sos[p]? with | some a, some b => a.grp ≠ b.grp | _, _ => true)))

/-! ## Spots -/

/-- The first byte of each sector that an access touches, in ascending address where it ascends. -/
def sectorsOf (ls : List Loc) : List Loc := ls.foldl (fun acc l => if acc.any (fun x => x.sec = l.sec) then acc else acc ++ [l]) []

/-- Where a part of an access is placed: its sector by one of its bytes, its place in S, and its point. -/
structure Spot where
  at' : Loc
  p : Nat
  k : Nat
  deriving DecidableEq, Repr, Inhabited

/-- The candidates for the point of a part at place `p` of S. -/
def State.spotKs (s : State) (a : Agent) (p : Nat) (write : Bool) (l : Loc) : List Nat :=
  let h := s.past l
  (points h (s.binds a l) s.tick write).filter (fun k => l.kind ≠ .so || soFits s.ord.sos p h l write k)

/-- A free choice among candidates. -/
def State.among (s : State) (a : Agent) (l : Loc) (ks : List Nat) (d : Nat) : Nat :=
  match ks with
  | [] => d
  | [k] => k
  | _ => (ks[Config.point s.tick (l.code + 2 ^ 64 * a.who.code) % ks.length]?).getD d

/-- The places of the parts of an access to the bytes `ls`: for SO parts one place of S at which each has a point, and freely any that R230 allows, the newest
where there is no other (log 3). The service's accesses have the newest points. -/
def State.spots (s : State) (ls : List Loc) (write : Bool) : List Spot :=
  let parts := sectorsOf ls
  match s.ord.agent with
  | none => parts.map (fun l => ⟨l, 0, 0⟩)
  | some a =>
    let so := parts.filter (fun l => l.kind = .so)
    let p := match so with
      | [] => 0
      | l :: _ =>
        s.among a l ((soPlaces s.ord.sos (so.foldl (fun b l => joinIds b (s.binds a l)) []) (a.soGroup s.tick) l).filter
          (fun p => so.all (fun l => !(s.spotKs a p write l).isEmpty))) s.ord.sos.length
    parts.map (fun l => ⟨l, p, s.among a l (s.spotKs a p write l) 0⟩)

/-- The spot of a byte among those of its access. -/
def spotOf (sps : List Spot) (l : Loc) : Spot := (sps.find? (fun x => x.at'.sec = l.sec)).getD ⟨l, 0, 0⟩

/-- A part of an access takes its place in S. -/
def State.addSo (s : State) (p : Nat) (x : SoNode) : State :=
  { s with ord := { s.ord with sos := s.ord.sos.take p ++ x :: s.ord.sos.drop p } }

/-! ## Bytes -/

/-- What a write overwrote at an offset. -/
def WEv.oldAt (e : WEv) (off : Nat) : Option Byte := (e.old.find? (fun x => x.1 = off)).map (fun x => x.2)

/-- The byte at a point, from the newest. -/
def byteAt (h : List WEv) (k off : Nat) (b : Byte) : Byte := (h.take k).foldl (fun b e => (e.oldAt off).getD b) b

/-- The newest byte of a place of this module. -/
def State.newest (s : State) (l : Loc) : Byte :=
  match l with
  | .dev pa _ => Sparse.get 0 s.mem pa
  | .loc k => Sparse.get 0 s.ls k
  | .chip a => Sparse.get 0 s.chip a
  | .rem _ _ _ => 0

/-- The byte of a place that has an offset in its sector. -/
def Loc.atOff (l : Loc) (off : Nat) : Loc :=
  match l with
  | .dev pa k => .dev (32 * (pa / 32) + off) k
  | .loc k => .loc (32 * (k / 32) + off)
  | .chip a => .chip (32 * (a / 32) + off)
  | .rem p a k => .rem p (32 * (a / 32) + off) k

/-- The answer of a peer to a read of the acting agent that holds a byte. -/
def State.remAns (s : State) (peer va : Nat) : Option (RemOp × RemAns) :=
  s.ord.agent.bind (fun a => s.link.rops.findSome? (fun r =>
    if r.who = a.who && !r.write && r.peer = peer && r.pva ≤ va then r.answer.bind (fun x => if va - r.pva < x.bytes.length then some (r, x) else none) else none))

/-- A byte on a peer module that has come for the acting agent. -/
def State.remByte (s : State) (peer va : Nat) : Option Byte := (s.remAns peer va).bind (fun x => x.2.bytes[va - x.1.pva]?)

/-- Has a peer answered a read of the acting agent that holds a byte with uncorrectable data, code 0x08 (R201, R427)? -/
def State.remUe (s : State) (peer va : Nat) : Bool :=
  match s.ord.agent with
  | none => false
  | some a => s.link.rops.any (fun r => r.who = a.who && !r.write && r.peer = peer && r.pva ≤ va && va < r.pva + r.n && r.answer.any (fun x => x.fault = 8))

/-- The bytes of a sector as the acting operation has read them (R218). -/
def State.heldSector (s : State) (l : Loc) : Option (List Byte) :=
  s.ord.agent.bind (fun a => (s.ord.held.find? (fun x => x.1 = a.who && x.2.1 = l.sec)).map (fun x => x.2.2))

/-- Is what has been put an agent's, and of one place? -/
def PutByte.of (x : PutByte) (w : Who) (l : Loc) : Bool := x.who = w && x.at'.sec = l.sec && x.at'.off = l.off

/-- A byte that the acting operation has put whole into a sector and not yet written. -/
def State.putByte (s : State) (l : Loc) : Option Byte :=
  s.ord.agent.bind (fun a => (s.ord.put.find? (fun x => x.of a.who l && x.mask = 255)).map (fun x => x.byte))

/-- One byte of any space at a point of its sector: an operation finds its own bytes, and those of a sector that it has read as it read them. -/
def State.readAt (s : State) (sps : List Spot) (l : Loc) : Byte :=
  match l with
  | .rem peer va _ => ((s.putByte l).or (s.remByte peer va)).getD 0
  | _ =>
    match s.putByte l, s.heldSector l with
    | some b, _ => b
    | none, some bs => (bs[l.off]?).getD 0
    | none, none => byteAt (s.past l) (spotOf sps l).k l.off (s.newest l)

/-- The bytes of a read of the acting agent. -/
def State.readLocs (s : State) (ls : List Loc) : List Byte :=
  let sps := s.spots ls false
  ls.map (s.readAt sps)

/-- The bytes that an ATOM or RED finds: those at the point of its own write (R230). -/
def State.rmwBytes (s : State) (ls : List Loc) : List Byte :=
  let sps := s.spots ls true
  ls.map (fun l => byteAt (s.past l) (spotOf sps l).k l.off (s.newest l))

/-! ## What a read leaves -/

/-- Changes the history of a sector; an empty one is dropped. -/
def State.setPast (s : State) (l : Loc) (h : List WEv) : State :=
  let rest := s.ord.hist.filter (fun x => x.1 ≠ l.sec)
  { s with ord := { s.ord with hist := if h.isEmpty then rest else rest ++ [(l.sec, h)] } }

def State.updAgent (s : State) (f : Agent → Agent) : State := { s with ord := { s.ord with agent := s.ord.agent.map f } }

/-- Changes the view of the acting agent. -/
def State.updReader (s : State) (f : Place → View → View) : State := s.updAgent (fun a => { a with vw := f a.place a.vw })

/-- The releases that a read of one byte at a point takes: those of the write that it reads, and for an ATOM's or RED's write those of the release
sequences to which that belongs (R223). -/
def relsAt (h : List WEv) (k off : Nat) : List Rel :=
  match (h.drop k).find? (fun e => (e.oldAt off).isSome) with
  | none => []
  | some e => (if e.rmw then e.live else e.own).map (fun r => r.1)

/-- The releases that a read of the bytes in one sector takes at a point. -/
def State.relsOf (s : State) (ls : List Loc) (sp : Spot) : List Rel :=
  (ls.filter (fun x => x.sec = sp.at'.sec)).flatMap (fun x => relsAt (s.past sp.at') sp.k x.off)

/-- An operation keeps the bytes of a sector as it has read them. -/
def State.holdSector (s : State) (sp : Spot) : State :=
  match s.ord.agent with
  | some a =>
    (match a.who, sp.at' with
    | .lane .., _ | _, .rem .. => s
    | w, l =>
      let h := s.past l
      { s with ord := { s.ord with held := s.ord.held ++
        [(w, l.sec, (List.range 32).map (fun o => byteAt h sp.k o (s.newest (l.atOff o))))] } })
  | none => s

/-- A part of a read has its spot: `upd` changes the views of those who read (R216, R222, R230). -/
def State.noteSpot (s : State) (upd : State → (Place → View → View) → State) (ls : List Loc) (acq : Option Nat) (i : Nat) (sp : Spot) : State :=
  match s.ord.agent with
  | none => s
  | some a =>
    match sp.at' with
    | .rem peer va k =>
      (match s.remAns peer va with
      | some (_, x) => upd s (fun me v => v.read me k acq x.seen.ids x.seen.rels)
      | none => s)
    | l =>
      if (s.heldSector l).isSome then s
      else
        let h := s.past l
        let w := ((h.drop sp.k).head?).map (fun (e : WEv) => e.id)
        let rels := s.relsOf ls sp
        let n := 2 * s.ord.next
        if l.kind = .so then
          let s := (upd s (fun me v => v.read me l.kind acq (w.toList ++ [n]) rels)).addSo (sp.p + i) ⟨n, a.soGroup s.tick, l.sec, false, w, s.clk⟩
          { s with ord := { s.ord with next := s.ord.next + 1 } }.holdSector sp
        else (upd s (fun me v => v.read me l.kind acq w.toList rels)).holdSector sp

/-- The acting agent has read these bytes: its later accesses may not precede the points (R230). -/
def State.noteRead (s : State) (ls : List Loc) (acq : Option Nat) : State :=
  let sps := s.spots ls false
  ((List.range sps.length).zip sps).foldl (fun s x => s.noteSpot State.updReader ls acq x.1 x.2) s

/-- The acting agent reads bytes, with `upd` for those who read. The parts of an acquire are in program order, each after what the parts before it have
acquired (R222); those of other reads are unordered. -/
def State.readBy (s : State) (upd : State → (Place → View → View) → State) (ls : List Loc) (acq : Option Nat) : State × List Byte :=
  if acq.isNone then
    let sps := s.spots ls false
    (((List.range sps.length).zip sps).foldl (fun s x => s.noteSpot upd ls acq x.1 x.2) s, ls.map (s.readAt sps))
  else
    let r := (sectorsOf ls).foldl (fun (acc : State × List (Loc × Byte)) p =>
      let part := ls.filter (fun l => l.sec = p.sec)
      let sps := acc.1.spots part false
      (sps.foldl (fun s sp => s.noteSpot upd part acq 0 sp) acc.1, acc.2 ++ part.map (fun l => (l, acc.1.readAt sps l)))) (s, [])
    (r.1, ls.map (fun l => ((r.2.find? (fun x => x.1 = l)).map (fun x => x.2)).getD 0))

/-! ## Writes -/

/-- The newer writes of a sector with one byte put beneath the oldest of them that covers it; none where none does. -/
def shade : List WEv → Nat → Byte → Option (List WEv)
  | [], _, _ => none
  | e :: r, off, b =>
    match shade r off b with
    | some r' => some (e :: r')
    | none =>
      if (e.oldAt off).isSome then some ({ e with old := (off, b) :: e.old.filter (fun x => x.1 ≠ off) } :: r) else none

/-- A byte of device memory has been written: weight-cache copies of its line are invalid, a pinned line keeps its way (R255); a
save slot that holds an image and is written by an agent other than the spill engine fails its check (R444). -/
def State.noteWrite (s : State) (pa : Nat) : State :=
  { s with
    asu := { s.asu with wc := s.asu.wc.filterMap (fun l =>
      if l.line = pa / 128 then (if l.pins.isEmpty then none else some { l with present := false }) else some l) }
    wd := { s.wd with saved := s.wd.saved.map (fun x => if x.pages.contains (pa / 2 ^ 12) then { x with bad := true } else x) } }

/-- Makes a byte the newest of its place; a write into local store clears the pad bit of its unit (R295). -/
def State.writeLoc (s : State) (l : Loc) (b : Byte) : State :=
  match l with
  | .dev pa _ => { s.noteWrite pa with mem := Sparse.put 0 s.mem pa b }
  | .loc k => { s with ls := Sparse.put 0 s.ls k b, pads := Sparse.put false s.pads (k / 2) false }
  | .chip a => { s with chip := Sparse.put 0 s.chip a b }
  | .rem _ _ _ => s

/-- The releases that a write carries: its own at scope `rel`, and those of the fences before it (R221, R223). -/
def Agent.rels (a : Agent) (k : PageKind) (rel : Option Nat) : List Rel :=
  (match rel with | some sc => if k = .uo then [] else [⟨sc, a.place, a.vw.past⟩] | none => []) ++ a.vw.fences

/-- The release sequences that are open after each write of a list, oldest first, after those that were open before it (R223). -/
def openRels : List (Rel × List Nat) → List WEv → List WEv
  | _, [] => []
  | before, e :: r =>
    let live := e.own ++ (if e.rmw then before else before.filter (fun x => !x.2.any (fun o => (e.oldAt o).isSome)))
    { e with live := live } :: openRels live r

/-- The bytes of one write, put at the point after which the newer writes `h` stand. -/
def State.putBytes (s : State) (xs : List (Loc × Byte)) (h : List WEv) : State × List WEv :=
  xs.foldl (fun (acc : State × List WEv) x =>
    match shade acc.2 x.1.off x.2 with
    | some h => (acc.1, h)
    | none => (acc.1.writeLoc x.1 x.2, acc.2)) (s, h)

/-- The write event of a part of the acting agent's access, with the bytes `offs` of its sector, what they held and the releases that it carries. -/
def State.eventOf (s : State) (old : List (Nat × Byte)) (so rmw : Bool) (own : List Rel) : WEv :=
  { id := 2 * s.ord.next, old := old, so := so, rmw := rmw, own := own.map (fun r => (r, old.map (fun x => x.1))), live := [], clk := s.clk, step := s.tick,
    seen := false }

/-- Has a write been there for so long that every agent has seen it? -/
def State.isOld (s : State) (clk : Nat) : Bool := decide (clk + Config.visible ≤ s.clk)

/-- The writes of a sector after every agent has seen those that `done` names: each write older than one of these has been seen too. -/
def markSeen (done : WEv → Bool) : List WEv → List WEv
  | [] => []
  | e :: r => if done e then (e :: r).map (fun x => { x with seen := true }) else e :: markSeen done r

/-- The writes of a sector that are still of account: the oldest that every agent has seen are dropped once no release of theirs is. -/
def State.keepPast (s : State) (h : List WEv) : List WEv :=
  (h.reverse.dropWhile (fun e => e.seen && ((e.own.isEmpty && e.live.isEmpty) || s.isOld e.clk))).reverse

/-- The acting agent writes bytes of one sector at its spot; the service writes at the newest, and every agent sees that (log 3). -/
def State.writePart (s : State) (xs : List (Loc × Byte)) (sp : Spot) (i : Nat) (rels : List Rel) (rmw : Bool) : State :=
  let l := sp.at'
  match s.ord.agent with
  | none =>
    let e := { s.eventOf (xs.map (fun x => (x.1.off, s.newest x.1))) false rmw [] with seen := true }
    let h := e :: (s.past l).map (fun x => { x with seen := true })
    let s := (s.putBytes xs []).1
    let s := s.setPast l (s.keepPast (openRels [] h.reverse).reverse)
    { s with ord := { s.ord with next := s.ord.next + 1 } }
  | some a =>
    let h := s.past l
    let so : Bool := l.kind = .so
    let e := s.eventOf (xs.map (fun x => (x.1.off, byteAt h sp.k x.1.off (s.newest x.1)))) so rmw rels
    let r := s.putBytes xs (h.take sp.k)
    let below := h.drop sp.k
    let s := (r.1.setPast l ((openRels ((below.head?.map (fun x => x.live)).getD []) (e :: r.2.reverse)).reverse ++ below)).updReader (fun _ v => v.note [e.id] l.kind)
    let s := if so then s.addSo (sp.p + i) ⟨e.id, a.soGroup s.tick, l.sec, true, none, s.clk⟩ else s
    { s with ord := { s.ord with next := s.ord.next + 1, held := s.ord.held.filter (fun x => !(x.1 = a.who && x.2.1 = l.sec)) } }

/-- Is a byte's sector one with uncorrectable data? -/
def State.isPoison (s : State) (l : Loc) : Bool := match l with | .rem p va _ => s.remUe p va | l => s.poison.contains l.sec

/-- The first byte, by its position, that lies in an uncorrectable sector. -/
def State.poisonAt (s : State) (ls : List Loc) : Option Nat := (findIdx s.isPoison ls).map (fun x => x.1)

/-- An access has met uncorrectable data: the error is to be recorded in a bank (R201, R464), with whether it faulted its consumer. -/
def State.noteUe (s : State) (l : Loc) (consumed : Bool) : State :=
  if s.ueLog.contains (l.sec, consumed) then s else { s with ueLog := s.ueLog ++ [(l.sec, consumed)] }

/-- A store to one sector. A sector with uncorrectable data is replaced when every byte of it is written, and is otherwise left unchanged, with the
error recorded (R201). -/
def State.storePart (s : State) (xs : List (Loc × Byte)) (sp : Spot) (i : Nat) (rels : List Rel) (rmw : Bool) : State :=
  match sp.at' with
  | .rem _ _ _ => s
  | l =>
  if s.isPoison l then
    if (List.range 32).all (fun o => xs.any (fun x => x.1.off = o)) then
      ({ s with poison := s.poison.filter (fun p => p ≠ l.sec) }).writePart xs sp i rels rmw
    else s.noteUe l false
  else s.writePart xs sp i rels rmw

/-- Stores bytes, each sector by itself; `rels` gives the releases that a part carries. -/
def State.storeWith (s : State) (ls : List Loc) (bs : List Byte) (rels : Agent → Loc → List Rel) (rmw : Bool) : State :=
  let sps := s.spots ls true
  ((List.range sps.length).zip sps).foldl (fun s x =>
    s.storePart ((ls.zip bs).filter (fun y => y.1.sec = x.2.at'.sec)) x.2 x.1 ((s.ord.agent.map (fun a => rels a x.2.at')).getD []) rmw) s

/-- Stores bytes: a write with a release at scope `rel`, or the write of an ATOM or RED. -/
def State.storeAs (s : State) (ls : List Loc) (bs : List Byte) (rel : Option Nat) (rmw : Bool) : State :=
  s.storeWith ls bs (fun a l => a.rels l.kind rel) rmw

/-- Stores bytes. -/
def State.store (s : State) (ls : List Loc) (bs : List Byte) : State := s.storeAs ls bs none false

/-! ## The writes of engine operations (R218, R301) -/

/-- An operation puts the bits `m` of a byte at a place. -/
def State.putMasked (s : State) (w : Who) (va : Nat) (l : Loc) (b m : Byte) (pad : Bool) : State :=
  let e := s.ord.put.find? (fun x => x.of w l)
  let old : Byte := (e.map (fun x => x.byte)).getD 0
  let mask : Byte := (e.map (fun x => x.mask)).getD 0
  { s with ord := { s.ord with put := s.ord.put.filter (fun x => !x.of w l) ++ [⟨w, va, l, (old &&& ~~~m) ||| (b &&& m), mask ||| m, pad⟩] } }

/-- The acting agent stores bytes, those of a FILL marked so. A task gathers them, so that each sector is written as one masked write; another agent writes
those of this module at once. -/
def State.gather (s : State) (ls : List (Nat × Loc)) (bs : List Byte) (pad : Bool) : State :=
  match s.ord.agent with
  | some a =>
    (match a.who with
    | .task .. => (ls.zip bs).foldl (fun s x => s.putMasked a.who x.1.1 x.1.2 x.2 255 pad) s
    | _ => s.store (ls.map (fun x => x.2)) bs)
  | none => s.store (ls.map (fun x => x.2)) bs

/-- Does a place lie on a peer? -/
def Loc.away (l : Loc) : Bool := match l with | .rem .. => true | _ => false

/-- Marks the 2-byte unit of local store that holds a byte as filled or not (R295). -/
def State.setPad (s : State) (l : Loc) (v : Bool) : State :=
  match l with | .loc k => { s with pads := Sparse.put false s.pads (k / 2) v } | _ => s

/-- The whole bytes of this module that the acting operation has gathered are written, each sector as one masked write. -/
def State.flush (s : State) : State :=
  match s.ord.agent with
  | none => s
  | some a =>
    let go := fun (x : PutByte) => x.who = a.who && x.mask = 255 && !x.at'.away
    let mine := s.ord.put.filter go
    let s := ({ s with ord := { s.ord with put := s.ord.put.filter (fun x => !go x) } } : State).store (mine.map (fun x => x.at')) (mine.map (fun x => x.byte))
    mine.foldl (fun s x => if x.pad then s.setPad x.at' true else s) s

/-- The requests of an agent to the walk unit, and their answers, are over; a miss that no one awaits is discarded. -/
def State.dropAsks (s : State) (who : Who) : State :=
  { s with
    misses := (s.misses.map (fun (m : Miss) => { m with reqs := m.reqs.filter (fun q => q.who ≠ who) })).filter (fun m => !m.reqs.isEmpty)
    missQ := s.missQ.filter (fun q => q.who ≠ who)
    refused := s.refused.filter (fun x => x.1.who ≠ who) }

/-- An operation is over: what it has read is forgotten, and its SO accesses keep their places as one access (R234). -/
def State.endReads (s : State) (who : Who) : State :=
  let code := 4 * who.code + 1
  let s := s.dropAsks who
  let s := { s with ord := { s.ord with held := s.ord.held.filter (fun x => x.1 ≠ who), put := s.ord.put.filter (fun x => x.who ≠ who) } }
  match s.ord.sos.find? (fun x => x.grp = code) with
  | none => s
  | some x => { s with ord := { s.ord with sos := s.ord.sos.map (fun y => if y.grp = code then { y with grp := 4 * x.id + 2 } else y) } }

/-! ## Visibility (R231) -/

/-- Every agent has seen the writes that `done` names, and those before them. -/
def State.reveal (s : State) (done : WEv → Bool) : State :=
  { s with ord := { s.ord with hist := (s.ord.hist.map (fun x => (x.1, s.keepPast (markSeen done x.2)))).filter (fun x => !x.2.isEmpty) } }

/-- Writes become visible in bounded time, and S is settled as far as they are. -/
def State.age (s : State) : State :=
  let s := s.reveal (fun e => s.isOld e.clk)
  { s with ord := { s.ord with sos := s.ord.sos.filter (fun x => !s.isOld x.clk) } }

end Sys2Proof.Machine
end

