-- ==== Sys2Proof/Machine/Ops.lean ====
section
/-!
DEFINITION. The shared operations over threads, registers, short results and packets (chapters 1 and 2).
-/

namespace Sys2Proof.Machine

/-! ## Waves, threads and registers -/

/-- The wave with number `uid`. -/
def State.wave? (s : State) (uid : Nat) : Option Wave := s.waves.find? (fun w => w.uid = uid)

/-- Changes the wave with number `uid`. -/
def State.updWave (s : State) (uid : Nat) (f : Wave → Wave) : State :=
  { s with waves := s.waves.map (fun w => if w.uid = uid then f w else w) }

def Wave.thread (w : Wave) (lane : Nat) : Thread := Sparse.get Thread.absent w.threads lane

def Wave.setThread (w : Wave) (lane : Nat) (t : Thread) : Wave :=
  { w with threads := Sparse.put Thread.absent w.threads lane t }

/-- Changes the thread of one lane. -/
def Wave.updThread (w : Wave) (lane : Nat) (f : Thread → Thread) : Wave := w.setThread lane (f (w.thread lane))

def State.thread (s : State) (uid lane : Nat) : Thread :=
  match s.wave? uid with
  | some w => w.thread lane
  | none => Thread.absent

def State.updThread (s : State) (uid lane : Nat) (f : Thread → Thread) : State :=
  s.updWave uid (fun w => w.updThread lane f)

/-- The lanes of m0 (R20). -/
def Wave.m0 (w : Wave) : LaneMask := Sparse.get 0 w.m 0

/-- A mask register; bits of lanes clear in m0 read as zero (R55). -/
def Wave.mask (w : Wave) (i : Nat) : LaneMask := Sparse.get 0 w.m i &&& w.m0

/-- Writes a mask register; m0 is read-only and bits of lanes clear in m0 ignore writes (R55). -/
def Wave.setMask (w : Wave) (i : Nat) (x : LaneMask) : Wave :=
  if i = 0 then w else { w with m := Sparse.put 0 w.m i (x &&& w.m0) }

/-- Predicate `i` of a thread; p7 reads as true (R15). -/
def Thread.pred (t : Thread) (i : Nat) : Bool := if i = 7 then true else t.p.toNat.testBit i

/-- Writes predicate `i`; p7 ignores writes (R15). -/
def Thread.setPred (t : Thread) (i : Nat) (v : Bool) : Thread :=
  if i ≥ 7 then t
  else { t with p := if v then t.p ||| BitVec.ofNat 7 (2 ^ i) else t.p &&& ~~~(BitVec.ofNat 7 (2 ^ i)) }

/-- The pending bit of token `j` in a lane (R56). -/
def Wave.tokPending (w : Wave) (j lane : Nat) : Bool := inMask (Sparse.get 0 w.k j) lane

def Wave.setTok (w : Wave) (j lane : Nat) (v : Bool) : Wave :=
  { w with k := Sparse.put 0 w.k j (setLane (Sparse.get 0 w.k j) lane v) }

/-- The value a register holds, apart from results on their way. -/
def Wave.reg (w : Wave) (r : RegRef) : Word :=
  match r with
  | .v r lane => Sparse.get 0 w.v (128 * r + lane)
  | .s r => Sparse.get 0 w.s r

def Wave.setReg (w : Wave) (r : RegRef) (x : Word) : Wave :=
  match r with
  | .v r lane => { w with v := Sparse.put 0 w.v (128 * r + lane) x }
  | .s r => { w with s := Sparse.put 0 w.s r x }

/-- A number for a register, argument of the free choice of R23. -/
def RegRef.code (r : RegRef) : Nat :=
  match r with
  | .v r lane => 2 * (128 * r + lane)
  | .s r => 2 * r + 1

/-- The value that a short result on its way puts into a register. -/
def Pend.val (p : Pend) (r : RegRef) : Option Word := (p.regs.find? (fun x => x.1 = r)).map (fun x => x.2)

/-- The outputs that calls of computed tiles are to write into a register (R355). -/
def Asu.outs (a : Asu) (uid : Nat) (r : RegRef) : List Word :=
  match r with
  | .s _ => []
  | .v k lane =>
    (a.tiles.filter (fun t => t.ready)).flatMap (fun t =>
      ((t.calls.zip t.rows).drop t.done).filterMap (fun x =>
        let i := k - x.1.first
        if x.1.uid = uid && x.1.lane = lane && x.1.first ≤ k && i < x.1.nout && !x.1.dropped.contains i then (x.2.vals[i]?).map (BitVec.ofNat 32) else none))

/-- Reads a register: with results pending for it, those of computed calls included, the value before or after each of them, freely (R23, R355). -/
def State.readReg (s : State) (uid : Nat) (r : RegRef) : Word :=
  match s.wave? uid with
  | none => 0
  | some w =>
    (s.pend.filterMap (fun p => if p.uid = uid then p.val r else none) ++ s.asu.outs uid r).foldl
      (fun cur new => if Config.readsNew s.tick (new.toNat + 2 ^ 32 * r.code) then new else cur) (w.reg r)

/-- The register after every result on its way has been written, in the order of issue. -/
def State.finalReg (s : State) (uid : Nat) (r : RegRef) : Word :=
  match s.wave? uid with
  | none => 0
  | some w => (s.pend.filterMap (fun p => if p.uid = uid then p.val r else none)).foldl (fun _ new => new) (w.reg r)

def State.readV (s : State) (uid lane r : Nat) : Word := s.readReg uid (.v r lane)
def State.readS (s : State) (uid r : Nat) : Word := s.readReg uid (.s r)

/-- `n` consecutive registers of kind `k` from `first`, as one number, the first register least significant. -/
def State.readRegs (s : State) (uid lane : Nat) (k : Kind) (first n : Nat) : Nat :=
  wordsNat ((List.range n).map (fun i =>
    match k with
    | .v => s.readV uid lane (first + i)
    | _ => s.readS uid (first + i)))

/-- The writes that put a number into `n` consecutive registers of kind `k`. -/
def regWrites (lane : Nat) (k : Kind) (first n x : Nat) : List (RegRef × Word) :=
  ((List.range n).zip (leWords n x)).map (fun p =>
    (match k with | .v => RegRef.v (first + p.1) lane | _ => RegRef.s (first + p.1), p.2))

/-! ## Short results (R23) -/

/-- Does a lane still own a short result that has not been written, that of a WTBL.sync or TLBOP in progress included (R363, R433)? -/
def State.hasPend (s : State) (uid lane : Nat) : Bool :=
  s.pend.any (fun p => p.uid = uid && p.owners.contains lane) || s.asu.syncs.any (fun y => y.uid = uid && y.lanes.contains lane)

/-- Removes from the results on their way those registers that a later instruction of an owner writes (R23); a result
left with no register is discarded with its flags (R137) when it lands, and flags of one register alone go with it. -/
def cancelPend (ps : List Pend) (uid : Nat) (owners : List Nat) (rs : List RegRef) : List Pend :=
  ps.map (fun p =>
    if p.uid = uid && owners.any (fun l => p.owners.contains l) && p.regs.any (fun x => rs.contains x.1) then
      let left := p.regs.filter (fun x => !rs.contains x.1)
      if left.isEmpty then { p with regs := [], flags := [], ue := none, rflags := [] }
      else { p with regs := left, rflags := p.rflags.filter (fun x => !rs.contains x.1) }
    else p)

/-- The registers that an atomic on a peer is still to write in a lane. -/
def RemAtom.regs (a : RemAtom) (lane : Nat) : List RegRef :=
  ((List.range (if a.size = 8 then 2 else 1)).map (fun i => a.d + i)).filterMap (fun k => if a.dropped.contains k then none else some (.v k lane))

/-- A later instruction writes registers of the output range of a call in progress, or of an operation whose result is owed: those results are discarded (R23, R355). -/
def Asu.overwrite (a : Asu) (uid : Nat) (rs : List RegRef) : Asu :=
  let mark := fun (c : ACall) =>
    if c.uid = uid then
      { c with dropped := c.dropped ++ (List.range c.nout).filter (fun i => rs.contains (.v (c.first + i) c.lane)) }
    else c
  { a with
    bins := a.bins.map (fun b => { b with calls := b.calls.map mark })
    tiles := a.tiles.map (fun t => { t with calls := t.calls.map mark })
    waiting := a.waiting.map (fun x => (x.1, mark x.2))
    syncs := a.syncs.map (fun y => if y.uid = uid then { y with regs := y.regs.filter (fun x => !rs.contains (.s x.1)) } else y) }

/-- Issues a short result. -/
def State.addPend (s : State) (p : Pend) : State :=
  if p.regs.isEmpty && p.flags.isEmpty && p.ue.isNone then s
  else
    let rs := p.regs.map (fun x => x.1)
    { s with
      pend := cancelPend s.pend p.uid p.owners rs ++ [p]
      asu := s.asu.overwrite p.uid rs }

/-- Has an owed result all that it waits for? -/
def State.isDue (s : State) (y : WSync) : Bool := y.tiles.isEmpty && y.ids.isEmpty && !s.ord.put.any (fun x => y.whos.contains x.who)

/-- The owed results that wait for nothing more are on their way. -/
def State.landOwed (s : State) : State :=
  (s.asu.syncs.filter s.isDue).foldl (fun s y => s.addPend ⟨y.uid, y.lanes, y.regs.map (fun x => (.s x.1, x.2)), [], none, []⟩)
    { s with asu := { s.asu with syncs := s.asu.syncs.filter (fun y => !s.isDue y) } }

/-- Results on their way to registers that a later instruction of the lanes writes are discarded (R23, R355). -/
def State.dropPend (s : State) (uid : Nat) (owners : List Nat) (rs : List RegRef) : State :=
  { s with pend := cancelPend s.pend uid owners rs, asu := s.asu.overwrite uid rs }

/-- The state of a thread that goes on after an instruction or a wait with the settle marker as given (R78). -/
def State.goOn (s : State) (uid lane : Nat) (settle : Bool) : RunState :=
  if settle && s.hasPend uid lane then .settling else .ready

/-- Makes a thread go on at `pc`, with age 0. -/
def State.resume (s : State) (uid lane : Nat) (pc : VA) (settle : Bool) : State :=
  s.updThread uid lane (fun t => { t with pc := pc, st := s.goOn uid lane settle, age := 0 })

/-- Ors flags into a lane's flag word (R60). -/
def State.orFlags (s : State) (uid lane : Nat) (f : Flags) : State :=
  s.updThread uid lane (fun t => { t with fl := t.fl ||| f })

/-- Lands the `k`-th short result on its way: its registers and flags are written, or its lanes are marked to park at their next
boundary (R201); threads that settled on it go on (R78). -/
def State.land (s : State) (k : Nat) : State :=
  match takeAt k s.pend with
  | none => s
  | some (p, rest) =>
    let s := { s with pend := rest }
    let s :=
      match p.ue with
      | some info => p.owners.foldl (fun s l => s.updThread p.uid l (fun t => { t with ue := some (t.ue.getD info) })) s
      | none =>
        let s := s.updWave p.uid (fun w => p.regs.foldl (fun w r => w.setReg r.1 r.2) w)
        let s := p.flags.foldl (fun s f => s.orFlags p.uid f.1 f.2) s
        p.rflags.foldl (fun s f => match f.1 with | .v _ l => s.orFlags p.uid l f.2 | .s _ => p.owners.foldl (fun s l => s.orFlags p.uid l f.2) s) s
    p.owners.foldl (fun s l =>
      if (s.thread p.uid l).st = .settling && !s.hasPend p.uid l then
        s.updThread p.uid l (fun t => { t with st := .ready, age := 0 })
      else s) s

/-! ## Faults (R35, R188, R189) -/

def fcIllegal : Nat := 0x01
def fcFetchFmt : Nat := 0x02
def fcSegLimit : Nat := 0x03
def fcMisalign : Nat := 0x04
def fcNotPresent : Nat := 0x05
def fcPermission : Nat := 0x06
def fcCowWrite : Nat := 0x07
def fcMemUe : Nat := 0x08
def fcBarMask : Nat := 0x09
def fcMalformed : Nat := 0x0A
def fcStreamState : Nat := 0x0B
def fcHandle : Nat := 0x0C
def fcPriv : Nat := 0x0D
def fcDeadlock : Nat := 0x0E
def fcAbort : Nat := 0x0F
def fcWatch : Nat := 0x10
def fcTrapInsn : Nat := 0x11

/-- No faults, but what keeps an instruction from executing yet: a translation that misses every cache (INFO the address, plus 2^56 for a write), and
data on a peer module that has not come (INFO the address, plus 2^56 for each byte that is still to be asked for). -/
def fcMiss : Nat := 0x100
def fcRemote : Nat := 0x101

/-- An access of a partition whose injection is stopped (R243). -/
def fcDrain : Nat := 0x102

/-- A lane's fault: its code and INFO. -/
structure LFault where
  code : Nat
  info : Nat
  deriving DecidableEq, Repr, Inhabited

/-- Does an access only wait? -/
def LFault.holds (f : LFault) : Bool := f.code = fcMiss || f.code = fcRemote || f.code = fcDrain

/-- An ILLEGAL of the check with number `n` (R101). -/
def illegal (n : Nat) : LFault := ⟨fcIllegal, n⟩

/-- The fault of an instruction's own checks (check 7 of R101). -/
def illegal7 : LFault := illegal 7

def State.region? (s : State) (rid : Nat) : Option Region := s.regions.find? (fun r => r.rid = rid)

def State.updRegion (s : State) (rid : Nat) (f : Region → Region) : State :=
  { s with regions := s.regions.map (fun r => if r.rid = rid then f r else r) }

/-- The superstep number of a region (R288). -/
def State.stepOf (s : State) (rid : Nat) : Nat := ((s.region? rid).map (fun r => r.stepno)).getD 0

/-- The region of a wave. -/
def State.ridOf (s : State) (uid : Nat) : Nat := ((s.wave? uid).map (fun w => w.rid)).getD 0

/-- Is a feature of R413 granted? -/
def State.granted (s : State) (bit : Nat) : Bool := s.grant.toNat.testBit bit

/-- The traffic class of a region: its partition, or 8 for the root (R243, R248, R253). -/
def State.classOf (s : State) (rid : Nat) : Nat := ((s.region? rid).bind (fun r => r.part)).getD 8

/-- Is the injection of a region's partition stopped (R243)? -/
def State.draining (s : State) (rid : Nat) : Bool := s.svc.drains.any (fun d => d.1 = s.classOf rid)

/-- Is the acting agent's access stopped at an injection port (R239, R243)? Walks are held as a whole; the reads of a slice for a multicast are not injected. -/
def State.injected (s : State) (rid : Nat) : Bool := s.ord.agent.isSome && s.draining rid

/-! ## Device memory and translation (R422 to R428) -/

/-- Installed device memory in bytes (R9, R13). -/
def installed : Nat := 256 * 10 ^ 9

/-- Reads `n` bytes of device memory at a physical address, little-endian. -/
def State.physNat (s : State) (a n : Nat) : Nat := leNat (readBytes s.mem a n)

/-- log2 of the page size of a leaf at a level (R424). -/
def lvlShift (lvl : Nat) : Nat :=
  match lvl with | 0 => 16 | 1 => 21 | 2 => 29 | _ => 34

/-- The index of a level in a virtual address (R422). -/
def lvlIndex (lvl tb va : Nat) : Nat :=
  match lvl with
  | 0 => bitsAt va 16 5
  | 1 => bitsAt va 21 8
  | 2 => bitsAt va 29 5
  | _ => bitsAt va 34 tb

/-- Is an entry malformed (R425)? -/
def entryBad (e lvl : Nat) : Bool :=
  if bitAt e 1 then
    bitAt e 5 || bitsAt e 8 2 ≠ 0 || bitsAt e 59 5 ≠ 0 || bitsAt e 2 2 = 3 ||
    (bitsAt e 16 40 * 2 ^ 16) % 2 ^ lvlShift lvl ≠ 0 || (!bitAt e 7 && installed ≤ bitsAt e 16 40 * 2 ^ 16)
  else
    bitsAt e 2 3 ≠ 0 || bitsAt e 6 2 ≠ 0 || lvl = 0 ||
    (if bitAt e 5 then lvl ≠ 3 || bitsAt e 56 8 = 0 else bitsAt e 56 8 ≠ 0) ||
    (lvl = 2 && bitsAt e 8 3 ≠ 0)

/-- The ordering kind that ORD codes (R424); 3 is malformed. -/
def kindOf (ord : Nat) : PageKind := match ord with | 0 => .so | 1 => .rc | _ => .uo

/-- The leaf that an entry holds (R424). -/
def leafOf (e lvl : Nat) (shared : Bool) : Leaf :=
  { lvl := lvl, ord := kindOf (bitsAt e 2 2), ro := bitAt e 4, cow := bitAt e 6, rem := bitAt e 7, peer := bitsAt e 10 6,
    addr := bitsAt e 16 40 * 2 ^ 16, part := bitsAt e 56 3, shared := shared }

/-- What a walk gives: a leaf with its tag, or no translation, with whether an entry was malformed. -/
inductive WalkRes
  | leaf (l : Leaf) (tag : Tag)
  | fault (malformed : Bool)
  deriving DecidableEq, Repr

/-- The tag of what lies below an entry (R425, R428). -/
def tagBelow (e : Nat) (tag : Tag) : Tag :=
  if bitAt e 5 then (match tag with | .root p _ => Tag.sid p (bitsAt e 56 8) | .sid p i => .sid p i) else tag

/-- The walk of R425 from level `lvl` down, in the table at `t`; `read` gives the entry at an address, for a tag and a level. -/
def walkFrom (read : Tag → Nat → Nat → Nat) (va tb : Nat) : Nat → Nat → Tag → Bool → WalkRes
  | lvl, t, tag, shared =>
    let e := read tag lvl (t + 8 * lvlIndex lvl tb va)
    if !bitAt e 0 then .fault false
    else if entryBad e lvl then .fault true
    else if bitAt e 1 then .leaf (leafOf e lvl shared) tag
    else
      match lvl with
      | 0 => .fault true
      | lvl' + 1 => walkFrom read va tb lvl' (bitsAt e 8 48 * 2 ^ 8) (tagBelow e tag) (shared || bitAt e 5)

/-- Does an address lie beyond what a page table maps (R425)? -/
def beyond (ptroot va : Nat) : Bool := bitsAt ptroot 0 5 < 22 && va / 2 ^ (34 + bitsAt ptroot 0 5) ≠ 0

/-- The top table of a region. -/
def topTable (ptroot : Nat) : Nat := bitsAt ptroot 8 48 * 2 ^ 8

/-- The walk of a region's tables for `va` (R425), reading entries by `read`. -/
def walkBy (read : Tag → Nat → Nat → Nat) (part ptroot va : Nat) : WalkRes :=
  if beyond ptroot va then .fault false else walkFrom read va (bitsAt ptroot 0 5) 3 (topTable ptroot) (.root part ptroot) false

/-- The walk in the tables as memory holds them now. -/
def walk (s : State) (part ptroot va : Nat) : WalkRes := walkBy (fun _ _ a => s.physNat a 8) part ptroot va

/-- The partition in the tags of a region's translations; the root has a set of its own (R411, R428). -/
def Region.tagPart (r : Region) : Nat := r.part.getD 8

/-- Does a walk for an address of a region meet a malformed entry (R425)? -/
def State.malformedAt (s : State) (rid va : Nat) : Bool :=
  match (s.region? rid).bind (fun r => r.ptroot.map (fun p => (r.tagPart, p))) with
  | some (part, root) => walk s part root va = .fault true
  | none => false

/-- The address of the level-3 entry for `va`. -/
def topAddr (ptroot va : Nat) : Nat := topTable ptroot + 8 * lvlIndex 3 (bitsAt ptroot 0 5) va

/-- A page-table entry, at the walk unit's point of its sector: from either side of a write that no walk must have seen (R431); the service reads the newest. -/
def State.entryAt (s : State) (a : Nat) : Nat :=
  let w : State := { s with ord := { s.ord with agent := s.ord.agent.map (fun _ => ⟨.walker, .op, .port, View.of s.ord.walk⟩) } }
  leNat (w.readLocs ((List.range 8).map (fun i => .dev (a + i) .rc)))

/-- The level-3 entry that a lookup finds: in the core's top-entry cache, else by a walk (R428). -/
def State.topEntry (s : State) (tlb : TlbAt) (part ptroot va : Nat) : Nat :=
  let fresh := s.entryAt (topAddr ptroot va)
  match tlb with
  | .core k =>
    (match s.tops.find? (fun t => t.core = k && t.part = part && t.ptroot = ptroot && t.idx = lvlIndex 3 (bitsAt ptroot 0 5) va) with
    | some t => t.entry
    | none => fresh)
  | _ => fresh

/-- The tag under which a lookup searches (R428). -/
def State.tagFor (s : State) (tlb : TlbAt) (part ptroot va : Nat) : Tag :=
  let e := s.topEntry tlb part ptroot va
  if bitAt e 0 && !bitAt e 1 then tagBelow e (.root part ptroot) else .root part ptroot

/-- The caches that an agent's lookup searches (R429). -/
def TlbAt.chain (a : TlbAt) : List TlbAt := match a with | .core k => [.core k, .cluster (k / 4)] | _ => [a]

/-- Does a cached translation cover an address? -/
def TlbEntry.covers (t : TlbEntry) (va : Nat) : Bool := va / 2 ^ lvlShift t.leaf.lvl = t.va / 2 ^ lvlShift t.leaf.lvl

/-- The cached translation that a lookup hits (R429). -/
def State.cachedLeaf (s : State) (tlb : TlbAt) (part ptroot va : Nat) : Option Leaf :=
  (s.tlb.find? (fun t => tlb.chain.contains t.tlb && t.tag = s.tagFor tlb part ptroot va && t.covers va)).map (fun t => t.leaf)

/-! ## Fills (R429) -/

/-- Room for one more of the `cap` entries of a set: which entry leaves a full one is free. -/
def roomIn {α : Type} [DecidableEq α] (l : List α) (mine : α → Bool) (cap k : Nat) : List α :=
  let here := l.filter mine
  if here.length < cap then l
  else match here[k % here.length]? with | some v => l.filter (fun x => x ≠ v) | none => l

/-- The sets and the ways of a cache: a core's is fully associative (R429). -/
def TlbAt.sets (a : TlbAt) : Nat := match a with | .core _ => 1 | .cluster _ => 256 | _ => 32
def TlbAt.ways (a : TlbAt) : Nat := match a with | .core _ => 64 | .cluster _ => 16 | _ => 8

/-- The set of a cache in which a translation stands. -/
def TlbEntry.set (e : TlbEntry) : Nat := Config.tlbSet (e.va / 2 ^ lvlShift e.leaf.lvl) % e.tlb.sets

/-- A translation enters a cache. -/
def State.fillTlb (s : State) (e : TlbEntry) : State :=
  if s.tlb.contains e then s
  else { s with tlb := roomIn s.tlb (fun x => x.tlb = e.tlb && x.set = e.set) e.tlb.ways (Config.order s.tick e.va) ++ [e] }

/-- A level-3 entry enters the top-entry cache of a core, of 64 sets of 4 ways (R428). -/
def State.fillTop (s : State) (e : TopEntry) : State :=
  let l := s.tops.filter (fun x => !(x.core = e.core && x.part = e.part && x.ptroot = e.ptroot && x.idx = e.idx))
  { s with tops := roomIn l (fun x => x.core = e.core && Config.tlbSet x.idx % 64 = Config.tlbSet e.idx % 64) 4 (Config.order s.tick e.idx) ++ [e] }

/-- A core's cache fills from its cluster's for the addresses of a thread's access (R429, R430). -/
def State.fillCore (s : State) (rid : Nat) (vas : List Nat) : State :=
  match s.ord.agent, s.region? rid with
  | some a, some r =>
    (match a.tlb, r.ptroot with
    | .core k, some root =>
      vas.foldl (fun s va =>
        let tag := s.tagFor (.core k) r.tagPart root va
        if s.tlb.any (fun t => t.tlb = .core k && t.tag = tag && t.covers va) then s
        else match s.tlb.find? (fun t => t.tlb = .cluster (k / 4) && t.tag = tag && t.covers va) with
          | some e => s.fillTlb { e with tlb := .core k }
          | none => s) s
    | _, _ => s)
  | _, _ => s

/-- The leaf of a walk. -/
def WalkRes.leaf? (r : WalkRes) : Option Leaf := match r with | .leaf l _ => some l | .fault _ => none

/-- The leaf used for an access. The service walks the present tables. Another agent uses a translation that its caches hold, freely also one that the tables have
left (R431); without one its access waits for the walk unit (R430). The free choice is one for a sector. -/
def State.lookup (s : State) (part ptroot va : Nat) (write : Bool) : Except LFault Leaf :=
  let fresh := (walk s part ptroot va).leaf?
  let now : Except LFault Leaf := match fresh with | some l => .ok l | none => .error ⟨fcNotPresent, va⟩
  match s.ord.agent with
  | none => now
  | some a =>
    let miss : Except LFault Leaf := if !beyond ptroot va then .error ⟨fcMiss, va + 2 ^ 56 * b2n write⟩ else now
    match s.refused.find? (fun x => x.1.who = a.who && x.1.va / 2 ^ 16 = va / 2 ^ 16 && x.1.write == write), s.cachedLeaf a.tlb part ptroot va with
    | some x, _ => .error ⟨x.2, va⟩
    | none, none => miss
    | none, some c => if fresh = some c || Config.useStale s.tick (va / 32) then .ok c else miss

/-- The byte of a page, by its leaf: on this module, or on a peer, where an SO page is treated as RC (R219, R427). An address beyond the installed memory is
not there (log 10). -/
def Leaf.loc (l : Leaf) (r : Region) (va : Nat) : Except LFault Loc :=
  let a := l.addr + va % 2 ^ lvlShift l.lvl
  if l.rem then
    if r.grpActive && l.peer < r.cgsz then .ok (.rem l.peer a (if l.ord = .uo then .uo else .rc)) else .error ⟨fcPermission, va⟩
  else if a < installed then .ok (.dev a l.ord) else .error ⟨fcNotPresent, va⟩

/-- The checks of R426 on a page for region `r`. -/
def Leaf.check (l : Leaf) (r : Region) (va : Nat) (write : Bool) : Except LFault Loc :=
  if r.part.isSome && l.part ≠ r.part.getD 0 then .error ⟨fcPermission, va⟩
  else if write && (l.ro || l.shared) then .error ⟨if l.cow then fcCowWrite else fcPermission, va⟩
  else l.loc r va

/-- The translation of one device virtual address for region `rid`, with its checks (R426). A region without a page table, which no event
registers (log 22), has a physical space of RC pages. -/
def State.translate (s : State) (rid va : Nat) (write : Bool) : Except LFault Loc :=
  match s.region? rid with
  | none => .error ⟨fcNotPresent, va⟩
  | some r =>
    if s.injected rid then .error ⟨fcDrain, va⟩
    else
    match r.ptroot with
    | none => if va < installed then .ok (.dev va .rc) else .error ⟨fcNotPresent, va⟩
    | some ptroot =>
      match s.lookup r.tagPart ptroot va write with
      | .error f => .error f
      | .ok l => l.check r va write

/-- Translates the bytes `va` to `va + n - 1`; the first failing address is reported. -/
def State.translateRange (s : State) (rid va : Nat) (write : Bool) : Nat → Except LFault (List Loc)
  | 0 => .ok []
  | n + 1 =>
    match s.translateRange rid va write n, s.translate rid ((va + n) % 2 ^ 56) write with
    | .error f, _ => .error f
    | .ok _, .error f => .error f
    | .ok l, .ok p => .ok (l ++ [p])

/-! ## Reads (R217, R427) -/

/-- The first part of an access, within one sector, that lies on a peer and has not come: its address and its bytes. -/
def State.missing (s : State) (ls : List (Nat × Loc)) : Option (Nat × Nat) :=
  (ls.find? (fun x => match x.2 with | .rem p a _ => (s.putByte x.2).isNone && (s.remByte p a).isNone && !s.remUe p a | _ => false)).map (fun x =>
    (x.1, (ls.filter (fun y => y.2.sec = x.2.sec)).length))

/-- The fault that a peer returns for an access: with the local address (R427), for uncorrectable data that of its sector; with the step where the group is
over (R421). -/
def State.peerSaid (s : State) (r : RemOp) (code : Nat) : LFault :=
  ⟨code, if code = fcMemUe then r.va / 32 * 32 else if code = fcAbort then s.stepOf r.rid else r.va⟩

/-- The fault that a peer has returned for a read of the acting agent; uncorrectable data is met as that of this module is (State.isPoison). -/
def State.remFault (s : State) : Option LFault :=
  s.ord.agent.bind (fun a => s.link.rops.findSome? (fun r =>
    if r.who = a.who && !r.write then r.answer.bind (fun x => if x.fault ≠ 0 && x.fault ≠ fcMemUe then some (s.peerSaid r x.fault) else none) else none))

/-- What keeps an access from its bytes on peers: it waits, or takes the fault that the peer has returned (R427). The service reads no page of a peer (log 17). -/
def State.absent (s : State) (ls : List (Nat × Loc)) : Option LFault :=
  (s.missing ls).map (fun m => if s.ord.agent.isNone then ⟨fcNotPresent, m.1⟩ else s.remFault.getD ⟨fcRemote, m.1 + 2 ^ 56 * m.2⟩)

/-- The bytes of an access, once those on peers have come. -/
def State.bytesAt (s : State) (ls : List (Nat × Loc)) : Except LFault (List Byte) :=
  match s.absent ls with
  | some e => .error e
  | none => .ok (s.readLocs (ls.map (fun x => x.2)))

/-- The acting agent reads bytes, once those on peers have come. -/
def State.take (s : State) (ls : List (Nat × Loc)) (acq : Option Nat) : Except LFault (State × List Byte) :=
  match s.absent ls with
  | some e => .error e
  | none => .ok (s.readBy State.updReader (ls.map (fun x => x.2)) acq)

/-! ## Messages (R420) -/

/-- The module that a region's peer is (R420, R421). -/
def State.moduleOf (s : State) (rid p : Nat) : Nat := Config.member (((s.region? rid).map (fun r => r.cgrp)).getD 0) p

/-- The connection of a message. -/
def State.connOf (s : State) (m : OutMsg) : Conn := m.conn s.moduleOf s.classOf

/-- A fabric port that is up, for a module whose port has gone down; the table's own choice is free. -/
def State.upPort (s : State) (m : Nat) : Nat :=
  let up := (List.range 8).filter (fun p => !s.svc.portsDown.contains (1 + p))
  (up[Config.newPort m % up.length]?).getD (Config.peerPort m % 8)

/-- The fabric port, 0 to 7, by which the group table reaches a module: as rewritten where a port has gone down (R420, R463). -/
def State.portOf (s : State) (m : Nat) : Nat :=
  match s.link.ports.find? (fun x => x.1 = m) with
  | some x => x.2
  | none => if s.svc.portsDown.contains (1 + Config.peerPort m % 8) then s.upPort m else Config.peerPort m % 8

/-- The port of a connection: the attach port 0, or 1 + a fabric port; and its priority, 3 or 4 (R408, R420). -/
def State.connPort (s : State) (c : Conn) : Nat × Nat :=
  (match c with | .host _ => 0 | .peer m _ => 1 + s.portOf m, 3 + Config.connPrio (connCode c) % 2)

/-- Is a message held: by the flow control of its port, or because that is down (R408, R463)? -/
def State.pausedFor (s : State) (m : OutMsg) : Bool :=
  let p := s.connPort (s.connOf m)
  s.link.paused.contains p || s.svc.portsDown.contains p.1

/-- The numbers of accesses between modules: this module's own access 2 n has the number 2^24 n + its module's there, and one of another module, with the number g
there, is 2 g + 1 here. -/
def wireId (i : Nat) : Nat := if i % 2 = 0 then 2 ^ 24 * (i / 2) + Config.self % 2 ^ 24 else i / 2
def ownId (g : Nat) : Nat := if g % 2 ^ 24 = Config.self % 2 ^ 24 then 2 * (g / 2 ^ 24) else 2 * g + 1

def relIds (f : Nat → Nat) (r : Rel) : Rel := { r with view := r.view.map f }
def seenIds (f : Nat → Nat) (x : Seen) : Seen := ⟨x.ids.map f, x.rels.map (relIds f)⟩
def accIds (f : Nat → Nat) (a : PeerAcc) : PeerAcc := { a with seen := a.seen.map f, rels := a.rels.map (relIds f) }
def opIds (f : Nat → Nat) (o : SecOp) : SecOp :=
  match o with
  | .store va bs acc => .store va bs (accIds f acc)
  | .atomic va aop size d c acc => .atomic va aop size d c (accIds f acc)

/-- A message with its numbers of accesses changed. -/
def OutMsg.mapIds (f : Nat → Nat) (m : OutMsg) : OutMsg :=
  match m with
  | .load id rid p va n acc => .load id rid p va n (accIds f acc)
  | .sector id rid p ops => .sector id rid p (ops.map (opIds f))
  | .put id t rid p va bs acc => .put id t rid p va bs (accIds f acc)
  | .get id t rid p va n acc => .get id t rid p va n (accIds f acc)
  | .red id t rid p va o ty bs acc => .red id t rid p va o ty bs (accIds f acc)
  | .amsg id rid p tgt i ws src seen => .amsg id rid p tgt i ws src (seen.map f)
  | .stepArrive rid p n seen => .stepArrive rid p n (seen.map f)
  | .readReply c id bs e x => .readReply c id bs e (seenIds f x)
  | .ack c id old e x => .ack c id old e (seenIds f x)
  | m => m

/-- A message leaves the module, or waits while its port's priority is paused; an operation waits for its answer. -/
def State.send (s : State) (m : OutMsg) : State :=
  let m := m.mapIds wireId
  { s with link := { s.link with
    outbox := if s.pausedFor m then s.link.outbox else s.link.outbox ++ [m]
    waiting := if s.pausedFor m then s.link.waiting ++ [m] else s.link.waiting
    unacked := if m.op.isSome then s.link.unacked ++ [(s.connOf m, m)] else s.link.unacked } }

/-- A message to every other member of a region's group. -/
def State.sendPeers (s : State) (r : Region) (m : Nat → OutMsg) : State :=
  ((List.range r.cgsz).filter (fun p => p ≠ r.peerix)).foldl (fun s p => s.send (m p)) s

/-! ## The acting agent (R216, R226) -/

/-- A thread performs accesses. -/
def State.asLane (s : State) (uid lane : Nat) : State :=
  match s.wave? uid with
  | none => s
  | some w =>
    { s with ord := { s.ord with agent := some ⟨.lane uid lane, .thread 0 uid lane w.cl w.core, .core (4 * w.cl + w.core), (w.thread lane).vw⟩ } }

/-- The view of a thread that has accessed memory, with what has reached the thread meanwhile. -/
def View.merge (v t : View) : View :=
  { v with all := joinIds v.all t.all, hb := joinIds v.hb t.hb, jn := joinIds v.jn (t.jn.filter (fun i => !v.hb.contains i)) }

/-- The thread's accesses are performed: its later ones may not precede them. -/
def State.laneDone (s : State) (uid lane : Nat) : State :=
  match s.ord.agent with
  | none => s
  | some a =>
    let s := s.updThread uid lane (fun t => { t with vw := a.vw.merge t.vw })
    { s with ord := { s.ord with agent := none } }

/-- An operation performs accesses, after those that `view` names; no scope holds it (R220). -/
def State.asOp (s : State) (who : Who) (tlb : TlbAt) (view : List Nat) : State :=
  { s with ord := { s.ord with agent := some ⟨who, .op, tlb, View.of view⟩ } }

/-- What the acting agent's accesses do not precede, its own included. -/
def State.opView (s : State) : List Nat := (s.ord.agent.map (fun a => a.vw.ids)).getD []

/-- The operation's accesses are performed. -/
def State.opDone (s : State) : State := { s with ord := { s.ord with agent := none } }

/-- What a thread has seen happens before an operation that it starts (R226). -/
def State.forkView (s : State) (uid lane : Nat) : List Nat := (s.thread uid lane).vw.ids

def State.forkAll (s : State) (uid : Nat) (ls : List Nat) : List Nat := ls.foldl (fun v l => joinIds v (s.forkView uid l)) []

/-- A thread observes the completion of operations whose accesses `l` names: each of its later accesses follows them (R226); or, after an acquire, every later
access that is not to a UO page follows what `l` names (R222). -/
def State.joinLane (s : State) (l : List Nat) (uid lane : Nat) : State := s.updThread uid lane (fun t => { t with vw := t.vw.see l })
def State.acquireLane (s : State) (l : List Nat) (uid lane : Nat) : State := s.updThread uid lane (fun t => { t with vw := t.vw.acquire l })

/-- An operation of a wave's thread has ended: its accesses happen before the end of the region's step (R225) and the observation of its launch's completion (R228). -/
def State.noteEnd (s : State) (rid uid : Nat) : State :=
  let v := s.opView
  if v.isEmpty then s
  else
    let lid := ((s.wave? uid).map (fun w => w.lid)).getD 0
    let s := s.updRegion rid (fun r => { r with stepView := joinIds r.stepView v })
    { s with wd := { s.wd with launches := s.wd.launches.map (fun (l : Launch) => if l.lid = lid then { l with view := joinIds l.view v } else l) } }

/-! ## Accesses that wait (R427, R430) -/

/-- A miss joins the entry of its key in the walk unit's table, or enters the table; where that is full, its 4,096 entries taken, it waits in its cluster (R430). -/
def State.enterMiss (s : State) (tag : Tag) (q : WalkReq) : State :=
  if s.misses.any (fun m => m.tag = tag && m.page = q.va / 2 ^ 16) then
    { s with misses := s.misses.map (fun (m : Miss) => if m.tag = tag && m.page = q.va / 2 ^ 16 then { m with reqs := m.reqs ++ [q] } else m) }
  else if s.misses.length < 4096 then { s with misses := s.misses ++ [⟨tag, q.va / 2 ^ 16, [q]⟩] }
  else { s with missQ := s.missQ ++ [q] }

/-- A translation of a requester misses every cache (R430). -/
def State.addMiss (s : State) (q : WalkReq) : State :=
  match (s.region? q.rid).bind (fun r => r.ptroot.map (fun p => (r.tagPart, p))) with
  | none => s
  | some (part, root) => if s.misses.any (fun m => m.reqs.contains q) || s.missQ.contains q then s else s.enterMiss (s.tagFor q.tlb part root q.va) q

/-- The misses that wait in the clusters find the table again, in the order of their arrival. -/
def State.admitMisses (s : State) : State := s.missQ.foldl State.addMiss { s with missQ := [] }

/-- What an access of the acting agent says to a peer of its place in the order of memory: `rels` the releases that a write carries; `ret` for an ATOM. -/
def State.peerAcc (s : State) (k : PageKind) (rels : List Rel) (ret : Bool) : PeerAcc :=
  match s.ord.agent with
  | some a => ⟨a.place, a.vw.bound k, rels, ret⟩
  | none => ⟨.op, [], rels, ret⟩

/-- An access to a peer is on its way (R427); it is sent with a number of its own. -/
def State.sendRop (s : State) (r : RemOp) (m : Nat → OutMsg) : State :=
  let s := { s with fresh := s.fresh + 1, link := { s.link with rops := s.link.rops ++ [{ r with id := s.fresh }] } }
  s.send (m (s.fresh - 1))

/-- The writes to peers that an agent has made are over. -/
def State.dropWrites (s : State) (who : Who) : State := { s with link := { s.link with rops := s.link.rops.filter (fun r => r.who ≠ who || !r.write) } }

/-- The reads of peers that an agent has made are over. -/
def State.dropReads (s : State) (who : Who) : State := { s with link := { s.link with rops := s.link.rops.filter (fun r => r.who ≠ who || r.write) } }

/-- The accesses of an agent that peers have refused are to be made again. -/
def State.dropFailed (s : State) (who : Who) : State :=
  { s with link := { s.link with rops := s.link.rops.filter (fun r => r.who ≠ who || (match r.answer with | some x => x.fault = 0 | none => true)) } }

/-- The accesses to peers that an agent has made are over. -/
def State.dropRops (s : State) (who : Who) : State := { s with link := { s.link with rops := s.link.rops.filter (fun r => r.who ≠ who) } }

/-- The acting agent's access waits: for the walk unit, or for data of a peer, which are asked for: the bytes of a thread's access, the whole sector for an operation,
whose parts are sectors (R218). -/
def State.hold (s : State) (rid : Nat) (f : LFault) (site : VA) (lanes : List Nat) : State :=
  match s.ord.agent with
  | none => s
  | some a =>
    let va := f.info % 2 ^ 56
    let k := f.info / 2 ^ 56
    if f.code = fcMiss then
      match a.who with
      | .lane uid _ => lanes.foldl (fun s l => s.addMiss ⟨.lane uid l, a.tlb, rid, va, decide (k = 1), none⟩) s
      | w => s.addMiss ⟨w, a.tlb, rid, va, decide (k = 1), none⟩
    else if k = 0 || s.link.rops.any (fun r => r.who = a.who && !r.write && r.va = va && r.answer.isNone) then s
    else
      match s.translate rid va false with
      | .ok (.rem peer pva kind) =>
        let acc := s.peerAcc kind [] false
        let d := match a.who with | .lane .. => 0 | _ => pva % 32
        let n := match a.who with | .lane .. => k | _ => 32
        s.sendRop { id := 0, idx := 0, who := a.who, rid := rid, va := va - d, peer := peer, pva := pva - d, n := n, write := false, ask := none, atom := none, kind := kind,
                    acq := none, step := s.tick, site := site, lanes := lanes, answer := none } (fun id => .load id rid peer (pva - d) n acc)
      | _ => s

/-- The bytes of an access that lie on a peer module, one part for each sector (R427): the peer, the address there, the address here, the kind, the bytes. -/
def remParts (ls : List (Nat × Loc)) (bs : List Byte) : List (Nat × Nat × Nat × PageKind × List Byte) :=
  (sectorsOf (ls.map (fun x => x.2))).filterMap (fun p =>
    match p with
    | .rem peer pva k =>
      let xs := (ls.zip bs).filter (fun x => x.1.2.sec = p.sec)
      some (peer, pva, (xs.head?.map (fun x => x.1.1)).getD 0, k, xs.map (fun x => x.2))
    | _ => none)

/-- A message of the acting operation that writes on a peer: sent once, and waited for. Once the peer has performed it, the operation has its points there. -/
def State.awaitMsg (s : State) (rid peer pva va n : Nat) (k : PageKind) (m : Nat → OutMsg) : State × Except LFault Bool :=
  match s.ord.agent with
  | none => (s, .ok true)
  | some a =>
    match s.link.rops.find? (fun r => r.who = a.who && r.write && r.peer = peer && r.pva = pva && r.n = n) with
    | none =>
      (s.sendRop { id := 0, idx := 0, who := a.who, rid := rid, va := va, peer := peer, pva := pva, n := n, write := true, ask := none, atom := none, kind := k,
                   acq := none, step := s.tick, site := 0, lanes := [], answer := none } m, .ok false)
    | some r =>
      match r.answer with
      | none => (s, .ok false)
      | some x => if x.fault = 0 then (s.updReader (fun _ v => v.note x.seen.ids k), .ok true) else (s, .error (s.peerSaid r x.fault))

/-- The accesses of the acting operation to one sector of a peer. -/
def State.await (s : State) (rid peer pva va n : Nat) (k : PageKind) (ops : List SecOp) : State × Except LFault Bool :=
  s.awaitMsg rid peer pva va n k (fun id => .sector id rid peer ops)

/-- The answers of several parts: a fault, or whether all have come. -/
def allCome (a b : Except LFault Bool) : Except LFault Bool :=
  match a, b with
  | .error e, _ => .error e
  | _, .error e => .error e
  | .ok x, .ok y => .ok (x && y)

/-- Asks peers for the accesses of several parts, each with what is asked there: whether all have been performed. -/
def State.awaitAll (s : State) (rid : Nat) (ps : List (Nat × Nat × Nat × PageKind × List Byte)) (n : List Byte → Nat)
    (ops : Nat → PageKind → List Byte → List SecOp) : State × Except LFault Bool :=
  ps.foldl (fun acc p =>
    let q := acc.1.await rid p.1 p.2.1 p.2.2.1 (n p.2.2.2.2) p.2.2.2.1 (ops p.2.1 p.2.2.2.1 p.2.2.2.2)
    (q.1, allCome acc.2 q.2)) (s, .ok true)

/-- The acting operation writes bytes. Those on peers are sent, and once every peer has answered, those of this module are stored at their points (R427). Where
several parts lie on peers, each is first asked whether its part can be written there: a write of no bytes (R336). -/
def State.writeAll (s : State) (rid : Nat) (ls : List (Nat × Loc)) (bs : List Byte) : State × Option LFault :=
  let ps := remParts ls bs
  let wait : LFault := ⟨fcRemote, (ls.head?.map (fun x => x.1)).getD 0⟩
  let done := fun (s : State) => match s.ord.agent with | some a => s.dropWrites a.who | none => s
  let probe := if ps.length ≤ 1 then (s, .ok true) else s.awaitAll rid ps (fun _ => 0) (fun a k _ => [.store a [] (s.peerAcc k [] false)])
  match probe.2 with
  | .error e => (done probe.1, some e)
  | .ok false => (probe.1, some wait)
  | .ok true =>
    let r := probe.1.awaitAll rid ps List.length (fun a k b => [.store a b (s.peerAcc k [] false)])
    match r.2 with
    | .error e => (done r.1, some e)
    | .ok false => (r.1, some wait)
    | .ok true => (done (r.1.store (ls.map (fun x => x.2)) bs), none)

/-- The sectors on peers that an operation has gathered bytes for. -/
def State.putAway (s : State) (w : Who) : List PutByte := s.ord.put.filter (fun x => x.who = w && x.mask = 255 && x.at'.away)

/-- What is asked of a peer for one gathered sector. -/
def putOps (xs : List PutByte) (acc : PeerAcc) : List SecOp := xs.filterMap (fun x => match x.at' with | .rem _ a _ => some (.store a [x.byte] acc) | _ => none)

/-- The gathered bytes of an operation on peers are written, one request for each sector, and waited for; those of this module are written. -/
def State.flushAll (s : State) (rid : Nat) : State × Except LFault Bool :=
  let s := s.flush
  match s.ord.agent with
  | none => (s, .ok true)
  | some a =>
    let away := s.putAway a.who
    let r := (sectorsOf (away.map (fun x => x.at'))).foldl (fun (acc : State × Except LFault Bool) l =>
      match l with
      | .rem p pva k =>
        let mine := away.filter (fun x => x.at'.sec = l.sec)
        let q := acc.1.await rid p (pva / 32 * 32) ((mine.head?.map (fun x => x.va)).getD 0) 32 k (putOps mine (s.peerAcc k [] false))
        (q.1, allCome acc.2 q.2)
      | _ => acc) (s, .ok true)
    match r.2 with
    | .ok true => (({ r.1 with ord := { r.1.ord with put := r.1.ord.put.filter (fun x => !(x.who = a.who && x.mask = 255)) } } : State).dropWrites a.who, .ok true)
    | .ok false => r
    | .error e => (r.1.dropFailed a.who, .error e)

/-- The gathered bytes of an operation that ends are written, those on peers by messages that nothing awaits. -/
def State.flushEnd (s : State) (rid : Nat) : State :=
  let s := s.flush
  match s.ord.agent with
  | none => s
  | some a =>
    let away := s.putAway a.who
    (sectorsOf (away.map (fun x => x.at'))).foldl (fun s l =>
      match l with
      | .rem p _ k => ({ s with fresh := s.fresh + 1 } : State).send (.sector s.fresh rid p (putOps (away.filter (fun x => x.at'.sec = l.sec)) (s.peerAcc k [] false)))
      | _ => s) s

/-- The service writes bytes: those on peers by messages that nothing awaits (log 17). -/
def State.post (s : State) (rid va : Nat) (ls : List Loc) (bs : List Byte) : State :=
  (remParts (((List.range ls.length).map (fun i => (va + i) % 2 ^ 56)).zip ls) bs).foldl (fun s p =>
    ({ s with fresh := s.fresh + 1 }).send (.sector s.fresh rid p.1 [.store p.2.1 p.2.2.2.2 ⟨.op, [], [], false⟩])) (s.store ls bs)

/-- What a thread that waits for its access stands in. -/
def LFault.adm (f : LFault) : Adm := if f.code = fcMiss then .walk else if f.code = fcDrain then .drain else .fetch

/-! ## The fault queue (R435) -/

/-- The handles that a region's open records hold. -/
def State.handlesOf (s : State) (rid : Nat) : List Nat :=
  s.recs.filterMap (fun r => if r.rid = rid then r.handle else none)

/-- The lowest free handle of a region, below 512 (R188). -/
def State.freeHandle (s : State) (rid : Nat) : Option Nat :=
  (List.range 512).find? (fun h => !(s.handlesOf rid).contains h)

/-- Records of a region that occupy a slot: written and not yet dispatched (R435). -/
def State.occupied (s : State) (rid : Nat) : Nat :=
  (s.recs.filter (fun r => r.rid = rid && r.st = .written)).length

/-- The 256 bits of a fault record (R188, R440). -/
def Rec.bits (r : Rec) (handle : Nat) : Nat :=
  match r.eng with
  | some e =>
    (e.ekind + 2 ^ 8 * e.ecl + 2 ^ 14 * e.eun + 2 ^ 16 * (e.eobj % 2 ^ 32)) * 2 ^ 128 + handle * 2 ^ 182 +
      (r.info % 2 ^ 56) * 2 ^ 192 + r.code * 2 ^ 248
  | none =>
    let first := r.lanes.head?.getD ⟨0, 0, 0, false⟩
    (maskOf (r.lanes.map (fun l => l.lane))).toNat + r.site.toNat / 4 * 2 ^ 128 + handle * 2 ^ 182 +
      b2n (r.lanes.any (fun l => l.code ≠ first.code)) * 2 ^ 191 + (first.info % 2 ^ 56) * 2 ^ 192 + first.code * 2 ^ 248

/-- An IDLE that selects an event notes it as it occurs (R439). -/
def Thread.noteIdle (ev : Nat) (t : Thread) : Thread :=
  match t.st with
  | .sleeping (.idle E till d got) settle => { t with st := .sleeping (.idle E till d (got ||| (ev &&& E))) settle }
  | _ => t

/-- An event occurs for the waves that `p` names: 1 an interrupt, 2 a record, 4 an error signal. -/
def State.noteIdle (s : State) (p : Wave → Bool) (ev : Nat) : State :=
  { s with waves := s.waves.map (fun w => if p w then { w with threads := w.threads.map (fun x => (x.1, x.2.noteIdle ev)) } else w) }

/-- A record that raises failed codes has been written: those codes are cleared (R357). -/
def Wave.clearRaised (w : Wave) (ls : List Nat) : Wave :=
  ls.foldl (fun w l =>
    match (w.thread l).ftok with
    | none => w
    | some j => { w with kfail := Sparse.put (0, 0) w.kfail (128 * j + l) (0, 0) }.updThread l (fun t => { t with ftok := none })) w

/-- What the service does while an agent acts: its accesses are its own, and the agent acts again afterwards (R216). -/
def State.serve {α : Type} (s : State) (f : State → State × α) : State × α :=
  let r := f { s with ord := { s.ord with agent := none } }
  ({ r.1 with ord := { r.1.ord with agent := s.ord.agent } }, r.2)

def State.asService (s : State) (f : State → State) : State := (s.serve (fun s => (f s, ()))).1

/-- Writes the oldest waiting record of a region into its queue, when a handle and a slot are free (R188, R435). A slot that
cannot be written makes the fault fatal (R445). -/
def State.writeRec (s : State) (rid : Nat) : State :=
  s.asService (fun s =>
  match s.region? rid, findIdx (fun r => r.rid = rid && decide (r.st = .waiting)) s.recs, s.freeHandle rid with
  | some r, some (i, rec), some h =>
    if s.occupied rid < r.fqn then
      let slot := r.fq + 32 * (r.fqW % r.fqn)
      let bad := fun (s : State) => { s with fatals := s.fatals ++ [(rid, (rec.lanes.head?.map (fun l => l.code)).getD rec.code)] }
      match s.translateRange rid slot true 32 with
      | .error _ => bad { s with recs := s.recs.eraseIdx i }
      | .ok locs =>
        if (s.poisonAt locs).isSome then bad { s with recs := s.recs.eraseIdx i }
        else
          let s := (s.post rid slot locs (leBytes 32 (rec.bits h))).noteIdle (fun w => w.rid = rid) 2
          let s := if rec.eng.isSome then s else s.updWave rec.uid (fun w => w.clearRaised (rec.lanes.map (fun l => l.lane)))
          { s with recs := setAt s.recs i { rec with handle := some h, st := .written },
                   regions := s.regions.map (fun q => if q.rid = rid then { q with fqW := (q.fqW + 1) % 2 ^ 32 } else q) }
    else s
  | _, _, _ => s)

/-- Adds a record and writes it if it can be. -/
def State.addRec (s : State) (r : Rec) : State := ({ s with recs := s.recs ++ [r] }).writeRec r.rid

/-- Is the wave one whose faults are fatal (R445)? -/
def Wave.fatalKind (w : Wave) : Bool :=
  match w.kind with | .fault _ | .abort => true | _ => false

/-- Parks the faulting lanes of one wave in one packet as one sub-wave, with one record (R35); in a fault or abort handler wave
the fault is fatal and no record is written (R445). -/
def State.parkSub (s : State) (uid : Nat) (site : VA) (fs : List (Nat × LFault)) : State :=
  match fs with
  | [] => s
  | (_, f0) :: _ =>
    match s.wave? uid with
    | none => s
    | some w =>
      let s := fs.foldl (fun s x => (s.dropReads (.lane uid x.1)).dropAsks (.lane uid x.1)) (s.updWave uid (fun w => fs.foldl (fun w x => w.updThread x.1 (fun t => { t with st := .parked, ue := none, hseg := none })) w))
      if w.fatalKind then { s with fatals := s.fatals ++ [(w.rid, f0.code)] }
      else
        s.addRec { rid := w.rid, uid := uid, site := site, lanes := fs.map (fun x => ⟨x.1, x.2.code, x.2.info, false⟩),
                   eng := none, code := f0.code, info := f0.info, handle := none, st := .waiting }

end Sys2Proof.Machine
end

