-- ==== Sys2Proof/Machine/Registers.lean ====
section
/-!
DEFINITION. The control registers that CSRRD, CSRWR and the debug core reach (R451): their addresses, reset values and plain
access, and the control of a quadrant (R452, R453).
-/

namespace Sys2Proof.Machine

/-- The address word of a register (R451). -/
def csrAddr (blk core unit reg : Nat) : Nat := reg + 2 ^ 10 * unit + 2 ^ 17 * core + 2 ^ 19 * blk

/-- The reset value of a register: WCCAP and ASUCTL of a cluster, MCWIN of a slice, DLTO, ERRTHR, WMTHR; zero elsewhere
(R255, R352, R248, R449, R464, R466). -/
def csrReset (a : Nat) : DWord :=
  let reg := bitsAt a 0 10
  match bitsAt a 19 4 with
  | 0 => if reg = 0 then 0x0C else if reg = 7 then 0x80100 else 0
  | 7 => if reg < 9 then 64 else 0
  | 10 => if reg = 0 then 0x7D0 else 0
  | 12 => if reg = 0x10 then 0x10 else if reg = 0x20 || (bitsAt a 17 2 = 0 && 0x20 < reg && reg < 0x25) || (bitsAt a 17 2 = 2 && reg = 0x21)
      then 0x0028_0000_0000 else 0
  | _ => 0

/-- The value of a control register. -/
def State.csr (s : State) (a : Nat) : Nat := (Sparse.get (csrReset a) s.csrs a).toNat

def State.setCsr (s : State) (a v : Nat) : State :=
  { s with csrs := Sparse.put (csrReset a) s.csrs a (BitVec.ofNat 64 v) }

/-- Adds to a counter of 48 bits, or of `n` bits, which wraps. -/
def State.count (s : State) (a n k : Nat) : State := s.setCsr a ((s.csr a + k) % 2 ^ n)

/-- A register of a cluster's control block. -/
def clReg (cl reg : Nat) : Nat := csrAddr 0 0 cl reg

/-- A field of `n` bits at `lo` replaced by `v`. -/
def putBits (x lo n v : Nat) : Nat := x - bitsAt x lo n * 2 ^ lo + v % 2 ^ n * 2 ^ lo

/-! ## Quadrants (R452, R453) -/

/-- DQCTL of a quadrant. -/
def dqctl (cl core q : Nat) : Nat := csrAddr 1 core cl (0x10 + q)

/-- EN of a quadrant. -/
def State.debugOn (s : State) (cl core q : Nat) : Bool := bitAt (s.csr (dqctl cl core q)) 0

/-- STPD of a quadrant. -/
def State.stopped (s : State) (cl core q : Nat) : Bool := bitAt (s.csr (dqctl cl core q)) 5

/-- Stops a quadrant with a cause; its dump is owed, kept in the place of DUMP, and DMPD is clear until it is written. -/
def State.stopQuad (s : State) (cl core q cause : Nat) : State :=
  let a := dqctl cl core q
  let v := putBits (putBits (putBits (putBits (s.csr a) 5 1 1) 6 1 0) 4 1 1) 7 3 cause
  { s.setCsr a v with stepping := s.stepping.filter (fun x => x ≠ (cl, core, q)), stopClk := putStop s.stopClk (cl, core, q) s.clk }
where
  putStop (l : List ((Nat × Nat × Nat) × Nat)) (k : Nat × Nat × Nat) (v : Nat) : List ((Nat × Nat × Nat) × Nat) :=
    l.filter (fun x => x.1 ≠ k) ++ [(k, v)]

end Sys2Proof.Machine
end

