-- ==== Sys2Proof/Machine/Errors.lean ====
section
/-!
DEFINITION. The error record banks (R464, R465), and the parking of the lanes of a packet that fault (R35): an error that a lane has consumed is in its bank
before the lane's record is written.
-/

namespace Sys2Proof.Machine

def State.updSvc (s : State) (f : Svc → Svc) : State := { s with svc := f s.svc }

/-- Raises the high-priority signal. -/
def State.raiseHigh (s : State) : State :=
  (s.updSvc (fun v => { v with high := true })).noteIdle (fun w => w.rid = 0) 4

/-- A unit, by the address of its stall counters, cannot advance in a clk of the present slot: the counter of the cause goes up, at most once in each of the
slot's two clk (R460). -/
def State.stallUnit (s : State) (base cause : Nat) : State :=
  let n := ((s.svc.stalls.find? (fun x => x.1 = base)).map (fun x => x.2)).getD 0
  if 2 ≤ n then s
  else (s.count (base + cause) 48 1).updSvc (fun v => { v with stalls := v.stalls.filter (fun x => x.1 ≠ base) ++ [(base, n + 1)] })

/-- The value of ERRSTS of a new record: valid, its fields, and CNT 1 for a corrected event; CODE where the error has faulted its consumer. -/
def newErrsts (ue consumed : Bool) (src : Nat) : Nat :=
  1 + 2 * b2n ue + 16 * (src % 16) + (if ue then 0 else 2 ^ 16) + (if ue && consumed then 8 * 2 ^ 32 else 0)

/-- The records of a bank that are valid, or that are free. -/
def State.errRecs (s : State) (group unit : Nat) (valid : Bool) : List Nat :=
  (List.range 4).filter (fun r => bitAt (s.csr (csrAddr 12 group unit (4 * r))) 0 == valid)

/-- The low-priority signal rises when CNT of a record reaches ERRTHR. -/
def State.lowIf (s : State) (group unit cnt : Nat) : State :=
  if cnt = s.csr (csrAddr 12 group unit 0x10) then (s.updSvc (fun v => { v with low := true })).noteIdle (fun w => w.rid = 0) 4 else s

/-- The record of an event in a bank. -/
def State.bankError (s : State) (group unit : Nat) (ue consumed : Bool) (src addr info : Nat) : State :=
  let reg := fun r => csrAddr 12 group unit r
  match (s.errRecs group unit true).find? (fun r => !ue && s.csr (reg (4 * r + 1)) = addr) with
  | some r =>
    let old := bitsAt (s.csr (reg (4 * r))) 16 16
    let cnt := min 65535 (old + 1)
    let s := s.setCsr (reg (4 * r)) (putBits (s.csr (reg (4 * r))) 16 16 cnt)
    if cnt = old then s else s.lowIf group unit cnt
  | none =>
    match s.errRecs group unit false with
    | r :: _ =>
      let s := ((s.setCsr (reg (4 * r)) (newErrsts ue consumed src)).setCsr (reg (4 * r + 1)) addr).setCsr (reg (4 * r + 2)) info
      if ue then s.raiseHigh else s.lowIf group unit 1
    | [] => (s.setCsr (reg 0) (putBits (s.csr (reg 0)) 2 1 1)).raiseHigh

/-! ## What starts a spare action (R461) -/

/-- A spare action of a kind is called for. Core m of cluster c is unit 5 c + m, the spare core m = 4. -/
def State.want (s : State) (kind unit : Nat) : State :=
  if s.svc.wants.contains (kind, unit) then s else s.updSvc (fun v => { v with wants := v.wants ++ [(kind, unit)] })

/-- 24 hours of the module clock (R13). -/
def oneDay : Nat := 24 * 3600 * 1700000000

/-- The action that a failure of a unit's SRAM calls for, that of a core or a slice: the core of a place of local store or of a register file is told by its
address in the cluster (log 15). -/
def State.wantSram (s : State) (group unit addr : Nat) : State :=
  if group = 0 then s.want 0 (5 * unit + addr / 2 ^ 20 % 4) else if unit < 64 then s.want 1 unit else s

/-- A row that scrub marks is entered in the soft-repair table; more than 8 of one core or slice call for a spare (R461, R463, R467). -/
def State.markRow (s : State) (group unit addr : Nat) : State :=
  if s.svc.rows.any (fun r => r.1 = group && r.2.1 = unit && r.2.2.1 = addr) then s
  else
    let s := s.updSvc (fun v => { v with rows := v.rows ++ [(group, unit, addr, false)] })
    let s := s.setCsr (csrAddr 10 0 0 0x17) s.svc.rows.length
    let same := s.svc.rows.filter (fun r => r.1 = group && r.2.1 = unit && !r.2.2.2 && (group ≠ 0 || r.2.2.1 / 2 ^ 20 = addr / 2 ^ 20))
    if 8 < same.length then s.wantSram group unit addr else s

/-- A corrected error of a channel: more than 64 in 24 h call for a spare. -/
def State.noteCorrected (s : State) (ch : Nat) : State :=
  let s := s.updSvc (fun v => { v with corrected := v.corrected.filter (fun x => s.clk < x.2 + oneDay) ++ [(ch, s.clk)] })
  if 64 < (s.svc.corrected.filter (fun x => x.1 = ch)).length then s.want 2 ch else s

/-- What an event calls for: any uncorrectable error of a core's or slice's SRAM or of a channel, and the counts of corrected ones. That a corrected error in a
register file, a local store or a slice marks its row is the model's choice (log 15). -/
def State.trigger (s : State) (group unit : Nat) (ue : Bool) (src addr : Nat) : State :=
  match group with
  | 0 => if ue && src ≤ 3 then s.wantSram 0 unit addr else if src ≤ 1 then s.markRow 0 unit addr else s
  | 1 => if ue && (src = 4 || src = 5) then s.wantSram 1 unit addr else if src = 4 || src = 5 then s.markRow 1 unit addr else s
  | 2 => if 32 ≤ unit || src ≠ 6 then s else if ue then s.want 2 unit else s.noteCorrected unit
  | _ => s

/-- Enters an event in a bank, with what it calls for. -/
def State.enterError (s : State) (group unit : Nat) (ue consumed : Bool) (src addr info : Nat) : State :=
  (s.bankError group unit ue consumed src addr info).trigger group unit ue src addr

/-- The bank of a sector's structure: its group and unit, SRC, and the address that a record gives: the physical address in device memory, the place within
the slice or the cluster on chip (log 48). -/
def Loc.bank (l : Loc) : Nat × Nat × Nat × Nat :=
  match l with
  | .dev pa _ => (2, Config.channel (pa / 32) % 32, 6, pa)
  | .chip a => (1, a / 2 ^ 21, 5, a % 2 ^ 21)
  | .loc k => (0, k / 2 ^ 22 % 48, 1, k % 2 ^ 22)
  | .rem _ a _ => (3, 0, 0, a)

/-- The accesses that have met uncorrectable data are recorded in the banks of their sectors, in ascending address (R201, R465). -/
def State.recordErrors (s : State) : State :=
  let xs := s.ueLog.foldl (fun (acc : List (Loc × Bool)) x =>
    acc.filter (fun y => y.1.bank.2.2.2 ≤ x.1.bank.2.2.2) ++ x :: acc.filter (fun y => x.1.bank.2.2.2 < y.1.bank.2.2.2)) []
  xs.foldl (fun s x =>
    let b := x.1.bank
    s.enterError b.1 b.2.1 true x.2 b.2.2.1 b.2.2.2 (Config.freeInput s.tick b.2.2.2)) { s with ueLog := [] }

/-- An access has met uncorrectable data of this module that faults its consumer. -/
def State.meetUe (s : State) (ls : List Loc) : State := (sectorsOf ls).foldl (fun s l => if s.isPoison l && !l.away then s.noteUe l.sec true else s) s

/-- Parks the faulting lanes of one wave in one packet as one sub-wave, once the errors that they have met are recorded (R35, R465). -/
def State.park (s : State) (uid : Nat) (site : VA) (fs : List (Nat × LFault)) : State :=
  (if fs.any (fun x => x.2.code = fcMemUe) then s.recordErrors else s).parkSub uid site fs

end Sys2Proof.Machine
end

