-- ==== Sys2Proof/Machine/Bins.lean ====
section
/-!
DEFINITION. The bins of the Asterism units and their way into the tile buffers (R350, R351, R353).
-/

namespace Sys2Proof.Machine

/-- The number of inputs of a weight set, less 1 (R342). -/
def nsNIN (r : Nat) : Nat := bitsAt r 2 5

/-- to_ce16 (R110). -/
def toCe16 (x : Nat) : FRes := bf16.ofV .rn false (fp32.value x)

/-- The row of a call as it enters a tile: its inputs as CE16 (R345). -/
def ACall.row (c : ACall) (t n : Nat) : TRow :=
  let xs := (List.range n).map (fun i => toCe16 ((c.ins[i]?).getD (Config.freeInput t (32 * c.lane + i))))
  ⟨xs.map (fun x => x.bits), xs.foldl (fun f x => f ||| x.fl) c.fl⟩

def State.updAsu (s : State) (f : Asu → Asu) : State := { s with asu := f s.asu }

/-- The oldest of some bins. -/
def oldestBin (l : List Bin) : Option Bin :=
  l.foldl (fun (o : Option Bin) b => match o with | none => some b | some a => if b.seq < a.seq then some b else some a) none

/-- Has the tile buffer of a cluster a free place? -/
def State.tileRoom (s : State) (cl : Nat) : Bool := (s.asu.tiles.filter (fun t => t.cl = cl && t.unit.isNone)).length < 8

/-- A tile enters the buffer: after those there, but for those of its cluster that enter in the same clk and were opened later (R351, R353). -/
def insertTile (t : Tile) : List Tile → List Tile
  | [] => [t]
  | x :: r => if x.cl = t.cl && x.unit.isNone && x.entered = t.entered && decide (t.id < x.id) then t :: x :: r else x :: insertTile t r

/-- A bin leaves and becomes a tile of the buffer (R353). -/
def State.dispatchBin (s : State) (b : Bin) : State :=
  let t : Tile :=
    { cl := b.cl, id := b.seq, rid := b.rid, key := b.key, record := b.record, calls := b.calls, entered := s.clk, unit := none, layer := 0,
      rows := b.calls.map (fun c => c.row s.tick (nsNIN b.record + 1)), ready := false, done := 0, fault := none, susp := false }
  let s := s.updAsu (fun a => { a with bins := a.bins.filter (fun x => x.seq ≠ b.seq), tiles := insertTile t a.tiles })
  ((s.count (clReg b.cl 8) 48 1).count (clReg b.cl 9) 48 b.calls.length).count (clReg b.cl 0xA) 48 (64 - b.calls.length)

/-- Triggered bins enter the tile buffers that have room, in the order in which they opened; `k` of them at most (R351, R353). -/
def State.enterTiles : Nat → State → State
  | 0, s => s
  | k + 1, s =>
    match oldestBin (s.asu.bins.filter (fun b => b.trig && s.tileRoom b.cl)) with
    | none => s
    | some b => State.enterTiles k (s.dispatchBin b)

def State.settleBins (s : State) : State := s.enterTiles s.asu.bins.length

/-- Once the packets of a slot are over, the bins that they have triggered enter (R351). -/
def State.settleSlot (s : State) : State := match s.packets with | [] => s.settleBins | _ :: _ => s

/-- Triggers open bins. -/
def State.markBins (s : State) (p : Bin → Bool) : State :=
  s.updAsu (fun a => { a with bins := a.bins.map (fun b => if p b then { b with trig := true } else b) })

/-- Triggers open bins: each is dispatched at once where its tile buffer has room, and waits for a place otherwise (R353). -/
def State.flushBins (s : State) (p : Bin → Bool) : State := (s.markBins p).settleBins

/-- A packet triggers every open bin that holds a call satisfying `p`; those that a slot triggers enter in the order in which they opened (R351). -/
def State.trigBins (s : State) (p : ACall → Bool) : State := s.markBins (fun b => b.calls.any p)

end Sys2Proof.Machine
end

