-- ==== Sys2Proof/Machine/Waits.lean ====
section
/-!
DEFINITION. Waiting and its end: masks and MWAIT (R177, R178), named barriers (R181, R182), run-ahead groups (R207), exit (R24),
and the resumption of a parked sub-wave (R194).
-/

namespace Sys2Proof.Machine

/-- The lanes of a wave that satisfy `p`. -/
def Wave.lanesWhere (w : Wave) (p : Nat → Thread → Bool) : List Nat :=
  (w.threads.filter (fun x => p x.1 x.2)).map (fun x => x.1)

/-- Ends the wait of a lane: it goes on at the instruction after the wait, with age 0. -/
def State.release (s : State) (uid lane : Nat) : State :=
  match (s.thread uid lane).st with
  | .syncWait _ next settle | .tokenWait _ next settle _ => s.resume uid lane next settle
  | _ => s

/-! ## Tokens -/

/-- Is every token of a set clear in a lane (R184)? -/
def Wave.toksClear (w : Wave) (T lane : Nat) : Bool := (List.range 16).all (fun j => !(T.testBit j && w.tokPending j lane))

/-- The tokens of a set that are clear in a lane. -/
def Wave.clearToks (w : Wave) (T lane : Nat) : Nat :=
  ((List.range 16).filter (fun j => T.testBit j && !w.tokPending j lane)).foldl (fun n j => n + 2 ^ j) 0

/-- The lowest token of a set that is clear in a lane and carries a failed code there, with the code and its INFO (R357). -/
def Wave.tokFailed (w : Wave) (T lane : Nat) : Option (Nat × Nat × Nat) :=
  ((List.range 16).filterMap (fun j =>
    let f := Sparse.get (0, 0) w.kfail (128 * j + lane)
    if T.testBit j && !w.tokPending j lane && f ≠ (0, 0) then some (j, f) else none)).head?

/-- Clears the failed code of a token in a lane. -/
def Wave.clearFailed (w : Wave) (j lane : Nat) : Wave := { w with kfail := Sparse.put (0, 0) w.kfail (128 * j + lane) (0, 0) }

/-- What happens before the completions that a lane observes of the tokens of a set (R226). -/
def Wave.tokView (w : Wave) (T lane : Nat) : List Nat :=
  ((List.range 16).filter (fun j => T.testBit j)).foldl (fun v j => joinIds v (Sparse.get [] w.kview (128 * j + lane))) []

/-- The set of tokens that a lane waits for. -/
def Wave.waitSet (w : Wave) (lane : Nat) : Nat := match (w.thread lane).st with | .tokenWait T _ _ _ => T.toNat | _ => 0

/-- Is the token wait of a lane over, every token of its set clear (R184)? -/
def Wave.waitOver (w : Wave) (lane : Nat) : Bool :=
  match (w.thread lane).st with | .tokenWait T _ _ _ => w.toksClear T.toNat lane | _ => false

/-- The failed code that the TWAIT of a lane raises: its token, the code and the INFO (R357). -/
def Wave.raised (w : Wave) (lane : Nat) : Option (Nat × Nat × Nat) :=
  match (w.thread lane).st with | .tokenWait T _ _ true => w.tokFailed T.toNat lane | _ => none

/-- A lane raises the failed code of token `j`, which is cleared when the record is written (R357). -/
def Wave.raise (w : Wave) (j lane : Nat) : Wave := w.updThread lane (fun t => { t with ftok := some j })

/-- The packets in which lanes of a wave issued. -/
def Wave.packetsOf (w : Wave) (ls : List Nat) : List Nat := ls.foldl (fun acc l => if acc.contains (w.thread l).pkt then acc else acc ++ [(w.thread l).pkt]) []

/-- Ends the token waits of lanes of a wave once every token of their sets is clear: a lane goes on, and those of one packet whose TWAIT raises a failed
code park as one sub-wave (R35, R184, R357). -/
def State.evalToks (s : State) (uid : Nat) (ls : List Nat) : State :=
  match s.wave? uid with
  | none => s
  | some w =>
    let ended := ls.filter (fun l => w.waitOver l)
    let bad := ended.filterMap (fun l => (w.raised l).map (fun f => (l, f)))
    let s := (ended.filter (fun l => (w.raised l).isNone)).foldl (fun s l => (s.joinLane (w.tokView (w.waitSet l) l) uid l).release uid l) s
    let s := s.updWave uid (fun w => bad.foldl (fun w x => w.raise x.2.1 x.1) w)
    (w.packetsOf (bad.map (fun x => x.1))).foldl (fun s k =>
      let part := bad.filter (fun x => (w.thread x.1).pkt = k)
      s.park uid ((part.head?.map (fun x => (w.thread x.1).pc)).getD 0) (part.map (fun x => (x.1, ⟨x.2.2.1, x.2.2.2⟩)))) s

/-- The completion of the acting operation is what clears a token: the accesses of the operation happen before its observation (R226). -/
def Wave.noteTok (w : Wave) (j lane : Nat) (v : List Nat) : Wave :=
  if v.isEmpty then w else { w with kview := Sparse.put [] w.kview (128 * j + lane) (joinIds (Sparse.get [] w.kview (128 * j + lane)) v) }

/-- Clears the pending bit of a token in a lane (R56). -/
def State.clearTok (s : State) (uid j lane : Nat) : State :=
  (s.updWave uid (fun w => (w.setTok j lane false).noteTok j lane s.opView)).evalToks uid [lane]

/-- Clears the pending bit with a failed code (R357). -/
def State.failTok (s : State) (uid j lane : Nat) (code info : Nat) : State :=
  (s.updWave uid (fun w => { w with kfail := Sparse.put (0, 0) w.kfail (128 * j + lane) (code, info) })).clearTok uid j lane

/-- Clears the pending bits of tokens, each with its lane, that an end of many operations clears at once, with failed codes (R35, R357). -/
def State.failToks (s : State) (uid : Nat) (fs : List (Nat × Nat × Nat × Nat)) : State :=
  (s.updWave uid (fun w => fs.foldl (fun w f =>
    ({ w with kfail := Sparse.put (0, 0) w.kfail (128 * f.1 + f.2.1) (f.2.2.1, f.2.2.2) }.setTok f.1 f.2.1 false).noteTok f.1 f.2.1 s.opView) w)).evalToks uid
    (sortedSet (fs.map (fun f => f.2.1)))

/-- Threads return together from a wait at which all of them arrived: what happens before one arrival, or before an exit that counts as one, happens before
every return (R24, R225). -/
def State.joinLanes (s : State) (uid : Nat) (ls : List Nat) (gone : List Nat) : State :=
  match s.wave? uid with
  | none => s
  | some w =>
    let v := ls.foldl (fun v l => joinIds v (w.thread l).vw.hb) gone
    ls.foldl (fun s l => s.acquireLane v uid l) s

/-! ## Masks -/

def waitsMask (m : Nat) (t : Thread) : Bool :=
  match t.st with | .syncWait (.mask k) _ _ => k = m | _ => false

/-- Evaluates the waits on mask `m` of a wave (R178). -/
def State.evalMask (s : State) (uid m : Nat) : State :=
  match s.wave? uid with
  | none => s
  | some w =>
    let waiting := w.lanesWhere (fun _ t => waitsMask m t)
    let out := waiting.filter (fun l => !inMask (w.mask m) l)
    let stay := waiting.filter (fun l => inMask (w.mask m) l)
    let s := out.foldl (fun s l => s.release uid l) s
    let all := !stay.isEmpty && (lanesOf (w.mask m)).all (fun l => stay.contains l || (w.thread l).st = .exited)
    let s := if all then stay.foldl (fun s l => s.release uid l) (s.joinLanes uid stay (Sparse.get [] w.mview m)) else s
    let s := if all then s.updWave uid (fun w => { w with mview := Sparse.put [] w.mview m [] }) else s
    if all || stay.isEmpty then s.updWave uid (fun w => { w with msite := Sparse.put none w.msite m none }) else s

/-- Evaluates the waits on every mask of a wave. -/
def State.evalMasks (s : State) (uid : Nat) : State := (List.range 12).foldl (fun s m => s.evalMask uid m) s

/-! ## Barriers -/

/-- The barrier `b` of a workgroup: at placement its parity is 0 and it has no arrivals (R179). -/
def State.bar (s : State) (gid gangwg b : Nat) : Bar :=
  (s.bars.find? (fun x => x.gid = gid && x.gangwg = gangwg && x.b = b)).getD ⟨gid, gangwg, b, false, false, 0, 0, [], [], [], []⟩

def State.setBar (s : State) (x : Bar) : State :=
  { s with bars := x :: s.bars.filter (fun y => !(y.gid = x.gid && y.gangwg = x.gangwg && y.b = x.b)) }

/-- A lookup in a list of pairs. -/
def lookupIn {α : Type} (l : List (Nat × α)) (k : Nat) : Option α := (l.find? (fun x => x.1 = k)).map (fun x => x.2)

/-- Puts a pair into a list of pairs. -/
def putIn {α : Type} (l : List (Nat × α)) (k : Nat) (v : α) : List (Nat × α) := l.filter (fun x => x.1 ≠ k) ++ [(k, v)]

/-- The waves of a workgroup. -/
def State.workgroup (s : State) (gid gangwg : Nat) : List Wave :=
  s.waves.filter (fun w => w.gid = gid && w.gangwg = gangwg && decide (w.kind = .launch))

/-- The wave set that W names: zero names every wave of the workgroup (R180). -/
def resolveW (W nwaves : Nat) : Nat := if W % 2 ^ 16 = 0 then 2 ^ nwaves - 1 else W % 2 ^ 16

def waitsBar (b : Nat) (t : Thread) : Bool :=
  match t.st with | .syncWait (.bar k) _ _ => k = b | _ => false

def waitsBarwt (b : Nat) (par : Bool) (t : Thread) : Bool :=
  match t.st with | .syncWait (.barwt k p) _ _ => k = b && p != par | _ => false

/-- Is the open phase of a barrier complete (R182)? -/
def State.barDone (s : State) (x : Bar) : Bool :=
  x.isOpen && (s.workgroup x.gid x.gangwg).all (fun w =>
    !(x.W.testBit w.widx) ||
    match lookupIn x.mcs w.uid with
    | some mc => (lanesOf mc).all (fun l => inMask ((lookupIn x.arr w.uid).getD 0) l || (w.thread l).st = .exited)
    | none => (lanesOf (w.mask x.c)).all (fun l => (w.thread l).st = .exited))

/-- Releases every BARWT on `b` whose parity differs from the barrier's, and with `flip` every BAR on it: the arrivals happen before their returns (R225). -/
def State.releaseBar (s : State) (x : Bar) (flip : Bool) : State :=
  (s.workgroup x.gid x.gangwg).foldl (fun s w =>
    (w.lanesWhere (fun _ t => (flip && waitsBar x.b t) || waitsBarwt x.b x.par t)).foldl (fun s l => (s.acquireLane x.done w.uid l).release w.uid l) s) s

/-- What the exited lanes have done whose exit a phase counts as their arrival (R24, R182, R225). -/
def State.barGone (s : State) (x : Bar) : List Nat :=
  (s.workgroup x.gid x.gangwg).foldl (fun v w =>
    if x.W.testBit w.widx then
      (w.lanesWhere (fun l t => t.st = .exited && ((lookupIn x.mcs w.uid).map (fun mc => inMask mc l)).getD true)).foldl (fun v l => joinIds v (w.thread l).vw.hb) v
    else v) []

/-- Evaluates a barrier: on completion the parity flips, the record is cleared and its waiters go on (R182). -/
def State.evalBar (s : State) (x : Bar) : State :=
  if s.barDone x then
    let x' : Bar := ⟨x.gid, x.gangwg, x.b, !x.par, false, 0, 0, [], [], [], joinIds x.view (s.barGone x)⟩
    (s.setBar x').releaseBar x' true
  else s

/-- Evaluates every open barrier of a wave's workgroup. -/
def State.evalBars (s : State) (w : Wave) : State :=
  (s.bars.filter (fun x => x.gid = w.gid && x.gangwg = w.gangwg)).foldl (fun s x => s.evalBar (s.bar x.gid x.gangwg x.b)) s

/-- The evaluation of the barriers of a wave's workgroup after its arrivals or a change of its masks (R182). -/
def State.evalBarsOf (s : State) (uid : Nat) : State := match s.wave? uid with | some w => s.evalBars w | none => s

/-- Writes a mask register and evaluates its waits (R178), and the barriers at which a wave that has not arrived names it (R182). -/
def State.writeMask (s : State) (uid m : Nat) (x : LaneMask) : State :=
  ((s.updWave uid (fun w => w.setMask m x)).evalMask uid m).evalBarsOf uid

/-! ## Run-ahead groups -/

/-- The mask that the waiting lanes' GJOIN.m names, or 0. -/
def waitsGjoin (k : Nat) (t : Thread) : Option Nat :=
  match t.st with | .syncWait (.gjoin j m) _ _ => if j = k then some m else none | _ => none

/-- Evaluates the run-ahead group of token `k` (R207). -/
def State.evalGjoin (s : State) (uid k : Nat) : State :=
  match s.wave? uid with
  | none => s
  | some w =>
    let g := Sparse.get 0 w.jg k
    let waiting := w.lanesWhere (fun _ t => (waitsGjoin k t).isSome)
    let members := lanesOf g
    if members.all (fun l => waiting.contains l || (w.thread l).st = .exited) then
      let live := members.filter (fun l => (w.thread l).st ≠ .exited)
      let m := (waiting.filterMap (fun l => waitsGjoin k (w.thread l))).foldl max 0
      let s := s.updWave uid (fun w => { w with jg := Sparse.put 0 w.jg k 0 })
      let gone := (members.filter (fun l => (w.thread l).st = .exited)).foldl (fun v l => joinIds v (w.thread l).vw.hb) []
      let s := waiting.foldl (fun s l => s.release uid l) (s.joinLanes uid waiting gone)
      if m = 0 || g = 0 then s else s.writeMask uid m (w.mask m ||| maskOf live)
    else s

def State.evalGjoins (s : State) (uid : Nat) : State := (List.range 16).foldl (fun s k => s.evalGjoin uid k) s

/-! ## Exit and the end of a wave -/

/-- Lanes leave a mask. -/
def dropLanes (m : LaneMask) (ls : List Nat) : LaneMask := ls.foldl (fun m l => setLane m l false) m

/-- Has every lane of m0 exited (R21)? -/
def Wave.over (w : Wave) : Bool := w.threads.all (fun x => x.2.st = .exited)

/-- The end of a wave whose lanes have all exited: its bindings end (R282), and a handler wave leaves its core. A fault handler that leaves its record open is a fatal fault (R445); the
records held for an abort handler may then be dispatched (R446). -/
def State.endHandler (s : State) (uid : Nat) : State :=
  match s.wave? uid with
  | none => s
  | some w =>
    if !w.over then s
    else
      let s := { s with cts := { s.cts with binds := s.cts.binds.filter (fun b => b.uid ≠ uid) } }
      let gone := { s with waves := s.waves.filter (fun x => x.uid ≠ uid) }
      match w.kind with
      | .launch => s
      | .callback rays =>
        if rays.all (fun r => r.done || r.ray = 0) then
          { gone with rtu := { s.rtu with rays := s.rtu.rays.map (fun (x : Ray) =>
            { x with view := (rays.filter (fun c => c.ray = x.id)).foldl (fun v c => joinIds v (w.thread c.lane).vw.ids) x.view }) } }
        else s
      | .amsg _ | .firmware _ => gone
      | .abort => gone.updRegion w.rid (fun r => { r with abHold := false, abWave := none })
      | .fault _ =>
        match s.recs.find? (fun r => r.rid = w.rid && decide (r.st = .served uid)) with
        | none => gone
        | some r => { gone with fatals := s.fatals ++ [(w.rid, (r.lanes.head?.map (fun l => l.code)).getD r.code)] }

/-- What threads have done happens before the observation of their launch's completion (R228), before the end of the step in which their exit counts as an
arrival, and before the returns from the waits on their masks (R24, R225). -/
def State.noteExit (s : State) (uid : Nat) (ls : List Nat) : State :=
  match s.wave? uid with
  | none => s
  | some w =>
    let v := ls.foldl (fun v l => joinIds v (w.thread l).vw.ids) []
    if v.isEmpty then s
    else
      let s := s.updRegion w.rid (fun r => if r.stepSet.contains uid then { r with stepView := joinIds r.stepView v } else r)
      let s := s.updWave uid (fun w => { w with mview := ((List.range 12).filter (fun m => ls.any (fun l => inMask (w.mask m) l))).foldl (fun x m =>
        Sparse.put [] x m (joinIds (Sparse.get [] x m) ((ls.filter (fun l => inMask (w.mask m) l)).foldl (fun v l => joinIds v (w.thread l).vw.hb) []))) w.mview })
      { s with wd := { s.wd with launches := s.wd.launches.map (fun (l : Launch) => if l.lid = w.lid then { l with view := joinIds l.view v } else l) } }

/-- The lanes exit: they leave every mask they joined, count as arrived at every synchronisation, and the waits are evaluated
again (R24). -/
def State.exitLanes (s : State) (uid : Nat) (ls : List Nat) : State :=
  let s := s.noteExit uid ls
  let s := s.updWave uid (fun w =>
    let w := ls.foldl (fun w l => w.updThread l (fun t => { t with st := .exited, ue := none, hseg := none })) w
    { w with m := w.m.filterMap (fun x => if x.1 = 0 then some x else
        if dropLanes x.2 ls = 0 then none else some (x.1, dropLanes x.2 ls)) })
  let s := s.trigBins (fun c => c.uid = uid && ls.contains c.lane)
  (((s.evalMasks uid).evalGjoins uid).evalBarsOf uid).endHandler uid

/-! ## Resumption of a parked sub-wave -/

/-- The barrier at which a thread waits in BAR or BARWT. -/
def Thread.atBar (t : Thread) : Option Nat :=
  match t.st with | .syncWait (.bar b) _ _ | .syncWait (.barwt b _) _ _ => some b | _ => none

/-- Does a thread wait in SSTEP? -/
def inStep (t : Thread) : Bool := match t.st with | .syncWait .step _ _ => true | _ => false

/-- Withdraws the arrival of lanes at the barrier and the superstep in which each of them waits (R190). Where every arrival of a phase is withdrawn,
its record (W, c and the recorded masks) stays: the spec is silent, and that is the model's choice (log 30). -/
def State.withdraw (s : State) (uid : Nat) (ls : List Nat) : State :=
  match s.wave? uid with
  | none => s
  | some w =>
    let stepping := ls.filter (fun l => inStep (w.thread l))
    let s := { s with bars := s.bars.map (fun x =>
      if x.gid = w.gid && x.gangwg = w.gangwg then
        { x with arr := x.arr.map (fun y => if y.1 = uid then (y.1, dropLanes y.2 (ls.filter (fun l => (w.thread l).atBar = some x.b))) else y) }
      else x) }
    if stepping.isEmpty then s
    else
      s.updRegion w.rid (fun r => { r with stepArr := r.stepArr.map (fun x =>
        if x.1 = uid then (x.1, x.2.1, dropLanes x.2.2 stepping) else x) })

/-- A lane moved by LANEPC leaves every mask, run-ahead group, and barrier phase in which it has not arrived (R37, R194, R207). -/
def State.leaveAll (s : State) (uid : Nat) (ls : List Nat) : State :=
  let clear := fun (m : LaneMask) => dropLanes m ls
  let s := s.updWave uid (fun w =>
    { w with m := w.m.filterMap (fun x => if x.1 = 0 then some x else if clear x.2 = 0 then none else some (x.1, clear x.2)),
             jg := w.jg.filterMap (fun x => if clear x.2 = 0 then none else some (x.1, clear x.2)) })
  { s with bars := s.bars.map (fun x =>
      { x with mcs := x.mcs.map (fun y =>
          if y.1 = uid then
            (y.1, ls.foldl (fun m l => if inMask ((lookupIn x.arr uid).getD 0) l then m else setLane m l false) y.2)
          else y) }) }

/-- Resumes the parked sub-wave of a handle, or makes its lanes exit (R194); what `view` names happens before the resumed lanes' accesses (R228). -/
def State.tret (s : State) (rid h : Nat) (exit : Bool) (view : List Nat) : State :=
  match findIdx (fun r => r.rid = rid && r.handle = some h && r.eng.isNone) s.recs with
  | none => s
  | some (i, r) =>
    let ls := r.lanes.map (fun l => l.lane)
    let s := { s with recs := s.recs.eraseIdx i }
    if exit then (s.exitLanes r.uid ls).settleBins
    else
      let s := s.leaveAll r.uid ((r.lanes.filter (fun l => l.changed)).map (fun l => l.lane))
      let s := s.updWave r.uid (fun w => ls.foldl (fun w l => w.updThread l (fun t => { t with st := .ready, age := 0, vw := t.vw.join view })) w)
      ((s.evalMasks r.uid).evalGjoins r.uid).evalBarsOf r.uid

/-- At the end of a slot, the resumptions performed in it take effect, after the slot's arrivals (R194, R195). -/
def State.endSlot (s : State) : State :=
  match s.packets with
  | [] => s.tretQ.foldl (fun s q => s.tret q.1 q.2.1 q.2.2.1 q.2.2.2) { s with tretQ := [] }
  | _ :: _ => s

end Sys2Proof.Machine
end

