-- ==== Sys2Proof/Machine/Issue.lean ====
section
/-!
DEFINITION. How a packet executes its instruction: checks 5 and 6 of R101 in each wave, the guard (R29, R79), the
effect in each thread or once in each wave (R34), the results, the advance of pc, the settle marker (R78) and the
parked sub-wave of the lanes that fault (R35). Every meaning of an instruction is one of these shapes.
-/

namespace Sys2Proof.Machine

/-- What a meaning knows of its execution in one wave: the fields, the wave, the address and the address of the next instruction,
the wave's lanes in the packet and those of them whose guard is true. -/
structure Ctx where
  e : Enc
  uid : Nat
  pc : VA
  next : VA
  all : List Nat
  on : List Nat
  deriving DecidableEq, Repr

/-- The effect in one lane: short results with their flags, predicates (written at once, log 5), a jump target, or a state entered
instead of going on; an uncorrectable sector met by a short result. -/
structure LaneOut where
  regs : List (RegRef × Word) := []
  preds : List (Nat × Bool) := []
  flags : Flags := 0
  pc : Option VA := none
  st : Option RunState := none
  ue : Option Nat := none
  /-- flags that belong to one of its registers alone (R137) -/
  rflags : List (RegRef × Flags) := []
  deriving DecidableEq, Repr, Inhabited

/-- What becomes of a lane: it completes; it faults at the instruction; it completes and parks after it (R35); or its access waits, and it issues the
instruction again (R427, R430). -/
inductive LaneRes
  | ok (o : LaneOut)
  | fault (f : LFault)
  | trap (f : LFault)
  | hold (a : Adm)
  deriving DecidableEq, Repr, Inhabited

/-- The outcome in one wave: each lane's, and scalar results written once for the wave. -/
structure WaveOut where
  lanes : List (Nat × LaneRes)
  sregs : List (RegRef × Word) := []
  /-- flags that belong to one of the scalar results alone (R137) -/
  rflags : List (RegRef × Flags) := []
  deriving DecidableEq, Repr, Inhabited

/-- Is the guard true in a thread (R79)? -/
def guardOn (h : Hdr) (t : Thread) : Bool := t.pred h.pg.toNat != h.pn

/-- Does a thread in this state stay at its instruction, which re-executes if the lane is parked (R190, R206)? -/
def staysAt (st : Option RunState) : Bool :=
  match st with | some (.syncWait ..) | some (.tokenWait ..) => true | _ => false

/-- The short result of a lane. An uncorrectable sector leaves its registers and flags unwritten (R201). -/
def LaneOut.pend (o : LaneOut) (c : Ctx) (lane : Nat) : Pend :=
  if o.ue.isSome then ⟨c.uid, [lane], [], [], o.ue, []⟩ else ⟨c.uid, [lane], o.regs, if o.flags = 0 then [] else [(lane, o.flags)], none, o.rflags⟩

/-- A lane completes. -/
def State.finishLane (s : State) (c : Ctx) (lane : Nat) (o : LaneOut) : State :=
  let s := if o.regs.isEmpty && o.ue.isNone then s.orFlags c.uid lane o.flags else s.addPend (o.pend c lane)
  s.updThread c.uid lane (fun t =>
    let t := o.preds.foldl (fun t p => t.setPred p.1 p.2) t
    { t with pc := o.pc.getD (if staysAt o.st then c.pc else c.next), st := o.st.getD (s.goOn c.uid lane c.e.h.s), age := 0, since := s.clk, hseg := none })

/-- The flags of the lanes that a scalar result sets as it is written (R136, R141). -/
def WaveOut.scalarFlags (o : WaveOut) : List (Nat × Flags) :=
  o.lanes.filterMap (fun x => match x.2 with | .ok out => if out.regs.isEmpty && out.flags ≠ 0 then some (x.1, out.flags) else none | _ => none)

/-- Does an access of a thread wait, or is the thread to issue its instruction again? -/
def Thread.waits (t : Thread) : Bool := t.hseg.isSome || (match t.st with | .admission .peer _ => true | _ => false)

/-- The fault with which a lane waits for the others of its packet (R35). -/
def Thread.failure (t : Thread) : Option LFault := match t.st with | .admission (.failed c i) _ => some ⟨c, i⟩ | _ => none

/-- Lanes have met faults and wait for the other lanes of their packets. -/
def State.markFailed (s : State) (uid : Nat) (fs : List (Nat × LFault)) : State :=
  s.updWave uid (fun w => fs.foldl (fun w x => w.updThread x.1 (fun t => { t with st := .admission (.failed x.2.code x.2.info) false, age := 0, hseg := none })) w)

/-- The lanes of each packet of a wave that have met faults park as one sub-wave, with one record, once no access of the packet waits (R35). -/
def State.parkFailed (s : State) (uid : Nat) : State :=
  match s.wave? uid with
  | none => s
  | some w =>
    let failed := w.threads.filterMap (fun x => x.2.failure.map (fun f => (x.1, f)))
    ((w.packetsOf (failed.map (fun x => x.1))).filter (fun k => !w.threads.any (fun x => x.2.pkt = k && x.2.waits))).foldl (fun s k =>
      let part := failed.filter (fun x => (w.thread x.1).pkt = k)
      s.park uid ((part.head?.map (fun x => (w.thread x.1).pc)).getD 0) part) s

/-- Does a lane's outcome leave its packet without an answer? -/
def LaneRes.open' (r : LaneRes) : Bool := match r with | .hold _ => true | .ok { st := some (.admission .peer _), .. } => true | _ => false

/-- Lanes of a packet fault: they park together, at once or, where some access of the packet waits or has waited, once no other does. -/
def State.failLanes (s : State) (c : Ctx) (waits : Bool) (fs : List (Nat × LFault)) : State :=
  if waits then (s.markFailed c.uid fs).parkFailed c.uid else s.park c.uid c.pc fs

/-- Does a lane of the packet issue its instruction again? -/
def State.again (s : State) (c : Ctx) : Bool := c.all.any (fun l => (s.thread c.uid l).hseg.isSome)

/-! ## The end of an access's wait -/

/-- Has an access of a lane a request that is not answered, at the walk unit or at a peer? -/
def State.asking (s : State) (uid lane : Nat) : Bool :=
  let mine := fun (w : Who) => w = .lane uid lane
  s.missQ.any (fun q => mine q.who) || s.misses.any (fun m => m.reqs.any (fun q => mine q.who)) || s.link.rops.any (fun r => mine r.who && r.answer.isNone)

/-- Does a thread wait as a member of a quad that issues together (R33)? -/
def Thread.inQuad (t : Thread) : Bool := match t.st with | .admission .quad _ => true | _ => false

/-- What a lane waits for has come: it issues its instruction again; a member of a quad once no member's access waits (R33, R427, R430). -/
def State.wakeLane (s : State) (uid lane : Nat) : State :=
  let go := fun (s : State) (l : Nat) => s.updThread uid l (fun t => { t with st := .ready, age := 0 })
  match (s.thread uid lane).st with
  | .admission .walk _ | .admission .fetch _ | .admission .drain _ => go s lane
  | .admission .quad _ =>
    let q := ((List.range 4).map (fun j => 4 * (lane / 4) + j)).filter (fun l => (s.thread uid l).inQuad && (s.thread uid l).pkt = (s.thread uid lane).pkt)
    if q.any (s.asking uid) then s else q.foldl go s
  | _ => s

/-- The results of a wave are taken: first the wave's scalars, then lane by lane, then the lanes that wait, with the segments in force (R74), then the
parked sub-wave. -/
def State.commit (s : State) (c : Ctx) (o : WaveOut) : State :=
  let fs := o.lanes.filterMap (fun x => match x.2 with | .fault f => some (x.1, f) | _ => none)
  let waits := s.again c || (!fs.isEmpty && o.lanes.any (fun x => x.2.open'))
  let s := if o.sregs.isEmpty then s else s.addPend ⟨c.uid, c.on, o.sregs, o.scalarFlags, none, o.rflags⟩
  let s := o.lanes.foldl (fun s x => match x.2 with
    | .ok out => s.finishLane c x.1 (if o.sregs.isEmpty || !out.regs.isEmpty then out else { out with flags := 0 })
    | _ => s) s
  let s := o.lanes.foldl (fun s x => match x.2 with
    | .hold a => s.updWave c.uid (fun w => w.updThread x.1 (fun t =>
        { t with st := .admission a c.e.h.s, age := 0, since := s.clk, hseg := some (t.hseg.getD (w.g, w.s)) }))
    | _ => s) s
  let s := s.failLanes c waits fs
  let traps := o.lanes.filterMap (fun x => match x.2 with | .trap f => some (x.1, f) | _ => none)
  let s := s.updWave c.uid (fun w => traps.foldl (fun w x => w.updThread x.1 (fun t => { t with pc := c.next, age := 0 })) w)
  s.park c.uid c.pc traps

/-- The address after an instruction. -/
def nextPc (x : VA) (l : Len) : VA := x + BitVec.ofNat 56 (lenBytes l)

/-- Executes an instruction in one wave of a packet; `post` is what follows once every lane's result is taken. -/
def runWave (e : Enc) (body : Ctx → State → State × WaveOut) (post : Ctx → State → State) (x : VA) (s : State)
    (q : Nat × List Nat) : State :=
  match s.wave? q.1 with
  | none => s
  | some w =>
    let s := s.updWave q.1 (fun w => q.2.foldl (fun w l => w.updThread l (fun t => { t with age := 0, pkt := if t.hseg.isSome then t.pkt else s.tick })) w)
    if !e.check5 w.V w.S then s.park q.1 x (q.2.map (fun l => (l, illegal 5)))
    else if e.priv && !w.priv then s.park q.1 x (q.2.map (fun l => (l, ⟨fcPriv, e.op.toNat⟩)))
    else
      let on := q.2.filter (fun l => guardOn e.h (w.thread l))
      let off := q.2.filter (fun l => !guardOn e.h (w.thread l))
      let next := nextPc x e.h.len
      let s := off.foldl (fun s l => s.resume q.1 l next false) s
      if on.isEmpty then s
      else
        let c : Ctx := ⟨e, q.1, x, next, q.2, on⟩
        let r := body c s
        post c (r.1.commit c r.2)

/-- Executes an instruction in the packet at the head of the slot, waves in ascending slot order (R34, R203). With no packet
the machine does not change. -/
def runPacketThen (e : Enc) (body : Ctx → State → State × WaveOut) (post : Ctx → State → State) (s : State) : State :=
  match s.packets with
  | [] => s
  | p :: ps => (p.waves.foldl (runWave e body post p.pc) { s with packets := ps }).endSlot

/-- As runPacketThen, with nothing after the results. -/
def runPacket (e : Enc) (body : Ctx → State → State × WaveOut) (s : State) : State :=
  runPacketThen e body (fun _ s => s) s

/-- The lanes of a wave in ascending order, each with its effect on the state. -/
def laneWise (f : Ctx → State → Nat → State × LaneRes) (c : Ctx) (s : State) : State × WaveOut :=
  let r := c.on.foldl (fun (acc : State × List (Nat × LaneRes)) l =>
    let q := f c acc.1 l
    (q.1, acc.2 ++ [(l, q.2)])) (s, [])
  (r.1, { lanes := r.2 })

/-- The wave as the access of a lane finds it: an instruction that issues again has the segments of its first issue (R74). -/
def Wave.atIssue (w : Wave) (l : Nat) : Wave := match (w.thread l).hseg with | none => w | some h => { w with g := h.1 }

/-- The wave of a lane, with the segments as the lane's instruction first found them (R74). -/
def State.issued? (s : State) (uid l : Nat) : Option Wave := (s.wave? uid).map (fun w => w.atIssue l)

/-- An effect in a lane with the scalars of its wave as its instruction first found them, where it issues again (R74). -/
def State.asIssued {α : Type} (s : State) (uid l : Nat) (f : State → State × α) : State × α :=
  match (s.thread uid l).hseg with
  | none => f s
  | some h =>
    let now := ((s.wave? uid).map (fun w => w.s)).getD []
    let r := f (s.updWave uid (fun w => { w with s := h.2 }))
    (r.1.updWave uid (fun w => { w with s := now }), r.2)

/-- The uncorrectable sector at an address that a fault names is noted for its error bank (R464). -/
def State.meetUeAt (s : State) (rid : Nat) (e : LFault) : State :=
  if e.code = fcMemUe then s.asService (fun s => match s.translate rid e.info false with | .ok l => s.meetUe [l] | .error _ => s) else s

/-- An effect that accesses memory, in one lane: the lane's thread is the acting agent. An access that waits keeps the lane at the instruction. -/
def byLane (f : Ctx → State → Nat → State × LaneRes) (c : Ctx) (s : State) (l : Nat) : State × LaneRes :=
  let r := s.asIssued c.uid l (fun s => f c (s.asLane c.uid l) l)
  match r.2 with
  | .fault e =>
    if e.holds then ((r.1.hold (s.ridOf c.uid) e c.pc [l]).laneDone c.uid l, .hold e.adm)
    else (((r.1.laneDone c.uid l).dropRops (.lane c.uid l)).meetUeAt (s.ridOf c.uid) e, r.2)
  | _ => ((r.1.laneDone c.uid l).dropReads (.lane c.uid l), r.2)

/-- As laneWise, for an effect that accesses memory. -/
def memWise (f : Ctx → State → Nat → State × LaneRes) : Ctx → State → State × WaveOut := laneWise (byLane f)

/-- A thread-wise instruction that only computes: its effect in each lane depends on the state before the packet. -/
def pureWise (f : Ctx → State → Nat → LaneRes) (c : Ctx) (s : State) : State × WaveOut :=
  (s, { lanes := c.on.map (fun l => (l, f c s l)) })

/-- The result of a uniform execution. -/
structure UniOut where
  sregs : List (RegRef × Word) := []
  preds : List (Nat × Bool) := []
  flags : Flags := 0
  /-- a state that every thread enters instead of going on -/
  st : Option RunState := none
  ue : Option Nat := none
  rflags : List (RegRef × Flags) := []
  deriving DecidableEq, Repr, Inhabited

/-- A uniform instruction: once for the wave, with the lowest lane whose guard is true as reading thread; predicates and flags
in every thread with a true guard; a fault parks every thread of the wave in the packet, its pc at the instruction (R34, R35, R101, R202). -/
def uniWise (f : Ctx → State → Nat → State × Except LFault UniOut) (c : Ctx) (s : State) : State × WaveOut :=
  match c.on with
  | [] => (s, { lanes := [] })
  | l0 :: _ =>
    match f c s l0 with
    | (s', .error e) =>
      ((c.all.filter (fun l => !c.on.contains l)).foldl (fun s l => s.updThread c.uid l (fun t => { t with pc := c.pc })) s',
        { lanes := c.all.map (fun l => (l, .fault e)) })
    | (s', .ok o) =>
      (s', { lanes := c.on.map (fun l => (l, .ok { preds := o.preds, flags := o.flags, st := o.st, ue := o.ue })), sregs := if o.ue.isSome then [] else o.sregs, rflags := o.rflags })

/-- A uniform instruction that accesses memory: the reading thread is the acting agent; where its access waits, every thread of the wave in the packet
issues the instruction again. -/
def uniMem (f : Ctx → State → Nat → State × Except LFault UniOut) (c : Ctx) (s : State) : State × WaveOut :=
  match c.on with
  | [] => (s, { lanes := [] })
  | l0 :: _ =>
    match s.asIssued c.uid l0 (fun s => f c (s.asLane c.uid l0) l0) with
    | (s', .error e) =>
      if e.holds then
        ((c.all.filter (fun l => !c.on.contains l)).foldl (fun s l => s.updThread c.uid l (fun t => { t with pc := c.pc }))
          ((s'.hold (s.ridOf c.uid) e c.pc c.all).laneDone c.uid l0), { lanes := c.all.map (fun l => (l, .hold e.adm)) })
      else uniWise (fun _ _ _ => (((s'.laneDone c.uid l0).dropRops (.lane c.uid l0)).meetUeAt (s.ridOf c.uid) e, .error e)) c s
    | (s', .ok o) => uniWise (fun _ _ _ => ((s'.laneDone c.uid l0).dropReads (.lane c.uid l0), .ok o)) c s

end Sys2Proof.Machine
end

