-- ==== Sys2Proof/Machine/Operands.lean ====
section
/-!
DEFINITION. Operand forms: registers, pairs and immediates under MX and R90, their extension (R88, R140), and the shape shared by
every instruction that only computes a result.
-/

namespace Sys2Proof.Machine

/-- The shape of an encoding. -/
def Enc.shape (e : Enc) : Shape := (shapeOf e).getD badShape

def Enc.kindOf (e : Enc) (o : Owner) : Kind :=
  match o with
  | .d => kindD e.h.mx | .a => kindA e.h.mx | .b => kindB e.h.mx | .c => kindC e.h.mx

def Enc.field (e : Enc) (o : Owner) : Nat :=
  match o with
  | .d => e.h.d.toNat | .a => e.h.a.toNat | .b => e.h.b.toNat | .c => e.h.c.toNat

/-- The value of a source for a lane: `n` registers, or its immediate under `ext`, which is told whether it is the
32-bit word (R88, R90). -/
def State.operand (s : State) (c : Ctx) (lane : Nat) (o : Owner) (n : Nat) (ext : Bool → Nat → Nat) : Nat :=
  match c.e.kindOf o with
  | .v => s.readRegs c.uid lane .v (c.e.field o) n
  | .s => s.readRegs c.uid lane .s (c.e.field o) n
  | _ => ext (c.e.owner c.e.shape = some o) (c.e.fieldVal c.e.shape o)

/-- The width in bits of a type (R140). -/
def tyWidth (t : Ty) : Nat :=
  match t with
  | .i64 | .n64 | .b64 | .f64 => 64
  | .i32 | .n32 | .b32 | .f32 => 32
  | .i16 | .n16 | .f16 | .bf16 | .ce16 => 16
  | .i8 | .n8 => 8
  | .nar => 32

def tySigned (t : Ty) : Bool := match t with | .i8 | .i16 | .i32 | .i64 => true | _ => false

/-- An immediate of an integer or bit type: sign-extended for the signed types, else zero-extended (R88). -/
def immInt (t : Ty) (word : Bool) (v : Nat) : Nat :=
  if tySigned t then wrapTo 64 (signedOf (if word then 32 else 8) v) else v

/-- A source of an integer or bit type, as a number below 2^w (R140). -/
def State.srcInt (s : State) (c : Ctx) (lane : Nat) (o : Owner) (t : Ty) : Nat :=
  s.operand c lane o (tyRegs t) (immInt t) % 2 ^ tyWidth t

/-- A count operand: one register or immediate, an unsigned 32-bit value whatever the type (R140). -/
def State.srcCount (s : State) (c : Ctx) (lane : Nat) (o : Owner) : Nat := s.operand c lane o 1 (fun _ v => v)

/-- The integer that a pattern of type `t` stands for (R142). -/
def tyInt (t : Ty) (x : Nat) : Int := if tySigned t then signedOf (tyWidth t) x else ((x % 2 ^ tyWidth t : Nat) : Int)

/-- A computed result: a number put into `n` registers from D, predicates and flags; for several results, each in its own register, the flags of each (R137). -/
structure Res where
  val : Nat := 0
  n : Nat := 0
  preds : List (Nat × Bool) := []
  flags : Flags := 0
  per : List Flags := []
  deriving DecidableEq, Repr, Inhabited

/-- The register writes of a result: vector registers of the lane, or scalars under U = 1. -/
def Res.regs (r : Res) (c : Ctx) (lane : Nat) : List (RegRef × Word) :=
  regWrites lane (if c.e.h.u then .s else .v) c.e.h.d.toNat r.n r.val

/-- The flags of each of several results, with its register. -/
def Res.regFlags (r : Res) (e : Enc) (lane : Nat) : List (RegRef × Flags) :=
  (((regWrites lane (if e.h.u then .s else .v) e.h.d.toNat r.n r.val).map (fun x => x.1)).zip r.per).filter (fun x => x.2 ≠ 0)

/-- A result taken by one lane. -/
def resLane (c : Ctx) (lane : Nat) (r : Except LFault Res) : LaneRes :=
  match r with
  | .ok r => .ok { regs := r.regs c lane, preds := r.preds, flags := r.flags, rflags := r.regFlags c.e lane }
  | .error f => .fault f

/-- A result taken once for the wave. -/
def resUni (c : Ctx) (lane : Nat) (r : Except LFault Res) : Except LFault UniOut :=
  match r with
  | .ok r => .ok { sregs := r.regs c lane, preds := r.preds, flags := r.flags, rflags := r.regFlags c.e lane }
  | .error f => .error f

/-- An instruction that only computes: in each thread, or once in each wave under U = 1 (R141). -/
def computeBody (g : Ctx → State → Nat → Except LFault Res) (c : Ctx) (s : State) : State × WaveOut :=
  if c.e.h.u then uniWise (fun c s l => (s, resUni c l (g c s l))) c s
  else pureWise (fun c s l => resLane c l (g c s l)) c s

def runCompute (e : Enc) (g : Ctx → State → Nat → Except LFault Res) (s : State) : State := runPacket e (computeBody g) s

/-- The outcome of every meaning: the machine always goes on. -/
abbrev Out := Host.Outcome State Fault Refusal

end Sys2Proof.Machine
end

