-- ==== Sys2Proof/Machine/Integer.lean ====
section
/-!
DEFINITION. Integer and bit instructions, 0x00 to 0x1F (R142 to R146).
-/

namespace Sys2Proof.Machine

/-- The range of an integer type (R143). -/
def tyMin (t : Ty) : Int := if tySigned t then -((2 ^ (tyWidth t - 1) : Nat) : Int) else 0
def tyMax (t : Ty) : Int := if tySigned t then ((2 ^ (tyWidth t - 1) : Nat) : Int) - 1 else ((2 ^ tyWidth t : Nat) : Int) - 1

/-- Was the exact result outside the type's range? -/
def clamped (t : Ty) (x : Int) : Bool := x < tyMin t || tyMax t < x

/-- What D receives of the exact result `x` (R143). -/
def narrowInt (t : Ty) (sat : Bool) (x : Int) : Nat :=
  wrapTo (tyWidth t) (if sat then clampInt (tyMin t) (tyMax t) x else x)

/-- The predicate that PO names (R145). -/
def poWrite (f : IntFn) (v : Bool) : List (Nat × Bool) := if f.po = 0 then [] else [(f.po.toNat - 1, v)]

/-- The result of an arithmetic row from its exact value, with the predicate's value of rule 5 of R145 unless `own` gives that of rules
2 to 4; rule 1 goes first. -/
def intRes (f : IntFn) (x : Int) (own : Option Bool) : Res :=
  let d := narrowInt f.ty f.sat x
  { val := d, n := tyRegs f.ty,
    preds := poWrite f (if f.sat then clamped f.ty x else own.getD (d ≠ 0)) }

/-- The result of a bit row. -/
def bitRes (f : IntFn) (n d : Nat) : Res := { val := d, n := n, preds := poWrite f (d ≠ 0) }

/-- a ÷ b truncated toward zero, with R144 for b = 0. -/
def divInt (t : Ty) (a b : Int) : Int := if b = 0 then (if tySigned t then -1 else tyMax t) else a.tdiv b

/-- a − b × (a ÷ b truncated), the dividend for b = 0 (R144). -/
def remInt (a b : Int) : Int := if b = 0 then a else a.tmod b

def enc (op : BitVec 8) (h : Hdr) (fn : BitVec 12) (x : BitVec 64) : Enc := ⟨op, h, fn, x⟩

/-- The two sources A and B as integers. -/
def State.intAB (s : State) (c : Ctx) (l : Nat) (t : Ty) : Int × Int :=
  (tyInt t (s.srcInt c l .a t), tyInt t (s.srcInt c l .b t))

/-- Integer sources of a .wide row and its 2w-bit result. -/
def wideRes (f : IntFn) (x : Int) : Res :=
  let d := wrapTo (2 * tyWidth f.ty) x
  { val := d, n := 2, preds := poWrite f (d ≠ 0) }

/-- Runs an integer instruction. -/
def runInt (op : BitVec 8) (h : Hdr) (f : IntFn) (x : BitVec 64) (g : Ctx → State → Nat → Res) (s : State) : Out :=
  .next (runCompute (enc op h (intFnBits f) x) (fun c s l => .ok (g c s l)) s)

def addRes (f : IntFn) (c : Ctx) (s : State) (l : Nat) : Res :=
  let a := s.srcInt c l .a f.ty
  let b := s.srcInt c l .b f.ty
  intRes f (tyInt f.ty a + tyInt f.ty b) (some (2 ^ tyWidth f.ty ≤ a + b))

def execIadd (h : Hdr) (f : IntFn) (x : BitVec 64) (s : State) : Out := runInt 0x00 h f x (addRes f) s

def subRes (f : IntFn) (c : Ctx) (s : State) (l : Nat) : Res :=
  let a := s.srcInt c l .a f.ty
  let b := s.srcInt c l .b f.ty
  intRes f (tyInt f.ty a - tyInt f.ty b) (some (a < b))

def execIsub (h : Hdr) (f : IntFn) (x : BitVec 64) (s : State) : Out := runInt 0x01 h f x (subRes f) s

def mulRes (f : IntFn) (c : Ctx) (s : State) (l : Nat) : Res :=
  let (a, b) := s.intAB c l f.ty
  if f.sub = 1 then wideRes f (a * b) else intRes f (a * b) none

def execImul (h : Hdr) (f : IntFn) (x : BitVec 64) (s : State) : Out := runInt 0x02 h f x (mulRes f) s

def mulhRes (f : IntFn) (c : Ctx) (s : State) (l : Nat) : Res :=
  let (a, b) := s.intAB c l f.ty
  bitRes f (tyRegs f.ty) (wrapTo (2 * tyWidth f.ty) (a * b) / 2 ^ tyWidth f.ty)

def execImulh (h : Hdr) (f : IntFn) (x : BitVec 64) (s : State) : Out := runInt 0x03 h f x (mulhRes f) s

/-- The type of C of IMAD .wide: 2w bits of TY's signedness. -/
def wideTy (t : Ty) : Ty := if tySigned t then .i64 else .n64

def madRes (f : IntFn) (c : Ctx) (s : State) (l : Nat) : Res :=
  let (a, b) := s.intAB c l f.ty
  if f.sub = 1 then wideRes f (a * b + tyInt (wideTy f.ty) (s.srcInt c l .c (wideTy f.ty)))
  else intRes f (a * b + tyInt f.ty (s.srcInt c l .c f.ty)) none

def execImad (h : Hdr) (f : IntFn) (x : BitVec 64) (s : State) : Out := runInt 0x04 h f x (madRes f) s

def divRes (f : IntFn) (c : Ctx) (s : State) (l : Nat) : Res :=
  let (a, b) := s.intAB c l f.ty
  intRes f (divInt f.ty a b) (some (b = 0))

def execIdiv (h : Hdr) (f : IntFn) (x : BitVec 64) (s : State) : Out := runInt 0x05 h f x (divRes f) s

def remRes (f : IntFn) (c : Ctx) (s : State) (l : Nat) : Res :=
  let (a, b) := s.intAB c l f.ty
  intRes f (remInt a b) (some (b = 0))

def execIrem (h : Hdr) (f : IntFn) (x : BitVec 64) (s : State) : Out := runInt 0x06 h f x (remRes f) s

def minRes (f : IntFn) (c : Ctx) (s : State) (l : Nat) : Res :=
  let (a, b) := s.intAB c l f.ty
  intRes f (if a ≤ b then a else b) none

def execImin (h : Hdr) (f : IntFn) (x : BitVec 64) (s : State) : Out := runInt 0x07 h f x (minRes f) s

def maxRes (f : IntFn) (c : Ctx) (s : State) (l : Nat) : Res :=
  let (a, b) := s.intAB c l f.ty
  intRes f (if a ≤ b then b else a) none

def execImax (h : Hdr) (f : IntFn) (x : BitVec 64) (s : State) : Out := runInt 0x08 h f x (maxRes f) s

def absRes (f : IntFn) (c : Ctx) (s : State) (l : Nat) : Res :=
  intRes f ((tyInt f.ty (s.srcInt c l .a f.ty)).natAbs : Int) none

def execIabs (h : Hdr) (f : IntFn) (x : BitVec 64) (s : State) : Out := runInt 0x09 h f x (absRes f) s

def negRes (f : IntFn) (c : Ctx) (s : State) (l : Nat) : Res := intRes f (-(tyInt f.ty (s.srcInt c l .a f.ty))) none

def execIneg (h : Hdr) (f : IntFn) (x : BitVec 64) (s : State) : Out := runInt 0x0A h f x (negRes f) s

/-- A bitwise row of two sources. -/
def logicRes (op : Nat → Nat → Nat) (f : IntFn) (c : Ctx) (s : State) (l : Nat) : Res :=
  bitRes f (tyRegs f.ty) (op (s.srcInt c l .a f.ty) (s.srcInt c l .b f.ty))

def execAnd (h : Hdr) (f : IntFn) (x : BitVec 64) (s : State) : Out := runInt 0x0B h f x (logicRes (fun a b => a &&& b) f) s
def execOr (h : Hdr) (f : IntFn) (x : BitVec 64) (s : State) : Out := runInt 0x0C h f x (logicRes (fun a b => a ||| b) f) s
def execXor (h : Hdr) (f : IntFn) (x : BitVec 64) (s : State) : Out := runInt 0x0D h f x (logicRes (fun a b => a ^^^ b) f) s

def notRes (f : IntFn) (c : Ctx) (s : State) (l : Nat) : Res :=
  bitRes f (tyRegs f.ty) (2 ^ tyWidth f.ty - 1 - s.srcInt c l .a f.ty)

def execNot (h : Hdr) (f : IntFn) (x : BitVec 64) (s : State) : Out := runInt 0x0E h f x (notRes f) s

/-- Bit i of the result is LUT[4 a_i + 2 b_i + c_i] (R142). -/
def lop3Of (lut a b c : Nat) : Nat :=
  (List.range 32).foldl (fun acc i =>
    acc + (if lut.testBit (4 * b2n (bitAt a i) + 2 * b2n (bitAt b i) + b2n (bitAt c i)) then 2 ^ i else 0)) 0

def execLop3 (h : Hdr) (f : LutFn) (x : BitVec 64) (s : State) : Out :=
  .next (runCompute (enc 0x0F h (lutFnBits f) x)
    (fun c s l => .ok { val := lop3Of f.lut.toNat (s.srcInt c l .a .b32) (s.srcInt c l .b .b32) (s.srcInt c l .c .b32), n := 1 }) s)

/-- The shift amount: mod w with .wrap. -/
def shiftBy (f : IntFn) (n : Nat) : Nat := if f.sub = 1 then n % tyWidth f.ty else n

def shlRes (f : IntFn) (c : Ctx) (s : State) (l : Nat) : Res :=
  let n := shiftBy f (s.srcCount c l .b)
  let w := tyWidth f.ty
  bitRes f (tyRegs f.ty) (if w ≤ n then 0 else s.srcInt c l .a f.ty * 2 ^ n % 2 ^ w)

def execShl (h : Hdr) (f : IntFn) (x : BitVec 64) (s : State) : Out := runInt 0x10 h f x (shlRes f) s

def shrRes (f : IntFn) (c : Ctx) (s : State) (l : Nat) : Res :=
  let n := shiftBy f (s.srcCount c l .b)
  let w := tyWidth f.ty
  bitRes f (tyRegs f.ty) (wrapTo w (tyInt f.ty (s.srcInt c l .a f.ty) / ((2 ^ (min n w) : Nat) : Int)))

def execShr (h : Hdr) (f : IntFn) (x : BitVec 64) (s : State) : Out := runInt 0x11 h f x (shrRes f) s

/-- Rotation left by n below w. -/
def rotl (w a n : Nat) : Nat := (a * 2 ^ n + a / 2 ^ (w - n)) % 2 ^ w

def rotRes (f : IntFn) (c : Ctx) (s : State) (l : Nat) : Res :=
  let w := tyWidth f.ty
  let n := s.srcCount c l .b % w
  bitRes f (tyRegs f.ty) (rotl w (s.srcInt c l .a f.ty) (if f.sub = 1 then (w - n) % w else n))

def execRot (h : Hdr) (f : IntFn) (x : BitVec 64) (s : State) : Out := runInt 0x12 h f x (rotRes f) s

def fshfRes (f : IntFn) (c : Ctx) (s : State) (l : Nat) : Res :=
  let y := s.srcInt c l .c .b32 * 2 ^ 32 + s.srcInt c l .a .b32
  let b := s.srcCount c l .b
  let n := if 2 ≤ f.sub.toNat then b % 32 else min b 32
  bitRes f 1 (if f.sub.toNat % 2 = 0 then y * 2 ^ n / 2 ^ 32 % 2 ^ 32 else y / 2 ^ n % 2 ^ 32)

def execFshf (h : Hdr) (f : IntFn) (x : BitVec 64) (s : State) : Out := runInt 0x13 h f x (fshfRes f) s

/-- BFX (R146): a bit at or above w reads as the sign for .i and as 0 for .n. -/
def bfxOf (t : Ty) (a b : Nat) : Nat :=
  let w := tyWidth t
  let pos := bitsAt b 0 8
  let len := min (bitsAt b 8 8) w
  let fld := wrapTo len (tyInt t a / ((2 ^ pos : Nat) : Int))
  if len = 0 then 0 else if tySigned t then wrapTo w (signedOf len fld) else fld

def bfxRes (f : IntFn) (c : Ctx) (s : State) (l : Nat) : Res :=
  bitRes f (tyRegs f.ty) (bfxOf f.ty (s.srcInt c l .a f.ty) (s.srcCount c l .b))

def execBfx (h : Hdr) (f : IntFn) (x : BitVec 64) (s : State) : Out := runInt 0x14 h f x (bfxRes f) s

/-- BFI (R146): bits beyond w are dropped. -/
def bfiOf (w a b c : Nat) : Nat :=
  let pos := bitsAt b 0 8
  let len := min (bitsAt b 8 8) w
  let mask := ((2 ^ len - 1) * 2 ^ pos) % 2 ^ w
  (c &&& (2 ^ w - 1 - mask)) ||| ((a % 2 ^ len * 2 ^ pos) % 2 ^ w)

def bfiRes (f : IntFn) (c : Ctx) (s : State) (l : Nat) : Res :=
  bitRes f (tyRegs f.ty) (bfiOf (tyWidth f.ty) (s.srcInt c l .a f.ty) (s.srcCount c l .b) (s.srcInt c l .c f.ty))

def execBfi (h : Hdr) (f : IntFn) (x : BitVec 64) (s : State) : Out := runInt 0x15 h f x (bfiRes f) s

/-- The number of leading zeros of the low w bits. -/
def clzOf (w a : Nat) : Nat := if a = 0 then w else w - 1 - log2 a

/-- The number of trailing zeros of the low w bits. -/
def ctzOf (w a : Nat) : Nat := ((List.range w).find? (fun i => a.testBit i)).getD w

def brevOf (w a : Nat) : Nat := (List.range w).foldl (fun acc i => if a.testBit i then acc + 2 ^ (w - 1 - i) else acc) 0

/-- A row that counts bits into one register. -/
def countRes (op : Nat → Nat → Nat) (f : IntFn) (c : Ctx) (s : State) (l : Nat) : Res :=
  bitRes f 1 (op (tyWidth f.ty) (s.srcInt c l .a f.ty))

def execPopc (h : Hdr) (f : IntFn) (x : BitVec 64) (s : State) : Out := runInt 0x16 h f x (countRes popCount f) s
def execClz (h : Hdr) (f : IntFn) (x : BitVec 64) (s : State) : Out := runInt 0x17 h f x (countRes clzOf f) s
def execCtz (h : Hdr) (f : IntFn) (x : BitVec 64) (s : State) : Out := runInt 0x18 h f x (countRes ctzOf f) s

def brevRes (f : IntFn) (c : Ctx) (s : State) (l : Nat) : Res :=
  bitRes f (tyRegs f.ty) (brevOf (tyWidth f.ty) (s.srcInt c l .a f.ty))

def execBrev (h : Hdr) (f : IntFn) (x : BitVec 64) (s : State) : Out := runInt 0x19 h f x (brevRes f) s

/-- PRMT (R146). -/
def prmtOf (a b c : Nat) : Nat :=
  (List.range 4).foldl (fun acc i =>
    let sel := bitsAt b (4 * i) 4
    let byte := bitsAt (a + c * 2 ^ 32) (8 * (sel % 8)) 8
    let byte := if 8 ≤ sel then (if 128 ≤ byte then 0xFF else 0) else byte
    acc + byte * 2 ^ (8 * i)) 0

def prmtRes (f : IntFn) (c : Ctx) (s : State) (l : Nat) : Res :=
  bitRes f 1 (prmtOf (s.srcInt c l .a .b32) (s.srcCount c l .b) (s.srcInt c l .c .b32))

def execPrmt (h : Hdr) (f : IntFn) (x : BitVec 64) (s : State) : Out := runInt 0x1A h f x (prmtRes f) s

/-- LEA's index: one register, sign-extended for .i64, zero-extended for the others. -/
def leaRes (f : IntFn) (c : Ctx) (s : State) (l : Nat) : Res :=
  let b := s.operand c l .b 1 (immInt f.ty)
  let b := if tyWidth f.ty = 64 then (if tySigned f.ty then signedOf 32 b else ((b % 2 ^ 32 : Nat) : Int)) else (b : Int)
  intRes f ((s.srcInt c l .a f.ty : Int) + b * ((2 ^ f.sub.toNat : Nat) : Int)) none

def execLea (h : Hdr) (f : IntFn) (x : BitVec 64) (s : State) : Out := runInt 0x1B h f x (leaRes f) s

def addcRes (f : IntFn) (c : Ctx) (s : State) (l : Nat) : Res :=
  let a := s.srcInt c l .a f.ty
  let b := s.srcInt c l .b f.ty
  let k := b2n ((s.thread c.uid l).pred c.e.h.c.toNat)
  intRes f (tyInt f.ty a + tyInt f.ty b + (k : Int)) (some (2 ^ tyWidth f.ty ≤ a + b + k))

def execIaddc (h : Hdr) (f : IntFn) (x : BitVec 64) (s : State) : Out := runInt 0x1C h f x (addcRes f) s

def sadRes (f : IntFn) (c : Ctx) (s : State) (l : Nat) : Res :=
  let (a, b) := s.intAB c l f.ty
  intRes f (((a - b).natAbs : Int) + tyInt f.ty (s.srcInt c l .c f.ty)) none

def execIsad (h : Hdr) (f : IntFn) (x : BitVec 64) (s : State) : Out := runInt 0x1D h f x (sadRes f) s

/-- Byte i of a word, signed or not. -/
def byteInt (sgn : Bool) (x i : Nat) : Int :=
  let b := bitsAt x (8 * i) 8
  if sgn then signedOf 8 b else (b : Int)

def dp4Res (f : IntFn) (c : Ctx) (s : State) (l : Nat) : Res :=
  let a := s.srcInt c l .a f.ty
  let b := s.srcInt c l .b f.ty
  let sa := f.sub.toNat % 2 = 1
  let sb := 2 ≤ f.sub.toNat
  let dot := (List.range 4).foldl (fun acc i => acc + byteInt sa a i * byteInt sb b i) (0 : Int)
  intRes f (tyInt f.ty (s.srcInt c l .c f.ty) + dot) none

def execIdp4 (h : Hdr) (f : IntFn) (x : BitVec 64) (s : State) : Out := runInt 0x1E h f x (dp4Res f) s

def moviRes (f : IntFn) (c : Ctx) (s : State) (l : Nat) : Res := { val := s.srcInt c l .b f.ty, n := tyRegs f.ty }

def execMovi (h : Hdr) (f : IntFn) (x : BitVec 64) (s : State) : Out := runInt 0x1F h f x (moviRes f) s

end Sys2Proof.Machine
end

