-- ==== Sys2Proof/Machine/Float.lean ====
section
/-!
DEFINITION. Float instructions, 0x20 to 0x3F (R147 to R151).
-/

namespace Sys2Proof.Machine

def ftFmt (t : FT) : Fmt := match t with | .f32 => fp32 | .f16 => fp16 | .bf16 => bf16 | .f64 => fp64

/-- The wave's ac (R59) and its fields. -/
def State.acOf (s : State) (uid : Nat) : Nat := ((s.wave? uid).map (fun w => w.ac.toNat)).getD 0
def acRM (ac : Nat) : RM := rmOf (bitsAt ac 0 2)
def acFZ (ac : Nat) : Bool := bitAt ac 2
def acDZI (ac : Nat) : Bool := bitAt ac 3
def acAW (ac : Nat) : Nat := bitsAt ac 4 3

/-- The rounding direction of RND (R93). -/
def rndDir (r : Rnd) (ac : Nat) : RM :=
  match r with | .rn => .rn | .rz => .rz | .ru => .ru | .rd => .rd | .dyn => acRM ac | .rs => .rn

/-- The pattern of an integer in a format, exact for the values of an 8-bit immediate (R88). -/
def Fmt.ofInt (f : Fmt) (i : Int) : Nat := (f.roundZ .rn false (i < 0) i.natAbs 0 false).bits

/-- An FP32 pattern converted exactly to FP64 (R88). -/
def f32to64 (x : Nat) : Nat :=
  match fp32.value x with
  | .nan _ => b2n (bitAt x 31) * 2 ^ 63 + 0x7FF * 2 ^ 52 + bitsAt x 0 23 * 2 ^ 29
  | v => (fp64.ofV .rn false v).bits

/-- A float immediate (R88): an 8-bit signed integer converted, or the pattern of the immediate word. -/
def immFlt (f : Fmt) (word : Bool) (v : Nat) : Nat :=
  if word then (if f.eb = 11 then f32to64 v else v % 2 ^ f.width) else f.ofInt (signedOf 8 v)

/-- An immediate of a packed row: both halves in the word, or the 8-bit value in each half (R148). -/
def immPacked (f : Fmt) (word : Bool) (v : Nat) : Nat :=
  if word then v else let x := f.ofInt (signedOf 8 v); x + x * 2 ^ 16

/-- DZI: a subnormal FP32 or BF16 operand is read as zero of its sign (R113). -/
def Fmt.daz (f : Fmt) (dzi : Bool) (x : Nat) : Nat :=
  if dzi && f.flushes && bitsAt x f.mb f.eb = 0 then f.zero (bitAt x (f.eb + f.mb)) else x

/-- The source modifiers: absolute value, then negation (R147). -/
def Fmt.mods (f : Fmt) (aa ng : Bool) (x : Nat) : Nat :=
  let x := if aa then x % 2 ^ (f.eb + f.mb) else x
  if ng then x ^^^ 2 ^ (f.eb + f.mb) else x

/-- A prepared source of a float row (R147). -/
def State.srcFlt (s : State) (c : Ctx) (l : Nat) (o : Owner) (f : FltFn) : Nat :=
  let m := ftFmt f.ft
  let x := s.operand c l o (if f.ft = .f64 then 2 else 1) (immFlt m) % 2 ^ m.width
  let x := m.daz (acDZI (s.acOf c.uid)) x
  match o with
  | .a => m.mods f.aa f.na x
  | .b => m.mods false f.nb x
  | .c => m.mods false f.nc x
  | .d => x

/-- A half of a packed source, prepared. -/
def State.srcHalf (s : State) (c : Ctx) (l : Nat) (o : Owner) (f : FltFn) (hi : Bool) : Nat :=
  let m := ftFmt f.ft
  let x := bitsAt (s.operand c l o 1 (immPacked m)) (if hi then 16 else 0) 16
  let x := m.daz (acDZI (s.acOf c.uid)) x
  match o with
  | .a => m.mods f.aa f.na x
  | .b => m.mods false f.nb x
  | .c => m.mods false f.nc x
  | .d => x

/-- The result of a float row: SAT, then the registers of R140. -/
def fltRes (f : FltFn) (r : FRes) : Res :=
  let m := ftFmt f.ft
  let r := if f.sat then m.satRes r else r
  { val := r.bits, n := if f.ft = .f64 then 2 else 1, flags := BitVec.ofNat 7 r.fl }

/-- Runs a float instruction of one result. -/
def runFlt (op : BitVec 8) (h : Hdr) (f : FltFn) (x : BitVec 64) (g : Ctx → State → Nat → FRes) (s : State) : Out :=
  .next (runCompute (enc op h (fltFnBits f) x) (fun c s l => .ok (fltRes f (g c s l))) s)

/-- The rounding direction and FZ of a float row in a wave. -/
def State.fltEnv (s : State) (c : Ctx) (f : FltFn) : RM × Bool := (rndDir f.rnd (s.acOf c.uid), acFZ (s.acOf c.uid))

/-- A row of one source on values. -/
def flt1 (f : FltFn) (g : Fmt → RM → Bool → FV → FRes) (c : Ctx) (s : State) (l : Nat) : FRes :=
  let m := ftFmt f.ft
  let (rm, fz) := s.fltEnv c f
  g m rm fz (m.value (s.srcFlt c l .a f))

/-- A row of two sources on values. -/
def flt2 (f : FltFn) (g : Fmt → RM → Bool → FV → FV → FRes) (c : Ctx) (s : State) (l : Nat) : FRes :=
  let m := ftFmt f.ft
  let (rm, fz) := s.fltEnv c f
  g m rm fz (m.value (s.srcFlt c l .a f)) (m.value (s.srcFlt c l .b f))

/-- A row of three sources on values. -/
def flt3 (f : FltFn) (g : Fmt → RM → Bool → FV → FV → FV → FRes) (c : Ctx) (s : State) (l : Nat) : FRes :=
  let m := ftFmt f.ft
  let (rm, fz) := s.fltEnv c f
  g m rm fz (m.value (s.srcFlt c l .a f)) (m.value (s.srcFlt c l .b f)) (m.value (s.srcFlt c l .c f))

/-- Subtraction: the sign of b inverted. -/
def Fmt.subRes (m : Fmt) (rm : RM) (fz : Bool) (a b : FV) : FRes := m.addV rm fz a b.flip

def execFadd (h : Hdr) (f : FltFn) (x : BitVec 64) (s : State) : Out := runFlt 0x20 h f x (flt2 f Fmt.addV) s
def execFsub (h : Hdr) (f : FltFn) (x : BitVec 64) (s : State) : Out := runFlt 0x21 h f x (flt2 f Fmt.subRes) s
def execFmul (h : Hdr) (f : FltFn) (x : BitVec 64) (s : State) : Out := runFlt 0x22 h f x (flt2 f Fmt.mulRes) s
def execFfma (h : Hdr) (f : FltFn) (x : BitVec 64) (s : State) : Out := runFlt 0x23 h f x (flt3 f Fmt.fmaRes) s

/-- FMIN and FMAX; SUB 1 is .nan (R149). -/
def fltMinmax (f : FltFn) (isMax : Bool) (c : Ctx) (s : State) (l : Nat) : FRes :=
  (ftFmt f.ft).minmax (acFZ (s.acOf c.uid)) isMax (f.sub = 1) (s.srcFlt c l .a f) (s.srcFlt c l .b f)

def execFmin (h : Hdr) (f : FltFn) (x : BitVec 64) (s : State) : Out := runFlt 0x24 h f x (fltMinmax f false) s
def execFmax (h : Hdr) (f : FltFn) (x : BitVec 64) (s : State) : Out := runFlt 0x25 h f x (fltMinmax f true) s
def execFdiv (h : Hdr) (f : FltFn) (x : BitVec 64) (s : State) : Out := runFlt 0x26 h f x (flt2 f Fmt.divRes) s
def execFsqrt (h : Hdr) (f : FltFn) (x : BitVec 64) (s : State) : Out := runFlt 0x27 h f x (flt1 f Fmt.sqrtRes) s

/-- An approximate row (R150). -/
def fltApprox (op : Nat) (f : FltFn) (c : Ctx) (s : State) (l : Nat) : FRes :=
  (ftFmt f.ft).approxRes (acFZ (s.acOf c.uid)) op (s.srcFlt c l .a f)

def execFrcp (h : Hdr) (f : FltFn) (x : BitVec 64) (s : State) : Out := runFlt 0x28 h f x (fltApprox 0x28 f) s
def execFrsq (h : Hdr) (f : FltFn) (x : BitVec 64) (s : State) : Out := runFlt 0x29 h f x (fltApprox 0x29 f) s
def execFexp2 (h : Hdr) (f : FltFn) (x : BitVec 64) (s : State) : Out := runFlt 0x2A h f x (fltApprox 0x2A f) s
def execFlog2 (h : Hdr) (f : FltFn) (x : BitVec 64) (s : State) : Out := runFlt 0x2B h f x (fltApprox 0x2B f) s
def execFsin (h : Hdr) (f : FltFn) (x : BitVec 64) (s : State) : Out := runFlt 0x2C h f x (fltApprox 0x2C f) s
def execFcos (h : Hdr) (f : FltFn) (x : BitVec 64) (s : State) : Out := runFlt 0x2D h f x (fltApprox 0x2D f) s
def execFtanh (h : Hdr) (f : FltFn) (x : BitVec 64) (s : State) : Out := runFlt 0x2E h f x (fltApprox 0x2E f) s
def execFsigm (h : Hdr) (f : FltFn) (x : BitVec 64) (s : State) : Out := runFlt 0x2F h f x (fltApprox 0x2F f) s

def execFfrc (h : Hdr) (f : FltFn) (x : BitVec 64) (s : State) : Out := runFlt 0x30 h f x (flt1 f Fmt.frcRes) s
def execFrnd (h : Hdr) (f : FltFn) (x : BitVec 64) (s : State) : Out :=
  runFlt 0x31 h f x (flt1 f (fun m rm _ a => m.rndRes rm a)) s

/-- FLDX: n is B read as signed 32 bits, an 8-bit immediate sign-extended (R148). -/
def fltLdx (f : FltFn) (c : Ctx) (s : State) (l : Nat) : FRes :=
  let m := ftFmt f.ft
  let (rm, fz) := s.fltEnv c f
  let n := s.operand c l .b 1 (fun word v => if word then v else wrapTo 32 (signedOf 8 v))
  m.ldxRes rm fz (m.value (s.srcFlt c l .a f)) (signedOf 32 n)

def execFldx (h : Hdr) (f : FltFn) (x : BitVec 64) (s : State) : Out := runFlt 0x32 h f x (fltLdx f) s

/-- FCLS reads its operand raw and writes one register (R149). -/
def execFcls (h : Hdr) (f : FltFn) (x : BitVec 64) (s : State) : Out :=
  .next (runCompute (enc 0x33 h (fltFnBits f) x) (fun c s l =>
    .ok { val := (ftFmt f.ft).cls (s.operand c l .a (if f.ft = .f64 then 2 else 1) (immFlt (ftFmt f.ft)) % 2 ^ (ftFmt f.ft).width), n := 1 }) s)

/-- A packed row: the halves computed independently, their flags combined (R138, R148). -/
def runHalves (op : BitVec 8) (h : Hdr) (f : FltFn) (x : BitVec 64) (g : Ctx → State → Nat → Bool → FRes) (s : State) : Out :=
  .next (runCompute (enc op h (fltFnBits f) x) (fun c s l =>
    let m := ftFmt f.ft
    let fin := fun (r : FRes) => if f.sat then m.satRes r else r
    let lo := fin (g c s l false)
    let hi := fin (g c s l true)
    .ok { val := lo.bits + hi.bits * 2 ^ 16, n := 1, flags := BitVec.ofNat 7 (lo.fl ||| hi.fl) }) s)

def half2 (f : FltFn) (g : Fmt → RM → Bool → FV → FV → FRes) (c : Ctx) (s : State) (l : Nat) (hi : Bool) : FRes :=
  let m := ftFmt f.ft
  let (rm, fz) := s.fltEnv c f
  g m rm fz (m.value (s.srcHalf c l .a f hi)) (m.value (s.srcHalf c l .b f hi))

def half3 (f : FltFn) (g : Fmt → RM → Bool → FV → FV → FV → FRes) (c : Ctx) (s : State) (l : Nat) (hi : Bool) : FRes :=
  let m := ftFmt f.ft
  let (rm, fz) := s.fltEnv c f
  g m rm fz (m.value (s.srcHalf c l .a f hi)) (m.value (s.srcHalf c l .b f hi)) (m.value (s.srcHalf c l .c f hi))

def execHadd2 (h : Hdr) (f : FltFn) (x : BitVec 64) (s : State) : Out := runHalves 0x34 h f x (half2 f Fmt.addV) s
def execHmul2 (h : Hdr) (f : FltFn) (x : BitVec 64) (s : State) : Out := runHalves 0x35 h f x (half2 f Fmt.mulRes) s
def execHfma2 (h : Hdr) (f : FltFn) (x : BitVec 64) (s : State) : Out := runHalves 0x36 h f x (half3 f Fmt.fmaRes) s

/-- SUB: bit 0 selects max, bit 1 .nan (R148). -/
def execHmnx2 (h : Hdr) (f : FltFn) (x : BitVec 64) (s : State) : Out :=
  runHalves 0x37 h f x (fun c s l hi =>
    (ftFmt f.ft).minmax (acFZ (s.acOf c.uid)) (f.sub.toNat % 2 = 1) (2 ≤ f.sub.toNat) (s.srcHalf c l .a f hi) (s.srcHalf c l .b f hi)) s

def execDadd (h : Hdr) (f : FltFn) (x : BitVec 64) (s : State) : Out := runFlt 0x38 h f x (flt2 f Fmt.addV) s
def execDmul (h : Hdr) (f : FltFn) (x : BitVec 64) (s : State) : Out := runFlt 0x39 h f x (flt2 f Fmt.mulRes) s
def execDfma (h : Hdr) (f : FltFn) (x : BitVec 64) (s : State) : Out := runFlt 0x3A h f x (flt3 f Fmt.fmaRes) s
def execDdiv (h : Hdr) (f : FltFn) (x : BitVec 64) (s : State) : Out := runFlt 0x3B h f x (flt2 f Fmt.divRes) s
def execDsqrt (h : Hdr) (f : FltFn) (x : BitVec 64) (s : State) : Out := runFlt 0x3C h f x (flt1 f Fmt.sqrtRes) s

/-- The FP32 accumulator of FDOT2 and FDOTN, NC applied (R151). -/
def State.dotAcc (s : State) (c : Ctx) (l : Nat) (f : FltFn) : Nat :=
  fp32.mods false f.nc (s.operand c l .c 1 (fun word v => if word then v else fp32.ofInt (signedOf 8 v)))

/-- A result of one alignment group in a lane. -/
def dotRes (r : FRes) : Res := { val := r.bits, n := 1, flags := BitVec.ofNat 7 r.fl }

/-- The products of two registers of halves. -/
def halfProds (a b : Nat) : List Prod :=
  [⟨bitsAt a 0 16, bitsAt b 0 16, false⟩, ⟨bitsAt a 16 16, bitsAt b 16 16, false⟩]

/-- FDOT2. An 8-bit immediate B is converted to BF16 and used in both halves, as R148 says of the packed rows; R151 is silent on it, so that is the model's
choice (log 44). -/
def execFdot2 (h : Hdr) (f : FltFn) (x : BitVec 64) (s : State) : Out :=
  .next (runCompute (enc 0x3D h (fltFnBits f) x) (fun c s l =>
    .ok (dotRes (dotGroup (acAW (s.acOf c.uid)) (s.dotAcc c l f)
      (halfProds (s.operand c l .a 1 (immPacked bf16)) (s.operand c l .b 1 (immPacked bf16)))))) s)

def execFdotn (h : Hdr) (f : FltFn) (x : BitVec 64) (s : State) : Out :=
  .next (runCompute (enc 0x3E h (fltFnBits f) x) (fun c s l =>
    let n := 2 ^ (f.sub.toNat + 1)
    .ok (dotRes (dotGroup (acAW (s.acOf c.uid)) (s.dotAcc c l f)
      ((List.range n).flatMap (fun i => halfProds (s.readV c.uid l (h.a.toNat + i)).toNat (s.readV c.uid l (h.b.toNat + i)).toNat))))) s)

/-- FMED3 (R148): max.num(min.num(a, b), min.num(max.num(a, b), c)); the flush of R113 is of its result alone. -/
def fltMed3 (f : FltFn) (c : Ctx) (s : State) (l : Nat) : FRes :=
  let m := ftFmt f.ft
  let fz := acFZ (s.acOf c.uid)
  let a := s.srcFlt c l .a f
  let b := s.srcFlt c l .b f
  let lo := m.minmax false false false a b
  let hi := m.minmax false true false a b
  let mid := m.minmax false false false hi.bits (s.srcFlt c l .c f)
  (m.minmax fz true false lo.bits mid.bits).or (lo.fl ||| hi.fl ||| mid.fl)

def execFmed3 (h : Hdr) (f : FltFn) (x : BitVec 64) (s : State) : Out := runFlt 0x3F h f x (fltMed3 f) s

end Sys2Proof.Machine
end

