-- ==== Sys2Proof/Machine/Narrow.lean ====
section
/-!
DEFINITION. The narrow family (R115 to R120), block scales and the canonical element (R121 to R125), and stochastic rounding (R128).
-/

namespace Sys2Proof.Machine

/-- A format descriptor (R115). -/
structure Desc where
  w : Nat
  e : Nat
  b : Int
  kind : Nat
  deriving DecidableEq, Repr, Inhabited

/-- The descriptor of a word, if it is valid (R116). -/
def descOf (x : Nat) : Option Desc :=
  let w := bitsAt x 0 4
  let e := bitsAt x 4 4
  let k := bitsAt x 16 2
  if 4 ≤ w && w ≤ 8 && bitsAt x 18 14 = 0 &&
     (match k with
      | 0 => 2 ≤ e && e + 1 ≤ w
      | 1 => 1 ≤ e && e + 1 ≤ w
      | 2 => e + 1 ≤ w
      | _ => e ≤ w) then
    some ⟨w, e, signedOf 8 (bitsAt x 8 8), k⟩
  else none

/-- Fraction bits (R118). -/
def Desc.m (d : Desc) : Nat := if d.kind = 3 then d.w - d.e else d.w - 1 - d.e

/-- narrow_value of R118. -/
def Desc.value (d : Desc) (p : Nat) : FV :=
  let p := p % 2 ^ d.w
  let neg := d.kind ≠ 3 && bitAt p (d.w - 1)
  let mag := if d.kind = 3 then p else p % 2 ^ (d.w - 1)
  if d.e = 0 then
    if d.kind = 3 then .fin false mag d.b
    else let i := signedOf d.w p; .fin (i < 0) i.natAbs d.b
  else
    let ef := mag / 2 ^ d.m
    let f := mag % 2 ^ d.m
    if d.kind = 0 && ef = 2 ^ d.e - 1 then (if f = 0 then .inf neg else .nan false)
    else if d.kind = 1 && mag = 2 ^ (d.e + d.m) - 1 then .nan false
    else if ef = 0 && !(d.kind = 3 && d.m = 0) then .fin neg f (1 - d.b - d.m)
    else .fin neg (2 ^ d.m + f) ((ef : Int) - d.b - d.m)

/-- The exponent of the smallest normal value, or the step 2^b for e = 0. -/
def Desc.emin (d : Desc) : Int :=
  if d.e = 0 then d.b else if d.kind = 3 && d.m = 0 then -d.b else 1 - d.b

/-- The magnitude pattern of the largest finite value of a sign (R118, R120). -/
def Desc.largest (d : Desc) (neg : Bool) : Nat :=
  if d.e = 0 then (if d.kind = 3 then 2 ^ d.w - 1 else if neg then 2 ^ (d.w - 1) else 2 ^ (d.w - 1) - 1)
  else match d.kind with
    | 0 => (2 ^ d.e - 2) * 2 ^ d.m + (2 ^ d.m - 1)
    | 1 => 2 ^ (d.e + d.m) - 2
    | 2 => 2 ^ (d.e + d.m) - 1
    | _ => 2 ^ d.w - 1

/-- The pattern of a sign and a magnitude pattern. -/
def Desc.signed (d : Desc) (neg : Bool) (mag : Nat) : Nat :=
  if d.e = 0 then (if neg then (2 ^ d.w - mag) % 2 ^ d.w else mag)
  else if d.kind = 3 then mag else mag + b2n neg * 2 ^ (d.w - 1)

/-- The NaN that a conversion delivers: sign 0, all other bits 1 (R120). -/
def Desc.nanPat (d : Desc) : Nat := 2 ^ (d.w - 1) - 1

/-- The magnitude pattern of q 2^lsb, not above the largest. -/
def Desc.pack (d : Desc) (q : Nat) (lsb : Int) : Nat :=
  if d.e = 0 then q
  else if q = 0 then 0
  else
    let k := log2 q
    let ex := (k : Int) + lsb
    if ex < d.emin then q
    else
      let frac := if k ≤ d.m then q * 2 ^ (d.m - k) else q / 2 ^ (k - d.m)
      let ef := if d.kind = 3 && d.m = 0 then ex + d.b else ex - (1 - d.b) + 1
      ef.toNat * 2 ^ d.m + (frac - 2 ^ d.m)

/-- How a conversion rounds: in a direction, or stochastically with the generator's output (R128). -/
inductive Rounding
  | dir (rm : RM)
  | sr (r : Nat)
  deriving DecidableEq, Repr, Inhabited

/-- Rounds a magnitude to a multiple of 2^lsb (R114, R128). -/
def quantizeBy (rd : Rounding) (neg : Bool) (m : Nat) (e lsb : Int) : Nat × Bool :=
  match rd with
  | .dir rm => quantize rm neg m e false lsb
  | .sr r =>
    if lsb ≤ e then (m * 2 ^ (e - lsb).toNat, false)
    else
      let sh := (lsb - e).toNat
      let q := m / 2 ^ sh
      let f := m % 2 ^ sh
      (if 2 ^ 32 * 2 ^ sh ≤ f * 2 ^ 32 + r * 2 ^ sh then q + 1 else q, f ≠ 0)

/-- Conversion into a narrow format (R120), the rows in order. How tininess is judged under .rs the spec leaves open; the model's choice is that the rounding with an
unbounded exponent uses the same output of the generator (log 42). -/
def Desc.ofV (d : Desc) (rd : Rounding) (sat : Bool) (v : FV) : FRes :=
  match v with
  | .nan sig =>
    if d.kind ≥ 2 then ⟨0, flIV⟩ else ⟨d.nanPat, if sig then flIV else 0⟩
  | .inf n =>
    match d.kind with
    | 0 => if sat then ⟨d.signed n (d.largest n), 0⟩ else ⟨d.signed n ((2 ^ d.e - 1) * 2 ^ d.m), 0⟩
    | 1 => if sat then ⟨d.signed n (d.largest n), 0⟩ else ⟨d.nanPat, 0⟩
    | 2 => ⟨d.signed n (d.largest n), flIV⟩
    | _ => ⟨if n then 0 else d.largest false, flIV⟩
  | .fin n m e =>
    if m = 0 then ⟨if d.e = 0 || d.kind = 3 then 0 else d.signed n 0, 0⟩
    else if d.kind = 3 && n then ⟨0, flIV⟩
    else
      let lsbU := expOf m e - d.m
      let noSub := d.kind = 3 && d.m = 0 && d.e ≠ 0
      let lsb := if d.e = 0 then d.b else if noSub then lsbU else max lsbU (d.emin - d.m)
      let q := quantizeBy rd n m e lsb
      let u := quantizeBy rd n m e lsbU
      let top := d.largest n
      let topV := d.value (d.signed n top)
      let above := 0 < cmpV (.fin false q.1 lsb) topV.abs
      if above then
        let toInf := match rd with
          | .sr _ => true
          | .dir .rn => true | .dir .rz => false | .dir .ru => !n | .dir .rd => n
        let fl := flOF ||| flNX
        match d.kind with
        | 0 => if sat || !toInf then ⟨d.signed n top, fl⟩ else ⟨d.signed n ((2 ^ d.e - 1) * 2 ^ d.m), fl⟩
        | 1 => if sat || !toInf then ⟨d.signed n top, fl⟩ else ⟨d.nanPat, fl⟩
        | _ => ⟨d.signed n top, fl⟩
      else if noSub && expOf q.1 lsb < d.emin then ⟨0, flUF ||| flNX⟩
      else
        let tiny := if d.e = 0 then q.1 = 0 else u.1 = 0 || expOf u.1 lsbU < d.emin
        ⟨d.signed n (d.pack q.1 lsb), (if q.2 then flNX else 0) ||| (if q.2 && tiny then flUF else 0)⟩

/-- A narrow pattern rounded once to a standard format (R154). -/
def Desc.toFmt (d : Desc) (f : Fmt) (rm : RM) (fz : Bool) (p : Nat) : FRes := f.ofV rm fz (d.value p)

/-- Expansion of an element to CE16 with block scale X and factor F (R124). -/
def expandV (p : FV) (x : Nat) (F : Nat) : FRes :=
  let fv := fp32.value F
  if p.isNan || x = 0xFF || fv.isNan then ⟨0x7FC0, if p.isSig || fv.isSig then flIV else 0⟩
  else
    let (v, iv) := mulV p fv
    if iv then ⟨0x7FC0, flIV⟩
    else match v with
      | .nan _ => ⟨0x7FC0, 0⟩
      | .inf n => ⟨bf16.inf n, 0⟩
      | .fin n m e =>
        if m = 0 then ⟨bf16.zero n, 0⟩
        else
          let e := e + (x : Int) - 127
          if 0 < cmpV (.fin false m e) (bf16.value 0x7F7F) then ⟨bf16.maxFin n, flRG ||| flNX⟩
          else
            let r := bf16.round .rn false n m e false
            if r.fl &&& flNX = 0 then ⟨r.bits, 0⟩
            else if expOf m e < bf16.emin then ⟨r.bits, flRG ||| flNX ||| flUF⟩
            else ⟨r.bits, flNX⟩

/-- The generator step of R128. -/
def srStep (x : Word) : Word :=
  let x := x ^^^ (x <<< 13)
  let x := x ^^^ (x >>> 17)
  x ^^^ (x <<< 5)

/-- A seed as it is stored (R127). -/
def srSeed (a : Word) : Word := if a = 0 then 0x9E3779B9 else a

end Sys2Proof.Machine
end

