-- ==== Sys2Proof/Machine/Convert.lean ====
section
/-!
DEFINITION. Conversion, narrow packing, format and flag access, 0x40 to 0x49 (R152 to R157).
-/

namespace Sys2Proof.Machine

/-- The float format of a type code; .ce16 is encoded as BF16 (R123). -/
def tyFmt (t : Ty) : Option Fmt :=
  match t with
  | .f32 => some fp32 | .f16 => some fp16 | .bf16 | .ce16 => some bf16 | .f64 => some fp64 | _ => none

/-- Float to integer (R153). -/
def fltToInt (t : Ty) (rm : RM) (v : FV) : FRes :=
  match v with
  | .nan _ => ⟨0, flIV⟩
  | .inf n => ⟨wrapTo (tyWidth t) (if n then tyMin t else tyMax t), flIV⟩
  | .fin n m e =>
    let q := quantize rm n m e false 0
    let i : Int := if n then -(q.1 : Int) else q.1
    if clamped t i then ⟨wrapTo (tyWidth t) (clampInt (tyMin t) (tyMax t) i), flIV⟩
    else ⟨wrapTo (tyWidth t) i, if q.2 then flNX else 0⟩

/-- An integer result narrower than 32 bits is extended to 32 (R153). -/
def intOut (t : Ty) (x : Nat) : Nat :=
  if tyWidth t < 32 then (if tySigned t then wrapTo 32 (signedOf (tyWidth t) x) else x) else x

/-- CVT of a source pattern (R153). `dzi`, `fz` govern FP32 and BF16, not CE16 (R113). -/
def cvtOf (st dt : Ty) (sat : Bool) (rm : RM) (dzi fz : Bool) (x : Nat) : FRes :=
  let bits := fun t => match t with | Ty.b32 | Ty.b64 => true | _ => false
  if bits st || bits dt then ⟨intOut dt (x % 2 ^ tyWidth st % 2 ^ tyWidth dt), 0⟩
  else
    match tyFmt st, tyFmt dt with
    | some f, some g =>
      g.ofV rm (fz && dt ≠ .ce16) (f.value (f.daz (dzi && st ≠ .ce16) (x % 2 ^ f.width)))
    | some f, none =>
      let r := fltToInt dt rm (f.value (f.daz (dzi && st ≠ .ce16) (x % 2 ^ f.width)))
      ⟨intOut dt r.bits, r.fl⟩
    | none, some g =>
      let i := tyInt st x
      g.roundZ rm (fz && dt ≠ .ce16) (i < 0) i.natAbs 0 false
    | none, none => ⟨intOut dt (narrowInt dt sat (tyInt st x)), 0⟩

/-- The source of CVT: registers of the source's width, or an immediate under R88. -/
def State.srcCvt (s : State) (c : Ctx) (l : Nat) (o : Owner) (t : Ty) : Nat :=
  s.operand c l o (tyRegs t) (fun word v => match tyFmt t with | some f => immFlt f word v | none => immInt t word v)

def execCvt (h : Hdr) (f : CvtFn) (x : BitVec 64) (s : State) : Out :=
  .next (runCompute (enc 0x40 h (cvtFnBits f) x) (fun c s l =>
    let ac := s.acOf c.uid
    let r := cvtOf f.st f.dt f.sat (rndDir f.rnd ac) (acDZI ac) (acFZ ac) (s.srcCvt c l .a f.st)
    .ok { val := r.bits, n := tyRegs f.dt, flags := BitVec.ofNat 7 r.fl }) s)

/-- The narrow format held in n register `i`, if it is valid (R116). -/
def State.descReg (s : State) (uid i : Nat) : Option Desc := (s.wave? uid).bind (fun w => descOf (Sparse.get 0 w.n i).toNat)

/-- A prepared FP32, FP16 or BF16 source of a narrow conversion. -/
def narrowSrc (t : Ty) (dzi : Bool) (x : Nat) : FV :=
  let f := (tyFmt t).getD fp32
  f.value (f.daz dzi (x % 2 ^ f.width))

/-- CVTN (R154): one element j, into or out of the narrow type; stochastic rounding steps the lane's generator. -/
def cvtnLane (f : CvtFn) (c : Ctx) (s : State) (l : Nat) : State × LaneRes :=
  let j := s.srcCount c l .b
  let ac := s.acOf c.uid
  match s.descReg c.uid c.e.h.c.toNat with
  | none => (s, .fault illegal7)
  | some d =>
    if 32 < (j + 1) * d.w || (f.rnd = .rs && !s.granted 3) then (s, .fault illegal7)
    else if f.dt = .nar then
      let x := srStep (s.thread c.uid l).gen
      let s' := if f.rnd = .rs then s.updThread c.uid l (fun t => { t with gen := x }) else s
      let rd := if f.rnd = .rs then Rounding.sr x.toNat else .dir (rndDir f.rnd ac)
      let r := d.ofV rd f.sat (narrowSrc f.st (acDZI ac) (s.operand c l .a 1 (fun _ v => v)))
      let old := (s.readV c.uid l c.e.h.d.toNat).toNat
      let val := bfiOf 32 r.bits (j * d.w + d.w * 256) old
      (s', .ok { regs := regWrites l .v c.e.h.d.toNat 1 val, flags := BitVec.ofNat 7 r.fl })
    else
      let p := bitsAt (s.operand c l .a 1 (fun _ v => v)) (j * d.w) d.w
      let r := d.toFmt ((tyFmt f.dt).getD fp32) (rndDir f.rnd ac) (acFZ ac) p
      (s, .ok { regs := regWrites l .v c.e.h.d.toNat 1 r.bits, flags := BitVec.ofNat 7 r.fl })

def execCvtn (h : Hdr) (f : CvtFn) (x : BitVec 64) (s : State) : Out :=
  .next (runPacket (enc 0x41 h (cvtFnBits f) x) (laneWise (cvtnLane f)) s)

/-- CVTW (R155): two values packed into one register, or two halves unpacked into a pair of consecutive registers. -/
def cvtwRes (f : CvtFn) (c : Ctx) (s : State) (l : Nat) : Res :=
  let ac := s.acOf c.uid
  let rm := rndDir f.rnd ac
  let a := s.operand c l .a 1 (fun _ v => v)
  let conv := fun (x : Nat) => cvtOf f.st f.dt f.sat rm (acDZI ac) (acFZ ac) x
  if tyWidth f.st = 32 then
    let lo := conv a
    let hi := conv (s.operand c l .b 1 (fun _ v => v))
    { val := lo.bits % 2 ^ 16 + hi.bits % 2 ^ 16 * 2 ^ 16, n := 1, flags := BitVec.ofNat 7 (lo.fl ||| hi.fl) }
  else
    let lo := conv (bitsAt a 0 16)
    let hi := conv (bitsAt a 16 16)
    { val := lo.bits + hi.bits * 2 ^ 32, n := 2, per := [BitVec.ofNat 7 lo.fl, BitVec.ofNat 7 hi.fl] }

def execCvtw (h : Hdr) (f : CvtFn) (x : BitVec 64) (s : State) : Out :=
  .next (runCompute (enc 0x42 h (cvtFnBits f) x) (fun c s l => .ok (cvtwRes f c s l)) s)

/-- NPACK (R156): k = ⌊32 / w⌋ registers from A are packed into D; the range is checked against V at execution (R52). -/
def npackRes (f : CvtFn) (c : Ctx) (s : State) (l : Nat) : Except LFault Res :=
  match s.descReg c.uid c.e.h.c.toNat, s.wave? c.uid with
  | some d, some w =>
    let k := 32 / d.w
    let ac := s.acOf c.uid
    if w.V < c.e.h.a.toNat + k then .error (illegal 5)
    else
      let rs := (List.range k).map (fun j =>
        d.ofV (.dir (rndDir f.rnd ac)) f.sat (narrowSrc .f32 (acDZI ac) (s.readV c.uid l (c.e.h.a.toNat + j)).toNat))
      .ok { val := rs.foldr (fun r acc => r.bits + 2 ^ d.w * acc) 0, n := 1,
            flags := BitVec.ofNat 7 (rs.foldl (fun x r => x ||| r.fl) 0) }
  | _, _ => .error illegal7

def execNpack (h : Hdr) (f : CvtFn) (x : BitVec 64) (s : State) : Out :=
  .next (runCompute (enc 0x43 h (cvtFnBits f) x) (npackRes f) s)

/-- NUNPK (R156): to FP32, or to BF16 by expansion with X = 127 and F = 1.0. -/
def nunpkRes (f : CvtFn) (c : Ctx) (s : State) (l : Nat) : Except LFault Res :=
  match s.descReg c.uid c.e.h.c.toNat, s.wave? c.uid with
  | some d, some w =>
    let k := 32 / d.w
    let ac := s.acOf c.uid
    if w.V < c.e.h.d.toNat + k then .error (illegal 5)
    else
      let a := s.operand c l .a 1 (fun _ v => v)
      let rs := (List.range k).map (fun j =>
        let p := bitsAt a (j * d.w) d.w
        if f.dt = .f32 then d.toFmt fp32 .rn (acFZ ac) p else expandV (d.value p) 127 0x3F800000)
      .ok { val := rs.foldr (fun r acc => r.bits + 2 ^ 32 * acc) 0, n := k, per := rs.map (fun r => BitVec.ofNat 7 r.fl) }
  | _, _ => .error illegal7

def execNunpk (h : Hdr) (f : CvtFn) (x : BitVec 64) (s : State) : Out :=
  .next (runCompute (enc 0x44 h (cvtFnBits f) x) (nunpkRes f) s)

/-- FMTLD (R157): an invalid word raises ILLEGAL and leaves the register unchanged. -/
def execFmtld (h : Hdr) (f : CvtFn) (x : BitVec 64) (s : State) : Out :=
  .next (runPacket (enc 0x45 h (cvtFnBits f) x) (uniWise (fun c s l =>
    let a := s.operand c l .a 1 (fun _ v => v)
    match descOf a with
    | none => (s, .error illegal7)
    | some _ => (s.updWave c.uid (fun w => { w with n := Sparse.put 0 w.n h.d.toNat (BitVec.ofNat 32 a) }), .ok {}))) s)

def execFmtst (h : Hdr) (f : CvtFn) (x : BitVec 64) (s : State) : Out :=
  .next (runCompute (enc 0x46 h (cvtFnBits f) x) (fun c s _ =>
    .ok { val := (match s.wave? c.uid with | some w => (Sparse.get 0 w.n h.a.toNat).toNat | none => 0), n := 1 }) s)

/-- SRSEED writes the generator state at once (R127, R157). Its row gives no type, and an 8-bit immediate is zero-extended: the model's choice (log 93). -/
def execSrseed (h : Hdr) (f : CvtFn) (x : BitVec 64) (s : State) : Out :=
  .next (runPacket (enc 0x47 h (cvtFnBits f) x) (laneWise (fun c s l =>
    let a := BitVec.ofNat 32 (s.operand c l .a 1 (fun _ v => v))
    (s.updThread c.uid l (fun t => { t with gen := srSeed a }), .ok {}))) s)

def execFlgrd (h : Hdr) (f : CvtFn) (x : BitVec 64) (s : State) : Out :=
  .next (runCompute (enc 0x48 h (cvtFnBits f) x) (fun c s l => .ok { val := (s.thread c.uid l).fl.toNat, n := 1 }) s)

def execFlgcl (h : Hdr) (f : CvtFn) (x : BitVec 64) (s : State) : Out :=
  .next (runPacket (enc 0x49 h (cvtFnBits f) x) (laneWise (fun c s l =>
    let b := BitVec.ofNat 7 (s.operand c l .b 1 (fun _ v => v))
    (s.updThread c.uid l (fun t => { t with fl := t.fl &&& ~~~b }), .ok {}))) s)

end Sys2Proof.Machine
end

