-- ==== Sys2Proof/Machine/Compare.lean ====
section
/-!
DEFINITION. Compare and select, moves and special registers, 0x50 to 0x55 and 0x5E (R158 to R162).
-/

namespace Sys2Proof.Machine

/-- The relation of a comparison code, given the order of the operands, or `none` where one is NaN (R94). -/
def cmpHolds (c : Cmp) (o : Option Int) : Bool :=
  match o with
  | none => (match c with | .nan | .equ | .neu | .ltu | .leu | .gtu | .geu => true | _ => false)
  | some x =>
    match c with
    | .eq | .equ => x = 0
    | .ne | .neu => x ≠ 0
    | .lt | .ltu => x < 0
    | .le | .leu => x ≤ 0
    | .gt | .gtu => 0 < x
    | .ge | .geu => 0 ≤ x
    | .num => true
    | .nan => false

/-- BOP with the predicate of C (R94). -/
def bopVal (b : Bop) (r p : Bool) : Bool :=
  match b with | .none => r | .and => r && p | .or => r || p | .xor => r != p

/-- The order of two float patterns, and IV under R159. -/
def fltOrder (m : Fmt) (c : Cmp) (x y : Nat) : Option Int × Nat :=
  let a := m.value x
  let b := m.value y
  let ordered := match c with | .lt | .le | .gt | .ge => true | _ => false
  let iv := a.isSig || b.isSig || (ordered && (a.isNan || b.isNan))
  (if a.isNan || b.isNan then none else some (cmpV a b), if iv then flIV else 0)

/-- A source of a comparison or selection, in its type; DZI for floats. -/
def State.srcCmp (s : State) (c : Ctx) (l : Nat) (o : Owner) (t : Ty) (daz : Bool) : Nat :=
  match tyFmt t with
  | some f =>
    let x := s.operand c l o (tyRegs t) (immFlt f) % 2 ^ f.width
    if daz then f.daz (acDZI (s.acOf c.uid)) x else x
  | none => s.srcInt c l o t

/-- The comparison of two sources of a type. -/
def cmpSrc (t : Ty) (cc : Cmp) (x y : Nat) : Bool × Nat :=
  match tyFmt t with
  | some f => let r := fltOrder f cc x y; (cmpHolds cc r.1, r.2)
  | none => (cmpHolds cc (some (tyInt t x - tyInt t y).sign), 0)

/-- ISETP and FSETP: pD := (a CMP b) BOP pC. -/
def setpRes (f : CmpFn) (c : Ctx) (s : State) (l : Nat) : Res :=
  let r := cmpSrc f.ty f.cmp (s.srcCmp c l .a f.ty true) (s.srcCmp c l .b f.ty true)
  { preds := [(c.e.h.d.toNat, bopVal f.bop r.1 ((s.thread c.uid l).pred c.e.h.c.toNat))], flags := BitVec.ofNat 7 r.2 }

def runCmp (op : BitVec 8) (h : Hdr) (f : CmpFn) (x : BitVec 64) (g : Ctx → State → Nat → Res) (s : State) : Out :=
  .next (runCompute (enc op h (cmpFnBits f) x) (fun c s l => .ok (g c s l)) s)

def execIsetp (h : Hdr) (f : CmpFn) (x : BitVec 64) (s : State) : Out := runCmp 0x50 h f x (setpRes f) s
def execFsetp (h : Hdr) (f : CmpFn) (x : BitVec 64) (s : State) : Out := runCmp 0x51 h f x (setpRes f) s

/-- PSETP: the CMP field holds 0 .and, 1 .or, 2 .xor. -/
def psetpRes (f : CmpFn) (c : Ctx) (s : State) (l : Nat) : Res :=
  let t := s.thread c.uid l
  let a := t.pred c.e.h.a.toNat
  let b := t.pred c.e.h.b.toNat
  let r := match f.cmp with | .eq => a && b | .ne => a || b | _ => a != b
  { preds := [(c.e.h.d.toNat, bopVal f.bop r (t.pred c.e.h.c.toNat))] }

def execPsetp (h : Hdr) (f : CmpFn) (x : BitVec 64) (s : State) : Out := runCmp 0x52 h f x (psetpRes f) s

/-- SEL: d := (c CMP zero) ? a : b, the chosen bits unchanged. -/
def selRes (f : CmpFn) (c : Ctx) (s : State) (l : Nat) : Res :=
  let r := cmpSrc f.ty f.cmp (s.srcCmp c l .c f.ty true) 0
  { val := s.srcCmp c l (if r.1 then .a else .b) f.ty false, n := tyRegs f.ty, flags := BitVec.ofNat 7 r.2 }

def execSel (h : Hdr) (f : CmpFn) (x : BitVec 64) (s : State) : Out := runCmp 0x53 h f x (selRes f) s

def execMov (h : Hdr) (f : LaneFn) (x : BitVec 64) (s : State) : Out :=
  .next (runCompute (enc 0x54 h (laneFnBits f) x) (fun c s l => .ok { val := s.srcInt c l .a f.ty, n := tyRegs f.ty }) s)

/-- MOVS: ac := s[A], reserved bits ignored, at once (R161). -/
def execMovs (h : Hdr) (f : LaneFn) (x : BitVec 64) (s : State) : Out :=
  .next (runPacket (enc 0x55 h (laneFnBits f) x) (uniWise (fun c s l =>
    let a := s.operand c l .a 1 (fun _ v => v)
    (s.updWave c.uid (fun w => { w with ac := BitVec.ofNat 32 (a % 2 ^ 7) }), .ok {}))) s)

/-- A special register (R61). PARTNO of a wave of the root region, which R411 gives no partition, reads 0: the spec is silent, and that is the model's choice
(log 45). -/
def special (s : State) (w : Wave) (lane i : Nat) : Nat :=
  match i with
  | 0x00 => lane
  | 0x01 => w.slot
  | 0x02 => w.quad
  | 0x03 => w.core
  | 0x04 => w.cl
  | 0x05 => w.wg.1
  | 0x06 => w.wg.2.1
  | 0x07 => w.wg.2.2
  | 0x08 => w.widx
  | 0x09 => w.gangwg
  | 0x0A => w.grid.1
  | 0x0B => w.grid.2.1
  | 0x0C => w.grid.2.2
  | 0x0D => w.lid
  | 0x0E => (match s.region? w.rid with | some r => r.part.getD 0 | none => 0)
  | 0x0F => (match s.region? w.rid with | some r => if r.ssm then r.stepno else 0 | none => 0)
  | 0x10 => s.clk % 2 ^ 32
  | 0x11 => s.clk / 2 ^ 32 % 2 ^ 32
  | 0x12 => w.ac.toNat
  | _ => (w.thread lane).fl.toNat

def execGetsr (h : Hdr) (f : LaneFn) (x : BitVec 64) (s : State) : Out :=
  .next (runCompute (enc 0x5E h (laneFnBits f) x) (fun c s l =>
    .ok { val := (match s.wave? c.uid with | some w => special s w l h.a.toNat | none => 0), n := 1 }) s)

end Sys2Proof.Machine
end

