-- ==== Sys2Proof/WellFormed.lean ====
section
/-!
DEFINITION. The well-formed instructions: those whose fields pass checks 1 to 4 of R101. Checks 5 and 6 depend on the
wave that executes the instruction.
-/

namespace Sys2Proof

/-- A well-formed instruction. -/
abbrev WellFormed (i : Instr) : Prop := Machine.wellFormed i = true

end Sys2Proof
end

