-- ==== Sys2Proof/Decode.lean ====
section
/-!
DEFINITION. The decoder: bytes to an instruction, or the check of R81 and R101 that refuses them; and the encoder, the words of
an instruction, from the same encoding tables. Both go through the field form Enc.
-/

namespace Sys2Proof

open Sys2Proof.Machine

/-- The instruction of a field form: its opcode picks the constructor, its group the FN layout; RCBOP, TLBOP, SVCALL and WTBL
take one constructor for each SUB. -/
def instrOf (e : Enc) : Option Instr :=
  match e.op.toNat / 16, e.op.toNat % 16 with
  | 0, 0 => (intFnOf e.fn).map (fun f => .iadd e.h f e.x)
  | 0, 1 => (intFnOf e.fn).map (fun f => .isub e.h f e.x)
  | 0, 2 => (intFnOf e.fn).map (fun f => .imul e.h f e.x)
  | 0, 3 => (intFnOf e.fn).map (fun f => .imulh e.h f e.x)
  | 0, 4 => (intFnOf e.fn).map (fun f => .imad e.h f e.x)
  | 0, 5 => (intFnOf e.fn).map (fun f => .idiv e.h f e.x)
  | 0, 6 => (intFnOf e.fn).map (fun f => .irem e.h f e.x)
  | 0, 7 => (intFnOf e.fn).map (fun f => .imin e.h f e.x)
  | 0, 8 => (intFnOf e.fn).map (fun f => .imax e.h f e.x)
  | 0, 9 => (intFnOf e.fn).map (fun f => .iabs e.h f e.x)
  | 0, 10 => (intFnOf e.fn).map (fun f => .ineg e.h f e.x)
  | 0, 11 => (intFnOf e.fn).map (fun f => .and e.h f e.x)
  | 0, 12 => (intFnOf e.fn).map (fun f => .or e.h f e.x)
  | 0, 13 => (intFnOf e.fn).map (fun f => .xor e.h f e.x)
  | 0, 14 => (intFnOf e.fn).map (fun f => .not e.h f e.x)
  | 0, 15 => (lutFnOf e.fn).map (fun f => .lop3 e.h f e.x)
  | 1, 0 => (intFnOf e.fn).map (fun f => .shl e.h f e.x)
  | 1, 1 => (intFnOf e.fn).map (fun f => .shr e.h f e.x)
  | 1, 2 => (intFnOf e.fn).map (fun f => .rot e.h f e.x)
  | 1, 3 => (intFnOf e.fn).map (fun f => .fshf e.h f e.x)
  | 1, 4 => (intFnOf e.fn).map (fun f => .bfx e.h f e.x)
  | 1, 5 => (intFnOf e.fn).map (fun f => .bfi e.h f e.x)
  | 1, 6 => (intFnOf e.fn).map (fun f => .popc e.h f e.x)
  | 1, 7 => (intFnOf e.fn).map (fun f => .clz e.h f e.x)
  | 1, 8 => (intFnOf e.fn).map (fun f => .ctz e.h f e.x)
  | 1, 9 => (intFnOf e.fn).map (fun f => .brev e.h f e.x)
  | 1, 10 => (intFnOf e.fn).map (fun f => .prmt e.h f e.x)
  | 1, 11 => (intFnOf e.fn).map (fun f => .lea e.h f e.x)
  | 1, 12 => (intFnOf e.fn).map (fun f => .iaddc e.h f e.x)
  | 1, 13 => (intFnOf e.fn).map (fun f => .isad e.h f e.x)
  | 1, 14 => (intFnOf e.fn).map (fun f => .idp4 e.h f e.x)
  | 1, 15 => (intFnOf e.fn).map (fun f => .movi e.h f e.x)
  | 2, 0 => (fltFnOf e.fn).map (fun f => .fadd e.h f e.x)
  | 2, 1 => (fltFnOf e.fn).map (fun f => .fsub e.h f e.x)
  | 2, 2 => (fltFnOf e.fn).map (fun f => .fmul e.h f e.x)
  | 2, 3 => (fltFnOf e.fn).map (fun f => .ffma e.h f e.x)
  | 2, 4 => (fltFnOf e.fn).map (fun f => .fmin e.h f e.x)
  | 2, 5 => (fltFnOf e.fn).map (fun f => .fmax e.h f e.x)
  | 2, 6 => (fltFnOf e.fn).map (fun f => .fdiv e.h f e.x)
  | 2, 7 => (fltFnOf e.fn).map (fun f => .fsqrt e.h f e.x)
  | 2, 8 => (fltFnOf e.fn).map (fun f => .frcp e.h f e.x)
  | 2, 9 => (fltFnOf e.fn).map (fun f => .frsq e.h f e.x)
  | 2, 10 => (fltFnOf e.fn).map (fun f => .fexp2 e.h f e.x)
  | 2, 11 => (fltFnOf e.fn).map (fun f => .flog2 e.h f e.x)
  | 2, 12 => (fltFnOf e.fn).map (fun f => .fsin e.h f e.x)
  | 2, 13 => (fltFnOf e.fn).map (fun f => .fcos e.h f e.x)
  | 2, 14 => (fltFnOf e.fn).map (fun f => .ftanh e.h f e.x)
  | 2, 15 => (fltFnOf e.fn).map (fun f => .fsigm e.h f e.x)
  | 3, 0 => (fltFnOf e.fn).map (fun f => .ffrc e.h f e.x)
  | 3, 1 => (fltFnOf e.fn).map (fun f => .frnd e.h f e.x)
  | 3, 2 => (fltFnOf e.fn).map (fun f => .fldx e.h f e.x)
  | 3, 3 => (fltFnOf e.fn).map (fun f => .fcls e.h f e.x)
  | 3, 4 => (fltFnOf e.fn).map (fun f => .hadd2 e.h f e.x)
  | 3, 5 => (fltFnOf e.fn).map (fun f => .hmul2 e.h f e.x)
  | 3, 6 => (fltFnOf e.fn).map (fun f => .hfma2 e.h f e.x)
  | 3, 7 => (fltFnOf e.fn).map (fun f => .hmnx2 e.h f e.x)
  | 3, 8 => (fltFnOf e.fn).map (fun f => .dadd e.h f e.x)
  | 3, 9 => (fltFnOf e.fn).map (fun f => .dmul e.h f e.x)
  | 3, 10 => (fltFnOf e.fn).map (fun f => .dfma e.h f e.x)
  | 3, 11 => (fltFnOf e.fn).map (fun f => .ddiv e.h f e.x)
  | 3, 12 => (fltFnOf e.fn).map (fun f => .dsqrt e.h f e.x)
  | 3, 13 => (fltFnOf e.fn).map (fun f => .fdot2 e.h f e.x)
  | 3, 14 => (fltFnOf e.fn).map (fun f => .fdotn e.h f e.x)
  | 3, 15 => (fltFnOf e.fn).map (fun f => .fmed3 e.h f e.x)
  | 4, 0 => (cvtFnOf e.fn).map (fun f => .cvt e.h f e.x)
  | 4, 1 => (cvtFnOf e.fn).map (fun f => .cvtn e.h f e.x)
  | 4, 2 => (cvtFnOf e.fn).map (fun f => .cvtw e.h f e.x)
  | 4, 3 => (cvtFnOf e.fn).map (fun f => .npack e.h f e.x)
  | 4, 4 => (cvtFnOf e.fn).map (fun f => .nunpk e.h f e.x)
  | 4, 5 => (cvtFnOf e.fn).map (fun f => .fmtld e.h f e.x)
  | 4, 6 => (cvtFnOf e.fn).map (fun f => .fmtst e.h f e.x)
  | 4, 7 => (cvtFnOf e.fn).map (fun f => .srseed e.h f e.x)
  | 4, 8 => (cvtFnOf e.fn).map (fun f => .flgrd e.h f e.x)
  | 4, 9 => (cvtFnOf e.fn).map (fun f => .flgcl e.h f e.x)
  | 5, 0 => (cmpFnOf e.fn).map (fun f => .isetp e.h f e.x)
  | 5, 1 => (cmpFnOf e.fn).map (fun f => .fsetp e.h f e.x)
  | 5, 2 => (cmpFnOf e.fn).map (fun f => .psetp e.h f e.x)
  | 5, 3 => (cmpFnOf e.fn).map (fun f => .sel e.h f e.x)
  | 5, 4 => (laneFnOf e.fn).map (fun f => .mov e.h f e.x)
  | 5, 5 => (laneFnOf e.fn).map (fun f => .movs e.h f e.x)
  | 5, 6 => (laneFnOf e.fn).map (fun f => .shfl e.h f e.x)
  | 5, 7 => (laneFnOf e.fn).map (fun f => .ballot e.h f e.x)
  | 5, 8 => (laneFnOf e.fn).map (fun f => .vote e.h f e.x)
  | 5, 9 => (laneFnOf e.fn).map (fun f => .matchLanes e.h f e.x)
  | 5, 10 => (laneFnOf e.fn).map (fun f => .redux e.h f e.x)
  | 5, 11 => (laneFnOf e.fn).map (fun f => .scan e.h f e.x)
  | 5, 12 => (laneFnOf e.fn).map (fun f => .elect e.h f e.x)
  | 5, 13 => (laneFnOf e.fn).map (fun f => .xchgm e.h f e.x)
  | 5, 14 => (laneFnOf e.fn).map (fun f => .getsr e.h f e.x)
  | 5, 15 => (laneFnOf e.fn).map (fun f => .quads e.h f e.x)
  | 6, 0 => (codeFnOf e.fn).map (fun f => .bra e.h f e.x)
  | 6, 1 => (codeFnOf e.fn).map (fun f => .brx e.h f e.x)
  | 6, 2 => (codeFnOf e.fn).map (fun f => .call e.h f e.x)
  | 6, 3 => (codeFnOf e.fn).map (fun f => .callx e.h f e.x)
  | 6, 4 => (codeFnOf e.fn).map (fun f => .ret e.h f e.x)
  | 6, 5 => (codeFnOf e.fn).map (fun f => .exit e.h f e.x)
  | 6, 6 => (codeFnOf e.fn).map (fun f => .yield e.h f e.x)
  | 6, 7 => (codeFnOf e.fn).map (fun f => .nop e.h f e.x)
  | 6, 8 => (codeFnOf e.fn).map (fun f => .trap e.h f e.x)
  | 6, 9 => (codeFnOf e.fn).map (fun f => .bkpt e.h f e.x)
  | 6, 10 => (codeFnOf e.fn).map (fun f => .sleep e.h f e.x)
  | 7, 0 => (codeFnOf e.fn).map (fun f => .mjoin e.h f e.x)
  | 7, 1 => (codeFnOf e.fn).map (fun f => .mleave e.h f e.x)
  | 7, 2 => (codeFnOf e.fn).map (fun f => .mwait e.h f e.x)
  | 7, 3 => (codeFnOf e.fn).map (fun f => .mset e.h f e.x)
  | 7, 4 => (codeFnOf e.fn).map (fun f => .mops e.h f e.x)
  | 7, 5 => (codeFnOf e.fn).map (fun f => .bar e.h f e.x)
  | 7, 6 => (codeFnOf e.fn).map (fun f => .bararr e.h f e.x)
  | 7, 7 => (codeFnOf e.fn).map (fun f => .barwt e.h f e.x)
  | 7, 8 => (codeFnOf e.fn).map (fun f => .twait e.h f e.x)
  | 7, 9 => (codeFnOf e.fn).map (fun f => .ttest e.h f e.x)
  | 7, 10 => (codeFnOf e.fn).map (fun f => .sstep e.h f e.x)
  | 7, 11 => (codeFnOf e.fn).map (fun f => .wfi e.h f e.x)
  | 7, 12 => (codeFnOf e.fn).map (fun f => .uiret e.h f e.x)
  | 7, 13 => (codeFnOf e.fn).map (fun f => .uimsk e.h f e.x)
  | 8, 0 => (memFnOf e.fn).map (fun f => .ld e.h f e.x)
  | 8, 1 => (memFnOf e.fn).map (fun f => .st e.h f e.x)
  | 8, 2 => (memFnOf e.fn).map (fun f => .ldx e.h f e.x)
  | 8, 3 => (memFnOf e.fn).map (fun f => .stx e.h f e.x)
  | 8, 4 => (memFnOf e.fn).map (fun f => .ldc e.h f e.x)
  | 8, 5 => (memFnOf e.fn).map (fun f => .atom e.h f e.x)
  | 8, 6 => (memFnOf e.fn).map (fun f => .red e.h f e.x)
  | 8, 7 => (memFnOf e.fn).map (fun f => .ldmc e.h f e.x)
  | 8, 8 => (memFnOf e.fn).map (fun f => .fence e.h f e.x)
  | 8, 9 => (memFnOf e.fn).map (fun f => .pref e.h f e.x)
  | 8, 10 => (memFnOf e.fn).map (fun f => .cmaint e.h f e.x)
  | 8, 11 => (memFnOf e.fn).map (fun f => .gjoin e.h f e.x)
  | 10, 0 => (engFnOf e.fn).map (fun f => .tkpost e.h f e.x)
  | 10, 1 => (engFnOf e.fn).map (fun f => .tkdep e.h f e.x)
  | 10, 2 => (engFnOf e.fn).map (fun f => .tksig e.h f e.x)
  | 10, 3 => (engFnOf e.fn).map (fun f => .tkwait e.h f e.x)
  | 10, 4 => (engFnOf e.fn).map (fun f => .tkcmt e.h f e.x)
  | 10, 5 => (engFnOf e.fn).map (fun f => .tkdis e.h f e.x)
  | 10, 6 => (engFnOf e.fn).map (fun f => .cbini e.h f e.x)
  | 10, 7 => (engFnOf e.fn).map (fun f => .cbpsh e.h f e.x)
  | 10, 8 => (engFnOf e.fn).map (fun f => .cbpop e.h f e.x)
  | 10, 9 => (engFnOf e.fn).map (fun f => .cbwt e.h f e.x)
  | 10, 10 => (engFnOf e.fn).map (fun f => .cbqry e.h f e.x)
  | 10, 11 => (engFnOf e.fn).map (fun f => .evset e.h f e.x)
  | 10, 12 => (engFnOf e.fn).map (fun f => .amsg e.h f e.x)
  | 10, 13 => (engFnOf e.fn).map (fun f => .fetchw e.h f e.x)
  | 10, 14 => (engFnOf e.fn).map (fun f => .spawn e.h f e.x)
  | 11, 0 => (engFnOf e.fn).map (fun f => .tcpy e.h f e.x)
  | 11, 1 => (engFnOf e.fn).map (fun f => .tcpyw e.h f e.x)
  | 11, 2 => (engFnOf e.fn).map (fun f => .mma e.h f e.x)
  | 11, 3 => (engFnOf e.fn).map (fun f => .mmas e.h f e.x)
  | 11, 4 => (engFnOf e.fn).map (fun f => .mrpg e.h f e.x)
  | 12, 0 => (engFnOf e.fn).map (fun f => .stopn e.h f e.x)
  | 12, 1 => (engFnOf e.fn).map (fun f => .stnxt e.h f e.x)
  | 12, 2 => (engFnOf e.fn).map (fun f => .stskp e.h f e.x)
  | 12, 3 => (engFnOf e.fn).map (fun f => .stsav e.h f e.x)
  | 12, 4 => (engFnOf e.fn).map (fun f => .strst e.h f e.x)
  | 12, 5 => (engFnOf e.fn).map (fun f => .stcls e.h f e.x)
  | 12, 6 => (engFnOf e.fn).map (fun f => .isect e.h f e.x)
  | 12, 7 => (engFnOf e.fn).map (fun f => .gsx e.h f e.x)
  | 12, 8 => (engFnOf e.fn).map (fun f => .ssx e.h f e.x)
  | 12, 9 => (engFnOf e.fn).map (fun f => .ssxa e.h f e.x)
  | 13, 0 => (engFnOf e.fn).map (fun f => .ncall e.h f e.x)
  | 13, 1 => (engFnOf e.fn).map (fun f => .npin e.h f e.x)
  | 13, 2 => (engFnOf e.fn).map (fun f => .nunpin e.h f e.x)
  | 13, 3 => (engFnOf e.fn).map (fun f => .npref e.h f e.x)
  | 13, 4 => (engFnOf e.fn).map (fun f => .nqry e.h f e.x)
  | 13, 5 => (engFnOf e.fn).map (fun f => .nflsh e.h f e.x)
  | 13, 8 => (engFnOf e.fn).map (fun f => .tex e.h f e.x)
  | 13, 9 => (engFnOf e.fn).map (fun f => .texn e.h f e.x)
  | 13, 10 => (engFnOf e.fn).map (fun f => .tld e.h f e.x)
  | 13, 11 => (engFnOf e.fn).map (fun f => .tqry e.h f e.x)
  | 13, 12 => (engFnOf e.fn).map (fun f => .ddx e.h f e.x)
  | 13, 13 => (engFnOf e.fn).map (fun f => .ddy e.h f e.x)
  | 14, 0 => (engFnOf e.fn).map (fun f => .rtrace e.h f e.x)
  | 14, 1 => (engFnOf e.fn).map (fun f => .rld e.h f e.x)
  | 14, 2 => (engFnOf e.fn).map (fun f => .rst e.h f e.x)
  | 14, 3 => (engFnOf e.fn).map (fun f => .rverd e.h f e.x)
  | 14, 4 => (engFnOf e.fn).map (fun f => .beam e.h f e.x)
  | 14, 5 => (engFnOf e.fn).map (fun f => .covrd e.h f e.x)
  | 14, 6 => (engFnOf e.fn).map (fun f => .rpool e.h f e.x)
  | 14, 7 => (engFnOf e.fn).map (fun f => .rqry e.h f e.x)
  | 15, 0 => (engFnOf e.fn).map (fun f => .segld e.h f e.x)
  | 15, 1 => (engFnOf e.fn).map (fun f => .segrd e.h f e.x)
  | 15, 2 => (engFnOf e.fn).map (fun f => .csrrd e.h f e.x)
  | 15, 3 => (engFnOf e.fn).map (fun f => .csrwr e.h f e.x)
  | 15, 4 => (engFnOf e.fn).map (fun f => .tret e.h f e.x)
  | 15, 5 => (engFnOf e.fn).map (fun f => .parkq e.h f e.x)
  | 15, 6 => (engFnOf e.fn).map (fun f => .lanepc e.h f e.x)
  | 15, 7 => (engFnOf e.fn).bind (fun f => match f.sub.toNat with
      | 0 => some (.rcbopReg e.h f e.x)
      | 1 => some (.rcbopRet e.h f e.x)
      | 2 => some (.rcbopUpd e.h f e.x)
      | 3 => some (.rcbopQry e.h f e.x)
      | 4 => some (.rcbopAdr e.h f e.x)
      | _ => none)
  | 15, 8 => (engFnOf e.fn).bind (fun f => match f.sub.toNat with
      | 0 => some (.tlbopVa e.h f e.x)
      | 1 => some (.tlbopAll e.h f e.x)
      | 2 => some (.tlbopSva e.h f e.x)
      | 3 => some (.tlbopSid e.h f e.x)
      | 4 => some (.tlbopPart e.h f e.x)
      | _ => none)
  | 15, 9 => (engFnOf e.fn).bind (fun f => match f.sub.toNat with
      | 0 => some (.svcallAtt e.h f e.x)
      | 1 => some (.svcallCert e.h f e.x)
      | _ => none)
  | 15, 10 => (engFnOf e.fn).bind (fun f => match f.sub.toNat with
      | 0 => some (.wtblSync e.h f e.x)
      | 1 => some (.wtblUnpin e.h f e.x)
      | _ => none)
  | 15, 11 => (engFnOf e.fn).map (fun f => .idle e.h f e.x)
  | _, _ => none
/-- The instruction that 128 bits hold, or the number of the failing check: LEN 0b11 is reported with the length
check, number 2 (R75, R81, R101). -/
def decodeWord (w : BitVec 128) : Except Nat Instr :=
  match Enc.ofBits w with
  | none => .error 2
  | some e =>
    match e.failing with
    | some n => .error n
    | none =>
      match instrOf e with
      | some i => .ok i
      | none => .error 4

/-- Why bytes give no instruction. -/
inductive DecodeError
  /-- the instruction does not end in the bytes given: it crosses its 32-byte block (R80) -/
  | crossing
  /-- the failing check of R101 -/
  | check (n : Nat)
  deriving DecidableEq, Repr

/-- The length of the instruction whose first byte is given (R75). -/
def firstLen (bs : List Byte) : Option Len :=
  match bs with
  | [] => none
  | b :: _ => lenOf (bitsAt b.toNat 0 2)

/-- Decodes the bytes from an instruction's address to the end of its 32-byte block: the instruction, its length in
bytes and the rest (R75, R80, R81). -/
def decodeBytes (bs : List Byte) : Except DecodeError (Instr × List Byte) :=
  match bs with
  | [] => .error .crossing
  | _ =>
    match firstLen bs with
    | none => .error (.check 2)
    | some l =>
      let n := lenBytes l
      if bs.length < n then .error .crossing
      else
        match decodeWord (BitVec.ofNat 128 (leNat (bs.take n))) with
        | .ok i => .ok (i, bs.drop n)
        | .error c => .error (.check c)

/-- The length of an instruction; an event has none. -/
def instrLen (i : Instr) : Nat :=
  match encOf i with
  | some e => lenBytes e.h.len
  | none => 0

/-- The bytes of an instruction, the least significant first (R12). An event has no bytes. -/
def encode (i : Instr) : List Byte :=
  match encOf i with
  | some e => leBytes (lenBytes e.h.len) e.bits.toNat
  | none => []

/-- The instruction that the decoder reads from an instruction whose bits are `w`, bit 0 the least significant bit of its
first byte. -/
def decodeTableWord (nbits w : Nat) : Option Instr :=
  match decodeBytes (leBytes 32 (w % 2 ^ nbits)) with
  | .ok (i, _) => some i
  | .error _ => none

end Sys2Proof
end

