-- ==== Sys2Proof/Machine/Lanes.lean ====
section
/-!
DEFINITION. Lane instructions, 0x56 to 0x5D and 0x5F (R163 to R169). The participants are the wave's lanes in the packet whose
guard is true.
-/

namespace Sys2Proof.Machine

/-- The segment width of LMOD (R163). -/
def segWidth (f : LaneFn) : Nat := if f.lmod = 0 then 128 else 2 ^ f.lmod.toNat

/-- The first lane of a lane's segment. -/
def segBase (z l : Nat) : Nat := l - l % z

/-- The participants of a lane's segment, ascending. -/
def segLanes (c : Ctx) (z l : Nat) : List Nat := c.on.filter (fun k => segBase z k = segBase z l)

/-- The A operand of a lane. -/
def State.laneA (s : State) (c : Ctx) (f : LaneFn) (l : Nat) : Nat := s.readRegs c.uid l .v c.e.h.a.toNat (tyRegs f.ty)

/-- A vector result of a lane instruction. -/
def laneVal (c : Ctx) (l n val : Nat) : LaneRes := .ok { regs := regWrites l .v c.e.h.d.toNat n val }

def runLane (op : BitVec 8) (h : Hdr) (f : LaneFn) (x : BitVec 64) (g : Ctx → State → Nat → LaneRes) (s : State) : Out :=
  .next (runPacket (enc op h (laneFnBits f) x) (pureWise g) s)

/-- The source lane of SHFL (R165): none where it does not exist. -/
def shflSrc (lop z n l : Nat) : Option Nat :=
  let base := segBase z l
  match lop with
  | 0 => some (base + n % z)
  | 1 => if base + n ≤ l then some (l - n) else none
  | 2 => if l + n < base + z then some (l + n) else none
  | _ => some (base + (l ^^^ n) % z)

def shflLane (f : LaneFn) (c : Ctx) (s : State) (l : Nat) : LaneRes :=
  let src := match shflSrc f.lop.toNat (segWidth f) (s.srcCount c l .b) l with
    | some k => if c.on.contains k then k else l
    | none => l
  laneVal c l (tyRegs f.ty) (s.laneA c f src)

def execShfl (h : Hdr) (f : LaneFn) (x : BitVec 64) (s : State) : Out := runLane 0x56 h f x (shflLane f) s

/-- The bit that a participant casts in BALLOT (R166). -/
def ballotBit (f : LaneFn) (c : Ctx) (s : State) (l : Nat) : Bool :=
  if f.lop = 0 then (s.thread c.uid l).pred c.e.h.a.toNat
  else bitAt (s.readV c.uid l c.e.h.a.toNat).toNat (s.srcCount c l .b % 32)

/-- A scalar result of an arrival of a wave: it overwrites what an earlier arrival, of other lanes too, has on its way to its registers (R164). -/
def State.arrival (s : State) (c : Ctx) (regs : List (RegRef × Word)) : State := s.dropPend c.uid allLanes (regs.map (fun x => x.1))

def execBallot (h : Hdr) (f : LaneFn) (x : BitVec 64) (s : State) : Out :=
  .next (runPacket (enc 0x57 h (laneFnBits f) x) (fun c s =>
    let t := (maskOf (c.on.filter (ballotBit f c s))).toNat
    if h.mx = 0xD then (s.arrival c (regWrites 0 .s h.d.toNat 4 t), { lanes := c.on.map (fun l => (l, .ok {})), sregs := regWrites 0 .s h.d.toNat 4 t })
    else (s, { lanes := c.on.map (fun l => (l, laneVal c l 1 (bitsAt t (32 * (l / 32)) 32))) })) s)

def voteLane (f : LaneFn) (c : Ctx) (s : State) (l : Nat) : LaneRes :=
  let ps := (segLanes c (segWidth f) l).map (fun k => (s.thread c.uid k).pred c.e.h.a.toNat)
  let r := match f.lop.toNat with
    | 0 => ps.all id
    | 1 => ps.any id
    | _ => ps.all id || ps.all (fun b => !b)
  .ok { preds := [(c.e.h.d.toNat, r)] }

def execVote (h : Hdr) (f : LaneFn) (x : BitVec 64) (s : State) : Out := runLane 0x58 h f x (voteLane f) s

def matchLane (f : LaneFn) (c : Ctx) (s : State) (l : Nat) : LaneRes :=
  let a := s.laneA c f l
  let eqs := (segLanes c (segWidth f) l).filter (fun k => s.laneA c f k = a)
  laneVal c l 1 (if f.lop = 0 then eqs.head?.getD l else eqs.length)

def execMatchLanes (h : Hdr) (f : LaneFn) (x : BitVec 64) (s : State) : Out := runLane 0x59 h f x (matchLane f) s

/-- One step of a reduction (R167): operation 0 .add, 1 .min, 2 .max, 3 .and, 4 .or, 5 .xor. -/
def redStep (t : Ty) (op a b : Nat) : FRes :=
  let w := tyWidth t
  match op with
  | 0 => if t = .f32 then fp32.addV .rn false (fp32.value a) (fp32.value b) else ⟨(a + b) % 2 ^ w, 0⟩
  | 1 => if t = .f32 then fp32.minmax false false false a b else ⟨if tyInt t a ≤ tyInt t b then a else b, 0⟩
  | 2 => if t = .f32 then fp32.minmax false true false a b else ⟨if tyInt t a ≤ tyInt t b then b else a, 0⟩
  | 3 => ⟨a &&& b, 0⟩
  | 4 => ⟨a ||| b, 0⟩
  | _ => ⟨a ^^^ b, 0⟩

/-- A result formed from one value: a NaN is delivered canonical, a signalling one with IV. -/
def redOne (t : Ty) (a : Nat) : FRes :=
  if t = .f32 && (fp32.value a).isNan then fp32.nanRes (fp32.value a).isSig else ⟨a, 0⟩

/-- The combination of values in order. -/
def redAll (t : Ty) (op : Nat) (vs : List Nat) : Option FRes :=
  match vs with
  | [] => none
  | [a] => some (redOne t a)
  | a :: rest => some (rest.foldl (fun r b => (redStep t op r.bits b).or r.fl) ⟨a, 0⟩)

/-- The identity of an operation (R167). -/
def redIdent (t : Ty) (op : Nat) : Nat :=
  let w := tyWidth t
  match op with
  | 0 => if t = .f32 then 0x80000000 else 0
  | 1 => if t = .f32 then fp32.inf false else wrapTo w (tyMax t)
  | 2 => if t = .f32 then fp32.inf true else wrapTo w (tyMin t)
  | 3 => 2 ^ w - 1
  | _ => 0

def execRedux (h : Hdr) (f : LaneFn) (x : BitVec 64) (s : State) : Out :=
  .next (runPacket (enc 0x5A h (laneFnBits f) x) (fun c s =>
    let red := fun l => (redAll f.ty f.lop.toNat ((segLanes c (segWidth f) l).map (s.laneA c f))).getD ⟨0, 0⟩
    if h.mx = 0xD then
      let r := red (c.on.head?.getD 0)
      let regs := regWrites 0 .s h.d.toNat (tyRegs f.ty) r.bits
      (s.arrival c regs, { lanes := c.on.map (fun l => (l, .ok { flags := BitVec.ofNat 7 r.fl })), sregs := regs })
    else
      (s, { lanes := c.on.map (fun l =>
        let r := red l
        (l, .ok { regs := regWrites l .v h.d.toNat (tyRegs f.ty) r.bits, flags := BitVec.ofNat 7 r.fl })) })) s)

def scanLane (f : LaneFn) (c : Ctx) (s : State) (l : Nat) : LaneRes :=
  let excl := 8 ≤ f.lop.toNat
  let op := f.lop.toNat % 8
  let below := (segLanes c (segWidth f) l).filter (fun k => if excl then k < l else k ≤ l)
  let r := (redAll f.ty op (below.map (s.laneA c f))).getD ⟨redIdent f.ty op, 0⟩
  .ok { regs := regWrites l .v c.e.h.d.toNat (tyRegs f.ty) r.bits, flags := BitVec.ofNat 7 r.fl }

def execScan (h : Hdr) (f : LaneFn) (x : BitVec 64) (s : State) : Out := runLane 0x5B h f x (scanLane f) s

def execElect (h : Hdr) (f : LaneFn) (x : BitVec 64) (s : State) : Out :=
  runLane 0x5C h f x (fun c _ l => .ok { preds := [(h.d.toNat, (segLanes c (segWidth f) l).head? = some l)] }) s

/-- XCHGM (R168). -/
def xchgmOf (up : Bool) (sh a p m : Nat) : Nat :=
  let nm := 2 ^ 32 - 1 - m
  if up then (a &&& nm) ||| ((p &&& nm) / 2 ^ sh) else (a &&& m) ||| ((p &&& m) * 2 ^ sh % 2 ^ 32)

def xchgmLane (c : Ctx) (s : State) (l : Nat) : LaneRes :=
  let dist := s.srcCount c l .b
  let m := s.srcCount c l .c % 2 ^ 32
  let a := (s.readV c.uid l c.e.h.a.toNat).toNat
  let p := l ^^^ dist
  if c.on.contains p then
    laneVal c l 1 (xchgmOf (l &&& dist ≠ 0) (dist % 32) a (s.readV c.uid p c.e.h.a.toNat).toNat m)
  else laneVal c l 1 a

def execXchgm (h : Hdr) (f : LaneFn) (x : BitVec 64) (s : State) : Out := runLane 0x5D h f x xchgmLane s

/-- QUADS: the partner's value, from a participant of the thread's own segment (R164). -/
def quadsLane (f : LaneFn) (c : Ctx) (s : State) (l : Nat) : LaneRes :=
  if !((s.wave? c.uid).map (fun w => w.quadFlag)).getD false then .fault illegal7
  else
    let p := match f.lop.toNat with
      | 0 => l ^^^ 1
      | 1 => l ^^^ 2
      | 2 => l ^^^ 3
      | _ => 4 * (l / 4) + s.srcCount c l .b % 4
    laneVal c l (tyRegs f.ty) (s.laneA c f (if (segLanes c (segWidth f) l).contains p then p else l))

def execQuads (h : Hdr) (f : LaneFn) (x : BitVec 64) (s : State) : Out := runLane 0x5F h f x (quadsLane f) s

end Sys2Proof.Machine
end

