-- ==== Sys2Proof/Machine/Control.lean ====
section
/-!
DEFINITION. Control flow, 0x60 to 0x6A (R170 to R173, R84).
-/

namespace Sys2Proof.Machine

def runCode (op : BitVec 8) (h : Hdr) (f : CodeFn) (x : BitVec 64) (g : Ctx → State → Nat → State × LaneRes)
    (post : Ctx → State → State) (s : State) : Out :=
  .next (runPacketThen (enc op h (codeFnBits f) x) (laneWise g) post s)

/-- A jump: a target whose low two bits are not zero is a fetch-format fault (R171, R17). -/
def jumpTo (t : VA) : LaneRes := if t.toNat % 4 ≠ 0 then .fault ⟨fcFetchFmt, t.toNat⟩ else .ok { pc := some t }

/-- The target of BRA and CALL. -/
def labelTarget (c : Ctx) (x : BitVec 64) : VA := c.pc + BitVec.ofNat 56 (wrapTo 56 (signedOf 32 x.toNat))

/-- The target of BRX and CALLX: the pair read from A. -/
def State.pairTarget (s : State) (c : Ctx) (l : Nat) : VA :=
  BitVec.ofNat 56 (s.readRegs c.uid l (c.e.kindOf .a) (c.e.field .a) 2)

/-- A call sets ra to the address of the next instruction, unless the target faults. -/
def callTo (c : Ctx) (s : State) (l : Nat) (t : VA) : State × LaneRes :=
  if t.toNat % 4 ≠ 0 then (s, jumpTo t) else (s.updThread c.uid l (fun th => { th with ra := c.next }), jumpTo t)

def execBra (h : Hdr) (f : CodeFn) (x : BitVec 64) (s : State) : Out :=
  runCode 0x60 h f x (fun c s _ => (s, jumpTo (labelTarget c x))) (fun _ s => s) s

def execBrx (h : Hdr) (f : CodeFn) (x : BitVec 64) (s : State) : Out :=
  runCode 0x61 h f x (fun c s l => (s, jumpTo (s.pairTarget c l))) (fun _ s => s) s

def execCall (h : Hdr) (f : CodeFn) (x : BitVec 64) (s : State) : Out :=
  runCode 0x62 h f x (fun c s l => callTo c s l (labelTarget c x)) (fun _ s => s) s

def execCallx (h : Hdr) (f : CodeFn) (x : BitVec 64) (s : State) : Out :=
  runCode 0x63 h f x (fun c s l => callTo c s l (s.pairTarget c l)) (fun _ s => s) s

def execRet (h : Hdr) (f : CodeFn) (x : BitVec 64) (s : State) : Out :=
  runCode 0x64 h f x (fun c s l => (s, jumpTo (s.thread c.uid l).ra)) (fun _ s => s) s

/-- EXIT (R172, R24). -/
def execExit (h : Hdr) (f : CodeFn) (x : BitVec 64) (s : State) : Out :=
  .next (runPacketThen (enc 0x65 h (codeFnBits f) x) (laneWise (fun _ s _ => (s, .ok { st := some .exited }))) (fun c s => s.exitLanes c.uid c.on) s).settleSlot

/-- The thread advances and sits out the next slot of its quadrant (R172). -/
def yieldLane (c : Ctx) (s : State) (l : Nat) : State × LaneRes :=
  (s.updThread c.uid l (fun t => { t with yielded := true }), .ok {})

def execYield (h : Hdr) (f : CodeFn) (x : BitVec 64) (s : State) : Out := runCode 0x66 h f x yieldLane (fun _ s => s) s

def execNop (h : Hdr) (f : CodeFn) (x : BitVec 64) (s : State) : Out :=
  runCode 0x67 h f x (fun _ s _ => (s, .ok {})) (fun _ s => s) s

def execTrap (h : Hdr) (f : CodeFn) (x : BitVec 64) (s : State) : Out :=
  runCode 0x68 h f x (fun _ s _ => (s, .trap ⟨fcTrapInsn, f.code.toNat⟩)) (fun _ s => s) s

/-- Is the debug enable of a wave's quadrant set (R173)? -/
def State.debugOf (s : State) (uid : Nat) : Bool :=
  match s.wave? uid with | some w => s.debugOn w.cl w.core w.quad | none => false

/-- BKPT: a stop of the quadrant where debugging is enabled, with pc past it; else a trap (R173, R453). -/
def execBkpt (h : Hdr) (f : CodeFn) (x : BitVec 64) (s : State) : Out :=
  runCode 0x69 h f x
    (fun c s _ => (s, if s.debugOf c.uid then .ok {} else .trap ⟨fcTrapInsn, f.code.toNat + 2 ^ 8⟩))
    (fun c s => if s.debugOf c.uid then
      (match s.wave? c.uid with | some w => s.stopQuad w.cl w.core w.quad 2 | none => s) else s) s

/-- SLEEP: until the clock reaches its value at issue plus 16 n; n = 0 acts as YIELD (R172). -/
def execSleep (h : Hdr) (f : CodeFn) (x : BitVec 64) (s : State) : Out :=
  runCode 0x6A h f x (fun c s l =>
    let n := s.srcCount c l .b
    if n = 0 then yieldLane c s l else (s, .ok { st := some (.sleeping (.timer (s.clk + 16 * n)) c.e.h.s) })) (fun _ s => s) s

end Sys2Proof.Machine
end

