-- ==== Sys2Proof/Machine/Sync.lean ====
section
/-!
DEFINITION. Masks, barriers, tokens, supersteps and user-level interrupts, 0x70 to 0x7D (R174 to R187).
-/

namespace Sys2Proof.Machine

/-! ## Masks (R174 to R178) -/

/-- A synchronising instruction that only changes mask D of the wave. -/
def runMask (op : BitVec 8) (h : Hdr) (f : CodeFn) (x : BitVec 64) (g : Ctx → State → Wave → LaneMask) (s : State) : Out :=
  .next (runPacketThen (enc op h (codeFnBits f) x) (pureWise (fun _ _ _ => .ok {}))
    (fun c s => match s.wave? c.uid with | some w => s.writeMask c.uid h.d.toNat (g c s w) | none => s) s)

def execMjoin (h : Hdr) (f : CodeFn) (x : BitVec 64) (s : State) : Out :=
  runMask 0x70 h f x (fun c _ w => w.mask h.d.toNat ||| maskOf c.on) s

def execMleave (h : Hdr) (f : CodeFn) (x : BitVec 64) (s : State) : Out :=
  runMask 0x71 h f x (fun c _ w => w.mask h.d.toNat &&& ~~~(maskOf c.on)) s

/-- A BARMASK fault on an object, with its reason (R189). -/
def barMask (obj reason : Nat) : LaneRes := .fault ⟨fcBarMask, obj + 2 ^ 8 * reason⟩

/-- The arrival of one lane at MWAIT (R177). -/
def mwaitLane (m : Nat) (c : Ctx) (s : State) (l : Nat) : State × LaneRes :=
  match s.wave? c.uid with
  | none => (s, .ok {})
  | some w =>
    if !inMask (w.mask m) l then (s, barMask (0x40 + m) 8)
    else if (Sparse.get none w.msite m).getD c.pc ≠ c.pc then (s, barMask (0x40 + m) 7)
    else (s.updWave c.uid (fun w => { w with msite := Sparse.put none w.msite m (some c.pc) }),
      .ok { st := some (.syncWait (.mask m) c.next c.e.h.s) })

def execMwait (h : Hdr) (f : CodeFn) (x : BitVec 64) (s : State) : Out :=
  runCode 0x72 h f x (mwaitLane h.a.toNat) (fun c s => s.evalMask c.uid h.a.toNat) s

/-- Four scalars from A as a mask, the first holding lane 0 in bit 0 (R176). -/
def State.mask4 (s : State) (uid a : Nat) : LaneMask := BitVec.ofNat 128 (s.readRegs uid 0 .s a 4)

def execMset (h : Hdr) (f : CodeFn) (x : BitVec 64) (s : State) : Out :=
  runMask 0x73 h f x (fun c s w =>
    match f.code.toNat with
    | 0 => s.mask4 c.uid h.a.toNat
    | 1 => 0
    | _ => w.m0) s

/-- The value of MOPS (R176). -/
def mopsVal (sub : Nat) (a b : LaneMask) : LaneMask :=
  match sub with
  | 0 => a &&& b
  | 1 => a ||| b
  | 2 => a ^^^ b
  | 3 => a &&& ~~~b
  | _ => a

def execMops (h : Hdr) (f : CodeFn) (x : BitVec 64) (s : State) : Out :=
  .next (runPacketThen (enc 0x74 h (codeFnBits f) x)
    (uniWise (fun c s _ =>
      let a := ((s.wave? c.uid).map (fun w => w.mask h.a.toNat)).getD 0
      (s, .ok (match f.code.toNat with
        | 5 => { sregs := regWrites 0 .s h.d.toNat 4 a.toNat }
        | 6 => { sregs := regWrites 0 .s h.d.toNat 1 (lanesOf a).length }
        | _ => {}))))
    (fun c s => match s.wave? c.uid with
      | some w => if f.code.toNat < 5 then s.writeMask c.uid h.d.toNat (mopsVal f.code.toNat (w.mask h.a.toNat) (w.mask h.b.toNat)) else s
      | none => s) s)

/-! ## Barriers (R179 to R183) -/

/-- The check of an arrival against the record, or its tentative first form (R181): the reason of the first failure. -/
def arriveFail (x : Bar) (W c uid widx lane : Nat) (mc : LaneMask) : Option Nat :=
  if x.isOpen && W ≠ x.W then some 1
  else if x.isOpen && c ≠ x.c then some 2
  else if !W.testBit widx then some 3
  else if !inMask mc lane then some 4
  else if (match lookupIn x.mcs uid with | some m => m != mc | none => false) then some 5
  else if inMask ((lookupIn x.arr uid).getD 0) lane then some 6
  else none

/-- An arrival is recorded, with what happens before it (R225); the first of a phase opens it (R181). -/
def arriveAt (x : Bar) (W c uid lane : Nat) (mc : LaneMask) (view : List Nat) : Bar :=
  { x with isOpen := true, W := W, c := c, view := joinIds x.view view,
           mcs := if (lookupIn x.mcs uid).isSome then x.mcs else x.mcs ++ [(uid, mc)],
           arr := putIn x.arr uid (setLane ((lookupIn x.arr uid).getD 0) lane true) }

/-- The arrival of one lane at barrier `b` (R180, R181); `out` gives the lane's outcome from the parity at arrival. -/
def barLane (b : Nat) (out : Ctx → Bool → LaneRes) (c : Ctx) (s : State) (l : Nat) : State × LaneRes :=
  match s.wave? c.uid with
  | none => (s, .ok {})
  | some w =>
    let n := (s.workgroup w.gid w.gangwg).length
    let B := s.srcCount c l .b % 2 ^ 16
    if w.nbar ≤ b || 2 ^ n ≤ B then (s, .fault illegal7)
    else
      let x := s.bar w.gid w.gangwg b
      let W := resolveW B n
      let m := c.e.h.c.toNat
      match arriveFail x W m w.uid w.widx l (w.mask m) with
      | some r => (s, barMask b r)
      | none => (s.setBar (arriveAt x W m w.uid l (w.mask m) (w.thread l).vw.hb), out c x.par)

/-- The evaluation of the workgroup's barriers after the arrivals of a wave. -/
def postBars (c : Ctx) (s : State) : State := s.evalBarsOf c.uid

def execBar (h : Hdr) (f : CodeFn) (x : BitVec 64) (s : State) : Out :=
  runCode 0x75 h f x (barLane f.code.toNat (fun c _ => .ok { st := some (.syncWait (.bar f.code.toNat) c.next c.e.h.s) })) postBars s

def execBararr (h : Hdr) (f : CodeFn) (x : BitVec 64) (s : State) : Out :=
  runCode 0x76 h f x (barLane f.code.toNat (fun _ par => .ok { preds := [(h.d.toNat, par)] })) postBars s

/-- BARWT: no arrival; the thread waits while the parity equals pA (R182); its return follows the arrivals of the phases that are complete (R225). -/
def execBarwt (h : Hdr) (f : CodeFn) (x : BitVec 64) (s : State) : Out :=
  runCode 0x77 h f x (fun c s l =>
    match s.wave? c.uid with
    | none => (s, .ok {})
    | some w =>
      let p := (w.thread l).pred h.a.toNat
      if w.nbar ≤ f.code.toNat then (s, .fault illegal7)
      else if (s.bar w.gid w.gangwg f.code.toNat).par != p then (s.acquireLane (s.bar w.gid w.gangwg f.code.toNat).done c.uid l, .ok {})
      else (s, .ok { st := some (.syncWait (.barwt f.code.toNat p) c.next c.e.h.s) })) (fun _ s => s) s

/-! ## Tokens (R184, R357) -/

/-- The token set that B holds. -/
def State.tokSet (s : State) (c : Ctx) (l : Nat) : Nat := s.srcCount c l .b % 2 ^ 16

/-- TWAIT: the bins that hold its calls are dispatched (R351); the wait is evaluated at once, so that it ends where every token of the set is
already clear. -/
def execTwait (h : Hdr) (f : CodeFn) (x : BitVec 64) (s : State) : Out :=
  .next (runPacketThen (enc 0x78 h (codeFnBits f) x)
    (laneWise (fun c s l =>
      let T := s.tokSet c l
      (s.trigBins (fun q => q.uid = c.uid && q.lane = l && T.testBit q.tok),
        .ok { st := some (.tokenWait (BitVec.ofNat 16 T) c.next c.e.h.s true) })))
    (fun c s => s.evalToks c.uid c.on) s).settleSlot

def execTtest (h : Hdr) (f : CodeFn) (x : BitVec 64) (s : State) : Out :=
  runCode 0x79 h f x (fun c s l =>
    match s.wave? c.uid with
    | none => (s, .ok {})
    | some w =>
      let T := s.tokSet c l
      match w.tokFailed T l with
      | some (j, e) => (s.updWave c.uid (fun w => w.raise j l), .fault ⟨e.1, e.2⟩)
      | none =>
        let any := (List.range 16).any (fun j => T.testBit j && !w.tokPending j l)
        let ok := if f.code = 0 then w.toksClear T l else any
        (if ok then s.joinLane (w.tokView (w.clearToks T l) l) c.uid l else s, .ok { preds := [(h.d.toNat, ok)] })) (fun _ s => s) s

/-! ## Supersteps (R185, R287) -/

/-- The arrival of one lane at SSTEP: the waves of the step's set are checked and recorded; others only wait (R287). -/
def sstepLane (c : Ctx) (s : State) (l : Nat) : State × LaneRes :=
  match s.wave? c.uid with
  | none => (s, .ok {})
  | some w =>
    match s.region? w.rid with
    | none => (s, .fault illegal7)
    | some r =>
      let wait : LaneRes := .ok { st := some (.syncWait .step c.next c.e.h.s) }
      if !r.ssm then (s, .fault illegal7)
      else if !r.stepSet.contains w.uid then (s, wait)
      else
        let m := c.e.h.c.toNat
        let mc := w.mask m
        let seen := r.stepArr.find? (fun x => x.1 = w.uid)
        let arr := (seen.map (fun x => x.2.2)).getD 0
        if r.stepMask.getD m ≠ m then (s, barMask 0xFF 2)
        else if !inMask mc l then (s, barMask 0xFF 4)
        else if (match seen with | some x => x.2.1 != mc | none => false) then (s, barMask 0xFF 5)
        else if inMask arr l then (s, barMask 0xFF 6)
        else
          (s.updRegion w.rid (fun r =>
            { r with
              stepMask := some m
              stepView := joinIds r.stepView (w.thread l).vw.ids
              stepArr := r.stepArr.filter (fun x => x.1 ≠ w.uid) ++ [(w.uid, mc, setLane arr l true)] }), wait)

/-- SSTEP: the bins that hold calls of the arriving threads are dispatched (R351). -/
def execSstep (h : Hdr) (f : CodeFn) (x : BitVec 64) (s : State) : Out :=
  .next (runPacketThen (enc 0x7A h (codeFnBits f) x) (laneWise (fun c s l =>
    let r := sstepLane c s l
    match r.2 with
    | .ok _ => (r.1.trigBins (fun q => q.uid = c.uid && q.lane = l), r.2)
    | _ => r)) (fun _ s => s) s).settleSlot

/-! ## User-level interrupts (R186, R187) -/

def execWfi (h : Hdr) (f : CodeFn) (x : BitVec 64) (s : State) : Out :=
  runCode 0x7B h f x (fun c s _ => (s, .ok { st := some (.sleeping .wfi c.e.h.s) })) (fun _ s => s) s

/-- UIRET: only in the wave's handler thread, alone in its packet's part. Any other thread faults. -/
def execUiret (h : Hdr) (f : CodeFn) (x : BitVec 64) (s : State) : Out :=
  runCode 0x7C h f x (fun c s l =>
    match s.wave? c.uid with
    | none => (s, .ok {})
    | some w =>
      match w.uiRun with
      | some (k, back) =>
        if k = l then (s.updWave c.uid (fun w => { w with uiRun := none, uiEn := true }), .ok { pc := some back })
        else (s, .fault illegal7)
      | none => (s, .fault illegal7)) (fun _ s => s) s

def execUimsk (h : Hdr) (f : CodeFn) (x : BitVec 64) (s : State) : Out :=
  .next (runPacket (enc 0x7D h (codeFnBits f) x) (uniWise (fun c s l =>
    let old := ((s.wave? c.uid).map (fun w => w.uiEn)).getD false
    let b := s.srcCount c l .b
    (if f.code = 0 then s.updWave c.uid (fun w => { w with uiEn := bitAt b 0 }) else s,
      .ok { sregs := regWrites 0 .s h.d.toNat 1 (b2n old) }))) s)

end Sys2Proof.Machine
end

