-- ==== Sys2Proof/Machine/Segments.lean ====
section
/-!
DEFINITION. Segments, the on-chip spaces and the checks of an access (R62 to R69, R199), for threads and engines.
-/

namespace Sys2Proof.Machine

/-! ## Spaces -/

/-- The byte at array address `a` of the core scratchpad of a core (R66). Context `x` of cluster `j` is named by `cl = j + 48 x`: a
swapped-out context keeps its image (R48). -/
def coreLoc (cl core a : Nat) : Loc := .loc ((4 * cl + core) * 2 ^ 20 + a)

/-- The byte at cluster-shared address `a`: addresses interleave over the cores every 256 bytes (R68). -/
def sharedLoc (cl a : Nat) : Loc :=
  .loc ((4 * cl + bitsAt a 8 2) * 2 ^ 20 + 2 ^ 19 + (a / 2 ^ 10 * 2 ^ 8 + a % 2 ^ 8))

/-- The byte at chip-scratchpad address `a`: addresses interleave over the slices every 4 KiB (R237). -/
def chipLoc (a : Nat) : Loc := .chip (bitsAt a 12 6 * 2 ^ 21 + (a / 2 ^ 18 * 2 ^ 12 + a % 2 ^ 12))

def segBaseOf (g : BitVec 128) : Nat := bitsAt g.toNat 0 56
def segLimit (g : BitVec 128) : Nat := bitsAt g.toNat 56 56
def segWr (g : BitVec 128) : Bool := bitAt g.toNat 112

/-- A segment register; g1 and g6 cannot be written through (R64). -/
def Wave.seg (w : Wave) (n : Nat) : BitVec 128 := Sparse.get 0 w.g n

def Wave.setSeg (w : Wave) (n : Nat) (x : BitVec 128) : Wave := { w with g := Sparse.put 0 w.g n x }

/-- A segment register made of its fields. -/
def mkSeg (base limit : Nat) (wr : Bool) : BitVec 128 :=
  BitVec.ofNat 128 (base % 2 ^ 56 + limit % 2 ^ 56 * 2 ^ 56 + b2n wr * 2 ^ 112)

/-- INFO of an offset: bits 55:53 hold the segment number (R189). -/
def offInfo (seg o : Nat) : Nat := o % 2 ^ 53 + seg * 2 ^ 53

/-- The first byte and the size of the launch's allocation in a segment of an on-chip level (R65). -/
def State.allocOf (s : State) (w : Wave) (seg : Nat) : Nat × Nat :=
  match seg with
  | 2 => w.al2
  | 3 => w.al3
  | _ => (match s.region? w.rid with | some r => (r.csmBase, r.csmb * 2 ^ 20) | none => (0, 0))

/-- Does the range lie outside the allocation of an on-chip segment (R65)? -/
def State.outside (s : State) (w : Wave) (seg a n : Nat) : Bool :=
  if 2 ≤ seg && seg ≤ 4 then
    let al := s.allocOf w seg
    a < al.1 || al.1 + al.2 < a + n
  else false

/-- The array address or device virtual address of byte `i` of an access at offset `o`; g5 interleaves the slices of the
lanes (R69). -/
def Wave.byteAddr (w : Wave) (lane seg o i : Nat) : Nat :=
  let base := segBaseOf (w.seg seg)
  if seg = 5 then (base + (o + i) / 4 * 512 + lane * 4 + (o + i) % 4) % 2 ^ 56
  else (base + o + i) % 2 ^ 56

/-- The byte of an on-chip segment at array address `a`, or the translation of a virtual address. -/
def State.resolve (s : State) (w : Wave) (seg a : Nat) (write : Bool) : Except LFault Loc :=
  match seg with
  | 2 => .ok (coreLoc (w.cl + 48 * w.ctx) w.core a)
  | 3 => .ok (sharedLoc (w.cl + 48 * w.ctx) a)
  | 4 => if s.injected w.rid then .error ⟨fcDrain, a⟩ else .ok (chipLoc a)
  | _ => s.translate w.rid a write

/-- Resolves bytes `0` to `n - 1` of an access; the first failing address is reported. -/
def State.resolveN (s : State) (w : Wave) (lane seg o : Nat) (write : Bool) : Nat → Except LFault (List (Nat × Loc))
  | 0 => .ok []
  | n + 1 =>
    match s.resolveN w lane seg o write n with
    | .error f => .error f
    | .ok l =>
      let a := w.byteAddr lane seg o n
      match s.resolve w seg a write with
      | .error f => .error f
      | .ok p => .ok (l ++ [(a, p)])

/-- Is an access of `n` bytes misaligned: across a sector boundary, or for an atomic (`align` not 0) off its size (R199, R69)?
A record of 64 bytes has its alignment alone. -/
def Wave.misaligned (w : Wave) (seg o n align : Nat) : Bool :=
  let a := if seg = 5 then o else segBaseOf (w.seg seg) + o
  (align ≠ 0 && (o % align ≠ 0 || (seg = 5 && 4 < n))) || (n ≤ 32 && a / 32 ≠ (a + (n - 1)) / 32)

/-- The checks of R63 in their order and the bytes of an access. -/
def State.locate (s : State) (w : Wave) (lane seg o n : Nat) (write : Bool) (align : Nat) : Except LFault (List (Nat × Loc)) :=
  let g := w.seg seg
  if segLimit g < o + n || s.outside w seg ((segBaseOf g + o) % 2 ^ 56) n then .error ⟨fcSegLimit, offInfo seg o⟩
  else if write && !segWr g then .error ⟨fcPermission, offInfo seg o⟩
  else if w.misaligned seg o n align then .error ⟨fcMisalign, offInfo seg o⟩
  else s.resolveN w lane seg o write n

/-- The lowest uncorrectable sector that an access touches, as the virtual address of its first byte (R189, R201). -/
def State.ueAt (s : State) (l : List (Nat × Loc)) : Option Nat :=
  ((l.filter (fun x => s.isPoison x.2)).head?).map (fun x => x.1 / 32 * 32)

end Sys2Proof.Machine
end

