-- ==== Sys2Proof/Machine/Memory.lean ====
section
/-!
DEFINITION. Memory instructions, 0x80 to 0x8B (R196 to R215). Each access has its point when its instruction issues (log 3, 6); its
thread then waits in admission for ADMISSION_CHECKS_COMPLETE, or for the peer module that holds its bytes (R427).
-/

namespace Sys2Proof.Machine

/-! ## Operands (R95, R96, R198) -/

/-- The access size in bytes. -/
def szBytes (z : Size) : Nat :=
  match z with | .b8 | .i8 => 1 | .b16 | .i16 => 2 | .b32 => 4 | .b64 => 8 | .b128 => 16 | .b256 => 32

/-- The registers of an access. -/
def szCount (z : Size) : Nat := match z with | .b64 => 2 | .b128 => 4 | .b256 => 8 | _ => 1

/-- The displacement: C in the 64-bit form, else bits 87:64 signed. -/
def memDisp (c : Ctx) : Int := if c.e.h.len = .w64 then c.e.h.c.toNat else signedOf 24 c.e.x.toNat

/-- The index term of the extension word of LDX and STX (R205). -/
def State.extIndex (s : State) (c : Ctx) (l : Nat) : Int :=
  let x := c.e.x.toNat
  let iw := 2 ^ (3 + bitsAt x 54 2)
  let b := s.readRegs c.uid l (c.e.kindOf .b) (c.e.field .b) (if iw = 64 then 2 else 1) % 2 ^ iw
  (if bitAt x 53 then signedOf iw b else b) * (2 ^ bitsAt x 50 3 : Nat)

/-- The index term of R96. -/
def State.memIndex (s : State) (c : Ctx) (f : MemFn) (l : Nat) : Int :=
  if c.e.kindOf .b = .i then 0
  else if c.e.h.len = .w128 && (c.e.op = 0x82 || c.e.op = 0x83) then s.extIndex c l
  else (s.readRegs c.uid l (c.e.kindOf .b) (c.e.field .b) 1 * (if f.xs then szBytes f.sz else 1) : Nat)

/-- The segment offset of an access (R96). -/
def State.memOffset (s : State) (c : Ctx) (f : MemFn) (l : Nat) : Nat :=
  wrapTo 56 ((s.readRegs c.uid l (c.e.kindOf .a) (c.e.field .a) 1 : Nat) + s.memIndex c f l + memDisp c)

/-- The number that a load puts into its registers: zero- or sign-extended (R202). -/
def loadVal (z : Size) (bs : List Byte) : Nat :=
  match z with
  | .i8 => wrapTo 32 (signedOf 8 (leNat bs))
  | .i16 => wrapTo 32 (signedOf 16 (leNat bs))
  | _ => leNat bs

/-! ## Cache lines and their priorities (R204) -/

/-- The priority that HINT gives; none for .na. -/
def hintPrio (h : BitVec 2) : Option Nat := match h.toNat with | 0 => some 1 | 1 => some 0 | 2 => some 2 | _ => none

/-- The home slice of a byte (R237). -/
def homeSlice (l : Loc) : Nat := match l with | .dev pa _ => (pa / 512 + Config.homeSpread (pa / 2 ^ 15)) % 64 | _ => Config.portSlice % 64

/-- The set of L2 that a line belongs to: its home slice, and one of the 1,024 sets there (R236). -/
def l2Set (line : Nat) : Nat × Nat := (homeSlice (.dev (128 * line) .rc), Config.l2Set line % 1024)

/-- The lines among which a line competes: those of its core's data cache of 128 KiB (R4), or the 16 of its set in L2 (R236). -/
def lineRoom (core : Option Nat) : Nat := if core.isSome then 1024 else 16
def sameSet (core : Option Nat) (line : Nat) (x : CLine) : Bool := x.core = core && (core.isSome || l2Set x.line = l2Set line)

/-- The line that leaves a full cache or set for another: one of the lowest priority that it holds, which of them is free. -/
def victimLine (tick : Nat) (lines : List CLine) (core : Option Nat) (line : Nat) : Option CLine :=
  let mine := lines.filter (sameSet core line)
  if mine.length < lineRoom core then none
  else
    let low := (List.range 3).find? (fun p => mine.any (fun x => x.prio = p))
    let cands := mine.filter (fun x => some x.prio = low)
    cands[Config.order tick cands.length % cands.length]?

/-- The cached lines without the one that room needs. -/
def State.evictLine (s : State) (core : Option Nat) (line : Nat) : State :=
  { s with lines := s.lines.filter (fun x => victimLine s.tick s.lines core line ≠ some x) }

/-- The cached lines after an access to one: it keeps the highest priority given since its fill; a miss makes room and allocates it. -/
def touchedLines (tick : Nat) (lines : List CLine) (core : Option Nat) (line p : Nat) : List CLine :=
  if lines.any (fun x => x.core = core && x.line = line) then
    lines.map (fun x => if x.core = core && x.line = line then { x with prio := max x.prio p } else x)
  else lines.filter (fun x => victimLine tick lines core line ≠ some x) ++ [⟨core, line, p⟩]

/-- An access touches a line, but for .na. -/
def State.touchLine (s : State) (core : Option Nat) (line : Nat) (p : Option Nat) : State :=
  match p with
  | none => s
  | some p => { s with lines := touchedLines s.tick s.lines core line p }

/-- The level at which an access of a core finds a byte (R459). -/
def State.levelOf (s : State) (core : Nat) (l : Loc) : Nat :=
  match l with
  | .loc _ => 6
  | .chip _ => 3
  | .rem .. => 5
  | .dev pa _ =>
    if s.lines.any (fun x => x.core = some core && x.line = pa / 128) then 1
    else if s.lines.any (fun x => x.core = none && x.line = pa / 128) then 2 else 4

/-- The farther of two levels: core scratchpad and cluster-shared memory are the nearest. -/
def farther (a b : Nat) : Nat := if a = 0 || a = 6 then (if b = 0 then a else b) else if b = 6 then a else max a b

/-- The farthest level that a tagged instruction of the acting thread reaches (R459). -/
def State.noteLevel (s : State) (core : Nat) (ls : List Loc) : State :=
  if s.svc.samples.isEmpty then s
  else
    { s with svc := { s.svc with samples := s.svc.samples.map (fun (x : Sample) =>
      { x with tag := x.tag.map (fun (t : Tagged) =>
        if s.ord.agent.map (fun a => a.who) = some (.lane t.uid t.lane) && (s.thread t.uid t.lane).pc = t.pc then { t with lvl := ls.foldl (fun n l => farther n (s.levelOf core l)) t.lvl } else t) }) } }

/-- A thread's access touches the lines of its bytes in its core's data cache and in L2; on-chip levels and peers have none. -/
def State.touch (s : State) (uid : Nat) (p : Option Nat) (ls : List Loc) : State :=
  match s.wave? uid with
  | none => s
  | some w =>
    (sectorsOf ls).foldl (fun s l =>
      match l with
      | .dev pa _ => (s.touchLine (some (4 * w.cl + w.core)) (pa / 128) p).touchLine none (pa / 128) p
      | _ => s) (s.noteLevel (4 * w.cl + w.core) ls)

/-! ## Watch hits (R457) -/

/-- Does an access of a kind (0 load, 1 store, 2 atomic) through a segment hit watchpoint `n`? -/
def State.watchHit (s : State) (rid n kind : Nat) (addrs : List Nat) : Bool :=
  let r := fun k => s.csr (csrAddr 11 0 0 (0x100 + 4 * n + k))
  s.granted 9 && bitAt (r 2) 0 && bitAt (r 2) (1 + kind) && bitsAt (r 2) 32 32 = rid && addrs.any (fun a => r 0 ≤ a && a < r 1)

/-- Notes the watch hits of a thread's access; its translations enter its core's cache. -/
def State.noteHits (s : State) (c : Ctx) (l seg kind : Nat) (ls : List (Nat × Loc)) (bs : List Byte) : State :=
  match s.wave? c.uid with
  | none => s
  | some w =>
    if 2 ≤ seg && seg ≤ 4 then s
    else
      let addrs := ls.map (fun x => x.1)
      let s := s.fillCore w.rid addrs
      let hs := ((List.range 16).filter (fun n => s.watchHit w.rid n kind addrs)).map (fun n =>
        (⟨s.tick, c.uid, l, c.pc, n, addrs.head?.getD 0, ls.length, kind, bs.take 16, none⟩ : Hit))
      { s with flight := { s.flight with hits := s.flight.hits ++ hs } }

/-- Has a lane a watch hit that is not decided? -/
def State.watched (s : State) (uid l : Nat) : Bool := s.flight.hits.any (fun h => h.uid = uid && h.lane = l)

/-! ## Loads and stores (R202, R203) -/

/-- The admission state after an access (R200). -/
def admitted (c : Ctx) : Option RunState := some (.admission .checks c.e.h.s)

/-- The checks and bytes of a lane's access. -/
def State.access (s : State) (c : Ctx) (f : MemFn) (l : Nat) (write : Bool) (align : Nat) : Except LFault (List (Nat × Loc)) :=
  match s.wave? c.uid with
  | none => .error illegal7
  | some w => s.locate (w.atIssue l) l f.seg.toNat (s.memOffset c f l) (szBytes f.sz) write align

/-- The scope SCP of an access (R96). -/
def scopeOf (c : Ctx) : Nat := bitsAt c.e.x.toNat 24 3

/-- The scope at which an access is an acquire, and at which it is a release (R221). -/
def acqOf (c : Ctx) (f : MemFn) : Option Nat := if f.ord = .acq || f.ord = .ar then some (scopeOf c) else none
def relOf (c : Ctx) (f : MemFn) : Option Nat := if f.ord = .rel || f.ord = .ar then some (scopeOf c) else none

/-- The places of a lane's read, once its bytes on peers have come. -/
def State.fetched (s : State) (c : Ctx) (f : MemFn) (l : Nat) : Except LFault (List (Nat × Loc)) :=
  match s.access c f l false 0 with
  | .error e => .error e
  | .ok ls => (match s.absent ls with | some e => .error e | none => .ok ls)

/-- A read is performed, for the threads whose views `upd` changes: its bytes, its place in the order of memory, the lines it touches, and the watchpoints
that the lanes `on` hit. -/
def State.loaded (s : State) (c : Ctx) (f : MemFn) (upd : State → (Place → View → View) → State) (on : List Nat) (ls : List (Nat × Loc)) : State × List Byte :=
  let locs := ls.map (fun x => x.2)
  let r := s.readBy upd locs (acqOf c f)
  (on.foldl (fun s l => s.noteHits c l f.seg.toNat 0 ls r.2) ((r.1.meetUe locs).touch c.uid (hintPrio f.hint) locs), r.2)

/-- LD and LDX in one lane: a short result. -/
def ldLane (f : MemFn) (c : Ctx) (s : State) (l : Nat) : State × LaneRes :=
  match s.fetched c f l with
  | .error e => (s, .fault e)
  | .ok ls =>
    let r := s.loaded c f State.updReader [l] ls
    (r.1, .ok { regs := regWrites l .v c.e.h.d.toNat (szCount f.sz) (loadVal f.sz r.2), ue := s.ueAt ls, st := admitted c })

/-- Changes the views of the threads that make one uniform access: the acting one's, and those of the lanes `ls` (R216). -/
def State.updLanes (uid : Nat) (ls : List Nat) (s : State) (f : Place → View → View) : State :=
  ls.foldl (fun s l => s.updWave uid (fun w => w.updThread l (fun t => { t with vw := f (.thread 0 uid l w.cl w.core) t.vw }))) (s.updReader f)

/-- What binds each sector that several accesses of one packet touch: all that binds one of them (R203, R209). -/
def packOf (xs : List (View × List Loc)) : List (Loc × List Nat) :=
  xs.foldl (fun p x => (sectorsOf x.2).foldl (fun p l =>
    p.filter (fun y => y.1 ≠ l.sec) ++ [(l.sec, joinIds (((p.find? (fun y => y.1 = l.sec)).map (fun y => y.2)).getD []) (x.1.bound l.kind))]) p) []

def State.setPack (s : State) (p : List (Loc × List Nat)) : State := { s with ord := { s.ord with pack := p } }

/-- The uniform load: the address and the g5 slice of the reading thread (R202); it is one access of every executing thread (R216). -/
def ldUni (f : MemFn) (c : Ctx) (s : State) (l : Nat) : State × Except LFault UniOut :=
  match s.fetched c f l with
  | .error e => (s, .error e)
  | .ok ls =>
    let others := c.on.filter (fun k => k ≠ l)
    let s' := s.setPack (packOf (others.map (fun k => ((s.thread c.uid k).vw, ls.map (fun x => x.2)))))
    let r := s'.loaded c f (State.updLanes c.uid others) c.on ls
    (r.1.setPack [], .ok { sregs := regWrites l .s c.e.h.d.toNat (szCount f.sz) (loadVal f.sz r.2), ue := s.ueAt ls, st := admitted c })

def runMem (op : BitVec 8) (h : Hdr) (f : MemFn) (x : BitVec 64) (g : Ctx → State → Nat → State × LaneRes)
    (post : Ctx → State → State) (s : State) : Out :=
  .next (runPacketThen (enc op h (memFnBits f) x) (memWise g) post s)

def execLd (h : Hdr) (f : MemFn) (x : BitVec 64) (s : State) : Out :=
  .next (runPacket (enc 0x80 h (memFnBits f) x)
    (fun c s => if h.u then uniMem (ldUni f) c s else memWise (ldLane f) c s) s)

/-- The data operand of a store or atomic. -/
def State.memData (s : State) (c : Ctx) (f : MemFn) (l : Nat) : Nat := s.readRegs c.uid l .v c.e.h.d.toNat (szCount f.sz)

/-- A lane's write to a peer is to be sent with those of its packet; the lane waits for the answer (R427). -/
def State.askWrite (s : State) (c : Ctx) (l peer pva va n : Nat) (k : PageKind) (acq : Option Nat) (atom : Option RemAtom) (op : SecOp) : State :=
  let r : RemOp :=
    { id := 0, idx := 0, who := .lane c.uid l, rid := s.ridOf c.uid, va := va, peer := peer, pva := pva, n := n, write := true, ask := some op, atom := atom,
      kind := k, acq := acq, step := s.tick, site := c.pc, lanes := [l], answer := none }
  { s with link := { s.link with rops := s.link.rops ++ [r] } }

/-- The releases that a write of the acting agent carries (R221, R223). -/
def State.ownRels (s : State) (k : PageKind) (rel : Option Nat) : List Rel := (s.ord.agent.map (fun a => a.rels k rel)).getD []

/-- A lane stores bytes through a segment, as a release or not, at a priority: those of this module at its points, those on peers by messages. -/
def State.putAs (s : State) (c : Ctx) (rel prio : Option Nat) (seg l : Nat) (ls : List (Nat × Loc)) (bs : List Byte) : State × LaneRes :=
  let locs := ls.map (fun x => x.2)
  let s := (s.storeAs locs bs rel false).touch c.uid prio locs
  let ps := remParts ls bs
  let s := ps.foldl (fun s p =>
    s.askWrite c l p.1 p.2.1 p.2.2.1 p.2.2.2.2.length p.2.2.2.1 none none (.store p.2.1 p.2.2.2.2 (s.peerAcc p.2.2.2.1 (s.ownRels p.2.2.2.1 rel) false))) s
  (s.noteHits c l seg 1 ls bs, .ok { st := if ps.isEmpty then admitted c else some (.admission .peer c.e.h.s) })

/-- The places of the requests of a packet in the message to their sector. -/
def numberAsks (id : Nat) (mine : RemOp → Bool) : Nat → List RemOp → List RemOp
  | _, [] => []
  | n, r :: l => if mine r then { r with id := id, idx := n, ask := none } :: numberAsks id mine (n + 1) l else r :: numberAsks id mine n l

/-- The writes of a packet to peers are sent, one request for each sector (R203, R209). -/
def State.flushPeers (s : State) : State :=
  let key := fun (r : RemOp) => (r.rid, r.peer, r.pva / 32)
  let keys := (s.link.rops.filter (fun r => r.ask.isSome)).foldl (fun acc r => if acc.contains (key r) then acc else acc ++ [key r]) []
  keys.foldl (fun s k =>
    let mine := fun (r : RemOp) => r.ask.isSome && key r = k
    let id := s.fresh
    let ops := (s.link.rops.filter mine).filterMap (fun r => r.ask)
    ({ s with fresh := id + 1, link := { s.link with rops := numberAsks id mine 0 s.link.rops } } : State).send (.sector id k.1 k.2.1 ops)) s

/-- What binds the writes of the packet at hand, where it has several: those to one sector are adjacent (R203, R209). `places` gives the bytes of a lane. -/
def State.packed (s : State) (e : Enc) (places : Ctx → State → Nat → Except LFault (List (Nat × Loc))) : State :=
  match s.packets with
  | [] => s
  | p :: _ =>
    let xs := p.waves.flatMap (fun q =>
      match s.wave? q.1 with
      | none => []
      | some w =>
        let on := q.2.filter (fun l => guardOn e.h (w.thread l))
        on.map (fun l => ((w.thread l).vw, (match places ⟨e, q.1, p.pc, nextPc p.pc e.h.len, q.2, on⟩ (s.asLane q.1 l) l with | .ok ls => ls.map (fun x => x.2) | .error _ => []))))
    if xs.length ≤ 1 then s else s.setPack (packOf xs)

/-- A packet of lanes that write. -/
def runWrites (e : Enc) (places : Ctx → State → Nat → Except LFault (List (Nat × Loc))) (g : Ctx → State → Nat → State × LaneRes) (s : State) : Out :=
  .next ((runPacket e (memWise g) (s.packed e places)).setPack []).flushPeers

/-- The store of an instruction of the memory group. -/
def State.put (s : State) (c : Ctx) (f : MemFn) (l : Nat) (ls : List (Nat × Loc)) (bs : List Byte) : State × LaneRes :=
  s.putAs c (relOf c f) (hintPrio f.hint) f.seg.toNat l ls bs

def stLane (f : MemFn) (c : Ctx) (s : State) (l : Nat) : State × LaneRes :=
  match s.access c f l true 0 with
  | .error e => (s, .fault e)
  | .ok ls => s.put c f l ls (leBytes (szBytes f.sz) (s.memData c f l))

def runSt (op : BitVec 8) (h : Hdr) (f : MemFn) (x : BitVec 64) (s : State) : Out :=
  runWrites (enc op h (memFnBits f) x) (fun c s l => s.access c f l true 0) (stLane f) s

def execSt (h : Hdr) (f : MemFn) (x : BitVec 64) (s : State) : Out := runSt 0x81 h f x s
def execStx (h : Hdr) (f : MemFn) (x : BitVec 64) (s : State) : Out := runSt 0x83 h f x s

def execLdc (h : Hdr) (f : MemFn) (x : BitVec 64) (s : State) : Out :=
  .next (runPacket (enc 0x84 h (memFnBits f) x) (uniMem (ldUni f)) s)

/-! ## Run-ahead (R206, R207) -/

/-- The join site of a run-ahead LDX. -/
def joinSite (c : Ctx) : VA := c.pc + BitVec.ofNat 56 (wrapTo 56 (4 * signedOf 18 (bitsAt c.e.x.toNat 32 18)))

/-- LDX with RA in one lane (R206). Its data is read at issue and lands with RUNAHEAD_LAND; uncorrectable data parks the lane at the LDX, its token
clear (R201). -/
def aheadLane (f : MemFn) (c : Ctx) (s : State) (l : Nat) : State × LaneRes :=
  match s.wave? c.uid with
  | none => (s, .ok {})
  | some w =>
    let k := bitsAt c.e.x.toNat 56 4
    let j := joinSite c
    let g := Sparse.get 0 w.jg k
    if w.tokPending k l || (g ≠ 0 && Sparse.get 0 w.jsite k ≠ j) then (s, .fault illegal7)
    else
      let s := s.updWave c.uid (fun w =>
        { w with jg := Sparse.put 0 w.jg k (setLane g l true), jsite := Sparse.put 0 w.jsite k j })
      match s.fetched c f l with
      | .error e => (s, .fault e)
      | .ok ls =>
        match s.ueAt ls with
        | some info => ((s.loaded c f State.updReader [] ls).1, .fault ⟨fcMemUe, info⟩)
        | none =>
          let r := s.loaded c f State.updReader [l] ls
          let regs := regWrites l .v c.e.h.d.toNat (szCount f.sz) (loadVal f.sz r.2)
          let s := r.1.dropPend c.uid [l] (regs.map (fun r => r.1))
          let s := s.updWave c.uid (fun w => w.setTok k l true)
          ({ s with flight := { s.flight with ahead := s.flight.ahead ++ [⟨c.uid, l, k, regs⟩] } },
            .ok { st := some (.tokenWait (BitVec.ofNat 16 (2 ^ k)) c.next false false) })

def execLdx (h : Hdr) (f : MemFn) (x : BitVec 64) (s : State) : Out :=
  runMem 0x82 h f x (fun c s l => if h.len = .w128 && bitAt x.toNat 63 then aheadLane f c s l else ldLane f c s l)
    (fun _ s => s) s

def execGjoin (h : Hdr) (f : MemFn) (x : BitVec 64) (s : State) : Out :=
  let k := h.a.toNat
  runMem 0x8B h f x (fun c s l =>
    match s.wave? c.uid with
    | none => (s, .ok {})
    | some w =>
      if !inMask (Sparse.get 0 w.jg k) l then (s, .ok {})
      else if Sparse.get 0 w.jsite k ≠ c.pc then (s, .fault illegal7)
      else (s, .ok { st := some (.syncWait (.gjoin k (bitsAt x.toNat 32 4)) c.next h.s) }))
    (fun c s => s.evalGjoin c.uid k) s

/-! ## Atomics (R208, R209) -/

/-- The new value of an atomic on `w` bits, with the flags of its step. -/
def atomNew (aop w o d c : Nat) : Nat × Nat :=
  let f := if w = 64 then fp64 else fp32
  let so := signedOf w o
  let sd := signedOf w d
  match aop with
  | 0x00 => (d, 0)
  | 0x01 => ((o + d) % 2 ^ w, 0)
  | 0x02 => let r := f.addV .rn false (f.value o) (f.value d); (r.bits, r.fl)
  | 0x03 => (o &&& d, 0)
  | 0x04 => (o ||| d, 0)
  | 0x05 => (o ^^^ d, 0)
  | 0x06 => (if so ≤ sd then o else d, 0)
  | 0x07 => (if so ≤ sd then d else o, 0)
  | 0x08 => (min o d, 0)
  | 0x09 => (max o d, 0)
  | 0x0A => let r := f.minmax false false false o d; (r.bits, r.fl)
  | 0x0B => let r := f.minmax false true false o d; (r.bits, r.fl)
  | 0x0C => (if d ≤ o then 0 else o + 1, 0)
  | 0x0D => (if o = 0 || d < o then d else o - 1, 0)
  | _ => (if o = c then d else o, 0)

/-- The compare operand of .cas: the register that bits 103:96 name. -/
def State.casData (s : State) (c : Ctx) (f : MemFn) (l : Nat) : Nat :=
  if c.e.h.len = .w128 then s.readRegs c.uid l .v (bitsAt c.e.x.toNat 32 8) (szCount f.sz) else 0

/-- One lane's step at a sector of this module: read and write have one point (R230), the old value is returned and the new one stored (R209). An
uncorrectable sector is left unchanged: ATOM parks its lane, RED records the error (R201). -/
def State.atomHere (s : State) (c : Ctx) (f : MemFn) (ret : Bool) (l : Nat) (ls : List (Nat × Loc)) : State × LaneRes :=
  let b := szBytes f.sz
  let locs := ls.map (fun x => x.2)
  let l0 := locs.head?.getD default
  let old := leNat (s.rmwBytes locs)
  let d := s.memData c f l
  let r := atomNew (bitsAt c.e.x.toNat 27 5) (8 * b) old d (s.casData c f l)
  let ue := s.ueAt ls
  let rels := s.relsOf locs (spotOf (s.spots locs true) l0)
  let s' := if ret && ue.isSome then s.meetUe locs
    else (s.storeAs locs (leBytes b r.1) (relOf c f) true).updReader (fun me v => v.read me l0.kind (acqOf c f) [] rels)
  ((s'.touch c.uid (hintPrio f.hint) locs).noteHits c l f.seg.toNat 2 ls (leBytes b d),
    .ok (if ret then
        { regs := regWrites l .v c.e.h.d.toNat (szCount f.sz) old, flags := BitVec.ofNat 7 r.2, ue := ue, st := admitted c }
      else { st := admitted c }))

/-- An ATOM or RED on a page of a peer is performed there (R229, R233). -/
def State.atomThere (s : State) (c : Ctx) (f : MemFn) (ret : Bool) (l peer pva : Nat) (k : PageKind) (ls : List (Nat × Loc)) : State × LaneRes :=
  let b := szBytes f.sz
  let aop := bitsAt c.e.x.toNat 27 5
  let d := s.memData c f l
  let cmp := s.casData c f l
  let s' := s.askWrite c l peer pva ((ls.head?.map (fun x => x.1)).getD 0) b k (acqOf c f) (if ret then some ⟨c.e.h.d.toNat, aop, b, d, cmp, []⟩ else none)
    (.atomic pva aop b d cmp (s.peerAcc k (s.ownRels k (relOf c f)) ret))
  (s'.noteHits c l f.seg.toNat 2 ls (leBytes b d), .ok { st := some (.admission .peer c.e.h.s) })

/-- ATOM and RED in one lane. -/
def atomLane (f : MemFn) (ret : Bool) (c : Ctx) (s : State) (l : Nat) : State × LaneRes :=
  match s.access c f l true (szBytes f.sz) with
  | .error e => (s, .fault e)
  | .ok ls => (match ls with | (_, .rem peer pva k) :: _ => s.atomThere c f ret l peer pva k ls | _ => s.atomHere c f ret l ls)

def runAtom (op : BitVec 8) (h : Hdr) (f : MemFn) (x : BitVec 64) (ret : Bool) (s : State) : Out :=
  runWrites (enc op h (memFnBits f) x) (fun c s l => s.access c f l true (szBytes f.sz)) (atomLane f ret) s

def execAtom (h : Hdr) (f : MemFn) (x : BitVec 64) (s : State) : Out := runAtom 0x85 h f x true s
def execRed (h : Hdr) (f : MemFn) (x : BitVec 64) (s : State) : Out := runAtom 0x86 h f x false s

/-! ## Fences and cache maintenance (R211, R212) -/

/-- A fence of the acting thread: as an acquire it takes the releases that its reads have met, as a release it stands on its later writes (R221, R223). -/
def Agent.fence (a : Agent) (o : MOrd) (scope : Nat) (ars : List Rel) : Agent :=
  let v := if o = .acq || o = .ar then a.vw.takeRels scope a.place a.vw.pool else a.vw
  let v := if o = .ar then v.takeRels scope a.place ars else v
  { a with vw := if o = .rel || o = .ar then { v with fences := v.fences.filter (fun r => r.scope ≠ scope) ++ [⟨scope, a.place, v.hb⟩] } else v }

/-- FENCE in one lane; a FENCE.ar takes the next place in the order F (R224). -/
def fenceLane (f : MemFn) (c : Ctx) (s : State) (_l : Nat) : State × LaneRes :=
  let s := s.updAgent (fun a => a.fence f.ord (scopeOf c) s.ord.ars)
  match s.ord.agent with
  | some a => (if f.ord = .ar then { s with ord := { s.ord with ars := s.ord.ars ++ [⟨scopeOf c, a.place, a.vw.hb⟩] } } else s, .ok {})
  | none => (s, .ok {})

def execFence (h : Hdr) (f : MemFn) (x : BitVec 64) (s : State) : Out := runMem 0x88 h f x (fenceLane f) (fun _ s => s) s

/-- An instruction that names one offset and never faults: `g` acts on the address and the byte where its checks and translation succeed (R212). Its
translation waits for the walk unit as another's does (R430). -/
def hintLane (f : MemFn) (g : Wave → Nat → Loc → State → State) (c : Ctx) (s : State) (l : Nat) : State × LaneRes :=
  let go : LaneRes := .ok { st := admitted c }
  match s.wave? c.uid, s.ord.agent with
  | some w, some a =>
    if 2 ≤ f.seg.toNat && f.seg.toNat ≤ 4 then (s, go)
    else
      match s.locate (w.atIssue l) l f.seg.toNat (s.memOffset c f l) 1 false 0 with
      | .ok ((va, p) :: _) => (g w va p s, go)
      | .error e =>
        if e.code = fcMiss then (s.addMiss ⟨.lane c.uid l, a.tlb, w.rid, e.info % 2 ^ 56, false, some (c.next, c.e.h.s)⟩, .hold .walk)
        else if e.code = fcDrain then (s, .fault e)
        else (s, go)
      | _ => (s, go)
  | _, _ => (s, go)

/-- A packet of lanes each of which names one offset. -/
def runHint (op : BitVec 8) (h : Hdr) (f : MemFn) (x : BitVec 64) (g : Wave → Nat → Loc → State → State) (s : State) : Out :=
  .next (runPacket (enc op h (memFnBits f) x) (memWise (hintLane f g)) s)

/-- PREF.l1 and PREF.l2: the line is filled at the priority of HINT. -/
def execPref (h : Hdr) (f : MemFn) (x : BitVec 64) (s : State) : Out :=
  runHint 0x89 h f x (fun w _ p s =>
    if h.d = 0 then s.touch w.uid (hintPrio f.hint) [p] else match p with | .dev pa _ => s.touchLine none (pa / 128) (hintPrio f.hint) | _ => s) s

/-- The page-table root through which a region's code is filled (R83). -/
def State.rootOf (s : State) (rid : Nat) : Option Nat := (s.region? rid).bind (fun r => r.ptroot)

/-- CMAINT .ii: the block that holds an address leaves the core's instruction cache; later fills of the core read what is joined to the thread (R83). -/
def State.invalidate (s : State) (w : Wave) (a : Nat) : State :=
  { s with icache := s.icache.filter (fun b => !(b.cl = w.cl && b.core = w.core && b.root = s.rootOf w.rid && b.blk = a / 32)),
           ord := { s.ord with fills := putIn s.ord.fills (4 * w.cl + w.core) (joinIds ((lookupIn s.ord.fills (4 * w.cl + w.core)).getD []) s.opView) } }

/-- CMAINT .dm and .ev: the line's priority becomes 1 in the core's data cache and L2, or it leaves both. -/
def State.maintain (s : State) (w : Wave) (ev : Bool) (p : Loc) : State :=
  match p with
  | .dev pa _ =>
    let here := fun (x : CLine) => x.line = pa / 128 && (x.core = none || x.core = some (4 * w.cl + w.core))
    { s with lines := if ev then s.lines.filter (fun x => !here x) else s.lines.map (fun x => if here x then { x with prio := 1 } else x) }
  | _ => s

def execCmaint (h : Hdr) (f : MemFn) (x : BitVec 64) (s : State) : Out :=
  runHint 0x8A h f x (fun w a p s => if h.d = 0 then s.invalidate w a else s.maintain w (decide (h.d = 2)) p) s

/-! ## The multicast read (R213) -/

/-- The partition of a cluster; without feature 8 every cluster is in partition 0 (R413, R419). -/
def State.partOf (s : State) (cl : Nat) : Option Nat :=
  if 47 < cl then none else if s.granted 8 then Config.partition cl else some 0

/-- Does a cluster belong to the partition of a region? A wave of the root region reaches every cluster. -/
def State.inPart (s : State) (rid cl : Nat) : Bool :=
  match s.region? rid with
  | none => false
  | some r => (match r.part with | none => true | some p => s.partOf cl = some p)

/-- The destinations that a core mask names: cbuf 4 q + j of cluster CLB + i. -/
def mcastDests (mask clb q : Nat) : List (Nat × Nat) :=
  ((List.range 64).filter (fun i => mask.testBit i)).map (fun i => (clb + i / 4, 4 * q + i % 4))

def ldmcLane (f : MemFn) (c : Ctx) (s : State) (l : Nat) : State × LaneRes :=
  match s.wave? c.uid, s.granted 7 with
  | some w, true =>
    let x := c.e.x.toNat
    let seg := f.seg.toNat
    let o := s.memOffset c f l
    let size := 128 * (bitsAt x 38 6 + 1)
    let g := (w.atIssue l).seg seg
    let a := (segBaseOf g + o) % 2 ^ 56
    let k := c.e.h.d.toNat
    if segLimit g < o + size then (s, .fault ⟨fcSegLimit, offInfo seg o⟩)
    else if o % 128 ≠ 0 || a / 8192 ≠ (a + (size - 1)) / 8192 then (s, .fault ⟨fcMisalign, offInfo seg o⟩)
    else
      match s.translate w.rid a false with
      | .error e => (s, .fault e)
      | .ok loc =>
        let ds := mcastDests (s.readRegs c.uid 0 .s (bitsAt x 44 8) 2) (bitsAt x 58 6) (bitsAt x 54 4)
        if ds.any (fun d => 47 < d.1) then (s, .fault illegal7)
        else
          match (ds.filter (fun d => !s.inPart w.rid d.1)).head? with
          | some d => (s, .fault ⟨fcPermission, d.1 + d.2 % 4 * 2 ^ 6⟩)
          | none =>
            if w.tokPending k l then (s, .fault illegal7)
            else if ds.isEmpty then (s, .ok { st := admitted c })
            else
              let r := s.region? w.rid
              let q : MReq :=
                { id := s.fresh, uid := c.uid, lane := l, tok := k, rid := w.rid, step := (r.map (fun r => r.stepno)).getD 0,
                  win := (r.bind (fun r => r.part)).getD 8, va := a, loc := loc, size := size, dests := ds, hint := hintPrio f.hint, waits := false, entry := none, late := false,
                  view := s.opView }
              let s := s.updWave c.uid (fun w => w.setTok k l true)
              ({ s with fresh := s.fresh + 1, flight := { s.flight with mreqs := s.flight.mreqs ++ [q] } }, .ok { st := admitted c })
  | _, _ => (s, .fault illegal7)

def execLdmc (h : Hdr) (f : MemFn) (x : BitVec 64) (s : State) : Out := runMem 0x87 h f x (ldmcLane f) (fun _ s => s) s

end Sys2Proof.Machine
end

