-- ==== Sys2Proof/Machine/Buffers.lean ====
section
/-!
DEFINITION. Circular buffers and their claims, and the slots of the cluster task scheduler (R258 to R271).
-/

namespace Sys2Proof.Machine

def runEng (op : BitVec 8) (h : Hdr) (f : EngFn) (x : BitVec 64) (g : Ctx → State → Nat → State × LaneRes)
    (post : Ctx → State → State) (s : State) : Out :=
  .next (runPacketThen (enc op h (engFnBits f) x) (memWise g) post s)

/-- A uniform instruction of the engine layouts. -/
def runEngU (op : BitVec 8) (h : Hdr) (f : EngFn) (x : BitVec 64) (g : Ctx → State → Nat → State × Except LFault UniOut)
    (s : State) : Out :=
  .next (runPacket (enc op h (engFnBits f) x) (uniMem g) s)

/-- Changes the schedulers' state. -/
def State.updCts (s : State) (f : Cts → Cts) : State := { s with cts := f s.cts }

/-! ## Buffers (R264) -/

def State.cbuf? (s : State) (cl cb : Nat) : Option Cbuf := s.cts.cbufs.find? (fun x => x.cl = cl && x.cb = cb)

def State.setCbuf (s : State) (x : Cbuf) : State :=
  s.updCts (fun c => { c with cbufs := x :: c.cbufs.filter (fun y => !(y.cl = x.cl && y.cb = x.cb)) })

def State.updCbuf (s : State) (cl cb : Nat) (f : Cbuf → Cbuf) : State :=
  s.updCts (fun c => { c with cbufs := c.cbufs.map (fun x => if x.cl = cl && x.cb = cb then f x else x) })

/-- The count and the room; 0 for an uninitialised buffer. -/
def Cbuf.count (x : Cbuf) : Nat := (x.pcm + 2 ^ 32 - x.crv) % 2 ^ 32
def Cbuf.room (x : Cbuf) : Nat := x.size - (x.prv + 2 ^ 32 - x.crl) % 2 ^ 32

def State.cbCount (s : State) (cl cb : Nat) : Nat := ((s.cbuf? cl cb).map (fun x => x.count)).getD 0
def State.cbRoom (s : State) (cl cb : Nat) : Nat := ((s.cbuf? cl cb).map (fun x => x.room)).getD 0

/-- A count and a ring offset that advance or go back by `n`. -/
def addCount (p n : Nat) : Nat := (p + n) % 2 ^ 32
def subCount (p n : Nat) : Nat := (p + 2 ^ 32 - n % 2 ^ 32) % 2 ^ 32
def addRing (o n size : Nat) : Nat := (o + n) % size
def subRing (o n size : Nat) : Nat := (o + size - n % size) % size

/-- The producer or consumer claim pointer advances. -/
def Cbuf.claim (x : Cbuf) (prod : Bool) (n : Nat) : Cbuf :=
  if prod then { x with prv := addCount x.prv n, prvO := addRing x.prvO n x.size }
  else { x with crv := addCount x.crv n, crvO := addRing x.crvO n x.size }

/-- What an advance or a release follows is seen by those who observe it (R226, R227). -/
def Cbuf.note (x : Cbuf) (prod : Bool) (v : List Nat) : Cbuf :=
  if prod then { x with pview := joinIds x.pview v } else { x with cview := joinIds x.cview v }

/-- The claim pointer goes back (R269, R271). -/
def Cbuf.rewind (x : Cbuf) (prod : Bool) (n : Nat) : Cbuf :=
  if prod then { x with prv := subCount x.prv n, prvO := subRing x.prvO n x.size }
  else { x with crv := subCount x.crv n, crvO := subRing x.crvO n x.size }

/-- The commit or release pointer advances. -/
def Cbuf.advance (x : Cbuf) (prod : Bool) (n : Nat) : Cbuf :=
  if prod then { x with pcm := addCount x.pcm n, pcmO := addRing x.pcmO n x.size }
  else { x with crl := addCount x.crl n, crlO := addRing x.crlO n x.size }

/-- The byte at a ring offset. -/
def Cbuf.loc (x : Cbuf) (o : Nat) : Loc :=
  let a := x.ring + o % x.size
  if x.seg3 then sharedLoc (x.cl + 48 * x.ctx) a else coreLoc (x.cl + 48 * x.ctx) x.core a

/-- `n` bytes from a ring offset. -/
def Cbuf.locs (x : Cbuf) (o n : Nat) : List Loc := (List.range n).map (fun i => x.loc (o + i))

/-- The pad bit of the 2-byte unit that a byte of local store lies in (R295). -/
def State.padOf (s : State) (l : Loc) : Bool :=
  match l with | .loc k => Sparse.get false s.pads (k / 2) | _ => false

/-! ## Waits on a buffer (R280) -/

/-- Does a thread wait on buffer `cb`, and is its condition met? -/
def waitsCbuf (cb count room : Nat) (t : Thread) : Bool :=
  match t.st with | .syncWait (.cbuf b n r) _ _ => b = cb && n ≤ (if r then room else count) | _ => false

/-- What happens before the advances that a count shows, or the releases that a room shows (R226, R227). -/
def State.cbView (s : State) (cl cb : Nat) (room : Bool) : List Nat :=
  ((s.cbuf? cl cb).map (fun x => if room then x.cview else x.pview)).getD []

/-- Evaluates the waits on a buffer. -/
def State.evalCbuf (s : State) (cl cb : Nat) : State :=
  s.waves.foldl (fun s w =>
    if w.cl = cl then
      (w.lanesWhere (fun _ t => waitsCbuf cb (s.cbCount cl cb) (s.cbRoom cl cb) t)).foldl (fun s l =>
        let room := match (s.thread w.uid l).st with | .syncWait (.cbuf _ _ r) _ _ => r | _ => false
        (s.joinLane (s.cbView cl cb room) w.uid l).release w.uid l) s
    else s) s

/-! ## Claims (R264, R267, R271) -/

/-- Takes the advances and rewinds at the head of a side's claim order. -/
def State.advanceSide (cl cb : Nat) (prod : Bool) : Nat → State → State
  | 0, s => s
  | k + 1, s =>
    match findIdx (fun c => c.cl = cl && c.cb = cb && c.prod == prod) s.cts.claims with
    | none => s
    | some (i, c) =>
      match c.fate with
      | none => s
      | some go =>
        let s := s.updCts (fun t => { t with claims := t.claims.eraseIdx i })
        State.advanceSide cl cb prod k (s.updCbuf cl cb (fun x => if go then (x.advance prod c.n).note prod c.view else x.rewind prod c.n))

/-- Gives the open claims of an owner on a side their fate, and takes what can be taken. -/
def State.settleClaim (s : State) (cl cb : Nat) (prod : Bool) (o : Owner2) (go : Bool) : State :=
  let s := s.updCts (fun t => { t with claims := t.claims.map (fun c =>
    if c.cl = cl && c.cb = cb && c.prod == prod && c.owner = o && c.fate.isNone then { c with fate := some go, view := s.opView } else c) })
  (State.advanceSide cl cb prod s.cts.claims.length s).evalCbuf cl cb

/-- The order of R260 and R264: the clk, then the slot, or a later place for a copy or transfer. -/
def askKey (clk x : Nat) : Nat := clk * 2 ^ 64 + x

/-- Does a task name a buffer on a side? -/
def Task.names (t : Task) (cb : Nat) (prod : Bool) : Bool :=
  if prod then (match t.out with | some p => p.1 = cb | none => false)
  else t.ins.any (fun e => match e with | some p => p.1 = cb | none => false)

/-- Has somebody with an earlier place asked for a claim on a side and not been granted it? -/
def State.earlier (s : State) (cl cb : Nat) (prod : Bool) (key : Nat) : Bool :=
  s.cts.tasks.any (fun t => t.cl = cl && t.st = .ready && t.names cb prod && t.asked < key) ||
  (prod &&
    (s.cts.copies.any (fun c => c.cl = cl && c.cb = cb && c.asked < key) ||
     s.cts.xfers.any (fun x => x.cb = cb && x.asked < key && x.dsts.any (fun d =>
       d.1 = cl && (match d.2 with | .asked => true | .claimed _ => x.sent < x.total | _ => false)))))

/-- Can a claim of `n` bytes be granted now? -/
def State.grantable (s : State) (cl cb : Nat) (prod : Bool) (key n : Nat) : Bool :=
  match s.cbuf? cl cb with
  | none => false
  | some x =>
    (if prod then x.pe && n ≤ x.room else x.ce && n ≤ x.count) &&
    !s.earlier cl cb prod key &&
    !s.cts.claims.any (fun c => c.cl = cl && c.cb = cb && c.prod == prod && c.spec)

/-- Grants a claim; its ring offset is that of the claim pointer before. -/
def State.grantClaim (s : State) (cl cb : Nat) (prod : Bool) (o : Owner2) (spec : Bool) (n : Nat) : State × Nat :=
  let off := ((s.cbuf? cl cb).map (fun x => if prod then x.prvO else x.crvO)).getD 0
  ((s.updCts (fun t => { t with claims := t.claims ++ [⟨cl, cb, prod, o, spec, n, off, none, []⟩] })).updCbuf cl cb
    (fun x => x.claim prod n), off)

/-- A bus transfer's claim grows by a beat (R246, R247). -/
def State.growClaim (s : State) (cl cb id n : Nat) : State :=
  (s.updCts (fun t => { t with claims := t.claims.map (fun c =>
    if c.cl = cl && c.cb = cb && c.prod && c.owner = .bus id then { c with n := c.n + n } else c) })).updCbuf cl cb (fun x => x.claim true n)

/-! ## Who holds a buffer (R266) -/

def State.gang? (s : State) (gid : Nat) : Option Gang := s.wd.gangs.find? (fun g => g.gid = gid)

/-- Does a gang hold a buffer of its cluster? -/
def State.holds (s : State) (gid cb : Nat) : Bool :=
  match s.gang? gid with | some g => g.cblo ≤ cb && cb < g.cblo + g.cbn | none => false

/-- Does a gang of a region hold the buffer of a cluster? -/
def State.regionHolds (s : State) (rid cl cb : Nat) : Bool :=
  s.wd.gangs.any (fun g => g.rid = rid && g.cl = cl && g.cblo ≤ cb && cb < g.cblo + g.cbn)

/-- Is a copy or transfer of a region to a buffer dropped (R265, R266)? -/
def State.drops (s : State) (rid cl cb : Nat) : Bool :=
  !s.regionHolds rid cl cb || (match s.cbuf? cl cb with | some x => !x.pe | none => false)

/-! ## Task slots and ids (R258, R259) -/

def State.task? (s : State) (cl slot : Nat) : Option Task := s.cts.tasks.find? (fun t => t.cl = cl && t.slot = slot)

def State.updTask (s : State) (cl slot : Nat) (f : Task → Task) : State :=
  s.updCts (fun c => { c with tasks := c.tasks.map (fun t => if t.cl = cl && t.slot = slot then f t else t) })

def State.genOf (s : State) (cl slot : Nat) : Nat := Sparse.get 0 s.cts.gens (256 * cl + slot)

def Task.id (t : Task) : Nat := t.slot + 2 ^ 8 * t.gen + 2 ^ 15

def Task.spec (t : Task) : Bool := bitAt t.opts 0
def Task.irq (t : Task) : Bool := bitAt t.opts 1
def Task.rowcast (t : Task) : Bool := bitAt t.opts 2
def Task.colcast (t : Task) : Bool := bitAt t.opts 3
def Task.keep (t : Task) : Bool := bitAt t.opts 5

/-- What a task id names (R259). -/
inductive IdRef
  | invalid
  | current (t : Task)
  | retired
  | unposted
  deriving DecidableEq, Repr

def State.taskOf (s : State) (cl id : Nat) : IdRef :=
  let slot := bitsAt id 0 8
  let gen := bitsAt id 8 7
  if !bitAt id 15 then .invalid
  else if s.genOf cl slot ≠ gen then .retired
  else match s.task? cl slot with | some t => .current t | none => .unposted

/-- The lowest free slot of a cluster. -/
def State.freeSlot (s : State) (cl : Nat) : Option Nat := (List.range 256).find? (fun k => (s.task? cl k).isNone)

/-- What TKWAIT writes: status and KIND (R276). -/
def Task.report (t : Task) : Nat := t.status + 2 ^ 8 * t.kind

def waitsTask (id : Nat) (t : Thread) : Option Nat :=
  match t.st with | .syncWait (.task i d) _ _ => if i = id then some d else none | _ => none

/-- Is a return of TKWAIT with a status, or from spec-done, a join of the task's accesses (R276)? -/
def Task.joins (t : Task) : Bool := t.status = 0 || t.st = .specDone

/-- Releases the threads that wait on a task id, each with its result; `view` is what happens before their returns. -/
def State.releaseTkwait (s : State) (cl id val : Nat) (view : List Nat) : State :=
  s.waves.foldl (fun s w =>
    if w.cl = cl then
      (w.lanesWhere (fun _ t => (waitsTask id t).isSome)).foldl (fun s l =>
        match waitsTask id (s.thread w.uid l) with
        | some d => ((s.addPend ⟨w.uid, [l], [(.v d l, BitVec.ofNat 32 val)], [], none, []⟩).joinLane view w.uid l).release w.uid l
        | none => s) s
    else s) s

/-- Is there a thread that waits on a task id? -/
def State.anyTkwait (s : State) (cl id : Nat) : Bool :=
  s.waves.any (fun w => w.cl = cl && !(w.lanesWhere (fun _ t => (waitsTask id t).isSome)).isEmpty)

/-- The threads that wait on a task get its status and KIND. -/
def State.reportTask (s : State) (t : Task) : State := s.releaseTkwait t.cl t.id t.report (if t.joins then t.view else [])

/-- Frees a slot: its generation advances, and threads that wait on the id get RETIRED (R258, R269, R276). -/
def State.freeTask (s : State) (t : Task) : State :=
  let s := s.updCts (fun c =>
    { c with tasks := c.tasks.filter (fun x => !(x.cl = t.cl && x.slot = t.slot)),
             gens := Sparse.put 0 c.gens (256 * t.cl + t.slot) ((t.gen + 1) % 128) })
  s.releaseTkwait t.cl t.id 0xFF []

/-- The end of a slot's occupation (R268 step 6): done if KEEP is set, and free otherwise. Waiters collect a kept status at once. -/
def State.retireTask (s : State) (t : Task) (status : Nat) : State :=
  if t.keep then
    let t' := { t with st := TaskSt.done, status := status }
    let s' := s.updTask t.cl t.slot (fun _ => t')
    if s'.anyTkwait t.cl t.id then (s'.reportTask t').freeTask t' else s'
  else s.freeTask t

/-- The token named at posting clears; the task flags of a direct MMA or MMAS reach the lane first (R268 step 4, R311, R315). -/
def State.clearTaskTok (s : State) (t : Task) : State :=
  match t.tok with
  | none => s
  | some j => (if t.direct && (t.kind = 3 || t.kind = 4) then s.orFlags t.uid t.lane (BitVec.ofNat 7 t.fl) else s).clearTok t.uid j t.lane

/-- An index enters a wave's pending set (R186). -/
def State.raiseUi (s : State) (uid idx : Nat) : State :=
  (s.updWave uid (fun w => { w with uiPend := sortedSet (idx :: w.uiPend.filter (fun i => i ≠ idx)), uiView := joinIds w.uiView s.opView })).noteIdle (fun w => w.uid = uid) 1

/-- A completion raises its event (R268 step 5). -/
def State.raiseEvent (s : State) (cl evt : Nat) : State :=
  match s.cts.binds.find? (fun b => b.cl = cl && b.evt = evt) with
  | some b => s.raiseUi b.uid b.idx
  | none => s.count (clReg cl 4) 32 1

/-- A task becomes ready (R258), at a clk. A completion acts in the clk after the slot's packets (R260, log 4); what it follows happens before the accesses of
the task that it makes ready (R226). -/
def State.makeReady (s : State) (t : Task) (clk : Nat) : State :=
  s.updTask t.cl t.slot (fun t =>
    { t with ctr := 0, st := .ready, asked := askKey clk t.slot, since := s.clk, view := joinIds t.view s.opView })

/-- Decrements a successor's counter (R268 step 3). -/
def State.succDone (s : State) (cl id : Nat) : State :=
  if id = 0 then s
  else
    match s.taskOf cl id with
    | .current t =>
      if t.st = .waiting then
        if t.ctr ≤ 1 then s.makeReady t (s.clk + 1)
        else s.updTask cl t.slot (fun t => { t with ctr := t.ctr - 1, view := joinIds t.view s.opView })
      else s.count (clReg cl 3) 32 1
    | _ => s.count (clReg cl 3) 32 1

/-- The inputs of a task are released or rewound; its output advances or is rewound. -/
def State.settleIns (s : State) (t : Task) (go : Bool) : State :=
  t.ins.foldl (fun s e => match e with | some p => s.settleClaim t.cl p.1 false (.task t.slot) go | none => s) s

def State.settleOut (s : State) (t : Task) (go : Bool) : State :=
  match t.out with | some p => s.settleClaim t.cl p.1 true (.task t.slot) go | none => s

/-- A task in the waiting or ready state is freed without running, with a status (R266, R277): its token clears. -/
def State.dropTask (s : State) (t : Task) (status : Nat) : State :=
  let s := s.asService (fun s => ((s.clearTaskTok t).reportTask { t with status := status }).freeTask t)
  ((t.ins ++ [t.out]).filterMap id).foldl (fun s p => s.evalCbuf t.cl p.1) s

/-! ## Completion (R268, R269, R271, R277) -/

/-- Does a transfer of the task still move? -/
def State.xferBusy (s : State) (t : Task) : Bool :=
  s.cts.xfers.any (fun x => x.cl = t.cl && x.slot = t.slot && x.gen = t.gen &&
    !(x.sent = x.total && x.dsts.all (fun d => d.2 = .over || d.2 = .dropped)))

/-- The transfers of a task leave the buses; claims of destinations that have not advanced are rewound. -/
def State.endXfers (s : State) (t : Task) : State :=
  let mine := fun (x : Xfer) => x.cl = t.cl && x.slot = t.slot && x.gen = t.gen
  let s := (s.cts.xfers.filter mine).foldl (fun s x => x.dsts.foldl (fun s d => s.settleClaim d.1 x.cb true (.bus x.id) false) s) s
  s.updCts (fun c => { c with xfers := c.xfers.filter (fun x => !mine x) })

/-- The translation cache of a task's engine (R429): that of its GSE, or its cluster's. -/
def Task.tlb (t : Task) : TlbAt := match t.kind with | 5 | 6 | 0x0A => .gse (4 * (t.cl % 16) + t.unit) | _ => .cluster t.cl

/-- The task's engine acts. -/
def State.asTask (s : State) (t : Task) : State := s.asOp (.task t.cl t.slot) t.tlb t.view

/-- The task's engine has acted: its later accesses, and what follows the task, follow its accesses. -/
def State.taskDone (s : State) (t : Task) : State :=
  let v := s.opView
  (s.updTask t.cl t.slot (fun t => { t with view := joinIds t.view v })).opDone

/-- The steps of a completion (R268). -/
def State.completeSteps (s : State) (t : Task) (st : Nat) : State :=
  let held := t.spec && t.mark ≠ some true
  let discard := held && t.mark = some false
  let st' := if st = 0 && discard then 3 else st
  let t := { t with fin := none }
  -- steps 1 and 2
  let s :=
    if st ≠ 0 then (s.settleIns t true).settleOut t false
    else if discard then (s.settleIns t false).settleOut t false
    else if held then s
    else (s.settleIns t true).settleOut t true
  -- step 3
  let s := if st = 0 && !held then t.succ.foldl (fun s i => s.succDone t.cl i) s else s
  -- steps 4 and 5
  let s := s.clearTaskTok t
  let s := if t.irq then s.raiseEvent t.cl t.evt else s
  let s := s.endXfers t
  -- step 6
  if t.spec && t.mark.isNone then
    let t' := { t with st := TaskSt.specDone, status := st', since := s.clk }
    (s.updTask t.cl t.slot (fun _ => t')).reportTask t'
  else if discard then (s.reportTask { t with status := st' }).freeTask t
  else s.retireTask t st'

/-- The completion of a task whose work is over with status `st`: every step follows the task's accesses, which are then over (R268). -/
def State.completeTask (s : State) (t : Task) (st : Nat) : State :=
  (((s.dropRops (.task t.cl t.slot)).asTask t |>.flushEnd t.rid |>.completeSteps t st).noteEnd t.rid t.uid).opDone.endReads (.task t.cl t.slot)

/-- TKCMT and TKDIS on a task in spec-done (R271, R277). -/
def State.endSpec (s : State) (t : Task) (commit : Bool) : State :=
  let s := if t.status = 0 then s.asService (fun s => s.asTask t |>.settleIns t commit |>.settleOut t commit) else s
  if commit then s.retireTask t t.status else (s.reportTask { t with status := 3 }).freeTask t

/-- The work of a running task is over. -/
def State.finishTask (s : State) (t : Task) (status : Nat) : State :=
  s.updTask t.cl t.slot (fun x => { x with fin := some status, fault := none })

end Sys2Proof.Machine
end

