-- ==== Sys2Proof/Machine/Tasks.lean ====
section
/-!
DEFINITION. Task and circular-buffer instructions, 0xA0 to 0xAB (R273 to R283), the posting of a task (R263, R274), and its
firing and completion (R267, R268, R308, R339).
-/

namespace Sys2Proof.Machine

/-! ## The record (R261 to R263) -/

/-- The kinds of R262. -/
def kindOk (k : Nat) : Bool := 1 ≤ k && k ≤ 0x0B

/-- A cbuf entry of a record: buffer and units. -/
def entryOf (e : Nat) : Option (Nat × Nat) := if bitAt e 7 then some (bitsAt e 0 6, bitsAt e 8 16) else none

def recIns (r : Nat) : List (Option (Nat × Nat)) := [entryOf (bitsAt r 96 24), entryOf (bitsAt r 120 24), entryOf (bitsAt r 144 24)]
def recOut (r : Nat) : Option (Nat × Nat) := entryOf (bitsAt r 168 24)
def recSuccs (r : Nat) : List Nat := [bitsAt r 32 16, bitsAt r 48 16, bitsAt r 64 16, bitsAt r 80 16]

/-- No value of a list stands in it twice. -/
def noTwice (l : List Nat) : Bool := match l with | [] => true | x :: xs => !xs.contains x && noTwice xs

/-- Is a record refused at its post (R263, R304)? -/
def State.recordBad (s : State) (w : Wave) (r : Nat) : Bool :=
  let kind := bitsAt r 0 8
  let spec := bitAt r 8
  let ins := recIns r
  let out := recOut r
  let es := (ins ++ [out]).filterMap id
  let insU := ins.filterMap id
  !kindOk kind || bitsAt r 14 2 ≠ 0 || bitsAt r 30 2 ≠ 0 ||
  [96, 120, 144, 168].any (fun i => bitAt r (i + 6)) ||
  (recSuccs r).any (fun i => i ≠ 0 && !bitAt i 15) ||
  es.any (fun p => p.2 = 0) ||
  !noTwice (insU.map (fun p => p.1)) ||
  es.any (fun p => !s.holds w.gid p.1) ||
  (spec && ((recSuccs r).any (fun i => i ≠ 0) || out.isNone || !s.granted 4)) ||
  (match out with
    | some p => (match s.cbuf? w.cl p.1 with | some x => !x.pe | none => false)
    | none => false) ||
  insU.any (fun p => match s.cbuf? w.cl p.1 with | some x => !x.ce | none => false) ||
  (kind = 0x0B && (!es.isEmpty || bitAt r 10 || bitAt r 11))

/-- A posted task in its slot (R274). -/
def State.newTask (s : State) (w : Wave) (lane slot r : Nat) (tok : Option Nat) (direct : Bool) (src : Nat × Nat × Nat)
    (body lrec : Option Nat) : Task :=
  let deps := bitsAt r 16 8
  { cl := w.cl, slot := slot, gen := s.genOf w.cl slot, st := if deps = 0 then .ready else .waiting,
    kind := bitsAt r 0 8, opts := bitsAt r 8 8, evt := bitsAt r 24 6, succ := recSuccs r, ins := recIns r, out := recOut r,
    ctr := deps, status := 0, asked := askKey s.clk slot, since := s.clk, uid := w.uid, lane := lane, tok := tok, rid := w.rid,
    gid := w.gid, step := ((s.region? w.rid).map (fun r => r.stepno)).getD 0, direct := direct, src := src, body := body,
    lrec := lrec, unit := 0, iOff := [], oOff := 0, mark := none, fin := none, fault := none, susp := false, prog := 0,
    acc := [], rd := 0, dv := 0, sc := 0, fl := 0, codes := [], frecs := [], rmt := none, view := s.opView }

/-- Posts a task in a slot; its token becomes pending (R274, R315). -/
def State.postTask (s : State) (t : Task) : State :=
  let s := s.updCts (fun c => { c with tasks := c.tasks ++ [t] })
  match t.tok with
  | some j => s.updWave t.uid (fun w => w.setTok j t.lane true)
  | none => s

/-- The token that a "tok" field names (R273). -/
def tokField (v : Nat) : Option Nat := if bitAt v 4 then some (v % 16) else none

/-- Is a token pending in a lane? -/
def State.tokBusy (s : State) (uid lane : Nat) (tok : Option Nat) : Bool :=
  match tok, s.wave? uid with | some j, some w => w.tokPending j lane | _, _ => false

/-- The core whose local store an engine read of a wave addresses, its context included. -/
def Wave.coreKey (w : Wave) : Nat := 4 * (w.cl + 48 * w.ctx) + w.core

def tkpostLane (f : EngFn) (c : Ctx) (s : State) (l : Nat) : State × LaneRes :=
  match s.wave? c.uid with
  | none => (s, .ok {})
  | some w =>
    let o := s.readRegs c.uid l (c.e.kindOf .a) (c.e.field .a) 2 % 2 ^ 56
    let seg := f.sub.toNat
    let tok := tokField c.e.h.b.toNat
    let w := w.atIssue l
    if s.tokBusy c.uid l tok then (s, .fault illegal7)
    else
      match s.locate w l seg o 64 false 64 with
      | .error e => (s, .fault e)
      | .ok ls =>
        match s.freeSlot w.cl with
        | none => (s.count (clReg w.cl 6) 32 1, .ok { regs := regWrites l .v c.e.h.d.toNat 1 0xFFFFFFFF, st := admitted c })
        | some slot =>
          match s.ueAt (ls.take 24) with
          | some a => (s, .fault ⟨fcMemUe, a⟩)
          | none =>
            match s.bytesAt (ls.take 24) with
            | .error e => (s, .fault e)
            | .ok bs =>
              let r := leNat bs
              let s := s.noteRead ((ls.take 24).map (fun x => x.2)) none
              if s.recordBad w r then (s, .fault illegal7)
              else
                let t := s.newTask w l slot r tok false (seg, w.byteAddr l seg o 0, w.coreKey) none none
                (s.postTask t, .ok { regs := regWrites l .v c.e.h.d.toNat 1 t.id, st := admitted c })

def execTkpost (h : Hdr) (f : EngFn) (x : BitVec 64) (s : State) : Out := runEng 0xA0 h f x (tkpostLane f) (fun _ s => s) s

/-- The id that A holds. -/
def State.taskId (s : State) (c : Ctx) (l : Nat) : Nat := s.srcCount c l .a % 2 ^ 16

/-- An operation on the task that A names; an id that is not current raises HANDLE, an invalid one ILLEGAL (R259). -/
def onTask (g : Ctx → State → Nat → Task → State × LaneRes) (c : Ctx) (s : State) (l : Nat) : State × LaneRes :=
  match s.wave? c.uid with
  | none => (s, .ok {})
  | some w =>
    let i := s.taskId c l
    match s.taskOf w.cl i with
    | .invalid => (s, .fault illegal7)
    | .current t => g c s l t
    | _ => (s, .fault ⟨fcHandle, i⟩)

def execTkdep (h : Hdr) (f : EngFn) (x : BitVec 64) (s : State) : Out :=
  runEng 0xA1 h f x (onTask (fun c s l t =>
    let n := s.srcCount c l .b
    let ok := t.st = .waiting && t.ctr + n ≤ 255
    (if ok then s.updTask t.cl t.slot (fun t => { t with ctr := t.ctr + n }) else s,
      .ok { preds := [(h.d.toNat, ok)] }))) (fun _ s => s) s

def execTksig (h : Hdr) (f : EngFn) (x : BitVec 64) (s : State) : Out :=
  runEng 0xA2 h f x (onTask (fun c s l t =>
    let n := s.srcCount c l .b
    let ok := t.st = .waiting && n ≤ t.ctr
    (if !ok then s else if n = t.ctr then s.makeReady t s.clk else s.updTask t.cl t.slot (fun t => { t with ctr := t.ctr - n }),
      .ok { preds := [(h.d.toNat, ok)] }))) (fun _ s => s) s

/-- TKWAIT returns at once where the task is done, in spec-done, or retired (R276). A done task is freed after the release. -/
def tkwaitLane (c : Ctx) (s : State) (l : Nat) : State × LaneRes :=
  match s.wave? c.uid with
  | none => (s, .ok {})
  | some w =>
    let i := s.taskId c l
    let d := c.e.h.d.toNat
    match s.taskOf w.cl i with
    | .invalid => (s, .fault illegal7)
    | .unposted => (s, .fault ⟨fcHandle, i⟩)
    | .retired => (s, .ok { regs := regWrites l .v d 1 0xFF })
    | .current t =>
      if t.st = .done || t.st = .specDone then (if t.joins then s.joinLane t.view c.uid l else s, .ok { regs := regWrites l .v d 1 t.report })
      else (s, .ok { st := some (.syncWait (.task i d) c.next c.e.h.s) })

/-- The done tasks among the ids that a wave's TKWAIT has named are freed. -/
def State.collectDone (s : State) (uid : Nat) (ids : List Nat) : State :=
  ids.foldl (fun s i =>
    match s.wave? uid with
    | none => s
    | some w =>
      match s.taskOf w.cl i with
      | .current t => if t.st = .done then s.freeTask t else s
      | _ => s) s

/-- TKWAIT in a wave: every lane of the packet collects before a done task is freed (R276). -/
def tkwaitBody (c : Ctx) (s : State) : State × WaveOut :=
  let r := memWise tkwaitLane c s
  (r.1.collectDone c.uid (c.on.map (s.taskId c)), r.2)

def execTkwait (h : Hdr) (f : EngFn) (x : BitVec 64) (s : State) : Out := .next (runPacket (enc 0xA3 h (engFnBits f) x) tkwaitBody s)

def execTkcmt (h : Hdr) (f : EngFn) (x : BitVec 64) (s : State) : Out :=
  runEng 0xA4 h f x (onTask (fun _ s _ t =>
    if !t.spec || t.mark = some false then (s, .fault illegal7)
    else
      match t.st with
      | .waiting | .ready => (s.updTask t.cl t.slot (fun t => { t with opts := t.opts - 1 }), .ok {})
      | .running => (s.updTask t.cl t.slot (fun t => { t with mark := some true }), .ok {})
      | .specDone => (s.endSpec t true, .ok {})
      | .done => (s, .fault illegal7))) (fun _ s => s) s

def execTkdis (h : Hdr) (f : EngFn) (x : BitVec 64) (s : State) : Out :=
  runEng 0xA5 h f x (onTask (fun _ s _ t =>
    match t.st with
    | .waiting | .ready => (s.dropTask t 3, .ok {})
    | .running =>
      if !t.spec then (s, .fault illegal7)
      else (s.updTask t.cl t.slot (fun t => { t with mark := some false }), .ok {})
    | .specDone => (s.endSpec t false, .ok {})
    | .done => (s, .fault illegal7))) (fun _ s => s) s

/-! ## Buffer instructions (R278 to R281) -/

/-- An instruction on buffer `cb` of a wave's cluster: a buffer that the gang does not hold raises PERMISSION (R266). -/
def onCbuf (cb : Nat) (g : Ctx → State → Nat → Wave → State × LaneRes) (c : Ctx) (s : State) (l : Nat) : State × LaneRes :=
  match s.wave? c.uid with
  | none => (s, .ok {})
  | some w => if s.holds w.gid cb then g c s l w else (s, .fault ⟨fcPermission, cb⟩)

def cbiniLane (f : EngFn) (c : Ctx) (s : State) (l : Nat) (w : Wave) : State × LaneRes :=
  let cb := c.e.h.d.toNat
  let sub := f.sub.toNat
  let seg := if bitAt sub 0 then 3 else 2
  let o := s.srcCount c l .a
  let size := s.srcCount c l .b
  let a := (segBaseOf (w.seg seg) + o) % 2 ^ 56
  if size % 32 ≠ 0 || size < 32 || 262144 < size then (s, .fault illegal7)
  else if o % 32 ≠ 0 then (s, .fault ⟨fcMisalign, offInfo seg o⟩)
  else if segLimit (w.seg seg) < o + size || s.outside w seg a size then (s, .fault ⟨fcSegLimit, offInfo seg o⟩)
  else if s.cts.claims.any (fun q => q.cl = w.cl && q.cb = cb) ||
      s.cts.tasks.any (fun t => t.cl = w.cl && t.st ≠ .done && (t.names cb true || t.names cb false)) then (s, .fault illegal7)
  else
    (s.setCbuf { cl := w.cl, cb := cb, seg3 := bitAt sub 0, core := w.core, ctx := w.ctx, ring := a, size := size,
                 pe := bitAt sub 1, ce := bitAt sub 2, prv := 0, pcm := 0, crv := 0, crl := 0, prvO := 0, pcmO := 0,
                 crvO := 0, crlO := 0, pview := [], cview := [] }, .ok {})

def execCbini (h : Hdr) (f : EngFn) (x : BitVec 64) (s : State) : Out :=
  runEng 0xA6 h f x (onCbuf h.d.toNat (cbiniLane f)) (fun c s => match s.wave? c.uid with | some w => s.evalCbuf w.cl h.d.toNat | none => s) s

/-- CBPSH (`prod`) and CBPOP (R279): the claim and the commit or release pointer advance together; 0 changes nothing. -/
def pushPop (prod : Bool) (c : Ctx) (s : State) (l : Nat) (w : Wave) : State × LaneRes :=
  let cb := c.e.h.d.toNat
  let n := s.srcCount c l .b
  match s.cbuf? w.cl cb with
  | none => (s, .fault illegal7)
  | some x =>
    if (if prod then x.pe else x.ce) || n % 32 ≠ 0 || (if prod then x.room else x.count) < n then (s, .fault illegal7)
    else if n = 0 then (s, .ok {})
    else (s.updCbuf w.cl cb (fun x => ((x.claim prod n).advance prod n).note prod s.opView), .ok {})

def evalD (c : Ctx) (s : State) : State :=
  match s.wave? c.uid with | some w => s.evalCbuf w.cl c.e.h.d.toNat | none => s

def execCbpsh (h : Hdr) (f : EngFn) (x : BitVec 64) (s : State) : Out := runEng 0xA7 h f x (onCbuf h.d.toNat (pushPop true)) evalD s
def execCbpop (h : Hdr) (f : EngFn) (x : BitVec 64) (s : State) : Out := runEng 0xA8 h f x (onCbuf h.d.toNat (pushPop false)) evalD s

def cbwtLane (room : Bool) (c : Ctx) (s : State) (l : Nat) (w : Wave) : State × LaneRes :=
  let cb := c.e.h.d.toNat
  let n := s.srcCount c l .b
  match s.cbuf? w.cl cb with
  | none => (s, .fault illegal7)
  | some x =>
    if x.size < n || n % 32 ≠ 0 then (s, .fault illegal7)
    else if n ≤ (if room then x.room else x.count) then (s.joinLane (s.cbView w.cl cb room) c.uid l, .ok {})
    else (s, .ok { st := some (.syncWait (.cbuf cb n room) c.next c.e.h.s) })

def execCbwt (h : Hdr) (f : EngFn) (x : BitVec 64) (s : State) : Out :=
  runEng 0xA9 h f x (onCbuf h.d.toNat (cbwtLane (bitAt f.sub.toNat 0))) (fun _ s => s) s

/-- The four words of CBQRY (R281). -/
def State.cbWords (s : State) (cl cb : Nat) : List Nat :=
  match s.cbuf? cl cb with | some x => [x.count, x.room, x.prvO, x.crvO] | none => [0, 0, 0, 0]

def execCbqry (h : Hdr) (f : EngFn) (x : BitVec 64) (s : State) : Out :=
  runEng 0xAA h f x (onCbuf h.a.toNat (fun c s l w =>
    ((s.joinLane (s.cbView w.cl h.a.toNat false) c.uid l).joinLane (s.cbView w.cl h.a.toNat true) c.uid l, .ok { regs := regWrites l .v h.d.toNat 4 (wordsNat ((s.cbWords w.cl h.a.toNat).map (BitVec.ofNat 32))) }))) (fun _ s => s) s

/-! ## Events (R282) -/

/-- The bytes `va` to `va + n - 1`, each with its address. -/
def State.bytesOfVa (s : State) (rid va : Nat) (write : Bool) (n : Nat) : Except LFault (List (Nat × Loc)) :=
  match s.translateRange rid va write n with
  | .error e => .error e
  | .ok ls => .ok (((List.range n).map (fun i => (va + i) % 2 ^ 56)).zip ls)

/-- Reads `n` bytes at a device virtual address through a region's tables. -/
def State.readVa (s : State) (rid va n : Nat) : Except LFault Nat :=
  match s.bytesOfVa rid va false n with
  | .error e => .error e
  | .ok ls =>
    match s.ueAt ls with
    | some a => .error ⟨fcMemUe, a⟩
    | none => (match s.bytesAt ls with | .error e => .error e | .ok bs => .ok (leNat bs))

/-- The acting agent has read `n` bytes at a device virtual address: its later accesses may not precede the read (R230). -/
def State.noteVa (s : State) (rid va n : Nat) : State :=
  match s.bytesOfVa rid va false n with | .ok ls => s.noteRead (ls.map (fun x => x.2)) none | .error _ => s

/-- As readVa, with the read noted. -/
def State.readNoted (s : State) (rid va n : Nat) : Except LFault (State × Nat) :=
  match s.readVa rid va n with | .error e => .error e | .ok v => .ok (s.noteVa rid va n, v)

/-- The entry address in a handler table, of a kind: 0 user interrupt, 1 active message (R285); none where the entry is not valid. -/
def State.tableEntry (s : State) (rid tbl i kind : Nat) : Except LFault (Option Nat) :=
  if tbl = 0 then .ok none
  else
    match s.readVa rid (tbl + 8 * i) 8 with
    | .error e => .error e
    | .ok e => .ok (if bitAt e 63 && bitsAt e 62 1 = kind && bitsAt e 56 6 = 0 then some (bitsAt e 0 56) else none)

def evsetLane (clr : Bool) (c : Ctx) (s : State) (l : Nat) : State × LaneRes :=
  match s.wave? c.uid with
  | none => (s, .ok {})
  | some w =>
    let d := c.e.h.d.toNat
    let cur := s.cts.binds.find? (fun b => b.cl = w.cl && b.evt = d)
    let del := fun (s : State) => s.updCts (fun t => { t with binds := t.binds.filter (fun b => !(b.cl = w.cl && b.evt = d)) })
    if clr then
      (match cur with | some b => if b.uid = c.uid then del s else s | none => s, .ok {})
    else
      let b := s.srcCount c l .b
      if 255 < b then (s, .fault illegal7)
      else if (match cur with | some q => q.rid != w.rid | none => false) then (s, .fault ⟨fcPermission, d⟩)
      else
        match s.tableEntry w.rid w.htbl b 0 with
        | .error e => (s, .fault e)
        | .ok none => (s, .fault ⟨fcHandle, b⟩)
        | .ok (some _) => ((del (s.noteVa w.rid (w.htbl + 8 * b) 8)).updCts (fun t => { t with binds := t.binds ++ [⟨w.cl, d, w.uid, w.rid, b⟩] }), .ok {})

def execEvset (h : Hdr) (f : EngFn) (x : BitVec 64) (s : State) : Out :=
  runEng 0xAB h f x (evsetLane (bitAt f.sub.toNat 0)) (fun _ s => s) s

/-! ## Firing (R260, R262, R267, R308, R339, R353) -/

/-- The engines of R262: 0 TCE, 1 MXE, 2 GSE. -/
def engineOf (kind : Nat) : Nat :=
  match kind with | 3 | 4 => 1 | 5 | 6 | 0x0A => 2 | _ => 0

/-- Does a tile run on an MXE? A suspended tile leaves it free (R313, R357). -/
def State.tileOn (s : State) (cl u : Nat) : Bool := s.asu.tiles.any (fun t => t.cl = cl && t.unit = some u && !t.susp)

/-- Is an engine free? A TCE may work on a copy for the SVC (R434). A suspended task holds a TCE or GSE, and leaves an MXE free (R313, R337). The GSEs of a slice group serve three
clusters (R339). -/
def State.engineFree (s : State) (cl eng u : Nat) : Bool :=
  let busy := fun (t : Task) => t.st = .running && engineOf t.kind = eng && t.unit = u
  match eng with
  | 1 => !s.tileOn cl u && !s.cts.tasks.any (fun t => t.cl = cl && busy t && !t.susp)
  | 2 => !s.cts.tasks.any (fun t => t.cl % 16 = cl % 16 && busy t)
  | _ => !s.cts.tasks.any (fun t => t.cl = cl && busy t) && !s.svc.cows.any (fun x => x.cl = cl && x.unit = u)

/-- FAIR of the cluster's ASUCTL (R352). -/
def State.fair (s : State) (cl : Nat) : Nat := bitsAt (s.csr (clReg cl 7)) 16 4

/-- Does the next place of an MXE belong to an ordinary task although tiles wait (R353)? -/
def State.ordinaryNext (s : State) (cl u : Nat) : Bool :=
  s.fair cl ≠ 0 && s.fair cl ≤ Sparse.get 0 s.asu.run (4 * cl + u)

/-- Does a tile wait in the cluster's tile buffer for an MXE? -/
def State.tileWaits (s : State) (cl : Nat) : Bool := s.asu.tiles.any (fun t => t.cl = cl && t.unit.isNone)

/-- Can an engine take an ordinary task now? -/
def State.unitOpen (s : State) (cl eng u : Nat) : Bool :=
  s.engineFree cl eng u && (eng ≠ 1 || !s.tileWaits cl || s.ordinaryNext cl u)

/-- The core whose local store alone holds the ring of IN1 (R308). -/
def State.ringCore (s : State) (t : Task) : Option Nat :=
  match t.ins[1]? with
  | some (some p) => (s.cbuf? t.cl p.1).bind (fun x => if x.seg3 then none else some x.core)
  | _ => none

/-- The engines that may take a task now. -/
def State.unitsFor (s : State) (t : Task) : List Nat :=
  let eng := engineOf t.kind
  let n := if eng = 0 then 2 else 4
  let openU := (List.range n).filter (fun u => s.unitOpen t.cl eng u)
  if eng = 1 then
    match s.ringCore t with
    | some u => if openU.contains u then [u] else openU
    | none => openU.take 1
  else openU

/-- Would every claim of a task be granted now (R267)? -/
def State.claimsOk (s : State) (t : Task) : Bool :=
  t.ins.all (fun e => match e with | some p => s.grantable t.cl p.1 false t.asked (32 * p.2) | none => true) &&
  (match t.out with | some p => s.grantable t.cl p.1 true t.asked (32 * p.2) | none => true)

/-- Tasks of one engine kind fire in the order of their readiness; one whose conditions are not met is passed over (R260). -/
def State.canFire (s : State) (t : Task) : Bool :=
  t.st = .ready && !(s.unitsFor t).isEmpty && s.claimsOk t &&
  !s.cts.tasks.any (fun q => q.cl = t.cl && q.st = .ready && engineOf q.kind = engineOf t.kind && q.asked < t.asked &&
    !(s.unitsFor q).isEmpty && s.claimsOk q)

/-- What happens before the counts and the room on which a task fires (R226, R227). -/
def State.firedBy (s : State) (t : Task) : List Nat :=
  (t.ins.filterMap id).foldl (fun v p => joinIds v (s.cbView t.cl p.1 false)) ((t.out.map (fun p => s.cbView t.cl p.1 true)).getD [])

/-- Grants every claim of a task. -/
def State.grantAll (s : State) (t : Task) : State × List Nat × Nat :=
  let r := t.ins.foldl (fun (acc : State × List Nat) e =>
    match e with
    | some p => let q := acc.1.grantClaim t.cl p.1 false (.task t.slot) t.spec (32 * p.2); (q.1, acc.2 ++ [q.2])
    | none => (acc.1, acc.2 ++ [0])) (s, [])
  match t.out with
  | some p => let q := r.1.grantClaim t.cl p.1 true (.task t.slot) t.spec (32 * p.2); (q.1, r.2, q.2)
  | none => (r.1, r.2, 0)

def execTaskFire (cl slot unit : Nat) (s : State) : Out :=
  .next (match s.task? cl slot with
    | none => s
    | some t =>
      if s.canFire t && (s.unitsFor t).contains unit then
        let g := s.grantAll t
        let v := s.firedBy t
        let s := g.1.updTask cl slot (fun t => { t with view := joinIds t.view v, st := .running, unit := unit, iOff := g.2.1, oOff := g.2.2, since := s.clk })
        let s := if engineOf t.kind = 1 then { s with asu := { s.asu with run := Sparse.put 0 s.asu.run (4 * cl + unit) 0 } } else s
        ((t.ins ++ [t.out]).filterMap id).foldl (fun s p => s.evalCbuf cl p.1) s
      else s)

/-- A task completes once its work is over and its bus transfers have advanced (R268, R297). A completion acts in the clk after the slot's packets,
and those of a cluster in one clk are taken in ascending slot order (R260). -/
def execTaskComplete (cl slot : Nat) (s : State) : Out :=
  .next (match s.task? cl slot with
    | none => s
    | some t =>
      match t.fin with
      | none => s
      | some st =>
        let last := Sparse.get (0, 0) s.cts.doneAt cl
        if t.st = .running && t.rmt.isNone && (st ≠ 0 || !s.xferBusy t) && !(last.1 = s.clk && slot < last.2) then
          (s.updCts (fun c => { c with doneAt := Sparse.put (0, 0) c.doneAt cl (s.clk, slot) })).completeTask t st
        else s)

end Sys2Proof.Machine
end

