-- ==== Sys2Proof/Machine/Engines.lean ====
section
/-!
DEFINITION. What every engine shares (R289, R313, R314, R440): its reads and writes, its progress, its faults; and the fibres of sparse
tensors (R317 to R321).
-/

namespace Sys2Proof.Machine

/-- Why an engine stops before the end of its work: a fault that suspends it, a status (R269), or a bus without room (R312). -/
inductive EStop
  | fault (f : LFault)
  | over (status : Nat)
  | pause
  deriving DecidableEq, Repr

/-- A task's work so far. -/
abbrev EAcc := State × Task × Option EStop

/-- Works through a list until something stops it. -/
def engLoop (f : Nat → State → Task → EAcc) (l : List Nat) (s : State) (t : Task) : EAcc :=
  l.foldl (fun acc i => match acc.2.2 with | some _ => acc | none => f i acc.1 acc.2.1) (s, t, none)

/-- The next part of the work, unless something stopped the one before. -/
def EAcc.andThen (a : EAcc) (f : State → Task → EAcc) : EAcc :=
  match a.2.2 with | some _ => a | none => f a.1 a.2.1

/-- An engine's reads: each takes its place in the order of memory (R226), and may stop the work. -/
abbrev EM (α : Type) := ExceptT EStop (StateM State) α

/-- What a fault makes of the work: uncorrectable data of a peer end it with MEMUE, the end of the group with ABORT (R314, R421, R442); another suspends it. -/
def LFault.stop (f : LFault) : EStop := if f.code = fcMemUe then .over 1 else if f.code = fcAbort then .over 4 else .fault f

/-- A read of bytes whose places are known (R314). -/
def readPlaces (ls : List (Nat × Loc)) : EM (List Byte) := fun s =>
  if (s.ueAt ls).isSome then (.error (.over 1), s.meetUe (ls.map (fun x => x.2)))
  else match s.take ls none with | .error e => (.error e.stop, s) | .ok r => (.ok r.2, r.1)

/-- An engine read of bytes at a device virtual address (R289, R314). -/
def engBytes (rid va n : Nat) : EM (List Byte) := fun s =>
  match s.bytesOfVa rid va false n with | .error e => (.error (.fault e), s) | .ok ls => readPlaces ls s

def engRead (rid va n : Nat) : EM Nat := do return leNat (← engBytes rid va n)

/-- What an engine writes at a device virtual address is gathered (R301). -/
def State.engWrite (s : State) (rid va : Nat) (bs : List Byte) : State × Option EStop :=
  match s.bytesOfVa rid va true bs.length with
  | .error e => (s, some (.fault e))
  | .ok ls => (s.gather ls bs false, none)

/-- A step of the work that may stop it. -/
def tryE {α : Type} (r : EM α) (s : State) (t : Task) (f : State → α → EAcc) : EAcc :=
  match r s with | (.error e, s) => (s, t, some e) | (.ok a, s) => f s a

/-- A write that may stop the work. -/
def tryW (r : State × Option EStop) (t : Task) (f : State → EAcc) : EAcc :=
  match r.2 with | some e => (r.1, t, some e) | none => f r.1

/-- An operation's access has met a fault, or waits for the walk unit or a peer: what its fault field holds. -/
def LFault.pair (f : LFault) : Nat × Nat := (f.code, f.info % 2 ^ 56)

/-- The task as its work leaves it, after what its engine has accessed. -/
def State.putTask (s : State) (t : Task) : State := s.opDone.updTask t.cl t.slot (fun _ => { t with view := joinIds t.view s.opView })

/-- The task has met a fault, for which it suspends: what it has written stands (R313); or it waits for the walk unit, a peer or the end of a drain. -/
def State.stopTask (s : State) (t : Task) (f : LFault) : State :=
  (if f.holds then s.hold t.rid f 0 [] else s.flush.dropFailed (.task t.cl t.slot)).putTask { t with fault := some f.pair }

/-- The task's work is over with a status, once all that it has written is there. -/
def State.overTask (s : State) (t : Task) (status : Nat) : State :=
  let r := s.flushAll t.rid
  match r.2 with
  | .ok true => (r.1.putTask t).finishTask t status
  | .ok false => r.1.putTask { t with fault := some (fcRemote, 0) }
  | .error e => (match e.stop with | .over st => (r.1.putTask t).finishTask t st | _ => r.1.stopTask t e)

/-- Takes the work of a step into the state: the task is over with a status, has met a fault, or waits. -/
def EAcc.commit (a : EAcc) : State :=
  match a.2.2 with
  | none => a.1.overTask a.2.1 0
  | some (.over st) => a.1.overTask a.2.1 st
  | some .pause => a.1.putTask a.2.1
  | some (.fault f) => a.1.stopTask a.2.1 f

/-- Does a running task act: it neither has finished nor holds a fault; one of an MXE whose fault has been served takes its engine again once that is free
(R313, R353). -/
def State.acts (s : State) (t : Task) : Bool :=
  t.st = .running && t.fin.isNone && t.fault.isNone && t.rmt.isNone && (!t.susp || (engineOf t.kind = 1 && s.engineFree t.cl 1 t.unit))

/-- Runs the work of a running task of one of the kinds `ks`. -/
def engStep (ks : List Nat) (f : State → Task → EAcc) (cl slot : Nat) (s : State) : Out :=
  .next (match s.task? cl slot with
    | none => s
    | some t =>
      if ks.contains t.kind && s.acts t then (f (s.asTask t) { t with susp := false }).commit
      else s)

/-- The bytes of a posted record (R261) where its post found them. -/
def State.recordLocs (s : State) (t : Task) : Except LFault (List (Nat × Loc)) :=
  let a := t.src.2.1
  let k := t.src.2.2
  match t.src.1 with
  | 2 => .ok ((List.range 64).map (fun i => (a + i, coreLoc (k / 4) (k % 4) (a + i))))
  | 3 => .ok ((List.range 64).map (fun i => (a + i, sharedLoc (k / 4) (a + i))))
  | 4 => if s.injected t.rid then .error ⟨fcDrain, a⟩ else .ok ((List.range 64).map (fun i => (a + i, chipLoc (a + i))))
  | _ => s.bytesOfVa t.rid a false 64

/-- Reads the payload when the task first works (R263, R303). -/
def withBody (s : State) (t : Task) (f : State → Task → Nat → EAcc) : EAcc :=
  match t.body with
  | some b => f s t b
  | none =>
    match s.recordLocs t with
    | .error e => (s, t, some (.fault e))
    | .ok ls => tryE (readPlaces ls) s t (fun s bs => f s { t with body := some (leNat bs) } (leNat bs))

/-- Reads a 64-byte layout record or command block once (R303, R334). -/
def withBlock (va : Nat) (s : State) (t : Task) (f : State → Task → Nat → EAcc) : EAcc :=
  match t.lrec with
  | some b => f s t b
  | none => tryE (engRead t.rid va 64) s t (fun s b => f s { t with lrec := some b } b)

/-- The places of a claimed input from an offset of its claim. -/
def State.inLocs (s : State) (t : Task) (i o n : Nat) : List Loc :=
  match t.ins[i]? with
  | some (some p) => (match s.cbuf? t.cl p.1 with | some x => x.locs ((t.iOff[i]?).getD 0 + o) n | none => [])
  | _ => []

/-- The bytes of a claimed input. -/
def inBytes (t : Task) (i o n : Nat) : EM (List Byte) := fun s => readPlaces ((s.inLocs t i o n).map (fun l => (0, l))) s

/-- The pad bit of the unit at an offset of a claimed input (R295). -/
def State.inPad (s : State) (t : Task) (i o : Nat) : Bool :=
  match t.ins[i]? with
  | some (some p) =>
    match s.cbuf? t.cl p.1 with
    | some x => s.padOf (x.loc ((t.iOff[i]?).getD 0 + o))
    | none => false
  | _ => false

/-- Writes bytes at an offset of the claimed output, with a pad bit for a fill (R295). -/
def State.outBytes (s : State) (t : Task) (o : Nat) (bs : List Byte) (pad : Bool) : State :=
  match t.out with
  | none => s
  | some p =>
    match s.cbuf? t.cl p.1 with
    | none => s
    | some x =>
      s.gather ((x.locs (t.oOff + o) bs.length).map (fun l => (0, l))) bs pad

def inUse (t : Task) (i : Nat) : Bool := match t.ins[i]? with | some (some _) => true | _ => false

def inUnits (t : Task) (i : Nat) : Nat := match t.ins[i]? with | some (some p) => p.2 | _ => 0
def outUnits (t : Task) : Nat := match t.out with | some p => p.2 | none => 0

/-! ## Suspension (R313, R440) -/

/-- EKIND of a task's engine (R440). -/
def ekindOf (kind : Nat) : Nat :=
  match kind with | 3 | 4 => 2 | 5 | 6 | 0x0A => 3 | 7 | 8 | 9 => 7 | _ => 1

/-- Does an MXE already hold a suspended operation (R313)? -/
def State.mxeHolds (s : State) (cl u : Nat) : Bool :=
  s.cts.tasks.any (fun t => t.cl = cl && engineOf t.kind = 1 && t.unit = u && t.st = .running && t.susp) ||
  s.asu.tiles.any (fun t => t.cl = cl && t.unit = some u && t.susp)

/-- The record of an engine fault. -/
def engRec (rid ekind ecl eun eobj ref : Nat) (f : Nat × Nat) : Rec :=
  { rid := rid, uid := 0, site := 0, lanes := [], eng := some ⟨ekind, ecl, eun, eobj % 2 ^ 32, ref, []⟩, code := f.1, info := f.2,
    handle := none, st := .waiting }

/-- OWNER of R365: the coding of a submitting lane. -/
def Wave.owner (w : Wave) (lane tok : Nat) : Nat :=
  lane + 2 ^ 7 * tok + 2 ^ 11 * w.slot + 2 ^ 15 * w.quad + 2 ^ 17 * w.core + 2 ^ 19 * w.cl

/-- Does what an operation has met suspend it? One that waits for the walk unit or a peer is not suspended. -/
def suspends (f : Nat × Nat) : Bool := f.1 < fcMiss

/-- An engine operation that has met a fault suspends and its record is queued: a task by its slot, a ray, beam or tile by its number. -/
def State.suspend (s : State) (ekind cl obj : Nat) : State :=
  match ekind with
  | 4 =>
    match s.rtu.rays.find? (fun r => r.cl = cl && r.id = obj && !r.susp) with
    | some r =>
      match r.fault.filter suspends with
      | some f => ({ s with rtu := { s.rtu with rays := s.rtu.rays.map (fun (x : Ray) => if x.id = obj then { x with susp := true } else x) } }).addRec
          (engRec r.rid 4 cl 0 r.r obj f)
      | none => s
    | none => s
  | 5 =>
    match s.rtu.beams.find? (fun b => b.cl = cl && b.id = obj && !b.susp) with
    | some b =>
      match b.fault.filter suspends with
      | some f =>
        ({ s with rtu := { s.rtu with beams := s.rtu.beams.map (fun (x : Beam) => if x.id = obj then { x with susp := true } else x) } }).addRec
          (engRec b.rid 5 cl 0 b.owner obj f)
      | none => s
    | none => s
  | 6 =>
    match s.asu.tiles.find? (fun t => t.cl = cl && t.id = obj && !t.susp) with
    | some t =>
      match t.fault.filter suspends, t.unit with
      | some f, some u =>
        if f.1 = fcMemUe || s.mxeHolds cl u then s
        else ({ s with asu := { s.asu with tiles := s.asu.tiles.map (fun (x : Tile) => if x.id = obj then { x with susp := true } else x) } }).addRec
          (engRec t.rid 6 cl 0 obj obj f)
      | _, _ => s
    | none => s
  | _ =>
    match s.task? cl obj with
    | some t =>
      match t.fault.filter suspends with
      | some f =>
        if t.susp || ekindOf t.kind ≠ ekind || (ekind = 2 && s.mxeHolds cl t.unit) then s
        else (s.updTask cl obj (fun t => { t with susp := true })).addRec
          (engRec t.rid ekind cl (if ekind ≤ 2 then t.unit else 0) t.id obj f)
      | none => s
    | none => s

def execEngineSuspend (ekind cl obj : Nat) (s : State) : Out := .next (s.suspend ekind cl obj)

/-! ## Levels and fibres (R317 to R321) -/

/-- A level descriptor's fields (R317). -/
def lvTy (d : Nat) : Nat := bitsAt d 0 2
def lvIw (d : Nat) : Nat := bitsAt d 2 2
def lvOrd (d : Nat) : Bool := bitAt d 4
def lvUnq (d : Nat) : Bool := bitAt d 5
def lvSize (d : Nat) : Nat := bitsAt d 16 48
def lvPos (d : Nat) : Nat := bitsAt d 64 56
def lvCrd (d : Nat) : Nat := bitsAt d 128 56

/-- Is a descriptor valid (R318)? -/
def lvOk (d : Nat) : Bool :=
  let w := 2 * 2 ^ lvIw d
  lvSize d ≠ 0 && bitsAt d 6 10 = 0 && bitsAt d 120 8 = 0 && bitsAt d 184 72 = 0 &&
  (match lvTy d with
    | 0 => lvIw d = 0 && lvOrd d && lvUnq d && lvPos d = 0 && lvCrd d = 0
    | 1 => lvIw d ≤ 2 && lvPos d % w = 0 && lvCrd d % w = 0
    | 2 => lvIw d = 0 && lvOrd d && lvUnq d && lvCrd d = 0
    | _ => lvIw d ≤ 2 && lvPos d = 0 && lvCrd d % w = 0)

/-- Entry `i` of a position or coordinate array. -/
def arrEntry (rid base iw i : Nat) : EM Nat := engRead rid ((base + i * (2 * 2 ^ iw)) % 2 ^ 56) (2 * 2 ^ iw)

/-- Bit `n` of a bit array. -/
def arrBit (rid base n : Nat) : EM Bool := do return bitAt (← engRead rid ((base + n / 8) % 2 ^ 56) 1) (n % 8)

/-- Does coordinate `c` break the order of a fibre after `prev` (R320)? -/
def orderBad (d c : Nat) (prev : Option Nat) : Bool :=
  match prev with
  | none => false
  | some q => lvTy d = 1 && lvOrd d && (if lvUnq d then c ≤ q else c < q)

/-- Collects the results of a list of reads. -/
def collectE {α β : Type} (f : α → EM (List β)) (l : List α) : EM (List β) := l.foldlM (fun r a => do return r ++ (← f a)) []

/-- Stops the work with a status. -/
def stopE {α : Type} (e : EStop) : EM α := throw e

/-- The elements of the fibre under `p` whose coordinates lie in [lo, hi], in the order of R319: coordinate and position. A malformed
fibre refuses the task (R294). -/
def fibre (rid d p : Nat) (lo hi : Int) : EM (List (Nat × Nat)) :=
  let size := lvSize d
  let inBox := fun (c : Nat) => lo ≤ (c : Int) && (c : Int) ≤ hi
  match lvTy d with
  | 0 => pure (((List.range' lo.toNat (hi + 1 - lo).toNat).filter (fun c => inBox c && c < size)).map (fun c => (c, (p * size + c) % 2 ^ 64)))
  | 1 => do
    let a ← arrEntry rid (lvPos d) (lvIw d) p
    let b ← arrEntry rid (lvPos d) (lvIw d) (p + 1)
    if b < a then stopE (.over 2)
    else
      let r ← (List.range' a (b - a)).foldlM (fun (acc : List (Nat × Nat) × Option Nat) i => do
        let c ← arrEntry rid (lvCrd d) (lvIw d) i
        if size ≤ c || orderBad d c acc.2 then stopE (.over 2)
        else pure (if inBox c then acc.1 ++ [(c, i)] else acc.1, some c)) ([], none)
      return r.1
  | 2 =>
    collectE (fun c => do
      let b ← arrBit rid (lvPos d) ((p * size + c) % 2 ^ 64)
      return if b then [(c, (p * size + c) % 2 ^ 64)] else [])
      ((List.range' lo.toNat (hi + 1 - lo).toNat).filter (fun c => inBox c && c < size))
  | _ => do
    let c ← arrEntry rid (lvCrd d) (lvIw d) p
    if size ≤ c then stopE (.over 2) else pure (if inBox c then [(c, p)] else [])

/-- The elements of a sparse tensor inside a box, outermost dimension first: the box index of each with its innermost position. `dims` pairs
each dimension's descriptor with its box start and size, from the outermost to dimension 0; `L` is the linear index so far (R321). -/
def sparseBox (rid : Nat) : List (Nat × Int × Nat) → Nat → Nat → EM (List (Nat × Nat))
  | [], p, L => pure [(L, p)]
  | (d, c0, b) :: rest, p, L => do
    let els ← fibre rid d p c0 (c0 + (b : Int) - 1)
    collectE (fun el => sparseBox rid rest el.2 (L * b + ((el.1 : Int) - c0).toNat)) els

end Sys2Proof.Machine
end

