-- ==== Sys2Proof/Machine/Copies.lean ====
section
/-!
DEFINITION. The tensor copy engine (R290 to R304) and cross-module transfers (R272).
-/

namespace Sys2Proof.Machine

/-- Element `n` of a list of numbers, 0 past its end. -/
def nth {α : Type} [Inhabited α] (l : List α) (n : Nat) : α := (l[n]?).getD default

/-! ## The layout record (R290 to R293) -/

def lyBase (r : Nat) : Nat := bitsAt r 0 56
def lyNdim (r : Nat) : Nat := bitsAt r 56 3
def lyTy (r : Nat) : Nat := bitsAt r 60 4
def lyDim (r n : Nat) : Nat := if n < lyNdim r then bitsAt r (64 + 24 * n) 24 else 1
def lyStr (r n : Nat) : Nat := bitsAt r (160 + 32 * n) 32
def lyFmt (r : Nat) : Nat := bitsAt r 320 32
def lyBox (r n : Nat) : Nat := bitsAt r (352 + 8 * n) 8 + 1
def lyFill (r : Nat) : Nat := bitsAt r 392 16
def lyClip (r : Nat) : Bool := bitAt r 408
def lySwz (r : Nat) : Nat := bitsAt r 409 2
def lyMode (r : Nat) : Nat := bitsAt r 411 2
def lySpr (r : Nat) : Bool := bitAt r 413
def lySat (r : Nat) : Bool := bitAt r 414
def lySbase (r : Nat) : Nat := bitsAt r 416 56
/-- The factor; the pattern 0 stands for 1.0. -/
def lyF (r : Nat) : Nat := if bitsAt r 472 32 = 0 then 0x3F800000 else bitsAt r 472 32

/-- Is a layout record valid (R291)? SMODE 3, which the layout's table does not list and no condition of R291 names, is refused: the model's choice (log 94). -/
def layoutOk (r : Nat) : Bool :=
  let nd := lyNdim r
  let ty := lyTy r
  1 ≤ nd && nd ≤ 5 &&
  (List.range 5).all (fun n =>
    if n < nd then bitsAt r (64 + 24 * n) 24 ≠ 0 else bitsAt r (64 + 24 * n) 24 = 0 && bitsAt r (352 + 8 * n) 8 = 0) &&
  [0xA, 0xB, 0xC, 0xE, 0xF].contains ty &&
  (if ty = 0xF then (descOf (lyFmt r)).isSome else lyFmt r = 0) &&
  lyMode r ≠ 3 && (lyMode r = 0 || ty = 0xF) && (lyMode r ≠ 2 || 2 ≤ nd) && (!lySpr r || lyMode r = 0) &&
  (match lySwz r with
    | 0 => true
    | 1 => lyBox r 0 % 32 = 0 && lyBox r 1 % 16 = 0 && lyBox r 2 = 1 && lyBox r 3 = 1 && lyBox r 4 = 1
    | 2 => lyBox r 0 % 16 = 0 && lyBox r 1 % 32 = 0 && lyBox r 2 = 1 && lyBox r 3 = 1 && lyBox r 4 = 1
    | _ => false) &&
  (match ty with | 0xA => lyBase r % 4 = 0 | 0xF => true | _ => lyBase r % 2 = 0) &&
  !bitAt r 59 && bitsAt r 184 8 = 0 && !bitAt r 415 && bitsAt r 504 8 = 0

/-- The element width. -/
def lyWidth (r : Nat) : Nat :=
  match lyTy r with | 0xA => 32 | 0xF => ((descOf (lyFmt r)).map (fun d => d.w)).getD 8 | _ => 16

/-- Elements of the box, and the tile's bytes T. -/
def lyCount (r : Nat) : Nat := lyBox r 0 * lyBox r 1 * lyBox r 2 * lyBox r 3 * lyBox r 4
def lyTile (r : Nat) : Nat := ceilDiv (2 * lyCount r) 32 * 32

/-- The box indices of a linear index. -/
def lyIdx (r L : Nat) : List Nat :=
  let b := lyBox r
  [L % b 0, L / b 0 % b 1, L / (b 0 * b 1) % b 2, L / (b 0 * b 1 * b 2) % b 3, L / (b 0 * b 1 * b 2 * b 3)]

/-- The tile offset of a CE16 element (R293). -/
def lyOff (r L : Nat) : Nat :=
  let j0 := L % lyBox r 0
  let j1 := L / lyBox r 0
  match lySwz r with
  | 1 => 1024 * (j0 / 32 * (lyBox r 1 / 16) + j1 / 16) + 2 * (32 * (j1 % 16) + j0 % 32)
  | 2 => 1024 * (j1 / 32 * (lyBox r 0 / 16) + j0 / 16) + 2 * (16 * (j1 % 32) + j0 % 16)
  | _ => 2 * L

/-- The tensor indices of a box element, when it lies inside the tensor. -/
def lyAt (r : Nat) (c : List Int) (L : Nat) : Option (List Nat) :=
  let i := (c.zip (lyIdx r L)).map (fun p => p.1 + (p.2 : Int))
  if ((List.range 5).zip i).all (fun p => 0 ≤ p.2 && p.2 < (lyDim r p.1 : Int)) then some (i.map Int.toNat) else none

/-- The bit address of a dense element (R292). -/
def lyBit (r : Nat) (i : List Nat) : Nat :=
  let g := fun n => nth i n
  8 * lyBase r + 128 * (g 1 * lyStr r 1 + g 2 * lyStr r 2 + g 3 * lyStr r 3 + g 4 * lyStr r 4) + g 0 * lyWidth r

/-- The address of an element's block scale (R292). -/
def lyScale (r : Nat) (i : List Nat) : Nat :=
  let g := fun n => nth i n
  let d := lyDim r
  (if lyMode r = 1 then lySbase r + g 0 / 32 + ceilDiv (d 0) 32 * (g 1 + d 1 * (g 2 + d 2 * (g 3 + d 3 * g 4)))
   else lySbase r + g 0 + d 0 * (g 1 / 32 + ceilDiv (d 1) 32 * (g 2 + d 2 * (g 3 + d 3 * g 4)))) % 2 ^ 56

/-- Reads `w` bits at a bit address. -/
def engBits (rid bit w : Nat) : EM Nat := do return bitsAt (← engRead rid (bit / 8 % 2 ^ 56) ((bit % 8 + w + 7) / 8)) (bit % 8) w

/-- The value of a stored pattern. -/
def lyValue (r p : Nat) : FV :=
  match lyTy r with
  | 0xA => fp32.value p
  | 0xB => fp16.value p
  | 0xF => ((descOf (lyFmt r)).map (fun d => d.value p)).getD (.nan false)
  | _ => bf16.value p

/-- The CE16 element of a stored pattern with block scale X (R294). -/
def lyExpand (r p x : Nat) : FRes :=
  if lyTy r = 0xE && lyF r = 0x3F800000 then ⟨p, 0⟩ else expandV (lyValue r p) x (lyF r)

/-! ## The completion record (R296) -/

/-- The completion record of a copy with a status. -/
def Task.record (t : Task) (st : Nat) : Nat :=
  let stat := if st = 0 && t.spec && t.mark = some false then 3 else st
  if st = 2 then 2 * 2 ^ 72 else t.rd + 2 ^ 32 * t.dv + 2 ^ 64 * t.fl + 2 ^ 72 * stat + 2 ^ 96 * t.sc

/-- Ends a copy with a status once its completion record is written, where it names one; STAT is DISCARD for a speculative task marked for it. -/
def endRec (crec st : Nat) (s : State) (t : Task) : EAcc :=
  if crec = 0 then (s, t, some (.over st))
  else tryW (s.engWrite t.rid crec (leBytes 16 (t.record st))) t (fun s => (s, t, some (.over st)))

/-- A copy that ran and ends with ABORT has its record written by the service; one freed without running has none (R296). -/
def State.abortRec (s : State) (t : Task) : State :=
  let crec := ((t.body.map (fun b => bitsAt b 448 56)).getD 0)
  if t.st = .running && (t.kind = 1 || t.kind = 2 || t.kind = 0x0B) && crec ≠ 0 && crec % 16 = 0 then
    s.asService (fun s => match s.translateRange t.rid crec true 16 with
      | .ok ls => s.post t.rid crec ls (leBytes 16 (t.record 4))
      | .error _ => s)
  else s

/-- Refuses a task: its record is written where the address is one that the kind accepts (R263). -/
def rejectRec (crec : Nat) (s : State) (t : Task) : EAcc := endRec (if crec % 16 = 0 then crec else 0) 2 s t

/-- A copy that uncorrectable data, a malformed fibre or the end of the group (R421) stops ends with its record (R296). -/
def memueRec (crec : Nat) (a : EAcc) : EAcc :=
  match a.2.2 with | some (.over 2) => rejectRec crec a.1 a.2.1 | some (.over st) => endRec crec st a.1 a.2.1 | _ => a

/-- Box start C0 to C4 (R302). -/
def payStart (b : Nat) : List Int := (List.range 5).map (fun n => signedOf 32 (bitsAt b (256 + 32 * n) 32))

/-- C is zero at or above NDIM. -/
def startOk (b r : Nat) : Bool := (List.range 5).all (fun n => n < lyNdim r || bitsAt b (256 + 32 * n) 32 = 0)

/-! ## Broadcast (R245, R297) -/

/-- The bus of a broadcast: rows 0 to 5 of eight clusters, columns 6 to 13 of six; cluster 8 row + column. -/
def busOf (cl : Nat) (row : Bool) : Nat := if row then cl / 8 else 6 + cl % 8

/-- The destinations that a mask names, inside the partition, without the source (R246, R263, R297). -/
def State.busDests (s : State) (rid cl : Nat) (row : Bool) (mask : Nat) : List Nat :=
  ((List.range (if row then 8 else 6)).filter (fun n => mask.testBit n)).filterMap (fun n =>
    let d := if row then 8 * (cl / 8) + n else 8 * n + cl % 8
    if d = cl || !s.inPart rid d then none else some d)

/-- A transfer of a task enters its bus. -/
def State.startXfer (s : State) (t : Task) (row : Bool) (mask cb total : Nat) (data : List Byte) (pads : List Bool) : State :=
  let ds := s.busDests t.rid t.cl row mask
  if ds.isEmpty then s
  else
    let x : Xfer := ⟨s.fresh, busOf t.cl row, t.cl, t.slot, t.gen, t.rid, cb, total, data, pads, 0, askKey s.clk (256 + s.fresh),
      ds.map (fun d => (d, .asked)), s.clk⟩
    ({ s with fresh := s.fresh + 1 }).updCts (fun c => { c with xfers := c.xfers ++ [x] })

/-! ## Copying in (R294 to R297) -/

/-- Is an element the first of its block's elements in the box, so that its scale byte counts in SCNT (R292, R296)? -/
def lyFirst (r : Nat) (c : List Int) (i : List Nat) : Bool :=
  let d := lyMode r - 1
  nth i d % 32 = 0 || (nth i d : Int) = nth c d

/-- One box element of a COPY_IN; `hits` gives the positions that a sparse tensor holds. -/
def copyInElem (r : Nat) (c : List Int) (hits : List (Nat × Nat)) (L : Nat) (s : State) (t : Task) : EAcc :=
  let put := fun (s : State) (v fl rd sc : Nat) (pad : Bool) =>
    ((s.outBytes t (lyOff r L) (leBytes 2 v) pad,
      { t with prog := L + 1, rd := t.rd + rd, dv := t.dv + 1, sc := t.sc + sc, fl := t.fl ||| fl }, none) : EAcc)
  match lyAt r c L with
  | none => put s (lyFill r) 0 0 0 true
  | some i =>
    if lySpr r then
      match (hits.filter (fun h => h.1 = L)).getLast? with
      | none => put s 0 0 1 0 false
      | some h => tryE (engBits t.rid (8 * lyBase r + h.2 * lyWidth r) (lyWidth r)) s t (fun s p =>
          let e := lyExpand r p 127
          put s e.bits e.fl 1 0 false)
    else
      tryE (engBits t.rid (lyBit r i) (lyWidth r)) s t (fun s p =>
        if lyMode r = 0 then
          let e := lyExpand r p 127
          put s e.bits e.fl 1 0 false
        else tryE (engRead t.rid (lyScale r i) 1) s t (fun s x =>
          let e := lyExpand r p x
          put s e.bits e.fl 1 (b2n (lyFirst r c i)) false))

/-- The level descriptors of a sparse tensor, outermost first, each with the box's start and size (R321). They are read at SBASE whether or not that is
aligned to 32 bytes, which R317 asks of a descriptor and R291 does not check: the model's choice (log 94). -/
def sparseDims (rid r : Nat) (c : List Int) : EM (List (Nat × Int × Nat)) :=
  let nd := lyNdim r
  collectE (fun k => do
    let n := nd - 1 - k
    let d ← engRead rid ((lySbase r + 32 * k) % 2 ^ 56) 32
    if !lvOk d || lvSize d ≠ lyDim r n then stopE (.over 2) else pure [(d, nth c n, lyBox r n)]) (List.range nd)

/-- The elements that a sparse tensor holds in the box; none for a dense one. -/
def sparseHits (rid r : Nat) (c : List Int) : EM (List (Nat × Nat)) :=
  if !lySpr r then pure [] else do sparseBox rid (← sparseDims rid r c) 0 0

/-- Refusals of a COPY_IN beside those of its layout (R294, R296, R297, R302). -/
def copyInBad (t : Task) (b r : Nat) : Bool :=
  inUse t 0 || inUse t 1 || inUse t 2 || outUnits t ≠ lyTile r / 32 || (t.rowcast && t.colcast) ||
  bitsAt b 248 8 ≠ 0 || bitsAt b 424 24 ≠ 0 || bitsAt b 504 8 ≠ 0 || bitsAt b 448 56 % 16 ≠ 0 || !startOk b r ||
  (lyClip r && (List.range (lyCount r)).any (fun L => (lyAt r (payStart b) L).isNone))

/-- The tile, complete in the task's own OUT, enters its bus (R297). -/
def State.castTile (s : State) (t : Task) (mask n : Nat) : State :=
  match t.out.bind (fun p => (s.cbuf? t.cl p.1).map (fun x => (p.1, x))) with
  | none => s
  | some (cb, x) =>
    let data := s.readLocs (x.locs t.oOff n)
    let s := s.flush
    s.startXfer t t.rowcast mask cb n data ((List.range (n / 2)).map (fun k => s.padOf (x.loc (t.oOff + 2 * k))))

def copyInWork (s : State) (t : Task) : EAcc :=
  withBody s t (fun s t b =>
    let crec := bitsAt b 448 56
    let la := bitsAt b 192 56
    if !t.direct && la % 64 ≠ 0 then rejectRec crec s t
    else memueRec crec (withBlock la s t (fun s t r =>
      if !layoutOk r || copyInBad t b r then rejectRec crec s t
      else
        let c := payStart b
        let n := lyCount r
        if t.prog > n then endRec crec 0 s t
        else tryE (sparseHits t.rid r c) s t (fun s hits =>
          (engLoop (copyInElem r c hits) (List.range' t.prog (n - t.prog)) s t).andThen (fun s t =>
            let s := s.outBytes t (2 * n) (List.replicate (lyTile r - 2 * n) 0) false
            endRec crec 0 (if t.rowcast || t.colcast then s.castTile t (bitsAt b 416 8) (lyTile r) else s) { t with prog := n + 1 })))))

def execTaskCopyIn (cl slot : Nat) (s : State) : Out := engStep [1] copyInWork cl slot s

/-! ## Writing back (R298 to R301) -/

/-- The exact quotient of two finite values to more bits than any format needs, the last one sticky (R298, R299); its flags. -/
def quotV (a b : FV) : FV × Nat :=
  match a, b with
  | .nan g, .nan h => (.nan (g || h), 0)
  | .nan g, _ => (.nan g, 0)
  | _, .nan g => (.nan g, 0)
  | .inf _, .inf _ => (.nan false, flIV)
  | .inf n, .fin k _ _ => (.inf (n != k), 0)
  | .fin n _ _, .inf k => (.fin (n != k) 0 0, 0)
  | .fin n m e, .fin k m' e' =>
    if m' = 0 then (if m = 0 then (.nan false, flIV) else (.inf (n != k), flDZ))
    else
      let q := m * 2 ^ 200 / m'
      (.fin (n != k) (2 * q + b2n (m * 2 ^ 200 % m' ≠ 0)) (e - e' - 201), 0)

/-- A value times 2^k. -/
def FV.scale (v : FV) (k : Int) : FV := match v with | .fin n m e => .fin n m (e + k) | v => v

/-- ⌊log2 |v / F|⌋ of a finite non-zero value, above every exponent where F is a zero (R298). -/
def quotLog (v F : FV) : Option Int :=
  match (quotV v F).1 with
  | .fin _ m e => if m = 0 then none else some (expOf m e)
  | .inf _ => (match v with | .inf _ => none | _ => some (2 ^ 20))
  | .nan _ => none

/-- The value of a tile element: CE16, or FP32 at twice the offset (R298). -/
def tileVal (t : Task) (r L : Nat) (wide : Bool) : EM FV :=
  if wide then do return fp32.value (leNat (← inBytes t 0 (2 * lyOff r L) 4)) else do return bf16.value (leNat (← inBytes t 0 (lyOff r L) 2))

/-- The block scale of a box element: over its block's elements that lie in the box and inside the tensor (R299). -/
def blockScale (t : Task) (r : Nat) (c : List Int) (wide : Bool) (L : Nat) (d : Desc) : EM Nat := do
  let n := if lyMode r = 1 then 0 else 1
  let step := if n = 0 then 1 else lyBox r 0
  let j := (nth (lyIdx r L) n)
  let i := nth c n + (j : Int)
  let row : List Nat := (List.range (lyBox r n)).filter (fun (k : Nat) => (nth c n + (k : Int)) / 32 = i / 32)
  let logs ← collectE (fun k => do
    let L' := L - j * step + k * step
    if (lyAt r c L').isSome then return (quotLog (← tileVal t r L' wide) (fp32.value (lyF r))).toList else return []) row
  match logs with
  | [] => return 127
  | x :: xs =>
    let emax : Int := match d.value (d.largest false) with | .fin _ m e => expOf m e | _ => 0
    return (clampInt 0 254 (xs.foldl max x - emax + 127)).toNat

/-- The generator after `n` steps (R128, R300). -/
def srIter : Nat → Word → Word
  | 0, x => x
  | n + 1, x => srIter n (srStep x)

def rmCode (rnd : Nat) : RM := match rnd with | 1 => .rz | 2 => .ru | 3 => .rd | _ => .rn

/-- The pattern that a COPY_OUT stores for a value, and its flags (R298 to R300). -/
def outPattern (r rnd seed L x : Nat) (v : FV) : FRes :=
  let F := fp32.value (lyF r)
  match lyTy r with
  | 0xA => fp32.divRes (rmCode rnd) false v F
  | 0xB => fp16.divRes (rmCode rnd) false v F
  | 0xF =>
    match descOf (lyFmt r) with
    | none => ⟨0, 0⟩
    | some d =>
      let q := quotV v F
      let rd := if rnd = 5 then Rounding.sr (srIter (L + 1) (srSeed (BitVec.ofNat 32 seed))).toNat else .dir (rmCode rnd)
      (d.ofV rd (lySat r) (q.1.scale (127 - (x : Int)))).or q.2
  | _ => bf16.divRes (rmCode rnd) false v F

/-- Does byte `k` of the row of a box element hold only bits of elements that lie in the box and inside the tensor (R301)? -/
def wholeByte (r : Nat) (c : List Int) (k : Nat) : Bool :=
  let w := lyWidth r
  (List.range' (8 * k / w) ((8 * k + 7) / w + 1 - 8 * k / w)).all (fun e => e < lyDim r 0 && nth c 0 ≤ (e : Int) && (e : Int) < nth c 0 + (lyBox r 0 : Int))

/-- A task puts `w` bits at a bit address. A byte that `whole` says the task writes altogether is put bit by bit; another is read, and put with the element's
bits replaced (R301). -/
def State.engPutBits (s : State) (t : Task) (whole : Nat → Bool) (bit w v : Nat) : State × Option EStop :=
  let a := bit / 8 % 2 ^ 56
  let n := (bit % 8 + w + 7) / 8
  match s.bytesOfVa t.rid a true n with
  | .error e => (s, some (.fault e))
  | .ok ls =>
    let bytes : EM (List (BitVec 8 × BitVec 8)) := collectE (fun i => do
      let b : BitVec 8 := BitVec.ofNat 8 (v * 2 ^ (bit % 8) / 2 ^ (8 * i))
      let m : BitVec 8 := BitVec.ofNat 8 ((2 ^ w - 1) * 2 ^ (bit % 8) / 2 ^ (8 * i))
      if m = 255 || whole i then return [(b, m)]
      else return (← engBytes t.rid ((a + i) % 2 ^ 56) 1).map (fun old => ((old &&& ~~~m) ||| (b &&& m), (255 : BitVec 8)))) (List.range n)
    match bytes s with
    | (.error e, s) => (s, some e)
    | (.ok bs, s) => ((ls.zip bs).foldl (fun s x => s.putMasked (.task t.cl t.slot) x.1.1 x.1.2 x.2.1 x.2.2 false) s, none)

def copyOutElem (r rnd seed : Nat) (c : List Int) (wide : Bool) (L : Nat) (s : State) (t : Task) : EAcc :=
  match lyAt r c L with
  | none => (s, { t with prog := L + 1 }, none)
  | some i =>
    let n := if lyMode r = 1 then 0 else 1
    let first := lyMode r ≠ 0 && (nth (lyIdx r L) n = 0 || (nth i n) % 32 = 0)
    tryE (match descOf (lyFmt r) with | some d => if lyMode r = 0 then pure 127 else blockScale t r c wide L d | none => pure 127) s t (fun s x =>
      tryW (if first then s.engWrite t.rid (lyScale r i) [BitVec.ofNat 8 x] else (s, none)) t (fun s =>
        tryE (tileVal t r L wide) s t (fun s v =>
          let p := outPattern r rnd seed L x v
          let at0 := nth i 0 * lyWidth r / 8
          tryW (s.engPutBits t (fun k => wholeByte r c (at0 + k)) (lyBit r i) (lyWidth r) p.bits) t (fun s =>
            (s, { t with prog := L + 1, rd := t.rd + 1, dv := t.dv + 1, sc := t.sc + b2n first, fl := t.fl ||| p.fl }, none)))))

/-- Refusals of a COPY_OUT beside those of its layout (R298, R302, R413); a sparse layout is refused (log 20). -/
def State.copyOutBad (s : State) (t : Task) (b r : Nat) : Bool :=
  let rnd := bitsAt b 504 3
  let wide := bitAt b 507
  !inUse t 0 || inUse t 1 || inUse t 2 || t.out.isSome || t.spec || lySpr r ||
  inUnits t 0 ≠ (if wide then 2 * lyTile r else lyTile r) / 32 ||
  bitsAt b 248 8 ≠ 0 || bitsAt b 508 4 ≠ 0 || bitsAt b 448 56 % 16 ≠ 0 || !startOk b r ||
  !(rnd ≤ 3 || (rnd = 5 && lyTy r = 0xF && s.granted 3)) ||
  (lyClip r && (List.range (lyCount r)).any (fun L => (lyAt r (payStart b) L).isNone))

def copyOutWork (s : State) (t : Task) : EAcc :=
  withBody s t (fun s t b =>
    let crec := bitsAt b 448 56
    let la := bitsAt b 192 56
    if !t.direct && la % 64 ≠ 0 then rejectRec crec s t
    else memueRec crec (withBlock la s t (fun s t r =>
      if !layoutOk r || s.copyOutBad t b r then rejectRec crec s t
      else
        (engLoop (copyOutElem r (bitsAt b 504 3) (bitsAt b 416 32) (payStart b) (bitAt b 507))
          (List.range' t.prog (lyCount r - t.prog)) s t).andThen (fun s t => endRec crec 0 s t))))

def execTaskCopyOut (cl slot : Nat) (s : State) : Out := engStep [2] copyOutWork cl slot s

/-! ## COPY (R304) -/

/-- Reads bytes one by one until a read fails: what has been read, and what has stopped it. -/
def readPrefix (rid va : Nat) : Nat → State → State × List Byte × Option EStop
  | 0, s => (s, [], none)
  | n + 1, s =>
    match readPrefix rid va n s with
    | (s, l, some e) => (s, l, some e)
    | (s, l, none) =>
      match engBytes rid ((va + n) % 2 ^ 56) 1 s with
      | (.error e, s) => (s, l, some e)
      | (.ok b, s) => (s, l ++ b, none)

/-- Moves the bytes of one destination sector, from the progress point. -/
def copyChunk (src dst len : Nat) (_ : Nat) (s : State) (t : Task) : EAcc :=
  let d := dst + t.prog
  let n := min (len - t.prog) (32 - d % 32)
  if n = 0 then (s, t, none)
  else
    let r := readPrefix t.rid (src + t.prog) n s
    if r.2.1.isEmpty then (r.1, t, r.2.2)
    else tryW (r.1.engWrite t.rid (d % 2 ^ 56) r.2.1) t (fun s =>
      let k := r.2.1.length
      (s, { t with prog := t.prog + k, rd := t.rd + k, dv := t.dv + k }, r.2.2))

def copyWork (s : State) (t : Task) : EAcc :=
  withBody s t (fun s t b =>
    let crec := bitsAt b 448 56
    let len := bitsAt b 320 32
    if len = 0 || bitsAt b 248 8 ≠ 0 || bitsAt b 312 8 ≠ 0 || bitsAt b 352 96 ≠ 0 || bitsAt b 504 8 ≠ 0 || crec % 16 ≠ 0 then
      rejectRec crec s t
    else
      memueRec crec ((engLoop (copyChunk (bitsAt b 192 56) (bitsAt b 256 56) len) (List.range (len / 32 + 2)) s t).andThen
        (fun s t => endRec crec 0 s t)))

def execTaskCopy (cl slot : Nat) (s : State) : Out := engStep [0x0B] copyWork cl slot s

/-! ## Cross-module transfers (R272) -/

def xredOk (xop xty : Nat) : Bool := (xop ≤ 2 && (xty = 0 || xty = 1 || xty = 0xA)) || (xop = 0 && (xty = 0xC || xty = 0xD))

/-- Refusals of a cross-module payload: its reserved bits, LEN, the operation, and the peer. XOP and XTY, which are of XRED only, count as reserved bits of XPUT and
XGET: the model's choice (log 94). -/
def State.xferBad (s : State) (t : Task) (b : Nat) : Bool :=
  let len := bitsAt b 320 32
  len = 0 || len % 32 ≠ 0 || bitsAt b 248 8 ≠ 0 || bitsAt b 312 8 ≠ 0 || bitsAt b 368 144 ≠ 0 ||
  (if t.kind = 9 then !xredOk (bitsAt b 360 4) (bitsAt b 364 4) else bitsAt b 360 8 ≠ 0) ||
  (match s.region? t.rid with | some r => r.cgrp = 0 || r.cgsz ≤ bitsAt b 352 8 | none => true)

/-- The local data of XPUT and XRED. -/
def localBytes (t : Task) (b : Nat) : EM (List Byte) :=
  let len := bitsAt b 320 32
  if inUse t 0 then inBytes t 0 0 len else engBytes t.rid (bitsAt b 192 56) len

/-- Sends a message and makes the task wait for its answer. -/
def sendWait (m : Nat → OutMsg) (s : State) (t : Task) : EAcc :=
  (({ s with fresh := s.fresh + 1 }).send (m s.fresh), { t with rmt := some s.fresh, prog := 1 }, none)

/-- The work of XPUT, XGET and XRED: first the message to the peer, then, once the answer is here, the end. -/
def crossWork (s : State) (t : Task) : EAcc :=
  withBody s t (fun s t b =>
    let peer := bitsAt b 352 8
    let ra := bitsAt b 256 56
    let len := bitsAt b 320 32
    if s.xferBad t b then (s, t, some (.over 2))
    else if t.prog = 0 then
      if !((s.region? t.rid).map (fun r => r.grpActive)).getD false then (s, t, some (.over 4))
      else if t.kind = 8 then sendWait (fun id => .get id t.id t.rid peer ra len (s.peerAcc .rc [] false)) s t
      else tryE (localBytes t b) s t (fun s bs =>
        if t.kind = 7 then sendWait (fun id => .put id t.id t.rid peer ra bs (s.peerAcc .rc [] false)) s t
        else sendWait (fun id => .red id t.id t.rid peer ra (bitsAt b 360 4) (bitsAt b 364 4) bs (s.peerAcc .rc [] false)) s t)
    else if t.kind = 8 then
      let bs := t.acc.map (fun x => BitVec.ofNat 8 x.1)
      if t.out.isSome then (s.outBytes t 0 bs false, t, some (.over 0))
      else tryW (s.engWrite t.rid (bitsAt b 192 56) bs) t (fun s => (s, t, some (.over 0)))
    else (s, t, some (.over 0)))

/-- A step of a cross-module transfer; a message sent leaves the work open. -/
def crossStep (k cl slot : Nat) (s : State) : Out :=
  .next (match s.task? cl slot with
    | none => s
    | some t =>
      if t.kind = k && s.acts t then
        let a := crossWork (s.asTask t) t
        if a.2.1.rmt.isSome then a.1.putTask a.2.1 else a.commit
      else s)

def execTaskXput (cl slot : Nat) (s : State) : Out := crossStep 7 cl slot s
def execTaskXget (cl slot : Nat) (s : State) : Out := crossStep 8 cl slot s
def execTaskXred (cl slot : Nat) (s : State) : Out := crossStep 9 cl slot s

end Sys2Proof.Machine
end

