-- ==== Sys2Proof/Machine/WeightCache.lean ====
section
/-!
DEFINITION. The weight cache of a cluster (R255, R256): its lines, pins and counters. Bytes are always those of memory, which the slices
keep it coherent with, so that only the presence of a line and its pins are held.
-/

namespace Sys2Proof.Machine

/-- The set of a line: 768 sets of 16 ways, by the line number (log 24). -/
def wcSet (line : Nat) : Nat := line % 768

def State.updWc (s : State) (f : List WcLine → List WcLine) : State := { s with asu := { s.asu with wc := f s.asu.wc } }

/-- The ways of a set of a cluster that hold a line. -/
def State.wcWays (s : State) (cl line : Nat) : List WcLine := s.asu.wc.filter (fun l => l.cl = cl && wcSet l.line = wcSet line)

def State.wcFind (s : State) (cl line : Nat) : Option WcLine := s.asu.wc.find? (fun l => l.cl = cl && l.line = line)

/-- The physical line of a virtual one; none where its translation fails or leads to a peer. -/
def State.wcLine (s : State) (rid vline : Nat) : Option Nat :=
  match s.opDone.translate rid (128 * vline % 2 ^ 56) false with
  | .ok (.dev pa _) => some (pa / 128)
  | _ => none

/-- Marks a held line present, or gives it a way: a free one, or an unpinned one freely picked. None where all 16 ways are pinned. -/
def State.wcAlloc (s : State) (cl line : Nat) : Option State :=
  match s.wcFind cl line with
  | some _ => some (s.updWc (fun wc => wc.map (fun l => if l.cl = cl && l.line = line then { l with present := true } else l)))
  | none =>
    let ways := s.wcWays cl line
    let new : WcLine := ⟨cl, line, true, []⟩
    if ways.length < 16 then some (s.updWc (fun wc => wc ++ [new]))
    else
      match (orderBy (Config.order s.tick line) (ways.filter (fun l => l.pins.isEmpty))).head? with
      | none => none
      | some v => some (s.updWc (fun wc => wc.filter (fun l => !(l.cl = cl && l.line = v.line)) ++ [new]))

/-- A demand read is served past the cache: it counts, and the clk that it costs too (R256, R257, log 39). -/
def State.wcBypass (s : State) (cl : Nat) : State := (s.count (clReg cl 1) 48 1).stallUnit (clReg cl 0x80) 0x19

/-- A demand read of virtual lines: a miss allocates, or is served past the cache and counted (R256). -/
def State.wcDemand (s : State) (cl rid : Nat) (vlines : List Nat) : State :=
  vlines.foldl (fun s v =>
    match s.wcLine rid v with
    | none => s
    | some line =>
      if (s.wcFind cl line).any (fun l => l.present) then s
      else (s.wcAlloc cl line).getD (s.wcBypass cl)) s

/-- A fill without a demand, as NPREF makes it: nothing happens where every way is pinned. -/
def State.wcPrefetch (s : State) (cl line : Nat) : State := (s.wcAlloc cl line).getD s

/-- Requests a pin of a line for a set: whether the line is then pinned (R256). -/
def State.wcPin (s : State) (cl line : Nat) (key : Nat × Nat) : State × Bool :=
  let add := fun (s : State) => s.updWc (fun wc => wc.map (fun l =>
    if l.cl = cl && l.line = line && !l.pins.contains key then { l with pins := l.pins ++ [key] } else l))
  if (s.wcFind cl line).any (fun l => !l.pins.isEmpty) then (add s, true)
  else if ((s.wcWays cl line).filter (fun l => !l.pins.isEmpty)).length < bitsAt (s.csr (clReg cl 0)) 0 5 then
    match s.wcAlloc cl line with
    | some s' => (add s', true)
    | none => (s.count (clReg cl 2) 48 1, false)
  else (s.count (clReg cl 2) 48 1, false)

/-- Clears the pin of lines; a way left with no pin and no data is free. -/
def State.wcUnpin (s : State) (p : WcLine → Bool) : State :=
  s.updWc (fun wc => (wc.map (fun l => if p l then { l with pins := [] } else l)).filter (fun l => l.present || !l.pins.isEmpty))

end Sys2Proof.Machine
end

