-- ==== Sys2Proof/Machine/Tensor.lean ====
section
/-!
DEFINITION. The matrix engine (R305 to R314) and the instructions 0xB0 to 0xB4 (R315, R316).
-/

namespace Sys2Proof.Machine

/-! ## The payload (R306, R307) -/

def mmM (b : Nat) : Nat := 16 * (bitsAt b 248 4 + 1)
def mmN (b : Nat) : Nat := 16 * (bitsAt b 252 4 + 1)
def mmG (b : Nat) : Nat := bitsAt b 312 11 + 1
def mmK (b : Nat) : Nat := 32 * mmG b
def mmBf (b : Nat) : Bool := bitAt b 323
def mmCin (b : Nat) : Bool := bitAt b 324
def mmLse (b : Nat) : Bool := bitAt b 327
def mmD (b : Nat) : Nat := bitsAt b 328 56
/-- Bytes of an element of D. -/
def mmE (b : Nat) : Nat := if mmBf b then 2 else 4

/-- The declared amounts of R307: IN0, IN1, IN2 and OUT. -/
def mmAmounts (b : Nat) : Nat × Nat × Nat × Nat :=
  (mmM b * mmK b / 16, mmK b * mmN b / 16, (mmM b * mmK b + mmK b * mmN b) / 256, mmM b * mmN b * mmE b / 32)

/-- Is a matrix payload refused (R306, R307)? -/
def mmBad (t : Task) (b : Nat) : Bool :=
  let am := mmAmounts b
  let usesD := t.out.isNone || mmCin b
  (inUse t 0 && inUnits t 0 ≠ am.1) || (inUse t 1 && inUnits t 1 ≠ am.2.1) ||
  (t.out.isSome && outUnits t ≠ am.2.2.2) ||
  (if t.kind = 4 then !inUse t 2 || inUnits t 2 ≠ am.2.2.1 else inUse t 2) ||
  (!inUse t 0 && (bitsAt b 192 56 % 2 ≠ 0 || bitsAt b 392 16 = 0)) ||
  (!inUse t 1 && (bitsAt b 256 56 % 2 ≠ 0 || bitsAt b 408 16 = 0)) ||
  (usesD && (mmD b % mmE b ≠ 0 || bitsAt b 424 16 = 0)) ||
  (mmLse b && bitsAt b 440 56 % 32 ≠ 0) ||
  bitsAt b 387 5 ≠ 0 || bitsAt b 502 2 ≠ 0 ||
  (t.spec && (t.out.isNone || mmCin b || mmLse b)) || (t.rowcast && t.colcast)

/-- The addresses of A(i, k) and B(k, j) of an operand that lies in memory (R307). -/
def mmAddrA (b i k : Nat) : Nat :=
  let str := 32 * bitsAt b 392 16
  (bitsAt b 192 56 + (if bitAt b 325 then str * k + 2 * i else str * i + 2 * k)) % 2 ^ 56
def mmAddrB (b k j : Nat) : Nat :=
  let str := 32 * bitsAt b 408 16
  (bitsAt b 256 56 + (if bitAt b 326 then str * j + 2 * k else str * k + 2 * j)) % 2 ^ 56

/-- Element A(i, k), with its pad bit (R307). -/
def mmElemA (t : Task) (b i k : Nat) : EM (Nat × Bool) :=
  if inUse t 0 then do
    let o := 1024 * (k / 32 * (mmM b / 16) + i / 16) + 2 * (32 * (i % 16) + k % 32)
    return (leNat (← inBytes t 0 o 2), (← get).inPad t 0 o)
  else do return (← engRead t.rid (mmAddrA b i k) 2, false)

/-- Element B(k, j), with its pad bit. -/
def mmElemB (t : Task) (b k j : Nat) : EM (Nat × Bool) :=
  if inUse t 1 then do
    let o := 1024 * (k / 32 * (mmN b / 16) + j / 16) + 2 * (16 * (k % 32) + j % 16)
    return (leNat (← inBytes t 1 o 2), (← get).inPad t 1 o)
  else do return (← engRead t.rid (mmAddrB b k j) 2, false)

/-- The start of an accumulator: C from D's prior contents, or +0 (R305). -/
def mmElemC (t : Task) (b i j : Nat) : EM Nat :=
  if !mmCin b then pure 0
  else do
    let v ← engRead t.rid ((mmD b + 32 * bitsAt b 424 16 * i + mmE b * j) % 2 ^ 56) (mmE b)
    return if mmBf b then v * 2 ^ 16 else v

/-- The bitmap words of group `g` of an MMAS: those of the 16 rows of a row block, and those of the columns (R309). -/
def mmMapA (t : Task) (b rb g : Nat) : EM (List Nat) :=
  if t.kind ≠ 4 then pure [] else collectE (fun i => do return [leNat (← inBytes t 2 (4 * ((16 * rb + i) * mmG b + g)) 4)]) (List.range 16)
def mmMapB (t : Task) (b g : Nat) : EM (List Nat) :=
  if t.kind ≠ 4 then pure [] else collectE (fun j => do return [leNat (← inBytes t 2 (4 * (mmM b * mmG b + g * mmN b + j)) 4)]) (List.range (mmN b))

/-- The products of output (i, j) in a group from its operand elements; one whose two bits of an MMAS are not both set is a zero product, and a dense task has
every bit. -/
def mmProds (t : Task) (b i j : Nat) (as bs : List (Nat × Bool)) (ma mb : List Nat) : List Prod :=
  ((List.range 32).filter (fun x => t.kind ≠ 4 || (bitAt (nth ma (i % 16)) x && bitAt (nth mb j) x))).map (fun x =>
    let a := nth as ((i % 16) * 32 + x)
    let c := nth bs (x * mmN b + j)
    ⟨a.1, c.1, a.2 || c.2⟩)

/-- The bytes of one group of B in canonical order, for a broadcast (R312); it carries no pad bits (R295). -/
def mmBcast (b : Nat) (bs : List (Nat × Bool)) : List Byte :=
  (List.range (mmN b / 16)).flatMap (fun cb =>
    (List.range 32).flatMap (fun k => (List.range 16).flatMap (fun j => leBytes 2 (nth bs (k * mmN b + 16 * cb + j)).1)))

/-- The transfer of a task. -/
def State.xferOf (s : State) (t : Task) : Option Xfer := s.cts.xfers.find? (fun x => x.cl = t.cl && x.slot = t.slot && x.gen = t.gen)

/-- The bytes of B reach the bus as row block 0 reads them (R312). -/
def State.mmSend (s : State) (t : Task) (b g : Nat) (bs : List (Nat × Bool)) : State :=
  if g = 0 then s.startXfer t t.rowcast (bitsAt b 504 8) (bitsAt b 496 6) (2 * mmK b * mmN b) (mmBcast b bs) []
  else s.updCts (fun c => { c with xfers := c.xfers.map (fun x =>
    if x.cl = t.cl && x.slot = t.slot && x.gen = t.gen then { x with data := x.data ++ mmBcast b bs } else x) })

/-- Does a step of row block 0 find the bus without room: a whole beat of what the steps before have read has not left (R312)? -/
def State.busFull (s : State) (t : Task) (rb : Nat) : Bool :=
  rb = 0 && (t.rowcast || t.colcast) && (s.xferOf t).any (fun x => 256 ≤ x.data.length - x.sent)

/-- Under WCM the lines of operands that lie in memory are read through the weight cache (R255). -/
def State.mmCache (s : State) (t : Task) (b rb g : Nat) : State :=
  if !bitAt t.opts 4 then s
  else
    let as := if inUse t 0 then [] else (List.range 16).flatMap (fun i => (List.range 32).map (fun k => mmAddrA b (16 * rb + i) (32 * g + k)))
    let bs := if inUse t 1 then [] else (List.range 32).flatMap (fun k => (List.range (mmN b)).map (fun j => mmAddrB b (32 * g + k) j))
    s.wcDemand t.cl t.rid (sortedSet ((as ++ bs).map (fun a => a / 128)))

/-- What a step pair reads: the accumulators, the elements of A and of B, and the bitmap words. -/
def mmReads (t : Task) (b rb g : Nat) : EM (List (Nat × Nat) × List (Nat × Bool) × List (Nat × Bool) × List Nat × List Nat) := do
  let idx := (List.range 16).flatMap (fun i => (List.range (mmN b)).map (fun j => (16 * rb + i, j)))
  let acc ← if g ≠ 0 then pure t.acc else collectE (fun p => do return [(← mmElemC t b p.1 p.2, 0)]) idx
  let as ← collectE (fun p => do return [← mmElemA t b p.1 p.2]) ((List.range 16).flatMap (fun i => (List.range 32).map (fun k => (16 * rb + i, 32 * g + k))))
  let bs ← collectE (fun p => do return [← mmElemB t b p.1 p.2]) ((List.range 32).flatMap (fun k => (List.range (mmN b)).map (fun j => (32 * g + k, j))))
  return (acc, as, bs, ← mmMapA t b rb g, ← mmMapB t b g)

/-- A step pair (rb, g): one alignment group of every output of a row block (R305, R313). -/
def mmPair (b rb g : Nat) (s : State) (t : Task) : EAcc :=
  tryE (mmReads t b rb g) s t (fun s x =>
    let idx := (List.range 16).flatMap (fun i => (List.range (mmN b)).map (fun j => (16 * rb + i, j)))
    let acc := (idx.zip x.1).map (fun q =>
      let r := dotGroup (bitsAt b 384 3) q.2.1 (mmProds t b q.1.1 q.1.2 x.2.1 x.2.2.1 x.2.2.2.1 x.2.2.2.2)
      (r.bits, q.2.2 ||| r.fl))
    let s := if rb = 0 && (t.rowcast || t.colcast) then s.mmSend t b g x.2.2.1 else s
    (s.mmCache t b rb g, { t with acc := acc, prog := t.prog + 1 }, none))

/-- The bits and flags of an element of D as it is written (R130, R311). -/
def mmOut (b : Nat) (a : Nat × Nat) : FRes :=
  if mmBf b then (bf16.ofV .rn false (fp32.value a.1)).or a.2 else ⟨a.1, a.2⟩

/-- Writes the rows of a row block, and its share of the LS bitmap (R305, R311). -/
def mmRows (b rb : Nat) (s : State) (t : Task) : EAcc :=
  let n := mmN b
  let e := mmE b
  let out := t.acc.map (mmOut b)
  let fl := out.foldl (fun x r => x ||| r.fl) t.fl
  let w := (List.range 16).foldl (fun (acc : State × Option EStop) i =>
    match acc.2 with
    | some _ => acc
    | none =>
      let s := acc.1
      let bs := ((out.drop (i * n)).take n).flatMap (fun r => leBytes e r.bits)
      if t.out.isSome then (s.outBytes t (e * ((16 * rb + i) * n)) bs false, none)
      else s.engWrite t.rid ((mmD b + 32 * bitsAt b 424 16 * (16 * rb + i)) % 2 ^ 56) bs) (s, none)
  tryW w t (fun s =>
    let bits := out.foldr (fun r acc => 2 * acc + b2n (r.fl &&& flLS ≠ 0)) 0
    tryW (if mmLse b then s.engWrite t.rid ((bitsAt b 440 56 + rb * (2 * n)) % 2 ^ 56) (leBytes (2 * n) bits) else (s, none)) t (fun s =>
      (s, { t with fl := fl, acc := [], prog := t.prog + 1 }, none)))

/-- Progress `p` counts G step pairs and the writing of the rows for each row block. -/
def mmStep (b p : Nat) (s : State) (t : Task) : EAcc :=
  let rb := p / (mmG b + 1)
  let g := p % (mmG b + 1)
  if g = mmG b then mmRows b rb s t else if s.busFull t rb then (s, t, some .pause) else mmPair b rb g s t

def mmWork (s : State) (t : Task) : EAcc :=
  withBody s t (fun s t b =>
    if mmBad t b then (s, t, some (.over 2))
    else
      let n := mmM b / 16 * (mmG b + 1)
      engLoop (mmStep b) (List.range' t.prog (n - t.prog)) s t)

def execTaskMma (cl slot : Nat) (s : State) : Out := engStep [3] mmWork cl slot s
def execTaskMmas (cl slot : Nat) (s : State) : Out := engStep [4] mmWork cl slot s

/-! ## The direct forms (R315) -/

/-- A cbuf entry as a record holds it. -/
def mkEntry (used : Bool) (cb units : Nat) : Nat := if used then cb + 2 ^ 7 + 2 ^ 8 * (units % 2 ^ 16) else 0

/-- The end of a direct form: a cbuf that the gang does not hold raises PERMISSION; a record that fails is ILLEGAL; with no free slot nothing
is posted; else the task is posted and the predicate set. Where both hold, PERMISSION comes first, after the read of the record or block: the model's choice (log
94). -/
def postDirect (c : Ctx) (l : Nat) (w : Wave) (tok : Option Nat) (r : Nat) (lrec : Option Nat) (bad : State → Task → Bool) (s : State) :
    State × LaneRes :=
  let pc := c.e.h.c.toNat
  let es := ((recIns r) ++ [recOut r]).filterMap id
  match (es.filter (fun p => !s.holds w.gid p.1)).head? with
  | some p => (s, .fault ⟨fcPermission, p.1⟩)
  | none =>
    let t := s.newTask w l ((s.freeSlot w.cl).getD 0) r tok true (0, 0, 0) (some r) lrec
    if s.recordBad w r || bad s t then (s, .fault illegal7)
    else
      match s.freeSlot w.cl with
      | none => (s, .ok { preds := [(pc, false)], st := admitted c })
      | some _ => (s.postTask t, .ok { preds := [(pc, true)], st := admitted c })

/-- A read of a layout record, block or command at post, with its faults (R200, R315). -/
def readAtPost (va n : Nat) (w : Wave) (s : State) (f : State → Nat → State × LaneRes) : State × LaneRes :=
  match s.readNoted w.rid va n with | .error e => (s, .fault e) | .ok r => f r.1 r.2

/-- The record of TCPY (`out` false) or TCPYW for a layout `r` (R315): five starts, the completion record and the fill from A. -/
def State.tcpyRecord (s : State) (isOut : Bool) (c : Ctx) (l r : Nat) : Nat :=
  let x := c.e.x.toNat
  let reg := fun i => s.readRegs c.uid l .s (c.e.h.a.toNat + i) 1
  let pair := fun i => s.readRegs c.uid l .s (c.e.h.a.toNat + i) 2
  let start := (List.range 5).foldl (fun acc n => acc + reg (2 + n) * 2 ^ (256 + 32 * n)) 0
  let cb := bitsAt x 0 6
  let pay := pair 0 * 2 ^ 192 + start + pair 8 * 2 ^ 448 + reg 7 * 2 ^ 416
  if isOut then
    let wide := bitAt x 11
    2 + mkEntry true cb ((if wide then 2 * lyTile r else lyTile r) / 32) * 2 ^ 96 + pay + bitsAt x 8 3 * 2 ^ 504 + b2n wide * 2 ^ 507
  else
    1 + b2n (bitAt x 12) * 2 ^ 10 + b2n (bitAt x 13) * 2 ^ 11 + mkEntry true cb (lyTile r / 32) * 2 ^ 168 + pay

/-- Does the layout or the record of TCPY or TCPYW fail at post (R315)? -/
def tcpyBad (isOut : Bool) (x rec64 r : Nat) (s : State) (t : Task) : Bool :=
  !layoutOk r || 65535 < lyTile r / 32 * (if isOut && bitAt x 11 then 2 else 1) ||
    (if isOut then s.copyOutBad t rec64 r else copyInBad t rec64 r)

/-- TCPY (`out` false) and TCPYW. -/
def tcpyLane (isOut : Bool) (c : Ctx) (s : State) (l : Nat) : State × LaneRes :=
  match s.wave? c.uid with
  | none => (s, .ok {})
  | some w =>
    let pair := fun i => s.readRegs c.uid l .s (c.e.h.a.toNat + i) 2
    let tok := tokField c.e.h.d.toNat
    let la := pair 0
    let crec := pair 8
    if s.tokBusy c.uid l tok then (s, .fault illegal7)
    else if la % 64 ≠ 0 || 2 ^ 56 ≤ la || 2 ^ 56 ≤ crec || (!isOut && 256 ≤ s.readRegs c.uid l .s (c.e.h.a.toNat + 7) 1) then (s, .fault illegal7)
    else readAtPost la 64 w s (fun s r =>
      let rec64 := s.tcpyRecord isOut c l r
      postDirect c l w tok rec64 (some r) (tcpyBad isOut c.e.x.toNat rec64 r) s)

def execTcpy (h : Hdr) (f : EngFn) (x : BitVec 64) (s : State) : Out := runEng 0xB0 h f x (tcpyLane false) (fun _ s => s) s
def execTcpyw (h : Hdr) (f : EngFn) (x : BitVec 64) (s : State) : Out := runEng 0xB1 h f x (tcpyLane true) (fun _ s => s) s

/-- The record of MMA or MMAS for the block that its bytes `blk` hold (R315). -/
def mmaRecord (kind x blk : Nat) : Nat :=
  let b := blk * 2 ^ 192
  let am := mmAmounts b
  kind + b2n (bitAt x 28) * 2 ^ 8 + b2n (bitAt x 29) * 2 ^ 10 + b2n (bitAt x 30) * 2 ^ 11 +
    mkEntry (bitAt x 6) (bitsAt x 0 6) am.1 * 2 ^ 96 + mkEntry (bitAt x 13) (bitsAt x 7 6) am.2.1 * 2 ^ 120 +
    mkEntry (bitAt x 20) (bitsAt x 14 6) am.2.2.1 * 2 ^ 144 + mkEntry (bitAt x 27) (bitsAt x 21 6) am.2.2.2 * 2 ^ 168 + b

def mmaLane (kind : Nat) (c : Ctx) (s : State) (l : Nat) : State × LaneRes :=
  match s.wave? c.uid with
  | none => (s, .ok {})
  | some w =>
    let tok := tokField c.e.h.d.toNat
    let a := s.readRegs c.uid l .s c.e.h.a.toNat 2
    if s.tokBusy c.uid l tok then (s, .fault illegal7)
    else if a % 8 ≠ 0 || 2 ^ 56 ≤ a then (s, .fault illegal7)
    else readAtPost a 40 w s (fun s blk =>
      let r := mmaRecord kind c.e.x.toNat blk
      postDirect c l w tok r none (fun _ t => mmBad t r) s)

def execMma (h : Hdr) (f : EngFn) (x : BitVec 64) (s : State) : Out := runEng 0xB2 h f x (mmaLane 3) (fun _ s => s) s
def execMmas (h : Hdr) (f : EngFn) (x : BitVec 64) (s : State) : Out := runEng 0xB3 h f x (mmaLane 4) (fun _ s => s) s

/-! ## MRPG (R316) -/

/-- The result of MRPG for a task. -/
def Task.progress (t : Task) : Nat :=
  let st := match t.st with
    | .waiting | .ready => 0
    | .running => if t.susp then 2 else 1
    | .specDone => 3
    | .done => 4
  let pr : Option (Nat × Nat) :=
    if t.kind = 3 || t.kind = 4 then
      match t.body with
      | some b =>
        let g := t.prog % (mmG b + 1)
        let rb := t.prog / (mmG b + 1)
        if g ≠ 0 then some (rb, g - 1) else if rb ≠ 0 then some (rb - 1, mmG b - 1) else none
      | none => none
    else none
  (match pr with | some p => p.2 + 2 ^ 11 * p.1 + 2 ^ 15 | none => 0) + 2 ^ 16 * st + 2 ^ 19 * (t.fl % 2 ^ 7)

/-- The state of a task, at once; a last completed group with the task done or in spec-done is a join of its accesses (R226). -/
def mrpgLane (c : Ctx) (s : State) (l : Nat) : State × LaneRes :=
  match s.wave? c.uid with
  | none => (s, .ok {})
  | some w =>
    let i := s.taskId c l
    match s.taskOf w.cl i with
    | .invalid => (s, .fault illegal7)
    | .unposted => (s, .fault ⟨fcHandle, i⟩)
    | .retired => (s, .ok { regs := regWrites l .v c.e.h.d.toNat 1 0x50000 })
    | .current t =>
      let joins := (t.kind = 3 || t.kind = 4) && (t.st = .done || t.st = .specDone) && bitAt t.progress 15
      (if joins then s.joinLane t.view c.uid l else s, .ok { regs := regWrites l .v c.e.h.d.toNat 1 t.progress })

def execMrpg (h : Hdr) (f : EngFn) (x : BitVec 64) (s : State) : Out := runEng 0xB4 h f x mrpgLane (fun _ s => s) s

end Sys2Proof.Machine
end

