-- ==== Sys2Proof/Machine/Streams.lean ====
section
/-!
DEFINITION. The stream unit, 0xC0 to 0xC5 (R322 to R331), and ISECT (R332).
-/

namespace Sys2Proof.Machine

/-! ## The image (R322) -/

structure Strm where
  desc : Nat
  st : Nat
  ty : Nat
  iw : Nat
  ord : Bool
  unq : Bool
  par : Nat
  cur : Nat
  fin : Nat
  last : Nat
  skip : Nat
  size : Nat
  lv : Bool
  skv : Bool
  bad : Nat
  bada : Bool
  badv : Bool
  err : Nat
  deriving DecidableEq, Repr, Inhabited

def Strm.of (x : Nat) : Strm :=
  ⟨bitsAt x 0 56, bitsAt x 56 2, bitsAt x 58 2, bitsAt x 60 2, bitAt x 62, bitAt x 63, bitsAt x 64 64, bitsAt x 128 64, bitsAt x 192 64,
    bitsAt x 256 64, bitsAt x 320 64, bitsAt x 384 48, bitAt x 432, bitAt x 433, bitsAt x 448 52, bitAt x 500, bitAt x 501, bitsAt x 502 4⟩

def Strm.bits (w : Strm) : Nat :=
  w.desc + w.st * 2 ^ 56 + w.ty * 2 ^ 58 + w.iw * 2 ^ 60 + b2n w.ord * 2 ^ 62 + b2n w.unq * 2 ^ 63 + w.par * 2 ^ 64 + w.cur * 2 ^ 128 +
    w.fin * 2 ^ 192 + w.last * 2 ^ 256 + w.skip * 2 ^ 320 + w.size * 2 ^ 384 + b2n w.lv * 2 ^ 432 + b2n w.skv * 2 ^ 433 +
    w.bad * 2 ^ 448 + b2n w.bada * 2 ^ 500 + b2n w.badv * 2 ^ 501 + w.err * 2 ^ 502

/-- A stream register of a wave. -/
def State.strm (s : State) (uid w : Nat) : Strm :=
  match s.wave? uid with | some v => Strm.of (Sparse.get 0 v.w w).toNat | none => Strm.of 0

def State.setStrm (s : State) (uid w : Nat) (x : Nat) : State :=
  s.updWave uid (fun v => { v with w := Sparse.put 0 v.w w (BitVec.ofNat 512 x) })

/-- A STREAMSTATE fault on register `w`: only ERR changes (R323). -/
def State.strmErr (s : State) (uid w e : Nat) : State := s.setStrm uid w { s.strm uid w with err := e }.bits

/-! ## The elements of a stream (R319, R320, R328) -/

/-- What ends an STNXT without a delivery (R330): STREAMSTATE on stream B or A with a reason; a malformed entry of an array; a fault of a
read. -/
inductive SErr
  | state (b : Bool) (e : Nat)
  | malformed (b : Bool) (i : Nat) (pos : Bool)
  | fault (f : LFault)
  deriving DecidableEq, Repr

/-- The reads of a stream fetch, an operation whose reads take their places in the order of memory (R324, R226). -/
abbrev SM (α : Type) := ExceptT SErr (StateM State) α

/-- A read of a stream fetch. -/
def strmRead (rid va n : Nat) : SM Nat := fun s =>
  match s.bytesOfVa rid (va % 2 ^ 56) false n with
  | .error e => (.error (.fault e), s)
  | .ok ls =>
    match s.ueAt ls with
    | some a => (.error (.fault ⟨fcMemUe, a⟩), s.meetUe (ls.map (fun x => x.2)))
    | none => (match s.take ls none with | .error e => (.error (.fault e), s) | .ok r => (.ok (leNat r.2), r.1))

/-- What ends a fetch. -/
def stopS {α : Type} (e : SErr) : SM α := throw e

/-- A stream in an STNXT: its image, and its descriptor once this fetch has read it; `b` tells stream B from stream A. -/
structure Fetch where
  x : Strm
  d : Option Nat
  b : Bool
  deriving DecidableEq, Repr

/-- The descriptor at DESC, read by the first read of an array (R331). -/
def Fetch.descOf (rid : Nat) (f : Fetch) : SM Nat := match f.d with | some d => pure d | none => strmRead rid f.x.desc 32

/-- Reads `n` bytes at offset `off` of an array whose address the descriptor holds. -/
def Fetch.arrayRead (rid : Nat) (f : Fetch) (base : Nat → Nat) (off n : Nat) : SM Nat := do strmRead rid (base (← f.descOf rid) + off) n

/-- Entry `i` of the coordinate array. -/
def Fetch.crdEntry (rid : Nat) (f : Fetch) (i : Nat) : SM Nat := f.arrayRead rid lvCrd (i * (2 * 2 ^ f.x.iw)) (2 * 2 ^ f.x.iw)

def Fetch.posEntry (rid : Nat) (f : Fetch) (i : Nat) : SM Nat := f.arrayRead rid lvPos (i * (2 * 2 ^ f.x.iw)) (2 * 2 ^ f.x.iw)

/-- The first set bit of a BITMAP fibre at or after `i`, or its end. -/
def Fetch.nextSet (rid : Nat) (f : Fetch) : Nat → Nat → SM Nat
  | 0, i => pure i
  | n + 1, i => do
    let k := (f.x.par * f.x.size + i) % 2 ^ 64
    if bitAt (← f.arrayRead rid lvPos (k / 8) 1) (k % 8) then pure i else f.nextSet rid n (i + 1)

/-- Step 3 of R328: a stream in state 1 reads and checks its descriptor and becomes active; in state 2 or 3 nothing is read yet (R331). -/
def openFetch (rid : Nat) (x : Strm) (b : Bool) : SM Fetch :=
  if x.st = 0 then stopS (.state b 1)
  else if x.st ≠ 1 then pure ⟨x, none, b⟩
  else do
    let d ← strmRead rid x.desc 32
    if !lvOk d then stopS (.state b 2)
    else if x.skv && !(lvOrd d && lvUnq d) then stopS (.state b 3)
    else
      let x := { x with ty := lvTy d, iw := lvIw d, ord := lvOrd d, unq := lvUnq d, size := lvSize d, st := 2 }
      match x.ty with
      | 0 => pure ⟨{ x with cur := 0, fin := x.size }, some d, b⟩
      | 1 => do
        let p ← Fetch.posEntry rid ⟨x, some d, b⟩ x.par
        let q ← Fetch.posEntry rid ⟨x, some d, b⟩ (x.par + 1)
        if q < p then stopS (.malformed b (x.par + 1) true) else pure ⟨{ x with cur := p, fin := q }, some d, b⟩
      | 2 => do
        let i ← Fetch.nextSet rid ⟨x, some d, b⟩ x.size 0
        pure ⟨{ x with cur := i, fin := x.size }, some d, b⟩
      | _ => pure ⟨{ x with cur := x.par, fin := (x.par + 1) % 2 ^ 64 }, some d, b⟩

/-- The element at the cursor, checked on reading: coordinate and position. -/
def Fetch.element (rid : Nat) (f : Fetch) : SM (Nat × Nat) :=
  let x := f.x
  match x.ty with
  | 0 | 2 => pure (x.cur, (x.par * x.size + x.cur) % 2 ^ 64)
  | _ => do
    let c ← f.crdEntry rid x.cur
    if x.size ≤ c || (x.ty = 1 && x.lv && x.ord && (if x.unq then c ≤ x.last else c < x.last)) then stopS (.malformed f.b x.cur false)
    else pure (c, x.cur)

/-- Passes the element with coordinate `c`. -/
def Fetch.pass (rid : Nat) (f : Fetch) (c : Nat) : SM Fetch :=
  let x := { f.x with last := c, lv := true, cur := (f.x.cur + 1) % 2 ^ 64 }
  if x.ty = 2 then do
    let i ← Fetch.nextSet rid { f with x := x } (x.fin - x.cur) x.cur
    pure { f with x := { x with cur := i } }
  else pure { f with x := x }

/-- The head of a stream after any pending skip: none when the fibre has ended, its cursor at its end. The procedure of R328 tests the cursor alone, so that a stream
which STRST loads in state 3 with CUR below END delivers elements, although R329 says that an ended stream delivers none: the model's choice (log 94). -/
def Fetch.head (rid : Nat) : Nat → Fetch → SM (Fetch × Option (Nat × Nat))
  | 0, f => pure (f, none)
  | n + 1, f =>
    if f.x.cur = f.x.fin then pure ({ f with x := { f.x with skv := false, st := 3 } }, none)
    else do
      let el ← f.element rid
      if f.x.skv && f.x.cur < f.x.fin && el.1 < f.x.skip then Fetch.head rid n (← f.pass rid el.1)
      else pure ({ f with x := { f.x with skv := false } }, some el)

/-- The steps that a stream can still take: its head, and one for each element before its end. -/
def Fetch.left (f : Fetch) : Nat := f.x.fin - f.x.cur + 2

/-- A delivery: coordinate, position in A, position in B; none stands for the sentinel. -/
abbrev Deliv := Nat × Option Nat × Option Nat

/-- A delivery with a value above 0xFFFF_FFFE, which .x32 cannot hold: of stream B, or of stream A (R329). -/
def Deliv.wide (d : Deliv) : Option Bool :=
  let big := fun (v : Nat) => decide (0xFFFFFFFE < v)
  match d with
  | (c, some p, q) => if big c || big p then some false else if (q.map big).getD false then some true else none
  | (c, none, q) => if big c || (q.map big).getD false then some true else none

/-- What is the same in every step of an STNXT: its region, its mode (0 single, 1 .isect, 2 .union), .x64, and the number of participants. -/
structure StrmJob where
  rid : Nat
  mode : Nat
  x64 : Bool
  n : Nat

/-- The step of the procedure of R328 with the heads of both streams: what is delivered, and which streams pass their element, A before B. -/
def strmStep (mode : Nat) (ha hb : Option (Nat × Nat)) : Option (Option Deliv × Bool × Bool) :=
  match mode, ha, hb with
  | 0, some a, _ => some (some (a.1, some a.2, none), true, false)
  | 1, some a, some b =>
    some (if a.1 < b.1 then (none, true, false) else if b.1 < a.1 then (none, false, true) else (some (a.1, some a.2, some b.2), true, true))
  | 2, some a, some b =>
    some (if a.1 < b.1 then (some (a.1, some a.2, none), true, false) else if b.1 < a.1 then (some (b.1, none, some b.2), false, true)
      else (some (a.1, some a.2, some b.2), true, true))
  | 2, some a, none => some (some (a.1, some a.2, none), true, false)
  | 2, none, some b => some (some (b.1, none, some b.2), false, true)
  | _, _, _ => none

/-- Passes the head of a stream where its step does so. -/
def Fetch.passIf (rid : Nat) (go : Bool) (f : Fetch) (h : Option (Nat × Nat)) : SM Fetch := if go then f.pass rid ((h.map (fun h => h.1)).getD 0) else pure f

/-- The procedure of R328 until `n` elements have been delivered or a stream stops it; the first fault met ends it (R330). -/
def deliver (j : StrmJob) : Nat → Fetch → Fetch → List Deliv → SM (Fetch × Fetch × List Deliv)
  | 0, a, b, out => pure (a, b, out)
  | k + 1, a, b, out =>
    if j.n ≤ out.length then pure (a, b, out)
    else do
      let (a, ha) ← a.head j.rid a.left
      let (b, hb) ← if j.mode = 0 then pure (b, none) else b.head j.rid b.left
      match strmStep j.mode ha hb with
      | none => pure (a, b, out)
      | some (d, pa, pb) =>
        match d.bind (fun d => if j.x64 then none else d.wide) with
        | some w => stopS (.state w 4)
        | none => do
          let a ← a.passIf j.rid pa ha
          let b ← b.passIf j.rid pb hb
          deliver j k a b (out ++ d.toList)

/-! ## Operations in arrival order (R324) -/

/-- The stream registers that an operation names. -/
def StreamOp.regs (q : StreamOp) : List Nat :=
  match q.op with
  | 0xC0 | 0xC4 | 0xC5 => [q.h.d.toNat]
  | 0xC1 => if bitsAt q.sub 0 2 = 0 then [q.h.a.toNat] else [q.h.a.toNat, q.h.b.toNat]
  | _ => [q.h.a.toNat]

/-- Does an operation before position `k` name one of the registers? -/
def State.strmBusy (s : State) (uid : Nat) (rs : List Nat) (k : Nat) : Bool :=
  (s.streams.take k).any (fun q => q.uid = uid && q.regs.any (fun r => rs.contains r))

/-- The effect of an operation other than STNXT: the state, the scalars that it writes, or its fault (R326, R327, R331). -/
def State.strmPerform (s : State) (q : StreamOp) : State × Except LFault (List (RegRef × Word)) :=
  let bad := fun (w e : Nat) => (s.strmErr q.uid w e, Except.error (α := List (RegRef × Word)) (⟨fcStreamState, w⟩ : LFault))
  match q.op with
  | 0xC0 => (s.setStrm q.uid q.h.d.toNat (q.a % 2 ^ 56 + 2 ^ 56 + q.b % 2 ^ 64 * 2 ^ 64), .ok [])
  | 0xC2 =>
    let w := q.h.a.toNat
    let x := s.strm q.uid w
    if x.st = 0 then bad w 1
    else if 2 ≤ x.st && !(x.ord && x.unq) then bad w 3
    else (s.setStrm q.uid w { x with skip := if x.skv then max x.skip q.b else q.b, skv := true }.bits, .ok [])
  | 0xC3 => (s, .ok (regWrites 0 .s q.h.d.toNat 16 (s.strm q.uid q.h.a.toNat).bits))
  | 0xC4 =>
    let w := q.h.d.toNat
    let x := Strm.of q.a
    if bitsAt q.a 434 14 ≠ 0 || bitsAt q.a 506 6 ≠ 0 ||
       (x.st = 0 && { x with err := 0 }.bits ≠ 0) ||
       (2 ≤ x.st && (x.iw = 3 || x.fin < x.cur || ((x.ty = 0 || x.ty = 2) && !(x.ord && x.unq)))) then bad w 5
    else (s.setStrm q.uid w q.a, .ok [])
  | _ => (if (s.strm q.uid q.h.d.toNat).st = 0 then s else s.setStrm q.uid q.h.d.toNat 0, .ok [])

/-- Performs the operations that no STNXT holds back any more, in order; their threads go on or park. -/
def State.strmDrain : Nat → Nat → State → State
  | 0, _, s => s
  | n + 1, k, s =>
    match s.streams[k]? with
    | none => s
    | some q =>
      if q.op = 0xC1 || s.strmBusy q.uid q.regs k then State.strmDrain n (k + 1) s
      else
        let s := { s with streams := s.streams.eraseIdx k }
        let ls := q.lanes.filter (fun l => match (s.thread q.uid l).st with | .syncWait (.stream _) _ _ => true | _ => false)
        if ls.isEmpty then State.strmDrain n k s
        else
          let r := s.strmPerform q
          match r.2 with
          | .error f => State.strmDrain n k (r.1.park q.uid q.pc (ls.map (fun l => (l, f))))
          | .ok ws =>
            let s := if ws.isEmpty then r.1 else r.1.addPend ⟨q.uid, ls, ws, [], none, []⟩
            State.strmDrain n k (ls.foldl (fun s l => s.release q.uid l) s)

/-! ## STNXT_DELIVER (R328 to R330) -/

/-- The words of a delivery in a lane: single, or with the position in B. -/
def delivWords (mode : Nat) (x64 : Bool) (d : Option Deliv) : List Nat :=
  let w := if x64 then 64 else 32
  let sent := 2 ^ w - 1
  let vs := match d with
    | none => [sent, sent, sent]
    | some (c, p, q) => [c, p.getD sent, q.getD sent]
  (if mode = 0 then vs.take 2 else vs)

/-- The registers of a delivery from D. -/
def delivRegs (lane d mode : Nat) (x64 : Bool) (v : Option Deliv) : List (RegRef × Word) :=
  let ws := delivWords mode x64 v
  let k := if x64 then 2 else 1
  ((List.range ws.length).zip ws).flatMap (fun p => regWrites lane .v (d + k * p.1) k p.2)

/-- The registers that a STNXT writes to a lane. -/
def StreamOp.range (q : StreamOp) (lane : Nat) : List RegRef :=
  (delivRegs lane q.h.d.toNat (bitsAt q.sub 0 2) (bitAt q.sub 2) none).map (fun r => r.1)

/-- Steps 3 and 4 of R328: the streams of an STNXT, open, with both ordered and unique in a binary mode. Stream A is opened with all its reads before B is found
closed: the model's choice, as R328 gives that check no place (log 94). -/
def strmOpen (q : StreamOp) (rid : Nat) (xa xb : Strm) : SM (Fetch × Fetch) := do
  let mode := bitsAt q.sub 0 2
  let a ← openFetch rid xa false
  let b ← if mode = 0 then pure a else openFetch rid xb true
  if mode ≠ 0 && !(a.x.ord && a.x.unq) then stopS (.state false 3)
  else if mode ≠ 0 && !(b.x.ord && b.x.unq) then stopS (.state true 3)
  else pure (a, b)

/-- Step 5: the streams after the procedure, and the deliveries. -/
def strmRun (q : StreamOp) (rid : Nat) (a b : Fetch) : SM (Fetch × Fetch × List Deliv) :=
  deliver ⟨rid, bitsAt q.sub 0 2, bitAt q.sub 2, q.lanes.length⟩ (a.left + b.left + q.lanes.length) a b []

/-- The images of an STNXT's streams are written. -/
def State.setStreams (s : State) (q : StreamOp) (a b : Fetch) : State :=
  let s := s.setStrm q.uid q.h.a.toNat a.x.bits
  if bitsAt q.sub 0 2 = 0 then s else s.setStrm q.uid q.h.b.toNat b.x.bits

/-- A faulted STNXT: the pending bits clear and every participant parks at it (R330). -/
def State.strmFail (s : State) (q : StreamOp) (e : SErr) : State :=
  let reg := fun (b : Bool) => if b then q.h.b.toNat else q.h.a.toNat
  let s := s.updWave q.uid (fun w => q.lanes.foldl (fun w l => w.setTok (bitsAt q.x 0 4) l false) w)
  let r : State × LFault := match e with
    | .state b n => (s.strmErr q.uid (reg b) n, ⟨fcStreamState, reg b⟩)
    | .malformed b i pos =>
      (s.setStrm q.uid (reg b) { s.strm q.uid (reg b) with bad := i % 2 ^ 52, bada := pos, badv := true }.bits,
        ⟨fcMalformed, reg b + 8 * b2n pos + i % 2 ^ 52 * 2 ^ 4⟩)
    | .fault f => (s, f)
  let ls := q.lanes.filter (fun l => match (r.1.thread q.uid l).st with | .tokenWait .. => true | _ => false)
  r.1.park q.uid q.pc (ls.map (fun l => (l, r.2)))

/-- A fault of step 5. After a malformed element the streams are open, as step 3 left them: the examples of R331 and R396 keep CUR at the start of the
fibre; any other fault gives them back as they were (R323, R330, log 34). -/
def State.strmStop (s : State) (q : StreamOp) (a b : Fetch) (e : SErr) : State :=
  match e with | .malformed .. => (s.setStreams q a b).strmFail q e | _ => s.strmFail q e

/-- The results of an STNXT: registers, predicates and count, then the masks, then the token of every participant (R329). -/
def State.strmDone (s : State) (q : StreamOp) (a b : Fetch) (ds : List Deliv) : State :=
  let mode := bitsAt q.sub 0 2
  let pv := bitsAt q.x 4 3
  let s := s.setStreams q a b
  let got := q.lanes.zip (ds.map some ++ List.replicate q.lanes.length none)
  let s := s.updWave q.uid (fun w =>
    let w := got.foldl (fun w g =>
      let w := (delivRegs g.1 q.h.d.toNat mode (bitAt q.sub 2) g.2).foldl (fun w r => w.setReg r.1 r.2) w
      w.updThread g.1 (fun t => t.setPred pv g.2.isSome)) w
    w.setReg (.s q.h.c.toNat) (BitVec.ofNat 32 ds.length))
  let setM := fun (s : State) (m : Nat) (has : Deliv → Bool) =>
    if mode = 2 && m ≠ 0 then
      match s.wave? q.uid with
      | none => s
      | some w => s.writeMask q.uid m (got.foldl (fun k g => setLane k g.1 (match g.2 with | some d => has d | none => false)) (w.mask m))
    else s
  let s := setM (setM s (bitsAt q.x 8 4) (fun d => d.2.1.isSome)) (bitsAt q.x 12 4) (fun d => d.2.2.isSome)
  q.lanes.foldl (fun s l => s.clearTok q.uid (bitsAt q.x 0 4) l) s

/-- The stream unit acts for an STNXT, after its participants' accesses (R226). -/
def State.asStream (s : State) (q : StreamOp) (w : Wave) : State := s.asOp (.stream q.uid q.h.a.toNat) (.core (4 * w.cl + w.core)) q.view

/-- The streams after steps 3 to 5 of an STNXT, and its deliveries; or what stopped it, with the streams where step 3 had opened them. -/
def State.strmFetch (s : State) (q : StreamOp) (rid : Nat) : State × Except (SErr × Option (Fetch × Fetch)) (Fetch × Fetch × List Deliv) :=
  match strmOpen q rid (s.strm q.uid q.h.a.toNat) (s.strm q.uid q.h.b.toNat) s with
  | (.error e, s) => (s, .error (e, none))
  | (.ok (a, b), s) => (match strmRun q rid a b s with | (.error e, s) => (s, .error (e, some (a, b))) | (.ok r, s) => (s, .ok r))

/-- Does an STNXT wait for data of a peer or for the walk unit? -/
def SErr.waits (e : SErr) : Option LFault := match e with | .fault f => if f.holds then some f else none | _ => none

/-- A stream fetch is over: its reads are forgotten, and the operations behind it are performed. -/
def State.strmClose (s : State) (q : StreamOp) (rid : Nat) : State :=
  let s := ((s.noteEnd rid q.uid).dropRops (.stream q.uid q.h.a.toNat)).opDone.endReads (.stream q.uid q.h.a.toNat)
  State.strmDrain s.streams.length 0 s

/-- Performs the STNXT at position `k` of the arrival order, if it is the first on its registers. One that waits stays, with what it has read. -/
def execStnxtDeliver (k : Nat) (s : State) : Out :=
  .next (match s.streams[k]? with
    | none => s
    | some q =>
      if q.op ≠ 0xC1 || s.strmBusy q.uid q.regs k then s
      else
        match s.wave? q.uid with
        | none => { s with streams := s.streams.eraseIdx k }
        | some w =>
          let r := (s.asStream q w).strmFetch q w.rid
          let gone : State := { r.1 with streams := r.1.streams.eraseIdx k }
          match r.2 with
          | .error (e, ab) =>
            (match e.waits with
            | some f =>
              let t := r.1.hold w.rid f q.pc []
              { t.opDone with streams := setAt t.streams k { q with view := joinIds q.view t.opView } }
            | none => (match ab with | some (a, b) => gone.strmStop q a b e | none => gone.strmFail q e).strmClose q w.rid)
          | .ok x => (gone.strmDone q x.1 x.2.1 x.2.2).strmClose q w.rid)

/-! ## The instructions (R325 to R331) -/

/-- A stream instruction: once per wave, for its participants; without feature bit 1 it is ILLEGAL (R324, R413). -/
def runStream (op : BitVec 8) (h : Hdr) (f : EngFn) (x : BitVec 64) (g : Ctx → State → Wave → State × WaveOut) (s : State) : Out :=
  .next (runPacket (enc op h (engFnBits f) x) (fun c s =>
    match s.wave? c.uid with
    | none => (s, { lanes := [] })
    | some w => if s.granted 1 then g c s w else (s, { lanes := c.on.map (fun l => (l, .fault illegal7)) })) s)

/-- Every participant has one outcome. -/
def allLanesRes (c : Ctx) (r : LaneRes) : List (Nat × LaneRes) := c.on.map (fun l => (l, r))

/-- An operation other than STNXT: it is performed at once, or waits in sync wait while a delivery on its register goes on. -/
def strmOp (op : Nat) (a b : Nat) (c : Ctx) (s : State) : State × WaveOut :=
  let q : StreamOp := ⟨c.uid, c.on, c.pc, c.next, c.e.h, op, 0, 0, a, b, s.stepOf (s.ridOf c.uid), []⟩
  if s.strmBusy c.uid q.regs s.streams.length then
    ({ s with streams := s.streams ++ [q] },
      { lanes := allLanesRes c (.ok { st := some (.syncWait (.stream (q.regs.head?.getD 0)) c.next c.e.h.s) }) })
  else
    match s.strmPerform q with
    | (s, .error f) => (s, { lanes := allLanesRes c (.fault f) })
    | (s, .ok ws) => (s, { lanes := allLanesRes c (.ok {}), sregs := ws })

/-- The pair or immediate of B. -/
def State.pairB (s : State) (c : Ctx) : Nat :=
  if c.e.kindOf .b = .i then c.e.field .b else s.readRegs c.uid 0 .s (c.e.field .b) 2

def execStopn (h : Hdr) (f : EngFn) (x : BitVec 64) (s : State) : Out :=
  runStream 0xC0 h f x (fun c s _ =>
    let desc := s.readRegs c.uid 0 .s h.a.toNat 2 % 2 ^ 56
    if desc % 32 ≠ 0 then (s, { lanes := allLanesRes c (.fault illegal7) }) else strmOp 0xC0 desc (s.pairB c) c s) s

def execStnxt (h : Hdr) (f : EngFn) (x : BitVec 64) (s : State) : Out :=
  runStream 0xC1 h f x (fun c s w =>
    let k := bitsAt x.toNat 0 4
    if c.on.any (fun l => w.tokPending k l) then (s, { lanes := allLanesRes c (.fault illegal7) })
    else
      let q : StreamOp := ⟨c.uid, c.on, c.pc, c.next, h, 0xC1, f.sub.toNat, x.toNat, 0, 0, s.stepOf w.rid, s.forkAll c.uid c.on⟩
      let s := s.updWave c.uid (fun w => c.on.foldl (fun w l => w.setTok k l true) w)
      let s := s.dropPend c.uid c.on (c.on.flatMap (fun l => q.range l) ++ [.s h.c.toNat])
      ({ s with streams := s.streams ++ [q] },
        { lanes := allLanesRes c (.ok { st := some (.tokenWait (BitVec.ofNat 16 (2 ^ k)) c.next h.s false) }) })) s

def execStskp (h : Hdr) (f : EngFn) (x : BitVec 64) (s : State) : Out :=
  runStream 0xC2 h f x (fun c s _ => strmOp 0xC2 0 (s.pairB c) c s) s

def execStsav (h : Hdr) (f : EngFn) (x : BitVec 64) (s : State) : Out :=
  runStream 0xC3 h f x (fun c s _ => strmOp 0xC3 0 0 c s) s

def execStrst (h : Hdr) (f : EngFn) (x : BitVec 64) (s : State) : Out :=
  runStream 0xC4 h f x (fun c s _ => strmOp 0xC4 (s.readRegs c.uid 0 .s h.a.toNat 16) 0 c s) s

def execStcls (h : Hdr) (f : EngFn) (x : BitVec 64) (s : State) : Out :=
  runStream 0xC5 h f x (fun c s _ => strmOp 0xC5 0 0 c s) s

/-! ## ISECT (R332) -/

/-- The matching procedure: pairs and the advances of both lists. -/
def isectOf (as bs : List Int) : List (Nat × Nat) × Nat × Nat :=
  match as.getLast?, bs.getLast? with
  | some x, some y =>
    let m := min x y
    let ps := ((List.range as.length).zip as).flatMap (fun p =>
      ((List.range bs.length).zip bs).filterMap (fun q => if p.2 = q.2 && p.2 ≤ m then some (p.1, q.1) else none))
    (ps.take 128, (as.filter (fun v => v ≤ m)).length, (bs.filter (fun v => v ≤ m)).length)
  | _, _ => ([], as.length, bs.length)

/-- What a lane receives: the positions of pair l, or all ones; and whether there is one. -/
def isectOut (h : Hdr) (f : EngFn) (l : Nat) (p : Option (Nat × Nat)) : LaneOut :=
  let q := p.getD (0xFFFFFFFF, 0xFFFFFFFF)
  { regs := regWrites l .v h.d.toNat 1 q.1 ++ regWrites l .v (h.d.toNat + 1) 1 q.2, preds := [(bitsAt f.sub.toNat 0 3, p.isSome)] }

def execIsect (h : Hdr) (f : EngFn) (x : BitVec 64) (s : State) : Out :=
  runStream 0xC6 h f x (fun c s _ =>
    let cnt := fun i => s.readRegs c.uid 0 .s (h.c.toNat + i) 1
    let na := cnt 0
    let nb := cnt 1
    if 128 < na || 128 < nb || (List.range (max na nb)).any (fun l => !c.on.contains l) then (s, { lanes := allLanesRes c (.fault illegal7) })
    else
      let val := fun (r l : Nat) => tyInt f.ty (s.readRegs c.uid l .v r (tyRegs f.ty))
      let r := isectOf ((List.range na).map (val h.a.toNat)) ((List.range nb).map (val h.b.toNat))
      (s, { lanes := c.on.map (fun l => (l, .ok (isectOut h f l ((r.1.drop l).head?)))),
            sregs := regWrites 0 .s (h.c.toNat + 2) 1 r.2.1 ++ regWrites 0 .s (h.c.toNat + 3) 1 r.2.2 })) s

end Sys2Proof.Machine
end

