-- ==== Sys2Proof/Machine/Fetch.lean ====
section
/-!
DEFINITION. Instruction fetch (R80 to R83), short results and sleep.
-/

namespace Sys2Proof.Machine

/-! ## Instruction cache (R81 to R83) -/

/-- The cached block that a wave's core holds for the address `pc`. -/
def State.cached (s : State) (w : Wave) (pc : Nat) : Option IBlock :=
  s.icache.find? (fun b => b.cl = w.cl && b.core = w.core && b.root = s.rootOf w.rid && b.blk = pc / 32)

/-- The 32 bytes of a block as memory holds them now. -/
def State.blockNow (s : State) (rid blk : Nat) : Except Nat (List Byte) :=
  match s.bytesOfVa rid (32 * blk) false 32 with
  | .error e => .error e.code
  | .ok ls => if (s.ueAt ls).isSome then .error fcMemUe else (match s.bytesAt ls with | .error e => .error e.code | .ok bs => .ok bs)

/-- The bytes that a thread of a wave executes from a block: the cached ones, or freely those of memory now (R83). -/
def State.blockOf (s : State) (w : Wave) (pc : Nat) : Except Nat (List Byte) :=
  match s.cached w pc with
  | none => s.blockNow w.rid (pc / 32)
  | some b =>
    match b.fault with
    | some c => .error c
    | none =>
      match s.blockNow w.rid (pc / 32) with
      | .ok bs => if bs = b.bytes then .ok bs else if Config.useOldBlock s.tick pc then .ok b.bytes else .ok bs
      | .error _ => .ok b.bytes

/-- What the fetch of an address gives: an instruction, or the fault of R81. -/
def State.fetch (s : State) (w : Wave) (pc : VA) : Except LFault Instr :=
  if pc.toNat % 4 ≠ 0 then .error ⟨fcFetchFmt, pc.toNat⟩
  else
    match s.blockOf w pc.toNat with
    | .error c => .error ⟨c, pc.toNat⟩
    | .ok bs =>
      match decodeBytes (bs.drop (pc.toNat % 32)) with
      | .ok (i, _) => .ok i
      | .error .crossing => .error ⟨fcFetchFmt, pc.toNat⟩
      | .error (.check n) => .error (illegal n)

/-- A block whose fill failed is filled again for a thread that comes back to it. -/
def State.forgetBad (s : State) (w : Wave) (pc : Nat) : State :=
  { s with icache := s.icache.filter (fun b =>
    !(b.cl = w.cl && b.core = w.core && b.root = s.rootOf w.rid && b.blk = pc / 32 && b.fault.isSome)) }

/-- A packet whose fetch or decode faults: its threads park at the address. -/
def State.fetchFault (s : State) (p : Packet) (f : LFault) : State :=
  p.waves.foldl (fun s q =>
    match s.wave? q.1 with
    | none => s
    | some w => (s.forgetBad w p.pc.toNat).park q.1 p.pc (q.2.map (fun l => (l, f)))) s

/-- The step of the packet at the head of the slot: its instruction's meaning, or its fault. -/
def State.packetInstr (s : State) (p : Packet) : Except LFault Instr :=
  match p.waves.head?.bind (fun q => s.wave? q.1) with
  | none => .error illegal7
  | some w => s.fetch w p.pc

/-- Does a thread in the fetching state wait for a block? -/
def waitsFill (blk : Nat) (t : Thread) : Bool := t.st = .fetching && t.pc.toNat / 32 = blk

/-- A fill reads its block as an access of its core, after what CMAINT has joined to the core's fills (R83): through the core's translation cache, and from a peer
where the page lies there (R426, R427). -/
def State.fillRead (s : State) (core rid blk : Nat) : State × Except LFault (List Byte) :=
  let s := s.asOp (.fetch core rid blk) (.core core) ((lookupIn s.ord.fills core).getD [])
  match s.bytesOfVa rid (32 * blk) false 32 with
  | .error e => (s, .error e)
  | .ok ls =>
    if (s.ueAt ls).isSome then (s.meetUe (ls.map (fun x => x.2)), .error ⟨fcMemUe, 32 * blk⟩)
    else match s.take ls none with | .error e => (s, .error e) | .ok r => (r.1.fillCore rid [32 * blk], .ok r.2)

/-- Do two blocks stand in one instruction cache? -/
def IBlock.beside (a b : IBlock) : Bool := a.cl = b.cl && a.core = b.core

/-- A block enters its instruction cache, of 64 KiB or 2,048 blocks (R4); which block leaves a full one is free (log 8). -/
def State.putBlock (s : State) (b : IBlock) : State :=
  let rest := s.icache.filter (fun x => !(x.beside b && x.root = b.root && x.blk = b.blk))
  { s with icache := b :: roomIn rest (fun x => x.beside b) 2048 (Config.order s.tick b.blk) }

/-- The threads that wait for a block, in the waves that fill it through the same root, are ready. -/
def State.wakeFill (s : State) (core : Nat) (root : Option Nat) (blk : Nat) : State :=
  (s.waves.filter (fun w => w.cl = core / 4 && w.core = core % 4 && s.rootOf w.rid = root)).foldl (fun s w =>
    (w.lanesWhere (fun _ t => waitsFill blk t)).foldl (fun s l => s.updThread w.uid l (fun t => { t with st := .ready, age := 0 })) s) s

/-- INSTRUCTION_FILL: a block that a thread of the core waits for enters the instruction cache; those threads are ready. `core` is 4 j + c. A fill that misses
the translation caches, or waits for a peer, is made again when it happens again (R430). -/
def execInstructionFill (core rid blk : Nat) (s : State) : Out :=
  .next (
    let root := s.rootOf rid
    let mine := fun (w : Wave) => w.cl = core / 4 && w.core = core % 4 && s.rootOf w.rid = root
    if !s.draining rid && s.waves.any (fun w => mine w && w.rid = rid && !(w.lanesWhere (fun _ t => waitsFill blk t)).isEmpty) then
      let r := s.fillRead core rid blk
      let put := fun (b : IBlock) => ((r.1.opDone.dropRops (.fetch core rid blk)).endReads (.fetch core rid blk)).putBlock b |>.wakeFill core root blk
      match r.2 with
      | .ok bs => put ⟨core / 4, core % 4, root, blk, bs, none⟩
      | .error e => if e.holds then (r.1.hold rid e 0 []).opDone else put ⟨core / 4, core % 4, root, blk, [], some e.code⟩
    else s)

/-! ## Short results and run-ahead data (R23, R201, R206) -/

def execShortResultLand (k : Nat) (s : State) : Out := .next (s.land k)

/-- RUNAHEAD_LAND: the data of a lane lands and its token clears (R206). -/
def execRunaheadLand (uid lane tok : Nat) (s : State) : Out :=
  .next (match findIdx (fun (a : Ahead) => a.uid = uid && a.lane = lane && a.tok = tok) s.flight.ahead with
    | none => s
    | some (i, a) =>
      if s.watched uid lane then s
      else
        let s := { s with flight := { s.flight with ahead := s.flight.ahead.eraseIdx i } }
        (s.updWave uid (fun w => a.regs.foldl (fun w r => w.setReg r.1 r.2) w)).clearTok uid tok lane)

/-- May a thread stand at an instruction boundary? -/
def atBoundary (t : Thread) : Bool := t.st = .ready || t.st = .fetching

/-- MEMUE_PARK: lanes whose short results met uncorrectable data park at the first boundary they reach, those of a wave that reach one together as
one sub-wave (R35, R201). -/
def execMemuePark (uid lane : Nat) (s : State) : Out :=
  .next (match s.wave? uid with
    | none => s
    | some w =>
      let t := w.thread lane
      if t.ue.isNone || !atBoundary t then s
      else
        let ls := w.lanesWhere (fun _ u => u.ue.isSome && atBoundary u && u.pc = t.pc)
        s.park uid t.pc (ls.map (fun l => (l, ⟨fcMemUe, (w.thread l).ue.getD 0⟩))))

/-- ADMISSION_CHECKS_COMPLETE: the checks and the translation of a lane's access are made (R200); a watched access is held (R457). -/
def execAdmissionChecksComplete (uid lane : Nat) (s : State) : Out :=
  .next (match (s.thread uid lane).st with
    | .admission .checks settle =>
      if s.watched uid lane then s
      else s.resume uid lane (s.thread uid lane).pc settle
    | _ => s)

/-! ## Sleep (R172, R439) -/

/-- The selected events of an IDLE that have occurred: those noted since its issue, and those present. -/
def State.idleEvents (s : State) (w : Wave) (E till got : Nat) : Nat :=
  let e0 := !w.uiPend.isEmpty
  let e1 := s.recs.any (fun r => r.rid = w.rid && decide (r.st = .written))
  let e2 := w.rid = 0 && (s.svc.high || s.svc.low)
  let e3 := till ≤ s.clk
  (b2n e0 + 2 * b2n e1 + 4 * b2n e2 + 8 * b2n e3) &&& E ||| got

/-- Ends the sleep of a thread: it goes on, and settles where its instruction had the settle marker (R78). -/
def State.wake (s : State) (uid lane : Nat) : State :=
  match (s.thread uid lane).st with
  | .sleeping _ settle => s.updThread uid lane (fun t => { t with st := s.goOn uid lane settle, age := 0 })
  | _ => s

/-- The delivery of interrupt `i` to a lane, whose handler entry is `entry`: a sleeping thread wakes (R78, R186), and what raised the interrupts happens before the
handler (R226). -/
def State.deliverUi (s : State) (w : Wave) (lane i entry : Nat) : State :=
  (s.wake w.uid lane).updWave w.uid (fun w =>
    let w := { w with uiPend := w.uiPend.filter (fun k => k ≠ i), uiEn := false, uiRun := some (lane, (w.thread lane).pc) }
    w.updThread lane (fun t => { t with pc := BitVec.ofNat 56 entry, age := 0, vw := t.vw.join w.uiView }))

/-- The interrupt that a wave may now take: its lowest pending index with the entry of its handler. Its enable is set, no handler of it runs, and it is resident in a
running quadrant (R186). An index whose entry of the handler table cannot be read, or is no longer valid, stays pending, and holds back every higher index: the
spec is silent, and that is the model's choice (log 31). -/
def State.uiNext (s : State) (w : Wave) : Option (Nat × Nat) :=
  match w.uiPend with
  | [] => none
  | i :: _ =>
    if !w.uiEn || w.uiRun.isSome || w.bank ≠ .active || s.stopped w.cl w.core w.quad then none
    else match s.tableEntry w.rid w.htbl i 0 with | .ok (some entry) => some (i, entry) | _ => none

/-- The lanes of a wave that wait in one IDLE. -/
def Wave.idling (w : Wave) (E till d got : Nat) : List Nat :=
  w.lanesWhere (fun _ t => match t.st with | .sleeping k _ => k = .idle E till d got | _ => false)

/-- Ends an IDLE for every thread of the wave that waits in it: they go on, and the wave's scalar receives the events. With bit 0 selected, an interrupt that the
wave may take is delivered to the first of them (R439). -/
def State.endIdle (s : State) (w : Wave) (E till d got : Nat) : State :=
  let ls := w.idling E till d got
  let s' := ls.foldl (fun s l => s.wake w.uid l) (s.addPend ⟨w.uid, ls, regWrites 0 .s d 1 (s.idleEvents w E till got), [], none, []⟩)
  match if bitAt E 0 then s.uiNext w else none, ls with
  | some (i, entry), l :: _ => s'.deliverUi w l i entry
  | _, _ => s'

/-- SLEEP_EXPIRE: the end of a SLEEP whose time has passed, or of an IDLE one of whose events has occurred. -/
def execSleepExpire (uid lane : Nat) (s : State) : Out :=
  .next (match s.wave? uid with
    | none => s
    | some w =>
      match (w.thread lane).st with
      | .sleeping (.timer till) _ => if till ≤ s.clk then s.wake uid lane else s
      | .sleeping (.idle E till d got) _ => if s.idleEvents w E till got = 0 then s else s.endIdle w E till d got
      | _ => s)

end Sys2Proof.Machine
end

