-- ==== Sys2Proof/Machine/Picker.lean ====
section
/-!
DEFINITION. The pickers (R25 to R33): the candidates of a quadrant, the choice of the program counter, the filling of the lanes, the age
override, and the slot (R31, R453, R460); and the delivery of user-level interrupts at its boundary (R186).
-/

namespace Sys2Proof.Machine

/-- A candidate thread: its wave's slot and grouping (R25), its lane, its counter and its age. -/
structure Cand where
  uid : Nat
  slot : Nat
  lane : Nat
  pc : VA
  /-- page-table root, partition, privilege -/
  grp : Option Nat × Option Nat × Bool
  age : Nat
  quad : Bool
  deriving DecidableEq, Repr, Inhabited

/-- Candidates of one counter may share a packet. -/
def Cand.same (a b : Cand) : Bool := a.pc = b.pc && a.grp = b.grp

/-- The ranking of R30: greater age, then lower wave slot, then lower lane. -/
def Cand.before (a b : Cand) : Bool :=
  b.age < a.age || (a.age = b.age && (a.slot < b.slot || (a.slot = b.slot && a.lane < b.lane)))

/-- The first of a list in an order. -/
def firstBy (lt : Cand → Cand → Bool) (l : List Cand) : Option Cand :=
  l.foldl (fun best c => match best with | none => some c | some b => if lt c b then some c else some b) none

/-- The fill of a counter: lane positions with a candidate at it (R26). -/
def fillOf (l : List Cand) (x : Cand) : Nat := (sortedSet ((l.filter (fun c => c.same x)).map (fun c => c.lane))).length

/-- The counter with the greatest fill; then the oldest thread, the lower slot, the lower lane (R27). -/
def chooseCounter (l : List Cand) : Option Cand :=
  firstBy (fun a b => fillOf l b < fillOf l a || (fillOf l a = fillOf l b && a.before b)) l

/-- The rank of a thread within its half (R30). -/
def rankOf (l : List Cand) (c : Cand) : Nat := (l.filter (fun x => x.before c)).length + 1

/-- Has some thread of a half slack 0? -/
def overdue (l : List Cand) : Bool := l.any (fun c => 1024 ≤ c.age + rankOf l c)

/-- The counter of a half. -/
def halfCounter (l : List Cand) : Option Cand := if overdue l then firstBy Cand.before l else chooseCounter l

/-! ## Quad-whole issue (R33) -/

/-- Is an instruction issued quad-whole: a derivative, or a texture form with implicit derivatives? -/
def quadWhole (i : Instr) : Bool :=
  match i with
  | .ddx .. | .ddy .. => true
  | .tex _ _ x | .texn _ _ x => bitsAt x.toNat 9 2 = 1
  | _ => false

/-- Is the instruction at a thread's counter, as the cache holds it, issued quad-whole? -/
def State.quadAt (s : State) (w : Wave) (pc : VA) : Bool :=
  match s.cached w pc.toNat with
  | none => false
  | some b => (match decodeBytes (b.bytes.drop (pc.toNat % 32)) with | .ok (i, _) => quadWhole i | .error _ => false)

/-- The active members of a lane's quad at its counter. -/
def Wave.quadMembers (w : Wave) (lane : Nat) : List Nat :=
  ((List.range 4).map (fun j => 4 * (lane / 4) + j)).filter (fun l =>
    let t := w.thread l
    t.pc = (w.thread lane).pc && t.st ≠ .parked && t.st ≠ .exited && t.st ≠ .notLaunched && t.failure.isNone)

/-- Is a thread ready in this slot: ready, not after a YIELD, not about to park, and at a derivative ready as a quad? -/
def State.readyNow (s : State) (w : Wave) (lane : Nat) : Bool :=
  let go := fun (t : Thread) => t.st = .ready && !t.yielded && t.ue.isNone
  go (w.thread lane) &&
  (if w.quadFlag && s.quadAt w (w.thread lane).pc then (w.quadMembers lane).all (fun l => go (w.thread l)) else true)

/-- Does a picker issue a wave's instructions? Those of the root's firmware handlers, whose programs the spec does not give, it does not (log 40). -/
def Wave.issues (w : Wave) : Bool := match w.kind with | .firmware _ => false | _ => true

/-- The candidates of a quadrant. -/
def State.cands (s : State) (cl core q : Nat) : List Cand :=
  (s.waves.filter (fun w => w.cl = cl && w.core = core && w.quad = q && decide (w.bank = .active) && w.issues)).flatMap (fun w =>
    (w.lanesWhere (fun l _ => s.readyNow w l)).map (fun l =>
      ⟨w.uid, w.slot, l, (w.thread l).pc, ((s.rootOf w.rid), (s.region? w.rid).bind (fun r => r.part), w.priv), (w.thread l).age,
        w.quadFlag && s.quadAt w (w.thread l).pc⟩))

/-- The threads that a quad of lane positions takes at a counter: the members of one wave, or each position's own (R28, R33). Where several waves
have a quad ready at one position and counter, the wave of the thread that R30 ranks first is taken: R33 says only that all are of one wave, and that
is the model's choice (log 32). -/
def pickQuad (l : List Cand) (q : Nat) : List Cand :=
  let here := l.filter (fun c => c.lane / 4 = q)
  match firstBy Cand.before here with
  | none => []
  | some b =>
    if b.quad then here.filter (fun c => c.uid = b.uid)
    else (List.range 4).filterMap (fun j => firstBy Cand.before (here.filter (fun c => !c.quad && c.lane = 4 * q + j)))

/-- The threads of a packet at counter `x` from the candidates `l` (R28). -/
def pickLanes (l : List Cand) (x : Cand) : List Cand := (List.range 32).flatMap (pickQuad (l.filter (fun c => c.same x)))

/-- A packet of threads: waves in ascending slot, lanes ascending. -/
def packetOf (cl core q : Nat) (x : Cand) (l : List Cand) : Packet :=
  let waves := (sortedSet (l.map (fun c => c.slot))).filterMap (fun k =>
    match l.filter (fun c => c.slot = k) with
    | [] => none
    | c :: cs => some (c.uid, sortedSet ((c :: cs).map (fun c => c.lane))))
  ⟨cl, core, q, x.pc, waves⟩

/-- The cause for which a wave's quadrant loses the present slot: a swap leaves the root's waves issuing (R47, R460). -/
def State.held (s : State) (w : Wave) : Option Nat :=
  ((s.svc.busy.filter (fun b => b.cl = w.cl && b.core = w.core && b.q = w.quad && decide (s.clk ≤ b.till) && (b.all || w.rid ≠ 0))).map (fun b => b.cause)).min?

/-- Is a candidate's slot not lost? -/
def State.freeCand (s : State) (c : Cand) : Bool := match s.wave? c.uid with | some w => (s.held w).isNone | none => true

/-- The packets that a quadrant's picker forms in a slot (R27, R30). -/
def State.pick (s : State) (cl core q : Nat) : List Packet :=
  let l := (s.cands cl core q).filter s.freeCand
  let lo := l.filter (fun c => c.lane < 64)
  let hi := l.filter (fun c => 64 ≤ c.lane)
  let one := fun (part : List Cand) (x : Option Cand) =>
    match x with | none => [] | some x => [packetOf cl core q x (pickLanes part x)]
  if overdue lo || overdue hi then
    match halfCounter lo, halfCounter hi with
    | some x, some y => if x.same y then one l (some x) else one lo (some x) ++ one hi (some y)
    | a, b => one lo a ++ one hi b
  else one l (chooseCounter l)

/-! ## The slot -/

/-- Threads whose instruction is not in the instruction cache are fetching (R22). -/
def State.startFetch (s : State) (cl core q : Nat) : State :=
  { s with waves := s.waves.map (fun w =>
    if w.cl = cl && w.core = core && w.quad = q && decide (w.bank = .active) && w.issues && (s.held w).isNone then
      (w.lanesWhere (fun _ t => t.st = .ready && t.pc.toNat % 4 = 0 && (s.cached w t.pc.toNat).isNone)).foldl
        (fun w l => w.updThread l (fun t => { t with st := .fetching })) w
    else w) }

/-- The end of a quadrant's slot: a candidate that was not taken ages, a thread that is not ready in the slot (R33, R172) has age 0 when it next is, and
threads that sat out a slot may be ready again (R31, R172). A slot lost to a swap or a migration does not count; one lost to an activity of R450 does (R31, R461, log 95). -/
def State.ageQuad (s : State) (cl core q : Nat) (cs : List Cand) (ps : List Packet) : State :=
  let taken := fun (uid l : Nat) => ps.any (fun p => p.waves.any (fun x => x.1 = uid && x.2.contains l))
  { s with waves := s.waves.map (fun w =>
    if w.cl = cl && w.core = core && w.quad = q && decide (w.bank = .active) && s.held w ≠ some 0 then
      let w := (w.lanesWhere (fun _ t => t.yielded)).foldl (fun w l => w.updThread l (fun t => { t with yielded := false })) w
      let mine := cs.filter (fun c => c.uid = w.uid)
      let w := (w.lanesWhere (fun l _ => !mine.any (fun c => c.lane = l))).foldl (fun w l => w.updThread l (fun t => { t with age := 0 })) w
      (mine.filter (fun c => !taken w.uid c.lane)).foldl
        (fun w c => w.updThread c.lane (fun t => { t with age := min 1023 (t.age + 1) })) w
    else w) }

/-- The stall cause of a thread that does not issue (R460). -/
def State.stallCause (s : State) (w : Wave) (lane : Nat) : Option Nat :=
  if (s.held w).isSome then s.held w
  else if s.watched w.uid lane then some 3
  else
    match (w.thread lane).st with
    | .fetching => some 2
    | .admission .call _ => some 4
    | .admission .ray _ => some 5
    | .admission .message _ => some 6
    | .settling => some 7
    | .tokenWait .. => some 8
    | .syncWait .. => some 9
    | .sleeping .. => some 0xA
    | .parked => some 0xB
    | _ => none

/-- A quadrant that issues nothing while it holds a thread that has not exited counts the lowest cause among its threads (R460). -/
def State.stallSlot (s : State) (cl core q : Nat) : State :=
  let cs := (s.waves.filter (fun w => w.cl = cl && w.core = core && w.quad = q && decide (w.bank = .active))).flatMap (fun w =>
    (w.lanesWhere (fun _ _ => true)).filterMap (fun l => s.stallCause w l))
  match cs with
  | [] => s
  | c :: r => s.count (csrAddr 1 core cl (0x100 + 0x40 * q + r.foldl min c)) 48 1

/-- The major opcode at an address, as the cache holds it. -/
def State.opAt (s : State) (w : Wave) (pc : VA) : Nat :=
  match s.cached w pc.toNat with
  | none => 0
  | some b => bitsAt (leNat ((b.bytes.drop (pc.toNat % 32)).take 8)) 4 8

def Sample.of (x : Sample) (k : Nat × Nat × Nat) : Bool := x.cl = k.1 && x.core = k.2.1 && x.q = k.2.2

/-- Changes the sample of a quadrant. -/
def State.updSample (s : State) (k : Nat × Nat × Nat) (f : Sample → Sample) : State :=
  if s.svc.samples.isEmpty then s else s.updSvc (fun v => { v with samples := v.samples.map (fun x => if x.of k then f x else x) })

/-- A sampled quadrant notes since when its threads have been in fetch; a thread that neither fetches nor is ready is forgotten (R459). -/
def State.noteFetches (s : State) (k : Nat × Nat × Nat) : State :=
  s.updSample k (fun x =>
    let kept := x.fets.filter (fun f => let t := s.thread f.1 f.2.1; t.st = .fetching || t.st = .ready)
    let new := (s.waves.filter (fun w => w.cl = k.1 && w.core = k.2.1 && w.quad = k.2.2 && decide (w.bank = .active))).flatMap (fun w =>
      (w.lanesWhere (fun l t => t.st = .fetching && !kept.any (fun f => f.1 = w.uid && f.2.1 = l))).map (fun l => (w.uid, l, s.clk)))
    { x with fets := kept ++ new })

/-- The instruction of a packet that is tagged: that of its first thread. -/
def State.tagOf (s : State) (x : Sample) (p : Packet) : Option Tagged :=
  match p.waves with
  | (uid, l :: _) :: _ =>
    (match s.wave? uid with
    | none => none
    | some w =>
      let iss := 2 * (w.thread l).age
      let fet := match x.fets.find? (fun f => f.1 = uid && f.2.1 = l) with | some f => s.clk - f.2.2 - iss | none => 0
      some ⟨p.pc, w.slot, s.opAt w p.pc, p.waves.foldl (fun n q => n + q.2.length) 0, s.clk, fet, iss, 0, uid, l⟩)
  | _ => none

/-- A sampled quadrant tags the first packet that it issues once its wait is over (R459). -/
def State.noteIssue (s : State) (k : Nat × Nat × Nat) (p : Packet) : State :=
  if !bitAt (s.csr (dqctl k.1 k.2.1 k.2.2)) 10 then s
  else
    s.updSample k (fun x =>
      { x with
        tag := if x.tag.isNone && x.due ≤ s.clk then s.tagOf x p else x.tag
        fets := x.fets.filter (fun f => !p.waves.any (fun q => q.1 = f.1 && q.2.contains f.2.1)) })

/-- One slot of one quadrant: a stopped one issues nothing, unless it steps, and counts its slot as another does (R453, R460). -/
def State.slotQuad (s : State) (k : Nat × Nat × Nat) : State :=
  let cl := k.1
  let core := k.2.1
  let q := k.2.2
  if s.stopped cl core q && !s.stepping.contains k then s.stallSlot cl core q
  else
    let s := (s.startFetch cl core q).noteFetches k
    let ps := s.pick cl core q
    let s' := s.ageQuad cl core q (s.cands cl core q) ps
    if ps.isEmpty then s'.stallSlot cl core q
    else
      let s' := ps.foldl (fun s p => s.noteIssue k p) { s' with packets := s'.packets ++ ps }
      if s.stopped cl core q then s'.stopQuad cl core q 4 else s'

/-- The quadrants that hold a wave. -/
def State.quadrants (s : State) : List (Nat × Nat × Nat) :=
  (s.waves.filter (fun w => decide (w.bank = .active))).foldl (fun acc w =>
    if acc.contains (w.cl, w.core, w.quad) then acc else acc ++ [(w.cl, w.core, w.quad)]) []

/-- The quadrants in the order in which their packets are performed within a slot (log 4). -/
def State.slotOrder (s : State) : List (Nat × Nat × Nat) :=
  match s.quadrants with
  | [] => []
  | [k] => [k]
  | l => orderBy (Config.order s.tick 0) l

/-- The service charge of every region with an open record grows with the clk (R438). -/
def State.chargeSlot (s : State) : State :=
  { s with regions := s.regions.map (fun r =>
    if s.recs.any (fun x => x.rid = r.rid && x.st ≠ .waiting) then { r with charge := r.charge + 2 } else r) }

/-! ## User-level interrupts (R186) -/

/-- The thread to which an interrupt is delivered: the first that waits in an IDLE which selects interrupts (R439); else in the order of R186, a ready one only where
it is ready in this slot, neither after a YIELD (R172) nor held (R33). -/
def State.uiLane (s : State) (w : Wave) : Option Nat :=
  ((w.lanesWhere (fun _ t => match t.st with | .sleeping (.idle E _ _ _) _ => bitAt E 0 | _ => false)) ++
   (w.lanesWhere (fun _ t => match t.st with | .sleeping .wfi _ => true | _ => false)) ++
   (w.lanesWhere (fun _ t => match t.st with | .sleeping (.timer _) _ | .sleeping (.idle ..) _ => true | _ => false)) ++
   (w.lanesWhere (fun l _ => s.readyNow w l))).head?

/-- UI_DELIVER: the wave takes an interrupt. Where a thread waits for interrupts in IDLE, that ends its wave's wait, with the delivery (R439). -/
def execUiDeliver (uid : Nat) (s : State) : Out :=
  .next (match s.wave? uid with
    | none => s
    | some w =>
      match s.uiNext w, s.uiLane w with
      | some (i, entry), some lane =>
        (match (w.thread lane).st with
        | .sleeping (.idle E till d got) _ => if bitAt E 0 then s.endIdle w E till d got else s.deliverUi w lane i entry
        | _ => s.deliverUi w lane i entry)
      | _, _ => s)

end Sys2Proof.Machine
end

