-- ==== Sys2Proof/Machine/Regions.lean ====
section
/-!
DEFINITION. The region tree: the root region (R411), registration of a region control block (R414 to R416, R437), and RCBOP (R417).
-/

namespace Sys2Proof.Machine

/-! ## The root region (R411) -/

/-- The page-table root that firmware gives the root region: its address aligned to its table (R422). -/
def rootTop : Nat :=
  let tb := Config.rootPtroot % 23
  let size := max 256 (8 * 2 ^ tb)
  size * (Config.rootPtroot / 32 % (2 ^ 56 / size)) + tb

/-- Where firmware puts the root's lane-private pool, and the size of its blocks (R473). -/
def rootPool : Nat × Nat := (65536 * (Config.rootPrva % 2 ^ 40), Config.rootPrvmx % 8193)

/-- The root region: the caps, flags and pools that the device fixes, and the values that firmware chooses, each within its field's row of R414 (log 9). Its fault
handler is never 0 (R411). -/
def rootRegion : Region :=
  { rid := 0, adr := 256 * (Config.rootRcb % (installed / 256)), parent := 0, depth := 0, fdom := true, ssm := false, priv := true, prio := Config.rootPrio % 16, part := none,
    inh := 0, ptroot := some rootTop, cores := 192, vrkb := 196608, lskb := 73728, csmb := 96, csmBase := 0, tslice := 0, tbud := 0, save := 0,
    fq := 32 * (Config.rootFq % 2 ^ 51), fqn := max 256 (Config.rootFqn % 2 ^ 16), hpool := min 64 (max 2 Config.rootHpool), hvreg := Config.rootHvreg % 32,
    hsreg := min 11 (max 1 Config.rootHsreg), fhnd := 4 * (1 + Config.rootFhnd % (2 ^ 54 - 1)), abnd := 0, amtbl := 2048 * (Config.rootAmtbl % (installed / 2048)),
    g0b := Config.rootG0b % 2 ^ 56, g0l := Config.rootG0l % 2 ^ 56, g6b := 128 * (Config.rootG6b % 2 ^ 49), nhnd := Config.rootNhnd % 2 ^ 16,
    g7b := 64 * (Config.rootG7b % 2 ^ 50), nray := Config.rootNray % 2 ^ 32, cgrp := 0, cgsz := 0, peerix := 0,
    prva := rootPool.1, prvmx := rootPool.2, prvn := if rootPool.1 = 0 || rootPool.2 = 0 then 0 else Config.rootPrvn % 2 ^ 16,
    pool := 0, retiring := false, fqW := 0, fqD := 0, charge := 0, stepno := 0,
    stepArr := [], stepSet := [], stepMask := none, stepPeers := [], grpActive := false, grpOver := false, aborting := false, abTokens := [],
    abWave := none, abHold := false, abClk := 0, stepView := [] }

/-! ## The control block (R414) -/

/-- Its reserved bits: first bit and length. -/
def rcbReserved : List (Nat × Nat) :=
  [(36, 4), (47, 1), (51, 13), (96, 32), (160, 24), (184, 8), (248, 8), (264, 24), (360, 24), (504, 8), (568, 8), (605, 3), (612, 28),
   (696, 8), (760, 8), (824, 8), (888, 8), (952, 8), (1016, 8), (1040, 16), (1112, 8), (1240, 8), (1280, 768)]

/-- The 256 bytes of the root's control block, which firmware holds in device memory (R411, R414). -/
def Region.rcb (r : Region) : Nat :=
  [(r.rid, 0), (1, 32), (b2n r.fdom, 33), (b2n r.ssm, 34), (b2n r.priv, 35), (r.prio, 40), (r.part.getD 0, 44), (r.depth, 48), (r.inh, 64),
   (r.parent, 128), (r.ptroot.getD 0, 192), (r.cores, 256), (r.vrkb, 288), (r.lskb, 320), (r.csmb, 352), (r.tslice, 384), (r.tbud, 416), (r.save, 448),
   (r.fq, 512), (r.fqn, 576), (r.hpool, 592), (r.hvreg, 600), (r.hsreg, 608), (r.fhnd, 640), (r.abnd, 704), (r.amtbl, 768), (r.g0b, 832), (r.g0l, 896),
   (r.g6b, 960), (r.nhnd, 1024), (r.g7b, 1056), (r.nray, 1120), (r.cgrp, 1152), (r.cgsz, 1168), (r.peerix, 1176), (r.prva, 1184), (r.prvmx, 1248),
   (r.prvn, 1264)].foldl (fun n x => n + x.1 * 2 ^ x.2) 0

/-- The root's active-message table: five valid entries, of firmware's handlers (R285, R411). -/
def rootTable : List Byte := (List.range 5).flatMap (fun i => leBytes 8 (4 * (Config.rootEntry i % 2 ^ 54) + 2 ^ 62 + 2 ^ 63)) ++ List.replicate (8 * 251) 0

/-- What firmware has put into device memory (log 9). -/
def rootImage : List (Loc × Byte) := Config.rootImage.map (fun x => (.dev (x.1 % installed) .rc, x.2))

/-- The places of `n` bytes of the root's address space. -/
def State.rootSpan (s : State) (a n : Nat) : List Loc := match s.translateRange 0 a false n with | .ok l => l | .error _ => []

/-- Firmware's bytes are loaded. -/
def State.bootImage (s : State) : State := s.asService (fun s => s.store (rootImage.map (fun x => x.1)) (rootImage.map (fun x => x.2)))

/-- Firmware registers the root region: its bytes, its control block and its table stand in device memory (R411). -/
def State.boot (s : State) : State :=
  let s := s.bootImage
  let rcb := s.rootSpan rootRegion.adr 256
  let table := s.rootSpan rootRegion.amtbl 2048
  s.asService (fun s => (s.store rcb (leBytes 256 rootRegion.rcb)).store table rootTable)

/-- The region that a control block gives under a parent, inheritance resolved (R415). -/
def regionOf (r adr : Nat) (p : Region) : Region :=
  let inh := bitsAt r 64 32
  let pick := fun {α : Type} (i : Nat) (own par : α) => if bitAt inh i then par else own
  { rid := bitsAt r 0 32, adr := adr, parent := bitsAt r 128 32, depth := bitsAt r 48 3, fdom := bitAt r 33, ssm := bitAt r 34,
    priv := bitAt r 35, prio := pick 1 (bitsAt r 40 4) p.prio, part := some (bitsAt r 44 3), inh := inh,
    ptroot := pick 0 (some (bitsAt r 192 56)) p.ptroot, cores := pick 2 (bitsAt r 256 8) p.cores,
    vrkb := pick 2 (bitsAt r 288 32) p.vrkb, lskb := pick 2 (bitsAt r 320 32) p.lskb, csmb := pick 2 (bitsAt r 352 8) p.csmb,
    csmBase := 0, tslice := pick 2 (bitsAt r 384 32) p.tslice, tbud := pick 2 (bitsAt r 416 32) p.tbud, save := bitsAt r 448 56,
    fq := pick 3 (bitsAt r 512 56) p.fq, fqn := pick 3 (bitsAt r 576 16) p.fqn, hpool := pick 4 (bitsAt r 592 8) p.hpool,
    hvreg := pick 4 (bitsAt r 600 5) p.hvreg, hsreg := pick 4 (bitsAt r 608 4) p.hsreg, fhnd := pick 3 (bitsAt r 640 56) p.fhnd,
    abnd := pick 3 (bitsAt r 704 56) p.abnd, amtbl := pick 4 (bitsAt r 768 56) p.amtbl, g0b := pick 5 (bitsAt r 832 56) p.g0b,
    g0l := pick 5 (bitsAt r 896 56) p.g0l, g6b := pick 6 (bitsAt r 960 56) p.g6b, nhnd := pick 6 (bitsAt r 1024 16) p.nhnd,
    g7b := pick 7 (bitsAt r 1056 56) p.g7b, nray := pick 7 (bitsAt r 1120 32) p.nray, cgrp := pick 8 (bitsAt r 1152 16) p.cgrp,
    cgsz := pick 8 (bitsAt r 1168 8) p.cgsz, peerix := pick 8 (bitsAt r 1176 8) p.peerix, prva := pick 9 (bitsAt r 1184 56) p.prva,
    prvmx := pick 9 (bitsAt r 1248 16) p.prvmx, prvn := pick 9 (bitsAt r 1264 16) p.prvn,
    pool := if bitAt inh 9 then p.pool else bitsAt r 0 32, retiring := false, fqW := 0, fqD := 0, charge := 0,
    stepno := 0, stepArr := [], stepSet := [], stepMask := none, stepPeers := [], grpActive := false, grpOver := false, aborting := false, abTokens := [],
    abWave := none, abHold := false, abClk := 0, stepView := [] }

/-- Does a page-table root break R422? -/
def ptrootBad (x : Nat) : Bool :=
  let tb := bitsAt x 0 5
  22 < tb || bitsAt x 5 3 ≠ 0 || (bitsAt x 8 48 * 2 ^ 8) % max 256 (8 * 2 ^ tb) ≠ 0

/-- The lowest megabyte at which `n` MiB of chip scratchpad are free in a parent's allocation (R416). -/
def State.csmFree (s : State) (p : Region) (n : Nat) : Option Nat :=
  let kids := s.regions.filter (fun r => r.parent = p.rid && r.rid ≠ p.rid)
  (List.range (p.csmb + 1 - n)).find? (fun i =>
    p.csmb ≥ n + i && kids.all (fun k =>
      let lo := (k.csmBase - p.csmBase) / 2 ^ 20
      k.csmb = 0 || i + n ≤ lo || lo + k.csmb ≤ i))

/-- Do the priority and caps of a region break R416? -/
def capsBad (r p : Region) : Bool :=
  r.cores = 0 || 192 < r.cores || p.cores < r.cores || p.vrkb < r.vrkb || p.lskb < r.lskb

/-- Does a region break R416 or R437 under its parent? -/
def State.regionBad (s : State) (r p : Region) (rcb : Nat) : Bool :=
  rcbReserved.any (fun q => bitsAt rcb q.1 q.2 ≠ 0) || !bitAt rcb 32 || 2 ^ 10 ≤ r.inh ||
  r.rid = 0 || (s.region? r.rid).isSome || r.depth ≠ p.depth + 1 || 7 < r.depth || (r.priv && !p.priv) ||
  (p.part.isSome && r.part ≠ p.part) || (!s.granted 8 && r.part ≠ some 0) || capsBad r p || 96 < r.csmb || (s.csmFree p r.csmb).isNone ||
  (r.ssm && !s.granted 5) || (r.cgrp ≠ 0 && !s.granted 10) ||
  (if r.cgrp = 0 then r.cgsz ≠ 0 else r.cgsz < 2 || 64 < r.cgsz || r.cgsz ≤ r.peerix) ||
  r.fqn < 16 || 64 < r.hpool || 11 < r.hsreg || (r.hpool ≠ 0 && r.hsreg = 0) || (r.hpool = 0 && (r.fhnd ≠ 0 || r.abnd ≠ 0)) ||
  8192 < r.prvmx || (r.prvn ≠ 0 && (r.prva = 0 || r.prvmx = 0)) ||
  (match r.ptroot with | some x => ptrootBad x | none => false) ||
  r.save % 4096 ≠ 0 || r.fq % 32 ≠ 0 || r.fhnd % 4 ≠ 0 || r.abnd % 4 ≠ 0 || r.amtbl % 8 ≠ 0 || r.g6b % 128 ≠ 0 || r.g7b % 64 ≠ 0 ||
  r.prva % 65536 ≠ 0

/-- Registers the region whose control block lies at `adr` in the address space of region `rid`; none where it is refused. -/
def State.register (s : State) (rid adr : Nat) : Option (State × Nat) :=
  if adr % 256 ≠ 0 then none
  else
    match s.readVa rid adr 256 with
    | .error _ => none
    | .ok rcb =>
      match s.region? (bitsAt rcb 128 32) with
      | none => none
      | some p =>
        let r := regionOf rcb adr p
        if p.retiring || s.regionBad r p rcb then none
        else
          let base := p.csmBase + ((s.csmFree p r.csmb).getD 0) * 2 ^ 20
          some ({ s with regions := s.regions ++ [{ r with csmBase := base }] }, r.rid)

/-! ## RCBOP (R417) -/

/-- A uniform RCBOP, performed by the SVC, with its result pair, on which the thread settles. -/
def runRcbop (h : Hdr) (f : EngFn) (x : BitVec 64) (g : Ctx → State → Nat → State × Nat × Nat) (s : State) : Out :=
  runEngU 0xF7 h f x (fun c s l =>
    let r := s.serve (fun s => g c s l)
    (r.1, .ok { sregs := regWrites 0 .s h.d.toNat 1 r.2.1 ++ regWrites 0 .s (h.d.toNat + 1) 1 r.2.2,
                st := some .settling })) s

/-- The pair, or the single scalar, that A names. -/
def State.pairA (s : State) (c : Ctx) : Nat := s.readRegs c.uid 0 .s c.e.h.a.toNat 2 % 2 ^ 56
def State.oneA (s : State) (c : Ctx) : Nat := s.readRegs c.uid 0 .s c.e.h.a.toNat 1

def execRcbopReg (h : Hdr) (f : EngFn) (x : BitVec 64) (s : State) : Out :=
  runRcbop h f x (fun c s _ =>
    match s.register (s.ridOf c.uid) (s.pairA c) with
    | none => (s, 0, 4)
    | some (s', id) => (s', id, 0)) s

def execRcbopRet (h : Hdr) (f : EngFn) (x : BitVec 64) (s : State) : Out :=
  runRcbop h f x (fun c s _ =>
    let id := s.oneA c
    match s.region? id with
    | none => (s, 0, 0)
    | some _ => (s.updRegion id (fun r => { r with retiring := true }), 1, 0)) s

/-- What RCBOP.upd re-reads: PRIO and the caps, from the block at the registered address, with INH bits 1 and 2 as registered (R415, R417). Of the root's
block only PRIO is firmware's: the device fixes its caps (R411, log 9). -/
def Region.reread (r p : Region) (rcb : Nat) : Region :=
  let pick := fun (i own par : Nat) => if bitAt r.inh i then par else own
  if r.rid = 0 then { r with prio := bitsAt rcb 40 4 }
  else { r with prio := pick 1 (bitsAt rcb 40 4) p.prio, cores := pick 2 (bitsAt rcb 256 8) p.cores, vrkb := pick 2 (bitsAt rcb 288 32) p.vrkb,
                lskb := pick 2 (bitsAt rcb 320 32) p.lskb, tslice := pick 2 (bitsAt rcb 384 32) p.tslice, tbud := pick 2 (bitsAt rcb 416 32) p.tbud }

/-- RCBOP.upd: none where a re-read field fails the checks of R416, or the block cannot be read. -/
def State.update (s : State) (rid id : Nat) : Option State :=
  match s.region? id with
  | none => none
  | some r =>
    match s.region? r.parent, s.readVa rid r.adr 256 with
    | some p, .ok rcb =>
      let r' := r.reread p rcb
      if capsBad r' p then none else some (s.updRegion id (fun _ => r'))
    | _, _ => none

def execRcbopUpd (h : Hdr) (f : EngFn) (x : BitVec 64) (s : State) : Out :=
  runRcbop h f x (fun c s _ =>
    match s.update (s.ridOf c.uid) (s.oneA c) with
    | none => (s, 0, 4)
    | some s' => (s', 1, 0)) s

/-- The cores that a region holds: those of its gangs, swapped out or not (R21), and those of its handler waves (R416). -/
def State.coresHeld (s : State) (rid : Nat) : Nat :=
  let key := fun (g : Gang) => (List.range g.n).map (fun i => 4 * g.cl + g.core + i)
  (sortedSet ((s.wd.gangs.filter (fun g => g.rid = rid)).flatMap key ++ (s.waves.filter (fun w => w.gid = 0 && w.rid = rid)).map (fun w => 4 * w.cl + w.core))).length

def execRcbopQry (h : Hdr) (f : EngFn) (x : BitVec 64) (s : State) : Out :=
  runRcbop h f x (fun c s _ =>
    let id := s.oneA c
    (s, (s.wd.launches.filter (fun l => l.rid = id)).length, s.coresHeld id)) s

def execRcbopAdr (h : Hdr) (f : EngFn) (x : BitVec 64) (s : State) : Out :=
  runRcbop h f x (fun c s _ =>
    let a := ((s.region? (s.oneA c)).map (fun r => r.adr)).getD 0
    (s, a % 2 ^ 32, a / 2 ^ 32)) s

end Sys2Proof.Machine
end

