-- ==== Sys2Proof/Machine/Launches.lean ====
section
/-!
DEFINITION. Waves as they start (R20, R51, R64, R399), launch records (R285, R286), SPAWN and FETCHW (R284), and placement by the work
distributor (R18, R19, R38 to R45, R473).
-/

namespace Sys2Proof.Machine

/-! ## Waves (R20, R51, R64) -/

/-- Where a wave is to stand. -/
structure Seat where
  cl : Nat
  core : Nat
  quad : Nat
  slot : Nat
  bank : Bank
  deriving DecidableEq, Repr, Inhabited

/-- The segments of a wave of a region, with its allocations: core-scratchpad and cluster-shared base and size, the limit of g4, and the
lane-private block with its limit (R64). -/
def segsFor (r : Region) (g0 g1 al2 al3 : Nat × Nat) (g4 : Nat) (g5 : Nat × Nat) : Sparse (BitVec 128) :=
  let put := fun (t : Sparse (BitVec 128)) (k : Nat) (x : BitVec 128) => Sparse.put 0 t k x
  put (put (put (put (put (put (put (put [] 0 (mkSeg g0.1 g0.2 true)) 1 (mkSeg g1.1 g1.2 false)) 2 (mkSeg al2.1 al2.2 true))
    3 (mkSeg al3.1 al3.2 true)) 4 (mkSeg r.csmBase g4 true)) 5 (mkSeg g5.1 g5.2 true)) 6 (mkSeg r.g6b (128 * r.nhnd) false))
    7 (mkSeg r.g7b (64 * r.nray) true)

/-- A wave at its start: its lanes at `entry`, registers as R51 gives; `view` names what happens before its accesses. A handler wave belongs to no
workgroup and no launch: that WGX to WGZ, WAVEIDX, GANGWG, GRIDX to GRIDZ and LAUNCHID read 0 there is the model's choice, on which R61 is silent
(log 35). -/
def startWave (uid : Nat) (p : Seat) (kind : WaveKind) (rid lanes entry V S : Nat) (priv : Bool) (segs : Sparse (BitVec 128)) (view : List Nat) : Wave :=
  let m0 := maskOf (List.range lanes)
  { uid := uid, cl := p.cl, core := p.core, quad := p.quad, slot := p.slot, bank := p.bank, ctx := 0, kind := kind, gid := 0, lid := 0,
    rid := rid, wg := (0, 0, 0), widx := 0, gangwg := 0, grid := (0, 0, 0), V := V, S := S, priv := priv, quadFlag := false, htbl := 0,
    nbar := 0, al2 := (0, 0), al3 := (0, 0),
    threads := (List.range lanes).map (fun l => (l, Thread.atLaunch (BitVec.ofNat 56 entry) view l)),
    v := [], s := [], m := Sparse.put 0 [] 0 m0, k := [], kfail := [], kview := [], w := [], g := segs, n := [], ac := 0x30, jg := [], jsite := [],
    msite := [], mview := [], uiPend := [], uiEn := true, uiRun := none, uiView := [] }

/-- The wave with scalars from `first` upward. -/
def Wave.withScalars (w : Wave) (first : Nat) (xs : List Word) : Wave :=
  ((List.range xs.length).zip xs).foldl (fun w p => w.setReg (.s (first + p.1)) p.2) w

/-! ## Room on a core (R19, R53, R411) -/

/-- The wave slots of a quadrant open to a region: 14 and 15 of core 0 of cluster 0 are the root's alone. -/
def slotsOf (rid cl core : Nat) : List Nat :=
  if rid = 0 then (if cl = 0 && core = 0 then [14, 15] else [])
  else if cl = 0 && core = 0 then List.range 14 else List.range 16

/-- The waves of a bank in a quadrant; the root's are counted in both banks (R47). -/
def State.inQuad (s : State) (cl core q : Nat) (b : Bank) : List Wave :=
  s.waves.filter (fun w => w.cl = cl && w.core = core && w.quad = q && (decide (w.bank = b) || w.rid = 0))

def State.freeSlots (s : State) (rid cl core q : Nat) (b : Bank) : List Nat :=
  (slotsOf rid cl core).filter (fun k => !(s.inQuad cl core q b).any (fun w => w.slot = k))

/-- The banks in which a region's waves are counted: the root's in both (R47). -/
def banksOf (rid : Nat) (b : Bank) : List Bank := if rid = 0 then [.active, .shadow] else [b]

def State.vectorsUsed (s : State) (cl core q : Nat) (b : Bank) : Nat := (s.inQuad cl core q b).foldl (fun n w => n + w.V) 0

/-- The quadrant of a core with the most free wave slots, the lower number on a tie (R19). -/
def State.firstQuad (s : State) (rid cl core : Nat) (b : Bank) : Nat :=
  let n := fun q => (s.freeSlots rid cl core q b).length
  (List.range 4).foldl (fun best q => if n best < n q then q else best) 0

/-- The seats of `n` waves of V registers from a first quadrant in turn, or none where they do not fit. Which free slot of its quadrant a wave takes R19
leaves open: that it is the lowest is the model's choice (log 36). -/
def State.seats (s : State) (rid cl core n V : Nat) (b : Bank) : Option (List Seat) :=
  let q0 := s.firstQuad rid cl core b
  let seat := fun i =>
    let q := (q0 + i) % 4
    ((s.freeSlots rid cl core q b).drop (i / 4)).head?.map (fun k => (⟨cl, core, q, k, b⟩ : Seat))
  let l := (List.range n).filterMap seat
  if l.length = n && (banksOf rid b).all (fun b => (List.range 4).all (fun q => s.vectorsUsed cl core q b + V * (l.filter (fun p => p.quad = q)).length ≤ 512)) then
    some l
  else none

/-! ## Handler waves (R254, R399, R414, R436) -/

/-- Handler waves of a region that are running. -/
def State.poolUsed (s : State) (rid : Nat) : Nat := (s.waves.filter (fun w => w.rid = rid && decide (w.kind ≠ .launch))).length

/-- Cores take their places in the order in which a region's cores were first allocated (R443). -/
def State.noteCores (s : State) (rid : Nat) (cores : List Nat) : State :=
  let known := (s.wd.saveIdx.filter (fun p => p.1 = rid)).map (fun p => p.2)
  { s with wd := { s.wd with saveIdx := s.wd.saveIdx ++ (cores.filter (fun k => !known.contains k)).map (fun k => (rid, k)) } }

/-- Starts a wave of a region's handler pool on a core; none while the pool or the core has no room. -/
def State.startHandler (s : State) (r : Region) (cl core : Nat) (kind : WaveKind) (entry lanes V S : Nat) (priv : Bool)
    (segs : Sparse (BitVec 128)) (view : List Nat) (f : Wave → Wave) : Option State :=
  if r.hpool ≤ s.poolUsed r.rid then none
  else
    match s.seats r.rid cl core 1 V .active with
    | some (p :: _) =>
      some ({ s with waves := s.waves ++ [f (startWave s.fresh p kind r.rid lanes entry V S priv segs view)], fresh := s.fresh + 1 }.noteCores r.rid [4 * cl + core])
    | _ => none

/-- The segments of a handler wave: no allocation on chip but the region's, and P = 0. -/
def handlerSegs (r : Region) : Sparse (BitVec 128) := segsFor r (r.g0b, r.g0l) (0, 0) (0, 0) (0, 0) (r.csmb * 2 ^ 20) (0, 0)

def Region.hV (r : Region) : Nat := 8 * (r.hvreg + 1)
def Region.hS (r : Region) : Nat := 16 * (r.hsreg + 1)

/-- Does a cluster belong to a region? The root's handlers run on core 0 of cluster 0 (R411). -/
def State.coreOk (s : State) (r : Region) (cl core : Nat) : Bool :=
  if r.rid = 0 then cl = 0 && core = 0 else core < 4 && s.inPart r.rid cl

/-! ## The launch record (R285, R286) -/

def recReserved : List (Nat × Nat) :=
  [(56, 8), (165, 3), (173, 3), (181, 3), (188, 4), (326, 2), (334, 2), (343, 1), (348, 4), (359, 1), (368, 16), (440, 8),
   (504, 8), (568, 7), (632, 8), (696, 8), (760, 8), (768, 256)]

/-- The launch that a record describes, before its id and arguments. -/
def launchOf (r : Nat) (g : Region) : Launch :=
  let V := 8 * (bitsAt r 176 5 + 1)
  { lid := 0, rid := g.rid, entry := bitsAt r 0 56, grid := (bitsAt r 64 32, bitsAt r 96 32, bitsAt r 128 32), waves := bitsAt r 160 5,
    gang := bitsAt r 168 3, quad := bitAt r 171, pers := bitAt r 172, V := V, S := 16 * (bitsAt r 184 4 + 1), cscr := bitsAt r 192 32,
    cshr := bitsAt r 224 32, lprv := bitsAt r 256 32, chscr := bitsAt r 288 32, nbar := bitsAt r 320 6, cblo := bitsAt r 328 6,
    cbn := bitsAt r 336 7, delta := signedOf 4 (bitsAt r 344 4), args := [], argr := bitsAt r 360 8,
    htbl := bitsAt r 448 56,
    g0 := if bitAt r 575 then (bitsAt r 512 56, bitsAt r 576 56) else (g.g0b, g.g0l), g1 := (bitsAt r 640 56, bitsAt r 704 56),
    nextWg := 0, done := 0, persDone := false, waitFrom := 0, passed := false, aged := false, cpl := none, view := [] }

def Launch.total (l : Launch) : Nat := l.grid.1 * l.grid.2.1 * l.grid.2.2

/-- Is a field outside the limits of R285? A grid that its gangs do not fill exactly is outside them (R18). -/
def launchBad (l : Launch) (r : Nat) : Bool :=
  l.entry % 4 ≠ 0 || l.grid.1 = 0 || l.grid.2.1 = 0 || l.grid.2.2 = 0 || l.waves = 0 || 16 < l.waves || l.gang = 0 || 4 < l.gang ||
  l.total % l.gang ≠ 0 || 11 < bitsAt r 184 4 || l.cscr % 32 ≠ 0 || l.cshr % 1024 ≠ 0 || l.lprv % 32 ≠ 0 || 262144 < l.lprv ||
  l.chscr % 65536 ≠ 0 || 48 < l.nbar || 64 < l.cbn || 64 < l.cblo + l.cbn || 64 < bitsAt r 352 7 || l.S < l.argr + bitsAt r 352 7 ||
  bitsAt r 384 56 % 4 ≠ 0 || l.htbl % 8 ≠ 0 || 393216 < l.cscr + l.cshr / 4

/-- Do a single gang's needs exceed the region's budget (reason 5)? -/
def Launch.overBudget (l : Launch) (g : Region) : Bool :=
  g.cores < l.gang || 2 * g.vrkb < l.gang * l.waves * l.V || g.lskb * 1024 < l.gang * l.cscr + l.cshr ||
  g.csmb * 2 ^ 20 < l.chscr || 32 * g.prvmx < l.lprv || (g.prvn = 0 && l.lprv ≠ 0)

/-- A SPAWN by a wave of region `rid`: the launch id, or the reason of its refusal. The reasons are tried in their numbered order, the
argument block last (log 21). What `view` names happens before every access of the launch (R228). -/
def State.spawn (s : State) (rid la ra : Nat) (cpl : Option (Nat × Nat)) (view : List Nat) : State × Nat × Nat :=
  let no := fun (k : Nat) => (s, 0, k)
  if la % 128 ≠ 0 || ra % 256 ≠ 0 then no 1
  else
    match s.readVa rid la 128 with
    | .error _ => no 1
    | .ok r =>
      let dummy := launchOf r rootRegion
      if recReserved.any (fun q => bitsAt r q.1 q.2 ≠ 0) then no 2
      else if launchBad dummy r then no 3
      else
        match s.regions.find? (fun g => g.adr = ra) with
        | none => no 4
        | some g =>
          let l := launchOf r g
          if g.retiring then no 4
          else if l.overBudget g then no 5
          else if rid ≠ 0 && ((s.region? rid).bind (fun p => p.part)) ≠ g.part then no 6
          else
            match (if bitsAt r 352 7 = 0 then .ok 0 else s.readVa rid (bitsAt r 384 56) (4 * bitsAt r 352 7)) with
            | .error _ => no 1
            | .ok a =>
              let id := s.wd.nextLid
              let l := { l with lid := id, args := leWords (bitsAt r 352 7) a, waitFrom := s.clk, cpl := cpl, view := view }
              let next := if id + 1 = 2 ^ 32 then 1 else id + 1
              ({ s with wd := { s.wd with launches := s.wd.launches ++ [l], nextLid := next } }, id, 0)

/-- SPAWN (R286): the work distributor reads the record and the argument block. -/
def execSpawn (h : Hdr) (f : EngFn) (x : BitVec 64) (s : State) : Out :=
  runEngU 0xAE h f x (fun c s _ =>
    let la := s.readRegs c.uid 0 .s h.a.toNat 2 % 2 ^ 56
    let ra := s.readRegs c.uid 0 .s (h.a.toNat + 2) 2 % 2 ^ 56
    let view := s.opView
    let r := s.serve (fun s => s.spawn (s.ridOf c.uid) la ra none view)
    (r.1, .ok { sregs := regWrites 0 .s h.d.toNat 1 r.2.1 ++ regWrites 0 .s (h.d.toNat + 1) 1 r.2.2 })) s

/-! ## Placement (R38 to R42) -/

/-- The priority of a launch: that of its region with its delta, clamped (R38). -/
def State.prioOf (s : State) (l : Launch) : Nat := (clampInt 0 15 ((((s.region? l.rid).map (fun r => r.prio)).getD 0 : Nat) + l.delta)).toNat

/-- The order in which launches are offered room: aged ones by their wait, then by priority, then by submission. -/
def State.before (s : State) (a b : Launch) : Bool :=
  if a.aged && b.aged then a.waitFrom < b.waitFrom
  else if a.aged != b.aged then a.aged
  else s.prioOf b < s.prioOf a

/-- The launches that stand before one in the order. -/
def State.ahead (s : State) (l : Launch) : List Launch :=
  s.wd.launches.filter (fun a => s.before a l) ++
    (s.wd.launches.takeWhile (fun a => a.lid ≠ l.lid)).filter (fun a => !s.before a l && !s.before l a)

/-- The lowest multiple of `u` at which `n` bytes are free beside the allocations `used` below `top`. -/
def lowestFree (u n top : Nat) (used : List (Nat × Nat)) : Option Nat :=
  let ok := fun b => b + n ≤ top && used.all (fun a => a.2 = 0 || n = 0 || b + n ≤ a.1 || a.1 + a.2 ≤ b)
  (sortedSet (0 :: used.map (fun a => (a.1 + a.2 + u - 1) / u * u))).find? ok

/-- The gangs whose image a bank holds on a cluster; the root's are counted in each (R47). -/
def State.gangsIn (s : State) (cl bank : Nat) : List Gang := s.wd.gangs.filter (fun g => g.cl = cl && (g.bank = bank || g.rid = 0))

def bankNo (b : Bank) : Nat := match b with | .active => 0 | .shadow => 1 | .saved => 2

/-- The gangs beside which one of a region is placed in a bank: one of the root's counts in both (R47). -/
def State.gangsBeside (s : State) (rid cl : Nat) (b : Bank) : List Gang :=
  s.wd.gangs.filter (fun g => g.cl = cl && (g.rid = 0 || (banksOf rid b).any (fun b => g.bank = bankNo b)))

/-- Core-scratchpad allocations on a core: its workgroups' (R67). -/
def State.scratchOn (s : State) (cl core bank : Nat) : List (Nat × Nat) :=
  ((s.gangsIn cl bank).filter (fun g => g.core ≤ core && core < g.core + g.n)).map (fun g => g.al2)

def State.sharedOn (s : State) (cl bank : Nat) : List (Nat × Nat) := (s.gangsIn cl bank).map (fun g => g.al3)

/-- Is region `a` in the subtree of region `b`? -/
def State.under (s : State) : Nat → Nat → Nat → Bool
  | 0, a, b => a = b
  | k + 1, a, b => a = b || (a ≠ 0 && (match s.region? a with | some r => s.under k r.parent b | none => false))

/-- The handler waves of a subtree of regions. -/
def State.handlersUnder (s : State) (rid : Nat) : List Wave := s.waves.filter (fun w => w.gid = 0 && s.under 8 w.rid rid)

/-- Does the region and every ancestor stay within CORES, VRKB and LSKB with a further gang (R416)? Every gang that has not retired holds its resources,
swapped out or not (R21), and so does every handler wave. -/
def State.budgetOk (s : State) (l : Launch) (cl core : Nat) : Nat → Nat → Bool
  | 0, _ => true
  | k + 1, rid =>
    match s.region? rid with
    | none => true
    | some r =>
      let sub := s.wd.gangs.filter (fun g => s.under 8 g.rid rid)
      let hs := s.handlersUnder rid
      let cores := (sortedSet ((sub.flatMap (fun g => (List.range g.n).map (fun i => 4 * g.cl + g.core + i))) ++
        hs.map (fun w => 4 * w.cl + w.core) ++ (List.range l.gang).map (fun i => 4 * cl + core + i))).length
      let vr := sub.foldl (fun n g => n + g.n * g.waves * g.V) (hs.foldl (fun n w => n + w.V) (l.gang * l.waves * l.V))
      let ls := sub.foldl (fun n g => n + g.n * g.al2.2 + g.al3.2) (l.gang * l.cscr + l.cshr)
      cores ≤ r.cores && vr ≤ 2 * r.vrkb && ls ≤ 1024 * r.lskb && (rid = 0 || s.budgetOk l cl core k r.parent)

/-- The free blocks of a lane-private pool (R473). -/
def State.freeBlocks (s : State) (r : Region) : List Nat :=
  let used := (s.wd.gangs.filter (fun g => g.pool = r.pool)).flatMap (fun g => g.blocks)
  (List.range r.prvn).filter (fun b => !used.contains b)

/-- What a gang of a launch would hold when placed. -/
structure Fit where
  seats : List (List Seat)
  al2 : Nat
  al3 : Nat
  blocks : List Nat
  deriving DecidableEq, Repr, Inhabited

/-- Does the next gang of a launch fit on consecutive cores from `core` of a cluster (R40) that is not out of placement (R463)? That its core-scratchpad
allocations have one base on all its cores, the lowest at which each of them has room, is the model's choice: R67 says only which allocations there are (log 56). -/
def State.fits (s : State) (l : Launch) (cl core : Nat) (b : Bank) : Option Fit :=
  match s.region? l.rid with
  | none => none
  | some r =>
    let gs := s.gangsBeside l.rid cl b
    let on := fun (c : Nat) => gs.filter (fun g => g.core ≤ c && c < g.core + g.n)
    let cores := (List.range l.gang).map (fun i => core + i)
    let used2 := cores.flatMap (fun c => (on c).map (fun g => g.al2))
    let used3 := gs.map (fun g => g.al3)
    let seats := cores.filterMap (fun c => s.seats l.rid cl c l.waves l.V b)
    let nb := if l.lprv = 0 then 0 else l.gang * l.waves
    let blocks := (s.freeBlocks r).take nb
    let room3 := fun top => lowestFree 1024 l.cshr top used3
    let top2 := fun (a3 : Nat) => 393216 - (used3 ++ [(a3, l.cshr)]).foldl (fun m a => max m (if a.2 = 0 then 0 else (a.1 + a.2) / 4)) 0
    if 4 < core + l.gang || !s.coreOk r cl core || bitAt (s.csr (csrAddr 10 0 0 0x14)) cl || seats.length ≠ l.gang || blocks.length ≠ nb || !s.budgetOk l cl core 8 l.rid then none
    else if cores.any (fun c => 48 < (on c).foldl (fun n g => n + g.nbar) l.nbar) then none
    else if l.cbn ≠ 0 && s.wd.gangs.any (fun g => g.cl = cl && g.cbn ≠ 0 && l.cblo < g.cblo + g.cbn && g.cblo < l.cblo + l.cbn) then none
    else
      match room3 (4 * 393216) with
      | none => none
      | some a3 =>
        match lowestFree 32 l.cscr (top2 a3) used2 with
        | none => none
        | some a2 =>
          if (List.range 4).all (fun c => (on c).all (fun g => g.al2.1 + g.al2.2 ≤ top2 a3)) then some ⟨seats, a2, a3, blocks⟩ else none

/-- The coordinates of a linear workgroup number, x fastest (R41). -/
def Launch.coords (l : Launch) (k : Nat) : Nat × Nat × Nat :=
  (k % l.grid.1, k / l.grid.1 % l.grid.2.1, k / (l.grid.1 * l.grid.2.1))

/-- The waves of workgroup `i` of a placed gang. -/
def gangWaves (l : Launch) (r : Region) (gid ctx : Nat) (f : Fit) (uid0 i : Nat) : List Wave :=
  let seats := (f.seats[i]?).getD []
  ((List.range seats.length).zip seats).map (fun p =>
    let k := i * l.waves + p.1
    let g5 := if l.lprv = 0 then (0, 0) else (r.prva + 4096 * r.prvmx * ((f.blocks[k]?).getD 0), l.lprv)
    let segs := segsFor r l.g0 l.g1 (f.al2, l.cscr) (f.al3, l.cshr) (if l.chscr = 0 then r.csmb * 2 ^ 20 else l.chscr) g5
    let w := startWave (uid0 + k) p.2 .launch l.rid 128 l.entry l.V l.S r.priv segs l.view
    { w with ctx := ctx, gid := gid, lid := l.lid, wg := l.coords (l.nextWg + i), widx := p.1, gangwg := i, grid := l.grid,
             quadFlag := l.quad, htbl := l.htbl, nbar := l.nbar, al2 := (f.al2, l.cscr), al3 := (f.al3, l.cshr) }.withScalars l.argr l.args)

/-- A context number that no image of the cluster outside the bank uses. -/
def State.ctxFor (s : State) (cl bank : Nat) : Nat :=
  let used := (s.wd.gangs.filter (fun g => g.cl = cl && (g.bank ≠ bank || bank ≠ 0))).map (fun g => g.ctx)
  ((List.range (used.length + 1)).find? (fun x => !used.contains x)).getD 0

/-- A launch whose next gang has just been placed: it is no longer aged (R39); a persistent one that is past its first placement goes on as
if its flag were clear (R42). -/
def Launch.placed (x : Launch) (clk : Nat) : Launch :=
  { x with nextWg := x.nextWg + x.gang, waitFrom := clk, aged := false, passed := false, pers := x.pers && (x.nextWg = 0 || x.waitFrom = clk) }

/-- Places the next gang of a launch (R40, R41): its waves start together; the other launches of the partition have been passed (R39). -/
def State.place (s : State) (l : Launch) (cl core : Nat) (b : Bank) (f : Fit) : State :=
  match s.region? l.rid with
  | none => s
  | some r =>
    let gid := s.fresh
    let ctx := s.ctxFor cl (bankNo b)
    let ws := (List.range l.gang).flatMap (gangWaves l r gid ctx f (gid + 1))
    let g : Gang :=
      { gid := gid, lid := l.lid, rid := l.rid, cl := cl, core := core, n := l.gang, ctx := ctx, bank := bankNo b, al2 := (f.al2, l.cscr),
        al3 := (f.al3, l.cshr), cblo := l.cblo, cbn := l.cbn, nbar := l.nbar, waves := l.waves, V := l.V, S := l.S, pool := r.pool,
        blocks := f.blocks, fetched := 0 }
    let s := s.noteCores l.rid ((List.range l.gang).map (fun i => 4 * cl + core + i))
    { s with
      waves := s.waves ++ ws
      fresh := s.fresh + 1 + l.gang * l.waves
      wd := { s.wd with
        gangs := s.wd.gangs ++ [g]
        sliceAt := if s.wd.gangs.any (fun x => x.rid = l.rid && x.bank = 0) then s.wd.sliceAt else Sparse.put 0 s.wd.sliceAt l.rid s.clk
        launches := s.wd.launches.map (fun x =>
          if x.lid = l.lid then x.placed s.clk
          else if x.nextWg < x.total && ((s.region? x.rid).bind (fun q => q.part)) = r.part then { x with passed := true } else x) } }

/-- May a launch have a gang placed: work is left, it is not ended, and a persistent launch is in its first placement (R42)? -/
def State.placeable (s : State) (l : Launch) : Bool :=
  l.nextWg + l.gang ≤ l.total &&
  (!l.pers || l.nextWg = 0 || l.waitFrom = s.clk || !s.wd.gangs.any (fun g => g.lid = l.lid)) &&
  (match s.region? l.rid with | some r => !r.aborting | none => false)

/-- WD_PLACE_GANG: the room is not one on which the next gang of a launch ahead fits (R38). -/
def execWdPlaceGang (lid cl core : Nat) (s : State) : Out :=
  .next (match s.wd.launches.find? (fun l => l.lid = lid) with
    | none => s
    | some l =>
      if !s.placeable l || (s.ahead l).any (fun a => s.placeable a && (List.range 4).any (fun k => (s.fits a cl k .active).isSome)) then s
      else match s.fits l cl core .active with | none => s | some f => s.place l cl core .active f)

/-- 10 ms of the module clock (R13, R39). -/
def tenMs : Nat := 17000000

/-- LAUNCH_AGED: work unplaced for 10 ms while other launches of the partition were being placed. -/
def execLaunchAged (lid : Nat) (s : State) : Out :=
  .next { s with wd := { s.wd with launches := s.wd.launches.map (fun l =>
    if l.lid = lid && l.passed && l.nextWg < l.total && l.waitFrom + tenMs ≤ s.clk then { l with aged := true } else l) } }

/-! ## FETCHW (R43, R44, R284) -/

/-- The token is bits 3:0 of D (R273); the mailbox's offset is a 32-bit register plus 16 C. -/
def fetchwLane (f : EngFn) (c : Ctx) (s : State) (l : Nat) : State × LaneRes :=
  match s.wave? c.uid with
  | none => (s, .ok {})
  | some w =>
    let seg := f.sub.toNat
    let k := c.e.h.d.toNat % 16
    let o := (s.srcCount c l .a + 16 * c.e.h.c.toNat) % 2 ^ 56
    if w.tokPending k l then (s, .fault illegal7)
    else if segLimit (w.seg seg) < o + 16 || s.outside w seg ((segBaseOf (w.seg seg) + o) % 2 ^ 56) 16 then
      (s, .fault ⟨fcSegLimit, offInfo seg o⟩)
    else if !segWr (w.seg seg) then (s, .fault ⟨fcPermission, offInfo seg o⟩)
    else if o % 16 ≠ 0 then (s, .fault ⟨fcMisalign, offInfo seg o⟩)
    else
      let q : WgReq := ⟨c.uid, l, k, if w.gid = 0 then 0 else w.lid, seg, w.byteAddr l seg o 0, w.cl + 48 * w.ctx, w.core⟩
      ((s.updWave c.uid (fun w => w.setTok k l true)).updCts (fun t => { t with wgreqs := t.wgreqs ++ [q] }), .ok {})

def execFetchw (h : Hdr) (f : EngFn) (x : BitVec 64) (s : State) : Out := runEng 0xAD h f x (fetchwLane f) (fun _ s => s) s

/-- The mailbox record of a request and the state after a withdrawal (R44, R45). -/
def State.withdrawWg (s : State) (q : WgReq) : State × Nat :=
  match s.wd.launches.find? (fun l => l.lid = q.lid) with
  | none => (s, 2 * 2 ^ 96)
  | some l =>
    if 1 < l.gang then (s, 3 * 2 ^ 96)
    else if l.total ≤ l.nextWg || ((s.region? l.rid).map (fun r => r.aborting)).getD true then (s, 2 * 2 ^ 96)
    else
      let p := l.coords l.nextWg
      let gid := ((s.wave? q.uid).map (fun w => w.gid)).getD 0
      ({ s with wd := { s.wd with
          launches := s.wd.launches.map (fun x => if x.lid = l.lid then { x with nextWg := x.nextWg + 1 } else x),
          gangs := s.wd.gangs.map (fun g => if g.gid = gid then { g with fetched := g.fetched + 1 } else g) } },
        p.1 + 2 ^ 32 * p.2.1 + 2 ^ 64 * p.2.2 + 2 ^ 96)

/-- FETCHW_SERVE: the `k`-th request, when no earlier one of its launch waits: one write of the mailbox, then the token clears. -/
def execFetchwServe (k : Nat) (s : State) : Out :=
  .next (match s.cts.wgreqs.drop k, s.cts.wgreqs.take k with
    | [], _ => s
    | q :: _, before =>
      if before.any (fun p => p.lid = q.lid) then s
      else
        let r := (s.updCts (fun t => { t with wgreqs := t.wgreqs.eraseIdx k })).withdrawWg q
        let locs := (List.range 16).map (fun i => if q.seg = 3 then sharedLoc q.cl (q.a + i) else coreLoc q.cl q.core (q.a + i))
        (r.1.store locs (leBytes 16 r.2)).clearTok q.uid q.tok q.lane)

end Sys2Proof.Machine
end

