-- ==== Sys2Proof/Machine/Gather.lean ====
section
/-!
DEFINITION. The gather-scatter engine (R333 to R340).
-/

namespace Sys2Proof.Machine

/-! ## The command block (R333) -/

def gsBase (b : Nat) : Nat := bitsAt b 0 56
def gsIdx (b : Nat) : Nat := bitsAt b 64 56
/-- Bytes of an index. -/
def gsIw (b : Nat) : Nat := 2 ^ bitsAt b 120 2
def gsSigned (b : Nat) : Bool := bitAt b 122
def gsCse (b : Nat) : Bool := bitAt b 126
def gsSne (b : Nat) : Bool := bitAt b 127
/-- The number of indices and the bytes of an element. -/
def gsCnt (b : Nat) : Nat := bitsAt b 128 16 + 1
def gsEsz (b : Nat) : Nat := bitsAt b 144 8 + 1
def gsCss (b : Nat) : Nat := bitsAt b 152 6
def gsFill (b : Nat) : Byte := BitVec.ofNat 8 (bitsAt b 160 8)
def gsAty (b : Nat) : Nat := bitsAt b 168 4
def gsBound (b : Nat) : Nat := bitsAt b 192 64
def gsSent (b : Nat) : Nat := bitsAt b 256 64
def gsData (b : Nat) : Nat := bitsAt b 320 56
def gsFra (b : Nat) : Nat := bitsAt b 384 56

/-- Bytes of a word of SSXA; 0 for a type that it does not take. -/
def atyBytes (t : Nat) : Nat := match t with | 0 | 1 | 0xA => 4 | 2 | 3 | 0xD => 8 | _ => 0

/-- Units of 32 bytes of a task's data (R334). -/
def gsUnits (b : Nat) : Nat := ceilDiv (gsCnt b * gsEsz b) 32

/-- Is a block refused for a task of a region (R333, R413)? -/
def State.gsBlockBad (s : State) (rid kind b : Nat) : Bool :=
  bitsAt b 56 8 ≠ 0 || bitsAt b 158 2 ≠ 0 || bitsAt b 172 20 ≠ 0 || bitsAt b 376 8 ≠ 0 || bitsAt b 440 72 ≠ 0 ||
  gsIdx b % gsIw b ≠ 0 || gsFra b % 32 ≠ 0 || (!gsSne b && gsSent b ≠ 0) ||
  (if gsCse b then gsCss b = 0 || !s.granted 6 || ((s.region? rid).map (fun r => r.cgrp)).getD 0 = 0 else gsCss b ≠ 0) ||
  (if kind = 0x0A then atyBytes (gsAty b) = 0 || gsEsz b % atyBytes (gsAty b) ≠ 0 else gsAty b ≠ 0)

/-- Is a record refused with its block (R334)? -/
def gsRecordBad (t : Task) (r b : Nat) : Bool :=
  bitsAt r 248 264 ≠ 0 || inUse t 1 || inUse t 2 || (if t.kind = 5 then inUse t 0 else t.out.isSome) ||
  ((inUse t 0 || t.out.isSome) && 65535 < gsUnits b) ||
  (inUse t 0 && inUnits t 0 ≠ gsUnits b) || (t.out.isSome && outUnits t ≠ gsUnits b) || (t.spec && (t.kind ≠ 5 || t.out.isNone))

/-! ## An index (R335) -/

/-- What an index says: an outcome code, or an element's chip and address. -/
inductive GsRef
  | code (c : Nat)
  | elem (chip : Option Nat) (addr : Nat)
  deriving DecidableEq, Repr

/-- The outcome of index value `raw`; no chip stands for this module. -/
def gsRef (b raw own size : Nat) : GsRef :=
  let w := 8 * gsIw b
  let x := if gsSigned b then wrapTo 64 (signedOf w raw) else raw
  if gsSne b && x = gsSent b then .code 1
  else
    let chip := if gsCse b then x / 2 ^ gsCss b else own
    let y := if gsCse b then x % 2 ^ gsCss b else x
    if gsSigned b && 2 ^ 63 ≤ x then .code 2
    else if gsBound b ≤ y then .code 2
    else if gsCse b && size ≤ chip then .code 2
    else .elem (if chip = own then none else some chip) ((gsBase b + y * 2 ^ bitsAt b 123 3) % 2 ^ 56)

/-! ## Elements (R336, R337) -/

/-- The outcome of an index is settled; a code-3 element with its fault code, chip and address, of which the first 16 are kept (R338). -/
def Task.gsDone (t : Task) (code : Nat) (f : Option (Nat × Nat × Nat)) : Task :=
  let recs := match f with | some (c, chip, addr) => if t.frecs.length < 16 then t.frecs ++ [(t.prog, c, chip, addr)] else t.frecs | none => t.frecs
  { t with codes := t.codes ++ [code], frecs := recs, prog := t.prog + 1 }

/-- Delivers the bytes of an element of a GSX. -/
def gsDeliver (b : Nat) (bs : List Byte) (code : Nat) (f : Option (Nat × Nat × Nat)) (s : State) (t : Task) : EAcc :=
  if t.out.isSome then (s.outBytes t (t.prog * gsEsz b) bs false, t.gsDone code f, none)
  else tryW (s.engWrite t.rid ((gsData b + t.prog * gsEsz b) % 2 ^ 56) bs) t (fun s => (s, t.gsDone code f, none))

/-- An element that is not ok: FILL for a GSX, nothing for a scatter. -/
def gsSkip (b code : Nat) (f : Option (Nat × Nat × Nat)) (s : State) (t : Task) : EAcc :=
  if t.kind = 5 then gsDeliver b (List.replicate (gsEsz b) (gsFill b)) code f s t else (s, t.gsDone code f, none)

/-- The data of an element of a scatter. -/
def gsSource (t : Task) (b : Nat) : EM (List Byte) :=
  if inUse t 0 then inBytes t 0 (t.prog * gsEsz b) (gsEsz b) else engBytes t.rid ((gsData b + t.prog * gsEsz b) % 2 ^ 56) (gsEsz b)

/-- The words of an element, each with its bytes and its operand. -/
def gsWords (ty : Nat) (ls : List (Nat × Loc)) (bs : List Byte) : List (List (Nat × Loc) × Nat) :=
  let n := atyBytes ty
  (List.range (ls.length / n)).map (fun i => ((ls.drop (i * n)).take n, leNat ((bs.drop (i * n)).take n)))

/-- The peer and the address there of a word whose bytes all lie on it. -/
def wordPeer (w : List (Nat × Loc)) : Option (Nat × Nat × Nat) :=
  match w with
  | (va, .rem p a _) :: r => if r.all (fun x => match x.2 with | .rem q _ _ => q = p | _ => false) then some (va, p, a) else none
  | _ => none

/-- A word with bytes on a peer and bytes elsewhere. -/
def wordMixed (w : List (Nat × Loc)) : Bool := (wordPeer w).isNone && w.any (fun x => x.2.away)

/-- The acting operation adds a word that lies on one peer, and waits for that. -/
def State.addAway (s : State) (rid ty : Nat) (w : List (Nat × Loc) × Nat) : State × Except LFault Bool :=
  match wordPeer w.1 with
  | none => (s, .ok true)
  | some (va, p, a) =>
    let n := atyBytes ty
    s.await rid p a va n .rc [.atomic a (if 0xA ≤ ty then 2 else 1) n w.2 0 (s.peerAcc .rc [] false)]

/-- The new bytes of a word, from the bytes that the addition finds. -/
def addBytes (ty : Nat) (old : List Byte) (x : Nat) : List Byte :=
  let n := atyBytes ty
  leBytes n (atomNew (if 0xA ≤ ty then 2 else 1) (8 * n) (leNat old) x 0).1

/-- Adds words to memory, each atomically as RED does (R233, R336): those on peers there, and once every peer has answered, those of this module. A word with
bytes on both is read and written. The words of one element have different addresses. Where several parts lie on peers, each is first asked whether it can be
written, so that an element with a fault is not written (R337). -/
def State.gsAdd (s : State) (rid ty : Nat) (ls : List (Nat × Loc)) (bs : List Byte) : State × Option LFault :=
  let ws := gsWords ty ls bs
  let wait : LFault := ⟨fcRemote, (ls.head?.map (fun x => x.1)).getD 0⟩
  let ps := remParts ls bs
  let probe := if ps.length ≤ 1 then (s, .ok true) else s.awaitAll rid ps (fun _ => 0) (fun a k _ => [.store a [] (s.peerAcc k [] false)])
  match probe.2 with
  | .error e => (probe.1, some e)
  | .ok false => (probe.1, some wait)
  | .ok true =>
    match probe.1.absent ((ws.filter (fun w => wordMixed w.1)).flatMap (fun w => w.1)) with
    | some e => (probe.1, some e)
    | none =>
      let r := ws.foldl (fun (acc : State × Except LFault Bool) w => let q := acc.1.addAway rid ty w; (q.1, allCome acc.2 q.2)) (probe.1, .ok true)
      match r.2 with
      | .error e => (r.1, some e)
      | .ok false => (r.1, some wait)
      | .ok true =>
        let mixed := (ws.filter (fun w => wordMixed w.1)).foldl (fun (acc : State × Option LFault) w =>
          match acc.2 with
          | some _ => acc
          | none => acc.1.writeAll rid w.1 (addBytes ty (acc.1.readLocs (w.1.map (fun x => x.2))) w.2)) (r.1, none)
        match mixed.2 with
        | some e => (mixed.1, some e)
        | none =>
          ((ws.filter (fun w => w.1.all (fun x => !x.2.away))).foldl (fun s w =>
            let l := w.1.map (fun x => x.2)
            s.storeAs l (addBytes ty (s.rmwBytes l) w.2) none true) mixed.1, none)

/-- The agent of a task. -/
def Task.who (t : Task) : Who := .task t.cl t.slot

/-- What becomes of an element access that has met a fault (R337): NOTPRESENT and PERMISSION give code 3, MEMUE ends the task, COWWRITE suspends it; and one that
waits goes on waiting. -/
def gsFault (b chip addr : Nat) (e : LFault) (s : State) (t : Task) : EAcc :=
  if e.code = fcNotPresent || e.code = fcPermission then gsSkip b 3 (some (e.code, chip, addr)) (s.dropRops t.who) t
  else (s, t, some e.stop)

/-- The access of an element at its bytes: a read and its delivery, or a write or an addition of its data. A word that SSXA adds in an uncorrectable sector is left
unchanged, as by RED (R201): a scatter reads no element (log 94). -/
def gsAccess (b chip addr : Nat) (ls : List (Nat × Loc)) (s : State) (t : Task) : EAcc :=
  if t.kind = 5 then
    (match s.take ls none with | .error e => gsFault b chip addr e s t | .ok r => gsDeliver b r.2 0 none r.1 t)
  else tryE (gsSource t b) s t (fun s bs =>
    let r := if t.kind = 6 then s.writeAll t.rid ls bs else s.gsAdd t.rid (gsAty b) ls bs
    match r.2 with
    | some e => gsFault b chip addr e r.1 t
    | none => (r.1.dropWrites t.who, t.gsDone 0 none, none))

/-- Asks a peer for the sector of the first part of an element that has not come, unless that has been asked for. -/
def State.askPart (s : State) (rid chip : Nat) (ls : List (Nat × Loc)) : State :=
  match s.ord.agent, s.missing ls with
  | some a, some m =>
    let at' := m.1 / 32 * 32
    if s.link.rops.any (fun r => r.who = a.who && !r.write && r.pva = at' && r.peer = chip) then s
    else
      let acc := s.peerAcc .rc [] false
      s.sendRop { id := 0, idx := 0, who := a.who, rid := rid, va := at', peer := chip, pva := at', n := 32, write := false, ask := none, atom := none, kind := .rc,
                  acq := none, step := s.tick, site := 0, lanes := [], answer := none } (fun id => .load id rid chip at' 32 acc)
  | _, _ => s

/-- An element on a peer, at the same address there (R335): its faults are the peer's (R337); with no active group the task ends with ABORT (R421). -/
def gsRemote (b chip addr : Nat) (s : State) (t : Task) : EAcc :=
  let ls := (List.range (gsEsz b)).map (fun i => ((addr + i) % 2 ^ 56, Loc.rem chip ((addr + i) % 2 ^ 56) .rc))
  if !((s.region? t.rid).map (fun r => r.grpActive)).getD false then (s, t, some (.over 4))
  else
    let a := gsAccess b chip addr ls (if t.kind = 5 then s.askPart t.rid chip ls else s) t
    match a.2.2 with
    | some (.fault f) => (a.1, a.2.1, some (.fault (if t.kind = 5 && f.code = fcRemote then ⟨fcRemote, addr⟩ else f)))
    | _ => a

/-- An element in this module's address space of the region. -/
def gsLocal (b own addr : Nat) (s : State) (t : Task) : EAcc :=
  match s.bytesOfVa t.rid addr (t.kind ≠ 5) (gsEsz b) with
  | .error e => gsFault b own addr e s t
  | .ok ls => if t.kind = 5 && (s.ueAt ls).isSome then (s.meetUe (ls.map (fun x => x.2)), t, some (.over 1)) else gsAccess b own addr ls s t

/-- Index `t.prog` of a task. -/
def gsIndex (b : Nat) (_ : Nat) (s : State) (t : Task) : EAcc :=
  let g := s.region? t.rid
  let own := (g.map (fun r => r.peerix)).getD 0
  let size := (g.map (fun r => r.cgsz)).getD 0
  tryE (engRead t.rid ((gsIdx b + t.prog * gsIw b) % 2 ^ 56) (gsIw b)) s t (fun s raw =>
    match gsRef b raw own size with
    | .code c => gsSkip b c none s t
    | .elem (some chip) addr => gsRemote b chip addr s t
    | .elem none addr => gsLocal b own addr s t)

/-! ## The report (R338) -/

/-- The bytes of the outcome bitmap. -/
def gsBitmap (codes : List Nat) (n : Nat) : List Byte :=
  leBytes (ceilDiv n 4) (codes.foldr (fun c acc => 4 * acc + c) 0)

def gsCount (t : Task) (c : Nat) : Nat := (t.codes.filter (fun x => x = c)).length

/-- The summary for a status. -/
def gsSummary (t : Task) (st : Nat) : List Byte :=
  leBytes 32 (gsCount t 0 + 2 ^ 32 * gsCount t 1 + 2 ^ 64 * gsCount t 2 + 2 ^ 96 * gsCount t 3 + 2 ^ 128 * st)

/-- What a report writes, by its addresses: the summary, and but for REJECT the fault records and the bitmap. -/
def gsParts (b st : Nat) (t : Task) : List (Nat × List Byte) :=
  let fra := gsFra b
  (fra, gsSummary t st) :: if st = 2 then [] else
    [((fra + 32) % 2 ^ 56, t.frecs.flatMap (fun r => leBytes 16 (r.1 + 2 ^ 32 * r.2.1 + 2 ^ 40 * r.2.2.1 + 2 ^ 64 * r.2.2.2))),
     ((fra + 288) % 2 ^ 56, gsBitmap t.codes (gsCnt b))]

def gsReports (b : Nat) : Bool := gsFra b ≠ 0 && gsFra b % 32 = 0

/-- Writes the report area, then the task is over with its status. -/
def gsReport (b st : Nat) (s : State) (t : Task) : EAcc :=
  if !gsReports b then (s, t, some (.over st))
  else tryW ((gsParts b st t).foldl (fun (acc : State × Option EStop) p => match acc.2 with | some _ => acc | none => acc.1.engWrite t.rid p.1 p.2) (s, none)) t
    (fun s => (s, t, some (.over st)))

/-- A running task that ends with ABORT has its report written by the service, where its block has been read (R338, R441, R442). -/
def State.abortReport (s : State) (t : Task) : State :=
  match t.lrec with
  | some b =>
    if t.st = .running && engineOf t.kind = 2 && gsReports b then
      s.asService (fun s => (gsParts b 4 t).foldl (fun s p =>
        match s.translateRange t.rid p.1 true p.2.length with | .ok ls => s.post t.rid p.1 ls p.2 | .error _ => s) s)
    else s
  | none => s

/-- Bytes of the claim past the last element are zero (R336). -/
def gsTail (b : Nat) (s : State) (t : Task) : State :=
  let n := gsCnt b * gsEsz b
  if t.out.isSome then s.outBytes t n (List.replicate (32 * gsUnits b - n) 0) false else s

/-- The work of a GSE task. `rd` holds the status plus 1 once every index is settled, so that a fault of the report resumes there. -/
def gsWork (s : State) (t : Task) : EAcc :=
  withBody s t (fun s t r =>
    let cmd := bitsAt r 192 56
    if cmd % 64 ≠ 0 then (s, t, some (.over 2))
    else
      withBlock cmd s t (fun s t b =>
        if t.rd ≠ 0 then gsReport b (t.rd - 1) s t
        else if s.gsBlockBad t.rid t.kind b || gsRecordBad t r b then gsReport b 2 s { t with rd := 3 }
        else
          let a := engLoop (gsIndex b) (List.range (gsCnt b - t.prog)) s t
          match a.2.2 with
          | none => gsReport b 0 (gsTail b a.1 a.2.1) { a.2.1 with rd := 1 }
          | some (.over st) => gsReport b st a.1 { a.2.1 with rd := st + 1 }
          | some _ => a))

def execTaskGsx (cl slot : Nat) (s : State) : Out := engStep [5] gsWork cl slot s
def execTaskSsx (cl slot : Nat) (s : State) : Out := engStep [6] gsWork cl slot s
def execTaskSsxa (cl slot : Nat) (s : State) : Out := engStep [0x0A] gsWork cl slot s

/-! ## The direct forms (R340) -/

/-- The record of a direct form for the block `b` at `cmd` (R340). -/
def gsRecord (kind x cmd b : Nat) : Nat :=
  kind + b2n (bitAt x 14) * 2 ^ 8 + mkEntry (bitAt x 6) (bitsAt x 0 6) (gsUnits b) * 2 ^ 96 +
    mkEntry (bitAt x 13) (bitsAt x 7 6) (gsUnits b) * 2 ^ 168 + cmd * 2 ^ 192

/-- Do the options of a direct form or its command address break R340? -/
def gsFormBad (kind x cmd : Nat) : Bool :=
  (kind = 5 && bitAt x 6) || (kind ≠ 5 && (bitAt x 13 || bitAt x 14)) || (bitAt x 14 && !bitAt x 13) || cmd % 64 ≠ 0 || 2 ^ 56 ≤ cmd

def gsLane (kind : Nat) (c : Ctx) (s : State) (l : Nat) : State × LaneRes :=
  match s.wave? c.uid with
  | none => (s, .ok {})
  | some w =>
    let tok := tokField c.e.h.d.toNat
    let cmd := s.readRegs c.uid l .s c.e.h.a.toNat 2
    if s.tokBusy c.uid l tok || gsFormBad kind c.e.x.toNat cmd then (s, .fault illegal7)
    else readAtPost cmd 64 w s (fun s b =>
      let r := gsRecord kind c.e.x.toNat cmd b
      postDirect c l w tok r (some b) (fun s t => s.gsBlockBad t.rid kind b || gsRecordBad t r b) s)

def execGsx (h : Hdr) (f : EngFn) (x : BitVec 64) (s : State) : Out := runEng 0xC7 h f x (gsLane 5) (fun _ s => s) s
def execSsx (h : Hdr) (f : EngFn) (x : BitVec 64) (s : State) : Out := runEng 0xC8 h f x (gsLane 6) (fun _ s => s) s
def execSsxa (h : Hdr) (f : EngFn) (x : BitVec 64) (s : State) : Out := runEng 0xC9 h f x (gsLane 0x0A) (fun _ s => s) s

end Sys2Proof.Machine
end

