-- ==== Sys2Proof/Machine/Texture.lean ====
section
/-!
DEFINITION. Textures and derivatives, 0xD8 and 0xDA to 0xDD (R388 to R393).
-/

namespace Sys2Proof.Machine

/-! ## Values on their way through the filter -/

/-- What reads have met: the first uncorrectable address (R201), and the bytes read. -/
structure TMem where
  ue : Option Nat
  locs : List Loc
  deriving DecidableEq, Repr, Inhabited

def TMem.none : TMem := ⟨.none, []⟩
def TMem.or (a b : TMem) : TMem := ⟨a.ue.or b.ue, a.locs ++ b.locs⟩

/-- A filter value: an FP32 pattern with its flags and what its reads have met, or the fault of a read. -/
abbrev TV := Except LFault (Nat × Nat × TMem)

def tv (x : Nat) : TV := .ok (x, 0, .none)

/-- An FP32 operation by RNE on filter values; it ignores ac (R391). -/
def TV.op (g : Fmt → RM → Bool → FV → FV → FRes) (a b : TV) : TV :=
  match a, b with
  | .error e, _ => .error e
  | _, .error e => .error e
  | .ok x, .ok y =>
    let r := g fp32 .rn false (fp32.value x.1) (fp32.value y.1)
    .ok (r.bits, x.2.1 ||| y.2.1 ||| r.fl, x.2.2.or y.2.2)

def TV.add (a b : TV) : TV := TV.op Fmt.addV a b
def TV.sub (a b : TV) : TV := TV.op Fmt.subRes a b
def TV.mul (a b : TV) : TV := TV.op Fmt.mulRes a b

/-- An FP32 pattern of an integer. -/
def f32i (i : Int) : Nat := fp32.ofInt i

/-- The floor of a finite value. -/
def floorFin (neg : Bool) (m : Nat) (e : Int) : Int :=
  let x : Int := if neg then -(m : Int) else m
  if 0 ≤ e then x * (2 ^ e.toNat : Nat) else x / ((2 ^ (-e).toNat : Nat) : Int)

/-- The floor of a pattern; a pattern that is no finite number gives a coordinate that the spec does not state (log 23). -/
def floorBits (x : Nat) : Int :=
  match fp32.value x with
  | .fin n m e => floorFin n m e
  | _ => Config.freeCoord x

/-- ⌊x × 256⌋ ÷ 256 of x = a − ⌊a⌋. -/
def fracOf (a : Nat) : Nat :=
  let d := fp32.subRes .rn false (fp32.value a) (fp32.value (f32i (floorBits a)))
  let q := fp32.mulRes .rn false (fp32.value d.bits) (fp32.value (f32i 256))
  (fp32.divRes .rn false (fp32.value (f32i (floorBits q.bits))) (fp32.value (f32i 256))).bits

/-! ## The descriptor and the sampler (R388, R389) -/

def txCh (d : Nat) : Nat := bitsAt d 56 4 + 1
def txEty (d : Nat) : Nat := bitsAt d 60 4
def txLevels (d : Nat) : Nat := bitsAt d 96 4
def txW (d l : Nat) : Nat := max 1 ((bitsAt d 64 16 + 1) / 2 ^ l)
def txH (d l : Nat) : Nat := max 1 ((bitsAt d 80 16 + 1) / 2 ^ l)

/-- The channel width in bits. -/
def txBits (d : Nat) : Nat := match txEty d with | 0 | 1 => 8 | 2 | 3 => 16 | 4 => 32 | _ => bitsAt d 128 4

def txPitch (d l : Nat) : Nat := if l = 0 then 16 * bitsAt d 104 24 else 16 * ceilDiv (txW d l * txCh d * txBits d) 128

/-- The first byte of a level. -/
def txBase (d : Nat) : Nat → Nat
  | 0 => bitsAt d 0 56
  | l + 1 => txBase d l + txPitch d l * txH d l

/-- Is a descriptor refused? -/
def txBad (d : Nat) : Bool :=
  5 < txEty d || (if txEty d = 5 then (descOf (bitsAt d 128 32)).isNone else bitsAt d 128 32 ≠ 0) ||
  txPitch d 0 < ceilDiv (txW d 0 * txCh d * txBits d) 8 || log2 (max (txW d 0) (txH d 0)) < txLevels d || bitsAt d 100 4 ≠ 0 ||
  bitsAt d 160 96 ≠ 0 || bitsAt d 0 56 % 16 ≠ 0

/-! ## Texels (R390) -/

/-- A plain load at a device virtual address. -/
def State.tread (s : State) (rid va n : Nat) : Except LFault (Nat × TMem) :=
  match s.bytesOfVa rid (va % 2 ^ 56) false n with
  | .error e => .error e
  | .ok ls => (match s.bytesAt ls with | .error e => .error e | .ok bs => .ok (leNat bs, ⟨s.ueAt ls, ls.map (fun x => x.2)⟩))

/-- A stored channel as FP32, with IV where it is a NaN (R391). -/
def txConvert (d p : Nat) : Nat × Nat :=
  let q := fun (n : Int) (k : Int) => (fp32.divRes .rn false (fp32.value (f32i n)) (fp32.value (f32i k))).bits
  let v := fun (f : Fmt) => if (f.value p).isNan then (fp32.nan, flIV) else ((fp32.ofV .rn false (f.value p)).bits, 0)
  match txEty d with
  | 0 => (q p 255, 0)
  | 1 => (q (max (signedOf 8 p) (-127)) 127, 0)
  | 2 => v fp16
  | 3 => v bf16
  | 4 => v fp32
  | _ =>
    match descOf (bitsAt d 128 32) with
    | none => (0, 0)
    | some e => if (e.value p).isNan then (fp32.nan, flIV) else ((e.toFmt fp32 .rn false p).bits, 0)

/-- Channel `c` of texel (x, y) of a level. -/
def State.texel (s : State) (rid d l c x y : Nat) : TV :=
  let bit := 8 * txBase d l + 8 * txPitch d l * y + (x * txCh d + c) * txBits d
  match s.tread rid (bit / 8) ((bit % 8 + txBits d + 7) / 8) with
  | .error e => .error e
  | .ok r =>
    let v := txConvert d (bitsAt r.1 (bit % 8) (txBits d))
    .ok (v.1, v.2, r.2)

/-- A wrapped coordinate; none where the border replaces the texel. -/
def wrapCoord (mode : Nat) (i : Int) (n : Nat) : Option Nat :=
  match mode with
  | 0 => some (i % (n : Int)).toNat
  | 1 => some (clampInt 0 ((n : Int) - 1) i).toNat
  | 2 => let k := (i % ((2 * n : Nat) : Int)).toNat; some (if k < n then k else 2 * n - 1 - k)
  | _ => if 0 ≤ i && i < (n : Int) then some i.toNat else none

/-- A texel at integer coordinates under the sampler's wrapping. -/
def State.wrapTexel (s : State) (rid d smp l c : Nat) (x y : Int) : TV :=
  match wrapCoord (bitsAt smp 2 2) x (txW d l), wrapCoord (bitsAt smp 4 2) y (txH d l) with
  | some x, some y => s.texel rid d l c x y
  | _, _ => tv (if bitAt smp 6 then 0x3F800000 else 0)

/-! ## Filtering (R391) -/

/-- fma(u, w, k) as a pattern with its flags. -/
def texPos (u w k : Nat) : FRes := fp32.fmaRes .rn false (fp32.value u) (fp32.value (f32i w)) (fp32.value k)

/-- One level. -/
def State.texLevel (s : State) (rid d smp c u v l : Nat) : TV :=
  if !bitAt smp 0 then
    let x := texPos u (txW d l) 0
    let y := texPos v (txH d l) 0
    match s.wrapTexel rid d smp l c (floorBits x.bits) (floorBits y.bits) with
    | .error e => .error e
    | .ok r => .ok (r.1, r.2.1 ||| x.fl ||| y.fl, r.2.2)
  else
    let x := texPos u (txW d l) 0xBF000000
    let y := texPos v (txH d l) 0xBF000000
    let x0 := floorBits x.bits
    let y0 := floorBits y.bits
    let a := tv (fracOf x.bits)
    let b := tv (fracOf y.bits)
    let one := tv 0x3F800000
    let t := fun (i j : Int) => s.wrapTexel rid d smp l c (x0 + i) (y0 + j)
    let row := fun j => TV.add (TV.mul (TV.sub one a) (t 0 j)) (TV.mul a (t 1 j))
    let r := TV.add (TV.mul (row 0) (TV.sub one b)) (TV.mul (row 1) b)
    match r with
    | .error e => .error e
    | .ok r => .ok (r.1, r.2.1 ||| x.fl ||| y.fl, r.2.2)

/-- The level of detail as used: clamped to 0 to L, NaN as 0. -/
def lodClamp (x top : Nat) : Nat :=
  match fp32.value x with
  | .nan _ => 0
  | v => if cmpV v (.fin false 0 0) ≤ 0 then 0 else if 0 ≤ cmpV v (fp32.value (f32i top)) then f32i top else x

/-- The filtered value of a channel at a level of detail. -/
def State.texSample (s : State) (rid d smp c u v lod : Nat) : TV :=
  let top := txLevels d
  let x := lodClamp lod top
  if !bitAt smp 1 then
    let l := floorBits (fp32.addV .rn false (fp32.value x) (fp32.value 0x3F000000)).bits
    s.texLevel rid d smp c u v (clampInt 0 top l).toNat
  else
    let l0 := (floorBits x).toNat
    let l1 := min (l0 + 1) top
    let f := tv (fracOf x)
    TV.add (TV.mul (s.texLevel rid d smp c u v l0) (TV.sub (tv 0x3F800000) f)) (TV.mul (s.texLevel rid d smp c u v l1) f)

/-! ## Derivatives (R393) -/

/-- The operands of a difference of lanes `hi` and `lo` of a quad, or none where one of them is not active. -/
def quadPair (c : Ctx) (s : State) (r hi lo : Nat) : Option (Nat × Nat) :=
  if c.all.contains hi && c.all.contains lo then some ((s.readV c.uid hi r).toNat, (s.readV c.uid lo r).toNat) else none

/-- The active lanes of an instruction that issues again with some lanes of its packet: those of the packet that wait with a fault are active too (R33). -/
def Ctx.withFailed (c : Ctx) (s : State) (l : Nat) : Ctx :=
  { c with all := c.all ++ ((List.range 4).map (fun j => l / 4 * 4 + j)).filter (fun k =>
      let t := s.thread c.uid k
      t.failure.isSome && t.pc = c.pc && t.pkt = (s.thread c.uid l).pkt) }

/-- A coarse difference in a register, as TEX takes it: +0.0 where a lane of the pair is not active. -/
def coarse (c : Ctx) (s : State) (l r : Nat) (isY : Bool) : TV :=
  let q := l / 4 * 4
  match quadPair (c.withFailed s l) s r (if isY then q + 2 else q + 1) q with
  | none => tv 0
  | some p => TV.sub (tv p.1) (tv p.2)

/-- |a| × n. -/
def TV.scaled (a : TV) (n : Nat) : TV :=
  match a with
  | .error e => .error e
  | .ok x => TV.mul (.ok (x.1 % 2 ^ 31, x.2)) (tv (f32i n))

def TV.max (a b : TV) : TV := TV.op (fun f _ _ x y =>
  f.minmax false true false (match x with | .nan _ => f.nan | v => (f.ofV .rn false v).bits) (match y with | .nan _ => f.nan | v => (f.ofV .rn false v).bits)) a b

/-- λ before it is clamped (R391): explicit, implicit or of the base level. -/
def texLod (c : Ctx) (s : State) (l a lodm d smp : Nat) : TV :=
  let bias := (fp32.divRes .rn false (fp32.value (f32i (signedOf 8 (bitsAt smp 8 8)))) (fp32.value (f32i 16))).bits
  match lodm with
  | 0 => TV.add (tv (s.readV c.uid l (a + 2)).toNat) (tv bias)
  | 1 =>
    let w := txW d 0
    let h := txH d 0
    let rho := TV.max (TV.max (TV.max ((coarse c s l a false).scaled w) ((coarse c s l (a + 1) false).scaled h))
      ((coarse c s l a true).scaled w)) ((coarse c s l (a + 1) true).scaled h)
    match rho with
    | .error e => .error e
    | .ok r => let q := fp32.approxRes false 0x2B r.1; TV.add (.ok (q.bits, r.2.1 ||| q.fl, r.2.2)) (tv bias)
  | _ => tv 0

/-! ## The instructions (R377, R392) -/

/-- The flags that a filter may set. -/
def texFlags (x : Nat) : Nat := x &&& (flIV ||| flOF)

/-- The channels of a sampling: their patterns, flags and the first uncorrectable address. -/
def State.texChannels (s : State) (c : Ctx) (l a lodm d smp first n : Nat) : Except LFault (List Nat × Nat × TMem) :=
  match s.wave? c.uid, texLod c s l a lodm d smp with
  | none, _ => .error illegal7
  | _, .error e => .error e
  | some w, .ok lod =>
    let u := (s.readV c.uid l a).toNat
    let v := (s.readV c.uid l (a + 1)).toNat
    (List.range n).foldl (fun acc i =>
      match acc with
      | .error e => .error e
      | .ok r =>
        match s.texSample w.rid d smp (first + i) u v lod.1 with
        | .error e => .error e
        | .ok q => .ok (r.1 ++ [q.1], r.2.1 ||| texFlags q.2.1, r.2.2.or q.2.2)) (.ok ([], texFlags lod.2.1, .none))

/-- A lane's result, with the bytes that it has read. -/
abbrev TRes := LaneRes × List Loc

/-- Reads a texture descriptor in a lane, refusing a bad one; uncorrectable data ends the lane's result (R201). -/
def withDesc (c : Ctx) (s : State) (va : Nat) (f : Wave → Nat → TRes) : TRes :=
  match s.wave? c.uid with
  | none => (.fault illegal7, [])
  | some w =>
    match s.tread w.rid va 32 with
    | .error e => (.fault e, [])
    | .ok (d, m) =>
      if m.ue.isSome then (.ok { ue := m.ue, st := admitted c }, m.locs)
      else if txBad d then (.fault illegal7, m.locs)
      else let r := f w d; (r.1, m.locs ++ r.2)

/-- The scalars of TEX and TLD: sampler, first channel, descriptor address. -/
def texArgs (c : Ctx) (s : State) : Nat × Nat × Nat :=
  let k := c.e.h.c.toNat
  (s.readRegs c.uid 0 .s k 1, s.readRegs c.uid 0 .s (k + 1) 1 % 16, s.readRegs c.uid 0 .s (k + 2) 2 % 2 ^ 56)

/-- The result of a sampling as registers. -/
def texOut (c : Ctx) (l d : Nat) (r : List Nat × Nat × TMem) : TRes :=
  (.ok { regs := regWrites l .v d r.1.length (wordsNat (r.1.map (BitVec.ofNat 32))), flags := BitVec.ofNat 7 r.2.1, ue := r.2.2.ue,
         st := admitted c }, r.2.2.locs)

/-- Is the sampler word refused (R389)? -/
def samplerBad (smp : Nat) : Bool := bitAt smp 7 || bitsAt smp 16 16 ≠ 0

def texLane (c : Ctx) (s : State) (l : Nat) : TRes :=
  let x := c.e.x.toNat
  let n := bitsAt x 0 4
  let lodm := bitsAt x 9 2
  let a := texArgs c s
  if samplerBad a.1 then (.fault illegal7, [])
  else withDesc c s a.2.2 (fun w d =>
    if txCh d ≤ a.2.1 + n || (lodm = 1 && !w.quadFlag) then (.fault illegal7, [])
    else
      match s.texChannels c l c.e.h.a.toNat lodm d a.1 a.2.1 (n + 1) with
      | .error e => (.fault e, [])
      | .ok r => texOut c l c.e.h.d.toNat r)

/-- A lane's reads are performed: they have their places in the order of memory, and touch no line of a data cache. -/
def texStep (g : Ctx → State → Nat → TRes) (c : Ctx) (s : State) (l : Nat) : State × LaneRes :=
  let r := g c s l
  match r.1 with
  | .ok _ => (((s.noteRead r.2 none).meetUe r.2).noteLevel (((s.wave? c.uid).map (fun w => 4 * w.cl + w.core)).getD 0) r.2, r.1)
  | _ => (s, r.1)

/-- Would an effect in a lane wait? -/
def wouldHold (g : Ctx → State → Nat → LaneRes) (c : Ctx) (s : State) (l : Nat) : Bool :=
  match (s.asIssued c.uid l (fun s => (s, g c (s.asLane c.uid l) l))).2 with | .fault e => e.holds | _ => false

/-- An effect that accesses memory, issued quad-whole: where the access of one member of a quad waits, every active member issues the instruction again, together
(R33). -/
def quadWise (pre : Ctx → State → Nat → LaneRes) (g : Ctx → State → Nat → State × LaneRes) (c : Ctx) (s : State) : State × WaveOut :=
  let bad := sortedSet ((c.on.filter (wouldHold pre c s)).map (fun l => l / 4))
  let r := laneWise (fun c s l =>
    if !bad.contains (l / 4) then byLane g c s l
    else if wouldHold pre c s l then ((byLane g c s l).1, .hold .quad)
    else match (s.asIssued c.uid l (fun s => (s, pre c (s.asLane c.uid l) l))).2 with
      | .fault _ => byLane g c s l
      | _ => (s, .hold .quad)) c s
  let off := c.all.filter (fun l => !c.on.contains l && bad.contains (l / 4))
  (off.foldl (fun s l => s.updThread c.uid l (fun t => { t with pc := c.pc })) r.1, { r.2 with lanes := r.2.lanes ++ off.map (fun l => (l, .hold .quad)) })

/-- A texture form: quad-whole with implicit derivatives. -/
def texWise (quad : Bool) (g : Ctx → State → Nat → TRes) : Ctx → State → State × WaveOut :=
  if quad then quadWise (fun c s l => (g c s l).1) (texStep g) else memWise (texStep g)

def runTex (op : BitVec 8) (h : Hdr) (f : EngFn) (x : BitVec 64) (quad : Bool) (g : Ctx → State → Nat → TRes) (s : State) : Out :=
  .next (runPacket (enc op h (engFnBits f) x) (texWise quad g) s)

def execTex (h : Hdr) (f : EngFn) (x : BitVec 64) (s : State) : Out := runTex 0xD8 h f x (decide (bitsAt x.toNat 9 2 = 1)) texLane s

def tldLane (c : Ctx) (s : State) (l : Nat) : TRes :=
  let n := bitsAt c.e.x.toNat 0 4
  let a := texArgs c s
  let reg := fun i => (s.readV c.uid l (c.e.h.a.toNat + i)).toNat
  withDesc c s a.2.2 (fun w d =>
    if txCh d ≤ a.2.1 + n then (.fault illegal7, [])
    else if txLevels d < reg 2 || txW d (reg 2) ≤ reg 0 || txH d (reg 2) ≤ reg 1 then
      texOut c l c.e.h.d.toNat (List.replicate (n + 1) 0, 0, .none)
    else
      let r := (List.range (n + 1)).foldl (fun (acc : Except LFault (List Nat × Nat × TMem)) i =>
        match acc, s.texel w.rid d (reg 2) (a.2.1 + i) (reg 0) (reg 1) with
        | .error e, _ => .error e
        | _, .error e => .error e
        | .ok r, .ok q => .ok (r.1 ++ [q.1], 0, r.2.2.or q.2.2)) (.ok ([], 0, .none))
      match r with
      | .error e => (.fault e, [])
      | .ok r => texOut c l c.e.h.d.toNat r)

def execTld (h : Hdr) (f : EngFn) (x : BitVec 64) (s : State) : Out := runTex 0xDA h f x false tldLane s

def tqryLane (f : EngFn) (c : Ctx) (s : State) (l : Nat) : TRes :=
  let lv := (s.readV c.uid l c.e.h.a.toNat).toNat
  withDesc c s (s.readRegs c.uid 0 .s c.e.h.c.toNat 2 % 2 ^ 56) (fun _ d =>
    if f.sub = 0 then
      texOut c l c.e.h.d.toNat ((if txLevels d < lv then [0, 0] else [txW d lv, txH d lv]), 0, .none)
    else texOut c l c.e.h.d.toNat ([txLevels d + 2 ^ 4 * (txCh d - 1) + 2 ^ 8 * txEty d], 0, .none))

def execTqry (h : Hdr) (f : EngFn) (x : BitVec 64) (s : State) : Out := runTex 0xDB h f x false (tqryLane f) s

/-- An instruction that only computes. -/
def runPure (op : BitVec 8) (h : Hdr) (f : EngFn) (x : BitVec 64) (g : Ctx → State → Nat → LaneRes) (s : State) : Out :=
  .next (runPacket (enc op h (engFnBits f) x) (pureWise g) s)

/-- The lanes of the difference that a member of a quad receives (R393). -/
def diffLanes (isY coarseForm : Bool) (l : Nat) : Nat × Nat :=
  let q := l / 4 * 4
  let k := l % 4
  if isY then (let c := if coarseForm then 0 else k % 2; (q + 2 + c, q + c))
  else (let r := if coarseForm then 0 else k / 2 * 2; (q + 1 + r, q + r))

/-- DDX and DDY: FSUB.f32 by RNE, ac.FZ and ac.DZI applying (R113). -/
def diffLane (isY : Bool) (f : EngFn) (c : Ctx) (s : State) (l : Nat) : LaneRes :=
  match s.wave? c.uid with
  | none => .fault illegal7
  | some w =>
    let p := diffLanes isY (f.sub = 1) l
    let ac := s.acOf c.uid
    if !w.quadFlag then .fault illegal7
    else
      match quadPair c s c.e.h.a.toNat p.1 p.2 with
      | none => .ok { regs := regWrites l .v c.e.h.d.toNat 1 0 }
      | some q =>
        let v := fun x => fp32.value (fp32.daz (acDZI ac) x)
        let r := fp32.subRes .rn (acFZ ac) (v q.1) (v q.2)
        .ok { regs := regWrites l .v c.e.h.d.toNat 1 r.bits, flags := BitVec.ofNat 7 r.fl }

def execDdx (h : Hdr) (f : EngFn) (x : BitVec 64) (s : State) : Out := runPure 0xDC h f x (diffLane false f) s
def execDdy (h : Hdr) (f : EngFn) (x : BitVec 64) (s : State) : Out := runPure 0xDD h f x (diffLane true f) s

end Sys2Proof.Machine
end

