-- ==== Sys2Proof/Machine/Neural.lean ====
section
/-!
DEFINITION. Weight sets and neural calls (R341 to R349), the Asterism unit (R350 to R357), and the instructions NCALL to NFLSH, TEXN and WTBL
(R358 to R363).
-/

namespace Sys2Proof.Machine

/-! ## The record (R342, R343) -/

def nsNL (r : Nat) : Nat := bitsAt r 0 2
def nsNOUT (r : Nat) : Nat := bitsAt r 7 4
def nsAW (r : Nat) : Nat := bitsAt r 11 3
def nsAlpha (r : Nat) : Nat := bitsAt r 16 16
/-- A field of layer `l`, by its place in layer 0. -/
def nsField (r l o n : Nat) : Nat := bitsAt r (o + 240 * l) n
def nsWadr (r l : Nat) : Nat := nsField r l 64 56
def nsBadr (r l : Nat) : Nat := nsField r l 128 56
/-- The weight format: R115 speaks of a descriptor word, R342 lays out a code of 2 bits; the model follows R342 (log 37). -/
def nsFmt (r l : Nat) : Nat := nsField r l 184 2
def nsAct (r l : Nat) : Nat := nsField r l 186 3
def nsSadr (r l : Nat) : Nat := nsField r l 192 56
/-- The width n of layer `l`, and of what it is fed. -/
def nsWidth (r l : Nat) : Nat := nsField r l 120 8 + 1
def nsFed (r l : Nat) : Nat := match l with | 0 => nsNIN r + 1 | k + 1 => nsWidth r k
/-- Bits of a weight, and bytes of a weight row (R344). -/
def nsBits (r l : Nat) : Nat := match nsFmt r l with | 0 => 16 | 3 => 4 | _ => 8
def nsRow (r l : Nat) : Nat := 16 * ceilDiv (nsFed r l * nsBits r l) 128

/-- Is a record valid (R343)? -/
def nsOk (r : Nat) : Bool :=
  bitAt r 14 && !bitAt r 15 && bitsAt r 32 32 = 0 && nsWidth r (nsNL r) = nsNOUT r + 1 &&
  (List.range 4).all (fun l =>
    if nsNL r < l then nsField r l 64 240 = 0
    else
      nsField r l 189 3 = 0 && nsField r l 248 56 = 0 && nsAct r l ≤ 5 && nsWadr r l % 16 = 0 && nsBadr r l % 4 = 0 &&
      (nsFmt r l = 3 || nsSadr r l = 0) && (l = nsNL r || (nsWidth r l % 8 = 0 && nsWidth r l ≤ 128)))

/-! ## What a call computes (R344 to R348) -/

/-- A weight as CE16, with the flags of its expansion (R345). -/
def nsWeight (r l p x : Nat) : FRes :=
  match nsFmt r l with
  | 0 => ⟨p, 0⟩
  | 1 => expandV (Desc.value ⟨8, 4, 7, 1⟩ p) 127 0x3F800000
  | 2 => expandV (Desc.value ⟨8, 5, 15, 0⟩ p) 127 0x3F800000
  | _ => expandV (Desc.value ⟨4, 2, 1, 2⟩ p) x 0x3F800000

/-- A layer as read: its rows of CE16 weights, its biases, and the flags of the expansions. -/
structure Layer where
  rows : List (List Nat)
  bias : List Nat
  fl : Nat
  deriving DecidableEq, Repr, Inhabited

/-- Reads rows of bytes for the outputs of a layer. -/
def State.nsRows (s : State) (rid base stride len n : Nat) : Except LFault (List Nat) :=
  (List.range n).foldl (fun acc j =>
    match acc with
    | .error e => .error e
    | .ok l => (match s.readVa rid ((base + stride * j) % 2 ^ 56) len with | .error e => .error e | .ok v => .ok (l ++ [v]))) (.ok [])

/-- The weights of one output from its row and its scales. -/
def nsRowOf (r l w sc : Nat) : List FRes :=
  (List.range (nsFed r l)).map (fun i => nsWeight r l (bitsAt w (i * nsBits r l) (nsBits r l)) (bitsAt sc (8 * (i / 32)) 8))

/-- Reads a layer (R344, R354). -/
def State.nsLayer (s : State) (rid r l : Nat) : Except LFault Layer :=
  let n := nsWidth r l
  let m := nsFed r l
  match s.nsRows rid (nsWadr r l) (nsRow r l) ((m * nsBits r l + 7) / 8) n with
  | .error e => .error e
  | .ok ws =>
    match (if nsBadr r l = 0 then .ok (List.replicate n 0) else s.nsRows rid (nsBadr r l) 4 4 n) with
    | .error e => .error e
    | .ok bias =>
      match (if nsFmt r l = 3 then s.nsRows rid (nsSadr r l) (ceilDiv m 32) (ceilDiv m 32) n else .ok (List.replicate n 0)) with
      | .error e => .error e
      | .ok scs =>
        let rows := (ws.zip scs).map (fun p => nsRowOf r l p.1 p.2)
        .ok ⟨rows.map (fun q => q.map (fun w => w.bits)), bias, rows.foldl (fun f q => q.foldl (fun f w => f ||| w.fl) f) 0⟩

/-- Groups of 32 consecutive positions. -/
def groups32 (l : List Prod) : List (List Prod) :=
  (List.range (ceilDiv l.length 32)).map (fun g => (l.drop (32 * g)).take 32)

/-- The activations (R347). -/
def nsActOf (r l z : Nat) : FRes :=
  let v := fp32.value z
  match nsAct r l with
  | 0 => ⟨z, 0⟩
  | 1 => if v.isNan then ⟨fp32.nan, 0⟩ else if 0 < cmpV v (.fin false 0 0) then ⟨z, 0⟩ else ⟨0, 0⟩
  | 2 =>
    if v.isNan then ⟨fp32.nan, 0⟩
    else if 0 ≤ cmpV v (.fin false 0 0) then ⟨z, 0⟩
    else
      let p := fp32.mulRes .rn false (bf16.value (nsAlpha r)) v
      ⟨p.bits, p.fl &&& (flNX ||| flOF ||| flUF)⟩
  | 3 => fp32.approxRes false 0x2F z
  | 4 => fp32.approxRes false 0x2E z
  | _ => fp32.approxRes false 0x2C z

/-- One output of a layer for one row. -/
def nsOut (r l : Nat) (w : List Nat) (b : Nat) (a : List Nat) : FRes :=
  let z := dotGroups (nsAW r) ⟨b, 0⟩ (groups32 ((w.zip a).map (fun p => ⟨p.1, p.2, false⟩)))
  (nsActOf r l z.bits).or z.fl

/-- One row through one layer: FP32 results of the last layer, else the CE16 inputs of the next. -/
def nsRowStep (r l : Nat) (L : Layer) (x : TRow) : TRow :=
  let ys := (L.rows.zip L.bias).map (fun p => nsOut r l p.1 p.2 x.vals)
  let ys := if l < nsNL r then ys.map (fun y => (toCe16 y.bits).or y.fl) else ys
  ⟨ys.map (fun y => y.bits), ys.foldl (fun f y => f ||| y.fl) (x.fl ||| L.fl)⟩

/-! ## Bins (R350, R351) -/

/-- The thread of a call goes on: its call has a row. -/
def State.callSeated (s : State) (c : ACall) : State :=
  match (s.thread c.uid c.lane).st with
  | .admission .call settle => s.resume c.uid c.lane (s.thread c.uid c.lane).pc settle
  | _ => s

/-- Opens a bin with a call. -/
def State.openBin (s : State) (cl : Nat) (c : ACall) : State :=
  let used := (s.asu.bins.filter (fun b => b.cl = cl)).map (fun b => b.n)
  let n := ((List.range 16).find? (fun i => !used.contains i)).getD 0
  let b : Bin := { cl := cl, n := n, rid := c.rid, key := c.key, record := c.record, opened := s.clk, seq := s.fresh, trig := false,
                   calls := [c] }
  ({ s with fresh := s.fresh + 1 }).updAsu (fun a => { a with bins := a.bins ++ [b] })

/-- A call joins a bin, which is triggered when it is full. -/
def State.joinBin (s : State) (b : Bin) (c : ACall) : State :=
  (s.updAsu (fun a => { a with bins := a.bins.map (fun x => if x.seq = b.seq then { x with calls := x.calls ++ [c] } else x) })).flushBins
    (fun x => x.seq = b.seq && 64 ≤ x.calls.length)

/-- The bin of a cluster that a call joins (R350). -/
def State.binFor (s : State) (cl : Nat) (c : ACall) : Option Bin :=
  s.asu.bins.find? (fun b => b.cl = cl && b.rid = c.rid && b.key = c.key && !b.trig && b.calls.length < 64)

/-- The first call that waits at a cluster's unit joins a bin, opens one, or displaces the oldest; none where it waits on, while the tile buffer has no
room (R350). -/
def State.seatCall (s : State) (cl : Nat) (c : ACall) : Option State :=
  let mine := s.asu.bins.filter (fun b => b.cl = cl)
  match s.binFor cl c with
  | some b => some ((s.joinBin b c).callSeated c)
  | none =>
    if mine.length < 16 then some ((s.openBin cl c).callSeated c)
    else
      match oldestBin mine with
      | none => none
      | some b => if s.tileRoom cl then some (((s.dispatchBin b).openBin cl c).callSeated c) else none

/-- The calls that wait at a cluster's unit are placed in their order, up to the first that waits on; the bin that it would displace is triggered. -/
def State.seatCalls (cl : Nat) : Nat → State → State
  | 0, s => s
  | k + 1, s =>
    match findIdx (fun (x : Nat × ACall) => x.1 = cl) s.asu.waiting with
    | none => s
    | some (i, x) =>
      match (s.updAsu (fun a => { a with waiting := a.waiting.eraseIdx i })).seatCall cl x.2 with
      | some s' => State.seatCalls cl k s'
      | none => let o := (oldestBin (s.asu.bins.filter (fun b => b.cl = cl))).map (fun b => b.seq); s.flushBins (fun b => some b.seq = o)

/-- ASU_CALL_BIN: the calls that have reached a cluster's unit, those of one packet together (R350). -/
def execAsuCallBin (cl : Nat) (s : State) : Out := .next (s.seatCalls cl s.asu.waiting.length)

/-- Has a bin reached the age ASUCTL.TO? -/
def State.binDue (s : State) (b : Bin) : Bool := decide (b.opened + bitsAt (s.csr (clReg b.cl 7)) 0 16 ≤ s.clk)

/-- BIN_AGE_DISPATCH: a bin has reached its age, and those of its cluster that have enter with it, in the order in which they opened (R351); the calls of a packet
join their bins in one step, before it. -/
def execBinAgeDispatch (cl bin : Nat) (s : State) : Out :=
  .next (if s.asu.bins.any (fun b => b.cl = cl && b.n = bin && s.binDue b) then s.flushBins (fun b => b.cl = cl && s.binDue b) else s)

/-! ## Tiles (R353 to R357) -/

/-- TILE_ENTER: the oldest triggered bin of a cluster enters the tile buffer when it has room; a bin does so at once, so that none waits beside room. -/
def execTileEnter (cl : Nat) (s : State) : Out :=
  .next (match oldestBin (s.asu.bins.filter (fun b => b.cl = cl && b.trig)) with
    | none => s
    | some b => if s.tileRoom cl then s.dispatchBin b else s)

def State.updTile (s : State) (cl id : Nat) (f : Tile → Tile) : State :=
  s.updAsu (fun a => { a with tiles := a.tiles.map (fun (t : Tile) => if t.cl = cl && t.id = id then f t else t) })

/-- A tile has read all that it reads, or is gone: the WTBL.sync operations that wait for it go on (R363). -/
def State.tileRead (s : State) (id : Nat) : State :=
  (s.updAsu (fun a => { a with syncs := a.syncs.map (fun (y : WSync) => { y with tiles := y.tiles.filter (fun k => k ≠ id) }) })).landOwed

/-- What a layer is read from: addresses and lengths (R344). -/
def nsSpans (r l : Nat) : List (Nat × Nat) :=
  let n := nsWidth r l
  let m := nsFed r l
  (List.range n).flatMap (fun j =>
    [((nsWadr r l + nsRow r l * j) % 2 ^ 56, (m * nsBits r l + 7) / 8)] ++ (if nsBadr r l = 0 then [] else [((nsBadr r l + 4 * j) % 2 ^ 56, 4)]) ++
      (if nsFmt r l = 3 then [((nsSadr r l + ceilDiv m 32 * j) % 2 ^ 56, ceilDiv m 32)] else []))

/-- The 128-byte lines of a layer, and of a weight set, by virtual line number, ascending (R360). -/
def nsLayerLines (r l : Nat) : List Nat :=
  let span := fun (a n : Nat) => if n = 0 then ([] : List Nat) else (List.range ((a + n - 1) / 128 - a / 128 + 1)).map (fun i => (a / 128 + i) % 2 ^ 49)
  let n := nsWidth r l
  sortedSet (span (nsWadr r l) (nsRow r l * n) ++ (if nsBadr r l = 0 then [] else span (nsBadr r l) (4 * n)) ++
    (if nsFmt r l = 3 then span (nsSadr r l) (n * ceilDiv (nsFed r l) 32) else []))

def nsLines (r : Nat) : List Nat := sortedSet ((List.range (nsNL r + 1)).flatMap (nsLayerLines r))

/-- The bytes of some spans. -/
def State.spanLocs (s : State) (rid : Nat) (l : List (Nat × Nat)) : List Loc :=
  l.flatMap (fun p => match s.bytesOfVa rid p.1 false p.2 with | .ok ls => ls.map (fun x => x.2) | .error _ => [])

/-- What a tile reads is read by each of its calls: the numbers of its points join their views (R354). -/
def updCalls (id : Nat) (s : State) (f : Place → View → View) : State :=
  let is := (f .op (View.of [])).ids
  (s.updReader f).updAsu (fun a => { a with tiles := a.tiles.map (fun (t : Tile) =>
    if t.id = id then { t with calls := t.calls.map (fun c => { c with view := joinIds c.view is }) } else t) })

/-- The layers of a placed tile from where it stands, `k` of them at most: each is read, through the weight cache, and applied to every row, until a read
faults or waits. -/
def State.tileLayers : Nat → State → Tile → State × Tile
  | 0, s, t => (s, t)
  | k + 1, s, t =>
    match s.nsLayer t.rid t.record t.layer with
    | .error e => (if e.holds then s.hold t.rid e 0 [] else s.meetUeAt t.rid e, { t with fault := some e.pair })
    | .ok L =>
      let s := ((s.readBy (updCalls t.id) (s.spanLocs t.rid (nsSpans t.record t.layer)) none).1.dropRops (.tile t.id)).wcDemand t.cl t.rid (nsLayerLines t.record t.layer)
      let t' := { t with rows := t.rows.map (nsRowStep t.record t.layer L) }
      if t.layer = nsNL t.record then (s, { t' with ready := true }) else State.tileLayers k s { t' with layer := t.layer + 1 }

/-- The calls of a tile act, each an operation of its own: their reads follow what each of them follows (R216, R226, R354). -/
def State.asTile (s : State) (t : Tile) : State := s.asOp (.tile t.id) (.cluster t.cl) (t.calls.foldl (fun v c => joinIds v c.view) [])

/-- Runs a placed tile: its calls have what it has read for them. -/
def State.runTile (s : State) (t : Tile) : State :=
  let r := (s.asTile t).tileLayers 4 { t with susp := false }
  let s := r.1.opDone.updTile t.cl t.id (fun x => { r.2 with calls := x.calls })
  if r.2.ready then (s.tileRead t.id).endReads (.tile t.id) else s

/-- Is an ordinary matrix task ready that could fire on an engine now: its claims would be granted, and R308 would give it that engine? -/
def State.ordinaryReady (s : State) (cl u : Nat) : Bool :=
  let free := (List.range 4).filter (fun k => s.engineFree cl 1 k)
  s.cts.tasks.any (fun t => t.cl = cl && t.st = .ready && engineOf t.kind = 1 && s.claimsOk t &&
    (match s.ringCore t with | some k => if free.contains k then k = u else free.contains u | none => free.head? = some u))

/-- TILE_PLACE: the tile that holds an engine goes on; or a tile whose fault has been served takes its engine again once that is free; or the oldest tile of the
buffer takes a free one, unless an ordinary task is to take it next (R353). -/
def execTilePlace (cl core : Nat) (s : State) : Out :=
  .next (
    let mine := s.asu.tiles.filter (fun t => t.cl = cl)
    let here := fun (susp : Bool) => mine.find? (fun t => t.unit = some core && !t.ready && t.fault.isNone && t.susp = susp)
    match here false, (if s.engineFree cl 1 core then here true else none) with
    | some t, _ | none, some t => s.runTile t
    | none, none =>
      match mine.find? (fun t => t.unit.isNone) with
      | none => s
      | some t =>
        let wait := s.ordinaryReady cl core
        if 4 ≤ core || !s.engineFree cl 1 core || (wait && s.ordinaryNext cl core) then s
        else
          let run := if wait then Sparse.get 0 s.asu.run (4 * cl + core) + 1 else 0
          let t' := { t with unit := some core }
          let s := s.updAsu (fun a => { a with run := Sparse.put 0 a.run (4 * cl + core) run,
                                               tiles := a.tiles.map (fun x => if x.id = t.id then t' else x) })
          (s.runTile t').settleBins)

/-- The completion of a call: what follows its token follows its accesses (R226). -/
def State.endCall (s : State) (t : Tile) (c : ACall) (f : State → State) : State :=
  ((f (s.asOp (.tile t.id) (.cluster t.cl) c.view)).noteEnd c.rid c.uid).opDone

/-- The results of a row reach its caller: the registers that no later instruction has written, the flags, then the token (R355). The results of
a thread that has exited are discarded (R356). -/
def State.writeRow (s : State) (t : Tile) (c : ACall) (x : TRow) : State :=
  s.endCall t c (fun s =>
    if (s.thread c.uid c.lane).st = .exited then s.clearTok c.uid c.tok c.lane
    else
      let outs := ((List.range (min c.nout x.vals.length)).filter (fun i => !c.dropped.contains i)).map (fun i =>
        (RegRef.v (c.first + i) c.lane, BitVec.ofNat 32 (nth x.vals i)))
      let s := s.updWave c.uid (fun w => outs.foldl (fun w r => w.setReg r.1 r.2) w)
      (s.orFlags c.uid c.lane (BitVec.ofNat 7 x.fl)).clearTok c.uid c.tok c.lane)

/-- TILE_ROW_WRITEBACK: the next row of a tile that has computed every layer; the engine is free after the last one. -/
def execTileRowWriteback (cl tile : Nat) (s : State) : Out :=
  .next (match s.asu.tiles.find? (fun t => t.cl = cl && t.id = tile && t.ready) with
    | none => s
    | some t =>
      let s := if t.calls.length ≤ t.done + 1 then s.updAsu (fun a => { a with tiles := a.tiles.filter (fun x => x.id ≠ t.id) })
               else s.updTile cl tile (fun t => { t with done := t.done + 1 })
      match t.calls.drop t.done, t.rows.drop t.done with
      | c :: _, x :: _ => s.writeRow t c x
      | _, _ => s)

/-- A tile ends: every real call clears its token with a failed code, those of one packet together (R35, R357). -/
def State.failTile (s : State) (t : Tile) (code info : Nat) : State :=
  let s := (((s.updAsu (fun a => { a with tiles := a.tiles.filter (fun x => x.id ≠ t.id) })).dropRops (.tile t.id)).tileRead t.id).endReads (.tile t.id)
  let rest := t.calls.drop t.done
  let s := rest.foldl (fun s c =>
    let s := s.updWave c.uid (fun w => ({ w with kfail := Sparse.put (0, 0) w.kfail (128 * c.tok + c.lane) (code, info) }.setTok c.tok c.lane false).noteTok c.tok c.lane c.view)
    ((s.asOp (.tile t.id) (.cluster t.cl) c.view).noteEnd c.rid c.uid).opDone) s
  ((sortedSet (rest.map (fun c => c.uid))).foldl (fun s u => s.evalToks u ((rest.filter (fun c => c.uid = u)).map (fun c => c.lane))) s).settleBins

/-- TILE_FAIL: a read met uncorrectable data. A fault that its service ends is handled where TRET acts. -/
def execTileFail (cl tile code : Nat) (s : State) : Out :=
  .next (match s.asu.tiles.find? (fun t => t.cl = cl && t.id = tile) with
    | none => s
    | some t =>
      match t.fault with
      | some f => if f.1 = fcMemUe && code = fcMemUe && !t.susp then s.failTile t f.1 f.2 else s
      | none => s)

/-! ## The instructions (R358 to R361) -/

/-- The record of a handle: its address and bits, or the refusal (R341, R359). -/
def State.nsRead (s : State) (w : Wave) (h : Nat) : Except LFault (Nat × Nat) :=
  let a := (segBaseOf (w.seg 6) + 128 * h) % 2 ^ 56
  if segLimit (w.seg 6) < 128 * h + 128 then .error ⟨fcHandle, h⟩
  else
    match s.readVa w.rid a 128 with
    | .error e => .error e
    | .ok r => if nsOk r then .ok (a, r) else .error ⟨fcHandle, h⟩

/-- A call leaves its thread for the unit: its token is pending, and results on their way to its range are discarded (R355, R359). -/
def State.startCall (s : State) (w : Wave) (c : ACall) : State :=
  let rs := (List.range c.nout).map (fun i => RegRef.v (c.first + i) c.lane)
  let s := (s.dropPend c.uid [c.lane] rs).updWave c.uid (fun w => (w.clearFailed c.tok c.lane).setTok c.tok c.lane true)
  s.updAsu (fun a => { a with waiting := a.waiting ++ [(w.cl, c)] })

/-- The call of a lane. -/
def mkCall (s : State) (w : Wave) (l tok key record first nout : Nat) (ins : List Nat) (fl : Nat) : ACall :=
  { uid := w.uid, lane := l, tok := tok, rid := w.rid, step := ((s.region? w.rid).map (fun r => r.stepno)).getD 0, key := key,
    record := record, first := first, nout := nout, ins := ins, fl := fl, dropped := [], view := s.opView }

def inCall (c : Ctx) : LaneRes := .ok { st := some (.admission .call c.e.h.s) }

def ncallLane (c : Ctx) (s : State) (l : Nat) : State × LaneRes :=
  match s.issued? c.uid l, s.granted 0 with
  | some w, true =>
    let k := c.e.h.d.toNat
    let h := (if c.e.h.mx = 0x1 then s.readS c.uid c.e.h.c.toNat else s.readV c.uid l c.e.h.c.toNat).toNat % 2 ^ 16
    let ni := bitsAt c.e.x.toNat 0 5
    let no := bitsAt c.e.x.toNat 5 4
    if w.tokPending k l then (s, .fault illegal7)
    else
      match s.nsRead w h with
      | .error e => (s, .fault e)
      | .ok (a, r) =>
        if nsNIN r ≠ ni || nsNOUT r ≠ no then (s, .fault ⟨fcHandle, h⟩)
        else
          let ins := (List.range (ni + 1)).map (fun i => (s.readV c.uid l (c.e.h.b.toNat + i)).toNat)
          let s := s.noteVa w.rid a 128
          (s.startCall w (mkCall s w l k a r c.e.h.a.toNat (no + 1) ins 0), inCall c)
  | _, _ => (s, .fault illegal7)

def execNcall (h : Hdr) (f : EngFn) (x : BitVec 64) (s : State) : Out := runEng 0xD0 h f x ncallLane (fun _ s => s) s

/-- The handle that scalar A holds. -/
def State.handleA (s : State) (c : Ctx) : Nat := s.readRegs c.uid 0 .s c.e.h.a.toNat 1 % 2 ^ 16

/-- A residency instruction: once per wave, on the set that A names. -/
def runSet (op : BitVec 8) (h : Hdr) (f : EngFn) (x : BitVec 64) (g : Ctx → State → Wave → Nat → Nat → State × UniOut) (s : State) : Out :=
  runEngU op h f x (fun c s l =>
    match s.issued? c.uid l, s.granted 0 with
    | some w, true =>
      match s.nsRead w (s.handleA c) with
      | .error e => (s, .error e)
      | .ok (a, r) => let q := g c (s.noteVa w.rid a 128) w a r; (q.1, .ok q.2)
    | _, _ => (s, .error illegal7)) s

/-- The physical lines of a set that translate. -/
def State.setLines (s : State) (rid r : Nat) : List Nat := (nsLines r).filterMap (s.wcLine rid)

/-- Every line of a set is pinned where it can be (R256), and then present: how many are pinned, and how many are not. -/
def State.pinSet (s : State) (w : Wave) (a r : Nat) : State × Nat × Nat :=
  let q := (s.setLines w.rid r).foldl (fun (acc : State × Nat × Nat) line =>
    let p := acc.1.wcPin w.cl line (w.rid, a)
    (p.1, acc.2.1 + b2n p.2, acc.2.2 + b2n (!p.2))) (s, 0, 0)
  (q.1.updWc (fun wc => wc.map (fun l => if l.cl = w.cl && !l.pins.isEmpty && (s.setLines w.rid r).contains l.line then
    { l with present := true } else l)), q.2)

def execNpin (h : Hdr) (f : EngFn) (x : BitVec 64) (s : State) : Out :=
  runSet 0xD1 h f x (fun c s w a r =>
    let q := s.pinSet w a r
    (q.1, { sregs := regWrites 0 .s c.e.h.d.toNat 1 q.2.1 ++ regWrites 0 .s (c.e.h.d.toNat + 1) 1 q.2.2 })) s

def execNunpin (h : Hdr) (f : EngFn) (x : BitVec 64) (s : State) : Out :=
  runSet 0xD2 h f x (fun _ s w _ r =>
    let ls := s.setLines w.rid r
    (s.wcUnpin (fun l => l.cl = w.cl && ls.contains l.line), {})) s

def execNpref (h : Hdr) (f : EngFn) (x : BitVec 64) (s : State) : Out :=
  runSet 0xD3 h f x (fun _ s w _ r => ((s.setLines w.rid r).foldl (fun s line => s.wcPrefetch w.cl line) s, {})) s

/-- The four counts of NQRY. -/
def State.setCounts (s : State) (w : Wave) (a r : Nat) : List Nat :=
  let held := (s.setLines w.rid r).filterMap (fun line => s.wcFind w.cl line)
  let bins := s.asu.bins.filter (fun b => b.cl = w.cl && b.rid = w.rid && b.key = a)
  [(held.filter (fun l => l.present)).length, (held.filter (fun l => !l.pins.isEmpty)).length, (nsLines r).length,
    bins.foldl (fun n b => n + b.calls.length) 0]

def execNqry (h : Hdr) (f : EngFn) (x : BitVec 64) (s : State) : Out :=
  runSet 0xD4 h f x (fun c s w a r =>
    (s, { sregs := regWrites 0 .s c.e.h.d.toNat 4 (wordsNat ((s.setCounts w a r).map (BitVec.ofNat 32))) })) s

def execNflsh (h : Hdr) (f : EngFn) (x : BitVec 64) (s : State) : Out :=
  runEngU 0xD5 h f x (fun c s _ =>
    match s.wave? c.uid, s.granted 0 with
    | some w, true =>
      match f.sub.toNat with
      | 0 => (s.flushBins (fun b => b.cl = w.cl && b.calls.any (fun q => q.uid = c.uid)), .ok {})
      | 1 =>
        let n := s.handleA c
        let a := (segBaseOf (w.seg 6) + 128 * n) % 2 ^ 56
        if segLimit (w.seg 6) < 128 * n + 128 then (s, .error ⟨fcHandle, n⟩)
        else (s.flushBins (fun b => b.cl = w.cl && b.rid = w.rid && b.key = a), .ok {})
      | _ => (s.flushBins (fun b => b.cl = w.cl && b.rid = w.rid), .ok {})
    | _, _ => (s, .error illegal7)) s

/-! ## TEXN (R362) -/

/-- The descriptor of a TEXN, or the fault that parks its lane. -/
def State.texnDesc (s : State) (rid va : Nat) : Except LFault Nat :=
  match s.readVa rid va 32 with
  | .error e => .error e
  | .ok d => if txBad d then .error illegal7 else .ok d

/-- The checks and the samples of a TEXN in one lane: the record's address and bits, the token, the samples and the flags, and what was read. -/
def texnSample (c : Ctx) (s : State) (l : Nat) : Except LFault (Nat × Nat × List Nat × Nat × TMem) :=
  match s.issued? c.uid l, s.granted 0 with
  | some w, true =>
    let x := c.e.x.toNat
    let sc := c.e.h.c.toNat
    let b := c.e.h.b.toNat
    let lodm := bitsAt x 9 2
    let tnx := bitsAt x 4 5
    let h := s.readRegs c.uid 0 .s sc 1 % 2 ^ 16
    let smp := s.readRegs c.uid 0 .s (sc + 1) 1
    let va := s.readRegs c.uid 0 .s (sc + 2) 2 % 2 ^ 56
    if w.tokPending c.e.h.d.toNat l then .error illegal7
    else
      match s.nsRead w h, s.texnDesc w.rid va with
      | .error e, _ => .error e
      | _, .error e => .error e
      | .ok (a, r), .ok d =>
        if nsNIN r + 1 ≠ txCh d + tnx || nsNOUT r ≠ bitsAt x 0 4 then .error ⟨fcHandle, h⟩
        else if samplerBad smp || (lodm = 1 && !w.quadFlag) then .error illegal7
        else
          match s.texChannels c l b lodm d smp 0 (txCh d) with
          | .error e => .error e
          | .ok (chs, fl, m) =>
            if let some ue := m.ue then .error ⟨fcMemUe, ue⟩ else
            let e0 := b + (if lodm = 0 then 3 else 2)
            .ok (a, r, chs ++ (List.range tnx).map (fun i => (s.readV c.uid l (e0 + i)).toNat), fl, m)
  | _, _ => .error illegal7

def texnLane (c : Ctx) (s : State) (l : Nat) : State × LaneRes :=
  match s.issued? c.uid l, texnSample c s l with
  | some w, .ok (a, r, ins, fl, m) =>
    let s := ((s.noteVa w.rid a 128).noteVa w.rid (s.readRegs c.uid 0 .s (c.e.h.c.toNat + 2) 2 % 2 ^ 56) 32).noteRead m.locs none
    (s.startCall w (mkCall s w l c.e.h.d.toNat a r c.e.h.a.toNat (nsNOUT r + 1) ins fl), inCall c)
  | _, .error e => (s, .fault e)
  | none, _ => (s, .fault illegal7)

/-- Would a TEXN complete in a lane? -/
def texnPre (c : Ctx) (s : State) (l : Nat) : LaneRes := match texnSample c s l with | .error e => .fault e | .ok _ => .ok {}

/-- TEXN: quad-whole with implicit derivatives. -/
def execTexn (h : Hdr) (f : EngFn) (x : BitVec 64) (s : State) : Out :=
  .next (runPacket (enc 0xD9 h (engFnBits f) x) (if bitsAt x.toNat 9 2 = 1 then quadWise texnPre texnLane else memWise texnLane) s)

/-! ## WTBL (R363) -/

/-- The sets that a WTBL names, as a test of region and key; none where its region names none that the wave may name. -/
def State.wtblSets (s : State) (w : Wave) (h0 n r : Nat) : Option (Nat → Nat → Bool) :=
  let rid := if r = 0 then w.rid else r
  match s.region? rid, s.region? w.rid with
  | some q, some own =>
    if own.part.isNone || q.part = own.part then
      some (fun rid' key => rid' = rid && (List.range n).any (fun i => key = (q.g6b + 128 * (h0 + i)) % 2 ^ 56))
    else none
  | _, _ => none

/-- A uniform WTBL. -/
def runWtbl (h : Hdr) (f : EngFn) (x : BitVec 64) (g : Ctx → State → (Nat → Nat → Bool) → State × UniOut) (s : State) : Out :=
  runEngU 0xFA h f x (fun c s _ =>
    match s.wave? c.uid with
    | none => (s, .error illegal7)
    | some w =>
      let n := s.readRegs c.uid 0 .s h.b.toNat 1 % 2 ^ 17
      if n = 0 || 65536 < n then (s, .error illegal7)
      else
        match s.wtblSets w (s.readRegs c.uid 0 .s h.a.toNat 1 % 2 ^ 16) n (s.readRegs c.uid 0 .s h.c.toNat 1) with
        | none => (s, .ok { sregs := regWrites 0 .s h.d.toNat 1 0 ++ regWrites 0 .s (h.d.toNat + 1) 1 0xFFFFFFFF, st := some .settling })
        | some p => let q := g c s p; (q.1, .ok q.2)) s

def execWtblSync (h : Hdr) (f : EngFn) (x : BitVec 64) (s : State) : Out :=
  runWtbl h f x (fun c s p =>
    let bins := s.asu.bins.filter (fun b => p b.rid b.key)
    let tiles := (s.asu.tiles.filter (fun t => p t.rid t.key && !t.ready)).map (fun t => t.id) ++ bins.map (fun b => b.seq)
    let s := s.flushBins (fun b => p b.rid b.key)
    if tiles.isEmpty then
      (s, { sregs := regWrites 0 .s h.d.toNat 1 0 ++ regWrites 0 .s (h.d.toNat + 1) 1 0, st := some .settling })
    else
      (s.updAsu (fun a => { a with syncs := a.syncs ++ [⟨c.uid, c.on, [(h.d.toNat, BitVec.ofNat 32 bins.length), (h.d.toNat + 1, BitVec.ofNat 32 tiles.length)], tiles, [], []⟩] }),
        { st := some .settling })) s

def execWtblUnpin (h : Hdr) (f : EngFn) (x : BitVec 64) (s : State) : Out :=
  runWtbl h f x (fun _ s p =>
    let hit := fun (l : WcLine) => l.pins.any (fun k => p k.1 k.2)
    (s.wcUnpin hit, { sregs := regWrites 0 .s h.d.toNat 1 (s.asu.wc.filter hit).length ++ regWrites 0 .s (h.d.toNat + 1) 1 0,
                      st := some .settling })) s

end Sys2Proof.Machine
end

