-- ==== Sys2Proof/Machine/Traversal.lean ====
section
/-!
DEFINITION. Traversal of one ray (R365 to R373): exact intersection, the order of candidates, the shader table. A step looks at one item of a ray's
work, which it takes in a free order, since the order of nodes is not architected (R371, log 13).
-/

namespace Sys2Proof.Machine

/-! ## The ray record (R365, R366) -/

def ryO (r i : Nat) : Nat := bitsAt r (32 * i) 32
def ryTmin (r : Nat) : Nat := bitsAt r 96 32
def ryD (r i : Nat) : Nat := bitsAt r (128 + 32 * i) 32
def ryTmax (r : Nat) : Nat := bitsAt r 224 32
def ryFlags (r : Nat) : Nat := bitsAt r 384 16
def ryCmask (r : Nat) : Nat := bitsAt r 400 8

/-- Are ray flags refused (R366)? -/
def flagsBad (f : Nat) : Bool := bitsAt f 9 7 ≠ 0 || (bitAt f 0 && bitAt f 1)

/-! ## Exact values -/

/-- A finite value as a rational. -/
def FV.rat? (v : FV) : Option Rat :=
  match v with
  | .fin n m e =>
    let i : Int := if n then -(m : Int) else m
    some (if 0 ≤ e then mkRat (i * ((2 ^ e.toNat : Nat) : Int)) 1 else mkRat i (2 ^ (-e).toNat))
  | _ => none

def ratOf (x : Nat) : Option Rat := (fp32.value x).rat?

/-- A point or direction; none where a component is not finite. -/
abbrev V3 := Rat × Rat × Rat

def v3Of (x y z : Nat) : Option V3 :=
  match ratOf x, ratOf y, ratOf z with | some a, some b, some c => some (a, b, c) | _, _, _ => none

def V3.sub (a b : V3) : V3 := (a.1 - b.1, a.2.1 - b.2.1, a.2.2 - b.2.2)
def V3.dot (a b : V3) : Rat := a.1 * b.1 + a.2.1 * b.2.1 + a.2.2 * b.2.2
def V3.cross (a b : V3) : V3 := (a.2.1 * b.2.2 - a.2.2 * b.2.1, a.2.2 * b.1 - a.1 * b.2.2, a.1 * b.2.1 - a.2.1 * b.1)

/-- An exact quotient rounded once to FP32 by RNE; denominator 0 is +∞. -/
def roundRat (num : Int) (den : Nat) : Nat :=
  if den = 0 then 0x7F800000
  else
    let sh := 64 + log2 den
    let n := num.natAbs * 2 ^ sh
    (fp32.roundZ .rn false (num < 0) (n / den) (-(sh : Int)) (n % den ≠ 0)).bits

/-- round(b × 65,535) by RNE, for b from 0 to 1 (R365). -/
def unorm16 (b : Rat) : Nat :=
  let n := b.num.toNat * 65535
  let q := n / b.den
  let r := 2 * (n % b.den)
  if b.den < r || (r = b.den && q % 2 = 1) then q + 1 else q

/-! ## Hits (R371) -/

/-- HITT of a hit. -/
def RayHit.hitt (h : RayHit) : Nat := if h.negZero then 0x80000000 else roundRat h.num h.den

/-- Is a's t below b's? Denominator 0 stands for +∞. -/
def RayHit.tLt (a b : RayHit) : Bool := a.num * b.den < b.num * a.den
def RayHit.tEq (a b : RayHit) : Bool := a.num * b.den = b.num * a.den

/-- The order of candidates. -/
def RayHit.before (a b : RayHit) : Bool :=
  a.tLt b || (a.tEq b && (a.inst < b.inst || (a.inst = b.inst && (a.geom < b.geom || (a.geom = b.geom && a.prim < b.prim)))))

/-- Does a candidate precede the closest accepted hit? -/
def Ray.ahead (r : Ray) (h : RayHit) : Bool := match r.hit with | none => true | some c => h.before c

/-- The current bound, none for +∞ (R370). -/
def Ray.bound (r : Ray) : Option Rat :=
  match r.hit with
  | some h => if h.den = 0 then none else some (mkRat h.num h.den)
  | none => ratOf (ryTmax r.record)

/-- Is t within [TMIN, bound]? -/
def Ray.inRange (r : Ray) (t : Rat) : Bool :=
  (match ratOf (ryTmin r.record) with | some a => decide (a ≤ t) | none => false) &&
  (match r.bound with | some b => decide (t ≤ b) | none => true)

/-! ## Instances (R369, R370) -/

/-- The ray's origin and direction in the space of an instance, as patterns. -/
def Ray.local (r : Ray) (inst : Option Nat) : List Nat × List Nat :=
  let o := (List.range 3).map (ryO r.record)
  let d := (List.range 3).map (ryD r.record)
  match inst with
  | none => (o, d)
  | some m =>
    let v := fun (x : Nat) => fp32.value x
    let e := fun (i j : Nat) => v (bitsAt m (32 * (4 * i + j)) 32)
    let fma := fun (a b c : FV) => v (fp32.fmaRes .rn false a b c).bits
    let x := fun (l : List Nat) (j : Nat) => v (nth l j)
    ((List.range 3).map (fun i =>
        (fp32.fmaRes .rn false (e i 2) (x o 2) (fma (e i 1) (x o 1) (fma (e i 0) (x o 0) (e i 3)))).bits),
     (List.range 3).map (fun i =>
        (fp32.fmaRes .rn false (e i 2) (x d 2) (fma (e i 1) (x d 1) (v (fp32.mulRes .rn false (e i 0) (x d 0)).bits))).bits))

/-- The same, exact; none where a component is not finite. -/
def Ray.exact (r : Ray) (inst : Option Nat) : Option (V3 × V3) :=
  let l := r.local inst
  match v3Of (nth l.1 0) (nth l.1 1) (nth l.1 2), v3Of (nth l.2 0) (nth l.2 1) (nth l.2 2) with
  | some o, some d => some (o, d)
  | _, _ => none

/-! ## Boxes (R370) -/

/-- An interval of t: its least value and its greatest, none for +∞. -/
abbrev Span := Rat × Option Rat

/-- The part of an interval where o + t d is at least L, or at most L. -/
def halfLine (o d L : Rat) (ge : Bool) (iv : Span) : Option Span :=
  if d = 0 then (if (if ge then L ≤ o else o ≤ L) then some iv else none)
  else
    let x := (L - o) / d
    if decide (0 < d) = ge then some (max iv.1 x, iv.2)
    else some (iv.1, some (match iv.2 with | some b => min b x | none => x))

/-- One axis of a box. -/
def slab (o d : Rat) (lo hi : FV) (iv : Span) : Option Span :=
  let low := match lo with
    | .nan _ => none
    | .inf n => if n then some iv else none
    | v => (match v.rat? with | some L => halfLine o d L true iv | none => none)
  low.bind (fun iv => match hi with
    | .nan _ => none
    | .inf n => if n then none else some iv
    | v => (match v.rat? with | some L => halfLine o d L false iv | none => none))

/-- Is a box of six FP32 bounds entered? A ray with a component that is not finite enters any valid box, as R370 allows. -/
def Ray.enters (r : Ray) (inst : Option Nat) (box : Nat) : Bool :=
  let lo := fun i => fp32.value (bitsAt box (32 * i) 32)
  let hi := fun i => fp32.value (bitsAt box (96 + 32 * i) 32)
  let bad := (List.range 3).any (fun i => (lo i).isNan || (hi i).isNan || 0 < cmpV (lo i) (hi i))
  if bad then false
  else
    match r.exact inst, ratOf (ryTmin r.record) with
    | _, none => false
    | none, _ => true
    | some (o, d), some t0 =>
      match (((some (t0, r.bound) : Option Span).bind (slab o.1 d.1 (lo 0) (hi 0))).bind (slab o.2.1 d.2.1 (lo 1) (hi 1))).bind
          (slab o.2.2 d.2.2 (lo 2) (hi 2)) with
      | none => false
      | some iv => (match iv.2 with | none => true | some b => decide (iv.1 ≤ b))

/-! ## Primitives (R369, R370) -/

def prId (p : Nat) : Nat := bitsAt p 288 32
def prGeom (p : Nat) : Nat := bitsAt p 320 24
def inId (m : Option Nat) : Nat := match m with | some m => bitsAt m 448 24 | none => 0xFFFFFF
def inSbt (m : Option Nat) : Nat := match m with | some m => bitsAt m 480 24 | none => 0
def inFlag (m : Option Nat) (i : Nat) : Bool := match m with | some m => bitAt m (504 + i) | none => false

/-- The candidate of a primitive with a t and barycentrics. -/
def candOf (p : Nat) (inst : Option Nat) (num : Int) (den bu bv : Nat) : RayHit :=
  ⟨num, den, false, bu, bv, prId p, inId inst, prGeom p, inSbt inst⟩

/-- The exact intersection of a ray with the triangle of a record, culling applied. A ray in the triangle's plane does not hit it (log 13). -/
def Ray.triangle (r : Ray) (inst : Option Nat) (p : Nat) : Option RayHit :=
  let vert := fun k => v3Of (bitsAt p (96 * k) 32) (bitsAt p (96 * k + 32) 32) (bitsAt p (96 * k + 64) 32)
  match r.exact inst, vert 0, vert 1, vert 2 with
  | some (o, d), some a, some b, some c =>
    let e1 := b.sub a
    let e2 := c.sub a
    let n := e1.cross e2
    let nn := n.dot n
    let det := n.dot d
    let cull := !inFlag inst 2
    if nn = 0 || det = 0 then none
    else if cull && ((bitAt (ryFlags r.record) 4 && decide (0 < det)) || (bitAt (ryFlags r.record) 5 && decide (det < 0))) then none
    else
      let t := n.dot (a.sub o) / det
      let q : V3 := (o.1 + t * d.1 - a.1, o.2.1 + t * d.2.1 - a.2.1, o.2.2 + t * d.2.2 - a.2.2)
      let b1 := (q.cross e2).dot n / nn
      let b2 := (e1.cross q).dot n / nn
      if decide (0 ≤ b1) && decide (0 ≤ b2) && decide (b1 + b2 ≤ 1) && r.inRange t then
        some (candOf p inst t.num t.den (unorm16 b1) (unorm16 b2))
      else none
  | _, _, _, _ => none

/-- Is a triangle candidate opaque (R370)? -/
def Ray.opaqueTri (r : Ray) (inst : Option Nat) (p : Nat) : Bool :=
  let f := ryFlags r.record
  if bitAt f 0 then true else if bitAt f 1 then false
  else if inFlag inst 0 then true else if inFlag inst 1 then false else bitAt p 344

/-! ## Reads of the unit (R376) -/

/-- A ray's step so far: its reads have their places in the order of memory. -/
abbrev RAcc := State × Ray

/-- An engine read for a ray: a fault suspends it where it stands, one that waits stops the step, uncorrectable data ends the ray. -/
def rayRead (s : State) (r : Ray) (va n : Nat) (k : State → Nat → RAcc) : RAcc :=
  let stop := fun (e : LFault) => (if e.holds then s.hold r.rid e 0 [] else s, { r with fault := some e.pair })
  match s.bytesOfVa r.rid (va % 2 ^ 56) false n with
  | .error e => stop e
  | .ok ls =>
    match s.ueAt ls with
    | some a => (s.meetUe (ls.map (fun x => x.2)), { r with st := .finish 8 fcMemUe a })
    | none => (match s.bytesAt ls with | .error e => stop e | .ok bs => k (s.noteRead (ls.map (fun x => x.2)) none) (leNat bs))

def Ray.over (r : Ray) (status : Nat) : Ray := { r with st := .finish status 0 0 }

/-- A ray that ends without its hits, as SBT_RANGE and BADNODE do. -/
def Ray.overBare (r : Ray) (status : Nat) : Ray := { r with st := .finish status 0 0, hit := none }

/-! ## The shader table (R372, R373) -/

/-- Reads the header of a ray's table. -/
def withTable (s : State) (r : Ray) (k : State → Ray → Nat → RAcc) : RAcc :=
  if r.sbt % 32 ≠ 0 then (s, r.overBare 6)
  else rayRead s r r.sbt 32 (fun s h =>
    if 11 < bitsAt h 40 4 || bitsAt h 37 3 ≠ 0 || bitsAt h 44 20 ≠ 0 || bitsAt h 120 136 ≠ 0 then (s, r.overBare 6)
    else k s { r with vs := (8 * (bitsAt h 32 5 + 1), 16 * (bitsAt h 40 4 + 1)) } h)

/-- Reads entry `e` (0 CH, 1 AH, 2 IS) of the record of a candidate. -/
def withEntry (s : State) (r : Ray) (c : RayHit) (e : Nat) (k : Ray → Nat → Ray) : RAcc :=
  withTable s r (fun s r' h =>
    let i := bitsAt r.record 416 32 + c.sbtoff + c.geom * bitsAt r.record 408 8
    if bitsAt h 0 32 ≤ i then (s, r.overBare 5)
    else rayRead s r (r.sbt + 32 + 32 * i + 8 * e) 8 (fun s v => (s, k r' (bitsAt v 0 56))))

/-- A ray parks on a callback. -/
def Ray.park (r : Ray) (kind entry clk : Nat) (c : Option RayHit) : Ray := { r with st := .parked kind entry clk, cand := c }

/-- A hit is accepted; FIRST ends the traversal (R366). -/
def Ray.accept (r : Ray) (c : RayHit) : Ray :=
  { r with hit := some c, cand := none, ended := r.ended || bitAt (ryFlags r.record) 2 }

/-! ## One step -/

/-- An item is done, and others are found. -/
def Ray.next (r : Ray) (i : Nat) (more : List RayItem) : Ray := { r with work := r.work.eraseIdx i ++ more }

/-- Offers a candidate to any-hit (1) or intersection (2); the beam unit offers nothing and splits its pixel (R385). -/
def offer (s : State) (btu : Bool) (r : Ray) (c : RayHit) (e : Nat) : RAcc :=
  if btu then (s, r.park (e - 1) 0 0 none)
  else withEntry s r c e (fun r entry =>
    if entry = 0 then (if e = 1 then r.accept c else r) else r.park (e - 1) entry s.clk (some c))

/-- A primitive record. -/
def primItem (s : State) (btu : Bool) (r : Ray) (i a : Nat) (inst : Option Nat) : RAcc :=
  if r.offered.contains (a, inst) then (s, r.next i [])
  else rayRead s r a 48 (fun s p =>
    let r := ({ r with offered := r.offered ++ [(a, inst)] }).next i []
    let f := ryFlags r.record
    if bitAt p 345 then
      if bitAt f 7 || !r.enters inst (bitsAt p 0 192) then (s, r) else offer s btu r (candOf p inst 0 1 0 0) 2
    else if bitAt f 6 then (s, r)
    else
      match r.triangle inst p with
      | none => (s, r)
      | some c => if !r.ahead c then (s, r) else if r.opaqueTri inst p then (s, r.accept c) else offer s btu r c 1)

/-- A reference whose box is entered (R368). -/
def refItem (s : State) (r : Ray) (i root ref : Nat) (inst : Option Nat) : RAcc :=
  match bitsAt ref 30 2 with
  | 1 => (s, r.next i [.node root ((root + 128 * bitsAt ref 0 30) % 2 ^ 56) inst])
  | 2 =>
    let a := root + 16 * bitsAt ref 4 26
    (s, r.next i ((List.range (bitsAt ref 0 4 + 1)).map (fun k => .prim ((a + 48 * k) % 2 ^ 56) inst)))
  | 3 =>
    if inst.isSome then (s, r.overBare 6)
    else rayRead s r (root + 64 * bitsAt ref 0 30) 64 (fun s m =>
      let b := bitsAt m 384 56
      if bitsAt m 472 8 &&& ryCmask r.record = 0 then (s, r.next i [])
      else if b % 128 ≠ 0 then (s, r.overBare 6)
      else (s, r.next i [.node b b (some m)]))
  | _ => (s, r.next i [])

/-- Looks at item `i` of a ray's work. -/
def rayItem (s : State) (btu : Bool) (r : Ray) (i : Nat) : RAcc :=
  match r.work[i]? with
  | none => (s, r)
  | some (.node root a inst) =>
    if root % 128 ≠ 0 then (s, r.overBare 6)
    else rayRead s r a 128 (fun s n =>
      (s, r.next i ((List.range 4).map (fun c => .ref root (bitsAt n (192 * c) 192) (bitsAt n (768 + 32 * c) 32) inst))))
  | some (.ref root box ref inst) => if bitsAt ref 30 2 = 0 || !r.enters inst box then (s, r.next i []) else refItem s r i root ref inst
  | some (.prim a inst) => primItem s btu r i a inst

/-- The end of a traversal: the closest-hit or miss callback, or the completion (R373). -/
def rayEnd (s : State) (r : Ray) : RAcc :=
  match r.hit with
  | none =>
    if bitAt (ryFlags r.record) 8 then (s, r.over 4)
    else withTable s r (fun s r h => (s, if bitsAt h 64 56 = 0 then r.over 4 else r.park 3 (bitsAt h 64 56) s.clk none))
  | some c =>
    if bitAt (ryFlags r.record) 3 then (s, r.over 3)
    else withEntry s r c 0 (fun r entry => if entry = 0 then r.over 3 else r.park 2 entry s.clk (some c))

/-- A step of a ray in traversal by the acting operation; one that meets a fault leaves the ray where it stood. -/
def rayStep (s : State) (btu : Bool) (r : Ray) : RAcc :=
  let a := if r.ended || r.work.isEmpty then rayEnd s r else rayItem s btu r (Config.order s.tick 1 % r.work.length)
  if a.2.fault.isSome then (a.1, { r with fault := a.2.fault }) else a

/-- Does a ray complete as a miss without traversal (R378)? -/
def rayDegenerate (rec : Nat) : Bool :=
  let v := fun (x : Nat) => fp32.value x
  let o := (List.range 3).map (fun i => v (ryO rec i))
  let d := (List.range 3).map (fun i => v (ryD rec i))
  let t0 := v (ryTmin rec)
  let t1 := v (ryTmax rec)
  (o ++ d).any FV.isNan || d.all FV.isZero || t0.isNan || cmpV t0 (.fin false 0 0) < 0 || t1.isNan || 0 < cmpV t0 t1

/-- The work of a ray at its submission. -/
def rayWork (rec root : Nat) : List RayItem := if rayDegenerate rec then [] else [.node root root none]

end Sys2Proof.Machine
end

