-- ==== Sys2Proof/Machine/Rays.lean ====
section
/-!
DEFINITION. Rays in flight and their callbacks (R364, R374 to R376), the ray instructions (R377 to R382), and beams (R383 to R387).
-/

namespace Sys2Proof.Machine

def State.updRtu (s : State) (f : Rtu → Rtu) : State := { s with rtu := f s.rtu }

def State.updRay (s : State) (cl id : Nat) (f : Ray → Ray) : State :=
  s.updRtu (fun u => { u with rays := u.rays.map (fun (r : Ray) => if r.cl = cl && r.id = id then f r else r) })

def State.updBeam (s : State) (cl id : Nat) (f : Beam → Beam) : State :=
  s.updRtu (fun u => { u with beams := u.beams.map (fun (b : Beam) => if b.cl = cl && b.id = id then f b else b) })

/-- The ray in flight whose record lies at an address of a region. Regions that share their page tables, as one of the root's children may with the root, share
their records (R364, R415). -/
def State.flying (s : State) (rid va : Nat) : Option Ray := s.rtu.rays.find? (fun r => s.rootOf r.rid = s.rootOf rid && r.va = va)

/-- Places of a cluster's ray cache in use, of 4,096. -/
def State.rayPlaces (s : State) (cl : Nat) : Nat := (s.rtu.rays.filter (fun r => r.cl = cl && decide (r.st ≠ .noPlace))).length

/-- STATUS of a ray in flight (R367). -/
def Ray.status (r : Ray) : Nat := match r.st with | .parked .. | .inWave _ => 2 | _ => if r.cand.isSome then 2 else 1

/-- The record as the unit holds it. -/
def Ray.copy (r : Ray) : Nat := putBits r.record 480 8 r.status

/-! ## Completion (R375) -/

/-- The fields of a hit or of no hit: HITT, PRIM, INST, BU and BV, GEOM. A failed ray's are stated nowhere (log 25). -/
def Ray.fields (r : Ray) (status t : Nat) : Nat × Nat × Nat × Nat × Nat :=
  let free := fun k => Config.freeInput t k % 2 ^ 32
  match status, r.hit with
  | 8, _ => (free 0, free 1, free 2, free 3, free 4 % 2 ^ 24)
  | _, some h => (h.hitt, h.prim, h.inst, h.bu + 2 ^ 16 * h.bv, h.geom)
  | _, none => (0x7F800000, 0xFFFFFFFF, 0xFFFFFFFF, 0, 0xFFFFFF)

/-- The record at completion. -/
def Ray.final (r : Ray) (status t : Nat) : Nat :=
  let f := r.fields status t
  putBits (putBits (putBits (putBits (putBits (putBits r.record 256 32 f.1) 288 32 f.2.1) 320 32 f.2.2.1) 352 32 f.2.2.2.1) 480 8 status)
    488 24 f.2.2.2.2

/-- The visibility entry of a pixel (R386). -/
def visEntry (kind : Nat) (h : Option RayHit) : Nat :=
  match h with
  | some h => h.prim + 2 ^ 32 * h.inst + 2 ^ 56 * kind + 2 ^ 64 * h.hitt + 2 ^ 96 * h.geom
  | none => 0xFFFFFFFF + 2 ^ 32 * 0xFFFFFF + 2 ^ 56 * kind + 2 ^ 64 * 0x7F800000 + 2 ^ 96 * 0xFFFFFF

/-- Does a lane of a callback wave still run for a ray (R374)? -/
def State.cbRuns (s : State) (id : Nat) : Bool :=
  s.waves.any (fun w => match w.kind with
    | .callback rays => rays.any (fun c => c.ray = id && (w.thread c.lane).st ≠ .exited)
    | _ => false)

/-- A split pixel's ray is complete: its entry, and its failure (R385, R442). -/
def Beam.take (b : Beam) (r : Ray) (status code info : Nat) : Beam :=
  let p := r.r - bitsAt b.block 672 32
  let hit := if status = 3 || status = 7 then r.hit else none
  { b with
    entries := b.entries ++ [(p, visEntry (if hit.isSome then 2 else 3) hit)]
    split := b.split.filter (fun q => q ≠ p)
    failed := if status = 8 && b.failed.isNone then some (code, info) else b.failed }

/-- The thread that waits for a place of its ray goes on (R378, R381). -/
def State.seatRay (s : State) (r : Ray) : State :=
  match r.st, r.beam, (s.thread r.uid r.lane).st with
  | .noPlace, none, .admission .ray settle => s.resume r.uid r.lane (s.thread r.uid r.lane).pc settle
  | _, _, _ => s

/-- The bytes of a ray's record for the unit's write, under R63 on g7 (R364). -/
def State.recLocs (s : State) (r : Ray) : Except LFault (List (Nat × Loc)) :=
  let g := Sparse.get 0 r.segs 7
  if segLimit g < 64 * r.r + 64 then .error ⟨fcSegLimit, offInfo 7 (64 * r.r)⟩
  else if !segWr g then .error ⟨fcPermission, offInfo 7 (64 * r.r)⟩
  else s.bytesOfVa r.rid r.va true 64

/-- The ray's operation acts. -/
def State.asRay (s : State) (r : Ray) : State := s.asOp (.ray r.id) (.cluster r.cl) r.view

/-- A ray is out of flight: its token clears, or its beam takes its entry; both follow its accesses and those of its callbacks (R375). -/
def State.rayOut (s : State) (r : Ray) (status code info : Nat) : State :=
  let s := ((s.dropRops (.ray r.id)).endReads (.ray r.id)).updRtu (fun u => { u with rays := u.rays.filter (fun (x : Ray) => !(x.cl = r.cl && x.id = r.id)) })
  let v := s.opView
  let s := match r.beam with
    | some b => s.updBeam r.cl b (fun b => { b.take r status code info with view := joinIds b.view v })
    | none => if status = 8 then s.failTok r.uid r.tok r.lane code info else s.clearTok r.uid r.tok r.lane
  (s.noteEnd r.rid r.uid).opDone

/-- A ray leaves flight: its record is written, then its token clears. A failed ray whose record cannot be written leaves flight without the write. -/
def State.landRay (s : State) (r : Ray) (status code info : Nat) : State :=
  let s := s.asRay r
  let bs := leBytes 64 (r.final status s.tick)
  let stop := fun (s : State) (e : LFault) =>
    if e.holds then (s.hold r.rid e 0 []).opDone.updRay r.cl r.id (fun r => { r with fault := some e.pair })
    else if status = 8 then s.rayOut r status code info
    else s.opDone.updRay r.cl r.id (fun r => { r with fault := some e.pair })
  match s.recLocs r with
  | .error e => stop s e
  | .ok ls =>
    let w := s.writeAll r.rid ((ls.drop 32).take 16 ++ ls.drop 56) ((bs.drop 32).take 16 ++ bs.drop 56)
    (match w.2 with | some e => stop w.1 e | none => w.1.rayOut r status code info)

/-! ## Callbacks (R374, R380) -/

/-- The lane that serves a ray: its wave and entry. -/
def State.cbLane (s : State) (id : Nat) : Option (Wave × CbLane) :=
  s.waves.findSome? (fun w => match w.kind with
    | .callback rays => (rays.find? (fun c => c.ray = id && !c.done)).map (fun c => (w, c))
    | _ => none)

/-- What the callback lanes of a ray that have exited have done, after their RVERD too: it happens before the ray's completion (R374, R375). -/
def State.cbDone (s : State) (id : Nat) : List Nat :=
  s.waves.foldl (fun v w => match w.kind with
    | .callback rays => (rays.filter (fun c => c.ray = id)).foldl (fun v c => joinIds v (w.thread c.lane).vw.ids) v
    | _ => v) []

/-- Changes the entries of callback waves. -/
def State.updCb (s : State) (f : CbLane → CbLane) : State :=
  { s with waves := s.waves.map (fun w => match w.kind with
    | .callback rays => { w with kind := .callback (rays.map f) }
    | _ => w) }

/-- The outcome of a callback is taken: any-hit accepts or ignores; the others end as their kind says. -/
def Ray.verdict (r : Ray) (kind : Nat) (accept stop : Bool) : Ray :=
  let go := { r with st := .traverse, ended := r.ended || stop, cand := none }
  match kind with
  | 0 | 1 => if accept then (match r.cand with | some c => go.accept c | none => go) else go
  | 2 => r.over 3
  | _ => r.over 4

/-- A callback lane that has exited without a verdict accepts an any-hit candidate and ignores an intersection. Its accesses happen before the ray's
completion (R374). -/
def State.takeExit (s : State) (r : Ray) (kind : Nat) : State :=
  match s.cbLane r.id with
  | none => s
  | some (w, c) =>
    if (w.thread c.lane).st = .exited then
      let v := (w.thread c.lane).vw.ids
      let s := (s.updCb (fun x => if x.ray = r.id then { x with done := true } else x)).updRay r.cl r.id (fun r =>
        { r.verdict kind (kind = 0) false with view := joinIds r.view v })
      s.endHandler w.uid
    else s

/-- A step of a ray is taken. -/
def State.commitRay (a : RAcc) : State :=
  let v := a.1.opView
  (if a.2.fault.isNone then a.1.dropRops (.ray a.2.id) else a.1).opDone.updRay a.2.cl a.2.id (fun _ => { a.2 with view := joinIds a.2.view v })

/-- RAY_COMPLETE: the next step of a ray towards its completion. -/
def execRayComplete (cl ray : Nat) (s : State) : Out :=
  .next (match s.rtu.rays.find? (fun r => r.cl = cl && r.id = ray && r.fault.isNone && !r.susp) with
    | none => s
    | some r =>
      match r.st with
      | .noPlace | .parked .. => s
      | .traverse => State.commitRay (rayStep (s.asRay r) false r)
      | .inWave k => s.takeExit r k
      | .finish st code info => if st < 7 && s.cbRuns ray then s else s.landRay { r with view := joinIds r.view (s.cbDone ray) } st code info)

/-- RAY_CACHE_PLACE: the first ray that waits for a place takes one (R378). -/
def execRayCachePlace (cl : Nat) (s : State) : Out :=
  .next (match s.rtu.rays.find? (fun r => r.cl = cl && decide (r.st = .noPlace)) with
    | none => s
    | some r =>
      if 4096 ≤ s.rayPlaces cl then s
      else
        (s.updRay cl r.id (fun r => { r with st := .traverse })).seatRay r)

/-- The kind, entry and clk at which a ray parked. -/
def Ray.parkedAt (r : Ray) : Option (Nat × Nat × Nat) := match r.st with | .parked k e t => some (k, e, t) | _ => none

/-- v0 to v6 of the lane of a ray (R374). -/
def Ray.cbRegs (r : Ray) (kind t : Nat) : List Nat :=
  let bound := match r.hit with | some h => h.hitt | none => ryTmax r.record
  match kind, r.cand with
  | 0, some c | 2, some c => [r.r, c.hitt, c.prim, c.inst, c.geom, c.bu + 2 ^ 16 * c.bv, kind]
  | 1, some c => [r.r, bound, c.prim, c.inst, c.geom, Config.freeInput t r.id % 2 ^ 32, kind]
  | _, _ => [r.r, 0x7F800000, 0xFFFFFFFF, 0xFFFFFFFF, 0xFFFFFF, 0, kind]

/-- Rays in the order in which they parked. -/
def parkOrder (l : List Ray) : List Ray :=
  l.foldl (fun acc r =>
    let at' := fun (r : Ray) => (r.parkedAt.map (fun p => p.2.2)).getD 0
    acc.filter (fun x => at' x ≤ at' r) ++ r :: acc.filter (fun x => at' r < at' x)) []

/-- The callback wave of some rays, once its seat is known: what a ray follows, its callback follows (R374). -/
def cbWave (rays : List Ray) (t : Nat) (w : Wave) : Wave :=
  ((List.range rays.length).zip rays).foldl (fun w p =>
    let kind := (p.2.parkedAt.map (fun q => q.1)).getD 0
    let vals := p.2.cbRegs kind t
    ((List.range 7).zip vals).foldl (fun w q => w.setReg (.v q.1 p.1) (BitVec.ofNat 32 q.2))
      (w.updThread p.1 (fun t => { t with vw := View.of p.2.view }))) w

/-- The callback wave of a ray's launch and entry on a core, where it can start: the parked rays, up to 128, in the order of their parking. It belongs to no
workgroup, and to the launch of its rays (log 35). -/
def callbackWave (s : State) (g : Region) (cl core : Nat) (r : Ray) (entry : Nat) : Option State :=
  let same := fun (x : Ray) => x.cl = cl && x.rid = r.rid && x.lid = r.lid && (x.parkedAt.map (fun p => p.2.1)) = some entry
  let rays := (parkOrder (s.rtu.rays.filter same)).take 128
  let vs := (rays.head?.map (fun x => x.vs)).getD (8, 16)
  let lanes := ((List.range rays.length).zip rays).map (fun p =>
    (⟨p.1, p.2.id, (p.2.parkedAt.map (fun q => q.1)).getD 0, false⟩ : CbLane))
  let segs := Sparse.put 0 r.segs 5 (mkSeg 0 0 true)
  (s.startHandler g cl core (.callback lanes) entry rays.length vs.1 vs.2 r.priv segs []
    (fun w => { cbWave rays s.tick w with lid := r.lid, al2 := r.al2, al3 := r.al3, ctx := r.ctx })).map
    (fun s' => rays.foldl (fun s x => s.updRay cl x.id (fun y => { y with st := .inWave ((x.parkedAt.map (fun q => q.1)).getD 0) })) s')

/-- CALLBACK_WAVE_START: on a core that the region may use. -/
def execCallbackWaveStart (cl core ray : Nat) (s : State) : Out :=
  .next (match s.rtu.rays.find? (fun r => r.cl = cl && r.id = ray) with
    | none => s
    | some r =>
      match r.parkedAt, s.region? r.rid with
      | some (_, entry, _), some g => if s.coreOk g cl core then (callbackWave s g cl core r entry).getD s else s
      | _, _ => s)

/-! ## Instructions (R378 to R382) -/

/-- The 64 bytes of the record that A names, under R63 on g7 (R364): the index, the record's address and its bytes. -/
def State.rayRec (s : State) (c : Ctx) (w : Wave) (l : Nat) (write : Bool) : Except LFault (Nat × Nat × List (Nat × Loc)) :=
  let r := s.readRegs c.uid l .v c.e.h.a.toNat 1
  match s.locate w l 7 (64 * r) 64 write 64 with
  | .error e => .error e
  | .ok ls => .ok (r, w.byteAddr l 7 (64 * r) 0, ls)

/-- A ray as its submission makes it. -/
def newRay (s : State) (w : Wave) (l tok r va rec root sbt : Nat) (beam : Option Nat) : Ray :=
  let full := 4096 ≤ s.rayPlaces w.cl || s.rtu.rays.any (fun x => x.cl = w.cl && decide (x.st = .noPlace))
  { id := s.fresh, cl := w.cl, rid := w.rid, r := r, va := va, record := putBits (putBits rec 448 32 (w.owner l tok)) 480 8 1, uid := w.uid,
    lane := l, tok := tok, step := ((s.region? w.rid).map (fun q => q.stepno)).getD 0, lid := w.lid, root := root, sbt := sbt, priv := w.priv,
    segs := w.g, al2 := w.al2, al3 := w.al3, ctx := w.ctx, vs := (8, 16), st := if full then .noPlace else .traverse, work := rayWork rec root, hit := none,
    offered := [], cand := none, ended := false, beam := beam, fault := none, susp := false, view := s.opView }

def State.addRay (s : State) (r : Ray) : State :=
  ({ s with fresh := s.fresh + 1 }).updRtu (fun u => { u with rays := u.rays ++ [r] })

def rtraceLane (c : Ctx) (s : State) (l : Nat) : State × LaneRes :=
  match s.issued? c.uid l, s.granted 2 with
  | some w, true =>
    let k := c.e.h.d.toNat
    let sc := c.e.h.c.toNat
    if w.tokPending k l then (s, .fault illegal7)
    else
      match s.rayRec c w l false with
      | .error e => (s, .fault e)
      | .ok (r, va, ls) =>
        if (s.flying w.rid va).isSome then (s, .fault illegal7)
        else
          match s.ueAt ls with
          | some a => (s, .fault ⟨fcMemUe, a⟩)
          | none =>
            match s.bytesAt ls with
            | .error e => (s, .fault e)
            | .ok bs =>
            let rec64 := leNat bs
            if flagsBad (ryFlags rec64) then (s, .fault illegal7)
            else
              let root := s.readRegs c.uid 0 .s sc 2 % 2 ^ 56
              let sbt := s.readRegs c.uid 0 .s (sc + 2) 2 % 2 ^ 56
              let s := s.noteRead (ls.map (fun x => x.2)) none
              let ray := newRay s w l k r va rec64 root sbt none
              let s := s.updWave c.uid (fun w => (w.clearFailed k l).setTok k l true)
              (s.addRay ray, .ok { st := if ray.st = .noPlace then some (.admission .ray c.e.h.s) else admitted c })
  | _, _ => (s, .fault illegal7)

def execRtrace (h : Hdr) (f : EngFn) (x : BitVec 64) (s : State) : Out := runEng 0xE0 h f x rtraceLane (fun _ s => s) s

/-- The first word and the number of words of RLD and RST. -/
def rwords (c : Ctx) (f : EngFn) : Nat × Nat := (c.e.h.b.toNat, f.sub.toNat + 1)

def rldLane (f : EngFn) (c : Ctx) (s : State) (l : Nat) : State × LaneRes :=
  match s.issued? c.uid l, s.granted 2 with
  | some w, true =>
    let q := rwords c f
    if 16 < q.1 + q.2 then (s, .fault illegal7)
    else
      match s.rayRec c w l false with
      | .error e => (s, .fault e)
      | .ok (_, va, ls) =>
        match s.flying w.rid va with
        | some ray => (s, .ok { regs := regWrites l .v c.e.h.d.toNat q.2 (bitsAt ray.copy (32 * q.1) (32 * q.2)), st := admitted c })
        | none =>
          match s.bytesAt ls with
          | .error e => (s, .fault e)
          | .ok bs =>
            let locs := ls.map (fun x => x.2)
            ((((s.noteRead locs none).meetUe locs).touch c.uid (some 1) locs).noteHits c l 7 0 ls bs,
              .ok { regs := regWrites l .v c.e.h.d.toNat q.2 (bitsAt (leNat bs) (32 * q.1) (32 * q.2)), ue := s.ueAt ls, st := admitted c })
  | _, _ => (s, .fault illegal7)

def execRld (h : Hdr) (f : EngFn) (x : BitVec 64) (s : State) : Out := runEng 0xE1 h f x (rldLane f) (fun _ s => s) s

def rstLane (f : EngFn) (c : Ctx) (s : State) (l : Nat) : State × LaneRes :=
  match s.issued? c.uid l, s.granted 2 with
  | some w, true =>
    let q := rwords c f
    if 16 < q.1 + q.2 then (s, .fault illegal7)
    else
      match s.rayRec c w l true with
      | .error e => (s, .fault e)
      | .ok (_, va, ls) =>
        if (s.flying w.rid va).isSome then (s, .fault illegal7)
        else
          let at' := (ls.drop (4 * q.1)).take (4 * q.2)
          s.putAs c none (some 1) 7 l at' (leBytes (4 * q.2) (s.readRegs c.uid l .v c.e.h.d.toNat q.2))
  | _, _ => (s, .fault illegal7)

/-- The bytes that RST writes in a lane. -/
def rstPlaces (f : EngFn) (c : Ctx) (s : State) (l : Nat) : Except LFault (List (Nat × Loc)) :=
  match s.issued? c.uid l with
  | none => .error illegal7
  | some w => (s.rayRec c w l true).map (fun r => (r.2.2.drop (4 * (rwords c f).1)).take (4 * (rwords c f).2))

def execRst (h : Hdr) (f : EngFn) (x : BitVec 64) (s : State) : Out :=
  runWrites (enc 0xE2 h (engFnBits f) x) (rstPlaces f) (rstLane f) s

/-- The candidate that an intersection lane gives; none where its acceptance fails (R380). -/
def Ray.given (r : Ray) (t b : Nat) : Option RayHit :=
  match r.cand, fp32.value t with
  | _, .nan _ => none
  | none, _ => none
  | some c, v =>
    if cmpV v (fp32.value (ryTmin r.record)) < 0 then none
    else
      let q := match v.rat? with | some q => (q.num, q.den) | none => (1, 0)
      let h : RayHit := { c with num := q.1, den := q.2, negZero := v.isZero && 2 ^ 31 ≤ t, bu := bitsAt b 0 16, bv := bitsAt b 16 16 }
      if r.ahead h then some h else none

def rverdLane (f : EngFn) (c : Ctx) (s : State) (l : Nat) : State × LaneRes :=
  match s.wave? c.uid, s.granted 2 with
  | some w, true =>
    match w.kind with
    | .callback rays =>
      match rays.find? (fun x => x.lane = l && !x.done && x.kind ≤ 1) with
      | none => (s, .fault illegal7)
      | some x =>
        let s := s.updWave c.uid (fun w => { w with kind := .callback (rays.map (fun y => if y.lane = l then { y with done := true } else y)) })
        let t := (s.readV c.uid l c.e.h.a.toNat).toNat
        let b := (s.readV c.uid l c.e.h.b.toNat).toNat
        let stop := f.sub = 2
        let f1 := fun (r : Ray) =>
          if x.kind = 0 then r.verdict 0 (f.sub ≠ 1) stop
          else
            match (if f.sub = 1 then none else r.given t b) with
            | some h => ({ r with cand := some h }).verdict 1 true stop
            | none => r.verdict 1 false stop
        let v := s.opView
        (if x.ray = 0 then s else s.updRay w.cl x.ray (fun r => { f1 r with view := joinIds r.view v }), .ok {})
    | _ => (s, .fault illegal7)
  | _, _ => (s, .fault illegal7)

def execRverd (h : Hdr) (f : EngFn) (x : BitVec 64) (s : State) : Out := runEng 0xE3 h f x (rverdLane f) (fun _ s => s) s

def rpoolLane (c : Ctx) (s : State) (l : Nat) : State × LaneRes :=
  match s.issued? c.uid l, s.granted 2 with
  | some w, true =>
    match s.rayRec c w l false with
    | .error e => (s, .fault e)
    | .ok (_, va, _) =>
      let pd := c.e.h.d.toNat
      match s.flying w.rid va with
      | none => (s, .ok { preds := [(pd, false)], st := admitted c })
      | some r =>
        if r.rid ≠ w.rid then (s, .ok { preds := [(pd, false)], st := admitted c })
        else
        let s := (s.seatRay r).updRay r.cl r.id (fun r => { r with st := .finish 7 0 0, fault := none, susp := false })
        (s.updCb (fun x => if x.ray = r.id then { x with ray := 0 } else x), .ok { preds := [(pd, true)], st := admitted c })
  | _, _ => (s, .fault illegal7)

def execRpool (h : Hdr) (f : EngFn) (x : BitVec 64) (s : State) : Out := runEng 0xE6 h f x rpoolLane (fun _ s => s) s

/-- The four counts of RQRY (R382). -/
def State.rayCounts (s : State) (w : Wave) : List Nat :=
  let mine := s.rtu.rays.filter (fun r => r.cl = w.cl && r.rid = w.rid)
  [mine.length, (mine.filter (fun r => r.status = 2)).length,
    (s.waves.filter (fun v => v.rid = w.rid && (match v.kind with | .callback _ => true | _ => false))).length, 4096 - s.rayPlaces w.cl]

def execRqry (h : Hdr) (f : EngFn) (x : BitVec 64) (s : State) : Out :=
  runEngU 0xE7 h f x (fun c s _ =>
    match s.wave? c.uid, s.granted 2 with
    | some w, true => (s, .ok { sregs := regWrites 0 .s h.d.toNat 4 (wordsNat ((s.rayCounts w).map (BitVec.ofNat 32))) })
    | _, _ => (s, .error illegal7)) s

/-! ## Beams (R383 to R386) -/

def bmVis (b : Nat) : Nat := bitsAt b 576 56
def bmPitch (b : Nat) : Nat := bitsAt b 640 32
def bmBase (b : Nat) : Nat := bitsAt b 672 32

/-- Is a block refused (R384)? -/
def blockBad (b : Nat) : Bool :=
  bitsAt b 480 32 ≠ 0 || bitsAt b 568 8 ≠ 0 || bitsAt b 632 8 ≠ 0 || bitsAt b 760 8 ≠ 0 || bitsAt b 800 224 ≠ 0 ||
  flagsBad (bitsAt b 352 16) || bmVis b % 16 ≠ 0 || bmPitch b % 16 ≠ 0

/-- The pixel coordinates of pixel `p` = 16 py + px of a tile. -/
def pixelOf (tile p : Nat) : Nat × Nat := (16 * bitsAt tile 0 16 + p % 16, 16 * bitsAt tile 16 16 + p / 16)

/-- The record of a pixel's ray, OWNER and STATUS apart (R384). -/
def pixelRecord (b tile p : Nat) : Nat :=
  let q := pixelOf tile p
  let v := fun (o : Nat) => fp32.value (bitsAt b o 32)
  let x := fp32.value (fp32.ofInt q.1)
  let y := fp32.value (fp32.ofInt q.2)
  let d := fun i =>
    (fp32.fmaRes .rn false y (v (384 + 32 * i)) (fp32.value (fp32.fmaRes .rn false x (v (256 + 32 * i)) (v (128 + 32 * i))).bits)).bits
  bitsAt b 0 128 + 2 ^ 128 * d 0 + 2 ^ 160 * d 1 + 2 ^ 192 * d 2 + 2 ^ 224 * bitsAt b 224 32 +
    2 ^ 384 * (bitsAt b 352 16 ||| 0x108) + 2 ^ 400 * bitsAt b 368 8 + 2 ^ 408 * bitsAt b 376 8 + 2 ^ 416 * bitsAt b 768 32

/-- The first failure of the checks of R63 on the 256 records of a block (R384). -/
def State.poolFault (s : State) (w : Wave) (l base : Nat) : Option LFault :=
  (List.range 256).foldl (fun acc k =>
    match acc with
    | some f => some f
    | none =>
      match s.locate w l 7 (64 * (base + k)) 64 true 64 with
      | .error e => some (if e.code = fcSegLimit || e.holds then e else illegal7)
      | .ok _ => if (s.flying w.rid (w.byteAddr l 7 (64 * (base + k)) 0)).isSome then some illegal7 else none) none

def beamLane (c : Ctx) (s : State) (l : Nat) : State × LaneRes :=
  match s.issued? c.uid l, s.granted 2 with
  | some w, true =>
    let k := c.e.h.d.toNat
    let a := s.readRegs c.uid 0 .s c.e.h.c.toNat 2 % 2 ^ 56
    if w.tokPending k l then (s, .fault illegal7)
    else
      match s.readVa w.rid a 128 with
      | .error e => (s, .fault e)
      | .ok b =>
        if a % 128 ≠ 0 || blockBad b then (s, .fault illegal7)
        else
          match s.poolFault w l (bmBase b) with
          | some e => (s, .fault e)
          | none =>
            let s := s.noteVa w.rid a 128
            let m : Beam :=
              { id := s.fresh, cl := w.cl, rid := w.rid, uid := c.uid, lane := l, tok := k, owner := w.owner l k,
                step := ((s.region? w.rid).map (fun q => q.stepno)).getD 0, lid := w.lid, priv := w.priv, segs := w.g, al2 := w.al2, al3 := w.al3,
                ctx := w.ctx, unit := none, block := b,
                tile := s.readRegs c.uid l .v c.e.h.a.toNat 1, next := 0, cur := none, entries := [], split := [], failed := none,
                written := 0, fault := none, susp := false, view := s.opView }
            let s := s.updWave c.uid (fun w => (w.clearFailed k l).setTok k l true)
            (({ s with fresh := s.fresh + 1 }).updRtu (fun u => { u with beams := u.beams ++ [m] }), .ok { st := admitted c })
  | _, _ => (s, .fault illegal7)

def execBeam (h : Hdr) (f : EngFn) (x : BitVec 64) (s : State) : Out := runEng 0xE4 h f x beamLane (fun _ s => s) s

/-- The ray by which the unit resolves a pixel. -/
def Beam.pixelRay (b : Beam) (p : Nat) : Ray :=
  let rec64 := pixelRecord b.block b.tile p
  let root := bitsAt b.block 512 56
  { id := 0, cl := b.cl, rid := b.rid, r := (bmBase b.block + p) % 2 ^ 32,
    va := (segBaseOf (Sparse.get 0 b.segs 7) + 64 * (bmBase b.block + p)) % 2 ^ 56, record := rec64, uid := b.uid, lane := b.lane, tok := b.tok,
    step := b.step, lid := b.lid, root := root, sbt := bitsAt b.block 704 56, priv := b.priv, segs := b.segs, al2 := b.al2, al3 := b.al3, ctx := b.ctx, vs := (8, 16),
    st := .traverse, work := rayWork rec64 root, hit := none, offered := [], cand := none, ended := false, beam := some b.id, fault := none,
    susp := false, view := b.view }

/-- A beam's step so far. -/
abbrev BAcc := State × Beam

/-- A step of a beam meets a fault, which suspends it, or waits. -/
def beamStop (s : State) (b : Beam) (e : LFault) : BAcc := (if e.holds then s.hold b.rid e 0 [] else s, { b with fault := some e.pair })

/-- A beam's write of some bytes. -/
def beamWrite (s : State) (b : Beam) (ls : Except LFault (List (Nat × Loc))) (bs : List Byte) (k : State → BAcc) : BAcc :=
  match ls with
  | .error e => beamStop s b e
  | .ok ls => let w := s.writeAll b.rid ls bs; (match w.2 with | some e => beamStop w.1 b e | none => k w.1)

/-- The current pixel is split: its record is written and its ray submitted (R385). A write that faults suspends the beam. -/
def splitPixel (s : State) (b : Beam) : BAcc :=
  let r := b.pixelRay b.next
  let rec64 := putBits (putBits r.record 448 32 b.owner) 480 8 1
  beamWrite s b (s.recLocs r) (leBytes 64 rec64) (fun s =>
    let full := 4096 ≤ s.rayPlaces b.cl || s.rtu.rays.any (fun x => x.cl = b.cl && decide (x.st = .noPlace))
    (s.addRay { r with id := s.fresh, record := rec64, st := if full then .noPlace else .traverse, view := s.opView },
      { b with split := b.split ++ [b.next], next := b.next + 1, cur := none }))

/-- A step of the unit on the current pixel: begin it, or split it at once; go on with its ray; or take its outcome. -/
def beamPixel (s : State) (b : Beam) : BAcc :=
  match b.cur with
  | none => if Config.order s.tick 2 % 2 = 1 then splitPixel s b else (s, { b with cur := some (b.pixelRay b.next) })
  | some r =>
    let a := rayStep s true r
    match a.2.fault, a.2.st with
    | some f, _ => (a.1, { b with fault := some f })
    | none, .traverse => (a.1, { b with cur := some a.2 })
    | none, .finish 3 _ _ | none, .finish 4 _ _ =>
      (a.1, { b with entries := b.entries ++ [(b.next, visEntry (b2n a.2.hit.isSome) a.2.hit)], next := b.next + 1, cur := none })
    | none, _ => splitPixel a.1 b

/-- Writes the next visibility entry of a beam. -/
def beamEntry (s : State) (b : Beam) : BAcc :=
  match b.entries.drop b.written with
  | [] => (s, b)
  | (p, e) :: _ =>
    let q := pixelOf b.tile p
    beamWrite s b (s.bytesOfVa b.rid ((bmVis b.block + q.2 * bmPitch b.block + 16 * q.1) % 2 ^ 56) true 16) (leBytes 16 e)
      (fun s => (s, { b with written := b.written + 1 }))

/-- The beam's operation acts: a step of it is taken. -/
def State.beamStep (s : State) (b : Beam) (f : State → Beam → BAcc) : State :=
  let a := f (s.asOp (.beam b.id) (.cluster b.cl) b.view) b
  let v := a.1.opView
  (if a.2.fault.isNone then a.1.dropRops (.beam b.id) else a.1).opDone.updBeam b.cl b.id (fun _ =>
    { a.2 with view := joinIds a.2.view v })

/-- A beam is over: its token clears, or fails, after its accesses and those of its rays (R386). -/
def State.landBeam (s : State) (b : Beam) : State :=
  let s := s.updRtu (fun u => { u with beams := u.beams.filter (fun (x : Beam) => !(x.cl = b.cl && x.id = b.id)) })
  let s := ((s.dropRops (.beam b.id)).endReads (.beam b.id)).asOp (.beam b.id) (.cluster b.cl) b.view
  let s := match b.failed with
    | some f => s.failTok b.uid b.tok b.lane f.1 f.2
    | none => s.clearTok b.uid b.tok b.lane
  (s.noteEnd b.rid b.uid).opDone

/-- The lowest of the chip's beam units that no beam holds (R6). -/
def State.freeBtu (s : State) : Option Nat := (List.range 8).find? (fun k => !s.rtu.beams.any (fun b => b.unit = some k))

/-- BEAM_COMPLETE: the next step of a beam: it takes one of the chip's units; its pixels in order, its entries as they come, its token when all 256 are
written. -/
def execBeamComplete (cl k : Nat) (s : State) : Out :=
  .next (match s.rtu.beams.find? (fun b => b.cl = cl && b.id = k && b.fault.isNone && !b.susp) with
    | none => s
    | some b =>
      if b.unit.isNone then (match s.freeBtu with | some u => s.updBeam cl k (fun b => { b with unit := some u }) | none => s)
      else if b.next < 256 then s.beamStep b beamPixel
      else if b.written < b.entries.length then s.beamStep b beamEntry
      else if b.entries.length = 256 then s.landBeam b
      else s)

/-- The rays that a beam split, and the beam, end with a failed code (R376, R441). -/
def State.failBeam (s : State) (b : Beam) (code info : Nat) : State :=
  let s := s.updRtu (fun u => { u with rays := u.rays.map (fun (r : Ray) =>
    if r.cl = b.cl && r.beam = some b.id then { r with st := .finish 8 code info, fault := none, susp := false } else r) })
  let mine := (s.rtu.rays.filter (fun (r : Ray) => r.cl = b.cl && r.beam = some b.id)).map (fun r => r.id)
  let s := s.updCb (fun x => if mine.contains x.ray then { x with ray := 0 } else x)
  s.landBeam { b with failed := some (code, info) }

/-- A ray ends with a failed code (R376). -/
def State.failRay (s : State) (cl id code info : Nat) : State :=
  let s := match s.rtu.rays.find? (fun r => r.cl = cl && r.id = id) with | some r => s.seatRay r | none => s
  (s.updRay cl id (fun r => { r with st := .finish 8 code info, fault := none, susp := false })).updCb
    (fun x => if x.ray = id then { x with ray := 0 } else x)

/-! ## COVRD (R387) -/

def covrdLane (c : Ctx) (s : State) (l : Nat) : TRes :=
  match s.wave? c.uid, s.granted 2 with
  | some w, true =>
    let a := s.readRegs c.uid 0 .s c.e.h.c.toNat 2 % 2 ^ 56
    let p := s.readRegs c.uid l .v c.e.h.a.toNat 1
    match s.tread w.rid (a + 72) 12 with
    | .error e => (.fault e, [])
    | .ok (b, m) =>
      if m.ue.isSome then (.ok { ue := m.ue, st := admitted c }, m.locs)
      else
        match s.tread w.rid ((bitsAt b 0 56 + bitsAt p 16 16 * bitsAt b 64 32 + 16 * bitsAt p 0 16) % 2 ^ 56) 16 with
        | .error e => (.fault e, [])
        | .ok (v, q) => (.ok { regs := regWrites l .v c.e.h.d.toNat 4 v, ue := q.ue, st := admitted c }, m.locs ++ q.locs)
  | _, _ => (.fault illegal7, [])

def execCovrd (h : Hdr) (f : EngFn) (x : BitVec 64) (s : State) : Out := runTex 0xE5 h f x false covrdLane s

end Sys2Proof.Machine
end

