-- ==== Sys2Proof/Machine/Network.lean ====
section
/-!
DEFINITION. What moves through slices, networks and buses: multicast reads (R213 to R215, R248), broadcast buses (R245 to R247), active messages
(R250 to R254), and drains (R243).
-/

namespace Sys2Proof.Machine

def State.updFlight (s : State) (f : Flight → Flight) : State := { s with flight := f s.flight }

/-! ## Multicast (R214, R215, R248) -/

/-- The slice that holds the group of a request; one on a peer is held by the slice that serves the port block (R237). -/
def MReq.slice (q : MReq) : Nat := homeSlice q.loc

/-- The window of an entry: MCWIN of its slice for the partition of the request that opened it (R248). -/
def State.window (s : State) (e : MEntry) : Nat := bitsAt (s.csr (csrAddr 7 0 e.slice e.win)) 0 8

/-- Is an entry open: has its window not passed since its first data? -/
def State.isOpen (s : State) (e : MEntry) : Bool := match e.filled with | none => true | some t => s.clk < t + s.window e

/-- Does a request name the group of an entry? -/
def MReq.joins (q : MReq) (e : MEntry) : Bool := e.slice = q.slice && e.loc.sec = q.loc.sec && e.size = q.size

/-- The copies that a request is owed once its fill's bytes are there. -/
def State.copiesFor (s : State) (q : MReq) (bytes : List Byte) : State :=
  q.dests.foldl (fun s d =>
    let c : MCopy := { id := s.fresh, req := q.id, uid := q.uid, lane := q.lane, tok := q.tok, rid := q.rid, step := q.step, cl := d.1,
                       cb := d.2, bytes := bytes, asked := askKey s.clk (256 + s.fresh) }
    ({ s with fresh := s.fresh + 1 }).updCts (fun t => { t with copies := t.copies ++ [c] })) s

/-- A request takes its place: the requests of an entry stand in the order in which they joined it, those that wait in the order of their arrival. -/
def State.placeReq (s : State) (q : MReq) : State :=
  s.updFlight (fun f => { f with mreqs := f.mreqs.filter (fun x => x.id ≠ q.id) ++ [q] })

/-- The higher of two priorities. -/
def higher (a b : Option Nat) : Option Nat := match a, b with | none, b => b | a, none => a | some x, some y => some (max x y)

/-- A request joins an entry; where the data is there, it is owed its copies of the same bytes. -/
def State.joinEntry (s : State) (q : MReq) (e : MEntry) : State :=
  let q := { q with waits := false, entry := some e.id, late := e.filled.isSome, view := if e.filled.isSome then joinIds q.view e.view else q.view }
  let s := (s.placeReq q).updFlight (fun f => { f with ments := f.ments.map (fun (x : MEntry) => if x.id = e.id then { x with hint := higher x.hint q.hint } else x) })
  if e.filled.isSome then s.copiesFor q e.bytes else s

/-- A request opens an entry. -/
def State.openEntry (s : State) (q : MReq) : State :=
  let e : MEntry := { id := s.fresh, slice := q.slice, rid := q.rid, va := q.va, loc := q.loc, size := q.size, win := q.win, hint := q.hint, view := q.view, filled := none,
                      bytes := [] }
  ({ s with fresh := s.fresh + 1 }.updFlight (fun f => { f with ments := f.ments ++ [e] })).placeReq { q with waits := false, entry := some e.id }

/-- Has a slice a free entry? -/
def State.entryFree (s : State) (slice : Nat) : Bool := (s.flight.ments.filter (fun e => e.slice = slice)).length < 16

/-- A request that arrives, or waits: it joins the open entry of its group, or opens one; else it waits behind those that wait (R214, R248). -/
def State.admitReq (s : State) (q : MReq) : State :=
  match s.flight.ments.find? q.joins with
  | some e => s.joinEntry q e
  | none =>
    if s.entryFree q.slice && (q.waits || !s.flight.mreqs.any (fun x => x.waits && x.slice = q.slice)) then s.openEntry q
    else if q.waits then s else s.placeReq { q with waits := true }

/-- The entries of a slice whose window has passed close, and the requests that wait there are admitted in the order of their arrival. -/
def State.closeEntries (s : State) (slice : Nat) : State :=
  let s := s.updFlight (fun f => { f with ments := f.ments.filter (fun e => e.slice ≠ slice || s.isOpen e) })
  (s.flight.mreqs.filter (fun q => q.waits && q.slice = slice)).foldl State.admitReq s

/-- Request `k` arrives at its slice. -/
def State.arriveReq (s : State) (k : Nat) : State :=
  match s.flight.mreqs.find? (fun q => q.id = k && q.entry.isNone && !q.waits) with
  | none => s
  | some q => (s.closeEntries q.slice).admitReq q

/-- MULTICAST_REQUEST_ARRIVE. -/
def execMulticastRequestArrive (k : Nat) (s : State) : Out := .next (s.arriveReq k)

/-- The bytes of a group, each with its virtual address. -/
def MEntry.locs (e : MEntry) : List (Nat × Loc) :=
  (List.range e.size).map (fun i => ((e.va + i) % 2 ^ 56, match e.loc with | .dev pa k => .dev (pa + i) k | .rem p a k => .rem p ((a + i) % 2 ^ 56) k | l => l))

/-- Each joined request of an entry has the points of the entry's read, which later joiners find there too (R214, R226). -/
def updFill (k : Nat) (s : State) (f : Place → View → View) : State :=
  let is := (f .op (View.of [])).ids
  (s.updReader f).updFlight (fun x =>
    { x with ments := x.ments.map (fun (e : MEntry) => if e.id = k then { e with view := joinIds e.view is } else e)
             mreqs := x.mreqs.map (fun q => if q.entry = some k then { q with view := joinIds q.view is } else q) })

/-- The lines of a fill enter L2 at the priority of its HINT (R213). -/
def State.fillLines (s : State) (e : MEntry) : State :=
  (sectorsOf (e.locs.map (fun x => x.2))).foldl (fun s l => match l with | .dev pa _ => s.touchLine none (pa / 128) e.hint | _ => s) s

/-- A request whose fill met uncorrectable data: its lane is to park and its token clears. -/
def State.mcastUe (s : State) (q : MReq) (off : Nat) : State :=
  (s.updThread q.uid q.lane (fun t => { t with ue := some (t.ue.getD ((q.va + off) % 2 ^ 56)) })).clearTok q.uid q.tok q.lane

/-- The end of a fill that no bytes came of: its entry and requests are gone, and each request ends with what `f` makes of it. -/
def State.failFill (s : State) (e : MEntry) (f : State → MReq → State) : State :=
  let joined := s.flight.mreqs.filter (fun q => q.entry = some e.id)
  let s := s.updFlight (fun f => { f with ments := f.ments.filter (fun x => x.id ≠ e.id), mreqs := f.mreqs.filter (fun q => q.entry ≠ some e.id) })
  (joined.foldl f s).closeEntries e.slice

/-- What a fill's access has met: data of a peer that has not come is awaited; uncorrectable data parks the lanes (R215); another fault of a peer (R427) is
left as a failed code on each token (log 17). -/
def State.fillStop (s : State) (e : MEntry) (f : LFault) : State :=
  if f.holds then s.hold e.rid f 0 []
  else if f.code = fcMemUe then s.failFill e (fun s q => s.mcastUe q (f.info - e.va))
  else s.failFill e (fun s q => s.failTok q.uid q.tok q.lane f.code (q.va + (f.info - e.va)))

/-- MULTICAST_FILL: the group of entry `k` is read, and every joined request is owed its copies (R214). -/
def execMulticastFill (slice k : Nat) (s : State) : Out :=
  .next (match s.flight.ments.find? (fun e => e.id = k && e.slice = slice && e.filled.isNone) with
    | none => s
    | some e =>
      let s := s.asOp (.mread k) .port e.view
      let locs := e.locs.map (fun x => x.2)
      match s.ueAt e.locs, s.absent e.locs with
      | some a, _ => ((s.meetUe locs).fillStop e ⟨fcMemUe, a⟩).opDone
      | none, some f => (s.fillStop e f).opDone
      | none, none =>
        let s := s.updFlight (fun f => { f with ments := f.ments.map (fun (x : MEntry) => if x.id = k then { x with view := [] } else x) })
        let r := s.readBy (updFill k) locs none
        let s := ((r.1.dropRops (.mread k)).endReads (.mread k)).opDone
        let s := (s.updFlight (fun f =>
          { f with ments := f.ments.map (fun (x : MEntry) => if x.id = k then { x with filled := some s.clk, bytes := r.2 } else x) })).fillLines e
        (s.flight.mreqs.filter (fun q => q.entry = some k)).foldl (fun s q => s.copiesFor q r.2) s)

/-- MULTICAST_ENTRY_CLOSE: an entry whose window has passed since its first data. -/
def execMulticastEntryClose (k : Nat) (s : State) : Out :=
  .next (match s.flight.ments.find? (fun e => e.id = k) with
    | none => s
    | some e => if s.isOpen e then s else s.closeEntries e.slice)

/-- A copy is delivered or dropped: when it is its request's last, the token clears. -/
def State.endCopy (s : State) (c : MCopy) : State :=
  let v := s.opView
  let s := s.updCts (fun t => { t with copies := t.copies.filter (fun x => x.id ≠ c.id) })
  let s := s.updFlight (fun f => { f with mreqs := f.mreqs.map (fun q => if q.id = c.req then { q with view := joinIds q.view v } else q) })
  if s.cts.copies.any (fun x => x.req = c.req) then s.opDone
  else
    let all := ((s.flight.mreqs.find? (fun q => q.id = c.req)).map (fun q => q.view)).getD v
    let s := (s.updFlight (fun f => { f with mreqs := f.mreqs.filter (fun q => q.id ≠ c.req) })).asOp (.mread c.req) .port all
    ((s.clearTok c.uid c.tok c.lane).noteEnd c.rid c.uid).opDone

/-- The acting agent writes bytes into a ring, with the pad bits of the units that hold FILL (R295). -/
def State.ringWrite (s : State) (cl cb off : Nat) (bs : List Byte) (pads : List Bool) : State :=
  match s.cbuf? cl cb with
  | none => s
  | some x =>
    let s := s.store (x.locs off bs.length) bs
    ((List.range pads.length).zip pads).foldl (fun s p => if p.2 then s.setPad (x.loc (off + 2 * p.1)) true else s) s

/-- The acting agent writes what consumers have freed: their accesses before the release happen before its own (R227). -/
def State.afterFreed (s : State) (cl cb : Nat) : State := s.updReader (fun _ v => v.join (s.cbView cl cb true))

/-- A copy is written into its cbuf, and advances it. -/
def State.landCopy (s : State) (c : MCopy) : State :=
  let s := s.updCts (fun t => { t with copies := t.copies.map (fun x => if x.id = c.id then { x with asked := 0 } else x) })
  let g := s.grantClaim c.cl c.cb true (.copy c.id) false c.bytes.length
  (((g.1.afterFreed c.cl c.cb).ringWrite c.cl c.cb g.2 c.bytes []).settleClaim c.cl c.cb true (.copy c.id) true).endCopy c

/-- MULTICAST_COPY_ADVANCE: copy `k` is written into its cbuf when it has room there, or dropped (R215, R265, R266). -/
def execMulticastCopyAdvance (k : Nat) (s : State) : Out :=
  .next (match s.cts.copies.find? (fun c => c.id = k) with
    | none => s
    | some c =>
      let v := ((s.flight.mreqs.find? (fun q => q.id = c.req)).map (fun q => q.view)).getD []
      if s.drops c.rid c.cl c.cb then ((s.count (clReg c.cl 5) 32 1).asOp (.mread c.req) .port v).endCopy c
      else if s.grantable c.cl c.cb true c.asked c.bytes.length then (s.asOp (.mread c.req) .port v).landCopy c
      else s)

/-! ## Buses (R246, R247) -/

/-- The position of a cluster along a bus. -/
def busPos (bus cl : Nat) : Nat := if bus < 6 then cl % 8 else cl / 8

def State.updXfer (s : State) (id : Nat) (f : Xfer → Xfer) : State :=
  s.updCts (fun c => { c with xfers := c.xfers.map (fun x => if x.id = id then f x else x) })

def State.setDst (s : State) (x : Xfer) (d : Nat) (v : XferDst) : State :=
  s.updXfer x.id (fun x => { x with dsts := x.dsts.map (fun p => if p.1 = d then (d, v) else p) })

/-- A destination that has no buffer of the region, or one of threads, is dropped (R265, R266). -/
def State.dropDsts (s : State) (bus : Nat) : State :=
  (s.cts.xfers.filter (fun x => x.bus = bus)).foldl (fun s x =>
    (x.dsts.filter (fun p => (match p.2 with | .asked | .claimed _ => true | _ => false) && s.drops x.rid p.1 x.cb)).foldl (fun s p =>
      (s.count (clReg p.1 5) 32 1).setDst x p.1 .dropped) s) s

/-- Is another transfer under way into a buffer (R247)? -/
def State.dstBusy (s : State) (x : Xfer) (d : Nat) : Bool :=
  s.cts.xfers.any (fun y => y.id ≠ x.id && y.cb = x.cb && y.dsts.any (fun p => p.1 = d && (match p.2 with | .claimed _ => true | _ => false)))

/-- The bytes of the next beat. -/
def Xfer.beat (x : Xfer) : Nat := min 256 (x.total - x.sent)

/-- Has a destination room for the next beat: a first claim granted in the order of asking (R264), or room for its claim to grow? -/
def State.dstRoom (s : State) (x : Xfer) (p : Nat × XferDst) : Bool :=
  match p.2 with
  | .asked => !s.dstBusy x p.1 && s.grantable p.1 x.cb true x.asked x.beat
  | .claimed _ => x.beat ≤ s.cbRoom p.1 x.cb
  | _ => true

/-- Has the next beat its bytes? -/
def Xfer.hasBeat (x : Xfer) : Bool := x.sent < x.total && x.sent + x.beat ≤ x.data.length

/-- Is the next beat of a transfer ready: its bytes there, and room for it at every destination (R246)? -/
def State.beatReady (s : State) (x : Xfer) : Bool := x.hasBeat && x.dsts.all (s.dstRoom x)

/-- The transfer whose beat is granted next: round-robin from the cluster after the last one (R246). -/
def State.busNext (s : State) (bus : Nat) : Option Xfer :=
  let n := if bus < 6 then 8 else 6
  let last := Sparse.get (n - 1) s.cts.busLast bus
  (List.range n).findSome? (fun i => s.cts.xfers.find? (fun x => x.bus = bus && busPos bus x.cl = (last + 1 + i) % n && s.beatReady x))

/-- The engine that makes a transfer acts, and has acted. -/
def State.asXfer (s : State) (x : Xfer) : State := match s.task? x.cl x.slot with | some t => s.asTask t | none => s
def State.xferDone (s : State) (x : Xfer) : State := match s.task? x.cl x.slot with | some t => s.taskDone t | none => s

/-- A beat has landed: the writes are the engine's, and what they follow is what its completion follows, once the last beat is there. -/
def State.beatDone (s : State) (x : Xfer) (n0 : Nat) : State :=
  if x.sent + x.beat = x.total then s.xferDone x
  else (s.updReader (fun _ v => View.of (v.ids.filter (fun i => 2 * n0 ≤ i)))).xferDone x

/-- A beat lands at one destination: its claim is granted, or grows. -/
def State.landBeat (s : State) (x : Xfer) (bs : List Byte) (pads : List Bool) (p : Nat × XferDst) : State :=
  match p.2 with
  | .asked =>
    let g := s.grantClaim p.1 x.cb true (.bus x.id) false x.beat
    ((g.1.setDst x p.1 (.claimed g.2)).afterFreed p.1 x.cb).ringWrite p.1 x.cb g.2 bs pads
  | .claimed off => ((s.growClaim p.1 x.cb x.id x.beat).afterFreed p.1 x.cb).ringWrite p.1 x.cb (off + x.sent) bs pads
  | _ => s

/-- BUS_BEAT_GRANT: one beat of 256 bytes of a bus lands at every destination. -/
def execBusBeatGrant (bus : Nat) (s : State) : Out :=
  .next (
    let s := s.dropDsts bus
    match s.busNext bus with
    | none => s
    | some x =>
      let n := if bus < 6 then 8 else 6
      let bs := (x.data.drop x.sent).take x.beat
      let pads := (x.pads.drop (x.sent / 2)).take (x.beat / 2)
      let s := (x.dsts.foldl (fun s p => s.landBeat x bs pads p) (s.asXfer x)).beatDone x s.ord.next
      (s.updXfer x.id (fun y => { y with sent := y.sent + x.beat, since := s.clk })).updCts (fun c => { c with busLast := Sparse.put (n - 1) c.busLast bus (busPos bus x.cl) }))

/-- BUS_TRANSFER_ADVANCE: every beat of transfer `k` has landed, and its destinations advance. -/
def execBusTransferAdvance (bus k : Nat) (s : State) : Out :=
  .next (match s.cts.xfers.find? (fun x => x.bus = bus && x.id = k && x.sent = x.total) with
    | none => s
    | some x =>
      let s := (x.dsts.foldl (fun s p => match p.2 with | .claimed _ => s.settleClaim p.1 x.cb true (.bus x.id) true | _ => s) (s.asXfer x)).xferDone x
      s.updXfer x.id (fun x => { x with dsts := x.dsts.map (fun p => match p.2 with | .claimed _ => (p.1, .over) | v => (p.1, v)) }))

/-! ## Drains (R243, R244) -/

/-- Injection of a partition stops. -/
def State.startDrain (s : State) (part : Nat) : State := s.updSvc (fun v => { v with drains := v.drains ++ [(part, s.clk)] })

/-- The next partition of a spare slice's takeover is drained, once no drain is under way (R244). -/
def State.nextDrain (s : State) : State :=
  match s.svc.drains, s.svc.drainQ with
  | [], p :: r => (s.updSvc (fun v => { v with drainQ := r })).startDrain p
  | _, _ => s

/-- DRAIN_START: injection of a partition stops. The root's set is never drained. -/
def execDrainStart (part : Nat) (s : State) : Out :=
  .next (if part < 8 && !s.svc.drains.any (fun d => d.1 = part) then s.startDrain part else s)

/-- Are requests or replies of a partition in the networks: accesses being checked, results and run-ahead data on their way, multicast requests? -/
def State.inNetwork (s : State) (part : Nat) : Bool :=
  let mine := fun (uid : Nat) => s.classOf (s.ridOf uid) = part
  s.waves.any (fun w => s.classOf w.rid = part && !(w.lanesWhere (fun _ t => match t.st with | .admission .checks _ => true | _ => false)).isEmpty) ||
  s.pend.any (fun p => mine p.uid) || s.flight.ahead.any (fun a => mine a.uid) ||
  s.flight.mreqs.any (fun q => s.classOf q.rid = part && q.entry.isNone && !q.waits)

/-! ## Active messages (R250 to R254) -/

/-- s16 of the handler (R254). -/
def srcWord (w : Wave) (l : Nat) : Nat := w.cl + 2 ^ 6 * w.core + 2 ^ 8 * w.quad + 2 ^ 10 * w.slot + 2 ^ 14 * l

/-- The checks of R252 in their order, and the entry read: none where the message goes. -/
def State.amFault (s : State) (w : Wave) (r : Region) (k l t C : Nat) : Option LFault :=
  if w.tokPending k l then some illegal7
  else if bitsAt t 16 16 ≠ 0 || bitAt t 7 || 47 < bitsAt t 0 6 then some illegal7
  else if bitAt t 6 && (r.cgrp = 0 || r.cgsz ≤ bitsAt t 8 8) then some illegal7
  else if !bitAt t 6 && !s.inPart w.rid (bitsAt t 0 6) then some ⟨fcPermission, t⟩
  else if r.amtbl = 0 then some ⟨fcHandle, C⟩
  else
    match s.tableEntry w.rid r.amtbl C 1 with
    | .error e => some e
    | .ok none => some ⟨fcHandle, C⟩
    | .ok (some _) => none

/-- The messages of a core at a stage. -/
def State.atCore (s : State) (cl core : Nat) (st : AmStage) : List AMsg := s.cts.msgs.filter (fun m => m.cl = cl && m.core = core && m.stage = st)

/-- A message that has moved to a stage stands behind those that are there: the messages of a stage are in the order of their arrival. -/
def State.moveMsg (s : State) (m : AMsg) (st : AmStage) : State :=
  s.updCts (fun t => { t with msgs := t.msgs.filter (fun x => x.id ≠ m.id) ++ [{ m with stage := st }] })

def amsgLane (f : EngFn) (c : Ctx) (s : State) (l : Nat) : State × LaneRes :=
  match s.wave? c.uid, s.region? (s.ridOf c.uid) with
  | some w, some r =>
    let k := c.e.h.d.toNat
    let C := c.e.h.c.toNat
    let t := s.srcCount c l .b
    match s.amFault w r k l t C with
    | some e => if e.code = fcMemUe then (s.meetUeAt w.rid e, .ok { ue := some e.info, st := admitted c }) else (s, .fault e)
    | none =>
      let n := f.sub.toNat + 1
      let full := 16 ≤ (s.atCore w.cl w.core .core).length || !(s.atCore w.cl w.core .thread).isEmpty
      let m : AMsg :=
        { id := s.fresh, uid := c.uid, lane := l, tok := k, rid := w.rid, step := r.stepno, src := srcWord w l,
          peer := if r.cgrp = 0 then 0 else r.peerix, away := false, cl := w.cl, core := w.core, target := t, index := C,
          words := leWords n (s.readRegs c.uid 0 .s c.e.h.a.toNat n), stage := if full then .thread else .core, view := s.opView }
      let s := s.updWave c.uid (fun w => (w.clearFailed k l).setTok k l true)
      (({ s with fresh := s.fresh + 1 }).updCts (fun t => { t with msgs := t.msgs ++ [m] }),
        .ok { st := if full then some (.admission .message c.e.h.s) else admitted c })
  | _, _ => (s, .fault illegal7)

def execAmsg (h : Hdr) (f : EngFn) (x : BitVec 64) (s : State) : Out := runEng 0xAC h f x (amsgLane f) (fun _ s => s) s

def State.dropMsg (s : State) (id : Nat) : State := s.updCts (fun t => { t with msgs := t.msgs.filter (fun m => m.id ≠ id) })

/-- AMSG_QUEUE_ENTER: the first message that waits with its thread enters the core's outgoing queue. -/
def execAmsgQueueEnter (cl core : Nat) (s : State) : Out :=
  .next (match s.atCore cl core .thread with
    | [] => s
    | m :: _ =>
      if 16 ≤ (s.atCore cl core .core).length then s
      else
        let s := s.moveMsg m .core
        match (s.thread m.uid m.lane).st with
        | .admission .message settle => s.resume m.uid m.lane (s.thread m.uid m.lane).pc settle
        | _ => s)

/-- The relay of a message (R253): that of its home slice, for one to or of a peer that of the slice which serves the port block. -/
def AMsg.relay (m : AMsg) : Nat := if bitAt m.target 6 || m.away then Config.portSlice % 64 else 4 * (bitsAt m.target 0 6 % 16) + m.cl % 4

/-- Messages of a traffic class at a relay, and in a target cluster's queue. -/
def State.inRelay (s : State) (relay cls : Nat) : List AMsg :=
  s.cts.msgs.filter (fun m => m.stage = .relay && m.relay = relay && s.classOf m.rid = cls)
def State.inQueue (s : State) (cl cls : Nat) : List AMsg :=
  s.cts.msgs.filter (fun m => m.stage = .queue && bitsAt m.target 0 6 = cl && s.classOf m.rid = cls)

/-- A message's journey to its target is over for its sender: the token clears (R253). -/
def State.messageDone (s : State) (m : AMsg) : State := (((s.asOp (.lane m.uid m.lane) .port m.view).clearTok m.uid m.tok m.lane).noteEnd m.rid m.uid).opDone

/-- The first message of a relay goes to the target cluster's queue, or to the peer; one for a peer of a group that is not active ends with ABORT (R421). -/
def State.leaveRelay (s : State) (m : AMsg) : State :=
  if bitAt m.target 6 && !m.away then
    match s.region? m.rid with
    | some r =>
      if r.grpActive then (s.send (.amsg m.id m.rid (bitsAt m.target 8 8) m.target m.index m.words m.src m.view)).moveMsg m .peer
      else (s.dropMsg m.id).failTok m.uid m.tok m.lane fcAbort r.stepno
    | none => s.dropMsg m.id
  else if (s.inQueue (bitsAt m.target 0 6) (s.classOf m.rid)).length < 8 then
    let s := s.moveMsg m .queue
    if m.away then s.send (.ack (.peer (s.moduleOf m.rid m.peer) (s.classOf m.rid)) m.tok [] 0 ⟨[], []⟩) else s.messageDone m
  else s

/-- AMSG_RELAY_ADVANCE: message `k`, the first at its stage, moves on when the next stage has an entry. -/
def execAmsgRelayAdvance (k : Nat) (s : State) : Out :=
  .next (match s.cts.msgs.find? (fun m => m.id = k) with
    | none => s
    | some m =>
      match m.stage with
      | .core =>
        if (s.atCore m.cl m.core .core).head? = some m && !s.draining m.rid && (s.inRelay m.relay (s.classOf m.rid)).length < 8 then s.moveMsg m .relay else s
      | .relay => if (s.inRelay m.relay (s.classOf m.rid)).head? = some m then s.leaveRelay m else s
      | _ => s)

/-- The handler wave of a message (R254). -/
def amWave (m : AMsg) (w : Wave) : Wave :=
  (w.withScalars 0 m.words).withScalars 16
    [BitVec.ofNat 32 m.src, BitVec.ofNat 32 (m.peer + 2 ^ 8 * m.words.length + 2 ^ 13 * b2n m.away)]

/-- Starts the handler of a message on a core, with the privilege of its region (R99, R414); none while it waits. The entry of AMTBL is read when the handler
starts; that a message whose entry is then not readable or no longer valid waits at the head of its queue is the model's choice: the spec says nothing of it (log 96). -/
def State.startAm (s : State) (m : AMsg) (cl core : Nat) : Option State :=
  match s.region? m.rid with
  | none => none
  | some r =>
    match s.tableEntry m.rid r.amtbl m.index 1 with
    | .ok (some entry) =>
      if !s.coreOk r cl core then none
      else (s.startHandler r cl core (.amsg m.id) entry 128 r.hV r.hS r.priv (handlerSegs r) m.view (amWave m)).map (fun s => s.dropMsg m.id)
    | _ => none

end Sys2Proof.Machine
end

