-- ==== Sys2Proof/Machine/Translate.lean ====
section
/-!
DEFINITION. The walk unit (R425, R428 to R431): a walk through the walk cache, what it fills, and the delivery of its result to every access that
waits for it.
-/

namespace Sys2Proof.Machine

/-! ## The walk -/

/-- The entry that a walk for `va` uses at a level: the walk cache's, freely also one that the tables have left, else the one in memory (R429, R431). -/
def State.walkEntry (s : State) (va : Nat) (tag : Tag) (lvl a : Nat) : Nat :=
  let now := s.entryAt a
  match s.ptrs.find? (fun p => p.tag = tag && p.lvl = lvl && p.pre = va / 2 ^ lvlShift lvl) with
  | none => now
  | some p => if p.entry = now || Config.useStale s.tick (a + 2 ^ 60) then p.entry else now

/-- The entries that a walk uses from level `lvl` down, each with the tag under which its level is reached. -/
def pathFrom (read : Tag → Nat → Nat → Nat) (va tb : Nat) : Nat → Nat → Tag → List (Tag × Nat × Nat)
  | lvl, t, tag =>
    let e := read tag lvl (t + 8 * lvlIndex lvl tb va)
    (tag, lvl, e) :: (if bitAt e 0 && !bitAt e 1 then match lvl with | 0 => [] | lvl' + 1 => pathFrom read va tb lvl' (bitsAt e 8 48 * 2 ^ 8) (tagBelow e tag) else [])

/-! ## Fills (R429) -/

/-- A pointer enters the walk cache, of 64 sets of 8 ways (R429). -/
def State.fillPtr (s : State) (e : PtrEntry) : State :=
  let l := s.ptrs.filter (fun x => !(x.tag = e.tag && x.lvl = e.lvl && x.pre = e.pre))
  { s with ptrs := roomIn l (fun x => Config.tlbSet x.pre % 64 = Config.tlbSet e.pre % 64) 8 (Config.order s.tick e.pre) ++ [e] }

/-- A walk whose page passes the checks of a requester leaves its pointers in the walk cache. -/
def State.fillPath (s : State) (va : Nat) (path : List (Tag × Nat × Nat)) : State :=
  path.foldl (fun s x => if bitAt x.2.2 1 then s else s.fillPtr ⟨x.1, x.2.1, va / 2 ^ lvlShift x.2.1, x.2.2⟩) s

/-- For a requester whose checks pass, the leaf enters its caches, and the level-3 entry its core's (R428, R429). -/
def State.fillFor (s : State) (q : WalkReq) (part ptroot : Nat) (tag : Tag) (l : Leaf) (path : List (Tag × Nat × Nat)) : State :=
  let s := q.tlb.chain.foldl (fun s a => s.fillTlb ⟨a, tag, q.va, l⟩) s
  match q.tlb, path.head? with
  | .core k, some x => s.fillTop ⟨k, part, ptroot, lvlIndex 3 (bitsAt ptroot 0 5) q.va, x.2.2⟩
  | _, _ => s

/-! ## Delivery (R430) -/

/-- The fault field of an engine operation that waits. -/
def State.answerOp (s : State) (w : Who) (f : Option (Nat × Nat)) : State :=
  let put := fun (old : Option (Nat × Nat)) => match old with | some x => if suspends x then old else f | none => none
  match w with
  | .task cl slot => s.updTask cl slot (fun t => { t with fault := put t.fault })
  | .ray i => { s with rtu := { s.rtu with rays := s.rtu.rays.map (fun (r : Ray) => if r.id = i then { r with fault := put r.fault } else r) } }
  | .beam i => { s with rtu := { s.rtu with beams := s.rtu.beams.map (fun (b : Beam) => if b.id = i then { b with fault := put b.fault } else b) } }
  | .tile i => { s with asu := { s.asu with tiles := s.asu.tiles.map (fun (t : Tile) => if t.id = i then { t with fault := put t.fault } else t) } }
  | _ => s
where
  suspends (f : Nat × Nat) : Bool := f.1 < fcMiss

/-- What a walk's result is for a requester: nothing, once the page's checks pass, or its fault (R425, R426). -/
def WalkRes.for (w : WalkRes) (r : Region) (q : WalkReq) : Option LFault :=
  match w with
  | .fault _ => some ⟨fcNotPresent, q.va⟩
  | .leaf l _ => (match l.check r q.va q.write with | .ok _ => none | .error f => some f)

/-- A lane's walk has failed: an instruction that skips such an access goes on (R212); another has met its fault, and its lane parks with those of its packet
(R35). -/
def State.failWalk (s : State) (uid lane : Nat) (q : WalkReq) (f : LFault) : State :=
  match q.skip with
  | some (next, settle) => ((s.updThread uid lane (fun t => { t with hseg := none })).resume uid lane next settle).parkFailed uid
  | none => (((List.range 4).map (fun j => 4 * (lane / 4) + j)).foldl (fun s l => if (s.thread uid l).inQuad then s.wakeLane uid l else s)
      (s.markFailed uid [(lane, f)])).parkFailed uid

/-- Does a thread wait for the walk unit? -/
def Thread.atWalk (t : Thread) : Bool := match t.st with | .admission .walk _ | .admission .quad _ => true | _ => false

/-- One requester gets the result: its caches are filled where its checks pass, and it goes on; a failed check leaves no entry (R429). -/
def State.deliverWalk (s : State) (w : WalkRes) (path : List (Tag × Nat × Nat)) (q : WalkReq) : State :=
  match s.region? q.rid with
  | none => s
  | some r =>
    match w.for r q, w with
    | none, .leaf l tag =>
      let s := s.fillFor q r.tagPart (r.ptroot.getD 0) tag l path
      (match q.who with | .lane uid lane => if (s.thread uid lane).atWalk then s.wakeLane uid lane else s | o => s.answerOp o none)
    | some f, _ =>
      (match q.who with
      | .lane uid lane => if (s.thread uid lane).atWalk then s.failWalk uid lane q f else s
      | .stream .. | .fetch .. | .peer _ | .queue _ => { s with refused := s.refused ++ [(q, f.code)] }
      | o => s.answerOp o (some (f.code, f.info)))
    | none, .fault _ => s

/-- Does a walk's page complete a miss: its own, or one of its tag in the page that it found (R430)? -/
def WalkRes.completes (w : WalkRes) (own m : Miss) : Bool :=
  (m.tag = own.tag && m.page = own.page) ||
  (match w with | .leaf l _ => m.tag = own.tag && m.page * 2 ^ 16 / 2 ^ lvlShift l.lvl = own.page * 2 ^ 16 / 2 ^ lvlShift l.lvl | .fault _ => false)

/-- Does a walk's page pass the checks of some requester? A failed check leaves no entry at any level (R429). -/
def State.passes (s : State) (w : WalkRes) (qs : List WalkReq) : Bool :=
  qs.any (fun q => match s.region? q.rid with | some r => (w.for r q).isNone | none => false)

/-- A walk with its result and its path ends: the misses that it completes leave the table, those that wait in the clusters enter it, the caches are filled, and
every requester has its answer; a malformed entry counts in PTMAL (R425, R430). -/
def State.endWalk (s : State) (m : Miss) (va : Nat) (w : WalkRes) (path : List (Tag × Nat × Nat)) : State :=
  let qs := (s.misses.filter (w.completes m)).flatMap (fun m => m.reqs)
  let s := ({ s with misses := s.misses.filter (fun x => !w.completes m x) } : State).admitMisses
  let s := match w with
    | .leaf .. => if s.passes w qs then s.fillPath va path else s
    | .fault bad => if bad then s.count (csrAddr 9 0 0 0) 32 1 else s
  qs.foldl (fun s q => s.deliverWalk w path q) s

/-- The walk of a miss for a region with a page table: its result and its path. -/
def State.walkOf (s : State) (r : Region) (root va : Nat) : WalkRes × List (Tag × Nat × Nat) :=
  let read := (s.asOp .walker .port s.ord.walk).walkEntry va
  (walkBy read r.tagPart root va, pathFrom read va (bitsAt root 0 5) 3 (topTable root) (.root r.tagPart root))

/-- PAGE_WALK: one of the 64 walkers completes the walk of a miss that region `rid` awaits. -/
def State.pageWalk (s : State) (rid va : Nat) : State :=
  match (s.misses.take 64).find? (fun m => m.page = va / 2 ^ 16 && m.reqs.any (fun q => q.rid = rid)), (s.region? rid).bind (fun r => r.ptroot.map (fun p => (r, p))) with
  | some m, some (r, root) => let x := s.walkOf r root va; s.endWalk m va x.1 x.2
  | _, _ => s

end Sys2Proof.Machine
end

