-- ==== Sys2Proof/Machine/Debug.lean ====
section
/-!
DEFINITION. The debug core: control of quadrants (R452, R453), the dump (R454), debugger writes and reads (R455, R456), watchpoints
(R457, R458) and instruction sampling (R459).
-/

namespace Sys2Proof.Machine

/-! ## Quadrant control (R452, R453) -/

/-- The waves resident in a quadrant. -/
def State.quadWaves (s : State) (cl core q : Nat) : List Wave :=
  s.waves.filter (fun w => w.cl = cl && w.core = core && w.quad = q && decide (w.bank = .active))

/-- STOPR: a running or stepping quadrant stops with cause 1. -/
def State.quadStop (s : State) (cl core q : Nat) : State :=
  if !s.debugOn cl core q || (s.stopped cl core q && !s.stepping.contains (cl, core, q)) then s else s.stopQuad cl core q 1

/-- A stopped quadrant runs on: its stop, its cause and the debugger's cancellations are gone, and the masks that a debugger wrote are evaluated (R455). -/
def State.runOn (s : State) (cl core q : Nat) : State :=
  let a := dqctl cl core q
  let s := s.setCsr a (putBits (putBits (s.csr a) 5 1 0) 7 3 0)
  let s := { s with
    stepping := s.stepping.filter (fun x => x ≠ (cl, core, q))
    svc := { s.svc with cancels := s.svc.cancels.filter (fun c => !(c.cl = cl && c.core = core && c.q = q)) } }
  (s.quadWaves cl core q).foldl (fun s w => (s.evalMasks w.uid).evalBarsOf w.uid) s

/-- RESM of a stopped quadrant. A thermal stop stays (R471). -/
def State.quadResume (s : State) (cl core q : Nat) : State :=
  if !s.debugOn cl core q || !s.stopped cl core q || s.svc.thermal then s else s.runOn cl core q

/-- STEP: a stopped quadrant is to issue one packet. -/
def State.quadStep (s : State) (cl core q : Nat) : State :=
  if !s.debugOn cl core q || !s.stopped cl core q || s.stepping.contains (cl, core, q) || s.svc.thermal then s
  else { s with stepping := s.stepping ++ [(cl, core, q)] }

/-- DUMP: the dump is owed again. -/
def State.quadDump (s : State) (cl core q : Nat) : State :=
  let a := dqctl cl core q
  s.setCsr a (putBits (putBits (s.csr a) 6 1 0) 4 1 1)

def execDebugStopr (cl core q : Nat) (s : State) : Out := .next (s.quadStop cl core q)
def execDebugResm (cl core q : Nat) (s : State) : Out := .next (s.quadResume cl core q)
def execDebugStep (cl core q : Nat) (s : State) : Out := .next (s.quadStep cl core q)
def execDebugDump (cl core q : Nat) (s : State) : Out := .next (if cl < 48 && core < 4 && q < 4 then s.quadDump cl core q else s)

/-! ## The dump (R454) -/

/-- The number of a run state (R454). -/
def RunState.code (r : RunState) : Nat :=
  match r with
  | .notLaunched => 0 | .ready => 1 | .fetching => 2 | .settling => 3 | .tokenWait .. => 4 | .syncWait .. => 5 | .sleeping .. => 6
  | .parked => 7 | .exited => 8 | .admission .. => 9

/-- The handle under which a lane is parked. -/
def State.handleOf (s : State) (uid lane : Nat) : Nat :=
  ((s.recs.find? (fun r => r.uid = uid && r.lanes.any (fun l => l.lane = lane))).bind (fun r => r.handle)).getD 0

/-- The entry of a thread. -/
def State.threadBits (s : State) (w : Wave) (lane : Nat) : Nat :=
  let t := w.thread lane
  t.pc.toNat + 2 ^ 56 * t.st.code + 2 ^ 64 * (t.age % 1024) + 2 ^ 74 * t.p.toNat +
    2 ^ 81 * (if t.st = .parked then s.handleOf w.uid lane else 0)

/-- The block of a wave slot. -/
def State.waveBlock (s : State) (w : Option Wave) : List Byte :=
  match w with
  | none => List.replicate 2560 0
  | some w =>
    (List.range 12).flatMap (fun i => leBytes 16 (w.mask i).toNat) ++ (List.range 16).flatMap (fun j => leBytes 16 (Sparse.get 0 w.k j).toNat) ++
      leBytes 4 1 ++ leBytes 4 w.V ++ leBytes 4 w.S ++ leBytes 4 w.lid ++ leBytes 4 w.rid ++ leBytes 44 0 ++
      (List.range 128).flatMap (fun l => leBytes 16 (s.threadBits w l))

/-- The registers into which a wave has a short result outstanding: results on their way, those of WTBL.sync and TLBOP in progress (R363, R433), and those of
atomics on peers (R427). -/
def State.owed (s : State) (uid : Nat) : List RegRef :=
  (s.pend.filter (fun p => p.uid = uid)).flatMap (fun p => p.regs.map (fun x => x.1)) ++
    (s.asu.syncs.filter (fun y => y.uid = uid)).flatMap (fun y => y.regs.map (fun x => RegRef.s x.1)) ++
    s.link.rops.flatMap (fun r => match r.who, r.atom with | .lane u l, some a => if u = uid then a.regs l else [] | _, _ => [])

/-- The lanes for which a register is among those owed: bit 0 for a scalar. -/
def lanesOwed (rs : List RegRef) (scalar : Bool) (r : Nat) : LaneMask :=
  maskOf (rs.filterMap (fun x => match x with
    | .v k l => if !scalar && k = r then some l else none
    | .s k => if scalar && k = r then some 0 else none))

/-- The pending entry of one register of a wave: none where nothing is outstanding or cancelled. -/
def State.pendEntry (s : State) (w : Wave) (scalar : Bool) (r : Nat) : Option Nat :=
  let pm := lanesOwed (s.owed w.uid) scalar r
  let cm := (s.svc.cancels.filter (fun c => c.cl = w.cl && c.core = w.core && c.q = w.quad && c.slot = w.slot && c.scalar == scalar && c.reg = r)).foldl
    (fun m c => m ||| c.lanes) 0
  if pm = 0 && cm = 0 then none
  else some (pm.toNat + 2 ^ 128 * cm.toNat + 2 ^ 256 * (r % 256) + 2 ^ 264 * b2n scalar + 2 ^ 265 * (w.slot % 16))

/-- The pending entries of a quadrant, in the order of R454. -/
def State.pendEntries (s : State) (cl core q : Nat) : List Nat :=
  (List.range 16).flatMap (fun k =>
    match (s.quadWaves cl core q).find? (fun w => w.slot = k) with
    | none => []
    | some w => (List.range 256).filterMap (s.pendEntry w false) ++ (List.range 256).filterMap (s.pendEntry w true))

/-- The bytes of a quadrant's dump. -/
def State.dumpBytes (s : State) (cl core q : Nat) : List Byte :=
  let es := s.pendEntries cl core q
  let clk := ((s.stopClk.find? (fun x => x.1 = (cl, core, q))).map (fun x => x.2)).getD 0
  leBytes 8 clk ++ leBytes 4 (bitsAt (s.csr (dqctl cl core q)) 7 3) ++ leBytes 2 es.length ++ leBytes 1 (b2n (256 < es.length)) ++ leBytes 49 0 ++
    (List.range 16).flatMap (fun k => s.waveBlock ((s.quadWaves cl core q).find? (fun w => w.slot = k))) ++
    (es.take 256).flatMap (fun e => leBytes 48 e)

/-- A service write at an address of the root region's space; one that cannot be made is not made. -/
def State.svcWrite (s : State) (a : Nat) (bs : List Byte) : State :=
  match s.translateRange 0 a true bs.length with
  | .error _ => s
  | .ok ls => s.store ls bs

/-- DUMP_WRITE: an owed dump is written, and DMPD is set. -/
def execDumpWrite (cl core q : Nat) (s : State) : Out :=
  .next (
    let a := dqctl cl core q
    if !bitAt (s.csr a) 4 then s
    else
      let s := s.svcWrite (s.csr (csrAddr 1 core cl 0x14) + 65536 * q) (s.dumpBytes cl core q)
      s.setCsr a (putBits (putBits (s.csr a) 4 1 0) 6 1 1))

/-! ## Debugger writes and reads (R455, R456) -/

/-- The parts of a target. -/
structure DbgTarget where
  reg : Nat
  cls : Nat
  lane : Nat
  slot : Nat
  q : Nat
  deriving DecidableEq, Repr, Inhabited

def dbgTarget (t : Nat) : DbgTarget := ⟨bitsAt t 0 8, bitsAt t 8 3, bitsAt t 11 7, bitsAt t 18 4, bitsAt t 22 2⟩

/-- The resident wave that a target names in a stopped quadrant. -/
def State.dbgWave (s : State) (cl core : Nat) (t : DbgTarget) : Option Wave :=
  if s.stopped cl core t.q then (s.quadWaves cl core t.q).find? (fun w => w.slot = t.slot) else none

/-- An atomic on a peer no longer writes a register of a lane. -/
def State.dropAtom (s : State) (uid : Nat) (r : RegRef) : State :=
  { s with link := { s.link with rops := s.link.rops.map (fun o =>
    match r, o.who, o.atom with
    | .v k l, .lane u l', some a => if u = uid && l' = l && (a.regs l).contains r then { o with atom := some { a with dropped := a.dropped ++ [k] } } else o
    | _, _, _ => o) } }

/-- A debugger's value replaces a result on its way, which is noted for the dump. -/
def State.dbgReg (s : State) (w : Wave) (r : RegRef) (v : Word) : State :=
  let c : Cancel := match r with
    | .v k l => ⟨w.cl, w.core, w.quad, w.slot, false, k, maskOf [l]⟩
    | .s k => ⟨w.cl, w.core, w.quad, w.slot, true, k, maskOf [0]⟩
  let s' := (s.dropPend w.uid allLanes [r]).dropAtom w.uid r
  let s' := if (s.owed w.uid).contains r then { s' with svc := { s'.svc with cancels := s'.svc.cancels ++ [c] } } else s'
  s'.updWave w.uid (fun w => w.setReg r v)

/-- A write of a thread's pc: a thread in a token or sync wait withdraws and is ready there; a parked, exited or absent one stays. -/
def State.dbgPc (s : State) (w : Wave) (lane : Nat) (pc : VA) : State :=
  let go := fun (s : State) (st : RunState) => s.updThread w.uid lane (fun t => { t with pc := pc, st := st, age := if st = t.st then t.age else 0 })
  let st := (w.thread lane).st
  match st with
  | .parked | .exited | .notLaunched => s
  | .tokenWait .. | .syncWait .. =>
    (((go (s.withdraw w.uid [lane]) .ready).evalMasks w.uid).evalGjoins w.uid).evalBarsOf w.uid
  | .fetching => go s .ready
  | _ => go s st

/-- A debugger write. -/
def State.debugWrite (s : State) (cl core tgt : Nat) : State :=
  let t := dbgTarget tgt
  let v := s.csr (csrAddr 1 core cl 0x20)
  let v32 : Word := BitVec.ofNat 32 v
  match s.dbgWave cl core t with
  | none => s
  | some w =>
    match t.cls with
    | 0 => if t.reg < w.V then s.dbgReg w (.v t.reg t.lane) v32 else s
    | 1 => if t.reg < w.S then s.dbgReg w (.s t.reg) v32 else s
    | 2 => if inMask w.m0 t.lane then s.updThread w.uid t.lane (fun th => th.setPred t.reg (bitAt v 0)) else s
    | 3 => s.dbgPc w t.lane (BitVec.ofNat 56 v)
    | 4 => if t.reg < 12 then s.updWave w.uid (fun w => w.setMask t.reg (setLane (w.mask t.reg) t.lane (bitAt v 0))) else s
    | 5 => s.updWave w.uid (fun w => { w with ac := BitVec.ofNat 32 (v % 2 ^ 7) })
    | _ => s

def execDebugWrite (cl core tgt : Nat) (s : State) : Out := .next (s.debugWrite cl core tgt)

/-- The value of a debugger read: all ones where the target does not exist. -/
def State.dbgValue (s : State) (cl core tgt : Nat) : Nat :=
  let t := dbgTarget tgt
  let ones := 2 ^ 64 - 1
  match s.dbgWave cl core t with
  | none => ones
  | some w =>
    let th := w.thread t.lane
    let inside := inMask w.m0 t.lane
    match t.cls with
    | 0 => if t.reg < w.V && inside then (w.reg (.v t.reg t.lane)).toNat else ones
    | 1 => if t.reg < w.S then (w.reg (.s t.reg)).toNat else ones
    | 2 => if t.reg < 8 && inside then b2n (th.pred t.reg) else ones
    | 3 => if inside then th.pc.toNat else ones
    | 4 => if t.reg < 12 && inside then b2n (inMask (w.mask t.reg) t.lane) else ones
    | 5 => w.ac.toNat
    | 6 => bitsAt (w.seg (t.reg % 8)).toNat (32 * bitsAt t.reg 3 2) 32
    | _ =>
      if t.reg < 4 then (Sparse.get 0 w.n t.reg).toNat
      else if t.reg = 4 && inside then th.fl.toNat
      else if t.reg = 5 && inside then th.gen.toNat
      else ones

/-- A debugger read loads DRVAL. -/
def State.debugRead (s : State) (cl core tgt : Nat) : State := s.setCsr (csrAddr 1 core cl 0x23) (s.dbgValue cl core tgt)

def execDebugRead (cl core tgt : Nat) (s : State) : Out := .next (if cl < 48 && core < 4 then s.debugRead cl core tgt else s)

/-! ## Watchpoints (R458) -/

/-- The scratch wave in which a predicate program runs: one lane, the scalars s0 to s10 that R458 gives. -/
def watchWave (uid rid pc : Nat) (r : Region) (w : Wave) (h : Hit) : Wave :=
  let n32 := fun (x : Nat) => (BitVec.ofNat 32 x : Word)
  let data := leNat h.data
  (startWave uid ⟨w.cl, w.core, w.quad, w.slot, .active⟩ (.callback []) rid 1 pc 8 192 false
    (segsFor r (r.g0b, r.g0l) (0, 0) (0, 0) (0, 0) 0 (0, 0)) (w.thread h.lane).vw.ids).withScalars 0
    [n32 h.addr, n32 (h.addr / 2 ^ 32), n32 h.size, n32 h.kind, n32 data, n32 (data / 2 ^ 32), n32 (data / 2 ^ 64), n32 (data / 2 ^ 96),
     n32 h.lane, n32 (w.slot + 2 ^ 4 * w.quad + 2 ^ 6 * w.core + 2 ^ 8 * w.cl), n32 h.n]

/-- What a predicate program may execute, other than EXIT: the U = 1 forms of opcodes 0x00 to 0x1F and 0x50 to 0x53, LD with U = 1 through g0,
and BRA with a positive offset. -/
def watchOp (i : Instr) : Option (State → Out) :=
  let u := fun (h : Hdr) (f : State → Out) => if h.u then some f else none
  match i with
  | .iadd h f x => u h (execIadd h f x) | .isub h f x => u h (execIsub h f x) | .imul h f x => u h (execImul h f x)
  | .imulh h f x => u h (execImulh h f x) | .imad h f x => u h (execImad h f x) | .idiv h f x => u h (execIdiv h f x)
  | .irem h f x => u h (execIrem h f x) | .imin h f x => u h (execImin h f x) | .imax h f x => u h (execImax h f x)
  | .iabs h f x => u h (execIabs h f x) | .ineg h f x => u h (execIneg h f x) | .and h f x => u h (execAnd h f x)
  | .or h f x => u h (execOr h f x) | .xor h f x => u h (execXor h f x) | .not h f x => u h (execNot h f x)
  | .lop3 h f x => u h (execLop3 h f x) | .shl h f x => u h (execShl h f x) | .shr h f x => u h (execShr h f x)
  | .rot h f x => u h (execRot h f x) | .fshf h f x => u h (execFshf h f x) | .bfx h f x => u h (execBfx h f x)
  | .bfi h f x => u h (execBfi h f x) | .popc h f x => u h (execPopc h f x) | .clz h f x => u h (execClz h f x)
  | .ctz h f x => u h (execCtz h f x) | .brev h f x => u h (execBrev h f x) | .prmt h f x => u h (execPrmt h f x)
  | .lea h f x => u h (execLea h f x) | .iaddc h f x => u h (execIaddc h f x) | .isad h f x => u h (execIsad h f x)
  | .idp4 h f x => u h (execIdp4 h f x) | .movi h f x => u h (execMovi h f x) | .isetp h f x => u h (execIsetp h f x)
  | .fsetp h f x => u h (execFsetp h f x) | .psetp h f x => u h (execPsetp h f x) | .sel h f x => u h (execSel h f x)
  | .ld h f x => if f.seg = 0 then u h (execLd h f x) else none
  | .bra h f x => if 0 < signedOf 32 x.toNat then some (execBra h f x) else none
  | _ => none

/-- Lands every result on its way of a wave, in the order of issue. -/
def State.landAll (s : State) (uid : Nat) : Nat → State
  | 0 => s
  | n + 1 =>
    match findIdx (fun (p : Pend) => p.uid = uid) s.pend with
    | none => s
    | some (k, _) => (s.land k).landAll uid n

/-- An instruction of a predicate program; where its translation misses, the walk is made and it issues again. -/
def watchStep (uid : Nat) (f : State → Out) (s : State) : Out :=
  match f s with
  | .next s' =>
    (match (s'.thread uid 0).st, s'.misses.getLast? with
    | .admission .walk _, some m =>
      let s'' := ({ s' with misses := [m] } : State).pageWalk (s'.ridOf uid) (m.page * 2 ^ 16)
      if (s''.thread uid 0).st = .parked then .next s'' else f { s'' with packets := s.packets }
    | _, _ => .next s')
  | o => o

/-- Runs a predicate program for at most `n` instructions: its result at EXIT, or none where it fails. -/
def watchRun (uid : Nat) : Nat → State → Option Bool
  | 0, _ => none
  | n + 1, s =>
    match s.wave? uid with
    | none => none
    | some w =>
      let t := w.thread 0
      match s.fetch w t.pc with
      | .error _ => none
      | .ok i =>
        let one := { s with packets := [⟨w.cl, w.core, w.quad, t.pc, [(uid, [0])]⟩] }
        let after := fun (o : Out) =>
          match o with
          | .next s' =>
            let s' := s'.landAll uid s'.pend.length
            let t' := s'.thread uid 0
            if t'.st = .parked || t'.ue.isSome || (match t'.st with | .admission .fetch _ | .admission .drain _ => true | _ => false) then none
            else watchRun uid n (s'.updThread uid 0 (fun t => { t with st := .ready }))
          | _ => none
        match i with
        | .exit h f x =>
          if guardOn h t then some (t.pred 0) else after (execExit h f x one)
        | i => (match watchOp i with | none => none | some f => after (watchStep uid f one))

/-- The verdict of a hit's predicate, and whether its program failed. -/
def State.watchVerdict (s : State) (h : Hit) : Bool × Bool :=
  match s.wave? h.uid with
  | none => (true, true)
  | some w =>
    match s.region? w.rid with
    | none => (true, true)
    | some r =>
      let uid := s.fresh
      let prog := s.csr (csrAddr 11 0 0 (0x103 + 4 * h.n))
      let s' := { s with fresh := uid + 1, pend := [], waves := s.waves ++ [watchWave uid w.rid prog r w h] }
      match watchRun uid 64 s' with
      | some b => (b, false)
      | none => (true, true)

/-- The data of a run-ahead load of a lane lands before the lane parks after it. -/
def State.landAhead (s : State) (uid lane : Nat) : State :=
  (s.flight.ahead.filter (fun a => a.uid = uid && a.lane = lane)).foldl (fun s a =>
    let s := s.updFlight (fun f => { f with ahead := f.ahead.filter (fun b => b ≠ a) })
    s.updWave uid (fun w => (a.regs.foldl (fun w r => w.setReg r.1 r.2) w).setTok a.tok lane false)) s

/-- A lane that waits for its run-ahead data gets them, and is to resume at its next instruction (R189). -/
def State.watchLand (s : State) (h : Hit) : State :=
  match (s.thread h.uid h.lane).st with
  | .tokenWait _ next _ _ => (s.landAhead h.uid h.lane).updThread h.uid h.lane (fun t => { t with pc := next })
  | _ => s

/-- Every hit of a packet has been evaluated: quadrants with EN stop, other lanes with a true verdict park, one sub-wave a wave. -/
def State.watchEnd (s : State) (grp : Nat) : State :=
  let hs := s.flight.hits.filter (fun h => h.grp = grp && h.verdict = some true)
  let s := s.updFlight (fun f => { f with hits := f.hits.filter (fun h => h.grp ≠ grp) })
  let seen := fun (h : Hit) => (hs.takeWhile (fun x => x ≠ h)).any (fun x => x.uid = h.uid && x.lane = h.lane)
  let first := hs.filter (fun h => !seen h)
  let stops := first.filter (fun h => s.debugOf h.uid)
  let parks := first.filter (fun h => !s.debugOf h.uid)
  let s := stops.foldl (fun s h =>
    match s.wave? h.uid with
    | none => s
    | some w => if s.stopped w.cl w.core w.quad && !s.stepping.contains (w.cl, w.core, w.quad) && bitsAt (s.csr (dqctl w.cl w.core w.quad)) 7 3 = 2 then s
                else s.stopQuad w.cl w.core w.quad 3) s
  (sortedSet (parks.map (fun h => h.uid))).foldl (fun s u =>
    let mine := parks.filter (fun h => h.uid = u)
    (mine.foldl State.watchLand s).park u ((mine.head?.map (fun h => h.site)).getD 0) (mine.map (fun h => (h.lane, ⟨fcWatch, h.addr⟩)))) s

/-- WATCH_EVAL: the DBC decides the first undecided hit. -/
def execWatchEval (s : State) : Out :=
  .next (match findIdx (fun (h : Hit) => h.verdict.isNone) s.flight.hits with
    | none => s
    | some (i, h) =>
      let v := s.watchVerdict h
      let s := if v.2 then s.count (csrAddr 11 0 0 0) 48 1 else s
      let s := s.updFlight (fun f => { f with hits := setAt f.hits i { h with verdict := some v.1 } })
      let mine := s.flight.hits.filter (fun x => x.grp = h.grp && x.uid = h.uid && x.lane = h.lane)
      let s := if mine.all (fun x => x.verdict = some false) then s.updFlight (fun f => { f with hits := f.hits.filter (fun x => !mine.contains x) }) else s
      if s.flight.hits.any (fun x => x.grp = h.grp && x.verdict.isNone) then s else s.watchEnd h.grp)

/-! ## Sampling (R459) -/

/-- The sample record of a tagged instruction whose results have come. Time fields saturate. The clk of operand collection and of execution, and what a thread
waited for after its issue, are not kept by the model and are free values (log 25). -/
def sampleBits (t clk : Nat) (k : Nat × Nat × Nat) (x : Tagged) : Nat :=
  let free := fun (j n : Nat) => Config.freeInput t (256 + j) % 2 ^ n
  let wb := clk - x.clk
  bitsAt x.pc.toNat 2 54 + 2 ^ 54 * x.slot + 2 ^ 58 * k.2.2 + 2 ^ 60 * k.2.1 + 2 ^ 64 * k.1 + 2 ^ 70 * x.op + 2 ^ 78 * x.nt +
    2 ^ 86 * x.lvl + 2 ^ 96 * min 65535 x.fet + 2 ^ 112 * min 65535 x.iss + 2 ^ 128 * free 3 16 + 2 ^ 144 * free 4 16 + 2 ^ 160 * min 65535 wb +
    2 ^ 176 * (if wb ≤ x.fet then 2 else free 6 6) + 2 ^ 192 * (x.clk % 2 ^ 64)

/-- The record of a tagged instruction enters the core's ring, or is dropped where that is full. -/
def State.writeSample (s : State) (k : Nat × Nat × Nat) (x : Tagged) : State :=
  let r := fun n => csrAddr 1 k.2.1 k.1 n
  let log := bitsAt (s.csr (r 0x31)) 8 5
  let head := s.csr (r 0x32)
  if (head + 2 ^ 64 - s.csr (r 0x33)) % 2 ^ 64 = 2 ^ log then s.count (r 0x34) 64 1
  else (s.svcWrite (s.csr (r 0x30) + 32 * (head % 2 ^ log)) (leBytes 32 (sampleBits s.tick s.clk k x))).count (r 0x32) 64 1

/-- Is a thread's instruction still under way: do its checks or its results? -/
def State.underWay (s : State) (uid lane : Nat) : Bool :=
  s.hasPend uid lane || (match (s.thread uid lane).st with | .admission .. | .tokenWait .. => true | _ => false)

/-- SAMPLE_TAG: a quadrant with SMPEN begins a random wait of `wait` slots, at first and after each record, which is written once the tagged instruction is done;
the packet issued at the end of the wait is tagged (State.noteIssue). -/
def execSampleTag (cl core q wait : Nat) (s : State) : Out :=
  let k := (cl, core, q)
  let start := fun (s : State) =>
    if wait = 0 || 2 ^ (bitsAt (s.csr (csrAddr 1 core cl 0x31)) 0 5 + 1) ≤ wait then s
    else s.updSvc (fun v => { v with samples := v.samples.filter (fun x => !x.of k) ++ [⟨cl, core, q, s.clk + 2 * wait, none, []⟩] })
  .next (
    if !bitAt (s.csr (dqctl cl core q)) 10 then s.updSvc (fun v => { v with samples := v.samples.filter (fun x => !x.of k) })
    else match s.svc.samples.find? (fun x => x.of k) with
      | none => if cl < 48 && core < 4 && q < 4 then start s else s
      | some x =>
        match x.tag with
        | none => s
        | some t =>
          if s.underWay t.uid t.lane then s
          else
            let s := (s.writeSample k t).updSvc (fun v => { v with samples := v.samples.filter (fun x => !x.of k) })
            start s)

end Sys2Proof.Machine
end

