-- ==== Sys2Proof/Machine/Csr.lean ====
section
/-!
DEFINITION. The map of the control registers (R451, R460, R464, R466, R467, R419): which address words name one, what of it is read and
written, and what a write does.
-/

namespace Sys2Proof.Machine

/-! ## The map -/

/-- The bits of a register that a read returns, that a write stores, and that a write of 1 clears. -/
structure CsrShape where
  rd : Nat
  wr : Nat
  w1c : Nat
  deriving DecidableEq, Repr, Inhabited

/-- Bits `lo` to `lo + n - 1`. -/
def ones (lo n : Nat) : Nat := (2 ^ n - 1) * 2 ^ lo

def rwReg (n : Nat) : CsrShape := ⟨ones 0 n, ones 0 n, 0⟩
def roReg (n : Nat) : CsrShape := ⟨ones 0 n, 0, 0⟩

/-- A stall counter: 48 bits where the unit counts the cause; else it reads zero and ignores writes (R460). -/
def stallReg (causes : List Nat) (c : Nat) : CsrShape := if causes.contains c then rwReg 48 else ⟨0, 0, 0⟩

/-- The causes that the units of a block count at REG 0x080 and up (R460). -/
def blkCauses (blk : Nat) : List Nat :=
  match blk with
  | 0 => [0x19, 0x1A, 0x1B]
  | 2 => [0x1C, 0x1D, 0x1E, 0x1F, 0x20]
  | 3 => [0x18, 0x1C, 0x1D, 0x1E, 0x1F]
  | 4 => [0x10, 0x11, 0x12, 0x22]
  | 5 => [0x1C, 0x1D, 0x1E, 0x21]
  | 6 => [0x1C, 0x1D, 0x1E, 0x1F, 0x20]
  | 7 => [0x06, 0x13, 0x14, 0x15, 0x16]
  | 8 => [0x17, 0x18]
  | 9 => [0x23]
  | _ => []

/-- The registers of a core (R452, R459, R460). -/
def coreReg (reg : Nat) : Option CsrShape :=
  if 0x10 ≤ reg && reg < 0x14 then some ⟨1 + ones 5 6, 1 + ones 10 1, 0⟩
  else if reg = 0x14 then some (rwReg 56)
  else if reg = 0x20 then some (rwReg 64)
  else if reg = 0x21 || reg = 0x22 then some ⟨0, 0, 0⟩
  else if reg = 0x23 then some (roReg 64)
  else if reg = 0x30 then some (rwReg 56)
  else if reg = 0x31 then some ⟨ones 0 5 + ones 8 5, ones 0 5 + ones 8 5, 0⟩
  else if reg = 0x32 then some (roReg 64)
  else if reg = 0x33 || reg = 0x34 then some (rwReg 64)
  else if 0x100 ≤ reg && reg < 0x200 then some (stallReg (List.range 12) (reg % 0x40))
  else none

/-- The registers of a cluster's control block (R451, R255, R352). -/
def clusterReg (reg : Nat) : Option CsrShape :=
  match reg with
  | 0 => some (rwReg 5)
  | 3 | 4 | 5 | 6 => some (rwReg 32)
  | 7 => some (rwReg 20)
  | 1 | 2 | 8 | 9 | 10 => some (rwReg 48)
  | _ => none

/-- The registers of the SVC (R449, R467, R419, R471). -/
def svcReg (reg : Nat) : Option CsrShape :=
  if reg = 0 then some (rwReg 64)
  else if 0x10 ≤ reg && reg < 0x20 then some (roReg 64)
  else if 0x40 ≤ reg && reg < 0x80 then some (roReg 64)
  else none

/-- The registers of the DBC (R457). -/
def dbcReg (reg : Nat) : Option CsrShape :=
  if reg = 0 then some (rwReg 48)
  else if 0x100 ≤ reg && reg < 0x140 then
    some (if reg % 4 = 2 then ⟨ones 0 4 + ones 32 32, ones 0 4 + ones 32 32, 0⟩ else rwReg 56)
  else none

/-- Does an error bank exist (R464)? -/
def bankOk (group unit : Nat) : Bool :=
  match group with
  | 0 => unit < 48
  | 1 => unit < 66
  | 2 => unit < 34 || (48 ≤ unit && unit < 57)
  | _ => unit < 3

/-- The number of wear monitors of a unit: a cluster's five cores, a slice or port, the two devices of a channel (R466). -/
def monitors (group unit : Nat) : Nat :=
  match group with | 0 => 5 | 1 => 1 | 2 => (if unit < 34 then 2 else 1) | _ => 0

/-- The registers of an error bank and its wear monitors. -/
def bankReg (group unit reg : Nat) : Option CsrShape :=
  if !bankOk group unit then none
  else if reg < 0x10 then
    match reg % 4 with
    | 0 => some ⟨ones 0 8 + ones 16 24, 0, 0b101⟩
    | 1 => some (roReg 56)
    | 2 => some (roReg 64)
    | _ => none
  else if reg = 0x10 then some (rwReg 16)
  else if 0x20 ≤ reg && reg < 0x20 + monitors group unit then some ⟨ones 0 48, ones 32 16, 0⟩
  else none

/-- The register that an address word names, or none (R451). -/
def csrShape (a : Nat) : Option CsrShape :=
  let reg := bitsAt a 0 10
  let unit := bitsAt a 10 7
  let core := bitsAt a 17 2
  let blk := bitsAt a 19 4
  let stall := fun (own : Option CsrShape) => if 0x80 ≤ reg && reg < 0xC0 then some (stallReg (blkCauses blk) (reg - 0x80)) else own
  if a / 2 ^ 23 ≠ 0 then none
  else
    match blk with
    | 0 => if unit < 48 && core = 0 then stall (clusterReg reg) else none
    | 1 => if unit < 48 then coreReg reg else none
    | 2 => if unit < 48 && core < 2 then stall none else none
    | 3 => if unit < 48 then stall none else none
    | 4 | 5 => if unit < 48 && core = 0 then stall none else none
    | 6 => if unit < 66 && core = 0 then stall none else none
    | 7 => if unit < 66 && core = 0 then stall (if reg < 9 then some (rwReg 8) else none) else none
    | 8 => if unit < 14 && core = 0 then stall none else none
    | 9 => if unit = 0 && core = 0 then stall (if reg = 0 then some (rwReg 32) else none) else none
    | 10 => if unit = 0 && core = 0 then svcReg reg else none
    | 11 => if unit = 0 && core = 0 then dbcReg reg else none
    | 12 => bankReg core unit reg
    | _ => none

/-- The cluster in whose partition a register's unit lies; none for a shared unit (R451). -/
def csrCluster (a : Nat) : Option Nat :=
  let blk := bitsAt a 19 4
  if blk < 6 || (blk = 12 && bitsAt a 17 2 = 0) then some (bitsAt a 10 7) else none

/-- May a wave of a region reach a register? -/
def State.csrAllowed (s : State) (rid a : Nat) : Bool :=
  rid = 0 || (match csrCluster a with | some cl => s.inPart rid cl | none => false)

/-! ## Reads and writes -/

/-- The clusters of a partition, a bit each (R419). -/
def State.partBits (s : State) (p : Nat) : Nat :=
  ((List.range 48).filter (fun c => s.partOf c = some p)).foldl (fun n c => n + 2 ^ c) 0

/-- What a read of a register returns; write-only fields read 0. -/
def State.csrRead (s : State) (a : Nat) (sh : CsrShape) : Nat :=
  let reg := bitsAt a 0 10
  if bitsAt a 19 4 = 10 && 0x18 ≤ reg && reg < 0x20 then s.partBits (reg - 0x18) else s.csr a &&& sh.rd

/-- Is some error record valid or some overflow noted (R464)? -/
def State.errorsHeld (s : State) : Bool :=
  s.csrs.any (fun p => bitsAt p.1 19 4 = 12 && bitsAt p.1 0 10 < 0x10 && p.1 % 4 = 0 && p.2.toNat &&& 0b101 ≠ 0)

/-- The control bits of DQCTL, written by a wave of the root region or another one (R452). -/
def State.writeDqctl (s : State) (root : Bool) (cl core q v : Nat) : State :=
  let a := dqctl cl core q
  let s := s.setCsr a (putBits (putBits (s.csr a) 0 1 (if root then v else s.csr a)) 10 1 (bitsAt v 10 1))
  let s := if bitAt v 1 then s.quadStop cl core q else s
  let s := if bitAt v 2 then s.quadResume cl core q else s
  let s := if bitAt v 3 then s.quadStep cl core q else s
  if bitAt v 4 then s.quadDump cl core q else s

/-- The value that a write leaves in a register. -/
def State.csrStored (s : State) (a : Nat) (sh : CsrShape) (v : Nat) : Nat :=
  let old := s.csr a
  let new := (old - (old &&& sh.wr)) + (v &&& sh.wr)
  new - (new &&& (v &&& sh.w1c))

/-- A write of a register: RW fields take the data, W1C fields clear where it is 1, and the fields with an effect have it. -/
def State.csrWrite (s : State) (root : Bool) (a : Nat) (sh : CsrShape) (v : Nat) : State :=
  let reg := bitsAt a 0 10
  let unit := bitsAt a 10 7
  let core := bitsAt a 17 2
  let put := s.setCsr a (s.csrStored a sh v)
  match bitsAt a 19 4 with
  | 0 => if reg = 0 then s.setCsr a (min 16 (v % 32)) else put
  | 1 =>
    if 0x10 ≤ reg && reg < 0x14 then s.writeDqctl root unit core (reg - 0x10) v
    else if reg = 0x21 then s.debugWrite unit core v
    else if reg = 0x22 then s.debugRead unit core v
    else put
  | 11 => if 0x100 ≤ reg && reg % 4 = 2 && !s.granted 9 && bitAt v 0 then s.setCsr a (s.csrStored a sh (putBits v 0 1 (s.csr a))) else put
  | 12 => if reg < 0x10 && !put.errorsHeld then { put with svc := { put.svc with high := false, low := false } } else put
  | _ => put

/-- REGISTER_WRITE: a write from the root region of a register that has no row of its own. -/
def execRegisterWrite (a : Nat) (data : DWord) (s : State) : Out :=
  .next (match csrShape a with | none => s | some sh => s.csrWrite true a sh data.toNat)

/-! ## Stall counters (R257, R460) -/

/-- The tasks that run on an engine: 2 TCE, 3 MXE, 6 GSE, by the block of its registers. -/
def State.onEngine (s : State) (blk unit core : Nat) : List Task :=
  s.cts.tasks.filter (fun t => t.st = .running && t.fin.isNone &&
    (match blk with
    | 2 => engineOf t.kind = 0 && t.cl = unit && t.unit = core
    | 3 => engineOf t.kind = 1 && t.cl = unit && t.unit = core
    | 6 => engineOf t.kind = 2 && 4 * (t.cl % 16) + t.unit = unit
    | _ => false))

/-- Does an operation hold a fault with this code? -/
def meets (code : Nat) (f : Option (Nat × Nat)) : Bool := f.any (fun x => decide (x.1 = code))

/-- The fault fields of the rays and beams of a cluster, and whether each is suspended. -/
def State.rtuWaits (s : State) (cl : Nat) : List (Bool × Option (Nat × Nat)) :=
  (s.rtu.rays.filter (fun r => r.cl = cl)).map (fun r => (r.susp, r.fault)) ++ (s.rtu.beams.filter (fun b => b.cl = cl)).map (fun b => (b.susp, b.fault))

/-- Is a relay or a target queue full for a message that could move on (R253)? -/
def State.amsgBlocked (s : State) (slice : Nat) : Bool :=
  s.cts.msgs.any (fun m => m.relay = slice &&
    ((m.stage = .core && (s.atCore m.cl m.core .core).head? = some m && 8 ≤ (s.inRelay slice (s.classOf m.rid)).length) ||
     (m.stage = .relay && (s.inRelay slice (s.classOf m.rid)).head? = some m && 8 ≤ (s.inQueue (bitsAt m.target 0 6) (s.classOf m.rid)).length)))

/-- Does a cluster's port hold an access that the stopped injection of its partition keeps there (R243)? -/
def State.portStopped (s : State) (cl : Nat) : Bool :=
  let stopped := fun (f : Option (Nat × Nat)) => meets fcDrain f
  s.waves.any (fun w => w.cl = cl && !(w.lanesWhere (fun _ t => match t.st with | .admission .drain _ => true | _ => false)).isEmpty) ||
  s.cts.tasks.any (fun t => t.cl = cl && stopped t.fault) || (s.rtuWaits cl).any (fun x => stopped x.2) || s.asu.tiles.any (fun t => t.cl = cl && stopped t.fault) ||
  s.cts.msgs.any (fun m => m.cl = cl && m.stage = .core && s.draining m.rid)

/-- The cluster in which a miss waits for room in the walk unit's table (R430). -/
def WalkReq.cluster (q : WalkReq) : Option Nat := match q.tlb with | .cluster j => some j | .core k => some (k / 4) | _ => none

/-- Does a unit hold work that it cannot advance under a cause? None where the state does not show it: ports, slice queues, operands and writes under way. -/
def State.stalled (s : State) (blk unit core c : Nat) : Option Bool :=
  let ts := s.onEngine blk unit core
  match c with
  | 0x12 => some (s.portStopped unit)
  | 0x15 => some (s.flight.mreqs.any (fun q => q.waits && q.slice = unit))
  | 0x16 => some (s.flight.mreqs.any (fun q => q.late && q.slice = unit && s.cts.copies.any (fun x => x.req = q.id)))
  | 0x06 => some (s.amsgBlocked unit)
  | 0x17 => some (1 < (s.cts.xfers.filter (fun x => x.bus = unit && s.beatReady x)).length)
  | 0x18 => some (if blk = 3 then ts.any (fun t => s.busFull t (t.prog / (mmG (t.body.getD 0) + 1))) else s.cts.xfers.any (fun x => x.bus = unit && x.hasBeat && !s.beatReady x))
  | 0x19 => some false
  | 0x1A => some (s.asu.bins.any (fun b => b.cl = unit && b.trig))
  | 0x1B => some (s.asu.tiles.any (fun t => t.cl = unit && t.unit.isNone))
  | 0x1C => some (if blk = 5 then (s.rtuWaits unit).any (fun x => x.1) else ts.any (fun t => t.susp) || (blk = 3 && s.asu.tiles.any (fun t => t.cl = unit && t.unit = some core && t.susp)))
  | 0x1D => some (if blk = 5 then (s.rtuWaits unit).any (fun x => meets fcMiss x.2) else ts.any (fun t => meets fcMiss t.fault))
  | 0x20 => some (ts.any (fun t => meets fcRemote t.fault || t.rmt.isSome))
  | 0x21 => some (let rs := s.rtu.rays.filter (fun r => r.cl = unit && r.st ≠ .noPlace); !rs.isEmpty && rs.all (fun r => match r.st with | .parked .. | .inWave _ => true | _ => false))
  | 0x22 => some (s.missQ.any (fun q => q.cluster = some unit))
  | 0x23 => some (64 < s.misses.length)
  | _ => none

/-- The lowest-coded cause that the state shows for a unit. -/
def State.shownCause (s : State) (blk unit core : Nat) : Option Nat := (blkCauses blk).find? (fun c => s.stalled blk unit core c = some true)

/-- The engine of a running task: the block, unit and number of its registers. -/
def engineAt (t : Task) : Nat × Nat × Nat :=
  match engineOf t.kind with
  | 0 => (2, t.cl, t.unit)
  | 1 => (3, t.cl, t.unit)
  | _ => (6, 4 * (t.cl % 16) + t.unit, 0)

/-- The units whose work the state shows, by block, unit and number. -/
def State.busyUnits (s : State) : List (Nat × Nat × Nat) :=
  let tile := fun (t : Tile) => ((0, t.cl, 0) : Nat × Nat × Nat) :: (t.unit.map (fun u => (3, t.cl, u))).toList
  let units : List (List (Nat × Nat × Nat)) :=
    [s.asu.bins.map (fun b => (0, b.cl, 0)), s.asu.tiles.flatMap tile, (s.cts.tasks.filter (fun t => t.st = .running)).map engineAt,
     if s.svc.drains.isEmpty && s.missQ.isEmpty then [] else (List.range 48).map (fun j => (4, j, 0)),
     s.rtu.rays.map (fun r => (5, r.cl, 0)), s.rtu.beams.map (fun b => (5, b.cl, 0)), s.flight.mreqs.map (fun q => (7, q.slice, 0)),
     s.cts.msgs.map (fun m => (7, m.relay, 0)), s.cts.xfers.map (fun x => (8, x.bus, 0)), if s.misses.isEmpty then [] else [(9, 0, 0)]]
  units.flatten.foldl (fun acc k => if acc.contains k then acc else acc ++ [k]) []

/-- Each unit that holds work it cannot advance counts the clk of the slot that it has not counted yet, under the lowest-coded cause (R460). -/
def State.countStalls (s : State) : State :=
  s.busyUnits.foldl (fun s k =>
    match s.shownCause k.1 k.2.1 k.2.2 with
    | none => s
    | some c =>
      let base := csrAddr k.1 k.2.2 k.2.1 0x80
      (s.stallUnit base c).stallUnit base c) s

/-- Has a unit work? Of a slice's queues the state shows nothing. -/
def State.holdsWork (s : State) (blk unit core : Nat) : Bool :=
  match blk with
  | 2 | 3 | 6 => !(s.onEngine blk unit core).isEmpty || (blk = 3 && s.asu.tiles.any (fun t => t.cl = unit && t.unit = some core))
  | 4 => s.waves.any (fun w => w.cl = unit && decide (w.bank = .active)) || s.cts.tasks.any (fun t => t.cl = unit) || !(s.rtuWaits unit).isEmpty || s.asu.tiles.any (fun t => t.cl = unit)
  | 5 => !(s.rtuWaits unit).isEmpty
  | _ => true

/-- A quadrant loses its next slot to an activity of R450, which delays no slot by more than 64 clk. -/
def State.loseSlot (s : State) (cl core q : Nat) : State :=
  let mine := fun (b : Busy) => b.cl = cl && b.core = core && b.q = q && b.cause = 1
  let start := ((s.svc.busy.find? mine).map (fun b => b.start)).getD s.clk
  if start + 64 < s.clk + 2 then s
  else s.updSvc (fun v => { v with busy := v.busy.filter (fun b => !mine b) ++ [⟨cl, core, q, 1, true, start, s.clk + 2⟩] })

/-- STALL_COUNTER_INCREMENT: a unit that holds work cannot advance it in a clk, for a cause that the state does not show: port and slice queues, operands and writes
under way (log 39); no cause with a lower code applies, and the unit counts each clk once. For a quadrant's INTACT the next slot is lost; the other counters go up
as the state shows their causes. -/
def execStallCounterIncrement (a : Nat) (s : State) : Out :=
  let reg := bitsAt a 0 10
  let unit := bitsAt a 10 7
  let core := bitsAt a 17 2
  let blk := bitsAt a 19 4
  let c := reg - 0x80
  .next (
    if (csrShape a).isNone then s
    else if blk = 1 && 0x100 ≤ reg && reg < 0x200 && reg % 0x40 = 1 then s.loseSlot unit core ((reg - 0x100) / 0x40)
    else if reg < 0x80 || 0xC0 ≤ reg || !(blkCauses blk).contains c || (s.stalled blk unit core c).isSome || !s.holdsWork blk unit core then s
    else if (s.shownCause blk unit core).any (fun k => k < c) then s
    else s.stallUnit (a - c) c)

end Sys2Proof.Machine
end

