-- ==== Sys2Proof/Machine/HostLink.lean ====
section
/-!
DEFINITION. The attach port and the fabric ports: RDMA and SENDs of hosts (R408 to R410), the handlers of the root region (R411 to R413, R418), the
operations of peers (R272, R420, R421, R427, R442), and what the ports do by themselves.
-/

namespace Sys2Proof.Machine

def State.updLink (s : State) (f : Link → Link) : State := { s with link := f s.link }

/-! ## Connections (R229, R408, R420) -/

/-- What the operations of a queue pair may not precede. -/
def State.connView (s : State) (qp : Nat) : List Nat := ((s.link.views.find? (fun x => x.1 = .host qp)).map (fun x => x.2)).getD []

/-- An operation of a queue pair acts, after those before it; and it has acted. -/
def State.asQueue (s : State) (qp : Nat) : State :=
  { s with ord := { s.ord with agent := some ⟨.queue qp, .queue qp, .port, View.of (s.connView qp)⟩ } }
def State.queueDone (s : State) (qp : Nat) : State :=
  let v := s.opView
  s.opDone.updLink (fun l => { l with views := l.views.filter (fun x => x.1 ≠ .host qp) ++ [(.host qp, v)] })

/-- A packet arrives on a connection: one marked for congestion gets its notice; the one awaited is served, one that came before is acknowledged again, and
another gets the sequence number awaited (log 27). Nothing arrives at a port that is down (R463). -/
def State.arrive (s : State) (c : Conn) (p : Pkt) (f : State → State) : State :=
  if s.svc.portsDown.contains (s.connPort c).1 then s else
  let s := if p.ce then s.send (.cnp c) else s
  let n : Nat := p.psn % 2 ^ 24
  let want : Nat := ((s.link.psns.find? (fun x => x.1 = c)).map (fun x => x.2)).getD n
  let behind : Nat := (want + 2 ^ 24 - n) % 2 ^ 24
  if n = want then f (s.updLink (fun l => { l with psns := l.psns.filter (fun x => x.1 ≠ c) ++ [(c, (n + 1) % 2 ^ 24)] }))
  else if behind < 2 ^ 23 then s.send (.linkAck c n)
  else s.send (.linkNak c want)

/-! ## RDMA (R408) -/

/-- The region of an RDMA access, when its window holds it. -/
def State.rdmaWindow (s : State) (qp rkey va n : Nat) : Option Nat :=
  match Config.window s.tick qp rkey with
  | none => none
  | some (rid, base, size) => if va < base || base + size < va + n then none else some rid

/-- Bytes from an address with the places that translation gives. -/
def withVas (va : Nat) (ls : List Loc) : List (Nat × Loc) := ((List.range ls.length).map (fun i => (va + i) % 2 ^ 56)).zip ls

/-- A write of a host: the answer, once it is performed; none while it waits for the walk unit or a peer. Where translation refuses it, a NAK for a remote access
error goes back and no byte is written. -/
def State.hostWrite (s : State) (qp rid va : Nat) (bytes : List Byte) : State × Option OutMsg :=
  match s.translateRange rid va true bytes.length with
  | .error f => if f.holds then (s.hold rid f 0 [], none) else (s, some (.hostNak qp .accessError))
  | .ok ls =>
    match s.writeAll rid (withVas va ls) bytes with
    | (s', none) => (s', some (.hostAck qp))
    | (s', some f) => (s', if f.holds then none else some (.hostNak qp .accessError))

/-- A read of a host: the bytes go back, or a NAK; data with an uncorrectable sector is answered with a NAK (log 27). The read is an acquire (R229). -/
def State.hostRead (s : State) (qp rid va len : Nat) : State × Option OutMsg :=
  match s.translateRange rid va false len with
  | .error f => if f.holds then (s.hold rid f 0 [], none) else (s, some (.hostNak qp .accessError))
  | .ok ls =>
    if (s.poisonAt ls).isSome then (s.meetUe ls, some (.hostNak qp .accessError))
    else match s.take (withVas va ls) (some 5) with
      | .error f => if f.holds then (s.hold rid f 0 [], none) else (s, some (.hostNak qp .accessError))
      | .ok r => (r.1, some (.hostData qp r.2))

/-- An operation of a host: a SEND reaches its handler's queue, after the operations before it (R229). -/
def State.hostOp (s : State) (qp : Nat) (op : HostOp) : State × Option OutMsg :=
  match op with
  | .write rid va bytes => s.hostWrite qp rid va bytes
  | .read rid va len => s.hostRead qp rid va len
  | .send r => (s.updLink (fun l => { l with reqs := l.reqs ++ [{ r with view := s.connView qp }] }), some (.hostAck qp))

/-- The operations of a queue pair are performed in the order of their arrival, up to one that waits. -/
def State.runHops (qp : Nat) : Nat → State → State
  | 0, s => s
  | n + 1, s =>
    match s.link.hops.find? (fun x => x.1 = qp) with
    | none => s
    | some (_, id, op) =>
      let r := (s.asQueue qp).hostOp qp op
      match r.2 with
      | none => r.1.opDone
      | some m =>
        let s := (((r.1.queueDone qp).dropRops (.queue qp)).endReads (.queue qp)).updLink (fun l => { l with hops := l.hops.filter (fun x => x.2.1 ≠ id) })
        State.runHops qp n (s.send m)

def State.resumeHost (s : State) (qp : Nat) : State := State.runHops qp s.link.hops.length s

/-- An operation of a host takes its place behind those of its queue pair. -/
def State.addHop (s : State) (qp : Nat) (op : HostOp) : State :=
  (({ s with fresh := s.fresh + 1 } : State).updLink (fun l => { l with hops := l.hops ++ [(qp, s.fresh, op)] })).resumeHost qp

/-- An RDMA operation arrives: what leaves its window gets a NAK. -/
def execRdma (q : HostPkt) (rkey va n : Nat) (op : Nat → HostOp) (s : State) : Out :=
  .next (if 4096 ≤ q.qp then s
    else s.arrive (.host q.qp) q.pkt (fun s =>
      match s.rdmaWindow q.qp rkey va n with
      | none => s.send (.hostNak q.qp .accessError)
      | some rid => s.addHop q.qp (op rid)))

/-- RDMA_WRITE. -/
def execRdmaWrite (q : HostPkt) (rkey va : Nat) (bytes : List Byte) (s : State) : Out := execRdma q rkey va bytes.length (fun rid => .write rid va bytes) s

/-- RDMA_READ. -/
def execRdmaRead (q : HostPkt) (rkey va len : Nat) (s : State) : Out := execRdma q rkey va len (fun rid => .read rid va len) s

/-- Is a SEND of a host refused (R409)? The root's table has the entries 0 to 4 (R411). -/
def sendBad (bytes : List Byte) : Bool :=
  let h := leNat (bytes.take 16)
  let len := bitsAt h 16 5
  bytes.length < 16 || bytes.length ≠ 16 + 4 * len || bitsAt h 0 8 ≠ 1 || 16 < len || bitsAt h 21 11 ≠ 0 || bitsAt h 64 64 ≠ 0 || 4 < bitsAt h 8 8

/-- The request of an accepted SEND. -/
def sentReq (qp : Nat) (bytes : List Byte) : Req :=
  let h := leNat (bytes.take 16)
  ⟨qp, bitsAt h 8 8, bitsAt h 32 32, leWords (bitsAt h 16 5) (leNat (bytes.drop 16)), []⟩

/-- ROCE_SEND: an accepted SEND waits for its handler wave; a refused one gets a NAK for an invalid request. -/
def execRoceSend (q : HostPkt) (bytes : List Byte) (s : State) : Out :=
  .next (if 4096 ≤ q.qp then s
    else s.arrive (.host q.qp) q.pkt (fun s =>
      if sendBad bytes then s.send (.hostNak q.qp .invalidRequest) else s.addHop q.qp (.send (sentReq q.qp bytes))))

/-! ## The root's handlers (R410, R411, R412) -/

/-- The completion record at `cpl`, one write of the root region; none where the address is misaligned or not there. -/
def State.complete (s : State) (cpl tag stat result : Nat) : State :=
  if cpl % 16 ≠ 0 then s
  else s.svcWrite cpl (leBytes 16 (tag % 2 ^ 32 + 2 ^ 32 * stat + 2 ^ 63 + 2 ^ 64 * (result % 2 ^ 64)))

/-- The scalars s0 to s18 with which the handler wave of a SEND starts (R410): the payload, words beyond its length zero; the queue pair; 0xFF and
the length; the tag. -/
def Req.scalars (r : Req) : List Word :=
  r.words ++ List.replicate (16 - r.words.length) 0 ++
    [BitVec.ofNat 32 (2 ^ 31 + r.qp % 2 ^ 24), BitVec.ofNat 32 (0xFF + 2 ^ 8 * r.words.length), BitVec.ofNat 32 r.tag]

/-- The partition of the region whose control block stands at an address of the root's space; none where that cannot be read. -/
def State.partAt (s : State) (adr : Nat) : Option Nat :=
  match s.readVa 0 adr 256 with
  | .ok rcb => some (bitsAt rcb 44 3)
  | .error _ => none

/-- What a handler of the root's firmware reads from its scalars: a word, a pair, an address. -/
def Wave.word (w : Wave) (i : Nat) : Nat := (w.reg (.s i)).toNat
def Wave.pairAt (w : Wave) (i : Nat) : Nat := w.word i + 2 ^ 32 * w.word (i + 1)
def Wave.addrAt (w : Wave) (i : Nat) : Nat := w.pairAt i % 2 ^ 56

/-- The address of the control block that a CTXNEW names. -/
def Req.addr (r : Req) : Nat := leNat ((r.scalars.take 2).flatMap (fun w => leBytes 4 w.toNat)) % 2 ^ 56

/-- The handler waves of the root's firmware (log 40). -/
def State.firmware (s : State) (hidx : Nat) : List Wave := s.waves.filter (fun w => decide (w.kind = .firmware hidx))

/-- May the handler of the `k`-th request start: is it the first of its queue pair, and for a CTXNEW the first of its partition, with none in progress (R410, R418)? -/
def State.reqReady (s : State) (k : Nat) (r : Req) : Bool :=
  let before := s.link.reqs.take k
  !before.any (fun b => b.qp = r.qp) &&
  (r.hidx ≠ 1 ||
    (!before.any (fun b => b.hidx = 1 && s.partAt b.addr = s.partAt r.addr) &&
     !(s.firmware 1).any (fun w => s.partAt (w.addrAt 0) = s.partAt r.addr)))

/-- Starts the handler wave of the `k`-th request on core 0 of cluster 0 (R410, R411); none while it waits. The scalars from s19 on are 0, as in every wave that R254
starts. -/
def State.startRoot (s : State) (k : Nat) (r : Req) : Option State :=
  match s.region? 0 with
  | none => none
  | some g =>
    if !s.reqReady k r then none
    else
      (s.startHandler g 0 0 (.firmware r.hidx) (4 * (Config.rootEntry r.hidx % 2 ^ 54)) 128 g.hV g.hS true (handlerSegs g) r.view
        (fun w => w.withScalars 0 r.scalars)).map (fun s => s.updLink (fun l => { l with reqs := l.reqs.eraseIdx k }))

/-- AM_HANDLER_START: the oldest message of some class in a cluster's queue whose handler can start on a core of it; on core 0 of cluster 0, else the first SEND of a
host whose handler can start. -/
def execAmHandlerStart (cl core : Nat) (s : State) : Out :=
  .next (match (List.range 9).findSome? (fun cls => (s.inQueue cl cls).head?.bind (fun m => s.startAm m cl core)) with
    | some s' => s'
    | none =>
      if cl = 0 && core = 0 then ((List.range s.link.reqs.length).findSome? (fun k => s.link.reqs[k]?.bind (s.startRoot k))).getD s else s)

/-- The `k`-th running handler of an index has its effect, with STAT and RESULT written at the CPL that payload word `c` begins (R411, R412), and its wave ends. -/
def rootHandler (hidx c k : Nat) (f : Wave → State → State × Nat × Nat) (s : State) : Out :=
  .next (match (s.firmware hidx)[k]? with
    | none => s
    | some w =>
      let x := f w { s with waves := s.waves.filter (fun v => v.uid ≠ w.uid) }
      x.1.complete (w.addrAt c) (w.word 18) x.2.1 x.2.2)

/-- The features that the spec defines: the set S of R413. -/
def featuresDefined : Nat := 2 ^ 11 - 1

/-- ATTACH (R413). -/
def execAttach (k : Nat) (s : State) : Out :=
  rootHandler 0 2 k (fun w s =>
    if s.regions.any (fun g => g.rid ≠ 0) then (s, 10, 0)
    else
      let g := w.pairAt 0 &&& featuresDefined &&& Config.features.toNat
      ({ s with grant := BitVec.ofNat 64 g }, 0, g)) s

/-- The next region id in ascending order from `n`, skipping 0 and every id in use. -/
def State.freeRid (s : State) : Nat → Nat → Nat
  | 0, n => n
  | k + 1, n =>
    let n := n % 2 ^ 32
    if n = 0 || (s.region? n).isSome then s.freeRid k (n + 1) else n

/-- The fault queue of a new region is cleared (R418); an inherited one is its parent's. -/
def State.clearQueue (s : State) (rid : Nat) : State :=
  match s.region? rid with
  | none => s
  | some r =>
    if bitAt r.inh 3 then s
    else match s.translateRange rid r.fq true (32 * r.fqn) with
      | .error _ => s
      | .ok ls => s.store ls (List.replicate ls.length 0)

/-- Firmware writes the top-level table of a new region that has one of its own (R418, log 46). -/
def State.writeTop (s : State) (rid : Nat) : State :=
  match (s.region? rid).bind (fun r => if bitAt r.inh 0 then none else r.ptroot) with
  | none => s
  | some root =>
    (List.range (2 ^ bitsAt root 0 5)).foldl (fun s i => match Config.topEntry s.tick i with
      | some e => s.store ((List.range 8).map (fun k => .dev (topTable root + 8 * i + k) .rc)) (leBytes 8 e)
      | none => s) s

/-- CTXNEW: the root writes RID and DEPTH into the control block and the top-level table, and registers it. -/
def execCtxnew (k : Nat) (s : State) : Out :=
  rootHandler 1 2 k (fun w s =>
    let adr := w.addrAt 0
    match s.readVa 0 adr 256 with
    | .error _ => (s, 7, 0)
    | .ok rcb =>
      match s.region? (bitsAt rcb 128 32) with
      | none => (s, 9, 0)
      | some p =>
        if p.retiring then (s, 9, 0)
        else
          let id := s.freeRid (s.regions.length + 2) s.link.nextRid
          let s := s.updLink (fun l => { l with nextRid := id + 1 })
          let s := s.svcWrite adr (leBytes 8 (putBits (putBits (bitsAt rcb 0 64) 0 32 id) 48 3 (p.depth + 1)))
          match s.register 0 adr with
          | none => (s, 7, 0)
          | some (s, id) => ((s.writeTop id).clearQueue id, 0, id)) s

/-- LAUNCH: the registered control block of the region, then SPAWN. -/
def execLaunch (k : Nat) (s : State) : Out :=
  rootHandler 2 3 k (fun w s =>
    if w.word 5 ≠ 0 then (s, 2, 0)
    else
      match s.region? (w.word 0) with
      | none => (s, 9, 0)
      | some g =>
        if g.retiring then (s, 9, 0)
        else
          let x := s.spawn 0 (w.addrAt 1) g.adr (some (w.addrAt 3, w.word 18)) (w.thread 0).vw.ids
          (x.1, x.2.2, x.2.1)) s

/-- CTXEND. -/
def execCtxend (k : Nat) (s : State) : Out :=
  rootHandler 3 1 k (fun w s =>
    match s.region? (w.word 0) with
    | none => (s, 9, 0)
    | some g =>
      if g.retiring then (s, 9, 0)
      else (s.updRegion g.rid (fun r => { r with retiring := true }), 0, 0)) s

/-- QUERY: the number of clusters of each partition, a byte each. -/
def execQuery (k : Nat) (s : State) : Out :=
  rootHandler 4 0 k (fun _ s =>
    (s, 0, leNat ((List.range 8).map (fun p => BitVec.ofNat 8 ((List.range 48).filter (fun c => s.partOf c = some p)).length)))) s

/-! ## Operations of peers (R272, R421, R427, R442) -/

/-- The new value of an element of XRED: add, min or max of a type, min and max of floats as .num (R272). -/
def redElem (xop xty o d : Nat) : Nat :=
  match xty with
  | 0 => (atomNew (match xop with | 0 => 1 | 1 => 6 | _ => 7) 32 o d 0).1
  | 1 => (atomNew (match xop with | 0 => 1 | 1 => 8 | _ => 9) 32 o d 0).1
  | 0xA => (atomNew (match xop with | 0 => 2 | 1 => 10 | _ => 11) 32 o d 0).1
  | 0xC => (bf16.addV .rn false (bf16.value o) (bf16.value d)).bits
  | _ => (atomNew 2 64 o d 0).1

def redBytes (xty : Nat) : Nat := match xty with | 0xC => 2 | 0xD => 8 | _ => 4

/-- May operations of peers act on a region: its group is active and not aborting? -/
def State.groupOpen (s : State) (rid : Nat) : Bool := ((s.region? rid).map (fun r => r.grpActive && !r.aborting)).getD false

/-- The region, the task and the refusal of an operation of a peer. -/
def msgRegion (m : FabricMsg) : Nat :=
  match m with | .write _ r _ _ _ _ | .read _ r _ _ _ _ | .sector r _ _ | .red _ r _ _ _ _ _ _ => r | _ => 0
def msgTask (m : FabricMsg) : Option Nat := match m with | .write t _ _ _ _ _ | .read t _ _ _ _ _ => t | .red t _ _ _ _ _ _ _ => some t | _ => none
def msgNo (c : Conn) (m : FabricMsg) (code : Nat) : OutMsg :=
  match m with
  | .read _ _ _ _ id _ => .readReply c id [] code ⟨[], []⟩
  | .write _ _ _ _ id _ | .sector _ _ id | .red _ _ _ _ _ _ id _ => .ack c id [] code ⟨[], []⟩
  | _ => .ack c 0 [] code ⟨[], []⟩

/-- The member of a region's group that is a module. -/
def State.memberOf (s : State) (rid : Nat) (c : Conn) : Nat :=
  match s.region? rid, c with
  | some r, .peer m _ => ((List.range r.cgsz).find? (fun i => s.moduleOf rid i = m)).getD r.cgsz
  | _, _ => 0

/-- A place as this module names it, by the member that sent it and this module's own index. -/
def placeFrom (sender own : Nat) (p : Place) : Place :=
  match p with
  | .thread m u l cl co => .thread (if m = 0 then sender + 1 else if m = own + 1 then 0 else m) u l cl co
  | p => p

/-- What a member of a region's group says of releases, of an access, and of an answer, in this module's numbers. -/
def State.relsFrom (s : State) (rid sender : Nat) (rs : List Rel) : List Rel :=
  rs.map (fun r => { relIds ownId r with place := placeFrom sender (((s.region? rid).map (fun g => g.peerix)).getD 0) r.place })
def State.accFrom (s : State) (rid sender : Nat) (a : PeerAcc) : PeerAcc :=
  ⟨placeFrom sender (((s.region? rid).map (fun g => g.peerix)).getD 0) a.place, a.seen.map ownId, s.relsFrom rid sender a.rels, a.ret⟩
def State.seenFrom (s : State) (rid sender : Nat) (x : Seen) : Seen := ⟨x.ids.map ownId, s.relsFrom rid sender x.rels⟩

/-- Operation `n` of a peer performs an access. -/
def State.asPeer (s : State) (n : Nat) (a : PeerAcc) : State := { s with ord := { s.ord with agent := some ⟨.peer n, a.place, .port, View.of a.seen⟩ } }

/-- What the answer to an access of the acting operation says of its place: its points, and the releases that it has met. -/
def State.pointsOf (s : State) (before : List Nat) : Seen :=
  match s.ord.agent with
  | none => ⟨[], []⟩
  | some a => ⟨a.vw.ids.filter (fun i => !before.contains i), a.vw.pool⟩

/-- A place of this module as a peer's access finds it: that to an SO page is RC (R219). -/
def Loc.asRc (l : Loc) : Loc := match l with | .dev pa .so => .dev pa .rc | l => l

/-- The places of an access of a peer, through the tables of its member region (R427). -/
def State.peerLocs (s : State) (rid va n : Nat) (write : Bool) : Except LFault (List (Nat × Loc)) :=
  match s.translateRange rid (va % 2 ^ 56) write n with
  | .error e => .error e
  | .ok ls => .ok (withVas va (ls.map Loc.asRc))

/-- Serves a read of a peer: the answer, or what stops it. -/
def State.peerRead (s : State) (c : Conn) (rid va len id : Nat) (seen : List Nat) : State × Except LFault OutMsg :=
  match s.peerLocs rid va len false with
  | .error e => (s, .error e)
  | .ok ls =>
    if (s.ueAt ls).isSome then (s.meetUe (ls.map (fun x => x.2)), .ok (.readReply c id [] fcMemUe ⟨[], []⟩))
    else match s.take ls none with
      | .error e => (s, .error e)
      | .ok r => (r.1, .ok (.readReply c id r.2 0 (r.1.pointsOf seen)))

/-- Serves a write of a transfer of a peer. -/
def State.peerWrite (s : State) (c : Conn) (rid va : Nat) (bs : List Byte) (id : Nat) (seen : List Nat) : State × Except LFault OutMsg :=
  match s.peerLocs rid va bs.length true with
  | .error e => (s, .error e)
  | .ok ls => (match s.writeAll rid ls bs with | (s', some e) => (s', .error e) | (s', none) => (s', .ok (.ack c id [] 0 (s'.pointsOf seen))))

/-- Reduces bytes into memory, each element an atomic by itself (R272). -/
def State.redInto (s : State) (xop xty : Nat) (ls : List Loc) (bs : List Byte) : State :=
  let n := redBytes xty
  (List.range (ls.length / n)).foldl (fun s i =>
    let l := (ls.drop (i * n)).take n
    s.storeAs l (leBytes n (redElem xop xty (leNat (s.rmwBytes l)) (leNat ((bs.drop (i * n)).take n)))) none true) s

/-- Serves a reduction of a peer; what lies on a further peer is reduced there. -/
def State.peerRed (s : State) (c : Conn) (task rid va xop xty : Nat) (bs : List Byte) (id : Nat) (seen : List Nat) : State × Except LFault OutMsg :=
  match s.peerLocs rid va bs.length true with
  | .error e => (s, .error e)
  | .ok ls =>
    if (s.ueAt ls).isSome then (s.meetUe (ls.map (fun x => x.2)), .ok (.ack c id [] fcMemUe ⟨[], []⟩))
    else
      let r := (remParts ls bs).foldl (fun (acc : State × Except LFault Bool) p =>
        let q := acc.1.awaitMsg rid p.1 p.2.1 p.2.2.1 p.2.2.2.2.length p.2.2.2.1 (fun k => .red k task rid p.1 p.2.1 xop xty p.2.2.2.2 (s.peerAcc p.2.2.2.1 [] false))
        (q.1, allCome acc.2 q.2)) (s, .ok true)
      match r.2 with
      | .error e => (r.1, .error e)
      | .ok false => (r.1, .error ⟨fcRemote, va % 2 ^ 56⟩)
      | .ok true =>
        let here := (ls.zip bs).filter (fun x => !x.1.2.away)
        let s := r.1.redInto xop xty (here.map (fun x => x.1.2)) (here.map (fun x => x.2))
        (s, .ok (.ack c id [] 0 (s.pointsOf seen)))

/-- The address, bytes and place in the order of memory of an access to a sector. -/
def opSpan (o : SecOp) : Nat × Nat × PeerAcc := match o with | .store va bs acc => (va, bs.length, acc) | .atomic va _ n _ _ acc => (va, n, acc)

/-- Performs one access of a request at its bytes of this module: what it finds, for an atomic at the point of its own write (R230, R233), and its place. -/
def State.peerOp (s : State) (n : Nat) (o : SecOp) (ls : List Loc) : State × List Byte × Seen :=
  match o with
  | .store _ bs acc =>
    let s := (s.asPeer n acc).storeWith ls bs (fun _ _ => acc.rels) false
    (s, [], s.pointsOf acc.seen)
  | .atomic _ aop size d cmp acc =>
    let s := s.asPeer n acc
    let old := s.rmwBytes ls
    let l0 := ls.head?.getD default
    let rels := s.relsOf ls (spotOf (s.spots ls true) l0)
    let new := (atomNew aop (8 * size) (leNat old) (d % 2 ^ (8 * size)) (cmp % 2 ^ (8 * size))).1
    let s := (s.storeWith ls (leBytes size new) (fun _ _ => acc.rels) true).updReader (fun me v => v.read me l0.kind none [] rels)
    (s, old, s.pointsOf acc.seen)

def Seen.join (a b : Seen) : Seen := ⟨joinIds a.ids b.ids, a.rels ++ b.rels.filter (fun r => !a.rels.contains r)⟩

/-- The accesses of a request to one sector of this module, indivisibly and in their order (R203, R209). -/
def State.peerOps (s : State) (n : Nat) (xs : List (SecOp × List Loc)) : State × List (List Byte) × Seen :=
  let s := s.setPack (packOf (xs.map (fun x => (View.of (opSpan x.1).2.2.seen, x.2))))
  let r := xs.foldl (fun (acc : State × List (List Byte) × Seen) x =>
    let q := acc.1.peerOp n x.1 x.2
    (q.1, acc.2.1 ++ [q.2.1], Seen.join acc.2.2 q.2.2)) (s, [], ⟨[], []⟩)
  (r.1.setPack [], r.2)

/-- A request whose sector lies on a further peer goes on there, and its answer comes back (R427). -/
def State.forward (s : State) (n rid : Nat) (xs : List (SecOp × List (Nat × Loc))) : State × Except LFault (List (List Byte) × Seen) :=
  let mine := s.link.rops.filter (fun r => r.who = .peer n && r.write)
  let wait : LFault := ⟨fcRemote, 0⟩
  match xs.head?.bind (fun x => x.2.head?) with
  | some (va, .rem p pva k) =>
    if mine.isEmpty then
      let id := s.fresh
      let ops := xs.map (fun x => match x.1, x.2.head? with
        | .store _ bs acc, some (_, .rem _ a _) => .store a bs acc
        | .atomic _ o m d c acc, some (_, .rem _ a _) => .atomic a o m d c acc
        | o, _ => o)
      let new := (List.range xs.length).map (fun i =>
        ({ id := id, idx := i, who := .peer n, rid := rid, va := va, peer := p, pva := pva, n := 0, write := true, ask := none, atom := none, kind := k, acq := none,
           step := s.tick, site := 0, lanes := [], answer := none } : RemOp))
      ((({ s with fresh := id + 1 } : State).updLink (fun l => { l with rops := l.rops ++ new })).send (.sector id rid p ops), .error wait)
    else if mine.any (fun r => r.answer.isNone) then (s, .error wait)
    else
      let as := mine.filterMap (fun r => r.answer.map (fun a => (r, a)))
      match as.find? (fun x => x.2.fault ≠ 0) with
      | some x => (s, .error ⟨x.2.fault, va⟩)
      | none => (s, .ok (as.map (fun x => x.2.bytes), as.foldl (fun q x => Seen.join q x.2.seen) ⟨[], []⟩))
  | _ => (s, .ok ([], ⟨[], []⟩))

/-- The places of each access of a request. -/
def State.opLocs (s : State) (rid : Nat) : List SecOp → Except LFault (List (SecOp × List (Nat × Loc)))
  | [] => .ok []
  | o :: r =>
    match s.peerLocs rid (opSpan o).1 (opSpan o).2.1 true, s.opLocs rid r with
    | .error e, _ => .error e
    | .ok _, .error e => .error e
    | .ok ls, .ok xs => .ok ((o, ls) :: xs)

/-- Serves a request of a peer to one sector. One of ATOM at uncorrectable data is answered so; a store or RED leaves the sector, with the error recorded (R201). -/
def State.peerSector (s : State) (c : Conn) (n rid : Nat) (ops : List SecOp) (id : Nat) : State × Except LFault OutMsg :=
  match s.opLocs rid ops with
  | .error e => (s, .error e)
  | .ok xs =>
    let locs := xs.flatMap (fun x => x.2.map (fun y => y.2))
    if locs.any Loc.away then
      match s.forward n rid xs with
      | (s', .error e) => (s', if e.code = fcMemUe then .ok (.ack c id [] fcMemUe ⟨[], []⟩) else .error e)
      | (s', .ok x) => (s', .ok (.ack c id x.1 0 x.2))
    else if ops.any (fun o => (opSpan o).2.2.ret) && (s.poisonAt locs).isSome then (s.meetUe locs, .ok (.ack c id [] fcMemUe ⟨[], []⟩))
    else
      let r := s.peerOps n (xs.map (fun x => (x.1, x.2.map (fun y => y.2))))
      (r.1, .ok (.ack c id r.2.1 0 r.2.2))

/-- Serves a read, write, request or reduction of a peer: the answer, or what stops it. -/
def State.servePeer (s : State) (c : Conn) (n : Nat) (m : FabricMsg) : State × Except LFault OutMsg :=
  let acc := fun (rid : Nat) (a : PeerAcc) => s.accFrom rid (s.memberOf rid c) a
  match m with
  | .write _ rid va bs id a => let a := acc rid a; (s.asPeer n a).peerWrite c rid va bs id a.seen
  | .read _ rid va len id a => let a := acc rid a; (s.asPeer n a).peerRead c rid va len id a.seen
  | .red task rid va xop xty bs id a => let a := acc rid a; (s.asPeer n a).peerRed c task rid va xop xty bs id a.seen
  | .sector rid ops id =>
    let ops := ops.map (fun o => match o with | .store va bs a => .store va bs (acc rid a) | .atomic va o k d x a => .atomic va o k d x (acc rid a))
    (s.asPeer n (((ops.head?).map (fun o => (opSpan o).2.2)).getD ⟨.op, [], [], false⟩)).peerSector c n rid ops id
  | m => (s, .ok (msgNo c m 0))

/-- The number by which the record of a transfer of a peer names it. -/
def inopRef (n : Nat) : Nat := 2 ^ 32 + n

/-- An operation of a peer is over, with its answer. -/
def State.endInop (s : State) (n : Nat) (m : OutMsg) : State :=
  (((s.dropRops (.peer n)).endReads (.peer n)).updLink (fun l => { l with inops := l.inops.filter (fun p => p.1 ≠ n) })).send m

/-- Operation `n` of a peer is performed, unless a record holds it: refused where the group is not open; where it must wait, it stays. A transfer that met a fault
waits with an engine record in the member's region, which names the transfer's task; an access to a page returns the fault (R427, R442). -/
def State.serveInop (s : State) (n : Nat) : State :=
  match s.link.inops.find? (fun p => p.1 = n) with
  | none => s
  | some (_, c, m) =>
    let rid := msgRegion m
    if s.recs.any (fun r => r.eng.any (fun e => e.ekind = 7 && e.ref = inopRef n)) then s
    else if !s.groupOpen rid then s.endInop n (msgNo c m fcAbort)
    else
      let r := s.servePeer c n m
      match r.2 with
      | .ok a => r.1.opDone.endInop n a
      | .error f =>
        if f.holds then (r.1.hold rid f 0 []).opDone
        else match msgTask m with
          | some task => ((r.1.opDone.dropRops (.peer n)).endReads (.peer n)).addRec (engRec rid 7 0 0 task (inopRef n) (f.code, f.info))
          | none => r.1.opDone.endInop n (msgNo c m f.code)

/-- The operation of a peer that a record holds goes on, or ends with status ABORT (R441, R442). -/
def State.resumePeer (s : State) (n : Nat) (exit : Bool) : State :=
  match s.link.inops.find? (fun p => p.1 = n) with
  | none => s
  | some (_, c, m) => if exit then s.endInop n (msgNo c m fcAbort) else s.serveInop n

/-! ## Answers of peers (R427, R442) -/

/-- Is an access to a peer a write or an atomic of a lane, which has been sent? -/
def RemOp.put (uid lane : Nat) (r : RemOp) : Bool := r.who = .lane uid lane && r.write && r.ask.isNone

/-- The result of an atomic on a peer: the old value, and the flags of its step (R209). -/
def State.landAtom (s : State) (uid lane : Nat) (a : RemAtom) (bs : List Byte) : State :=
  let fl : Flags := BitVec.ofNat 7 (atomNew a.aop (8 * a.size) (leNat bs) a.data a.cmp).2
  let regs := (regWrites lane .v a.d (if a.size = 8 then 2 else 1) (leNat bs)).filter (fun x => (a.regs lane).contains x.1)
  s.addPend ⟨uid, [lane], regs, if fl = 0 || regs.isEmpty then [] else [(lane, fl)], none, []⟩

/-- A part of a lane's write or atomic has been performed on a peer: the lane has its points there, an acquire its releases (R221, R229), an atomic its result; one
at uncorrectable data parks its lane at the next boundary (R201). -/
def State.landPart (s : State) (uid lane : Nat) (r : RemOp) (x : RemAns) : State :=
  match s.wave? uid with
  | none => s
  | some w =>
    let me := Place.thread 0 uid lane w.cl w.core
    if x.fault = fcMemUe then s.updThread uid lane (fun t => { t with ue := some (t.ue.getD (s.peerSaid r fcMemUe).info) })
    else
      let s := s.updThread uid lane (fun t => { t with vw := t.vw.read me r.kind r.acq x.seen.ids x.seen.rels })
      match r.atom with | some a => s.landAtom uid lane a x.bytes | none => s

/-- Every part of a lane's write or atomic has been answered: the lane goes on where peers have performed them, and otherwise waits with its fault for the lanes of
its packet (R35, R427). -/
def State.finishWrites (s : State) (uid lane : Nat) : State :=
  let rs := s.link.rops.filter (RemOp.put uid lane)
  if rs.isEmpty || rs.any (fun r => r.answer.isNone) then s
  else
    let s := s.updLink (fun l => { l with rops := l.rops.filter (fun r => !r.put uid lane) })
    let bad := rs.findSome? (fun r => r.answer.bind (fun x => if x.fault ≠ 0 && !(x.fault = fcMemUe && r.atom.isSome) then some (s.peerSaid r x.fault) else none))
    match (s.thread uid lane).st, bad with
    | .admission .peer settle, none =>
      let s := rs.foldl (fun s r => match r.answer with | some x => s.landPart uid lane r x | none => s) s
      (s.resume uid lane (s.thread uid lane).pc settle).parkFailed uid
    | .admission .peer _, some f =>
      ((s.updThread uid lane (fun t => { t with pc := (rs.head?.map (fun r => r.site)).getD t.pc })).markFailed uid [(lane, f)]).parkFailed uid
    | _, _ => s

/-- Every read of a lane's access has come: those who wait for it issue the instruction again. -/
def State.finishReads (s : State) (uid lane : Nat) : State :=
  if s.asking uid lane then s
  else ((s.link.rops.filter (fun r => r.who = .lane uid lane && !r.write)).flatMap (fun r => r.lanes)).foldl (fun s l => s.wakeLane uid l) s

/-- An agent's access to a peer has its answer: what waited for it goes on once everything that it asked for has come. Fetches of streams, of instruction caches
and of multicasts look again by themselves. -/
def State.settleRop (s : State) (w : Who) : State :=
  match w with
  | .lane uid lane => (s.finishWrites uid lane).finishReads uid lane
  | .queue qp => s.resumeHost qp
  | .peer n => s.serveInop n
  | .stream .. | .fetch .. | .mread _ | .walker => s
  | w => if s.link.rops.any (fun x => x.who = w && x.answer.isNone) then s else s.answerOp w none

/-- The answer to a request: each of its accesses has its part. -/
def State.answerRops (s : State) (id : Nat) (old : List (List Byte)) (fault : Nat) (seen : Seen) : State :=
  let mine := s.link.rops.filter (fun r => r.id = id && r.ask.isNone)
  let s := s.updLink (fun l => { l with rops := l.rops.map (fun x =>
    if x.id = id && x.ask.isNone then { x with answer := some ⟨(old[x.idx]?).getD [], fault, s.seenFrom x.rid x.peer seen⟩ } else x) })
  (mine.foldl (fun acc r => if acc.contains r.who then acc else acc ++ [r.who]) []).foldl State.settleRop s

/-- The answer to an operation has come: a TLBOP waits for it no longer (R433). -/
def State.answered (s : State) (id : Nat) : State :=
  ({ s with asu := { s.asu with syncs := s.asu.syncs.map (fun (y : WSync) => { y with ids := y.ids.filter (fun k => k ≠ id) }) } } : State).landOwed.updLink
    (fun l => { l with unacked := l.unacked.filter (fun p => p.2.op ≠ some id) })

/-- The status of a transfer whose answer carries a fault (R442). -/
def answerStatus (fault : Nat) : Nat := if fault = fcMemUe then 1 else 4

/-- The answer to a transfer, and to an active message: what the peer has done happens before what follows their completion (R226). -/
def State.answerTask (s : State) (t : Task) (bytes : List Byte) (fault : Nat) (ids : List Nat) : State :=
  let s := s.updTask t.cl t.slot (fun t =>
    { t with rmt := none, view := joinIds t.view ids, acc := if t.kind = 8 then bytes.map (fun b => (b.toNat, 0)) else t.acc })
  if fault = 0 then s else s.finishTask t (answerStatus fault)
def State.answerMsg (s : State) (m : AMsg) (fault : Nat) (ids : List Nat) : State :=
  let s := s.dropMsg m.id
  if fault = 0 then s.messageDone { m with view := joinIds m.view ids } else s.failTok m.uid m.tok m.lane fault (s.stepOf m.rid)

/-- The answer to operation `id`. -/
def State.answer (s : State) (id : Nat) (old : List (List Byte)) (fault : Nat) (seen : Seen) : State :=
  let s := s.answered id
  match s.cts.tasks.find? (fun t => t.rmt = some id), s.cts.msgs.find? (fun m => m.id = id && m.stage = .peer) with
  | some t, _ => s.answerTask t (old.head?.getD []) fault (seen.ids.map ownId)
  | _, some m => s.answerMsg m fault (seen.ids.map ownId)
  | _, _ => s.answerRops id old fault seen

/-! ## Groups (R421) -/

/-- A member of a region's group has retired: the group is over, and what the region waits for from its peers ends as an abort does. -/
def State.endGroup (s : State) (rid : Nat) : State :=
  let s := s.updRegion rid (fun r => { r with grpActive := false, grpOver := true })
  let ids := (s.link.rops.filter (fun r => r.rid = rid && r.answer.isNone)).map (fun r => r.id) ++ (s.cts.tasks.filter (fun t => t.rid = rid)).filterMap (fun t => t.rmt) ++
    (s.cts.msgs.filter (fun m => m.rid = rid && m.stage = .peer)).map (fun m => m.id)
  ids.foldl (fun s i => s.answer i [] fcAbort ⟨[], []⟩) s

/-- An active message of a peer enters the relay, where its class has an entry; otherwise its packet comes again. -/
def State.amsgArrive (s : State) (c : Conn) (rid cl index : Nat) (words : List Word) (src peer id : Nat) (seen : List Nat) : State :=
  if !s.groupOpen rid then s.send (.ack c id [] fcAbort ⟨[], []⟩)
  else if 47 < cl then s
  else
    let m : AMsg :=
      { id := s.fresh, uid := 0, lane := 0, tok := id, rid := rid, step := 0, src := src, peer := peer, away := true, cl := 0, core := 0,
        target := cl, index := index, words := words, stage := .relay, view := seen.map ownId }
    ({ s with fresh := s.fresh + 1 }).updCts (fun t => { t with msgs := t.msgs ++ [m] })

/-- A peer's arrival at a superstep: what it has done happens before the step's end (R185, R225). -/
def State.stepFrom (s : State) (rid peer step : Nat) (seen : List Nat) : State :=
  s.updRegion rid (fun r =>
    if r.grpActive && peer < r.cgsz && peer ≠ r.peerix && !r.stepPeers.contains (64 * step + peer) then
      { r with stepPeers := r.stepPeers ++ [64 * step + peer], stepView := joinIds r.stepView (seen.map ownId) }
    else r)

/-- What a SEND from a peer makes the module do (R420). An access or a transfer is an operation of its own (R216). -/
def State.fromPeer (s : State) (c : Conn) (msg : FabricMsg) : State :=
  match msg with
  | .readReply id bytes fault seen => s.answer id [bytes] fault seen
  | .ack id old fault seen => s.answer id old fault seen
  | .amsg rid cl index words src peer id seen => s.amsgArrive c rid cl index words src peer id seen
  | .stepArrive rid peer step seen => s.stepFrom rid peer step seen
  | .retired rid peer => if ((s.region? rid).map (fun r => r.cgrp ≠ 0 && peer < r.cgsz && peer ≠ r.peerix)).getD false then s.endGroup rid else s
  | m => (({ s with fresh := s.fresh + 1 } : State).updLink (fun l => { l with inops := l.inops ++ [(s.fresh, c, m)] })).serveInop s.fresh

/-- Does an active message of a peer wait outside: has the relay no entry for its class, or is the injection of its partition stopped (R239, R243)? -/
def State.relayFull (s : State) (msg : FabricMsg) : Bool :=
  match msg with
  | .amsg rid .. => s.draining rid || 8 ≤ (s.inRelay (Config.portSlice % 64) (s.classOf rid)).length
  | _ => false

/-- FABRIC_MESSAGE_ARRIVE (R420). -/
def execFabricMessageArrive (m : PeerPkt) (s : State) : Out :=
  .next (if s.relayFull m.msg then s else s.arrive (.peer m.peer m.part) m.pkt (fun s => s.fromPeer (.peer m.peer m.part) m.msg))

/-- GROUP_ACTIVATE: every member of a region's group has registered (R421). A group that is over stays so. -/
def execGroupActivate (rid : Nat) (s : State) : Out :=
  .next (s.updRegion rid (fun r => if r.cgrp ≠ 0 && !r.retiring && !r.grpOver then { r with grpActive := true } else r))

/-! ## Ports (R408) -/

/-- What has waited leaves in its order, where its port's priority is no longer paused. -/
def State.flushLink (s : State) : State :=
  s.updLink (fun l => { l with outbox := l.outbox ++ l.waiting.filter (fun m => !s.pausedFor m), waiting := l.waiting.filter s.pausedFor })

/-- RETRANSMISSION_TIMEOUT: what a connection has not had answered is sent again. -/
def execRetransmissionTimeout (c : Conn) (s : State) : Out :=
  .next (s.updLink (fun l =>
    let ms := (l.unacked.filter (fun p => p.1 = c)).map (fun p => p.2)
    { l with outbox := l.outbox ++ ms.filter (fun m => !s.pausedFor m), waiting := l.waiting ++ ms.filter s.pausedFor }))

/-- PRIORITY_FLOW_CONTROL: priority 3 or 4 of a port is paused or resumed. -/
def execPriorityFlowControl (port prio : Nat) (pause : Bool) (s : State) : Out :=
  .next (if port < 9 && (prio = 3 || prio = 4) then
      (s.updLink (fun l => { l with paused := l.paused.filter (fun p => p ≠ (port, prio)) ++ (if pause then [(port, prio)] else []) })).flushLink
    else s)

end Sys2Proof.Machine
end

