-- ==== Sys2Proof/Machine/Slots.lean ====
section
/-!
DEFINITION. What a walk, a drain and a slot set in motion again: PAGE_WALK (R430), DRAIN_COMPLETE (R243) and ISSUE_SLOT (R25 to R32).
-/

namespace Sys2Proof.Machine

/-! ## Walks (R430) -/

/-- The operations of hosts and peers that wait for the walk unit. -/
def State.walkWaits (s : State) : List Who :=
  ((s.misses.flatMap (fun m => m.reqs) ++ s.missQ).map (fun q => q.who)).filter (fun w => match w with | .queue _ | .peer _ => true | _ => false)

/-- PAGE_WALK: one of the 64 walkers completes a walk, and the operations of hosts and peers that waited for it go on, or take its fault; a walk of a partition
whose injection is stopped waits (R243). -/
def execPageWalk (rid va : Nat) (s : State) : Out :=
  .next (
    if s.draining rid then s
    else
      let s' := s.pageWalk rid va
      (s.walkWaits.filter (fun w => !s'.walkWaits.contains w)).foldl State.settleRop s')

/-! ## Drains (R243, R244) -/

/-- The spare slices in use, each with the slice that it replaces (R467). -/
def State.slicesSpared (s : State) : List (Nat × Nat) :=
  let r := s.csr (csrAddr 10 0 0 0x11)
  (List.range 2).filterMap (fun k => if bitAt r (8 * k + 6) then some (bitsAt r (8 * k) 6, k) else none)

/-- The tables of a class, partition or root, lead to the spare slices in use. -/
def State.writeRoutes (s : State) (cls : Nat) : State :=
  s.updSvc (fun v => { v with routes := v.routes.filter (fun x => x.1 ≠ cls) ++ s.slicesSpared.map (fun x => (cls, x.1, x.2)) })

/-- The accesses of a partition's lanes that were stopped at their port are made again. -/
def State.wakeDrained (s : State) (mine : Nat → Bool) : State :=
  (s.waves.filter (fun w => mine w.rid)).foldl (fun s w =>
    (w.lanesWhere (fun _ t => match t.st with | .admission .drain _ | .admission .quad _ => true | _ => false)).foldl (fun s l => s.wakeLane w.uid l) s) s

/-- The new tables of a partition are written, and injection resumes: the accesses that it stopped are made again. -/
def State.endDrain (s : State) (part : Nat) : State :=
  let mine := fun (rid : Nat) => decide (s.classOf rid = part)
  let go := fun (f : Option (Nat × Nat)) => f.filter (fun x => decide (x.1 ≠ fcDrain))
  let s := (s.updSvc (fun v => { v with drains := v.drains.filter (fun d => d.1 ≠ part) })).writeRoutes part
  let s := s.wakeDrained mine
  let s := { s with
    rtu := { rays := s.rtu.rays.map (fun (r : Ray) => if mine r.rid then { r with fault := go r.fault } else r),
             beams := s.rtu.beams.map (fun (b : Beam) => if mine b.rid then { b with fault := go b.fault } else b) }
    asu := { s.asu with tiles := s.asu.tiles.map (fun (t : Tile) => if mine t.rid then { t with fault := go t.fault } else t) } }
  let s := s.updCts (fun c => { c with tasks := c.tasks.map (fun (t : Task) => if mine t.rid then { t with fault := go t.fault } else t) })
  let s := (s.link.inops.filter (fun x => mine (msgRegion x.2.2))).foldl (fun s x => s.serveInop x.1) s
  let qps := s.link.hops.foldl (fun acc x => if acc.contains x.1 then acc else acc ++ [x.1]) []
  (qps.foldl State.resumeHost s).nextDrain

/-- DRAIN_COMPLETE: what the partition had in the networks has been delivered, and within 4,096 clk at the latest (log 38); the new tables are written and injection
resumes. -/
def execDrainComplete (part : Nat) (s : State) : Out :=
  .next (match s.svc.drains.find? (fun d => d.1 = part) with
    | none => s
    | some d => if s.inNetwork part && s.clk < d.2 + 4096 then s else s.endDrain part)

/-- A drain that has lasted 4,096 clk is over. -/
def State.overdueDrains (s : State) : State := (s.svc.drains.filter (fun d => d.2 + 4096 ≤ s.clk)).foldl (fun s d => s.endDrain d.1) s

/-! ## The slot -/

/-- The clk of a new slot: no unit has counted it yet, and lost slots that are over are forgotten (R460). -/
def State.newSlot (s : State) : State :=
  ({ s with clk := s.clk + 2 } : State).updSvc (fun v => { v with stalls := [], busy := v.busy.filter (fun b => s.clk + 2 ≤ b.till) })

/-- ISSUE_SLOT: one slot of 2 clk of every quadrant. -/
def execIssueSlot (s : State) : Out :=
  .next (match s.packets with
    | _ :: _ => s
    | [] => (s.slotOrder.foldl State.slotQuad s.newSlot.age.recordErrors.overdueDrains.countStalls.landOwed.chargeSlot).endSlot)

end Sys2Proof.Machine
end

