-- ==== Sys2Proof/Machine/System.lean ====
section
/-!
DEFINITION. The system instructions 0xF0 to 0xFB other than RCBOP and WTBL: segments (R73), control registers (R451), the handler instructions
(R191 to R195, R441), TLBOP (R432, R433), SVCALL (R468, R469) and IDLE (R439).
-/

namespace Sys2Proof.Machine

/-! ## Segments (R73, R64) -/

/-- What a write of a segment register stores: bits 127:113 are ignored, and WR of g1 and g6 stays 0. -/
def segValue (n x : Nat) : Nat := if n = 1 || n = 6 then x % 2 ^ 112 else x % 2 ^ 113

def execSegld (h : Hdr) (f : EngFn) (x : BitVec 64) (s : State) : Out :=
  runEngU 0xF0 h f x (fun c s _ =>
    let n := h.d.toNat
    let v := s.readRegs c.uid 0 .s h.a.toNat 4
    (s.updWave c.uid (fun w => w.setSeg n (BitVec.ofNat 128 (segValue n v))), .ok {})) s

def execSegrd (h : Hdr) (f : EngFn) (x : BitVec 64) (s : State) : Out :=
  runEngU 0xF1 h f x (fun c s _ =>
    let g := ((s.wave? c.uid).map (fun w => (w.seg h.a.toNat).toNat)).getD 0
    (s, .ok { sregs := regWrites 0 .s h.d.toNat 4 g })) s

/-! ## Control registers (R451) -/

/-- The checks of CSRRD and CSRWR, in their order. -/
def withCsr (c : Ctx) (s : State) (f : Bool → Nat → CsrShape → State × Except LFault UniOut) : State × Except LFault UniOut :=
  let a := s.readRegs c.uid 0 .s c.e.h.a.toNat 1
  let rid := s.ridOf c.uid
  match csrShape a with
  | none => (s, .error illegal7)
  | some sh => if s.csrAllowed rid a then f (rid = 0) a sh else (s, .error ⟨fcPermission, a⟩)

def execCsrrd (h : Hdr) (f : EngFn) (x : BitVec 64) (s : State) : Out :=
  runEngU 0xF2 h f x (fun c s _ =>
    withCsr c s (fun _ a sh => (s, .ok { sregs := regWrites 0 .s h.d.toNat 2 (s.csrRead a sh) }))) s

def execCsrwr (h : Hdr) (f : EngFn) (x : BitVec 64) (s : State) : Out :=
  runEngU 0xF3 h f x (fun c s _ =>
    withCsr c s (fun root a sh => (s.asService (fun s => s.csrWrite root a sh (s.readRegs c.uid 0 .s h.b.toNat 2)), .ok {}))) s

/-! ## TRET, PARKQ and LANEPC (R191 to R195, R441) -/

/-- The open record that a handle names in a region. -/
def State.recOf (s : State) (rid h : Nat) : Option Rec := s.recs.find? (fun r => r.rid = rid && r.handle = some h)

/-- A task that has not fired is freed with status ABORT. -/
def State.abortTask (s : State) (k : Nat) : State :=
  match s.task? (k / 256) (k % 256) with
  | none => s
  | some t => if t.st = .waiting || t.st = .ready then s.dropTask t 4 else s

/-- A running task ends with ABORT; a copy that has run writes its record (R296), a GSE task its report (R338). -/
def State.endRunning (s : State) (t : Task) : State := (((s.updTask t.cl t.slot (fun t => { t with susp := false })).abortRec t).abortReport t).finishTask t 4

/-- A task of a knot ends with status ABORT, unless it has ended since (R441). -/
def State.freeKnotted (s : State) (k : Nat) : State :=
  match s.cts.tasks.find? (fun t => t.cl = k / 2 ^ 16 && t.id = k % 2 ^ 16) with
  | none => s
  | some t => if t.st = .running then s.endRunning t else s.abortTask (256 * t.cl + t.slot)

/-- The agent whose operation a record holds; none for a knot, a message and a peer's operation. -/
def EngObj.who (e : EngObj) : Option Who :=
  match e.ekind with
  | 4 => some (.ray e.ref)
  | 5 => some (.beam e.ref)
  | 6 => some (.tile e.ref)
  | 8 | 9 => none
  | _ => if 2 ^ 32 ≤ e.ref then none else some (.task e.ecl e.ref)

/-- What an operation that a record holds has asked of peers is over. -/
def State.dropAsked (s : State) (e : EngObj) : State := match e.who with | some w => s.dropRops w | none => s

/-- TRET on an engine's handle: the operation goes on from its progress point; one of an MXE once that is free (R313, R353). -/
def State.engResume (s : State) (e : EngObj) : State :=
  match e.ekind with
  | 4 => s.updRay e.ecl e.ref (fun r => { r with fault := none, susp := false })
  | 5 => s.updBeam e.ecl e.ref (fun b => { b with fault := none, susp := false })
  | 6 => s.updTile e.ecl e.ref (fun t => { t with fault := none })
  | 8 | 9 => s
  | _ =>
    if 2 ^ 32 ≤ e.ref then s.resumePeer (e.ref - 2 ^ 32) false
    else s.updTask e.ecl e.ref (fun t => { t with fault := none, susp := t.susp && decide (engineOf t.kind = 1) })

/-- TRET.exit on an engine's handle: the operation ends with ABORT, whose INFO is the region's step. -/
def State.engExit (s : State) (rid : Nat) (e : EngObj) : State :=
  let info := ((s.region? rid).map (fun r => r.stepno)).getD 0
  match e.ekind with
  | 4 => s.failRay e.ecl e.ref fcAbort info
  | 5 => (match s.rtu.beams.find? (fun b => b.cl = e.ecl && b.id = e.ref) with | some b => s.failBeam b fcAbort info | none => s)
  | 6 => (match s.asu.tiles.find? (fun t => t.cl = e.ecl && t.id = e.ref) with | some t => s.failTile t fcAbort info | none => s)
  | 8 => e.knot.foldl (fun s k => s.freeKnotted k) s
  | 9 => s
  | _ =>
    if 2 ^ 32 ≤ e.ref then s.resumePeer (e.ref - 2 ^ 32) true
    else
      match s.task? e.ecl e.ref with
      | some t => s.endRunning t
      | none => s

/-- The operation of an engine's record goes on, or ends, and its handle is free. -/
def State.tretNow (s : State) (rid hd : Nat) (exit : Bool) (e : EngObj) : State :=
  ({ s with recs := s.recs.filter (fun q => !(q.rid = rid && q.handle = some hd)) }).asService (fun s =>
    let s := s.dropAsked e
    if exit then s.engExit rid e else s.engResume e)

/-- Walks that start later read what the acting agent has written and joined (R431). -/
def State.walksAfter (s : State) : State := { s with ord := { s.ord with walk := joinIds s.ord.walk s.opView } }

/-- TRET and TRET.exit: a parked sub-wave's change waits for the end of the slot. -/
def execTret (h : Hdr) (f : EngFn) (x : BitVec 64) (s : State) : Out :=
  runEngU 0xF4 h f x (fun c s _ =>
    let hd := s.readRegs c.uid 0 .s h.a.toNat 1
    let rid := s.ridOf c.uid
    let exit := decide (f.sub = 1)
    match s.recOf rid hd with
    | none => (s, .error ⟨fcHandle, hd⟩)
    | some r =>
      match r.eng with
      | none => ({ s with tretQ := s.tretQ ++ [(rid, hd, exit, s.opView)] }.walksAfter, .ok {})
      | some e => (s.walksAfter.tretNow rid hd exit e, .ok {})) s

/-- The four words of PARKQ: the lane's code and membership, its INFO, and its wave's place. -/
def State.parkWords (s : State) (r : Rec) (lane : Nat) : Nat :=
  match r.eng with
  | some _ => r.code + 2 ^ 32 * (r.info % 2 ^ 56)
  | none =>
    let place := match s.wave? r.uid with
      | some w => w.cl + 2 ^ 6 * w.core + 2 ^ 8 * w.quad + 2 ^ 10 * w.slot + 2 ^ 14 * b2n (w.bank = .active)
      | none => 0
    let own := match r.lanes.find? (fun l => l.lane = lane) with
      | some l => l.code + 2 ^ 8 + 2 ^ 32 * (l.info % 2 ^ 56)
      | none => 0
    own + 2 ^ 96 * place

def execParkq (h : Hdr) (f : EngFn) (x : BitVec 64) (s : State) : Out :=
  runEngU 0xF5 h f x (fun c s l =>
    let hd := s.readRegs c.uid 0 .s h.a.toNat 1
    match s.recOf (s.ridOf c.uid) hd with
    | none => (s, .error ⟨fcHandle, hd⟩)
    | some r => (s, .ok { sregs := regWrites 0 .s h.d.toNat 4 (s.parkWords r (s.srcCount c l .b % 128)) })) s

/-- LANEPC in one handler lane. -/
def lanepcLane (f : EngFn) (c : Ctx) (s : State) (l : Nat) : State × LaneRes :=
  let h := c.e.h
  let hd := s.readRegs c.uid 0 .s h.a.toNat 1
  let lane := s.srcCount c l .b % 128
  let rid := s.ridOf c.uid
  match s.recOf rid hd with
  | none => (s, .fault ⟨fcHandle, hd⟩)
  | some r =>
    if r.eng.isSome then (s, .fault ⟨fcHandle, hd⟩)
    else
      let inside := r.lanes.any (fun p => p.lane = lane)
      match f.sub.toNat with
      | 0 =>
        if !inside then (s, .ok {})
        else
          let pc := BitVec.ofNat 56 (s.readRegs c.uid l .v h.d.toNat 2)
          let s := s.updThread r.uid lane (fun t => { t with pc := pc })
          ({ s with recs := s.recs.map (fun q =>
              if q.rid = rid && q.handle = some hd then
                { q with lanes := q.lanes.map (fun p => if p.lane = lane then { p with changed := true } else p) }
              else q) }, .ok {})
      | 1 => (s, .ok { regs := regWrites l .v h.d.toNat 2 (if inside then (s.thread r.uid lane).pc.toNat else 2 ^ 64 - 1) })
      | _ =>
        if !inside then (s, .ok {})
        else
          match s.wave? r.uid with
          | none => (s, .ok {})
          | some w => (s.writeMask r.uid h.c.toNat (setLane (w.mask h.c.toNat) lane false), .ok {})

def execLanepc (h : Hdr) (f : EngFn) (x : BitVec 64) (s : State) : Out := runEng 0xF6 h f x (lanepcLane f) (fun _ s => s) s

/-! ## TLBOP (R432, R433) -/

/-- Translations, level-3 entries and pointers leave the caches. -/
def State.dropTlb (s : State) (e : TlbEntry → Bool) (t : TopEntry → Bool) (p : PtrEntry → Bool) : State :=
  { s with tlb := s.tlb.filter (fun x => !e x), tops := s.tops.filter (fun x => !t x), ptrs := s.ptrs.filter (fun x => !p x) }

def Tag.part (t : Tag) : Nat := match t with | .root p _ => p | .sid p _ => p

/-- Does a pointer cover an address? -/
def PtrEntry.covers (p : PtrEntry) (va : Nat) : Bool := p.pre = va / 2 ^ lvlShift p.lvl

/-- The pointers of the walk cache on the path of an address from a level down, under the tags that reach it. -/
def State.pathPtrs (s : State) (va : Nat) : Nat → List Tag → List PtrEntry
  | lvl, tags =>
    let here := s.ptrs.filter (fun p => tags.contains p.tag && p.lvl = lvl && p.covers va)
    here ++ (match lvl with | 0 => [] | l + 1 => s.pathPtrs va l (tags ++ here.map (fun p => tagBelow p.entry p.tag)))

/-- The tags by which the present tables reach an address. -/
def State.pathTags (s : State) (part root va : Nat) : List Tag :=
  (pathFrom (fun _ _ a => s.entryAt a) va (bitsAt root 0 5) 3 (topTable root) (.root part root)).map (fun x => x.1)

/-- Removes what a TLBOP names for region `r` (R432): a region without a page table has nothing of SUB 0 and 1. -/
def State.tlbop (s : State) (r : Region) (sub va sid : Nat) : State :=
  let part := r.tagPart
  match sub, r.ptroot with
  | 0, some root =>
    let path := s.pathPtrs va 3 (s.pathTags part root va)
    s.dropTlb (fun e => e.tag = .root part root && e.covers va) (fun t => t.part = part && t.ptroot = root && t.idx = lvlIndex 3 (bitsAt root 0 5) va) path.contains
  | 1, some root => s.dropTlb (fun e => e.tag = .root part root) (fun t => t.part = part && t.ptroot = root) (fun p => p.tag = .root part root)
  | 2, _ => s.dropTlb (fun e => e.tag = .sid part sid && e.covers va) (fun _ => false) (fun p => p.tag = .sid part sid && p.covers va)
  | 3, _ => s.dropTlb (fun e => e.tag = .sid part sid) (fun _ => false) (fun p => p.tag = .sid part sid)
  | 4, _ => s.dropTlb (fun e => e.tag.part = part) (fun t => t.part = part) (fun p => p.tag.part = part)
  | _, _ => s

/-- May an access of region `rid` at an address have used a translation that a TLBOP names (R433)? -/
def State.mayUse (s : State) (r : Region) (sub va rid a : Nat) : Bool :=
  match s.region? rid with
  | none => false
  | some g => g.tagPart = r.tagPart && (2 ≤ sub || g.ptroot = r.ptroot) && ((sub ≠ 0 && sub ≠ 2) || a / 2 ^ 34 = va / 2 ^ 34)

/-- Condition 3 of R433: multicast requests that used a matching translation reach their slices; the accesses of lanes and operations to peers that did are to be
answered, and what engine operations have put together for such addresses is to be written, before the result of the TLBOP lands. -/
def State.settleOld (s : State) (r : Region) (sub va : Nat) (y : WSync) : State :=
  let s := (s.flight.mreqs.filter (fun q => s.mayUse r sub va q.rid q.va)).foldl (fun s q => s.arriveReq q.id) s
  let ids := (s.link.rops.filter (fun o => o.answer.isNone && s.mayUse r sub va o.rid o.va)).map (fun o => o.id)
  let ofTask := fun (w : Who) => match w with | .task cl slot => ((s.task? cl slot).map (fun t => t.rid)).getD 0 | _ => 0
  let whos := (s.ord.put.filter (fun x => s.mayUse r sub va (ofTask x.who) x.va)).map (fun x => x.who)
  { s with asu := { s.asu with syncs := s.asu.syncs ++ [{ y with ids := ids, whos := whos }] } }

/-- A form of TLBOP: sD := 1 once the conditions of R433 hold, or 0 with no other effect for a region id that names none. A share tag of 0 names none (R424, R432). -/
def runTlbop (sub : Nat) (h : Hdr) (f : EngFn) (x : BitVec 64) (s : State) : Out :=
  runEngU 0xF8 h f x (fun c s l =>
    let sid := s.srcCount c l .c % 2 ^ 8
    if (sub = 2 || sub = 3) && sid = 0 then (s, .error illegal7)
    else match s.region? (s.srcCount c l .b) with
      | none => (s, .ok { sregs := regWrites 0 .s h.d.toNat 1 0 })
      | some r =>
        let va := s.readRegs c.uid 0 .s h.a.toNat 2 % 2 ^ 56
        let s := (s.asService (fun s => s.tlbop r sub va sid)).walksAfter
        let s := s.dropPend c.uid c.on [.s h.d.toNat]
        (s.asService (fun s => (s.settleOld r sub va ⟨c.uid, c.on, [(h.d.toNat, 1)], [], [], []⟩).landOwed), .ok {})) s

def execTlbopVa (h : Hdr) (f : EngFn) (x : BitVec 64) (s : State) : Out := runTlbop 0 h f x s
def execTlbopAll (h : Hdr) (f : EngFn) (x : BitVec 64) (s : State) : Out := runTlbop 1 h f x s
def execTlbopSva (h : Hdr) (f : EngFn) (x : BitVec 64) (s : State) : Out := runTlbop 2 h f x s
def execTlbopSid (h : Hdr) (f : EngFn) (x : BitVec 64) (s : State) : Out := runTlbop 3 h f x s
def execTlbopPart (h : Hdr) (f : EngFn) (x : BitVec 64) (s : State) : Out := runTlbop 4 h f x s

/-! ## SVCALL (R468, R469) -/

/-- The eight registers of the spare state, as one number (R467). -/
def State.spareState (s : State) : Nat :=
  (List.range 8).foldl (fun n i => n + 2 ^ (64 * i) * s.csr (csrAddr 10 0 0 (0x10 + i))) 0

/-- The 256 bytes of a quote over a nonce: its count is that of the quotes built, this one included. -/
def State.quote (s : State) (nonce : Nat) : List Byte :=
  let body := nonce + 2 ^ 384 * (Config.fwDigest % 2 ^ 384) + 2 ^ 768 * (Config.cfgDigest % 2 ^ 384) + 2 ^ 1152 * ((s.svc.quotes + 1) % 2 ^ 64) +
    2 ^ 1216 * (Config.serial % 2 ^ 64)
  leBytes 160 body ++ leBytes 96 (Config.quoteSig body s.spareState)

/-- The end of a service call: its pair, on which the thread settles. -/
def svcallOut (h : Hdr) (a b : Nat) : Except LFault UniOut :=
  .ok { sregs := regWrites 0 .s h.d.toNat 1 a ++ regWrites 0 .s (h.d.toNat + 1) 1 b, st := some .settling }

/-- A service call on a buffer of `n` bytes, performed by the SVC: refused where the buffer is misaligned, untranslatable or not writable. -/
def runSvcall (n : Nat) (h : Hdr) (f : EngFn) (x : BitVec 64) (g : State → Nat → Nat → List (Nat × Loc) → Option (State × Nat)) (s : State) : Out :=
  runEngU 0xF9 h f x (fun c s _ =>
    let r := s.serve (fun s =>
      let rid := s.ridOf c.uid
      let buf := s.readRegs c.uid 0 .s h.a.toNat 2
      if buf % 64 ≠ 0 || 2 ^ 56 ≤ buf then (s, none)
      else
        match s.bytesOfVa rid buf true n with
        | .error _ => (s, none)
        | .ok ls => (match g s rid buf ls with | none => (s, none) | some q => (q.1, some q.2)))
    (r.1, match r.2 with | none => svcallOut h 0 1 | some a => svcallOut h a 0)) s

/-- A nonce that cannot be read refuses the call (log 14). -/
def execSvcallAtt (h : Hdr) (f : EngFn) (x : BitVec 64) (s : State) : Out :=
  runSvcall 304 h f x (fun s rid buf ls =>
    match s.bytesAt (ls.take 48), s.poisonAt ((ls.take 48).map (fun x => x.2)) with
    | .ok nonce, none =>
      some ((s.updSvc (fun v => { v with quotes := v.quotes + 1 })).post rid (buf + 48) ((ls.drop 48).map (fun x => x.2)) (s.quote (leNat nonce)), 1)
    | _, _ => none) s

def execSvcallCert (h : Hdr) (f : EngFn) (x : BitVec 64) (s : State) : Out :=
  let cert := Config.certificate.take 4096
  runSvcall cert.length h f x (fun s rid buf ls => some (s.post rid buf (ls.map (fun x => x.2)) cert, cert.length)) s

/-! ## IDLE (R439) -/

/-- IDLE: it ends at once where a selected event is there, and else the wave's threads sleep. -/
def idleUni (h : Hdr) (c : Ctx) (s : State) (_l : Nat) : State × Except LFault UniOut :=
  let E := s.readRegs c.uid 0 .s h.a.toNat 1
  let till := s.clk + 16 * s.readRegs c.uid 0 .s (h.a.toNat + 1) 1
  match s.wave? c.uid with
  | none => (s, .error illegal7)
  | some w =>
    if E = 0 || 2 ^ 4 ≤ E then (s, .error illegal7)
    else
      let now := s.idleEvents w E till 0
      if now ≠ 0 then (s, .ok { sregs := regWrites 0 .s h.d.toNat 1 now })
      else (s, .ok { st := some (.sleeping (.idle E till h.d.toNat 0) h.s) })

/-- Where an IDLE that selects interrupts has ended at once, an interrupt that the wave may take is delivered to the first of its threads (R439): its result on the
way has bit 0 set. -/
def idleDeliver (h : Hdr) (c : Ctx) (s : State) : State :=
  let ended := ((s.pend.filter (fun p => p.uid = c.uid)).getLast?.bind (fun p => p.val (.s h.d.toNat))).any (fun v => bitAt v.toNat 0)
  match s.wave? c.uid, c.on with
  | some w, l :: _ =>
    let t := w.thread l
    if ended && t.pc = c.next && (t.st = .ready || t.st = .settling) then
      match s.uiNext w with
      | some (i, entry) => s.deliverUi w l i entry
      | none => s
    else s
  | _, _ => s

def execIdle (h : Hdr) (f : EngFn) (x : BitVec 64) (s : State) : Out :=
  .next (runPacketThen (enc 0xFB h (engFnBits f) x) (uniMem (idleUni h)) (idleDeliver h) s)

end Sys2Proof.Machine
end

