-- ==== Sys2Proof/Machine/WorkDist.lean ====
section
/-!
DEFINITION. The work distributor's further work: the end of gangs, launches and regions (R21, R45, R266, R412, R417), pre-emption and the swap of
banks (R46 to R49), and the spill engine (R443, R444).
-/

namespace Sys2Proof.Machine

def State.updWd (s : State) (f : Wd → Wd) : State := { s with wd := f s.wd }

/-! ## The end of gangs and launches (R21, R45, R266, R412) -/

/-- The waves of a gang. -/
def State.gangUids (s : State) (gid : Nat) : List Nat := (s.waves.filter (fun w => w.gid = gid)).map (fun w => w.uid)

/-- Does some engine still work for one of these waves? A launch retires after every operation that it started (R228). -/
def State.working (s : State) (us : List Nat) : Bool :=
  let mine := fun (u : Nat) => us.contains u
  s.cts.wgreqs.any (fun q => mine q.uid) || s.cts.msgs.any (fun m => mine m.uid && m.stage ≠ .queue && m.stage ≠ .handler) ||
  s.flight.mreqs.any (fun q => mine q.uid) || s.cts.copies.any (fun c => mine c.uid) ||
  s.asu.waiting.any (fun x => mine x.2.uid) || s.asu.bins.any (fun b => b.calls.any (fun c => mine c.uid)) ||
  s.asu.tiles.any (fun t => t.calls.any (fun c => mine c.uid)) || s.rtu.rays.any (fun r => mine r.uid) || s.rtu.beams.any (fun b => mine b.uid)

/-- The copies and transfers into the buffers that a gang gives up are dropped, and its buffers are free. -/
def State.freeCbufs (s : State) (g : Gang) : State :=
  let has := fun (cl cb : Nat) => cl = g.cl && g.cblo ≤ cb && cb < g.cblo + g.cbn
  let s := (s.cts.copies.filter (fun c => has c.cl c.cb)).foldl (fun s c => (s.count (clReg c.cl 5) 32 1).endCopy c) s
  let s := (s.cts.xfers.filter (fun x => x.dsts.any (fun d => has d.1 x.cb && d.2 ≠ .over && d.2 ≠ .dropped))).foldl (fun s x =>
    (s.count (clReg g.cl 5) 32 1).updXfer x.id (fun x => { x with dsts := x.dsts.map (fun d =>
      if has d.1 x.cb && d.2 ≠ .over then (d.1, .dropped) else d) })) s
  s.updCts (fun c => { c with claims := c.claims.filter (fun q => !has q.cl q.cb), cbufs := c.cbufs.filter (fun x => !has x.cl x.cb) })

/-- A completed launch leaves the queue, with its second completion record (R412); whoever observes that sees its accesses (R228). -/
def State.endLaunch (s : State) (l : Launch) : State :=
  let s := (s.updWd (fun w => { w with launches := w.launches.filter (fun x => x.lid ≠ l.lid) })).reveal (fun e => l.view.contains e.id)
  match l.cpl with
  | some (cpl, tag) => s.complete (cpl + 16) tag 0 l.lid
  | none => s

/-- Waves leave the machine, with what was on its way for them alone. -/
def State.dropWaves (s : State) (us : List Nat) : State :=
  let mine := fun (w : Who) => match w with | .lane u _ => us.contains u | .stream u _ => us.contains u | _ => false
  { s with
    waves := s.waves.filter (fun w => !us.contains w.uid)
    pend := s.pend.filter (fun p => !us.contains p.uid)
    asu := { s.asu with syncs := s.asu.syncs.filter (fun y => !us.contains y.uid) }
    missQ := s.missQ.filter (fun q => !mine q.who)
    refused := s.refused.filter (fun x => !mine x.1.who)
    streams := s.streams.filter (fun o => !us.contains o.uid)
    misses := (s.misses.map (fun (m : Miss) => { m with reqs := m.reqs.filter (fun q => !mine q.who) })).filter (fun m => !m.reqs.isEmpty)
    flight := { s.flight with ahead := s.flight.ahead.filter (fun a => !us.contains a.uid), hits := s.flight.hits.filter (fun h => !us.contains h.uid) }
    link := { s.link with rops := s.link.rops.filter (fun r => !mine r.who) }
    cts := { s.cts with binds := s.cts.binds.filter (fun b => !us.contains b.uid) }
    wd := { s.wd with
      shadows := s.wd.shadows.map (fun (x : Shadow) => { x with uids := x.uids.filter (fun u => !us.contains u) })
      saved := (s.wd.saved.map (fun (x : Saved) => { x with uids := x.uids.filter (fun u => !us.contains u) })).filter (fun x => !(x.gids.isEmpty && x.uids.isEmpty)) } }

/-- The end of a gang: its waiting and ready tasks are freed with ABORT, and everything it held is released; the launch is complete when every
workgroup has been placed or withdrawn and has retired. -/
def State.retireGang (s : State) (g : Gang) : State :=
  let us := s.gangUids g.gid
  let s := (s.cts.tasks.filter (fun t => t.gid = g.gid)).foldl (fun s t => s.abortTask (256 * t.cl + t.slot)) s
  let s := (s.freeCbufs g).dropWaves us
  let s := { s with
    bars := s.bars.filter (fun b => b.gid ≠ g.gid)
    wd := { s.wd with
      gangs := s.wd.gangs.filter (fun x => x.gid ≠ g.gid)
      shadows := s.wd.shadows.map (fun (x : Shadow) => { x with gids := x.gids.filter (fun k => k ≠ g.gid) })
      saved := (s.wd.saved.map (fun (x : Saved) => { x with gids := x.gids.filter (fun k => k ≠ g.gid) })).filter (fun x => !(x.gids.isEmpty && x.uids.isEmpty))
      launches := s.wd.launches.map (fun (l : Launch) => if l.lid = g.lid then { l with done := l.done + g.n + g.fetched } else l) } }
  match s.wd.launches.find? (fun l => l.lid = g.lid) with
  | some l => if l.total ≤ l.done then s.endLaunch l else s
  | none => s

/-- GANG_RETIRE: every wave of the gang has retired, no task of it runs, and nothing works for its waves. -/
def execGangRetire (gid : Nat) (s : State) : Out :=
  .next (match s.wd.gangs.find? (fun g => g.gid = gid) with
    | none => s
    | some g =>
      if (s.waves.filter (fun w => w.gid = gid)).all (fun w => w.over) && !s.cts.tasks.any (fun t => t.gid = gid && t.st = .running) &&
          !s.working (s.gangUids gid) then s.retireGang g
      else s)

/-- Operations of hosts and peers that wait for what is over look again. -/
def State.retryOps (s : State) (rid : Nat) : State :=
  let s := (s.link.inops.filter (fun x => msgRegion x.2.2 = rid)).foldl (fun s x => s.serveInop x.1) s
  (s.link.hops.foldl (fun acc x => if acc.contains x.1 then acc else acc ++ [x.1]) []).foldl State.resumeHost s

/-- A region leaves, with its messages and its lists in the WD; operations on it are refused from now on. Its group is over: its peers are told (R421). -/
def State.dropRegion (s : State) (rid : Nat) : State :=
  let s := match s.region? rid with
    | some r => if r.cgrp = 0 then s else s.sendPeers r (fun p => .retired rid p)
    | none => s
  ({ s with
    misses := (s.misses.map (fun (m : Miss) => { m with reqs := m.reqs.filter (fun q => q.rid ≠ rid) })).filter (fun m => !m.reqs.isEmpty)
    missQ := s.missQ.filter (fun q => q.rid ≠ rid)
    refused := s.refused.filter (fun x => x.1.rid ≠ rid)
    link := { s.link with rops := s.link.rops.filter (fun r => r.rid ≠ rid) }
    regions := s.regions.filter (fun r => r.rid ≠ rid)
    recs := s.recs.filter (fun r => r.rid ≠ rid)
    fatals := s.fatals.filter (fun f => f.1 ≠ rid)
    cts := { s.cts with msgs := s.cts.msgs.filter (fun m => m.rid ≠ rid) }
    wd := { s.wd with
      saveIdx := s.wd.saveIdx.filter (fun p => p.1 ≠ rid)
      sliceAt := Sparse.put 0 s.wd.sliceAt rid 0 } } : State).retryOps rid

/-- REGION_RETIRE: a retiring region whose launches and children have retired, with no handler wave left. The root stays (R411). -/
def execRegionRetire (rid : Nat) (s : State) : Out :=
  .next (match s.region? rid with
    | none => s
    | some r =>
      if rid ≠ 0 && r.retiring && !s.wd.launches.any (fun l => l.rid = rid) && !s.regions.any (fun c => c.parent = rid && c.rid ≠ rid) &&
          !s.waves.any (fun w => w.rid = rid) then s.dropRegion rid
      else s)

/-! ## Pre-emption and the swap (R46, R47, R443) -/

/-- The cores that a gang of `n` on the cores from `core` ties together: its members, and with cluster-shared memory, whose units of 1 KiB lie on all four,
every core (R46, R68). -/
def tiedCores (core n shared : Nat) : List Nat := if shared = 0 then (List.range n).map (fun i => core + i) else List.range 4

def Gang.cores (g : Gang) : List Nat := tiedCores g.core g.n g.al3.2

/-- The cores of a cluster that the gangs of some banks tie to the cores `cs`, in at most four rounds. -/
def State.coreSet (s : State) (cl : Nat) (banks : List Nat) (cs : List Nat) : List Nat :=
  (List.range 4).foldl (fun cs _ =>
    sortedSet (cs ++ ((s.wd.gangs.filter (fun g => g.cl = cl && g.rid ≠ 0 && banks.contains g.bank && g.cores.any (fun c => cs.contains c))).flatMap Gang.cores)))
    (sortedSet cs)

def State.shadow? (s : State) (cl core : Nat) : Option Shadow := s.wd.shadows.find? (fun x => x.cl = cl && x.core = core)

/-- Is a core's shadow bank in a state? -/
def State.shadowIs (s : State) (st : ShSt) (cl core : Nat) : Bool :=
  match s.shadow? cl core with | some x => x.st = st | none => false

/-- The gangs of a bank that a core holds. -/
def State.gangsAt (s : State) (cl core bank : Nat) : List Nat :=
  (s.wd.gangs.filter (fun g => g.cl = cl && g.bank = bank && g.cores.contains core)).map (fun g => g.gid)

/-- The waves of a bank of a core: the root's stand outside both (R47). -/
def State.banked (s : State) (cl core : Nat) (b : Bank) : List Wave :=
  s.waves.filter (fun w => w.cl = cl && w.core = core && decide (w.bank = b) && w.rid ≠ 0)

/-- The waves of a core's bank that belong to no gang. -/
def State.looseAt (s : State) (cl core : Nat) (b : Bank) : List Wave := (s.banked cl core b).filter (fun w => w.gid = 0)

/-- The shadow banks of cores are put in a state with the context that they hold; one with none is empty. `victims` names the gangs that a launch of a case of
R46 is to displace. -/
def State.setShadows (s : State) (cl : Nat) (cs : List Nat) (st : ShSt) (due : Bool) (victims : List Nat) : State :=
  let new := cs.filterMap (fun c =>
    let gs := s.gangsAt cl c 1
    let us := (s.looseAt cl c .shadow).map (fun w => w.uid)
    if gs.isEmpty && us.isEmpty then none else some (⟨cl, c, st, due, gs, us, victims⟩ : Shadow))
  s.updWd (fun w => { w with shadows := w.shadows.filter (fun x => !(x.cl = cl && cs.contains x.core)) ++ new })

/-- Has a region that is resident on one of the cores used up its time slice? -/
def State.sliceOver (s : State) (r : Region) (cl : Nat) (cs : List Nat) : Bool :=
  r.tslice ≠ 0 && s.wd.gangs.any (fun g => g.rid = r.rid && g.cl = cl && g.bank = 0 && g.cores.any (fun c => cs.contains c)) &&
    Sparse.get 0 s.wd.sliceAt r.rid + 1700 * r.tslice ≤ s.clk

/-- The cases of R46: a launch that is aged, or of higher priority than one resident on the cores; or a resident region's time slice is over. -/
def State.mayPreempt (s : State) (l : Launch) (cl : Nat) (cs : List Nat) : Bool :=
  l.aged || s.regions.any (fun r => s.sliceOver r cl cs) ||
  s.wd.gangs.any (fun g => g.cl = cl && g.bank = 0 && g.cores.any (fun c => cs.contains c) &&
    (match s.wd.launches.find? (fun x => x.lid = g.lid) with | some x => s.prioOf x < s.prioOf l | none => false))

/-- The gangs that are resident on a set of cores and that a swap takes out. -/
def State.residents (s : State) (cl : Nat) (cs : List Nat) : List Nat :=
  (s.wd.gangs.filter (fun g => g.cl = cl && g.rid ≠ 0 && g.bank = 0 && g.cores.any (fun c => cs.contains c))).map (fun g => g.gid)

/-- May the ready context of the shadow banks be swapped in: it was placed there in a case of R46 and what is resident is what that case displaces, a case holds
now, or nothing is resident? -/
def State.swapDue (s : State) (cl : Nat) (cs : List Nat) : Bool :=
  cs.any (fun c => (s.shadow? cl c).any (fun x => x.due && (s.residents cl cs).all (fun g => x.victims.contains g))) ||
  cs.all (fun c => (s.banked cl c .active).isEmpty) ||
  s.wd.gangs.any (fun g => g.cl = cl && g.bank = 1 && g.cores.any (fun c => cs.contains c) &&
    (match s.wd.launches.find? (fun x => x.lid = g.lid) with | some x => s.mayPreempt x cl cs | none => false))

/-- PREEMPT: the next gang of a launch that fits nowhere is placed in the empty shadow banks of a set of cores, which becomes ready to swap. -/
def execPreempt (cl core lid : Nat) (s : State) : Out :=
  .next (match s.wd.launches.find? (fun l => l.lid = lid) with
    | none => s
    | some l =>
      let cs := s.coreSet cl [0, 1] (tiedCores core l.gang l.cshr)
      let fitsNow := (List.range 48).any (fun j => (List.range 4).any (fun k => (s.fits l j k .active).isSome))
      if !s.placeable l || fitsNow || !s.mayPreempt l cl cs || cs.any (fun c => (s.shadow? cl c).isSome) then s
      else match s.fits l cl core .shadow with
        | none => s
        | some f => (s.place l cl core .shadow f).setShadows cl cs .ready true (s.residents cl cs))

/-- Is a core's quadrant stopped? A pre-emption waits until every quadrant runs (R453). -/
def State.coreStopped (s : State) (cl core : Nat) : Bool := (List.range 4).any (fun q => s.stopped cl core q)

/-- Every access of these waves before an event happens before every one after it (R228). -/
def State.meetWaves (s : State) (us : List Nat) : State :=
  let v := us.foldl (fun v u => joinIds v (((s.wave? u).map (fun w => w.threads.foldl (fun v x => joinIds v x.2.vw.ids) [])).getD [])) []
  us.foldl (fun s u => s.updWave u (fun w => { w with threads := w.threads.map (fun x => (x.1, { x.2 with vw := x.2.vw.join v })) })) s

/-- The quadrants of a set of cores lose their slots for `n` clk to a swap or a migration, with `all` those of the root's waves too (R47, R461). -/
def State.loseSlots (s : State) (cl : Nat) (cs : List Nat) (all : Bool) (n : Nat) : State :=
  let new := cs.flatMap (fun c => (List.range 4).map (fun q => (⟨cl, c, q, 0, all, s.clk, s.clk + n⟩ : Busy)))
  { s with svc := { s.svc with busy := s.svc.busy ++ new } }

/-- The banks of a set of cores are exchanged: the root's waves stay (R47); the lost slots are counted under SWAP (R460). -/
def State.swapBanks (s : State) (cl : Nat) (cs : List Nat) : State :=
  let flipW := fun (w : Wave) =>
    if w.cl = cl && cs.contains w.core && w.rid ≠ 0 then
      { w with bank := match w.bank with | .active => .shadow | .shadow => .active | .saved => .saved }
    else w
  let flipG := fun (g : Gang) =>
    if g.cl = cl && cs.contains g.core && g.rid ≠ 0 && g.bank < 2 then { g with bank := 1 - g.bank } else g
  let s := cs.foldl (fun s c => [Bank.active, Bank.shadow].foldl (fun s b => s.meetWaves ((s.banked cl c b).map (fun w => w.uid))) s) s
  let s := { s with waves := s.waves.map flipW, wd := { s.wd with gangs := s.wd.gangs.map flipG } }
  let came := sortedSet ((s.wd.gangs.filter (fun g => g.cl = cl && g.bank = 0 && cs.contains g.core)).map (fun g => g.rid))
  let s := s.updWd (fun w => { w with sliceAt := came.foldl (fun t r => Sparse.put 0 t r s.clk) w.sliceAt })
  (s.loseSlots cl cs false 96).setShadows cl cs .dirty false []

/-- The cores that swap together with a core: those that the gangs of both banks tie to it, so that each gang is swapped whole (R46, R47). -/
def State.swapSet (s : State) (cl core : Nat) : List Nat := s.coreSet cl [0, 1] [core]

/-- Can a set of cores swap: at an instruction boundary of every quadrant, with a complete incoming context (R47)? A core whose shadow bank is empty has nothing to
take in. -/
def State.canSwap (s : State) (cl : Nat) (cs : List Nat) : Bool :=
  s.packets.isEmpty && cs.any (s.shadowIs .ready cl) && cs.all (fun c => ((s.shadow? cl c).isNone || s.shadowIs .ready cl c) && !s.coreStopped cl c)

/-- SHADOW_SWAP: the cores tied to a core swap, in a case of R46 or because nothing is resident on them. -/
def execShadowSwap (cl core : Nat) (s : State) : Out :=
  .next (
    let cs := s.swapSet cl core
    if s.canSwap cl cs && s.swapDue cl cs then s.swapBanks cl cs else s)

/-- TIME_SLICE_EXPIRE: the cores of a region that has used up its time slice swap with the context that stands ready. -/
def execTimeSliceExpire (rid cl core : Nat) (s : State) : Out :=
  .next (match s.region? rid with
    | none => s
    | some r =>
      let cs := s.swapSet cl core
      if s.sliceOver r cl [core] && s.canSwap cl cs then s.swapBanks cl cs else s)

/-! ## The spill engine (R443, R444) -/

/-- Bytes of a save slot. -/
def saveSlot : Nat := 2304 * 1024

/-- The place of a core in the order in which a region's cores were first allocated. -/
def State.saveIndex (s : State) (rid cl core : Nat) : Nat :=
  let mine := (s.wd.saveIdx.filter (fun p => p.1 = rid)).map (fun p => p.2)
  (mine.takeWhile (fun k => k ≠ 4 * cl + core)).length

/-- The bytes of a region's save slot for a core, where they translate. -/
def State.saveLocs (s : State) (rid cl core : Nat) : List Loc :=
  match s.region? rid with
  | none => []
  | some r =>
    match s.translateRange rid ((r.save + saveSlot * s.saveIndex rid cl core) % 2 ^ 56) true saveSlot with
    | .ok ls => ls
    | .error _ => []

/-- The 4 KiB block of device memory in which a byte lies (R444). -/
def Loc.page? (l : Loc) : Option Nat := match l with | .dev pa _ => some (pa / 2 ^ 12) | _ => none

/-- Writes of the spill engine into save slots: no image there fails its check for them (R444). -/
def State.postImage (s : State) (rid va : Nat) (ls : List Loc) (bytes : List Byte) : State :=
  (s.post rid va ls bytes).updWd (fun w => { w with saved := s.wd.saved })

/-- The contexts of a core's shadow bank are written to their save slots: the bytes there are not architected, and are free values. -/
def State.saveCore (s : State) (set cl core : Nat) : State :=
  let gs := s.wd.gangs.filter (fun g => g.cl = cl && g.bank = 1 && g.cores.contains core)
  let us := s.looseAt cl core .shadow
  (sortedSet (gs.map (fun g => g.rid) ++ us.map (fun w => w.rid))).foldl (fun s rid =>
    let ls := s.saveLocs rid cl core
    let bytes := (List.range ls.length).map (fun i => BitVec.ofNat 8 (Config.freeInput s.tick (2 ^ 32 * rid + i)))
    let s := s.postImage rid ((((s.region? rid).map (fun r => r.save)).getD 0) + saveSlot * s.saveIndex rid cl core) ls bytes
    let x : Saved := ⟨set, cl, core, rid, (gs.filter (fun g => g.rid = rid)).map (fun g => g.gid), (us.filter (fun w => w.rid = rid)).map (fun w => w.uid),
      sortedSet (ls.filterMap Loc.page?), false⟩
    s.updWd (fun w => { w with saved := w.saved ++ [x] })) s

/-- Gangs with their waves, and waves of no gang, move to another bank (R48). -/
def State.moveTo (s : State) (gids uids : List Nat) (b : Bank) : State :=
  { s with
    waves := s.waves.map (fun w => if (w.gid ≠ 0 && gids.contains w.gid) || uids.contains w.uid then { w with bank := b } else w)
    wd := { s.wd with gangs := s.wd.gangs.map (fun (g : Gang) => if gids.contains g.gid then { g with bank := bankNo b } else g) } }

/-- The gangs, and the waves of no gang, whose image the shadow banks of a set of cores hold. -/
def State.shadowGids (s : State) (cl : Nat) (cs : List Nat) : List Nat := sortedSet (cs.flatMap (fun c => s.gangsAt cl c 1))
def State.shadowUids (s : State) (cl : Nat) (cs : List Nat) : List Nat := cs.flatMap (fun c => (s.looseAt cl c .shadow).map (fun w => w.uid))

/-- SPILL: the dirty shadow banks of a set of cores begin to be written, or, once begun, have been written and are empty. -/
def execSpill (cl core : Nat) (s : State) : Out :=
  .next (
    let cs := (s.coreSet cl [1] [core]).filter (fun c => (s.shadow? cl c).isSome)
    if cs.isEmpty then s
    else if cs.all (fun c => s.shadowIs .dirty cl c) then s.setShadows cl cs .spilling false []
    else if cs.all (fun c => s.shadowIs .spilling cl c) then
      let gids := s.shadowGids cl cs
      let uids := s.shadowUids cl cs
      let set := s.fresh
      let s := cs.foldl (fun s c => s.saveCore set cl c) { s with fresh := set + 1 }
      (s.moveTo gids uids .saved).updWd (fun w => { w with shadows := w.shadows.filter (fun x => !(x.cl = cl && cs.contains x.core)) })
    else s)

/-- The saved images of gangs are gone from their slots; a check that was found wrong is fatal, with cause 0x08 (R444). -/
def State.fillDone (s : State) (cl : Nat) (cs : List Nat) : State :=
  let gids := s.shadowGids cl cs
  let uids := s.shadowUids cl cs
  let mine := fun (x : Saved) => x.gids.any (fun k => gids.contains k) || x.uids.any (fun u => uids.contains u)
  let bad := sortedSet ((s.wd.saved.filter (fun x => mine x && x.bad)).map (fun x => x.rid))
  let s := (s.setShadows cl cs .ready false []).updWd (fun w => { w with saved := w.saved.filter (fun x => !mine x) })
  { s with fatals := s.fatals ++ bad.map (fun r => (r, 0x08)) }

/-- The oldest saved context of a core, with the images that were written with it. -/
def State.savedSet (s : State) (cl core : Nat) : List Saved :=
  match s.wd.saved.find? (fun x => x.cl = cl && x.core = core) with
  | none => []
  | some x => s.wd.saved.filter (fun y => y.set = x.set)

/-- Do allocations keep apart? -/
def apart : List (Nat × Nat) → Bool
  | [] => true
  | a :: r => r.all (fun b => a.2 = 0 || b.2 = 0 || a.1 + a.2 ≤ b.1 || b.1 + b.2 ≤ a.1) && apart r

/-- Does what a bank of a cluster's cores would hold fit, with what the root holds in both banks (R47): registers (R53), wave slots, barriers and local store? -/
def State.bankFits (s : State) (cl : Nat) (b : Bank) : Bool :=
  let shared := s.sharedOn cl (bankNo b)
  let top := 393216 - shared.foldl (fun m a => max m (if a.2 = 0 then 0 else (a.1 + a.2) / 4)) 0
  apart shared &&
  (List.range 4).all (fun c =>
    let scratch := s.scratchOn cl c (bankNo b)
    apart scratch && scratch.all (fun a => a.1 + a.2 ≤ top) &&
    decide (((s.gangsIn cl (bankNo b)).filter (fun g => g.core ≤ c && c < g.core + g.n)).foldl (fun n g => n + g.nbar) 0 ≤ 48) &&
    (List.range 4).all (fun q => decide (s.vectorsUsed cl c q b ≤ 512) && ((s.inQuad cl c q b).map (fun w => w.slot)).eraseDups.length = (s.inQuad cl c q b).length))

/-- SHADOW_FILL: the spill engine begins to fill the empty shadow banks of a set of cores from their save slots, or has filled them; a context that is
being written is ready at once when it is chosen again. -/
def execShadowFill (cl core : Nat) (s : State) : Out :=
  .next (
    let c1 := (s.coreSet cl [1] [core]).filter (fun c => (s.shadow? cl c).isSome)
    if !c1.isEmpty && c1.all (fun c => s.shadowIs .filling cl c) then s.fillDone cl c1
    else if !c1.isEmpty && c1.all (fun c => s.shadowIs .spilling cl c) then s.setShadows cl c1 .ready false []
    else
      let xs := s.savedSet cl core
      let cs := sortedSet (xs.map (fun x => x.core))
      if !xs.isEmpty && cs.all (fun c => (s.shadow? cl c).isNone) then
        let s' := s.moveTo (xs.flatMap (fun x => x.gids)) (xs.flatMap (fun x => x.uids)) .shadow
        if s'.bankFits cl .shadow then s'.setShadows cl cs .filling false [] else s
      else s)

end Sys2Proof.Machine
end

