-- ==== Sys2Proof/Machine/Deadlock.lean ====
section
/-!
DEFINITION. The wait-for table and the walk of the SVC over it (R448, R449).
-/

namespace Sys2Proof.Machine

/-! ## The table (R448) -/

/-- A blocked agent: a thread in a wait, or a task. -/
inductive WAgent
  | thread (uid lane : Nat)
  | task (cl slot : Nat)
  deriving DecidableEq, Repr, Inhabited

/-- What an agent waits on. -/
inductive WObj
  | mask (m : Nat)
  | bar (b : Nat)
  | step
  | gjoin (k : Nat)
  | tokens (T : Nat)
  | cbuf (cl cb : Nat) (room : Bool)
  | dep (id : Nat)
  | task (id : Nat)
  | stream
  deriving DecidableEq, Repr, Inhabited

/-- The object of the wait of a thread on a cluster. -/
def Thread.waitObj (cl : Nat) (t : Thread) : Option WObj :=
  match t.st with
  | .tokenWait T _ _ _ => some (.tokens T.toNat)
  | .syncWait w _ _ =>
    some (match w with
      | .mask m => .mask m
      | .bar b => .bar b
      | .barwt b _ => .bar b
      | .step => .step
      | .gjoin k _ => .gjoin k
      | .cbuf cb _ room => .cbuf cl cb room
      | .task id _ => .task id
      | .stream _ => .stream)
  | _ => none

/-- The claim that a ready task lacks: the first of its inputs, then its output. -/
def State.lacks (s : State) (t : Task) : Option WObj :=
  match t.ins.findSome? (fun e => match e with
      | some p => if s.cbCount t.cl p.1 < 32 * p.2 then some p.1 else none
      | none => none) with
  | some cb => some (.cbuf t.cl cb false)
  | none => (match t.out with | some p => if s.cbRoom t.cl p.1 < 32 * p.2 then some (.cbuf t.cl p.1 true) else none | none => none)

/-- A transfer whose next beat finds no room at a destination: that cluster. -/
def State.noRoomAt (s : State) (x : Xfer) : Option Nat :=
  if x.hasBeat then (x.dsts.find? (fun p => !s.dstRoom x p)).map (fun p => p.1) else none

/-- A running task that waits for its transfer: its work is over, or its matrix step finds the bus without room (R312). The buffer without room, and since when. -/
def State.busWait (s : State) (t : Task) : Option (WObj × Nat) :=
  if t.st = .running && !t.susp && (t.fin.isSome || (engineOf t.kind = 1 && s.busFull t 0)) then
    (s.xferOf t).bind (fun x => (s.noRoomAt x).map (fun d => (.cbuf d x.cb true, x.since)))
  else none

/-- The object of a task's wait, and the clk at which the wait began. -/
def State.taskObj (s : State) (t : Task) : Option (WObj × Nat) :=
  match t.st with
  | .waiting => some (.dep t.id, t.since)
  | .ready => (s.lacks t).map (fun o => (o, t.since))
  | .running => s.busWait t
  | _ => none

/-- Every blocked agent with its object and the clk at which its wait began. -/
def State.blocked (s : State) : List (WAgent × WObj × Nat) :=
  s.waves.flatMap (fun w => (w.lanesWhere (fun _ t => (t.waitObj w.cl).isSome)).filterMap (fun l =>
    ((w.thread l).waitObj w.cl).map (fun o => (.thread w.uid l, o, (w.thread l).since)))) ++
  s.cts.tasks.filterMap (fun t => (s.taskObj t).map (fun o => (.task t.cl t.slot, o)))

/-- Threads of a wave that satisfy `p` and have not exited, as agents. -/
def Wave.agents (w : Wave) (p : Nat → Thread → Bool) : List WAgent :=
  (w.lanesWhere (fun l t => p l t && t.st ≠ .exited && t.st ≠ .notLaunched)).map (fun l => .thread w.uid l)

/-- The operation that set a token's bit: a task, or another one, which is alive. -/
def State.tokSignal (s : State) (uid lane j : Nat) : List WAgent × Bool :=
  match s.cts.tasks.find? (fun t => t.uid = uid && t.lane = lane && t.tok = some j) with
  | some t => ([.task t.cl t.slot], false)
  | none =>
    let call := fun (c : ACall) => c.uid = uid && c.lane = lane && c.tok = j
    ([], s.streams.any (fun o => o.op = 0xC1 && o.uid = uid && o.lanes.contains lane && o.x % 16 = j) || s.cts.copies.any (fun c => c.uid = uid && c.lane = lane && c.tok = j) || s.flight.ahead.any (fun a => a.uid = uid && a.lane = lane && a.tok = j) || s.flight.mreqs.any (fun q => q.uid = uid && q.lane = lane && q.tok = j) ||
      s.cts.msgs.any (fun m => m.uid = uid && m.lane = lane && m.tok = j) || s.cts.wgreqs.any (fun q => q.uid = uid && q.lane = lane && q.tok = j) ||
      s.asu.waiting.any (fun x => call x.2) || s.asu.bins.any (fun b => b.calls.any call) || s.asu.tiles.any (fun t => t.calls.any call) ||
      s.rtu.rays.any (fun r => r.uid = uid && r.lane = lane && r.tok = j) || s.rtu.beams.any (fun b => b.uid = uid && b.lane = lane && b.tok = j))

/-- The signallers of a side of a buffer: its tasks, those whose transfers write it, its threads where they are the side; and whatever else moves on it, which
is alive. -/
def State.cbufSignals (s : State) (cl cb : Nat) (prod : Bool) : List WAgent × Bool :=
  let tasks := (s.cts.tasks.filter (fun t => t.cl = cl && t.names cb prod && t.st ≠ .done && t.st ≠ .specDone)).map (fun t => WAgent.task t.cl t.slot)
  let byThreads := match s.cbuf? cl cb with | some x => if prod then !x.pe else !x.ce | none => false
  let gids := (s.wd.gangs.filter (fun g => g.cl = cl && g.cblo ≤ cb && cb < g.cblo + g.cbn)).map (fun g => g.gid)
  let threads := if byThreads then (s.waves.filter (fun w => gids.contains w.gid)).flatMap (fun w => w.agents (fun _ _ => true)) else []
  let senders := if prod then (s.cts.xfers.filter (fun x => x.cb = cb && x.dsts.any (fun d => d.1 = cl && d.2 ≠ .over && d.2 ≠ .dropped))).map
    (fun x => WAgent.task x.cl x.slot) else []
  let claims := s.cts.claims.any (fun c => c.cl = cl && c.cb = cb && c.prod == prod &&
    (match c.owner with
      | .task k => s.cts.tasks.any (fun t => t.cl = cl && t.slot = k && t.st = .specDone)
      | .copy _ => true
      | .bus _ => false))
  let moving := prod && (s.cts.copies.any (fun c => c.cl = cl && c.cb = cb) || s.flight.mreqs.any (fun q => q.dests.contains (cl, cb)))
  (tasks ++ threads ++ senders, claims || moving)

/-- Has an engine operation of the current step of a region that a wave of its set issued not completed (R287)? -/
def State.stepWorks (s : State) (r : Region) : Bool :=
  let mine := fun (uid step : Nat) => r.stepSet.contains uid && step = r.stepno
  let call := fun (c : ACall) => mine c.uid c.step
  s.cts.tasks.any (fun t => mine t.uid t.step && t.st ≠ .done && t.st ≠ .specDone) || s.flight.mreqs.any (fun q => mine q.uid q.step) ||
  s.cts.copies.any (fun c => mine c.uid c.step) || s.cts.msgs.any (fun m => mine m.uid m.step && m.stage ≠ .queue && m.stage ≠ .handler) || s.streams.any (fun q => mine q.uid q.step) ||
  s.asu.waiting.any (fun x => call x.2) || s.asu.bins.any (fun b => b.calls.any call) || s.asu.tiles.any (fun t => t.calls.any call) ||
  s.rtu.rays.any (fun q => mine q.uid q.step) || s.rtu.beams.any (fun b => mine b.uid b.step)

/-- The lanes of a wave of the step's set that have not arrived: those of its recorded mask, or before its first arrival of the step's mask, or of
m0 where no mask has been named. -/
def Region.stepMissing (r : Region) (w : Wave) : List WAgent :=
  match r.stepArr.find? (fun x => x.1 = w.uid) with
  | some x => w.agents (fun l _ => inMask x.2.1 l && !inMask x.2.2 l)
  | none => w.agents (fun l _ => match r.stepMask with | some m => inMask (w.mask m) l | none => true)

/-- The peers whose arrival at the current step is here; this member counts once it has sent its own. -/
def Region.stepHere (r : Region) : Nat := (r.stepPeers.filter (fun k => k / 64 = r.stepno)).length

/-- The expected signallers of an agent's object, and whether one of them is alive without being an agent. -/
def State.signals (s : State) (a : WAgent) (o : WObj) : List WAgent × Bool :=
  match a with
  | .thread uid lane =>
    (match s.wave? uid with
    | none => ([], true)
    | some w =>
      match o with
      | .mask m => (w.agents (fun l t => inMask (w.mask m) l && !waitsMask m t), false)
      | .bar b =>
        let x := s.bar w.gid w.gangwg b
        ((s.workgroup w.gid w.gangwg).flatMap (fun v => v.agents (fun l _ =>
          if !x.isOpen then true
          else if !x.W.testBit v.widx then false
          else inMask ((lookupIn x.mcs v.uid).getD (v.mask x.c)) l && !inMask ((lookupIn x.arr v.uid).getD 0) l)), false)
      | .step =>
        (match s.region? w.rid with
        | none => ([], true)
        | some r => ((s.waves.filter (fun v => r.stepSet.contains v.uid)).flatMap r.stepMissing, s.stepWorks r || (r.cgrp ≠ 0 && r.stepHere < r.cgsz)))
      | .gjoin k => (w.agents (fun l t => inMask (Sparse.get 0 w.jg k) l && (waitsGjoin k t).isNone), false)
      | .tokens T =>
        ((List.range 16).filter (fun j => T.testBit j && w.tokPending j lane)).foldl (fun acc j =>
          let q := s.tokSignal uid lane j
          (acc.1 ++ q.1, acc.2 || q.2)) ([], false)
      | .cbuf cl cb room => s.cbufSignals cl cb (!room)
      | .task id => (match s.taskOf w.cl id with | .current t => ([.task t.cl t.slot], false) | _ => ([], true))
      | _ => ([], true))
  | .task cl slot =>
    (match s.task? cl slot with
    | none => ([], true)
    | some t =>
      match o with
      | .cbuf d cb room => s.cbufSignals d cb (!room)
      | _ =>
        ((s.cts.tasks.filter (fun q => q.cl = cl && q.succ.contains t.id && q.st ≠ .done && q.st ≠ .specDone)).map (fun q => WAgent.task q.cl q.slot),
          s.waves.any (fun w => w.rid = t.rid && !(w.lanesWhere (fun _ th => (th.waitObj w.cl).isNone && th.st ≠ .exited && th.st ≠ .notLaunched)).isEmpty)))

/-! ## Knots (R449) -/

/-- An agent of a knot with what is needed of it. -/
structure WEntry where
  a : WAgent
  o : WObj
  sigs : List WAgent
  deriving DecidableEq, Repr, Inhabited

/-- DLTO in clk; 0 behaves as 1 µs. -/
def State.dlto (s : State) : Nat := 1700 * max 1 (bitsAt (s.csr (csrAddr 10 0 0 0)) 0 32)

/-- The agents whose wait is old enough and whose signallers are all agents. -/
def State.candidates (s : State) : List WEntry :=
  s.blocked.filterMap (fun x =>
    if s.clk < x.2.2 + s.dlto then none
    else
      let q := s.signals x.1 x.2.1
      if q.2 then none else some ⟨x.1, x.2.1, q.1⟩)

/-- Agents with a signaller outside the set leave it, round by round. -/
def prune : Nat → List WEntry → List WEntry
  | 0, l => l
  | n + 1, l => prune n (l.filter (fun e => e.sigs.all (fun q => l.any (fun x => x.a = q))))

/-- Are two agents of one knot? -/
def WEntry.tied (a b : WEntry) : Bool := a.sigs.contains b.a || b.sigs.contains a.a

/-- The agents tied to those of `k`, in `n` rounds. -/
def grow (l : List WEntry) : Nat → List WEntry → List WEntry
  | 0, k => k
  | n + 1, k => grow l n (l.filter (fun e => k.any (fun x => x = e || x.tied e)))

/-- The separate knots of a set, in at most `n` rounds. -/
def splitKnots : Nat → List WEntry → List (List WEntry)
  | 0, _ => []
  | n + 1, l =>
    match l with
    | [] => []
    | e :: _ =>
      let k := grow l l.length [e]
      k :: splitKnots n (l.filter (fun x => !k.contains x))

def State.knots (s : State) : List (List WEntry) :=
  let c := s.candidates
  let l := prune c.length c
  splitKnots l.length l

/-- INFO of a wait object; of a token wait, the lowest token pending in the lane (R448). -/
def State.objInfo (s : State) (a : WAgent) (o : WObj) : Nat :=
  match o with
  | .mask m => 0x40 + m
  | .bar b => b
  | .step => 0xFF
  | .gjoin k => 0x60 + k
  | .tokens T =>
    (match a with
    | .thread uid lane =>
      (match s.wave? uid with
      | some w => 0x50 + (((List.range 16).find? (fun j => T.testBit j && w.tokPending j lane)).getD 0)
      | none => 0x50)
    | _ => 0x50)
  | .cbuf _ cb room => 0x80 + b2n room + 2 ^ 8 * cb
  | .dep id => 0x82 + 2 ^ 8 * id
  | .task id => 0x83 + 2 ^ 8 * id
  | .stream => 0

/-- The lanes of a wave in a knot, with their faults. -/
def knotLanes (s : State) (k : List WEntry) (uid : Nat) : List (Nat × LFault) :=
  k.filterMap (fun e => match e.a with
    | .thread u l => if u = uid then some (l, ⟨fcDeadlock, s.objInfo e.a e.o⟩) else none
    | _ => none)

/-- The threads of a knot park, one sub-wave a wave, and their arrivals are withdrawn (R190). -/
def State.parkKnot (s : State) (k : List WEntry) : State :=
  let us := sortedSet (k.filterMap (fun e => match e.a with | .thread u _ => some u | _ => none))
  let lanes := us.map (fun u => (u, knotLanes s k u))
  let s := lanes.foldl (fun s x => s.withdraw x.1 (x.2.map (fun l => l.1))) s
  let s := lanes.foldl (fun s x => s.park x.1 ((x.2.head?.map (fun l => (s.thread x.1 l.1).pc)).getD 0) x.2) s
  us.foldl (fun s u => ((s.evalMasks u).evalGjoins u).evalBarsOf u) s

/-- A knot of tasks alone is reported once, in each of its regions, by the task with the lowest id. -/
def State.reportTasks (s : State) (k : List WEntry) : State :=
  let ts := k.filterMap (fun e => match e.a with | .task c q => (s.task? c q).map (fun t => (t, s.objInfo e.a e.o)) | _ => none)
  (sortedSet (ts.map (fun x => x.1.rid))).foldl (fun s rid =>
    let mine := ts.filter (fun x => x.1.rid = rid)
    match mine.find? (fun x => mine.all (fun y => x.1.id ≤ y.1.id)) with
    | none => s
    | some (t, info) =>
      let key := (t.cl, t.slot, t.gen)
      if s.svc.knots.contains key then s
      else
        let e : EngObj := ⟨8, t.cl, 0, t.id, 0, mine.map (fun x => 2 ^ 16 * x.1.cl + x.1.id)⟩
        (s.updSvc (fun v => { v with knots := v.knots ++ [key] })).addRec
          { rid := rid, uid := 0, site := 0, lanes := [], eng := some e, code := fcDeadlock, info := info, handle := none, st := .waiting }) s

/-- A knot is reported and counted. -/
def State.reportKnot (s : State) (k : List WEntry) : State :=
  let threads := k.any (fun e => match e.a with | .thread .. => true | _ => false)
  let a := csrAddr 10 0 0 0
  let up := fun (s : State) => s.setCsr a (putBits (s.csr a) 32 32 (bitsAt (s.csr a) 32 32 + 1))
  if threads then up (s.parkKnot k)
  else
    let s' := s.reportTasks k
    if s'.svc.knots = s.svc.knots then s else up s'

/-- DEADLOCK_WALK. -/
def execDeadlockWalk (s : State) : Out := .next (s.knots.foldl (fun s k => s.reportKnot k) s)

end Sys2Proof.Machine
end

