-- ==== Sys2Proof/Machine/Containment.lean ====
section
/-!
DEFINITION. The service of fault records (R434 to R438), the end of a superstep (R185, R287), fatal faults and fault domains (R442, R445), and the
collective abort (R446, R447).
-/

namespace Sys2Proof.Machine

/-! ## Records and their handlers (R435, R436) -/

/-- FAULT_RECORD_DEFERRED_WRITE: a record that waited for a handle or a slot is written. -/
def execFaultRecordDeferredWrite (rid : Nat) (s : State) : Out := .next (s.writeRec rid)

/-- Are the ABORT records of a region held for an abort handler: that of the region, or of one above it that stopped it (R446)? -/
def State.abortHeld (s : State) (rid : Nat) : Bool := s.regions.any (fun a => a.abHold && s.under 8 rid a.rid)

/-- The record of a region that is dispatched next: the first written one, unless it carries ABORT before the abort handler has retired (R446). -/
def State.nextRec (s : State) (r : Region) : Option (Nat × Rec) :=
  match findIdx (fun (q : Rec) => q.rid = r.rid && decide (q.st = .written)) s.recs with
  | none => none
  | some (i, q) => if s.abortHeld r.rid && (q.code = fcAbort || q.lanes.any (fun l => l.code = fcAbort)) then none else some (i, q)

/-- The cluster where a fault arose. -/
def State.recCluster (s : State) (q : Rec) : Nat :=
  match q.eng with
  | some e => e.ecl
  | none => ((s.wave? q.uid).map (fun w => w.cl)).getD 0

/-- A record is dispatched to a wave, or (0) to the SVC. -/
def State.dispatched (s : State) (rid i : Nat) (q : Rec) (server : Nat) : State :=
  { s with
    recs := setAt s.recs i { q with st := .served server }
    regions := s.regions.map (fun (r : Region) => if r.rid = rid then { r with fqD := (r.fqD + 1) % 2 ^ 32 } else r) }

/-- The handler wave of a record on a core: the record in s0 to s7, privileged (R399); none without room. -/
def State.startFault (s : State) (r : Region) (i : Nat) (q : Rec) (cl core : Nat) : Option State :=
  match q.handle with
  | none => none
  | some h =>
    if !s.coreOk r cl core then none
    else (s.startHandler r cl core (.fault h) r.fhnd 128 r.hV r.hS true (handlerSegs r) []
      (fun w => w.withScalars 0 (leWords 8 (q.bits h)))).map (fun t => t.dispatched r.rid i q s.fresh)

/-- FAULT_HANDLER_START: on a core of the cluster where the fault arose if one has room, else on any of the partition. -/
def execFaultHandlerStart (rid cl core : Nat) (s : State) : Out :=
  .next (match s.region? rid with
    | none => s
    | some r =>
      match s.nextRec r with
      | none => s
      | some (i, q) =>
        let home := s.recCluster q
        if r.fhnd = 0 then s
        else if cl ≠ home && (List.range 4).any (fun c => (s.startFault r i q home c).isSome) then s
        else (s.startFault r i q cl core).getD s)

/-! ## The service of the SVC (R434, R436) -/

/-- Copies bytes of device memory. -/
def State.copyPhys (s : State) (src dst n : Nat) : State :=
  s.store ((List.range n).map (fun i => .dev (dst + i) .rc)) (s.readLocs ((List.range n).map (fun i => .dev (src + i) .rc)))

/-- Bytes of a table of a level. -/
def tableBytes (lvl : Nat) : Nat := if lvl = 1 then 2048 else 256

/-- An address that the SVC allocates for a table or a page of 2^sh bytes (log 28). -/
def newPage (t k sh : Nat) : Nat := Config.freePage t k * 2 ^ sh

/-- The private path of a page (R434): from the entry of a level in the table at `t`, a private copy of every table below a shared pointer, and a leaf
that points to the new page, writable and not copy-on-write. -/
def State.cowPath (s : State) (va tb new : Nat) : Nat → Nat → Bool → State
  | lvl, t, priv =>
    let a := t + 8 * lvlIndex lvl tb va
    let e := s.physNat a 8
    let put := fun (s : State) (v : Nat) => s.store ((List.range 8).map (fun i => .dev (a + i) .rc)) (leBytes 8 v)
    if bitAt e 1 then put s (putBits (putBits (putBits e 4 1 0) 6 1 0) 16 40 (new / 2 ^ 16))
    else
      match lvl with
      | 0 => s
      | lvl' + 1 =>
        let sh := priv || bitAt e 5
        let old := bitsAt e 8 48 * 2 ^ 8
        if sh then
          let n := newPage s.tick (lvl' + 1) 11
          (put (s.copyPhys old n (tableBytes lvl')) (putBits (putBits (putBits e 5 1 0) 56 8 0) 8 48 (n / 2 ^ 8))).cowPath va tb new lvl' n true
        else s.cowPath va tb new lvl' old false

/-- The leaf of an address of a region that a write finds copy-on-write. -/
def State.cowLeaf (s : State) (rid va : Nat) : Option Leaf :=
  match s.region? rid with
  | none => none
  | some r =>
    match r.ptroot.map (fun root => walk s r.tagPart root va) with
    | some (.leaf l _) => if (l.ro || l.shared) && l.cow then some l else none
    | _ => none

/-- The private path to the new page is written, unless the page has since become writable, and the old translation removed. -/
def State.writeCow (s : State) (x : Cow) : State :=
  match s.region? x.rid, s.cowLeaf x.rid x.va with
  | some r, some _ =>
    (match r.ptroot with
    | some root => (s.cowPath x.va (bitsAt root 0 5) x.page 3 (bitsAt root 8 48 * 2 ^ 8) false).tlbop r 0 x.va 0
    | none => s)
  | _, _ => s

/-- The copy for a page starts on a free TCE of a cluster; none while both work. -/
def State.startCow (s : State) (cl rid h va : Nat) (l : Leaf) : State :=
  match (List.range 2).find? (fun u => s.engineFree cl 0 u) with
  | none => s
  | some u =>
    let sh := lvlShift l.lvl
    let x : Cow := ⟨rid, h, va, 2 ^ sh, newPage s.tick 0 sh, 0, cl, u, s.fresh⟩
    { s with fresh := s.fresh + 1, svc := { s.svc with cows := s.svc.cows ++ [x] } }

/-- The agent of a copy. -/
def Cow.who (x : Cow) : Who := .task x.cl (2 ^ 8 + x.slot)

/-- Reads bytes of the old page for a copy: those on a peer are asked for and waited for. -/
def State.cowRead (s : State) (x : Cow) (n : Nat) : State × Except LFault (List Byte) :=
  let va := x.va / x.size * x.size + x.done
  match s.bytesOfVa x.rid va false n with
  | .error e => (s, .error e)
  | .ok ls =>
    if (s.ueAt ls).isSome then (s.meetUe (ls.map (fun y => y.2)), .error ⟨fcMemUe, va⟩)
    else if ls.any (fun y => y.2.away) then
      let a : State := { s with ord := { s.ord with agent := some ⟨x.who, .op, .port, View.of []⟩ } }
      match a.take ls none with
      | .error e => ((if e.holds then a.hold x.rid e 0 [] else a).opDone, .error e)
      | .ok r => (r.1.opDone, .ok r.2)
    else (s, .ok (s.readLocs (ls.map (fun y => y.2))))

def State.endCow (s : State) (x : Cow) : State :=
  let s := (s.dropRops x.who).endReads x.who
  { s with svc := { s.svc with cows := s.svc.cows.filter (fun y => y.slot ≠ x.slot) } }

/-- A copy moves its next 4 KiB, and once all bytes have moved the new path is written. Uncorrectable data in the old page end the task with MEMUE, which the model
makes a fatal fault of the region; where the page has gone, the lanes write again (log 97). -/
def State.advanceCow (s : State) (x : Cow) : State :=
  if x.size ≤ x.done then (s.writeCow x).endCow x
  else
    match s.cowRead x 4096 with
    | (s, .ok bs) =>
      let s := ((s.dropRops x.who).endReads x.who).store ((List.range bs.length).map (fun i => .dev (x.page + x.done + i) .rc)) bs
      { s with svc := { s.svc with cows := s.svc.cows.map (fun y => if y.slot = x.slot then { y with done := y.done + 4096 } else y) } }
    | (s, .error e) =>
      if e.holds then s
      else
        let s := s.endCow x
        if e.code = fcMemUe then { s with fatals := s.fatals ++ [(x.rid, fcMemUe)] }
        else if (s.recs.any (fun q => q.rid = x.rid && q.handle = some x.handle && q.eng.isSome)) then s
        else s.tret x.rid x.handle false []

/-- The codes of a record's lanes, or of its engine, with their INFO. -/
def Rec.faults (q : Rec) : List (Nat × Nat) :=
  match q.eng with | some _ => [(q.code, q.info)] | none => q.lanes.map (fun l => (l.code, l.info))

/-- Does the SVC serve a code itself (R436)? -/
def svcServes (c : Nat) : Bool := c = fcCowWrite || c = fcWatch || c = fcDeadlock || c = fcAbort

/-- The next page of a record that a write of its lanes, or of its engine, finds copy-on-write. -/
def State.nextCow (s : State) (rid : Nat) (q : Rec) : Option (Nat × Leaf) :=
  (q.faults.filter (fun f => f.1 = fcCowWrite)).findSome? (fun f => (s.cowLeaf rid f.2).map (fun l => (f.2, l)))

/-- The SVC serves a record of codes that it serves: lanes with DEADLOCK or ABORT make all exit; else each copy-on-write page in turn gets a copy, WATCH lanes are
with an attached debugger as long as that holds them, and the operation or the lanes then go on (R436). -/
def State.svcServe (s : State) (rid : Nat) (q : Rec) : State :=
  let h := q.handle.getD 0
  let done := fun (exit : Bool) => match q.eng with | none => s.tret rid h exit [] | some e => s.tretNow rid h exit e
  if q.faults.any (fun f => f.1 = fcDeadlock || f.1 = fcAbort) then done true
  else
    match s.nextCow rid q with
    | some (va, l) => s.startCow (s.recCluster q) rid h va l
    | none => if q.faults.any (fun f => f.1 = fcWatch) && Config.debugHolds s.tick then s else done false

/-- SVC_FAULT_SERVICE: the record of a region without a handler. The SVC takes the records of a region one by one; while it works on one, this is its next piece of
work on that: of the copy under way, or what follows it. -/
def execSvcFaultService (rid : Nat) (s : State) : Out :=
  .next (match s.region? rid with
    | none => s
    | some r =>
      if r.fhnd ≠ 0 then s
      else
        match s.svc.cows.find? (fun x => x.rid = rid), s.recs.find? (fun q => q.rid = rid && decide (q.st = .served 0)), s.nextRec r with
        | some x, _, _ => if s.draining rid then s else s.advanceCow x
        | none, some q, _ => s.svcServe rid q
        | none, none, none => s
        | none, none, some (i, q) =>
          let s := s.dispatched rid i q 0
          match q.faults.find? (fun f => !svcServes f.1) with
          | some f => { s with fatals := s.fatals ++ [(rid, f.1)] }
          | none => s.svcServe rid q)

/-- SERVICE_BUDGET_EXCEED: the service charge of a region passes 1,000 × TBUD µs, a fatal fault whose record holds 0x0F (R438). -/
def execServiceBudgetExceed (rid : Nat) (s : State) : Out :=
  .next (match s.region? rid with
    | none => s
    | some r =>
      if r.tbud ≠ 0 && 1700 * 1000 * r.tbud < r.charge && !s.fatals.any (fun f => f.1 = rid) then { s with fatals := s.fatals ++ [(rid, 0x0F)] } else s)

/-! ## Supersteps (R185, R287, R288) -/

/-- The waves of a region that wait in SSTEP. -/
def State.stepWaiters (s : State) (rid : Nat) : List (Nat × List Nat) :=
  (s.waves.filter (fun w => w.rid = rid)).filterMap (fun w =>
    match w.lanesWhere (fun _ t => inStep t) with | [] => none | l => some (w.uid, l))

/-- The waves of a region's launches that are placed and have not retired: the set of a step that begins. -/
def State.stepWaves (s : State) (rid : Nat) : List Nat :=
  (s.waves.filter (fun w => w.rid = rid && decide (w.kind = .launch) && !w.over)).map (fun w => w.uid)

/-- Has a step something to end for: participants, a thread that waits, or a peer that has ended it? A step with none of them has no end of its own
(log 33). -/
def State.stepLive (s : State) (r : Region) : Bool := !r.stepSet.isEmpty || !(s.stepWaiters r.rid).isEmpty || 0 < r.stepHere

/-- Has every participant on this member arrived or exited, with every operation of the step complete? -/
def State.stepDone (s : State) (r : Region) : Bool :=
  r.ssm && s.stepLive r && !s.stepWorks r && (s.waves.filter (fun w => r.stepSet.contains w.uid)).all (fun w => (r.stepMissing w).isEmpty)

/-- The next step begins. -/
def State.beginStep (s : State) (rid : Nat) : State :=
  s.updRegion rid (fun r =>
    { r with stepArr := [], stepMask := none, stepView := [], stepSet := s.stepWaves rid, stepPeers := r.stepPeers.filter (fun k => r.stepno ≤ k / 64) })

/-- STEP_END: this member's arrival goes to its peers; with every peer's here, STEPNO increments and the waiting threads go on, after every access of the
step (R225). -/
def execStepEnd (rid : Nat) (s : State) : Out :=
  .next (match s.region? rid with
    | none => s
    | some r =>
      if !s.stepDone r || r.aborting || (r.cgrp ≠ 0 && !r.grpActive) then s
      else
        let own := 64 * r.stepno + r.peerix
        if r.cgrp ≠ 0 && !r.stepPeers.contains own then
          (s.updRegion rid (fun r => { r with stepPeers := r.stepPeers ++ [own] })).sendPeers r (fun p => .stepArrive rid p r.stepno r.stepView)
        else if r.cgrp ≠ 0 && r.stepHere < r.cgsz then s
        else
          let ws := s.stepWaiters rid
          let s := (s.updRegion rid (fun r => { r with stepno := (r.stepno + 1) % 2 ^ 32 })).beginStep rid
          ws.foldl (fun s w => w.2.foldl (fun s l => ((s.joinLane r.stepView w.1 l).acquireLane r.stepView w.1 l).release w.1 l) s) s)

/-! ## The end of engine operations (R442) -/

/-- The calls of open bins, and those that wait for a bin, fail with ABORT and leave; a WTBL.sync no longer waits for those bins (R363). -/
def State.endCalls (s : State) (rids : List Nat) (info : Nat) : State :=
  let dead := (s.asu.waiting.map (fun x => x.2) ++ s.asu.bins.flatMap (fun b => b.calls)).filter (fun c => rids.contains c.rid)
  let gone := (s.asu.bins.filter (fun b => rids.contains b.rid)).map (fun b => b.seq)
  let s := s.updAsu (fun a => { a with waiting := a.waiting.filter (fun x => !rids.contains x.2.rid), bins := a.bins.filter (fun b => !rids.contains b.rid) })
  let s := gone.foldl (fun s b => s.tileRead b) s
  dead.foldl (fun s c => s.failTok c.uid c.tok c.lane fcAbort info) s

/-- A task of a region that ends: one that has not fired is freed, one that runs completes with ABORT, a copy with its record (R296), a GSE task with its report (R338). -/
def State.endTask (s : State) (t : Task) : State :=
  if t.st = .running then
    let t := { t with fault := none, susp := false, rmt := none }
    (((s.updTask t.cl t.slot (fun _ => t)).abortRec t).abortReport t).completeTask t 4
  else s.abortTask (256 * t.cl + t.slot)

/-- Multicast reads and their copies are dropped, and their tokens clear. -/
def State.endMcasts (s : State) (rids : List Nat) : State :=
  let reqs := s.flight.mreqs.filter (fun q => rids.contains q.rid)
  let s := s.updFlight (fun f => { f with mreqs := f.mreqs.filter (fun q => !rids.contains q.rid) })
  let s := s.updCts (fun c => { c with copies := c.copies.filter (fun x => !rids.contains x.rid) })
  reqs.foldl (fun s q => s.clearTok q.uid q.tok q.lane) s

/-- Messages in transit: their handler waves would start and exit at once, and their tokens clear. -/
def State.endMsgs (s : State) (rids : List Nat) : State :=
  let ms := s.cts.msgs.filter (fun m => rids.contains m.rid)
  let s := s.updCts (fun c => { c with msgs := c.msgs.filter (fun m => !rids.contains m.rid) })
  ms.foldl (fun s m =>
    if m.stage = .queue || m.stage = .handler then s else if m.away then s.send (.ack (.peer m.peer (s.classOf m.rid)) m.tok [] 0 ⟨[], []⟩) else s.clearTok m.uid m.tok m.lane) s

/-- FETCHW requests are answered with code none. -/
def State.endFetchw (s : State) (rids : List Nat) : State :=
  let mine := fun (q : WgReq) => ((s.wave? q.uid).map (fun w => rids.contains w.rid)).getD true
  let qs := s.cts.wgreqs.filter mine
  let s := s.updCts (fun c => { c with wgreqs := c.wgreqs.filter (fun q => !mine q) })
  qs.foldl (fun s q =>
    let locs := (List.range 16).map (fun i => if q.seg = 3 then sharedLoc q.cl (q.a + i) else coreLoc q.cl q.core (q.a + i))
    (s.store locs (leBytes 16 (2 * 2 ^ 96))).clearTok q.uid q.tok q.lane) s

/-- A ray ends with STATUS 8 and ABORT: the service writes what the unit writes of its record, where that can be written. -/
def State.endRay (s : State) (r : Ray) (info : Nat) : State :=
  let s := s.seatRay r
  let bs := leBytes 64 (r.final 8 s.tick)
  let s := match s.recLocs r with
    | .error _ => s
    | .ok ls =>
      let put := fun (s : State) (i n : Nat) => s.post r.rid (r.va + i) (((ls.drop i).take n).map (fun (x : Nat × Loc) => x.2)) ((bs.drop i).take n)
      put (put s 32 16) 56 8
  (s.asRay r).rayOut r 8 fcAbort info

/-- Rays and beams end with STATUS 8 and ABORT; callback lanes no longer serve them. -/
def State.endRays (s : State) (rids : List Nat) (info : Nat) : State :=
  let s := (s.rtu.beams.filter (fun b => rids.contains b.rid)).foldl (fun s b => s.failBeam b fcAbort info) s
  let rs := s.rtu.rays.filter (fun r => rids.contains r.rid)
  let s := s.updCb (fun x => if rs.any (fun r => r.id = x.ray) then { x with ray := 0 } else x)
  rs.foldl (fun s r => s.endRay r info) s

/-- The operations of peers on these regions end with ABORT. -/
def State.endPeerOps (s : State) (rids : List Nat) : State :=
  (s.link.inops.filter (fun x => rids.contains (msgRegion x.2.2))).foldl (fun s x => s.resumePeer x.1 true) s

/-- The engine records of these regions name operations that are over. -/
def Rec.cut (r : Rec) (rids : List Nat) : Rec :=
  match r.eng with
  | some e => if rids.contains r.rid && e.ekind < 9 then { r with eng := some { e with ref := 2 ^ 64, knot := [] } } else r
  | none => r

/-- Every engine operation of these regions ends. Open bins go first, so that none of them becomes a tile. -/
def State.endEngines (s : State) (rids : List Nat) (info : Nat) : State :=
  let s := (s.cts.tasks.filter (fun t => rids.contains t.rid)).foldl (fun s t => s.endTask t) s
  let s := (s.endRays rids info).endCalls rids info
  let s := (s.asu.tiles.filter (fun t => rids.contains t.rid)).foldl (fun s t => s.failTile t fcAbort info) s
  let s := (((s.endMcasts rids).endMsgs rids).endFetchw rids).endPeerOps rids
  let s := (s.svc.cows.filter (fun x => rids.contains x.rid)).foldl State.endCow s
  { s with recs := s.recs.map (fun r => r.cut rids) }

/-! ## Fault domains (R445) -/

/-- The regions of the subtree of a region. -/
def State.subtree (s : State) (rid : Nat) : List Nat := (s.regions.filter (fun r => s.under 8 r.rid rid)).map (fun r => r.rid)

/-- The nearest region, counting from `rid` upward, whose FDOM is 1; the root is always one. -/
def State.domainOf (s : State) : Nat → Nat → Nat
  | 0, _ => 0
  | n + 1, rid =>
    match s.region? rid with
    | none => 0
    | some r => if r.fdom || rid = 0 then rid else s.domainOf n r.parent

/-- Every lane of every wave of these regions exits, and their handler waves are gone. -/
def State.exitRegions (s : State) (rids : List Nat) : State :=
  let us := (s.waves.filter (fun w => rids.contains w.rid)).map (fun w => (w.uid, w.lanesWhere (fun _ _ => true)))
  let s := us.foldl (fun s w => s.exitLanes w.1 w.2) s
  s.dropWaves ((s.waves.filter (fun w => rids.contains w.rid && decide (w.kind ≠ .launch))).map (fun w => w.uid))

/-- The subtree of a domain ends: its waves, engines, gangs, launches and regions, and the record of its end in the parent's queue. -/
def State.endSubtree (s : State) (dom x code : Nat) : State :=
  let rids := s.subtree dom
  let up := (s.region? dom).map (fun r => r.parent)
  let info := ((s.region? dom).map (fun r => r.stepno)).getD 0
  let s := s.exitRegions rids
  let s := ({ s with recs := s.recs.filter (fun r => !rids.contains r.rid) } : State).endEngines rids info
  let s := (s.wd.gangs.filter (fun g => rids.contains g.rid)).foldl (fun s g => s.retireGang g) s
  let s := (s.wd.launches.filter (fun l => rids.contains l.rid)).foldl (fun s l => s.endLaunch l) s
  let s := { s with fatals := s.fatals.filter (fun f => !rids.contains f.1) }
  let s := (rids.filter (fun r => r ≠ 0)).foldl (fun s r => s.dropRegion r) s
  match up with
  | some p => if dom = 0 then s else s.addRec (engRec p 9 0 0 dom (2 ^ 64) (fcAbort, x % 2 ^ 32 + 2 ^ 32 * code))
  | none => s

/-! ## The collective abort (R446) -/

/-- Every lane of a wave that has not exited is parked, its arrivals withdrawn. -/
def State.stopWave (s : State) (uid : Nat) : State :=
  match s.wave? uid with
  | none => s
  | some w =>
    let ls := w.lanesWhere (fun _ t => t.st ≠ .exited && t.st ≠ .notLaunched)
    let s := (s.withdraw uid ls).updWave uid (fun w =>
      ls.foldl (fun w l => w.updThread l (fun t => { t with st := .parked, ue := none, ftok := none, hseg := none })) w)
    (ls.foldl (fun s l => (s.dropRops (.lane uid l)).dropAsks (.lane uid l)) s).evalMasks uid

/-- The stream instructions under way of these regions' waves are dropped: their lanes park at them, with their tokens clear (R442). -/
def State.endStreams (s : State) (rids : List Nat) : State :=
  let mine := fun (q : StreamOp) => ((s.wave? q.uid).map (fun w => rids.contains w.rid)).getD false
  let qs := s.streams.filter mine
  qs.foldl (fun s q =>
    if q.op = 0xC1 then
      ((s.dropRops (.stream q.uid q.h.a.toNat)).dropAsks (.stream q.uid q.h.a.toNat)).updWave q.uid (fun w => q.lanes.foldl (fun w l => w.setTok (bitsAt q.x 0 4) l false) w)
    else s) { s with streams := s.streams.filter (fun q => !mine q) }

/-- The INFO of an ABORT whose agreed step is not known yet: no INFO of 56 bits. -/
def stepUnknown : Nat := 2 ^ 56

/-- The tokens of a wave that failed with ABORT in this abort hold the agreed step (R357). -/
def Wave.agreeToks (w : Wave) (A : Nat) : Wave :=
  { w with kfail := w.kfail.map (fun x => if x.2 = (fcAbort, stepUnknown) then (x.1, (fcAbort, A)) else x) }

/-- A member starts its abort: its token goes to every peer, and its region stops, with the subtree below it: first its lanes, then its engine operations (R446). -/
def State.startAbort (s : State) (rid : Nat) (orig : Option Nat) : State :=
  match s.region? rid with
  | none => s
  | some r =>
    let rids := s.subtree rid
    let s := s.sendPeers r (fun p => .abortToken rid p r.stepno (orig.map (fun c => (r.peerix, c))))
    let s := { s with
      recs := s.recs.filter (fun q => !(rids.contains q.rid && q.eng.isNone))
      fatals := s.fatals.filter (fun f => !rids.contains f.1) }
    let s := s.dropWaves ((s.waves.filter (fun w => rids.contains w.rid && w.fatalKind)).map (fun w => w.uid))
    let s := ((s.waves.filter (fun w => rids.contains w.rid)).foldl (fun s w => s.stopWave w.uid) s).endStreams rids
    let s := ({ s with regions := s.regions.map (fun (q : Region) => if rids.contains q.rid then { q with aborting := true } else q) } : State).endEngines rids stepUnknown
    s.updRegion rid (fun r => { r with abClk := s.clk, abTokens := r.abTokens ++ [(r.peerix, r.stepno, orig)] })

/-- FATAL_FAULT: a fatal fault that has been raised ends its domain's subtree, or starts the abort of the domain's group; on a member in its abort it
ends the subtree (R447). -/
def execFatalFault (rid code : Nat) (s : State) : Out :=
  .next (if !s.fatals.contains (rid, code) then s
    else
      let s := { s with fatals := s.fatals.erase (rid, code) }
      let dom := s.domainOf 8 rid
      match s.region? dom with
      | none => s
      | some d =>
        if d.cgrp = 0 || d.aborting || d.abWave.isSome then s.endSubtree dom rid code else s.startAbort dom (some code))

/-- ABORT_TOKEN_RECEIVE: a peer's token, at which a member that has sent none sends its own and stops. -/
def execAbortTokenReceive (rid peer step : Nat) (orig : Bool) (code : Nat) (s : State) : Out :=
  .next (match s.region? rid with
    | none => s
    | some r =>
      if !r.grpActive || r.cgsz ≤ peer || peer = r.peerix || r.abTokens.any (fun t => t.1 = peer) then s
      else
        let s := if r.aborting then s else s.startAbort rid none
        s.updRegion rid (fun r => { r with abTokens := r.abTokens ++ [(peer, step, if orig then some code else none)] }))

/-- The ABORT records of a stopped subtree: one for each wave, with the agreed step. -/
def State.abortRecords (s : State) (rids : List Nat) (A : Nat) : State :=
  (s.waves.filter (fun w => rids.contains w.rid)).foldl (fun s w =>
    if s.recs.any (fun q => q.uid = w.uid && q.eng.isNone) then s
    else
      match w.lanesWhere (fun _ t => t.st = .parked) with
      | [] => s
      | l :: ls => s.park w.uid (w.thread l).pc ((l :: ls).map (fun k => (k, ⟨fcAbort, A⟩)))) s

/-- The abort handler wave, on the first core of the partition with room: s0 the step, s1 the originator, s2 its code, s3 the region. -/
def State.startAbnd (s : State) (r : Region) (A peer code : Nat) : Option State :=
  (List.range 192).findSome? (fun k =>
    if !s.coreOk r (k / 4) (k % 4) then none
    else s.startHandler r (k / 4) (k % 4) .abort r.abnd 128 r.hV r.hS true (handlerSegs r) [] (fun w =>
      w.withScalars 0 [BitVec.ofNat 32 A, BitVec.ofNat 32 peer, BitVec.ofNat 32 code, BitVec.ofNat 32 r.rid]))

/-- The originator of an abort: the lowest peer whose token carries the flag, with its code. -/
def originator (l : List (Nat × Nat × Option Nat)) : Nat × Nat :=
  let o := l.filterMap (fun t => t.2.2.map (fun c => (t.1, c)))
  (o.find? (fun x => o.all (fun y => x.1 ≤ y.1))).getD (0, 0)

/-- The step that the tokens of an abort agree on: the lowest. -/
def Region.agreed (r : Region) : Nat := r.abTokens.foldl (fun m t => min m t.2.1) r.stepno

/-- The members' state once an abort is agreed on step `A`: its subtree goes on, and the ABORT records are written behind the handler, wave `u`. -/
def State.agreeOn (s : State) (r : Region) (A u : Nat) : State :=
  let rids := s.subtree r.rid
  let t := { s with
    regions := s.regions.map (fun (q : Region) =>
      if rids.contains q.rid then { q with aborting := false, stepno := if q.rid = r.rid then A else q.stepno } else q)
    waves := s.waves.map (fun (w : Wave) => if rids.contains w.rid then w.agreeToks A else w) }
  let t := t.updRegion r.rid (fun q =>
    { q with abTokens := [], abHold := r.abnd ≠ 0, abWave := if r.abnd = 0 then none else some u, stepPeers := [] })
  (t.beginStep r.rid).abortRecords rids A

/-- Has an abort the token of every peer, or has its group ended? -/
def Region.agrees (r : Region) : Bool := r.aborting && !r.abTokens.isEmpty && !(r.grpActive && r.abTokens.length < r.cgsz)

/-- ABORT_AGREE: with the token of every peer here, or the group ended, the agreed step is the lowest; the abort handler starts, and the ABORT
records are written behind it. -/
def execAbortAgree (rid : Nat) (s : State) : Out :=
  .next (match s.region? rid with
    | none => s
    | some r =>
      if !r.agrees then s
      else
        let o := originator r.abTokens
        match (if r.abnd = 0 then some s else s.startAbnd r r.agreed o.1 o.2) with
        | none => s
        | some s' => s'.agreeOn r r.agreed s.fresh)

/-- 10 ms passed since the first token and a peer has sent none: it counts as retired, and the group ends (R447). -/
def execAbortTokenTimeout (rid peer : Nat) (s : State) : Out :=
  .next (match s.region? rid with
    | none => s
    | some r =>
      if r.aborting && r.grpActive && peer < r.cgsz && r.abClk + tenMs ≤ s.clk && !r.abTokens.any (fun t => t.1 = peer) then
        s.endGroup rid
      else s)

end Sys2Proof.Machine
end

