-- ==== Sys2Proof/Machine/Service.lean ====
section
/-!
DEFINITION. The service life of a module (chapter 21): spare actions (R244, R461 to R463, R467), error record banks (R464, R465), wear monitors
(R466), telemetry and the thermal stop (R470, R471), refresh and scrub (R450), and module reset (R411, R463). What a sensor or a failing part shows
arrives as the operands of these events (log 15).
-/

namespace Sys2Proof.Machine

/-! ## Spare state (R467) -/

/-- A register of the SVC. -/
def svcAddr (reg : Nat) : Nat := csrAddr 10 0 0 reg

/-- Bit `i` of an SVC register is set. -/
def State.setSvcBit (s : State) (reg i : Nat) : State := s.setCsr (svcAddr reg) (putBits (s.csr (svcAddr reg)) i 1 1)

/-- A completed migration that stopped user work for `n` clk. -/
def State.migrated (s : State) (n : Nat) : State := (s.count (svcAddr 0x15) 64 1).count (svcAddr 0x16) 64 n

/-- MIG in the valid records of a unit's bank (R464). -/
def State.markMig (s : State) (group unit : Nat) : State :=
  (List.range 4).foldl (fun s r =>
    let a := csrAddr 12 group unit (4 * r)
    if bitAt (s.csr a) 0 then s.setCsr a (putBits (s.csr a) 3 1 1) else s) s

/-- The time that a migration stops user work, at most `n` clk (log 15). -/
def State.stopTime (s : State) (n : Nat) : Nat := Config.order s.tick 0 % (n + 1)

/-- Is an action called for, and then taken (R461)? -/
def State.wanted (s : State) (kind unit : Nat) : Bool := s.svc.wants.contains (kind, unit)
def State.met (s : State) (kind unit : Nat) : State := s.updSvc (fun v => { v with wants := v.wants.filter (fun x => x ≠ (kind, unit)) })

/-- Every partition is drained in turn (R243, R244). -/
def State.drainAll (s : State) : State := (s.updSvc (fun v => { v with drainQ := v.drainQ ++ List.range 8 })).nextDrain

/-- Puts one of two spares in place of a failing unit in SPSLICE or SPCHAN, under a drain of every partition; a spare in use stays. -/
def State.takeSpare (s : State) (kind reg group unit spare limit : Nat) (f : State → State) : State :=
  let a := svcAddr reg
  if 2 ≤ spare || limit ≤ unit || bitAt (s.csr a) (8 * spare + 6) || !s.wanted kind unit then s
  else (f ((((s.met kind unit).setCsr a (putBits (s.csr a) (8 * spare) 7 (64 + unit))).migrated (s.stopTime 4096)).markMig group unit)).drainAll

/-- SLICE_SPARE_TAKEOVER: a spare holds a slice's contents, and each partition in turn is drained so that its tables lead to it (R244); the root's tables, whose set
is never drained, are written at once (log 38). -/
def execSliceSpareTakeover (slice spare : Nat) (s : State) : Out := .next (s.takeSpare 1 0x11 1 slice spare 64 (fun s => s.writeRoutes 8))

/-- CHANNEL_SPARE_MIGRATE: a channel's contents, failing check bits with them, are on a spare, and it is remapped under drain (R461, R462). -/
def execChannelSpareMigrate (ch spare : Nat) (s : State) : Out := .next (s.takeSpare 2 0x12 2 ch spare 32 id)

/-- The waves of a context of a core: on core 0 of cluster 0 the root's belong to both (R47). -/
def State.context (s : State) (cl core : Nat) (b : Bank) : List Nat :=
  ((s.banked cl core b) ++ s.waves.filter (fun w => w.cl = cl && w.core = core && w.rid = 0)).map (fun w => w.uid)

/-- CORE_SPARE_MIGRATE: the cluster's spare core takes the number of a worn core, with both its contexts, each a full ordering point (R228); it waits while a
quadrant of the core is stopped. The core's gang set is pre-empted meanwhile, and its lost slots count under SWAP (R460). -/
def execCoreSpareMigrate (cl core : Nat) (s : State) : Out :=
  .next (
    if 48 ≤ cl || 4 ≤ core || bitAt (s.csr (svcAddr 0x10)) cl || s.coreStopped cl core || !s.wanted 0 (5 * cl + core) then s
    else
      let n := s.stopTime 12000
      let s := ((s.met 0 (5 * cl + core)).setSvcBit 0x10 cl).migrated n
      let s := [Bank.active, Bank.shadow].foldl (fun s b => s.meetWaves (s.context cl core b)) s
      (s.loseSlots cl (s.swapSet cl core) true n).markMig 0 cl)

/-- LANE_SPARE_RETRAIN: a port's link training has failed, or its errors before correction are too many, and its spare lane takes the place of the failed one. -/
def execLaneSpareRetrain (port : Nat) (s : State) : Out :=
  .next (
    if 9 ≤ port || bitAt (s.csr (svcAddr 0x13)) port then s
    else ((s.setSvcBit 0x13 port).migrated 0).markMig 2 (48 + port))

/-! ## Spares exhausted and errors that arrive (R463, R465) -/

/-- Are both spares of SPSLICE or SPCHAN in use? -/
def State.bothUsed (s : State) (reg : Nat) : Bool := bitAt (s.csr (svcAddr reg)) 6 && bitAt (s.csr (svcAddr reg)) 14

/-- A port is taken down: the rewritten group table names other ports for the modules that it led to, and what waited for it leaves by those (R420, R463). -/
def State.portDown (s : State) (port : Nat) : State :=
  let conns := s.link.psns.map (fun x => x.1) ++ s.link.unacked.map (fun x => x.1) ++ s.link.waiting.map s.connOf
  let mods := conns.filterMap (fun c => match c with | .peer m _ => some m | .host _ => none) ++ s.regions.flatMap (fun r => (List.range r.cgsz).map (s.moduleOf r.rid))
  let hit := (mods.filter (fun m => 1 + s.portOf m = port)).eraseDups
  let s := s.updSvc (fun v => { v with portsDown := if v.portsDown.contains port then v.portsDown else v.portsDown ++ [port] })
  (s.updLink (fun l => { l with ports := l.ports.filter (fun x => !hit.contains x.1) ++ hit.map (fun m => (m, s.upPort m)) })).flushLink

/-- SPARES_EXHAUSTED: the next failure of a kind (0 core, with its cluster, 1 slice, 2 channel, 3 lane) whose spares are gone. -/
def execSparesExhausted (kind unit : Nat) (s : State) : Out :=
  .next (
    match kind with
    | 0 =>
      (match s.svc.wants.find? (fun x => x.1 = 0 && x.2 / 5 = unit) with
      | some x => if unit < 48 && bitAt (s.csr (svcAddr 0x10)) unit then ((s.met 0 x.2).setSvcBit 0x14 unit).raiseHigh else s
      | none => s)
    | 1 => if unit < 64 && s.bothUsed 0x11 && s.wanted 1 unit then (s.met 1 unit).raiseHigh else s
    | 2 => if unit < 32 && s.bothUsed 0x12 && s.wanted 2 unit then (s.met 2 unit).raiseHigh else s
    | 3 => if unit < 9 && bitAt (s.csr (svcAddr 0x13)) unit then (s.portDown unit).raiseHigh else s
    | _ => s)

/-- The sector of an uncorrectable event in device memory, the chip scratchpad or a local store (R201, R462). -/
def errorSector (group unit src addr : Nat) : Option Loc :=
  match src with
  | 6 => some (Loc.sec (.dev addr .rc))
  | 5 => if group = 1 && unit < 64 then some (Loc.sec (.chip (2 ^ 21 * unit + addr % 2 ^ 21))) else none
  | 1 => if group = 0 then some (Loc.sec (.loc (2 ^ 22 * unit + addr % 2 ^ 22))) else none
  | _ => none

/-- A sector holds uncorrectable data from now on (R201). -/
def State.poisoned (s : State) (l : Loc) : State := if s.poison.contains l then s else { s with poison := s.poison ++ [l] }

/-- ERROR_RECORD: an event of a unit is entered in its bank; an uncorrectable one leaves its sector uncorrectable. It has faulted no consumer: one that faults a
consumer is recorded at that access (R464). -/
def execErrorRecord (group unit : Nat) (ue _consumed : Bool) (src addr info : Nat) (s : State) : Out :=
  .next (
    if !bankOk group unit || 4 ≤ group then s
    else
      let s := s.enterError group unit ue false src (addr % 2 ^ 56) info
      match (if ue then errorSector group unit src (addr % 2 ^ 56) else none) with
      | some l => s.poisoned l
      | none => s)

/-! ## Monitors and sensors (R466, R470, R471) -/

/-- 10 s and 30 days of the module clock (R13). -/
def tenSeconds : Nat := 10 * 1700000000
def thirtyDays : Nat := 30 * oneDay

/-- What margins below WMTHR call for: the path delay of a core or slice, the retention of a channel (R461). -/
def State.margin (s : State) (group unit m : Nat) : State :=
  let v := s.csr (csrAddr 12 group unit (0x20 + m))
  let low := fun (i : Nat) => decide (bitsAt v i 16 < bitsAt v 32 16)
  match group with
  | 0 => if low 0 then s.want 0 (5 * unit + m) else s
  | 1 => if low 0 && unit < 64 then s.want 1 unit else s
  | 2 => if low 16 && unit < 32 then s.want 2 unit else s
  | _ => s

/-- WEAR_SAMPLE: monitor `unit / 128` of unit `unit % 128` of a group reads its margins, every 10 s; the SVC keeps the samples of 30 days. -/
def execWearSample (group unit wmpd wmrt : Nat) (s : State) : Out :=
  .next (
    let a := csrAddr 12 group (unit % 128) (0x20 + unit / 128)
    if 4 ≤ group || !bankOk group (unit % 128) || monitors group (unit % 128) ≤ unit / 128 then s
    else if s.svc.trend.any (fun x => x.1 = a && s.clk < x.2.1 + tenSeconds) then s
    else
      let s := s.setCsr a (putBits (putBits (s.csr a) 0 16 wmpd) 16 16 wmrt)
      (s.updSvc (fun v => { v with trend := v.trend.filter (fun x => s.clk < x.2.1 + thirtyDays) ++ [(a, s.clk, wmpd % 2 ^ 16, wmrt % 2 ^ 16)] })).margin
        group (unit % 128) (unit / 128))

/-- TELEMETRY_SAMPLE: a value arrives at REG 0x040 + `reg`; one beyond its limit raises the high-priority signal. -/
def execTelemetrySample (reg : Nat) (value : DWord) (high : Bool) (s : State) : Out :=
  .next (
    if 64 ≤ reg then s
    else
      let s := s.setCsr (svcAddr (0x40 + reg)) value.toNat
      if high then s.raiseHigh else s)

/-- The quadrants of the module. -/
def allQuads : List (Nat × Nat × Nat) :=
  (List.range 48).flatMap (fun cl => (List.range 4).flatMap (fun core => (List.range 4).map (fun q => (cl, core, q))))

/-- THERMAL_STOP: every quadrant stops as STOPR would stop it, whatever EN holds. -/
def execThermalStop (s : State) : Out :=
  .next ((allQuads.foldl (fun s x => if s.stopped x.1 x.2.1 x.2.2 && !s.stepping.contains x then s else s.stopQuad x.1 x.2.1 x.2.2 1) s).updSvc
    (fun v => { v with thermal := true }))

/-! ## Background activities (R450) -/

/-- GDDR_REFRESH: it takes time and changes nothing that a program can observe. -/
def execGddrRefresh (_bank : Nat) (s : State) : Out := .next s

/-- MEMORY_SCRUB: the access corrects what it can; an event that it meets, and the row that it marks, come as an ERROR_RECORD of their own. -/
def execMemoryScrub (_sector : Nat) (s : State) : Out := .next s

/-! ## Reset (R411, R463) -/

/-- The registers that hold the spare state, kept across reset (log 15). -/
def spareReg (a : Nat) : Bool := svcAddr 0x10 ≤ a && a < svcAddr 0x18

/-- The machine in its reset state, with the spare state, the quote count, the ports taken down and the bytes of memory kept (log 15), and the root
region: the rows of the soft-repair table are replaced before any unit leaves reset (R461), and the router tables lead to the spare slices in use. -/
def State.afterReset (s : State) : State :=
  (List.range 9).foldl State.writeRoutes { State.reset with
    tick := s.tick
    fresh := s.fresh
    booted := true
    regions := [rootRegion]
    mem := s.mem
    ls := s.ls
    chip := s.chip
    pads := s.pads
    poison := s.poison
    csrs := s.csrs.filter (fun p => spareReg p.1)
    svc := { State.reset.svc with quotes := s.svc.quotes, portsDown := s.svc.portsDown, rows := s.svc.rows.map (fun r => (r.1, r.2.1, r.2.2.1, true)) } }

/-- MODULE_RESET: every unit is in its reset state, and firmware registers the root region. -/
def execModuleReset (s : State) : Out := .next s.afterReset.boot

end Sys2Proof.Machine
end

