-- ==== Sys2Proof/Machine/Dispatch.lean ====
section
/-!
DEFINITION. One arm per constructor of Instr: the instruction's meaning, or its rejection by name.
-/

namespace Sys2Proof.Machine

def exec (i : Instr) (s : State) : Host.Outcome State Fault Refusal :=
  match i with
  | .iadd h f x => Sys2Proof.Machine.execIadd h f x s
  | .isub h f x => Sys2Proof.Machine.execIsub h f x s
  | .imul h f x => Sys2Proof.Machine.execImul h f x s
  | .imulh h f x => Sys2Proof.Machine.execImulh h f x s
  | .imad h f x => Sys2Proof.Machine.execImad h f x s
  | .idiv h f x => Sys2Proof.Machine.execIdiv h f x s
  | .irem h f x => Sys2Proof.Machine.execIrem h f x s
  | .imin h f x => Sys2Proof.Machine.execImin h f x s
  | .imax h f x => Sys2Proof.Machine.execImax h f x s
  | .iabs h f x => Sys2Proof.Machine.execIabs h f x s
  | .ineg h f x => Sys2Proof.Machine.execIneg h f x s
  | .and h f x => Sys2Proof.Machine.execAnd h f x s
  | .or h f x => Sys2Proof.Machine.execOr h f x s
  | .xor h f x => Sys2Proof.Machine.execXor h f x s
  | .not h f x => Sys2Proof.Machine.execNot h f x s
  | .lop3 h f x => Sys2Proof.Machine.execLop3 h f x s
  | .shl h f x => Sys2Proof.Machine.execShl h f x s
  | .shr h f x => Sys2Proof.Machine.execShr h f x s
  | .rot h f x => Sys2Proof.Machine.execRot h f x s
  | .fshf h f x => Sys2Proof.Machine.execFshf h f x s
  | .bfx h f x => Sys2Proof.Machine.execBfx h f x s
  | .bfi h f x => Sys2Proof.Machine.execBfi h f x s
  | .popc h f x => Sys2Proof.Machine.execPopc h f x s
  | .clz h f x => Sys2Proof.Machine.execClz h f x s
  | .ctz h f x => Sys2Proof.Machine.execCtz h f x s
  | .brev h f x => Sys2Proof.Machine.execBrev h f x s
  | .prmt h f x => Sys2Proof.Machine.execPrmt h f x s
  | .lea h f x => Sys2Proof.Machine.execLea h f x s
  | .iaddc h f x => Sys2Proof.Machine.execIaddc h f x s
  | .isad h f x => Sys2Proof.Machine.execIsad h f x s
  | .idp4 h f x => Sys2Proof.Machine.execIdp4 h f x s
  | .movi h f x => Sys2Proof.Machine.execMovi h f x s
  | .fadd h f x => Sys2Proof.Machine.execFadd h f x s
  | .fsub h f x => Sys2Proof.Machine.execFsub h f x s
  | .fmul h f x => Sys2Proof.Machine.execFmul h f x s
  | .ffma h f x => Sys2Proof.Machine.execFfma h f x s
  | .fmin h f x => Sys2Proof.Machine.execFmin h f x s
  | .fmax h f x => Sys2Proof.Machine.execFmax h f x s
  | .fdiv h f x => Sys2Proof.Machine.execFdiv h f x s
  | .fsqrt h f x => Sys2Proof.Machine.execFsqrt h f x s
  | .frcp h f x => Sys2Proof.Machine.execFrcp h f x s
  | .frsq h f x => Sys2Proof.Machine.execFrsq h f x s
  | .fexp2 h f x => Sys2Proof.Machine.execFexp2 h f x s
  | .flog2 h f x => Sys2Proof.Machine.execFlog2 h f x s
  | .fsin h f x => Sys2Proof.Machine.execFsin h f x s
  | .fcos h f x => Sys2Proof.Machine.execFcos h f x s
  | .ftanh h f x => Sys2Proof.Machine.execFtanh h f x s
  | .fsigm h f x => Sys2Proof.Machine.execFsigm h f x s
  | .ffrc h f x => Sys2Proof.Machine.execFfrc h f x s
  | .frnd h f x => Sys2Proof.Machine.execFrnd h f x s
  | .fldx h f x => Sys2Proof.Machine.execFldx h f x s
  | .fcls h f x => Sys2Proof.Machine.execFcls h f x s
  | .hadd2 h f x => Sys2Proof.Machine.execHadd2 h f x s
  | .hmul2 h f x => Sys2Proof.Machine.execHmul2 h f x s
  | .hfma2 h f x => Sys2Proof.Machine.execHfma2 h f x s
  | .hmnx2 h f x => Sys2Proof.Machine.execHmnx2 h f x s
  | .dadd h f x => Sys2Proof.Machine.execDadd h f x s
  | .dmul h f x => Sys2Proof.Machine.execDmul h f x s
  | .dfma h f x => Sys2Proof.Machine.execDfma h f x s
  | .ddiv h f x => Sys2Proof.Machine.execDdiv h f x s
  | .dsqrt h f x => Sys2Proof.Machine.execDsqrt h f x s
  | .fdot2 h f x => Sys2Proof.Machine.execFdot2 h f x s
  | .fdotn h f x => Sys2Proof.Machine.execFdotn h f x s
  | .fmed3 h f x => Sys2Proof.Machine.execFmed3 h f x s
  | .cvt h f x => Sys2Proof.Machine.execCvt h f x s
  | .cvtn h f x => Sys2Proof.Machine.execCvtn h f x s
  | .cvtw h f x => Sys2Proof.Machine.execCvtw h f x s
  | .npack h f x => Sys2Proof.Machine.execNpack h f x s
  | .nunpk h f x => Sys2Proof.Machine.execNunpk h f x s
  | .fmtld h f x => Sys2Proof.Machine.execFmtld h f x s
  | .fmtst h f x => Sys2Proof.Machine.execFmtst h f x s
  | .srseed h f x => Sys2Proof.Machine.execSrseed h f x s
  | .flgrd h f x => Sys2Proof.Machine.execFlgrd h f x s
  | .flgcl h f x => Sys2Proof.Machine.execFlgcl h f x s
  | .isetp h f x => Sys2Proof.Machine.execIsetp h f x s
  | .fsetp h f x => Sys2Proof.Machine.execFsetp h f x s
  | .psetp h f x => Sys2Proof.Machine.execPsetp h f x s
  | .sel h f x => Sys2Proof.Machine.execSel h f x s
  | .mov h f x => Sys2Proof.Machine.execMov h f x s
  | .movs h f x => Sys2Proof.Machine.execMovs h f x s
  | .shfl h f x => Sys2Proof.Machine.execShfl h f x s
  | .ballot h f x => Sys2Proof.Machine.execBallot h f x s
  | .vote h f x => Sys2Proof.Machine.execVote h f x s
  | .matchLanes h f x => Sys2Proof.Machine.execMatchLanes h f x s
  | .redux h f x => Sys2Proof.Machine.execRedux h f x s
  | .scan h f x => Sys2Proof.Machine.execScan h f x s
  | .elect h f x => Sys2Proof.Machine.execElect h f x s
  | .xchgm h f x => Sys2Proof.Machine.execXchgm h f x s
  | .getsr h f x => Sys2Proof.Machine.execGetsr h f x s
  | .quads h f x => Sys2Proof.Machine.execQuads h f x s
  | .bra h f x => Sys2Proof.Machine.execBra h f x s
  | .brx h f x => Sys2Proof.Machine.execBrx h f x s
  | .call h f x => Sys2Proof.Machine.execCall h f x s
  | .callx h f x => Sys2Proof.Machine.execCallx h f x s
  | .ret h f x => Sys2Proof.Machine.execRet h f x s
  | .exit h f x => Sys2Proof.Machine.execExit h f x s
  | .yield h f x => Sys2Proof.Machine.execYield h f x s
  | .nop h f x => Sys2Proof.Machine.execNop h f x s
  | .trap h f x => Sys2Proof.Machine.execTrap h f x s
  | .bkpt h f x => Sys2Proof.Machine.execBkpt h f x s
  | .sleep h f x => Sys2Proof.Machine.execSleep h f x s
  | .mjoin h f x => Sys2Proof.Machine.execMjoin h f x s
  | .mleave h f x => Sys2Proof.Machine.execMleave h f x s
  | .mwait h f x => Sys2Proof.Machine.execMwait h f x s
  | .mset h f x => Sys2Proof.Machine.execMset h f x s
  | .mops h f x => Sys2Proof.Machine.execMops h f x s
  | .bar h f x => Sys2Proof.Machine.execBar h f x s
  | .bararr h f x => Sys2Proof.Machine.execBararr h f x s
  | .barwt h f x => Sys2Proof.Machine.execBarwt h f x s
  | .twait h f x => Sys2Proof.Machine.execTwait h f x s
  | .ttest h f x => Sys2Proof.Machine.execTtest h f x s
  | .sstep h f x => Sys2Proof.Machine.execSstep h f x s
  | .wfi h f x => Sys2Proof.Machine.execWfi h f x s
  | .uiret h f x => Sys2Proof.Machine.execUiret h f x s
  | .uimsk h f x => Sys2Proof.Machine.execUimsk h f x s
  | .ld h f x => Sys2Proof.Machine.execLd h f x s
  | .st h f x => Sys2Proof.Machine.execSt h f x s
  | .ldx h f x => Sys2Proof.Machine.execLdx h f x s
  | .stx h f x => Sys2Proof.Machine.execStx h f x s
  | .ldc h f x => Sys2Proof.Machine.execLdc h f x s
  | .atom h f x => Sys2Proof.Machine.execAtom h f x s
  | .red h f x => Sys2Proof.Machine.execRed h f x s
  | .ldmc h f x => Sys2Proof.Machine.execLdmc h f x s
  | .fence h f x => Sys2Proof.Machine.execFence h f x s
  | .pref h f x => Sys2Proof.Machine.execPref h f x s
  | .cmaint h f x => Sys2Proof.Machine.execCmaint h f x s
  | .gjoin h f x => Sys2Proof.Machine.execGjoin h f x s
  | .tkpost h f x => Sys2Proof.Machine.execTkpost h f x s
  | .tkdep h f x => Sys2Proof.Machine.execTkdep h f x s
  | .tksig h f x => Sys2Proof.Machine.execTksig h f x s
  | .tkwait h f x => Sys2Proof.Machine.execTkwait h f x s
  | .tkcmt h f x => Sys2Proof.Machine.execTkcmt h f x s
  | .tkdis h f x => Sys2Proof.Machine.execTkdis h f x s
  | .cbini h f x => Sys2Proof.Machine.execCbini h f x s
  | .cbpsh h f x => Sys2Proof.Machine.execCbpsh h f x s
  | .cbpop h f x => Sys2Proof.Machine.execCbpop h f x s
  | .cbwt h f x => Sys2Proof.Machine.execCbwt h f x s
  | .cbqry h f x => Sys2Proof.Machine.execCbqry h f x s
  | .evset h f x => Sys2Proof.Machine.execEvset h f x s
  | .amsg h f x => Sys2Proof.Machine.execAmsg h f x s
  | .fetchw h f x => Sys2Proof.Machine.execFetchw h f x s
  | .spawn h f x => Sys2Proof.Machine.execSpawn h f x s
  | .tcpy h f x => Sys2Proof.Machine.execTcpy h f x s
  | .tcpyw h f x => Sys2Proof.Machine.execTcpyw h f x s
  | .mma h f x => Sys2Proof.Machine.execMma h f x s
  | .mmas h f x => Sys2Proof.Machine.execMmas h f x s
  | .mrpg h f x => Sys2Proof.Machine.execMrpg h f x s
  | .stopn h f x => Sys2Proof.Machine.execStopn h f x s
  | .stnxt h f x => Sys2Proof.Machine.execStnxt h f x s
  | .stskp h f x => Sys2Proof.Machine.execStskp h f x s
  | .stsav h f x => Sys2Proof.Machine.execStsav h f x s
  | .strst h f x => Sys2Proof.Machine.execStrst h f x s
  | .stcls h f x => Sys2Proof.Machine.execStcls h f x s
  | .isect h f x => Sys2Proof.Machine.execIsect h f x s
  | .gsx h f x => Sys2Proof.Machine.execGsx h f x s
  | .ssx h f x => Sys2Proof.Machine.execSsx h f x s
  | .ssxa h f x => Sys2Proof.Machine.execSsxa h f x s
  | .ncall h f x => Sys2Proof.Machine.execNcall h f x s
  | .npin h f x => Sys2Proof.Machine.execNpin h f x s
  | .nunpin h f x => Sys2Proof.Machine.execNunpin h f x s
  | .npref h f x => Sys2Proof.Machine.execNpref h f x s
  | .nqry h f x => Sys2Proof.Machine.execNqry h f x s
  | .nflsh h f x => Sys2Proof.Machine.execNflsh h f x s
  | .texn h f x => Sys2Proof.Machine.execTexn h f x s
  | .tex h f x => Sys2Proof.Machine.execTex h f x s
  | .tld h f x => Sys2Proof.Machine.execTld h f x s
  | .tqry h f x => Sys2Proof.Machine.execTqry h f x s
  | .ddx h f x => Sys2Proof.Machine.execDdx h f x s
  | .ddy h f x => Sys2Proof.Machine.execDdy h f x s
  | .rtrace h f x => Sys2Proof.Machine.execRtrace h f x s
  | .rld h f x => Sys2Proof.Machine.execRld h f x s
  | .rst h f x => Sys2Proof.Machine.execRst h f x s
  | .rverd h f x => Sys2Proof.Machine.execRverd h f x s
  | .beam h f x => Sys2Proof.Machine.execBeam h f x s
  | .covrd h f x => Sys2Proof.Machine.execCovrd h f x s
  | .rpool h f x => Sys2Proof.Machine.execRpool h f x s
  | .rqry h f x => Sys2Proof.Machine.execRqry h f x s
  | .segld h f x => Sys2Proof.Machine.execSegld h f x s
  | .segrd h f x => Sys2Proof.Machine.execSegrd h f x s
  | .csrrd h f x => Sys2Proof.Machine.execCsrrd h f x s
  | .csrwr h f x => Sys2Proof.Machine.execCsrwr h f x s
  | .tret h f x => Sys2Proof.Machine.execTret h f x s
  | .parkq h f x => Sys2Proof.Machine.execParkq h f x s
  | .lanepc h f x => Sys2Proof.Machine.execLanepc h f x s
  | .rcbopReg h f x => Sys2Proof.Machine.execRcbopReg h f x s
  | .rcbopRet h f x => Sys2Proof.Machine.execRcbopRet h f x s
  | .rcbopUpd h f x => Sys2Proof.Machine.execRcbopUpd h f x s
  | .rcbopQry h f x => Sys2Proof.Machine.execRcbopQry h f x s
  | .rcbopAdr h f x => Sys2Proof.Machine.execRcbopAdr h f x s
  | .tlbopVa h f x => Sys2Proof.Machine.execTlbopVa h f x s
  | .tlbopAll h f x => Sys2Proof.Machine.execTlbopAll h f x s
  | .tlbopSva h f x => Sys2Proof.Machine.execTlbopSva h f x s
  | .tlbopSid h f x => Sys2Proof.Machine.execTlbopSid h f x s
  | .tlbopPart h f x => Sys2Proof.Machine.execTlbopPart h f x s
  | .svcallAtt h f x => Sys2Proof.Machine.execSvcallAtt h f x s
  | .svcallCert h f x => Sys2Proof.Machine.execSvcallCert h f x s
  | .wtblSync h f x => Sys2Proof.Machine.execWtblSync h f x s
  | .wtblUnpin h f x => Sys2Proof.Machine.execWtblUnpin h f x s
  | .idle h f x => Sys2Proof.Machine.execIdle h f x s
  | .issueSlot => Sys2Proof.Machine.execIssueSlot s
  | .instructionFill core rid blk => Sys2Proof.Machine.execInstructionFill core rid blk s
  | .shortResultLand k => Sys2Proof.Machine.execShortResultLand k s
  | .runaheadLand uid lane tok => Sys2Proof.Machine.execRunaheadLand uid lane tok s
  | .memuePark uid lane => Sys2Proof.Machine.execMemuePark uid lane s
  | .sleepExpire uid lane => Sys2Proof.Machine.execSleepExpire uid lane s
  | .uiDeliver uid => Sys2Proof.Machine.execUiDeliver uid s
  | .faultRecordDeferredWrite rid => Sys2Proof.Machine.execFaultRecordDeferredWrite rid s
  | .faultHandlerStart rid cl core => Sys2Proof.Machine.execFaultHandlerStart rid cl core s
  | .svcFaultService rid => Sys2Proof.Machine.execSvcFaultService rid s
  | .serviceBudgetExceed rid => Sys2Proof.Machine.execServiceBudgetExceed rid s
  | .stepEnd rid => Sys2Proof.Machine.execStepEnd rid s
  | .wdPlaceGang lid cl core => Sys2Proof.Machine.execWdPlaceGang lid cl core s
  | .launchAged lid => Sys2Proof.Machine.execLaunchAged lid s
  | .fetchwServe k => Sys2Proof.Machine.execFetchwServe k s
  | .preempt cl core lid => Sys2Proof.Machine.execPreempt cl core lid s
  | .timeSliceExpire rid cl core => Sys2Proof.Machine.execTimeSliceExpire rid cl core s
  | .shadowSwap cl core => Sys2Proof.Machine.execShadowSwap cl core s
  | .shadowFill cl core => Sys2Proof.Machine.execShadowFill cl core s
  | .spill cl core => Sys2Proof.Machine.execSpill cl core s
  | .gangRetire gid => Sys2Proof.Machine.execGangRetire gid s
  | .regionRetire rid => Sys2Proof.Machine.execRegionRetire rid s
  | .multicastRequestArrive k => Sys2Proof.Machine.execMulticastRequestArrive k s
  | .multicastEntryClose k => Sys2Proof.Machine.execMulticastEntryClose k s
  | .multicastCopyAdvance k => Sys2Proof.Machine.execMulticastCopyAdvance k s
  | .busBeatGrant bus => Sys2Proof.Machine.execBusBeatGrant bus s
  | .busTransferAdvance bus k => Sys2Proof.Machine.execBusTransferAdvance bus k s
  | .drainStart part => Sys2Proof.Machine.execDrainStart part s
  | .drainComplete part => Sys2Proof.Machine.execDrainComplete part s
  | .sliceSpareTakeover slice spare => Sys2Proof.Machine.execSliceSpareTakeover slice spare s
  | .amsgQueueEnter cl core => Sys2Proof.Machine.execAmsgQueueEnter cl core s
  | .amsgRelayAdvance k => Sys2Proof.Machine.execAmsgRelayAdvance k s
  | .amHandlerStart cl core => Sys2Proof.Machine.execAmHandlerStart cl core s
  | .taskFire cl slot unit => Sys2Proof.Machine.execTaskFire cl slot unit s
  | .taskComplete cl slot => Sys2Proof.Machine.execTaskComplete cl slot s
  | .taskCopyIn cl slot => Sys2Proof.Machine.execTaskCopyIn cl slot s
  | .taskCopyOut cl slot => Sys2Proof.Machine.execTaskCopyOut cl slot s
  | .taskCopy cl slot => Sys2Proof.Machine.execTaskCopy cl slot s
  | .taskMma cl slot => Sys2Proof.Machine.execTaskMma cl slot s
  | .taskMmas cl slot => Sys2Proof.Machine.execTaskMmas cl slot s
  | .taskGsx cl slot => Sys2Proof.Machine.execTaskGsx cl slot s
  | .taskSsx cl slot => Sys2Proof.Machine.execTaskSsx cl slot s
  | .taskSsxa cl slot => Sys2Proof.Machine.execTaskSsxa cl slot s
  | .taskXput cl slot => Sys2Proof.Machine.execTaskXput cl slot s
  | .taskXget cl slot => Sys2Proof.Machine.execTaskXget cl slot s
  | .taskXred cl slot => Sys2Proof.Machine.execTaskXred cl slot s
  | .engineSuspend ekind cl obj => Sys2Proof.Machine.execEngineSuspend ekind cl obj s
  | .asuCallBin cl => Sys2Proof.Machine.execAsuCallBin cl s
  | .binAgeDispatch cl bin => Sys2Proof.Machine.execBinAgeDispatch cl bin s
  | .tileEnter cl => Sys2Proof.Machine.execTileEnter cl s
  | .tilePlace cl core => Sys2Proof.Machine.execTilePlace cl core s
  | .tileRowWriteback cl tile => Sys2Proof.Machine.execTileRowWriteback cl tile s
  | .tileFail cl tile code => Sys2Proof.Machine.execTileFail cl tile code s
  | .rayCachePlace cl => Sys2Proof.Machine.execRayCachePlace cl s
  | .callbackWaveStart cl core ray => Sys2Proof.Machine.execCallbackWaveStart cl core ray s
  | .rayComplete cl ray => Sys2Proof.Machine.execRayComplete cl ray s
  | .beamComplete cl k => Sys2Proof.Machine.execBeamComplete cl k s
  | .stnxtDeliver k => Sys2Proof.Machine.execStnxtDeliver k s
  | .pageWalk rid va => Sys2Proof.Machine.execPageWalk rid va s
  | .deadlockWalk => Sys2Proof.Machine.execDeadlockWalk s
  | .fatalFault rid code => Sys2Proof.Machine.execFatalFault rid code s
  | .abortTokenReceive rid peer step orig code => Sys2Proof.Machine.execAbortTokenReceive rid peer step orig code s
  | .abortAgree rid => Sys2Proof.Machine.execAbortAgree rid s
  | .abortTokenTimeout rid peer => Sys2Proof.Machine.execAbortTokenTimeout rid peer s
  | .groupActivate rid => Sys2Proof.Machine.execGroupActivate rid s
  | .rdmaWrite qp rkey va bytes => Sys2Proof.Machine.execRdmaWrite qp rkey va bytes s
  | .rdmaRead qp rkey va len => Sys2Proof.Machine.execRdmaRead qp rkey va len s
  | .roceSend qp bytes => Sys2Proof.Machine.execRoceSend qp bytes s
  | .attach k => Sys2Proof.Machine.execAttach k s
  | .ctxnew k => Sys2Proof.Machine.execCtxnew k s
  | .launch k => Sys2Proof.Machine.execLaunch k s
  | .ctxend k => Sys2Proof.Machine.execCtxend k s
  | .query k => Sys2Proof.Machine.execQuery k s
  | .debugStopr cl core q => Sys2Proof.Machine.execDebugStopr cl core q s
  | .debugResm cl core q => Sys2Proof.Machine.execDebugResm cl core q s
  | .debugStep cl core q => Sys2Proof.Machine.execDebugStep cl core q s
  | .debugDump cl core q => Sys2Proof.Machine.execDebugDump cl core q s
  | .dumpWrite cl core q => Sys2Proof.Machine.execDumpWrite cl core q s
  | .debugWrite cl core tgt => Sys2Proof.Machine.execDebugWrite cl core tgt s
  | .debugRead cl core tgt => Sys2Proof.Machine.execDebugRead cl core tgt s
  | .watchEval => Sys2Proof.Machine.execWatchEval s
  | .sampleTag cl core q wait => Sys2Proof.Machine.execSampleTag cl core q wait s
  | .registerWrite addr data => Sys2Proof.Machine.execRegisterWrite addr data s
  | .coreSpareMigrate cl core => Sys2Proof.Machine.execCoreSpareMigrate cl core s
  | .channelSpareMigrate ch spare => Sys2Proof.Machine.execChannelSpareMigrate ch spare s
  | .laneSpareRetrain port => Sys2Proof.Machine.execLaneSpareRetrain port s
  | .sparesExhausted kind unit => Sys2Proof.Machine.execSparesExhausted kind unit s
  | .errorRecord group unit ue consumed src addr info => Sys2Proof.Machine.execErrorRecord group unit ue consumed src addr info s
  | .wearSample group unit wmpd wmrt => Sys2Proof.Machine.execWearSample group unit wmpd wmrt s
  | .telemetrySample reg value high => Sys2Proof.Machine.execTelemetrySample reg value high s
  | .thermalStop => Sys2Proof.Machine.execThermalStop s
  | .gddrRefresh bank => Sys2Proof.Machine.execGddrRefresh bank s
  | .memoryScrub sector => Sys2Proof.Machine.execMemoryScrub sector s
  | .moduleReset => Sys2Proof.Machine.execModuleReset s
  | .admissionChecksComplete uid lane => Sys2Proof.Machine.execAdmissionChecksComplete uid lane s
  | .fabricMessageArrive msg => Sys2Proof.Machine.execFabricMessageArrive msg s
  | .retransmissionTimeout c => Sys2Proof.Machine.execRetransmissionTimeout c s
  | .priorityFlowControl port prio pause => Sys2Proof.Machine.execPriorityFlowControl port prio pause s
  | .stallCounterIncrement addr => Sys2Proof.Machine.execStallCounterIncrement addr s
  | .multicastFill slice k => Sys2Proof.Machine.execMulticastFill slice k s

end Sys2Proof.Machine
end

