-- ==== Sys2Proof/Machine/Step.lean ====
section
/-!
DEFINITION. One step of the machine: a packet of the slot executes its instruction; with none left, the next event happens (log 4).
-/

namespace Sys2Proof.Machine

/-- Counts a step. -/
def counted (o : Host.Outcome State Fault Refusal) : Host.Outcome State Fault Refusal :=
  match o with
  | .next s => .next { s with tick := s.tick + 1 }
  | .fault f => .fault f
  | .refused r => .refused r

/-- One step. The packet at the head of the slot is fetched, checked and executed, or its threads park with the fault of its fetch (R81, R101).
With no packet left, an agent or an input acts. -/
def step (s : State) : Host.Outcome State Fault Refusal :=
  match s.packets with
  | p :: ps =>
    match s.packetInstr p with
    | .ok i => counted (exec i s)
    | .error f => counted (.next ((({ s with packets := ps } : State).fetchFault p f).endSlot))
  | [] => counted (exec (Config.nextEvent s.tick) s)

/-- The wave of the root region in which the host's instruction runs: one lane, every register name legal (log 22). -/
def probeWave (uid : Nat) (pc : Nat) : Wave :=
  startWave uid ⟨0, 0, 0, 14, .active⟩ (.callback []) 0 1 pc 256 192 true (segsFor rootRegion (0, 2 ^ 56 - 1) (0, 0) (0, 0) (0, 0) 0 (0, 0)) []

/-- The state with an instruction placed where step fetches its next one: at device address 0x10000, in the packet at the head of the slot, whose
one thread is lane 0 of a wave of the root region, with a physical address space. -/
def State.withFetchWord (s : State) (nbits w : Nat) : State :=
  let pc := 0x10000
  let uid := s.fresh
  { s with
    fresh := uid + 1
    booted := true
    regions := { rootRegion with ptroot := none } :: s.regions.filter (fun r => r.rid ≠ 0)
    waves := probeWave uid pc :: s.waves.filter (fun v => v.uid ≠ uid)
    icache := s.icache.filter (fun b => b.blk ≠ pc / 32)
    poison := s.poison.filter (fun l => l ≠ Loc.sec (.dev pc .rc))
    mem := writeBytes s.mem pc (leBytes 16 (w % 2 ^ nbits))
    packets := [⟨0, 0, 0, BitVec.ofNat 56 pc, [(uid, [0])]⟩] }

end Sys2Proof.Machine
end

