-- ==== Sys2Proof/Safety.lean ====
section
/-!
DEFINITION. The terms in which claims speak of runs and of states: the canonical form of the memories, runs that go on, and what a packet of one
thread is.
-/

namespace Sys2Proof.Machine

/-! ## Memory -/

/-- A memory of bytes is in its canonical form. -/
abbrev Memory.wf (m : Sparse Byte) : Bool := Sparse.wf 0 m

/-- Every memory of the machine, and the pad bits of local store, are in canonical form. -/
def State.memOk (s : State) : Bool :=
  Memory.wf s.mem && Memory.wf s.ls && Memory.wf s.chip && Sparse.wf false s.pads

/-! ## Runs -/

/-- The machine answers a next state. -/
def Goes (o : Host.Outcome State Fault Refusal) : Prop := ∃ t, o = .next t

/-- A safe state: its step answers a next state. -/
def Safe (s : State) : Prop := Goes (step s)

/-! ## The packet that executes -/

/-- The slot's next packet holds the lanes `ls` of wave `w`, launched and each once, at `pc`; and if it is the last packet of the slot, no resumption
waits for the slot's end (R194). -/
structure Group (s : State) (w : Wave) (ls : List Nat) (pc : VA) : Prop where
  head : ∃ p ps, s.packets = p :: ps ∧ p.pc = pc ∧ p.waves = [(w.uid, ls)]
  wave : s.wave? w.uid = some w
  once : ls.Nodup
  launched : ∀ l ∈ ls, (w.thread l).st ≠ .notLaunched
  quiet : s.packets.length = 1 → s.tretQ = []

/-- A wave may execute an encoding: its registers exist (R101), and the instruction is not privileged or the wave is. -/
structure Able (e : Enc) (w : Wave) : Prop where
  regs : e.check5 w.V w.S = true
  mode : e.priv = true → w.priv = true

/-- The lanes whose guard is true (R79). -/
def guarded (e : Enc) (w : Wave) (ls : List Nat) : List Nat := ls.filter (fun l => guardOn e.h (w.thread l))

/-- The packet is taken from the slot, and its threads have age 0 (R31); the step names the packet of those that do not issue again an access that has waited. -/
def State.taken (s : State) (w : Wave) (ls : List Nat) : State :=
  ({ s with packets := s.packets.tail } : State).updWave w.uid (fun w => ls.foldl (fun w l => w.updThread l (fun t => { t with age := 0, pkt := if t.hseg.isSome then t.pkt else s.tick })) w)

/-- The privileged instructions (R99). -/
def privileged (i : Instr) : Bool :=
  match i with
  | .segld .. | .csrrd .. | .csrwr .. | .tret .. | .parkq .. | .lanepc .. | .rcbopReg .. | .rcbopRet .. | .rcbopUpd .. | .rcbopQry .. | .rcbopAdr ..
  | .tlbopVa .. | .tlbopAll .. | .tlbopSva .. | .tlbopSid .. | .tlbopPart .. | .wtblSync .. | .wtblUnpin .. | .idle .. | .spawn .. => true
  | _ => false

/-- The state in which the lanes execute: the packet is taken from the slot, its threads have age 0, and those whose guard is false have passed the
instruction. -/
def State.begun (s : State) (e : Enc) (w : Wave) (ls : List Nat) (pc : VA) : State :=
  (ls.filter (fun l => !guardOn e.h (w.thread l))).foldl (fun s l => s.resume w.uid l (nextPc pc e.h.len) false) (s.taken w ls)

/-- What a meaning knows of the packet. -/
def ctxOf (e : Enc) (w : Wave) (ls : List Nat) (pc : VA) : Ctx := ⟨e, w.uid, pc, nextPc pc e.h.len, ls, guarded e w ls⟩

/-! ## What an instruction that only computes leaves -/

/-- Once every result on its way has been written, `n` registers of kind `k` from `first` hold the number `x`, the first its low word. -/
def Holds (t : State) (uid lane : Nat) (k : Kind) (first n x : Nat) : Prop :=
  ∀ i, i < n → t.finalReg uid (match k with | .v => .v (first + i) lane | _ => .s (first + i)) = BitVec.ofNat 32 (x / 2 ^ (32 * i))

/-- Is a register among `n` registers of kind `k` from `first`, of lane `lane` for vector registers? -/
def inRegs (lane : Nat) (k : Kind) (first n : Nat) (r : RegRef) : Bool :=
  match r with
  | .v i l => k == .v && l == lane && decide (first ≤ i) && decide (i < first + n)
  | .s i => k != .v && decide (first ≤ i) && decide (i < first + n)

/-- Two states agree on all but the packets of the slot, the waves, the results on their way, and the outputs of calls that those results
replace: on every memory, every control register, every region, record and launch, and every unit but the calls. -/
def SameMachine (s t : State) : Prop :=
  t = { s with packets := t.packets, waves := t.waves, pend := t.pend, asu := t.asu }

/-- The kind of register that an instruction writes: scalars under U = 1 (R141). -/
def resKind (e : Enc) : Kind := if e.h.u then .s else .v

/-- The lanes of a packet computed: lane `l` has the result `g l`; under U = 1 it is the same for every lane. -/
structure Computed (s t : State) (e : Enc) (w : Wave) (ls : List Nat) (pc : VA) (g : Nat → Res) : Prop where
  /-- the result's registers -/
  result : ∀ l ∈ guarded e w ls, Holds t w.uid l (resKind e) e.h.d.toNat (g l).n (g l).val
  /-- every other register -/
  kept : ∀ u r, (∀ l ∈ guarded e w ls, u = w.uid → inRegs l (resKind e) e.h.d.toNat (g l).n r = false) → t.finalReg u r = s.finalReg u r
  /-- the predicates -/
  preds : ∀ l ∈ guarded e w ls, (t.thread w.uid l).p = ((g l).preds.foldl (fun t p => t.setPred p.1 p.2) (w.thread l)).p
  /-- the flags: in the flag word at once where the instruction has no register result, else when the result is written (R136) -/
  flags : ∀ l ∈ guarded e w ls, (t.thread w.uid l).fl = if (g l).n = 0 then (w.thread l).fl ||| (g l).flags else (w.thread l).fl
  /-- those set when the result is written ride with it -/
  later : ∀ l ∈ guarded e w ls, (g l).n ≠ 0 → (g l).flags ≠ 0 → ∃ p ∈ t.pend, p.uid = w.uid ∧ (l, (g l).flags) ∈ p.flags
  /-- and those of one register of several ride with it, for that register alone (R23, R137) -/
  each : ∀ l ∈ guarded e w ls, ∀ x ∈ (g l).regFlags e l, ∃ p ∈ t.pend, p.uid = w.uid ∧ (∃ y, (x.1, y) ∈ p.regs) ∧ x ∈ p.rflags
  /-- every thread of the packet goes on after the instruction -/
  pc : ∀ l ∈ ls, (t.thread w.uid l).pc = nextPc pc e.h.len
  /-- the other threads -/
  threads : ∀ u l, ¬(u = w.uid ∧ l ∈ ls) → t.thread u l = s.thread u l
  rest : SameMachine s t

/-- The lanes of a packet gave the wave one result of `n` scalars, with flags for each lane (R164, R166, R167). -/
structure GivesScalars (s t : State) (e : Enc) (w : Wave) (ls : List Nat) (pc : VA) (n x : Nat) (fl : Flags) : Prop where
  /-- the result's registers, whatever an earlier arrival had on its way there -/
  result : Holds t w.uid 0 .s e.h.d.toNat n x
  /-- every other register -/
  kept : ∀ u r, (u = w.uid → inRegs 0 .s e.h.d.toNat n r = false) → t.finalReg u r = s.finalReg u r
  /-- every predicate, and every flag word until the result is written -/
  preds : ∀ u l, (t.thread u l).p = (s.thread u l).p ∧ (t.thread u l).fl = (s.thread u l).fl
  /-- the flags, of each lane whose guard is true, are set when the result is written -/
  later : fl ≠ 0 → ∀ l ∈ guarded e w ls, ∃ p ∈ t.pend, p.uid = w.uid ∧ (l, fl) ∈ p.flags
  /-- every thread of the packet goes on after the instruction -/
  pc : ∀ l ∈ ls, (t.thread w.uid l).pc = nextPc pc e.h.len
  /-- the other threads -/
  threads : ∀ u l, ¬(u = w.uid ∧ l ∈ ls) → t.thread u l = s.thread u l
  rest : SameMachine s t

/-- The result of a lane of a packet that computes: its own, or that of the lowest lane under U = 1 (R141). -/
def resIn (e : Enc) (w : Wave) (ls : List Nat) (G : Nat → Res) (l : Nat) : Res :=
  if e.h.u then G ((guarded e w ls).head?.getD 0) else G l

/-- An instruction computes `g` under the condition `P`: on every packet that may execute it and whose state satisfies `P`, the machine goes on, and
each lane whose guard is true has the result of `g`. No thread of the packet has an access that has waited: only an instruction of memory issues again. -/
def ComputesIf (i : Instr) (P : Ctx → State → Prop) (g : Ctx → State → Nat → Res) : Prop :=
  ∀ e s w ls pc, encOf i = some e → Group s w ls pc → Able e w → guarded e w ls ≠ [] → (∀ l ∈ ls, (w.thread l).hseg = none) →
    P (ctxOf e w ls pc) (s.begun e w ls pc) →
    ∃ t, exec i s = .next t ∧ Computed s t e w ls pc (resIn e w ls (g (ctxOf e w ls pc) (s.begun e w ls pc)))

/-- An instruction computes `g` whatever the state. -/
def Computes (i : Instr) (g : Ctx → State → Nat → Res) : Prop := ComputesIf i (fun _ _ => True) g

/-! ## What an instruction does in a packet -/

/-- The state in which the lanes of one wave of a packet execute: its threads have age 0, and those whose guard is false have passed the instruction. -/
def State.started (s : State) (e : Enc) (w : Wave) (ls : List Nat) (pc : VA) : State :=
  (ls.filter (fun l => !guardOn e.h (w.thread l))).foldl (fun s l => s.resume w.uid l (nextPc pc e.h.len) false)
    (s.updWave w.uid (fun w => ls.foldl (fun w l => w.updThread l (fun t => { t with age := 0, pkt := if t.hseg.isSome then t.pkt else s.tick })) w))

/-- Before a packet of writes executes, the writes that it makes to one sector are bound together (R203, R209). -/
def slotStart (i : Instr) (e : Enc) (s : State) : State :=
  match i with
  | .st _ f _ | .stx _ f _ => s.packed e (fun c s l => s.access c f l true 0)
  | .atom _ f _ | .red _ f _ => s.packed e (fun c s l => s.access c f l true (szBytes f.sz))
  | .rst _ f _ => s.packed e (rstPlaces f)
  | _ => s

/-- After a packet of writes, those to peers are sent together; after a packet that may trigger bins, those of a slot that is over enter the tile buffers (R351). -/
def slotEnd (i : Instr) (s : State) : State :=
  match i with
  | .st .. | .stx .. | .atom .. | .red .. | .rst .. => (s.setPack []).flushPeers
  | .exit .. | .twait .. | .sstep .. => s.settleSlot
  | _ => s

/-- One wave of a packet: the lanes whose guard is true do `F`. -/
def waveDo (e : Enc) (F : Ctx → State → State) (pc : VA) (s : State) (q : Nat × List Nat) : State :=
  match s.wave? q.1 with
  | none => s
  | some w => if guarded e w q.2 = [] then s.started e w q.2 pc else F (ctxOf e w q.2 pc) (s.started e w q.2 pc)

/-- Every wave of a packet may execute the instruction, and `M` holds as its lanes do. -/
def WavesMeet (e : Enc) (M : Ctx → State → Prop) (F : Ctx → State → State) (pc : VA) : State → List (Nat × List Nat) → Prop
  | _, [] => True
  | s, q :: qs =>
    (∃ w, s.wave? q.1 = some w ∧ Able e w ∧ (guarded e w q.2 ≠ [] → M (ctxOf e w q.2 pc) (s.started e w q.2 pc))) ∧
      WavesMeet e M F pc (waveDo e F pc s q) qs

/-- What an instruction does in a packet of any waves and lanes: where `M` holds in each wave, the machine goes on, the waves do `F` one after another, lower slots
first (R203), and the slot ends if the packet was its last. -/
def PacketDoes (i : Instr) (M : Ctx → State → Prop) (F : Ctx → State → State) : Prop :=
  ∀ e s p ps, encOf i = some e → s.packets = p :: ps →
    WavesMeet e M F p.pc { slotStart i e s with packets := ps } p.waves →
    exec i s = .next (slotEnd i (p.waves.foldl (waveDo e F p.pc) { slotStart i e s with packets := ps }).endSlot)

/-- A lane has completed: where its packet has had an access that waited, lanes of the packet that have met faults may now park (R35). -/
def State.lanePassed (s t : State) (c : Ctx) : State := t.failLanes c (s.again c) []

/-- The lanes of a wave in order, each with the effect `f` (R203). -/
def lanesDo {α : Type} (f : Ctx → State → Nat → State × α) (c : Ctx) : State → List Nat → State × List (Nat × α)
  | s, [] => (s, [])
  | s, l :: ls => ((lanesDo f c (f c s l).1 ls).1, (l, (f c s l).2) :: (lanesDo f c (f c s l).1 ls).2)

/-- `P` holds of each lane as its turn comes. -/
def LanesMeet {α : Type} (P : Ctx → State → Nat → Prop) (f : Ctx → State → Nat → State × α) (c : Ctx) : State → List Nat → Prop
  | _, [] => True
  | s, l :: ls => P c s l ∧ LanesMeet P f c (f c s l).1 ls

/-- The lanes of a wave have the effect `f` one after another; then their outcomes are taken, and `post` follows. -/
def eachLane (f : Ctx → State → Nat → State × LaneOut) (post : Ctx → State → State) (c : Ctx) (s : State) : State :=
  let r := lanesDo f c s c.on
  post c (r.1.lanePassed (r.2.foldl (fun s x => s.finishLane c x.1 x.2) r.1) c)

/-- An instruction completes: on every packet whose waves may execute it and whose lanes satisfy `P` as their turn comes, the machine goes on; each thread has
the effect `f` on the machine and completes with its outcome, and `post` follows. -/
def Does (i : Instr) (P : Ctx → State → Nat → Prop) (f : Ctx → State → Nat → State × LaneOut) (post : Ctx → State → State) : Prop :=
  PacketDoes i (fun c s => LanesMeet P f c s c.on) (eachLane f post)

/-- A uniform instruction's scalars are issued once, with the flags of each thread, and the threads go on with the predicates, or in the state. Scalars of an
uncorrectable sector stay unwritten (R201). -/
def State.finishUni (s : State) (c : Ctx) (o : UniOut) : State :=
  if o.sregs.isEmpty || o.ue.isSome then c.on.foldl (fun s l => s.finishLane c l { preds := o.preds, flags := o.flags, st := o.st, ue := o.ue }) s
  else c.on.foldl (fun s l => s.finishLane c l { preds := o.preds, st := o.st })
    (s.addPend ⟨c.uid, c.on, o.sregs, if o.flags = 0 then [] else c.on.map (fun l => (l, o.flags)), none, o.rflags⟩)

/-- The lowest lane of a wave, as the reading thread, has the effect `f` for all; then the outcome is taken, and `post` follows (R34). -/
def onceFor (f : Ctx → State → Nat → State × UniOut) (post : Ctx → State → State) (c : Ctx) (s : State) : State :=
  match c.on with
  | [] => s
  | l :: _ => post c ((f c s l).1.lanePassed ((f c s l).1.finishUni c (f c s l).2) c)

/-- As Does, for an instruction that executes once in the wave (R34): `P` holds of its reading thread. -/
def DoesOnce (i : Instr) (P : Ctx → State → Nat → Prop) (f : Ctx → State → Nat → State × UniOut) (post : Ctx → State → State) : Prop :=
  PacketDoes i (fun c s => ∀ l, c.on.head? = some l → P c s l) (onceFor f post)

/-- An instruction of a whole packet: where the state satisfies `P`, the lanes of each wave have the effect `f` on the machine, and their outcomes
are taken. -/
def DoesAll (i : Instr) (P : Ctx → State → Prop) (f : Ctx → State → State × WaveOut) : Prop :=
  PacketDoes i P (fun c s => (f c s).1.commit c (f c s).2)

/-- An instruction faults: where every lane satisfies `P`, all are parked at the instruction, each with its fault `f` (R35), and `post` follows. -/
def FaultsThen (i : Instr) (P : Ctx → State → Nat → Prop) (f : Ctx → State → Nat → LFault) (post : Ctx → State → State) : Prop :=
  PacketDoes i (fun c s => ∀ l ∈ c.on, P c s l) (fun c s => post c (s.failLanes c (s.again c) (c.on.map (fun l => (l, f c s l)))))

/-- As FaultsThen, where nothing follows. -/
def Faults (i : Instr) (P : Ctx → State → Nat → Prop) (f : Ctx → State → Nat → LFault) : Prop := FaultsThen i P f (fun _ s => s)

/-- The accesses of a lane's effect are over: what it has seen is in its view, and its reads of peers are answered. -/
def State.accessed (s : State) (c : Ctx) (l : Nat) : State := (s.laneDone c.uid l).dropReads (.lane c.uid l)

/-- The effect of the lane that acts, with the scalars of its wave as its instruction first found them (R74), and its accesses over. -/
def acting {α : Type} (f : Ctx → State → Nat → State × α) (c : Ctx) (s : State) (l : Nat) : State × α :=
  let r := s.asIssued c.uid l (fun s => f c (s.asLane c.uid l) l)
  (r.1.accessed c l, r.2)

/-- What an effect of the acting lane rests on. -/
def whenActing (P : Ctx → State → Nat → Prop) (c : Ctx) (s : State) (l : Nat) : Prop :=
  (s.asIssued c.uid l (fun s => (s, P c (s.asLane c.uid l) l))).2

/-- As Does, for an effect that accesses memory: the thread is the acting agent. -/
def DoesMem (i : Instr) (P : Ctx → State → Nat → Prop) (f : Ctx → State → Nat → State × LaneOut) (post : Ctx → State → State) : Prop :=
  Does i (whenActing P) (acting f) post

/-- As DoesOnce, for an effect that accesses memory. -/
def DoesOnceMem (i : Instr) (P : Ctx → State → Nat → Prop) (f : Ctx → State → Nat → State × UniOut) (post : Ctx → State → State) : Prop :=
  DoesOnce i (whenActing P) (acting f) post

/-- What a lane leaves whose access meets a fault, with what it has done before, `f`: every access that it has asked of a peer is over, and an uncorrectable sector that it has met is noted for
its error bank (R464). -/
def faulting (f : Ctx → State → Nat → State × LFault) (c : Ctx) (s : State) (l : Nat) : State × LFault :=
  let r := s.asIssued c.uid l (fun s => f c (s.asLane c.uid l) l)
  (((r.1.laneDone c.uid l).dropRops (.lane c.uid l)).meetUeAt (s.ridOf c.uid) r.2, r.2)

/-- As FaultsThen, for an instruction that may access memory: each thread is the acting agent in its turn. The faults are such as do not make the access wait. -/
def FaultsMemThen (i : Instr) (P : Ctx → State → Nat → Prop) (f : Ctx → State → Nat → State × LFault) (post : Ctx → State → State) : Prop :=
  PacketDoes i
    (fun c s => LanesMeet (fun c s l => whenActing P c s l ∧ (faulting f c s l).2.holds = false) (faulting f) c s c.on)
    (fun c s =>
      let r := lanesDo (faulting f) c s c.on
      post c (r.1.failLanes c (r.1.again c) r.2))

/-- As FaultsMemThen, where nothing follows. -/
def FaultsMem (i : Instr) (P : Ctx → State → Nat → Prop) (f : Ctx → State → Nat → State × LFault) : Prop := FaultsMemThen i P f (fun _ s => s)

/-- As FaultsMem, for an instruction that executes once in the wave: every thread of the wave in the packet parks at the instruction (R34, R202). -/
def FaultsOnceMem (i : Instr) (P : Ctx → State → Nat → Prop) (f : Ctx → State → Nat → State × LFault) : Prop :=
  PacketDoes i (fun c s => ∀ l, c.on.head? = some l → whenActing P c s l ∧ (faulting f c s l).2.holds = false)
    (fun c s => match c.on with
      | [] => s
      | l :: _ =>
        let t := (c.all.filter (fun k => !c.on.contains k)).foldl (fun s k => s.updThread c.uid k (fun t => { t with pc := c.pc })) (faulting f c s l).1
        t.failLanes c (t.again c) (c.all.map (fun k => (k, (faulting f c s l).2))))

/-- As DoesMem, for an instruction issued quad-whole (R33): no lane's access waits as the packet finds the machine. -/
def DoesQuad (i : Instr) (P : Ctx → State → Nat → Prop) (f : Ctx → State → Nat → State × LaneOut) : Prop :=
  PacketDoes i (fun c s => (∀ l ∈ c.on, whenActing P c s l) ∧ LanesMeet (whenActing P) (acting f) c s c.on) (eachLane (acting f) (fun _ s => s))

/-- No condition. -/
def always (_ : Ctx) (_ : State) (_ : Nat) : Prop := True

/-- Nothing follows. -/
def noPost (_ : Ctx) (s : State) : State := s

/-- An access stops with a fault, and has no other effect. -/
def stopsWith (f : Ctx → State → Nat → LFault) (c : Ctx) (s : State) (l : Nat) : State × LFault := (s, f c s l)

/-! ## The checks of an access (R63) -/

/-- The offset of an access, its size and its segment stand inside the segment's limit and, on chip, inside the allocation of the launch (R63 steps 1 and 2, R65). -/
def inBounds (s : State) (w : Wave) (seg o n : Nat) : Prop :=
  let g := w.seg seg
  let a := (segBaseOf g + o) % 2 ^ 56
  o + n ≤ segLimit g ∧ (2 ≤ seg ∧ seg ≤ 4 → (s.allocOf w seg).1 ≤ a ∧ a + n ≤ (s.allocOf w seg).1 + (s.allocOf w seg).2)

/-- An access of `n` bytes lies in one sector, and an atomic or a record (`align` not 0) at its alignment (R69, R199). -/
def aligned (w : Wave) (seg o n align : Nat) : Prop :=
  let a := if seg = 5 then o else segBaseOf (w.seg seg) + o
  (align ≠ 0 → o % align = 0 ∧ (seg = 5 → n ≤ 4)) ∧ (n ≤ 32 → a / 32 = (a + (n - 1)) / 32)

/-! ## Synchronisation -/

/-- The wave of a packet. -/
def waveOf (c : Ctx) (s : State) : Wave := (s.wave? c.uid).getD default

/-- The wave of a packet, with the segments as a lane's instruction first found them (R74). -/
def issuedOf (c : Ctx) (s : State) (l : Nat) : Wave := (s.issued? c.uid l).getD default

/-- The value that an instruction of R176 gives mask D. -/
def maskResult (i : Instr) (h : Hdr) (f : CodeFn) (c : Ctx) (s : State) (w : Wave) : LaneMask :=
  match i with
  | .mjoin .. => w.mask h.d.toNat ||| maskOf c.on
  | .mleave .. => w.mask h.d.toNat &&& ~~~(maskOf c.on)
  | .mset .. => if f.code = 0 then s.mask4 c.uid h.a.toNat else if f.code = 1 then 0 else w.m0
  | _ => mopsVal f.code.toNat (w.mask h.a.toNat) (w.mask h.b.toNat)

/-- The conditions of an arrival at a named barrier (R180, R181): the barrier and the wave set exist in the workgroup, and no check of the arrival
fails. -/
def arrives (b : Nat) (h : Hdr) (c : Ctx) (s : State) (l : Nat) : Prop :=
  let w := waveOf c s
  let n := (s.workgroup w.gid w.gangwg).length
  let B := s.srcCount c l .b % 2 ^ 16
  (s.wave? c.uid).isSome ∧ b < w.nbar ∧ B < 2 ^ n ∧
    arriveFail (s.bar w.gid w.gangwg b) (resolveW B n) h.c.toNat w.uid w.widx l (w.mask h.c.toNat) = none

/-- The barrier with an arrival recorded. -/
def arrived (b : Nat) (h : Hdr) (c : Ctx) (s : State) (l : Nat) : State :=
  let w := waveOf c s
  let n := (s.workgroup w.gid w.gangwg).length
  s.setBar (arriveAt (s.bar w.gid w.gangwg b) (resolveW (s.srcCount c l .b % 2 ^ 16) n) h.c.toNat w.uid l (w.mask h.c.toNat) (w.thread l).vw.hb)

/-! ## Engines -/

/-- A direct form may post the record `r`: its token is free, every buffer it names is held by the gang, and the record passes its checks (R273, R315). -/
def postsDirect (tok : Option Nat) (r : Nat) (lrec : Option Nat) (bad : State → Task → Bool) (c : Ctx) (s : State) (l : Nat) : Prop :=
  let w := waveOf c s
  (∀ p ∈ ((recIns r) ++ [recOut r]).filterMap id, s.holds w.gid p.1 = true) ∧ s.recordBad w r = false ∧
    bad s (s.newTask w l ((s.freeSlot w.cl).getD 0) r tok true (0, 0, 0) (some r) lrec) = false

/-- The task posted in the lowest free slot, pC set, and the thread in admission; with no free slot pC is cleared (R315). -/
def posted (tok : Option Nat) (r : Nat) (lrec : Option Nat) (c : Ctx) (s : State) (l : Nat) : State × LaneOut :=
  match s.freeSlot (waveOf c s).cl with
  | none => (s, { preds := [(c.e.h.c.toNat, false)], st := admitted c })
  | some slot => (s.postTask (s.newTask (waveOf c s) l slot r tok true (0, 0, 0) (some r) lrec), { preds := [(c.e.h.c.toNat, true)], st := admitted c })

/-- The task that A names is current, and is `t`. -/
def names (t : Task) (c : Ctx) (s : State) (l : Nat) : Prop :=
  (s.wave? c.uid).isSome ∧ s.taskOf (waveOf c s).cl (s.taskId c l) = .current t

/-- The wave's gang holds buffer `cb`, which is `x`. -/
def hasCbuf (cb : Nat) (x : Cbuf) (c : Ctx) (s : State) : Prop :=
  (s.wave? c.uid).isSome ∧ s.holds (waveOf c s).gid cb = true ∧ s.cbuf? (waveOf c s).cl cb = some x

/-! ## Short results -/

/-- The flags that the landing of a short result raises in a lane: those of the lane, those of its registers, and, for a scalar's, those of every owner (R23, R136). -/
def Pend.raised (p : Pend) (l : Nat) : List Flags :=
  ((p.flags.filter (fun f => f.1 = l)).map (fun f => f.2)) ++
    ((p.rflags.filter (fun f => match f.1 with | .v _ k => k = l | .s _ => p.owners.contains l)).map (fun f => f.2))

/-! ## Packets of a network (R408) -/

/-- A packet has come on its connection: one marked for congestion gets its notice, and the connection awaits the next. -/
def State.heard (s : State) (c : Conn) (p : Pkt) : State :=
  let s := if p.ce then s.send (.cnp c) else s
  s.updLink (fun l => { l with psns := l.psns.filter (fun x => x.1 ≠ c) ++ [(c, (p.psn % 2 ^ 24 + 1) % 2 ^ 24)] })

/-- The packet is the one that its connection awaits, or its first, and comes by a port that is up (R463). -/
def State.awaits (s : State) (c : Conn) (p : Pkt) : Prop :=
  s.svc.portsDown.contains (s.connPort c).1 = false ∧
  let s := if p.ce then s.send (.cnp c) else s
  ((s.link.psns.find? (fun x => x.1 = c)).map (fun x => x.2)).getD (p.psn % 2 ^ 24) = p.psn % 2 ^ 24

/-- Two bytes have one place: one sector, and one offset in it. -/
def Loc.at (p q : Loc) : Prop := p.sec = q.sec ∧ p.off = q.off

end Sys2Proof.Machine
end

