-- ==== Sys2Proof/Certificates/Slice0/Obligations.lean ====
section
/-!
DEFINITION. The statements for the provers.
-/

open Sys2Proof Sys2Proof.Machine

/-! ## Computing families -/

/-- Every row of R142, and of R146, completes on every packet with the result of its operation, narrowed under R143, in the registers of D, and its predicate
output (R145). The named results stand in Integer.lean, each with its rule. -/
def Obligations.IntegerAndBitRowsCompute : Prop :=
  ∀ (h : Hdr) (f : IntFn) (g : LutFn) (x : BitVec 64),
    Computes (.iadd h f x) (addRes f) ∧ Computes (.isub h f x) (subRes f) ∧ Computes (.imul h f x) (mulRes f) ∧
    Computes (.imulh h f x) (mulhRes f) ∧ Computes (.imad h f x) (madRes f) ∧ Computes (.idiv h f x) (divRes f) ∧
    Computes (.irem h f x) (remRes f) ∧ Computes (.imin h f x) (minRes f) ∧ Computes (.imax h f x) (maxRes f) ∧
    Computes (.iabs h f x) (absRes f) ∧ Computes (.ineg h f x) (negRes f) ∧ Computes (.iaddc h f x) (addcRes f) ∧
    Computes (.isad h f x) (sadRes f) ∧ Computes (.idp4 h f x) (dp4Res f) ∧ Computes (.lea h f x) (leaRes f) ∧
    Computes (.movi h f x) (moviRes f) ∧
    Computes (.and h f x) (logicRes (fun a b => a &&& b) f) ∧ Computes (.or h f x) (logicRes (fun a b => a ||| b) f) ∧
    Computes (.xor h f x) (logicRes (fun a b => a ^^^ b) f) ∧ Computes (.not h f x) (notRes f) ∧
    Computes (.lop3 h g x) (fun c s l =>
      { val := lop3Of g.lut.toNat (s.srcInt c l .a .b32) (s.srcInt c l .b .b32) (s.srcInt c l .c .b32), n := 1 }) ∧
    Computes (.shl h f x) (shlRes f) ∧ Computes (.shr h f x) (shrRes f) ∧ Computes (.rot h f x) (rotRes f) ∧
    Computes (.fshf h f x) (fshfRes f) ∧ Computes (.bfx h f x) (bfxRes f) ∧ Computes (.bfi h f x) (bfiRes f) ∧
    Computes (.popc h f x) (countRes popCount f) ∧ Computes (.clz h f x) (countRes clzOf f) ∧ Computes (.ctz h f x) (countRes ctzOf f) ∧
    Computes (.brev h f x) (brevRes f) ∧ Computes (.prmt h f x) (prmtRes f)

/-- Every float row of R148 of one result completes on every packet with the result of its operation, SAT applied, and its flags. The value of an
approximate function inside its bound (log 11), NX of the exact subnormal reciprocal of a power of two (log 98), the zero of FFRC (log 18), and flags under FZ
where two rules differ (log 41) are the model's choices. -/
def Obligations.FloatRowsCompute : Prop :=
  ∀ (h : Hdr) (f : FltFn) (x : BitVec 64),
    let row := fun (i : Instr) (g : Ctx → State → Nat → FRes) => Computes i (fun c s l => fltRes f (g c s l))
    row (.fadd h f x) (flt2 f Fmt.addV) ∧ row (.fsub h f x) (flt2 f Fmt.subRes) ∧ row (.fmul h f x) (flt2 f Fmt.mulRes) ∧
    row (.ffma h f x) (flt3 f Fmt.fmaRes) ∧ row (.fmin h f x) (fltMinmax f false) ∧ row (.fmax h f x) (fltMinmax f true) ∧
    row (.fdiv h f x) (flt2 f Fmt.divRes) ∧ row (.fsqrt h f x) (flt1 f Fmt.sqrtRes) ∧ row (.frcp h f x) (fltApprox 0x28 f) ∧
    row (.frsq h f x) (fltApprox 0x29 f) ∧ row (.fexp2 h f x) (fltApprox 0x2A f) ∧ row (.flog2 h f x) (fltApprox 0x2B f) ∧
    row (.fsin h f x) (fltApprox 0x2C f) ∧ row (.fcos h f x) (fltApprox 0x2D f) ∧ row (.ftanh h f x) (fltApprox 0x2E f) ∧
    row (.fsigm h f x) (fltApprox 0x2F f) ∧ row (.ffrc h f x) (flt1 f Fmt.frcRes) ∧
    row (.frnd h f x) (flt1 f (fun m rm _ a => m.rndRes rm a)) ∧ row (.fldx h f x) (fltLdx f) ∧ row (.fmed3 h f x) (fltMed3 f) ∧
    row (.dadd h f x) (flt2 f Fmt.addV) ∧ row (.dmul h f x) (flt2 f Fmt.mulRes) ∧ row (.dfma h f x) (flt3 f Fmt.fmaRes) ∧
    row (.ddiv h f x) (flt2 f Fmt.divRes) ∧ row (.dsqrt h f x) (flt1 f Fmt.sqrtRes)

/-- The packed rows of R148 compute each half by itself, and FCLS and the dot products of R151 write one register. That the immediate B of FDOT2 is
converted to BF16 for both halves (log 44), that a result of HMNX2 is flushed under FZ with UF and NX (log 41), and which flags the rounding of a group of products sets
(log 43), are the model's choices. -/
def Obligations.PackedAndDotRowsCompute : Prop :=
  ∀ (h : Hdr) (f : FltFn) (x : BitVec 64),
    let fin := fun (r : FRes) => if f.sat then (ftFmt f.ft).satRes r else r
    let row := fun (i : Instr) (g : Ctx → State → Nat → Bool → FRes) =>
      Computes i (fun c s l =>
        { val := (fin (g c s l false)).bits + (fin (g c s l true)).bits * 2 ^ 16, n := 1,
          flags := BitVec.ofNat 7 ((fin (g c s l false)).fl ||| (fin (g c s l true)).fl) })
    row (.hadd2 h f x) (half2 f Fmt.addV) ∧ row (.hmul2 h f x) (half2 f Fmt.mulRes) ∧ row (.hfma2 h f x) (half3 f Fmt.fmaRes) ∧
    row (.hmnx2 h f x) (fun c s l hi =>
      (ftFmt f.ft).minmax (acFZ (s.acOf c.uid)) (f.sub.toNat % 2 = 1) (2 ≤ f.sub.toNat) (s.srcHalf c l .a f hi) (s.srcHalf c l .b f hi)) ∧
    Computes (.fcls h f x) (fun c s l =>
      { val := (ftFmt f.ft).cls (s.operand c l .a (if f.ft = .f64 then 2 else 1) (immFlt (ftFmt f.ft)) % 2 ^ (ftFmt f.ft).width), n := 1 }) ∧
    Computes (.fdot2 h f x) (fun c s l =>
      dotRes (dotGroup (acAW (s.acOf c.uid)) (s.dotAcc c l f)
        (halfProds (s.operand c l .a 1 (immPacked bf16)) (s.operand c l .b 1 (immPacked bf16))))) ∧
    Computes (.fdotn h f x) (fun c s l =>
      dotRes (dotGroup (acAW (s.acOf c.uid)) (s.dotAcc c l f)
        ((List.range (2 ^ (f.sub.toNat + 1))).flatMap (fun i =>
          halfProds (s.readV c.uid l (h.a.toNat + i)).toNat (s.readV c.uid l (h.b.toNat + i)).toNat))))

/-- The conversions of R153, R155 and R156 that only compute, and the reads of FMTST and FLGRD (R157): NPACK and NUNPK where C names a valid format
and the registers exist in the wave. The flags of NUNPK, and of CVTW that unpacks, belong each to one register (R137). That FZ and DZI do not apply to CE16 (log 57) is the model's choice. -/
def Obligations.ConversionsCompute : Prop :=
  ∀ (h : Hdr) (f : CvtFn) (x : BitVec 64),
    Computes (.cvt h f x) (fun c s l =>
      let ac := s.acOf c.uid
      let r := cvtOf f.st f.dt f.sat (rndDir f.rnd ac) (acDZI ac) (acFZ ac) (s.srcCvt c l .a f.st)
      { val := r.bits, n := tyRegs f.dt, flags := BitVec.ofNat 7 r.fl }) ∧
    Computes (.cvtw h f x) (cvtwRes f) ∧
    (∀ d : Desc, ComputesIf (.npack h f x)
      (fun c s => s.descReg c.uid h.c.toNat = some d ∧ ∃ w, s.wave? c.uid = some w ∧ h.a.toNat + 32 / d.w ≤ w.V)
      (fun c s l =>
        let rs := (List.range (32 / d.w)).map (fun j =>
          d.ofV (.dir (rndDir f.rnd (s.acOf c.uid))) f.sat
            (narrowSrc .f32 (acDZI (s.acOf c.uid)) (s.readV c.uid l (h.a.toNat + j)).toNat))
        { val := rs.foldr (fun r acc => r.bits + 2 ^ d.w * acc) 0, n := 1,
          flags := BitVec.ofNat 7 (rs.foldl (fun x r => x ||| r.fl) 0) })) ∧
    (∀ d : Desc, ComputesIf (.nunpk h f x)
      (fun c s => s.descReg c.uid h.c.toNat = some d ∧ ∃ w, s.wave? c.uid = some w ∧ h.d.toNat + 32 / d.w ≤ w.V)
      (fun c s l =>
        let rs := (List.range (32 / d.w)).map (fun j =>
          let p := bitsAt (s.operand c l .a 1 (fun _ v => v)) (j * d.w) d.w
          if f.dt = .f32 then d.toFmt fp32 .rn (acFZ (s.acOf c.uid)) p else expandV (d.value p) 127 0x3F800000)
        { val := rs.foldr (fun r acc => r.bits + 2 ^ 32 * acc) 0, n := 32 / d.w, per := rs.map (fun r => BitVec.ofNat 7 r.fl) })) ∧
    Computes (.fmtst h f x) (fun c s _ =>
      { val := (match s.wave? c.uid with | some w => (Sparse.get 0 w.n h.a.toNat).toNat | none => 0), n := 1 }) ∧
    Computes (.flgrd h f x) (fun c s l => { val := (s.thread c.uid l).fl.toNat, n := 1 })

/-- The comparisons and selections of R158, MOV, and the special registers of GETSR (R61), on every packet. -/
def Obligations.CompareAndMoveRowsCompute : Prop :=
  ∀ (h : Hdr) (f : CmpFn) (g : LaneFn) (x : BitVec 64),
    Computes (.isetp h f x) (setpRes f) ∧ Computes (.fsetp h f x) (setpRes f) ∧ Computes (.psetp h f x) (psetpRes f) ∧
    Computes (.sel h f x) (selRes f) ∧
    Computes (.mov h g x) (fun c s l => { val := s.srcInt c l .a g.ty, n := tyRegs g.ty }) ∧
    Computes (.getsr h g x) (fun c s l =>
      { val := (match s.wave? c.uid with | some w => special s w l h.a.toNat | none => 0), n := 1 })

/-- The lane instructions of R163 to R169 with a vector result, on every packet: each participant receives its value from the participants of its own
segment. -/
def Obligations.LaneRowsCompute : Prop :=
  ∀ (h : Hdr) (f : LaneFn) (x : BitVec 64), h.u = false → h.mx ≠ 0xD →
    Computes (.shfl h f x) (fun c s l =>
      { val := s.laneA c f (match shflSrc f.lop.toNat (segWidth f) (s.srcCount c l .b) l with
          | some k => if c.on.contains k then k else l
          | none => l), n := tyRegs f.ty }) ∧
    Computes (.ballot h f x) (fun c s l =>
      { val := bitsAt (maskOf (c.on.filter (ballotBit f c s))).toNat (32 * (l / 32)) 32, n := 1 }) ∧
    Computes (.vote h f x) (fun c s l =>
      let ps := (segLanes c (segWidth f) l).map (fun k => (s.thread c.uid k).pred h.a.toNat)
      { preds := [(h.d.toNat, match f.lop.toNat with | 0 => ps.all id | 1 => ps.any id | _ => ps.all id || ps.all (fun b => !b))] }) ∧
    Computes (.matchLanes h f x) (fun c s l =>
      let eqs := (segLanes c (segWidth f) l).filter (fun k => s.laneA c f k = s.laneA c f l)
      { val := if f.lop = 0 then eqs.head?.getD l else eqs.length, n := 1 }) ∧
    Computes (.redux h f x) (fun c s l =>
      let r := (redAll f.ty f.lop.toNat ((segLanes c (segWidth f) l).map (s.laneA c f))).getD ⟨0, 0⟩
      { val := r.bits, n := tyRegs f.ty, flags := BitVec.ofNat 7 r.fl }) ∧
    Computes (.scan h f x) (fun c s l =>
      let op := f.lop.toNat % 8
      let below := (segLanes c (segWidth f) l).filter (fun k => if 8 ≤ f.lop.toNat then k < l else k ≤ l)
      let r := (redAll f.ty op (below.map (s.laneA c f))).getD ⟨redIdent f.ty op, 0⟩
      { val := r.bits, n := tyRegs f.ty, flags := BitVec.ofNat 7 r.fl }) ∧
    Computes (.elect h f x) (fun c _ l => { preds := [(h.d.toNat, (segLanes c (segWidth f) l).head? = some l)] }) ∧
    Computes (.xchgm h f x) (fun c s l =>
      let dist := s.srcCount c l .b
      let a := (s.readV c.uid l h.a.toNat).toNat
      { val := if c.on.contains (l ^^^ dist) then
          xchgmOf (l &&& dist ≠ 0) (dist % 32) a (s.readV c.uid (l ^^^ dist) h.a.toNat).toNat (s.srcCount c l .c % 2 ^ 32)
        else a, n := 1 }) ∧
    ComputesIf (.quads h f x) (fun c s => ∃ w, s.wave? c.uid = some w ∧ w.quadFlag = true) (fun c s l =>
      let p := match f.lop.toNat with
        | 0 => l ^^^ 1
        | 1 => l ^^^ 2
        | 2 => l ^^^ 3
        | _ => 4 * (l / 4) + s.srcCount c l .b % 4
      { val := s.laneA c f (if (segLanes c (segWidth f) l).contains p then p else l), n := tyRegs f.ty })

/-! ## Lanes that write scalars, and writes at once -/

/-- BALLOT and REDUX with a scalar D (R164, R166, R167): once for the packet, over its participants; the result overwrites what an earlier arrival has on
its way, the flags of REDUX .f32 are each participant's, set when the result is written (R136), and every other register, predicate and flag word stays. -/
def Obligations.ScalarLaneForms : Prop :=
  ∀ (h : Hdr) (f : LaneFn) (x : BitVec 64) (s : State) (w : Wave) (ls : List Nat) (pc : VA), h.mx = 0xD →
    (∀ e, encOf (.ballot h f x) = some e → Group s w ls pc → Able e w → guarded e w ls ≠ [] →
      ∃ t, exec (.ballot h f x) s = .next t ∧
        GivesScalars s t e w ls pc 4 (maskOf ((guarded e w ls).filter (ballotBit f (ctxOf e w ls pc) (s.begun e w ls pc)))).toNat 0) ∧
    (∀ e, encOf (.redux h f x) = some e → Group s w ls pc → Able e w → guarded e w ls ≠ [] →
      let r := (redAll f.ty f.lop.toNat ((segLanes (ctxOf e w ls pc) (segWidth f) ((guarded e w ls).head?.getD 0)).map
        ((s.begun e w ls pc).laneA (ctxOf e w ls pc) f))).getD ⟨0, 0⟩
      ∃ t, exec (.redux h f x) s = .next t ∧ GivesScalars s t e w ls pc (tyRegs f.ty) r.bits (BitVec.ofNat 7 r.fl))

/-- The instructions of R154, R157 and R161 that change the wave or the thread at once: CVTN, with its generator step under stochastic rounding
(R127, R128), FMTLD of a valid word, SRSEED, FLGCL, and MOVS to ac. That an 8-bit immediate of
SRSEED is zero-extended (log 93), and how tininess is judged under .rs (log 42), are the model's choices. -/
def Obligations.ImmediateWritesComplete : Prop :=
  ∀ (h : Hdr) (f : CvtFn) (g : LaneFn) (x : BitVec 64),
    (∀ d : Desc, Does (.cvtn h f x)
      (fun c s l => s.descReg c.uid h.c.toNat = some d ∧ (s.srcCount c l .b + 1) * d.w ≤ 32 ∧ (f.rnd = .rs → s.granted 3 = true) ∧ f.dt = .nar)
      (fun c s l =>
        let gen := srStep (s.thread c.uid l).gen
        let rd := if f.rnd = .rs then Rounding.sr gen.toNat else .dir (rndDir f.rnd (s.acOf c.uid))
        let r := d.ofV rd f.sat (narrowSrc f.st (acDZI (s.acOf c.uid)) (s.operand c l .a 1 (fun _ v => v)))
        (if f.rnd = .rs then s.updThread c.uid l (fun t => { t with gen := gen }) else s,
          { regs := regWrites l .v h.d.toNat 1 (bfiOf 32 r.bits (s.srcCount c l .b * d.w + d.w * 256) (s.readV c.uid l h.d.toNat).toNat),
            flags := BitVec.ofNat 7 r.fl }))
      noPost) ∧
    (∀ d : Desc, Does (.cvtn h f x)
      (fun c s l => s.descReg c.uid h.c.toNat = some d ∧ (s.srcCount c l .b + 1) * d.w ≤ 32 ∧ (f.rnd = .rs → s.granted 3 = true) ∧ f.dt ≠ .nar)
      (fun c s l =>
        let r := d.toFmt ((tyFmt f.dt).getD fp32) (rndDir f.rnd (s.acOf c.uid)) (acFZ (s.acOf c.uid))
          (bitsAt (s.operand c l .a 1 (fun _ v => v)) (s.srcCount c l .b * d.w) d.w)
        (s, { regs := regWrites l .v h.d.toNat 1 r.bits, flags := BitVec.ofNat 7 r.fl }))
      noPost) ∧
    DoesOnce (.fmtld h f x) (fun c s l => (descOf (s.operand c l .a 1 (fun _ v => v))).isSome)
      (fun c s l => (s.updWave c.uid (fun w => { w with n := Sparse.put 0 w.n h.d.toNat (BitVec.ofNat 32 (s.operand c l .a 1 (fun _ v => v))) }), {}))
      noPost ∧
    Does (.srseed h f x) always
      (fun c s l => (s.updThread c.uid l (fun t => { t with gen := srSeed (BitVec.ofNat 32 (s.operand c l .a 1 (fun _ v => v))) }), {})) noPost ∧
    Does (.flgcl h f x) always
      (fun c s l => (s.updThread c.uid l (fun t => { t with fl := t.fl &&& ~~~(BitVec.ofNat 7 (s.operand c l .b 1 (fun _ v => v))) }), {})) noPost ∧
    DoesOnce (.movs h g x) always
      (fun c s l => (s.updWave c.uid (fun w => { w with ac := BitVec.ofNat 32 (s.operand c l .a 1 (fun _ v => v) % 2 ^ 7) }), {})) noPost

/-! ## Control flow -/

/-- Jumps to a target whose low two bits are zero, and the calls, which set ra to the address of the next instruction (R171). -/
def Obligations.JumpsComplete : Prop :=
  ∀ (h : Hdr) (f : CodeFn) (x : BitVec 64),
    Does (.bra h f x) (fun c _ _ => (labelTarget c x).toNat % 4 = 0) (fun c s _ => (s, { pc := some (labelTarget c x) })) noPost ∧
    Does (.brx h f x) (fun c s l => (s.pairTarget c l).toNat % 4 = 0) (fun c s l => (s, { pc := some (s.pairTarget c l) })) noPost ∧
    Does (.call h f x) (fun c _ _ => (labelTarget c x).toNat % 4 = 0)
      (fun c s l => (s.updThread c.uid l (fun t => { t with ra := c.next }), { pc := some (labelTarget c x) })) noPost ∧
    Does (.callx h f x) (fun c s l => (s.pairTarget c l).toNat % 4 = 0)
      (fun c s l => (s.updThread c.uid l (fun t => { t with ra := c.next }), { pc := some (s.pairTarget c l) })) noPost ∧
    Does (.ret h f x) (fun c s l => (s.thread c.uid l).ra.toNat % 4 = 0) (fun c s l => (s, { pc := some (s.thread c.uid l).ra })) noPost

/-- EXIT, YIELD, NOP, SLEEP and BKPT with debugging enabled complete (R24, R172, R173). -/
def Obligations.ThreadControlCompletes : Prop :=
  ∀ (h : Hdr) (f : CodeFn) (x : BitVec 64),
    Does (.exit h f x) always (fun _ s _ => (s, { st := some .exited })) (fun c s => s.exitLanes c.uid c.on) ∧
    Does (.yield h f x) always (fun c s l => (s.updThread c.uid l (fun t => { t with yielded := true }), {})) noPost ∧
    Does (.nop h f x) always (fun _ s _ => (s, {})) noPost ∧
    Does (.sleep h f x) (fun c s l => s.srcCount c l .b ≠ 0)
      (fun c s l => (s, { st := some (.sleeping (.timer (s.clk + 16 * s.srcCount c l .b)) h.s) })) noPost ∧
    Does (.sleep h f x) (fun c s l => s.srcCount c l .b = 0) (fun c s l => (s.updThread c.uid l (fun t => { t with yielded := true }), {})) noPost ∧
    Does (.bkpt h f x) (fun c s _ => s.debugOf c.uid = true) (fun _ s _ => (s, {}))
      (fun c s => if s.debugOf c.uid then (match s.wave? c.uid with | some w => s.stopQuad w.cl w.core w.quad 2 | none => s) else s)

/-- TRAP, and BKPT where debugging is not enabled, complete and park the thread after them with TRAPINSN (R173): its pc is the next instruction's, the
record's site the instruction, INFO[7:0] the code, with bit 8 for BKPT. In a quadrant whose debug enable is set BKPT stops the quadrant, with cause 2. -/
def Obligations.TrapsPark : Prop :=
  ∀ (h : Hdr) (f : CodeFn) (x : BitVec 64) (e : Enc) (s : State) (w : Wave) (ls : List Nat) (pc : VA),
    Group s w ls pc → Able e w → guarded e w ls ≠ [] →
    let on := guarded e w ls
    let after := (s.begun e w ls pc).updWave w.uid (fun v => on.foldl (fun v l => v.updThread l (fun t => { t with pc := nextPc pc e.h.len, age := 0 })) v)
    (encOf (.trap h f x) = some e →
      exec (.trap h f x) s = .next (after.park w.uid pc (on.map (fun l => (l, ⟨fcTrapInsn, f.code.toNat⟩)))).endSlot) ∧
    (encOf (.bkpt h f x) = some e → s.debugOn w.cl w.core w.quad = false →
      exec (.bkpt h f x) s = .next (after.park w.uid pc (on.map (fun l => (l, ⟨fcTrapInsn, f.code.toNat + 2 ^ 8⟩)))).endSlot) ∧
    (encOf (.bkpt h f x) = some e → s.debugOn w.cl w.core w.quad = true →
      ∃ t : State, exec (.bkpt h f x) s = .next (t.stopQuad w.cl w.core w.quad 2).endSlot ∧ (∀ l ∈ on, (t.thread w.uid l).pc = nextPc pc e.h.len) ∧
        ∀ u r, t.finalReg u r = s.finalReg u r)

/-! ## Synchronisation -/

/-- The mask instructions complete: MJOIN, MLEAVE, MSET and MOPS write mask D, and the waits on it are evaluated (R176, R178); MOPS .rd and .cnt
write scalars. MWAIT of a member at the site of the mask, or where it has none, waits, and the waits on the mask are evaluated (R177, R178). -/
def Obligations.MasksComplete : Prop :=
  (∀ (h : Hdr) (f : CodeFn) (x : BitVec 64),
     let after := fun (i : Instr) (c : Ctx) (s : State) =>
       match s.wave? c.uid with | some w => s.writeMask c.uid h.d.toNat (maskResult i h f c s w) | none => s
     Does (.mjoin h f x) always (fun _ s _ => (s, {})) (after (.mjoin h f x)) ∧
     Does (.mleave h f x) always (fun _ s _ => (s, {})) (after (.mleave h f x)) ∧
     Does (.mset h f x) always (fun _ s _ => (s, {})) (after (.mset h f x)) ∧
     (f.code.toNat < 5 → DoesOnce (.mops h f x) always (fun _ s _ => (s, {})) (after (.mops h f x))) ∧
     (f.code = 5 → DoesOnce (.mops h f x) always (fun c s _ =>
       (s, { sregs := regWrites 0 .s h.d.toNat 4 (((s.wave? c.uid).map (fun w => w.mask h.a.toNat)).getD (0 : LaneMask)).toNat })) noPost) ∧
     (f.code = 6 → DoesOnce (.mops h f x) always (fun c s _ =>
       (s, { sregs := regWrites 0 .s h.d.toNat 1 (lanesOf (((s.wave? c.uid).map (fun w => w.mask h.a.toNat)).getD (0 : LaneMask))).length })) noPost)) ∧
  (∀ (h : Hdr) (f : CodeFn) (x : BitVec 64),
     Does (.mwait h f x)
       (fun c s l => (s.wave? c.uid).isSome ∧ inMask ((waveOf c s).mask h.a.toNat) l = true ∧
         (Sparse.get none (waveOf c s).msite h.a.toNat).getD c.pc = c.pc)
       (fun c s _ => (s.updWave c.uid (fun w => { w with msite := Sparse.put none w.msite h.a.toNat (some c.pc) }),
         { st := some (.syncWait (.mask h.a.toNat) c.next h.s) }))
       (fun c s => s.evalMask c.uid h.a.toNat))

/-- BAR and BARARR record the arrival, BAR waits and BARARR goes on with the parity in pD, and the barriers of the workgroup are evaluated; BARWT waits
while the parity equals pA, else goes on (R180 to R182). -/
def Obligations.BarriersComplete : Prop :=
  ∀ (h : Hdr) (f : CodeFn) (x : BitVec 64),
    let b := f.code.toNat
    Does (.bar h f x) (arrives b h)
      (fun c s l => (arrived b h c s l, { st := some (.syncWait (.bar b) c.next h.s) })) postBars ∧
    Does (.bararr h f x) (arrives b h)
      (fun c s l => (arrived b h c s l, { preds := [(h.d.toNat, (s.bar (waveOf c s).gid (waveOf c s).gangwg b).par)] })) postBars ∧
    Does (.barwt h f x) (fun c s _ => (s.wave? c.uid).isSome ∧ b < (waveOf c s).nbar)
      (fun c s l =>
        let w := waveOf c s
        let p := (w.thread l).pred h.a.toNat
        if (s.bar w.gid w.gangwg b).par != p then (s.acquireLane (s.bar w.gid w.gangwg b).done c.uid l, {})
        else (s, { st := some (.syncWait (.barwt b p) c.next h.s) })) noPost

/-- TWAIT waits for its token set and its bins are dispatched; TTEST without a failed token writes pD, and follows what the clear tokens completed; SSTEP records the
arrival of a wave of the step's set, and waits, in every other wave without one; WFI sleeps;
UIRET returns from the handler and enables; UIMSK reads the enable and sets it (R184 to R187, R287, R351). The order of bins that one packet triggers is log 75, the model's choice. -/
def Obligations.TokensStepsAndUserInterruptsComplete : Prop :=
  ∀ (h : Hdr) (f : CodeFn) (x : BitVec 64),
    Does (.twait h f x) always
      (fun c s l => (s.trigBins (fun q => q.uid = c.uid && q.lane = l && (s.tokSet c l).testBit q.tok),
        { st := some (.tokenWait (BitVec.ofNat 16 (s.tokSet c l)) c.next h.s true) }))
      (fun c s => s.evalToks c.uid c.on) ∧
    Does (.ttest h f x) (fun c s l => (s.wave? c.uid).isSome ∧ (waveOf c s).tokFailed (s.tokSet c l) l = none)
      (fun c s l =>
        let w := waveOf c s
        let T := s.tokSet c l
        let ok := if f.code = 0 then w.toksClear T l else (List.range 16).any (fun j => T.testBit j && !w.tokPending j l)
        (if ok then s.joinLane (w.tokView (w.clearToks T l) l) c.uid l else s, { preds := [(h.d.toNat, ok)] })) noPost ∧
    (∀ R : Ctx → Nat → Region, Does (.sstep h f x)
      (fun c s l =>
        let w := waveOf c s
        let r := R c l
        let seen := r.stepArr.find? (fun x => x.1 = w.uid)
        (s.wave? c.uid).isSome ∧ s.region? w.rid = some r ∧ r.ssm = true ∧ r.stepSet.contains w.uid = true ∧
          r.stepMask.getD h.c.toNat = h.c.toNat ∧ inMask (w.mask h.c.toNat) l = true ∧
          (∀ y, seen = some y → y.2.1 = w.mask h.c.toNat) ∧ inMask ((seen.map (fun x => x.2.2)).getD 0) l = false)
      (fun c s l =>
        let w := waveOf c s
        let r := R c l
        let arr := ((r.stepArr.find? (fun x => x.1 = w.uid)).map (fun x => x.2.2)).getD 0
        ((s.updRegion w.rid (fun r => { r with
            stepMask := some h.c.toNat
            stepView := joinIds r.stepView (w.thread l).vw.ids
            stepArr := r.stepArr.filter (fun x => x.1 ≠ w.uid) ++ [(w.uid, w.mask h.c.toNat, setLane arr l true)] })).trigBins
          (fun q => q.uid = c.uid && q.lane = l),
          { st := some (.syncWait .step c.next h.s) })) noPost) ∧
    (∀ R : Ctx → Nat → Region, Does (.sstep h f x)
      (fun c s l => (s.wave? c.uid).isSome ∧ s.region? (waveOf c s).rid = some (R c l) ∧ (R c l).ssm = true ∧ (R c l).stepSet.contains (waveOf c s).uid = false)
      (fun c s l => (s.trigBins (fun q => q.uid = c.uid && q.lane = l), { st := some (.syncWait .step c.next h.s) })) noPost) ∧
    Does (.wfi h f x) always (fun _ s _ => (s, { st := some (.sleeping .wfi h.s) })) noPost ∧
    (∀ back : Ctx → VA, Does (.uiret h f x) (fun c s l => (s.wave? c.uid).isSome ∧ (waveOf c s).uiRun = some (l, back c))
      (fun c s _ => (s.updWave c.uid (fun w => { w with uiRun := none, uiEn := true }), { pc := some (back c) })) noPost) ∧
    DoesOnce (.uimsk h f x) always
      (fun c s l => (if f.code = 0 then s.updWave c.uid (fun w => { w with uiEn := bitAt (s.srcCount c l .b) 0 }) else s,
        { sregs := regWrites 0 .s h.d.toNat 1 (b2n (((s.wave? c.uid).map (fun w => w.uiEn)).getD false)) })) noPost

/-! ## Memory instructions -/

/-- Loads whose access passes its checks and whose bytes on peers, if any, have come (R63, R200, R202, R427), in each lane of a packet with places of its own: the bytes
that stand at the points where the access is placed, extended, are the result, on its way to the registers; an acquire takes the releases that it meets (R217, R223);
the lines are touched, watchpoints note their hits; the thread waits in admission. A uniform load is one access of every executing thread (R202, R216). The point of an access, taken when it is made
(logs 3 and 6), and which lines the caches hold (log 19) are the model's choices. -/
def Obligations.LoadsComplete : Prop :=
  ∀ (h : Hdr) (f : MemFn) (x : BitVec 64) (ls : Ctx → Nat → List (Nat × Loc)),
    let locs := fun (c : Ctx) (l : Nat) => (ls c l).map (fun x => x.2)
    let passes := fun (c : Ctx) (s : State) (l : Nat) => s.access c f l false 0 = .ok (ls c l) ∧ s.missing (ls c l) = none
    let loads := fun (c : Ctx) (s : State) (l : Nat) =>
      let r := s.readBy State.updReader (locs c l) (acqOf c f)
      (((r.1.meetUe (locs c l)).touch c.uid (hintPrio f.hint) (locs c l)).noteHits c l f.seg.toNat 0 (ls c l) r.2,
        ({ regs := regWrites l .v h.d.toNat (szCount f.sz) (loadVal f.sz r.2), ue := s.ueAt (ls c l), st := admitted c } : LaneOut))
    let once := fun (c : Ctx) (s : State) (l : Nat) =>
      let others := c.on.filter (fun k => k ≠ l)
      let r := (s.setPack (packOf (others.map (fun k => ((s.thread c.uid k).vw, locs c l))))).readBy (State.updLanes c.uid others) (locs c l) (acqOf c f)
      ((c.on.foldl (fun s k => s.noteHits c k f.seg.toNat 0 (ls c l) r.2) ((r.1.meetUe (locs c l)).touch c.uid (hintPrio f.hint) (locs c l))).setPack [],
        ({ sregs := regWrites l .s h.d.toNat (szCount f.sz) (loadVal f.sz r.2), ue := s.ueAt (ls c l), st := admitted c } : UniOut))
    (h.u = false → DoesMem (.ld h f x) passes loads noPost) ∧
    (h.u = true → DoesOnceMem (.ld h f x) passes once noPost) ∧
    (¬(h.len = .w128 ∧ bitAt x.toNat 63 = true) → DoesMem (.ldx h f x) passes loads noPost) ∧
    DoesOnceMem (.ldc h f x) passes once noPost

/-- Stores whose access passes its checks write the data's low bytes, the first at the access's first byte (R203), as a release where ORD says so (R221), in each
lane of a packet in turn; the lines are touched. The bytes on peers are asked of them, with the releases that they carry, those of a packet at one sector in one
message (R203), and the thread waits for the answers (R427). The point of an access, taken when it is made
(logs 3 and 6), and which lines the caches hold (log 19) are the model's choices. -/
def Obligations.StoresComplete : Prop :=
  ∀ (h : Hdr) (f : MemFn) (x : BitVec 64) (ls : Ctx → Nat → List (Nat × Loc)),
    let locs := fun (c : Ctx) (l : Nat) => (ls c l).map (fun x => x.2)
    let data := fun (c : Ctx) (s : State) (l : Nat) => leBytes (szBytes f.sz) (s.readRegs c.uid l .v h.d.toNat (szCount f.sz))
    let passes := fun (c : Ctx) (s : State) (l : Nat) => s.access c f l true 0 = .ok (ls c l)
    let away := fun (c : Ctx) (s : State) (l : Nat) => remParts (ls c l) (data c s l)
    let written := fun (c : Ctx) (s : State) (l : Nat) => (s.storeAs (locs c l) (data c s l) (relOf c f) false).touch c.uid (hintPrio f.hint) (locs c l)
    let asked := fun (c : Ctx) (s : State) (l : Nat) => (away c s l).foldl (fun t p =>
      t.askWrite c l p.1 p.2.1 p.2.2.1 p.2.2.2.2.length p.2.2.2.1 none none
        (.store p.2.1 p.2.2.2.2 (t.peerAcc p.2.2.2.1 (t.ownRels p.2.2.2.1 (relOf c f)) false))) (written c s l)
    let stores := fun (c : Ctx) (s : State) (l : Nat) =>
      ((asked c s l).noteHits c l f.seg.toNat 1 (ls c l) (data c s l),
        ({ st := some (.admission (if (away c s l).isEmpty then .checks else .peer) h.s) } : LaneOut))
    DoesMem (.st h f x) passes stores noPost ∧ DoesMem (.stx h f x) passes stores noPost

/-- Atomics whose access passes its checks, natural alignment among them, in each lane of a packet in turn: at bytes of this module the new value of R209 is stored
at one point with the read (R230), and ATOM returns the old one; of an uncorrectable sector ATOM parks its lane at its next boundary and stores nothing, and RED notes it
(R201). On a page of a peer the operation is asked of it, those of a packet at one sector in one message, and the thread waits for its answer (R229, R233). The point, taken when
the operation is performed (logs 3 and 6), and the message to a peer (log 17) are the model's choices. -/
def Obligations.AtomicsComplete : Prop :=
  ∀ (h : Hdr) (f : MemFn) (x : BitVec 64) (ls : Ctx → Nat → List (Nat × Loc)),
    let locs := fun (c : Ctx) (l : Nat) => (ls c l).map (fun x => x.2)
    let l0 := fun (c : Ctx) (l : Nat) => ((locs c l).head?.getD default)
    let aop := bitsAt x.toNat 27 5
    let b := szBytes f.sz
    let passes := fun (c : Ctx) (s : State) (l : Nat) => s.access c f l true b = .ok (ls c l)
    let here := fun (c : Ctx) (s : State) (l : Nat) => (l0 c l).away = false ∧ passes c s l
    let old := fun (c : Ctx) (s : State) (l : Nat) => leNat (s.rmwBytes (locs c l))
    let new := fun (c : Ctx) (s : State) (l : Nat) => atomNew aop (8 * b) (old c s l) (s.memData c f l) (s.casData c f l)
    let after := fun (ret : Bool) (c : Ctx) (s : State) (l : Nat) =>
      ((if ret = true ∧ (s.ueAt (ls c l)).isSome = true then s.meetUe (locs c l)
        else (s.storeAs (locs c l) (leBytes b (new c s l).1) (relOf c f) true).updReader (fun me v =>
          v.read me (l0 c l).kind (acqOf c f) [] (s.relsOf (locs c l) (spotOf (s.spots (locs c l) true) (l0 c l))))).touch c.uid (hintPrio f.hint)
        (locs c l)).noteHits c l f.seg.toNat 2 (ls c l) (leBytes b (s.memData c f l))
    let asked := fun (peer pva : Ctx → Nat → Nat) (k : Ctx → Nat → PageKind) (ret : Bool) (c : Ctx) (s : State) (l : Nat) =>
      ((s.askWrite c l (peer c l) (pva c l) (((ls c l).head?.map (fun x => x.1)).getD 0) b (k c l) (acqOf c f)
          (if ret then some ⟨h.d.toNat, aop, b, s.memData c f l, s.casData c f l, []⟩ else none)
          (.atomic (pva c l) aop b (s.memData c f l) (s.casData c f l) (s.peerAcc (k c l) (s.ownRels (k c l) (relOf c f)) ret))).noteHits
        c l f.seg.toNat 2 (ls c l) (leBytes b (s.memData c f l)), ({ st := some (.admission .peer h.s) } : LaneOut))
    DoesMem (.atom h f x) here
      (fun c s l => (after true c s l,
        { regs := regWrites l .v h.d.toNat (szCount f.sz) (old c s l), flags := BitVec.ofNat 7 (new c s l).2, ue := s.ueAt (ls c l), st := admitted c })) noPost ∧
    DoesMem (.red h f x) here (fun c s l => (after false c s l, { st := admitted c })) noPost ∧
    ∀ peer pva k,
      let away := fun (c : Ctx) (s : State) (l : Nat) => l0 c l = .rem (peer c l) (pva c l) (k c l) ∧ passes c s l
      DoesMem (.atom h f x) away (asked peer pva k true) noPost ∧ DoesMem (.red h f x) away (asked peer pva k false) noPost

/-- FENCE takes, as an acquire, the releases that the thread's reads have met, and stands, as a release, on its later writes; a FENCE.ar has a place in the
order F (R211, R221, R224). PREF fills the line of its address, in the core's data cache and L2 or in L2 alone; CMAINT drops the block of the instruction
cache, gives the line priority 1, or evicts it (R72, R212); where the address has no such line, both only wait in admission, and neither faults. The order F is that of performance (log 3), and CMAINT has nothing to merge (log 47): the model's
choices. -/
def Obligations.OrderingAndCachesComplete : Prop :=
  ∀ (h : Hdr) (f : MemFn) (x : BitVec 64) (at' : Ctx → Nat → Nat × Loc) (rest : Ctx → Nat → List (Nat × Loc)),
    let seg := f.seg.toNat
    let names := fun (c : Ctx) (s : State) (l : Nat) => s.locate ((waveOf c s).atIssue l) l seg (s.memOffset c f l) 1 false 0
    let acts := fun (c : Ctx) (s : State) => (s.wave? c.uid).isSome ∧ s.ord.agent.isSome
    let on := fun (c : Ctx) (s : State) (l : Nat) => acts c s ∧ ¬(2 ≤ seg ∧ seg ≤ 4) ∧ names c s l = .ok (at' c l :: rest c l)
    let off := fun (c : Ctx) (s : State) (l : Nat) =>
      acts c s ∧ ((2 ≤ seg ∧ seg ≤ 4) ∨ ∃ e, names c s l = .error e ∧ e.code ≠ fcMiss ∧ e.code ≠ fcDrain)
    let wait := fun (c : Ctx) => ({ st := admitted c } : LaneOut)
    DoesMem (.fence h f x) (fun _ s _ => s.ord.agent.isSome)
      (fun c s _ =>
        let t := s.updAgent (fun g => g.fence f.ord (scopeOf c) s.ord.ars)
        (match f.ord, t.ord.agent with
          | .ar, some g => { t with ord := { t.ord with ars := t.ord.ars ++ [⟨scopeOf c, g.place, g.vw.hb⟩] } }
          | _, _ => t, {})) noPost ∧
    DoesMem (.pref h f x) on
      (fun c s l => (if h.d = 0 then s.touch (waveOf c s).uid (hintPrio f.hint) [(at' c l).2]
        else match (at' c l).2 with | .dev pa _ => s.touchLine none (pa / 128) (hintPrio f.hint) | _ => s, wait c)) noPost ∧
    DoesMem (.pref h f x) off (fun c s _ => (s, wait c)) noPost ∧
    DoesMem (.cmaint h f x) on
      (fun c s l => (if h.d = 0 then s.invalidate (waveOf c s) (at' c l).1
        else s.maintain (waveOf c s) (decide (h.d = 2)) (at' c l).2, wait c)) noPost ∧
    DoesMem (.cmaint h f x) off (fun c s _ => (s, wait c)) noPost

/-- The run-ahead load (R206) of bytes that are there starts its group, sets its token and lets the thread wait for it, with its data on their way; GJOIN (R207)
waits in a member at the join site, and goes on in a lane that is no member. LDMC (R213, R214) of a range inside its segment and one
8 KiB block, to destinations of the region's partition, posts its request, with the priority of its HINT, and sets its token. The order of the checks of LDMC is the model's choice (log 63). -/
def Obligations.RunAheadCompletes : Prop :=
  (∀ (h : Hdr) (f : MemFn) (x : BitVec 64) (ls : Ctx → Nat → List (Nat × Loc)),
     let k := bitsAt x.toNat 56 4
     let locs := fun (c : Ctx) (l : Nat) => (ls c l).map (fun x => x.2)
     let joined := fun (c : Ctx) (s : State) (l : Nat) => s.updWave c.uid (fun w =>
       { w with jg := Sparse.put 0 w.jg k (setLane (Sparse.get 0 (waveOf c s).jg k) l true), jsite := Sparse.put 0 w.jsite k (joinSite c) })
     (h.len = .w128 → bitAt x.toNat 63 = true →
       DoesMem (.ldx h f x)
         (fun c s l =>
           let w := waveOf c s
           let s := joined c s l
           (s.wave? c.uid).isSome ∧ w.tokPending k l = false ∧ (Sparse.get 0 w.jg k = 0 ∨ Sparse.get 0 w.jsite k = joinSite c) ∧
             s.access c f l false 0 = .ok (ls c l) ∧ s.missing (ls c l) = none ∧ s.ueAt (ls c l) = none)
         (fun c s l =>
           let s := joined c s l
           let r := s.readBy State.updReader (locs c l) (acqOf c f)
           let regs := regWrites l .v h.d.toNat (szCount f.sz) (loadVal f.sz r.2)
           let t := ((((r.1.meetUe (locs c l)).touch c.uid (hintPrio f.hint) (locs c l)).noteHits c l f.seg.toNat 0 (ls c l) r.2).dropPend
             c.uid [l] (regs.map (fun r => r.1))).updWave c.uid (fun w => w.setTok k l true)
           ({ t with flight := { t.flight with ahead := t.flight.ahead ++ [⟨c.uid, l, k, regs⟩] } },
             { st := some (.tokenWait (BitVec.ofNat 16 (2 ^ k)) c.next false false) })) noPost) ∧
     DoesMem (.gjoin h f x)
       (fun c s l => (s.wave? c.uid).isSome ∧
         (inMask (Sparse.get 0 (waveOf c s).jg h.a.toNat) l = true → Sparse.get 0 (waveOf c s).jsite h.a.toNat = c.pc))
       (fun c s l => (s, if inMask (Sparse.get 0 (waveOf c s).jg h.a.toNat) l then
           { st := some (.syncWait (.gjoin h.a.toNat (bitsAt x.toNat 32 4)) c.next h.s) } else {}))
       (fun c s => s.evalGjoin c.uid h.a.toNat)) ∧
  (∀ (h : Hdr) (f : MemFn) (x : BitVec 64) (at' : Ctx → Nat → Loc) (d : Ctx → Nat → Nat × Nat) (ds : Ctx → Nat → List (Nat × Nat)),
    let size := 128 * (bitsAt x.toNat 38 6 + 1)
    let seg := fun (c : Ctx) (s : State) (l : Nat) => ((waveOf c s).atIssue l).seg f.seg.toNat
    let addr := fun (c : Ctx) (s : State) (l : Nat) => (segBaseOf (seg c s l) + s.memOffset c f l) % 2 ^ 56
    DoesMem (.ldmc h f x)
      (fun c s l =>
        let w := waveOf c s
        (s.wave? c.uid).isSome ∧ s.granted 7 = true ∧ s.memOffset c f l + size ≤ segLimit (seg c s l) ∧ s.memOffset c f l % 128 = 0 ∧
          addr c s l / 8192 = (addr c s l + (size - 1)) / 8192 ∧ s.translate w.rid (addr c s l) false = .ok (at' c l) ∧
          mcastDests (s.readRegs c.uid 0 .s (bitsAt x.toNat 44 8) 2) (bitsAt x.toNat 58 6) (bitsAt x.toNat 54 4) = d c l :: ds c l ∧
          (∀ p ∈ d c l :: ds c l, p.1 ≤ 47 ∧ s.inPart w.rid p.1 = true) ∧ w.tokPending h.d.toNat l = false)
      (fun c s l =>
        let w := waveOf c s
        let r := s.region? w.rid
        let q : MReq :=
          { id := s.fresh, uid := c.uid, lane := l, tok := h.d.toNat, rid := w.rid, step := (r.map (fun r => r.stepno)).getD 0,
            win := (r.bind (fun r => r.part)).getD 8, va := addr c s l, loc := at' c l, size := size, dests := d c l :: ds c l, hint := hintPrio f.hint,
            waits := false, entry := none, late := false, view := s.opView }
        let t := s.updWave c.uid (fun w => w.setTok h.d.toNat l true)
        ({ t with fresh := s.fresh + 1, flight := { t.flight with mreqs := t.flight.mreqs ++ [q] } }, { st := admitted c })) noPost) ∧
  ∀ (h : Hdr) (f : MemFn) (x : BitVec 64) (at' : Ctx → Nat → Loc),
    DoesMem (.ldmc h f x)
      (fun c s l =>
        let w := waveOf c s
        let g := (w.atIssue l).seg f.seg.toNat
        let a := (segBaseOf g + s.memOffset c f l) % 2 ^ 56
        let size := 128 * (bitsAt x.toNat 38 6 + 1)
        (s.wave? c.uid).isSome ∧ s.granted 7 = true ∧ s.memOffset c f l + size ≤ segLimit g ∧ s.memOffset c f l % 128 = 0 ∧
          a / 8192 = (a + (size - 1)) / 8192 ∧ s.translate w.rid a false = .ok (at' c l) ∧ s.readRegs c.uid 0 .s (bitsAt x.toNat 44 8) 2 = 0 ∧
          w.tokPending h.d.toNat l = false)
      (fun c s _ => (s, { st := admitted c })) noPost

/-! ## Engine instructions -/

/-- TKPOST of a readable, aligned record that passes its checks, with a free token and a free slot, in each lane of a packet in turn: the task is posted, D receives its
id, and the thread waits in admission; with no free slot D receives all ones (R274). -/
def Obligations.TkpostCompletes : Prop :=
  ∀ (h : Hdr) (f : EngFn) (x : BitVec 64) (ls : Ctx → Nat → List (Nat × Loc)) (slot : Ctx → Nat → Nat),
    let tok := tokField h.b.toNat
    let from' := fun (c : Ctx) (s : State) (l : Nat) => s.readRegs c.uid l (c.e.kindOf .a) (c.e.field .a) 2 % 2 ^ 56
    let rec' := fun (c : Ctx) (l : Nat) => ((ls c l).take 24).map (fun x => x.2)
    let reads := fun (c : Ctx) (s : State) (l : Nat) =>
      (s.wave? c.uid).isSome ∧ s.tokBusy c.uid l tok = false ∧
      s.locate ((waveOf c s).atIssue l) l f.sub.toNat (from' c s l) 64 false 64 = .ok (ls c l)
    DoesMem (.tkpost h f x)
      (fun c s l => reads c s l ∧ s.freeSlot (waveOf c s).cl = some (slot c l) ∧ s.ueAt ((ls c l).take 24) = none ∧ s.missing ((ls c l).take 24) = none ∧
        (s.noteRead (rec' c l) none).recordBad ((waveOf c s).atIssue l) (leNat (s.readLocs (rec' c l))) = false)
      (fun c s l =>
        let w := (waveOf c s).atIssue l
        let u := s.noteRead (rec' c l) none
        let t := u.newTask w l (slot c l) (leNat (s.readLocs (rec' c l))) tok false (f.sub.toNat, w.byteAddr l f.sub.toNat (from' c s l) 0, w.coreKey) none none
        (u.postTask t, { regs := regWrites l .v h.d.toNat 1 t.id, st := admitted c })) noPost ∧
    DoesMem (.tkpost h f x) (fun c s l => reads c s l ∧ s.freeSlot (waveOf c s).cl = none)
      (fun c s l => (s.count (clReg (waveOf c s).cl 6) 32 1, { regs := regWrites l .v h.d.toNat 1 0xFFFFFFFF, st := admitted c })) noPost

/-- The task instructions on a current task (R275 to R277), in each lane of a packet with a task of its own: TKDEP and TKSIG change the counter of a waiting task and write pD; TKWAIT returns the report of
one that is done or in spec-done, after what the task did, and frees a done task when every lane of the packet has collected; of a task that is not over it waits; TKCMT and TKDIS settle a speculative task, of which TKDIS of a running
one has the last word; MRPG reads the progress (R316), and is a join where
it shows a completed task. Of a task that has been freed TKWAIT answers 0xFF and MRPG 0x50000. -/
def Obligations.TaskInstructionsComplete : Prop :=
  ∀ (h : Hdr) (f : EngFn) (x : BitVec 64) (t : Ctx → Nat → Task),
    let gone := fun (c : Ctx) (s : State) (l : Nat) => (s.wave? c.uid).isSome ∧ s.taskOf (waveOf c s).cl (s.taskId c l) = .retired
    let waits := fun (c : Ctx) (s : State) (l : Nat) =>
      match s.taskOf (waveOf c s).cl (s.taskId c l) with
      | .current t =>
        if t.st = .done ∨ t.st = .specDone then (if t.joins then s.joinLane t.view c.uid l else s, ({ regs := regWrites l .v h.d.toNat 1 t.report } : LaneOut))
        else (s, { st := some (.syncWait (.task (s.taskId c l) h.d.toNat) c.next h.s) })
      | _ => (s, { regs := regWrites l .v h.d.toNat 1 0xFF })
    DoesMem (.tkdep h f x) (fun c s l => names (t c l) c s l)
      (fun c s l =>
        let t := t c l
        let ok := t.st = .waiting && t.ctr + s.srcCount c l .b ≤ 255
        (if ok then s.updTask t.cl t.slot (fun q => { q with ctr := q.ctr + s.srcCount c l .b }) else s, { preds := [(h.d.toNat, ok)] })) noPost ∧
    DoesMem (.tksig h f x) (fun c s l => names (t c l) c s l)
      (fun c s l =>
        let t := t c l
        let n := s.srcCount c l .b
        let ok := t.st = .waiting && n ≤ t.ctr
        (if !ok then s else if n = t.ctr then s.makeReady t s.clk else s.updTask t.cl t.slot (fun q => { q with ctr := q.ctr - n }),
          { preds := [(h.d.toNat, ok)] })) noPost ∧
    PacketDoes (.tkwait h f x)
      (fun c s => LanesMeet (whenActing (fun c s l => names (t c l) c s l ∨ gone c s l)) (acting waits) c s c.on)
      (fun c s =>
        let r := lanesDo (acting waits) c s c.on
        let s' := r.1.collectDone c.uid (c.on.map (s.taskId c))
        s'.lanePassed (r.2.foldl (fun s x => s.finishLane c x.1 x.2) s') c) ∧
    DoesMem (.tkcmt h f x) (fun c s l => names (t c l) c s l ∧ (t c l).spec = true ∧ (t c l).mark ≠ some false ∧ (t c l).st ≠ .done)
      (fun c s l => (match (t c l).st with
        | .running => s.updTask (t c l).cl (t c l).slot (fun t => { t with mark := some true })
        | .specDone => s.endSpec (t c l) true
        | _ => s.updTask (t c l).cl (t c l).slot (fun t => { t with opts := t.opts - 1 }), {})) noPost ∧
    DoesMem (.tkdis h f x) (fun c s l => names (t c l) c s l ∧ (t c l).st ≠ .done ∧ ((t c l).st = .running → (t c l).spec = true))
      (fun c s l => (match (t c l).st with
        | .running => s.updTask (t c l).cl (t c l).slot (fun t => { t with mark := some false })
        | .specDone => s.endSpec (t c l) false
        | _ => s.dropTask (t c l) 3, {})) noPost ∧
    DoesMem (.mrpg h f x) (fun c s l => names (t c l) c s l)
      (fun c s l =>
        let joins := ((t c l).kind = 3 ∨ (t c l).kind = 4) ∧ ((t c l).st = .done ∨ (t c l).st = .specDone) ∧ bitAt (t c l).progress 15 = true
        (if joins then s.joinLane (t c l).view c.uid l else s, { regs := regWrites l .v h.d.toNat 1 (t c l).progress })) noPost ∧
    DoesMem (.mrpg h f x) gone (fun _ s l => (s, { regs := regWrites l .v h.d.toNat 1 0x50000 })) noPost

/-- The buffer instructions on a buffer that the gang holds (R278 to R281): CBINI initialises it, CBPSH and CBPOP claim and advance, and with a count of 0 change nothing, CBWT waits for data or
room, CBQRY reads the four words; the waits on the buffer are evaluated after a change, and what is behind an advance happens before the thread that
sees it goes on (R226). -/
def Obligations.BufferInstructionsComplete : Prop :=
  ∀ (h : Hdr) (f : EngFn) (x : BitVec 64) (q : Ctx → Nat → Cbuf),
    DoesMem (.cbini h f x)
      (fun c s l =>
        let w := waveOf c s
        let seg := if bitAt f.sub.toNat 0 then 3 else 2
        let o := s.srcCount c l .a
        let size := s.srcCount c l .b
        (s.wave? c.uid).isSome ∧ s.holds w.gid h.d.toNat = true ∧ size % 32 = 0 ∧ 32 ≤ size ∧ size ≤ 262144 ∧ o % 32 = 0 ∧
          o + size ≤ segLimit (w.seg seg) ∧ s.outside w seg ((segBaseOf (w.seg seg) + o) % 2 ^ 56) size = false ∧
          s.cts.claims.any (fun q => q.cl = w.cl && q.cb = h.d.toNat) = false ∧
          s.cts.tasks.any (fun t => t.cl = w.cl && t.st ≠ .done && (t.names h.d.toNat true || t.names h.d.toNat false)) = false)
      (fun c s l =>
        let w := waveOf c s
        let sub := f.sub.toNat
        (s.setCbuf { cl := w.cl, cb := h.d.toNat, seg3 := bitAt sub 0, core := w.core, ctx := w.ctx,
                     ring := (segBaseOf (w.seg (if bitAt sub 0 then 3 else 2)) + s.srcCount c l .a) % 2 ^ 56, size := s.srcCount c l .b,
                     pe := bitAt sub 1, ce := bitAt sub 2, prv := 0, pcm := 0, crv := 0, crl := 0, prvO := 0, pcmO := 0, crvO := 0, crlO := 0,
                     pview := [], cview := [] }, {}))
      (fun c s => match s.wave? c.uid with | some w => s.evalCbuf w.cl h.d.toNat | none => s) ∧
    DoesMem (.cbpsh h f x)
      (fun c s l => hasCbuf h.d.toNat (q c l) c s ∧ (q c l).pe = false ∧ s.srcCount c l .b % 32 = 0 ∧ s.srcCount c l .b ≤ (q c l).room)
      (fun c s l => (if s.srcCount c l .b = 0 then s else s.updCbuf (waveOf c s).cl h.d.toNat (fun y =>
        ((y.claim true (s.srcCount c l .b)).advance true (s.srcCount c l .b)).note true s.opView), {})) evalD ∧
    DoesMem (.cbpop h f x)
      (fun c s l => hasCbuf h.d.toNat (q c l) c s ∧ (q c l).ce = false ∧ s.srcCount c l .b % 32 = 0 ∧ s.srcCount c l .b ≤ (q c l).count)
      (fun c s l => (if s.srcCount c l .b = 0 then s else s.updCbuf (waveOf c s).cl h.d.toNat (fun y =>
        ((y.claim false (s.srcCount c l .b)).advance false (s.srcCount c l .b)).note false s.opView), {})) evalD ∧
    DoesMem (.cbwt h f x)
      (fun c s l => hasCbuf h.d.toNat (q c l) c s ∧ s.srcCount c l .b ≤ (q c l).size ∧ s.srcCount c l .b % 32 = 0)
      (fun c s l =>
        let room := bitAt f.sub.toNat 0
        if s.srcCount c l .b ≤ (if room then (q c l).room else (q c l).count) then (s.joinLane (s.cbView (waveOf c s).cl h.d.toNat room) c.uid l, {})
        else (s, { st := some (.syncWait (.cbuf h.d.toNat (s.srcCount c l .b) room) c.next h.s) })) noPost ∧
    DoesMem (.cbqry h f x) (fun c s l => hasCbuf h.a.toNat (q c l) c s)
      (fun c s l =>
        let view := s.cbView (waveOf c s).cl h.a.toNat
        ((s.joinLane (view false) c.uid l).joinLane (view true) c.uid l,
          { regs := regWrites l .v h.d.toNat 4 (wordsNat ([(q c l).count, (q c l).room, (q c l).prvO, (q c l).crvO].map (BitVec.ofNat 32))) })) noPost

/-- EVSET binds event D of the cluster to a valid user-interrupt entry of the wave's handler table, and with .clr ends the wave's own binding
(R282), with no permission test of another region's, which it leaves alone: the model's choice (log 64); AMSG whose checks pass posts a message of the words of A to its target, with its token pending, and the thread waits for a place in the core's outgoing
queue, or only in admission where there is one (R251 to R253), and of whose table entry the bytes are uncorrectable parks its thread with MEMUE at its next boundary (R200, R201); FETCHW of a writable mailbox with a free token queues its request (R284). -/
def Obligations.EvsetAmsgAndFetchwComplete : Prop :=
  (∀ (h : Hdr) (f : EngFn) (x : BitVec 64) (a : Ctx → Nat → Nat),
     let del := fun (c : Ctx) (s : State) =>
       s.updCts (fun t => { t with binds := t.binds.filter (fun b => !(b.cl = (waveOf c s).cl && b.evt = h.d.toNat)) })
     let cur := fun (c : Ctx) (s : State) => s.cts.binds.find? (fun b => b.cl = (waveOf c s).cl && b.evt = h.d.toNat)
     (bitAt f.sub.toNat 0 = true → DoesMem (.evset h f x) (fun c s _ => (s.wave? c.uid).isSome)
       (fun c s _ => (match cur c s with | some b => if b.uid = c.uid then del c s else s | none => s, {})) noPost) ∧
     (bitAt f.sub.toNat 0 = false → DoesMem (.evset h f x)
       (fun c s l => (s.wave? c.uid).isSome ∧ s.srcCount c l .b ≤ 255 ∧ (∀ q, cur c s = some q → q.rid = (waveOf c s).rid) ∧
         s.tableEntry (waveOf c s).rid (waveOf c s).htbl (s.srcCount c l .b) 0 = .ok (some (a c l)))
       (fun c s l => ((del c (s.noteVa (waveOf c s).rid ((waveOf c s).htbl + 8 * s.srcCount c l .b) 8)).updCts (fun t => { t with binds := t.binds ++
         [⟨(waveOf c s).cl, h.d.toNat, (waveOf c s).uid, (waveOf c s).rid, s.srcCount c l .b⟩] }), {})) noPost)) ∧
  (∀ (h : Hdr) (f : EngFn) (x : BitVec 64) (R : Ctx → Nat → Region),
    let n := f.sub.toNat + 1
    let full := fun (s : State) (w : Wave) => decide (16 ≤ (s.atCore w.cl w.core .core).length) || !(s.atCore w.cl w.core .thread).isEmpty
    DoesMem (.amsg h f x)
      (fun c s l => (s.wave? c.uid).isSome ∧ s.region? (s.ridOf c.uid) = some (R c l) ∧
        s.amFault (waveOf c s) (R c l) h.d.toNat l (s.srcCount c l .b) h.c.toNat = none)
      (fun c s l =>
        let w := waveOf c s
        let r := R c l
        let m : AMsg :=
          { id := s.fresh, uid := c.uid, lane := l, tok := h.d.toNat, rid := w.rid, step := r.stepno, src := srcWord w l,
            peer := if r.cgrp = 0 then 0 else r.peerix, away := false, cl := w.cl, core := w.core, target := s.srcCount c l .b, index := h.c.toNat,
            words := leWords n (s.readRegs c.uid 0 .s h.a.toNat n), stage := if full s w then .thread else .core, view := s.opView }
        let t := s.updWave c.uid (fun w => (w.clearFailed h.d.toNat l).setTok h.d.toNat l true)
        (({ t with fresh := s.fresh + 1 } : State).updCts (fun t => { t with msgs := t.msgs ++ [m] }),
          { st := if full s w then some (.admission .message h.s) else admitted c })) noPost ∧
    DoesMem (.amsg h f x)
      (fun c s l => (s.wave? c.uid).isSome ∧ s.region? (s.ridOf c.uid) = some (R c l) ∧
        ∃ a, s.amFault (waveOf c s) (R c l) h.d.toNat l (s.srcCount c l .b) h.c.toNat = some ⟨fcMemUe, a⟩)
      (fun c s l =>
        let a := ((s.amFault (waveOf c s) (R c l) h.d.toNat l (s.srcCount c l .b) h.c.toNat).map (fun e => e.info)).getD 0
        (s.meetUeAt (waveOf c s).rid ⟨fcMemUe, a⟩, { ue := some a, st := admitted c })) noPost) ∧
  (∀ (h : Hdr) (f : EngFn) (x : BitVec 64),
    let o := fun (c : Ctx) (s : State) (l : Nat) => (s.srcCount c l .a + 16 * h.c.toNat) % 2 ^ 56
    DoesMem (.fetchw h f x)
      (fun c s l =>
        let w := waveOf c s
        let g := w.seg f.sub.toNat
        (s.wave? c.uid).isSome ∧ w.tokPending (h.d.toNat % 16) l = false ∧ o c s l + 16 ≤ segLimit g ∧
          s.outside w f.sub.toNat ((segBaseOf g + o c s l) % 2 ^ 56) 16 = false ∧ segWr g = true ∧ o c s l % 16 = 0)
      (fun c s l =>
        let w := waveOf c s
        let q : WgReq := ⟨c.uid, l, h.d.toNat % 16, if w.gid = 0 then 0 else w.lid, f.sub.toNat, w.byteAddr l f.sub.toNat (o c s l) 0, w.cl + 48 * w.ctx, w.core⟩
        ((s.updWave c.uid (fun w => w.setTok (h.d.toNat % 16) l true)).updCts (fun t => { t with wgreqs := t.wgreqs ++ [q] }), {})) noPost)

/-- The direct forms of the tensor and gather groups (R315, R340): with a readable layout, block or command, the record that the fields give
is posted with its options in the lowest free slot, pC is set, and the thread waits in admission; with no free slot pC is cleared. What a record's checks refuse where no rule settles it is log 94, the model's choice. -/
def Obligations.DirectFormsComplete : Prop :=
  ∀ (h : Hdr) (f : EngFn) (x : BitVec 64) (r : Ctx → Nat → Nat),
    let tok := tokField h.d.toNat
    let pair := fun (c : Ctx) (s : State) (l i : Nat) => s.readRegs c.uid l .s (h.a.toNat + i) 2
    let noted := fun (n : Nat) (c : Ctx) (s : State) (l : Nat) => s.noteVa (waveOf c s).rid (pair c s l 0) n
    let from' := fun (n : Nat) (c : Ctx) (s : State) (l : Nat) =>
      (s.wave? c.uid).isSome ∧ s.tokBusy c.uid l tok = false ∧ s.readVa (waveOf c s).rid (pair c s l 0) n = .ok (r c l)
    let post := fun (n : Nat) (record : Ctx → State → Nat → Nat) (lrec : Option Nat) (c : Ctx) (s : State) (l : Nat) =>
      posted tok (record c (noted n c s l) l) lrec c (noted n c s l) l
    let ready := fun (n : Nat) (record : Ctx → State → Nat → Nat) (lrec : Option Nat) (bad : State → Task → Bool) (c : Ctx) (s : State) (l : Nat) =>
      postsDirect tok (record c (noted n c s l) l) lrec bad c (noted n c s l) l
    let copyRec := fun (isOut : Bool) (c : Ctx) (s : State) (l : Nat) => s.tcpyRecord isOut c l (r c l)
    let copy := fun (isOut : Bool) (c : Ctx) (s : State) (l : Nat) =>
      pair c s l 0 % 64 = 0 ∧ pair c s l 0 < 2 ^ 56 ∧ pair c s l 8 < 2 ^ 56 ∧
      (isOut = false → s.readRegs c.uid l .s (h.a.toNat + 7) 1 < 256) ∧ from' 64 c s l ∧
      ready 64 (copyRec isOut) (some (r c l)) (tcpyBad isOut x.toNat (copyRec isOut c (noted 64 c s l) l) (r c l)) c s l
    let tileRec := fun (kind : Nat) (c : Ctx) (_ : State) (l : Nat) => mmaRecord kind x.toNat (r c l)
    let tile := fun (kind : Nat) (c : Ctx) (s : State) (l : Nat) =>
      pair c s l 0 % 8 = 0 ∧ pair c s l 0 < 2 ^ 56 ∧ from' 40 c s l ∧
      ready 40 (tileRec kind) none (fun _ t => mmBad t (mmaRecord kind x.toNat (r c l))) c s l
    let gsRec := fun (kind : Nat) (c : Ctx) (s : State) (l : Nat) => gsRecord kind x.toNat (s.readRegs c.uid l .s h.a.toNat 2) (r c l)
    let gather := fun (kind : Nat) (c : Ctx) (s : State) (l : Nat) =>
      gsFormBad kind x.toNat (pair c s l 0) = false ∧ from' 64 c s l ∧
      postsDirect tok (gsRec kind c s l) (some (r c l))
        (fun s' t => s'.gsBlockBad t.rid kind (r c l) || gsRecordBad t (gsRec kind c s l) (r c l)) c (noted 64 c s l) l
    let gathers := fun (kind : Nat) (c : Ctx) (s : State) (l : Nat) => posted tok (gsRec kind c s l) (some (r c l)) c (noted 64 c s l) l
    DoesMem (.tcpy h f x) (copy false) (fun c s l => post 64 (copyRec false) (some (r c l)) c s l) noPost ∧
    DoesMem (.tcpyw h f x) (copy true) (fun c s l => post 64 (copyRec true) (some (r c l)) c s l) noPost ∧
    DoesMem (.mma h f x) (tile 3) (post 40 (tileRec 3) none) noPost ∧
    DoesMem (.mmas h f x) (tile 4) (post 40 (tileRec 4) none) noPost ∧
    DoesMem (.gsx h f x) (gather 5) (gathers 5) noPost ∧
    DoesMem (.ssx h f x) (gather 6) (gathers 6) noPost ∧
    DoesMem (.ssxa h f x) (gather 0x0A) (gathers 0x0A) noPost

/-! ## Streams -/

/-- The stream instructions under feature bit 1 (R324 to R332). An operation on a register that no earlier one holds is performed at once, for every
participant: STOPN gives the register the image of a stream at its descriptor, not yet read, with the bound of B as END; STSKP raises the skip bound of an
open, ordered and unique stream, or sets it before the descriptor is read; STSAV copies the image to sixteen scalars, and STRST a valid image from
them; STCLS closes an open register, and leaves a closed one as it is. STNXT with its tokens free starts its delivery, and its participants wait for the
token; ISECT delivers the pairs of the two lists. That STSKP sets the bound without reading
memory (log 52) and where CUR stands after a delivery (log 72) are the model's choices. -/
def Obligations.StreamInstructionsComplete : Prop :=
  ∀ (h : Hdr) (f : EngFn) (x : BitVec 64),
    let open' := fun (w : Nat) (c : Ctx) (s : State) => s.granted 1 = true ∧ s.strmBusy c.uid [w] s.streams.length = false
    let done := fun (c : Ctx) (ws : List (RegRef × Word)) => ({ lanes := c.on.map (fun l => (l, .ok {})), sregs := ws } : WaveOut)
    let desc := fun (s : State) (c : Ctx) => s.readRegs c.uid 0 .s h.a.toNat 2 % 2 ^ 56
    let img := fun (s : State) (c : Ctx) => s.readRegs c.uid 0 .s h.a.toNat 16
    let st := fun (s : State) (c : Ctx) => s.strm c.uid h.a.toNat
    DoesAll (.stopn h f x) (fun c s => open' h.d.toNat c s ∧ desc s c % 32 = 0)
      (fun c s => (s.setStrm c.uid h.d.toNat (desc s c % 2 ^ 56 + 2 ^ 56 + s.pairB c % 2 ^ 64 * 2 ^ 64), done c [])) ∧
    DoesAll (.stskp h f x) (fun c s => open' h.a.toNat c s ∧ (st s c).st ≠ 0 ∧ (2 ≤ (st s c).st → (st s c).ord = true ∧ (st s c).unq = true))
      (fun c s => (s.setStrm c.uid h.a.toNat
        { st s c with skip := if (st s c).skv then max (st s c).skip (s.pairB c) else s.pairB c, skv := true }.bits, done c [])) ∧
    DoesAll (.stsav h f x) (open' h.a.toNat) (fun c s => (s, done c (regWrites 0 .s h.d.toNat 16 (st s c).bits))) ∧
    DoesAll (.strst h f x)
      (fun c s =>
        let i := Strm.of (img s c)
        open' h.d.toNat c s ∧ bitsAt (img s c) 434 14 = 0 ∧ bitsAt (img s c) 506 6 = 0 ∧ (i.st = 0 → { i with err := 0 }.bits = 0) ∧
          (2 ≤ i.st → i.iw ≠ 3 ∧ i.cur ≤ i.fin ∧ (i.ty = 0 ∨ i.ty = 2 → i.ord = true ∧ i.unq = true)))
      (fun c s => (s.setStrm c.uid h.d.toNat (img s c), done c [])) ∧
    DoesAll (.stcls h f x) (open' h.d.toNat)
      (fun c s => (if (s.strm c.uid h.d.toNat).st = 0 then s else s.setStrm c.uid h.d.toNat 0, done c [])) ∧
    DoesAll (.stnxt h f x)
      (fun c s => s.granted 1 = true ∧ ∀ l ∈ c.on, (waveOf c s).tokPending (bitsAt x.toNat 0 4) l = false)
      (fun c s =>
        let k := bitsAt x.toNat 0 4
        let q : StreamOp := ⟨c.uid, c.on, c.pc, c.next, h, 0xC1, f.sub.toNat, x.toNat, 0, 0, s.stepOf (waveOf c s).rid, s.forkAll c.uid c.on⟩
        let s := (s.updWave c.uid (fun w => c.on.foldl (fun w l => w.setTok k l true) w)).dropPend c.uid c.on
          (c.on.flatMap (fun l => q.range l) ++ [.s h.c.toNat])
        ({ s with streams := s.streams ++ [q] },
          { lanes := c.on.map (fun l => (l, .ok { st := some (.tokenWait (BitVec.ofNat 16 (2 ^ k)) c.next h.s false) })) })) ∧
    DoesAll (.isect h f x)
      (fun c s => s.granted 1 = true ∧ s.readRegs c.uid 0 .s h.c.toNat 1 ≤ 128 ∧ s.readRegs c.uid 0 .s (h.c.toNat + 1) 1 ≤ 128 ∧
        ∀ l, l < max (s.readRegs c.uid 0 .s h.c.toNat 1) (s.readRegs c.uid 0 .s (h.c.toNat + 1) 1) → l ∈ c.on)
      (fun c s =>
        let list := fun (r n : Nat) => (List.range n).map (fun l => tyInt f.ty (s.readRegs c.uid l .v r (tyRegs f.ty)))
        let r := isectOf (list h.a.toNat (s.readRegs c.uid 0 .s h.c.toNat 1)) (list h.b.toNat (s.readRegs c.uid 0 .s (h.c.toNat + 1) 1))
        (s, { lanes := c.on.map (fun l => (l, .ok (isectOut h f l ((r.1.drop l).head?)))),
              sregs := regWrites 0 .s (h.c.toNat + 2) 1 r.2.1 ++ regWrites 0 .s (h.c.toNat + 3) 1 r.2.2 }))

/-! ## The Asterism unit -/

/-- NCALL and TEXN under feature bit 0 (R359, R362): with the token free, a readable handle record that agrees with the instruction, and for TEXN a
readable texture whose samples are `chs`, the call with its inputs waits at the unit, its token is pending, and the thread waits in admission; with implicit derivatives TEXN issues quad-whole (R33). -/
def Obligations.NeuralCallsComplete : Prop :=
  ∀ (h : Hdr) (f : EngFn) (x : BitVec 64) (a r d fl : Ctx → Nat → Nat) (chs : Ctx → Nat → List Nat) (m : Ctx → Nat → TMem),
    let handle := fun (c : Ctx) (s : State) (l : Nat) =>
      (if h.mx = 0x1 then s.readS c.uid h.c.toNat else s.readV c.uid l h.c.toNat).toNat % 2 ^ 16
    let regs := fun (s : State) (c : Ctx) (l first n : Nat) => (List.range n).map (fun i => (s.readV c.uid l (first + i)).toNat)
    let open' := fun (c : Ctx) (s : State) (l : Nat) =>
      (s.wave? c.uid).isSome ∧ s.granted 0 = true ∧ (waveOf c s).tokPending h.d.toNat l = false
    let call := fun (w : Wave) (a r : Nat) (s : State) (l : Nat) (ins : List Nat) (fl : Nat) =>
      (s.startCall w (mkCall s w l h.d.toNat a r h.a.toNat (nsNOUT r + 1) ins fl),
        ({ st := some (.admission .call h.s) } : LaneOut))
    let scal := fun (c : Ctx) (s : State) (i : Nat) => s.readRegs c.uid 0 .s (h.c.toNat + i) 1
    let at' := fun (c : Ctx) (s : State) => s.readRegs c.uid 0 .s (h.c.toNat + 2) 2 % 2 ^ 56
    let lodm := bitsAt x.toNat 9 2
    let samples := fun (c : Ctx) (s : State) (l : Nat) =>
      open' c s l ∧ s.nsRead (issuedOf c s l) (scal c s 0 % 2 ^ 16) = .ok (a c l, r c l) ∧ s.texnDesc (waveOf c s).rid (at' c s) = .ok (d c l) ∧
        nsNIN (r c l) + 1 = txCh (d c l) + bitsAt x.toNat 4 5 ∧ nsNOUT (r c l) = bitsAt x.toNat 0 4 ∧ samplerBad (scal c s 1) = false ∧
        (lodm = 1 → (waveOf c s).quadFlag = true) ∧
        s.texChannels c l h.b.toNat lodm (d c l) (scal c s 1) 0 (txCh (d c l)) = .ok (chs c l, fl c l, m c l) ∧ (m c l).ue = none
    let calls := fun (c : Ctx) (s : State) (l : Nat) =>
      let t := ((s.noteVa (waveOf c s).rid (a c l) 128).noteVa (waveOf c s).rid (at' c s) 32).noteRead (m c l).locs none
      call (issuedOf c s l) (a c l) (r c l) t l (chs c l ++ regs s c l (h.b.toNat + (if lodm = 0 then 3 else 2)) (bitsAt x.toNat 4 5)) (fl c l)
    DoesMem (.ncall h f x)
      (fun c s l => open' c s l ∧ s.nsRead (issuedOf c s l) (handle c s l) = .ok (a c l, r c l) ∧ nsNIN (r c l) = bitsAt x.toNat 0 5 ∧
        nsNOUT (r c l) = bitsAt x.toNat 5 4)
      (fun c s l => call (issuedOf c s l) (a c l) (r c l) (s.noteVa (waveOf c s).rid (a c l) 128) l (regs s c l h.b.toNat (nsNIN (r c l) + 1)) 0) noPost ∧
    (lodm ≠ 1 → DoesMem (.texn h f x) samples calls noPost) ∧
    (lodm = 1 → DoesQuad (.texn h f x) samples calls)

/-- The residency instructions on a readable handle record (R360, R361): NPIN pins, NUNPIN unpins and NPREF fills the lines of the set, NQRY reads its
four counts, and NFLSH triggers the wave's bins, a set's, or the region's. -/
def Obligations.ResidencyInstructionsComplete : Prop :=
  ∀ (h : Hdr) (f : EngFn) (x : BitVec 64) (a r : Ctx → Nat),
    let set := fun (c : Ctx) (s : State) (l : Nat) =>
      (s.wave? c.uid).isSome ∧ s.granted 0 = true ∧ s.nsRead (issuedOf c s l) (s.handleA c) = .ok (a c, r c)
    let read := fun (c : Ctx) (s : State) => s.noteVa (waveOf c s).rid (a c) 128
    let lines := fun (c : Ctx) (s : State) => (read c s).setLines (waveOf c s).rid (r c)
    let unit := fun (c : Ctx) (s : State) (_ : Nat) => (s.wave? c.uid).isSome ∧ s.granted 0 = true
    let g6 := fun (c : Ctx) (s : State) => (waveOf c s).seg 6
    DoesOnceMem (.npin h f x) set (fun c s l =>
      let q := (read c s).pinSet (issuedOf c s l) (a c) (r c)
      (q.1, { sregs := regWrites 0 .s h.d.toNat 1 q.2.1 ++ regWrites 0 .s (h.d.toNat + 1) 1 q.2.2 })) noPost ∧
    DoesOnceMem (.nunpin h f x) set (fun c s _ =>
      ((read c s).wcUnpin (fun l => l.cl = (waveOf c s).cl && (lines c s).contains l.line), {})) noPost ∧
    DoesOnceMem (.npref h f x) set (fun c s _ => ((lines c s).foldl (fun t line => t.wcPrefetch (waveOf c s).cl line) (read c s), {})) noPost ∧
    DoesOnceMem (.nqry h f x) set (fun c s l =>
      (read c s, { sregs := regWrites 0 .s h.d.toNat 4 (wordsNat (((read c s).setCounts (issuedOf c s l) (a c) (r c)).map (BitVec.ofNat 32))) })) noPost ∧
    (f.sub = 0 → DoesOnceMem (.nflsh h f x) unit (fun c s _ =>
      (s.flushBins (fun b => b.cl = (waveOf c s).cl && b.calls.any (fun q => q.uid = c.uid)), {})) noPost) ∧
    (f.sub = 1 → DoesOnceMem (.nflsh h f x)
      (fun c s l => unit c s l ∧ 128 * s.handleA c + 128 ≤ segLimit (g6 c s))
      (fun c s _ => (s.flushBins (fun b => b.cl = (waveOf c s).cl && b.rid = (waveOf c s).rid &&
        b.key = (segBaseOf (g6 c s) + 128 * s.handleA c) % 2 ^ 56), {})) noPost) ∧
    (2 ≤ f.sub.toNat → DoesOnceMem (.nflsh h f x) unit (fun c s _ =>
      (s.flushBins (fun b => b.cl = (waveOf c s).cl && b.rid = (waveOf c s).rid), {})) noPost)

/-- WTBL (R363): .sync triggers every bin of the sets that it names and waits for their tiles, with none at all answering (0, 0) at once; .unpin unpins
the lines that stand recorded for their keys, and counts those (log 55, the model's choice of which lines these are); a region that the wave may not name answers (0, all ones). -/
def Obligations.WtblCompletes : Prop :=
  ∀ (h : Hdr) (f : EngFn) (x : BitVec 64) (p : Ctx → Nat → Nat → Bool),
    let n := fun (s : State) (c : Ctx) => s.readRegs c.uid 0 .s h.b.toNat 1 % 2 ^ 17
    let sets := fun (s : State) (c : Ctx) =>
      s.wtblSets (waveOf c s) (s.readRegs c.uid 0 .s h.a.toNat 1 % 2 ^ 16) (n s c) (s.readRegs c.uid 0 .s h.c.toNat 1)
    let ok := fun (c : Ctx) (s : State) => (s.wave? c.uid).isSome ∧ 0 < n s c ∧ n s c ≤ 65536
    let bins := fun (c : Ctx) (s : State) => s.asu.bins.filter (fun b => p c b.rid b.key)
    let tiles := fun (c : Ctx) (s : State) => (s.asu.tiles.filter (fun t => p c t.rid t.key && !t.ready)).map (fun t => t.id) ++ (bins c s).map (fun b => b.seq)
    let pair := fun (a b : Nat) => ({ sregs := regWrites 0 .s h.d.toNat 1 a ++ regWrites 0 .s (h.d.toNat + 1) 1 b, st := some .settling } : UniOut)
    let hit := fun (c : Ctx) (l : WcLine) => l.pins.any (fun k => p c k.1 k.2)
    DoesOnceMem (.wtblSync h f x) (fun c s _ => ok c s ∧ sets s c = some (p c))
      (fun c s _ =>
        let t := s.flushBins (fun b => p c b.rid b.key)
        if (tiles c s).isEmpty then (t, pair 0 0)
        else (t.updAsu (fun a => { a with syncs := a.syncs ++ [⟨c.uid, c.on,
          [(h.d.toNat, BitVec.ofNat 32 (bins c s).length), (h.d.toNat + 1, BitVec.ofNat 32 (tiles c s).length)], tiles c s, [], []⟩] }),
          { st := some .settling })) noPost ∧
    DoesOnceMem (.wtblUnpin h f x) (fun c s _ => ok c s ∧ sets s c = some (p c))
      (fun c s _ => (s.wcUnpin (hit c), pair (s.asu.wc.filter (hit c)).length 0)) noPost ∧
    DoesOnceMem (.wtblSync h f x) (fun c s _ => ok c s ∧ sets s c = none) (fun _ s _ => (s, pair 0 0xFFFFFFFF)) noPost ∧
    DoesOnceMem (.wtblUnpin h f x) (fun c s _ => ok c s ∧ sets s c = none) (fun _ s _ => (s, pair 0 0xFFFFFFFF)) noPost

/-! ## Textures -/

/-- TEX of a readable, valid descriptor that has the channels, TLD of texels that exist or lie outside the level, TQRY (R389 to R392): the values are the result,
and the reads have their places in the order of memory; with implicit derivatives TEX issues quad-whole (R33). DDX and DDY (vector forms; U = 1 is refused) in a wave with the quad flag: the difference of the two
members of the quad, or 0 where one of them does not take part (R393). -/
def Obligations.TexturesAndDerivativesComplete : Prop :=
  (∀ (h : Hdr) (f : EngFn) (x : BitVec 64) (d : Ctx → Nat → Nat) (m : Ctx → Nat → TMem) (r : Ctx → Nat → List Nat × Nat × TMem)
     (v : Ctx → Nat → Nat → Nat × Nat × TMem),
     let n := bitsAt x.toNat 0 4
     let lodm := bitsAt x.toNat 9 2
     let out := fun (c : Ctx) (s : State) (l : Nat) (q : List Nat × Nat × TMem) =>
       let ls := (m c l).locs ++ q.2.2.locs
       ((((s.noteRead ls none).meetUe ls).noteLevel (4 * (waveOf c s).cl + (waveOf c s).core) ls),
         ({ regs := regWrites l .v h.d.toNat q.1.length (wordsNat (q.1.map (BitVec.ofNat 32))), flags := BitVec.ofNat 7 q.2.1, ue := q.2.2.ue,
            st := admitted c } : LaneOut))
     let desc := fun (va : Nat) (c : Ctx) (s : State) (l : Nat) =>
       (s.wave? c.uid).isSome ∧ s.tread (waveOf c s).rid va 32 = .ok (d c l, m c l) ∧ (m c l).ue = none ∧ txBad (d c l) = false
     let reg := fun (s : State) (c : Ctx) (l i : Nat) => (s.readV c.uid l (h.a.toNat + i)).toNat
     let holds := fun (s : State) (c : Ctx) (l : Nat) =>
       reg s c l 2 ≤ txLevels (d c l) ∧ reg s c l 0 < txW (d c l) (reg s c l 2) ∧ reg s c l 1 < txH (d c l) (reg s c l 2)
     let samples := fun (c : Ctx) (s : State) (l : Nat) =>
       desc (texArgs c s).2.2 c s l ∧ samplerBad (texArgs c s).1 = false ∧ (texArgs c s).2.1 + n < txCh (d c l) ∧
         (lodm = 1 → (waveOf c s).quadFlag = true) ∧
         s.texChannels c l h.a.toNat lodm (d c l) (texArgs c s).1 (texArgs c s).2.1 (n + 1) = .ok (r c l)
     (lodm ≠ 1 → DoesMem (.tex h f x) samples (fun c s l => out c s l (r c l)) noPost) ∧
     (lodm = 1 → DoesQuad (.tex h f x) samples (fun c s l => out c s l (r c l))) ∧
     DoesMem (.tld h f x)
       (fun c s l => desc (texArgs c s).2.2 c s l ∧ (texArgs c s).2.1 + n < txCh (d c l) ∧ holds s c l ∧
         ∀ i, i ≤ n → s.texel (waveOf c s).rid (d c l) (reg s c l 2) ((texArgs c s).2.1 + i) (reg s c l 0) (reg s c l 1) = .ok (v c l i))
       (fun c s l => out c s l ((List.range (n + 1)).map (fun i => (v c l i).1), 0,
         (List.range (n + 1)).foldl (fun (q : TMem) i => q.or (v c l i).2.2) TMem.none)) noPost ∧
     DoesMem (.tld h f x)
       (fun c s l => desc (texArgs c s).2.2 c s l ∧ (texArgs c s).2.1 + n < txCh (d c l) ∧ ¬holds s c l)
       (fun c s l => out c s l (List.replicate (n + 1) 0, 0, .none)) noPost ∧
     DoesMem (.tqry h f x) (fun c s l => desc (s.readRegs c.uid 0 .s h.c.toNat 2 % 2 ^ 56) c s l)
       (fun c s l =>
         let lv := (s.readV c.uid l h.a.toNat).toNat
         out c s l (if f.sub = 0 then (if txLevels (d c l) < lv then [0, 0] else [txW (d c l) lv, txH (d c l) lv])
           else [txLevels (d c l) + 2 ^ 4 * (txCh (d c l) - 1) + 2 ^ 8 * txEty (d c l)], 0, .none)) noPost) ∧
  (∀ (h : Hdr) (f : EngFn) (x : BitVec 64), h.u = false →
     let quad := fun (c : Ctx) (s : State) => ∃ w, s.wave? c.uid = some w ∧ w.quadFlag = true
     let diff := fun (isY : Bool) (c : Ctx) (s : State) (l : Nat) =>
       let p := diffLanes isY (f.sub = 1) l
       let v := fun (b : Nat) => fp32.value (fp32.daz (acDZI (s.acOf c.uid)) b)
       match quadPair c s h.a.toNat p.1 p.2 with
       | none => ({ val := 0, n := 1 } : Res)
       | some q =>
         let r := fp32.subRes .rn (acFZ (s.acOf c.uid)) (v q.1) (v q.2)
         { val := r.bits, n := 1, flags := BitVec.ofNat 7 r.fl }
     ComputesIf (.ddx h f x) quad (diff false) ∧ ComputesIf (.ddy h f x) quad (diff true))

/-! ## Rays and beams -/

/-- RTRACE under feature bit 2 of a readable record that is not in flight, and whose flags are valid, submits the ray; RLD and RST read and write words of
a record, of a peer's page by messages; RPOOL takes a ray back, its predicate telling whether one of the region was in flight, and a submitter that waits for a place goes on;
RQRY reads the four counts (R378 to R382). -/
def Obligations.RayInstructionsComplete : Prop :=
  ∀ (h : Hdr) (f : EngFn) (x : BitVec 64) (r va : Ctx → Nat → Nat) (ls : Ctx → Nat → List (Nat × Loc)) (y : Ctx → Nat → Ray),
    let rec' := fun (wr : Bool) (c : Ctx) (s : State) (l : Nat) =>
      (s.wave? c.uid).isSome ∧ s.granted 2 = true ∧ s.rayRec c (issuedOf c s l) l wr = .ok (r c l, va c l, ls c l)
    let locs := fun (c : Ctx) (l : Nat) => (ls c l).map (fun q => q.2)
    let flying := fun (c : Ctx) (s : State) (l : Nat) => s.flying (waveOf c s).rid (va c l)
    let b := h.b.toNat
    let n := f.sub.toNat + 1
    let word := fun (v l : Nat) => regWrites l .v h.d.toNat n (bitsAt v (32 * b) (32 * n))
    let part := fun (c : Ctx) (l : Nat) => ((ls c l).drop (4 * b)).take (4 * n)
    DoesMem (.rtrace h f x)
      (fun c s l => rec' false c s l ∧ (waveOf c s).tokPending h.d.toNat l = false ∧ flying c s l = none ∧ s.ueAt (ls c l) = none ∧
        s.missing (ls c l) = none ∧ flagsBad (ryFlags (leNat (s.readLocs (locs c l)))) = false)
      (fun c s l =>
        let t := s.noteRead (locs c l) none
        let ray := newRay t (issuedOf c s l) l h.d.toNat (r c l) (va c l) (leNat (s.readLocs (locs c l))) (s.readRegs c.uid 0 .s h.c.toNat 2 % 2 ^ 56)
          (s.readRegs c.uid 0 .s (h.c.toNat + 2) 2 % 2 ^ 56) none
        ((t.updWave c.uid (fun w => (w.clearFailed h.d.toNat l).setTok h.d.toNat l true)).addRay ray,
          { st := if ray.st = .noPlace then some (.admission .ray h.s) else admitted c })) noPost ∧
    DoesMem (.rld h f x) (fun c s l => rec' false c s l ∧ b + n ≤ 16 ∧ flying c s l = some (y c l))
      (fun c s l => (s, { regs := word (y c l).copy l, st := admitted c })) noPost ∧
    DoesMem (.rld h f x) (fun c s l => rec' false c s l ∧ b + n ≤ 16 ∧ flying c s l = none ∧ s.missing (ls c l) = none)
      (fun c s l => ((((s.noteRead (locs c l) none).meetUe (locs c l)).touch c.uid (some 1) (locs c l)).noteHits c l 7 0 (ls c l) (s.readLocs (locs c l)),
        { regs := word (leNat (s.readLocs (locs c l))) l, ue := s.ueAt (ls c l), st := admitted c })) noPost ∧
    DoesMem (.rst h f x) (fun c s l => rec' true c s l ∧ b + n ≤ 16 ∧ flying c s l = none)
      (fun c s l =>
        let bs := leBytes (4 * n) (s.readRegs c.uid l .v h.d.toNat n)
        let sent := (part c l).map (fun q => q.2)
        let ps := remParts (part c l) bs
        let t := (s.storeAs sent bs none false).touch c.uid (some 1) sent
        ((ps.foldl (fun t p => t.askWrite c l p.1 p.2.1 p.2.2.1 p.2.2.2.2.length p.2.2.2.1 none none
            (.store p.2.1 p.2.2.2.2 (t.peerAcc p.2.2.2.1 (t.ownRels p.2.2.2.1 none) false))) t).noteHits c l 7 1 (part c l) bs,
          { st := some (.admission (if ps.isEmpty then .checks else .peer) h.s) })) noPost ∧
    DoesMem (.rpool h f x) (fun c s l => rec' false c s l ∧ flying c s l = some (y c l) ∧ (y c l).rid = (waveOf c s).rid)
      (fun c s l => (((s.seatRay (y c l)).updRay (y c l).cl (y c l).id (fun q => { q with st := .finish 7 0 0, fault := none, susp := false })).updCb
        (fun q => if q.ray = (y c l).id then { q with ray := 0 } else q), { preds := [(h.d.toNat, true)], st := admitted c })) noPost ∧
    DoesMem (.rpool h f x) (fun c s l => rec' false c s l ∧ (flying c s l = none ∨ (flying c s l = some (y c l) ∧ (y c l).rid ≠ (waveOf c s).rid)))
      (fun c s _ => (s, { preds := [(h.d.toNat, false)], st := admitted c })) noPost ∧
    DoesOnceMem (.rqry h f x) (fun c s _ => (s.wave? c.uid).isSome ∧ s.granted 2 = true)
      (fun c s _ => (s, { sregs := regWrites 0 .s h.d.toNat 4 (wordsNat ((s.rayCounts (waveOf c s)).map (BitVec.ofNat 32))) })) noPost

/-- RVERD in a callback lane that has not given its verdict (R380); where its ray is gone, nothing but that it is given: an any-hit lane accepts or refuses the candidate, an
intersection lane gives its hit; BEAM submits a beam of a valid block whose records pass the checks (R384); COVRD reads a visibility entry (R387). Which checks of a beam's block raise which fault is log 74, the model's choice. -/
def Obligations.VerdictsAndBeamsComplete : Prop :=
  ∀ (h : Hdr) (f : EngFn) (x : BitVec 64) (ys : Ctx → Nat → List CbLane) (y : Ctx → Nat → CbLane) (b v : Ctx → Nat → Nat) (m q : Ctx → Nat → TMem),
    DoesMem (.rverd h f x)
      (fun c s l => (s.wave? c.uid).isSome ∧ s.granted 2 = true ∧ (waveOf c s).kind = .callback (ys c l) ∧
        (ys c l).find? (fun q => q.lane = l && !q.done && q.kind ≤ 1) = some (y c l))
      (fun c s l =>
        let t := s.updWave c.uid (fun w => { w with kind := .callback ((ys c l).map (fun q => if q.lane = l then { q with done := true } else q)) })
        let given := fun (q : Ray) => if f.sub = 1 then none else q.given (t.readV c.uid l h.a.toNat).toNat (t.readV c.uid l h.b.toNat).toNat
        let said := fun (q : Ray) =>
          if (y c l).kind = 0 then q.verdict 0 (decide (f.sub ≠ 1)) (decide (f.sub = 2))
          else match given q with
            | some g => ({ q with cand := some g } : Ray).verdict 1 true (decide (f.sub = 2))
            | none => q.verdict 1 false (decide (f.sub = 2))
        (if (y c l).ray = 0 then t else t.updRay (waveOf c s).cl (y c l).ray (fun q => { said q with view := joinIds q.view t.opView }), {})) noPost ∧
    DoesMem (.beam h f x)
      (fun c s l =>
        let a := s.readRegs c.uid 0 .s h.c.toNat 2 % 2 ^ 56
        (s.wave? c.uid).isSome ∧ s.granted 2 = true ∧ (waveOf c s).tokPending h.d.toNat l = false ∧ a % 128 = 0 ∧
          s.readVa (waveOf c s).rid a 128 = .ok (b c l) ∧ blockBad (b c l) = false ∧ s.poolFault (issuedOf c s l) l (bmBase (b c l)) = none)
      (fun c s l =>
        let w := issuedOf c s l
        let t := s.noteVa w.rid (s.readRegs c.uid 0 .s h.c.toNat 2 % 2 ^ 56) 128
        let m : Beam :=
          { id := t.fresh, cl := w.cl, rid := w.rid, uid := c.uid, lane := l, tok := h.d.toNat, owner := w.owner l h.d.toNat,
            step := ((t.region? w.rid).map (fun q => q.stepno)).getD 0, lid := w.lid, priv := w.priv, segs := w.g, al2 := w.al2, al3 := w.al3,
            ctx := w.ctx, unit := none, block := b c l, tile := t.readRegs c.uid l .v h.a.toNat 1, next := 0, cur := none, entries := [], split := [],
            failed := none, written := 0, fault := none, susp := false, view := t.opView }
        let u := t.updWave c.uid (fun w => (w.clearFailed h.d.toNat l).setTok h.d.toNat l true)
        (({ u with fresh := u.fresh + 1 } : State).updRtu (fun r => { r with beams := r.beams ++ [m] }), { st := admitted c })) noPost ∧
    DoesMem (.covrd h f x)
      (fun c s l =>
        let p := s.readRegs c.uid l .v h.a.toNat 1
        (s.wave? c.uid).isSome ∧ s.granted 2 = true ∧
          s.tread (waveOf c s).rid (s.readRegs c.uid 0 .s h.c.toNat 2 % 2 ^ 56 + 72) 12 = .ok (b c l, m c l) ∧ (m c l).ue = none ∧
          s.tread (waveOf c s).rid ((bitsAt (b c l) 0 56 + bitsAt p 16 16 * bitsAt (b c l) 64 32 + 16 * bitsAt p 0 16) % 2 ^ 56) 16 = .ok (v c l, q c l))
      (fun c s l =>
        let ls := (m c l).locs ++ (q c l).locs
        (((s.noteRead ls none).meetUe ls).noteLevel (4 * (waveOf c s).cl + (waveOf c s).core) ls,
          { regs := regWrites l .v h.d.toNat 4 (v c l), ue := (q c l).ue, st := admitted c })) noPost

/-! ## System instructions -/

/-- SEGLD and SEGRD (R73), CSRRD and CSRWR of a register that exists and that the region may reach (R451), in the privileged mode. -/
def Obligations.SegmentAndControlRegistersComplete : Prop :=
  ∀ (h : Hdr) (f : EngFn) (x : BitVec 64) (sh : Ctx → CsrShape),
    let addr := fun (c : Ctx) (s : State) => s.readRegs c.uid 0 .s h.a.toNat 1
    let csr := fun (c : Ctx) (s : State) (_ : Nat) => csrShape (addr c s) = some (sh c) ∧ s.csrAllowed (s.ridOf c.uid) (addr c s) = true
    DoesOnceMem (.segld h f x) always (fun c s _ =>
      (s.updWave c.uid (fun w => w.setSeg h.d.toNat (BitVec.ofNat 128 (segValue h.d.toNat (s.readRegs c.uid 0 .s h.a.toNat 4)))), {})) noPost ∧
    DoesOnceMem (.segrd h f x) (fun c s _ => (s.wave? c.uid).isSome) (fun c s _ =>
      (s, { sregs := regWrites 0 .s h.d.toNat 4 ((waveOf c s).seg h.a.toNat).toNat })) noPost ∧
    DoesOnceMem (.csrrd h f x) csr (fun c s _ => (s, { sregs := regWrites 0 .s h.d.toNat 2 (s.csrRead (addr c s) (sh c)) })) noPost ∧
    DoesOnceMem (.csrwr h f x) csr (fun c s _ =>
      (s.asService (fun t => t.csrWrite (decide (s.ridOf c.uid = 0)) (addr c s) (sh c) (t.readRegs c.uid 0 .s h.b.toNat 2)), {})) noPost

/-- The handler instructions on an open handle `hd` of the region (R191 to R195, R441): TRET queues the change of a parked sub-wave for the end of the
slot, and frees an engine's handle while its operation goes on or ends, and walks that start later follow what the handler has written (R431); PARKQ reads the
four words; LANEPC reads or writes a parked lane's pc, or takes the lane out of a mask. -/
def Obligations.HandlerInstructionsComplete : Prop :=
  ∀ (h : Hdr) (f : EngFn) (x : BitVec 64) (R : Ctx → Nat → Rec) (e : Ctx → EngObj),
    let hd := fun (c : Ctx) (s : State) => s.readRegs c.uid 0 .s h.a.toNat 1
    let is := fun (c : Ctx) (s : State) (l : Nat) => s.recOf (s.ridOf c.uid) (hd c s) = some (R c l)
    let lane := fun (c : Ctx) (s : State) (l : Nat) => s.srcCount c l .b % 128
    let inside := fun (c : Ctx) (s : State) (l : Nat) => (R c l).lanes.any (fun p => p.lane = lane c s l)
    let setPc := fun (c : Ctx) (s : State) (l : Nat) =>
      let t := s.updThread (R c l).uid (lane c s l) (fun t => { t with pc := BitVec.ofNat 56 (s.readRegs c.uid l .v h.d.toNat 2) })
      { t with recs := t.recs.map (fun q =>
          if q.rid = s.ridOf c.uid && q.handle = some (hd c s) then
            { q with lanes := q.lanes.map (fun p => if p.lane = lane c s l then { p with changed := true } else p) }
          else q) }
    let walks := fun (s : State) => ({ s with ord := { s.ord with walk := joinIds s.ord.walk s.opView } } : State)
    DoesOnceMem (.tret h f x) (fun c s l => is c s l ∧ (R c l).eng = none)
      (fun c s _ => (walks { s with tretQ := s.tretQ ++ [(s.ridOf c.uid, hd c s, decide (f.sub = 1), s.opView)] }, {})) noPost ∧
    DoesOnceMem (.tret h f x) (fun c s l => is c s l ∧ (R c l).eng = some (e c))
      (fun c s _ =>
        let t := walks s
        (({ t with recs := t.recs.filter (fun q => !(q.rid = s.ridOf c.uid && q.handle = some (hd c s))) } : State).asService (fun t =>
          if f.sub = 1 then (t.dropAsked (e c)).engExit (s.ridOf c.uid) (e c) else (t.dropAsked (e c)).engResume (e c)), {})) noPost ∧
    DoesOnceMem (.parkq h f x) is
      (fun c s l => (s, { sregs := regWrites 0 .s h.d.toNat 4 (s.parkWords (R c l) (lane c s l)) })) noPost ∧
    (f.sub = 0 → DoesMem (.lanepc h f x) (fun c s l => is c s l ∧ (R c l).eng = none)
      (fun c s l => (if inside c s l then setPc c s l else s, {})) noPost) ∧
    (f.sub = 1 → DoesMem (.lanepc h f x) (fun c s l => is c s l ∧ (R c l).eng = none)
      (fun c s l =>
        let pc := if inside c s l then (s.thread (R c l).uid (lane c s l)).pc.toNat else 2 ^ 64 - 1
        (s, { regs := regWrites l .v h.d.toNat 2 pc })) noPost) ∧
    (2 ≤ f.sub.toNat → DoesMem (.lanepc h f x) (fun c s l => is c s l ∧ (R c l).eng = none)
      (fun c s l =>
        (if inside c s l then
          (match s.wave? (R c l).uid with
            | some w => s.writeMask (R c l).uid h.c.toNat (setLane (w.mask h.c.toNat) (lane c s l) false)
            | none => s)
          else s, {}))
      noPost)

/-- The region instructions (R417): each gives its pair and settles; the SVC performs them as they issue, and the wave's own accesses have no part in them: the model's
choice (log 78). A refused registration or update answers status 4 and changes nothing. SPAWN gives the launch id and 0, or 0 and the reason of its refusal
(R286), the reasons tested in the order of the model's choice (log 21), that of an unreadable control block among them (log 73). TLBOP (R432, R433): 0 and no other effect for
a region that does not exist; for one that does the removal, and 1 once what has used a translation that it removes is over; walks that start later follow what the wave has
written (R431); the forms that name a share tag run for tags of 1 to 255. -/
def Obligations.RegionInstructionsComplete : Prop :=
  ∀ (h : Hdr) (f : EngFn) (x : BitVec 64),
    let form := fun (i : Instr) (g : Ctx → State → State × Nat × Nat) =>
      DoesOnceMem i always (fun c s _ =>
        let r := s.serve (g c)
        (r.1, { sregs := regWrites 0 .s h.d.toNat 1 r.2.1 ++ regWrites 0 .s (h.d.toNat + 1) 1 r.2.2, st := some .settling })) noPost
    let tlbop := fun (sub : Nat) (P : Ctx → State → Nat → Prop) (i : Instr) =>
      DoesOnceMem i P (fun c s l =>
        match s.region? (s.srcCount c l .b) with
        | none => (s, { sregs := regWrites 0 .s h.d.toNat 1 0 })
        | some r =>
          let va := s.readRegs c.uid 0 .s h.a.toNat 2 % 2 ^ 56
          let t := s.asService (fun t => t.tlbop r sub va (s.srcCount c l .c % 2 ^ 8))
          let u := ({ t with ord := { t.ord with walk := joinIds t.ord.walk t.opView } } : State).dropPend c.uid c.on [.s h.d.toNat]
          (u.asService (fun u => (u.settleOld r sub va ⟨c.uid, c.on, [(h.d.toNat, 1)], [], [], []⟩).landOwed), {})) noPost
    let tag := fun (c : Ctx) (s : State) (l : Nat) => s.srcCount c l .c % 2 ^ 8 ≠ 0
    form (.rcbopReg h f x) (fun c s => match s.register (s.ridOf c.uid) (s.pairA c) with | none => (s, 0, 4) | some (t, id) => (t, id, 0)) ∧
    form (.rcbopRet h f x) (fun c s =>
      let id := s.oneA c
      if (s.region? id).isSome then (s.updRegion id (fun r => { r with retiring := true }), 1, 0) else (s, 0, 0)) ∧
    form (.rcbopUpd h f x) (fun c s => match s.update (s.ridOf c.uid) (s.oneA c) with | none => (s, 0, 4) | some t => (t, 1, 0)) ∧
    form (.rcbopQry h f x) (fun c s => (s, (s.wd.launches.filter (fun l => l.rid = s.oneA c)).length, s.coresHeld (s.oneA c))) ∧
    form (.rcbopAdr h f x) (fun c s =>
      let a := match s.region? (s.oneA c) with | some r => r.adr | none => 0
      (s, a % 2 ^ 32, a / 2 ^ 32)) ∧
    DoesOnceMem (.spawn h f x) always (fun c s _ =>
      let r := s.serve (fun t => t.spawn (s.ridOf c.uid) (s.readRegs c.uid 0 .s h.a.toNat 2 % 2 ^ 56) (s.readRegs c.uid 0 .s (h.a.toNat + 2) 2 % 2 ^ 56) none
        s.opView)
      (r.1, { sregs := regWrites 0 .s h.d.toNat 1 r.2.1 ++ regWrites 0 .s (h.d.toNat + 1) 1 r.2.2 })) noPost ∧
    tlbop 0 always (.tlbopVa h f x) ∧ tlbop 1 always (.tlbopAll h f x) ∧ tlbop 2 tag (.tlbopSva h f x) ∧ tlbop 3 tag (.tlbopSid h f x) ∧
      tlbop 4 always (.tlbopPart h f x)

/-- The service calls (R468, R469) on a buffer that is aligned and writable, whose nonce can be read: .att stores the quote over the nonce and answers 1, .cert
stores the certificate and answers its length; on any other buffer both answer (0, 1), of which the model chooses that a buffer at or above 2^56 (log 84) and one whose nonce
cannot be read (log 14) are such, and that the SVC acts as they issue (log 78). IDLE (R439) with a valid selection answers a selected event that is there, and takes an
interrupt at once where it selects them and one is there, and else the thread sleeps. -/
def Obligations.ServiceCallsAndIdleComplete : Prop :=
  ∀ (h : Hdr) (f : EngFn) (x : BitVec 64) (ls : Ctx → List (Nat × Loc)),
    let buf := fun (s : State) (c : Ctx) => s.readRegs c.uid 0 .s h.a.toNat 2
    let pair := fun (a b : Nat) => ({ sregs := regWrites 0 .s h.d.toNat 1 a ++ regWrites 0 .s (h.d.toNat + 1) 1 b, st := some .settling } : UniOut)
    let cert := Config.certificate.take 4096
    let svc := fun (s : State) => ({ s with ord := { s.ord with agent := none } } : State)
    let reaches := fun (n : Nat) (c : Ctx) (s : State) (_ : Nat) =>
      buf s c % 64 = 0 ∧ buf s c < 2 ^ 56 ∧ (svc s).bytesOfVa (s.ridOf c.uid) (buf s c) true n = .ok (ls c)
    let misses := fun (n : Nat) (c : Ctx) (s : State) (_ : Nat) =>
      buf s c % 64 ≠ 0 ∨ 2 ^ 56 ≤ buf s c ∨ ∃ e, (svc s).bytesOfVa (s.ridOf c.uid) (buf s c) true n = .error e
    let nonce := fun (c : Ctx) (s : State) => (svc s).readLocs (((ls c).take 48).map (fun q => q.2))
    let readable := fun (c : Ctx) (s : State) => (svc s).missing ((ls c).take 48) = none ∧ (svc s).poisonAt (((ls c).take 48).map (fun q => q.2)) = none
    let E := fun (s : State) (c : Ctx) => s.readRegs c.uid 0 .s h.a.toNat 1
    let till := fun (s : State) (c : Ctx) => s.clk + 16 * s.readRegs c.uid 0 .s (h.a.toNat + 1) 1
    DoesOnceMem (.svcallAtt h f x)
      (fun c s l => reaches 304 c s l ∧ readable c s)
      (fun c s _ => (s.asService (fun t => (t.updSvc (fun v => { v with quotes := v.quotes + 1 })).post (s.ridOf c.uid) (buf s c + 48)
        (((ls c).drop 48).map (fun q => q.2)) (t.quote (leNat (nonce c s)))), pair 1 0)) noPost ∧
    DoesOnceMem (.svcallAtt h f x) (fun c s l => reaches 304 c s l ∧ ¬readable c s) (fun _ s _ => (s, pair 0 1)) noPost ∧
    DoesOnceMem (.svcallCert h f x) (reaches cert.length)
      (fun c s _ => (s.asService (fun t => t.post (s.ridOf c.uid) (buf s c) ((ls c).map (fun q => q.2)) cert), pair cert.length 0)) noPost ∧
    DoesOnceMem (.svcallAtt h f x) (misses 304) (fun _ s _ => (s, pair 0 1)) noPost ∧
    DoesOnceMem (.svcallCert h f x) (misses cert.length) (fun _ s _ => (s, pair 0 1)) noPost ∧
    DoesOnceMem (.idle h f x) (fun c s _ => (s.wave? c.uid).isSome ∧ 0 < E s c ∧ E s c < 2 ^ 4)
      (fun c s _ =>
        let now := s.idleEvents (waveOf c s) (E s c) (till s c) 0
        (s, if now ≠ 0 then { sregs := regWrites 0 .s h.d.toNat 1 now } else { st := some (.sleeping (.idle (E s c) (till s c) h.d.toNat 0) h.s) })) (idleDeliver h)

/-! ## Faults of an instruction -/

/-- Checks that fail stop their thread with the fault that the spec names. A jump to a target whose low two bits are not zero faults at the jump with FETCHFMT
and the target as INFO, and a call leaves ra (R17, R171). MWAIT in a lane that is no member faults with BARMASK, object 0x40 + the mask, reason 8, and at
another address than the mask's site with reason 7 (R177, R189), membership tested first: the model's choice (log 62). An arrival of BAR, BARARR or SSTEP whose check fails
faults with BARMASK, the barrier's number, or 0xFF for the step, and the reason, and leaves the record (R181, R185); a barrier number at or above the workgroup's count
(R179), or a wave set that names a wave that does not exist (R180), faults with ILLEGAL. A handle that names no open record of the region faults with HANDLE and the handle as
INFO, in TRET, PARKQ and LANEPC (R192 to R194), in LANEPC also an engine's handle (R441). -/
def Obligations.ChecksFault : Prop :=
  (∀ (h : Hdr) (f : CodeFn) (x : BitVec 64),
     let bad := fun (t : VA) => (⟨fcFetchFmt, t.toNat⟩ : LFault)
     Faults (.bra h f x) (fun c _ _ => (labelTarget c x).toNat % 4 ≠ 0) (fun c _ _ => bad (labelTarget c x)) ∧
     Faults (.brx h f x) (fun c s l => (s.pairTarget c l).toNat % 4 ≠ 0) (fun c s l => bad (s.pairTarget c l)) ∧
     Faults (.call h f x) (fun c _ _ => (labelTarget c x).toNat % 4 ≠ 0) (fun c _ _ => bad (labelTarget c x)) ∧
     Faults (.callx h f x) (fun c s l => (s.pairTarget c l).toNat % 4 ≠ 0) (fun c s l => bad (s.pairTarget c l)) ∧
     Faults (.ret h f x) (fun c s l => (s.thread c.uid l).ra.toNat % 4 ≠ 0) (fun c s l => bad (s.thread c.uid l).ra)) ∧
  (∀ (h : Hdr) (f : CodeFn) (x : BitVec 64),
     let m := h.a.toNat
     let member := fun (c : Ctx) (s : State) (l : Nat) => inMask ((waveOf c s).mask m) l
     let parks := fun (r : Nat) (P : Ctx → State → Nat → Prop) =>
       FaultsThen (.mwait h f x) (fun c s l => (s.wave? c.uid).isSome ∧ P c s l) (fun _ _ _ => ⟨fcBarMask, 0x40 + m + 2 ^ 8 * r⟩) (fun c s => s.evalMask c.uid m)
     parks 8 (fun c s l => member c s l = false) ∧
     parks 7 (fun c s l => member c s l = true ∧ (Sparse.get none (waveOf c s).msite m).getD c.pc ≠ c.pc)) ∧
  (∀ (h : Hdr) (f : CodeFn) (x : BitVec 64) (r : Ctx → Nat → Nat),
     let b := f.code.toNat
     let waves := fun (c : Ctx) (s : State) => (s.workgroup (waveOf c s).gid (waveOf c s).gangwg).length
     let B := fun (c : Ctx) (s : State) (l : Nat) => s.srcCount c l .b % 2 ^ 16
     let absent := fun (c : Ctx) (s : State) (l : Nat) => (s.wave? c.uid).isSome ∧ ((waveOf c s).nbar ≤ b ∨ 2 ^ waves c s ≤ B c s l)
     let fails := fun (c : Ctx) (s : State) (l : Nat) =>
       (s.wave? c.uid).isSome ∧ b < (waveOf c s).nbar ∧ B c s l < 2 ^ waves c s ∧
         arriveFail (s.bar (waveOf c s).gid (waveOf c s).gangwg b) (resolveW (B c s l) (waves c s)) h.c.toNat (waveOf c s).uid (waveOf c s).widx l
           ((waveOf c s).mask h.c.toNat) = some (r c l)
     let at' := fun (c : Ctx) (_ : State) (l : Nat) => (⟨fcBarMask, b + 2 ^ 8 * r c l⟩ : LFault)
     FaultsThen (.bar h f x) fails at' postBars ∧ FaultsThen (.bararr h f x) fails at' postBars ∧
     FaultsThen (.bar h f x) absent (fun _ _ _ => illegal7) postBars ∧ FaultsThen (.bararr h f x) absent (fun _ _ _ => illegal7) postBars ∧
     Faults (.barwt h f x) (fun c s _ => (s.wave? c.uid).isSome ∧ (waveOf c s).nbar ≤ b) (fun _ _ _ => illegal7)) ∧
  (∀ (h : Hdr) (f : CodeFn) (x : BitVec 64) (R : Ctx → Region),
     let c0 := h.c.toNat
     let step := fun (c : Ctx) (s : State) =>
       (s.wave? c.uid).isSome ∧ s.region? (waveOf c s).rid = some (R c) ∧ (R c).ssm = true ∧ (R c).stepSet.contains (waveOf c s).uid = true
     let seen := fun (c : Ctx) (s : State) => (R c).stepArr.find? (fun x => x.1 = (waveOf c s).uid)
     let same := fun (c : Ctx) => (R c).stepMask.getD c0 = c0
     let member := fun (c : Ctx) (s : State) (l : Nat) => inMask ((waveOf c s).mask c0) l = true
     let kept := fun (c : Ctx) (s : State) => ∀ y, seen c s = some y → y.2.1 = (waveOf c s).mask c0
     let parks := fun (r : Nat) (P : Ctx → State → Nat → Prop) => Faults (.sstep h f x) (fun c s l => step c s ∧ P c s l) (fun _ _ _ => ⟨fcBarMask, 0xFF + 2 ^ 8 * r⟩)
     parks 2 (fun c _ _ => ¬same c) ∧ parks 4 (fun c s l => same c ∧ ¬member c s l) ∧ parks 5 (fun c s l => same c ∧ member c s l ∧ ¬kept c s) ∧
     parks 6 (fun c s l => same c ∧ member c s l ∧ kept c s ∧ inMask (((seen c s).map (fun x => x.2.2)).getD 0) l = true) ∧
     Faults (.sstep h f x) (fun c s _ => (s.wave? c.uid).isSome ∧ s.region? (waveOf c s).rid = some (R c) ∧ (R c).ssm = false) (fun _ _ _ => illegal7)) ∧
  (∀ (h : Hdr) (f : EngFn) (x : BitVec 64),
     let hd := fun (c : Ctx) (s : State) => s.readRegs c.uid 0 .s h.a.toNat 1
     let no := fun (c : Ctx) (s : State) (_ : Nat) => s.recOf (s.ridOf c.uid) (hd c s) = none
     let bad := stopsWith (fun c s _ => ⟨fcHandle, hd c s⟩)
     FaultsOnceMem (.tret h f x) no bad ∧ FaultsOnceMem (.parkq h f x) no bad ∧
       FaultsMem (.lanepc h f x) (fun c s _ => ∀ r, s.recOf (s.ridOf c.uid) (hd c s) = some r → r.eng.isSome = true) bad)

/-- Where the accesses of the memory instructions stop, with the order of R63 and the INFO of R189: beyond the segment's limit or outside the launch's allocation with
SEGLIMIT, then a write through a segment without WR with PERMISSION, then a sector crossed, or an atomic off its size, with MISALIGN, each with the offset as INFO; then the
address that cannot be used, with the fault of its translation. A page of another partition stops with PERMISSION before a write of a read-only page stops with PERMISSION, or
with COWWRITE, and a remote page of no member of the region's group with PERMISSION, with the address as INFO
(R426, R427); an address of a page beyond the installed memory stops with NOTPRESENT: the model's choice (log 10). The run-ahead LDX parks at once where its data is uncorrectable (R201, R206).
LDMC tests the segment, then the 128-byte offset and its block, then its destinations, and its token (R213). The order of the checks of LDMC (log 63), and that the fault of a
uniform instruction parks every thread of its wave in the packet (log 88), are the model's choices. -/
def Obligations.MemoryAccessesFault : Prop :=
  (∀ (h : Hdr) (f : MemFn) (x : BitVec 64) (t : Ctx → Nat → LFault),
     let seg := f.seg.toNat
     let n := szBytes f.sz
     let w := issuedOf
     let o := fun (c : Ctx) (s : State) (l : Nat) => s.memOffset c f l
     let in' := fun (c : Ctx) (s : State) (l : Nat) => inBounds s (w c s l) seg (o c s l) n
     let info := fun (code : Nat) => stopsWith (fun c s l => ⟨code, offInfo seg (o c s l)⟩)
     let wrOk := fun (write : Bool) (c : Ctx) (s : State) (l : Nat) => write = true → segWr ((w c s l).seg seg) = true
     let al := fun (atomic : Bool) (c : Ctx) (s : State) (l : Nat) => aligned (w c s l) seg (o c s l) n (if atomic then n else 0)
     let beyond := fun (c : Ctx) (s : State) (l : Nat) => (s.wave? c.uid).isSome ∧ ¬in' c s l
     let barred := fun (c : Ctx) (s : State) (l : Nat) => (s.wave? c.uid).isSome ∧ in' c s l ∧ ¬wrOk true c s l
     let crosses := fun (write atomic : Bool) (c : Ctx) (s : State) (l : Nat) => (s.wave? c.uid).isSome ∧ in' c s l ∧ wrOk write c s l ∧ ¬al atomic c s l
     let unmapped := fun (write atomic : Bool) (c : Ctx) (s : State) (l : Nat) =>
       (s.wave? c.uid).isSome ∧ in' c s l ∧ wrOk write c s l ∧ al atomic c s l ∧ s.resolveN (w c s l) l seg (o c s l) write n = .error (t c l)
     let stops := fun (i : Instr) (write atomic : Bool) =>
       FaultsMem i beyond (info fcSegLimit) ∧ (write = true → FaultsMem i barred (info fcPermission)) ∧ FaultsMem i (crosses write atomic) (info fcMisalign) ∧
         FaultsMem i (unmapped write atomic) (stopsWith (fun c _ l => t c l))
     let stopsOnce := fun (i : Instr) =>
       FaultsOnceMem i beyond (info fcSegLimit) ∧ FaultsOnceMem i (crosses false false) (info fcMisalign) ∧
         FaultsOnceMem i (unmapped false false) (stopsWith (fun c _ l => t c l))
     (h.u = false → stops (.ld h f x) false false) ∧ (h.u = true → stopsOnce (.ld h f x)) ∧ stopsOnce (.ldc h f x) ∧
       (¬(h.len = .w128 ∧ bitAt x.toNat 63 = true) → stops (.ldx h f x) false false) ∧ stops (.st h f x) true false ∧ stops (.stx h f x) true false ∧
       stops (.atom h f x) true true ∧ stops (.red h f x) true true) ∧
  (∀ (l : Leaf) (r : Region) (va : Nat) (write : Bool),
     let other := r.part.isSome = true ∧ l.part ≠ r.part.getD 0
     let readOnly := write = true ∧ (l.ro || l.shared) = true
     (other → l.check r va write = .error ⟨fcPermission, va⟩) ∧
     (¬other → readOnly → l.check r va write = .error ⟨if l.cow then fcCowWrite else fcPermission, va⟩) ∧
     (¬other → ¬readOnly → l.check r va write = l.loc r va) ∧
     (l.rem = false → installed ≤ l.addr + va % 2 ^ lvlShift l.lvl → l.loc r va = .error ⟨fcNotPresent, va⟩) ∧
     (l.rem = true → (r.grpActive && l.peer < r.cgsz) = false → l.loc r va = .error ⟨fcPermission, va⟩)) ∧
  (∀ (h : Hdr) (f : MemFn) (x : BitVec 64) (ls : Ctx → Nat → List (Nat × Loc)) (a : Ctx → Nat → Nat), h.len = .w128 → bitAt x.toNat 63 = true →
     let k := bitsAt x.toNat 56 4
     let joined := fun (c : Ctx) (s : State) (l : Nat) => s.updWave c.uid (fun w =>
       { w with jg := Sparse.put 0 w.jg k (setLane (Sparse.get 0 (waveOf c s).jg k) l true), jsite := Sparse.put 0 w.jsite k (joinSite c) })
     let open' := fun (c : Ctx) (s : State) (l : Nat) =>
       (waveOf c s).tokPending k l = false ∧ (Sparse.get 0 (waveOf c s).jg k = 0 ∨ Sparse.get 0 (waveOf c s).jsite k = joinSite c)
     FaultsMem (.ldx h f x) (fun c s l => (s.wave? c.uid).isSome ∧ ¬open' c s l) (stopsWith (fun _ _ _ => illegal7)) ∧
     FaultsMem (.ldx h f x)
       (fun c s l => (s.wave? c.uid).isSome ∧ open' c s l ∧ (joined c s l).access c f l false 0 = .ok (ls c l) ∧ (joined c s l).missing (ls c l) = none ∧
         (joined c s l).ueAt (ls c l) = some (a c l))
       (fun c s l =>
         let locs := (ls c l).map (fun q => q.2)
         ((((joined c s l).readBy State.updReader locs (acqOf c f)).1.meetUe locs).touch c.uid (hintPrio f.hint) locs, ⟨fcMemUe, a c l⟩))) ∧
  (∀ (h : Hdr) (f : MemFn) (x : BitVec 64) (at' : Ctx → Nat → Loc) (t : Ctx → Nat → LFault),
     let seg := f.seg.toNat
     let size := 128 * (bitsAt x.toNat 38 6 + 1)
     let g := fun (c : Ctx) (s : State) (l : Nat) => (issuedOf c s l).seg seg
     let o := fun (c : Ctx) (s : State) (l : Nat) => s.memOffset c f l
     let a := fun (c : Ctx) (s : State) (l : Nat) => (segBaseOf (g c s l) + o c s l) % 2 ^ 56
     let ds := fun (c : Ctx) (s : State) => mcastDests (s.readRegs c.uid 0 .s (bitsAt x.toNat 44 8) 2) (bitsAt x.toNat 58 6) (bitsAt x.toNat 54 4)
     let runs := fun (c : Ctx) (s : State) => (s.wave? c.uid).isSome ∧ s.granted 7 = true
     let fits := fun (c : Ctx) (s : State) (l : Nat) => runs c s ∧ o c s l + size ≤ segLimit (g c s l)
     let al := fun (c : Ctx) (s : State) (l : Nat) => o c s l % 128 = 0 ∧ a c s l / 8192 = (a c s l + (size - 1)) / 8192
     let read := fun (c : Ctx) (s : State) (l : Nat) => fits c s l ∧ al c s l ∧ s.translate (waveOf c s).rid (a c s l) false = .ok (at' c l)
     let info := fun (code : Nat) => stopsWith (fun c s l => ⟨code, offInfo seg (o c s l)⟩)
     FaultsMem (.ldmc h f x) (fun c s l => runs c s ∧ ¬fits c s l) (info fcSegLimit) ∧
     FaultsMem (.ldmc h f x) (fun c s l => fits c s l ∧ ¬al c s l) (info fcMisalign) ∧
     FaultsMem (.ldmc h f x) (fun c s l => fits c s l ∧ al c s l ∧ s.translate (waveOf c s).rid (a c s l) false = .error (t c l)) (stopsWith (fun c _ l => t c l)) ∧
     FaultsMem (.ldmc h f x) (fun c s l => read c s l ∧ ∃ d ∈ ds c s, 47 < d.1) (stopsWith (fun _ _ _ => illegal7)) ∧
     (∀ d : Ctx → Nat → Nat × Nat,
       FaultsMem (.ldmc h f x)
         (fun c s l => read c s l ∧ (∀ d ∈ ds c s, d.1 ≤ 47) ∧ (ds c s).find? (fun d => !s.inPart (waveOf c s).rid d.1) = some (d c l))
         (stopsWith (fun c _ l => ⟨fcPermission, (d c l).1 + (d c l).2 % 4 * 2 ^ 6⟩))) ∧
     FaultsMem (.ldmc h f x)
       (fun c s l => read c s l ∧ (∀ d ∈ ds c s, d.1 ≤ 47 ∧ s.inPart (waveOf c s).rid d.1 = true) ∧ (waveOf c s).tokPending h.d.toNat l = true)
       (stopsWith (fun _ _ _ => illegal7)))

/-- Where the engine instructions stop. TKPOST with a pending token, or of a record that fails a check of R263, with ILLEGAL (R274). CBINI, CBPSH and CBPOP of a buffer that
the gang does not hold with PERMISSION and its number (R266), CBINI of a bad size, or with claims or tasks open on the buffer, CBPSH and CBPOP on a bus side, of a count that
is no multiple of 32 or beyond room or count, or of no initialised buffer, with ILLEGAL, and CBINI of a ring off its alignment or outside its segment with MISALIGN and SEGLIMIT
(R278, R279). AMSG with the first of the checks of R252. EVSET of an index above 255 with ILLEGAL, of another region's event with PERMISSION, and of no valid entry with HANDLE
(R282). FETCHW in the order of R284. CSRRD and CSRWR of no register with ILLEGAL, and of one that the region may not reach with PERMISSION (R451). That the fault
of a uniform instruction parks every thread of its wave in the packet is the model's choice (log 88). -/
def Obligations.EngineInstructionsFault : Prop :=
  (∀ (h : Hdr) (f : EngFn) (x : BitVec 64) (ls : Ctx → Nat → List (Nat × Loc)) (slot : Ctx → Nat → Nat) (e : Ctx → Nat → LFault),
     let tok := tokField h.b.toNat
     let ill := stopsWith (fun _ _ _ => illegal7)
     let from' := fun (c : Ctx) (s : State) (l : Nat) => s.readRegs c.uid l (c.e.kindOf .a) (c.e.field .a) 2 % 2 ^ 56
     let rec' := fun (c : Ctx) (l : Nat) => ((ls c l).take 24).map (fun x => x.2)
     let at' := fun (c : Ctx) (s : State) (l : Nat) => s.locate (issuedOf c s l) l f.sub.toNat (from' c s l) 64 false 64
     let free := fun (c : Ctx) (s : State) (l : Nat) => (s.wave? c.uid).isSome ∧ s.tokBusy c.uid l tok = false
     FaultsMem (.tkpost h f x) (fun c s l => (s.wave? c.uid).isSome ∧ s.tokBusy c.uid l tok = true) ill ∧
     FaultsMem (.tkpost h f x) (fun c s l => free c s l ∧ at' c s l = .error (e c l)) (stopsWith (fun c _ l => e c l)) ∧
     FaultsMem (.tkpost h f x)
       (fun c s l => free c s l ∧ at' c s l = .ok (ls c l) ∧ s.freeSlot (waveOf c s).cl = some (slot c l) ∧ s.ueAt ((ls c l).take 24) = some (e c l).info)
       (stopsWith (fun c _ l => ⟨fcMemUe, (e c l).info⟩)) ∧
     FaultsMem (.tkpost h f x)
       (fun c s l => free c s l ∧ at' c s l = .ok (ls c l) ∧ s.freeSlot (waveOf c s).cl = some (slot c l) ∧ s.ueAt ((ls c l).take 24) = none ∧
         s.missing ((ls c l).take 24) = none ∧ (s.noteRead (rec' c l) none).recordBad (issuedOf c s l) (leNat (s.readLocs (rec' c l))) = true)
       (fun c s l => (s.noteRead (rec' c l) none, illegal7))) ∧
  (∀ (h : Hdr) (f : EngFn) (x : BitVec 64),
     let ill := stopsWith (fun _ _ _ => illegal7)
     let cb := h.d.toNat
     let live := fun (c : Ctx) (s : State) => (s.wave? c.uid).isSome
     let foreign := fun (c : Ctx) (s : State) (_ : Nat) => live c s ∧ s.holds (waveOf c s).gid cb = false
     let held := fun (c : Ctx) (s : State) => live c s ∧ s.holds (waveOf c s).gid cb = true
     let denied := stopsWith (fun _ _ _ => ⟨fcPermission, cb⟩)
     let seg := if bitAt f.sub.toNat 0 then 3 else 2
     let size := fun (c : Ctx) (s : State) (l : Nat) => s.srcCount c l .b
     let o := fun (c : Ctx) (s : State) (l : Nat) => s.srcCount c l .a
     let sized := fun (c : Ctx) (s : State) (l : Nat) => held c s ∧ size c s l % 32 = 0 ∧ 32 ≤ size c s l ∧ size c s l ≤ 262144
     let info := fun (code : Nat) => stopsWith (fun c s l => ⟨code, offInfo seg (o c s l)⟩)
     let used := fun (c : Ctx) (s : State) => (∃ q ∈ s.cts.claims, q.cl = (waveOf c s).cl ∧ q.cb = cb) ∨
       ∃ t ∈ s.cts.tasks, t.cl = (waveOf c s).cl ∧ t.st ≠ .done ∧ (t.names cb true = true ∨ t.names cb false = true)
     let turns := fun (prod : Bool) (c : Ctx) (s : State) (l : Nat) => held c s ∧ ∀ q, s.cbuf? (waveOf c s).cl cb = some q →
       (if prod then q.pe else q.ce) = true ∨ s.srcCount c l .b % 32 ≠ 0 ∨ (if prod then q.room else q.count) < s.srcCount c l .b
     FaultsMemThen (.cbini h f x) foreign denied evalD ∧ FaultsMemThen (.cbini h f x) (fun c s l => held c s ∧ ¬sized c s l) ill evalD ∧
     FaultsMemThen (.cbini h f x) (fun c s l => sized c s l ∧ o c s l % 32 ≠ 0) (info fcMisalign) evalD ∧
     FaultsMemThen (.cbini h f x) (fun c s l => sized c s l ∧ o c s l % 32 = 0 ∧ ¬inBounds s (waveOf c s) seg (o c s l) (size c s l)) (info fcSegLimit) evalD ∧
     FaultsMemThen (.cbini h f x) (fun c s l => sized c s l ∧ o c s l % 32 = 0 ∧ inBounds s (waveOf c s) seg (o c s l) (size c s l) ∧ used c s) ill evalD ∧
     FaultsMemThen (.cbpsh h f x) foreign denied evalD ∧ FaultsMemThen (.cbpsh h f x) (turns true) ill evalD ∧
     FaultsMemThen (.cbpop h f x) foreign denied evalD ∧ FaultsMemThen (.cbpop h f x) (turns false) ill evalD) ∧
  (∀ (h : Hdr) (f : EngFn) (x : BitVec 64) (r : Ctx → Nat → Region),
     let k := h.d.toNat
     let C := h.c.toNat
     let t := fun (c : Ctx) (s : State) (l : Nat) => s.srcCount c l .b
     let runs := fun (c : Ctx) (s : State) (l : Nat) => (s.wave? c.uid).isSome ∧ s.region? (s.ridOf c.uid) = some (r c l)
     let free := fun (c : Ctx) (s : State) (l : Nat) => runs c s l ∧ (waveOf c s).tokPending k l = false
     let badTarget := fun (c : Ctx) (s : State) (l : Nat) => bitsAt (t c s l) 16 16 ≠ 0 ∨ bitAt (t c s l) 7 = true ∨ 47 < bitsAt (t c s l) 0 6
     let badPeer := fun (c : Ctx) (s : State) (l : Nat) => bitAt (t c s l) 6 = true ∧ ((r c l).cgrp = 0 ∨ (r c l).cgsz ≤ bitsAt (t c s l) 8 8)
     let badPart := fun (c : Ctx) (s : State) (l : Nat) => bitAt (t c s l) 6 = false ∧ s.inPart (waveOf c s).rid (bitsAt (t c s l) 0 6) = false
     let passes := fun (c : Ctx) (s : State) (l : Nat) => free c s l ∧ ¬badTarget c s l ∧ ¬badPeer c s l ∧ ¬badPart c s l
     let entry := fun (c : Ctx) (s : State) (l : Nat) => s.tableEntry (waveOf c s).rid (r c l).amtbl C 1
     let ill := stopsWith (fun _ _ _ => illegal7)
     FaultsMem (.amsg h f x) (fun c s l => runs c s l ∧ (waveOf c s).tokPending k l = true) ill ∧
     FaultsMem (.amsg h f x) (fun c s l => free c s l ∧ badTarget c s l) ill ∧
     FaultsMem (.amsg h f x) (fun c s l => free c s l ∧ ¬badTarget c s l ∧ badPeer c s l) ill ∧
     FaultsMem (.amsg h f x) (fun c s l => free c s l ∧ ¬badTarget c s l ∧ ¬badPeer c s l ∧ badPart c s l) (stopsWith (fun c s l => ⟨fcPermission, t c s l⟩)) ∧
     FaultsMem (.amsg h f x) (fun c s l => passes c s l ∧ ((r c l).amtbl = 0 ∨ entry c s l = .ok none)) (stopsWith (fun _ _ _ => ⟨fcHandle, C⟩)) ∧
     ∀ e : Ctx → Nat → LFault, FaultsMem (.amsg h f x)
       (fun c s l => passes c s l ∧ (r c l).amtbl ≠ 0 ∧ entry c s l = .error (e c l) ∧ (e c l).code ≠ fcMemUe) (stopsWith (fun c _ l => e c l))) ∧
  (∀ (h : Hdr) (f : EngFn) (x : BitVec 64), bitAt f.sub.toNat 0 = false →
     let b := fun (c : Ctx) (s : State) (l : Nat) => s.srcCount c l .b
     let foreign := fun (c : Ctx) (s : State) =>
       ∃ q, s.cts.binds.find? (fun b => b.cl = (waveOf c s).cl && b.evt = h.d.toNat) = some q ∧ q.rid ≠ (waveOf c s).rid
     FaultsMem (.evset h f x) (fun c s l => (s.wave? c.uid).isSome ∧ 255 < b c s l) (stopsWith (fun _ _ _ => illegal7)) ∧
     FaultsMem (.evset h f x) (fun c s l => (s.wave? c.uid).isSome ∧ b c s l ≤ 255 ∧ foreign c s) (stopsWith (fun _ _ _ => ⟨fcPermission, h.d.toNat⟩)) ∧
     FaultsMem (.evset h f x)
       (fun c s l => (s.wave? c.uid).isSome ∧ b c s l ≤ 255 ∧ ¬foreign c s ∧ s.tableEntry (waveOf c s).rid (waveOf c s).htbl (b c s l) 0 = .ok none)
       (stopsWith (fun c s l => ⟨fcHandle, b c s l⟩))) ∧
  (∀ (h : Hdr) (f : EngFn) (x : BitVec 64),
     let seg := f.sub.toNat
     let o := fun (c : Ctx) (s : State) (l : Nat) => (s.srcCount c l .a + 16 * h.c.toNat) % 2 ^ 56
     let free := fun (c : Ctx) (s : State) (l : Nat) => (s.wave? c.uid).isSome ∧ (waveOf c s).tokPending (h.d.toNat % 16) l = false
     let in' := fun (c : Ctx) (s : State) (l : Nat) => free c s l ∧ inBounds s (waveOf c s) seg (o c s l) 16
     let wr := fun (c : Ctx) (s : State) => segWr ((waveOf c s).seg seg) = true
     let info := fun (code : Nat) => stopsWith (fun c s l => ⟨code, offInfo seg (o c s l)⟩)
     FaultsMem (.fetchw h f x) (fun c s l => (s.wave? c.uid).isSome ∧ (waveOf c s).tokPending (h.d.toNat % 16) l = true) (stopsWith (fun _ _ _ => illegal7)) ∧
     FaultsMem (.fetchw h f x) (fun c s l => free c s l ∧ ¬inBounds s (waveOf c s) seg (o c s l) 16) (info fcSegLimit) ∧
     FaultsMem (.fetchw h f x) (fun c s l => in' c s l ∧ ¬wr c s) (info fcPermission) ∧
     FaultsMem (.fetchw h f x) (fun c s l => in' c s l ∧ wr c s ∧ o c s l % 16 ≠ 0) (info fcMisalign)) ∧
  (∀ (h : Hdr) (f : EngFn) (x : BitVec 64),
     let a := fun (c : Ctx) (s : State) => s.readRegs c.uid 0 .s h.a.toNat 1
     let stops := fun (i : Instr) =>
       FaultsOnceMem i (fun c s _ => csrShape (a c s) = none) (stopsWith (fun _ _ _ => illegal7)) ∧
       FaultsOnceMem i (fun c s _ => (csrShape (a c s)).isSome = true ∧ s.csrAllowed (s.ridOf c.uid) (a c s) = false) (stopsWith (fun c s _ => ⟨fcPermission, a c s⟩))
     stops (.csrrd h f x) ∧ stops (.csrwr h f x))

/-! ## Events -/

/-- The events of the cores (R23, R27, R82, R172, R186, R200, R201, R206, R329, R425, R430, R439): one issue slot of every quadrant, once no packet is left; a
block that threads wait for is filled and they are ready; a short result lands; run-ahead data land and the token clears; the lanes of a wave with
uncorrectable data that stand together park at a boundary; a SLEEP or IDLE ends; a user interrupt is delivered; a lane whose checks are made leaves admission;
a stream delivery that is first on its registers is performed; a walk that finds a leaf answers every access that waits for it. The order of the
events and slots (log 4), the points of the reads (log 3), which bytes and faults a fill leaves (log 8), that a sleeper settles as it wakes (log 29), that an interrupt whose
entry cannot be read holds back the higher ones (log 31), and that a delivery is one step (log 67), are the model's choices. -/
def Obligations.CoreEventsComplete : Prop :=
  ∀ (s : State),
    (s.packets = [] → exec .issueSlot s =
      .next (s.slotOrder.foldl State.slotQuad s.newSlot.age.recordErrors.overdueDrains.countStalls.landOwed.chargeSlot).endSlot) ∧
    (∀ core rid blk bs a, s.draining rid = false → (s.waves.any (fun w => w.cl = core / 4 && w.core = core % 4 && s.rootOf w.rid = s.rootOf rid && w.rid = rid &&
        !(w.lanesWhere (fun _ t => waitsFill blk t)).isEmpty)) = true → s.fillRead core rid blk = (a, .ok bs) →
      let u := ((a.opDone.dropRops (.fetch core rid blk)).endReads (.fetch core rid blk)).putBlock ⟨core / 4, core % 4, s.rootOf rid, blk, bs, none⟩
      let t := u.wakeFill core (s.rootOf rid) blk
      exec (.instructionFill core rid blk) s = .next t ∧ ⟨core / 4, core % 4, s.rootOf rid, blk, bs, none⟩ ∈ t.icache ∧
      ∀ w l, u.wave? w.uid = some w → w.cl = core / 4 → w.core = core % 4 → u.rootOf w.rid = s.rootOf rid → waitsFill blk (w.thread l) = true →
        t.thread w.uid l = { w.thread l with st := .ready, age := 0 }) ∧
    (∀ k p rest w, takeAt k s.pend = some (p, rest) → p.ue = none → s.wave? p.uid = some w →
      ∃ t v, exec (.shortResultLand k) s = .next t ∧ t.pend = rest ∧ t.wave? p.uid = some v ∧
        v.v = (p.regs.foldl (fun w r => w.setReg r.1 r.2) w).v ∧ v.s = (p.regs.foldl (fun w r => w.setReg r.1 r.2) w).s ∧
        (∀ l, (v.thread l).fl = (p.raised l).foldl (fun a b => a ||| b) (w.thread l).fl) ∧
        (∀ l, l ∈ p.owners → (w.thread l).st = .settling → ({ s with pend := rest } : State).hasPend p.uid l = false → (v.thread l).st = .ready)) ∧
    (∀ uid lane tok i a, findIdx (fun (a : Ahead) => a.uid = uid && a.lane = lane && a.tok = tok) s.flight.ahead = some (i, a) →
      s.watched uid lane = false →
      exec (.runaheadLand uid lane tok) s = .next ((({ s with flight := { s.flight with ahead := s.flight.ahead.eraseIdx i } } : State).updWave uid
        (fun w => a.regs.foldl (fun w r => w.setReg r.1 r.2) w)).clearTok uid tok lane)) ∧
    (∀ uid lane w info, s.wave? uid = some w → (w.thread lane).ue = some info → atBoundary (w.thread lane) = true →
      exec (.memuePark uid lane) s = .next (s.park uid (w.thread lane).pc
        ((w.lanesWhere (fun _ u => u.ue.isSome && atBoundary u && u.pc = (w.thread lane).pc)).map (fun l => (l, ⟨fcMemUe, (w.thread l).ue.getD 0⟩))))) ∧
    (∀ uid lane w till settle, s.wave? uid = some w → (w.thread lane).st = .sleeping (.timer till) settle → till ≤ s.clk →
      exec (.sleepExpire uid lane) s = .next (s.updThread uid lane (fun t => { t with st := s.goOn uid lane settle, age := 0 }))) ∧
    (∀ uid lane w E till d got settle, s.wave? uid = some w → (w.thread lane).st = .sleeping (.idle E till d got) settle →
      s.idleEvents w E till got ≠ 0 → exec (.sleepExpire uid lane) s = .next (s.endIdle w E till d got)) ∧
    (∀ uid lane w i is entry, s.wave? uid = some w → w.uiPend = i :: is → s.uiLane w = some lane → w.uiEn = true → w.uiRun = none → w.bank = .active →
      s.stopped w.cl w.core w.quad = false → s.tableEntry w.rid w.htbl i 0 = .ok (some entry) →
      ((∀ E till d got settle, (w.thread lane).st = .sleeping (.idle E till d got) settle → bitAt E 0 = false) →
        exec (.uiDeliver uid) s = .next (s.deliverUi w lane i entry)) ∧
      (∀ E till d got settle, (w.thread lane).st = .sleeping (.idle E till d got) settle → bitAt E 0 = true →
        exec (.uiDeliver uid) s = .next (s.endIdle w E till d got))) ∧
    (∀ uid lane settle, (s.thread uid lane).st = .admission .checks settle → s.watched uid lane = false →
      exec (.admissionChecksComplete uid lane) s = .next (s.resume uid lane (s.thread uid lane).pc settle)) ∧
    (∀ k q w r a, s.streams[k]? = some q → q.op = 0xC1 → s.strmBusy q.uid q.regs k = false → s.wave? q.uid = some w →
      (s.asStream q w).strmFetch q w.rid = (a, .ok r) →
      exec (.stnxtDeliver k) s = .next ((({ a with streams := a.streams.eraseIdx k } : State).strmDone q r.1 r.2.1 r.2.2).strmClose q w.rid)) ∧
    (∀ rid va m r root, (s.misses.take 64).find? (fun m => m.page = va / 2 ^ 16 && m.reqs.any (fun q => q.rid = rid)) = some m →
      s.region? rid = some r → r.ptroot = some root → s.draining rid = false →
      let read := (s.asOp .walker .port s.ord.walk).walkEntry va
      let found := walkBy read r.tagPart root va
      let path := pathFrom read va (bitsAt root 0 5) 3 (topTable root) (.root r.tagPart root)
      let qs := (s.misses.filter (found.completes m)).flatMap (fun m => m.reqs)
      let t := ({ s with misses := s.misses.filter (fun x => !found.completes m x) } : State).admitMisses
      let ends := fun (t : State) =>
        let u := qs.foldl (fun t q => t.deliverWalk found path q) t
        exec (.pageWalk rid va) s = .next ((s.walkWaits.filter (fun w => !u.walkWaits.contains w)).foldl State.settleRop u)
      (∀ l tag, found = .leaf l tag → ends (if t.passes found qs then t.fillPath va path else t)) ∧
      (∀ bad, found = .fault bad → ends (if bad then t.count (csrAddr 9 0 0 0) 32 1 else t)))

/-- The events of fault service and containment (R185, R188, R421, R436, R438, R445 to R449): a waiting record is written; a fault handler starts; SVC serves the
record of a region without a handler, or makes it fatal; a budget that is exceeded, and a knot, raise a fault; a superstep ends; a fatal fault ends a subtree or
starts an abort; tokens arrive, time out and agree; a group becomes active. The place and one step of a COW
copy (logs 28 and 97), a step in which no wave takes part (log 33), the age of a wait and what a knot is (log 82), what an abort does to the records and waves below the domain
(log 83), the resumption of an engine's operation (log 90), and that an event takes its place at any clk (log 91), are the model's choices. -/
def Obligations.FaultServiceEventsComplete : Prop :=
  ∀ (s : State) (rid : Nat) (r : Region), s.region? rid = some r →
    (∀ i q h ls, findIdx (fun q => q.rid = rid && decide (q.st = .waiting)) s.recs = some (i, q) → s.freeHandle rid = some h → s.occupied rid < r.fqn →
      let slot := r.fq + 32 * (r.fqW % r.fqn)
      let svc : State := { s with ord := { s.ord with agent := none } }
      svc.translateRange rid slot true 32 = .ok ls → svc.poisonAt ls = none →
      exec (.faultRecordDeferredWrite rid) s = .next (s.asService (fun t =>
        let t := (t.post rid slot ls (leBytes 32 (q.bits h))).noteIdle (fun w => w.rid = rid) 2
        let t := if q.eng.isSome then t else t.updWave q.uid (fun w => w.clearRaised (q.lanes.map (fun l => l.lane)))
        { t with recs := setAt t.recs i { q with handle := some h, st := .written },
                 regions := t.regions.map (fun p => if p.rid = rid then { p with fqW := (p.fqW + 1) % 2 ^ 32 } else p) }))) ∧
    (∀ i q cl core t, s.nextRec r = some (i, q) → r.fhnd ≠ 0 → cl = s.recCluster q → s.startFault r i q cl core = some t →
      exec (.faultHandlerStart rid cl core) s = .next t) ∧
    (r.fhnd = 0 → s.svc.cows.find? (fun x => x.rid = rid) = none →
      let svc := fun (t : State) => exec (.svcFaultService rid) s = .next t
      let serves := fun (d : State) (q : Rec) =>
        let ends := fun (exit : Bool) => svc (match q.eng with | none => d.tret rid (q.handle.getD 0) exit [] | some e => d.tretNow rid (q.handle.getD 0) exit e)
        let exits := q.faults.any (fun f => f.1 = fcDeadlock || f.1 = fcAbort)
        (exits = true → ends true) ∧
        (∀ va l, exits = false → d.nextCow rid q = some (va, l) → svc (d.startCow (d.recCluster q) rid (q.handle.getD 0) va l)) ∧
        (exits = false → d.nextCow rid q = none →
          (q.faults.any (fun f => f.1 = fcWatch) = true → Config.debugHolds d.tick = true → svc d) ∧
          ((q.faults.any (fun f => f.1 = fcWatch) = true → Config.debugHolds d.tick = false) → ends false))
      (∀ q, s.recs.find? (fun q => q.rid = rid && decide (q.st = .served 0)) = some q → serves s q) ∧
      (∀ i q, s.recs.find? (fun q => q.rid = rid && decide (q.st = .served 0)) = none → s.nextRec r = some (i, q) →
        let d := s.dispatched rid i q 0
        (∀ f, q.faults.find? (fun f => !svcServes f.1) = some f → svc { d with fatals := d.fatals ++ [(rid, f.1)] }) ∧
        (q.faults.find? (fun f => !svcServes f.1) = none → serves d q))) ∧
    (∀ x, r.fhnd = 0 → s.svc.cows.find? (fun x => x.rid = rid) = some x → s.draining rid = false →
      (x.size ≤ x.done → exec (.svcFaultService rid) s = .next ((s.writeCow x).endCow x)) ∧
      (∀ a bs, x.done < x.size → s.cowRead x 4096 = (a, .ok bs) → ∃ t, exec (.svcFaultService rid) s = .next t ∧
        t.mem = (((a.dropRops x.who).endReads x.who).store ((List.range bs.length).map (fun i => .dev (x.page + x.done + i) .rc)) bs).mem ∧
        ∀ y ∈ t.svc.cows, y.slot = x.slot → ∃ z ∈ a.svc.cows, y = { z with done := z.done + 4096 })) ∧
    (r.tbud ≠ 0 → 1700 * 1000 * r.tbud < r.charge → s.fatals.any (fun f => f.1 = rid) = false →
      exec (.serviceBudgetExceed rid) s = .next { s with fatals := s.fatals ++ [(rid, 0x0F)] }) ∧
    (s.stepDone r = true → r.aborting = false →
      let own := 64 * r.stepno + r.peerix
      (r.cgrp = 0 ∨ (r.grpActive = true ∧ r.stepPeers.contains own = true ∧ r.cgsz ≤ r.stepHere) →
        exec (.stepEnd rid) s = .next ((s.stepWaiters rid).foldl (fun t w => w.2.foldl (fun t l =>
            ((t.joinLane r.stepView w.1 l).acquireLane r.stepView w.1 l).release w.1 l) t)
          ((s.updRegion rid (fun r => { r with stepno := (r.stepno + 1) % 2 ^ 32 })).beginStep rid))) ∧
      (r.cgrp ≠ 0 → r.grpActive = true → r.stepPeers.contains own = false →
        exec (.stepEnd rid) s = .next ((s.updRegion rid (fun r => { r with stepPeers := r.stepPeers ++ [own] })).sendPeers r
          (fun p => .stepArrive rid p r.stepno r.stepView)))) ∧
    exec .deadlockWalk s = .next (s.knots.foldl (fun s k => s.reportKnot k) s) ∧
    (∀ code d, s.fatals.contains (rid, code) = true →
      let t := { s with fatals := s.fatals.erase (rid, code) }
      t.region? (t.domainOf 8 rid) = some d →
      exec (.fatalFault rid code) s = .next (if d.cgrp = 0 ∨ d.aborting = true ∨ d.abWave.isSome then t.endSubtree (t.domainOf 8 rid) rid code
        else t.startAbort (t.domainOf 8 rid) (some code))) ∧
    (∀ peer step orig code, r.grpActive = true → peer < r.cgsz → peer ≠ r.peerix → r.abTokens.any (fun t => t.1 = peer) = false →
      exec (.abortTokenReceive rid peer step orig code) s = .next ((if r.aborting then s else s.startAbort rid none).updRegion rid
        (fun r => { r with abTokens := r.abTokens ++ [(peer, step, if orig then some code else none)] }))) ∧
    (r.agrees = true → r.abnd = 0 → exec (.abortAgree rid) s = .next (s.agreeOn r r.agreed s.fresh)) ∧
    (∀ t, r.agrees = true → r.abnd ≠ 0 → s.startAbnd r r.agreed (originator r.abTokens).1 (originator r.abTokens).2 = some t →
      exec (.abortAgree rid) s = .next (t.agreeOn r r.agreed s.fresh)) ∧
    (∀ peer, r.aborting = true → r.grpActive = true → peer < r.cgsz → r.abClk + tenMs ≤ s.clk → r.abTokens.any (fun t => t.1 = peer) = false →
      exec (.abortTokenTimeout rid peer) s = .next (s.endGroup rid)) ∧
    (exec (.groupActivate rid) s =
      .next (s.updRegion rid (fun r => if r.cgrp ≠ 0 && !r.retiring && !r.grpOver then { r with grpActive := true } else r)))

/-- The events of the work distributor (R21, R39 to R49, R417, R443, R444): a gang is placed, ages, takes work; a core is preempted, swapped, filled and spilled;
a gang and a region retire. The slot that a wave takes (log 36), the places in local store (log 56), the
end of a gang (logs 66 and 80), what a spill writes (log 16), where a context is filled and swapped in (log 81), and the answer to a launch of several workgroups (log 87), are
the model's choices. -/
def Obligations.DistributorEventsComplete : Prop :=
  ∀ (s : State) (cl core : Nat),
    (∀ lid l f, s.wd.launches.find? (fun l => l.lid = lid) = some l → s.placeable l = true →
      (s.ahead l).any (fun a => s.placeable a && (List.range 4).any (fun k => (s.fits a cl k .active).isSome)) = false →
      s.fits l cl core .active = some f → exec (.wdPlaceGang lid cl core) s = .next (s.place l cl core .active f)) ∧
    (∀ lid, exec (.launchAged lid) s = .next { s with wd := { s.wd with launches := s.wd.launches.map (fun l =>
      if l.lid = lid && l.passed && l.nextWg < l.total && l.waitFrom + tenMs ≤ s.clk then { l with aged := true } else l) } }) ∧
    (∀ k q qs, s.cts.wgreqs.drop k = q :: qs → (s.cts.wgreqs.take k).any (fun p => p.lid = q.lid) = false →
      let r := (s.updCts (fun t => { t with wgreqs := t.wgreqs.eraseIdx k })).withdrawWg q
      let at' := (List.range 16).map (fun i => if q.seg = 3 then sharedLoc q.cl (q.a + i) else coreLoc q.cl q.core (q.a + i))
      exec (.fetchwServe k) s = .next ((r.1.store at' (leBytes 16 r.2)).clearTok q.uid q.tok q.lane)) ∧
    (∀ lid l f, s.wd.launches.find? (fun l => l.lid = lid) = some l →
      let cs := s.coreSet cl [0, 1] (tiedCores core l.gang l.cshr)
      s.placeable l = true → (List.range 48).any (fun j => (List.range 4).any (fun k => (s.fits l j k .active).isSome)) = false →
      s.mayPreempt l cl cs = true → cs.any (fun c => (s.shadow? cl c).isSome) = false → s.fits l cl core .shadow = some f →
      exec (.preempt cl core lid) s = .next ((s.place l cl core .shadow f).setShadows cl cs .ready true (s.residents cl cs))) ∧
    (let cs := s.swapSet cl core
     s.packets = [] → cs.any (s.shadowIs .ready cl) = true → cs.all (fun c => ((s.shadow? cl c).isNone || s.shadowIs .ready cl c) && !s.coreStopped cl c) = true →
      (∀ rid r, s.region? rid = some r → r.tslice ≠ 0 → Sparse.get 0 s.wd.sliceAt rid + 1700 * r.tslice ≤ s.clk →
        s.wd.gangs.any (fun g => g.rid = rid && g.cl = cl && g.bank = 0 && g.cores.contains core) = true →
        exec (.timeSliceExpire rid cl core) s = .next (s.swapBanks cl cs)) ∧
      (s.swapDue cl cs = true → exec (.shadowSwap cl core) s = .next (s.swapBanks cl cs))) ∧
    (let cs := (s.coreSet cl [1] [core]).filter (fun c => (s.shadow? cl c).isSome)
     let xs := s.savedSet cl core
     let back := sortedSet (xs.map (fun x => x.core))
     let t := s.moveTo (xs.flatMap (fun x => x.gids)) (xs.flatMap (fun x => x.uids)) .shadow
     (cs ≠ [] → cs.all (s.shadowIs .filling cl) = true → exec (.shadowFill cl core) s = .next (s.fillDone cl cs)) ∧
     (cs ≠ [] → cs.all (s.shadowIs .spilling cl) = true → exec (.shadowFill cl core) s = .next (s.setShadows cl cs .ready false [])) ∧
     (cs = [] → xs ≠ [] → back.all (fun c => (s.shadow? cl c).isNone) = true → t.bankFits cl .shadow = true →
       exec (.shadowFill cl core) s = .next (t.setShadows cl back .filling false [])) ∧
     (cs ≠ [] → cs.all (s.shadowIs .dirty cl) = true → exec (.spill cl core) s = .next (s.setShadows cl cs .spilling false [])) ∧
     (cs ≠ [] → cs.all (s.shadowIs .spilling cl) = true → exec (.spill cl core) s =
       .next (((cs.foldl (fun (t : State) c => t.saveCore s.fresh cl c) { s with fresh := s.fresh + 1 }).moveTo (s.shadowGids cl cs) (s.shadowUids cl cs) .saved).updWd
         (fun w => { w with shadows := w.shadows.filter (fun x => !(x.cl = cl && cs.contains x.core)) })))) ∧
    (∀ gid g, s.wd.gangs.find? (fun g => g.gid = gid) = some g → (s.waves.filter (fun w => w.gid = gid)).all (fun w => w.over) = true →
      s.cts.tasks.any (fun t => t.gid = gid && t.st = .running) = false → s.working (s.gangUids gid) = false →
      exec (.gangRetire gid) s = .next (s.retireGang g)) ∧
    (∀ rid r, s.region? rid = some r → rid ≠ 0 → r.retiring = true → s.wd.launches.any (fun l => l.rid = rid) = false →
      s.regions.any (fun c => c.parent = rid && c.rid ≠ rid) = false → s.waves.any (fun w => w.rid = rid) = false →
      exec (.regionRetire rid) s = .next (s.dropRegion rid))

/-- The events of the networks (R214, R215, R243, R246 to R248, R252 to R254, R420): a multicast request joins or opens an entry, is filled, copied and closed; a
bus beat lands and a transfer advances; injection drains and resumes; a message moves on and its handler starts; a message of the fabric arrives. The fault of a peer's read for a multicast (log 17), when a
drain ends (log 38), the order of messages and what a table entry that has changed does (logs 75 and 96), the position of a cluster on its buses (log 68), and what becomes of the
transfers of a task that fails (log 69), are the model's choices. -/
def Obligations.NetworkEventsComplete : Prop :=
  ∀ (s : State),
    (∀ k q, s.flight.mreqs.find? (fun q => q.id = k && q.entry.isNone && !q.waits) = some q →
      let t := s.closeEntries q.slice
      (∀ e, t.flight.ments.find? q.joins = some e → exec (.multicastRequestArrive k) s = .next (t.joinEntry q e)) ∧
      (t.flight.ments.find? q.joins = none → t.entryFree q.slice = true → t.flight.mreqs.any (fun x => x.waits && x.slice = q.slice) = false →
        exec (.multicastRequestArrive k) s = .next (t.openEntry q))) ∧
    (∀ slice k e bs, s.flight.ments.find? (fun e => e.id = k && e.slice = slice && e.filled.isNone) = some e →
      let a := s.asOp (.mread k) .port e.view
      let r := (a.updFlight (fun f => { f with ments := f.ments.map (fun x => if x.id = k then { x with view := [] } else x) })).readBy
        (updFill k) (e.locs.map (fun x => x.2)) none
      let u := ((r.1.dropRops (.mread k)).endReads (.mread k)).opDone
      let v := (u.updFlight (fun f => { f with ments := f.ments.map (fun x => if x.id = k then { x with filled := some u.clk, bytes := bs } else x) })).fillLines e
      a.ueAt e.locs = none → a.absent e.locs = none → r.2 = bs →
      exec (.multicastFill slice k) s = .next ((v.flight.mreqs.filter (fun q => q.entry = some k)).foldl (fun t q => t.copiesFor q bs) v)) ∧
    (∀ slice k e b, s.flight.ments.find? (fun e => e.id = k && e.slice = slice && e.filled.isNone) = some e →
      (s.asOp (.mread k) .port e.view).ueAt e.locs = some b →
      exec (.multicastFill slice k) s = .next ((((s.asOp (.mread k) .port e.view).meetUe (e.locs.map (fun x => x.2))).failFill e
        (fun t q => t.mcastUe q (b - e.va))).opDone)) ∧
    (∀ k e, s.flight.ments.find? (fun e => e.id = k) = some e → s.isOpen e = false →
      exec (.multicastEntryClose k) s = .next (s.closeEntries e.slice)) ∧
    (∀ k c, s.cts.copies.find? (fun c => c.id = k) = some c →
      let v := ((s.flight.mreqs.find? (fun q => q.id = c.req)).map (fun q => q.view)).getD []
      (s.drops c.rid c.cl c.cb = true → exec (.multicastCopyAdvance k) s = .next (((s.count (clReg c.cl 5) 32 1).asOp (.mread c.req) .port v).endCopy c)) ∧
      (s.drops c.rid c.cl c.cb = false → s.grantable c.cl c.cb true c.asked c.bytes.length = true →
        let t := (s.asOp (.mread c.req) .port v).updCts (fun t =>
          { t with copies := t.copies.map (fun x => if x.id = c.id then { x with asked := 0 } else x) })
        let g := t.grantClaim c.cl c.cb true (.copy c.id) false c.bytes.length
        exec (.multicastCopyAdvance k) s =
          .next ((((g.1.afterFreed c.cl c.cb).ringWrite c.cl c.cb g.2 c.bytes []).settleClaim c.cl c.cb true (.copy c.id) true).endCopy c))) ∧
    (∀ bus x, (s.dropDsts bus).busNext bus = some x →
      let bs := (x.data.drop x.sent).take x.beat
      let pads := (x.pads.drop (x.sent / 2)).take (x.beat / 2)
      let u := x.dsts.foldl (fun t p => t.landBeat x bs pads p) ((s.dropDsts bus).asXfer x)
      let t := u.beatDone x (s.dropDsts bus).ord.next
      exec (.busBeatGrant bus) s = .next ((t.updXfer x.id (fun y => { y with sent := y.sent + x.beat, since := t.clk })).updCts (fun c =>
        { c with busLast := Sparse.put (if bus < 6 then 7 else 5) c.busLast bus (busPos bus x.cl) }))) ∧
    (∀ bus k x, s.cts.xfers.find? (fun x => x.bus = bus && x.id = k && x.sent = x.total) = some x →
      exec (.busTransferAdvance bus k) s = .next (((x.dsts.foldl (fun t p => match p.2 with
        | .claimed _ => t.settleClaim p.1 x.cb true (.bus x.id) true | _ => t) (s.asXfer x)).xferDone x).updXfer x.id
        (fun x => { x with dsts := x.dsts.map (fun p => match p.2 with | .claimed _ => (p.1, .over) | v => (p.1, v)) }))) ∧
    (∀ part, part < 8 → s.svc.drains.any (fun d => d.1 = part) = false →
      exec (.drainStart part) s = .next (s.updSvc (fun v => { v with drains := v.drains ++ [(part, s.clk)] }))) ∧
    (∀ part d, s.svc.drains.find? (fun d => d.1 = part) = some d → (s.inNetwork part = false ∨ d.2 + 4096 ≤ s.clk) →
      exec (.drainComplete part) s = .next (s.endDrain part)) ∧
    (∀ cl core m ms settle, s.atCore cl core .thread = m :: ms → (s.atCore cl core .core).length < 16 →
      (s.thread m.uid m.lane).st = .admission .message settle →
      exec (.amsgQueueEnter cl core) s = .next ((s.moveMsg m .core).resume m.uid m.lane (s.thread m.uid m.lane).pc settle)) ∧
    (∀ k m, s.cts.msgs.find? (fun m => m.id = k) = some m →
      let cls := s.classOf m.rid
      (m.stage = .core → (s.atCore m.cl m.core .core).head? = some m → s.draining m.rid = false → (s.inRelay m.relay cls).length < 8 →
        exec (.amsgRelayAdvance k) s = .next (s.moveMsg m .relay)) ∧
      (m.stage = .relay → (s.inRelay m.relay cls).head? = some m →
        (bitAt m.target 6 = false → m.away = false → (s.inQueue (bitsAt m.target 0 6) cls).length < 8 →
          exec (.amsgRelayAdvance k) s = .next ((s.moveMsg m .queue).messageDone m)) ∧
        (m.away = true → (s.inQueue (bitsAt m.target 0 6) cls).length < 8 →
          exec (.amsgRelayAdvance k) s = .next ((s.moveMsg m .queue).send
            (.ack (.peer ((s.moveMsg m .queue).moduleOf m.rid m.peer) ((s.moveMsg m .queue).classOf m.rid)) m.tok [] 0 ⟨[], []⟩))) ∧
        (∀ r, bitAt m.target 6 = true → m.away = false → s.region? m.rid = some r → r.grpActive = true →
          exec (.amsgRelayAdvance k) s =
            .next ((s.send (.amsg m.id m.rid (bitsAt m.target 8 8) m.target m.index m.words m.src m.view)).moveMsg m .peer)))) ∧
    (∀ cl core t, (List.range 9).findSome? (fun cls => (s.inQueue cl cls).head?.bind (fun m => s.startAm m cl core)) = some t →
      exec (.amHandlerStart cl core) s = .next t) ∧
    (∀ t, (List.range 9).findSome? (fun cls => (s.inQueue 0 cls).head?.bind (fun m => s.startAm m 0 0)) = none →
      (List.range s.link.reqs.length).findSome? (fun k => s.link.reqs[k]?.bind (s.startRoot k)) = some t →
      exec (.amHandlerStart 0 0) s = .next t) ∧
    (∀ p peer part msg,
      let c := Conn.peer peer part
      s.awaits c p → s.relayFull msg = false → exec (.fabricMessageArrive ⟨p, peer, part, msg⟩) s = .next ((s.heard c p).fromPeer c msg)) ∧
    (∀ p peer part id bs fault seen,
      let c := Conn.peer peer part
      s.awaits c p → exec (.fabricMessageArrive ⟨p, peer, part, .readReply id bs fault seen⟩) s = .next ((s.heard c p).answer id [bs] fault seen)) ∧
    (∀ p peer part rid cl index words src from' id seen,
      let c := Conn.peer peer part
      let h := s.heard c p
      let msg := FabricMsg.amsg rid cl index words src from' id seen
      s.awaits c p → s.relayFull msg = false → h.groupOpen rid = true → cl ≤ 47 →
      exec (.fabricMessageArrive ⟨p, peer, part, msg⟩) s = .next (({ h with fresh := h.fresh + 1 } : State).updCts (fun t => { t with msgs := t.msgs ++
        [{ id := h.fresh, uid := 0, lane := 0, tok := id, rid := rid, step := 0, src := src, peer := from', away := true, cl := 0, core := 0,
           target := cl, index := index, words := words, stage := .relay, view := seen.map ownId }] })))

/-- The events of tasks and engines (R267, R268, R272, R294, R298, R304, R305, R309, R313, R336): a ready task fires; a running one that holds no fault works, each
kind at its own engine and as the acting agent; one whose work is over completes; an operation with a fault suspends. The order of two completions in one slot
(log 51), the bytes of a transfer (log 70), the refusals of a COPY_OUT of the sparse kind (log 20) and of log 94, and how many bytes a multicast MMA may be ahead (log 50), are the
model's choices. -/
def Obligations.TaskEventsComplete : Prop :=
  ∀ (s : State) (cl slot : Nat) (t : Task), s.task? cl slot = some t →
    let runs := t.st = .running ∧ t.fin = none ∧ t.fault = none ∧ t.rmt = none ∧ (t.susp = false ∨ (engineOf t.kind = 1 ∧ s.engineFree t.cl 1 t.unit = true))
    let local' := fun (i : Instr) (k : Nat) (f : State → Task → EAcc) => runs → t.kind = k → exec i s = .next (f (s.asTask t) { t with susp := false }).commit
    let cross := fun (i : Instr) (k : Nat) => runs → t.kind = k →
      let a := crossWork (s.asTask t) t
      exec i s = .next (if a.2.1.rmt.isSome then a.1.putTask a.2.1 else a.commit)
    (∀ unit, s.canFire t = true → (s.unitsFor t).contains unit = true →
      let g := s.grantAll t
      let u := g.1.updTask cl slot (fun q =>
        { q with view := joinIds q.view (s.firedBy t), st := .running, unit := unit, iOff := g.2.1, oOff := g.2.2, since := s.clk })
      exec (.taskFire cl slot unit) s = .next (((t.ins ++ [t.out]).filterMap id).foldl (fun v p => v.evalCbuf cl p.1)
        (if engineOf t.kind = 1 then { u with asu := { u.asu with run := Sparse.put 0 u.asu.run (4 * cl + unit) 0 } } else u))) ∧
    (∀ st, t.fin = some st → t.st = .running → t.rmt = none → (st ≠ 0 ∨ s.xferBusy t = false) →
      ((Sparse.get (0, 0) s.cts.doneAt cl).1 = s.clk → (Sparse.get (0, 0) s.cts.doneAt cl).2 ≤ slot) →
      exec (.taskComplete cl slot) s =
        .next ((s.updCts (fun c => { c with doneAt := Sparse.put (0, 0) c.doneAt cl (s.clk, slot) })).completeTask t st)) ∧
    local' (.taskCopyIn cl slot) 1 copyInWork ∧ local' (.taskCopyOut cl slot) 2 copyOutWork ∧ local' (.taskCopy cl slot) 0x0B copyWork ∧
    local' (.taskMma cl slot) 3 mmWork ∧ local' (.taskMmas cl slot) 4 mmWork ∧ local' (.taskGsx cl slot) 5 gsWork ∧
    local' (.taskSsx cl slot) 6 gsWork ∧ local' (.taskSsxa cl slot) 0x0A gsWork ∧
    cross (.taskXput cl slot) 7 ∧ cross (.taskXget cl slot) 8 ∧ cross (.taskXred cl slot) 9 ∧
    (∀ f, t.fault = some f → f.1 < fcMiss → t.susp = false → (ekindOf t.kind = 2 → s.mxeHolds cl t.unit = false) →
      exec (.engineSuspend (ekindOf t.kind) cl slot) s = .next ((s.updTask cl slot (fun q => { q with susp := true })).addRec
        (engRec t.rid (ekindOf t.kind) cl (if ekindOf t.kind ≤ 2 then t.unit else 0) t.id slot f))) ∧
    (∀ r f, s.rtu.rays.find? (fun r => r.cl = cl && r.id = slot && !r.susp) = some r → r.fault = some f → f.1 < fcMiss →
      exec (.engineSuspend 4 cl slot) s = .next (({ s with rtu := { s.rtu with rays := s.rtu.rays.map (fun (x : Ray) =>
        if x.id = slot then { x with susp := true } else x) } } : State).addRec (engRec r.rid 4 cl 0 r.r slot f)))

/-- The events of the Asterism unit, rays and beams (R350, R351, R353, R355, R357, R374, R375, R378, R384, R386): the first waiting call joins the bin of its key, opens one, or
displaces the oldest, and the calls behind it follow; a bin ages; a bin enters the buffer; a tile takes an engine, writes back its rows, or fails; a ray takes a place, goes
on, waits for its callbacks, or lands; a callback wave starts; a beam takes a BTU and goes on. The order in which bins enter the buffer (log 75), the number of a tile (log 53), the set of a line (log 24), the values that no
rule gives (log 25), the registers of a callback wave (log 54) and the unit of a beam (log 49) are the model's choices. -/
def Obligations.UnitEventsComplete : Prop :=
  ∀ (s : State) (cl : Nat),
    (∀ i x, findIdx (fun (x : Nat × ACall) => x.1 = cl) s.asu.waiting = some (i, x) →
      let off := s.updAsu (fun a => { a with waiting := a.waiting.eraseIdx i })
      let mine := s.asu.bins.filter (fun b => b.cl = cl)
      let joins := s.asu.bins.find? (fun b => b.cl = cl && b.rid = x.2.rid && b.key = x.2.key && !b.trig && b.calls.length < 64)
      let more := fun (t : State) => exec (.asuCallBin cl) s = .next (t.seatCalls cl (s.asu.waiting.length - 1))
      (∀ b, joins = some b → more ((off.joinBin b x.2).callSeated x.2)) ∧
      (joins = none → mine.length < 16 → more ((off.openBin cl x.2).callSeated x.2)) ∧
      (∀ b, joins = none → 16 ≤ mine.length → oldestBin mine = some b →
        (off.tileRoom cl = true → more (((off.dispatchBin b).openBin cl x.2).callSeated x.2)) ∧
        (off.tileRoom cl = false → exec (.asuCallBin cl) s = .next (s.flushBins (fun y => some y.seq = some b.seq))))) ∧
    (let old := fun (b : Bin) => b.opened + bitsAt (s.csr (clReg cl 7)) 0 16 ≤ s.clk
     ∀ bin b, b ∈ s.asu.bins → b.cl = cl → b.n = bin → old b → exec (.binAgeDispatch cl bin) s = .next (s.flushBins (fun b => b.cl = cl && decide (old b)))) ∧
    (∀ b, oldestBin (s.asu.bins.filter (fun b => b.cl = cl && b.trig)) = some b → s.tileRoom cl = true →
      exec (.tileEnter cl) s = .next (s.dispatchBin b)) ∧
    (∀ core t, (s.asu.tiles.filter (fun t => t.cl = cl)).find? (fun t => t.unit = some core && !t.ready && t.fault.isNone && !t.susp) = some t →
      exec (.tilePlace cl core) s = .next (s.runTile t)) ∧
    (∀ core t, (s.asu.tiles.filter (fun t => t.cl = cl)).find? (fun t => t.unit = some core && !t.ready && t.fault.isNone && !t.susp) = none →
      s.engineFree cl 1 core = true →
      (s.asu.tiles.filter (fun t => t.cl = cl)).find? (fun t => t.unit = some core && !t.ready && t.fault.isNone && t.susp) = some t →
      exec (.tilePlace cl core) s = .next (s.runTile t)) ∧
    (∀ core t, (s.asu.tiles.filter (fun t => t.cl = cl)).find? (fun t => t.unit = some core && !t.ready && t.fault.isNone) = none →
      (s.asu.tiles.filter (fun t => t.cl = cl)).find? (fun t => t.unit.isNone) = some t → core < 4 → s.engineFree cl 1 core = true →
      s.ordinaryReady cl core = false →
      let on := { t with unit := some core }
      exec (.tilePlace cl core) s = .next (((s.updAsu (fun a => { a with
        run := Sparse.put 0 a.run (4 * cl + core) 0, tiles := a.tiles.map (fun x => if x.id = t.id then on else x) })).runTile on).settleBins)) ∧
    (∀ tile t c cs x xs, s.asu.tiles.find? (fun t => t.cl = cl && t.id = tile && t.ready) = some t → t.calls.drop t.done = c :: cs →
      t.rows.drop t.done = x :: xs →
      exec (.tileRowWriteback cl tile) s = .next ((if cs = [] then s.updAsu (fun a => { a with tiles := a.tiles.filter (fun x => x.id ≠ t.id) })
        else s.updTile cl tile (fun t => { t with done := t.done + 1 })).writeRow t c x)) ∧
    (∀ tile t f, s.asu.tiles.find? (fun t => t.cl = cl && t.id = tile) = some t → t.fault = some f → f.1 = fcMemUe → t.susp = false →
      exec (.tileFail cl tile fcMemUe) s = .next (s.failTile t f.1 f.2)) ∧
    (∀ r, s.rtu.rays.find? (fun r => r.cl = cl && decide (r.st = .noPlace)) = some r → s.rayPlaces cl < 4096 →
      exec (.rayCachePlace cl) s = .next ((s.updRay cl r.id (fun r => { r with st := .traverse })).seatRay r)) ∧
    (∀ id r, s.rtu.rays.find? (fun r => r.cl = cl && r.id = id && r.fault.isNone && !r.susp) = some r →
      (r.st = .traverse → exec (.rayComplete cl id) s = .next (State.commitRay (rayStep (s.asRay r) false r))) ∧
      (∀ k, r.st = .inWave k → exec (.rayComplete cl id) s = .next (s.takeExit r k)) ∧
      (∀ st code info, r.st = .finish st code info → (7 ≤ st ∨ s.cbRuns id = false) →
        exec (.rayComplete cl id) s = .next (s.landRay { r with view := joinIds r.view (s.cbDone id) } st code info))) ∧
    (∀ core id r kind entry at' g t, s.rtu.rays.find? (fun r => r.cl = cl && r.id = id) = some r → r.parkedAt = some (kind, entry, at') →
      s.region? r.rid = some g → s.coreOk g cl core = true → callbackWave s g cl core r entry = some t → exec (.callbackWaveStart cl core id) s = .next t) ∧
    (∀ id b, s.rtu.beams.find? (fun b => b.cl = cl && b.id = id && b.fault.isNone && !b.susp) = some b →
      (∀ u, b.unit = none → s.freeBtu = some u → exec (.beamComplete cl id) s = .next (s.updBeam cl id (fun b => { b with unit := some u }))) ∧
      (b.unit.isSome → b.next < 256 → exec (.beamComplete cl id) s = .next (s.beamStep b beamPixel)) ∧
      (b.unit.isSome → 256 ≤ b.next → b.written < b.entries.length → exec (.beamComplete cl id) s = .next (s.beamStep b beamEntry)) ∧
      (b.unit.isSome → 256 ≤ b.next → b.entries.length ≤ b.written → b.entries.length = 256 → exec (.beamComplete cl id) s = .next (s.landBeam b)))

/-- The events of the host link (R408, R409, R411, R413, R418): an RDMA operation on a window that the queue pair reaches, or beyond it, and a SEND, each in the packet that its
connection awaits; the five handlers of the root's firmware, each with the request that its scalars hold; a retransmission, and flow control. The key of a window and the packets of a connection (log 27), that a
handler of the root's firmware has its whole effect in one event (log 40), the entries of a new table (log 46), and the answers that chapter 17 does not give (log 77), are the
model's choices. -/
def Obligations.HostLinkEventsComplete : Prop :=
  ∀ (s : State),
    (∀ p qp rkey va, qp < 4096 → s.awaits (.host qp) p →
      let h := s.heard (.host qp) p
      let serves := fun (i : Instr) (n : Nat) (op : Nat → HostOp) =>
        (∀ rid, h.rdmaWindow qp rkey va n = some rid → exec i s = .next (h.addHop qp (op rid))) ∧
        (h.rdmaWindow qp rkey va n = none → exec i s = .next (h.send (.hostNak qp .accessError)))
      (∀ bs, serves (.rdmaWrite ⟨qp, p⟩ rkey va bs) bs.length (fun rid => .write rid va bs)) ∧
      (∀ len, serves (.rdmaRead ⟨qp, p⟩ rkey va len) len (fun rid => .read rid va len))) ∧
    (∀ p qp bytes, qp < 4096 → s.awaits (.host qp) p →
      let h := s.heard (.host qp) p
      (sendBad bytes = false → exec (.roceSend ⟨qp, p⟩ bytes) s = .next (h.addHop qp (.send (sentReq qp bytes)))) ∧
      (sendBad bytes = true → exec (.roceSend ⟨qp, p⟩ bytes) s = .next (h.send (.hostNak qp .invalidRequest)))) ∧
    (∀ qp q n id op, s.link.hops.find? (fun x => x.1 = qp) = some (q, id, op) →
      let a := s.asQueue qp
      let done := fun (u : State) (m : OutMsg) => State.runHops qp (n + 1) s = State.runHops qp n
        (((((u.queueDone qp).dropRops (.queue qp)).endReads (.queue qp)).updLink (fun l => { l with hops := l.hops.filter (fun x => x.2.1 ≠ id) })).send m)
      (∀ rid va bs ls u, op = .write rid va bs → a.translateRange rid va true bs.length = .ok ls → a.writeAll rid (withVas va ls) bs = (u, none) →
        done u (.hostAck qp)) ∧
      (∀ rid va len ls u bs, op = .read rid va len → a.translateRange rid va false len = .ok ls → a.poisonAt ls = none →
        a.take (withVas va ls) (some 5) = .ok (u, bs) → done u (.hostData qp bs)) ∧
      (∀ rid va f, (∃ bs, op = .write rid va bs ∧ a.translateRange rid va true bs.length = .error f) ∨
          (∃ len, op = .read rid va len ∧ a.translateRange rid va false len = .error f) →
        f.holds = false → done a (.hostNak qp .accessError)) ∧
      (∀ r, op = .send r → done (a.updLink (fun l => { l with reqs := l.reqs ++ [{ r with view := a.connView qp }] })) (.hostAck qp))) ∧
    (∀ k w,
      let t := { s with waves := s.waves.filter (fun v => v.uid ≠ w.uid) }
      let grant := w.pairAt 0 &&& featuresDefined &&& Config.features.toNat
      ((s.firmware 0)[k]? = some w →
        (t.regions.any (fun g => g.rid ≠ 0) = false →
          exec (.attach k) s = .next (({ t with grant := BitVec.ofNat 64 grant } : State).complete (w.addrAt 2) (w.word 18) 0 grant)) ∧
        (t.regions.any (fun g => g.rid ≠ 0) = true → exec (.attach k) s = .next (t.complete (w.addrAt 2) (w.word 18) 10 0))) ∧
      (∀ b p, (s.firmware 1)[k]? = some w → t.readVa 0 (w.addrAt 0) 256 = .ok b → t.region? (bitsAt b 128 32) = some p → p.retiring = false →
        let id := t.freeRid (t.regions.length + 2) t.link.nextRid
        let u := (t.updLink (fun l => { l with nextRid := id + 1 })).svcWrite (w.addrAt 0) (leBytes 8 (putBits (putBits (bitsAt b 0 64) 0 32 id) 48 3 (p.depth + 1)))
        exec (.ctxnew k) s = .next (match u.register 0 (w.addrAt 0) with
          | none => u.complete (w.addrAt 2) (w.word 18) 7 0
          | some (v, i) => ((v.writeTop i).clearQueue i).complete (w.addrAt 2) (w.word 18) 0 i)) ∧
      (∀ g, (s.firmware 2)[k]? = some w → w.word 5 = 0 → t.region? (w.word 0) = some g → g.retiring = false →
        let x := t.spawn 0 (w.addrAt 1) g.adr (some (w.addrAt 3, w.word 18)) (w.thread 0).vw.ids
        exec (.launch k) s = .next (x.1.complete (w.addrAt 3) (w.word 18) x.2.2 x.2.1)) ∧
      (∀ g, (s.firmware 3)[k]? = some w → t.region? (w.word 0) = some g → g.retiring = false →
        exec (.ctxend k) s = .next ((t.updRegion g.rid (fun r => { r with retiring := true })).complete (w.addrAt 1) (w.word 18) 0 0)) ∧
      ((s.firmware 4)[k]? = some w → exec (.query k) s = .next (t.complete (w.addrAt 0) (w.word 18) 0
        (leNat ((List.range 8).map (fun p => BitVec.ofNat 8 ((List.range 48).filter (fun c => t.partOf c = some p)).length)))))) ∧
    (∀ c,
      let again := (s.link.unacked.filter (fun p => p.1 = c)).map (fun p => p.2)
      exec (.retransmissionTimeout c) s = .next (s.updLink (fun l =>
        { l with outbox := l.outbox ++ again.filter (fun m => !s.pausedFor m), waiting := l.waiting ++ again.filter s.pausedFor }))) ∧
    (∀ port prio pause, port < 9 → (prio = 3 ∨ prio = 4) → exec (.priorityFlowControl port prio pause) s = .next ((s.updLink (fun l =>
      { l with paused := l.paused.filter (fun p => p ≠ (port, prio)) ++ (if pause then [(port, prio)] else []) })).flushLink))

/-- The debug events (R452 to R460): a debugger stops, resumes, steps and dumps a quadrant, writes every class of target and reads one, a hit is decided, a sample is
recorded or dropped, a unit that holds work counts the lowest-coded cause of its stall; and a write of a control register from the root region (R451). The places of the dump and the verdicts (log 76), the values of a sample that
no rule gives (log 25), and which causes a unit shows (log 39), are the model's choices. -/
def Obligations.DebugEventsComplete : Prop :=
  ∀ (s : State) (cl core q : Nat),
    (s.debugOn cl core q = true →
      (s.stopped cl core q = false ∨ s.stepping.contains (cl, core, q) = true → exec (.debugStopr cl core q) s = .next (s.stopQuad cl core q 1)) ∧
      (s.stopped cl core q = true → s.svc.thermal = false →
        exec (.debugResm cl core q) s = .next (s.runOn cl core q)) ∧
      (s.stopped cl core q = true → s.svc.thermal = false → s.stepping.contains (cl, core, q) = false →
        exec (.debugStep cl core q) s = .next { s with stepping := s.stepping ++ [(cl, core, q)] })) ∧
    (cl < 48 → core < 4 → q < 4 →
      exec (.debugDump cl core q) s = .next (s.setCsr (dqctl cl core q) (putBits (putBits (s.csr (dqctl cl core q)) 6 1 0) 4 1 1))) ∧
    (bitAt (s.csr (dqctl cl core q)) 4 = true →
      let t := s.svcWrite (s.csr (csrAddr 1 core cl 0x14) + 65536 * q) (s.dumpBytes cl core q)
      exec (.dumpWrite cl core q) s = .next (t.setCsr (dqctl cl core q) (putBits (putBits (t.csr (dqctl cl core q)) 4 1 0) 6 1 1))) ∧
    (∀ tgt w, s.dbgWave cl core (dbgTarget tgt) = some w →
      let g := dbgTarget tgt
      let v := s.csr (csrAddr 1 core cl 0x20)
      let does := fun (t : State) => exec (.debugWrite cl core tgt) s = .next t
      (g.cls = 0 → g.reg < w.V → does (s.dbgReg w (.v g.reg g.lane) (BitVec.ofNat 32 v))) ∧
      (g.cls = 1 → g.reg < w.S → does (s.dbgReg w (.s g.reg) (BitVec.ofNat 32 v))) ∧
      (g.cls = 2 → inMask w.m0 g.lane = true → does (s.updThread w.uid g.lane (fun th => th.setPred g.reg (bitAt v 0)))) ∧
      (g.cls = 3 → does (s.dbgPc w g.lane (BitVec.ofNat 56 v))) ∧
      (g.cls = 4 → g.reg < 12 → does (s.updWave w.uid (fun w => w.setMask g.reg (setLane (w.mask g.reg) g.lane (bitAt v 0))))) ∧
      (g.cls = 5 → does (s.updWave w.uid (fun w => { w with ac := BitVec.ofNat 32 (v % 2 ^ 7) })))) ∧
    (∀ tgt, cl < 48 → core < 4 → exec (.debugRead cl core tgt) s = .next (s.setCsr (csrAddr 1 core cl 0x23) (s.dbgValue cl core tgt))) ∧
    (∀ i h, findIdx (fun (h : Hit) => h.verdict.isNone) s.flight.hits = some (i, h) → s.watchVerdict h = (true, false) →
      let t := s.updFlight (fun f => { f with hits := setAt f.hits i { h with verdict := some true } })
      (t.flight.hits.filter (fun x => x.grp = h.grp && x.uid = h.uid && x.lane = h.lane)).all (fun x => x.verdict = some false) = false →
      exec .watchEval s = .next (if t.flight.hits.any (fun x => x.grp = h.grp && x.verdict.isNone) then t else t.watchEnd h.grp)) ∧
    (∀ wait, bitAt (s.csr (dqctl cl core q)) 10 = true → wait ≠ 0 → wait < 2 ^ (bitsAt (s.csr (csrAddr 1 core cl 0x31)) 0 5 + 1) →
      let start := fun (t : State) => t.updSvc (fun v =>
        { v with samples := v.samples.filter (fun x => !x.of (cl, core, q)) ++ [⟨cl, core, q, t.clk + 2 * wait, none, []⟩] })
      (cl < 48 → core < 4 → q < 4 → s.svc.samples.find? (fun x => x.of (cl, core, q)) = none →
        exec (.sampleTag cl core q wait) s = .next (start s)) ∧
      (∀ x g, s.svc.samples.find? (fun x => x.of (cl, core, q)) = some x → x.tag = some g → s.underWay g.uid g.lane = false →
        let log := bitsAt (s.csr (csrAddr 1 core cl 0x31)) 8 5
        let head := s.csr (csrAddr 1 core cl 0x32)
        let full := (head + 2 ^ 64 - s.csr (csrAddr 1 core cl 0x33)) % 2 ^ 64 = 2 ^ log
        let t := if full then s.count (csrAddr 1 core cl 0x34) 64 1
          else (s.svcWrite (s.csr (csrAddr 1 core cl 0x30) + 32 * (head % 2 ^ log)) (leBytes 32 (sampleBits s.tick s.clk (cl, core, q) g))).count
            (csrAddr 1 core cl 0x32) 64 1
        let u := t.updSvc (fun v => { v with samples := v.samples.filter (fun x => !x.of (cl, core, q)) })
        wait < 2 ^ (bitsAt (u.csr (csrAddr 1 core cl 0x31)) 0 5 + 1) → exec (.sampleTag cl core q wait) s = .next (start u))) ∧
    (∀ a data sh, csrShape a = some sh → exec (.registerWrite a data) s = .next (s.csrWrite true a sh data.toNat)) ∧
    (∀ a c, (csrShape a).isSome →
      let blk := bitsAt a 19 4
      let unit := bitsAt a 10 7
      let core := bitsAt a 17 2
      bitsAt a 0 10 = 0x80 + c → c < 0x40 → (blkCauses blk).contains c = true → s.stalled blk unit core c = none → s.holdsWork blk unit core = true →
      (∀ k, s.shownCause blk unit core = some k → c ≤ k) →
      exec (.stallCounterIncrement a) s = .next (s.stallUnit (a - c) c))

/-- The events of service life (R244, R411, R450, R461 to R471): spares take over under a drain of every partition, a failure beyond them signals, records, wear and
telemetry are entered, a thermal stop stops every quadrant, refresh and scrub change nothing, and a module reset puts every unit in its reset state, memory and spare state
apart, with the root region registered and its control block and table in memory. What comes from outside as an operand, the layout of the telemetry, the clk of a migration and what a module reset keeps (log 15),
the place of a monitor (log 65), and the control block that firmware has put into memory (log 9), are the model's choices. -/
def Obligations.ServiceEventsComplete : Prop :=
  ∀ (s : State),
    (∀ slice spare, spare < 2 → slice < 64 → bitAt (s.csr (svcAddr 0x11)) (8 * spare + 6) = false → s.wanted 1 slice = true →
      exec (.sliceSpareTakeover slice spare) s = .next ((((((s.met 1 slice).setCsr (svcAddr 0x11) (putBits (s.csr (svcAddr 0x11)) (8 * spare) 7 (64 + slice))).migrated
        (s.stopTime 4096)).markMig 1 slice).writeRoutes 8).drainAll)) ∧
    (∀ ch spare, spare < 2 → ch < 32 → bitAt (s.csr (svcAddr 0x12)) (8 * spare + 6) = false → s.wanted 2 ch = true →
      exec (.channelSpareMigrate ch spare) s = .next (((((s.met 2 ch).setCsr (svcAddr 0x12) (putBits (s.csr (svcAddr 0x12)) (8 * spare) 7 (64 + ch))).migrated
        (s.stopTime 4096)).markMig 2 ch).drainAll)) ∧
    (∀ cl core, cl < 48 → core < 4 → bitAt (s.csr (svcAddr 0x10)) cl = false → s.coreStopped cl core = false → s.wanted 0 (5 * cl + core) = true →
      let u := ((s.met 0 (5 * cl + core)).setSvcBit 0x10 cl).migrated (s.stopTime 12000)
      let v := u.meetWaves (u.context cl core .active)
      let t := v.meetWaves (v.context cl core .shadow)
      exec (.coreSpareMigrate cl core) s = .next ((t.loseSlots cl (t.swapSet cl core) true (s.stopTime 12000)).markMig 0 cl)) ∧
    (∀ port, port < 9 → bitAt (s.csr (svcAddr 0x13)) port = false →
      exec (.laneSpareRetrain port) s = .next (((s.setSvcBit 0x13 port).migrated 0).markMig 2 (48 + port))) ∧
    (∀ cl x, s.svc.wants.find? (fun x => x.1 = 0 && x.2 / 5 = cl) = some x → cl < 48 → bitAt (s.csr (svcAddr 0x10)) cl = true →
      exec (.sparesExhausted 0 cl) s = .next (((s.met 0 x.2).setSvcBit 0x14 cl).raiseHigh)) ∧
    (∀ slice, slice < 64 → s.bothUsed 0x11 = true → s.wanted 1 slice = true → exec (.sparesExhausted 1 slice) s = .next (s.met 1 slice).raiseHigh) ∧
    (∀ ch, ch < 32 → s.bothUsed 0x12 = true → s.wanted 2 ch = true → exec (.sparesExhausted 2 ch) s = .next (s.met 2 ch).raiseHigh) ∧
    (∀ port, port < 9 → bitAt (s.csr (svcAddr 0x13)) port = true → exec (.sparesExhausted 3 port) s = .next (s.portDown port).raiseHigh) ∧
    (∀ group unit ue consumed src addr info, bankOk group unit = true → group < 4 →
      let t := s.enterError group unit ue false src (addr % 2 ^ 56) info
      (∀ l, ue = true → errorSector group unit src (addr % 2 ^ 56) = some l → exec (.errorRecord group unit ue consumed src addr info) s = .next (t.poisoned l)) ∧
      (ue = false ∨ errorSector group unit src (addr % 2 ^ 56) = none → exec (.errorRecord group unit ue consumed src addr info) s = .next t)) ∧
    (∀ group unit wmpd wmrt, group < 4 → bankOk group (unit % 128) = true → unit / 128 < monitors group (unit % 128) →
      let a := csrAddr 12 group (unit % 128) (0x20 + unit / 128)
      let t := s.setCsr a (putBits (putBits (s.csr a) 0 16 wmpd) 16 16 wmrt)
      (∀ x ∈ s.svc.trend, x.1 = a → x.2.1 + tenSeconds ≤ s.clk) →
      exec (.wearSample group unit wmpd wmrt) s = .next ((t.updSvc (fun v =>
        { v with trend := v.trend.filter (fun x => t.clk < x.2.1 + thirtyDays) ++ [(a, t.clk, wmpd % 2 ^ 16, wmrt % 2 ^ 16)] })).margin group (unit % 128) (unit / 128))) ∧
    (∀ reg value, reg < 64 → exec (.telemetrySample reg value false) s = .next (s.setCsr (svcAddr (0x40 + reg)) value.toNat)) ∧
    (∀ reg value, reg < 64 → exec (.telemetrySample reg value true) s = .next (s.setCsr (svcAddr (0x40 + reg)) value.toNat).raiseHigh) ∧
    (∃ t, exec .thermalStop s = .next t ∧ t.svc.thermal = true ∧ ∀ cl core q, cl < 48 → core < 4 → q < 4 →
      t.stopped cl core q = true ∧ t.stepping.contains (cl, core, q) = false ∧ t.debugOn cl core q = s.debugOn cl core q) ∧
    (∀ bank, exec (.gddrRefresh bank) s = .next s) ∧
    (∀ sector, exec (.memoryScrub sector) s = .next s) ∧
    (let b := s.afterReset.bootImage
     let block := b.rootSpan rootRegion.adr 256
     let table := b.rootSpan rootRegion.amtbl 2048
     let holds := fun (t : State) (ls rest : List Loc) (bytes : List Byte) => ∀ (i : Nat) p x, ls[i]? = some p → bytes[i]? = some x →
       b.isPoison p = false → (∀ m va k, p ≠ .rem m va k) → (∀ (j : Nat) q, j ≠ i → ls[j]? = some q → ¬ q.at p) → (∀ q ∈ rest, ¬ q.at p) → t.newest p = x
     ∃ t, exec .moduleReset s = .next t ∧
      t = { State.reset with
        tick := s.tick, fresh := s.fresh, booted := true, regions := [rootRegion], csrs := s.csrs.filter (fun p => spareReg p.1)
        svc := { State.reset.svc with
          quotes := s.svc.quotes, portsDown := s.svc.portsDown, rows := s.svc.rows.map (fun r => (r.1, r.2.1, r.2.2.1, true)),
          routes := (List.range 9).flatMap (fun c => s.slicesSpared.map (fun x => (c, x.1, x.2))) }
        mem := t.mem, ls := t.ls, chip := t.chip, pads := t.pads, poison := t.poison, ord := t.ord, asu := t.asu, wd := t.wd, ueLog := t.ueLog } ∧
      (∀ a, spareReg a = true → t.csr a = s.csr a) ∧ (∀ a, spareReg a = false → t.csr a = State.reset.csr a) ∧
      t.wd.launches = [] ∧ t.wd.gangs = [] ∧ t.wd.shadows = [] ∧ t.asu.bins = [] ∧ t.asu.tiles = [] ∧ t.asu.waiting = [] ∧
      holds t table [] rootTable ∧ holds t block table (leBytes 256 rootRegion.rcb) ∧
      (∀ q : Loc, (∀ x ∈ rootImage, ¬ q.at x.1) → (∀ p ∈ block, ¬ q.at p) → (∀ p ∈ table, ¬ q.at p) → t.newest q = s.newest q))

/-! ## Values that the rules give -/

/-- R79: the guard is evaluated for each thread on its own predicates; PG = 7 with PN = 0 is true and with PN = 1 is false in every thread. Where it is false
in every thread of a packet, the instruction, whichever it is, advances pc and has no other effect, although the decode faults of R101 still apply. What the slot itself
ends, whatever its last packet is, ends here too: writes to peers that have not been sent, and bins that the slot's other packets have triggered. -/
def Obligations.GuardFalseOnlyAdvances : Prop :=
  (∀ (h : Hdr) (t : Thread), guardOn h t = (t.pred h.pg.toNat != h.pn) ∧ (h.pg = 7 → guardOn h t = !h.pn)) ∧
  (∀ i, (encOf i).isSome = true → PacketDoes i (fun _ _ => False) (fun _ s => s)) ∧
  ∀ i e s w ls pc, encOf i = some e → Group s w ls pc → guarded e w ls = [] →
    (Able e w →
      let t := s.begun e w ls pc
      exec i s = .next (slotEnd i t) ∧
      ((∀ r ∈ s.link.rops, r.ask = none) → s.ord.pack = [] → (∀ b ∈ s.asu.bins, b.trig = false) → exec i s = .next t) ∧
      (∀ l ∈ ls, t.thread w.uid l = { w.thread l with
        pc := nextPc pc e.h.len, st := .ready, age := 0, pkt := if (w.thread l).hseg.isSome then (w.thread l).pkt else s.tick }) ∧
      (∀ u l, ¬(u = w.uid ∧ l ∈ ls) → t.thread u l = s.thread u l) ∧ (∀ u r, t.finalReg u r = s.finalReg u r) ∧ SameMachine s t ∧ t.asu = s.asu) ∧
    (e.check5 w.V w.S = false → exec i s = .next (slotEnd i ((s.taken w ls).park w.uid pc (ls.map (fun l => (l, illegal 5)))).endSlot))

/-- R99: SEGLD, CSRRD, CSRWR, TRET, PARKQ, LANEPC, RCBOP, TLBOP, WTBL, IDLE and SPAWN, and no other instruction, are privileged. In a wave without privilege
each raises PRIV and has no effect; a register out of range is found first, with ILLEGAL and check 5 (R101). -/
def Obligations.PrivilegedInstructionsFault : Prop :=
  (∀ i e, encOf i = some e → e.priv = privileged i) ∧
  ∀ i e s w ls pc, encOf i = some e → Group s w ls pc → ls ≠ [] →
    (e.check5 w.V w.S = false →
      exec i s = .next (slotEnd i (((slotStart i e s).taken w ls).park w.uid pc (ls.map (fun l => (l, illegal 5)))).endSlot)) ∧
    (e.check5 w.V w.S = true → privileged i = true → w.priv = false →
      exec i s = .next ((s.taken w ls).park w.uid pc (ls.map (fun l => (l, ⟨fcPriv, e.op.toNat⟩)))).endSlot)

/-- R144: division by zero gives all ones, and its remainder the dividend, with no trap; the remainder of −2^(w−1) by −1 is 0. -/
def Obligations.DivisionByZero : Prop :=
  ∀ (h : Hdr) (f : IntFn) (x : BitVec 64), f.ty = .i32 ∨ f.ty = .n32 ∨ f.ty = .i64 ∨ f.ty = .n64 →
    let w := tyWidth f.ty
    let a := fun (c : Ctx) (s : State) (l : Nat) => s.srcInt c l .a f.ty
    let b := fun (c : Ctx) (s : State) (l : Nat) => s.srcInt c l .b f.ty
    (∃ g, Computes (.idiv h f x) g ∧ ∀ c s l, b c s l = 0 → (g c s l).val = 2 ^ w - 1 ∧ (g c s l).n = tyRegs f.ty) ∧
    (∃ g, Computes (.irem h f x) g ∧ ∀ c s l, (g c s l).n = tyRegs f.ty ∧ (f.sat = false → b c s l = 0 → (g c s l).val = a c s l) ∧
      (tySigned f.ty = true → a c s l = 2 ^ (w - 1) → b c s l = 2 ^ w - 1 → (g c s l).val = 0))

/-- R165: SHFL with n the count that B gives, over segments of z lanes with base the lowest lane of the segment: .idx reads base + (n mod z), .up lane L − n
while that is not below base, .down lane L + n while that is below base + z, .bfly base + ((L xor n) mod z); where there is no source lane, or it is no
participant, a thread receives its own value. -/
def Obligations.ShuffleSources : Prop :=
  ∀ (h : Hdr) (f : LaneFn) (x : BitVec 64), h.u = false → h.mx ≠ 0xD → f.lop.toNat ≤ 3 →
    Computes (.shfl h f x) (fun c s l =>
      let z := segWidth f
      let n := s.srcCount c l .b
      let base := l - l % z
      let src : Option Nat :=
        if f.lop = 0 then some (base + n % z)
        else if f.lop = 1 then (if (base : Int) ≤ (l : Int) - n then some (l - n) else none)
        else if f.lop = 2 then (if l + n < base + z then some (l + n) else none)
        else some (base + (l ^^^ n) % z)
      let own := s.laneA c f l
      { val := if ∃ k ∈ src, k ∈ c.on then s.laneA c f (src.getD l) else own, n := tyRegs f.ty })

/-- R175: MJOIN sets in mD, and MLEAVE clears, the bit of every thread of the wave that is in the packet with its guard true; bits of lanes not in m0 stay
zero; the MWAITs pending on mD are evaluated again after the write, and the barriers that the wave has not arrived at (R178, R182). -/
def Obligations.JoinAndLeave : Prop :=
  ∀ (h : Hdr) (f : CodeFn) (x : BitVec 64) (e : Enc) (s : State) (w : Wave) (ls : List Nat) (pc : VA),
    h.d ≠ 0 → Group s w ls pc → Able e w → guarded e w ls ≠ [] →
    let m := h.d.toNat
    let on := guarded e w ls
    let step := fun (i : Instr) (bit : Nat → Bool) =>
      ∃ (t : State) (v : Wave), exec i s = .next ((t.evalMask w.uid m).evalBarsOf w.uid).endSlot ∧ t.wave? w.uid = some v ∧
        (∀ l, l < 128 → inMask (v.mask m) l = (inMask w.m0 l && bit l)) ∧ (∀ k, k ≠ m → v.mask k = w.mask k) ∧
        (∀ l ∈ ls, (v.thread l).pc = nextPc pc e.h.len) ∧ v.v = w.v ∧ v.s = w.s ∧ t.pend = s.pend
    (encOf (.mjoin h f x) = some e → step (.mjoin h f x) (fun l => inMask (w.mask m) l || decide (l ∈ on))) ∧
    (encOf (.mleave h f x) = some e → step (.mleave h f x) (fun l => inMask (w.mask m) l && !decide (l ∈ on)))

/-- R437: registration refuses a control block whose FHND or ABND is not zero where its HPOOL is zero, after inheritance: RCBOP.reg answers (0, 4) and
nothing changes, and CTXNEW completes with STAT 7. That the registration is served as the instruction issues (log 78), and that CTXNEW uses up the RID and
tests the parent first (log 77), are the model's choices. -/
def Obligations.HandlersNeedAPool : Prop :=
  let bad := fun (s : State) (rid adr : Nat) =>
    ∃ b p, s.readVa rid adr 256 = .ok b ∧ s.region? (bitsAt b 128 32) = some p ∧ (regionOf b adr p).hpool = 0 ∧
      ((regionOf b adr p).fhnd ≠ 0 ∨ (regionOf b adr p).abnd ≠ 0)
  (∀ (h : Hdr) (f : EngFn) (x : BitVec 64),
    DoesOnceMem (.rcbopReg h f x) (fun c s _ => bad { s with ord := { s.ord with agent := none } } (s.ridOf c.uid) (s.pairA c))
      (fun _ s _ => (s, { sregs := regWrites 0 .s h.d.toNat 1 0 ++ regWrites 0 .s (h.d.toNat + 1) 1 4, st := some .settling })) noPost) ∧
  ∀ (s : State) (k : Nat) (w : Wave) (b : Nat) (p : Region),
    let t := { s with waves := s.waves.filter (fun v => v.uid ≠ w.uid) }
    (s.firmware 1)[k]? = some w → t.readVa 0 (w.addrAt 0) 256 = .ok b → t.region? (bitsAt b 128 32) = some p → p.retiring = false →
    let id := t.freeRid (t.regions.length + 2) t.link.nextRid
    let u := (t.updLink (fun l => { l with nextRid := id + 1 })).svcWrite (w.addrAt 0) (leBytes 8 (putBits (putBits (bitsAt b 0 64) 0 32 id) 48 3 (p.depth + 1)))
    bad u 0 (w.addrAt 0) → exec (.ctxnew k) s = .next (u.complete (w.addrAt 2) (w.word 18) 7 0)

/-! ## Taking a fault -/

/-- A wave's lanes that fault park (R35): each is in the parked state at its pc, with its predicates, flags and every register as they were; every other
thread keeps its pc, run state, predicates and flags, but for an IDLE that notes the record, or the signal of an error that it met, as its event (R439, R465), and the packets of the slot are unchanged. In a wave that handles faults the fault is raised as fatal, and no record is written (R445). The
32 bytes of a record hold the lanes, the address, the handle, whether codes differ, and the code and INFO of the lowest lane, which a record lists first (R188); a
handle is the lowest of 0 to 511 that no open record of the region holds. When the lanes of a packet park together is log 6, the model's choice. -/
def Obligations.FaultsPark : Prop :=
  (∀ (s : State) (uid : Nat) (w : Wave) (site : VA) (fs : List (Nat × LFault)), s.wave? uid = some w →
    let t := s.park uid site fs
    (∀ u l,
      let a := t.thread u l
      let b := if u = uid ∧ l ∈ fs.map (fun p => p.1) then { w.thread l with st := .parked, ue := none } else s.thread u l
      a.pc = b.pc ∧ a.p = b.p ∧ a.fl = b.fl ∧ a.ue = b.ue ∧
        (a.st = b.st ∨ ∃ E till d got ev settle, b.st = .sleeping (.idle E till d got) settle ∧ a.st = .sleeping (.idle E till d (got ||| ev)) settle)) ∧
    (∀ u r, t.finalReg u r = s.finalReg u r) ∧ t.packets = s.packets ∧ t.pend = s.pend ∧
    (∀ l f fs', fs = (l, f) :: fs' → w.fatalKind = true → t.fatals = s.fatals ++ [(w.rid, f.code)] ∧ t.recs = s.recs ∧ t.mem = s.mem)) ∧
  (∀ (r : Rec) (p : ParkLane) (ps : List ParkLane) (h : Nat), r.eng = none → r.lanes = p :: ps → h < 512 → p.code < 256 → r.site.toNat % 4 = 0 →
    let b := r.bits h
    (∀ l, l < 128 → (bitAt b l = true ↔ ∃ q ∈ r.lanes, q.lane = l)) ∧ 4 * bitsAt b 128 54 = r.site.toNat ∧ bitsAt b 182 9 = h ∧
      (bitAt b 191 = true ↔ ∃ q ∈ r.lanes, q.code ≠ p.code) ∧ bitsAt b 192 56 = p.info % 2 ^ 56 ∧ bitsAt b 248 8 = p.code) ∧
  (∀ (s : State) (rid h : Nat), s.freeHandle rid = some h ↔ h < 512 ∧ h ∉ s.handlesOf rid ∧ ∀ k, k < h → k ∈ s.handlesOf rid)

/-! ## Steps and memory -/

/-- When the bytes at the pc of the packet at the head of the slot decode to an instruction, the step executes it, and counts itself; a pc that is not a
multiple of 4, a block that cannot be filled, bytes that cross the block, and a check that fails give the fault of the fetch, and the packet's threads park
(R81, R101). With no packet the next event happens. -/
def Obligations.StepRunsDecoded : Prop :=
  (∀ (s : State) (p : Packet) (ps : List Packet) (uid : Nat) (ls : List Nat) (w : Wave),
    s.packets = p :: ps → p.waves.head? = some (uid, ls) → s.wave? uid = some w →
    let parks := fun (f : LFault) => step s = counted (.next (({ s with packets := ps } : State).fetchFault p f).endSlot)
    (p.pc.toNat % 4 = 0 → ∀ bs, s.blockOf w p.pc.toNat = .ok bs →
      (∀ i rest, decodeBytes (bs.drop (p.pc.toNat % 32)) = .ok (i, rest) → step s = counted (exec i s)) ∧
      (∀ n, decodeBytes (bs.drop (p.pc.toNat % 32)) = .error (.check n) → parks (illegal n)) ∧
      (decodeBytes (bs.drop (p.pc.toNat % 32)) = .error .crossing → parks ⟨fcFetchFmt, p.pc.toNat⟩)) ∧
    (p.pc.toNat % 4 = 0 → ∀ c, s.blockOf w p.pc.toNat = .error c → parks ⟨c, p.pc.toNat⟩) ∧
    (p.pc.toNat % 4 ≠ 0 → parks ⟨fcFetchFmt, p.pc.toNat⟩)) ∧
  (∀ s : State, s.packets = [] → step s = counted (exec (Config.nextEvent s.tick) s)) ∧
  (∀ t : State, counted (.next t) = .next { t with tick := t.tick + 1 })

/-- The service stores one byte: it is read back at its place, every other place of the module reads as before, the memories keep their canonical form, and no register
changes. A byte of a sector with uncorrectable data is not written unless the whole sector is (R201). -/
def Obligations.StoreReadsBack : Prop :=
  ∀ (s : State) (p q : Loc) (b : Byte), s.ord.agent = none → (∀ m va k, p ≠ .rem m va k) →
    let t := s.store [p] [b]
    (s.isPoison p = false → t.readLocs [p] = [b]) ∧ (¬ q.at p → t.readLocs [q] = s.readLocs [q]) ∧
    (s.isPoison p = true → t.readLocs [p] = s.readLocs [p] ∧ t.isPoison p = true) ∧ (s.memOk = true → t.memOk = true) ∧
    (∀ u r, t.finalReg u r = s.finalReg u r) ∧ t.waves = s.waves ∧ t.pend = s.pend ∧ t.regions = s.regions ∧ t.recs = s.recs ∧ t.csrs = s.csrs

/-- Every step keeps the canonical form of device memory, local store, chip scratchpad and pad bits. -/
def Obligations.StepKeepsMemory : Prop := ∀ s t : State, s.memOk = true → step s = .next t → t.memOk = true

/-- After reset the memories are in their canonical form with nothing listed, no packet, wave, region, launch or record exists, the clk count is 0 (R61), no
feature is granted (R413), launch ids begin at 1 (R286), and the control registers read as the rules say: WCCAP 12 (R255), MCWIN 64 (R248), DLTO 2,000 (R449). That
memory reads 0 where nothing has written it (log 1), and the model's own counters (log 4), are the model's choices. -/
def Obligations.ResetState : Prop :=
  State.reset.memOk = true ∧ State.reset.mem = [] ∧ State.reset.packets = [] ∧ State.reset.waves = [] ∧ State.reset.regions = [] ∧
  State.reset.wd.launches = [] ∧ State.reset.recs = [] ∧ State.reset.clk = 0 ∧ State.reset.grant = 0 ∧ State.reset.wd.nextLid = 1 ∧
  State.reset.csr (csrAddr 0 0 5 0) = 12 ∧ State.reset.csr (csrAddr 7 0 3 2) = 64 ∧ State.reset.csr (csrAddr 10 0 0 0) = 2000

/-! ## Encodings -/

/-- Decoding the bytes of a well-formed instruction, whatever follows them, gives the instruction and what follows. -/
def Obligations.DecodeOfEncode : Prop :=
  ∀ (i : Instr) (rest : List Byte), WellFormed i → decodeBytes (encode i ++ rest) = .ok (i, rest)

/-- The worked encodings of the spec decode to their instructions, in chapter order: FFMA, IADD, LD, BRA, MWAIT, BAR, AMSG, TKPOST, CBWT, TCPY, STNXT, NQRY,
WTBL.sync, RTRACE, DDX, BALLOT, XCHGM, RCBOP.reg, CSRRD and SVCALL.att. -/
def Obligations.WorkedEncodingsDecode : Prop :=
  let reads := fun (n w : Nat) (i : Instr) => decodeBytes (leBytes n w) = .ok (i, [])
  reads 8 0x0001_0B0A_0908_A234 (.ffma ⟨0, 0x0B, 0x0A, 0x09, 0x08, true, 2, false, true, .w64⟩ ⟨0, .f32, false, false, false, false, false, .rz⟩ 0) ∧
  reads 12 0x0001_0000_4000_0000_0504_7001 (.iadd ⟨4, 0, 0, 5, 4, false, 7, false, false, .w96⟩ ⟨0, 0, false, .i32⟩ 0x10000) ∧
  reads 8 0x7010_4000_0206_7800 (.ld ⟨7, 0x40, 0, 2, 6, false, 7, false, false, .w64⟩ ⟨false, .plain, 0, .b32, 0⟩ 0) ∧
  reads 12 0xFFFF_FFC0_0000_0000_0000_7601 (.bra ⟨0, 0, 0, 0, 0, false, 7, false, false, .w96⟩ ⟨0⟩ 0xFFFFFFC0) ∧
  reads 8 0x0000_0000_0300_7720 (.mwait ⟨0, 0, 0, 3, 0, false, 7, false, false, .w64⟩ ⟨0⟩ 0) ∧
  reads 8 0x4005_0200_0000_7750 (.bar ⟨4, 2, 0, 0, 0, false, 7, false, false, .w64⟩ ⟨5⟩ 0) ∧
  reads 8 0x8030_0704_0803_7AC0 (.amsg ⟨8, 7, 4, 8, 3, false, 7, false, false, .w64⟩ ⟨3, .i32⟩ 0) ∧
  reads 8 0x3020_0012_0406_7A00 (.tkpost ⟨3, 0, 0x12, 4, 6, false, 7, false, false, .w64⟩ ⟨2, .i32⟩ 0) ∧
  reads 12 0x0000_1000_4000_0000_0005_7A91 (.cbwt ⟨4, 0, 0, 0, 5, false, 7, false, false, .w96⟩ ⟨0, .i32⟩ 0x1000) ∧
  reads 16 0x0000_0000_0000_0003_3000_0200_1411_7B02 (.tcpy ⟨3, 2, 0, 0x14, 0x11, false, 7, false, false, .w128⟩ ⟨0, .i32⟩ 3) ∧
  reads 16 0x0000_0000_0000_5413_1020_1E02_0114_7C12 (.stnxt ⟨1, 0x1E, 2, 1, 0x14, false, 7, false, false, .w128⟩ ⟨2, .i32⟩ 0x5413) ∧
  reads 8 0xA000_0000_0508_7D48 (.nqry ⟨0xA, 0, 0, 5, 8, false, 7, true, false, .w64⟩ ⟨0, .i32⟩ 0) ∧
  reads 8 0xA000_0605_0414_7FA8 (.wtblSync ⟨0xA, 6, 5, 4, 0x14, false, 7, true, false, .w64⟩ ⟨0, .i32⟩ 0) ∧
  reads 8 0x1000_1400_0C05_7E00 (.rtrace ⟨1, 0x14, 0, 0x0C, 5, false, 7, false, false, .w64⟩ ⟨0, .i32⟩ 0) ∧
  reads 8 0x001A_0000_0809_7DC0 (.ddx ⟨0, 0, 0, 8, 9, false, 7, false, false, .w64⟩ ⟨1, .f32⟩ 0) ∧
  reads 8 0x2010_0006_0102_7570 (.ballot ⟨2, 0, 6, 1, 2, false, 7, false, false, .w64⟩ ⟨0, 1, .i32⟩ 0) ∧
  reads 12 0x00FF_00FF_7008_0008_0406_75D5 (.xchgm ⟨7, 0, 8, 4, 6, false, 7, false, true, .w96⟩ ⟨0, 0, .b32⟩ 0xFF00FF) ∧
  reads 8 0xA000_0000_1814_7F78 (.rcbopReg ⟨0xA, 0, 0, 0x18, 0x14, false, 7, true, false, .w64⟩ ⟨0, .i32⟩ 0) ∧
  reads 8 0xA000_0000_0814_7F28 (.csrrd ⟨0xA, 0, 0, 8, 0x14, false, 7, true, false, .w64⟩ ⟨0, .i32⟩ 0) ∧
  reads 8 0xA000_0000_0814_7F98 (.svcallAtt ⟨0xA, 0, 0, 8, 0x14, false, 7, true, false, .w64⟩ ⟨0, .i32⟩ 0)
end

