-- ==== Sys2Proof/Laws/State.lean ====
section
/-!
SUPPORT. What each named update of the state leaves alone: one lemma for each field and update, true by definition.
-/

namespace Sys2Proof.Machine

/-! ## State.updWave -/

@[simp] theorem State.updWave_tick (s : State) (uid : Nat) (f : Wave → Wave) : (s.updWave uid f).tick = s.tick := rfl
@[simp] theorem State.updWave_packets (s : State) (uid : Nat) (f : Wave → Wave) : (s.updWave uid f).packets = s.packets := rfl
@[simp] theorem State.updWave_fresh (s : State) (uid : Nat) (f : Wave → Wave) : (s.updWave uid f).fresh = s.fresh := rfl
@[simp] theorem State.updWave_clk (s : State) (uid : Nat) (f : Wave → Wave) : (s.updWave uid f).clk = s.clk := rfl
@[simp] theorem State.updWave_booted (s : State) (uid : Nat) (f : Wave → Wave) : (s.updWave uid f).booted = s.booted := rfl
@[simp] theorem State.updWave_pend (s : State) (uid : Nat) (f : Wave → Wave) : (s.updWave uid f).pend = s.pend := rfl
@[simp] theorem State.updWave_bars (s : State) (uid : Nat) (f : Wave → Wave) : (s.updWave uid f).bars = s.bars := rfl
@[simp] theorem State.updWave_tretQ (s : State) (uid : Nat) (f : Wave → Wave) : (s.updWave uid f).tretQ = s.tretQ := rfl
@[simp] theorem State.updWave_icache (s : State) (uid : Nat) (f : Wave → Wave) : (s.updWave uid f).icache = s.icache := rfl
@[simp] theorem State.updWave_tlb (s : State) (uid : Nat) (f : Wave → Wave) : (s.updWave uid f).tlb = s.tlb := rfl
@[simp] theorem State.updWave_tops (s : State) (uid : Nat) (f : Wave → Wave) : (s.updWave uid f).tops = s.tops := rfl
@[simp] theorem State.updWave_ptrs (s : State) (uid : Nat) (f : Wave → Wave) : (s.updWave uid f).ptrs = s.ptrs := rfl
@[simp] theorem State.updWave_misses (s : State) (uid : Nat) (f : Wave → Wave) : (s.updWave uid f).misses = s.misses := rfl
@[simp] theorem State.updWave_missQ (s : State) (uid : Nat) (f : Wave → Wave) : (s.updWave uid f).missQ = s.missQ := rfl
@[simp] theorem State.updWave_refused (s : State) (uid : Nat) (f : Wave → Wave) : (s.updWave uid f).refused = s.refused := rfl
@[simp] theorem State.updWave_lines (s : State) (uid : Nat) (f : Wave → Wave) : (s.updWave uid f).lines = s.lines := rfl
@[simp] theorem State.updWave_mem (s : State) (uid : Nat) (f : Wave → Wave) : (s.updWave uid f).mem = s.mem := rfl
@[simp] theorem State.updWave_ls (s : State) (uid : Nat) (f : Wave → Wave) : (s.updWave uid f).ls = s.ls := rfl
@[simp] theorem State.updWave_chip (s : State) (uid : Nat) (f : Wave → Wave) : (s.updWave uid f).chip = s.chip := rfl
@[simp] theorem State.updWave_pads (s : State) (uid : Nat) (f : Wave → Wave) : (s.updWave uid f).pads = s.pads := rfl
@[simp] theorem State.updWave_poison (s : State) (uid : Nat) (f : Wave → Wave) : (s.updWave uid f).poison = s.poison := rfl
@[simp] theorem State.updWave_ord (s : State) (uid : Nat) (f : Wave → Wave) : (s.updWave uid f).ord = s.ord := rfl
@[simp] theorem State.updWave_regions (s : State) (uid : Nat) (f : Wave → Wave) : (s.updWave uid f).regions = s.regions := rfl
@[simp] theorem State.updWave_recs (s : State) (uid : Nat) (f : Wave → Wave) : (s.updWave uid f).recs = s.recs := rfl
@[simp] theorem State.updWave_grant (s : State) (uid : Nat) (f : Wave → Wave) : (s.updWave uid f).grant = s.grant := rfl
@[simp] theorem State.updWave_ueLog (s : State) (uid : Nat) (f : Wave → Wave) : (s.updWave uid f).ueLog = s.ueLog := rfl
@[simp] theorem State.updWave_fatals (s : State) (uid : Nat) (f : Wave → Wave) : (s.updWave uid f).fatals = s.fatals := rfl
@[simp] theorem State.updWave_csrs (s : State) (uid : Nat) (f : Wave → Wave) : (s.updWave uid f).csrs = s.csrs := rfl
@[simp] theorem State.updWave_stepping (s : State) (uid : Nat) (f : Wave → Wave) : (s.updWave uid f).stepping = s.stepping := rfl
@[simp] theorem State.updWave_stopClk (s : State) (uid : Nat) (f : Wave → Wave) : (s.updWave uid f).stopClk = s.stopClk := rfl
@[simp] theorem State.updWave_flight (s : State) (uid : Nat) (f : Wave → Wave) : (s.updWave uid f).flight = s.flight := rfl
@[simp] theorem State.updWave_cts (s : State) (uid : Nat) (f : Wave → Wave) : (s.updWave uid f).cts = s.cts := rfl
@[simp] theorem State.updWave_streams (s : State) (uid : Nat) (f : Wave → Wave) : (s.updWave uid f).streams = s.streams := rfl
@[simp] theorem State.updWave_asu (s : State) (uid : Nat) (f : Wave → Wave) : (s.updWave uid f).asu = s.asu := rfl
@[simp] theorem State.updWave_rtu (s : State) (uid : Nat) (f : Wave → Wave) : (s.updWave uid f).rtu = s.rtu := rfl
@[simp] theorem State.updWave_wd (s : State) (uid : Nat) (f : Wave → Wave) : (s.updWave uid f).wd = s.wd := rfl
@[simp] theorem State.updWave_link (s : State) (uid : Nat) (f : Wave → Wave) : (s.updWave uid f).link = s.link := rfl
@[simp] theorem State.updWave_svc (s : State) (uid : Nat) (f : Wave → Wave) : (s.updWave uid f).svc = s.svc := rfl

/-! ## State.updThread -/

@[simp] theorem State.updThread_tick (s : State) (uid lane : Nat) (f : Thread → Thread) : (s.updThread uid lane f).tick = s.tick := rfl
@[simp] theorem State.updThread_packets (s : State) (uid lane : Nat) (f : Thread → Thread) : (s.updThread uid lane f).packets = s.packets := rfl
@[simp] theorem State.updThread_fresh (s : State) (uid lane : Nat) (f : Thread → Thread) : (s.updThread uid lane f).fresh = s.fresh := rfl
@[simp] theorem State.updThread_clk (s : State) (uid lane : Nat) (f : Thread → Thread) : (s.updThread uid lane f).clk = s.clk := rfl
@[simp] theorem State.updThread_booted (s : State) (uid lane : Nat) (f : Thread → Thread) : (s.updThread uid lane f).booted = s.booted := rfl
@[simp] theorem State.updThread_pend (s : State) (uid lane : Nat) (f : Thread → Thread) : (s.updThread uid lane f).pend = s.pend := rfl
@[simp] theorem State.updThread_bars (s : State) (uid lane : Nat) (f : Thread → Thread) : (s.updThread uid lane f).bars = s.bars := rfl
@[simp] theorem State.updThread_tretQ (s : State) (uid lane : Nat) (f : Thread → Thread) : (s.updThread uid lane f).tretQ = s.tretQ := rfl
@[simp] theorem State.updThread_icache (s : State) (uid lane : Nat) (f : Thread → Thread) : (s.updThread uid lane f).icache = s.icache := rfl
@[simp] theorem State.updThread_tlb (s : State) (uid lane : Nat) (f : Thread → Thread) : (s.updThread uid lane f).tlb = s.tlb := rfl
@[simp] theorem State.updThread_tops (s : State) (uid lane : Nat) (f : Thread → Thread) : (s.updThread uid lane f).tops = s.tops := rfl
@[simp] theorem State.updThread_ptrs (s : State) (uid lane : Nat) (f : Thread → Thread) : (s.updThread uid lane f).ptrs = s.ptrs := rfl
@[simp] theorem State.updThread_misses (s : State) (uid lane : Nat) (f : Thread → Thread) : (s.updThread uid lane f).misses = s.misses := rfl
@[simp] theorem State.updThread_missQ (s : State) (uid lane : Nat) (f : Thread → Thread) : (s.updThread uid lane f).missQ = s.missQ := rfl
@[simp] theorem State.updThread_refused (s : State) (uid lane : Nat) (f : Thread → Thread) : (s.updThread uid lane f).refused = s.refused := rfl
@[simp] theorem State.updThread_lines (s : State) (uid lane : Nat) (f : Thread → Thread) : (s.updThread uid lane f).lines = s.lines := rfl
@[simp] theorem State.updThread_mem (s : State) (uid lane : Nat) (f : Thread → Thread) : (s.updThread uid lane f).mem = s.mem := rfl
@[simp] theorem State.updThread_ls (s : State) (uid lane : Nat) (f : Thread → Thread) : (s.updThread uid lane f).ls = s.ls := rfl
@[simp] theorem State.updThread_chip (s : State) (uid lane : Nat) (f : Thread → Thread) : (s.updThread uid lane f).chip = s.chip := rfl
@[simp] theorem State.updThread_pads (s : State) (uid lane : Nat) (f : Thread → Thread) : (s.updThread uid lane f).pads = s.pads := rfl
@[simp] theorem State.updThread_poison (s : State) (uid lane : Nat) (f : Thread → Thread) : (s.updThread uid lane f).poison = s.poison := rfl
@[simp] theorem State.updThread_ord (s : State) (uid lane : Nat) (f : Thread → Thread) : (s.updThread uid lane f).ord = s.ord := rfl
@[simp] theorem State.updThread_regions (s : State) (uid lane : Nat) (f : Thread → Thread) : (s.updThread uid lane f).regions = s.regions := rfl
@[simp] theorem State.updThread_recs (s : State) (uid lane : Nat) (f : Thread → Thread) : (s.updThread uid lane f).recs = s.recs := rfl
@[simp] theorem State.updThread_grant (s : State) (uid lane : Nat) (f : Thread → Thread) : (s.updThread uid lane f).grant = s.grant := rfl
@[simp] theorem State.updThread_ueLog (s : State) (uid lane : Nat) (f : Thread → Thread) : (s.updThread uid lane f).ueLog = s.ueLog := rfl
@[simp] theorem State.updThread_fatals (s : State) (uid lane : Nat) (f : Thread → Thread) : (s.updThread uid lane f).fatals = s.fatals := rfl
@[simp] theorem State.updThread_csrs (s : State) (uid lane : Nat) (f : Thread → Thread) : (s.updThread uid lane f).csrs = s.csrs := rfl
@[simp] theorem State.updThread_stepping (s : State) (uid lane : Nat) (f : Thread → Thread) : (s.updThread uid lane f).stepping = s.stepping := rfl
@[simp] theorem State.updThread_stopClk (s : State) (uid lane : Nat) (f : Thread → Thread) : (s.updThread uid lane f).stopClk = s.stopClk := rfl
@[simp] theorem State.updThread_flight (s : State) (uid lane : Nat) (f : Thread → Thread) : (s.updThread uid lane f).flight = s.flight := rfl
@[simp] theorem State.updThread_cts (s : State) (uid lane : Nat) (f : Thread → Thread) : (s.updThread uid lane f).cts = s.cts := rfl
@[simp] theorem State.updThread_streams (s : State) (uid lane : Nat) (f : Thread → Thread) : (s.updThread uid lane f).streams = s.streams := rfl
@[simp] theorem State.updThread_asu (s : State) (uid lane : Nat) (f : Thread → Thread) : (s.updThread uid lane f).asu = s.asu := rfl
@[simp] theorem State.updThread_rtu (s : State) (uid lane : Nat) (f : Thread → Thread) : (s.updThread uid lane f).rtu = s.rtu := rfl
@[simp] theorem State.updThread_wd (s : State) (uid lane : Nat) (f : Thread → Thread) : (s.updThread uid lane f).wd = s.wd := rfl
@[simp] theorem State.updThread_link (s : State) (uid lane : Nat) (f : Thread → Thread) : (s.updThread uid lane f).link = s.link := rfl
@[simp] theorem State.updThread_svc (s : State) (uid lane : Nat) (f : Thread → Thread) : (s.updThread uid lane f).svc = s.svc := rfl

/-! ## State.updRegion -/

@[simp] theorem State.updRegion_tick (s : State) (rid : Nat) (f : Region → Region) : (s.updRegion rid f).tick = s.tick := rfl
@[simp] theorem State.updRegion_packets (s : State) (rid : Nat) (f : Region → Region) : (s.updRegion rid f).packets = s.packets := rfl
@[simp] theorem State.updRegion_fresh (s : State) (rid : Nat) (f : Region → Region) : (s.updRegion rid f).fresh = s.fresh := rfl
@[simp] theorem State.updRegion_clk (s : State) (rid : Nat) (f : Region → Region) : (s.updRegion rid f).clk = s.clk := rfl
@[simp] theorem State.updRegion_booted (s : State) (rid : Nat) (f : Region → Region) : (s.updRegion rid f).booted = s.booted := rfl
@[simp] theorem State.updRegion_waves (s : State) (rid : Nat) (f : Region → Region) : (s.updRegion rid f).waves = s.waves := rfl
@[simp] theorem State.updRegion_pend (s : State) (rid : Nat) (f : Region → Region) : (s.updRegion rid f).pend = s.pend := rfl
@[simp] theorem State.updRegion_bars (s : State) (rid : Nat) (f : Region → Region) : (s.updRegion rid f).bars = s.bars := rfl
@[simp] theorem State.updRegion_tretQ (s : State) (rid : Nat) (f : Region → Region) : (s.updRegion rid f).tretQ = s.tretQ := rfl
@[simp] theorem State.updRegion_icache (s : State) (rid : Nat) (f : Region → Region) : (s.updRegion rid f).icache = s.icache := rfl
@[simp] theorem State.updRegion_tlb (s : State) (rid : Nat) (f : Region → Region) : (s.updRegion rid f).tlb = s.tlb := rfl
@[simp] theorem State.updRegion_tops (s : State) (rid : Nat) (f : Region → Region) : (s.updRegion rid f).tops = s.tops := rfl
@[simp] theorem State.updRegion_ptrs (s : State) (rid : Nat) (f : Region → Region) : (s.updRegion rid f).ptrs = s.ptrs := rfl
@[simp] theorem State.updRegion_misses (s : State) (rid : Nat) (f : Region → Region) : (s.updRegion rid f).misses = s.misses := rfl
@[simp] theorem State.updRegion_missQ (s : State) (rid : Nat) (f : Region → Region) : (s.updRegion rid f).missQ = s.missQ := rfl
@[simp] theorem State.updRegion_refused (s : State) (rid : Nat) (f : Region → Region) : (s.updRegion rid f).refused = s.refused := rfl
@[simp] theorem State.updRegion_lines (s : State) (rid : Nat) (f : Region → Region) : (s.updRegion rid f).lines = s.lines := rfl
@[simp] theorem State.updRegion_mem (s : State) (rid : Nat) (f : Region → Region) : (s.updRegion rid f).mem = s.mem := rfl
@[simp] theorem State.updRegion_ls (s : State) (rid : Nat) (f : Region → Region) : (s.updRegion rid f).ls = s.ls := rfl
@[simp] theorem State.updRegion_chip (s : State) (rid : Nat) (f : Region → Region) : (s.updRegion rid f).chip = s.chip := rfl
@[simp] theorem State.updRegion_pads (s : State) (rid : Nat) (f : Region → Region) : (s.updRegion rid f).pads = s.pads := rfl
@[simp] theorem State.updRegion_poison (s : State) (rid : Nat) (f : Region → Region) : (s.updRegion rid f).poison = s.poison := rfl
@[simp] theorem State.updRegion_ord (s : State) (rid : Nat) (f : Region → Region) : (s.updRegion rid f).ord = s.ord := rfl
@[simp] theorem State.updRegion_recs (s : State) (rid : Nat) (f : Region → Region) : (s.updRegion rid f).recs = s.recs := rfl
@[simp] theorem State.updRegion_grant (s : State) (rid : Nat) (f : Region → Region) : (s.updRegion rid f).grant = s.grant := rfl
@[simp] theorem State.updRegion_ueLog (s : State) (rid : Nat) (f : Region → Region) : (s.updRegion rid f).ueLog = s.ueLog := rfl
@[simp] theorem State.updRegion_fatals (s : State) (rid : Nat) (f : Region → Region) : (s.updRegion rid f).fatals = s.fatals := rfl
@[simp] theorem State.updRegion_csrs (s : State) (rid : Nat) (f : Region → Region) : (s.updRegion rid f).csrs = s.csrs := rfl
@[simp] theorem State.updRegion_stepping (s : State) (rid : Nat) (f : Region → Region) : (s.updRegion rid f).stepping = s.stepping := rfl
@[simp] theorem State.updRegion_stopClk (s : State) (rid : Nat) (f : Region → Region) : (s.updRegion rid f).stopClk = s.stopClk := rfl
@[simp] theorem State.updRegion_flight (s : State) (rid : Nat) (f : Region → Region) : (s.updRegion rid f).flight = s.flight := rfl
@[simp] theorem State.updRegion_cts (s : State) (rid : Nat) (f : Region → Region) : (s.updRegion rid f).cts = s.cts := rfl
@[simp] theorem State.updRegion_streams (s : State) (rid : Nat) (f : Region → Region) : (s.updRegion rid f).streams = s.streams := rfl
@[simp] theorem State.updRegion_asu (s : State) (rid : Nat) (f : Region → Region) : (s.updRegion rid f).asu = s.asu := rfl
@[simp] theorem State.updRegion_rtu (s : State) (rid : Nat) (f : Region → Region) : (s.updRegion rid f).rtu = s.rtu := rfl
@[simp] theorem State.updRegion_wd (s : State) (rid : Nat) (f : Region → Region) : (s.updRegion rid f).wd = s.wd := rfl
@[simp] theorem State.updRegion_link (s : State) (rid : Nat) (f : Region → Region) : (s.updRegion rid f).link = s.link := rfl
@[simp] theorem State.updRegion_svc (s : State) (rid : Nat) (f : Region → Region) : (s.updRegion rid f).svc = s.svc := rfl

/-! ## State.updCts -/

@[simp] theorem State.updCts_tick (s : State) (f : Cts → Cts) : (s.updCts f).tick = s.tick := rfl
@[simp] theorem State.updCts_packets (s : State) (f : Cts → Cts) : (s.updCts f).packets = s.packets := rfl
@[simp] theorem State.updCts_fresh (s : State) (f : Cts → Cts) : (s.updCts f).fresh = s.fresh := rfl
@[simp] theorem State.updCts_clk (s : State) (f : Cts → Cts) : (s.updCts f).clk = s.clk := rfl
@[simp] theorem State.updCts_booted (s : State) (f : Cts → Cts) : (s.updCts f).booted = s.booted := rfl
@[simp] theorem State.updCts_waves (s : State) (f : Cts → Cts) : (s.updCts f).waves = s.waves := rfl
@[simp] theorem State.updCts_pend (s : State) (f : Cts → Cts) : (s.updCts f).pend = s.pend := rfl
@[simp] theorem State.updCts_bars (s : State) (f : Cts → Cts) : (s.updCts f).bars = s.bars := rfl
@[simp] theorem State.updCts_tretQ (s : State) (f : Cts → Cts) : (s.updCts f).tretQ = s.tretQ := rfl
@[simp] theorem State.updCts_icache (s : State) (f : Cts → Cts) : (s.updCts f).icache = s.icache := rfl
@[simp] theorem State.updCts_tlb (s : State) (f : Cts → Cts) : (s.updCts f).tlb = s.tlb := rfl
@[simp] theorem State.updCts_tops (s : State) (f : Cts → Cts) : (s.updCts f).tops = s.tops := rfl
@[simp] theorem State.updCts_ptrs (s : State) (f : Cts → Cts) : (s.updCts f).ptrs = s.ptrs := rfl
@[simp] theorem State.updCts_misses (s : State) (f : Cts → Cts) : (s.updCts f).misses = s.misses := rfl
@[simp] theorem State.updCts_missQ (s : State) (f : Cts → Cts) : (s.updCts f).missQ = s.missQ := rfl
@[simp] theorem State.updCts_refused (s : State) (f : Cts → Cts) : (s.updCts f).refused = s.refused := rfl
@[simp] theorem State.updCts_lines (s : State) (f : Cts → Cts) : (s.updCts f).lines = s.lines := rfl
@[simp] theorem State.updCts_mem (s : State) (f : Cts → Cts) : (s.updCts f).mem = s.mem := rfl
@[simp] theorem State.updCts_ls (s : State) (f : Cts → Cts) : (s.updCts f).ls = s.ls := rfl
@[simp] theorem State.updCts_chip (s : State) (f : Cts → Cts) : (s.updCts f).chip = s.chip := rfl
@[simp] theorem State.updCts_pads (s : State) (f : Cts → Cts) : (s.updCts f).pads = s.pads := rfl
@[simp] theorem State.updCts_poison (s : State) (f : Cts → Cts) : (s.updCts f).poison = s.poison := rfl
@[simp] theorem State.updCts_ord (s : State) (f : Cts → Cts) : (s.updCts f).ord = s.ord := rfl
@[simp] theorem State.updCts_regions (s : State) (f : Cts → Cts) : (s.updCts f).regions = s.regions := rfl
@[simp] theorem State.updCts_recs (s : State) (f : Cts → Cts) : (s.updCts f).recs = s.recs := rfl
@[simp] theorem State.updCts_grant (s : State) (f : Cts → Cts) : (s.updCts f).grant = s.grant := rfl
@[simp] theorem State.updCts_ueLog (s : State) (f : Cts → Cts) : (s.updCts f).ueLog = s.ueLog := rfl
@[simp] theorem State.updCts_fatals (s : State) (f : Cts → Cts) : (s.updCts f).fatals = s.fatals := rfl
@[simp] theorem State.updCts_csrs (s : State) (f : Cts → Cts) : (s.updCts f).csrs = s.csrs := rfl
@[simp] theorem State.updCts_stepping (s : State) (f : Cts → Cts) : (s.updCts f).stepping = s.stepping := rfl
@[simp] theorem State.updCts_stopClk (s : State) (f : Cts → Cts) : (s.updCts f).stopClk = s.stopClk := rfl
@[simp] theorem State.updCts_flight (s : State) (f : Cts → Cts) : (s.updCts f).flight = s.flight := rfl
@[simp] theorem State.updCts_streams (s : State) (f : Cts → Cts) : (s.updCts f).streams = s.streams := rfl
@[simp] theorem State.updCts_asu (s : State) (f : Cts → Cts) : (s.updCts f).asu = s.asu := rfl
@[simp] theorem State.updCts_rtu (s : State) (f : Cts → Cts) : (s.updCts f).rtu = s.rtu := rfl
@[simp] theorem State.updCts_wd (s : State) (f : Cts → Cts) : (s.updCts f).wd = s.wd := rfl
@[simp] theorem State.updCts_link (s : State) (f : Cts → Cts) : (s.updCts f).link = s.link := rfl
@[simp] theorem State.updCts_svc (s : State) (f : Cts → Cts) : (s.updCts f).svc = s.svc := rfl

/-! ## State.updLink -/

@[simp] theorem State.updLink_tick (s : State) (f : Link → Link) : (s.updLink f).tick = s.tick := rfl
@[simp] theorem State.updLink_packets (s : State) (f : Link → Link) : (s.updLink f).packets = s.packets := rfl
@[simp] theorem State.updLink_fresh (s : State) (f : Link → Link) : (s.updLink f).fresh = s.fresh := rfl
@[simp] theorem State.updLink_clk (s : State) (f : Link → Link) : (s.updLink f).clk = s.clk := rfl
@[simp] theorem State.updLink_booted (s : State) (f : Link → Link) : (s.updLink f).booted = s.booted := rfl
@[simp] theorem State.updLink_waves (s : State) (f : Link → Link) : (s.updLink f).waves = s.waves := rfl
@[simp] theorem State.updLink_pend (s : State) (f : Link → Link) : (s.updLink f).pend = s.pend := rfl
@[simp] theorem State.updLink_bars (s : State) (f : Link → Link) : (s.updLink f).bars = s.bars := rfl
@[simp] theorem State.updLink_tretQ (s : State) (f : Link → Link) : (s.updLink f).tretQ = s.tretQ := rfl
@[simp] theorem State.updLink_icache (s : State) (f : Link → Link) : (s.updLink f).icache = s.icache := rfl
@[simp] theorem State.updLink_tlb (s : State) (f : Link → Link) : (s.updLink f).tlb = s.tlb := rfl
@[simp] theorem State.updLink_tops (s : State) (f : Link → Link) : (s.updLink f).tops = s.tops := rfl
@[simp] theorem State.updLink_ptrs (s : State) (f : Link → Link) : (s.updLink f).ptrs = s.ptrs := rfl
@[simp] theorem State.updLink_misses (s : State) (f : Link → Link) : (s.updLink f).misses = s.misses := rfl
@[simp] theorem State.updLink_missQ (s : State) (f : Link → Link) : (s.updLink f).missQ = s.missQ := rfl
@[simp] theorem State.updLink_refused (s : State) (f : Link → Link) : (s.updLink f).refused = s.refused := rfl
@[simp] theorem State.updLink_lines (s : State) (f : Link → Link) : (s.updLink f).lines = s.lines := rfl
@[simp] theorem State.updLink_mem (s : State) (f : Link → Link) : (s.updLink f).mem = s.mem := rfl
@[simp] theorem State.updLink_ls (s : State) (f : Link → Link) : (s.updLink f).ls = s.ls := rfl
@[simp] theorem State.updLink_chip (s : State) (f : Link → Link) : (s.updLink f).chip = s.chip := rfl
@[simp] theorem State.updLink_pads (s : State) (f : Link → Link) : (s.updLink f).pads = s.pads := rfl
@[simp] theorem State.updLink_poison (s : State) (f : Link → Link) : (s.updLink f).poison = s.poison := rfl
@[simp] theorem State.updLink_ord (s : State) (f : Link → Link) : (s.updLink f).ord = s.ord := rfl
@[simp] theorem State.updLink_regions (s : State) (f : Link → Link) : (s.updLink f).regions = s.regions := rfl
@[simp] theorem State.updLink_recs (s : State) (f : Link → Link) : (s.updLink f).recs = s.recs := rfl
@[simp] theorem State.updLink_grant (s : State) (f : Link → Link) : (s.updLink f).grant = s.grant := rfl
@[simp] theorem State.updLink_ueLog (s : State) (f : Link → Link) : (s.updLink f).ueLog = s.ueLog := rfl
@[simp] theorem State.updLink_fatals (s : State) (f : Link → Link) : (s.updLink f).fatals = s.fatals := rfl
@[simp] theorem State.updLink_csrs (s : State) (f : Link → Link) : (s.updLink f).csrs = s.csrs := rfl
@[simp] theorem State.updLink_stepping (s : State) (f : Link → Link) : (s.updLink f).stepping = s.stepping := rfl
@[simp] theorem State.updLink_stopClk (s : State) (f : Link → Link) : (s.updLink f).stopClk = s.stopClk := rfl
@[simp] theorem State.updLink_flight (s : State) (f : Link → Link) : (s.updLink f).flight = s.flight := rfl
@[simp] theorem State.updLink_cts (s : State) (f : Link → Link) : (s.updLink f).cts = s.cts := rfl
@[simp] theorem State.updLink_streams (s : State) (f : Link → Link) : (s.updLink f).streams = s.streams := rfl
@[simp] theorem State.updLink_asu (s : State) (f : Link → Link) : (s.updLink f).asu = s.asu := rfl
@[simp] theorem State.updLink_rtu (s : State) (f : Link → Link) : (s.updLink f).rtu = s.rtu := rfl
@[simp] theorem State.updLink_wd (s : State) (f : Link → Link) : (s.updLink f).wd = s.wd := rfl
@[simp] theorem State.updLink_svc (s : State) (f : Link → Link) : (s.updLink f).svc = s.svc := rfl

/-! ## State.updFlight -/

@[simp] theorem State.updFlight_tick (s : State) (f : Flight → Flight) : (s.updFlight f).tick = s.tick := rfl
@[simp] theorem State.updFlight_packets (s : State) (f : Flight → Flight) : (s.updFlight f).packets = s.packets := rfl
@[simp] theorem State.updFlight_fresh (s : State) (f : Flight → Flight) : (s.updFlight f).fresh = s.fresh := rfl
@[simp] theorem State.updFlight_clk (s : State) (f : Flight → Flight) : (s.updFlight f).clk = s.clk := rfl
@[simp] theorem State.updFlight_booted (s : State) (f : Flight → Flight) : (s.updFlight f).booted = s.booted := rfl
@[simp] theorem State.updFlight_waves (s : State) (f : Flight → Flight) : (s.updFlight f).waves = s.waves := rfl
@[simp] theorem State.updFlight_pend (s : State) (f : Flight → Flight) : (s.updFlight f).pend = s.pend := rfl
@[simp] theorem State.updFlight_bars (s : State) (f : Flight → Flight) : (s.updFlight f).bars = s.bars := rfl
@[simp] theorem State.updFlight_tretQ (s : State) (f : Flight → Flight) : (s.updFlight f).tretQ = s.tretQ := rfl
@[simp] theorem State.updFlight_icache (s : State) (f : Flight → Flight) : (s.updFlight f).icache = s.icache := rfl
@[simp] theorem State.updFlight_tlb (s : State) (f : Flight → Flight) : (s.updFlight f).tlb = s.tlb := rfl
@[simp] theorem State.updFlight_tops (s : State) (f : Flight → Flight) : (s.updFlight f).tops = s.tops := rfl
@[simp] theorem State.updFlight_ptrs (s : State) (f : Flight → Flight) : (s.updFlight f).ptrs = s.ptrs := rfl
@[simp] theorem State.updFlight_misses (s : State) (f : Flight → Flight) : (s.updFlight f).misses = s.misses := rfl
@[simp] theorem State.updFlight_missQ (s : State) (f : Flight → Flight) : (s.updFlight f).missQ = s.missQ := rfl
@[simp] theorem State.updFlight_refused (s : State) (f : Flight → Flight) : (s.updFlight f).refused = s.refused := rfl
@[simp] theorem State.updFlight_lines (s : State) (f : Flight → Flight) : (s.updFlight f).lines = s.lines := rfl
@[simp] theorem State.updFlight_mem (s : State) (f : Flight → Flight) : (s.updFlight f).mem = s.mem := rfl
@[simp] theorem State.updFlight_ls (s : State) (f : Flight → Flight) : (s.updFlight f).ls = s.ls := rfl
@[simp] theorem State.updFlight_chip (s : State) (f : Flight → Flight) : (s.updFlight f).chip = s.chip := rfl
@[simp] theorem State.updFlight_pads (s : State) (f : Flight → Flight) : (s.updFlight f).pads = s.pads := rfl
@[simp] theorem State.updFlight_poison (s : State) (f : Flight → Flight) : (s.updFlight f).poison = s.poison := rfl
@[simp] theorem State.updFlight_ord (s : State) (f : Flight → Flight) : (s.updFlight f).ord = s.ord := rfl
@[simp] theorem State.updFlight_regions (s : State) (f : Flight → Flight) : (s.updFlight f).regions = s.regions := rfl
@[simp] theorem State.updFlight_recs (s : State) (f : Flight → Flight) : (s.updFlight f).recs = s.recs := rfl
@[simp] theorem State.updFlight_grant (s : State) (f : Flight → Flight) : (s.updFlight f).grant = s.grant := rfl
@[simp] theorem State.updFlight_ueLog (s : State) (f : Flight → Flight) : (s.updFlight f).ueLog = s.ueLog := rfl
@[simp] theorem State.updFlight_fatals (s : State) (f : Flight → Flight) : (s.updFlight f).fatals = s.fatals := rfl
@[simp] theorem State.updFlight_csrs (s : State) (f : Flight → Flight) : (s.updFlight f).csrs = s.csrs := rfl
@[simp] theorem State.updFlight_stepping (s : State) (f : Flight → Flight) : (s.updFlight f).stepping = s.stepping := rfl
@[simp] theorem State.updFlight_stopClk (s : State) (f : Flight → Flight) : (s.updFlight f).stopClk = s.stopClk := rfl
@[simp] theorem State.updFlight_cts (s : State) (f : Flight → Flight) : (s.updFlight f).cts = s.cts := rfl
@[simp] theorem State.updFlight_streams (s : State) (f : Flight → Flight) : (s.updFlight f).streams = s.streams := rfl
@[simp] theorem State.updFlight_asu (s : State) (f : Flight → Flight) : (s.updFlight f).asu = s.asu := rfl
@[simp] theorem State.updFlight_rtu (s : State) (f : Flight → Flight) : (s.updFlight f).rtu = s.rtu := rfl
@[simp] theorem State.updFlight_wd (s : State) (f : Flight → Flight) : (s.updFlight f).wd = s.wd := rfl
@[simp] theorem State.updFlight_link (s : State) (f : Flight → Flight) : (s.updFlight f).link = s.link := rfl
@[simp] theorem State.updFlight_svc (s : State) (f : Flight → Flight) : (s.updFlight f).svc = s.svc := rfl

/-! ## State.updSvc -/

@[simp] theorem State.updSvc_tick (s : State) (f : Svc → Svc) : (s.updSvc f).tick = s.tick := rfl
@[simp] theorem State.updSvc_packets (s : State) (f : Svc → Svc) : (s.updSvc f).packets = s.packets := rfl
@[simp] theorem State.updSvc_fresh (s : State) (f : Svc → Svc) : (s.updSvc f).fresh = s.fresh := rfl
@[simp] theorem State.updSvc_clk (s : State) (f : Svc → Svc) : (s.updSvc f).clk = s.clk := rfl
@[simp] theorem State.updSvc_booted (s : State) (f : Svc → Svc) : (s.updSvc f).booted = s.booted := rfl
@[simp] theorem State.updSvc_waves (s : State) (f : Svc → Svc) : (s.updSvc f).waves = s.waves := rfl
@[simp] theorem State.updSvc_pend (s : State) (f : Svc → Svc) : (s.updSvc f).pend = s.pend := rfl
@[simp] theorem State.updSvc_bars (s : State) (f : Svc → Svc) : (s.updSvc f).bars = s.bars := rfl
@[simp] theorem State.updSvc_tretQ (s : State) (f : Svc → Svc) : (s.updSvc f).tretQ = s.tretQ := rfl
@[simp] theorem State.updSvc_icache (s : State) (f : Svc → Svc) : (s.updSvc f).icache = s.icache := rfl
@[simp] theorem State.updSvc_tlb (s : State) (f : Svc → Svc) : (s.updSvc f).tlb = s.tlb := rfl
@[simp] theorem State.updSvc_tops (s : State) (f : Svc → Svc) : (s.updSvc f).tops = s.tops := rfl
@[simp] theorem State.updSvc_ptrs (s : State) (f : Svc → Svc) : (s.updSvc f).ptrs = s.ptrs := rfl
@[simp] theorem State.updSvc_misses (s : State) (f : Svc → Svc) : (s.updSvc f).misses = s.misses := rfl
@[simp] theorem State.updSvc_missQ (s : State) (f : Svc → Svc) : (s.updSvc f).missQ = s.missQ := rfl
@[simp] theorem State.updSvc_refused (s : State) (f : Svc → Svc) : (s.updSvc f).refused = s.refused := rfl
@[simp] theorem State.updSvc_lines (s : State) (f : Svc → Svc) : (s.updSvc f).lines = s.lines := rfl
@[simp] theorem State.updSvc_mem (s : State) (f : Svc → Svc) : (s.updSvc f).mem = s.mem := rfl
@[simp] theorem State.updSvc_ls (s : State) (f : Svc → Svc) : (s.updSvc f).ls = s.ls := rfl
@[simp] theorem State.updSvc_chip (s : State) (f : Svc → Svc) : (s.updSvc f).chip = s.chip := rfl
@[simp] theorem State.updSvc_pads (s : State) (f : Svc → Svc) : (s.updSvc f).pads = s.pads := rfl
@[simp] theorem State.updSvc_poison (s : State) (f : Svc → Svc) : (s.updSvc f).poison = s.poison := rfl
@[simp] theorem State.updSvc_ord (s : State) (f : Svc → Svc) : (s.updSvc f).ord = s.ord := rfl
@[simp] theorem State.updSvc_regions (s : State) (f : Svc → Svc) : (s.updSvc f).regions = s.regions := rfl
@[simp] theorem State.updSvc_recs (s : State) (f : Svc → Svc) : (s.updSvc f).recs = s.recs := rfl
@[simp] theorem State.updSvc_grant (s : State) (f : Svc → Svc) : (s.updSvc f).grant = s.grant := rfl
@[simp] theorem State.updSvc_ueLog (s : State) (f : Svc → Svc) : (s.updSvc f).ueLog = s.ueLog := rfl
@[simp] theorem State.updSvc_fatals (s : State) (f : Svc → Svc) : (s.updSvc f).fatals = s.fatals := rfl
@[simp] theorem State.updSvc_csrs (s : State) (f : Svc → Svc) : (s.updSvc f).csrs = s.csrs := rfl
@[simp] theorem State.updSvc_stepping (s : State) (f : Svc → Svc) : (s.updSvc f).stepping = s.stepping := rfl
@[simp] theorem State.updSvc_stopClk (s : State) (f : Svc → Svc) : (s.updSvc f).stopClk = s.stopClk := rfl
@[simp] theorem State.updSvc_flight (s : State) (f : Svc → Svc) : (s.updSvc f).flight = s.flight := rfl
@[simp] theorem State.updSvc_cts (s : State) (f : Svc → Svc) : (s.updSvc f).cts = s.cts := rfl
@[simp] theorem State.updSvc_streams (s : State) (f : Svc → Svc) : (s.updSvc f).streams = s.streams := rfl
@[simp] theorem State.updSvc_asu (s : State) (f : Svc → Svc) : (s.updSvc f).asu = s.asu := rfl
@[simp] theorem State.updSvc_rtu (s : State) (f : Svc → Svc) : (s.updSvc f).rtu = s.rtu := rfl
@[simp] theorem State.updSvc_wd (s : State) (f : Svc → Svc) : (s.updSvc f).wd = s.wd := rfl
@[simp] theorem State.updSvc_link (s : State) (f : Svc → Svc) : (s.updSvc f).link = s.link := rfl

/-! ## State.updAsu -/

@[simp] theorem State.updAsu_tick (s : State) (f : Asu → Asu) : (s.updAsu f).tick = s.tick := rfl
@[simp] theorem State.updAsu_packets (s : State) (f : Asu → Asu) : (s.updAsu f).packets = s.packets := rfl
@[simp] theorem State.updAsu_fresh (s : State) (f : Asu → Asu) : (s.updAsu f).fresh = s.fresh := rfl
@[simp] theorem State.updAsu_clk (s : State) (f : Asu → Asu) : (s.updAsu f).clk = s.clk := rfl
@[simp] theorem State.updAsu_booted (s : State) (f : Asu → Asu) : (s.updAsu f).booted = s.booted := rfl
@[simp] theorem State.updAsu_waves (s : State) (f : Asu → Asu) : (s.updAsu f).waves = s.waves := rfl
@[simp] theorem State.updAsu_pend (s : State) (f : Asu → Asu) : (s.updAsu f).pend = s.pend := rfl
@[simp] theorem State.updAsu_bars (s : State) (f : Asu → Asu) : (s.updAsu f).bars = s.bars := rfl
@[simp] theorem State.updAsu_tretQ (s : State) (f : Asu → Asu) : (s.updAsu f).tretQ = s.tretQ := rfl
@[simp] theorem State.updAsu_icache (s : State) (f : Asu → Asu) : (s.updAsu f).icache = s.icache := rfl
@[simp] theorem State.updAsu_tlb (s : State) (f : Asu → Asu) : (s.updAsu f).tlb = s.tlb := rfl
@[simp] theorem State.updAsu_tops (s : State) (f : Asu → Asu) : (s.updAsu f).tops = s.tops := rfl
@[simp] theorem State.updAsu_ptrs (s : State) (f : Asu → Asu) : (s.updAsu f).ptrs = s.ptrs := rfl
@[simp] theorem State.updAsu_misses (s : State) (f : Asu → Asu) : (s.updAsu f).misses = s.misses := rfl
@[simp] theorem State.updAsu_missQ (s : State) (f : Asu → Asu) : (s.updAsu f).missQ = s.missQ := rfl
@[simp] theorem State.updAsu_refused (s : State) (f : Asu → Asu) : (s.updAsu f).refused = s.refused := rfl
@[simp] theorem State.updAsu_lines (s : State) (f : Asu → Asu) : (s.updAsu f).lines = s.lines := rfl
@[simp] theorem State.updAsu_mem (s : State) (f : Asu → Asu) : (s.updAsu f).mem = s.mem := rfl
@[simp] theorem State.updAsu_ls (s : State) (f : Asu → Asu) : (s.updAsu f).ls = s.ls := rfl
@[simp] theorem State.updAsu_chip (s : State) (f : Asu → Asu) : (s.updAsu f).chip = s.chip := rfl
@[simp] theorem State.updAsu_pads (s : State) (f : Asu → Asu) : (s.updAsu f).pads = s.pads := rfl
@[simp] theorem State.updAsu_poison (s : State) (f : Asu → Asu) : (s.updAsu f).poison = s.poison := rfl
@[simp] theorem State.updAsu_ord (s : State) (f : Asu → Asu) : (s.updAsu f).ord = s.ord := rfl
@[simp] theorem State.updAsu_regions (s : State) (f : Asu → Asu) : (s.updAsu f).regions = s.regions := rfl
@[simp] theorem State.updAsu_recs (s : State) (f : Asu → Asu) : (s.updAsu f).recs = s.recs := rfl
@[simp] theorem State.updAsu_grant (s : State) (f : Asu → Asu) : (s.updAsu f).grant = s.grant := rfl
@[simp] theorem State.updAsu_ueLog (s : State) (f : Asu → Asu) : (s.updAsu f).ueLog = s.ueLog := rfl
@[simp] theorem State.updAsu_fatals (s : State) (f : Asu → Asu) : (s.updAsu f).fatals = s.fatals := rfl
@[simp] theorem State.updAsu_csrs (s : State) (f : Asu → Asu) : (s.updAsu f).csrs = s.csrs := rfl
@[simp] theorem State.updAsu_stepping (s : State) (f : Asu → Asu) : (s.updAsu f).stepping = s.stepping := rfl
@[simp] theorem State.updAsu_stopClk (s : State) (f : Asu → Asu) : (s.updAsu f).stopClk = s.stopClk := rfl
@[simp] theorem State.updAsu_flight (s : State) (f : Asu → Asu) : (s.updAsu f).flight = s.flight := rfl
@[simp] theorem State.updAsu_cts (s : State) (f : Asu → Asu) : (s.updAsu f).cts = s.cts := rfl
@[simp] theorem State.updAsu_streams (s : State) (f : Asu → Asu) : (s.updAsu f).streams = s.streams := rfl
@[simp] theorem State.updAsu_rtu (s : State) (f : Asu → Asu) : (s.updAsu f).rtu = s.rtu := rfl
@[simp] theorem State.updAsu_wd (s : State) (f : Asu → Asu) : (s.updAsu f).wd = s.wd := rfl
@[simp] theorem State.updAsu_link (s : State) (f : Asu → Asu) : (s.updAsu f).link = s.link := rfl
@[simp] theorem State.updAsu_svc (s : State) (f : Asu → Asu) : (s.updAsu f).svc = s.svc := rfl

/-! ## State.updRtu -/

@[simp] theorem State.updRtu_tick (s : State) (f : Rtu → Rtu) : (s.updRtu f).tick = s.tick := rfl
@[simp] theorem State.updRtu_packets (s : State) (f : Rtu → Rtu) : (s.updRtu f).packets = s.packets := rfl
@[simp] theorem State.updRtu_fresh (s : State) (f : Rtu → Rtu) : (s.updRtu f).fresh = s.fresh := rfl
@[simp] theorem State.updRtu_clk (s : State) (f : Rtu → Rtu) : (s.updRtu f).clk = s.clk := rfl
@[simp] theorem State.updRtu_booted (s : State) (f : Rtu → Rtu) : (s.updRtu f).booted = s.booted := rfl
@[simp] theorem State.updRtu_waves (s : State) (f : Rtu → Rtu) : (s.updRtu f).waves = s.waves := rfl
@[simp] theorem State.updRtu_pend (s : State) (f : Rtu → Rtu) : (s.updRtu f).pend = s.pend := rfl
@[simp] theorem State.updRtu_bars (s : State) (f : Rtu → Rtu) : (s.updRtu f).bars = s.bars := rfl
@[simp] theorem State.updRtu_tretQ (s : State) (f : Rtu → Rtu) : (s.updRtu f).tretQ = s.tretQ := rfl
@[simp] theorem State.updRtu_icache (s : State) (f : Rtu → Rtu) : (s.updRtu f).icache = s.icache := rfl
@[simp] theorem State.updRtu_tlb (s : State) (f : Rtu → Rtu) : (s.updRtu f).tlb = s.tlb := rfl
@[simp] theorem State.updRtu_tops (s : State) (f : Rtu → Rtu) : (s.updRtu f).tops = s.tops := rfl
@[simp] theorem State.updRtu_ptrs (s : State) (f : Rtu → Rtu) : (s.updRtu f).ptrs = s.ptrs := rfl
@[simp] theorem State.updRtu_misses (s : State) (f : Rtu → Rtu) : (s.updRtu f).misses = s.misses := rfl
@[simp] theorem State.updRtu_missQ (s : State) (f : Rtu → Rtu) : (s.updRtu f).missQ = s.missQ := rfl
@[simp] theorem State.updRtu_refused (s : State) (f : Rtu → Rtu) : (s.updRtu f).refused = s.refused := rfl
@[simp] theorem State.updRtu_lines (s : State) (f : Rtu → Rtu) : (s.updRtu f).lines = s.lines := rfl
@[simp] theorem State.updRtu_mem (s : State) (f : Rtu → Rtu) : (s.updRtu f).mem = s.mem := rfl
@[simp] theorem State.updRtu_ls (s : State) (f : Rtu → Rtu) : (s.updRtu f).ls = s.ls := rfl
@[simp] theorem State.updRtu_chip (s : State) (f : Rtu → Rtu) : (s.updRtu f).chip = s.chip := rfl
@[simp] theorem State.updRtu_pads (s : State) (f : Rtu → Rtu) : (s.updRtu f).pads = s.pads := rfl
@[simp] theorem State.updRtu_poison (s : State) (f : Rtu → Rtu) : (s.updRtu f).poison = s.poison := rfl
@[simp] theorem State.updRtu_ord (s : State) (f : Rtu → Rtu) : (s.updRtu f).ord = s.ord := rfl
@[simp] theorem State.updRtu_regions (s : State) (f : Rtu → Rtu) : (s.updRtu f).regions = s.regions := rfl
@[simp] theorem State.updRtu_recs (s : State) (f : Rtu → Rtu) : (s.updRtu f).recs = s.recs := rfl
@[simp] theorem State.updRtu_grant (s : State) (f : Rtu → Rtu) : (s.updRtu f).grant = s.grant := rfl
@[simp] theorem State.updRtu_ueLog (s : State) (f : Rtu → Rtu) : (s.updRtu f).ueLog = s.ueLog := rfl
@[simp] theorem State.updRtu_fatals (s : State) (f : Rtu → Rtu) : (s.updRtu f).fatals = s.fatals := rfl
@[simp] theorem State.updRtu_csrs (s : State) (f : Rtu → Rtu) : (s.updRtu f).csrs = s.csrs := rfl
@[simp] theorem State.updRtu_stepping (s : State) (f : Rtu → Rtu) : (s.updRtu f).stepping = s.stepping := rfl
@[simp] theorem State.updRtu_stopClk (s : State) (f : Rtu → Rtu) : (s.updRtu f).stopClk = s.stopClk := rfl
@[simp] theorem State.updRtu_flight (s : State) (f : Rtu → Rtu) : (s.updRtu f).flight = s.flight := rfl
@[simp] theorem State.updRtu_cts (s : State) (f : Rtu → Rtu) : (s.updRtu f).cts = s.cts := rfl
@[simp] theorem State.updRtu_streams (s : State) (f : Rtu → Rtu) : (s.updRtu f).streams = s.streams := rfl
@[simp] theorem State.updRtu_asu (s : State) (f : Rtu → Rtu) : (s.updRtu f).asu = s.asu := rfl
@[simp] theorem State.updRtu_wd (s : State) (f : Rtu → Rtu) : (s.updRtu f).wd = s.wd := rfl
@[simp] theorem State.updRtu_link (s : State) (f : Rtu → Rtu) : (s.updRtu f).link = s.link := rfl
@[simp] theorem State.updRtu_svc (s : State) (f : Rtu → Rtu) : (s.updRtu f).svc = s.svc := rfl

/-! ## State.updWd -/

@[simp] theorem State.updWd_tick (s : State) (f : Wd → Wd) : (s.updWd f).tick = s.tick := rfl
@[simp] theorem State.updWd_packets (s : State) (f : Wd → Wd) : (s.updWd f).packets = s.packets := rfl
@[simp] theorem State.updWd_fresh (s : State) (f : Wd → Wd) : (s.updWd f).fresh = s.fresh := rfl
@[simp] theorem State.updWd_clk (s : State) (f : Wd → Wd) : (s.updWd f).clk = s.clk := rfl
@[simp] theorem State.updWd_booted (s : State) (f : Wd → Wd) : (s.updWd f).booted = s.booted := rfl
@[simp] theorem State.updWd_waves (s : State) (f : Wd → Wd) : (s.updWd f).waves = s.waves := rfl
@[simp] theorem State.updWd_pend (s : State) (f : Wd → Wd) : (s.updWd f).pend = s.pend := rfl
@[simp] theorem State.updWd_bars (s : State) (f : Wd → Wd) : (s.updWd f).bars = s.bars := rfl
@[simp] theorem State.updWd_tretQ (s : State) (f : Wd → Wd) : (s.updWd f).tretQ = s.tretQ := rfl
@[simp] theorem State.updWd_icache (s : State) (f : Wd → Wd) : (s.updWd f).icache = s.icache := rfl
@[simp] theorem State.updWd_tlb (s : State) (f : Wd → Wd) : (s.updWd f).tlb = s.tlb := rfl
@[simp] theorem State.updWd_tops (s : State) (f : Wd → Wd) : (s.updWd f).tops = s.tops := rfl
@[simp] theorem State.updWd_ptrs (s : State) (f : Wd → Wd) : (s.updWd f).ptrs = s.ptrs := rfl
@[simp] theorem State.updWd_misses (s : State) (f : Wd → Wd) : (s.updWd f).misses = s.misses := rfl
@[simp] theorem State.updWd_missQ (s : State) (f : Wd → Wd) : (s.updWd f).missQ = s.missQ := rfl
@[simp] theorem State.updWd_refused (s : State) (f : Wd → Wd) : (s.updWd f).refused = s.refused := rfl
@[simp] theorem State.updWd_lines (s : State) (f : Wd → Wd) : (s.updWd f).lines = s.lines := rfl
@[simp] theorem State.updWd_mem (s : State) (f : Wd → Wd) : (s.updWd f).mem = s.mem := rfl
@[simp] theorem State.updWd_ls (s : State) (f : Wd → Wd) : (s.updWd f).ls = s.ls := rfl
@[simp] theorem State.updWd_chip (s : State) (f : Wd → Wd) : (s.updWd f).chip = s.chip := rfl
@[simp] theorem State.updWd_pads (s : State) (f : Wd → Wd) : (s.updWd f).pads = s.pads := rfl
@[simp] theorem State.updWd_poison (s : State) (f : Wd → Wd) : (s.updWd f).poison = s.poison := rfl
@[simp] theorem State.updWd_ord (s : State) (f : Wd → Wd) : (s.updWd f).ord = s.ord := rfl
@[simp] theorem State.updWd_regions (s : State) (f : Wd → Wd) : (s.updWd f).regions = s.regions := rfl
@[simp] theorem State.updWd_recs (s : State) (f : Wd → Wd) : (s.updWd f).recs = s.recs := rfl
@[simp] theorem State.updWd_grant (s : State) (f : Wd → Wd) : (s.updWd f).grant = s.grant := rfl
@[simp] theorem State.updWd_ueLog (s : State) (f : Wd → Wd) : (s.updWd f).ueLog = s.ueLog := rfl
@[simp] theorem State.updWd_fatals (s : State) (f : Wd → Wd) : (s.updWd f).fatals = s.fatals := rfl
@[simp] theorem State.updWd_csrs (s : State) (f : Wd → Wd) : (s.updWd f).csrs = s.csrs := rfl
@[simp] theorem State.updWd_stepping (s : State) (f : Wd → Wd) : (s.updWd f).stepping = s.stepping := rfl
@[simp] theorem State.updWd_stopClk (s : State) (f : Wd → Wd) : (s.updWd f).stopClk = s.stopClk := rfl
@[simp] theorem State.updWd_flight (s : State) (f : Wd → Wd) : (s.updWd f).flight = s.flight := rfl
@[simp] theorem State.updWd_cts (s : State) (f : Wd → Wd) : (s.updWd f).cts = s.cts := rfl
@[simp] theorem State.updWd_streams (s : State) (f : Wd → Wd) : (s.updWd f).streams = s.streams := rfl
@[simp] theorem State.updWd_asu (s : State) (f : Wd → Wd) : (s.updWd f).asu = s.asu := rfl
@[simp] theorem State.updWd_rtu (s : State) (f : Wd → Wd) : (s.updWd f).rtu = s.rtu := rfl
@[simp] theorem State.updWd_link (s : State) (f : Wd → Wd) : (s.updWd f).link = s.link := rfl
@[simp] theorem State.updWd_svc (s : State) (f : Wd → Wd) : (s.updWd f).svc = s.svc := rfl

/-! ## State.updAgent -/

@[simp] theorem State.updAgent_tick (s : State) (f : Agent → Agent) : (s.updAgent f).tick = s.tick := rfl
@[simp] theorem State.updAgent_packets (s : State) (f : Agent → Agent) : (s.updAgent f).packets = s.packets := rfl
@[simp] theorem State.updAgent_fresh (s : State) (f : Agent → Agent) : (s.updAgent f).fresh = s.fresh := rfl
@[simp] theorem State.updAgent_clk (s : State) (f : Agent → Agent) : (s.updAgent f).clk = s.clk := rfl
@[simp] theorem State.updAgent_booted (s : State) (f : Agent → Agent) : (s.updAgent f).booted = s.booted := rfl
@[simp] theorem State.updAgent_waves (s : State) (f : Agent → Agent) : (s.updAgent f).waves = s.waves := rfl
@[simp] theorem State.updAgent_pend (s : State) (f : Agent → Agent) : (s.updAgent f).pend = s.pend := rfl
@[simp] theorem State.updAgent_bars (s : State) (f : Agent → Agent) : (s.updAgent f).bars = s.bars := rfl
@[simp] theorem State.updAgent_tretQ (s : State) (f : Agent → Agent) : (s.updAgent f).tretQ = s.tretQ := rfl
@[simp] theorem State.updAgent_icache (s : State) (f : Agent → Agent) : (s.updAgent f).icache = s.icache := rfl
@[simp] theorem State.updAgent_tlb (s : State) (f : Agent → Agent) : (s.updAgent f).tlb = s.tlb := rfl
@[simp] theorem State.updAgent_tops (s : State) (f : Agent → Agent) : (s.updAgent f).tops = s.tops := rfl
@[simp] theorem State.updAgent_ptrs (s : State) (f : Agent → Agent) : (s.updAgent f).ptrs = s.ptrs := rfl
@[simp] theorem State.updAgent_misses (s : State) (f : Agent → Agent) : (s.updAgent f).misses = s.misses := rfl
@[simp] theorem State.updAgent_missQ (s : State) (f : Agent → Agent) : (s.updAgent f).missQ = s.missQ := rfl
@[simp] theorem State.updAgent_refused (s : State) (f : Agent → Agent) : (s.updAgent f).refused = s.refused := rfl
@[simp] theorem State.updAgent_lines (s : State) (f : Agent → Agent) : (s.updAgent f).lines = s.lines := rfl
@[simp] theorem State.updAgent_mem (s : State) (f : Agent → Agent) : (s.updAgent f).mem = s.mem := rfl
@[simp] theorem State.updAgent_ls (s : State) (f : Agent → Agent) : (s.updAgent f).ls = s.ls := rfl
@[simp] theorem State.updAgent_chip (s : State) (f : Agent → Agent) : (s.updAgent f).chip = s.chip := rfl
@[simp] theorem State.updAgent_pads (s : State) (f : Agent → Agent) : (s.updAgent f).pads = s.pads := rfl
@[simp] theorem State.updAgent_poison (s : State) (f : Agent → Agent) : (s.updAgent f).poison = s.poison := rfl
@[simp] theorem State.updAgent_regions (s : State) (f : Agent → Agent) : (s.updAgent f).regions = s.regions := rfl
@[simp] theorem State.updAgent_recs (s : State) (f : Agent → Agent) : (s.updAgent f).recs = s.recs := rfl
@[simp] theorem State.updAgent_grant (s : State) (f : Agent → Agent) : (s.updAgent f).grant = s.grant := rfl
@[simp] theorem State.updAgent_ueLog (s : State) (f : Agent → Agent) : (s.updAgent f).ueLog = s.ueLog := rfl
@[simp] theorem State.updAgent_fatals (s : State) (f : Agent → Agent) : (s.updAgent f).fatals = s.fatals := rfl
@[simp] theorem State.updAgent_csrs (s : State) (f : Agent → Agent) : (s.updAgent f).csrs = s.csrs := rfl
@[simp] theorem State.updAgent_stepping (s : State) (f : Agent → Agent) : (s.updAgent f).stepping = s.stepping := rfl
@[simp] theorem State.updAgent_stopClk (s : State) (f : Agent → Agent) : (s.updAgent f).stopClk = s.stopClk := rfl
@[simp] theorem State.updAgent_flight (s : State) (f : Agent → Agent) : (s.updAgent f).flight = s.flight := rfl
@[simp] theorem State.updAgent_cts (s : State) (f : Agent → Agent) : (s.updAgent f).cts = s.cts := rfl
@[simp] theorem State.updAgent_streams (s : State) (f : Agent → Agent) : (s.updAgent f).streams = s.streams := rfl
@[simp] theorem State.updAgent_asu (s : State) (f : Agent → Agent) : (s.updAgent f).asu = s.asu := rfl
@[simp] theorem State.updAgent_rtu (s : State) (f : Agent → Agent) : (s.updAgent f).rtu = s.rtu := rfl
@[simp] theorem State.updAgent_wd (s : State) (f : Agent → Agent) : (s.updAgent f).wd = s.wd := rfl
@[simp] theorem State.updAgent_link (s : State) (f : Agent → Agent) : (s.updAgent f).link = s.link := rfl
@[simp] theorem State.updAgent_svc (s : State) (f : Agent → Agent) : (s.updAgent f).svc = s.svc := rfl

/-! ## State.opDone -/

@[simp] theorem State.opDone_tick (s : State) : (s.opDone).tick = s.tick := rfl
@[simp] theorem State.opDone_packets (s : State) : (s.opDone).packets = s.packets := rfl
@[simp] theorem State.opDone_fresh (s : State) : (s.opDone).fresh = s.fresh := rfl
@[simp] theorem State.opDone_clk (s : State) : (s.opDone).clk = s.clk := rfl
@[simp] theorem State.opDone_booted (s : State) : (s.opDone).booted = s.booted := rfl
@[simp] theorem State.opDone_waves (s : State) : (s.opDone).waves = s.waves := rfl
@[simp] theorem State.opDone_pend (s : State) : (s.opDone).pend = s.pend := rfl
@[simp] theorem State.opDone_bars (s : State) : (s.opDone).bars = s.bars := rfl
@[simp] theorem State.opDone_tretQ (s : State) : (s.opDone).tretQ = s.tretQ := rfl
@[simp] theorem State.opDone_icache (s : State) : (s.opDone).icache = s.icache := rfl
@[simp] theorem State.opDone_tlb (s : State) : (s.opDone).tlb = s.tlb := rfl
@[simp] theorem State.opDone_tops (s : State) : (s.opDone).tops = s.tops := rfl
@[simp] theorem State.opDone_ptrs (s : State) : (s.opDone).ptrs = s.ptrs := rfl
@[simp] theorem State.opDone_misses (s : State) : (s.opDone).misses = s.misses := rfl
@[simp] theorem State.opDone_missQ (s : State) : (s.opDone).missQ = s.missQ := rfl
@[simp] theorem State.opDone_refused (s : State) : (s.opDone).refused = s.refused := rfl
@[simp] theorem State.opDone_lines (s : State) : (s.opDone).lines = s.lines := rfl
@[simp] theorem State.opDone_mem (s : State) : (s.opDone).mem = s.mem := rfl
@[simp] theorem State.opDone_ls (s : State) : (s.opDone).ls = s.ls := rfl
@[simp] theorem State.opDone_chip (s : State) : (s.opDone).chip = s.chip := rfl
@[simp] theorem State.opDone_pads (s : State) : (s.opDone).pads = s.pads := rfl
@[simp] theorem State.opDone_poison (s : State) : (s.opDone).poison = s.poison := rfl
@[simp] theorem State.opDone_regions (s : State) : (s.opDone).regions = s.regions := rfl
@[simp] theorem State.opDone_recs (s : State) : (s.opDone).recs = s.recs := rfl
@[simp] theorem State.opDone_grant (s : State) : (s.opDone).grant = s.grant := rfl
@[simp] theorem State.opDone_ueLog (s : State) : (s.opDone).ueLog = s.ueLog := rfl
@[simp] theorem State.opDone_fatals (s : State) : (s.opDone).fatals = s.fatals := rfl
@[simp] theorem State.opDone_csrs (s : State) : (s.opDone).csrs = s.csrs := rfl
@[simp] theorem State.opDone_stepping (s : State) : (s.opDone).stepping = s.stepping := rfl
@[simp] theorem State.opDone_stopClk (s : State) : (s.opDone).stopClk = s.stopClk := rfl
@[simp] theorem State.opDone_flight (s : State) : (s.opDone).flight = s.flight := rfl
@[simp] theorem State.opDone_cts (s : State) : (s.opDone).cts = s.cts := rfl
@[simp] theorem State.opDone_streams (s : State) : (s.opDone).streams = s.streams := rfl
@[simp] theorem State.opDone_asu (s : State) : (s.opDone).asu = s.asu := rfl
@[simp] theorem State.opDone_rtu (s : State) : (s.opDone).rtu = s.rtu := rfl
@[simp] theorem State.opDone_wd (s : State) : (s.opDone).wd = s.wd := rfl
@[simp] theorem State.opDone_link (s : State) : (s.opDone).link = s.link := rfl
@[simp] theorem State.opDone_svc (s : State) : (s.opDone).svc = s.svc := rfl

/-! ## State.dropReads -/

@[simp] theorem State.dropReads_tick (s : State) (who : Who) : (s.dropReads who).tick = s.tick := rfl
@[simp] theorem State.dropReads_packets (s : State) (who : Who) : (s.dropReads who).packets = s.packets := rfl
@[simp] theorem State.dropReads_fresh (s : State) (who : Who) : (s.dropReads who).fresh = s.fresh := rfl
@[simp] theorem State.dropReads_clk (s : State) (who : Who) : (s.dropReads who).clk = s.clk := rfl
@[simp] theorem State.dropReads_booted (s : State) (who : Who) : (s.dropReads who).booted = s.booted := rfl
@[simp] theorem State.dropReads_waves (s : State) (who : Who) : (s.dropReads who).waves = s.waves := rfl
@[simp] theorem State.dropReads_pend (s : State) (who : Who) : (s.dropReads who).pend = s.pend := rfl
@[simp] theorem State.dropReads_bars (s : State) (who : Who) : (s.dropReads who).bars = s.bars := rfl
@[simp] theorem State.dropReads_tretQ (s : State) (who : Who) : (s.dropReads who).tretQ = s.tretQ := rfl
@[simp] theorem State.dropReads_icache (s : State) (who : Who) : (s.dropReads who).icache = s.icache := rfl
@[simp] theorem State.dropReads_tlb (s : State) (who : Who) : (s.dropReads who).tlb = s.tlb := rfl
@[simp] theorem State.dropReads_tops (s : State) (who : Who) : (s.dropReads who).tops = s.tops := rfl
@[simp] theorem State.dropReads_ptrs (s : State) (who : Who) : (s.dropReads who).ptrs = s.ptrs := rfl
@[simp] theorem State.dropReads_misses (s : State) (who : Who) : (s.dropReads who).misses = s.misses := rfl
@[simp] theorem State.dropReads_missQ (s : State) (who : Who) : (s.dropReads who).missQ = s.missQ := rfl
@[simp] theorem State.dropReads_refused (s : State) (who : Who) : (s.dropReads who).refused = s.refused := rfl
@[simp] theorem State.dropReads_lines (s : State) (who : Who) : (s.dropReads who).lines = s.lines := rfl
@[simp] theorem State.dropReads_mem (s : State) (who : Who) : (s.dropReads who).mem = s.mem := rfl
@[simp] theorem State.dropReads_ls (s : State) (who : Who) : (s.dropReads who).ls = s.ls := rfl
@[simp] theorem State.dropReads_chip (s : State) (who : Who) : (s.dropReads who).chip = s.chip := rfl
@[simp] theorem State.dropReads_pads (s : State) (who : Who) : (s.dropReads who).pads = s.pads := rfl
@[simp] theorem State.dropReads_poison (s : State) (who : Who) : (s.dropReads who).poison = s.poison := rfl
@[simp] theorem State.dropReads_ord (s : State) (who : Who) : (s.dropReads who).ord = s.ord := rfl
@[simp] theorem State.dropReads_regions (s : State) (who : Who) : (s.dropReads who).regions = s.regions := rfl
@[simp] theorem State.dropReads_recs (s : State) (who : Who) : (s.dropReads who).recs = s.recs := rfl
@[simp] theorem State.dropReads_grant (s : State) (who : Who) : (s.dropReads who).grant = s.grant := rfl
@[simp] theorem State.dropReads_ueLog (s : State) (who : Who) : (s.dropReads who).ueLog = s.ueLog := rfl
@[simp] theorem State.dropReads_fatals (s : State) (who : Who) : (s.dropReads who).fatals = s.fatals := rfl
@[simp] theorem State.dropReads_csrs (s : State) (who : Who) : (s.dropReads who).csrs = s.csrs := rfl
@[simp] theorem State.dropReads_stepping (s : State) (who : Who) : (s.dropReads who).stepping = s.stepping := rfl
@[simp] theorem State.dropReads_stopClk (s : State) (who : Who) : (s.dropReads who).stopClk = s.stopClk := rfl
@[simp] theorem State.dropReads_flight (s : State) (who : Who) : (s.dropReads who).flight = s.flight := rfl
@[simp] theorem State.dropReads_cts (s : State) (who : Who) : (s.dropReads who).cts = s.cts := rfl
@[simp] theorem State.dropReads_streams (s : State) (who : Who) : (s.dropReads who).streams = s.streams := rfl
@[simp] theorem State.dropReads_asu (s : State) (who : Who) : (s.dropReads who).asu = s.asu := rfl
@[simp] theorem State.dropReads_rtu (s : State) (who : Who) : (s.dropReads who).rtu = s.rtu := rfl
@[simp] theorem State.dropReads_wd (s : State) (who : Who) : (s.dropReads who).wd = s.wd := rfl
@[simp] theorem State.dropReads_svc (s : State) (who : Who) : (s.dropReads who).svc = s.svc := rfl

/-! ## State.dropRops -/

@[simp] theorem State.dropRops_tick (s : State) (who : Who) : (s.dropRops who).tick = s.tick := rfl
@[simp] theorem State.dropRops_packets (s : State) (who : Who) : (s.dropRops who).packets = s.packets := rfl
@[simp] theorem State.dropRops_fresh (s : State) (who : Who) : (s.dropRops who).fresh = s.fresh := rfl
@[simp] theorem State.dropRops_clk (s : State) (who : Who) : (s.dropRops who).clk = s.clk := rfl
@[simp] theorem State.dropRops_booted (s : State) (who : Who) : (s.dropRops who).booted = s.booted := rfl
@[simp] theorem State.dropRops_waves (s : State) (who : Who) : (s.dropRops who).waves = s.waves := rfl
@[simp] theorem State.dropRops_pend (s : State) (who : Who) : (s.dropRops who).pend = s.pend := rfl
@[simp] theorem State.dropRops_bars (s : State) (who : Who) : (s.dropRops who).bars = s.bars := rfl
@[simp] theorem State.dropRops_tretQ (s : State) (who : Who) : (s.dropRops who).tretQ = s.tretQ := rfl
@[simp] theorem State.dropRops_icache (s : State) (who : Who) : (s.dropRops who).icache = s.icache := rfl
@[simp] theorem State.dropRops_tlb (s : State) (who : Who) : (s.dropRops who).tlb = s.tlb := rfl
@[simp] theorem State.dropRops_tops (s : State) (who : Who) : (s.dropRops who).tops = s.tops := rfl
@[simp] theorem State.dropRops_ptrs (s : State) (who : Who) : (s.dropRops who).ptrs = s.ptrs := rfl
@[simp] theorem State.dropRops_misses (s : State) (who : Who) : (s.dropRops who).misses = s.misses := rfl
@[simp] theorem State.dropRops_missQ (s : State) (who : Who) : (s.dropRops who).missQ = s.missQ := rfl
@[simp] theorem State.dropRops_refused (s : State) (who : Who) : (s.dropRops who).refused = s.refused := rfl
@[simp] theorem State.dropRops_lines (s : State) (who : Who) : (s.dropRops who).lines = s.lines := rfl
@[simp] theorem State.dropRops_mem (s : State) (who : Who) : (s.dropRops who).mem = s.mem := rfl
@[simp] theorem State.dropRops_ls (s : State) (who : Who) : (s.dropRops who).ls = s.ls := rfl
@[simp] theorem State.dropRops_chip (s : State) (who : Who) : (s.dropRops who).chip = s.chip := rfl
@[simp] theorem State.dropRops_pads (s : State) (who : Who) : (s.dropRops who).pads = s.pads := rfl
@[simp] theorem State.dropRops_poison (s : State) (who : Who) : (s.dropRops who).poison = s.poison := rfl
@[simp] theorem State.dropRops_ord (s : State) (who : Who) : (s.dropRops who).ord = s.ord := rfl
@[simp] theorem State.dropRops_regions (s : State) (who : Who) : (s.dropRops who).regions = s.regions := rfl
@[simp] theorem State.dropRops_recs (s : State) (who : Who) : (s.dropRops who).recs = s.recs := rfl
@[simp] theorem State.dropRops_grant (s : State) (who : Who) : (s.dropRops who).grant = s.grant := rfl
@[simp] theorem State.dropRops_ueLog (s : State) (who : Who) : (s.dropRops who).ueLog = s.ueLog := rfl
@[simp] theorem State.dropRops_fatals (s : State) (who : Who) : (s.dropRops who).fatals = s.fatals := rfl
@[simp] theorem State.dropRops_csrs (s : State) (who : Who) : (s.dropRops who).csrs = s.csrs := rfl
@[simp] theorem State.dropRops_stepping (s : State) (who : Who) : (s.dropRops who).stepping = s.stepping := rfl
@[simp] theorem State.dropRops_stopClk (s : State) (who : Who) : (s.dropRops who).stopClk = s.stopClk := rfl
@[simp] theorem State.dropRops_flight (s : State) (who : Who) : (s.dropRops who).flight = s.flight := rfl
@[simp] theorem State.dropRops_cts (s : State) (who : Who) : (s.dropRops who).cts = s.cts := rfl
@[simp] theorem State.dropRops_streams (s : State) (who : Who) : (s.dropRops who).streams = s.streams := rfl
@[simp] theorem State.dropRops_asu (s : State) (who : Who) : (s.dropRops who).asu = s.asu := rfl
@[simp] theorem State.dropRops_rtu (s : State) (who : Who) : (s.dropRops who).rtu = s.rtu := rfl
@[simp] theorem State.dropRops_wd (s : State) (who : Who) : (s.dropRops who).wd = s.wd := rfl
@[simp] theorem State.dropRops_svc (s : State) (who : Who) : (s.dropRops who).svc = s.svc := rfl

/-! ## State.joinLane -/

@[simp] theorem State.joinLane_tick (s : State) (l : List Nat) (uid lane : Nat) : (s.joinLane l uid lane).tick = s.tick := rfl
@[simp] theorem State.joinLane_packets (s : State) (l : List Nat) (uid lane : Nat) : (s.joinLane l uid lane).packets = s.packets := rfl
@[simp] theorem State.joinLane_fresh (s : State) (l : List Nat) (uid lane : Nat) : (s.joinLane l uid lane).fresh = s.fresh := rfl
@[simp] theorem State.joinLane_clk (s : State) (l : List Nat) (uid lane : Nat) : (s.joinLane l uid lane).clk = s.clk := rfl
@[simp] theorem State.joinLane_booted (s : State) (l : List Nat) (uid lane : Nat) : (s.joinLane l uid lane).booted = s.booted := rfl
@[simp] theorem State.joinLane_pend (s : State) (l : List Nat) (uid lane : Nat) : (s.joinLane l uid lane).pend = s.pend := rfl
@[simp] theorem State.joinLane_bars (s : State) (l : List Nat) (uid lane : Nat) : (s.joinLane l uid lane).bars = s.bars := rfl
@[simp] theorem State.joinLane_tretQ (s : State) (l : List Nat) (uid lane : Nat) : (s.joinLane l uid lane).tretQ = s.tretQ := rfl
@[simp] theorem State.joinLane_icache (s : State) (l : List Nat) (uid lane : Nat) : (s.joinLane l uid lane).icache = s.icache := rfl
@[simp] theorem State.joinLane_tlb (s : State) (l : List Nat) (uid lane : Nat) : (s.joinLane l uid lane).tlb = s.tlb := rfl
@[simp] theorem State.joinLane_tops (s : State) (l : List Nat) (uid lane : Nat) : (s.joinLane l uid lane).tops = s.tops := rfl
@[simp] theorem State.joinLane_ptrs (s : State) (l : List Nat) (uid lane : Nat) : (s.joinLane l uid lane).ptrs = s.ptrs := rfl
@[simp] theorem State.joinLane_misses (s : State) (l : List Nat) (uid lane : Nat) : (s.joinLane l uid lane).misses = s.misses := rfl
@[simp] theorem State.joinLane_missQ (s : State) (l : List Nat) (uid lane : Nat) : (s.joinLane l uid lane).missQ = s.missQ := rfl
@[simp] theorem State.joinLane_refused (s : State) (l : List Nat) (uid lane : Nat) : (s.joinLane l uid lane).refused = s.refused := rfl
@[simp] theorem State.joinLane_lines (s : State) (l : List Nat) (uid lane : Nat) : (s.joinLane l uid lane).lines = s.lines := rfl
@[simp] theorem State.joinLane_mem (s : State) (l : List Nat) (uid lane : Nat) : (s.joinLane l uid lane).mem = s.mem := rfl
@[simp] theorem State.joinLane_ls (s : State) (l : List Nat) (uid lane : Nat) : (s.joinLane l uid lane).ls = s.ls := rfl
@[simp] theorem State.joinLane_chip (s : State) (l : List Nat) (uid lane : Nat) : (s.joinLane l uid lane).chip = s.chip := rfl
@[simp] theorem State.joinLane_pads (s : State) (l : List Nat) (uid lane : Nat) : (s.joinLane l uid lane).pads = s.pads := rfl
@[simp] theorem State.joinLane_poison (s : State) (l : List Nat) (uid lane : Nat) : (s.joinLane l uid lane).poison = s.poison := rfl
@[simp] theorem State.joinLane_ord (s : State) (l : List Nat) (uid lane : Nat) : (s.joinLane l uid lane).ord = s.ord := rfl
@[simp] theorem State.joinLane_regions (s : State) (l : List Nat) (uid lane : Nat) : (s.joinLane l uid lane).regions = s.regions := rfl
@[simp] theorem State.joinLane_recs (s : State) (l : List Nat) (uid lane : Nat) : (s.joinLane l uid lane).recs = s.recs := rfl
@[simp] theorem State.joinLane_grant (s : State) (l : List Nat) (uid lane : Nat) : (s.joinLane l uid lane).grant = s.grant := rfl
@[simp] theorem State.joinLane_ueLog (s : State) (l : List Nat) (uid lane : Nat) : (s.joinLane l uid lane).ueLog = s.ueLog := rfl
@[simp] theorem State.joinLane_fatals (s : State) (l : List Nat) (uid lane : Nat) : (s.joinLane l uid lane).fatals = s.fatals := rfl
@[simp] theorem State.joinLane_csrs (s : State) (l : List Nat) (uid lane : Nat) : (s.joinLane l uid lane).csrs = s.csrs := rfl
@[simp] theorem State.joinLane_stepping (s : State) (l : List Nat) (uid lane : Nat) : (s.joinLane l uid lane).stepping = s.stepping := rfl
@[simp] theorem State.joinLane_stopClk (s : State) (l : List Nat) (uid lane : Nat) : (s.joinLane l uid lane).stopClk = s.stopClk := rfl
@[simp] theorem State.joinLane_flight (s : State) (l : List Nat) (uid lane : Nat) : (s.joinLane l uid lane).flight = s.flight := rfl
@[simp] theorem State.joinLane_cts (s : State) (l : List Nat) (uid lane : Nat) : (s.joinLane l uid lane).cts = s.cts := rfl
@[simp] theorem State.joinLane_streams (s : State) (l : List Nat) (uid lane : Nat) : (s.joinLane l uid lane).streams = s.streams := rfl
@[simp] theorem State.joinLane_asu (s : State) (l : List Nat) (uid lane : Nat) : (s.joinLane l uid lane).asu = s.asu := rfl
@[simp] theorem State.joinLane_rtu (s : State) (l : List Nat) (uid lane : Nat) : (s.joinLane l uid lane).rtu = s.rtu := rfl
@[simp] theorem State.joinLane_wd (s : State) (l : List Nat) (uid lane : Nat) : (s.joinLane l uid lane).wd = s.wd := rfl
@[simp] theorem State.joinLane_link (s : State) (l : List Nat) (uid lane : Nat) : (s.joinLane l uid lane).link = s.link := rfl
@[simp] theorem State.joinLane_svc (s : State) (l : List Nat) (uid lane : Nat) : (s.joinLane l uid lane).svc = s.svc := rfl

/-! ## State.acquireLane -/

@[simp] theorem State.acquireLane_tick (s : State) (l : List Nat) (uid lane : Nat) : (s.acquireLane l uid lane).tick = s.tick := rfl
@[simp] theorem State.acquireLane_packets (s : State) (l : List Nat) (uid lane : Nat) : (s.acquireLane l uid lane).packets = s.packets := rfl
@[simp] theorem State.acquireLane_fresh (s : State) (l : List Nat) (uid lane : Nat) : (s.acquireLane l uid lane).fresh = s.fresh := rfl
@[simp] theorem State.acquireLane_clk (s : State) (l : List Nat) (uid lane : Nat) : (s.acquireLane l uid lane).clk = s.clk := rfl
@[simp] theorem State.acquireLane_booted (s : State) (l : List Nat) (uid lane : Nat) : (s.acquireLane l uid lane).booted = s.booted := rfl
@[simp] theorem State.acquireLane_pend (s : State) (l : List Nat) (uid lane : Nat) : (s.acquireLane l uid lane).pend = s.pend := rfl
@[simp] theorem State.acquireLane_bars (s : State) (l : List Nat) (uid lane : Nat) : (s.acquireLane l uid lane).bars = s.bars := rfl
@[simp] theorem State.acquireLane_tretQ (s : State) (l : List Nat) (uid lane : Nat) : (s.acquireLane l uid lane).tretQ = s.tretQ := rfl
@[simp] theorem State.acquireLane_icache (s : State) (l : List Nat) (uid lane : Nat) : (s.acquireLane l uid lane).icache = s.icache := rfl
@[simp] theorem State.acquireLane_tlb (s : State) (l : List Nat) (uid lane : Nat) : (s.acquireLane l uid lane).tlb = s.tlb := rfl
@[simp] theorem State.acquireLane_tops (s : State) (l : List Nat) (uid lane : Nat) : (s.acquireLane l uid lane).tops = s.tops := rfl
@[simp] theorem State.acquireLane_ptrs (s : State) (l : List Nat) (uid lane : Nat) : (s.acquireLane l uid lane).ptrs = s.ptrs := rfl
@[simp] theorem State.acquireLane_misses (s : State) (l : List Nat) (uid lane : Nat) : (s.acquireLane l uid lane).misses = s.misses := rfl
@[simp] theorem State.acquireLane_missQ (s : State) (l : List Nat) (uid lane : Nat) : (s.acquireLane l uid lane).missQ = s.missQ := rfl
@[simp] theorem State.acquireLane_refused (s : State) (l : List Nat) (uid lane : Nat) : (s.acquireLane l uid lane).refused = s.refused := rfl
@[simp] theorem State.acquireLane_lines (s : State) (l : List Nat) (uid lane : Nat) : (s.acquireLane l uid lane).lines = s.lines := rfl
@[simp] theorem State.acquireLane_mem (s : State) (l : List Nat) (uid lane : Nat) : (s.acquireLane l uid lane).mem = s.mem := rfl
@[simp] theorem State.acquireLane_ls (s : State) (l : List Nat) (uid lane : Nat) : (s.acquireLane l uid lane).ls = s.ls := rfl
@[simp] theorem State.acquireLane_chip (s : State) (l : List Nat) (uid lane : Nat) : (s.acquireLane l uid lane).chip = s.chip := rfl
@[simp] theorem State.acquireLane_pads (s : State) (l : List Nat) (uid lane : Nat) : (s.acquireLane l uid lane).pads = s.pads := rfl
@[simp] theorem State.acquireLane_poison (s : State) (l : List Nat) (uid lane : Nat) : (s.acquireLane l uid lane).poison = s.poison := rfl
@[simp] theorem State.acquireLane_ord (s : State) (l : List Nat) (uid lane : Nat) : (s.acquireLane l uid lane).ord = s.ord := rfl
@[simp] theorem State.acquireLane_regions (s : State) (l : List Nat) (uid lane : Nat) : (s.acquireLane l uid lane).regions = s.regions := rfl
@[simp] theorem State.acquireLane_recs (s : State) (l : List Nat) (uid lane : Nat) : (s.acquireLane l uid lane).recs = s.recs := rfl
@[simp] theorem State.acquireLane_grant (s : State) (l : List Nat) (uid lane : Nat) : (s.acquireLane l uid lane).grant = s.grant := rfl
@[simp] theorem State.acquireLane_ueLog (s : State) (l : List Nat) (uid lane : Nat) : (s.acquireLane l uid lane).ueLog = s.ueLog := rfl
@[simp] theorem State.acquireLane_fatals (s : State) (l : List Nat) (uid lane : Nat) : (s.acquireLane l uid lane).fatals = s.fatals := rfl
@[simp] theorem State.acquireLane_csrs (s : State) (l : List Nat) (uid lane : Nat) : (s.acquireLane l uid lane).csrs = s.csrs := rfl
@[simp] theorem State.acquireLane_stepping (s : State) (l : List Nat) (uid lane : Nat) : (s.acquireLane l uid lane).stepping = s.stepping := rfl
@[simp] theorem State.acquireLane_stopClk (s : State) (l : List Nat) (uid lane : Nat) : (s.acquireLane l uid lane).stopClk = s.stopClk := rfl
@[simp] theorem State.acquireLane_flight (s : State) (l : List Nat) (uid lane : Nat) : (s.acquireLane l uid lane).flight = s.flight := rfl
@[simp] theorem State.acquireLane_cts (s : State) (l : List Nat) (uid lane : Nat) : (s.acquireLane l uid lane).cts = s.cts := rfl
@[simp] theorem State.acquireLane_streams (s : State) (l : List Nat) (uid lane : Nat) : (s.acquireLane l uid lane).streams = s.streams := rfl
@[simp] theorem State.acquireLane_asu (s : State) (l : List Nat) (uid lane : Nat) : (s.acquireLane l uid lane).asu = s.asu := rfl
@[simp] theorem State.acquireLane_rtu (s : State) (l : List Nat) (uid lane : Nat) : (s.acquireLane l uid lane).rtu = s.rtu := rfl
@[simp] theorem State.acquireLane_wd (s : State) (l : List Nat) (uid lane : Nat) : (s.acquireLane l uid lane).wd = s.wd := rfl
@[simp] theorem State.acquireLane_link (s : State) (l : List Nat) (uid lane : Nat) : (s.acquireLane l uid lane).link = s.link := rfl
@[simp] theorem State.acquireLane_svc (s : State) (l : List Nat) (uid lane : Nat) : (s.acquireLane l uid lane).svc = s.svc := rfl

/-! ## State.setCsr -/

@[simp] theorem State.setCsr_tick (s : State) (a v : Nat) : (s.setCsr a v).tick = s.tick := rfl
@[simp] theorem State.setCsr_packets (s : State) (a v : Nat) : (s.setCsr a v).packets = s.packets := rfl
@[simp] theorem State.setCsr_fresh (s : State) (a v : Nat) : (s.setCsr a v).fresh = s.fresh := rfl
@[simp] theorem State.setCsr_clk (s : State) (a v : Nat) : (s.setCsr a v).clk = s.clk := rfl
@[simp] theorem State.setCsr_booted (s : State) (a v : Nat) : (s.setCsr a v).booted = s.booted := rfl
@[simp] theorem State.setCsr_waves (s : State) (a v : Nat) : (s.setCsr a v).waves = s.waves := rfl
@[simp] theorem State.setCsr_pend (s : State) (a v : Nat) : (s.setCsr a v).pend = s.pend := rfl
@[simp] theorem State.setCsr_bars (s : State) (a v : Nat) : (s.setCsr a v).bars = s.bars := rfl
@[simp] theorem State.setCsr_tretQ (s : State) (a v : Nat) : (s.setCsr a v).tretQ = s.tretQ := rfl
@[simp] theorem State.setCsr_icache (s : State) (a v : Nat) : (s.setCsr a v).icache = s.icache := rfl
@[simp] theorem State.setCsr_tlb (s : State) (a v : Nat) : (s.setCsr a v).tlb = s.tlb := rfl
@[simp] theorem State.setCsr_tops (s : State) (a v : Nat) : (s.setCsr a v).tops = s.tops := rfl
@[simp] theorem State.setCsr_ptrs (s : State) (a v : Nat) : (s.setCsr a v).ptrs = s.ptrs := rfl
@[simp] theorem State.setCsr_misses (s : State) (a v : Nat) : (s.setCsr a v).misses = s.misses := rfl
@[simp] theorem State.setCsr_missQ (s : State) (a v : Nat) : (s.setCsr a v).missQ = s.missQ := rfl
@[simp] theorem State.setCsr_refused (s : State) (a v : Nat) : (s.setCsr a v).refused = s.refused := rfl
@[simp] theorem State.setCsr_lines (s : State) (a v : Nat) : (s.setCsr a v).lines = s.lines := rfl
@[simp] theorem State.setCsr_mem (s : State) (a v : Nat) : (s.setCsr a v).mem = s.mem := rfl
@[simp] theorem State.setCsr_ls (s : State) (a v : Nat) : (s.setCsr a v).ls = s.ls := rfl
@[simp] theorem State.setCsr_chip (s : State) (a v : Nat) : (s.setCsr a v).chip = s.chip := rfl
@[simp] theorem State.setCsr_pads (s : State) (a v : Nat) : (s.setCsr a v).pads = s.pads := rfl
@[simp] theorem State.setCsr_poison (s : State) (a v : Nat) : (s.setCsr a v).poison = s.poison := rfl
@[simp] theorem State.setCsr_ord (s : State) (a v : Nat) : (s.setCsr a v).ord = s.ord := rfl
@[simp] theorem State.setCsr_regions (s : State) (a v : Nat) : (s.setCsr a v).regions = s.regions := rfl
@[simp] theorem State.setCsr_recs (s : State) (a v : Nat) : (s.setCsr a v).recs = s.recs := rfl
@[simp] theorem State.setCsr_grant (s : State) (a v : Nat) : (s.setCsr a v).grant = s.grant := rfl
@[simp] theorem State.setCsr_ueLog (s : State) (a v : Nat) : (s.setCsr a v).ueLog = s.ueLog := rfl
@[simp] theorem State.setCsr_fatals (s : State) (a v : Nat) : (s.setCsr a v).fatals = s.fatals := rfl
@[simp] theorem State.setCsr_stepping (s : State) (a v : Nat) : (s.setCsr a v).stepping = s.stepping := rfl
@[simp] theorem State.setCsr_stopClk (s : State) (a v : Nat) : (s.setCsr a v).stopClk = s.stopClk := rfl
@[simp] theorem State.setCsr_flight (s : State) (a v : Nat) : (s.setCsr a v).flight = s.flight := rfl
@[simp] theorem State.setCsr_cts (s : State) (a v : Nat) : (s.setCsr a v).cts = s.cts := rfl
@[simp] theorem State.setCsr_streams (s : State) (a v : Nat) : (s.setCsr a v).streams = s.streams := rfl
@[simp] theorem State.setCsr_asu (s : State) (a v : Nat) : (s.setCsr a v).asu = s.asu := rfl
@[simp] theorem State.setCsr_rtu (s : State) (a v : Nat) : (s.setCsr a v).rtu = s.rtu := rfl
@[simp] theorem State.setCsr_wd (s : State) (a v : Nat) : (s.setCsr a v).wd = s.wd := rfl
@[simp] theorem State.setCsr_link (s : State) (a v : Nat) : (s.setCsr a v).link = s.link := rfl
@[simp] theorem State.setCsr_svc (s : State) (a v : Nat) : (s.setCsr a v).svc = s.svc := rfl

/-! ## Wave.setThread -/

@[simp] theorem Wave.setThread_uid (w : Wave) (lane : Nat) (t : Thread) : (w.setThread lane t).uid = w.uid := rfl
@[simp] theorem Wave.setThread_cl (w : Wave) (lane : Nat) (t : Thread) : (w.setThread lane t).cl = w.cl := rfl
@[simp] theorem Wave.setThread_core (w : Wave) (lane : Nat) (t : Thread) : (w.setThread lane t).core = w.core := rfl
@[simp] theorem Wave.setThread_quad (w : Wave) (lane : Nat) (t : Thread) : (w.setThread lane t).quad = w.quad := rfl
@[simp] theorem Wave.setThread_slot (w : Wave) (lane : Nat) (t : Thread) : (w.setThread lane t).slot = w.slot := rfl
@[simp] theorem Wave.setThread_bank (w : Wave) (lane : Nat) (t : Thread) : (w.setThread lane t).bank = w.bank := rfl
@[simp] theorem Wave.setThread_ctx (w : Wave) (lane : Nat) (t : Thread) : (w.setThread lane t).ctx = w.ctx := rfl
@[simp] theorem Wave.setThread_kind (w : Wave) (lane : Nat) (t : Thread) : (w.setThread lane t).kind = w.kind := rfl
@[simp] theorem Wave.setThread_gid (w : Wave) (lane : Nat) (t : Thread) : (w.setThread lane t).gid = w.gid := rfl
@[simp] theorem Wave.setThread_lid (w : Wave) (lane : Nat) (t : Thread) : (w.setThread lane t).lid = w.lid := rfl
@[simp] theorem Wave.setThread_rid (w : Wave) (lane : Nat) (t : Thread) : (w.setThread lane t).rid = w.rid := rfl
@[simp] theorem Wave.setThread_wg (w : Wave) (lane : Nat) (t : Thread) : (w.setThread lane t).wg = w.wg := rfl
@[simp] theorem Wave.setThread_widx (w : Wave) (lane : Nat) (t : Thread) : (w.setThread lane t).widx = w.widx := rfl
@[simp] theorem Wave.setThread_gangwg (w : Wave) (lane : Nat) (t : Thread) : (w.setThread lane t).gangwg = w.gangwg := rfl
@[simp] theorem Wave.setThread_grid (w : Wave) (lane : Nat) (t : Thread) : (w.setThread lane t).grid = w.grid := rfl
@[simp] theorem Wave.setThread_V (w : Wave) (lane : Nat) (t : Thread) : (w.setThread lane t).V = w.V := rfl
@[simp] theorem Wave.setThread_S (w : Wave) (lane : Nat) (t : Thread) : (w.setThread lane t).S = w.S := rfl
@[simp] theorem Wave.setThread_priv (w : Wave) (lane : Nat) (t : Thread) : (w.setThread lane t).priv = w.priv := rfl
@[simp] theorem Wave.setThread_quadFlag (w : Wave) (lane : Nat) (t : Thread) : (w.setThread lane t).quadFlag = w.quadFlag := rfl
@[simp] theorem Wave.setThread_htbl (w : Wave) (lane : Nat) (t : Thread) : (w.setThread lane t).htbl = w.htbl := rfl
@[simp] theorem Wave.setThread_nbar (w : Wave) (lane : Nat) (t : Thread) : (w.setThread lane t).nbar = w.nbar := rfl
@[simp] theorem Wave.setThread_al2 (w : Wave) (lane : Nat) (t : Thread) : (w.setThread lane t).al2 = w.al2 := rfl
@[simp] theorem Wave.setThread_al3 (w : Wave) (lane : Nat) (t : Thread) : (w.setThread lane t).al3 = w.al3 := rfl
@[simp] theorem Wave.setThread_v (w : Wave) (lane : Nat) (t : Thread) : (w.setThread lane t).v = w.v := rfl
@[simp] theorem Wave.setThread_s (w : Wave) (lane : Nat) (t : Thread) : (w.setThread lane t).s = w.s := rfl
@[simp] theorem Wave.setThread_m (w : Wave) (lane : Nat) (t : Thread) : (w.setThread lane t).m = w.m := rfl
@[simp] theorem Wave.setThread_k (w : Wave) (lane : Nat) (t : Thread) : (w.setThread lane t).k = w.k := rfl
@[simp] theorem Wave.setThread_kfail (w : Wave) (lane : Nat) (t : Thread) : (w.setThread lane t).kfail = w.kfail := rfl
@[simp] theorem Wave.setThread_kview (w : Wave) (lane : Nat) (t : Thread) : (w.setThread lane t).kview = w.kview := rfl
@[simp] theorem Wave.setThread_w (w : Wave) (lane : Nat) (t : Thread) : (w.setThread lane t).w = w.w := rfl
@[simp] theorem Wave.setThread_g (w : Wave) (lane : Nat) (t : Thread) : (w.setThread lane t).g = w.g := rfl
@[simp] theorem Wave.setThread_n (w : Wave) (lane : Nat) (t : Thread) : (w.setThread lane t).n = w.n := rfl
@[simp] theorem Wave.setThread_ac (w : Wave) (lane : Nat) (t : Thread) : (w.setThread lane t).ac = w.ac := rfl
@[simp] theorem Wave.setThread_jg (w : Wave) (lane : Nat) (t : Thread) : (w.setThread lane t).jg = w.jg := rfl
@[simp] theorem Wave.setThread_jsite (w : Wave) (lane : Nat) (t : Thread) : (w.setThread lane t).jsite = w.jsite := rfl
@[simp] theorem Wave.setThread_msite (w : Wave) (lane : Nat) (t : Thread) : (w.setThread lane t).msite = w.msite := rfl
@[simp] theorem Wave.setThread_mview (w : Wave) (lane : Nat) (t : Thread) : (w.setThread lane t).mview = w.mview := rfl
@[simp] theorem Wave.setThread_uiPend (w : Wave) (lane : Nat) (t : Thread) : (w.setThread lane t).uiPend = w.uiPend := rfl
@[simp] theorem Wave.setThread_uiEn (w : Wave) (lane : Nat) (t : Thread) : (w.setThread lane t).uiEn = w.uiEn := rfl
@[simp] theorem Wave.setThread_uiRun (w : Wave) (lane : Nat) (t : Thread) : (w.setThread lane t).uiRun = w.uiRun := rfl
@[simp] theorem Wave.setThread_uiView (w : Wave) (lane : Nat) (t : Thread) : (w.setThread lane t).uiView = w.uiView := rfl

/-! ## Wave.updThread -/

@[simp] theorem Wave.updThread_uid (w : Wave) (lane : Nat) (f : Thread → Thread) : (w.updThread lane f).uid = w.uid := rfl
@[simp] theorem Wave.updThread_cl (w : Wave) (lane : Nat) (f : Thread → Thread) : (w.updThread lane f).cl = w.cl := rfl
@[simp] theorem Wave.updThread_core (w : Wave) (lane : Nat) (f : Thread → Thread) : (w.updThread lane f).core = w.core := rfl
@[simp] theorem Wave.updThread_quad (w : Wave) (lane : Nat) (f : Thread → Thread) : (w.updThread lane f).quad = w.quad := rfl
@[simp] theorem Wave.updThread_slot (w : Wave) (lane : Nat) (f : Thread → Thread) : (w.updThread lane f).slot = w.slot := rfl
@[simp] theorem Wave.updThread_bank (w : Wave) (lane : Nat) (f : Thread → Thread) : (w.updThread lane f).bank = w.bank := rfl
@[simp] theorem Wave.updThread_ctx (w : Wave) (lane : Nat) (f : Thread → Thread) : (w.updThread lane f).ctx = w.ctx := rfl
@[simp] theorem Wave.updThread_kind (w : Wave) (lane : Nat) (f : Thread → Thread) : (w.updThread lane f).kind = w.kind := rfl
@[simp] theorem Wave.updThread_gid (w : Wave) (lane : Nat) (f : Thread → Thread) : (w.updThread lane f).gid = w.gid := rfl
@[simp] theorem Wave.updThread_lid (w : Wave) (lane : Nat) (f : Thread → Thread) : (w.updThread lane f).lid = w.lid := rfl
@[simp] theorem Wave.updThread_rid (w : Wave) (lane : Nat) (f : Thread → Thread) : (w.updThread lane f).rid = w.rid := rfl
@[simp] theorem Wave.updThread_wg (w : Wave) (lane : Nat) (f : Thread → Thread) : (w.updThread lane f).wg = w.wg := rfl
@[simp] theorem Wave.updThread_widx (w : Wave) (lane : Nat) (f : Thread → Thread) : (w.updThread lane f).widx = w.widx := rfl
@[simp] theorem Wave.updThread_gangwg (w : Wave) (lane : Nat) (f : Thread → Thread) : (w.updThread lane f).gangwg = w.gangwg := rfl
@[simp] theorem Wave.updThread_grid (w : Wave) (lane : Nat) (f : Thread → Thread) : (w.updThread lane f).grid = w.grid := rfl
@[simp] theorem Wave.updThread_V (w : Wave) (lane : Nat) (f : Thread → Thread) : (w.updThread lane f).V = w.V := rfl
@[simp] theorem Wave.updThread_S (w : Wave) (lane : Nat) (f : Thread → Thread) : (w.updThread lane f).S = w.S := rfl
@[simp] theorem Wave.updThread_priv (w : Wave) (lane : Nat) (f : Thread → Thread) : (w.updThread lane f).priv = w.priv := rfl
@[simp] theorem Wave.updThread_quadFlag (w : Wave) (lane : Nat) (f : Thread → Thread) : (w.updThread lane f).quadFlag = w.quadFlag := rfl
@[simp] theorem Wave.updThread_htbl (w : Wave) (lane : Nat) (f : Thread → Thread) : (w.updThread lane f).htbl = w.htbl := rfl
@[simp] theorem Wave.updThread_nbar (w : Wave) (lane : Nat) (f : Thread → Thread) : (w.updThread lane f).nbar = w.nbar := rfl
@[simp] theorem Wave.updThread_al2 (w : Wave) (lane : Nat) (f : Thread → Thread) : (w.updThread lane f).al2 = w.al2 := rfl
@[simp] theorem Wave.updThread_al3 (w : Wave) (lane : Nat) (f : Thread → Thread) : (w.updThread lane f).al3 = w.al3 := rfl
@[simp] theorem Wave.updThread_v (w : Wave) (lane : Nat) (f : Thread → Thread) : (w.updThread lane f).v = w.v := rfl
@[simp] theorem Wave.updThread_s (w : Wave) (lane : Nat) (f : Thread → Thread) : (w.updThread lane f).s = w.s := rfl
@[simp] theorem Wave.updThread_m (w : Wave) (lane : Nat) (f : Thread → Thread) : (w.updThread lane f).m = w.m := rfl
@[simp] theorem Wave.updThread_k (w : Wave) (lane : Nat) (f : Thread → Thread) : (w.updThread lane f).k = w.k := rfl
@[simp] theorem Wave.updThread_kfail (w : Wave) (lane : Nat) (f : Thread → Thread) : (w.updThread lane f).kfail = w.kfail := rfl
@[simp] theorem Wave.updThread_kview (w : Wave) (lane : Nat) (f : Thread → Thread) : (w.updThread lane f).kview = w.kview := rfl
@[simp] theorem Wave.updThread_w (w : Wave) (lane : Nat) (f : Thread → Thread) : (w.updThread lane f).w = w.w := rfl
@[simp] theorem Wave.updThread_g (w : Wave) (lane : Nat) (f : Thread → Thread) : (w.updThread lane f).g = w.g := rfl
@[simp] theorem Wave.updThread_n (w : Wave) (lane : Nat) (f : Thread → Thread) : (w.updThread lane f).n = w.n := rfl
@[simp] theorem Wave.updThread_ac (w : Wave) (lane : Nat) (f : Thread → Thread) : (w.updThread lane f).ac = w.ac := rfl
@[simp] theorem Wave.updThread_jg (w : Wave) (lane : Nat) (f : Thread → Thread) : (w.updThread lane f).jg = w.jg := rfl
@[simp] theorem Wave.updThread_jsite (w : Wave) (lane : Nat) (f : Thread → Thread) : (w.updThread lane f).jsite = w.jsite := rfl
@[simp] theorem Wave.updThread_msite (w : Wave) (lane : Nat) (f : Thread → Thread) : (w.updThread lane f).msite = w.msite := rfl
@[simp] theorem Wave.updThread_mview (w : Wave) (lane : Nat) (f : Thread → Thread) : (w.updThread lane f).mview = w.mview := rfl
@[simp] theorem Wave.updThread_uiPend (w : Wave) (lane : Nat) (f : Thread → Thread) : (w.updThread lane f).uiPend = w.uiPend := rfl
@[simp] theorem Wave.updThread_uiEn (w : Wave) (lane : Nat) (f : Thread → Thread) : (w.updThread lane f).uiEn = w.uiEn := rfl
@[simp] theorem Wave.updThread_uiRun (w : Wave) (lane : Nat) (f : Thread → Thread) : (w.updThread lane f).uiRun = w.uiRun := rfl
@[simp] theorem Wave.updThread_uiView (w : Wave) (lane : Nat) (f : Thread → Thread) : (w.updThread lane f).uiView = w.uiView := rfl

/-! ## Wave.setTok -/

@[simp] theorem Wave.setTok_uid (w : Wave) (j lane : Nat) (b : Bool) : (w.setTok j lane b).uid = w.uid := rfl
@[simp] theorem Wave.setTok_cl (w : Wave) (j lane : Nat) (b : Bool) : (w.setTok j lane b).cl = w.cl := rfl
@[simp] theorem Wave.setTok_core (w : Wave) (j lane : Nat) (b : Bool) : (w.setTok j lane b).core = w.core := rfl
@[simp] theorem Wave.setTok_quad (w : Wave) (j lane : Nat) (b : Bool) : (w.setTok j lane b).quad = w.quad := rfl
@[simp] theorem Wave.setTok_slot (w : Wave) (j lane : Nat) (b : Bool) : (w.setTok j lane b).slot = w.slot := rfl
@[simp] theorem Wave.setTok_bank (w : Wave) (j lane : Nat) (b : Bool) : (w.setTok j lane b).bank = w.bank := rfl
@[simp] theorem Wave.setTok_ctx (w : Wave) (j lane : Nat) (b : Bool) : (w.setTok j lane b).ctx = w.ctx := rfl
@[simp] theorem Wave.setTok_kind (w : Wave) (j lane : Nat) (b : Bool) : (w.setTok j lane b).kind = w.kind := rfl
@[simp] theorem Wave.setTok_gid (w : Wave) (j lane : Nat) (b : Bool) : (w.setTok j lane b).gid = w.gid := rfl
@[simp] theorem Wave.setTok_lid (w : Wave) (j lane : Nat) (b : Bool) : (w.setTok j lane b).lid = w.lid := rfl
@[simp] theorem Wave.setTok_rid (w : Wave) (j lane : Nat) (b : Bool) : (w.setTok j lane b).rid = w.rid := rfl
@[simp] theorem Wave.setTok_wg (w : Wave) (j lane : Nat) (b : Bool) : (w.setTok j lane b).wg = w.wg := rfl
@[simp] theorem Wave.setTok_widx (w : Wave) (j lane : Nat) (b : Bool) : (w.setTok j lane b).widx = w.widx := rfl
@[simp] theorem Wave.setTok_gangwg (w : Wave) (j lane : Nat) (b : Bool) : (w.setTok j lane b).gangwg = w.gangwg := rfl
@[simp] theorem Wave.setTok_grid (w : Wave) (j lane : Nat) (b : Bool) : (w.setTok j lane b).grid = w.grid := rfl
@[simp] theorem Wave.setTok_V (w : Wave) (j lane : Nat) (b : Bool) : (w.setTok j lane b).V = w.V := rfl
@[simp] theorem Wave.setTok_S (w : Wave) (j lane : Nat) (b : Bool) : (w.setTok j lane b).S = w.S := rfl
@[simp] theorem Wave.setTok_priv (w : Wave) (j lane : Nat) (b : Bool) : (w.setTok j lane b).priv = w.priv := rfl
@[simp] theorem Wave.setTok_quadFlag (w : Wave) (j lane : Nat) (b : Bool) : (w.setTok j lane b).quadFlag = w.quadFlag := rfl
@[simp] theorem Wave.setTok_htbl (w : Wave) (j lane : Nat) (b : Bool) : (w.setTok j lane b).htbl = w.htbl := rfl
@[simp] theorem Wave.setTok_nbar (w : Wave) (j lane : Nat) (b : Bool) : (w.setTok j lane b).nbar = w.nbar := rfl
@[simp] theorem Wave.setTok_al2 (w : Wave) (j lane : Nat) (b : Bool) : (w.setTok j lane b).al2 = w.al2 := rfl
@[simp] theorem Wave.setTok_al3 (w : Wave) (j lane : Nat) (b : Bool) : (w.setTok j lane b).al3 = w.al3 := rfl
@[simp] theorem Wave.setTok_threads (w : Wave) (j lane : Nat) (b : Bool) : (w.setTok j lane b).threads = w.threads := rfl
@[simp] theorem Wave.setTok_v (w : Wave) (j lane : Nat) (b : Bool) : (w.setTok j lane b).v = w.v := rfl
@[simp] theorem Wave.setTok_s (w : Wave) (j lane : Nat) (b : Bool) : (w.setTok j lane b).s = w.s := rfl
@[simp] theorem Wave.setTok_m (w : Wave) (j lane : Nat) (b : Bool) : (w.setTok j lane b).m = w.m := rfl
@[simp] theorem Wave.setTok_kfail (w : Wave) (j lane : Nat) (b : Bool) : (w.setTok j lane b).kfail = w.kfail := rfl
@[simp] theorem Wave.setTok_kview (w : Wave) (j lane : Nat) (b : Bool) : (w.setTok j lane b).kview = w.kview := rfl
@[simp] theorem Wave.setTok_w (w : Wave) (j lane : Nat) (b : Bool) : (w.setTok j lane b).w = w.w := rfl
@[simp] theorem Wave.setTok_g (w : Wave) (j lane : Nat) (b : Bool) : (w.setTok j lane b).g = w.g := rfl
@[simp] theorem Wave.setTok_n (w : Wave) (j lane : Nat) (b : Bool) : (w.setTok j lane b).n = w.n := rfl
@[simp] theorem Wave.setTok_ac (w : Wave) (j lane : Nat) (b : Bool) : (w.setTok j lane b).ac = w.ac := rfl
@[simp] theorem Wave.setTok_jg (w : Wave) (j lane : Nat) (b : Bool) : (w.setTok j lane b).jg = w.jg := rfl
@[simp] theorem Wave.setTok_jsite (w : Wave) (j lane : Nat) (b : Bool) : (w.setTok j lane b).jsite = w.jsite := rfl
@[simp] theorem Wave.setTok_msite (w : Wave) (j lane : Nat) (b : Bool) : (w.setTok j lane b).msite = w.msite := rfl
@[simp] theorem Wave.setTok_mview (w : Wave) (j lane : Nat) (b : Bool) : (w.setTok j lane b).mview = w.mview := rfl
@[simp] theorem Wave.setTok_uiPend (w : Wave) (j lane : Nat) (b : Bool) : (w.setTok j lane b).uiPend = w.uiPend := rfl
@[simp] theorem Wave.setTok_uiEn (w : Wave) (j lane : Nat) (b : Bool) : (w.setTok j lane b).uiEn = w.uiEn := rfl
@[simp] theorem Wave.setTok_uiRun (w : Wave) (j lane : Nat) (b : Bool) : (w.setTok j lane b).uiRun = w.uiRun := rfl
@[simp] theorem Wave.setTok_uiView (w : Wave) (j lane : Nat) (b : Bool) : (w.setTok j lane b).uiView = w.uiView := rfl

/-! ## Wave.clearFailed -/

@[simp] theorem Wave.clearFailed_uid (w : Wave) (j lane : Nat) : (w.clearFailed j lane).uid = w.uid := rfl
@[simp] theorem Wave.clearFailed_cl (w : Wave) (j lane : Nat) : (w.clearFailed j lane).cl = w.cl := rfl
@[simp] theorem Wave.clearFailed_core (w : Wave) (j lane : Nat) : (w.clearFailed j lane).core = w.core := rfl
@[simp] theorem Wave.clearFailed_quad (w : Wave) (j lane : Nat) : (w.clearFailed j lane).quad = w.quad := rfl
@[simp] theorem Wave.clearFailed_slot (w : Wave) (j lane : Nat) : (w.clearFailed j lane).slot = w.slot := rfl
@[simp] theorem Wave.clearFailed_bank (w : Wave) (j lane : Nat) : (w.clearFailed j lane).bank = w.bank := rfl
@[simp] theorem Wave.clearFailed_ctx (w : Wave) (j lane : Nat) : (w.clearFailed j lane).ctx = w.ctx := rfl
@[simp] theorem Wave.clearFailed_kind (w : Wave) (j lane : Nat) : (w.clearFailed j lane).kind = w.kind := rfl
@[simp] theorem Wave.clearFailed_gid (w : Wave) (j lane : Nat) : (w.clearFailed j lane).gid = w.gid := rfl
@[simp] theorem Wave.clearFailed_lid (w : Wave) (j lane : Nat) : (w.clearFailed j lane).lid = w.lid := rfl
@[simp] theorem Wave.clearFailed_rid (w : Wave) (j lane : Nat) : (w.clearFailed j lane).rid = w.rid := rfl
@[simp] theorem Wave.clearFailed_wg (w : Wave) (j lane : Nat) : (w.clearFailed j lane).wg = w.wg := rfl
@[simp] theorem Wave.clearFailed_widx (w : Wave) (j lane : Nat) : (w.clearFailed j lane).widx = w.widx := rfl
@[simp] theorem Wave.clearFailed_gangwg (w : Wave) (j lane : Nat) : (w.clearFailed j lane).gangwg = w.gangwg := rfl
@[simp] theorem Wave.clearFailed_grid (w : Wave) (j lane : Nat) : (w.clearFailed j lane).grid = w.grid := rfl
@[simp] theorem Wave.clearFailed_V (w : Wave) (j lane : Nat) : (w.clearFailed j lane).V = w.V := rfl
@[simp] theorem Wave.clearFailed_S (w : Wave) (j lane : Nat) : (w.clearFailed j lane).S = w.S := rfl
@[simp] theorem Wave.clearFailed_priv (w : Wave) (j lane : Nat) : (w.clearFailed j lane).priv = w.priv := rfl
@[simp] theorem Wave.clearFailed_quadFlag (w : Wave) (j lane : Nat) : (w.clearFailed j lane).quadFlag = w.quadFlag := rfl
@[simp] theorem Wave.clearFailed_htbl (w : Wave) (j lane : Nat) : (w.clearFailed j lane).htbl = w.htbl := rfl
@[simp] theorem Wave.clearFailed_nbar (w : Wave) (j lane : Nat) : (w.clearFailed j lane).nbar = w.nbar := rfl
@[simp] theorem Wave.clearFailed_al2 (w : Wave) (j lane : Nat) : (w.clearFailed j lane).al2 = w.al2 := rfl
@[simp] theorem Wave.clearFailed_al3 (w : Wave) (j lane : Nat) : (w.clearFailed j lane).al3 = w.al3 := rfl
@[simp] theorem Wave.clearFailed_threads (w : Wave) (j lane : Nat) : (w.clearFailed j lane).threads = w.threads := rfl
@[simp] theorem Wave.clearFailed_v (w : Wave) (j lane : Nat) : (w.clearFailed j lane).v = w.v := rfl
@[simp] theorem Wave.clearFailed_s (w : Wave) (j lane : Nat) : (w.clearFailed j lane).s = w.s := rfl
@[simp] theorem Wave.clearFailed_m (w : Wave) (j lane : Nat) : (w.clearFailed j lane).m = w.m := rfl
@[simp] theorem Wave.clearFailed_k (w : Wave) (j lane : Nat) : (w.clearFailed j lane).k = w.k := rfl
@[simp] theorem Wave.clearFailed_kview (w : Wave) (j lane : Nat) : (w.clearFailed j lane).kview = w.kview := rfl
@[simp] theorem Wave.clearFailed_w (w : Wave) (j lane : Nat) : (w.clearFailed j lane).w = w.w := rfl
@[simp] theorem Wave.clearFailed_g (w : Wave) (j lane : Nat) : (w.clearFailed j lane).g = w.g := rfl
@[simp] theorem Wave.clearFailed_n (w : Wave) (j lane : Nat) : (w.clearFailed j lane).n = w.n := rfl
@[simp] theorem Wave.clearFailed_ac (w : Wave) (j lane : Nat) : (w.clearFailed j lane).ac = w.ac := rfl
@[simp] theorem Wave.clearFailed_jg (w : Wave) (j lane : Nat) : (w.clearFailed j lane).jg = w.jg := rfl
@[simp] theorem Wave.clearFailed_jsite (w : Wave) (j lane : Nat) : (w.clearFailed j lane).jsite = w.jsite := rfl
@[simp] theorem Wave.clearFailed_msite (w : Wave) (j lane : Nat) : (w.clearFailed j lane).msite = w.msite := rfl
@[simp] theorem Wave.clearFailed_mview (w : Wave) (j lane : Nat) : (w.clearFailed j lane).mview = w.mview := rfl
@[simp] theorem Wave.clearFailed_uiPend (w : Wave) (j lane : Nat) : (w.clearFailed j lane).uiPend = w.uiPend := rfl
@[simp] theorem Wave.clearFailed_uiEn (w : Wave) (j lane : Nat) : (w.clearFailed j lane).uiEn = w.uiEn := rfl
@[simp] theorem Wave.clearFailed_uiRun (w : Wave) (j lane : Nat) : (w.clearFailed j lane).uiRun = w.uiRun := rfl
@[simp] theorem Wave.clearFailed_uiView (w : Wave) (j lane : Nat) : (w.clearFailed j lane).uiView = w.uiView := rfl

end Sys2Proof.Machine
end

