-- ==== Sys2Proof/Laws/Tables.lean ====
section
/-!
SUPPORT. The sorted tables: what a read gives after a write, and that a write keeps the canonical form.
-/

namespace Sys2Proof.Machine

variable {α : Type} [DecidableEq α] {d : α}

theorem Sparse.wfFrom_weaken {m : Sparse α} {lo : Option Nat} (h : Sparse.wfFrom d lo m = true) : Sparse.wfFrom d none m = true := by
  cases m with
  | nil => rfl
  | cons p m => simp only [Sparse.wfFrom, Bool.and_eq_true, Bool.true_and] at h ⊢; exact ⟨h.1.2, h.2⟩

/-- Keys above a bound are above every lower one. -/
theorem Sparse.wfFrom_lower {m : Sparse α} {a b : Nat} (hab : a ≤ b) (h : Sparse.wfFrom d (some b) m = true) :
    Sparse.wfFrom d (some a) m = true := by
  cases m with
  | nil => rfl
  | cons p m =>
    simp only [Sparse.wfFrom, Bool.and_eq_true, decide_eq_true_eq] at h ⊢
    exact ⟨⟨by omega, h.1.2⟩, h.2⟩

/-- Below the bound nothing is listed. -/
theorem Sparse.get_below {m : Sparse α} {b k : Nat} (h : Sparse.wfFrom d (some b) m = true) (hk : k ≤ b) : Sparse.get d m k = d := by
  induction m generalizing b with
  | nil => rfl
  | cons p m ih =>
    simp only [Sparse.wfFrom, Bool.and_eq_true, decide_eq_true_eq] at h
    have : p.1 ≠ k := by omega
    simp only [Sparse.get, this, if_false]
    exact ih h.2 (by omega)

omit [DecidableEq α] in
theorem Sparse.get_insert (m : Sparse α) (k j : Nat) (v : α) : Sparse.get d (Sparse.insert m k v) j = if j = k then v else Sparse.get d m j := by
  induction m with
  | nil => simp only [Sparse.insert, Sparse.get, eq_comm]
  | cons p m ih =>
    obtain ⟨q, u⟩ := p
    unfold Sparse.insert
    by_cases hj : j = k
    · subst hj
      split
      · simp [Sparse.get]
      · split
        · simp [Sparse.get]
        · next h => simp [Sparse.get, ih, h]
    · split
      · simp [Sparse.get, Ne.symm hj]
      · split
        · next h => subst h; simp [Sparse.get, Ne.symm hj]
        · simp [Sparse.get, ih, hj]

omit [DecidableEq α] in
theorem Sparse.get_remove (m : Sparse α) (k j : Nat) : Sparse.get d (m.filter (fun p => p.1 ≠ k)) j = if j = k then d else Sparse.get d m j := by
  induction m with
  | nil => simp [Sparse.get]
  | cons p m ih =>
    by_cases hp : p.1 = k
    · rw [List.filter_cons_of_neg (by simpa using hp), ih]
      by_cases hj : j = k
      · simp [hj]
      · have : p.1 ≠ j := by omega
        simp [hj, Sparse.get, this]
    · rw [List.filter_cons_of_pos (by simpa using hp)]
      simp only [Sparse.get, ih]
      by_cases hj : j = k
      · subst hj; simp [hp]
      · simp [hj]

/-- Every write reads back, and no other key changes. -/
theorem Sparse.get_put (m : Sparse α) (k j : Nat) (v : α) : Sparse.get d (Sparse.put d m k v) j = if j = k then v else Sparse.get d m j := by
  unfold Sparse.put
  split
  · next h => rw [Sparse.get_remove, h]
  · exact Sparse.get_insert m k j v

theorem Sparse.wfFrom_insert {m : Sparse α} {lo : Option Nat} (h : Sparse.wfFrom d lo m = true) (k : Nat) {v : α} (hv : v ≠ d)
    (hk : ∀ b, lo = some b → b < k) : Sparse.wfFrom d lo (Sparse.insert m k v) = true := by
  induction m generalizing lo with
  | nil => cases lo <;> simp_all [Sparse.insert, Sparse.wfFrom]
  | cons p m ih =>
    obtain ⟨q, u⟩ := p
    rcases Nat.lt_trichotomy k q with hq | hq | hq
    · cases lo <;> simp_all [Sparse.insert, Sparse.wfFrom]
    · subst hq; cases lo <;> simp_all [Sparse.insert, Sparse.wfFrom]
    · simp only [Sparse.wfFrom, Bool.and_eq_true] at h
      simp only [Sparse.insert, Nat.not_lt_of_gt hq, Nat.ne_of_lt hq, if_false, Sparse.wfFrom, Bool.and_eq_true]
      exact ⟨h.1, ih h.2 (fun b hb => by cases hb; exact hq)⟩

theorem Sparse.wfFrom_remove {m : Sparse α} {lo : Option Nat} (h : Sparse.wfFrom d lo m = true) (k : Nat) :
    Sparse.wfFrom d lo (m.filter (fun p => p.1 ≠ k)) = true := by
  induction m generalizing lo with
  | nil => rfl
  | cons p m ih =>
    have h' := h
    simp only [Sparse.wfFrom, Bool.and_eq_true] at h
    by_cases hp : p.1 = k
    · rw [List.filter_cons_of_neg (by simpa using hp)]
      refine ih ?_
      cases lo with
      | none => exact Sparse.wfFrom_weaken h.2
      | some b => exact Sparse.wfFrom_lower (Nat.le_of_lt (by simpa using h.1.1)) h.2
    · rw [List.filter_cons_of_pos (by simpa using hp)]
      simp only [Sparse.wfFrom, Bool.and_eq_true]
      exact ⟨h.1, ih h.2⟩

/-- A write keeps the canonical form. -/
theorem Sparse.wf_put {m : Sparse α} (h : Sparse.wf d m = true) (k : Nat) (v : α) : Sparse.wf d (Sparse.put d m k v) = true := by
  unfold Sparse.put
  split
  · exact Sparse.wfFrom_remove h k
  · next hv => exact Sparse.wfFrom_insert h k hv (fun _ hb => by cases hb)

/-- Two tables of canonical form that read alike are the same. -/
theorem Sparse.ext_of_wf {m n : Sparse α} (hm : Sparse.wf d m = true) (hn : Sparse.wf d n = true)
    (h : ∀ k, Sparse.get d m k = Sparse.get d n k) : m = n := by
  unfold Sparse.wf at hm hn
  induction m generalizing n with
  | nil =>
    cases n with
    | nil => rfl
    | cons p n =>
      simp only [Sparse.wfFrom, Bool.and_eq_true, decide_eq_true_eq] at hn
      have := h p.1; simp [Sparse.get] at this; exact absurd this.symm hn.1.2
  | cons p m ih =>
    cases n with
    | nil =>
      simp only [Sparse.wfFrom, Bool.and_eq_true, decide_eq_true_eq] at hm
      have := h p.1; simp [Sparse.get] at this; exact absurd this hm.1.2
    | cons q n =>
      obtain ⟨a, u⟩ := p
      obtain ⟨b, v⟩ := q
      simp only [Sparse.wfFrom, Bool.and_eq_true, decide_eq_true_eq, Bool.true_and] at hm hn
      rcases Nat.lt_trichotomy a b with hab | hab | hab
      · have := h a; simp [Sparse.get, Nat.ne_of_gt hab, Sparse.get_below hn.2 (Nat.le_of_lt hab)] at this; exact absurd this hm.1
      · subst hab
        have huv := h a; simp [Sparse.get] at huv
        subst huv
        have : m = n := ih (Sparse.wfFrom_weaken hm.2) (Sparse.wfFrom_weaken hn.2) (fun k => by
          rcases Nat.lt_or_ge a k with hk | hk
          · have := h k; simpa [Sparse.get, Nat.ne_of_lt hk] using this
          · rw [Sparse.get_below hm.2 hk, Sparse.get_below hn.2 hk])
        rw [this]
      · have := h b; simp [Sparse.get, Nat.ne_of_gt hab, Sparse.get_below hm.2 (Nat.le_of_lt hab)] at this; exact absurd this.symm hn.1

end Sys2Proof.Machine
end

