-- ==== Sys2Proof/Laws/Issue.lean ====
section
/-!
SUPPORT. What a packet of one thread does, whatever its instruction: lookups of waves and threads after an update, and the shapes of Issue.lean with one
lane.
-/

namespace Sys2Proof.Machine

/-! ## Waves and threads -/

theorem State.wave?_updWave (s : State) (u v : Nat) (f : Wave → Wave) (hf : ∀ w, (f w).uid = w.uid) :
    (s.updWave u f).wave? v = if v = u then (s.wave? v).map f else s.wave? v := by
  have key : ∀ l : List Wave, (l.map (fun w => if w.uid = u then f w else w)).find? (fun w => decide (w.uid = v)) =
      if v = u then (l.find? (fun w => decide (w.uid = v))).map f else l.find? (fun w => decide (w.uid = v)) := by
    intro l
    induction l with
    | nil => simp
    | cons w l ih =>
      by_cases hu : w.uid = u
      · by_cases hv : u = v
        · subst hv; simp_all [List.find?]
        · have hvu : ¬ v = u := fun h => hv h.symm
          simp_all [List.find?]
      · by_cases hv : w.uid = v
        · have hvu : ¬ v = u := fun h => hu (hv.trans h)
          simp [List.find?, hv, hvu]
        · simp [List.find?, hu, hv, ih]
  exact key s.waves

@[simp] theorem State.wave?_updThread (s : State) (u v l : Nat) (f : Thread → Thread) :
    (s.updThread u l f).wave? v = if v = u then (s.wave? v).map (fun w => w.updThread l f) else s.wave? v :=
  s.wave?_updWave u v _ (fun _ => rfl)

theorem Wave.thread_updThread (w : Wave) (l k : Nat) (f : Thread → Thread) (_ : f (w.thread l) ≠ Thread.absent) :
    (w.updThread l f).thread k = if k = l then f (w.thread l) else w.thread k :=
  Sparse.get_put w.threads l k _

/-- A thread after its own update. -/
theorem State.thread_updThread {s : State} {u : Nat} {w : Wave} (hw : s.wave? u = some w) (l : Nat) (f : Thread → Thread)
    (h : f (w.thread l) ≠ Thread.absent) : (s.updThread u l f).thread u l = f (w.thread l) := by
  simp [State.thread, hw, Wave.thread_updThread _ _ _ _ h]

/-- The other threads after an update of one. -/
theorem State.thread_updThread_other {s : State} {u : Nat} {w : Wave} (hw : s.wave? u = some w) (l v k : Nat) (f : Thread → Thread)
    (h : f (w.thread l) ≠ Thread.absent) (hne : ¬(v = u ∧ k = l)) : (s.updThread u l f).thread v k = s.thread v k := by
  by_cases hv : v = u
  · subst hv
    have hk : k ≠ l := fun e => hne ⟨rfl, e⟩
    simp [State.thread, hw, Wave.thread_updThread _ _ _ _ h, hk]
  · simp [State.thread, hv]

theorem State.updWave_id (s : State) (u : Nat) : s.updWave u (fun w => w) = s := by
  simp [State.updWave]

@[simp] theorem State.park_nil (s : State) (u : Nat) (pc : VA) : s.park u pc [] = s := rfl

/-! ## A packet of one thread -/

/-- Nothing happens at the end of the packet when the slot goes on or no resumption waits. -/
theorem State.endSlot_quiet {s : State} (h : s.packets = [] → s.tretQ = []) : s.endSlot = s := by
  unfold State.endSlot
  cases hp : s.packets with
  | nil => simp [h hp]; cases s; simp_all
  | cons p ps => rfl

/-- What binds the writes of a packet changes no packet. -/
theorem State.packets_packed (s : State) (e : Enc) (places : Ctx → State → Nat → Except LFault (List (Nat × Loc))) : (s.packed e places).packets = s.packets := by
  unfold State.packed
  split
  · rfl
  · simp only; split <;> rfl

theorem runPacketThen_group {s : State} {w : Wave} {ls : List Nat} {pc : VA} {e : Enc} (hs : Group s w ls pc) (hm : Able e w)
    (hon : guarded e w ls ≠ []) (body : Ctx → State → State × WaveOut) (post : Ctx → State → State) :
    runPacketThen e body post s =
      (post (ctxOf e w ls pc) ((body (ctxOf e w ls pc) (s.begun e w ls pc)).1.commit (ctxOf e w ls pc)
        (body (ctxOf e w ls pc) (s.begun e w ls pc)).2)).endSlot := by
  obtain ⟨p, ps, hp, hpc, hq⟩ := hs.head
  have hw : ({ s with packets := ps } : State).wave? w.uid = some w := hs.wave
  simp only [runPacketThen, hp, hq, hpc, List.foldl_cons, List.foldl_nil, State.begun, State.taken, List.tail_cons]
  congr 1
  simp only [runWave, hw]
  have hpr : (e.priv && !w.priv) = false := by
    have := hm.mode
    cases he : e.priv <;> cases hwp : w.priv <;> simp_all
  have hne : (List.filter (fun l => guardOn e.h (w.thread l)) ls).isEmpty = false := by
    cases h : List.filter (fun l => guardOn e.h (w.thread l)) ls with
    | nil => exact absurd h hon
    | cons => rfl
  simp [hm.regs, hpr, hne, ctxOf, guarded]

/-- No lane of a packet fails, and none has waited. -/
@[simp] theorem State.failLanes_nil (s : State) (c : Ctx) : s.failLanes c false [] = s := rfl

/-- A lane that completes is all that happens, but for lanes of a packet that has waited. -/
theorem State.commit_ok (s : State) (c : Ctx) (l : Nat) (o : LaneOut) :
    s.commit c { lanes := [(l, .ok o)] } = s.lanePassed (s.finishLane c l o) c := by
  simp [State.commit, State.updWave_id, State.lanePassed]

/-- A lane that faults parks with the lanes of its packet that fault. -/
theorem State.commit_fault (s : State) (c : Ctx) (l : Nat) (f : LFault) :
    s.commit c { lanes := [(l, .fault f)] } = s.failLanes c (s.again c) [(l, f)] := by
  simp [State.commit, State.updWave_id, LaneRes.open']

/-- A lane that traps has passed its instruction, and is parked. -/
theorem State.commit_trap (s : State) (c : Ctx) (l : Nat) (f : LFault) :
    s.commit c { lanes := [(l, .trap f)] } =
      ((s.failLanes c (s.again c) []).updThread c.uid l (fun t => { t with pc := c.next, age := 0 })).park c.uid c.pc [(l, f)] := by
  simp [State.commit, State.updThread]

end Sys2Proof.Machine
end

