-- ==== Sys2Proof/Laws/Results.lean ====
section
/-!
SUPPORT. Short results: what a register finally holds once a result has been issued, and what the completion of a lane leaves.
-/

namespace Sys2Proof.Machine

/-! ## finalReg -/

/-- The last value that the results on their way give a register. -/
def lastVal (ps : List Pend) (u : Nat) (r : RegRef) (x : Word) : Word :=
  (ps.filterMap (fun p => if p.uid = u then p.val r else none)).foldl (fun _ new => new) x

theorem State.finalReg_eq (s : State) (u : Nat) (r : RegRef) :
    s.finalReg u r = match s.wave? u with | none => 0 | some w => lastVal s.pend u r (w.reg r) := rfl

theorem lastVal_append (ps : List Pend) (p : Pend) (u : Nat) (r : RegRef) (x : Word) :
    lastVal (ps ++ [p]) u r x = if p.uid = u then (p.val r).getD (lastVal ps u r x) else lastVal ps u r x := by
  unfold lastVal
  rw [List.filterMap_append, List.foldl_append]
  by_cases h : p.uid = u
  · cases hv : p.val r <;> simp [h, hv]
  · simp [h]

theorem find?_filter_other {rs : List RegRef} {r : RegRef} (hr : r ∉ rs) (l : List (RegRef × Word)) :
    (l.filter (fun x => !rs.contains x.1)).find? (fun x => x.1 = r) = l.find? (fun x => x.1 = r) := by
  rw [List.find?_filter]
  congr 1
  funext x
  by_cases e : x.1 = r
  · simp [e, hr]
  · simp [e]

/-- The results that an issue discards do not matter to the registers it does not write. -/
theorem lastVal_cancel {rs : List RegRef} {r : RegRef} (hr : r ∉ rs) (ps : List Pend) (v : Nat) (ow : List Nat) (u : Nat) (x : Word) :
    lastVal (cancelPend ps v ow rs) u r x = lastVal ps u r x := by
  unfold lastVal cancelPend
  rw [List.filterMap_map]
  congr 1
  apply List.filterMap_congr
  intro p _
  simp only [Function.comp]
  split
  · have key := find?_filter_other hr p.regs
    split
    · rename_i hemp
      have : (p.regs.filter (fun x => !rs.contains x.1)) = [] := List.isEmpty_iff.mp hemp
      rw [this] at key
      simp only [Pend.val, ← key]
    · simp only [Pend.val, key]
  · rfl

theorem State.wave?_addPend (s : State) (p : Pend) (u : Nat) : (s.addPend p).wave? u = s.wave? u := by
  unfold State.addPend; split <;> rfl

@[simp] theorem State.thread_addPend (s : State) (p : Pend) (u l : Nat) : (s.addPend p).thread u l = s.thread u l := by
  simp [State.thread, State.wave?_addPend]

/-- A register after a result has been issued. -/
theorem State.finalReg_addPend (s : State) (p : Pend) (u : Nat) (r : RegRef) (hw : (s.wave? u).isSome) :
    (s.addPend p).finalReg u r = if u = p.uid then (p.val r).getD (s.finalReg u r) else s.finalReg u r := by
  obtain ⟨w, hw⟩ := Option.isSome_iff_exists.mp hw
  rw [State.finalReg_eq, State.finalReg_eq, State.wave?_addPend, hw]
  simp only
  unfold State.addPend
  split
  · rename_i h
    have hnil : p.regs = [] := by
      have : p.regs.isEmpty = true := by revert h; cases p.regs.isEmpty <;> simp
      exact List.isEmpty_iff.mp this
    simp [Pend.val, hnil]
  · simp only
    rw [lastVal_append]
    by_cases hu : p.uid = u
    · simp only [hu, if_true]
      by_cases hr : r ∈ p.regs.map (fun x => x.1)
      · obtain ⟨x, hx, rfl⟩ := List.mem_map.mp hr
        have : (p.val x.1).isSome := by simp [Pend.val, List.find?_isSome]; exact ⟨x.2, hx⟩
        obtain ⟨v, hv⟩ := Option.isSome_iff_exists.mp this
        simp [hv]
      · rw [lastVal_cancel hr]
    · have hu' : ¬ u = p.uid := fun e => hu e.symm
      simp only [hu, hu', if_false]
      unfold lastVal cancelPend
      rw [List.filterMap_map]
      congr 1
      apply List.filterMap_congr
      intro q _
      simp only [Function.comp]
      split
      · rename_i hq
        have hqu : q.uid = p.uid := by
          simp only [Bool.and_eq_true, decide_eq_true_eq] at hq; exact hq.1.1
        split <;> simp [hqu, hu]
      · rfl

theorem State.finalReg_updWave (s : State) (v : Nat) (f : Wave → Wave) (hf : ∀ w, (f w).uid = w.uid) (hr : ∀ w r, (f w).reg r = w.reg r)
    (u : Nat) (r : RegRef) : (s.updWave v f).finalReg u r = s.finalReg u r := by
  rw [State.finalReg_eq, State.finalReg_eq, State.wave?_updWave _ _ _ _ hf]
  by_cases h : u = v
  · simp only [h, if_true]
    cases hw : s.wave? v with
    | none => simp
    | some w => simp [hr]
  · simp [h]

@[simp] theorem State.finalReg_updThread (s : State) (v l : Nat) (f : Thread → Thread) (u : Nat) (r : RegRef) :
    (s.updThread v l f).finalReg u r = s.finalReg u r :=
  s.finalReg_updWave v (fun w => w.updThread l f) (fun _ => rfl) (fun _ r => by cases r <;> rfl) u r

@[simp] theorem State.finalReg_orFlags (s : State) (v l : Nat) (f : Flags) (u : Nat) (r : RegRef) :
    (s.orFlags v l f).finalReg u r = s.finalReg u r := State.finalReg_updThread ..

@[simp] theorem State.finalReg_resume (s : State) (v l : Nat) (pc : VA) (b : Bool) (u : Nat) (r : RegRef) :
    (s.resume v l pc b).finalReg u r = s.finalReg u r := State.finalReg_updThread ..

/-! ## The completion of a lane -/

@[simp] theorem LaneOut.pend_uid (o : LaneOut) (c : Ctx) (l : Nat) : (o.pend c l).uid = c.uid := by unfold LaneOut.pend; split <;> rfl
@[simp] theorem LaneOut.pend_owners (o : LaneOut) (c : Ctx) (l : Nat) : (o.pend c l).owners = [l] := by unfold LaneOut.pend; split <;> rfl

/-- The registers that a lane's result writes: none where it has met an uncorrectable sector. -/
theorem LaneOut.pend_regs (o : LaneOut) (c : Ctx) (l : Nat) : (o.pend c l).regs = if o.ue.isSome then [] else o.regs := by
  unfold LaneOut.pend; split <;> rfl

theorem State.wave?_finishLane_isSome (s : State) (c : Ctx) (l : Nat) (o : LaneOut) (u : Nat) :
    ((s.finishLane c l o).wave? u).isSome = (s.wave? u).isSome := by
  have key : ∀ (s : State) (f : Thread → Thread), ((s.updThread c.uid l f).wave? u).isSome = (s.wave? u).isSome := by
    intro s f; rw [State.wave?_updThread]; split <;> simp
  unfold State.finishLane
  simp only [key]
  split
  · exact key s _
  · rw [State.wave?_addPend]

theorem State.finalReg_finishLane (s : State) (c : Ctx) (l : Nat) (o : LaneOut) (u : Nat) (r : RegRef) (hw : (s.wave? u).isSome) :
    (s.finishLane c l o).finalReg u r = if u = c.uid then ((o.pend c l).val r).getD (s.finalReg u r) else s.finalReg u r := by
  unfold State.finishLane
  simp only [State.finalReg_updThread]
  split
  · rename_i h
    have : o.regs = [] := by
      have : o.regs.isEmpty = true := by revert h; cases o.regs.isEmpty <;> simp
      exact List.isEmpty_iff.mp this
    simp [LaneOut.pend_regs, Pend.val, this]
  · rw [State.finalReg_addPend _ _ _ _ hw, LaneOut.pend_uid]

/-- The thread of a lane that completes, apart from whether it settles. -/
def LaneOut.thread (o : LaneOut) (c : Ctx) (st : RunState) (clk : Nat) (t : Thread) : Thread :=
  let t := if o.regs.isEmpty && o.ue.isNone then { t with fl := t.fl ||| o.flags } else t
  let t := o.preds.foldl (fun t p => t.setPred p.1 p.2) t
  { t with pc := o.pc.getD (if staysAt o.st then c.pc else c.next), st := st, age := 0, since := clk, hseg := none }

theorem absent_st : Thread.absent.st = .notLaunched := rfl

theorem ne_absent {t : Thread} (h : t.st ≠ .notLaunched) : t ≠ Thread.absent := fun e => h (e ▸ rfl)

@[simp] theorem setPreds_st (ps : List (Nat × Bool)) (t : Thread) : (ps.foldl (fun t p => t.setPred p.1 p.2) t).st = t.st := by
  induction ps generalizing t with
  | nil => rfl
  | cons p ps ih => rw [List.foldl_cons, ih]; unfold Thread.setPred; split <;> rfl

@[simp] theorem setPreds_fl (ps : List (Nat × Bool)) (t : Thread) : (ps.foldl (fun t p => t.setPred p.1 p.2) t).fl = t.fl := by
  induction ps generalizing t with
  | nil => rfl
  | cons p ps ih => rw [List.foldl_cons, ih]; unfold Thread.setPred; split <;> rfl

/-- Setting predicates depends on the predicates alone. -/
theorem setPreds_p (ps : List (Nat × Bool)) {t t' : Thread} (h : t.p = t'.p) :
    (ps.foldl (fun t p => t.setPred p.1 p.2) t).p = (ps.foldl (fun t p => t.setPred p.1 p.2) t').p := by
  induction ps generalizing t t' with
  | nil => exact h
  | cons p ps ih =>
    rw [List.foldl_cons, List.foldl_cons]
    apply ih
    unfold Thread.setPred
    split <;> simp [h]

/-- The predicates of a lane that completes. -/
theorem LaneOut.thread_p (o : LaneOut) (c : Ctx) (st : RunState) (clk : Nat) (t : Thread) :
    (o.thread c st clk t).p = (o.preds.foldl (fun t p => t.setPred p.1 p.2) t).p := by
  unfold LaneOut.thread
  by_cases h : (o.regs.isEmpty && o.ue.isNone) = true
  · simp only [h, if_true]; exact setPreds_p _ rfl
  · simp only [h, if_false, Bool.false_eq_true]

/-- The flag word of a lane that completes: a register result carries its flags. -/
theorem LaneOut.thread_fl (o : LaneOut) (c : Ctx) (st : RunState) (clk : Nat) (t : Thread) :
    (o.thread c st clk t).fl = if o.regs.isEmpty && o.ue.isNone then t.fl ||| o.flags else t.fl := by
  unfold LaneOut.thread
  by_cases h : (o.regs.isEmpty && o.ue.isNone) = true
  · simp only [h, if_true, setPreds_fl]
  · simp only [h, if_false, Bool.false_eq_true, setPreds_fl]

theorem State.thread_of_wave {s : State} {u : Nat} {w : Wave} (h : s.wave? u = some w) (l : Nat) : s.thread u l = w.thread l := by
  simp [State.thread, h]

theorem State.thread_updThread' (s : State) (v l : Nat) (f : Thread → Thread) (h : f (s.thread v l) ≠ Thread.absent) (hv : (s.wave? v).isSome)
    (u k : Nat) : (s.updThread v l f).thread u k = if u = v ∧ k = l then f (s.thread v l) else s.thread u k := by
  obtain ⟨w, hw⟩ := Option.isSome_iff_exists.mp hv
  rw [State.thread_of_wave hw] at h ⊢
  by_cases hc : u = v ∧ k = l
  · rw [if_pos hc, hc.1, hc.2]; exact State.thread_updThread hw l f h
  · rw [if_neg hc]; exact State.thread_updThread_other hw l u k f h hc

theorem State.goOn_ne (s : State) (u l : Nat) (b : Bool) : s.goOn u l b ≠ .notLaunched := by
  unfold State.goOn; split <;> simp

/-- The threads once a lane has completed. -/
theorem State.thread_finishLane (s : State) (c : Ctx) (l : Nat) (o : LaneOut) (hw : (s.wave? c.uid).isSome)
    (hl : (s.thread c.uid l).st ≠ .notLaunched) (ho : o.st ≠ some .notLaunched) :
    ∃ st, st ≠ RunState.notLaunched ∧ (o.st = none → st = .ready ∨ st = .settling) ∧ (∀ x, o.st = some x → st = x) ∧
      ∀ u k, (s.finishLane c l o).thread u k = if u = c.uid ∧ k = l then o.thread c st s.clk (s.thread c.uid l) else s.thread u k := by
  have hgo : ∀ s' : State, o.st.getD (s'.goOn c.uid l c.e.h.s) ≠ .notLaunched := by
    intro s'
    cases h : o.st with
    | none => exact s'.goOn_ne _ _ _
    | some x => intro e; exact ho (by rw [h]; exact congrArg some e)
  have hst : ∀ s' : State, (o.st = none → o.st.getD (s'.goOn c.uid l c.e.h.s) = .ready ∨ o.st.getD (s'.goOn c.uid l c.e.h.s) = .settling) := by
    intro s' h; rw [h]; simp only [Option.getD_none, State.goOn]; split <;> simp
  have hsome : ∀ s' : State, ∀ x, o.st = some x → o.st.getD (s'.goOn c.uid l c.e.h.s) = x := by
    intro s' x h; rw [h]; rfl
  unfold State.finishLane
  by_cases hb : (o.regs.isEmpty && o.ue.isNone) = true
  · simp only [hb, if_true]
    refine ⟨o.st.getD ((s.orFlags c.uid l o.flags).goOn c.uid l c.e.h.s), hgo _, hst _, hsome _, fun u k => ?_⟩
    have h1 : ∀ u k, (s.orFlags c.uid l o.flags).thread u k =
        if u = c.uid ∧ k = l then { s.thread c.uid l with fl := (s.thread c.uid l).fl ||| o.flags } else s.thread u k :=
      fun u k => s.thread_updThread' c.uid l _ (ne_absent hl) hw u k
    have hw' : ((s.orFlags c.uid l o.flags).wave? c.uid).isSome := by
      simp only [State.orFlags, State.wave?_updThread]; simpa using hw
    rw [State.thread_updThread' _ _ _ _ (ne_absent (hgo _)) hw', h1]
    by_cases hc : u = c.uid ∧ k = l
    · simp only [hc, and_self, if_true, LaneOut.thread, hb, h1]; rfl
    · simp only [hc, if_false, h1]
  · simp only [hb, if_false, Bool.false_eq_true]
    refine ⟨o.st.getD ((s.addPend (o.pend c l)).goOn c.uid l c.e.h.s), hgo _, hst _, hsome _, fun u k => ?_⟩
    have hw' : ((s.addPend (o.pend c l)).wave? c.uid).isSome := by rw [State.wave?_addPend]; exact hw
    have hclk : (s.addPend (o.pend c l)).clk = s.clk := by unfold State.addPend; split <;> rfl
    have := State.thread_updThread' (s.addPend (o.pend c l)) c.uid l
      (fun t => { (o.preds.foldl (fun t p => t.setPred p.1 p.2) t) with
        pc := o.pc.getD (if staysAt o.st then c.pc else c.next), st := o.st.getD ((s.addPend (o.pend c l)).goOn c.uid l c.e.h.s), age := 0,
        since := (s.addPend (o.pend c l)).clk, hseg := none }) (ne_absent (hgo _)) hw' u k
    simp only [State.thread_addPend] at this
    refine this.trans ?_
    by_cases hc : u = c.uid ∧ k = l
    · simp only [hc, and_self, if_true, LaneOut.thread, hb, if_false, Bool.false_eq_true, hclk]
    · simp only [hc, if_false]

/-! ## The rest of the machine -/

theorem SameMachine.refl (s : State) : SameMachine s s := rfl

theorem SameMachine.trans {s t r : State} (h : SameMachine s t) (k : SameMachine t r) : SameMachine s r := by
  unfold SameMachine at *; rw [k, h]

theorem SameMachine.updWave (s : State) (u : Nat) (f : Wave → Wave) : SameMachine s (s.updWave u f) := rfl
theorem SameMachine.updThread (s : State) (u l : Nat) (f : Thread → Thread) : SameMachine s (s.updThread u l f) := rfl
theorem SameMachine.orFlags (s : State) (u l : Nat) (f : Flags) : SameMachine s (s.orFlags u l f) := rfl
theorem SameMachine.resume (s : State) (u l : Nat) (pc : VA) (b : Bool) : SameMachine s (s.resume u l pc b) := rfl

theorem SameMachine.addPend (s : State) (p : Pend) : SameMachine s (s.addPend p) := by
  unfold State.addPend; split <;> rfl

theorem SameMachine.finishLane (s : State) (c : Ctx) (l : Nat) (o : LaneOut) : SameMachine s (s.finishLane c l o) := by
  unfold State.finishLane
  refine SameMachine.trans ?_ (SameMachine.updThread _ _ _ _)
  split
  · exact SameMachine.orFlags ..
  · exact SameMachine.addPend ..

theorem SameMachine.foldl {α : Type} {f : State → α → State} (hf : ∀ s a, SameMachine s (f s a)) (l : List α) (s : State) :
    SameMachine s (l.foldl f s) := by
  induction l generalizing s with
  | nil => exact SameMachine.refl s
  | cons a l ih => exact (hf s a).trans (ih _)

theorem SameMachine.packets (s : State) (ps : List Packet) : SameMachine s { s with packets := ps } := rfl

theorem SameMachine.clk {s t : State} (h : SameMachine s t) : t.clk = s.clk := by rw [h]
theorem SameMachine.tretQ {s t : State} (h : SameMachine s t) : t.tretQ = s.tretQ := by rw [h]

@[simp] theorem State.packets_addPend (s : State) (p : Pend) : (s.addPend p).packets = s.packets := by
  unfold State.addPend; split <;> rfl

@[simp] theorem State.packets_finishLane (s : State) (c : Ctx) (l : Nat) (o : LaneOut) : (s.finishLane c l o).packets = s.packets := by
  unfold State.finishLane
  simp only [State.updThread_packets]
  split
  · rfl
  · exact State.packets_addPend ..

end Sys2Proof.Machine
end

