-- ==== Sys2Proof/Laws/Compute.lean ====
section
/-!
SUPPORT. What an instruction that only computes leaves, in every lane of a packet: the registers, predicates, flags and threads of Computed.
-/

namespace Sys2Proof.Machine

/-! ## The writes of a number into registers -/

theorem leWords_get (n x i : Nat) (h : i < n) : (leWords n x)[i]? = some (BitVec.ofNat 32 (x / 2 ^ (32 * i))) := by
  induction n generalizing x i with
  | zero => omega
  | succ n ih =>
    cases i with
    | zero => simp [leWords]
    | succ i =>
      simp only [leWords, List.getElem?_cons_succ]
      have e : 32 * (i + 1) = 32 + 32 * i := by ring
      rw [ih (x / 2 ^ 32) i (by omega), Nat.div_div_eq_div_mul, ← Nat.pow_add, e]

theorem leWords_length (n x : Nat) : (leWords n x).length = n := by
  induction n generalizing x with
  | zero => rfl
  | succ n ih => simp [leWords, ih]

/-- The register numbered `i` of kind `k`. -/
def regAt (lane : Nat) (k : Kind) (i : Nat) : RegRef := match k with | .v => .v i lane | _ => .s i

theorem regAt_inj {lane i j : Nat} {k : Kind} (h : regAt lane k i = regAt lane k j) : i = j := by
  unfold regAt at h; split at h <;> cases h <;> rfl

/-- Looking up a key in a list of numbered writes. -/
theorem find?_writes (lane : Nat) (k : Kind) (first : Nat) (is : List Nat) (ws : List Word) (hl : is.length = ws.length) (hn : is.Nodup)
    (j : Nat) (hj : j < is.length) :
    (((is.zip ws).map (fun p => (regAt lane k (first + p.1), p.2))).find? (fun y => y.1 = regAt lane k (first + is[j]))).map (fun y => y.2) =
      ws[j]? := by
  induction is generalizing ws j with
  | nil => simp at hj
  | cons i is ih =>
    cases ws with
    | nil => simp at hl
    | cons x ws =>
      cases j with
      | zero => simp
      | succ j =>
        have hj' : j < is.length := by simpa using hj
        have hne : ¬ regAt lane k (first + i) = regAt lane k (first + is[j]) := by
          intro e
          have := regAt_inj e
          have hi : i = is[j] := by omega
          exact (List.nodup_cons.mp hn).1 (hi ▸ List.getElem_mem hj')
        simp only [List.zip_cons_cons, List.map_cons, List.getElem_cons_succ, List.find?_cons, hne, decide_false, List.getElem?_cons_succ]
        exact ih ws (by simpa using hl) (List.nodup_cons.mp hn).2 j hj'

theorem regWrites_eq (lane : Nat) (k : Kind) (first n x : Nat) :
    regWrites lane k first n x = ((List.range n).zip (leWords n x)).map (fun p => (regAt lane k (first + p.1), p.2)) := rfl

theorem regWrites_find (lane : Nat) (k : Kind) (first n x i : Nat) (h : i < n) :
    ((regWrites lane k first n x).find? (fun y => y.1 = regAt lane k (first + i))).map (fun y => y.2) =
      some (BitVec.ofNat 32 (x / 2 ^ (32 * i))) := by
  rw [regWrites_eq]
  have := find?_writes lane k first (List.range n) (leWords n x) (by simp [leWords_length]) List.nodup_range i (by simpa using h)
  rw [List.getElem_range] at this
  rw [this, leWords_get n x i h]

theorem regWrites_mem {lane : Nat} {k : Kind} {first n x : Nat} {y : RegRef × Word} (h : y ∈ regWrites lane k first n x) :
    ∃ i, i < n ∧ y.1 = regAt lane k (first + i) := by
  rw [regWrites_eq, List.mem_map] at h
  obtain ⟨p, hp, rfl⟩ := h
  exact ⟨p.1, by simpa using (List.of_mem_zip hp).1, rfl⟩

theorem inRegs_regAt {lane : Nat} {k : Kind} {first n i : Nat} (hk : k = .v ∨ k = .s) (h : i < n) :
    inRegs lane k first n (regAt lane k (first + i)) = true := by
  rcases hk with rfl | rfl <;> simp [inRegs, regAt, h]

theorem regWrites_find_none (lane : Nat) (k : Kind) (first n x : Nat) (hk : k = .v ∨ k = .s) (r : RegRef)
    (h : inRegs lane k first n r = false) : (regWrites lane k first n x).find? (fun y => y.1 = r) = none := by
  rw [List.find?_eq_none]
  intro y hy e
  obtain ⟨i, hi, e'⟩ := regWrites_mem hy
  simp only [decide_eq_true_eq] at e
  rw [← e, e', inRegs_regAt hk hi] at h
  exact absurd h (by simp)

theorem regWrites_isEmpty (lane : Nat) (k : Kind) (first n x : Nat) : (regWrites lane k first n x).isEmpty = decide (n = 0) := by
  cases n with
  | zero => rfl
  | succ n =>
    have : (regWrites lane k first (n + 1) x).length = n + 1 := by simp [regWrites_eq, leWords_length]
    cases h : regWrites lane k first (n + 1) x with
    | nil => rw [h] at this; simp at this
    | cons => simp

/-! ## The lanes of a packet one after another -/

variable {c : Ctx} {o : Nat → LaneOut}

theorem wave?_fold_isSome (on : List Nat) (s : State) (u : Nat) :
    ((on.foldl (fun s l => s.finishLane c l (o l)) s).wave? u).isSome = (s.wave? u).isSome := by
  induction on generalizing s with
  | nil => rfl
  | cons l on ih => rw [List.foldl_cons, ih, State.wave?_finishLane_isSome]

theorem thread_fold (on : List Nat) (hn : on.Nodup) (s : State) (hw : (s.wave? c.uid).isSome)
    (hl : ∀ l ∈ on, (s.thread c.uid l).st ≠ .notLaunched) (ho : ∀ l, (o l).st ≠ some .notLaunched) :
    (∀ u k, ¬(u = c.uid ∧ k ∈ on) → (on.foldl (fun s l => s.finishLane c l (o l)) s).thread u k = s.thread u k) ∧
    (∀ k ∈ on, ∃ st, st ≠ RunState.notLaunched ∧ (on.foldl (fun s l => s.finishLane c l (o l)) s).thread c.uid k =
      (o k).thread c st s.clk (s.thread c.uid k)) := by
  induction on generalizing s with
  | nil => exact ⟨fun _ _ _ => rfl, fun _ h => absurd h (by simp)⟩
  | cons l on ih =>
    obtain ⟨st, hst, -, -, hth⟩ := s.thread_finishLane c l (o l) hw (hl l (by simp)) (ho l)
    have hn' := List.nodup_cons.mp hn
    have hw' : ((s.finishLane c l (o l)).wave? c.uid).isSome := by rw [State.wave?_finishLane_isSome]; exact hw
    have hl' : ∀ k ∈ on, ((s.finishLane c l (o l)).thread c.uid k).st ≠ .notLaunched := by
      intro k hk
      have hkl : k ≠ l := fun e => hn'.1 (e ▸ hk)
      rw [hth]; simp only [hkl, and_false, if_false]; exact hl k (by simp [hk])
    have hclk : (s.finishLane c l (o l)).clk = s.clk := (SameMachine.finishLane s c l (o l)).clk
    obtain ⟨h1, h2⟩ := ih hn'.2 _ hw' hl'
    constructor
    · intro u k hk
      rw [List.foldl_cons, h1 u k (fun e => hk ⟨e.1, by simp [e.2]⟩), hth, if_neg]
      rintro ⟨rfl, rfl⟩; exact hk ⟨rfl, by simp⟩
    · intro k hk
      rw [List.foldl_cons]
      by_cases hkl : k = l
      · subst hkl
        refine ⟨st, hst, ?_⟩
        rw [h1 _ _ (fun e => hn'.1 e.2), hth, if_pos ⟨rfl, rfl⟩]
      · obtain ⟨st', h', e⟩ := h2 k (by simpa [hkl] using hk)
        refine ⟨st', h', ?_⟩
        rw [e, hclk, hth, if_neg (fun e => hkl e.2)]

/-- Where every lane writes registers of its own only, a register holds what its own lane wrote. -/
theorem finalReg_fold (on : List Nat) (hn : on.Nodup) (s : State) (hw : (s.wave? c.uid).isSome)
    (hown : ∀ l, ∀ y ∈ (o l).regs, ∃ i, y.1 = .v i l) (hue : ∀ l, (o l).ue = none) (u : Nat) (r : RegRef) (hu : (s.wave? u).isSome) :
    (on.foldl (fun s l => s.finishLane c l (o l)) s).finalReg u r =
      match r with
      | .v i l => if u = c.uid ∧ l ∈ on then (((o l).regs.find? (fun y => y.1 = .v i l)).map (fun y => y.2)).getD (s.finalReg u r)
                  else s.finalReg u r
      | .s _ => s.finalReg u r := by
  have hval : ∀ l, (∀ i k, r = .v i k → k ≠ l) → ((o l).pend c l).val r = none := by
    intro l h
    simp only [Pend.val, LaneOut.pend_regs, hue, Option.isSome_none, Bool.false_eq_true, if_false, Option.map_eq_none_iff, List.find?_eq_none,
      decide_eq_true_eq]
    intro y hy e
    obtain ⟨i, hi⟩ := hown l y hy
    exact h i l (e ▸ hi) rfl
  induction on generalizing s with
  | nil => cases r <;> simp
  | cons l on ih =>
    have hn' := List.nodup_cons.mp hn
    have hw' : ((s.finishLane c l (o l)).wave? c.uid).isSome := by rw [State.wave?_finishLane_isSome]; exact hw
    have hu' : ((s.finishLane c l (o l)).wave? u).isSome := by rw [State.wave?_finishLane_isSome]; exact hu
    rw [List.foldl_cons, ih hn'.2 _ hw' hu', State.finalReg_finishLane _ _ _ _ _ _ hu]
    cases r with
    | s j => have := hval l (fun _ _ h => by cases h); simp [this]
    | v i k =>
      by_cases huc : u = c.uid
      · by_cases hk : k = l
        · subst hk
          simp [huc, hn'.1, Pend.val, LaneOut.pend_regs, hue]
        · have := hval l (fun _ _ h => by cases h; exact hk)
          simp [huc, hk, this]
      · simp [huc]

theorem mem_cancelPend {ps : List Pend} {p : Pend} (h : p ∈ ps) {u : Nat} {ow : List Nat} (hd : ∀ l ∈ ow, l ∉ p.owners) (rs : List RegRef) :
    p ∈ cancelPend ps u ow rs := by
  unfold cancelPend
  refine List.mem_map.mpr ⟨p, h, ?_⟩
  have : (ow.any (fun l => p.owners.contains l)) = false := by
    simp only [List.any_eq_false, List.contains_iff_mem]
    exact fun l hl => hd l hl
  simp only [this, Bool.and_false, Bool.false_and, Bool.false_eq_true, if_false]

/-- A result on its way that belongs to other lanes stays there when a lane completes. -/
theorem mem_pend_finishLane {s : State} {p : Pend} (h : p ∈ s.pend) {l : Nat} {o : LaneOut} (hl : l ∉ p.owners ∨ o.regs = [] ∧ o.ue = none) :
    p ∈ (s.finishLane c l o).pend := by
  unfold State.finishLane
  simp only [State.updThread_pend]
  split
  · exact h
  · rename_i hb
    rcases hl with hl | ⟨h1, h2⟩
    · unfold State.addPend
      split
      · exact h
      · refine List.mem_append_left _ (mem_cancelPend h ?_ _)
        simpa using hl
    · simp [h1, h2] at hb

/-- The result of a lane that has completed is on its way once the packet is over. -/
theorem pend_fold (on : List Nat) (hn : on.Nodup) (s : State) {k : Nat} (hk : k ∈ on) (hr : (o k).regs ≠ []) :
    ((o k).pend c k) ∈ (on.foldl (fun s l => s.finishLane c l (o l)) s).pend := by
  have keep : ∀ (on : List Nat) (s : State) (p : Pend), p ∈ s.pend → (∀ l ∈ on, l ∉ p.owners) →
      p ∈ (on.foldl (fun s l => s.finishLane c l (o l)) s).pend := by
    intro on
    induction on with
    | nil => intro s p h _; exact h
    | cons l on ih =>
      intro s p h hd
      rw [List.foldl_cons]
      exact ih _ _ (mem_pend_finishLane h (Or.inl (hd l (by simp)))) (fun j hj => hd j (by simp [hj]))
  induction on generalizing s with
  | nil => simp at hk
  | cons l on ih =>
    have hn' := List.nodup_cons.mp hn
    rw [List.foldl_cons]
    by_cases hkl : k = l
    · subst hkl
      refine keep _ _ _ ?_ (fun j hj => by
        rw [LaneOut.pend_owners]; simp only [List.mem_singleton]; exact fun e => hn'.1 (e ▸ hj))
      unfold State.finishLane
      simp only [State.updThread_pend]
      have h1 : ((o k).regs.isEmpty && (o k).ue.isNone) = false := by
        cases h : (o k).regs with
        | nil => exact absurd h hr
        | cons => rfl
      rw [h1]
      simp only [Bool.false_eq_true, if_false, State.addPend]
      split
      · rename_i h2
        have hz : ((o k).pend c k).regs = [] ∧ ((o k).pend c k).ue = none := by
          simp only [Bool.and_eq_true, List.isEmpty_iff, Option.isNone_iff_eq_none] at h2; exact ⟨h2.1.1, h2.2⟩
        unfold LaneOut.pend at hz
        split at hz
        · rename_i h3; rw [show (o k).ue = none from hz.2] at h3; cases h3
        · exact absurd hz.1 hr
      · exact List.mem_append_right _ (by simp)
    · exact ih hn'.2 _ (by simpa [hkl] using hk)

/-! ## The start of a packet -/

section Begun

variable {s : State} {e : Enc} {w : Wave} {ls : List Nat} {pc : VA}

theorem updThreads_thread (ls : List Nat) (hn : ls.Nodup) (w : Wave) (f : Thread → Thread) (hf : ∀ l ∈ ls, f (w.thread l) ≠ Thread.absent) (k : Nat) :
    (ls.foldl (fun w l => w.updThread l f) w).thread k = if k ∈ ls then f (w.thread k) else w.thread k := by
  induction ls generalizing w with
  | nil => simp
  | cons l ls ih =>
    have hn' := List.nodup_cons.mp hn
    have h1 := fun k => Wave.thread_updThread w l k f (hf l (by simp))
    rw [List.foldl_cons, ih hn'.2 _ (fun j hj => by
      rw [h1, if_neg (fun e : j = l => hn'.1 (by rw [← e]; exact hj))]; exact hf j (by simp [hj])), h1]
    by_cases hk : k = l
    · subst hk; simp [hn'.1]
    · simp [hk]

theorem updThreads_uid (ls : List Nat) (w : Wave) (f : Thread → Thread) : (ls.foldl (fun w l => w.updThread l f) w).uid = w.uid := by
  induction ls generalizing w with
  | nil => rfl
  | cons l ls ih => rw [List.foldl_cons, ih]; rfl

theorem updThreads_reg (ls : List Nat) (w : Wave) (f : Thread → Thread) (r : RegRef) : (ls.foldl (fun w l => w.updThread l f) w).reg r = w.reg r := by
  induction ls generalizing w with
  | nil => rfl
  | cons l ls ih => rw [List.foldl_cons, ih]; cases r <;> rfl

theorem State.finalReg_packets (s : State) (ps : List Packet) (u : Nat) (r : RegRef) : ({ s with packets := ps } : State).finalReg u r = s.finalReg u r := rfl

theorem State.finalReg_begun (s : State) (e : Enc) (w : Wave) (ls : List Nat) (pc : VA) (u : Nat) (r : RegRef) :
    (s.begun e w ls pc).finalReg u r = s.finalReg u r := by
  unfold State.begun State.taken
  have : ∀ (l : List Nat) (s : State), (l.foldl (fun s l => s.resume w.uid l (nextPc pc e.h.len) false) s).finalReg u r = s.finalReg u r := by
    intro l
    induction l with
    | nil => intro s; rfl
    | cons a l ih => intro s; rw [List.foldl_cons, ih]; simp
  rw [this, State.finalReg_updWave _ _ _ (fun w => updThreads_uid ls w _) (fun w r => updThreads_reg ls w _ r)]
  rfl

theorem SameMachine.begun (s : State) (e : Enc) (w : Wave) (ls : List Nat) (pc : VA) : SameMachine s (s.begun e w ls pc) :=
  SameMachine.trans (SameMachine.trans (SameMachine.packets s s.packets.tail) (SameMachine.updWave _ _ _))
    (SameMachine.foldl (fun s _ => SameMachine.resume s _ _ _ _) _ _)

theorem State.packets_begun (s : State) (e : Enc) (w : Wave) (ls : List Nat) (pc : VA) : (s.begun e w ls pc).packets = s.packets.tail := by
  unfold State.begun State.taken
  have : ∀ (l : List Nat) (s : State), (l.foldl (fun s l => s.resume w.uid l (nextPc pc e.h.len) false) s).packets = s.packets := by
    intro l
    induction l with
    | nil => intro s; rfl
    | cons a l ih => intro s; rw [List.foldl_cons, ih]; rfl
  rw [this]; rfl

/-- A thread of a packet as its execution begins. -/
def State.atStart (s : State) (t : Thread) : Thread := { t with age := 0, pkt := if t.hseg.isSome then t.pkt else s.tick }

theorem State.atStart_absent {s : State} {t : Thread} (h : t.st ≠ .notLaunched) : s.atStart t ≠ Thread.absent := fun e => h (congrArg Thread.st e)

@[simp] theorem State.atStart_fl (s : State) (t : Thread) : (s.atStart t).fl = t.fl := rfl

@[simp] theorem State.atStart_p (s : State) (t : Thread) : (s.atStart t).p = t.p := rfl

/-- The threads at the start of a packet. -/
theorem Group.thread_begun (hs : Group s w ls pc) :
    ((s.begun e w ls pc).wave? w.uid).isSome ∧
    (∀ u k, ¬(u = w.uid ∧ k ∈ ls) → (s.begun e w ls pc).thread u k = s.thread u k) ∧
    (∀ k ∈ guarded e w ls, (s.begun e w ls pc).thread w.uid k = s.atStart (w.thread k)) ∧
    (∀ k ∈ ls, k ∉ guarded e w ls → ∃ st, (s.begun e w ls pc).thread w.uid k = { s.atStart (w.thread k) with pc := nextPc pc e.h.len, st := st, age := 0 }) := by
  set s1 := ({ s with packets := s.packets.tail } : State).updWave w.uid (fun w => ls.foldl (fun w l => w.updThread l s.atStart) w) with hs1
  have hw0 : ({ s with packets := s.packets.tail } : State).wave? w.uid = some w := hs.wave
  have hwave : ∀ u, s1.wave? u = if u = w.uid then (s.wave? u).map (fun w => ls.foldl (fun w l => w.updThread l s.atStart) w) else s.wave? u :=
    fun u => State.wave?_updWave _ _ _ _ (fun w => updThreads_uid ls w _)
  have hth : ∀ u k, s1.thread u k = if u = w.uid ∧ k ∈ ls then s.atStart (w.thread k) else s.thread u k := by
    intro u k
    by_cases hu : u = w.uid
    · subst hu
      have := updThreads_thread ls hs.once w s.atStart (fun l hl => State.atStart_absent (hs.launched l hl)) k
      simp only [State.thread, hwave, if_true, hs.wave, Option.map_some, this, true_and]
    · simp [State.thread, hwave, hu]
  have hfold : ∀ (off : List Nat) (s1 : State), off.Nodup → (s1.wave? w.uid).isSome →
      ((off.foldl (fun s l => s.resume w.uid l (nextPc pc e.h.len) false) s1).wave? w.uid).isSome ∧
      ∀ u k, ∃ st, (off.foldl (fun s l => s.resume w.uid l (nextPc pc e.h.len) false) s1).thread u k =
        if u = w.uid ∧ k ∈ off then { s1.thread u k with pc := nextPc pc e.h.len, st := st, age := 0 } else s1.thread u k := by
    intro off
    induction off with
    | nil => intro s1 _ h; exact ⟨h, fun u k => ⟨.ready, by simp⟩⟩
    | cons l off ih =>
      intro s1 hn h
      have hn' := List.nodup_cons.mp hn
      have hone : ∀ u k, (s1.resume w.uid l (nextPc pc e.h.len) false).thread u k =
          if u = w.uid ∧ k = l then { s1.thread w.uid l with pc := nextPc pc e.h.len, st := s1.goOn w.uid l false, age := 0 } else s1.thread u k :=
        fun u k => State.thread_updThread' s1 w.uid l _ (ne_absent (State.goOn_ne s1 w.uid l false)) h u k
      have h' : ((s1.resume w.uid l (nextPc pc e.h.len) false).wave? w.uid).isSome := by
        simp only [State.resume, State.wave?_updThread, if_true]; simpa using h
      obtain ⟨ih1, ih2⟩ := ih _ hn'.2 h'
      refine ⟨by rw [List.foldl_cons]; exact ih1, fun u k => ?_⟩
      obtain ⟨st, hst⟩ := ih2 u k
      rw [List.foldl_cons, hst]
      by_cases hk : u = w.uid ∧ k = l
      · obtain ⟨rfl, rfl⟩ := hk
        exact ⟨s1.goOn w.uid k false, by simp [hn'.1, hone]⟩
      · have : (u = w.uid ∧ k ∈ l :: off) ↔ (u = w.uid ∧ k ∈ off) := by
          constructor
          · rintro ⟨a, b⟩; exact ⟨a, (List.mem_cons.mp b).resolve_left (fun e => hk ⟨a, e⟩)⟩
          · rintro ⟨a, b⟩; exact ⟨a, List.mem_cons_of_mem _ b⟩
        refine ⟨st, ?_⟩
        rw [hone, if_neg hk]
        simp only [this]
  have hs1w : (s1.wave? w.uid).isSome := by rw [hwave]; simp [hs.wave]
  obtain ⟨f1, f2⟩ := hfold (ls.filter (fun l => !guardOn e.h (w.thread l))) s1 (hs.once.filter _) hs1w
  refine ⟨f1, fun u k hk => ?_, fun k hk => ?_, fun k hk hno => ?_⟩
  · obtain ⟨st, hst⟩ := f2 u k
    refine hst.trans ?_
    rw [if_neg (fun h => hk ⟨h.1, (List.mem_filter.mp h.2).1⟩), hth, if_neg hk]
  · obtain ⟨st, hst⟩ := f2 w.uid k
    obtain ⟨hkl, hkg⟩ := List.mem_filter.mp hk
    refine hst.trans ?_
    rw [if_neg (fun h => by simpa [hkg] using (List.mem_filter.mp h.2).2), hth, if_pos ⟨rfl, hkl⟩]
  · obtain ⟨st, hst⟩ := f2 w.uid k
    have hoff : k ∈ ls.filter (fun l => !guardOn e.h (w.thread l)) := by
      refine List.mem_filter.mpr ⟨hk, ?_⟩
      by_contra hc
      exact hno (List.mem_filter.mpr ⟨hk, by simpa using hc⟩)
    refine ⟨st, hst.trans ?_⟩
    rw [if_pos ⟨rfl, hoff⟩, hth, if_pos ⟨rfl, hk⟩]

/-- No lane issues again where no thread of the packet has an access that has waited. -/
theorem Group.again_begun (hs : Group s w ls pc) (hh : ∀ l ∈ ls, (w.thread l).hseg = none) : (s.begun e w ls pc).again (ctxOf e w ls pc) = false := by
  obtain ⟨-, -, h1, h2⟩ := hs.thread_begun (e := e)
  simp only [State.again, ctxOf, List.any_eq_false]
  intro l hl
  by_cases hg : l ∈ guarded e w ls
  · rw [h1 l hg]; simpa [State.atStart] using hh l hl
  · obtain ⟨st, h⟩ := h2 l hl hg
    rw [h]; simpa [State.atStart] using hh l hl

end Begun

/-! ## The whole packet -/

/-- The effect of a result in a lane. -/
def Res.out (r : Res) (e : Enc) (l : Nat) : LaneOut := { regs := regWrites l (resKind e) e.h.d.toNat r.n r.val, preds := r.preds, flags := r.flags, rflags := r.regFlags e l }

/-- The flags of one register of a result name a register that the result writes. -/
theorem Res.regFlags_mem {r : Res} {e : Enc} {l : Nat} {x : RegRef × Flags} (h : x ∈ r.regFlags e l) :
    ∃ y, (x.1, y) ∈ regWrites l (resKind e) e.h.d.toNat r.n r.val := by
  obtain ⟨y, hy, he⟩ := List.mem_map.mp (List.of_mem_zip (List.mem_filter.mp h).1).1
  exact ⟨y.2, by rw [← he]; exact hy⟩

/-- Under U = 1 the lane does not matter. -/
theorem Res.regFlags_uniform {e : Enc} (hu : e.h.u = true) (r : Res) (l k : Nat) : r.regFlags e l = r.regFlags e k := by
  simp [Res.regFlags, hu, regWrites_eq, regAt]

theorem State.commit_all {s : State} {c : Ctx} (h : s.again c = false) (o : Nat → LaneOut) :
    s.commit c { lanes := c.on.map (fun l => (l, .ok (o l))) } = c.on.foldl (fun s l => s.finishLane c l (o l)) s := by
  simp [State.commit, State.updWave_id, List.filterMap_map, List.foldl_map, h]

theorem packets_fold (on : List Nat) (s : State) : (on.foldl (fun s l => s.finishLane c l (o l)) s).packets = s.packets := by
  induction on generalizing s with
  | nil => rfl
  | cons l on ih => rw [List.foldl_cons, ih, State.packets_finishLane]

/-- A vector instruction of which every lane completes with a result. -/
theorem runPacket_computed {s : State} {e : Enc} {w : Wave} {ls : List Nat} {pc : VA} (hs : Group s w ls pc) (hm : Able e w)
    (hon : guarded e w ls ≠ []) (hh : ∀ l ∈ ls, (w.thread l).hseg = none) (hu : e.h.u = false) (g : Nat → Res) (body : Ctx → State → State × WaveOut)
    (hb : body (ctxOf e w ls pc) (s.begun e w ls pc) =
      (s.begun e w ls pc, { lanes := (guarded e w ls).map (fun l => (l, .ok ((g l).out e l))) })) :
    Computed s (runPacket e body s) e w ls pc g := by
  have hrun : runPacket e body s = (guarded e w ls).foldl (fun s l => s.finishLane (ctxOf e w ls pc) l ((g l).out e l)) (s.begun e w ls pc) := by
    rw [runPacket, runPacketThen_group hs hm hon]
    simp only [hb]
    rw [show (guarded e w ls) = (ctxOf e w ls pc).on from rfl, State.commit_all (hs.again_begun hh)]
    apply State.endSlot_quiet
    intro hp
    rw [packets_fold, State.packets_begun] at hp
    have hsame := (SameMachine.begun s e w ls pc).trans
      (SameMachine.foldl (fun s l => SameMachine.finishLane s (ctxOf e w ls pc) l ((g l).out e l)) (ctxOf e w ls pc).on (s.begun e w ls pc))
    rw [hsame.tretQ]
    apply hs.quiet
    obtain ⟨p, ps, hps, -, -⟩ := hs.head
    rw [hps] at hp ⊢
    simp only [List.tail_cons] at hp
    simp [hp]
  obtain ⟨bw, bother, bon, boff⟩ := hs.thread_begun (e := e)
  have hnd : (guarded e w ls).Nodup := hs.once.filter _
  have hsub : ∀ l ∈ guarded e w ls, l ∈ ls := fun l hl => (List.mem_filter.mp hl).1
  have hk : resKind e = .v := by simp [resKind, hu]
  obtain ⟨t1, t2⟩ := thread_fold (c := ctxOf e w ls pc) (o := fun l => (g l).out e l) (guarded e w ls) hnd (s.begun e w ls pc) bw
    (fun l hl => by
      have := bon l hl
      rw [show (ctxOf e w ls pc).uid = w.uid from rfl, this]
      exact hs.launched l (hsub l hl))
    (fun l => by simp [Res.out])
  have hown : ∀ l, ∀ y ∈ ((g l).out e l).regs, ∃ i, y.1 = .v i l := by
    intro l y hy
    obtain ⟨i, -, hi⟩ := regWrites_mem hy
    exact ⟨_, by rw [hi, hk]; rfl⟩
  have hfin := fun u r hu' => finalReg_fold (c := ctxOf e w ls pc) (o := fun l => (g l).out e l) (guarded e w ls) hnd (s.begun e w ls pc) bw hown (fun _ => rfl) u r hu'
  rw [hrun]
  refine ⟨?_, ?_, ?_, ?_, ?_, ?_, ?_, ?_, ?_⟩
  · intro l hl i hi
    rw [hk]
    have hf := regWrites_find l .v e.h.d.toNat (g l).n (g l).val i hi
    refine (hfin w.uid (.v (e.h.d.toNat + i) l) bw).trans ?_
    simp only [hl, and_self, if_true, ctxOf, Res.out, hk]
    have e2 := congrArg (fun o => o.getD ((s.begun e w ls pc).finalReg w.uid (.v (e.h.d.toNat + i) l))) hf
    exact e2
  · intro u r hno
    by_cases hsu : (s.wave? u).isSome
    · have hbu : ((s.begun e w ls pc).wave? u).isSome := by
        by_cases h : u = w.uid
        · subst h; exact bw
        · have : ∀ (l : List Nat) (s1 : State), ((l.foldl (fun s l => s.resume w.uid l (nextPc pc e.h.len) false) s1).wave? u) = s1.wave? u := by
            intro l
            induction l with
            | nil => intro s1; rfl
            | cons a l ih => intro s1; rw [List.foldl_cons, ih]; simp [State.resume, h]
          unfold State.begun State.taken
          rw [this, State.wave?_updWave _ _ _ _ (fun w => updThreads_uid ls w _), if_neg h]
          exact hsu
      rw [hfin u r hbu]
      cases r with
      | s j => exact State.finalReg_begun ..
      | v i k =>
        simp only [State.finalReg_begun]
        by_cases hc : u = (ctxOf e w ls pc).uid ∧ k ∈ guarded e w ls
        · have := hno k hc.2 hc.1
          rw [hk] at this
          simp only [hc, and_self, if_true, Res.out, hk]
          rw [regWrites_find_none _ _ _ _ _ (Or.inl rfl) _ this]; rfl
        · simp only [hc, if_false]
    · have hn : ∀ t : State, SameMachine s t → True := fun _ _ => trivial
      have hz : ∀ (t : State), (t.wave? u).isSome = false → t.finalReg u r = 0 := by
        intro t ht
        rw [State.finalReg_eq]
        cases h : t.wave? u with
        | none => rfl
        | some _ => rw [h] at ht; simp at ht
      have hsf : (s.wave? u).isSome = false := by simpa using hsu
      have hne : u ≠ w.uid := fun h => by subst h; rw [hs.wave] at hsf; simp at hsf
      rw [hz s hsf]
      apply hz
      rw [wave?_fold_isSome]
      have : ∀ (l : List Nat) (s1 : State), ((l.foldl (fun s l => s.resume w.uid l (nextPc pc e.h.len) false) s1).wave? u) = s1.wave? u := by
        intro l
        induction l with
        | nil => intro s1; rfl
        | cons a l ih => intro s1; rw [List.foldl_cons, ih]; simp [State.resume, hne]
      unfold State.begun State.taken
      rw [this, State.wave?_updWave _ _ _ _ (fun w => updThreads_uid ls w _), if_neg hne]
      exact hsf
  · intro l hl
    obtain ⟨st, -, ht⟩ := t2 l hl
    rw [show (ctxOf e w ls pc).uid = w.uid from rfl, bon l hl] at ht
    rw [ht]
    rw [LaneOut.thread_p]
    exact setPreds_p _ rfl
  · intro l hl
    obtain ⟨st, -, ht⟩ := t2 l hl
    rw [show (ctxOf e w ls pc).uid = w.uid from rfl, bon l hl] at ht
    rw [ht]
    rw [LaneOut.thread_fl]
    by_cases hn : (g l).n = 0 <;> simp [Res.out, regWrites_isEmpty, hn]
  · intro l hl hn hf
    refine ⟨_, pend_fold (c := ctxOf e w ls pc) (o := fun l => (g l).out e l) (guarded e w ls) hnd (s.begun e w ls pc) hl ?_, ?_, ?_⟩
    · intro h
      have := regWrites_isEmpty l (resKind e) e.h.d.toNat (g l).n (g l).val
      simp only [Res.out] at h
      rw [h] at this
      simp [hn] at this
    · exact LaneOut.pend_uid ..
    · unfold LaneOut.pend Res.out
      rw [if_neg (by simp), if_neg hf]
      exact List.mem_singleton.mpr rfl
  · intro l hl x hx
    obtain ⟨y, hy⟩ := Res.regFlags_mem hx
    refine ⟨_, pend_fold (c := ctxOf e w ls pc) (o := fun l => (g l).out e l) (guarded e w ls) hnd (s.begun e w ls pc) hl ?_, ?_, ?_⟩
    · exact List.ne_nil_of_mem hy
    · exact LaneOut.pend_uid ..
    · unfold LaneOut.pend
      rw [if_neg (by simp [Res.out])]
      exact ⟨⟨y, hy⟩, hx⟩
  · intro l hl
    by_cases hg : l ∈ guarded e w ls
    · obtain ⟨st, -, ht⟩ := t2 l hg
      rw [show (ctxOf e w ls pc).uid = w.uid from rfl] at ht
      rw [ht]; rfl
    · rw [t1 w.uid l (fun h => hg h.2)]
      obtain ⟨st, h⟩ := boff l hl hg
      rw [h]
  · intro u l hul
    rw [t1 u l (fun h => hul ⟨h.1, hsub l h.2⟩), bother u l hul]
  · exact (SameMachine.begun s e w ls pc).trans
      (SameMachine.foldl (fun s l => SameMachine.finishLane s (ctxOf e w ls pc) l ((g l).out e l)) _ _)

theorem begun_isSome {s : State} {w : Wave} {ls : List Nat} {pc : VA} (hs : Group s w ls pc) (e : Enc) (u : Nat) :
    ((s.begun e w ls pc).wave? u).isSome = (s.wave? u).isSome := by
  by_cases h : u = w.uid
  · subst h; rw [hs.thread_begun.1, hs.wave]; rfl
  · have : ∀ (l : List Nat) (s1 : State), ((l.foldl (fun s l => s.resume w.uid l (nextPc pc e.h.len) false) s1).wave? u) = s1.wave? u := by
      intro l
      induction l with
      | nil => intro s1; rfl
      | cons a l ih => intro s1; rw [List.foldl_cons, ih]; simp [State.resume, h]
    unfold State.begun State.taken
    rw [this, State.wave?_updWave _ _ _ _ (fun w => updThreads_uid ls w _), if_neg h]
    rfl

theorem State.finalReg_none {s : State} {u : Nat} (h : (s.wave? u).isSome = false) (r : RegRef) : s.finalReg u r = 0 := by
  rw [State.finalReg_eq]
  cases hw : s.wave? u with
  | none => rfl
  | some _ => rw [hw] at h; simp at h

/-- A uniform instruction that completes with a result. -/
theorem runPacket_uniform {s : State} {e : Enc} {w : Wave} {ls : List Nat} {pc : VA} (hs : Group s w ls pc) (hm : Able e w)
    (hon : guarded e w ls ≠ []) (hh : ∀ l ∈ ls, (w.thread l).hseg = none) (hu : e.h.u = true) (r : Res) (body : Ctx → State → State × WaveOut)
    (hb : body (ctxOf e w ls pc) (s.begun e w ls pc) =
      (s.begun e w ls pc, { lanes := (guarded e w ls).map (fun l => (l, .ok { preds := r.preds, flags := r.flags })),
                            sregs := regWrites 0 .s e.h.d.toNat r.n r.val, rflags := r.regFlags e 0 })) :
    Computed s (runPacket e body s) e w ls pc (fun _ => r) := by
  set c := ctxOf e w ls pc with hc
  set o : LaneOut := { preds := r.preds, flags := if r.n = 0 then r.flags else 0 } with ho
  set p : Pend := ⟨w.uid, guarded e w ls, regWrites 0 .s e.h.d.toNat r.n r.val,
    (guarded e w ls).filterMap (fun l => if r.flags ≠ 0 then some (l, r.flags) else none), none, r.regFlags e 0⟩ with hp
  set b := s.begun e w ls pc with hbg
  set s1 := if p.regs.isEmpty then b else b.addPend p with hs1
  have hsame1 : SameMachine b s1 := by
    rw [hs1]; split
    · exact SameMachine.refl _
    · exact SameMachine.addPend ..
  have hth1 : ∀ u l, s1.thread u l = b.thread u l := by
    intro u l; rw [hs1]; split
    · rfl
    · exact State.thread_addPend ..
  have hw1 : ∀ u, s1.wave? u = b.wave? u := by
    intro u; rw [hs1]; split
    · rfl
    · exact State.wave?_addPend ..
  have hpk1 : s1.packets = b.packets := by
    rw [hs1]; split
    · rfl
    · exact State.packets_addPend ..
  have hrun : runPacket e body s = (guarded e w ls).foldl (fun s l => s.finishLane c l o) s1 := by
    rw [runPacket, runPacketThen_group hs hm hon]
    simp only [← hc, ← hbg, hb]
    have hcm : b.commit c { lanes := (guarded e w ls).map (fun l => (l, .ok { preds := r.preds, flags := r.flags })), sregs := regWrites 0 .s e.h.d.toNat r.n r.val, rflags := r.regFlags e 0 } =
        (guarded e w ls).foldl (fun s l => s.finishLane c l o) s1 := by
      have he := regWrites_isEmpty 0 .s e.h.d.toNat r.n r.val
      have hsf : ∀ rs fs, (⟨(guarded e w ls).map (fun l => (l, LaneRes.ok { preds := r.preds, flags := r.flags })), rs, fs⟩ : WaveOut).scalarFlags = p.flags := by
        intro rs fs
        simp only [WaveOut.scalarFlags, List.filterMap_map, hp, Function.comp_def, List.isEmpty_nil, Bool.true_and, decide_eq_true_eq]
      have ho' : (if (regWrites 0 .s e.h.d.toNat r.n r.val).isEmpty || !(([] : List (RegRef × Word)).isEmpty) then
          ({ preds := r.preds, flags := r.flags } : LaneOut) else { ({ preds := r.preds, flags := r.flags } : LaneOut) with flags := 0 }) = o := by
        rw [he, ho]; by_cases hn : r.n = 0 <;> simp [hn]
      simp only [State.commit, hsf, List.foldl_map, List.filterMap_map]
      simp only [ho']
      have hag := hs.again_begun (e := e) hh
      rw [← hc, ← hbg] at hag
      simp [State.updWave_id, hs1, hp, hag, show c.uid = w.uid from rfl, show c.on = guarded e w ls from rfl]
    rw [hcm]
    apply State.endSlot_quiet
    intro h
    have hpf : ((guarded e w ls).foldl (fun s l => s.finishLane c l o) s1).packets = s1.packets := packets_fold (o := fun _ => o) _ _
    rw [hpf, hpk1, hbg, State.packets_begun] at h
    rw [((SameMachine.begun s e w ls pc).trans (hsame1.trans
      (SameMachine.foldl (fun s l => SameMachine.finishLane s c l o) _ s1))).tretQ]
    apply hs.quiet
    obtain ⟨p, ps, hps, -, -⟩ := hs.head
    rw [hps] at h ⊢
    simp only [List.tail_cons] at h
    simp [h]
  obtain ⟨bw, bother, bon, boff⟩ := hs.thread_begun (e := e)
  have hnd : (guarded e w ls).Nodup := hs.once.filter _
  have hsub : ∀ l ∈ guarded e w ls, l ∈ ls := fun l hl => (List.mem_filter.mp hl).1
  have hk : resKind e = .s := by simp [resKind, hu]
  have hw1c : (s1.wave? c.uid).isSome := by rw [hw1]; exact bw
  obtain ⟨t1, t2⟩ := thread_fold (c := c) (o := fun _ => o) (guarded e w ls) hnd s1 hw1c
    (fun l hl => by
      rw [hth1, show c.uid = w.uid from rfl, hbg, bon l hl]
      exact hs.launched l (hsub l hl))
    (fun l => by simp [ho])
  have hfin := fun u r' hu' => finalReg_fold (c := c) (o := fun _ => o) (guarded e w ls) hnd s1 hw1c
    (fun l y hy => by simp [ho] at hy) (fun _ => rfl) u r' hu'
  have hfin' : ∀ u r', (s.wave? u).isSome → ((guarded e w ls).foldl (fun s l => s.finishLane c l o) s1).finalReg u r' =
      if u = w.uid then (p.val r').getD (s.finalReg u r') else s.finalReg u r' := by
    intro u r' hsu
    have hbu : (b.wave? u).isSome := by rw [hbg, begun_isSome hs]; exact hsu
    have h1 : s1.finalReg u r' = if u = w.uid then (p.val r').getD (s.finalReg u r') else s.finalReg u r' := by
      rw [hs1]
      split
      · rename_i h
        have : p.regs = [] := List.isEmpty_iff.mp h
        simp [Pend.val, this, hbg, State.finalReg_begun]
      · rw [State.finalReg_addPend _ _ _ _ hbu, hbg, State.finalReg_begun]
    rw [hfin u r' (by rw [hw1]; exact hbu), h1]
    cases r' <;> simp [ho]
  have hin : ∀ (on : List Nat) (s : State), p ∈ s.pend → p ∈ (on.foldl (fun s l => s.finishLane c l o) s).pend := by
    intro on
    induction on with
    | nil => intro s h; exact h
    | cons a on ih => intro s h; rw [List.foldl_cons]; exact ih _ (mem_pend_finishLane h (Or.inr ⟨rfl, rfl⟩))
  have hput : p.regs ≠ [] → p ∈ s1.pend := by
    intro h
    have he : p.regs.isEmpty = false := by simpa using h
    rw [hs1, he]
    simp only [Bool.false_eq_true, if_false, State.addPend, he, Bool.false_and]
    exact List.mem_append_right _ (by simp)
  rw [hrun]
  refine ⟨?_, ?_, ?_, ?_, ?_, ?_, ?_, ?_, ?_⟩
  · intro l hl i hi
    rw [hk]
    have hf := regWrites_find 0 .s e.h.d.toNat r.n r.val i hi
    refine (hfin' w.uid (.s (e.h.d.toNat + i)) (by rw [hs.wave]; rfl)).trans ?_
    rw [if_pos rfl]
    have e2 := congrArg (fun o => o.getD (s.finalReg w.uid (.s (e.h.d.toNat + i)))) hf
    exact e2
  · intro u r' hno
    by_cases hsu : (s.wave? u).isSome
    · rw [hfin' u r' hsu]
      split
      · rename_i h
        cases hg : guarded e w ls with
        | nil => exact absurd hg hon
        | cons l _ =>
          have := hno l (by rw [hg]; simp) h
          rw [hk] at this
          have h0 : inRegs 0 .s e.h.d.toNat r.n r' = false := by
            cases r' <;> simp_all [inRegs]
          simp only [Pend.val, hp]
          rw [regWrites_find_none _ _ _ _ _ (Or.inr rfl) _ h0]; rfl
      · rfl
    · have hsf : (s.wave? u).isSome = false := by simpa using hsu
      rw [State.finalReg_none hsf, State.finalReg_none]
      have := wave?_fold_isSome (c := c) (o := fun _ => o) (guarded e w ls) s1 u
      rw [this, hw1, hbg, begun_isSome hs, hsf]
  · intro l hl
    obtain ⟨st, -, ht⟩ := t2 l hl
    rw [show c.uid = w.uid from rfl, hth1, hbg, bon l hl] at ht
    rw [ht]
    simp only [LaneOut.thread, ho]
    exact setPreds_p _ rfl
  · intro l hl
    obtain ⟨st, -, ht⟩ := t2 l hl
    rw [show c.uid = w.uid from rfl, hth1, hbg, bon l hl] at ht
    rw [ht]
    by_cases hn : r.n = 0 <;> simp [LaneOut.thread, ho, hn]
  · intro l hl hn hf
    refine ⟨p, hin _ _ ?_, rfl, ?_⟩
    · exact hput (by rw [← List.isEmpty_eq_false_iff, hp]; simp only [regWrites_isEmpty, hn, decide_false])
    · rw [hp]; exact List.mem_filterMap.mpr ⟨l, hl, if_pos hf⟩
  · intro l hl x hx
    rw [Res.regFlags_uniform hu r l 0] at hx
    obtain ⟨y, hy⟩ := Res.regFlags_mem hx
    rw [hk] at hy
    refine ⟨p, hin _ _ (hput ?_), rfl, ⟨y, hy⟩, hx⟩
    rw [← List.isEmpty_eq_false_iff]
    simpa [hp] using List.ne_nil_of_mem hy
  · intro l hl
    by_cases hg : l ∈ guarded e w ls
    · obtain ⟨st, -, ht⟩ := t2 l hg
      rw [show c.uid = w.uid from rfl] at ht
      rw [ht]; rfl
    · rw [t1 w.uid l (fun h => hg h.2), hth1]
      obtain ⟨st, h⟩ := boff l hl hg
      rw [hbg, h]
  · intro u l hul
    rw [t1 u l (fun h => hul ⟨h.1, hsub l h.2⟩), hth1, hbg, bother u l hul]
  · exact (SameMachine.begun s e w ls pc).trans (hsame1.trans
      (SameMachine.foldl (fun s l => SameMachine.finishLane s c l o) _ _))

/-- What runCompute does when no lane faults. -/
theorem runCompute_spec {s : State} {e : Enc} {w : Wave} {ls : List Nat} {pc : VA} (hs : Group s w ls pc) (hm : Able e w)
    (hon : guarded e w ls ≠ []) (hh : ∀ l ∈ ls, (w.thread l).hseg = none) (g : Ctx → State → Nat → Except LFault Res) (G : Nat → Res)
    (hg : ∀ l ∈ guarded e w ls, g (ctxOf e w ls pc) (s.begun e w ls pc) l = .ok (G l)) :
    Computed s (runCompute e g s) e w ls pc (resIn e w ls G) := by
  by_cases hu : e.h.u = true
  · have hr : resIn e w ls G = fun _ => G ((guarded e w ls).head?.getD 0) := by funext l; simp [resIn, hu]
    rw [hr]
    apply runPacket_uniform hs hm hon hh hu
    cases h : guarded e w ls with
    | nil => exact absurd h hon
    | cons l0 rest =>
      have h0 := hg l0 (by rw [h]; simp)
      simp only [computeBody, ctxOf, hu, if_true, uniWise, h, List.head?_cons, Option.getD_some]
      simp only [ctxOf, h] at h0
      simp only [h0, resUni, Res.regs, hu, if_true]
      rw [Res.regFlags_uniform hu (G l0) l0 0]; rfl
  · have hu' : e.h.u = false := by simpa using hu
    have hr : resIn e w ls G = G := by funext l; simp [resIn, hu']
    rw [hr]
    apply runPacket_computed hs hm hon hh hu'
    simp only [computeBody, pureWise, ctxOf, hu', Bool.false_eq_true, if_false]
    congr 2
    apply List.map_congr_left
    intro l hl
    have h0 := hg l hl
    simp only [ctxOf] at h0
    simp [h0, resLane, Res.regs, Res.out, resKind, hu']

/-- An instruction whose meaning is one runCompute computes what its lanes answer. -/
theorem ComputesIf.of_compute {i : Instr} {e0 : Enc} {P : Ctx → State → Prop} {g : Ctx → State → Nat → Res} {g' : Ctx → State → Nat → Except LFault Res}
    (he : encOf i = some e0) (hx : ∀ s, exec i s = .next (runCompute e0 g' s))
    (hg : ∀ c s l, c.e = e0 → P c s → g' c s l = .ok (g c s l)) : ComputesIf i P g := by
  intro e s w ls pc h hs hm hon hh hP
  rw [he] at h; cases h
  exact ⟨_, hx s, runCompute_spec hs hm hon hh g' _ (fun l _ => hg _ _ l rfl hP)⟩

/-- As above, for a meaning that is one runPacket of lanes that only compute. -/
theorem ComputesIf.of_pure {i : Instr} {e0 : Enc} {P : Ctx → State → Prop} {g : Ctx → State → Nat → Res} {g' : Ctx → State → Nat → LaneRes}
    (he : encOf i = some e0) (hu : e0.h.u = false) (hx : ∀ s, exec i s = .next (runPacket e0 (pureWise g') s))
    (hg : ∀ c s l, c.e = e0 → P c s → g' c s l = .ok ((g c s l).out e0 l)) : ComputesIf i P g := by
  intro e s w ls pc h hs hm hon hh hP
  rw [he] at h; cases h
  refine ⟨_, hx s, ?_⟩
  have : resIn e0 w ls (g (ctxOf e0 w ls pc) (s.begun e0 w ls pc)) = g (ctxOf e0 w ls pc) (s.begun e0 w ls pc) := by
    funext l; simp [resIn, hu]
  rw [this]
  apply runPacket_computed hs hm hon hh hu
  simp only [pureWise]
  congr 2
  exact List.map_congr_left (fun l _ => by rw [hg _ _ l rfl hP])

end Sys2Proof.Machine
end

