-- ==== Sys2Proof/Laws/Memory.lean ====
section
/-!
SUPPORT. Memory: every operation that stores bytes keeps the canonical form of the memories, and changes no byte outside those that it stores to.
-/

namespace Sys2Proof.Machine

/-- The canonical form depends on the memories alone. -/
theorem State.memOk_congr {s t : State} (h1 : t.mem = s.mem) (h2 : t.ls = s.ls) (h3 : t.chip = s.chip) (h4 : t.pads = s.pads) : t.memOk = s.memOk := by
  simp only [State.memOk, h1, h2, h3, h4]

/-- A byte put in its place leaves the memories in canonical form. -/
theorem State.memOk_writeLoc {s : State} (h : s.memOk = true) (l : Loc) (b : Byte) : (s.writeLoc l b).memOk = true := by
  simp only [State.memOk, Bool.and_eq_true] at h ⊢
  obtain ⟨⟨⟨h1, h2⟩, h3⟩, h4⟩ := h
  cases l with
  | dev pa k => exact ⟨⟨⟨Sparse.wf_put h1 _ _, h2⟩, h3⟩, h4⟩
  | loc k => exact ⟨⟨⟨h1, Sparse.wf_put h2 _ _⟩, h3⟩, Sparse.wf_put h4 (k / 2) false⟩
  | chip a => exact ⟨⟨⟨h1, h2⟩, Sparse.wf_put h3 _ _⟩, h4⟩
  | rem p va k => exact ⟨⟨⟨h1, h2⟩, h3⟩, h4⟩

theorem State.memOk_putBytes {s : State} (hs : s.memOk = true) (xs : List (Loc × Byte)) (h : List WEv) : (s.putBytes xs h).1.memOk = true := by
  unfold State.putBytes
  induction xs generalizing s h with
  | nil => exact hs
  | cons x xs ih =>
    rw [List.foldl_cons]
    split
    · exact ih hs _
    · exact ih (State.memOk_writeLoc hs _ _) _

/-- Two states agree on all but the order of accesses. -/
def State.KeepsRead (s t : State) : Prop := t = { s with ord := t.ord }

theorem State.KeepsRead.trans {s t r : State} (h : s.KeepsRead t) (k : t.KeepsRead r) : s.KeepsRead r := by
  unfold State.KeepsRead at *; rw [k, h]

theorem State.keepsRead_setPast (s : State) (l : Loc) (h : List WEv) : s.KeepsRead (s.setPast l h) := rfl

theorem State.keepsRead_updReader (s : State) (f : Place → View → View) : s.KeepsRead (s.updReader f) := rfl

theorem State.keepsRead_addSo (s : State) (p : Nat) (x : SoNode) : s.KeepsRead (s.addSo p x) := rfl

theorem State.keepsRead_ord (s : State) (o : Ord) : s.KeepsRead { s with ord := o } := rfl

/-- A write of one sector puts its bytes, and changes the order of accesses. -/
theorem State.writePart_puts (s : State) (xs : List (Loc × Byte)) (sp : Spot) (i : Nat) (rels : List Rel) (rmw : Bool) :
    ∃ h, (s.putBytes xs h).1.KeepsRead (s.writePart xs sp i rels rmw) := by
  unfold State.writePart
  split
  · exact ⟨[], (State.keepsRead_setPast _ _ _).trans (State.keepsRead_ord _ _)⟩
  · refine ⟨(s.past sp.at').take sp.k, ?_⟩
    refine State.KeepsRead.trans ?_ (State.keepsRead_ord _ _)
    split
    · exact ((State.keepsRead_setPast _ _ _).trans (State.keepsRead_updReader _ _)).trans (State.keepsRead_addSo _ _ _)
    · exact (State.keepsRead_setPast _ _ _).trans (State.keepsRead_updReader _ _)

theorem State.memOk_writePart {s : State} (hs : s.memOk = true) (xs : List (Loc × Byte)) (sp : Spot) (i : Nat) (rels : List Rel) (rmw : Bool) :
    (s.writePart xs sp i rels rmw).memOk = true := by
  obtain ⟨h, e⟩ := s.writePart_puts xs sp i rels rmw
  rw [e]
  exact State.memOk_putBytes hs xs h

theorem State.memOk_storePart {s : State} (hs : s.memOk = true) (xs : List (Loc × Byte)) (sp : Spot) (i : Nat) (rels : List Rel) (rmw : Bool) :
    (s.storePart xs sp i rels rmw).memOk = true := by
  unfold State.storePart
  split
  · exact hs
  · split
    · split
      · refine State.memOk_writePart ?_ xs sp i rels rmw
        exact hs
      · unfold State.noteUe
        split <;> exact hs
    · exact State.memOk_writePart hs ..

/-- Every store keeps the canonical form. -/
theorem State.memOk_storeWith {s : State} (hs : s.memOk = true) (ls : List Loc) (bs : List Byte) (rels : Agent → Loc → List Rel) (rmw : Bool) :
    (s.storeWith ls bs rels rmw).memOk = true := by
  unfold State.storeWith
  have key : ∀ (ps : List (Nat × Spot)) (s : State), s.memOk = true → (ps.foldl (fun s x =>
      s.storePart ((ls.zip bs).filter (fun y => y.1.sec = x.2.at'.sec)) x.2 x.1 ((s.ord.agent.map (fun a => rels a x.2.at')).getD []) rmw) s).memOk = true := by
    intro ps
    induction ps with
    | nil => intro s h; exact h
    | cons p ps ih => intro s h; exact ih _ (State.memOk_storePart h ..)
  exact key _ s hs

theorem State.memOk_storeAs {s : State} (hs : s.memOk = true) (ls : List Loc) (bs : List Byte) (rel : Option Nat) (rmw : Bool) :
    (s.storeAs ls bs rel rmw).memOk = true := State.memOk_storeWith hs ..

theorem State.memOk_store {s : State} (hs : s.memOk = true) (ls : List Loc) (bs : List Byte) : (s.store ls bs).memOk = true :=
  State.memOk_storeAs hs ls bs none false

theorem State.keepsRead_noteSpot (s : State) (ls : List Loc) (acq : Option Nat) (i : Nat) (sp : Spot) :
    s.KeepsRead (s.noteSpot State.updReader ls acq i sp) := by
  have hold : ∀ (s : State) (sp : Spot), s.KeepsRead (s.holdSector sp) := by
    intro s sp
    unfold State.holdSector
    split
    · split <;> rfl
    · rfl
  unfold State.noteSpot
  split
  · rfl
  · split
    · split <;> rfl
    · simp only
      split
      · rfl
      · split
        · refine State.KeepsRead.trans ?_ (hold _ _)
          rfl
        · refine State.KeepsRead.trans ?_ (hold _ _)
          rfl

/-- A read of memory changes the order of accesses alone. -/
theorem State.keepsRead_noteRead (s : State) (ls : List Loc) (acq : Option Nat) : s.KeepsRead (s.noteRead ls acq) := by
  unfold State.noteRead
  have key : ∀ (ps : List (Nat × Spot)) (s : State), s.KeepsRead (ps.foldl (fun s x => s.noteSpot State.updReader ls acq x.1 x.2) s) := by
    intro ps
    induction ps with
    | nil => intro s; rfl
    | cons p ps ih => intro s; exact (State.keepsRead_noteSpot s ls acq p.1 p.2).trans (ih _)
  exact key _ s

theorem State.memOk_noteRead {s : State} (hs : s.memOk = true) (ls : List Loc) (acq : Option Nat) : (s.noteRead ls acq).memOk = true := by
  rw [State.keepsRead_noteRead s ls acq]; exact hs

/-- A byte put in its place leaves every other place as it was. -/
theorem State.newest_writeLoc (s : State) (l q : Loc) (b : Byte) (hq : ¬ q.at l) : (s.writeLoc l b).newest q = s.newest q := by
  cases l <;> cases q <;> try rfl
  all_goals
    simp only [State.writeLoc, State.newest]
    rw [Sparse.get_put]
    refine if_neg (fun e => hq ?_)
    subst e
    exact ⟨rfl, rfl⟩

theorem State.newest_putBytes (s : State) (xs : List (Loc × Byte)) (h : List WEv) (q : Loc) (hq : ∀ x ∈ xs, ¬ q.at x.1) :
    (s.putBytes xs h).1.newest q = s.newest q := by
  unfold State.putBytes
  induction xs generalizing s h with
  | nil => rfl
  | cons x xs ih =>
    rw [List.foldl_cons]
    have hx := fun y hy => hq y (List.mem_cons_of_mem _ hy)
    split
    · exact ih _ _ hx
    · exact (ih _ _ hx).trans (State.newest_writeLoc _ _ _ _ (hq x (List.mem_cons_self ..)))

theorem State.newest_writePart (s : State) (xs : List (Loc × Byte)) (sp : Spot) (i : Nat) (rels : List Rel) (rmw : Bool) (q : Loc)
    (hq : ∀ x ∈ xs, ¬ q.at x.1) : (s.writePart xs sp i rels rmw).newest q = s.newest q := by
  obtain ⟨h, e⟩ := s.writePart_puts xs sp i rels rmw
  rw [e]
  exact (by cases q <;> rfl : _ = ((s.putBytes xs h).1).newest q).trans (State.newest_putBytes s xs h q hq)

theorem State.newest_storePart (s : State) (xs : List (Loc × Byte)) (sp : Spot) (i : Nat) (rels : List Rel) (rmw : Bool) (q : Loc)
    (hq : ∀ x ∈ xs, ¬ q.at x.1) : (s.storePart xs sp i rels rmw).newest q = s.newest q := by
  unfold State.storePart
  split
  · rfl
  · split
    · split
      · exact (State.newest_writePart _ xs sp i rels rmw q hq).trans (by cases q <;> rfl)
      · unfold State.noteUe
        split <;> cases q <;> rfl
    · exact State.newest_writePart s xs sp i rels rmw q hq

/-- A store changes no byte outside those that it stores to. -/
theorem State.newest_storeAs (s : State) (ls : List Loc) (bs : List Byte) (rel : Option Nat) (rmw : Bool) (q : Loc)
    (hq : ∀ l ∈ ls, ¬ q.at l) : (s.storeAs ls bs rel rmw).newest q = s.newest q := by
  unfold State.storeAs State.storeWith
  have key : ∀ (ps : List (Nat × Spot)) (s : State), (ps.foldl (fun s x =>
      s.storePart ((ls.zip bs).filter (fun y => y.1.sec = x.2.at'.sec)) x.2 x.1
        ((s.ord.agent.map (fun a => a.rels x.2.at'.kind rel)).getD []) rmw) s).newest q = s.newest q := by
    intro ps
    induction ps with
    | nil => intro s; rfl
    | cons p ps ih =>
      intro s
      refine (ih _).trans (State.newest_storePart _ _ _ _ _ _ _ (fun x hx => hq _ ?_))
      exact (List.of_mem_zip (List.mem_of_mem_filter hx)).1
  exact key _ s

theorem State.newest_store (s : State) (ls : List Loc) (bs : List Byte) (q : Loc) (hq : ∀ l ∈ ls, ¬ q.at l) :
    (s.store ls bs).newest q = s.newest q := State.newest_storeAs s ls bs none false q hq

/-- What a store may change: the memories, uncorrectable sectors and the errors met there, the order of accesses, weight-cache copies and save slots. -/
def State.Keeps (s t : State) : Prop :=
  t = { s with mem := t.mem, ls := t.ls, chip := t.chip, pads := t.pads, poison := t.poison, ord := t.ord, asu := t.asu, wd := t.wd, ueLog := t.ueLog }

theorem State.Keeps.refl (s : State) : s.Keeps s := rfl

theorem State.Keeps.trans {s t r : State} (h : s.Keeps t) (k : t.Keeps r) : s.Keeps r := by
  unfold State.Keeps at *; rw [k, h]

theorem State.Keeps.foldl {α : Type} {f : State → α → State} (hf : ∀ (s : State) a, s.Keeps (f s a)) (l : List α) (s : State) : s.Keeps (l.foldl f s) := by
  induction l generalizing s with
  | nil => exact .refl s
  | cons a l ih => exact (hf s a).trans (ih _)

theorem State.keeps_putBytes (s : State) (xs : List (Loc × Byte)) (h : List WEv) : s.Keeps (s.putBytes xs h).1 := by
  unfold State.putBytes
  induction xs generalizing s h with
  | nil => exact .refl s
  | cons x xs ih =>
    rw [List.foldl_cons]
    split
    · exact ih _ _
    · refine State.Keeps.trans ?_ (ih _ _)
      obtain ⟨l, b⟩ := x
      cases l <;> exact rfl

theorem State.keeps_writePart (s : State) (xs : List (Loc × Byte)) (sp : Spot) (i : Nat) (rels : List Rel) (rmw : Bool) :
    s.Keeps (s.writePart xs sp i rels rmw) := by
  obtain ⟨h, e⟩ := s.writePart_puts xs sp i rels rmw
  rw [e]
  exact (State.keeps_putBytes s xs h).trans rfl

theorem State.keeps_storePart (s : State) (xs : List (Loc × Byte)) (sp : Spot) (i : Nat) (rels : List Rel) (rmw : Bool) :
    s.Keeps (s.storePart xs sp i rels rmw) := by
  unfold State.storePart
  split
  · exact .refl s
  · split
    · split
      · exact State.Keeps.trans (t := { s with poison := s.poison.filter (fun p => p ≠ sp.at'.sec) }) rfl (State.keeps_writePart _ xs sp i rels rmw)
      · unfold State.noteUe
        split
        · exact .refl s
        · exact rfl
    · exact State.keeps_writePart s xs sp i rels rmw

/-- A store keeps every thread, register, record, region and unit. -/
theorem State.keeps_storeAs (s : State) (ls : List Loc) (bs : List Byte) (rel : Option Nat) (rmw : Bool) : s.Keeps (s.storeAs ls bs rel rmw) :=
  State.Keeps.foldl (fun s _ => State.keeps_storePart s _ _ _ _ _) _ s

theorem State.keeps_store (s : State) (ls : List Loc) (bs : List Byte) : s.Keeps (s.store ls bs) := State.keeps_storeAs s ls bs none false

theorem State.Keeps.waves {s t : State} (h : s.Keeps t) : t.waves = s.waves := by rw [h]
theorem State.Keeps.pend {s t : State} (h : s.Keeps t) : t.pend = s.pend := by rw [h]
theorem State.Keeps.packets {s t : State} (h : s.Keeps t) : t.packets = s.packets := by rw [h]
theorem State.Keeps.finalReg {s t : State} (h : s.Keeps t) (u : Nat) (r : RegRef) : t.finalReg u r = s.finalReg u r := by rw [h]; rfl

end Sys2Proof.Machine
end

