-- ==== Sys2Proof/Laws/Single.lean ====
section
/-!
SUPPORT. What a packet does, for each shape of Issue.lean and each outcome of its lanes.
-/

namespace Sys2Proof.Machine

/-! ## A packet, wave by wave -/

/-- The start of a wave's execution keeps which waves there are. -/
theorem State.wave?_started_isSome (s : State) (e : Enc) (w : Wave) (ls : List Nat) (pc : VA) (u : Nat) :
    ((s.started e w ls pc).wave? u).isSome = (s.wave? u).isSome := by
  unfold State.started
  have : ∀ (l : List Nat) (s1 : State), ((l.foldl (fun s l => s.resume w.uid l (nextPc pc e.h.len) false) s1).wave? u).isSome = (s1.wave? u).isSome := by
    intro l
    induction l with
    | nil => intro s1; rfl
    | cons a l ih =>
      intro s1
      rw [List.foldl_cons, ih]
      simp only [State.resume, State.wave?_updThread]
      split <;> simp
  rw [this, State.wave?_updWave _ _ _ _ (fun w => updThreads_uid ls w _)]
  split <;> simp

theorem packets_slotStart (i : Instr) (e : Enc) (s : State) : (slotStart i e s).packets = s.packets := by
  unfold slotStart
  split <;> first | rfl | exact State.packets_packed ..

/-- An instruction that runs over the packet does in each wave what its body, the results and what follows them do. -/
theorem PacketDoes.of {i : Instr} {e0 : Enc} {M : Ctx → State → Prop} {F : Ctx → State → State}
    {body : Ctx → State → State × WaveOut} {post : Ctx → State → State} (he : encOf i = some e0)
    (hx : ∀ s, exec i s = .next (slotEnd i (runPacketThen e0 body post (slotStart i e0 s))))
    (hb : ∀ c s, c.e = e0 → c.on ≠ [] → (s.wave? c.uid).isSome → M c s → post c ((body c s).1.commit c (body c s).2) = F c s) :
    PacketDoes i M F := by
  intro e s p ps h hs hM
  rw [he] at h; cases h
  rw [hx]
  congr 2
  have hq : (slotStart i e0 s).packets = p :: ps := (packets_slotStart i e0 s).trans hs
  simp only [runPacketThen, hq]
  congr 1
  generalize ({ slotStart i e0 s with packets := ps } : State) = t at hM
  clear hs hq
  generalize p.waves = qs at hM
  induction qs generalizing t with
  | nil => rfl
  | cons q qs ih =>
    obtain ⟨⟨w, hw, ha, hm⟩, hrest⟩ := hM
    have key : runWave e0 body post p.pc t q = waveDo e0 F p.pc t q := by
      have hu : q.1 = w.uid := by
        have := List.find?_some hw
        simpa using (of_decide_eq_true this).symm
      simp only [runWave, waveDo, hw]
      have hpr : (e0.priv && !w.priv) = false := by
        have := ha.mode
        cases he : e0.priv <;> cases hwp : w.priv <;> simp_all
      rw [ha.regs, hpr]
      simp only [Bool.not_true, Bool.false_eq_true, if_false]
      by_cases hg : guarded e0 w q.2 = []
      · rw [if_pos hg]
        have : (List.filter (fun l => guardOn e0.h (w.thread l)) q.2).isEmpty = true := by simpa [guarded] using hg
        rw [if_pos this, hu]; rfl
      · rw [if_neg hg]
        have : (List.filter (fun l => guardOn e0.h (w.thread l)) q.2).isEmpty = false := by
          cases h : List.filter (fun l => guardOn e0.h (w.thread l)) q.2 with
          | nil => exact absurd h hg
          | cons => rfl
        rw [this, hu]
        simp only [Bool.false_eq_true, if_false]
        refine hb (ctxOf e0 w q.2 p.pc) (t.started e0 w q.2 p.pc) rfl hg ?_ (hm hg)
        rw [State.wave?_started_isSome, show (ctxOf e0 w q.2 p.pc).uid = q.1 from hu.symm, hw]; rfl
    rw [List.foldl_cons, List.foldl_cons, key]
    exact ih _ hrest

/-! ## The outcomes of a wave -/

/-- Lanes that complete are all that happens, but for lanes of a packet that has waited. -/
theorem State.commit_oks (s : State) (c : Ctx) (os : List (Nat × LaneOut)) :
    s.commit c { lanes := os.map (fun x => (x.1, .ok x.2)) } = s.lanePassed (os.foldl (fun s x => s.finishLane c x.1 x.2) s) c := by
  simp [State.commit, State.updWave_id, State.lanePassed, List.filterMap_map, List.foldl_map]

/-- Lanes that all fault park together. -/
theorem State.commit_faults (s : State) (c : Ctx) (fs : List (Nat × LFault)) :
    s.commit c { lanes := fs.map (fun x => (x.1, .fault x.2)) } = s.failLanes c (s.again c) fs := by
  have : fs.any (fun _ => false) = false := by simp
  simp [State.commit, State.updWave_id, List.filterMap_map, List.foldl_map, LaneRes.open', Function.comp_def, this]

/-- What laneWise answers, where each lane's effect in its turn is known. -/
theorem laneWise_of {α : Type} {c : Ctx} {P : Ctx → State → Nat → Prop} {f : Ctx → State → Nat → State × α} {g : Ctx → State → Nat → State × LaneRes}
    (k : α → LaneRes) (hg : ∀ s l, l ∈ c.on → P c s l → g c s l = ((f c s l).1, k (f c s l).2)) {s : State} (h : LanesMeet P f c s c.on) :
    laneWise g c s = ((lanesDo f c s c.on).1, { lanes := (lanesDo f c s c.on).2.map (fun x => (x.1, k x.2)) }) := by
  have key : ∀ (ls : List Nat) (s : State) (acc : List (Nat × LaneRes)), (∀ l ∈ ls, l ∈ c.on) → LanesMeet P f c s ls →
      ls.foldl (fun (acc : State × List (Nat × LaneRes)) l => ((g c acc.1 l).1, acc.2 ++ [(l, (g c acc.1 l).2)])) (s, acc) =
        ((lanesDo f c s ls).1, acc ++ (lanesDo f c s ls).2.map (fun x => (x.1, k x.2))) := by
    intro ls
    induction ls with
    | nil => intro s acc _ _; simp [lanesDo]
    | cons l ls ih =>
      intro s acc hin hm
      rw [List.foldl_cons]
      simp only [hg s l (hin l (by simp)) hm.1]
      rw [ih _ _ (fun x hx => hin x (List.mem_cons_of_mem _ hx)) hm.2]
      simp [lanesDo]
  simp only [laneWise]
  rw [key c.on s [] (fun _ h => h) h]
  rfl

/-- What a uniform instruction leaves. -/
theorem uniWise_ok {c : Ctx} {s s1 : State} {l : Nat} {ls : List Nat} {f : Ctx → State → Nat → State × Except LFault UniOut} {o : UniOut} (hon : c.on = l :: ls)
    (h : f c s l = (s1, .ok o)) : (uniWise f c s).1.commit c (uniWise f c s).2 = s1.lanePassed (s1.finishUni c o) c := by
  have : uniWise f c s =
      (s1, { lanes := c.on.map (fun l => (l, .ok { preds := o.preds, flags := o.flags, st := o.st, ue := o.ue })), sregs := if o.ue.isSome then [] else o.sregs,
             rflags := o.rflags }) := by
    simp only [uniWise, hon, h]
  rw [this]
  cases hue : o.ue <;> cases hsr : o.sregs <;>
    simp [State.commit, State.finishUni, State.lanePassed, State.updWave_id, WaveOut.scalarFlags, hue, hsr, List.filterMap_map, List.foldl_map, Function.comp_def]
  by_cases hf : o.flags = 0#7
  · simp [hf]
  · simp only [hf, if_false]
    rw [show (fun x => some (x, o.flags)) = some ∘ (fun l : Nat => (l, o.flags)) from rfl, List.filterMap_eq_map]

/-- What an effect answers, the acting lane's answers. -/
theorem State.asIssued_map {α β : Type} (s : State) (u l : Nat) (f : State → State × α) (g : α → β) :
    s.asIssued u l (fun s => ((f s).1, g (f s).2)) = ((s.asIssued u l f).1, g (s.asIssued u l f).2) := by
  unfold State.asIssued; split <;> rfl

/-- Two effects that agree where the condition holds agree in the lane that acts. -/
theorem State.asIssued_congr {α : Type} {s : State} {u l : Nat} {f g : State → State × α} {P : State → Prop} (hP : (s.asIssued u l (fun s => (s, P s))).2)
    (h : ∀ s, P s → f s = g s) : s.asIssued u l f = s.asIssued u l g := by
  unfold State.asIssued at *
  split at hP
  · exact h s hP
  · simp only
    rw [h _ hP]

/-- A lane's effect on memory, where it is known of the acting lane. -/
theorem byLane_ok {c : Ctx} {s : State} {l : Nat} {P : Ctx → State → Nat → Prop} {f : Ctx → State → Nat → State × LaneOut} {g : Ctx → State → Nat → State × LaneRes}
    (hg : ∀ s, P c s l → g c s l = ((f c s l).1, .ok (f c s l).2)) (hP : whenActing P c s l) : byLane g c s l = ((acting f c s l).1, .ok (acting f c s l).2) := by
  have h := (State.asIssued_congr (f := fun s => g c (s.asLane c.uid l) l) hP (fun s hs => hg _ hs)).trans
    (State.asIssued_map _ _ _ (fun s => f c (s.asLane c.uid l) l) LaneRes.ok)
  simp only [byLane, h, acting, State.accessed]

theorem byLane_fault {c : Ctx} {s : State} {l : Nat} {P : Ctx → State → Nat → Prop} {f : Ctx → State → Nat → State × LFault} {g : Ctx → State → Nat → State × LaneRes}
    (hg : ∀ s, P c s l → g c s l = ((f c s l).1, .fault (f c s l).2)) (hP : whenActing P c s l) (hf : (faulting f c s l).2.holds = false) :
    byLane g c s l = ((faulting f c s l).1, .fault (faulting f c s l).2) := by
  have h := (State.asIssued_congr (f := fun s => g c (s.asLane c.uid l) l) hP (fun s hs => hg _ hs)).trans
    (State.asIssued_map _ _ _ (fun s => f c (s.asLane c.uid l) l) LaneRes.fault)
  simp only [faulting] at hf
  simp only [byLane, h, faulting, hf, Bool.false_eq_true, if_false]

/-! ## Statements from meanings -/

/-- An instruction whose meaning runs each lane by itself does what the lane answers. -/
theorem Does.of_lane {i : Instr} {e0 : Enc} {P : Ctx → State → Nat → Prop} {f : Ctx → State → Nat → State × LaneOut} {post : Ctx → State → State}
    {g : Ctx → State → Nat → State × LaneRes} (he : encOf i = some e0)
    (hx : ∀ s, exec i s = .next (slotEnd i (runPacketThen e0 (laneWise g) post (slotStart i e0 s))))
    (hg : ∀ c s l, c.e = e0 → l ∈ c.on → P c s l → g c s l = ((f c s l).1, .ok (f c s l).2)) : Does i P f post :=
  PacketDoes.of he hx (fun c s hc _ _ hM => by
    rw [laneWise_of LaneRes.ok (fun s l hl hP => hg c s l hc hl hP) hM, State.commit_oks]; rfl)

theorem Does.of_pure {i : Instr} {e0 : Enc} {P : Ctx → State → Nat → Prop} {f : Ctx → State → Nat → LaneOut} {post : Ctx → State → State}
    {g : Ctx → State → Nat → LaneRes} (he : encOf i = some e0)
    (hx : ∀ s, exec i s = .next (slotEnd i (runPacketThen e0 (pureWise g) post (slotStart i e0 s))))
    (hg : ∀ c s l, c.e = e0 → P c s l → g c s l = .ok (f c s l)) : Does i P (fun c s l => (s, f c s l)) post :=
  PacketDoes.of he hx (fun c s hc _ _ hM => by
    have key : ∀ ls : List Nat, LanesMeet P (fun c s l => (s, f c s l)) c s ls →
        lanesDo (fun c s l => (s, f c s l)) c s ls = (s, ls.map (fun l => (l, f c s l))) ∧ ls.map (fun l => (l, g c s l)) = ls.map (fun l => (l, .ok (f c s l))) := by
      intro ls
      induction ls with
      | nil => intro _; exact ⟨rfl, rfl⟩
      | cons l ls ih =>
        intro h
        obtain ⟨h1, h2⟩ := ih h.2
        exact ⟨by simp [lanesDo, h1], by simp [hg c s l hc h.1]; simpa using h2⟩
    obtain ⟨h1, h2⟩ := key c.on hM
    have hm : c.on.map (fun l => (l, LaneRes.ok (f c s l))) = (c.on.map (fun l => (l, f c s l))).map (fun x => (x.1, .ok x.2)) := by simp
    simp only [pureWise, eachLane, h1, h2, hm, State.commit_oks])

theorem DoesOnce.of_uni {i : Instr} {e0 : Enc} {P : Ctx → State → Nat → Prop} {f : Ctx → State → Nat → State × UniOut} {post : Ctx → State → State}
    {g : Ctx → State → Nat → State × Except LFault UniOut} (he : encOf i = some e0)
    (hx : ∀ s, exec i s = .next (slotEnd i (runPacketThen e0 (uniWise g) post (slotStart i e0 s))))
    (hg : ∀ c s l, c.e = e0 → c.on.head? = some l → P c s l → g c s l = ((f c s l).1, .ok (f c s l).2)) : DoesOnce i P f post :=
  PacketDoes.of he hx (fun c s hc hne _ hM => by
    cases hon : c.on with
    | nil => exact absurd hon hne
    | cons l ls =>
      rw [uniWise_ok hon (hg c s l hc (by rw [hon]; rfl) (hM l (by rw [hon]; rfl)))]
      simp [onceFor, hon])

theorem FaultsThen.of_lane {i : Instr} {e0 : Enc} {P : Ctx → State → Nat → Prop} {f : Ctx → State → Nat → LFault}
    {g : Ctx → State → Nat → State × LaneRes} {post : Ctx → State → State} (he : encOf i = some e0)
    (hx : ∀ s, exec i s = .next (slotEnd i (runPacketThen e0 (laneWise g) post (slotStart i e0 s))))
    (hg : ∀ c s l, c.e = e0 → P c s l → g c s l = (s, .fault (f c s l))) : FaultsThen i P f post :=
  PacketDoes.of he hx (fun c s hc _ _ hM => by
    have hl : ∀ ls : List Nat, (∀ l ∈ ls, P c s l) → LanesMeet P (fun c s l => (s, f c s l)) c s ls ∧
        lanesDo (fun c s l => (s, f c s l)) c s ls = (s, ls.map (fun l => (l, f c s l))) := by
      intro ls
      induction ls with
      | nil => intro _; exact ⟨trivial, rfl⟩
      | cons l ls ih =>
        intro h
        obtain ⟨h1, h2⟩ := ih (fun k hk => h k (List.mem_cons_of_mem _ hk))
        exact ⟨⟨h l (by simp), h1⟩, by simp [lanesDo, h2]⟩
    obtain ⟨h1, h2⟩ := hl c.on hM
    rw [laneWise_of LaneRes.fault (fun s l _ hP => hg c s l hc hP) h1, State.commit_faults, h2])

/-- An instruction whose meaning lets each lane access memory does what the lane answers. -/
theorem DoesMem.of_lane {i : Instr} {e0 : Enc} {P : Ctx → State → Nat → Prop} {f : Ctx → State → Nat → State × LaneOut} {post : Ctx → State → State}
    {g : Ctx → State → Nat → State × LaneRes} (he : encOf i = some e0)
    (hx : ∀ s, exec i s = .next (slotEnd i (runPacketThen e0 (memWise g) post (slotStart i e0 s))))
    (hg : ∀ c s l, c.e = e0 → l ∈ c.on → P c s l → g c s l = ((f c s l).1, .ok (f c s l).2)) : DoesMem i P f post :=
  Does.of_lane he hx (fun c _ l hc hl hP => byLane_ok (fun s hs => hg c s l hc hl hs) hP)

theorem DoesOnceMem.of_uni {i : Instr} {e0 : Enc} {P : Ctx → State → Nat → Prop} {f : Ctx → State → Nat → State × UniOut} {post : Ctx → State → State}
    {g : Ctx → State → Nat → State × Except LFault UniOut} (he : encOf i = some e0)
    (hx : ∀ s, exec i s = .next (slotEnd i (runPacketThen e0 (uniMem g) post (slotStart i e0 s))))
    (hg : ∀ c s l, c.e = e0 → c.on.head? = some l → P c s l → g c s l = ((f c s l).1, .ok (f c s l).2)) : DoesOnceMem i P f post :=
  PacketDoes.of he hx (fun c s hc hne _ hM => by
    cases hon : c.on with
    | nil => exact absurd hon hne
    | cons l ls =>
      have hP := hM l (by rw [hon]; rfl)
      have h := (State.asIssued_congr (f := fun s => g c (s.asLane c.uid l) l) hP (fun s hs => hg c _ l hc (by rw [hon]; rfl) hs)).trans
        (State.asIssued_map _ _ _ (fun s => f c (s.asLane c.uid l) l) Except.ok)
      have : uniMem g c s = uniWise (fun _ _ _ => ((acting f c s l).1, .ok (acting f c s l).2)) c s := by
        simp only [uniMem, hon, h]; rfl
      rw [this, uniWise_ok hon rfl]
      simp [onceFor, hon])

/-- Where no lane's access would wait, an instruction issued quad-whole runs lane by lane. -/
theorem quadWise_none {pre : Ctx → State → Nat → LaneRes} {g : Ctx → State → Nat → State × LaneRes} {c : Ctx} {s : State}
    (h : ∀ l ∈ c.on, wouldHold pre c s l = false) : quadWise pre g c s = memWise g c s := by
  have : c.on.filter (wouldHold pre c s) = [] := by
    rw [List.filter_eq_nil_iff]; intro l hl; simp [h l hl]
  simp only [quadWise, this, List.map_nil, memWise]
  simp [sortedSet]

theorem DoesQuad.of_lane {i : Instr} {e0 : Enc} {P : Ctx → State → Nat → Prop} {f : Ctx → State → Nat → State × LaneOut}
    {pre : Ctx → State → Nat → LaneRes} {g : Ctx → State → Nat → State × LaneRes} (he : encOf i = some e0)
    (hx : ∀ s, exec i s = .next (slotEnd i (runPacket e0 (quadWise pre g) (slotStart i e0 s))))
    (hg : ∀ c s l, c.e = e0 → l ∈ c.on → P c s l → g c s l = ((f c s l).1, .ok (f c s l).2) ∧ ∃ o, pre c s l = .ok o) : DoesQuad i P f :=
  PacketDoes.of (post := fun _ s => s) he hx (fun c s hc _ _ hM => by
    rw [quadWise_none (fun l hl => ?_)]
    · simp only [memWise]
      rw [laneWise_of LaneRes.ok (fun s l hl hP => byLane_ok (fun s hs => (hg c s l hc hl hs).1) hP) hM.2, State.commit_oks]; rfl
    · have h := (State.asIssued_congr (f := fun s => (s, pre c (s.asLane c.uid l) l))
        (g := fun s => (s, LaneRes.ok ((match pre c (s.asLane c.uid l) l with | .ok o => o | _ => {}) : LaneOut))) (hM.1 l hl) (fun s hs => by
          obtain ⟨o, ho⟩ := (hg c _ l hc hl hs).2
          rw [ho])).trans (State.asIssued_map s c.uid l (fun s => (s, ((match pre c (s.asLane c.uid l) l with | .ok o => o | _ => {}) : LaneOut))) LaneRes.ok)
      simp only [wouldHold, h])

theorem FaultsMemThen.of_lane {i : Instr} {e0 : Enc} {P : Ctx → State → Nat → Prop} {f : Ctx → State → Nat → State × LFault}
    {g : Ctx → State → Nat → State × LaneRes} {post : Ctx → State → State} (he : encOf i = some e0)
    (hx : ∀ s, exec i s = .next (slotEnd i (runPacketThen e0 (memWise g) post (slotStart i e0 s))))
    (hg : ∀ c s l, c.e = e0 → P c s l → g c s l = ((f c s l).1, .fault (f c s l).2)) : FaultsMemThen i P f post :=
  PacketDoes.of he hx (fun c s hc _ _ hM => by
    rw [show memWise g c s = laneWise (byLane g) c s from rfl,
      laneWise_of LaneRes.fault (fun s l _ hP => byLane_fault (fun s hs => hg c s l hc hs) hP.1 hP.2) hM, State.commit_faults])

theorem FaultsMem.of_lane {i : Instr} {e0 : Enc} {P : Ctx → State → Nat → Prop} {f : Ctx → State → Nat → State × LFault}
    {g : Ctx → State → Nat → State × LaneRes} {post : Ctx → State → State} (he : encOf i = some e0)
    (hx : ∀ s, exec i s = .next (slotEnd i (runPacketThen e0 (memWise g) post (slotStart i e0 s)))) (hp : ∀ c s, post c s = s)
    (hg : ∀ c s l, c.e = e0 → P c s l → g c s l = ((f c s l).1, .fault (f c s l).2)) : FaultsMem i P f := by
  obtain rfl : post = fun _ s => s := by funext c s; exact hp c s
  exact FaultsMemThen.of_lane he hx hg

theorem FaultsOnceMem.of_uni {i : Instr} {e0 : Enc} {P : Ctx → State → Nat → Prop} {f : Ctx → State → Nat → State × LFault}
    {g : Ctx → State → Nat → State × Except LFault UniOut} {post : Ctx → State → State} (he : encOf i = some e0)
    (hx : ∀ s, exec i s = .next (slotEnd i (runPacketThen e0 (uniMem g) post (slotStart i e0 s)))) (hp : ∀ c s, post c s = s)
    (hg : ∀ c s l, c.e = e0 → P c s l → g c s l = ((f c s l).1, .error (f c s l).2)) : FaultsOnceMem i P f :=
  PacketDoes.of he hx (fun c s hc hne _ hM => by
    cases hon : c.on with
    | nil => exact absurd hon hne
    | cons l ls =>
      obtain ⟨hP, hf⟩ := hM l (by rw [hon]; rfl)
      have h := (State.asIssued_congr (f := fun s => g c (s.asLane c.uid l) l) hP (fun s hs => hg c _ l hc hs)).trans
        (State.asIssued_map _ _ _ (fun s => f c (s.asLane c.uid l) l) Except.error)
      simp only [faulting] at hf
      have hm : c.all.map (fun k => (k, LaneRes.fault (faulting f c s l).2)) =
          (c.all.map (fun k => (k, (faulting f c s l).2))).map (fun x => (x.1, .fault x.2)) := by simp
      rw [hp]
      simp only [uniMem, hon, h, hf, Bool.false_eq_true, if_false, uniWise]
      rw [← State.commit_faults, ← hm]
      rfl)

/-- An instruction whose meaning is one runPacket does to the packet what its body answers. -/
theorem DoesAll.of_packet {i : Instr} {e0 : Enc} {P : Ctx → State → Prop} {f g : Ctx → State → State × WaveOut} (he : encOf i = some e0)
    (hx : ∀ s, exec i s = .next (slotEnd i (runPacket e0 g (slotStart i e0 s)))) (hg : ∀ c s, c.e = e0 → (s.wave? c.uid).isSome → P c s → g c s = f c s) : DoesAll i P f :=
  PacketDoes.of (post := fun _ s => s) he hx (fun c s hc _ hw hM => by rw [hg c s hc hw hM])

end Sys2Proof.Machine
end

