-- ==== Sys2Proof/Laws/Shape.lean ====
section
/-!
SUPPORT. The shape that every instruction of a thread has: it runs over the packet at the head of the slot. A statement about all instructions cites this
instead of unfolding the dispatch.
-/

namespace Sys2Proof.Machine

/-- An instruction with an encoding runs over the packet. -/
theorem exec_shape {i : Instr} {e : Enc} (h : encOf i = some e) :
    ∃ body post, ∀ s, exec i s = .next (slotEnd i (runPacketThen e body post (slotStart i e s))) := by
  cases i <;> first | (cases h; exact ⟨_, _, fun _ => rfl⟩) | cases h

end Sys2Proof.Machine
end

