-- ==== Sys2Proof/Tests/Slice0.lean ====
section
/-!
SUPPORT. Tests: ill-formed terms that the checks refuse, encodings of the spec that decode to their instructions, one step on small states, and for each
statement states and operands that meet its hypotheses.
-/

open Sys2Proof Sys2Proof.Machine

namespace Sys2Proof.Tests

set_option Elab.async false

/-! ## WellFormed refuses an ill-formed term for each check -/

/-- A header with no guard and no settle marker. -/
def hdr (mx : BitVec 4) (d a b c : BitVec 8) (u : Bool) (len : Len) : Hdr := ⟨mx, c, b, a, d, false, 7, u, false, len⟩

/-- R101 check 2: IADD has no 128-bit form. -/
theorem test_ill_length : wellFormed (.iadd (hdr 0 5 4 3 0 false .w128) ⟨0, 0, false, .i32⟩ 0) = false := by decide +kernel

/-- R101 check 2: bits above the length are zero. -/
theorem test_ill_tail : wellFormed (.iadd (hdr 0 5 4 3 0 false .w64) ⟨0, 0, false, .i32⟩ 1) = false := by decide +kernel

/-- R101 check 2: BRA has no uniform form. -/
theorem test_ill_uniform : wellFormed (.bra (hdr 0 0 0 0 0 true .w96) ⟨0⟩ 0) = false := by decide +kernel

/-- R101 check 3: MMA takes MX 3 alone. -/
theorem test_ill_mx : wellFormed (.mma (hdr 0 0 2 0 0 false .w128) ⟨0, .i32⟩ 0) = false := by decide +kernel

/-- R101 check 3: a uniform IADD has no vector operand. -/
theorem test_ill_kind : wellFormed (.iadd (hdr 0 4 4 4 0 true .w64) ⟨0, 0, false, .i32⟩ 0) = false := by decide +kernel

/-- R101 check 4: the field of the owner of the immediate word holds zero. -/
theorem test_ill_owner : wellFormed (.iadd (hdr 4 5 4 1 0 false .w96) ⟨0, 0, false, .i32⟩ 9) = false := by decide +kernel

/-- R101 check 4: an unused field holds zero. -/
theorem test_ill_unused : wellFormed (.bra (hdr 0 1 0 0 0 false .w96) ⟨0⟩ 0) = false := by decide +kernel

/-- R101 check 4: FN of NOP is zero. -/
theorem test_ill_fn : wellFormed (.nop (hdr 0 0 0 0 0 false .w64) ⟨1⟩ 0) = false := by decide +kernel

/-- R101 check 4: mask m12 does not exist. -/
theorem test_ill_class : wellFormed (.mwait (hdr 0 0 12 0 0 false .w64) ⟨0⟩ 0) = false := by decide +kernel

/-- R101 check 4: MJOIN has no mask m0. -/
theorem test_ill_class_low : wellFormed (.mjoin (hdr 0 0 0 0 0 false .w64) ⟨0⟩ 0) = false := by decide +kernel

/-- R101 check 4: B of RLD is a word number of at most 15. -/
theorem test_ill_immediate : wellFormed (.rld (hdr 4 5 4 16 0 false .w64) ⟨0, .i32⟩ 0) = false := by decide +kernel

/-- R101 check 4: FETCHW names a token. -/
theorem test_ill_token : wellFormed (.fetchw (hdr 7 4 4 0 0 false .w64) ⟨2, .i32⟩ 0) = false := by decide +kernel

/-- R101 check 4: reserved bits of a long form are zero. -/
theorem test_ill_reserved : wellFormed (.tcpy (hdr 3 0x11 0x14 0 2 false .w128) ⟨0, .i32⟩ 0x40) = false := by decide +kernel

/-- An event has no encoding. -/
theorem test_ill_event : wellFormed .issueSlot = false := by decide +kernel

/-- R101 check 5: a register range is aligned and inside the wave's registers; it is no part of WellFormed. -/
theorem test_check5 : ((encOf (.twait (hdr 2 0 0 191 0 false .w64) ⟨0⟩ 0)).map (fun e => (e.check5 64 192, e.check5 64 191))) = some (true, false) := by
  decide +kernel

/-! ## Words of the spec decode -/

/-- The word decodes to the instruction, and the instruction encodes as the word. -/
def reads (n w : Nat) (i : Instr) : Bool :=
  (match decodeBytes (leBytes n w) with | .ok (j, []) => decide (j = i) | _ => false) && decide (encode i = leBytes n w)

/-- Float group, R100. -/
theorem test_decode_ffma : reads 8 0x0001_0B0A_0908_A234
    (.ffma ⟨0, 0x0B, 0x0A, 0x09, 0x08, true, 2, false, true, .w64⟩ ⟨0, .f32, false, false, false, false, false, .rz⟩ 0) = true := by decide +kernel

/-- Integer group with an immediate word, R100. -/
theorem test_decode_iadd : reads 12 0x0001_0000_4000_0000_0504_7001
    (.iadd ⟨4, 0, 0, 5, 4, false, 7, false, false, .w96⟩ ⟨0, 0, false, .i32⟩ 0x10000) = true := by decide +kernel

/-- Memory group. -/
theorem test_decode_ld : reads 8 0x7010_4000_0206_7800
    (.ld ⟨7, 0x40, 0, 2, 6, false, 7, false, false, .w64⟩ ⟨false, .plain, 0, .b32, 0⟩ 0) = true := by decide +kernel

/-- Memory group. -/
theorem test_decode_st : reads 8 0x7018_0000_020A_7810
    (.st ⟨7, 0, 0, 2, 0xA, false, 7, false, false, .w64⟩ ⟨false, .plain, 0, .b64, 0⟩ 0) = true := by decide +kernel

/-- Control group. -/
theorem test_decode_bra : reads 12 0xFFFF_FFC0_0000_0000_0000_7601
    (.bra ⟨0, 0, 0, 0, 0, false, 7, false, false, .w96⟩ ⟨0⟩ 0xFFFFFFC0) = true := by decide +kernel

/-- Synchronisation group. -/
theorem test_decode_mwait : reads 8 0x0000_0000_0300_7720
    (.mwait ⟨0, 0, 0, 3, 0, false, 7, false, false, .w64⟩ ⟨0⟩ 0) = true := by decide +kernel

/-- Synchronisation group. -/
theorem test_decode_bar : reads 8 0x4005_0200_0000_7750
    (.bar ⟨4, 2, 0, 0, 0, false, 7, false, false, .w64⟩ ⟨5⟩ 0) = true := by decide +kernel

/-- Engines group. -/
theorem test_decode_amsg : reads 8 0x8030_0704_0803_7AC0
    (.amsg ⟨8, 7, 4, 8, 3, false, 7, false, false, .w64⟩ ⟨3, .i32⟩ 0) = true := by decide +kernel

/-- Engines group. -/
theorem test_decode_tkpost : reads 8 0x3020_0012_0406_7A00
    (.tkpost ⟨3, 0, 0x12, 4, 6, false, 7, false, false, .w64⟩ ⟨2, .i32⟩ 0) = true := by decide +kernel

/-- Engines group. -/
theorem test_decode_cbwt : reads 12 0x0000_1000_4000_0000_0005_7A91
    (.cbwt ⟨4, 0, 0, 0, 5, false, 7, false, false, .w96⟩ ⟨0, .i32⟩ 0x1000) = true := by decide +kernel

/-- Tensor group. -/
theorem test_decode_tcpy : reads 16 0x0000_0000_0000_0003_3000_0200_1411_7B02
    (.tcpy ⟨3, 2, 0, 0x14, 0x11, false, 7, false, false, .w128⟩ ⟨0, .i32⟩ 3) = true := by decide +kernel

/-- Streams and gather group. -/
theorem test_decode_stnxt : reads 16 0x0000_0000_0000_5413_1020_1E02_0114_7C12
    (.stnxt ⟨1, 0x1E, 2, 1, 0x14, false, 7, false, false, .w128⟩ ⟨2, .i32⟩ 0x5413) = true := by decide +kernel

/-- Neural group. -/
theorem test_decode_nqry : reads 8 0xA000_0000_0508_7D48
    (.nqry ⟨0xA, 0, 0, 5, 8, false, 7, true, false, .w64⟩ ⟨0, .i32⟩ 0) = true := by decide +kernel

/-- Textures and derivatives. -/
theorem test_decode_ddx : reads 8 0x001A_0000_0809_7DC0
    (.ddx ⟨0, 0, 0, 8, 9, false, 7, false, false, .w64⟩ ⟨1, .f32⟩ 0) = true := by decide +kernel

/-- Ray group. -/
theorem test_decode_rtrace : reads 8 0x1000_1400_0C05_7E00
    (.rtrace ⟨1, 0x14, 0, 0x0C, 5, false, 7, false, false, .w64⟩ ⟨0, .i32⟩ 0) = true := by decide +kernel

/-- Moves and lanes group. -/
theorem test_decode_ballot : reads 8 0x2010_0006_0102_7570
    (.ballot ⟨2, 0, 6, 1, 2, false, 7, false, false, .w64⟩ ⟨0, 1, .i32⟩ 0) = true := by decide +kernel

/-- Moves and lanes group. -/
theorem test_decode_xchgm : reads 12 0x00FF_00FF_7008_0008_0406_75D5
    (.xchgm ⟨7, 0, 8, 4, 6, false, 7, false, true, .w96⟩ ⟨0, 0, .b32⟩ 0xFF00FF) = true := by decide +kernel

/-- System group. -/
theorem test_decode_csrrd : reads 8 0xA000_0000_0814_7F28
    (.csrrd ⟨0xA, 0, 0, 8, 0x14, false, 7, true, false, .w64⟩ ⟨0, .i32⟩ 0) = true := by decide +kernel

/-- System group, by sub-operation. -/
theorem test_decode_rcbop : reads 8 0xA000_0000_1814_7F78
    (.rcbopReg ⟨0xA, 0, 0, 0x18, 0x14, false, 7, true, false, .w64⟩ ⟨0, .i32⟩ 0) = true := by decide +kernel

/-- System group, by sub-operation. -/
theorem test_decode_tlbop : reads 8 0xA000_000A_0814_7F88
    (.tlbopVa ⟨0xA, 0, 0xA, 8, 0x14, false, 7, true, false, .w64⟩ ⟨0, .i32⟩ 0) = true := by decide +kernel

/-- System group, by sub-operation. -/
theorem test_decode_wtbl : reads 8 0xA000_0605_0414_7FA8
    (.wtblSync ⟨0xA, 6, 5, 4, 0x14, false, 7, true, false, .w64⟩ ⟨0, .i32⟩ 0) = true := by decide +kernel

/-- System group, by sub-operation. -/
theorem test_decode_svcall : reads 8 0xA000_0000_0814_7F98
    (.svcallAtt ⟨0xA, 0, 0, 8, 0x14, false, 7, true, false, .w64⟩ ⟨0, .i32⟩ 0) = true := by decide +kernel

/-- A convert, CVT.f16.f32.rz of v4 into v5: opcode 0x40, FN holds ST 10, DT 11 and RND 1 (R91). -/
theorem test_decode_cvt : reads 8 0x0AB1_0000_0405_7400 (.cvt (hdr 0 5 4 0 0 false .w64) ⟨.f32, .f16, false, .rz⟩ 0) = true := by decide +kernel

/-- ISETP.lt.i32 of v4 and v5 into p1: opcode 0x50, FN holds CMP 2 (R91). -/
theorem test_decode_isetp : reads 8 0x0020_0005_0401_7500 (.isetp (hdr 0 1 4 5 0 false .w64) ⟨.none, .lt, .i32⟩ 0) = true := by decide +kernel

/-- A reserved opcode fails check 1. -/
theorem test_decode_reserved : (match decodeBytes (leBytes 8 0x7FE0) with | .error (.check 1) => true | _ => false) = true := by decide +kernel

/-- LEN 3 names no length. -/
theorem test_decode_len3 : (match decodeBytes (leBytes 8 0x7643) with | .error (.check 2) => true | _ => false) = true := by decide +kernel

/-- The first four bytes alone are not an instruction. -/
theorem test_decode_short : (match decodeBytes [0x40, 0x76, 0, 0] with | .error .crossing => true | _ => false) = true := by decide +kernel

/-! ## One word for each constructor, and its packet -/

def words0 : List (Nat × Nat) :=
  [(8, 0xb002000000007008), (8, 0x7002000000047010), (8, 0x1000000800007020), (8, 0xb000000500097038),
   (8, 0x5200040004007040), (8, 0x4100000008047050), (8, 0xc002000500007068), (8, 0x4000000900087070),
   (12, 0xb000000010057089), (8, 0xe000000004047090), (8, 0x81000000050570a0), (8, 0x10080000000070b0),
   (8, 0x700900040c0470c0), (8, 0x80080000010c70d0), (8, 0x400900000c0070e0), (8, 0x80010008000470f0),
   (8, 0x7008000c01017100), (8, 0xb000000c00047118), (8, 0x7208001004007120), (8, 0x9208101000017130),
   (8, 0x4000000000007140), (8, 0x8088000500097150), (8, 0x9008000001047160), (8, 0xa008000004047178),
   (8, 0x2009000004007180)]

def words1 : List (Nat × Nat) :=
  [(8, 0x3008000001007190), (8, 0x2088100c000071a0), (12, 0x490030000000071b1), (8, 0x30000009000071c0),
   (8, 0xb000050c0c1071d8), (8, 0x400040071e0), (8, 0xb0020008000471f8), (8, 0xa000000009047208),
   (8, 0x302a000800007210), (8, 0xb009000000007228), (8, 0x2060000c0c0c7230), (8, 0xb020000404097248),
   (8, 0x9600000009087250), (8, 0x3002000509007260), (8, 0x2100000010057270), (8, 0x400000000c007280),
   (8, 0xb000000005047298), (8, 0x30000000000972a0), (8, 0xa0180000040472b8), (8, 0xb0000000050172c8),
   (8, 0xb0100000000472d8), (8, 0x50080000080072e0), (8, 0x50180000080c72f0), (8, 0x400a000005087300),
   (8, 0xa003000000107318)]

def words2 : List (Nat × Nat) :=
  [(8, 0x1a0010010c7320), (8, 0x2000000004017330), (8, 0x5208000000017340), (8, 0x200000c01007350),
   (8, 0xe208050c01007360), (8, 0x9200000804007370), (8, 0x7300000c00007380), (8, 0x4300000800107390),
   (8, 0x73001009000473a0), (8, 0x23000004000473b0), (8, 0x3000000000c73c0), (8, 0x12001000100473d0),
   (8, 0x56000000000973e0), (8, 0x90000908041073f0), (8, 0x9020000005007400), (8, 0xeaf0000500007410),
   (8, 0x1ab0000800047420), (8, 0x7af0000008107430), (8, 0x1fa0000008007440), (8, 0xf000000000007458),
   (8, 0xd000000000007468), (8, 0x6000000000007470), (8, 0x2000000000007480), (8, 0xb000000100007490),
   (8, 0xd010000009007500)]

def words3 : List (Nat × Nat) :=
  [(8, 0x800d000c00007510), (8, 0x3000000404057528), (8, 0x2030010000007530), (8, 0xb008000000007548),
   (8, 0xa000000004007558), (8, 0x7009000000007560), (8, 0x7010000404007570), (8, 0x7000000004007580),
   (8, 0x900000c007590), (8, 0x30000100075a0), (8, 0xe00000000c0075b0), (8, 0xf2000000000075c0),
   (8, 0x70080c10050575d0), (8, 0x90475e0), (8, 0xe2080000000075f0), (12, 0x40000000000007601),
   (8, 0x7610), (12, 0x10000000000007621), (8, 0x7630), (8, 0x7640),
   (8, 0x7650), (8, 0x7660), (8, 0x7670), (8, 0xaa000000007680),
   (8, 0x9000000007690)]

def words4 : List (Nat × Nat) :=
  [(8, 0xc000076a0), (8, 0x57700), (8, 0x17710), (8, 0x7720),
   (8, 0xa002000000097738), (8, 0xa003000800097748), (8, 0x400b000400007750), (8, 0x4010080000007760),
   (8, 0x2000001007770), (8, 0x4000000500007780), (8, 0x2001000400047790), (8, 0x77a0),
   (8, 0x77b0), (8, 0xa0000000000077c8), (8, 0xb0000008000477d8), (8, 0xe008050009047800),
   (8, 0xe100000100007810), (8, 0x8002000409007820), (8, 0xe008100008007830), (8, 0xc009040000107848),
   (12, 0x107010000004057851), (12, 0x080000007010000004057861), (16, 0x80000000000000017100000000057872), (12, 0x200000000007881),
   (12, 0x8100000009007891)]

def words5 : List (Nat × Nat) :=
  [(8, 0x50020c00000078a0), (8, 0x50078b0), (8, 0x3000001004007a00), (8, 0x4000000400057a10),
   (8, 0x9000000004007a20), (8, 0x30000000100c7a30), (8, 0x3000000001007a40), (8, 0x3000000000007a50),
   (8, 0xe010000000007a60), (8, 0x4000000000007a70), (8, 0x2000000400097a80), (8, 0x900087a90),
   (8, 0x4087aa0), (8, 0x4010000400017ab0), (8, 0x9000100405097ac0), (8, 0x7030000000107ad0),
   (8, 0xa000000004007ae8), (16, 0x13000050008007b02), (16, 0x13000000000037b12), (16, 0x3000000002087b22),
   (16, 0x1000003000000002047b32), (8, 0x3000000000057b40), (8, 0xb00000000c017c00), (16, 0x000000000000541310201E0201147C12),
   (8, 0xa000000004007c20)]

def words6 : List (Nat × Nat) :=
  [(8, 0xa000000004007c30), (8, 0xa000000000007c40), (8, 0xa000000000017c50), (8, 0x1002000800007c60),
   (16, 0x3000030000007c72), (16, 0x3000040004047c82), (16, 0x3000000010007c92), (16, 0x40000020000007d02),
   (8, 0xa000000000007d18), (8, 0xa000000004007d28), (8, 0xa000000005007d38), (8, 0xa00000000c087d48),
   (8, 0xa000000000007d58), (16, 0x1000040c08007d92), (16, 0x1000040008057d82), (16, 0x11000000000037da2),
   (8, 0x1000000010007db0), (8, 0xa000000007dc0), (8, 0x1a000000007dd0), (8, 0x1000100001047e00),
   (8, 0x40a0000009007e10), (8, 0x40000000080c7e20), (8, 0x1007e30), (8, 0x10000400000c7e40),
   (8, 0x10000c00040c7e50)]

def words7 : List (Nat × Nat) :=
  [(8, 0x10017e60), (8, 0xa000000000007e78), (8, 0xf000000000017f08), (8, 0x6000000000007f18),
   (8, 0xa000000010107f28), (8, 0xa000000000007f38), (8, 0xa010000008007f48), (8, 0xb000000004007f58),
   (8, 0x3010000009007f60), (8, 0xa0000000000c7f78), (8, 0xa0100000000c7f78), (8, 0xa020000005007f78),
   (8, 0xa030000005007f78), (8, 0xa040000000007f78), (8, 0xa0000000000c7f88), (8, 0xa010000000007f88),
   (8, 0xa02008050c107f88), (8, 0xa0300904000c7f88), (8, 0xa040000000007f88), (8, 0xa000000000047f98),
   (8, 0xa010000000007f98), (8, 0xa000001000007fa8), (8, 0xa010010000007fa8), (8, 0xa000000000007fb8)]

/-- The word decodes to a well-formed instruction of constructor `k`, whose registers exist in a wave of 64 vector and 192 scalar registers. -/
def wordOk (p : Nat × Nat) (k : Nat) : Bool :=
  match decodeBytes (leBytes p.1 p.2) with
  | .ok (i, []) => (match encOf i with | some e => e.check5 64 192 && e.h.pg = 7 && !e.h.pn | none => false) && Instr.ctorIdx i = k && wellFormed i
  | _ => false

theorem test_words0 : (List.range 25).all (fun k => wordOk (words0.getD k (0, 0)) (k + 0)) = true := by decide +kernel

theorem test_words1 : (List.range 25).all (fun k => wordOk (words1.getD k (0, 0)) (k + 25)) = true := by decide +kernel

theorem test_words2 : (List.range 25).all (fun k => wordOk (words2.getD k (0, 0)) (k + 50)) = true := by decide +kernel

theorem test_words3 : (List.range 25).all (fun k => wordOk (words3.getD k (0, 0)) (k + 75)) = true := by decide +kernel

theorem test_words4 : (List.range 25).all (fun k => wordOk (words4.getD k (0, 0)) (k + 100)) = true := by decide +kernel

theorem test_words5 : (List.range 25).all (fun k => wordOk (words5.getD k (0, 0)) (k + 125)) = true := by decide +kernel

theorem test_words6 : (List.range 25).all (fun k => wordOk (words6.getD k (0, 0)) (k + 150)) = true := by decide +kernel

theorem test_words7 : (List.range 24).all (fun k => wordOk (words7.getD k (0, 0)) (k + 175)) = true := by decide +kernel

/-! ## Small states -/

/-- A region of its own in the physical address space. -/
def labRegion : Region :=
  { rid := 1, adr := 0x2000, parent := 0, depth := 1, fdom := true, ssm := false, priv := true, prio := 15, part := some 0, inh := 0, ptroot := none,
    cores := 8, vrkb := 196608, lskb := 73728, csmb := 1, csmBase := 0, tslice := 0, tbud := 0, save := 0, fq := 0x3000, fqn := 16, hpool := 2, hvreg := 4,
    hsreg := 4, fhnd := 0x5000, abnd := 0, amtbl := 0x5800, g0b := 0, g0l := 0, g6b := 0xA000, nhnd := 4, g7b := 0xC000, nray := 4, cgrp := 0, cgsz := 0,
    peerix := 0, prva := 0, prvmx := 0, prvn := 0, pool := 1, retiring := false, fqW := 0, fqD := 0, charge := 0, stepno := 0, stepArr := [], stepSet := [],
    stepMask := none, stepPeers := [], grpActive := false, grpOver := false, aborting := false, abTokens := [], abWave := none, abHold := false, abClk := 0,
    stepView := [] }

/-- A privileged wave of that region with the given scalars and registers of lane 0: `lanes` lanes at 0x1000, 64 vector and 192 scalar registers. -/
def labWave (lanes : Nat) (ss vs : List Nat) : Wave :=
  let w := startWave 1 ⟨0, 0, 0, 0, .active⟩ .launch 1 lanes 0x1000 64 192 true
    [(0, mkSeg 0x10000 0x10000 true), (1, mkSeg 0x8000 0x1000 false), (2, mkSeg 0 0x10000 true), (3, mkSeg 0 0x10000 true),
     (4, mkSeg 0 0x10000 true), (6, mkSeg 0xA000 0x1000 false), (7, mkSeg 0xC000 0x10000 true)] []
  { w with
    gid := 1, lid := 1, nbar := 4, quadFlag := true, htbl := 0x6000, al2 := (0, 65536), al3 := (0, 65536),
    s := ((List.range ss.length).zip (ss.map (BitVec.ofNat 32))).filter (fun p => p.2 ≠ 0),
    v := (((List.range vs.length).map (fun i => 128 * i)).zip (vs.map (BitVec.ofNat 32))).filter (fun p => p.2 ≠ 0) }

/-- The machine with that wave, the lanes `ls` of it in the packet of the slot, every feature granted. -/
def labOf (w : Wave) (ls : List Nat) : State :=
  { State.reset with
    packets := [⟨0, 0, 0, 0x1000, [(1, ls)]⟩], fresh := 10, booted := true, waves := [w], regions := [labRegion],
    grant := BitVec.ofNat 64 (2 ^ 64 - 1) }

/-- The machine with bytes in device memory. -/
def withBytes (s : State) (a : Nat) (bs : List Byte) : State := { s with mem := writeBytes s.mem a bs }

/-- The encoding of an instruction, for one that has it. -/
def encD (i : Instr) : Enc := (encOf i).getD ⟨0, default, 0, 0⟩

/-- The hypotheses that every instruction's statement shares, as a check. -/
def ready (i : Instr) (s : State) (w : Wave) (ls : List Nat) (pc : VA) : Bool :=
  wellFormed i && decide (encOf i = some (encD i)) && (encD i).check5 w.V w.S && (!(encD i).priv || w.priv) && !(guarded (encD i) w ls).isEmpty &&
    (match s.packets with | p :: _ => decide (p.pc = pc) && decide (p.waves = [(w.uid, ls)]) | [] => false) &&
    decide (s.wave? w.uid = some w) && decide ls.Nodup && ls.all (fun l => decide ((w.thread l).st ≠ .notLaunched)) && decide (s.tretQ = []) &&
    ls.all (fun l => decide ((w.thread l).hseg = none))

/-- A packet that may execute the instruction `i`. -/
structure Meets (i : Instr) (e : Enc) (s : State) (w : Wave) (ls : List Nat) (pc : VA) : Prop where
  enc : encOf i = some e
  group : Group s w ls pc
  able : Able e w
  some' : guarded e w ls ≠ []
  fresh : ∀ l ∈ ls, (w.thread l).hseg = none

theorem meets_of {i : Instr} {s : State} {w : Wave} {ls : List Nat} {pc : VA} (h : ready i s w ls pc = true) : Meets i (encD i) s w ls pc := by
  simp only [ready, Bool.and_eq_true, decide_eq_true_eq, Bool.not_eq_true', List.isEmpty_eq_false_iff, List.all_eq_true, Bool.or_eq_true] at h
  obtain ⟨⟨⟨⟨⟨⟨⟨⟨⟨⟨-, h1⟩, h2⟩, h3⟩, h4⟩, h5⟩, h6⟩, h7⟩, h8⟩, h9⟩, h10⟩ := h
  refine ⟨h1, ⟨?_, h6, h7, h8, fun _ => h9⟩, ⟨h2, fun hp => ?_⟩, h4, h10⟩
  · split at h5
    · rename_i p ps hps
      simp only [Bool.and_eq_true, decide_eq_true_eq] at h5
      exact ⟨p, ps, hps, h5⟩
    · cases h5
  · rcases h3 with h3 | h3
    · simp [hp] at h3
    · exact h3

/-- A packet of lane 0 alone that may execute the instruction, and that finds the machine in a state that satisfies `P`. -/
def Fits (i : Instr) (s : State) (P : Ctx → State → Nat → Prop) : Prop :=
  ∃ e p ps w, encOf i = some e ∧ s.packets = p :: ps ∧ p.waves = [(w.uid, [0])] ∧
    let t : State := { slotStart i e s with packets := ps }
    let u := t.started e w [0] p.pc
    t.wave? w.uid = some w ∧ Able e w ∧ guarded e w [0] = [0] ∧ (u.thread w.uid 0).hseg = none ∧ P (ctxOf e w [0] p.pc) u 0

/-- The lab with scalars and registers, its packet lane 0. -/
def lab (ss vs : List Nat) : State := labOf (labWave 4 ss vs) [0]

/-- The state in which lane 0 of the packet at 0x1000 executes. -/
def onset (i : Instr) (s : State) (w : Wave) : State :=
  ({ slotStart i (encD i) s with packets := s.packets.tail } : State).started (encD i) w [0] 0x1000

/-- The conditions of Fits that do not rest on `P`, as a check. -/
def readyOne (i : Instr) (s : State) (w : Wave) : Bool :=
  wellFormed i && decide (encOf i = some (encD i)) && (match s.packets with | p :: _ => decide (p.pc = 0x1000) && decide (p.waves = [(w.uid, [0])]) | [] => false) &&
    decide (({ slotStart i (encD i) s with packets := s.packets.tail } : State).wave? w.uid = some w) && (encD i).check5 w.V w.S && (!(encD i).priv || w.priv) &&
    decide (guarded (encD i) w [0] = [0]) && decide (((onset i s w).thread w.uid 0).hseg = none)

theorem fits_of {i : Instr} {s : State} {P : Ctx → State → Nat → Prop} (w : Wave) (h : readyOne i s w = true)
    (p : P (ctxOf (encD i) w [0] 0x1000) (onset i s w) 0) : Fits i s P := by
  simp only [readyOne, Bool.and_eq_true, decide_eq_true_eq, Bool.not_eq_true', Bool.or_eq_true] at h
  obtain ⟨⟨⟨⟨⟨⟨⟨-, h1⟩, h2⟩, h3⟩, h4⟩, h5⟩, h6⟩, h7⟩ := h
  cases hs : s.packets with
  | nil => rw [hs] at h2; cases h2
  | cons q ps =>
    rw [hs] at h2
    simp only [Bool.and_eq_true, decide_eq_true_eq] at h2
    unfold onset at h7 p
    simp only [hs, List.tail_cons] at h3 h7 p
    refine ⟨_, q, ps, w, h1, hs, h2.2, h3, ⟨h4, fun hp => ?_⟩, h6, ?_, ?_⟩
    · rcases h5 with h5 | h5
      · simp [hp] at h5
      · exact h5
    · rw [h2.1]; exact h7
    · rw [h2.1]; exact p

/-- Fits meets the hypotheses of Does and of Faults, whatever the effect, -/
theorem Fits.lanes {i : Instr} {s : State} {P : Ctx → State → Nat → Prop} (h : Fits i s P) {α : Type} (f : Ctx → State → Nat → State × α) (F : Ctx → State → State) :
    ∃ e p ps, encOf i = some e ∧ s.packets = p :: ps ∧
      WavesMeet e (fun c s => LanesMeet P f c s c.on ∧ ∀ l ∈ c.on, P c s l) F p.pc { slotStart i e s with packets := ps } p.waves := by
  obtain ⟨e, p, ps, w, h1, h2, h3, h4, h5, h6, -, h8⟩ := h
  refine ⟨e, p, ps, h1, h2, ?_⟩
  rw [h3]
  have hc : (ctxOf e w [0] p.pc).on = [0] := h6
  refine ⟨⟨w, h4, h5, fun _ => ?_⟩, trivial⟩
  dsimp only
  rw [hc]
  exact ⟨⟨h8, trivial⟩, fun l hl => by simp only [List.mem_singleton] at hl; rw [hl]; exact h8⟩

/-- and those of DoesOnce. -/
theorem Fits.once {i : Instr} {s : State} {P : Ctx → State → Nat → Prop} (h : Fits i s P) (F : Ctx → State → State) :
    ∃ e p ps, encOf i = some e ∧ s.packets = p :: ps ∧
      WavesMeet e (fun c s => ∀ l, c.on.head? = some l → P c s l) F p.pc { slotStart i e s with packets := ps } p.waves := by
  obtain ⟨e, p, ps, w, h1, h2, h3, h4, h5, h6, -, h8⟩ := h
  refine ⟨e, p, ps, h1, h2, ?_⟩
  rw [h3]
  have hc : (ctxOf e w [0] p.pc).on = [0] := h6
  refine ⟨⟨w, h4, h5, fun _ l hl => ?_⟩, trivial⟩
  rw [hc] at hl
  simp only [List.head?_cons, Option.some.injEq] at hl
  rw [← hl]; exact h8

/-- Is the answer a value, and no fault? -/
def isOk {α β : Type} (x : Except α β) : Bool := match x with | .ok _ => true | .error _ => false

/-- As Fits, for an instruction that accesses memory. -/
def FitsM (i : Instr) (s : State) (P : Ctx → State → Nat → Prop) : Prop := Fits i s (fun c s l => P c (s.asLane c.uid l) l)

theorem whenActing_of {P : Ctx → State → Nat → Prop} {c : Ctx} {s : State} {l : Nat} (h : (s.thread c.uid l).hseg = none) (p : P c (s.asLane c.uid l) l) :
    whenActing P c s l := by
  unfold whenActing State.asIssued; rw [h]; exact p

/-- FitsM meets the hypotheses of DoesMem and of DoesOnceMem, -/
theorem FitsM.acting {i : Instr} {s : State} {P : Ctx → State → Nat → Prop} (h : FitsM i s P) : Fits i s (whenActing P) := by
  obtain ⟨e, p, ps, w, h1, h2, h3, h4, h5, h6, h7, h8⟩ := h
  exact ⟨e, p, ps, w, h1, h2, h3, h4, h5, h6, h7, whenActing_of h7 h8⟩

/-- and, where the fault is one that does not wait, those of FaultsMem and of FaultsOnceMem. -/
theorem FitsM.faulting {i : Instr} {s : State} {P : Ctx → State → Nat → Prop} {f : Ctx → State → Nat → State × LFault}
    (h : FitsM i s (fun c s l => P c s l ∧ (f c s l).2.holds = false)) :
    Fits i s (fun c s l => whenActing P c s l ∧ (Sys2Proof.Machine.faulting f c s l).2.holds = false) := by
  obtain ⟨e, p, ps, w, h1, h2, h3, h4, h5, h6, h7, h8, h9⟩ := h
  refine ⟨e, p, ps, w, h1, h2, h3, h4, h5, h6, h7, whenActing_of h7 h8, ?_⟩
  simp only [Sys2Proof.Machine.faulting]
  unfold State.asIssued
  simp only [show (ctxOf e w [0] p.pc).uid = w.uid from rfl, h7]
  exact h9

/-- What a computation answers, if it answers, satisfies `p`. -/
def okAnd {α β : Type} (x : Except α β) (p : β → Bool) : Bool := match x with | .ok a => p a | .error _ => false

/-! ## Every encodable instruction has a packet that may execute it -/

/-- The packet of lanes 0 and 2 of the lab may execute the instruction that the word decodes to. -/
def packetOk (p : Nat × Nat) : Bool :=
  match decodeBytes (leBytes p.1 p.2) with
  | .ok (i, _) => ready i (labOf (labWave 4 [] []) [0, 2]) (labWave 4 [] []) [0, 2] 0x1000
  | .error _ => false

theorem wit_packets0 : words0.all packetOk = true := by decide +kernel
theorem wit_packets1 : words1.all packetOk = true := by decide +kernel
theorem wit_packets2 : words2.all packetOk = true := by decide +kernel
theorem wit_packets3 : words3.all packetOk = true := by decide +kernel
theorem wit_packets4 : words4.all packetOk = true := by decide +kernel
theorem wit_packets5 : words5.all packetOk = true := by decide +kernel
theorem wit_packets6 : words6.all packetOk = true := by decide +kernel
theorem wit_packets7 : words7.all packetOk = true := by decide +kernel

theorem packet_meets (p : Nat × Nat) (h : packetOk p = true) :
    ∃ i rest e s w ls pc, decodeBytes (leBytes p.1 p.2) = .ok (i, rest) ∧ Meets i e s w ls pc := by
  unfold packetOk at h
  split at h
  · rename_i i rest hd
    exact ⟨i, rest, _, _, _, _, _, hd, meets_of h⟩
  · cases h

/-! ## Witnesses: computing instructions -/

/-- BALLOT and REDUX with a scalar D (ScalarLaneForms). -/
theorem wit_scalarLaneForms :
    (∃ e s w ls pc, Meets (.ballot (hdr 0xD 8 1 0 0 false .w64) ⟨0, 0, .i32⟩ 0) e s w ls pc) ∧
    (∃ e s w ls pc, Meets (.redux (hdr 0xD 8 1 0 0 false .w64) ⟨0, 0, .i32⟩ 0) e s w ls pc) :=
  ⟨⟨_, _, labWave 4 [] [], [0, 2], _, meets_of (s := labOf (labWave 4 [] []) [0, 2]) (pc := 0x1000) (by decide +kernel)⟩,
   ⟨_, _, labWave 4 [] [], [0, 2], _, meets_of (s := labOf (labWave 4 [] []) [0, 2]) (pc := 0x1000) (by decide +kernel)⟩⟩

/-- The lane instructions with a vector D, and QUADS in a wave with the quad flag (LaneRowsCompute, ShuffleSources at each mode). -/
theorem wit_laneRows :
    ([Instr.shfl (hdr 7 5 4 9 0 false .w64) ⟨0, 0, .b32⟩ 0, .shfl (hdr 7 5 4 9 0 false .w64) ⟨0, 1, .b32⟩ 0,
      .shfl (hdr 7 5 4 9 0 false .w64) ⟨0, 2, .b32⟩ 0, .shfl (hdr 7 5 4 9 0 false .w64) ⟨0, 3, .b32⟩ 0,
      .ballot (hdr 0 5 1 0 0 false .w64) ⟨0, 1, .i32⟩ 0, .vote (hdr 0 1 2 0 0 false .w64) ⟨0, 0, .i32⟩ 0,
      .matchLanes (hdr 0 5 4 0 0 false .w64) ⟨0, 0, .b32⟩ 0, .redux (hdr 0 5 4 0 0 false .w64) ⟨0, 0, .i32⟩ 0,
      .scan (hdr 0 5 4 0 0 false .w64) ⟨0, 0, .i32⟩ 0, .elect (hdr 0 1 0 0 0 false .w64) ⟨0, 0, .i32⟩ 0,
      .xchgm (hdr 7 6 4 8 0 false .w96) ⟨0, 0, .b32⟩ 0xFF00FF, .quads (hdr 0 5 4 0 0 false .w64) ⟨0, 0, .b32⟩ 0].map
      (fun i => ready i (labOf (labWave 4 [] []) [0, 2]) (labWave 4 [] []) [0, 2] 0x1000)) = List.replicate 12 true := by decide +kernel

/-! ## Witnesses: control flow -/

theorem wit_jumpsComplete :
    Fits (.bra (hdr 0 0 0 0 0 false .w96) ⟨0⟩ 0x10) (lab [] []) (fun c _ _ => (labelTarget c 0x10).toNat % 4 = 0) ∧
    Fits (.brx (hdr 3 0 4 0 0 false .w64) ⟨0⟩ 0) (lab [0, 0, 0, 0, 0x2000] []) (fun c s l => (s.pairTarget c l).toNat % 4 = 0) ∧
    Fits (.call (hdr 0 0 0 0 0 false .w96) ⟨0⟩ 0xFFFFFFF0) (lab [] []) (fun c _ _ => (labelTarget c 0xFFFFFFF0).toNat % 4 = 0) ∧
    Fits (.callx (hdr 3 0 4 0 0 false .w64) ⟨0⟩ 0) (lab [0, 0, 0, 0, 0x2000] []) (fun c s l => (s.pairTarget c l).toNat % 4 = 0) ∧
    Fits (.ret (hdr 0 0 0 0 0 false .w64) ⟨0⟩ 0) (lab [] []) (fun c s l => (s.thread c.uid l).ra.toNat % 4 = 0) :=
  ⟨fits_of (labWave 4 [] []) (by decide +kernel) (by decide +kernel),
   fits_of (labWave 4 [0, 0, 0, 0, 0x2000] []) (by decide +kernel) (by decide +kernel),
   fits_of (labWave 4 [] []) (by decide +kernel) (by decide +kernel),
   fits_of (labWave 4 [0, 0, 0, 0, 0x2000] []) (by decide +kernel) (by decide +kernel),
   fits_of (labWave 4 [] []) (by decide +kernel) (by decide +kernel)⟩

/-- The lab's wave with ra 2 in lane 0. -/
def waveRa2 : Wave := (labWave 4 [] []).updThread 0 (fun t => { t with ra := 2 })

/-- The jumps of ChecksFault. -/
theorem wit_jumpsFault :
    Fits (.bra (hdr 0 0 0 0 0 false .w96) ⟨0⟩ 0x12) (lab [] []) (fun c _ _ => (labelTarget c 0x12).toNat % 4 ≠ 0) ∧
    Fits (.brx (hdr 3 0 4 0 0 false .w64) ⟨0⟩ 0) (lab [0, 0, 0, 0, 0x2001] []) (fun c s l => (s.pairTarget c l).toNat % 4 ≠ 0) ∧
    Fits (.call (hdr 0 0 0 0 0 false .w96) ⟨0⟩ 0x13) (lab [] []) (fun c _ _ => (labelTarget c 0x13).toNat % 4 ≠ 0) ∧
    Fits (.callx (hdr 3 0 4 0 0 false .w64) ⟨0⟩ 0) (lab [0, 0, 0, 0, 0x2003] []) (fun c s l => (s.pairTarget c l).toNat % 4 ≠ 0) ∧
    Fits (.ret (hdr 0 0 0 0 0 false .w64) ⟨0⟩ 0) (labOf waveRa2 [0]) (fun c s l => (s.thread c.uid l).ra.toNat % 4 ≠ 0) :=
  ⟨fits_of (labWave 4 [] []) (by decide +kernel) (by decide +kernel),
   fits_of (labWave 4 [0, 0, 0, 0, 0x2001] []) (by decide +kernel) (by decide +kernel),
   fits_of (labWave 4 [] []) (by decide +kernel) (by decide +kernel),
   fits_of (labWave 4 [0, 0, 0, 0, 0x2003] []) (by decide +kernel) (by decide +kernel),
   fits_of waveRa2 (by decide +kernel) (by decide +kernel)⟩

/-- The lab with debugging enabled in its quadrant. -/
def labDebug : State := (lab [] []).setCsr (dqctl 0 0 0) 1

theorem wit_threadControl :
    Fits (.exit (hdr 0 0 0 0 0 false .w64) ⟨0⟩ 0) (lab [] []) always ∧
    Fits (.sleep (hdr 4 0 0 3 0 false .w64) ⟨0⟩ 0) (lab [] []) (fun c s l => s.srcCount c l .b ≠ 0) ∧
    Fits (.sleep (hdr 4 0 0 0 0 false .w64) ⟨0⟩ 0) (lab [] []) (fun c s l => s.srcCount c l .b = 0) ∧
    Fits (.bkpt (hdr 0 0 0 0 0 false .w64) ⟨7⟩ 0) labDebug (fun c s _ => s.debugOf c.uid = true) :=
  ⟨fits_of (labWave 4 [] []) (by decide +kernel) trivial,
   fits_of (labWave 4 [] []) (by decide +kernel) (by decide +kernel),
   fits_of (labWave 4 [] []) (by decide +kernel) (by decide +kernel),
   fits_of (labWave 4 [] []) (by decide +kernel) (by decide +kernel)⟩

/-- TRAP; BKPT with debugging off and on (TrapsPark). -/
theorem wit_trapsPark :
    ready (.trap (hdr 0 0 0 0 0 false .w64) ⟨7⟩ 0) (lab [] []) (labWave 4 [] []) [0] 0x1000 = true ∧
    ready (.bkpt (hdr 0 0 0 0 0 false .w64) ⟨7⟩ 0) (lab [] []) (labWave 4 [] []) [0] 0x1000 = true ∧ (lab [] []).debugOn 0 0 0 = false ∧
    ready (.bkpt (hdr 0 0 0 0 0 false .w64) ⟨7⟩ 0) labDebug (labWave 4 [] []) [0] 0x1000 = true ∧ labDebug.debugOn 0 0 0 = true := by
  decide +kernel

/-! ## Witnesses: synchronisation -/

/-- The lab's wave with m1 = lanes 0 and 1, and the site of m1. -/
def waveM1 (site : Option VA) : Wave := { (labWave 4 [] []).setMask 1 3 with msite := Sparse.put none [] 1 site }

theorem wit_mwait :
    (let P := fun (c : Ctx) (s : State) (l : Nat) => (s.wave? c.uid).isSome ∧ inMask ((waveOf c s).mask 1) l = true ∧
       (Sparse.get none (waveOf c s).msite 1).getD c.pc = c.pc
     Fits (.mwait (hdr 0 0 1 0 0 false .w64) ⟨0⟩ 0) (labOf (waveM1 none) [0]) P ∧
     Fits (.mwait (hdr 0 0 1 0 0 false .w64) ⟨0⟩ 0) (labOf (waveM1 (some 0x1000)) [0]) P) ∧
    Fits (.mwait (hdr 0 0 2 0 0 false .w64) ⟨0⟩ 0) (labOf (waveM1 none) [0]) (fun c s l => (s.wave? c.uid).isSome ∧ inMask ((waveOf c s).mask 2) l = false) ∧
    Fits (.mwait (hdr 0 0 1 0 0 false .w64) ⟨0⟩ 0) (labOf (waveM1 (some 0x1008)) [0])
      (fun c s l => (s.wave? c.uid).isSome ∧ inMask ((waveOf c s).mask 1) l = true ∧ (Sparse.get none (waveOf c s).msite 1).getD c.pc ≠ c.pc) :=
  ⟨⟨fits_of (waveM1 none) (by decide +kernel) (by decide +kernel), fits_of (waveM1 (some 0x1000)) (by decide +kernel) (by decide +kernel)⟩,
   fits_of (waveM1 none) (by decide +kernel) (by decide +kernel), fits_of (waveM1 (some 0x1008)) (by decide +kernel) (by decide +kernel)⟩

/-- MOPS of each kind of destination (MasksComplete). -/
theorem wit_mops :
    ([Instr.mops (hdr 0xA 1 2 3 0 true .w64) ⟨0⟩ 0, .mops (hdr 0xA 1 2 0 0 true .w64) ⟨4⟩ 0, .mops (hdr 0xA 4 2 0 0 true .w64) ⟨5⟩ 0,
      .mops (hdr 0xA 4 2 0 0 true .w64) ⟨6⟩ 0].map (fun i => ready i (lab [] []) (labWave 4 [] []) [0] 0x1000)) = List.replicate 4 true := by
  decide +kernel

/-- MJOIN and MLEAVE of m1 in a packet of lanes 0 and 2 (JoinAndLeave). -/
theorem wit_joinAndLeave :
    ready (.mjoin (hdr 0 1 0 0 0 false .w64) ⟨0⟩ 0) (labOf (waveM1 none) [0, 2]) (waveM1 none) [0, 2] 0x1000 = true ∧
    ready (.mleave (hdr 0 1 0 0 0 false .w64) ⟨0⟩ 0) (labOf (waveM1 none) [0, 2]) (waveM1 none) [0, 2] 0x1000 = true := by decide +kernel

theorem wit_barriersComplete :
    Fits (.bar (hdr 4 0 0 1 0 false .w64) ⟨3⟩ 0) (lab [] [])
      (fun c s l => let w := waveOf c s
        let n := (s.workgroup w.gid w.gangwg).length
        let B := s.srcCount c l .b % 2 ^ 16
        (s.wave? c.uid).isSome ∧ 3 < w.nbar ∧ B < 2 ^ n ∧
          arriveFail (s.bar w.gid w.gangwg 3) (resolveW B n) 0 w.uid w.widx l (w.mask 0) = none) ∧
    Fits (.bararr (hdr 4 0 0 1 0 false .w64) ⟨0⟩ 0) (lab [] [])
      (fun c s l => let w := waveOf c s
        let n := (s.workgroup w.gid w.gangwg).length
        let B := s.srcCount c l .b % 2 ^ 16
        (s.wave? c.uid).isSome ∧ 0 < w.nbar ∧ B < 2 ^ n ∧
          arriveFail (s.bar w.gid w.gangwg 0) (resolveW B n) 0 w.uid w.widx l (w.mask 0) = none) ∧
    Fits (.barwt (hdr 0 0 2 0 0 false .w64) ⟨3⟩ 0) (lab [] []) (fun c s _ => (s.wave? c.uid).isSome ∧ 3 < (waveOf c s).nbar) :=
  ⟨fits_of (labWave 4 [] []) (by decide +kernel) (by decide +kernel), fits_of (labWave 4 [] []) (by decide +kernel) (by decide +kernel),
   fits_of (labWave 4 [] []) (by decide +kernel) (by decide +kernel)⟩

/-- The lab's region in supersteps, its wave in the step. -/
def stepRegion : Region := { labRegion with ssm := true, stepSet := [1] }

/-- The lab's wave in a user handler. -/
def waveUi : Wave := { labWave 4 [] [] with uiRun := some (0, 0x2000) }

theorem wit_tokensSteps :
    Fits (.twait (hdr 4 0 0 5 0 false .w64) ⟨0⟩ 0) (lab [] []) always ∧
    Fits (.ttest (hdr 4 1 0 5 0 false .w64) ⟨1⟩ 0) (lab [] [])
      (fun c s l => (s.wave? c.uid).isSome ∧ (waveOf c s).tokFailed (s.tokSet c l) l = none) ∧
    (∃ r : Region, Fits (.sstep (hdr 0 0 0 0 0 false .w64) ⟨0⟩ 0) ({ lab [] [] with regions := [stepRegion] } : State)
      (fun c s l => let w := waveOf c s
        let seen := r.stepArr.find? (fun x => x.1 = w.uid)
        (s.wave? c.uid).isSome ∧ s.region? w.rid = some r ∧ r.ssm = true ∧ r.stepSet.contains w.uid = true ∧
          r.stepMask.getD 0 = 0 ∧ inMask (w.mask 0) l = true ∧ seen = none ∧ inMask ((seen.map (fun x => x.2.2)).getD 0) l = false)) ∧
    Fits (.wfi (hdr 0 0 0 0 0 false .w64) ⟨0⟩ 0) (lab [] []) always ∧
    Fits (.uiret (hdr 0xA 0 0 0 0 true .w64) ⟨0⟩ 0) (labOf waveUi [0])
      (fun c s l => (s.wave? c.uid).isSome ∧ (waveOf c s).uiRun = some (l, 0x2000)) ∧
    Fits (.uimsk (hdr 0xB 4 0 1 0 true .w64) ⟨0⟩ 0) (lab [] []) always :=
  ⟨fits_of (labWave 4 [] []) (by decide +kernel) trivial, fits_of (labWave 4 [] []) (by decide +kernel) (by decide +kernel),
   ⟨stepRegion, fits_of (labWave 4 [] []) (by decide +kernel) (by decide +kernel)⟩, fits_of (labWave 4 [] []) (by decide +kernel) trivial,
   fits_of waveUi (by decide +kernel) (by decide +kernel), fits_of (labWave 4 [] []) (by decide +kernel) trivial⟩

/-! ## Witnesses: conversions -/

/-- The lab's wave with the descriptor of an 8-bit format, 4 exponent bits and bias 7, in n0. -/
def waveDesc (vs : List Nat) : Wave := { labWave 4 [] vs with n := [(0, 0x10748)] }

/-- NPACK and NUNPK (ConversionsCompute), and CVTN in both directions (ImmediateWritesComplete), with stochastic rounding in the first. -/
theorem wit_conversions :
    (∃ d : Desc, Fits (.npack (hdr 7 6 8 0 0 false .w64) ⟨.f32, .nar, false, .rn⟩ 0) (labOf (waveDesc []) [0])
      (fun c s _ => s.descReg c.uid 0 = some d ∧ 8 + 32 / d.w ≤ (waveOf c s).V)) ∧
    (∃ d : Desc, Fits (.nunpk (hdr 1 8 6 0 0 false .w64) ⟨.nar, .f32, false, .rn⟩ 0) (labOf (waveDesc []) [0])
      (fun c s _ => s.descReg c.uid 0 = some d ∧ 8 + 32 / d.w ≤ (waveOf c s).V)) ∧
    (∃ d : Desc, Fits (.cvtn (hdr 0xE 5 4 0 0 false .w64) ⟨.f32, .nar, false, .rs⟩ 0) (labOf (waveDesc [0, 0, 0, 0, 0x3F800000]) [0])
      (fun c s l => s.descReg c.uid 0 = some d ∧ (s.srcCount c l .b + 1) * d.w ≤ 32 ∧ s.granted 3 = true)) ∧
    (∃ d : Desc, Fits (.cvtn (hdr 7 5 4 3 0 false .w64) ⟨.nar, .f32, false, .rn⟩ 0) (labOf (waveDesc []) [0])
      (fun c s l => s.descReg c.uid 0 = some d ∧ (s.srcCount c l .b + 1) * d.w ≤ 32)) ∧
    Fits (.fmtld (hdr 9 0 4 0 0 true .w64) ⟨.i32, .i32, false, .rn⟩ 0) (lab [0, 0, 0, 0, 0x10748] [])
      (fun c s l => (descOf (s.operand c l .a 1 (fun _ v => v))).isSome) :=
  ⟨⟨⟨8, 4, 7, 1⟩, fits_of (waveDesc []) (by decide +kernel) (by decide +kernel)⟩,
   ⟨⟨8, 4, 7, 1⟩, fits_of (waveDesc []) (by decide +kernel) (by decide +kernel)⟩,
   ⟨⟨8, 4, 7, 1⟩, fits_of (waveDesc [0, 0, 0, 0, 0x3F800000]) (by decide +kernel) (by decide +kernel)⟩,
   ⟨⟨8, 4, 7, 1⟩, fits_of (waveDesc []) (by decide +kernel) (by decide +kernel)⟩,
   fits_of (labWave 4 [0, 0, 0, 0, 0x10748] []) (by decide +kernel) (by decide +kernel)⟩

/-! ## Witnesses: memory -/

/-- The plain access of 4 bytes in g0. -/
def memFn (sz : Size) (seg : BitVec 3) : MemFn := ⟨false, .plain, 0, sz, seg⟩

/-- The access passes its checks, and nothing of it is missing. -/
def loads (f : MemFn) (c : Ctx) (s : State) (l : Nat) : Bool := okAnd (s.access c f l false 0) (fun ls => (s.missing ls).isNone)

theorem wit_loadsComplete :
    FitsM (.ld (hdr 7 6 2 0 0x40 false .w64) (memFn .b32 0) 0) (lab [] []) (fun c s l => loads (memFn .b32 0) c s l = true) ∧
    FitsM (.ld (hdr 0xC 8 2 0 0 true .w64) (memFn .b256 0) 0) (lab [] []) (fun c s l => loads (memFn .b256 0) c s l = true) ∧
    FitsM (.ldx (hdr 5 6 2 3 0 false .w64) (memFn .i16 7) 0) (lab [] [0, 0, 0xFF00, 0xFE]) (fun c s l => loads (memFn .i16 7) c s l = true) ∧
    FitsM (.ldx (hdr 5 6 2 3 0 false .w128) (memFn .b32 0) 0) (lab [] []) (fun c s l => loads (memFn .b32 0) c s l = true) ∧
    FitsM (.ldc (hdr 0xC 4 2 0 0 true .w64) (memFn .b128 1) 0) (lab [0, 0, 0xFF0] []) (fun c s l => loads (memFn .b128 1) c s l = true) :=
  ⟨fits_of (labWave 4 [] []) (by decide +kernel) (by decide +kernel), fits_of (labWave 4 [] []) (by decide +kernel) (by decide +kernel),
   fits_of (labWave 4 [] [0, 0, 0xFF00, 0xFE]) (by decide +kernel) (by decide +kernel),
   fits_of (labWave 4 [] []) (by decide +kernel) (by decide +kernel), fits_of (labWave 4 [0, 0, 0xFF0] []) (by decide +kernel) (by decide +kernel)⟩

/-- The lab's region in an active group of two, its address space one page of peer 1 that core 0 has cached. -/
def labFar (w : Wave) : State :=
  { withBytes (labOf w [0]) 0x40000 [0x87, 0x04] with
    regions := [{ labRegion with ptroot := some 0x40000, cgrp := 1, cgsz := 2, grpActive := true }]
    tlb := [⟨.core 0, .root 0 0x40000, 0, leafOf 0x487 3 false⟩] }

/-- The access passes its checks, with its bytes here, or on a peer. -/
def stores (f : MemFn) (d n : Nat) (away : Bool) (c : Ctx) (s : State) (l : Nat) : Bool :=
  okAnd (s.access c f l true 0) (fun ls => (remParts ls (leBytes (szBytes f.sz) (s.readRegs c.uid l .v d n))).isEmpty != away)

theorem wit_storesComplete :
    FitsM (.st (hdr 7 6 2 0 0 false .w64) (memFn .b64 2) 0) (lab [] [0, 0, 0xFFF8]) (fun c s l => stores (memFn .b64 2) 6 2 false c s l = true) ∧
    FitsM (.stx (hdr 5 6 2 3 0 false .w64) (memFn .b8 4) 0) (lab [] []) (fun c s l => stores (memFn .b8 4) 6 1 false c s l = true) ∧
    FitsM (.st (hdr 7 6 2 0 0 false .w64) (memFn .b64 0) 0) (labFar (labWave 4 [] [0, 0, 0x100])) (fun c s l => stores (memFn .b64 0) 6 2 true c s l = true) ∧
    FitsM (.stx (hdr 5 6 2 3 0 false .w64) (memFn .b8 0) 0) (labFar (labWave 4 [] [])) (fun c s l => stores (memFn .b8 0) 6 1 true c s l = true) :=
  ⟨fits_of (labWave 4 [] [0, 0, 0xFFF8]) (by decide +kernel) (by decide +kernel), fits_of (labWave 4 [] []) (by decide +kernel) (by decide +kernel),
   fits_of (labWave 4 [] [0, 0, 0x100]) (by decide +kernel) (by decide +kernel), fits_of (labWave 4 [] []) (by decide +kernel) (by decide +kernel)⟩

/-- Each lane satisfies the check as its turn comes. -/
def lanesB {α : Type} (p : Ctx → State → Nat → Bool) (f : Ctx → State → Nat → State × α) (c : Ctx) : State → List Nat → Bool
  | _, [] => true
  | s, l :: ls => p c s l && lanesB p f c (f c s l).1 ls

theorem lanes_b {α : Type} {p : Ctx → State → Nat → Bool} {P : Ctx → State → Nat → Prop} {f : Ctx → State → Nat → State × α} {c : Ctx}
    (hp : ∀ c s l, p c s l = true → P c s l) (ls : List Nat) : ∀ s, lanesB p f c s ls = true → LanesMeet P f c s ls := by
  induction ls with
  | nil => exact fun _ _ => trivial
  | cons l ls ih =>
    intro s h
    simp only [lanesB, Bool.and_eq_true] at h
    exact ⟨hp c s l h.1, ih _ h.2⟩

/-- Each wave of a packet may execute, and satisfies the check as its turn comes. -/
def wavesB (e : Enc) (m : Ctx → State → Bool) (F : Ctx → State → State) (pc : VA) : State → List (Nat × List Nat) → Bool
  | _, [] => true
  | s, q :: qs =>
    (match s.wave? q.1 with
      | some w => e.check5 w.V w.S && (!e.priv || w.priv) && ((guarded e w q.2).isEmpty || m (ctxOf e w q.2 pc) (s.started e w q.2 pc))
      | none => false) && wavesB e m F pc (waveDo e F pc s q) qs

theorem waves_b {e : Enc} {m : Ctx → State → Bool} {M : Ctx → State → Prop} {F : Ctx → State → State} {pc : VA}
    (hm : ∀ c s, m c s = true → M c s) (qs : List (Nat × List Nat)) : ∀ s, wavesB e m F pc s qs = true → WavesMeet e M F pc s qs := by
  induction qs with
  | nil => exact fun _ _ => trivial
  | cons q qs ih =>
    intro s h
    simp only [wavesB, Bool.and_eq_true] at h
    refine ⟨?_, ih _ h.2⟩
    replace h := h.1
    cases hw : s.wave? q.1 with
    | none => simp [hw] at h
    | some w =>
      simp only [hw, Bool.and_eq_true, Bool.or_eq_true, Bool.not_eq_true', List.isEmpty_iff] at h
      exact ⟨w, rfl, ⟨h.1.1, fun hp => h.1.2.resolve_left (by simp [hp])⟩, fun hg => hm _ _ (h.2.resolve_left hg)⟩

/-- The check of whenActing. -/
def actingB (p : Ctx → State → Nat → Bool) (c : Ctx) (s : State) (l : Nat) : Bool :=
  (s.asIssued c.uid l (fun s => (s, p c (s.asLane c.uid l) l))).2

theorem acting_b {p : Ctx → State → Nat → Bool} {P : Ctx → State → Nat → Prop} (hp : ∀ c s l, p c s l = true → P c s l) (c : Ctx) (s : State) (l : Nat)
    (h : actingB p c s l = true) : whenActing P c s l := by
  unfold actingB State.asIssued at h
  unfold whenActing State.asIssued
  cases hs : (s.thread c.uid l).hseg <;> simp only [hs] at h ⊢ <;> exact hp _ _ _ h

/-- A packet of two waves, lanes 0 and 2 of one and lane 1 of the other, all at consecutive words. -/
def labPair : State :=
  { labOf (labWave 4 [] []) [0, 2] with
    packets := [⟨0, 0, 0, 0x1000, [(1, [0, 2]), (2, [1])]⟩]
    waves := [{ labWave 4 [] [] with v := [(258, 4), (768, 0xA5)] }, { labWave 4 [] [] with uid := 2, slot := 1, v := [(257, 8)] }] }

/-- The places of a lane's access there. -/
def pairPlaces (c : Ctx) (l : Nat) : List (Nat × Loc) := (labPair.access c (memFn .b32 0) l true 0).toOption.getD []

/-- What a store of ST does (StoresComplete), all of its bytes in this module. -/
def storeHere (c : Ctx) (s : State) (l : Nat) : State × LaneOut :=
  let f := memFn .b32 0
  let ls := pairPlaces c l
  let data := leBytes 4 (s.readRegs c.uid l .v 6 1)
  let away := remParts ls data
  let asked := away.foldl (fun t p =>
    t.askWrite c l p.1 p.2.1 p.2.2.1 p.2.2.2.2.length p.2.2.2.1 none none
      (.store p.2.1 p.2.2.2.2 (t.peerAcc p.2.2.2.1 (t.ownRels p.2.2.2.1 (relOf c f)) false)))
    ((s.storeAs (ls.map (fun x => x.2)) data (relOf c f) false).touch c.uid (hintPrio f.hint) (ls.map (fun x => x.2)))
  (asked.noteHits c l f.seg.toNat 1 ls data, { st := some (.admission (if away.isEmpty then .checks else .peer) false) })

/-- StoresComplete on a packet of two waves and three lanes: its hypotheses hold in each lane as its turn comes. -/
theorem wit_storesOfTwoWaves :
    ∃ e p ps, encOf (.st (hdr 7 6 2 0 0 false .w64) (memFn .b32 0) 0) = some e ∧ labPair.packets = p :: ps ∧ p.waves = [(1, [0, 2]), (2, [1])] ∧
      WavesMeet e (fun c s => LanesMeet (whenActing (fun c s l => s.access c (memFn .b32 0) l true 0 = .ok (pairPlaces c l))) (acting storeHere) c s c.on)
        (eachLane (acting storeHere) noPost) p.pc { slotStart (.st (hdr 7 6 2 0 0 false .w64) (memFn .b32 0) 0) e labPair with packets := ps } p.waves := by
  refine ⟨_, _, _, rfl, rfl, rfl, waves_b (m := fun c s => lanesB (actingB (fun c s l =>
    okAnd (s.access c (memFn .b32 0) l true 0) (fun x => decide (x = pairPlaces c l)))) (acting storeHere) c s c.on)
    (fun c s h => lanes_b (acting_b ?_) _ _ h) _ _ (by decide +kernel)⟩
  intro c s l h
  unfold okAnd at h
  split at h
  · rename_i x hx; simp only [decide_eq_true_eq] at h; rw [hx, h]
  · cases h

/-- An atomic's access passes its checks at bytes of this module that are not uncorrectable, or at bytes of a peer. -/
def atomics (f : MemFn) (n : Nat) (away : Bool) (c : Ctx) (s : State) (l : Nat) : Bool :=
  okAnd (s.access c f l true n) (fun ls =>
    (match ls with | (_, .rem _ _ _) :: _ => away | _ => !away) && (away || (s.ueAt ls).isNone))

/-- ATOM of an operation and of compare and swap, and RED; and at a peer. -/
theorem wit_atomicsComplete :
    FitsM (.atom (hdr 7 6 2 0 0 false .w96) (memFn .b32 0) 0) (lab [] []) (fun c s l => atomics (memFn .b32 0) 4 false c s l = true) ∧
    FitsM (.atom (hdr 7 6 2 0 0 false .w128) (memFn .b64 3) 0x870000000) (lab [] []) (fun c s l => atomics (memFn .b64 3) 8 false c s l = true) ∧
    FitsM (.red (hdr 7 6 2 0 0 false .w96) (memFn .b64 0) 0x8000000) (lab [] []) (fun c s l => atomics (memFn .b64 0) 8 false c s l = true) ∧
    FitsM (.atom (hdr 7 6 2 0 0 false .w96) (memFn .b32 0) 0) (labFar (labWave 4 [] [])) (fun c s l => atomics (memFn .b32 0) 4 true c s l = true) ∧
    FitsM (.red (hdr 7 6 2 0 0 false .w96) (memFn .b64 0) 0x8000000) (labFar (labWave 4 [] [])) (fun c s l => atomics (memFn .b64 0) 8 true c s l = true) :=
  ⟨fits_of (labWave 4 [] []) (by decide +kernel) (by decide +kernel), fits_of (labWave 4 [] []) (by decide +kernel) (by decide +kernel),
   fits_of (labWave 4 [] []) (by decide +kernel) (by decide +kernel), fits_of (labWave 4 [] []) (by decide +kernel) (by decide +kernel),
   fits_of (labWave 4 [] []) (by decide +kernel) (by decide +kernel)⟩

/-- PREF and CMAINT name a line (`found`), or none, with a fault that does not make the access wait. -/
def named (found : Bool) (f : MemFn) (c : Ctx) (s : State) (l : Nat) : Bool :=
  (s.wave? c.uid).isSome && s.ord.agent.isSome &&
    match s.locate ((waveOf c s).atIssue l) l f.seg.toNat (s.memOffset c f l) 1 false 0 with
    | .ok _ => found
    | .error e => !found && decide (e.code ≠ fcMiss) && decide (e.code ≠ fcDrain)

/-- FENCE; PREF and CMAINT of an address that has a line, of one beyond its segment, and of core scratchpad. -/
theorem wit_orderingAndCaches :
    FitsM (.fence (hdr 0 0 0 0 0 false .w96) ⟨false, .ar, 0, .b8, 0⟩ 0) (lab [] []) (fun _ s _ => s.ord.agent.isSome) ∧
    FitsM (.pref (hdr 7 0 2 0 0 false .w64) (memFn .b8 0) 0) (lab [] []) (fun c s l => named true (memFn .b8 0) c s l = true) ∧
    FitsM (.pref (hdr 7 0 2 0 0 false .w64) (memFn .b8 0) 0) (lab [] [0, 0, 0x10000]) (fun c s l => named false (memFn .b8 0) c s l = true) ∧
    FitsM (.cmaint (hdr 7 0 2 0 0 false .w64) (memFn .b8 0) 0) (lab [] []) (fun c s l => named true (memFn .b8 0) c s l = true) ∧
    FitsM (.cmaint (hdr 7 0 2 0 0 false .w64) (memFn .b8 0) 0) (lab [] [0, 0, 0x10000]) (fun c s l => named false (memFn .b8 0) c s l = true) ∧
    FitsM (.cmaint (hdr 7 2 2 0 0 false .w64) (memFn .b8 2) 0) (lab [] [])
      (fun c s _ => (s.wave? c.uid).isSome ∧ s.ord.agent.isSome ∧ 2 ≤ (memFn .b8 2).seg.toNat ∧ (memFn .b8 2).seg.toNat ≤ 4) :=
  ⟨fits_of (labWave 4 [] []) (by decide +kernel) (by decide +kernel), fits_of (labWave 4 [] []) (by decide +kernel) (by decide +kernel),
   fits_of (labWave 4 [] [0, 0, 0x10000]) (by decide +kernel) (by decide +kernel), fits_of (labWave 4 [] []) (by decide +kernel) (by decide +kernel),
   fits_of (labWave 4 [] [0, 0, 0x10000]) (by decide +kernel) (by decide +kernel), fits_of (labWave 4 [] []) (by decide +kernel) (by decide +kernel)⟩

/-- The lab's wave with lane 0 in run-ahead group 3, started at the packet's pc. -/
def waveJoin : Wave := { labWave 4 [] [] with jg := [(3, 1)], jsite := [(3, 0x1000)] }

theorem wit_runAhead :
    FitsM (.ldx (hdr 5 6 2 4 0 false .w128) (memFn .b32 0) 0x8300000000000000) (lab [] [])
      (fun c s l =>
        let w := waveOf c s
        (s.wave? c.uid).isSome ∧ w.tokPending 3 l = false ∧ (Sparse.get 0 w.jg 3 = 0 ∨ Sparse.get 0 w.jsite 3 = joinSite c) ∧
          (let t := s.updWave c.uid (fun w => { w with jg := Sparse.put 0 w.jg 3 (setLane (Sparse.get 0 w.jg 3) l true), jsite := Sparse.put 0 w.jsite 3 (joinSite c) })
           okAnd (t.access c (memFn .b32 0) l false 0) (fun ls => (t.missing ls).isNone && (t.ueAt ls).isNone)) = true) ∧
    FitsM (.gjoin (hdr 0 0 3 0 0 false .w64) (memFn .b8 0) 0) (labOf waveJoin [0])
      (fun c s l => (s.wave? c.uid).isSome ∧
         (inMask (Sparse.get 0 (waveOf c s).jg 3) l = true → Sparse.get 0 (waveOf c s).jsite 3 = c.pc)) ∧
    FitsM (.gjoin (hdr 0 0 4 0 0 false .w64) (memFn .b8 0) 0) (labOf waveJoin [0])
      (fun c s l => (s.wave? c.uid).isSome ∧
         (inMask (Sparse.get 0 (waveOf c s).jg 4) l = true → Sparse.get 0 (waveOf c s).jsite 4 = c.pc)) :=
  ⟨fits_of (labWave 4 [] []) (by decide +kernel) (by decide +kernel), fits_of waveJoin (by decide +kernel) (by decide +kernel),
   fits_of waveJoin (by decide +kernel) (by decide +kernel)⟩

/-- The lab without partitions: every cluster is in partition 0. -/
def labUnsplit (ss vs : List Nat) : State := { lab ss vs with grant := BitVec.ofNat 64 (2 ^ 64 - 1 - 2 ^ 8) }

theorem wit_ldmc :
    FitsM (.ldmc (hdr 7 5 2 0 0 false .w128) (memFn .b8 0) 0) (labUnsplit [] [])
      (fun c s l =>
        let w := waveOf c s
        let g := (w.atIssue l).seg 0
        let a := (segBaseOf g + s.memOffset c (memFn .b8 0) l) % 2 ^ 56
        let size := 128 * (bitsAt 0 38 6 + 1)
        (s.wave? c.uid).isSome ∧ s.granted 7 = true ∧ s.memOffset c (memFn .b8 0) l + size ≤ segLimit g ∧ s.memOffset c (memFn .b8 0) l % 128 = 0 ∧
          a / 8192 = (a + (size - 1)) / 8192 ∧ okAnd (s.translate w.rid a false) (fun a => a = .dev 0x10000 .rc) = true ∧
          s.readRegs c.uid 0 .s 0 2 = 0 ∧ w.tokPending 5 l = false) ∧
    ∃ (at' : Loc) (d : Nat × Nat) (ds : List (Nat × Nat)),
      FitsM (.ldmc (hdr 7 5 2 0 0 false .w128) (memFn .b8 0) 0) (labUnsplit [3] [])
        (fun c s l =>
          let w := waveOf c s
          let size := 128 * (bitsAt 0 38 6 + 1)
          let g := (w.atIssue l).seg 0
          let addr := (segBaseOf g + s.memOffset c (memFn .b8 0) l) % 2 ^ 56
          (s.wave? c.uid).isSome ∧ s.granted 7 = true ∧ s.memOffset c (memFn .b8 0) l + size ≤ segLimit g ∧
            s.memOffset c (memFn .b8 0) l % 128 = 0 ∧ addr / 8192 = (addr + (size - 1)) / 8192 ∧
            okAnd (s.translate w.rid addr false) (fun a => a = at') = true ∧
            mcastDests (s.readRegs c.uid 0 .s 0 2) 0 0 = d :: ds ∧
            (∀ p ∈ d :: ds, p.1 ≤ 47 ∧ s.inPart w.rid p.1 = true) ∧ w.tokPending 5 l = false) :=
  ⟨fits_of (labWave 4 [] []) (by decide +kernel) (by decide +kernel),
   .dev 0x10000 .rc, (0, 0), [(0, 1)], fits_of (labWave 4 [3] []) (by decide +kernel) (by decide +kernel)⟩

/-! ## Witnesses: engines -/

/-- The lab's gang: it holds cbufs 0 to 7 of cluster 0. -/
def labGang : Gang :=
  { gid := 1, lid := 1, rid := 1, cl := 0, core := 0, n := 1, ctx := 0, bank := 0, al2 := (0, 65536), al3 := (0, 65536), cblo := 0, cbn := 8,
    nbar := 4, waves := 1, V := 64, S := 192, pool := 1, blocks := [], fetched := 0 }

/-- A buffer of 256 bytes whose producer wrote 64 and whose consumer is engines or threads. -/
def labCbuf (pe ce : Bool) : Cbuf :=
  { cl := 0, cb := 2, seg3 := false, core := 0, ctx := 0, ring := 0, size := 256, pe := pe, ce := ce, prv := 64, pcm := 64, crv := 0, crl := 0,
    prvO := 64, pcmO := 64, crvO := 0, crlO := 0, pview := [], cview := [] }

/-- The lab with its gang, one buffer and tasks. -/
def labEng (w : Wave) (cbs : List Cbuf) (ts : List Task) : State :=
  { labOf w [0] with wd := { State.reset.wd with gangs := [labGang] }, cts := { State.reset.cts with cbufs := cbs, tasks := ts } }

/-- A task of the lab's wave in slot 5, with options and state. -/
def labTask (st : TaskSt) (opts deps : Nat) : Task :=
  { (State.reset.newTask (labWave 4 [] []) 0 5 (0x0B + 2 ^ 8 * opts) none false (0, 0x10000, 0) none none) with st := st, gid := 1, ctr := deps }

/-- TKPOST's record is one that it may read. -/
def tkpostReads (c : Ctx) (s : State) (l : Nat) : Except LFault (List (Nat × Loc)) :=
  s.locate ((waveOf c s).atIssue l) l 0 (s.readRegs c.uid l (c.e.kindOf .a) (c.e.field .a) 2 % 2 ^ 56) 64 false 64

/-- A copy task posted; and no free slot. -/
theorem wit_tkpostCompletes :
    (∃ slot, FitsM (.tkpost (hdr 3 6 4 0x12 0 false .w64) ⟨0, .i32⟩ 0) (withBytes (labEng (labWave 4 [] []) [] []) 0x10000 [0x0B])
      (fun c s l => (s.wave? c.uid).isSome ∧ s.tokBusy c.uid l (tokField 0x12) = false ∧ s.freeSlot (waveOf c s).cl = some slot ∧
        okAnd (tkpostReads c s l) (fun ls =>
          let rec' := (ls.take 24).map (fun x => x.2)
          (s.ueAt (ls.take 24)).isNone && (s.missing (ls.take 24)).isNone &&
            !(s.noteRead rec' none).recordBad ((waveOf c s).atIssue l) (leNat (s.readLocs rec'))) = true)) ∧
    FitsM (.tkpost (hdr 3 6 4 0x12 0 false .w64) ⟨0, .i32⟩ 0)
      (labEng (labWave 4 [] []) [] ((List.range 256).map (fun k => { labTask .ready 0 0 with slot := k })))
      (fun c s l => (s.wave? c.uid).isSome ∧ s.tokBusy c.uid l (tokField 0x12) = false ∧ isOk (tkpostReads c s l) = true ∧
        s.freeSlot (waveOf c s).cl = none) :=
  ⟨⟨0, fits_of (labWave 4 [] []) (by decide +kernel) (by decide +kernel)⟩, fits_of (labWave 4 [] []) (by decide +kernel) (by decide +kernel)⟩

/-- The lab's wave with the id of its task in s4. -/
def waveId : Wave := labWave 4 [0, 0, 0, 0, 0x8005] []

/-- Is the named task current, and this one? -/
def namesB (t : Task) (c : Ctx) (s : State) (l : Nat) : Bool :=
  (s.wave? c.uid).isSome && decide (s.taskOf (waveOf c s).cl (s.taskId c l) = .current t)

/-- The lab in which the named task has been freed. -/
def labGone : State := let s := labEng waveId [] []; { s with cts := { s.cts with gens := [(5, 1)] } }

/-- Is the named task freed? -/
def goneB (c : Ctx) (s : State) (l : Nat) : Bool :=
  (s.wave? c.uid).isSome && decide (s.taskOf (waveOf c s).cl (s.taskId c l) = .retired)

theorem wit_taskInstructions :
    (∃ t, FitsM (.tkdep (hdr 9 1 4 3 0 false .w64) ⟨0, .i32⟩ 0) (labEng waveId [] [labTask .waiting 0 2]) (fun c s l => namesB t c s l = true)) ∧
    (∃ t, FitsM (.tksig (hdr 9 1 4 2 0 false .w64) ⟨0, .i32⟩ 0) (labEng waveId [] [labTask .waiting 0 2]) (fun c s l => namesB t c s l = true)) ∧
    (∃ t, FitsM (.tkwait (hdr 3 6 4 0 0 false .w64) ⟨0, .i32⟩ 0) (labEng waveId [] [labTask .done 0 0]) (fun c s l => namesB t c s l = true)) ∧
    (∃ t, FitsM (.tkwait (hdr 3 6 4 0 0 false .w64) ⟨0, .i32⟩ 0) (labEng waveId [] [labTask .running 0 0]) (fun c s l => namesB t c s l = true)) ∧
    FitsM (.tkwait (hdr 3 6 4 0 0 false .w64) ⟨0, .i32⟩ 0) (labGone) (fun c s l => goneB c s l = true) ∧
    (∃ t, FitsM (.tkcmt (hdr 3 0 4 0 0 false .w64) ⟨0, .i32⟩ 0) (labEng waveId [] [labTask .running 1 0])
      (fun c s l => namesB t c s l = true ∧ t.spec = true ∧ t.mark ≠ some false ∧ t.st ≠ .done)) ∧
    (∃ t, FitsM (.tkdis (hdr 3 0 4 0 0 false .w64) ⟨0, .i32⟩ 0) (labEng waveId [] [labTask .specDone 1 0])
      (fun c s l => namesB t c s l = true ∧ t.st ≠ .done ∧ (t.st = .running → t.spec = true))) ∧
    (∃ t, FitsM (.mrpg (hdr 3 6 4 0 0 false .w64) ⟨0, .i32⟩ 0) (labEng waveId [] [labTask .running 0 0]) (fun c s l => namesB t c s l = true)) ∧
    FitsM (.mrpg (hdr 3 6 4 0 0 false .w64) ⟨0, .i32⟩ 0) labGone (fun c s l => goneB c s l = true) :=
  ⟨⟨labTask .waiting 0 2, fits_of waveId (by decide +kernel) (by decide +kernel)⟩, ⟨labTask .waiting 0 2, fits_of waveId (by decide +kernel) (by decide +kernel)⟩,
   ⟨labTask .done 0 0, fits_of waveId (by decide +kernel) (by decide +kernel)⟩, ⟨labTask .running 0 0, fits_of waveId (by decide +kernel) (by decide +kernel)⟩,
   fits_of waveId (by decide +kernel) (by decide +kernel), ⟨labTask .running 1 0, fits_of waveId (by decide +kernel) (by decide +kernel)⟩, ⟨labTask .specDone 1 0, fits_of waveId (by decide +kernel) (by decide +kernel)⟩,
   ⟨labTask .running 0 0, fits_of waveId (by decide +kernel) (by decide +kernel)⟩, fits_of waveId (by decide +kernel) (by decide +kernel)⟩

theorem wit_bufferInstructions :
    FitsM (.cbini (hdr 9 2 4 64 0 false .w64) ⟨2, .i32⟩ 0) (labEng (labWave 4 [] []) [] [])
      (fun c s l =>
        let w := waveOf c s
        let o := s.srcCount c l .a
        let size := s.srcCount c l .b
        (s.wave? c.uid).isSome ∧ s.holds w.gid 2 = true ∧ size % 32 = 0 ∧ 32 ≤ size ∧ size ≤ 262144 ∧ o % 32 = 0 ∧
          o + size ≤ segLimit (w.seg 2) ∧ s.outside w 2 ((segBaseOf (w.seg 2) + o) % 2 ^ 56) size = false ∧
          s.cts.claims.any (fun q => q.cl = w.cl && q.cb = 2) = false ∧
          s.cts.tasks.any (fun t => t.cl = w.cl && t.st ≠ .done && (t.names 2 true || t.names 2 false)) = false) ∧
    FitsM (.cbpsh (hdr 4 2 0 192 0 false .w64) ⟨0, .i32⟩ 0) (labEng (labWave 4 [] []) [labCbuf false false] [])
      (fun c s l => hasCbuf 2 (labCbuf false false) c s ∧ (labCbuf false false).pe = false ∧ s.srcCount c l .b % 32 = 0 ∧
        s.srcCount c l .b ≤ (labCbuf false false).room) ∧
    FitsM (.cbpop (hdr 4 2 0 64 0 false .w64) ⟨0, .i32⟩ 0) (labEng (labWave 4 [] []) [labCbuf false false] [])
      (fun c s l => hasCbuf 2 (labCbuf false false) c s ∧ (labCbuf false false).ce = false ∧ s.srcCount c l .b % 32 = 0 ∧
        s.srcCount c l .b ≤ (labCbuf false false).count) ∧
    FitsM (.cbwt (hdr 4 2 0 96 0 false .w64) ⟨0, .i32⟩ 0) (labEng (labWave 4 [] []) [labCbuf false false] [])
      (fun c s l => hasCbuf 2 (labCbuf false false) c s ∧ s.srcCount c l .b ≤ (labCbuf false false).size ∧ s.srcCount c l .b % 32 = 0) ∧
    FitsM (.cbqry (hdr 0 8 2 0 0 false .w64) ⟨0, .i32⟩ 0) (labEng (labWave 4 [] []) [labCbuf true true] [])
      (fun c s _ => hasCbuf 2 (labCbuf true true) c s) := by
  refine ⟨fits_of (labWave 4 [] []) (by decide +kernel) (by decide +kernel), fits_of (labWave 4 [] []) (by decide +kernel) ?_,
    fits_of (labWave 4 [] []) (by decide +kernel) ?_, fits_of (labWave 4 [] []) (by decide +kernel) ?_, fits_of (labWave 4 [] []) (by decide +kernel) ?_⟩ <;>
  · unfold hasCbuf; decide +kernel

/-- The lab with handler tables whose entry 0 is a user interrupt at 0x7000, and entry 5 a message handler there. -/
theorem wit_evsetAmsgAndFetchw :
    FitsM (.evset (hdr 4 9 0 0 0 false .w64) ⟨1, .i32⟩ 0) (lab [] []) (fun c s _ => (s.wave? c.uid).isSome) ∧
    FitsM (.evset (hdr 4 9 0 0 0 false .w64) ⟨0, .i32⟩ 0) (withBytes (lab [] []) 0x6000 (leBytes 8 0x8000000000007000))
      (fun c s l => (s.wave? c.uid).isSome ∧ s.srcCount c l .b ≤ 255 ∧ s.cts.binds = [] ∧
         okAnd (s.tableEntry (waveOf c s).rid (waveOf c s).htbl (s.srcCount c l .b) 0) (fun a => a = some 0x7000) = true) ∧
    FitsM (.amsg (hdr 8 3 8 4 5 false .w64) ⟨0, .i32⟩ 0) (withBytes (labUnsplit [] []) 0x5828 (leBytes 8 0xC000000000007000))
      (fun c s l => (s.wave? c.uid).isSome ∧ (match s.region? (s.ridOf c.uid) with
        | some r => (s.amFault (waveOf c s) r 3 l (s.srcCount c l .b) 5).isNone
        | none => false) = true) ∧
    FitsM (.amsg (hdr 8 3 8 4 5 false .w64) ⟨0, .i32⟩ 0)
      ({ withBytes (labUnsplit [] []) 0x5828 (leBytes 8 0xC000000000007000) with poison := [.dev 0x5820 .rc] } : State)
      (fun c s l => (s.wave? c.uid).isSome ∧ (match s.region? (s.ridOf c.uid) with
        | some r => decide ((s.amFault (waveOf c s) r 3 l (s.srcCount c l .b) 5).map (fun e => e.code) = some fcMemUe)
        | none => false) = true) ∧
    FitsM (.fetchw (hdr 7 0x1F 4 0 255 false .w64) ⟨2, .i32⟩ 0) (lab [] [])
      (fun c s l =>
        let w := waveOf c s
        let g := w.seg 2
        let o := (s.srcCount c l .a + 16 * 255) % 2 ^ 56
        (s.wave? c.uid).isSome ∧ w.tokPending (0x1F % 16) l = false ∧ o + 16 ≤ segLimit g ∧
          s.outside w 2 ((segBaseOf g + o) % 2 ^ 56) 16 = false ∧ segWr g = true ∧ o % 16 = 0) :=
  ⟨fits_of (labWave 4 [] []) (by decide +kernel) (by decide +kernel), fits_of (labWave 4 [] []) (by decide +kernel) (by decide +kernel),
   fits_of (labWave 4 [] []) (by decide +kernel) (by decide +kernel), fits_of (labWave 4 [] []) (by decide +kernel) (by decide +kernel),
   fits_of (labWave 4 [] []) (by decide +kernel) (by decide +kernel)⟩

/-- FETCHW sets the token that bits 3:0 of D name (R273, R284). -/
theorem test_fetchw_token :
    (match exec (.fetchw (hdr 7 0x1F 4 0 0 false .w64) ⟨2, .i32⟩ 0) (lab [] []) with
      | .next t => (t.wave? 1).map (fun w => (w.tokPending 15 0, w.k.length))
      | _ => none) = some (true, 1) := by decide +kernel

/-! ## Witnesses: direct forms and streams -/

/-- Scalars from s4, the first of them the given address. -/
def s4 (a : Nat) : List Nat := [0, 0, 0, 0, a]

/-- A valid layout of 16 bfloat16 elements: one dimension, a box of 16. -/
def labLayout : Nat := 0x30000 + 2 ^ 56 + 0xC * 2 ^ 60 + 16 * 2 ^ 64 + 15 * 2 ^ 352

/-- A matrix block of 16 by 16 by 32 in memory, every stride 32 bytes. -/
def labBlock : Nat := 2 ^ 200 + 2 ^ 216 + 2 ^ 232

/-- A gather of one 4-byte element by a 4-byte index. -/
def labGather : Nat := 0x40000 + 2 ^ 64 * 0x30000 + 2 * 2 ^ 120 + 3 * 2 ^ 144 + 100 * 2 ^ 192 + 2 ^ 320 * 0x50000

/-- The state that the direct forms read: `n` bytes of a number at 0x20000. -/
def labDirect (n r : Nat) : State := withBytes (labEng (labWave 4 (s4 0x20000) []) [] []) 0x20000 (leBytes n r)

/-- The conditions of a direct form, as a check: what it reads is `r`, of `n` bytes, and the record of the fields `x` passes in the state in which that has been read. -/
def directOk (n r : Nat) (x : State → Nat) (lrec : Option Nat) (bad : Nat → State → Task → Bool) (tok : Option Nat) (c : Ctx) (s : State) (l : Nat) : Bool :=
  let w := waveOf c s
  let u := s.noteVa w.rid (s.readRegs c.uid l .s 4 2) n
  (s.wave? c.uid).isSome && !s.tokBusy c.uid l tok && (((recIns (x u)) ++ [recOut (x u)]).filterMap id).all (fun p => u.holds w.gid p.1) &&
    !u.recordBad w (x u) && !bad (x u) u (u.newTask w l ((u.freeSlot w.cl).getD 0) (x u) tok true (0, 0, 0) (some (x u)) lrec) &&
    (match s.readVa w.rid (s.readRegs c.uid l .s 4 2) n with | .ok v => decide (v = r) | .error _ => false) &&
    decide (s.readRegs c.uid l .s 4 2 % 64 = 0) && decide (s.readRegs c.uid l .s 4 2 < 2 ^ 56) && decide (s.readRegs c.uid l .s 12 2 < 2 ^ 56) &&
    decide (s.readRegs c.uid l .s 11 1 < 256)

/-- A direct form of copies, of the matrix engine, of gathers, with a readable layout, block and command. -/
def copyOk (isOut : Bool) (c : Ctx) (s : State) (l : Nat) : Bool :=
  directOk 64 labLayout (fun s => s.tcpyRecord isOut c l labLayout) (some labLayout) (fun r => tcpyBad isOut 3 r labLayout) (tokField 0x11) c s l
def tileOk (kind x : Nat) (c : Ctx) (s : State) (l : Nat) : Bool :=
  directOk 40 labBlock (fun _ => mmaRecord kind x labBlock) none (fun r _ t => mmBad t r) (tokField 0) c s l
def gatherOk (kind : Nat) (c : Ctx) (s : State) (l : Nat) : Bool :=
  directOk 64 labGather (fun _ => gsRecord kind 0 0x20000 labGather) (some labGather) (fun r s t => s.gsBlockBad t.rid kind labGather || gsRecordBad t r labGather)
    (tokField 0) c s l && !gsFormBad kind 0 0x20000

theorem wit_directForms :
    FitsM (.tcpy (hdr 3 0x11 4 0 2 false .w128) ⟨0, .i32⟩ 3) (labDirect 64 labLayout) (fun c s l => copyOk false c s l = true) ∧
    FitsM (.tcpyw (hdr 3 0x11 4 0 2 false .w128) ⟨0, .i32⟩ 3) (labDirect 64 labLayout) (fun c s l => copyOk true c s l = true) ∧
    FitsM (.mma (hdr 3 0 4 0 2 false .w128) ⟨0, .i32⟩ 0) (labDirect 40 labBlock) (fun c s l => tileOk 3 0 c s l = true) ∧
    FitsM (.mmas (hdr 3 0 4 0 2 false .w128) ⟨0, .i32⟩ 0x100000) (labDirect 40 labBlock) (fun c s l => tileOk 4 0x100000 c s l = true) ∧
    FitsM (.gsx (hdr 3 0 4 0 2 false .w128) ⟨0, .i32⟩ 0) (labDirect 64 labGather) (fun c s l => gatherOk 5 c s l = true) ∧
    FitsM (.ssx (hdr 3 0 4 0 2 false .w128) ⟨0, .i32⟩ 0) (labDirect 64 labGather) (fun c s l => gatherOk 6 c s l = true) ∧
    FitsM (.ssxa (hdr 3 0 4 0 2 false .w128) ⟨0, .i32⟩ 0) (labDirect 64 labGather) (fun c s l => gatherOk 0x0A c s l = true) :=
  ⟨fits_of (labWave 4 (s4 0x20000) []) (by decide +kernel) (by decide +kernel), fits_of (labWave 4 (s4 0x20000) []) (by decide +kernel) (by decide +kernel),
   fits_of (labWave 4 (s4 0x20000) []) (by decide +kernel) (by decide +kernel), fits_of (labWave 4 (s4 0x20000) []) (by decide +kernel) (by decide +kernel),
   fits_of (labWave 4 (s4 0x20000) []) (by decide +kernel) (by decide +kernel), fits_of (labWave 4 (s4 0x20000) []) (by decide +kernel) (by decide +kernel),
   fits_of (labWave 4 (s4 0x20000) []) (by decide +kernel) (by decide +kernel)⟩

/-- A read stream without entries. -/
def imageOf (n : Nat) : Strm := { Strm.of 0 with st := 2, ord := true, unq := true, fin := n }

/-- The lab's wave with the address 0x20000 in s4, an image of a stream in s16 to s31, and stream registers: w3 open and not read, w4 read, ordered and
unique. -/
def waveStream : Wave :=
  { labWave 4 (s4 0x20000) [] with
    w := [(3, BitVec.ofNat 512 (0x20000 + 2 ^ 56 + 2 ^ 64)), (4, BitVec.ofNat 512 (imageOf 4).bits)] }

theorem wit_streamInstructions :
    let open' := fun (w : Nat) (c : Ctx) (s : State) => s.granted 1 && !s.strmBusy c.uid [w] s.streams.length
    Fits (.stopn (hdr 0xB 3 4 1 0 false .w64) ⟨0, .i32⟩ 0) (labOf waveStream [0])
      (fun c s _ => open' 3 c s = true ∧ s.readRegs c.uid 0 .s 4 2 % 2 ^ 56 % 32 = 0) ∧
    Fits (.stskp (hdr 0xB 0 3 9 0 false .w64) ⟨0, .i32⟩ 0) (labOf waveStream [0])
      (fun c s _ => open' 3 c s = true ∧ (s.strm c.uid 3).st ≠ 0 ∧ ¬(2 ≤ (s.strm c.uid 3).st)) ∧
    Fits (.stskp (hdr 0xB 0 4 9 0 false .w64) ⟨0, .i32⟩ 0) (labOf waveStream [0])
      (fun c s _ => open' 4 c s = true ∧ (s.strm c.uid 4).st = 2 ∧ (s.strm c.uid 4).ord = true ∧ (s.strm c.uid 4).unq = true) ∧
    Fits (.stsav (hdr 0xA 16 3 0 0 false .w64) ⟨0, .i32⟩ 0) (labOf waveStream [0]) (fun c s _ => open' 3 c s = true) ∧
    Fits (.strst (hdr 0xA 3 16 0 0 false .w64) ⟨0, .i32⟩ 0)
      (labOf { waveStream with s := (regWrites 0 .s 16 16 (imageOf 4).bits).filterMap (fun p => match p.1 with | .s i => some (i, p.2) | _ => none) } [0])
      (fun c s _ => open' 3 c s = true ∧
        (let x := s.readRegs c.uid 0 .s 16 16
         bitsAt x 434 14 = 0 ∧ bitsAt x 506 6 = 0 ∧ Strm.of x = imageOf 4 ∧ (imageOf 4).st ≠ 0 ∧ (imageOf 4).iw ≠ 3 ∧ (imageOf 4).cur ≤ (imageOf 4).fin ∧
           ((imageOf 4).ty = 0 ∨ (imageOf 4).ty = 2 → (imageOf 4).ord = true ∧ (imageOf 4).unq = true))) ∧
    Fits (.strst (hdr 0xA 3 16 0 0 false .w64) ⟨0, .i32⟩ 0) (labOf waveStream [0])
      (fun c s _ => open' 3 c s = true ∧
        (let x := s.readRegs c.uid 0 .s 16 16
         bitsAt x 434 14 = 0 ∧ bitsAt x 506 6 = 0 ∧ (Strm.of x).st = 0 ∧ { Strm.of x with err := 0 }.bits = 0)) ∧
    Fits (.stcls (hdr 0xA 3 0 0 0 false .w64) ⟨0, .i32⟩ 0) (labOf waveStream [0]) (fun c s _ => open' 3 c s = true ∧ (s.strm c.uid 3).st ≠ 0) ∧
    Fits (.stcls (hdr 0xA 5 0 0 0 false .w64) ⟨0, .i32⟩ 0) (labOf waveStream [0]) (fun c s _ => open' 5 c s = true ∧ (s.strm c.uid 5).st = 0) ∧
    Fits (.stnxt (hdr 1 8 3 0 4 false .w128) ⟨0, .i32⟩ 5) (labOf waveStream [0])
      (fun c s _ => s.granted 1 = true ∧ ∀ l ∈ c.on, (waveOf c s).tokPending 5 l = false) ∧
    Fits (.isect (hdr 1 8 4 5 8 false .w64) ⟨1, .i32⟩ 0) (labOf (labWave 4 [0, 0, 0, 0, 0, 0, 0, 0, 1, 1] []) [0])
      (fun c s _ => s.granted 1 = true ∧ s.readRegs c.uid 0 .s 8 1 ≤ 128 ∧ s.readRegs c.uid 0 .s 9 1 ≤ 128 ∧
        ∀ l, l < max (s.readRegs c.uid 0 .s 8 1) (s.readRegs c.uid 0 .s 9 1) → l ∈ c.on) := by
  refine ⟨fits_of waveStream (by decide +kernel) ?_, fits_of waveStream (by decide +kernel) ?_, fits_of waveStream (by decide +kernel) ?_,
    fits_of waveStream (by decide +kernel) ?_,
    fits_of { waveStream with s := (regWrites 0 .s 16 16 (imageOf 4).bits).filterMap (fun p => match p.1 with | .s i => some (i, p.2) | _ => none) }
      (by decide +kernel) ?_,
    fits_of waveStream (by decide +kernel) ?_, fits_of waveStream (by decide +kernel) ?_, fits_of waveStream (by decide +kernel) ?_,
    fits_of waveStream (by decide +kernel) ?_, fits_of (labWave 4 [0, 0, 0, 0, 0, 0, 0, 0, 1, 1] []) (by decide +kernel) ?_⟩ <;> decide +kernel

/-! ## Witnesses: neural calls and textures -/

/-- A valid handle record of one layer, one input and one output at handle 0, and a texture of one FP32 texel at 0x20000. -/
def labNeural (ss vs : List Nat) : State :=
  withBytes (withBytes (lab ss vs) 0xA000 (leBytes 128 0x4000)) 0x20000 (leBytes 32 (0x30000 + 4 * 2 ^ 60 + 2 ^ 104))

/-- The lab's texture descriptor. -/
def labTexture : Nat := 0x30000 + 4 * 2 ^ 60 + 2 ^ 104

/-- Scalars s4 to s7: two words of zero and the texture's address. -/
def sTex : List Nat := [0, 0, 0, 0, 0, 0, 0x20000]

/-- Is the handle's record valid, with the given counts of inputs and outputs? -/
def nsReads (h ni no : Nat) (c : Ctx) (s : State) (l : Nat) : Bool :=
  okAnd (s.nsRead (issuedOf c s l) h) (fun q => decide (nsNIN q.2 = ni) && decide (nsNOUT q.2 = no))

/-- TEXN of the lab's texture in a level-of-detail mode. -/
def texnOk (lodm : Nat) (c : Ctx) (s : State) (l : Nat) : Bool :=
  (s.wave? c.uid).isSome && s.granted 0 && !(waveOf c s).tokPending 5 l && nsReads (s.readRegs c.uid 0 .s 4 1 % 2 ^ 16) 0 0 c s l &&
    okAnd (s.texnDesc (waveOf c s).rid (s.readRegs c.uid 0 .s 6 2 % 2 ^ 56)) (fun d => decide (d = labTexture) && decide (txCh d = 1) &&
      okAnd (s.texChannels c l 12 lodm d (s.readRegs c.uid 0 .s 5 1) 0 (txCh d)) (fun q => q.2.2.ue.isNone)) &&
    !samplerBad (s.readRegs c.uid 0 .s 5 1) && (waveOf c s).quadFlag

theorem wit_neuralCalls :
    FitsM (.ncall (hdr 1 5 8 9 4 false .w128) ⟨0, .i32⟩ 0) (labNeural [] [])
      (fun c s l => (s.wave? c.uid).isSome ∧ s.granted 0 = true ∧ (waveOf c s).tokPending 5 l = false ∧
        nsReads ((s.readS c.uid 4).toNat % 2 ^ 16) 0 0 c s l = true) ∧
    FitsM (.texn (hdr 1 5 8 12 4 false .w128) ⟨0, .i32⟩ 0) (labNeural sTex []) (fun c s l => texnOk 0 c s l = true) ∧
    FitsM (.texn (hdr 1 5 8 12 4 false .w128) ⟨0, .i32⟩ 0x200) (labNeural sTex []) (fun c s l => texnOk 1 c s l = true) :=
  ⟨fits_of (labWave 4 [] []) (by decide +kernel) (by decide +kernel), fits_of (labWave 4 sTex []) (by decide +kernel) (by decide +kernel),
   fits_of (labWave 4 sTex []) (by decide +kernel) (by decide +kernel)⟩

/-- The residency instructions: a readable set; NFLSH of a set inside g6. -/
theorem wit_residency :
    FitsM (.npin (hdr 0xA 6 4 0 0 true .w64) ⟨0, .i32⟩ 0) (labNeural [] [])
      (fun c s l => (s.wave? c.uid).isSome ∧ s.granted 0 = true ∧ nsReads (s.handleA c) 0 0 c s l = true) ∧
    FitsM (.nunpin (hdr 0xA 0 4 0 0 true .w64) ⟨0, .i32⟩ 0) (labNeural [] [])
      (fun c s l => (s.wave? c.uid).isSome ∧ s.granted 0 = true ∧ nsReads (s.handleA c) 0 0 c s l = true) ∧
    FitsM (.npref (hdr 0xA 0 4 0 0 true .w64) ⟨0, .i32⟩ 0) (labNeural [] [])
      (fun c s l => (s.wave? c.uid).isSome ∧ s.granted 0 = true ∧ nsReads (s.handleA c) 0 0 c s l = true) ∧
    FitsM (.nqry (hdr 0xA 8 4 0 0 true .w64) ⟨0, .i32⟩ 0) (labNeural [] [])
      (fun c s l => (s.wave? c.uid).isSome ∧ s.granted 0 = true ∧ nsReads (s.handleA c) 0 0 c s l = true) ∧
    FitsM (.nflsh (hdr 0xA 0 0 0 0 true .w64) ⟨0, .i32⟩ 0) (labNeural [] []) (fun c s _ => (s.wave? c.uid).isSome ∧ s.granted 0 = true) ∧
    FitsM (.nflsh (hdr 0xA 0 4 0 0 true .w64) ⟨1, .i32⟩ 0) (labNeural [0, 0, 0, 0, 31] [])
      (fun c s _ => (s.wave? c.uid).isSome ∧ s.granted 0 = true ∧ 128 * s.handleA c + 128 ≤ segLimit ((waveOf c s).seg 6)) ∧
    FitsM (.nflsh (hdr 0xA 0 0 0 0 true .w64) ⟨2, .i32⟩ 0) (labNeural [] []) (fun c s _ => (s.wave? c.uid).isSome ∧ s.granted 0 = true) :=
  ⟨fits_of (labWave 4 [] []) (by decide +kernel) (by decide +kernel), fits_of (labWave 4 [] []) (by decide +kernel) (by decide +kernel),
   fits_of (labWave 4 [] []) (by decide +kernel) (by decide +kernel), fits_of (labWave 4 [] []) (by decide +kernel) (by decide +kernel),
   fits_of (labWave 4 [] []) (by decide +kernel) (by decide +kernel), fits_of (labWave 4 [0, 0, 0, 0, 31] []) (by decide +kernel) (by decide +kernel),
   fits_of (labWave 4 [] []) (by decide +kernel) (by decide +kernel)⟩

/-- The sets of a WTBL of one or 65,536 handles exist in the wave's own region, and not in region 9 (named by s6). -/
def wtblOk (n : Nat) (found : Bool) (c : Ctx) (s : State) : Bool :=
  (s.wave? c.uid).isSome && decide (s.readRegs c.uid 0 .s 5 1 % 2 ^ 17 = n) &&
    ((s.wtblSets (waveOf c s) (s.readRegs c.uid 0 .s 4 1 % 2 ^ 16) n (s.readRegs c.uid 0 .s 6 1)).isSome == found)

theorem wit_wtbl :
    FitsM (.wtblSync (hdr 0xA 8 4 5 6 true .w64) ⟨0, .i32⟩ 0) (lab [0, 0, 0, 0, 0, 1] []) (fun c s _ => wtblOk 1 true c s = true) ∧
    FitsM (.wtblUnpin (hdr 0xA 8 4 5 6 true .w64) ⟨1, .i32⟩ 0) (lab [0, 0, 0, 0, 0, 65536] []) (fun c s _ => wtblOk 65536 true c s = true) ∧
    FitsM (.wtblSync (hdr 0xA 8 4 5 6 true .w64) ⟨0, .i32⟩ 0) (lab [0, 0, 0, 0, 0, 1, 9] []) (fun c s _ => wtblOk 1 false c s = true) ∧
    FitsM (.wtblUnpin (hdr 0xA 8 4 5 6 true .w64) ⟨1, .i32⟩ 0) (lab [0, 0, 0, 0, 0, 1, 9] []) (fun c s _ => wtblOk 1 false c s = true) :=
  ⟨fits_of (labWave 4 [0, 0, 0, 0, 0, 1] []) (by decide +kernel) (by decide +kernel),
   fits_of (labWave 4 [0, 0, 0, 0, 0, 65536] []) (by decide +kernel) (by decide +kernel),
   fits_of (labWave 4 [0, 0, 0, 0, 0, 1, 9] []) (by decide +kernel) (by decide +kernel),
   fits_of (labWave 4 [0, 0, 0, 0, 0, 1, 9] []) (by decide +kernel) (by decide +kernel)⟩

/-- The descriptor at an address reads as the lab's, without uncorrectable data, and is valid. -/
def descB (va : Nat) (c : Ctx) (s : State) : Bool :=
  (s.wave? c.uid).isSome && okAnd (s.tread (waveOf c s).rid va 32) (fun q => decide (q.1 = labTexture) && q.2.ue.isNone) && !txBad labTexture

theorem wit_textures :
    FitsM (.tex (hdr 1 12 8 0 4 false .w128) ⟨0, .i32⟩ 0) (labNeural sTex [])
      (fun c s l => descB (texArgs c s).2.2 c s = true ∧ samplerBad (texArgs c s).1 = false ∧ (texArgs c s).2.1 + 0 < txCh labTexture ∧
        isOk (s.texChannels c l 8 0 labTexture (texArgs c s).1 (texArgs c s).2.1 1) = true) ∧
    FitsM (.tex (hdr 1 12 8 0 4 false .w128) ⟨0, .i32⟩ 0x200) (labNeural sTex [])
      (fun c s l => descB (texArgs c s).2.2 c s = true ∧ samplerBad (texArgs c s).1 = false ∧ (texArgs c s).2.1 + 0 < txCh labTexture ∧
        (waveOf c s).quadFlag = true ∧ isOk (s.texChannels c l 8 1 labTexture (texArgs c s).1 (texArgs c s).2.1 1) = true) ∧
    FitsM (.tld (hdr 1 12 8 0 4 false .w128) ⟨0, .i32⟩ 0) (labNeural sTex [])
      (fun c s l => descB (texArgs c s).2.2 c s = true ∧ (texArgs c s).2.1 + 0 < txCh labTexture ∧
        (let reg := fun i => (s.readV c.uid l (8 + i)).toNat
         (reg 2 ≤ txLevels labTexture ∧ reg 0 < txW labTexture (reg 2) ∧ reg 1 < txH labTexture (reg 2)) ∧
         isOk (s.texel (waveOf c s).rid labTexture (reg 2) ((texArgs c s).2.1 + 0) (reg 0) (reg 1)) = true)) ∧
    FitsM (.tld (hdr 1 12 8 0 4 false .w128) ⟨0, .i32⟩ 0) (labNeural sTex [0, 0, 0, 0, 0, 0, 0, 0, 1])
      (fun c s l => descB (texArgs c s).2.2 c s = true ∧ (texArgs c s).2.1 + 0 < txCh labTexture ∧
        (let reg := fun i => (s.readV c.uid l (8 + i)).toNat
         ¬(reg 2 ≤ txLevels labTexture ∧ reg 0 < txW labTexture (reg 2) ∧ reg 1 < txH labTexture (reg 2)))) ∧
    FitsM (.tqry (hdr 1 12 8 0 6 false .w64) ⟨0, .i32⟩ 0) (labNeural sTex []) (fun c s _ => descB (s.readRegs c.uid 0 .s 6 2 % 2 ^ 56) c s = true) ∧
    ready (.ddx (hdr 0 5 4 0 0 false .w64) ⟨0, .f32⟩ 0) (labOf (labWave 4 [] []) [0, 1]) (labWave 4 [] []) [0, 1] 0x1000 = true ∧
    ready (.ddy (hdr 0 5 4 0 0 false .w64) ⟨1, .f32⟩ 0) (labOf (labWave 4 [] []) [0, 1]) (labWave 4 [] []) [0, 1] 0x1000 = true :=
  ⟨fits_of (labWave 4 sTex []) (by decide +kernel) (by decide +kernel), fits_of (labWave 4 sTex []) (by decide +kernel) (by decide +kernel),
   fits_of (labWave 4 sTex []) (by decide +kernel) (by decide +kernel),
   fits_of (labWave 4 sTex [0, 0, 0, 0, 0, 0, 0, 0, 1]) (by decide +kernel) (by decide +kernel), fits_of (labWave 4 sTex []) (by decide +kernel) (by decide +kernel),
   by decide +kernel, by decide +kernel⟩

/-! ## Witnesses: rays and beams -/

/-- A ray in flight whose record is at the start of g7. -/
def labRay : Ray := newRay (lab [] []) (labWave 4 [] []) 0 2 0 0xC000 0 0x20000 0 none

/-- The lab with rays in flight. -/
def labRays (rs : List Ray) : State := (lab [] []).updRtu (fun u => { u with rays := rs })

/-- The record that A names passes its checks. -/
def rayReads (wr : Bool) (c : Ctx) (s : State) (l : Nat) : Bool :=
  (s.wave? c.uid).isSome && s.granted 2 && isOk (s.rayRec c (issuedOf c s l) l wr)

/-- The ray of the record that A names, in flight, and whether the bytes of the record are here. -/
def flyingRec (wr : Bool) (c : Ctx) (s : State) (l : Nat) : Option Ray :=
  match s.rayRec c (issuedOf c s l) l wr with | .ok (_, va, _) => s.flying (waveOf c s).rid va | .error _ => none
def recHere (c : Ctx) (s : State) (l : Nat) : Bool := okAnd (s.rayRec c (issuedOf c s l) l false) (fun q => (s.missing q.2.2).isNone)

theorem wit_rays :
    FitsM (.rtrace (hdr 1 1 4 0 8 false .w64) ⟨0, .i32⟩ 0) (lab [] [])
      (fun c s l => rayReads false c s l = true ∧ (waveOf c s).tokPending 1 l = false ∧ flyingRec false c s l = none ∧
        okAnd (s.rayRec c (issuedOf c s l) l false) (fun q =>
          (s.ueAt q.2.2).isNone && (s.missing q.2.2).isNone && !flagsBad (ryFlags (leNat (s.readLocs (q.2.2.map (fun x => x.2)))))) = true) ∧
    FitsM (.rld (hdr 4 8 4 15 0 false .w64) ⟨0, .i32⟩ 0) (labRays [labRay])
      (fun c s l => rayReads false c s l = true ∧ 15 + 1 ≤ 16 ∧ flyingRec false c s l = some labRay) ∧
    FitsM (.rld (hdr 4 8 4 0 0 false .w64) ⟨15, .i32⟩ 0) (lab [] [])
      (fun c s l => rayReads false c s l = true ∧ 0 + 16 ≤ 16 ∧ flyingRec false c s l = none ∧ recHere c s l = true) ∧
    FitsM (.rst (hdr 4 8 4 0 0 false .w64) ⟨15, .i32⟩ 0) (lab [] [])
      (fun c s l => rayReads true c s l = true ∧ 0 + 16 ≤ 16 ∧ flyingRec true c s l = none) ∧
    FitsM (.rpool (hdr 0 1 4 0 0 false .w64) ⟨0, .i32⟩ 0) (labRays [labRay])
      (fun c s l => rayReads false c s l = true ∧ flyingRec false c s l = some labRay ∧ labRay.rid = (waveOf c s).rid) ∧
    FitsM (.rpool (hdr 0 1 4 0 0 false .w64) ⟨0, .i32⟩ 0)
      ({ labRays [{ labRay with rid := 5 }] with regions := [labRegion, { labRegion with rid := 5 }] } : State)
      (fun c s l => rayReads false c s l = true ∧ flyingRec false c s l = some { labRay with rid := 5 } ∧ 5 ≠ (waveOf c s).rid) ∧
    FitsM (.rpool (hdr 0 1 4 0 0 false .w64) ⟨0, .i32⟩ 0) (lab [] []) (fun c s l => rayReads false c s l = true ∧ flyingRec false c s l = none) ∧
    FitsM (.rqry (hdr 0xA 4 0 0 0 true .w64) ⟨0, .i32⟩ 0) (lab [] []) (fun c s _ => (s.wave? c.uid).isSome ∧ s.granted 2 = true) :=
  ⟨fits_of (labWave 4 [] []) (by decide +kernel) (by decide +kernel), fits_of (labWave 4 [] []) (by decide +kernel) (by decide +kernel),
   fits_of (labWave 4 [] []) (by decide +kernel) (by decide +kernel), fits_of (labWave 4 [] []) (by decide +kernel) (by decide +kernel),
   fits_of (labWave 4 [] []) (by decide +kernel) (by decide +kernel), fits_of (labWave 4 [] []) (by decide +kernel) (by decide +kernel),
   fits_of (labWave 4 [] []) (by decide +kernel) (by decide +kernel), fits_of (labWave 4 [] []) (by decide +kernel) (by decide +kernel)⟩

/-- A callback wave with an any-hit lane. -/
def waveCallback : Wave := { labWave 4 [] [] with kind := .callback [⟨0, 10, 0, false⟩] }

theorem wit_verdictsAndBeams :
    FitsM (.rverd (hdr 0 0 4 5 0 false .w64) ⟨0, .i32⟩ 0) (labOf waveCallback [0])
      (fun c s l => (s.wave? c.uid).isSome ∧ s.granted 2 = true ∧ (waveOf c s).kind = .callback [⟨0, 10, 0, false⟩] ∧
        [(⟨0, 10, 0, false⟩ : CbLane)].find? (fun q => q.lane = l && !q.done && q.kind ≤ 1) = some ⟨0, 10, 0, false⟩) ∧
    FitsM (.beam (hdr 1 1 4 0 4 false .w64) ⟨0, .i32⟩ 0) (lab (s4 0x20000) [])
      (fun c s l =>
        let a := s.readRegs c.uid 0 .s 4 2 % 2 ^ 56
        (s.wave? c.uid).isSome ∧ s.granted 2 = true ∧ (waveOf c s).tokPending 1 l = false ∧ a % 128 = 0 ∧
          okAnd (s.readVa (waveOf c s).rid a 128) (fun b => !blockBad b && (s.poolFault (issuedOf c s l) l (bmBase b)).isNone) = true) ∧
    FitsM (.covrd (hdr 1 8 4 0 4 false .w64) ⟨0, .i32⟩ 0) (lab (s4 0x20000) [])
      (fun c s l =>
        let p := s.readRegs c.uid l .v 4 1
        (s.wave? c.uid).isSome ∧ s.granted 2 = true ∧
          okAnd (s.tread (waveOf c s).rid (s.readRegs c.uid 0 .s 4 2 % 2 ^ 56 + 72) 12) (fun b => b.2.ue.isNone &&
            isOk (s.tread (waveOf c s).rid ((bitsAt b.1 0 56 + bitsAt p 16 16 * bitsAt b.1 64 32 + 16 * bitsAt p 0 16) % 2 ^ 56) 16)) = true) :=
  ⟨fits_of waveCallback (by decide +kernel) (by decide +kernel), fits_of (labWave 4 (s4 0x20000) []) (by decide +kernel) (by decide +kernel),
   fits_of (labWave 4 (s4 0x20000) []) (by decide +kernel) (by decide +kernel)⟩

/-! ## Witnesses: system instructions -/

/-- The address of a control register of cluster 0 in s4. -/
def csrS4 : List Nat := s4 (csrAddr 0 0 0 0)

theorem wit_segmentsAndCsrs :
    FitsM (.segld (hdr 0xF 4 8 0 0 true .w64) ⟨0, .i32⟩ 0) (lab [] []) always ∧
    FitsM (.segrd (hdr 6 8 5 0 0 true .w64) ⟨0, .i32⟩ 0) (lab [] []) (fun c s _ => (s.wave? c.uid).isSome) ∧
    (∃ sh, FitsM (.csrrd (hdr 0xA 8 4 0 0 true .w64) ⟨0, .i32⟩ 0) (labUnsplit csrS4 [])
      (fun c s _ => csrShape (s.readRegs c.uid 0 .s 4 1) = some sh ∧ s.csrAllowed (s.ridOf c.uid) (s.readRegs c.uid 0 .s 4 1) = true)) ∧
    (∃ sh, FitsM (.csrwr (hdr 0xA 0 4 8 0 true .w64) ⟨0, .i32⟩ 0) (labUnsplit csrS4 [])
      (fun c s _ => csrShape (s.readRegs c.uid 0 .s 4 1) = some sh ∧ s.csrAllowed (s.ridOf c.uid) (s.readRegs c.uid 0 .s 4 1) = true)) :=
  ⟨fits_of (labWave 4 [] []) (by decide +kernel) trivial, fits_of (labWave 4 [] []) (by decide +kernel) (by decide +kernel),
   ⟨_, fits_of (labWave 4 csrS4 []) (by decide +kernel) ⟨rfl, by decide +kernel⟩⟩,
   ⟨_, fits_of (labWave 4 csrS4 []) (by decide +kernel) ⟨rfl, by decide +kernel⟩⟩⟩

/-- A record of a parked lane of the lab's wave, and one of an engine. -/
def labRec (eng : Option EngObj) : Rec :=
  { rid := 1, uid := 1, site := 0x1000, lanes := [⟨2, 0x11, 0, false⟩], eng := eng, code := 0x11, info := 0, handle := some 0, st := .served 1 }

/-- The lab with an open record. -/
def labOpen (eng : Option EngObj) : State := { lab [] [] with recs := [labRec eng] }

/-- An engine's object. -/
def labObj : EngObj := ⟨4, 0, 0, 0, 10, []⟩

/-- Does scalar A name this record? -/
def opensRec (r : Rec) (c : Ctx) (s : State) : Prop := s.recOf (s.ridOf c.uid) (s.readRegs c.uid 0 .s 4 1) = some r

theorem wit_handlerInstructions :
    FitsM (.tret (hdr 0xA 0 4 0 0 true .w64) ⟨0, .i32⟩ 0) (labOpen none) (fun c s _ => opensRec (labRec none) c s ∧ (labRec none).eng = none) ∧
    FitsM (.tret (hdr 0xA 0 4 0 0 true .w64) ⟨1, .i32⟩ 0) (labOpen (some labObj))
      (fun c s _ => opensRec (labRec (some labObj)) c s ∧ (labRec (some labObj)).eng = some labObj) ∧
    FitsM (.parkq (hdr 0xB 8 4 2 0 true .w64) ⟨0, .i32⟩ 0) (labOpen none) (fun c s _ => opensRec (labRec none) c s) ∧
    FitsM (.lanepc (hdr 3 6 4 8 0 false .w64) ⟨0, .i32⟩ 0) (labOpen none) (fun c s _ => opensRec (labRec none) c s) ∧
    FitsM (.lanepc (hdr 3 6 4 8 0 false .w64) ⟨1, .i32⟩ 0) (labOpen none) (fun c s _ => opensRec (labRec none) c s) ∧
    FitsM (.lanepc (hdr 3 0 4 8 1 false .w64) ⟨2, .i32⟩ 0) (labOpen none) (fun c s _ => opensRec (labRec none) c s) := by
  refine ⟨fits_of (labWave 4 [] []) (by decide +kernel) ?_, fits_of (labWave 4 [] []) (by decide +kernel) ?_, fits_of (labWave 4 [] []) (by decide +kernel) ?_,
    fits_of (labWave 4 [] []) (by decide +kernel) ?_, fits_of (labWave 4 [] []) (by decide +kernel) ?_, fits_of (labWave 4 [] []) (by decide +kernel) ?_⟩ <;>
  · unfold opensRec; decide +kernel

/-- A handle that names no open record; and for LANEPC an engine's (ChecksFault). -/
theorem wit_handleFaults :
    FitsM (.tret (hdr 0xA 0 4 0 0 true .w64) ⟨0, .i32⟩ 0) (lab (s4 5) []) (fun c s _ => s.recOf (s.ridOf c.uid) (s.readRegs c.uid 0 .s 4 1) = none) ∧
    FitsM (.parkq (hdr 0xB 8 4 2 0 true .w64) ⟨0, .i32⟩ 0) (lab (s4 512) []) (fun c s _ => s.recOf (s.ridOf c.uid) (s.readRegs c.uid 0 .s 4 1) = none) ∧
    FitsM (.lanepc (hdr 3 6 4 8 0 false .w64) ⟨0, .i32⟩ 0) (lab [] []) (fun c s _ => s.recOf (s.ridOf c.uid) (s.readRegs c.uid 0 .s 4 1) = none) ∧
    FitsM (.lanepc (hdr 3 6 4 8 0 false .w64) ⟨0, .i32⟩ 0) (labOpen (some labObj))
      (fun c s _ => opensRec (labRec (some labObj)) c s ∧ (labRec (some labObj)).eng.isSome = true) := by
  refine ⟨fits_of (labWave 4 (s4 5) []) (by decide +kernel) (by decide +kernel), fits_of (labWave 4 (s4 512) []) (by decide +kernel) (by decide +kernel),
    fits_of (labWave 4 [] []) (by decide +kernel) (by decide +kernel), fits_of (labWave 4 [] []) (by decide +kernel) ?_⟩
  unfold opensRec; decide +kernel

/-- SPAWN and the other forms of RCBOP and TLBOP have no condition but those of the packet. -/
theorem wit_regionInstructions : (words7.take 19).all packetOk = true := by decide +kernel

/-- TLBOP with a share tag. -/
theorem wit_tlbop :
    FitsM (.tlbopSva (hdr 0xA 8 4 5 6 true .w64) ⟨2, .i32⟩ 0) (lab [0, 0, 0, 0, 0, 1, 255] []) (fun c s l => s.srcCount c l .c % 2 ^ 8 ≠ 0) ∧
    FitsM (.tlbopSid (hdr 0xA 8 0 5 6 true .w64) ⟨3, .i32⟩ 0) (lab [0, 0, 0, 0, 0, 1, 1] []) (fun c s l => s.srcCount c l .c % 2 ^ 8 ≠ 0) :=
  ⟨fits_of (labWave 4 [0, 0, 0, 0, 0, 1, 255] []) (by decide +kernel) (by decide +kernel),
   fits_of (labWave 4 [0, 0, 0, 0, 0, 1, 1] []) (by decide +kernel) (by decide +kernel)⟩

/-- In a physical space every buffer in installed memory can be read and written, in this module's device memory. -/
theorem reach (s : State) (rid : Nat) (r : Region) (wr : Bool) (hr : s.region? rid = some r) (hi : s.injected rid = false) (hp : r.ptroot = none) :
    ∀ n, n ≤ 4096 → ∃ ls, s.translateRange rid 0x20000 wr n = .ok ls ∧ ∀ p ∈ ls, ∃ a, p = Loc.dev a .rc
  | 0, _ => ⟨[], rfl, by simp⟩
  | n + 1, hn => by
    obtain ⟨ls, h, hd⟩ := reach s rid r wr hr hi hp n (by omega)
    have ha : (131072 + n) % 2 ^ 56 < installed := by
      have : installed = 256000000000 := by decide +kernel
      omega
    refine ⟨ls ++ [Loc.dev ((131072 + n) % 2 ^ 56) .rc], by
      simp only [State.translateRange, h, State.translate, hr, hi, hp, if_pos ha, Bool.false_eq_true, if_false], fun p hp => ?_⟩
    rcases List.mem_append.1 hp with h1 | h1
    · exact hd p h1
    · exact ⟨_, List.mem_singleton.1 h1⟩

/-- The service reaches `n` bytes of the buffer that A names. -/
def svcReaches (n : Nat) (ls : List (Nat × Loc)) (c : Ctx) (s : State) : Prop :=
  s.readRegs c.uid 0 .s 4 2 % 64 = 0 ∧ s.readRegs c.uid 0 .s 4 2 < 2 ^ 56 ∧
    ({ s with ord := { s.ord with agent := none } } : State).bytesOfVa (s.ridOf c.uid) (s.readRegs c.uid 0 .s 4 2) true n = .ok ls

theorem svcReaches_of (s : State) (c : Ctx) (n : Nat) (hn : n ≤ 4096) (h1 : s.readRegs c.uid 0 .s 4 2 = 0x20000) (h2 : s.ridOf c.uid = 1)
    (h3 : ({ s with ord := { s.ord with agent := none } } : State).region? 1 = some labRegion)
    (h4 : ({ s with ord := { s.ord with agent := none } } : State).injected 1 = false) : ∃ ls, svcReaches n ls c s := by
  obtain ⟨ls, h, -⟩ := reach ({ s with ord := { s.ord with agent := none } } : State) 1 labRegion true h3 h4 rfl n hn
  refine ⟨((List.range n).map (fun i => (0x20000 + i) % 2 ^ 56)).zip ls, by rw [h1], by rw [h1]; decide, ?_⟩
  rw [h1, h2]
  simp only [State.bytesOfVa, h]

/-- The quote's buffer has its nonce here, and no uncorrectable data. -/
def nonceHere (n : Nat) (c : Ctx) (s : State) : Bool :=
  let t : State := { s with ord := { s.ord with agent := none } }
  okAnd (t.bytesOfVa (s.ridOf c.uid) (s.readRegs c.uid 0 .s 4 2) true n) (fun ls =>
    (t.missing (ls.take 48)).isNone && (t.poisonAt ((ls.take 48).map (fun q => q.2))).isNone)

theorem wit_serviceCallsAndIdle :
    FitsM (.svcallAtt (hdr 0xA 8 4 0 0 true .w64) ⟨0, .i32⟩ 0) (lab (s4 0x20000) [])
      (fun c s _ => s.readRegs c.uid 0 .s 4 2 % 64 = 0 ∧ s.readRegs c.uid 0 .s 4 2 < 2 ^ 56 ∧ nonceHere 304 c s = true) ∧
    FitsM (.svcallAtt (hdr 0xA 8 4 0 0 true .w64) ⟨0, .i32⟩ 0) ({ lab (s4 0x20000) [] with poison := [.dev 0x20020 .rc] } : State)
      (fun c s _ => s.readRegs c.uid 0 .s 4 2 % 64 = 0 ∧ s.readRegs c.uid 0 .s 4 2 < 2 ^ 56 ∧ nonceHere 304 c s = false ∧
        isOk (({ s with ord := { s.ord with agent := none } } : State).bytesOfVa (s.ridOf c.uid) (s.readRegs c.uid 0 .s 4 2) true 304) = true) ∧
    (∃ ls, FitsM (.svcallCert (hdr 0xA 8 4 0 0 true .w64) ⟨1, .i32⟩ 0) (lab (s4 0x20000) [])
      (fun c s _ => svcReaches (Config.certificate.take 4096).length ls c s)) ∧
    FitsM (.svcallAtt (hdr 0xA 8 4 0 0 true .w64) ⟨0, .i32⟩ 0) (lab (s4 0x20020) []) (fun c s _ => s.readRegs c.uid 0 .s 4 2 % 64 ≠ 0) ∧
    FitsM (.svcallCert (hdr 0xA 8 4 0 0 true .w64) ⟨1, .i32⟩ 0) (lab [0, 0, 0, 0, 0, 0x1000000] []) (fun c s _ => 2 ^ 56 ≤ s.readRegs c.uid 0 .s 4 2) ∧
    FitsM (.idle (hdr 0xA 8 4 0 0 true .w64) ⟨0, .i32⟩ 0) (lab (s4 15) [])
      (fun c s _ => (s.wave? c.uid).isSome ∧ 0 < s.readRegs c.uid 0 .s 4 1 ∧ s.readRegs c.uid 0 .s 4 1 < 2 ^ 4) := by
  refine ⟨fits_of (labWave 4 (s4 0x20000) []) (by decide +kernel) (by decide +kernel),
    fits_of (labWave 4 (s4 0x20000) []) (by decide +kernel) (by decide +kernel), ?_,
    fits_of (labWave 4 (s4 0x20020) []) (by decide +kernel) (by decide +kernel),
    fits_of (labWave 4 [0, 0, 0, 0, 0, 0x1000000] []) (by decide +kernel) (by decide +kernel),
    fits_of (labWave 4 (s4 15) []) (by decide +kernel) (by decide +kernel)⟩
  let i : Instr := .svcallCert (hdr 0xA 8 4 0 0 true .w64) ⟨1, .i32⟩ 0
  let w := labWave 4 (s4 0x20000) []
  have ready' : readyOne i (lab (s4 0x20000) []) w = true := by decide +kernel
  obtain ⟨ls, h⟩ := svcReaches_of ((onset i (lab (s4 0x20000) []) w).asLane 1 0) (ctxOf (encD i) w [0] 0x1000)
    (Config.certificate.take 4096).length (by simp only [List.length_take]; omega) (by decide +kernel) (by decide +kernel) (by decide +kernel)
    (by decide +kernel)
  exact ⟨ls, fits_of w ready' h⟩

/-- A control block with FHND and without a pool under the lab's region, at 0x20000 (HandlersNeedAPool). -/
def labRcb : Nat := 2 ^ 128 + 2 ^ 640 * 0x100

/-- The condition of R437 on that control block. -/
def poolBad (s : State) (rid adr : Nat) : Bool :=
  okAnd (s.readVa rid adr 256) (fun b => (match s.region? (bitsAt b 128 32) with
    | some p => decide ((regionOf b adr p).hpool = 0) && (decide ((regionOf b adr p).fhnd ≠ 0) || decide ((regionOf b adr p).abnd ≠ 0))
    | none => false))

/-- The lab with a root region and the handler wave of a CTXNEW for that control block. -/
def labCtxnew : State :=
  let s := withBytes (lab (s4 0x20000) []) 0x20000 (leBytes 256 labRcb)
  { s with
    regions := [{ labRegion with rid := 0 }, labRegion]
    waves := s.waves ++ [{ labWave 1 [0x20000, 0, 0x30000, 0] [] with uid := 2, rid := 0, kind := .firmware 1 }] }

theorem wit_handlersNeedAPool :
    FitsM (.rcbopReg (hdr 0xA 8 4 0 0 true .w64) ⟨0, .i32⟩ 0) labCtxnew
      (fun c s _ => poolBad { s with ord := { s.ord with agent := none } } (s.ridOf c.uid) (s.pairA c) = true) ∧
    (∃ w, (labCtxnew.firmware 1)[0]? = some w ∧
      (let t := { labCtxnew with waves := labCtxnew.waves.filter (fun v => v.uid ≠ w.uid) }
       okAnd (t.readVa 0 (w.addrAt 0) 256) (fun b => (match t.region? (bitsAt b 128 32) with
          | some p => !p.retiring &&
            (let id := t.freeRid (t.regions.length + 2) t.link.nextRid
             poolBad ((t.updLink (fun l => { l with nextRid := id + 1 })).svcWrite (w.addrAt 0)
               (leBytes 8 (putBits (putBits (bitsAt b 0 64) 0 32 id) 48 3 (p.depth + 1)))) 0 (w.addrAt 0))
          | none => false)) = true)) :=
  ⟨fits_of (labWave 4 (s4 0x20000) []) (by decide +kernel) (by decide +kernel), ⟨_, rfl, by decide +kernel⟩⟩

/-! ## Witnesses: the instructions that stop -/

/-- The conditions of FitsM, with `p`, as a check. -/
def fitsB (i : Instr) (s : State) (w : Wave) (p : Ctx → State → Nat → Bool) : Bool :=
  readyOne i s w && p (ctxOf (encD i) w [0] 0x1000) ((onset i s w).asLane w.uid 0) 0

theorem fits_b {i : Instr} {s : State} {w : Wave} {p : Ctx → State → Nat → Bool} (h : fitsB i s w p = true) : FitsM i s (fun c s l => p c s l = true) := by
  unfold fitsB at h
  rw [Bool.and_eq_true] at h
  exact fits_of w h.1 h.2

/-- Where the condition leaves the fault no code that waits, FitsM meets the hypotheses of FaultsMem and of FaultsOnceMem. -/
theorem FitsM.stops {i : Instr} {s : State} {P : Ctx → State → Nat → Prop} {f : Ctx → State → Nat → State × LFault} (h : FitsM i s P)
    (hf : ∀ c s l, P c s l → (f c s l).2.holds = false) : Fits i s (fun c s l => whenActing P c s l ∧ (Sys2Proof.Machine.faulting f c s l).2.holds = false) := by
  refine FitsM.faulting ?_
  obtain ⟨e, p, ps, w, h1, h2, h3, h4, h5, h6, h7, h8⟩ := h
  exact ⟨e, p, ps, w, h1, h2, h3, h4, h5, h6, h7, h8, hf _ _ _ h8⟩

/-- An error that does not make the access wait. -/
def errs {α : Type} (x : Except LFault α) : Bool := match x with | .error e => !e.holds | .ok _ => false

/-- Arrivals at barriers: on a mask that does not hold the lane, at the workgroup's count of barriers, and with a wave set beyond the workgroup (ChecksFault). -/
theorem wit_barFaults :
    ([Instr.bar (hdr 4 0 0 1 2 false .w64) ⟨3⟩ 0, .bararr (hdr 4 0 0 1 2 false .w64) ⟨3⟩ 0].all (fun i => fitsB i (lab [] []) (labWave 4 [] [])
      (fun c s l => let w := waveOf c s
        let n := (s.workgroup w.gid w.gangwg).length
        let B := s.srcCount c l .b % 2 ^ 16
        (s.wave? c.uid).isSome && 3 < w.nbar && B < 2 ^ n && arriveFail (s.bar w.gid w.gangwg 3) (resolveW B n) 2 w.uid w.widx l (w.mask 2) = some 4)) &&
     [Instr.bar (hdr 4 0 0 1 0 false .w64) ⟨4⟩ 0, .bararr (hdr 4 0 0 1 0 false .w64) ⟨4⟩ 0, .barwt (hdr 0 0 2 0 0 false .w64) ⟨4⟩ 0].all (fun i =>
      fitsB i (lab [] []) (labWave 4 [] []) (fun c s _ => (s.wave? c.uid).isSome && (waveOf c s).nbar ≤ 4)) &&
     [Instr.bar (hdr 4 0 0 2 0 false .w64) ⟨3⟩ 0, .bararr (hdr 4 0 0 2 0 false .w64) ⟨3⟩ 0].all (fun i => fitsB i (lab [] []) (labWave 4 [] [])
      (fun c s l => (s.wave? c.uid).isSome && 2 ^ (s.workgroup (waveOf c s).gid (waveOf c s).gangwg).length ≤ s.srcCount c l .b % 2 ^ 16))) = true := by
  decide +kernel

/-- SSTEP with another mask than the step's, in a lane outside it, with a mask that has changed, of a lane that has arrived, and in a region without supersteps. -/
theorem wit_stepFaults :
    (let fails := fun (C : BitVec 8) (r : Region) (p : Region → Nat → Wave → Option (Nat × LaneMask × LaneMask) → Bool) =>
       fitsB (.sstep (hdr 0 0 0 0 C false .w64) ⟨0⟩ 0) ({ lab [] [] with regions := [r] } : State) (labWave 4 [] []) (fun c s l =>
         (s.wave? c.uid).isSome && decide (s.region? (waveOf c s).rid = some r) && p r l (waveOf c s) (r.stepArr.find? (fun x => x.1 = (waveOf c s).uid)))
     let in' := fun (r : Region) (w : Wave) => r.ssm && r.stepSet.contains w.uid
     fails 0 { stepRegion with stepMask := some 1 } (fun r _ w _ => in' r w && r.stepMask.getD 0 ≠ 0) &&
     fails 2 stepRegion (fun r l w _ => in' r w && r.stepMask.getD 2 = 2 && !inMask (w.mask 2) l) &&
     fails 0 { stepRegion with stepMask := some 0, stepArr := [(1, 7, 4)] } (fun r l w seen =>
       in' r w && r.stepMask.getD 0 = 0 && inMask (w.mask 0) l && (seen.map (fun y => decide (y.2.1 ≠ w.mask 0))).getD false) &&
     fails 0 { stepRegion with stepMask := some 0, stepArr := [(1, 15, 1)] } (fun r l w seen =>
       in' r w && r.stepMask.getD 0 = 0 && inMask (w.mask 0) l && (seen.map (fun y => decide (y.2.1 = w.mask 0))).getD false &&
         inMask ((seen.map (fun x => x.2.2)).getD 0) l) &&
     fails 0 labRegion (fun r _ _ _ => !r.ssm)) = true := by
  decide +kernel

/-- The check of inBounds, and of aligned. -/
def inB (s : State) (w : Wave) (seg o n : Nat) : Bool :=
  let g := w.seg seg
  let a := (segBaseOf g + o) % 2 ^ 56
  decide (o + n ≤ segLimit g ∧ (2 ≤ seg ∧ seg ≤ 4 → (s.allocOf w seg).1 ≤ a ∧ a + n ≤ (s.allocOf w seg).1 + (s.allocOf w seg).2))
def alB (w : Wave) (seg o n align : Nat) : Bool :=
  let a := if seg = 5 then o else segBaseOf (w.seg seg) + o
  decide ((align ≠ 0 → o % align = 0 ∧ (seg = 5 → n ≤ 4)) ∧ (n ≤ 32 → a / 32 = (a + (n - 1)) / 32))
theorem inB_iff (s : State) (w : Wave) (seg o n : Nat) : inB s w seg o n = true ↔ inBounds s w seg o n := by unfold inB inBounds; exact decide_eq_true_iff
theorem alB_iff (w : Wave) (seg o n align : Nat) : alB w seg o n align = true ↔ aligned w seg o n align := by unfold alB aligned; exact decide_eq_true_iff

/-- The check at which an access stops: 0 the segment, 1 its permission, 2 the alignment, 3 the address (MemoryAccessesFault). -/
def stopsAt (k : Nat) (f : MemFn) (write atomic : Bool) (c : Ctx) (s : State) (l : Nat) : Bool :=
  let w := issuedOf c s l
  let o := s.memOffset c f l
  let n := szBytes f.sz
  let seg := f.seg.toNat
  let al := alB w seg o n (if atomic then n else 0)
  let wr := !write || segWr (w.seg seg)
  (s.wave? c.uid).isSome && match k with
    | 0 => !inB s w seg o n
    | 1 => inB s w seg o n && write && !segWr (w.seg seg)
    | 2 => inB s w seg o n && wr && !al
    | _ => inB s w seg o n && wr && al && errs (s.resolveN w l seg o write n)

/-- The memory instructions with an access of a segment: vector and uniform loads, of the read-only segment, indexed; stores; atomics. -/
def memCases (seg : BitVec 3) : List (Instr × MemFn × Bool × Bool) :=
  let f := memFn .b32 seg
  [(.ld (hdr 7 6 2 0 0 false .w64) f 0, f, false, false), (.ld (hdr 0xC 8 2 0 0 true .w64) (memFn .b256 seg) 0, memFn .b256 seg, false, false),
   (.ldc (hdr 0xC 4 2 0 0 true .w64) (memFn .b128 1) 0, memFn .b128 1, false, false), (.ldx (hdr 5 6 2 3 0 false .w64) f 0, f, false, false),
   (.st (hdr 7 6 2 0 0 false .w64) f 0, f, true, false), (.stx (hdr 5 6 2 3 0 false .w64) f 0, f, true, false),
   (.atom (hdr 7 6 2 0 0 false .w96) f 0, f, true, true), (.red (hdr 7 6 2 0 0 false .w96) f 0x8000000, f, true, true)]

/-- The lab whose address space is one page of peer 1, of no group. -/
def labNowhere (w : Wave) : State := { labFar w with regions := [{ labRegion with ptroot := some 0x40000 }] }

/-- Every memory instruction beyond its limit, at a sector's end, and at an address of a peer of no group; every write of a segment without WR. -/
theorem wit_memoryStops :
    (let at' := fun (k o : Nat) (cs : List (Instr × MemFn × Bool × Bool)) => cs.all (fun x =>
       fitsB x.1 (lab [0, 0, o] [0, 0, o]) (labWave 4 [0, 0, o] [0, 0, o]) (stopsAt k x.2.1 x.2.2.1 x.2.2.2))
     at' 0 0x10000 (memCases 0) && at' 1 0 ((memCases 1).drop 4) && at' 2 0x1E (memCases 0) &&
     (memCases 0).all (fun x => fitsB x.1 (labNowhere (labWave 4 [] [])) (labWave 4 [] []) (stopsAt 3 x.2.1 x.2.2.1 x.2.2.2))) = true := by
  decide +kernel

/-- The leaves of MemoryAccessesFault: of another partition, read-only, copy-on-write, writable, beyond the installed memory, and of a peer of no group. -/
theorem wit_leaves :
    (let r : Region := { labRegion with part := some 1 }
     let l : Leaf := { leafOf 3 0 false with part := 0 }
     r.part.isSome = true ∧ l.part ≠ r.part.getD 0 ∧ (({ l with part := 1, ro := true } : Leaf).ro || false) = true ∧
       ({ l with part := 1, ro := true, cow := true } : Leaf).cow = true ∧ ({ l with part := 1, ro := false, shared := false } : Leaf).ro = false ∧
       installed ≤ ({ l with rem := false, addr := installed } : Leaf).addr + 0 ∧ (r.grpActive && (0 : Nat) < r.cgsz) = false) := by decide +kernel

/-- LDX of a run-ahead group whose token is pending, and of bytes of an uncorrectable sector. -/
theorem wit_runaheadStops :
    fitsB (.ldx (hdr 5 6 2 4 0 false .w128) (memFn .b32 0) 0x8300000000000000) (labOf ((labWave 4 [] []).setTok 3 0 true) [0]) ((labWave 4 [] []).setTok 3 0 true)
      (fun c s l => (s.wave? c.uid).isSome && (waveOf c s).tokPending 3 l) = true ∧
    fitsB (.ldx (hdr 5 6 2 4 0 false .w128) (memFn .b32 0) 0x8300000000000000) ({ lab [] [] with poison := [.dev 0x10000 .rc] } : State) (labWave 4 [] [])
      (fun c s l =>
        let t := s.updWave c.uid (fun w => { w with jg := Sparse.put 0 w.jg 3 (setLane (Sparse.get 0 (waveOf c s).jg 3) l true), jsite := Sparse.put 0 w.jsite 3 (joinSite c) })
        (s.wave? c.uid).isSome && !(waveOf c s).tokPending 3 l && Sparse.get 0 (waveOf c s).jg 3 = 0 &&
          okAnd (t.access c (memFn .b32 0) l false 0) (fun ls => (t.missing ls).isNone && (t.ueAt ls).isSome)) = true := by decide +kernel

/-- The check at which LDMC stops: 0 its segment, 1 its alignment, 2 its address, 3 a destination beyond the clusters, 4 one outside the partition, 5 its token. -/
def ldmcStops (k : Nat) (x : Nat) (c : Ctx) (s : State) (l : Nat) : Bool :=
  let size := 128 * (bitsAt x 38 6 + 1)
  let g := (issuedOf c s l).seg 0
  let o := s.memOffset c (memFn .b8 0) l
  let a := (segBaseOf g + o) % 2 ^ 56
  let ds := mcastDests (s.readRegs c.uid 0 .s (bitsAt x 44 8) 2) (bitsAt x 58 6) (bitsAt x 54 4)
  let fits := decide (o + size ≤ segLimit g)
  let al := decide (o % 128 = 0) && decide (a / 8192 = (a + (size - 1)) / 8192)
  let at' := s.translate (waveOf c s).rid a false
  let read := fits && al && isOk at'
  (s.wave? c.uid).isSome && s.granted 7 && match k with
    | 0 => !fits
    | 1 => fits && !al
    | 2 => fits && al && errs at'
    | 3 => read && ds.any (fun d => 47 < d.1)
    | 4 => read && ds.all (fun d => d.1 ≤ 47) && (ds.find? (fun d => !s.inPart (waveOf c s).rid d.1)).isSome
    | _ => read && ds.all (fun d => d.1 ≤ 47 && s.inPart (waveOf c s).rid d.1) && (waveOf c s).tokPending 5 l

theorem wit_ldmcStops :
    (let i := fun (x : BitVec 64) => Instr.ldmc (hdr 7 5 2 0 0 false .w128) (memFn .b8 0) x
     let far := 47 * 2 ^ 58
     let tok := (labWave 4 [3] []).setTok 5 0 true
     fitsB (i 0) (labUnsplit [3] [0, 0, 0x10000]) (labWave 4 [3] [0, 0, 0x10000]) (ldmcStops 0 0) &&
     fitsB (i 0) (labUnsplit [3] [0, 0, 0x40]) (labWave 4 [3] [0, 0, 0x40]) (ldmcStops 1 0) &&
     fitsB (i 0) (labNowhere (labWave 4 [3] [])) (labWave 4 [3] []) (ldmcStops 2 0) &&
     fitsB (i (BitVec.ofNat 64 far)) (labUnsplit [0x10] []) (labWave 4 [0x10] []) (ldmcStops 3 far) &&
     fitsB (i 0) ({ labUnsplit [3] [] with regions := [{ labRegion with part := some 1 }] } : State) (labWave 4 [3] []) (ldmcStops 4 0) &&
     fitsB (i 0) ({ labUnsplit [3] [] with waves := [tok] } : State) tok (ldmcStops 5 0)) = true := by decide +kernel

/-- TKPOST with a pending token, of a record across the limit, of one with an uncorrectable sector, and of one of no kind (EngineInstructionsFault). -/
theorem wit_tkpostStops :
    (let i := Instr.tkpost (hdr 3 6 4 0x12 0 false .w64) ⟨0, .i32⟩ 0
     let tok := (labWave 4 [] []).setTok 2 0 true
     let off := labWave 4 [0, 0, 0, 0, 0x10000] [0, 0, 0, 0, 0x10000]
     let free := fun (c : Ctx) (s : State) (l : Nat) => (s.wave? c.uid).isSome && !s.tokBusy c.uid l (tokField 0x12)
     let slot := fun (c : Ctx) (s : State) => (s.freeSlot (waveOf c s).cl).isSome
     fitsB i (labEng tok [] []) tok (fun c s l => (s.wave? c.uid).isSome && s.tokBusy c.uid l (tokField 0x12)) &&
     fitsB i (labEng off [] []) off (fun c s l => free c s l && errs (tkpostReads c s l)) &&
     fitsB i ({ labEng (labWave 4 [] []) [] [] with poison := [.dev 0x10000 .rc] } : State) (labWave 4 [] []) (fun c s l =>
       free c s l && slot c s && okAnd (tkpostReads c s l) (fun ls => (s.ueAt (ls.take 24)).isSome)) &&
     fitsB i (labEng (labWave 4 [] []) [] []) (labWave 4 [] []) (fun c s l => free c s l && slot c s && okAnd (tkpostReads c s l) (fun ls =>
       let r := (ls.take 24).map (fun x => x.2)
       (s.ueAt (ls.take 24)).isNone && (s.missing (ls.take 24)).isNone && (s.noteRead r none).recordBad (issuedOf c s l) (leNat (s.readLocs r))))) = true := by
  decide +kernel

/-- CBINI, CBPSH and CBPOP of a buffer of another gang; CBINI of a bad size, off its alignment, beyond its segment, and of a buffer that a task uses; CBPSH and CBPOP on
a bus side, of a bad count, and of no buffer. -/
theorem wit_bufferStops :
    (let w := labWave 4 [] []
     let eng := fun (cb : List Cbuf) (ts : List Task) => labEng w cb ts
     let ini := fun (a b : BitVec 8) => Instr.cbini (hdr 9 2 a b 0 false .w64) ⟨2, .i32⟩ 0
     let live := fun (c : Ctx) (s : State) => (s.wave? c.uid).isSome
     let held := fun (c : Ctx) (s : State) => live c s && s.holds (waveOf c s).gid 2
     let size := fun (c : Ctx) (s : State) (l : Nat) => s.srcCount c l .b
     let o := fun (c : Ctx) (s : State) (l : Nat) => s.srcCount c l .a
     let sized := fun (c : Ctx) (s : State) (l : Nat) => held c s && size c s l % 32 = 0 && 32 ≤ size c s l && size c s l ≤ 262144
     let turn := fun (prod : Bool) (c : Ctx) (s : State) (l : Nat) => held c s && (match s.cbuf? (waveOf c s).cl 2 with
       | none => true
       | some q => (if prod then q.pe else q.ce) || s.srcCount c l .b % 32 ≠ 0 || (if prod then q.room else q.count) < s.srcCount c l .b)
     [Instr.cbini (hdr 9 9 4 64 0 false .w64) ⟨2, .i32⟩ 0, .cbpsh (hdr 4 9 0 32 0 false .w64) ⟨0, .i32⟩ 0, .cbpop (hdr 4 9 0 32 0 false .w64) ⟨0, .i32⟩ 0].all (fun i =>
       fitsB i (eng [] []) w (fun c s _ => live c s && !s.holds (waveOf c s).gid 9)) &&
     fitsB (ini 4 16) (eng [] []) w (fun c s l => held c s && !sized c s l) &&
     fitsB (ini 4 64) (labEng (labWave 4 [0, 0, 0, 0, 8] [0, 0, 0, 0, 8]) [] []) (labWave 4 [0, 0, 0, 0, 8] [0, 0, 0, 0, 8]) (fun c s l => sized c s l && o c s l % 32 ≠ 0) &&
     fitsB (ini 4 64) (labEng (labWave 4 [0, 0, 0, 0, 0xFFE0] [0, 0, 0, 0, 0xFFE0]) [] []) (labWave 4 [0, 0, 0, 0, 0xFFE0] [0, 0, 0, 0, 0xFFE0]) (fun c s l =>
       sized c s l && o c s l % 32 = 0 && !inB s (waveOf c s) 2 (o c s l) (size c s l)) &&
     fitsB (ini 4 64) (eng [] [{ labTask .running 0 0 with ins := [some (2, 1)] }]) w (fun c s l =>
       sized c s l && o c s l % 32 = 0 && inB s (waveOf c s) 2 (o c s l) (size c s l) && s.cts.tasks.any (fun t => t.cl = (waveOf c s).cl && t.st ≠ .done && t.names 2 false)) &&
     fitsB (.cbpsh (hdr 4 2 0 32 0 false .w64) ⟨0, .i32⟩ 0) (eng [labCbuf true true] []) w (turn true) &&
     fitsB (.cbpsh (hdr 4 2 0 224 0 false .w64) ⟨0, .i32⟩ 0) (eng [labCbuf false false] []) w (turn true) &&
     fitsB (.cbpop (hdr 4 2 0 40 0 false .w64) ⟨0, .i32⟩ 0) (eng [labCbuf false false] []) w (turn false) &&
     fitsB (.cbpop (hdr 4 2 0 32 0 false .w64) ⟨0, .i32⟩ 0) (eng [] []) w (turn false)) = true := by decide +kernel

/-- The check at which AMSG stops: 0 its token, 1 a bad target, 2 a bad peer, 3 another partition, 4 no entry, 5 an entry that cannot be read. -/
def amsgStops (k : Nat) (c : Ctx) (s : State) (l : Nat) : Bool :=
  match s.wave? c.uid, s.region? (s.ridOf c.uid) with
  | some w, some r =>
    let t := s.srcCount c l .b
    let badTarget := bitsAt t 16 16 ≠ 0 || bitAt t 7 || 47 < bitsAt t 0 6
    let badPeer := bitAt t 6 && (r.cgrp = 0 || r.cgsz ≤ bitsAt t 8 8)
    let badPart := !bitAt t 6 && !s.inPart w.rid (bitsAt t 0 6)
    let entry := s.tableEntry w.rid r.amtbl 5 1
    if k = 0 then w.tokPending 3 l
    else !w.tokPending 3 l && (match k with
      | 1 => badTarget
      | 2 => !badTarget && badPeer
      | 3 => !badTarget && !badPeer && badPart
      | 4 => !badTarget && !badPeer && !badPart && (r.amtbl = 0 || okAnd entry (fun e => e.isNone))
      | _ => !badTarget && !badPeer && !badPart && r.amtbl ≠ 0 && (match entry with | .error e => e.code ≠ fcMemUe && !e.holds | .ok _ => false))
  | _, _ => false

theorem wit_amsgStops :
    (let i := Instr.amsg (hdr 8 3 8 4 5 false .w64) ⟨0, .i32⟩ 0
     let at' := fun (t k : Nat) => fitsB i (labUnsplit (s4 t) (s4 t)) (labWave 4 (s4 t) (s4 t)) (amsgStops k)
     let tok := (labWave 4 [] []).setTok 3 0 true
     let with' := fun (r : Region) (k : Nat) => fitsB i ({ labUnsplit [] [] with regions := [r] } : State) (labWave 4 [] []) (amsgStops k)
     fitsB i ({ labUnsplit [] [] with waves := [tok] } : State) tok (amsgStops 0) && at' 48 1 && at' 0x10000 1 && at' 0x80 1 && at' 0x40 2 &&
     with' { labRegion with part := some 1 } 3 && with' { labRegion with amtbl := 0 } 4 && at' 0 4 && with' { labRegion with amtbl := installed } 5) = true := by decide +kernel

/-- EVSET of an index above 255, of another region's event, and of no valid entry; FETCHW with a pending token, beyond its segment, through one without WR, and off 16 bytes;
CSRRD and CSRWR of no register, and of one outside the region's partition. -/
theorem wit_systemStops :
    (let w := labWave 4 [] []
     let ev := fun (b : BitVec 8) => Instr.evset (hdr 4 9 0 b 0 false .w64) ⟨0, .i32⟩ 0
     let evB := Instr.evset (hdr 0 9 0 4 0 false .w64) ⟨0, .i32⟩ 0
     let cur := fun (c : Ctx) (s : State) => s.cts.binds.find? (fun b => b.cl = (waveOf c s).cl && b.evt = 9)
     let big := labWave 4 (s4 256) (s4 256)
     let fw := fun (seg : BitVec 8) => Instr.fetchw (hdr 7 0x1F 4 0 0 false .w64) ⟨seg, .i32⟩ 0
     let o := fun (c : Ctx) (s : State) (l : Nat) => s.srcCount c l .a % 2 ^ 56
     let free := fun (c : Ctx) (s : State) (l : Nat) => (s.wave? c.uid).isSome && !(waveOf c s).tokPending 15 l
     let tok := w.setTok 15 0 true
     let off := fun (x : Nat) => labWave 4 [] (s4 x)
     let ro := w.setSeg 2 (mkSeg 0 0x10000 false)
     let csr := fun (a : Nat) (p : Option CsrShape → Bool) => [Instr.csrrd (hdr 0xA 8 4 0 0 true .w64) ⟨0, .i32⟩ 0, .csrwr (hdr 0xA 0 4 8 0 true .w64) ⟨0, .i32⟩ 0].all
       (fun i => fitsB i (labUnsplit (s4 a) []) (labWave 4 (s4 a) []) (fun c s _ => p (csrShape (s.readRegs c.uid 0 .s 4 1)) &&
         ((csrShape (s.readRegs c.uid 0 .s 4 1)).isNone || !s.csrAllowed (s.ridOf c.uid) (s.readRegs c.uid 0 .s 4 1))))
     fitsB evB (labOf big [0]) big (fun c s l => (s.wave? c.uid).isSome && 255 < s.srcCount c l .b) &&
     fitsB (ev 0) ({ lab [] [] with cts := { State.reset.cts with binds := [⟨0, 9, 7, 5, 0⟩] } } : State) w (fun c s l =>
       (s.wave? c.uid).isSome && s.srcCount c l .b ≤ 255 && (match cur c s with | some q => q.rid ≠ (waveOf c s).rid | none => false)) &&
     fitsB (ev 0) (lab [] []) w (fun c s l => (s.wave? c.uid).isSome && s.srcCount c l .b ≤ 255 && (cur c s).isNone &&
       okAnd (s.tableEntry (waveOf c s).rid (waveOf c s).htbl (s.srcCount c l .b) 0) (fun e => e.isNone)) &&
     fitsB (fw 2) (labOf tok [0]) tok (fun c s l => (s.wave? c.uid).isSome && (waveOf c s).tokPending 15 l) &&
     fitsB (fw 2) (labOf (off 0x10000) [0]) (off 0x10000) (fun c s l => free c s l && !inB s (waveOf c s) 2 (o c s l) 16) &&
     fitsB (fw 2) (labOf ro [0]) ro (fun c s l => free c s l && inB s (waveOf c s) 2 (o c s l) 16 && !segWr ((waveOf c s).seg 2)) &&
     fitsB (fw 2) (labOf (off 8) [0]) (off 8) (fun c s l => free c s l && inB s (waveOf c s) 2 (o c s l) 16 && segWr ((waveOf c s).seg 2) && o c s l % 16 ≠ 0) &&
     csr (csrAddr 0 0 0 0x3FF) (fun x => x.isNone) && csr (svcAddr 0x11) (fun x => x.isSome)) = true := by decide +kernel

/-! ## Witnesses: events of the cores -/

/-- The lab's wave with lane 0 in a run state. -/
def waveSt (st : RunState) : Wave := (labWave 4 [] []).updThread 0 (fun t => { t with st := st })

/-- The lab between slots, with a wave. -/
def labIdle (w : Wave) : State := { labOf w [0] with packets := [], clk := 100 }

/-- Load data and a short result on their way. -/
def labAhead : Ahead := ⟨1, 0, 3, [(.v 6 0, 7)]⟩

/-- The lab with a region of two levels of translation tables: one leaf maps its first 16 GiB. -/
def labPaged : State :=
  { withBytes (labIdle (labWave 4 [] [])) 0x40000 [3] with
    regions := [{ labRegion with ptroot := some 0x40000 }]
    misses := [⟨.root 0 0x40000, 1, [⟨.lane 1 0, .core 0, 1, 0x12345, false, none⟩]⟩] }

/-- A delivery of an open, empty stream. -/
def labStream : StreamOp := ⟨1, [0], 0x1000, 0x1010, hdr 1 8 3 0 4 false .w128, 0xC1, 0, 5, 0, 0, 0, []⟩

/-- A short result of v6 in lane 0. -/
def labPend : Pend := ⟨1, [0], [(.v 6 0, 7)], [], none, []⟩

/-- The lab's wave with a user interrupt pending, and lane 0 in a run state; and with an entry of its handler table. -/
def waveUser (st : RunState) : Wave := { waveSt st with uiPend := [2] }
def labUser (st : RunState) : State := withBytes (labIdle (waveUser st)) 0x6010 (leBytes 8 0x8000000000007000)

/-- What the walk of the lab's miss finds, in a root table that is given. -/
def walked (s : State) : WalkRes := walkBy ((s.asOp .walker .port s.ord.walk).walkEntry 0x12345) 0 0x40000 0x12345

theorem wit_coreEvents :
    (labIdle (labWave 4 [] [])).packets = [] ∧
    (let s := labIdle (waveSt .fetching)
     s.waves.any (fun w => w.cl = 0 && w.core = 0 && s.rootOf w.rid = s.rootOf 1 && w.rid = 1 && !(w.lanesWhere (fun _ t => waitsFill 0x80 t)).isEmpty) = true ∧
       s.draining 1 = false ∧ isOk (s.fillRead 0 1 0x80).2 = true ∧ waitsFill 0x80 ((waveSt .fetching).thread 0) = true) ∧
    (takeAt 0 [labPend] = some (labPend, []) ∧ labPend.ue = none ∧ (labIdle (waveSt .settling)).wave? 1 = some (waveSt .settling) ∧
      ((waveSt .settling).thread 0).st = .settling ∧ (labIdle (waveSt .settling)).hasPend 1 0 = false) ∧
    (findIdx (fun (a : Ahead) => a.uid = 1 && a.lane = 0 && a.tok = 3) [labAhead] = some (0, labAhead) ∧
      (labIdle (labWave 4 [] [])).watched 1 0 = false) ∧
    (let s := labIdle ((labWave 4 [] []).updThread 0 (fun t => { t with ue := some 0x20000 }))
     (s.thread 1 0).ue = some 0x20000 ∧ atBoundary (s.thread 1 0) = true) ∧
    ((labIdle (waveSt (.sleeping (.timer 100) true))).thread 1 0).st = .sleeping (.timer 100) true ∧ 100 ≤ (100 : Nat) ∧
    (let s := labIdle (waveSt (.sleeping (.idle 8 100 6 0) false))
     (s.thread 1 0).st = .sleeping (.idle 8 100 6 0) false ∧ s.idleEvents (waveSt (.sleeping (.idle 8 100 6 0) false)) 8 100 0 ≠ 0) ∧
    (∀ st ∈ [RunState.ready, .sleeping (.idle 1 100 6 0) false],
      (labUser st).wave? 1 = some (waveUser st) ∧ (labUser st).uiLane (waveUser st) = some 0 ∧ (waveUser st).uiEn = true ∧ (waveUser st).uiRun = none ∧
        (waveUser st).bank = .active ∧ (labUser st).stopped 0 0 0 = false ∧ okAnd ((labUser st).tableEntry 1 (waveUser st).htbl 2 0) (fun e => e.isSome) = true ∧
        ((waveUser st).thread 0).st = st) ∧
    (let s := labIdle (waveSt (.admission .checks false))
     (s.thread 1 0).st = .admission .checks false ∧ s.watched 1 0 = false) ∧
    (let w := { labWave 4 [] [] with w := [(3, BitVec.ofNat 512 (0x20000 + 2 ^ 56))] }
     let s := { withBytes (labIdle w) 0x20000 [0x30, 0, 1] with streams := [labStream] }
     s.streams[0]? = some labStream ∧ s.strmBusy 1 labStream.regs 0 = false ∧ s.wave? 1 = some w ∧
       isOk ((s.asStream labStream w).strmFetch labStream w.rid).2 = true) ∧
    (let s := labPaged
     (s.misses.take 64).find? (fun m => m.page = 0x12345 / 2 ^ 16 && m.reqs.any (fun q => q.rid = 1)) = s.misses.head? ∧ s.misses.length = 1 ∧
       s.region? 1 = some { labRegion with ptroot := some 0x40000 } ∧ s.draining 1 = false ∧ (match walked s with | .leaf _ _ => true | .fault _ => false) = true ∧
       walked (withBytes s 0x40000 [0]) = .fault false ∧ walked (withBytes s 0x40000 [0x0F]) = .fault true) := by
  refine ⟨?_, ?_, ?_, ?_, ?_, ?_, ?_, ?_, ?_, ?_, ?_, ?_⟩
  · decide +kernel
  · decide +kernel
  · decide +kernel
  · decide +kernel
  · decide +kernel
  · decide +kernel
  · decide +kernel
  · decide +kernel
  · decide +kernel
  · decide +kernel
  · decide +kernel
  · decide +kernel


/-- A waiting record. -/
def labWaiting (st : RecState) (h : Option Nat) : Rec := { labRec none with handle := h, st := st }

/-- The lab with regions and records between slots, at a clk. -/
def labRegions (rs : List Region) (qs : List Rec) (clk : Nat) : State := { labIdle (labWave 4 [] []) with regions := rs, recs := qs, clk := clk }

/-- A collective region in an abort. -/
def labGroup (tokens : List (Nat × Nat × Option Nat)) (aborting : Bool) (abnd : Nat) : Region :=
  { labRegion with cgrp := 1, cgsz := 2, peerix := 0, grpActive := true, aborting := aborting, abTokens := tokens, abnd := abnd }

/-- The lab's region served by the SVC, and the lab with a record of it. -/
def svcRegion : Region := { labRegion with fhnd := 0 }
def labSvc (q : Rec) : State := labRegions [svcRegion] [q] 100

/-- A record of one fault, written or dispatched to the SVC. -/
def labFault (code info : Nat) (st : RecState) : Rec := { labWaiting st (some 0) with lanes := [⟨2, code, info, false⟩] }

/-- The lab's region in an address space of its own whose first 16 GiB are one copy-on-write leaf, with a COW record that the SVC has dispatched. -/
def labCow : State :=
  { withBytes (labSvc (labFault fcCowWrite 0x12345 (.served 0))) 0x40000 [0x53] with regions := [{ svcRegion with ptroot := some 0x40000 }] }

/-- A copy of 64 KiB that the SVC is making of the lab's physical space: at its start, and at its end. -/
def labCopying (done : Nat) : Cow := ⟨1, 0, 0x20000, 65536, 0x90000, done, 0, 0, 1⟩

/-- The service reads the next bytes of a page in this module's memory. -/
theorem cowReads (s : State) (x : Cow) (r : Region) (hx : x.va / x.size * x.size + x.done = 0x20000) (hr : s.region? x.rid = some r) (hi : s.injected x.rid = false)
    (hp : r.ptroot = none) (hu : s.poison = []) (n : Nat) (hn : n ≤ 4096) : ∃ a bs, s.cowRead x n = (a, .ok bs) := by
  obtain ⟨ls, h, hd⟩ := reach s x.rid r false hr hi hp n hn
  have hz : ∀ q ∈ ((List.range n).map (fun i => (0x20000 + i) % 2 ^ 56)).zip ls, ∃ a, q.2 = Loc.dev a .rc := fun q hq => hd _ (List.of_mem_zip hq).2
  have hue : s.ueAt (((List.range n).map (fun i => (0x20000 + i) % 2 ^ 56)).zip ls) = none := by
    unfold State.ueAt
    rw [List.filter_eq_nil_iff.2]
    · rfl
    · intro q hq
      obtain ⟨a, ha⟩ := hz q hq
      simp [State.isPoison, ha, hu]
  have haway : (((List.range n).map (fun i => (0x20000 + i) % 2 ^ 56)).zip ls).any (fun y => y.2.away) = false := by
    rw [List.any_eq_false]
    intro q hq
    obtain ⟨a, ha⟩ := hz q hq
    simp [Loc.away, ha]
  refine ⟨s, s.readLocs ((((List.range n).map (fun i => (0x20000 + i) % 2 ^ 56)).zip ls).map (fun y => y.2)), ?_⟩
  unfold State.cowRead State.bytesOfVa
  simp only [hx, h, hue, haway, Option.isSome_none, Bool.false_eq_true, if_false]

theorem wit_faultServiceEvents :
    (let s := labRegions [labRegion] [labWaiting .waiting none] 100
     s.region? 1 = some labRegion ∧ findIdx (fun (q : Rec) => q.rid = 1 && decide (q.st = .waiting)) s.recs = some (0, labWaiting .waiting none) ∧
       s.freeHandle 1 = some 0 ∧ s.occupied 1 < labRegion.fqn ∧
       (let svc : State := { s with ord := { s.ord with agent := none } }
        okAnd (svc.translateRange 1 (labRegion.fq + 32 * (labRegion.fqW % labRegion.fqn)) true 32) (fun ls => (svc.poisonAt ls).isNone) = true)) ∧
    (let s := { labRegions [labRegion] [labWaiting .written (some 0)] 100 with grant := 0 }
     s.nextRec labRegion = some (0, labWaiting .written (some 0)) ∧ labRegion.fhnd ≠ 0 ∧ s.recCluster (labWaiting .written (some 0)) = 0 ∧
       (s.startFault labRegion 0 (labWaiting .written (some 0)) 0 1).isSome = true) ∧
    (∀ q ∈ [labFault fcDeadlock 0 .written, { labRec (some labObj) with lanes := [], code := fcDeadlock, st := .written }, labFault fcWatch 0 .written],
      svcRegion.fhnd = 0 ∧ (labSvc q).svc.cows = [] ∧ (labSvc q).recs.find? (fun q => q.rid = 1 && decide (q.st = .served 0)) = none ∧
        (labSvc q).nextRec svcRegion = some (0, q) ∧ q.faults.find? (fun f => !svcServes f.1) = none) ∧
    ((labSvc (labFault fcTrapInsn 0 .written)).nextRec svcRegion = some (0, labFault fcTrapInsn 0 .written) ∧
      (labFault fcTrapInsn 0 .written).faults.find? (fun f => !svcServes f.1) = some (fcTrapInsn, 0)) ∧
    (let q := labFault fcWatch 0 (.served 0)
     (labSvc q).recs.find? (fun q => q.rid = 1 && decide (q.st = .served 0)) = some q ∧ q.faults.any (fun f => f.1 = fcDeadlock || f.1 = fcAbort) = false ∧
       (labSvc q).nextCow 1 q = none ∧ q.faults.any (fun f => f.1 = fcWatch) = true) ∧
    (let q := labFault fcCowWrite 0x12345 (.served 0)
     labCow.recs.find? (fun q => q.rid = 1 && decide (q.st = .served 0)) = some q ∧ q.faults.any (fun f => f.1 = fcDeadlock || f.1 = fcAbort) = false ∧
       (labCow.nextCow 1 q).isSome = true) ∧
    (∀ done ∈ [0, 65536],
      let s := { labRegions [svcRegion] [] 100 with svc := { State.reset.svc with cows := [labCopying done] } }
      s.svc.cows.find? (fun x => x.rid = 1) = some (labCopying done) ∧ s.draining 1 = false) ∧
    (∃ a bs, ({ labRegions [svcRegion] [] 100 with svc := { State.reset.svc with cows := [labCopying 0] } } : State).cowRead (labCopying 0) 4096 = (a, .ok bs)) ∧
    (let r := { labRegion with tbud := 1, charge := 1700001 }
     r.tbud ≠ 0 ∧ 1700 * 1000 * r.tbud < r.charge ∧ (labRegions [r] [] 100).fatals.any (fun f => f.1 = 1) = false) ∧
    (let r := { stepRegion with stepArr := [(1, 15, 15)] }
     let w := (List.range 4).foldl (fun (w : Wave) l => w.updThread l (fun t => { t with st := .syncWait .step 0x1008 false })) (labWave 4 [] [])
     let far := { r with cgrp := 1, cgsz := 2, grpActive := true }
     ({ labIdle w with regions := [r] } : State).stepDone r = true ∧ r.aborting = false ∧ r.cgrp = 0 ∧
       ({ labIdle w with regions := [far] } : State).stepDone far = true ∧ far.stepPeers.contains (64 * far.stepno + far.peerix) = false ∧
       ({ far with stepPeers := [0, 1] } : Region).stepPeers.contains (64 * far.stepno + far.peerix) = true ∧ far.cgsz ≤ ({ far with stepPeers := [0, 1] } : Region).stepHere) ∧
    (let s := { labRegions [labRegion] [] 100 with fatals := [(1, 0x0F)] }
     s.fatals.contains (1, 0x0F) = true ∧ (∃ d, s.region? (s.domainOf 8 1) = some d ∧ d.cgrp = 0)) ∧
    (let s := { labRegions [labGroup [] false 0] [] 100 with fatals := [(1, 0x0F)] }
     s.fatals.contains (1, 0x0F) = true ∧ (∃ d, s.region? (s.domainOf 8 1) = some d ∧ d.cgrp ≠ 0 ∧ d.aborting = false ∧ d.abWave = none)) ∧
    (let r := labGroup [] false 0
     r.grpActive = true ∧ 1 < r.cgsz ∧ 1 ≠ r.peerix ∧ r.abTokens.any (fun t => t.1 = 1) = false) ∧
    (let r := labGroup [(0, 3, none), (1, 2, some 0x0F)] true 0
     r.agrees = true ∧ r.abnd = 0) ∧
    (let r := labGroup [(0, 3, none), (1, 2, some 0x0F)] true 0x5100
     r.agrees = true ∧ r.abnd ≠ 0 ∧
       (({ labRegions [r] [] 100 with grant := 0 } : State).startAbnd r r.agreed (originator r.abTokens).1 (originator r.abTokens).2).isSome = true) ∧
    (let r := labGroup [(0, 3, none)] true 0
     r.aborting = true ∧ r.grpActive = true ∧ 1 < r.cgsz ∧ r.abClk + tenMs ≤ (labRegions [r] [] 17000000).clk ∧ r.abTokens.any (fun t => t.1 = 1) = false) := by
  refine ⟨?_, ?_, ?_, ?_, ?_, ?_, ?_, cowReads _ _ svcRegion (by decide +kernel) (by decide +kernel) (by decide +kernel) rfl rfl 4096 (Nat.le_refl _), ?_, ?_, ⟨?_, labRegion, ?_⟩,
    ⟨?_, labGroup [] false 0, ?_⟩, ?_, ?_, ?_, ?_⟩ <;> decide +kernel

/-- A launch of the lab's region. -/
def labLaunch : Launch :=
  { (default : Launch) with lid := 7, rid := 1, entry := 0x1000, grid := (4, 1, 1), waves := 1, gang := 1, V := 8, S := 16, nbar := 1, aged := true }

/-- The lab without features or waves, with launches and gangs. -/
def labWd (ls : List Launch) (gs : List Gang) (sh : List Shadow) : State :=
  { labIdle (labWave 4 [] []) with
    grant := 0, waves := [], wd := { State.reset.wd with launches := ls, gangs := gs, shadows := sh } }

/-- The shadow bank of core 0 of cluster 0. -/
def labShadow (st : ShSt) : Shadow := ⟨0, 0, st, false, [], [], []⟩

/-- Every core is full: a gang with all named barriers on each. -/
def fullGangs : List Gang :=
  (List.range 192).map (fun k => { (default : Gang) with gid := k + 1, lid := 1, rid := 1, cl := k / 4, core := k % 4, n := 1, nbar := 48 })

/-- A request for a workgroup of the lab's launch. -/
def labWgReq : WgReq := ⟨1, 0, 3, 7, 2, 0, 0, 0⟩

theorem wit_distributorEvents :
    (let s := labWd [labLaunch] [] []
     s.wd.launches.find? (fun l => l.lid = 7) = some labLaunch ∧ s.placeable labLaunch = true ∧
       (s.ahead labLaunch).any (fun a => s.placeable a && (List.range 4).any (fun k => (s.fits a 5 k .active).isSome)) = false ∧
       (s.fits labLaunch 5 2 .active).isSome = true) ∧
    (([labWgReq].drop 0) = [labWgReq] ∧ (([labWgReq].take 0).any (fun p => p.lid = labWgReq.lid)) = false) ∧
    (let s := { labWd [labLaunch] fullGangs [] with regions := [{ labRegion with cores := 192 }] }
     let cs := s.coreSet 5 [0, 1] (tiedCores 2 labLaunch.gang labLaunch.cshr)
     s.placeable labLaunch = true ∧ (List.range 48).any (fun j => (List.range 4).any (fun k => (s.fits labLaunch j k .active).isSome)) = false ∧
       s.mayPreempt labLaunch 5 cs = true ∧ cs.any (fun c => (s.shadow? 5 c).isSome) = false ∧ (s.fits labLaunch 5 2 .shadow).isSome = true) ∧
    (let r := { labRegion with tslice := 1 }
     let s := { labWd [labLaunch] [{ labGang with al3 := (0, 0) }] [labShadow .ready] with regions := [r], clk := 1700 }
     let cs := s.swapSet 0 0
     s.packets = [] ∧ cs.any (s.shadowIs .ready 0) = true ∧ cs.all (fun c => ((s.shadow? 0 c).isNone || s.shadowIs .ready 0 c) && !s.coreStopped 0 c) = true ∧
       s.region? 1 = some r ∧ r.tslice ≠ 0 ∧ Sparse.get 0 s.wd.sliceAt 1 + 1700 * r.tslice ≤ s.clk ∧
       s.wd.gangs.any (fun g => g.rid = 1 && g.cl = 0 && g.bank = 0 && g.cores.contains 0) = true) ∧
    (let s := labWd [] [] [labShadow .ready]
     let cs := s.swapSet 0 0
     s.packets = [] ∧ cs.any (s.shadowIs .ready 0) = true ∧ cs.all (fun c => ((s.shadow? 0 c).isNone || s.shadowIs .ready 0 c) && !s.coreStopped 0 c) = true ∧
       s.swapDue 0 cs = true) ∧
    (∀ st ∈ [ShSt.filling, .spilling, .dirty],
      let s := labWd [] [] [labShadow st]
      let cs := (s.coreSet 0 [1] [0]).filter (fun c => (s.shadow? 0 c).isSome)
      cs ≠ [] ∧ cs.all (s.shadowIs st 0) = true) ∧
    (let s := labWd [] [] []
     let s := { s with wd := { s.wd with saved := [⟨3, 0, 0, 1, [], [], [], false⟩] } }
     let xs := s.savedSet 0 0
     (s.coreSet 0 [1] [0]).filter (fun c => (s.shadow? 0 c).isSome) = [] ∧ xs ≠ [] ∧ (sortedSet (xs.map (fun x => x.core))).all (fun c => (s.shadow? 0 c).isNone) = true ∧
       (s.moveTo (xs.flatMap (fun x => x.gids)) (xs.flatMap (fun x => x.uids)) .shadow).bankFits 0 .shadow = true) ∧
    (let s := labWd [] [labGang] []
     s.wd.gangs.find? (fun g => g.gid = 1) = some labGang ∧ (s.waves.filter (fun w => w.gid = 1)).all (fun w => w.over) = true ∧
       s.cts.tasks.any (fun t => t.gid = 1 && t.st = .running) = false ∧ s.working (s.gangUids 1) = false) ∧
    (let r := { labRegion with retiring := true }
     let s := { labWd [] [] [] with regions := [r] }
     s.region? 1 = some r ∧ s.wd.launches.any (fun l => l.rid = 1) = false ∧ s.regions.any (fun c => c.parent = 1 && c.rid ≠ 1) = false ∧
       s.waves.any (fun w => w.rid = 1) = false) := by
  refine ⟨?_, ?_, ?_, ?_, ?_, ?_, ?_, ?_, ?_⟩ <;> decide +kernel

/-! ## Witnesses: events of the networks, tasks and units -/

/-- A multicast request of the lab's region for 128 bytes, and an entry that it could join. -/
def labMReq : MReq :=
  { (default : MReq) with id := 5, uid := 1, tok := 3, rid := 1, va := 0x10000, loc := .dev 0x10000 .rc, size := 128, dests := [(0, 2)] }
def labEntry (slice : Nat) (filled : Option Nat) : MEntry :=
  { (default : MEntry) with id := 4, slice := slice, va := 0x10000, loc := .dev 0x10000 .rc, size := 128, filled := filled }

/-- The lab between slots with multicast requests and entries. -/
def labMcast (qs : List MReq) (es : List MEntry) : State := { labIdle (labWave 4 [] []) with flight := ⟨[], [], qs, es⟩ }

/-- Where no request waits, only the entries whose window has passed leave. -/
theorem closeEntries_lone (s : State) (q : MReq) (n : Nat) (h : s.flight.mreqs = [q]) (hw : q.waits = false) :
    (s.closeEntries n).flight.ments = s.flight.ments.filter (fun e => decide (e.slice ≠ n) || s.isOpen e) ∧ (s.closeEntries n).flight.mreqs = [q] := by
  simp only [State.closeEntries, State.updFlight, h, List.filter_cons, hw, Bool.false_and, Bool.false_eq_true, if_false, List.filter_nil, List.foldl_nil, and_self]

/-- A request in a slice with an open entry of its group joins it. -/
theorem wit_multicastJoins :
    let s := labMcast [labMReq] [labEntry labMReq.slice none]
    s.flight.mreqs.find? (fun q => q.id = 5 && q.entry.isNone && !q.waits) = some labMReq ∧
      (s.closeEntries labMReq.slice).flight.ments.find? labMReq.joins = some (labEntry labMReq.slice none) := by
  refine ⟨by decide +kernel, ?_⟩
  rw [(closeEntries_lone _ labMReq _ rfl rfl).1]
  have h : labMReq.joins (labEntry labMReq.slice none) = true := by
    simp only [MReq.joins, labEntry, decide_true, Bool.true_and]
    decide +kernel
  simp only [labMcast, List.filter_cons, State.isOpen, labEntry, Bool.or_true, if_true, List.filter_nil]
  exact List.find?_cons_of_pos h

/-- A message of the lab's region at a stage, for cluster 0 of this module. -/
def labMsg (st : AmStage) : AMsg := { (default : AMsg) with id := 4, uid := 1, lane := 0, tok := 3, rid := 1, cl := 0, core := 0, target := 0, stage := st }

/-- The lab between slots with messages, ungranted. -/
def labMsgs (w : Wave) (ms : List AMsg) : State := { labIdle w with grant := 0, cts := { State.reset.cts with msgs := ms } }

/-- A copy of 32 bytes on its way to cbuf 2. -/
def labCopy : MCopy := { (default : MCopy) with id := 4, uid := 1, tok := 3, rid := 1, cl := 0, cb := 2, bytes := List.replicate 32 7 }

/-- A bus transfer of cluster 0 to cluster 1 over row bus 0. -/
def labXfer (sent : Nat) : Xfer :=
  { (default : Xfer) with
    id := 4, bus := 0, cl := 0, rid := 1, cb := 2, total := 32, data := List.replicate 32 7, pads := List.replicate 16 false,
    sent := sent, dsts := [(1, .claimed 0)] }

/-- A packet of peer 1's connection for partition 0, the first of it. -/
def labPkt : Pkt := ⟨7, true⟩

theorem wit_networkEvents :
    (let s := labMcast [labMReq] []
     s.flight.mreqs.find? (fun q => q.id = 5 && q.entry.isNone && !q.waits) = some labMReq ∧ (s.closeEntries labMReq.slice).flight.ments.find? labMReq.joins = none ∧
       (s.closeEntries labMReq.slice).entryFree labMReq.slice = true ∧ (s.closeEntries labMReq.slice).flight.mreqs.any (fun x => x.waits && x.slice = labMReq.slice) = false) ∧
    (let s := labMcast [] [labEntry 6 none]
     s.flight.ments.find? (fun e => e.id = 4 && e.slice = 6 && e.filled.isNone) = some (labEntry 6 none) ∧
       (let a := s.asOp (.mread 4) .port (labEntry 6 none).view
        a.ueAt (labEntry 6 none).locs = none ∧ a.absent (labEntry 6 none).locs = none)) ∧
    (let s := { labMcast [] [labEntry 6 none] with poison := [.dev 0x10000 .rc] }
     s.flight.ments.find? (fun e => e.id = 4 && e.slice = 6 && e.filled.isNone) = some (labEntry 6 none) ∧
       (s.asOp (.mread 4) .port (labEntry 6 none).view).ueAt (labEntry 6 none).locs = some 0x10000) ∧
    (let s := labMcast [] [labEntry 6 (some 0)]
     s.flight.ments.find? (fun e => e.id = 4) = some (labEntry 6 (some 0)) ∧ s.isOpen (labEntry 6 (some 0)) = false) ∧
    (let s := { labIdle (labWave 4 [] []) with cts := { State.reset.cts with copies := [labCopy] } }
     s.cts.copies.find? (fun c => c.id = 4) = some labCopy ∧ s.drops 1 0 2 = true) ∧
    (let s := { labEng (labWave 4 [] []) [labCbuf true true] [] with cts := { State.reset.cts with copies := [labCopy], cbufs := [labCbuf true true] } }
     s.cts.copies.find? (fun c => c.id = 4) = some labCopy ∧ s.drops 1 0 2 = false ∧ s.grantable 0 2 true 0 32 = true) ∧
    (let s := { labIdle (labWave 4 [] []) with cts := { State.reset.cts with xfers := [labXfer 0] } }
     ((s.dropDsts 0).busNext 0).isSome = true) ∧
    (let s := { labIdle (labWave 4 [] []) with cts := { State.reset.cts with xfers := [labXfer 32] } }
     s.cts.xfers.find? (fun x => x.bus = 0 && x.id = 4 && x.sent = x.total) = some (labXfer 32)) ∧
    (labIdle (labWave 4 [] [])).svc.drains.any (fun d => d.1 = 7) = false ∧
    (let s := { labIdle (labWave 4 [] []) with svc := { State.reset.svc with drains := [(7, 0)] }, clk := 4096 }
     s.svc.drains.find? (fun d => d.1 = 7) = some (7, 0) ∧ 0 + 4096 ≤ s.clk) ∧
    (let s := labMsgs (waveSt (.admission .message false)) [labMsg .thread]
     s.atCore 0 0 .thread = [labMsg .thread] ∧ (s.atCore 0 0 .core).length < 16 ∧ (s.thread 1 0).st = .admission .message false) ∧
    (let s := labMsgs (labWave 4 [] []) [labMsg .core]
     s.cts.msgs.find? (fun m => m.id = 4) = some (labMsg .core) ∧
       (s.atCore 0 0 .core).head? = some (labMsg .core) ∧ s.draining 1 = false ∧ (s.inRelay (labMsg .core).relay (s.classOf 1)).length < 8) ∧
    (let s := labMsgs (labWave 4 [] []) [labMsg .relay]
     s.cts.msgs.find? (fun m => m.id = 4) = some (labMsg .relay) ∧ (labMsg .relay).away = false ∧ bitAt (labMsg .relay).target 6 = false ∧
       (s.inRelay (labMsg .relay).relay (s.classOf 1)).head? = some (labMsg .relay) ∧ (s.inQueue 0 (s.classOf 1)).length < 8) ∧
    (let s := withBytes (labMsgs (labWave 4 [] []) [labMsg .queue]) 0x5800 (leBytes 8 (0x8000000000007000 + 2 ^ 62))
     ((List.range 9).findSome? (fun cls => (s.inQueue 0 cls).head?.bind (fun m => s.startAm m 0 1))).isSome = true) ∧
    (let s := { labMsgs (labWave 4 [] []) [] with regions := [labGroup [] false 0] }
     s.awaits (.peer 1 0) labPkt ∧ (s.heard (.peer 1 0) labPkt).groupOpen 1 = true ∧ s.relayFull (.amsg 1 0 0 [] 0 1 0 []) = false) := by
  refine ⟨?_, ?_, ?_, ?_, ?_, ?_, ?_, ?_, ?_, ?_, ?_, ?_, ?_, ?_, ?_⟩
  · obtain ⟨h, h'⟩ := closeEntries_lone (labMcast [labMReq] []) labMReq labMReq.slice rfl rfl
    exact ⟨by decide +kernel, by rw [h]; rfl, by unfold State.entryFree; rw [h]; rfl, by rw [h']; rfl⟩
  · decide +kernel
  · decide +kernel
  · decide +kernel
  · decide +kernel
  · decide +kernel
  · decide +kernel
  · decide +kernel
  · decide +kernel
  · decide +kernel
  · decide +kernel
  · decide +kernel
  · decide +kernel
  · decide +kernel
  · exact ⟨by unfold State.awaits; decide +kernel, by decide +kernel, by decide +kernel⟩

/-- A message of a peer, and one for a peer, at the relay of the port block. -/
theorem wit_peerMessages :
    (let m := { labMsg .relay with away := true }
     let s := labMsgs (labWave 4 [] []) [m]
     s.cts.msgs.find? (fun m => m.id = 4) = some m ∧ (s.inRelay m.relay (s.classOf 1)).head? = some m ∧
       (s.inQueue (bitsAt m.target 0 6) (s.classOf 1)).length < 8) ∧
    (let m := { labMsg .relay with target := 2 ^ 6 + 2 ^ 8 }
     let s := { labMsgs (labWave 4 [] []) [m] with regions := [labGroup [] false 0] }
     s.cts.msgs.find? (fun m => m.id = 4) = some m ∧ (s.inRelay m.relay (s.classOf 1)).head? = some m ∧ bitAt m.target 6 = true ∧ m.away = false ∧
       s.region? 1 = some (labGroup [] false 0) ∧ (labGroup [] false 0).grpActive = true) := by
  refine ⟨⟨by decide +kernel, ?_, by decide +kernel⟩, by decide +kernel, ?_, by decide +kernel, rfl, by decide +kernel, rfl⟩ <;>
  · simp only [State.inRelay, labMsgs]
    rw [List.filter_cons_of_pos (by simp only [decide_true, Bool.and_true]; decide +kernel)]
    rfl

/-- A SEND of the host whose handler can start on core 0 of cluster 0. -/
theorem wit_sendStarts :
    let s := { labMsgs (labWave 4 [] []) [] with
      regions := [{ labRegion with rid := 0 }, labRegion], link := { State.reset.link with reqs := [⟨0, 4, 7, [], []⟩] } }
    (List.range 9).findSome? (fun cls => (s.inQueue 0 cls).head?.bind (fun m => s.startAm m 0 0)) = none ∧
      ((List.range s.link.reqs.length).findSome? (fun k => s.link.reqs[k]?.bind (s.startRoot k))).isSome = true := by
  decide +kernel

/-- The lab with a task in slot 5. -/
def labTasks (t : Task) : State := labEng (labWave 4 [] []) [labCbuf true true] [t]

theorem wit_taskEvents :
    (let t := labTask .ready 0 0
     (labTasks t).task? 0 5 = some t ∧ (labTasks t).canFire t = true ∧ ((labTasks t).unitsFor t).contains 0 = true) ∧
    (let t := { labTask .running 0 0 with fin := some 0 }
     (labTasks t).task? 0 5 = some t ∧ t.fin = some 0 ∧ t.st = .running ∧ t.rmt = none ∧ (labTasks t).xferBusy t = false ∧
       ((Sparse.get (0, 0) (labTasks t).cts.doneAt 0).1 = (labTasks t).clk → (Sparse.get (0, 0) (labTasks t).cts.doneAt 0).2 ≤ 5)) ∧
    (∀ k ∈ [1, 2, 0x0B, 3, 4, 5, 6, 0x0A, 7, 8, 9],
      let t := { labTask .running 0 0 with kind := k }
      (labTasks t).task? 0 5 = some t ∧ t.st = .running ∧ t.fin = none ∧ t.fault = none ∧ t.susp = false ∧ t.rmt = none) ∧
    (let t := labTask .running 0 0
     let r := { labRay with fault := some (fcMemUe, 0x20000) }
     let s := { labTasks t with rtu := ⟨[r], []⟩ }
     s.task? 0 5 = some t ∧ s.rtu.rays.find? (fun r => r.cl = 0 && r.id = 10 && !r.susp) = some r ∧ fcMemUe < fcMiss) ∧
    (let t := { labTask .running 0 0 with kind := 3, fault := some (fcMemUe, 0x20000) }
     (labTasks t).task? 0 5 = some t ∧ t.susp = false ∧ (labTasks t).mxeHolds 0 t.unit = false) := by
  refine ⟨?_, ?_, ?_, ?_, ?_⟩ <;> decide +kernel

/-- A call of the lab's wave, a bin and a tile of it. -/
def labCall : ACall := { (default : ACall) with uid := 1, lane := 0, tok := 5, rid := 1, key := 0xA000, record := 0x4000, first := 8, nout := 1, ins := [0] }
def labBin (trig : Bool) : Bin := { (default : Bin) with n := 2, rid := 1, key := 0xA000, record := 0x4000, trig := trig, calls := [labCall] }
def labTile : Tile := { (default : Tile) with id := 3, rid := 1, key := 0xA000, record := 0x4000, calls := [labCall], rows := [⟨[0], 0⟩] }

/-- The lab between slots with a unit. -/
def labAsu (a : Asu) : State := { labIdle (labWave 4 [] []) with asu := a }

/-- A beam whose tile is at pixel `n`. -/
def labBeam (n written entries : Nat) : Beam :=
  { (default : Beam) with
    id := 4, rid := 1, uid := 1, unit := some 3, next := n, written := written, entries := (List.range entries).map (fun i => (i, 0)) }

theorem wit_unitEvents :
    (let s := labAsu { State.reset.asu with waiting := [(0, labCall)] }
     findIdx (fun (x : Nat × ACall) => x.1 = 0) s.asu.waiting = some (0, (0, labCall)) ∧
       s.asu.bins.find? (fun b => b.cl = 0 && b.rid = 1 && b.key = 0xA000 && !b.trig && b.calls.length < 64) = none ∧
       (s.asu.bins.filter (fun b => b.cl = 0)).length < 16) ∧
    (let s := labAsu { State.reset.asu with waiting := [(0, labCall)], bins := (List.range 16).map (fun k => { labBin true with n := k, seq := k }) }
     s.asu.bins.find? (fun b => b.cl = 0 && b.rid = 1 && b.key = 0xA000 && !b.trig && b.calls.length < 64) = none ∧
       16 ≤ (s.asu.bins.filter (fun b => b.cl = 0)).length ∧ (oldestBin (s.asu.bins.filter (fun b => b.cl = 0))).isSome = true ∧ s.tileRoom 0 = true ∧
       (s.updAsu (fun a => { a with tiles := List.replicate 8 labTile })).tileRoom 0 = false) ∧
    (let s := labAsu { State.reset.asu with waiting := [(0, labCall)], bins := [labBin false] }
     s.asu.bins.find? (fun b => b.cl = 0 && b.rid = 1 && b.key = 0xA000 && !b.trig && b.calls.length < 64) = some (labBin false)) ∧
    (let s : State := { labAsu { State.reset.asu with bins := [labBin false] } with clk := 70000 }
     labBin false ∈ s.asu.bins ∧ (labBin false).cl = 0 ∧ (labBin false).n = 2 ∧ (labBin false).opened + bitsAt (s.csr (clReg 0 7)) 0 16 ≤ s.clk) ∧
    (∀ susp ∈ [false, true],
      let t := { labTile with unit := some 1, susp := susp }
      let s := labAsu { State.reset.asu with tiles := [t] }
      (s.asu.tiles.filter (fun t => t.cl = 0)).find? (fun t => t.unit = some 1 && !t.ready && t.fault.isNone && t.susp == susp) = some t ∧ s.engineFree 0 1 1 = susp) ∧
    (let s := labAsu { State.reset.asu with bins := [labBin true] }
     oldestBin (s.asu.bins.filter (fun b => b.cl = 0 && b.trig)) = some (labBin true) ∧ s.tileRoom 0 = true) ∧
    (let s := labAsu { State.reset.asu with tiles := [labTile] }
     (s.asu.tiles.filter (fun t => t.cl = 0)).find? (fun t => t.unit = some 1 && !t.ready && t.fault.isNone) = none ∧
       (s.asu.tiles.filter (fun t => t.cl = 0)).find? (fun t => t.unit.isNone) = some labTile ∧ s.engineFree 0 1 1 = true ∧ s.ordinaryReady 0 1 = false) ∧
    (let t := { labTile with unit := some 1, ready := true }
     let s := labAsu { State.reset.asu with tiles := [t] }
     s.asu.tiles.find? (fun t => t.cl = 0 && t.id = 3 && t.ready) = some t ∧ t.calls.drop t.done = [labCall] ∧ t.rows.drop t.done = [⟨[0], 0⟩]) ∧
    (let t := { labTile with fault := some (fcMemUe, 0x20000) }
     (labAsu { State.reset.asu with tiles := [t] }).asu.tiles.find? (fun t => t.cl = 0 && t.id = 3) = some t ∧ t.fault = some (fcMemUe, 0x20000) ∧ t.susp = false) ∧
    (let r := { labRay with st := .noPlace }
     let s := { labIdle (waveSt (.admission .ray false)) with rtu := ⟨[r], []⟩ }
     s.rtu.rays.find? (fun r => r.cl = 0 && decide (r.st = .noPlace)) = some r ∧ s.rayPlaces 0 < 4096) ∧
    (∀ st ∈ [RaySt.traverse, .inWave 1, .finish 1 0 0, .finish 7 0 0],
      let r := { labRay with st := st }
      let s := { labIdle (labWave 4 [] []) with rtu := ⟨[r], []⟩ }
      s.rtu.rays.find? (fun r => r.cl = 0 && r.id = 10 && r.fault.isNone && !r.susp) = some r ∧ s.cbRuns 10 = false) ∧
    (let r := { labRay with st := .parked 0 0x7000 0 }
     let s := { labIdle (labWave 4 [] []) with grant := 0, rtu := ⟨[r], []⟩ }
     s.rtu.rays.find? (fun r => r.cl = 0 && r.id = 10) = some r ∧ r.parkedAt = some (0, 0x7000, 0) ∧ s.region? r.rid = some labRegion ∧
       s.coreOk labRegion 0 1 = true ∧ (callbackWave s labRegion 0 1 r 0x7000).isSome = true) ∧
    (let s := fun b => ({ labIdle (labWave 4 [] []) with rtu := ⟨[], [b]⟩ } : State)
     let found := fun (b : Beam) => (s b).rtu.beams.find? (fun b => b.cl = 0 && b.id = 4 && b.fault.isNone && !b.susp) = some b
     (found { labBeam 0 0 0 with unit := none } ∧ (s { labBeam 0 0 0 with unit := none }).freeBtu = some 0) ∧
     (found (labBeam 255 0 3) ∧ (labBeam 255 0 3).unit.isSome = true ∧ (labBeam 255 0 3).next < 256) ∧
     (found (labBeam 256 1 2) ∧ 256 ≤ (labBeam 256 1 2).next ∧ (labBeam 256 1 2).written < (labBeam 256 1 2).entries.length) ∧
     (found (labBeam 256 256 256) ∧ (labBeam 256 256 256).entries.length ≤ (labBeam 256 256 256).written ∧ (labBeam 256 256 256).entries.length = 256)) := by
  refine ⟨?_, ?_, ?_, ?_, ?_, ?_, ?_, ?_, ?_, ?_, ?_, ?_, ?_⟩ <;> decide +kernel

/-! ## Witnesses: events of the host link, debugging and service -/

/-- The first packet of a queue pair is the one that its connection awaits. -/
theorem wit_awaits : (lab [] []).awaits (.host 0) ⟨7, false⟩ ∧ (lab [] []).awaits (.host 4095) ⟨0xFFFFFF, true⟩ := by unfold State.awaits; decide +kernel

/-- The host's window is fixed by its connection (log 27): where it reaches the lab's region, an operation inside it does; one beyond it, or where there is none, does not. -/
theorem wit_rdma (h : Config.window 0 0 7 = some (1, 0x20000, 0x1000)) (h' : Config.window 0 0 8 = none) :
    let s := (lab (s4 0x20000) []).heard (.host 0) ⟨7, false⟩
    s.rdmaWindow 0 7 0x20000 4 = some 1 ∧ s.rdmaWindow 0 7 0x20FFE 4 = none ∧ s.rdmaWindow 0 8 0x20000 4 = none := by
  have h0 : ((lab (s4 0x20000) []).heard (.host 0) ⟨7, false⟩).tick = 0 := by decide +kernel
  refine ⟨?_, ?_, ?_⟩ <;> simp only [State.rdmaWindow, h0, h, h'] <;> decide

/-- A WRITE, a READ, one of each beyond the installed memory, and a SEND, as the next operations of their queue pair. -/
theorem wit_hops :
    (let s := fun (op : HostOp) => (({ lab (s4 0x20000) [] with link := { State.reset.link with hops := [(0, 3, op)] } } : State)).asQueue 0
     let w := HostOp.write 1 0x20000 [1, 2, 3, 4]
     let r := HostOp.read 1 0x20000 4
     (∀ op ∈ [w, r, .write 1 installed [1], .read 1 installed 4, .send ⟨0, 4, 7, [], []⟩], (s op).link.hops.find? (fun x => x.1 = 0) = some (0, 3, op)) ∧
     okAnd ((s w).translateRange 1 0x20000 true 4) (fun ls => ((s w).writeAll 1 (withVas 0x20000 ls) [1, 2, 3, 4]).2.isNone) = true ∧
     okAnd ((s r).translateRange 1 0x20000 false 4) (fun ls => ((s r).poisonAt ls).isNone && isOk ((s r).take (withVas 0x20000 ls) (some 5))) = true ∧
     errs ((s w).translateRange 1 installed true 1) = true ∧ errs ((s r).translateRange 1 installed false 4) = true) := by
  decide +kernel

/-- The lab with a root region's stand-in, the lab's own region and a running handler of the root's firmware with its scalars. -/
def labHost (hidx : Nat) (ss : List Nat) : State :=
  let s := withBytes (lab [] []) 0x20000 (leBytes 256 (2 ^ 128))
  { s with
    regions := [{ labRegion with rid := 0 }, labRegion]
    waves := s.waves ++ [{ labWave 1 ss [] with uid := 2, rid := 0, kind := .firmware hidx }] }

/-- The handler wave of that lab, and the lab once it has ended. -/
def labHandler (hidx : Nat) (ss : List Nat) : Wave := { labWave 1 ss [] with uid := 2, rid := 0, kind := .firmware hidx }
def labServed (hidx : Nat) (ss : List Nat) : State := { labHost hidx ss with waves := (labHost hidx ss).waves.filter (fun v => v.uid ≠ 2) }

theorem wit_hostLinkEvents :
    (sendBad (leBytes 16 (1 + 2 ^ 8 * 4 + 2 ^ 16 * 16 + 2 ^ 32 * 5) ++ List.replicate 64 0) = false ∧ sendBad (leBytes 16 2) = true) ∧
    ((labHost 0 []).firmware 0)[0]? = some (labHandler 0 []) ∧ (labServed 0 []).regions.any (fun g => g.rid ≠ 0) = true ∧
    (let s := { labHost 0 [] with regions := [{ labRegion with rid := 0 }] }
     (s.firmware 0)[0]? = some (labHandler 0 []) ∧ s.regions.any (fun g => g.rid ≠ 0) = false) ∧
    (let ss := [0x20000, 0, 0x30000, 0]
     ((labHost 1 ss).firmware 1)[0]? = some (labHandler 1 ss) ∧
       okAnd ((labServed 1 ss).readVa 0 ((labHandler 1 ss).addrAt 0) 256) (fun b => (labServed 1 ss).region? (bitsAt b 128 32) = some labRegion) = true ∧
       labRegion.retiring = false) ∧
    (let ss := [1, 0x20000, 0, 0x30000, 0, 0]
     ((labHost 2 ss).firmware 2)[0]? = some (labHandler 2 ss) ∧ (labHandler 2 ss).word 5 = 0 ∧
       (labServed 2 ss).region? ((labHandler 2 ss).word 0) = some labRegion) ∧
    (let ss := [1, 0x20000, 0]
     ((labHost 3 ss).firmware 3)[0]? = some (labHandler 3 ss) ∧ (labServed 3 ss).region? ((labHandler 3 ss).word 0) = some labRegion) ∧
    ((labHost 4 [0x20000]).firmware 4)[0]? = some (labHandler 4 [0x20000]) := by
  refine ⟨?_, ?_, ?_, ?_, ?_, ?_, ?_, ?_⟩ <;> decide +kernel

/-- The lab with its quadrant under debug control and stopped. -/
def labStopped : State := (labIdle (labWave 4 [] [])).setCsr (dqctl 0 0 0) (1 + 2 ^ 5)

/-- A hit of the lab's lane, and the lab with it and with the program `ISETP p0 = s4 == s4; EXIT` of watchpoint 0. -/
def labHit : Hit := { (default : Hit) with uid := 1, site := 0x1000, size := 4, data := [0, 0, 0, 0] }
def labWatch : State :=
  { withBytes ((labIdle (labWave 4 [] [])).setCsr (csrAddr 11 0 0 0x103) 0x1800) 0x1800
      (encode (.isetp (hdr 0xA 0 4 4 0 true .w64) ⟨.none, .eq, .i32⟩ 0) ++ encode (.exit (hdr 0 0 0 0 0 false .w64) ⟨0⟩ 0)) with
    flight := ⟨[], [labHit], [], []⟩ }

/-- The lab's quadrant with SMPEN, and with a sample whose tagged packet is done. -/
def labSample : Sample := { (default : Sample) with tag := some { (default : Tagged) with uid := 1 } }
def labSampled (xs : List Sample) : State :=
  { (labIdle (labWave 4 [] [])).setCsr (dqctl 0 0 0) (2 ^ 10) with svc := { State.reset.svc with samples := xs } }

/-- A target register of a debugger: register, class, lane, slot and quadrant. -/
def targetWord (reg cls lane slot q : Nat) : Nat := reg + 2 ^ 8 * cls + 2 ^ 11 * lane + 2 ^ 18 * slot + 2 ^ 22 * q

theorem wit_debugEvents :
    (labDebug.debugOn 0 0 0 = true ∧ labDebug.stopped 0 0 0 = false) ∧
    (labStopped.debugOn 0 0 0 = true ∧ labStopped.stopped 0 0 0 = true ∧ labStopped.svc.thermal = false ∧ labStopped.stepping.contains (0, 0, 0) = false) ∧
    bitAt (((lab [] []).setCsr (dqctl 0 0 0) 16).csr (dqctl 0 0 0)) 4 = true ∧
    (∀ cls ∈ [0, 1, 2, 3, 4, 5], labStopped.dbgWave 0 0 (dbgTarget (targetWord 5 cls 3 0 0)) = some (labWave 4 [] []) ∧
      (dbgTarget (targetWord 5 cls 3 0 0)).cls = cls ∧ (dbgTarget (targetWord 5 cls 3 0 0)).reg = 5 ∧ inMask (labWave 4 [] []).m0 3 = true) ∧
    (let t := labWatch.updFlight (fun f => { f with hits := setAt f.hits 0 { labHit with verdict := some true } })
     findIdx (fun (h : Hit) => h.verdict.isNone) labWatch.flight.hits = some (0, labHit) ∧ labWatch.watchVerdict labHit = (true, false) ∧
       (t.flight.hits.filter (fun x => x.grp = 0 && x.uid = 1 && x.lane = 0)).all (fun x => x.verdict = some false) = false) ∧
    (bitAt ((labSampled []).csr (dqctl 0 0 0)) 10 = true ∧ (1 : Nat) < 2 ^ (bitsAt ((labSampled []).csr (csrAddr 1 0 0 0x31)) 0 5 + 1) ∧
      (labSampled []).svc.samples.find? (fun x => x.of (0, 0, 0)) = none) ∧
    (let s := labSampled [labSample]
     bitAt (s.csr (dqctl 0 0 0)) 10 = true ∧ s.svc.samples.find? (fun x => x.of (0, 0, 0)) = some labSample ∧ labSample.tag = some { (default : Tagged) with uid := 1 } ∧
       s.underWay 1 0 = false ∧ (1 : Nat) < 2 ^ (bitsAt (s.csr (csrAddr 1 0 0 0x31)) 0 5 + 1)) ∧
    (csrShape (csrAddr 0 0 0 0)).isSome = true ∧
    (let a := csrAddr 7 0 3 0x93
     let s := labIdle (labWave 4 [] [])
     (csrShape a).isSome = true ∧ bitsAt a 19 4 = 7 ∧ bitsAt a 10 7 = 3 ∧ bitsAt a 0 10 = 0x80 + 0x13 ∧ (blkCauses 7).contains 0x13 = true ∧
       s.stalled 7 3 (bitsAt a 17 2) 0x13 = none ∧ s.holdsWork 7 3 (bitsAt a 17 2) = true ∧ s.shownCause 7 3 (bitsAt a 17 2) = none) := by
  refine ⟨?_, ?_, ?_, ?_, ?_, ?_, ?_, ?_, ?_⟩ <;> decide +kernel

/-- The lab between slots with what would start each spare action, and with every spare of a kind used. -/
def labWants (ws : List (Nat × Nat)) : State := let s := labIdle (labWave 4 [] []); { s with svc := { s.svc with wants := ws } }

theorem wit_serviceEvents :
    (let s := labWants [(0, 5 * 47 + 3), (1, 63), (2, 31)]
     bitAt (s.csr (svcAddr 0x11)) (8 * 1 + 6) = false ∧ s.wanted 1 63 = true ∧ bitAt (s.csr (svcAddr 0x12)) (8 * 1 + 6) = false ∧ s.wanted 2 31 = true ∧
       bitAt (s.csr (svcAddr 0x10)) 47 = false ∧ s.coreStopped 47 3 = false ∧ s.wanted 0 (5 * 47 + 3) = true ∧ bitAt (s.csr (svcAddr 0x13)) 8 = false) ∧
    (let s := (labWants [(0, 5 * 47 + 3), (1, 63), (2, 31)]).setSvcBit 0x10 47
     s.svc.wants.find? (fun x => x.1 = 0 && x.2 / 5 = 47) = some (0, 5 * 47 + 3) ∧ bitAt (s.csr (svcAddr 0x10)) 47 = true ∧
       (s.setCsr (svcAddr 0x11) 0x4040).bothUsed 0x11 = true ∧ (s.setCsr (svcAddr 0x11) 0x4040).wanted 1 63 = true ∧
       (s.setCsr (svcAddr 0x12) 0x4040).bothUsed 0x12 = true ∧ (s.setCsr (svcAddr 0x12) 0x4040).wanted 2 31 = true ∧
       bitAt ((s.setSvcBit 0x13 8).csr (svcAddr 0x13)) 8 = true) ∧
    (bankOk 2 33 = true ∧ (errorSector 2 33 6 0x40000).isSome = true) ∧
    (bankOk 0 47 = true ∧ 4 < monitors 0 47 ∧ (lab [] []).svc.trend = []) := by decide +kernel

/-! ## Witnesses: the values that the rules give, and the whole machine -/

/-- A guard that is false in every lane: p0 with PN 0 is clear. -/
theorem wit_guardFalse :
    let i := Instr.iadd ⟨0, 0, 3, 4, 5, false, 0, false, false, .w64⟩ ⟨0, 0, false, .i32⟩ 0
    encOf i = some (encD i) ∧ guarded (encD i) (labWave 4 [] []) [0, 2] = [] ∧ (encD i).check5 64 192 = true ∧
      (encD (.iadd ⟨0, 0, 64, 4, 5, false, 0, false, false, .w64⟩ ⟨0, 0, false, .i32⟩ 0)).check5 64 192 = false := by decide +kernel

/-- A wave without privilege meets a privileged instruction. -/
theorem wit_privileged :
    let i := Instr.csrrd (hdr 0xA 8 4 0 0 true .w64) ⟨0, .i32⟩ 0
    encOf i = some (encD i) ∧ privileged i = true ∧ (encD i).check5 64 192 = true ∧ (encD i).priv = true ∧
      ({ labWave 4 [] [] with priv := false } : Wave).priv = false := by decide +kernel

/-- The operands of DivisionByZero and its corner occur. -/
theorem wit_division :
    ([Ty.i32, .n32, .i64, .n64].map (fun ty => ready (.idiv (hdr 0 8 4 6 0 false .w64) ⟨0, 0, false, ty⟩ 0) (lab [] []) (labWave 4 [] []) [0] 0x1000)) =
      List.replicate 4 true := by decide +kernel

/-- A lane parks; a record of two lanes; a free handle (FaultsPark). -/
theorem wit_faultsPark :
    (lab [] []).wave? 1 = some (labWave 4 [] []) ∧
    (let r : Rec := { labRec none with lanes := [⟨0, 0x11, 5, false⟩, ⟨2, 0x12, 6, false⟩] }
     r.eng = none ∧ r.lanes.length = 2 ∧ (511 : Nat) < 512 ∧ r.site.toNat % 4 = 0) ∧
    (labRegions [labRegion] [labRec none] 100).freeHandle 1 = some 1 := by decide +kernel

/-- The lab with the bytes of `TRAP 7` at its packet's pc. -/
def labFetch (pc : VA) (bs : List Byte) : State :=
  { withBytes (lab [] []) 0x1000 bs with packets := [⟨0, 0, 0, pc, [(1, [0])]⟩] }

/-- A fetch that decodes, fails a check, crosses its block, cannot fill its block, is misaligned (StepRunsDecoded). -/
theorem wit_stepRunsDecoded :
    let w := labWave 4 [] []
    let s := labFetch 0x1000 (leBytes 8 0x0007_0000_0000_7690)
    s.packets = [⟨0, 0, 0, 0x1000, [(1, [0])]⟩] ∧ s.wave? 1 = some w ∧
    (match s.blockOf w 0x1000 with | .ok bs => isOk (decodeBytes (bs.drop 0)) | .error _ => false) = true ∧
    (match (labFetch 0x1000 (leBytes 8 0x7FE0)).blockOf w 0x1000 with
      | .ok bs => (match decodeBytes (bs.drop 0) with | .error (.check 1) => true | _ => false) | .error _ => false) = true ∧
    (match s.blockOf w 0x101C with
      | .ok bs => (match decodeBytes (bs.drop 28) with | .error .crossing => true | _ => false) | .error _ => false) = true ∧
    isOk (({ s with regions := [{ labRegion with ptroot := some 0x40000 }] } : State).blockOf w 0x1000) = false ∧ (0x1002 : Nat) % 4 ≠ 0 := by
  decide +kernel

/-- A clean byte of device memory, and one in a sector with uncorrectable data (StoreReadsBack). -/
theorem wit_storeReadsBack :
    (lab [] []).ord.agent = none ∧ (lab [] []).isPoison (.dev 0x20000 .rc) = false ∧
      ({ lab [] [] with poison := [.dev 0x20000 .rc] } : State).isPoison (.dev 0x20000 .rc) = true ∧ (lab [] []).memOk = true ∧
      ¬ (Loc.dev 0x20001 .rc).at (.dev 0x20000 .rc) := by
  unfold Loc.at; decide +kernel

/-- A step that answers a next state (StepKeepsMemory). -/
theorem wit_stepKeepsMemory : (labFetch 0x1000 (leBytes 8 0x0007_0000_0000_7690)).memOk = true ∧
    ∃ t, step (labFetch 0x1000 (leBytes 8 0x0007_0000_0000_7690)) = .next t :=
  ⟨by decide +kernel, _, rfl⟩

/-- A well-formed instruction (DecodeOfEncode). -/
theorem wit_decodeOfEncode : wellFormed (.trap (hdr 0 0 0 0 0 false .w64) ⟨7⟩ 0) = true := by decide +kernel

/-! ## Single steps with the values that the spec's examples give -/

/-- The lab's wave of 32 lanes with the given registers: key 128 r + l, ascending. -/
def waveRegs (ss : List Nat) (xs : List (Nat × Nat)) : Wave :=
  { labWave 32 ss [] with v := xs.map (fun x => (x.1, BitVec.ofNat 32 x.2)) }

/-- What a packet of lanes leaves, once every result on its way has landed. -/
def after {α : Type} (i : Instr) (w : Wave) (ls : List Nat) (f : State → α) : Option α :=
  match exec i (labOf w ls) with | .next t => some (f t) | _ => none

/-- Register r of lanes 0 to n − 1. -/
def column (t : State) (r n : Nat) : List Nat := (List.range n).map (fun l => (t.finalReg 1 (.v r l)).toNat)

/-- R146, its example: BFX of bits 31:20 of 0x8123_4567, signed and unsigned. -/
theorem test_bfx :
    (after (.bfx (hdr 4 3 2 0 0 false .w96) ⟨0, 0, false, .i32⟩ 0xC14) (waveRegs [] [(256, 0x81234567)]) [0] (fun t => column t 3 1),
     after (.bfx (hdr 4 3 2 0 0 false .w96) ⟨0, 0, false, .n32⟩ 0xC14) (waveRegs [] [(256, 0x81234567)]) [0] (fun t => column t 3 1)) =
      (some [0xFFFFF812], some [0x812]) := by decide +kernel

/-- R142: IADD wraps; the predicate output p0 is set for a value that does not fit (R145). -/
theorem test_iadd_wraps :
    after (.iadd (hdr 0 6 4 5 0 false .w64) ⟨0, 0, false, .n32⟩ 0) (waveRegs [] [(512, 0xFFFFFFFF), (640, 2)]) [0] (fun t => column t 6 1) = some [1] := by
  decide +kernel

/-- R144: a division by zero gives all ones. -/
theorem test_idiv_zero :
    after (.idiv (hdr 0 6 4 5 0 false .w64) ⟨0, 0, false, .i32⟩ 0) (waveRegs [] [(512, 7)]) [0] (fun t => column t 6 1) = some [0xFFFFFFFF] := by
  decide +kernel

/-- R148: 1.5 × 2.0 + 0.25 is 3.25. -/
theorem test_ffma :
    after (.ffma (hdr 0 7 4 5 6 false .w64) ⟨0, .f32, false, false, false, false, false, .rn⟩ 0)
      (waveRegs [] [(512, 0x3FC00000), (640, 0x40000000), (768, 0x3E800000)]) [0] (fun t => column t 7 1) = some [0x40500000] := by decide +kernel

/-- R60, R148: 1 ÷ 0 is +∞, with DZ alone. -/
theorem test_fdiv_zero :
    after (.fdiv (hdr 0 7 4 5 0 false .w64) ⟨0, .f32, false, false, false, false, false, .rn⟩ 0) (waveRegs [] [(512, 0x3F800000)]) [0]
      (fun t => (column t 7 1, (t.pend.flatMap (fun p => p.flags)).map (fun f => f.2.toNat))) = some ([0x7F800000], [2]) := by decide +kernel

/-- R133, its example: one group at AW 0 and AW 1. -/
theorem test_dot_window :
    (let ps := [⟨0x3F80, 0x4980, false⟩] ++ List.replicate 29 ⟨0x3F80, 0x3F80, false⟩ ++ [⟨0x3F80, 0, false⟩, ⟨0x3FB0, 0x3E80, false⟩]
     ((dotGroup 0 0x3F000000 ps).bits, (dotGroup 0 0x3F000000 ps).fl, (dotGroup 1 0x3F000000 ps).bits, (dotGroup 1 0x3F000000 ps).fl)) =
      (0x498000EE, 32, 0x498000EF, 16) := by decide +kernel

/-- R127, its example: the first outputs from state 1. -/
theorem test_sr_step : (srStep 1, srStep (srStep 1)) = (0x00042021, 0x04080601) := by decide +kernel

/-- The a values of the example of R167, its guard p0 false in lane 3. -/
def waveScan : Wave :=
  let w := waveRegs [] (((List.range 8).map (fun l => 512 + l)).zip [3, 1, 4, 1, 5, 9, 2, 6])
  (List.range 8).foldl (fun (w : Wave) l => w.updThread l (fun t => t.setPred 0 (l ≠ 3))) w

/-- A header guarded by p0. -/
def hdrP0 (mx : BitVec 4) (d a b c : BitVec 8) : Hdr := ⟨mx, c, b, a, d, false, 0, false, false, .w64⟩

/-- R167, its example. -/
theorem test_scan_redux :
    [after (.scan (hdrP0 0 5 4 0 0) ⟨0, 0, .n32⟩ 0) waveScan (List.range 8) (fun t => column t 5 8),
     after (.scan (hdrP0 0 5 4 0 0) ⟨0, 8, .n32⟩ 0) waveScan (List.range 8) (fun t => column t 5 8),
     after (.redux (hdrP0 0 5 4 0 0) ⟨0, 0, .n32⟩ 0) waveScan (List.range 8) (fun t => column t 5 8)] =
      [some [3, 4, 8, 0, 13, 22, 24, 30], some [0, 3, 4, 0, 8, 13, 22, 24], some [30, 30, 30, 0, 30, 30, 30, 30]] := by decide +kernel

/-- R168, its example: lanes 0 and 16 exchange halves. -/
theorem test_xchgm :
    after (.xchgm (hdr 7 5 4 16 0 false .w96) ⟨0, 0, .b32⟩ 0xFFFF) (waveRegs [] [(512, 0xAAAA1111), (528, 0xBBBB2222)]) [0, 16]
      (fun t => ((t.finalReg 1 (.v 5 0)).toNat, (t.finalReg 1 (.v 5 16)).toNat)) = some (0x22221111, 0xBBBBAAAA) := by decide +kernel

/-- R68, its example: cluster-shared address 0x1130 lies in core 1, at 0x430 of its contribution. -/
theorem test_shared_address : sharedLoc 0 0x1130 = .loc (2 ^ 20 + 2 ^ 19 + 0x430) := by decide +kernel

/-- The lab's wave with an offset in v3. -/
def waveV3 (x : Nat) : Wave := waveRegs [] (if x = 0 then [] else [(384, x)])

/-- R199, its example: LD.b64 of g2 at v3 + 0x1C crosses a sector at v3 = 0 and reads at v3 = 4. -/
theorem test_ld_misaligned :
    (after (.ld (hdr 7 10 3 0 0x1C false .w64) ⟨false, .plain, 0, .b64, 2⟩ 0) (waveV3 0) [0] (fun t => t.recs.map (fun r => (r.code, r.info))),
     after (.ld (hdr 7 10 3 0 0x1C false .w64) ⟨false, .plain, 0, .b64, 2⟩ 0) (waveV3 4) [0] (fun t => t.recs.map (fun r => (r.code, r.info)))) =
      (some [(fcMisalign, 2 ^ 54 + 0x1C)], some []) := by decide +kernel

/-- R12, R203: a store of 4 bytes puts the low byte first. -/
theorem test_st_little_endian :
    after (.st (hdr 7 4 3 0 0 false .w64) ⟨false, .plain, 0, .b32, 0⟩ 0) (waveRegs [] [(512, 0x11223344)]) [0]
      (fun t => (readBytes t.mem 0x10000 4).map BitVec.toNat) = some [0x44, 0x33, 0x22, 0x11] := by decide +kernel

/-- R210, its example: FADD to 2^24 by lanes 0, 2 and 5, and to 0.5 by lanes 1 and 3, in ascending order. -/
theorem test_atom_fadd :
    (match exec (.atom (hdr 7 7 2 0 0 false .w96) ⟨false, .plain, 0, .b32, 0⟩ (2 * 2 ^ 27))
        (withBytes (labOf (waveRegs [] ([(256, 0), (257, 4), (258, 0), (259, 4), (260, 0x100), (261, 0)] ++
          [(896, 0x3F800000), (897, 0x3E800000), (898, 0x3F800000), (899, 0x3E800000), (900, 0), (901, 0x40000000)]))
          (List.range 6)) 0x10000 (leBytes 8 0x3F0000004B800000)) with
      | .next t => some (column t 7 6, t.physNat 0x10000 4, t.physNat 0x10004 4)
      | _ => none) =
      some ([0x4B800000, 0x3F000000, 0x4B800000, 0x3F400000, 0, 0x4B800000], 0x4B800001, 0x3F800000) := by decide +kernel

/-- R171, its example: a branch to 0x40 bytes before itself; CALL leaves the next address in ra. -/
theorem test_bra_call :
    (after (.bra (hdr 0 0 0 0 0 false .w96) ⟨0⟩ 0xFFFFFFC0) (labWave 4 [] []) [0] (fun t => (t.thread 1 0).pc.toNat),
     after (.call (hdr 0 0 0 0 0 false .w96) ⟨0⟩ 0x100) (labWave 4 [] []) [0] (fun t => ((t.thread 1 0).pc.toNat, (t.thread 1 0).ra.toNat))) =
      (some 0xFC0, some (0x1100, 0x100C)) := by decide +kernel

/-- R173: TRAP parks its thread after it with TRAPINSN, the code as INFO. -/
theorem test_trap :
    after (.trap (hdr 0 0 0 0 0 false .w64) ⟨0x21⟩ 0) (labWave 4 [] []) [0]
      (fun t => ((t.thread 1 0).st, (t.thread 1 0).pc.toNat, t.recs.map (fun r => (r.site.toNat, r.code, r.info)))) =
      some (.parked, 0x1008, [(0x1000, fcTrapInsn, 0x21)]) := by decide +kernel

/-- R177, its example: lanes 1 and 3 wait at the join; lanes 0 and 2 release them. -/
theorem test_mwait :
    (let w := (labWave 4 [] []).setMask 1 15
     let first := after (.mwait (hdr 0 0 1 0 0 false .w64) ⟨0⟩ 0) w [1, 3] (fun t => ((t.thread 1 1).st, (t.thread 1 3).st))
     let both := match exec (.mwait (hdr 0 0 1 0 0 false .w64) ⟨0⟩ 0) (labOf w [1, 3]) with
       | .next t => (match exec (.mwait (hdr 0 0 1 0 0 false .w64) ⟨0⟩ 0) { t with packets := [⟨0, 0, 0, 0x1000, [(1, [0, 2])]⟩] } with
         | .next u => some ((List.range 4).map (fun l => ((u.thread 1 l).st, (u.thread 1 l).pc.toNat)))
         | _ => none)
       | _ => none
     (first, both)) =
      (some (.syncWait (.mask 1) 0x1008 false, .syncWait (.mask 1) 0x1008 false), some (List.replicate 4 (.ready, 0x1008))) := by decide +kernel

/-- R188, its example: the record of lanes 2 and 5 under handle 3. -/
theorem test_record :
    leBytes 32 ((({ labRec none with site := 0x100, lanes := [⟨2, 5, 0x4000123000, false⟩, ⟨5, 5, 0, false⟩], code := 5, info := 0x4000123000 } : Rec)).bits 3) =
      leBytes 16 0x24 ++ leBytes 8 0x00C0000000000040 ++ leBytes 8 0x0500004000123000 := by decide +kernel

/-- R332, its example. -/
theorem test_isect : isectOf [2, 5, 8, 12] [5, 6, 12, 20, 21] = ([(1, 0), (3, 2)], 4, 3) := by decide +kernel

/-- The streams of the example of R329: their descriptors and arrays in memory. -/
def labUnion (crd12 : Nat) : State :=
  let m := writeBytes [] 0x20000 (leBytes 32 (1 + 2 ^ 2 + 2 ^ 4 + 2 ^ 5 + 2 ^ 16 * 100 + 2 ^ 64 * 0x21000 + 2 ^ 128 * 0x22000))
  let m := writeBytes m 0x20020 (leBytes 32 (1 + 2 ^ 2 + 2 ^ 4 + 2 ^ 5 + 2 ^ 16 * 100 + 2 ^ 64 * 0x23000 + 2 ^ 128 * 0x24000))
  let m := writeBytes m 0x21008 (leBytes 8 (10 + 2 ^ 32 * 14))
  let m := writeBytes m 0x22028 (leBytes 16 (1 + 2 ^ 32 * 4 + 2 ^ 64 * crd12 + 2 ^ 96 * 9))
  let m := writeBytes m 0x23008 (leBytes 8 (20 + 2 ^ 32 * 23))
  let m := writeBytes m 0x24050 (leBytes 12 (4 + 2 ^ 32 * 5 + 2 ^ 64 * 9))
  let w := { labWave 8 [] [] with w := [(1, BitVec.ofNat 512 (0x20000 + 2 ^ 56 + 2 * 2 ^ 64)), (2, BitVec.ofNat 512 (0x20020 + 2 ^ 56 + 2 * 2 ^ 64))] }
  let w := (List.range 8).foldl (fun (w : Wave) l => (w.setTok 3 l true).updThread l (fun t => { t with st := .tokenWait 8 0x1010 false false })) w
  { labIdle w with mem := m, streams := [⟨1, List.range 8, 0x1000, 0x1010, ⟨1, 0x1E, 2, 1, 0x14, false, 7, false, false, .w128⟩, 0xC1, 2, 0x5413, 0, 0, 0, []⟩] }

/-- R329, its example: the union delivery, and the malformed coordinate that parks the lanes (R330). -/
theorem test_stnxt_union :
    ((match exec (.stnxtDeliver 0) (labUnion 7) with
      | .next t => some ([column t 20 6, column t 21 6, column t 22 6], (t.readS 1 30).toNat, ((t.wave? 1).map (fun w => ((w.mask 4).toNat % 256, (w.mask 5).toNat % 256))))
      | _ => none),
     (match exec (.stnxtDeliver 0) (labUnion 4) with
      | .next t => t.recs.map (fun r => (r.info, r.lanes.length))
      | _ => [])) =
      (some ([[1, 4, 5, 7, 9, 0xFFFFFFFF], [10, 11, 0xFFFFFFFF, 12, 13, 0xFFFFFFFF], [0xFFFFFFFF, 20, 21, 0xFFFFFFFF, 22, 0xFFFFFFFF]], 5, some (0x1B, 0x16)),
       [(0xC1, 8)]) := by decide +kernel

/-- R338, its example: the bitmap and counts of eight outcomes. -/
theorem test_gsx_report : gsBitmap [0, 1, 2, 0, 0, 2, 3, 0] 8 = [0x24, 0x38] := by decide +kernel

/-- R293, its example: a clipped box of 512 elements holds 32 of the tensor. -/
theorem test_clipped_box :
    (let r := 2 ^ 57 + 0xF * 2 ^ 60 + 100 * 2 ^ 64 + 40 * 2 ^ 88 + 0x10748 * 2 ^ 320 + 31 * 2 ^ 352 + 15 * 2 ^ 360 + 2 ^ 409 + 2 ^ 411
     (lyCount r, lyTile r, ((List.range 512).filter (fun L => (lyAt r [96, 32, 0, 0, 0] L).isSome)).length)) = (512, 1024, 32) := by decide +kernel

/-- R316, its example: progress 77 of row block 2 with 128 groups, suspended. -/
theorem test_mrpg :
    ({ labTask .running 0 0 with kind := 3, body := some (3 * 2 ^ 248 + 127 * 2 ^ 312), prog := 2 * 129 + 77, susp := true } : Task).progress = 0x2904C := by
  decide +kernel

/-- A quad that holds 1.0, 3.0, 2.0 and 7.0. -/
def waveQuad : Wave := waveRegs [] [(512, 0x3F800000), (513, 0x40400000), (514, 0x40000000), (515, 0x40E00000)]

/-- R393, its example: the differences of the quad, and after lane 1 has left. -/
theorem test_ddx_ddy :
    [after (.ddx (hdr 0 5 4 0 0 false .w64) ⟨1, .f32⟩ 0) waveQuad [0, 1, 2, 3] (fun t => column t 5 4),
     after (.ddx (hdr 0 5 4 0 0 false .w64) ⟨0, .f32⟩ 0) waveQuad [0, 1, 2, 3] (fun t => column t 5 4),
     after (.ddy (hdr 0 5 4 0 0 false .w64) ⟨0, .f32⟩ 0) waveQuad [0, 1, 2, 3] (fun t => column t 5 4),
     after (.ddy (hdr 0 5 4 0 0 false .w64) ⟨0, .f32⟩ 0) waveQuad [0, 2, 3] (fun t => column t 5 4)] =
      [some [0x40000000, 0x40000000, 0x40000000, 0x40000000], some [0x40000000, 0x40000000, 0x40A00000, 0x40A00000],
       some [0x3F800000, 0x40800000, 0x3F800000, 0x40800000], some [0x3F800000, 0, 0x3F800000, 0]] := by decide +kernel

end Sys2Proof.Tests
end

section
/-!
PROOF. Jumps and calls, thread control (R16, R17, R24, R171 to R173), and the checks of MWAIT, barriers, SSTEP and handles that fail (R177 to R185, R192 to R194,
R441).
-/

namespace Sys2Proof.Machine

/-! ## Jumps, calls and thread control -/

/-- A jump to an aligned target completes with the target as its counter (R171). -/
theorem jumpTo_aligned {t : VA} (h : t.toNat % 4 = 0) : jumpTo t = .ok { pc := some t } := by
  simp [jumpTo, h]

/-- A jump to another target faults with the target as INFO (R17, R171). -/
theorem jumpTo_misaligned {t : VA} (h : t.toNat % 4 ≠ 0) : jumpTo t = .fault ⟨fcFetchFmt, t.toNat⟩ := if_pos h

theorem callTo_aligned {c : Ctx} {s : State} {l : Nat} {t : VA} (h : t.toNat % 4 = 0) :
    callTo c s l t = (s.updThread c.uid l (fun th => { th with ra := c.next }), .ok { pc := some t }) := by
  simp [callTo, h, jumpTo_aligned h]

/-- A call that faults leaves ra. -/
theorem callTo_misaligned {c : Ctx} {s : State} {l : Nat} {t : VA} (h : t.toNat % 4 ≠ 0) :
    callTo c s l t = (s, .fault ⟨fcFetchFmt, t.toNat⟩) := by
  rw [callTo, if_pos h, jumpTo_misaligned h]

/-- Settles O9: an aligned target is one outcome of `jumpTo` and `callTo`, which the five instructions share. -/
theorem jumpsComplete : Obligations.JumpsComplete := by
  intro h f x
  refine ⟨?bra, ?brx, ?call, ?callx, ?ret⟩
  case bra => exact Does.of_lane rfl (fun _ => rfl) (fun _ _ _ _ _ ht => Prod.ext rfl (jumpTo_aligned ht))
  case brx => exact Does.of_lane rfl (fun _ => rfl) (fun _ _ _ _ _ ht => Prod.ext rfl (jumpTo_aligned ht))
  case call => exact Does.of_lane rfl (fun _ => rfl) (fun _ _ _ _ _ ht => callTo_aligned ht)
  case callx => exact Does.of_lane rfl (fun _ => rfl) (fun _ _ _ _ _ ht => callTo_aligned ht)
  case ret => exact Does.of_lane rfl (fun _ => rfl) (fun _ _ _ _ _ ht => Prod.ext rfl (jumpTo_aligned ht))

/-- Settles O10: each of the instructions answers its lane with one outcome; SLEEP and BKPT by the case of their condition. -/
theorem threadControlCompletes : Obligations.ThreadControlCompletes := by
  intro h f x
  refine ⟨?exit, ?yield, ?nop, ?sleep, ?sleepNone, ?bkpt⟩
  case exit => exact Does.of_lane rfl (fun _ => rfl) (fun _ _ _ _ _ _ => rfl)
  case yield => exact Does.of_lane rfl (fun _ => rfl) (fun _ _ _ _ _ _ => rfl)
  case nop => exact Does.of_lane rfl (fun _ => rfl) (fun _ _ _ _ _ _ => rfl)
  case sleep =>
    refine Does.of_lane rfl (fun _ => rfl) (fun c s l hc _ hn => ?_)
    rw [if_neg hn, hc]
  case sleepNone => exact Does.of_lane rfl (fun _ => rfl) (fun _ _ _ _ _ hn => if_pos hn)
  case bkpt => exact Does.of_lane rfl (fun _ => rfl) (fun _ _ _ _ _ hd => Prod.ext rfl (if_pos hd))

/-! ## The wave of a packet -/

theorem waveOf_eq {c : Ctx} {s : State} {w : Wave} (hw : s.wave? c.uid = some w) : waveOf c s = w := by
  simp [waveOf, hw]

/-- The wave of a packet that there is. -/
theorem wave?_of_isSome {c : Ctx} {s : State} (h : (s.wave? c.uid).isSome) : s.wave? c.uid = some (waveOf c s) := by
  obtain ⟨w, hw⟩ := Option.isSome_iff_exists.mp h
  rw [hw, waveOf_eq hw]

/-! ## MWAIT -/

theorem mwaitLane_nonmember {m : Nat} {c : Ctx} {s : State} {l : Nat} (hw : (s.wave? c.uid).isSome) (hm : inMask ((waveOf c s).mask m) l = false) :
    mwaitLane m c s l = (s, .fault ⟨fcBarMask, 0x40 + m + 2 ^ 8 * 8⟩) := by
  simp [mwaitLane, wave?_of_isSome hw, hm, barMask]

theorem mwaitLane_otherSite {m : Nat} {c : Ctx} {s : State} {l : Nat} (hw : (s.wave? c.uid).isSome) (hm : inMask ((waveOf c s).mask m) l = true)
    (hs : (Sparse.get none (waveOf c s).msite m).getD c.pc ≠ c.pc) : mwaitLane m c s l = (s, .fault ⟨fcBarMask, 0x40 + m + 2 ^ 8 * 7⟩) := by
  simp [mwaitLane, wave?_of_isSome hw, hm, hs, barMask]

/-! ## Arrivals -/

/-- An arrival at a barrier beyond the workgroup's count, or with a wave set that names an absent wave (R179, R180). -/
theorem barLane_absent {b : Nat} {out : Ctx → Bool → LaneRes} {c : Ctx} {s : State} {l : Nat} (hw : (s.wave? c.uid).isSome)
    (h : (waveOf c s).nbar ≤ b ∨ 2 ^ (s.workgroup (waveOf c s).gid (waveOf c s).gangwg).length ≤ s.srcCount c l .b % 2 ^ 16) :
    barLane b out c s l = (s, .fault illegal7) := by
  simp only [barLane, wave?_of_isSome hw]
  rw [if_pos (by simpa using h)]

theorem barLane_fails {b r : Nat} {out : Ctx → Bool → LaneRes} {c : Ctx} {s : State} {l : Nat} (hw : (s.wave? c.uid).isSome)
    (hb : b < (waveOf c s).nbar) (hB : s.srcCount c l .b % 2 ^ 16 < 2 ^ (s.workgroup (waveOf c s).gid (waveOf c s).gangwg).length)
    (h : arriveFail (s.bar (waveOf c s).gid (waveOf c s).gangwg b)
      (resolveW (s.srcCount c l .b % 2 ^ 16) (s.workgroup (waveOf c s).gid (waveOf c s).gangwg).length) c.e.h.c.toNat (waveOf c s).uid (waveOf c s).widx l
      ((waveOf c s).mask c.e.h.c.toNat) = some r) :
    barLane b out c s l = (s, .fault ⟨fcBarMask, b + 2 ^ 8 * r⟩) := by
  simp only [barLane, wave?_of_isSome hw]
  rw [if_neg (by simp only [Bool.or_eq_true, decide_eq_true_eq]; omega), h]
  rfl

/-! ## SSTEP -/

/-- The reason for which the arrival of a lane of wave `w` at a region's step fails, the checks in the order of R185 and R287. -/
def stepFail (r : Region) (w : Wave) (m l : Nat) : Option Nat :=
  let seen := r.stepArr.find? (fun x => x.1 = w.uid)
  if r.stepMask.getD m ≠ m then some 2
  else if inMask (w.mask m) l = false then some 4
  else if seen.any (fun x => x.2.1 != w.mask m) = true then some 5
  else if inMask ((seen.map (fun x => x.2.2)).getD 0) l = true then some 6
  else none

/-- A lane of a wave of the step's set whose arrival fails has no effect. -/
theorem sstepLane_fails {c : Ctx} {s : State} {l k : Nat} {r : Region} (hw : (s.wave? c.uid).isSome) (hr : s.region? (waveOf c s).rid = some r)
    (hm : r.ssm = true) (hin : r.stepSet.contains (waveOf c s).uid = true) (hk : stepFail r (waveOf c s) c.e.h.c.toNat l = some k) :
    sstepLane c s l = (s, .fault ⟨fcBarMask, 0xFF + 2 ^ 8 * k⟩) := by
  simp only [sstepLane, wave?_of_isSome hw, hr, hm, hin, Bool.not_true, Bool.false_eq_true, if_false]
  have hseen : (match r.stepArr.find? (fun x => x.1 = (waveOf c s).uid) with | some x => x.2.1 != (waveOf c s).mask c.e.h.c.toNat | none => false) =
      (r.stepArr.find? (fun x => x.1 = (waveOf c s).uid)).any (fun x => x.2.1 != (waveOf c s).mask c.e.h.c.toNat) := by
    cases r.stepArr.find? (fun x => x.1 = (waveOf c s).uid) <;> rfl
  simp only [stepFail] at hk
  -- `sstepLane` makes the checks of `stepFail` in the same order
  split_ifs at hk with hmask hlane hset hseenLane
  · cases hk; rw [if_pos hmask]; rfl
  · cases hk; rw [if_neg hmask, if_pos (by simp [hlane])]; rfl
  · cases hk; rw [if_neg hmask, if_neg (by simp [hlane])]; exact if_pos (hseen.trans hset)
  · cases hk; rw [if_neg hmask, if_neg (by simp [hlane])]; exact (if_neg (fun h => hset (hseen.symm.trans h))).trans (if_pos hseenLane)

/-- Outside a superstep region SSTEP is illegal. -/
theorem sstepLane_illegal {c : Ctx} {s : State} {l : Nat} {r : Region} (hw : (s.wave? c.uid).isSome) (hr : s.region? (waveOf c s).rid = some r)
    (hm : r.ssm = false) : sstepLane c s l = (s, .fault illegal7) := by
  simp [sstepLane, wave?_of_isSome hw, hr, hm]

theorem any_bne_iff {α β : Type} [DecidableEq β] (o : Option α) (g : α → β) (b : β) :
    o.any (fun y => g y != b) = true ↔ ¬∀ y, o = some y → g y = b := by
  cases o <;> simp

/-- SSTEP parks the lanes whose arrival fails for one reason. -/
theorem sstep_parks (h : Hdr) (f : CodeFn) (x : BitVec 64) (R : Ctx → Region) (k : Nat) {P : Ctx → State → Nat → Prop}
    (hP : ∀ c s l, P c s l → stepFail (R c) (waveOf c s) h.c.toNat l = some k) :
    Faults (.sstep h f x)
      (fun c s l => ((s.wave? c.uid).isSome ∧ s.region? (waveOf c s).rid = some (R c) ∧ (R c).ssm = true ∧
        (R c).stepSet.contains (waveOf c s).uid = true) ∧ P c s l)
      (fun _ _ _ => ⟨fcBarMask, 0xFF + 2 ^ 8 * k⟩) :=
  FaultsThen.of_lane rfl (fun _ => rfl) (fun c s l hc ⟨⟨hw, hr, hm, hin⟩, hl⟩ => by
    simp only [sstepLane_fails hw hr hm hin (by rw [hc]; exact hP c s l hl)])

/-! ## Handles -/

/-- LANEPC of a handle that names no open record of lanes (R194, R441). -/
theorem lanepcLane_noRecord {f : EngFn} {c : Ctx} {s : State} {l : Nat}
    (h : ∀ r, s.recOf (s.ridOf c.uid) (s.readRegs c.uid 0 .s c.e.h.a.toNat 1) = some r → r.eng.isSome = true) :
    lanepcLane f c s l = (s, .fault ⟨fcHandle, s.readRegs c.uid 0 .s c.e.h.a.toNat 1⟩) := by
  unfold lanepcLane
  simp only
  split
  · rfl
  · next r hr => rw [if_pos (h r hr)]

/-- Settles O36: in each clause the lanes' own check answers the fault and leaves the state, and `FaultsThen.of_lane` and its like carry that to the packet. -/
theorem checksFault : Obligations.ChecksFault := by
  refine ⟨?jumps, ?mwait, ?bars, ?step, ?handles⟩
  case jumps =>
    intro h f x bad
    refine ⟨?bra, ?brx, ?call, ?callx, ?ret⟩
    case bra => exact FaultsThen.of_lane rfl (fun _ => rfl) (fun _ _ _ _ ht => Prod.ext rfl (jumpTo_misaligned ht))
    case brx => exact FaultsThen.of_lane rfl (fun _ => rfl) (fun _ _ _ _ ht => Prod.ext rfl (jumpTo_misaligned ht))
    case call => exact FaultsThen.of_lane rfl (fun _ => rfl) (fun _ _ _ _ ht => callTo_misaligned ht)
    case callx => exact FaultsThen.of_lane rfl (fun _ => rfl) (fun _ _ _ _ ht => callTo_misaligned ht)
    case ret => exact FaultsThen.of_lane rfl (fun _ => rfl) (fun _ _ _ _ ht => Prod.ext rfl (jumpTo_misaligned ht))
  case mwait =>
    intro h f x m member parks
    refine ⟨?nonmember, ?otherSite⟩
    case nonmember => exact FaultsThen.of_lane rfl (fun _ => rfl) (fun _ _ _ _ ⟨hw, hm⟩ => mwaitLane_nonmember hw hm)
    case otherSite => exact FaultsThen.of_lane rfl (fun _ => rfl) (fun _ _ _ _ ⟨hw, hm, hs⟩ => mwaitLane_otherSite hw hm hs)
  case bars =>
    intro h f x r b waves B absent fails at'
    refine ⟨?barFails, ?bararrFails, ?barAbsent, ?bararrAbsent, ?barwtAbsent⟩
    case barFails =>
      exact FaultsThen.of_lane rfl (fun _ => rfl) (fun _ _ _ hc ⟨hw, hb, hB, hr⟩ => barLane_fails hw hb hB (by rw [hc]; exact hr))
    case bararrFails =>
      exact FaultsThen.of_lane rfl (fun _ => rfl) (fun _ _ _ hc ⟨hw, hb, hB, hr⟩ => barLane_fails hw hb hB (by rw [hc]; exact hr))
    case barAbsent => exact FaultsThen.of_lane rfl (fun _ => rfl) (fun _ _ _ _ ⟨hw, ha⟩ => barLane_absent hw ha)
    case bararrAbsent => exact FaultsThen.of_lane rfl (fun _ => rfl) (fun _ _ _ _ ⟨hw, ha⟩ => barLane_absent hw ha)
    case barwtAbsent =>
      refine FaultsThen.of_lane rfl (fun _ => rfl) (fun c s l _ ⟨hw, hb⟩ => ?_)
      simp only [wave?_of_isSome hw]
      exact if_pos hb
  case step =>
    intro h f x R c0 step seen same member kept parks
    refine ⟨?mask, ?nonmember, ?changed, ?twice, ?illegal⟩
    case mask => exact sstep_parks h f x R 2 (fun c s l hne => if_pos hne)
    case nonmember =>
      refine sstep_parks h f x R 4 (fun c s l ⟨hs, hm⟩ => ?_)
      simp only [stepFail]
      rw [if_neg (not_not.mpr hs), if_pos (by simpa [member] using hm)]
    case changed =>
      refine sstep_parks h f x R 5 (fun c s l ⟨hs, hm, hk⟩ => ?_)
      simp only [stepFail]
      rw [if_neg (not_not.mpr hs), if_neg (by simpa using hm), if_pos ((any_bne_iff _ _ _).mpr hk)]
    case twice =>
      refine sstep_parks h f x R 6 (fun c s l ⟨hs, hm, hk, harr⟩ => ?_)
      simp only [stepFail]
      rw [if_neg (not_not.mpr hs), if_neg (by simpa using hm), if_neg (fun ha => (any_bne_iff _ _ _).mp ha hk), if_pos harr]
    case illegal =>
      refine FaultsThen.of_lane rfl (fun _ => rfl) (fun c s l _ ⟨hw, hr, hm⟩ => ?_)
      simp only [sstepLane_illegal hw hr hm]
  case handles =>
    intro h f x hd no bad
    refine ⟨?tret, ?parkq, ?lanepc⟩
    case tret =>
      refine FaultsOnceMem.of_uni rfl (fun _ => rfl) (fun _ _ => rfl) (fun c s l _ hno => ?_)
      simp only [no, hd] at hno
      simp only [hno]; rfl
    case parkq =>
      refine FaultsOnceMem.of_uni rfl (fun _ => rfl) (fun _ _ => rfl) (fun c s l _ hno => ?_)
      simp only [no, hd] at hno
      simp only [hno]; rfl
    case lanepc =>
      exact FaultsMem.of_lane rfl (fun _ => rfl) (fun _ _ => rfl) (fun c s l hc hl => by rw [lanepcLane_noRecord (by rw [hc]; exact hl), hc]; rfl)

end Sys2Proof.Machine
end

section
/-!
PROOF. Faults park (R35, R188, R439, R445): the errors that lanes have met, the parking of their wave's lanes, and their record each keep every other thread's
run, but for the IDLEs that note an event.
-/

namespace Sys2Proof.Machine

/-! ## Tables and threads -/

/-- A function that keeps the default maps a table value by value. -/
theorem Sparse.get_mapVal {α : Type} {d : α} {g : α → α} (hg : g d = d) (m : Sparse α) (k : Nat) :
    Sparse.get d (m.map (fun x => (x.1, g x.2))) k = g (Sparse.get d m k) := by
  induction m with
  | nil => exact hg.symm
  | cons p m ih =>
    by_cases h : p.1 = k
    · simp [Sparse.get, h]
    · simpa [Sparse.get, h] using ih

/-- The threads of a wave after any update of one. -/
theorem Wave.thread_updThread_eq (w : Wave) (l k : Nat) (f : Thread → Thread) :
    (w.updThread l f).thread k = if k = l then f (w.thread l) else w.thread k :=
  Sparse.get_put w.threads l k _

/-- The threads of a wave after one idempotent update of the lanes of a list. -/
theorem Wave.thread_foldl_updThread {α : Type} (ls : List α) (lane : α → Nat) {f : Thread → Thread} (hf : ∀ t, f (f t) = f t) (w : Wave) (k : Nat) :
    (ls.foldl (fun w x => w.updThread (lane x) f) w).thread k = if k ∈ ls.map lane then f (w.thread k) else w.thread k := by
  induction ls generalizing w with
  | nil => simp
  | cons a ls ih =>
    rw [List.foldl_cons, ih, Wave.thread_updThread_eq]
    by_cases hk : k = lane a
    · subst hk; simp [hf]
    · simp [hk]

theorem State.wave?_mapWaves (s : State) {g : Wave → Wave} (hg : ∀ w, (g w).uid = w.uid) (u : Nat) :
    ({ s with waves := s.waves.map g } : State).wave? u = (s.wave? u).map g := by
  simp only [State.wave?, List.find?_map, Function.comp_def, hg]

/-! ## What an event of an IDLE leaves -/

/-- A thread keeps its counter, predicates, flags and run state, but for an IDLE that notes an event (R439). -/
def Thread.KeepsRun (a b : Thread) : Prop :=
  b.pc = a.pc ∧ b.p = a.p ∧ b.fl = a.fl ∧ b.ue = a.ue ∧
    (b.st = a.st ∨ ∃ E till d got ev settle, a.st = .sleeping (.idle E till d got) settle ∧ b.st = .sleeping (.idle E till d (got ||| ev)) settle)

theorem Thread.KeepsRun.refl (t : Thread) : t.KeepsRun t := ⟨rfl, rfl, rfl, rfl, .inl rfl⟩

theorem Thread.KeepsRun.trans {a b c : Thread} (h : a.KeepsRun b) (k : b.KeepsRun c) : a.KeepsRun c := by
  obtain ⟨hpc, hp, hfl, hue, hst⟩ := h
  obtain ⟨kpc, kp, kfl, kue, kst⟩ := k
  refine ⟨kpc.trans hpc, kp.trans hp, kfl.trans hfl, kue.trans hue, ?_⟩
  rcases kst with kst | ⟨E, till, d, got, ev, settle, hb, hc⟩
  · rw [kst]; exact hst
  · rcases hst with hst | ⟨E', till', d', got', ev', settle', ha, hb'⟩
    · exact .inr ⟨E, till, d, got, ev, settle, hst ▸ hb, hc⟩
    · rw [hb'] at hb
      cases hb
      exact .inr ⟨E, till, d, got', ev' ||| ev, settle, ha, by rw [hc, Nat.lor_assoc]⟩

theorem Thread.keepsRun_noteIdle (ev : Nat) (t : Thread) : t.KeepsRun (t.noteIdle ev) := by
  unfold Thread.noteIdle
  split
  · next E till d got settle h => exact ⟨rfl, rfl, rfl, rfl, .inr ⟨E, till, d, got, _, settle, h, rfl⟩⟩
  · exact .refl t

/-- A wave keeps its kind, region and registers, and its threads run as they did. -/
structure Wave.KeepsRun (w v : Wave) : Prop where
  kind : v.kind = w.kind
  rid : v.rid = w.rid
  reg : ∀ r, v.reg r = w.reg r
  thread : ∀ l, (w.thread l).KeepsRun (v.thread l)

theorem Wave.KeepsRun.refl (w : Wave) : w.KeepsRun w := ⟨rfl, rfl, fun _ => rfl, fun _ => .refl _⟩

theorem Wave.KeepsRun.trans {a b c : Wave} (h : a.KeepsRun b) (k : b.KeepsRun c) : a.KeepsRun c :=
  ⟨k.kind.trans h.kind, k.rid.trans h.rid, fun r => (k.reg r).trans (h.reg r), fun l => (h.thread l).trans (k.thread l)⟩

/-- One update of a lane under which the thread runs as it did. -/
theorem Wave.keepsRun_updThread (w : Wave) (l : Nat) {f : Thread → Thread} (hf : ∀ t : Thread, t.KeepsRun (f t)) : w.KeepsRun (w.updThread l f) := by
  refine ⟨rfl, rfl, fun r => by cases r <;> rfl, fun k => ?_⟩
  rw [Wave.thread_updThread_eq]
  split
  · next h => rw [h]; exact hf _
  · exact .refl _

theorem Wave.keepsRun_clearRaised (w : Wave) (ls : List Nat) : w.KeepsRun (w.clearRaised ls) ∧ (w.clearRaised ls).uid = w.uid := by
  unfold Wave.clearRaised
  induction ls generalizing w with
  | nil => exact ⟨.refl w, rfl⟩
  | cons l ls ih =>
    rw [List.foldl_cons]
    split
    · exact ih w
    · next j _ =>
      have hstep : w.KeepsRun (({ w with kfail := Sparse.put (0, 0) w.kfail (128 * j + l) (0, 0) } : Wave).updThread l (fun t => { t with ftok := none })) :=
        Wave.KeepsRun.trans (b := { w with kfail := Sparse.put (0, 0) w.kfail (128 * j + l) (0, 0) })
          ⟨rfl, rfl, fun r => by cases r <;> rfl, fun _ => .refl _⟩
          (Wave.keepsRun_updThread _ _ (fun _ => ⟨rfl, rfl, rfl, rfl, .inl rfl⟩))
      exact ⟨hstep.trans (ih _).1, (ih _).2⟩

/-! ## States whose waves run as they did -/

/-- The waves of a state run as they did in another, and the packets and the results on their way are the same. -/
structure State.KeepsRun (s t : State) : Prop where
  packets : t.packets = s.packets
  pend : t.pend = s.pend
  none : ∀ u, s.wave? u = none → t.wave? u = none
  wave : ∀ u w, s.wave? u = some w → ∃ v, t.wave? u = some v ∧ w.KeepsRun v

/-- An update of the waves one by one. -/
theorem State.KeepsRun.of_map {s t : State} (hk : t.packets = s.packets) (hp : t.pend = s.pend) {g : Wave → Wave}
    (hw : ∀ u, t.wave? u = (s.wave? u).map g) (hg : ∀ w : Wave, w.KeepsRun (g w)) : s.KeepsRun t :=
  ⟨hk, hp, fun u h => by rw [hw, h]; rfl, fun u w h => ⟨g w, by rw [hw, h]; rfl, hg w⟩⟩

theorem State.KeepsRun.of_waves {s t : State} (hk : t.packets = s.packets) (hp : t.pend = s.pend) (hw : t.waves = s.waves) : s.KeepsRun t :=
  .of_map hk hp (g := id) (fun u => by rw [Option.map_id_apply, State.wave?, State.wave?, hw]) Wave.KeepsRun.refl

theorem State.KeepsRun.refl (s : State) : s.KeepsRun s := .of_waves rfl rfl rfl

theorem State.KeepsRun.trans {s t r : State} (h : s.KeepsRun t) (k : t.KeepsRun r) : s.KeepsRun r :=
  ⟨k.packets.trans h.packets, k.pend.trans h.pend, fun u hu => k.none u (h.none u hu), fun u w hw => by
    obtain ⟨v, hv, hwv⟩ := h.wave u w hw
    obtain ⟨x, hx, hvx⟩ := k.wave u v hv
    exact ⟨x, hx, hwv.trans hvx⟩⟩

theorem State.KeepsRun.thread {s t : State} (h : s.KeepsRun t) (u l : Nat) : (s.thread u l).KeepsRun (t.thread u l) := by
  cases hu : s.wave? u with
  | none => simp only [State.thread, hu, h.none u hu]; exact .refl _
  | some w =>
    obtain ⟨v, hv, hwv⟩ := h.wave u w hu
    rw [State.thread_of_wave hu, State.thread_of_wave hv]
    exact hwv.thread l

theorem State.KeepsRun.finalReg {s t : State} (h : s.KeepsRun t) (u : Nat) (r : RegRef) : t.finalReg u r = s.finalReg u r := by
  cases hu : s.wave? u with
  | none => simp only [State.finalReg_eq, hu, h.none u hu]
  | some w =>
    obtain ⟨v, hv, hwv⟩ := h.wave u w hu
    simp only [State.finalReg_eq, hu, hv, hwv.reg, h.pend]

theorem State.keepsRun_noteIdle (s : State) (p : Wave → Bool) (ev : Nat) : s.KeepsRun (s.noteIdle p ev) := by
  refine .of_map rfl rfl (State.wave?_mapWaves s (fun w => ?_)) (fun w => ?_)
  · split <;> rfl
  · split
    · have hl (l : Nat) : ({ w with threads := w.threads.map (fun x => (x.1, x.2.noteIdle ev)) } : Wave).thread l = (w.thread l).noteIdle ev :=
        Sparse.get_mapVal (g := Thread.noteIdle ev) rfl w.threads l
      exact ⟨rfl, rfl, fun r => by cases r <;> rfl, fun l => (hl l).symm ▸ Thread.keepsRun_noteIdle ev _⟩
    · exact .refl w

theorem State.KeepsRun.updWave (s : State) (v : Nat) {f : Wave → Wave} (hu : ∀ w, (f w).uid = w.uid) (hf : ∀ w : Wave, w.KeepsRun (f w)) :
    s.KeepsRun (s.updWave v f) :=
  .of_map rfl rfl (State.wave?_mapWaves s (fun w => by split <;> simp [hu])) (fun w => by split; exacts [hf w, .refl w])

/-! ## The record of a fault -/

theorem State.waves_post (s : State) (rid va : Nat) (ls : List Loc) (bs : List Byte) :
    (s.post rid va ls bs).packets = s.packets ∧ (s.post rid va ls bs).pend = s.pend ∧ (s.post rid va ls bs).waves = s.waves := by
  have hsend : ∀ (ps : List (Nat × Nat × Nat × PageKind × List Byte)) (s : State),
      let t := ps.foldl (fun s p => ({ s with fresh := s.fresh + 1 } : State).send (.sector s.fresh rid p.1 [.store p.2.1 p.2.2.2.2 ⟨.op, [], [], false⟩])) s
      t.packets = s.packets ∧ t.pend = s.pend ∧ t.waves = s.waves := by
    intro ps
    induction ps with
    | nil => exact fun s => ⟨rfl, rfl, rfl⟩
    | cons p ps ih => exact fun s => ih _
  have hstore := s.keeps_store ls bs
  obtain ⟨hk, hp, hw⟩ := hsend (remParts (((List.range ls.length).map (fun i => (va + i) % 2 ^ 56)).zip ls) bs) (s.store ls bs)
  exact ⟨hk.trans hstore.packets, hp.trans hstore.pend, hw.trans hstore.waves⟩

theorem State.keepsRun_asService (s : State) {f : State → State} (hf : ∀ t : State, t.KeepsRun (f t)) : s.KeepsRun (s.asService f) := by
  have h : s.KeepsRun (f { s with ord := { s.ord with agent := none } }) :=
    State.KeepsRun.trans (t := { s with ord := { s.ord with agent := none } }) (.of_waves rfl rfl rfl) (hf _)
  exact h.trans (.of_waves rfl rfl rfl)

/-- Writing a record changes no thread's run, but for the IDLEs that note it. -/
theorem State.keepsRun_writeRec (s : State) (rid : Nat) : s.KeepsRun (s.writeRec rid) := by
  refine State.keepsRun_asService s (fun t => ?_)
  split
  · next r i rec h _ _ _ =>
    split
    · simp only
      split
      · exact .of_waves rfl rfl rfl
      · next locs _ =>
        split
        · exact .of_waves rfl rfl rfl
        · obtain ⟨hk, hp, hw⟩ := t.waves_post rid (r.fq + 32 * (r.fqW % r.fqn)) locs (leBytes 32 (rec.bits h))
          have hnote := (State.KeepsRun.of_waves hk hp hw).trans (State.keepsRun_noteIdle _ (fun w => w.rid = rid) 2)
          split
          · exact hnote.trans (.of_waves rfl rfl rfl)
          · exact (hnote.trans (.updWave _ _ (fun w => (w.keepsRun_clearRaised _).2) (fun w => (w.keepsRun_clearRaised _).1))).trans (.of_waves rfl rfl rfl)
    · exact .refl t
  · exact .refl t

theorem State.keepsRun_addRec (s : State) (r : Rec) : s.KeepsRun (s.addRec r) :=
  State.KeepsRun.trans (t := { s with recs := s.recs ++ [r] }) (.of_waves rfl rfl rfl) (State.keepsRun_writeRec _ _)


/-! ## The errors that lanes have met -/

/-- Errors enter the banks: the control registers, the service's notes and the IDLEs that note them change, and nothing else. -/
structure State.Notes (s t : State) : Prop where
  rest : t = { s with waves := t.waves, csrs := t.csrs, svc := t.svc, ueLog := t.ueLog }
  run : s.KeepsRun t

theorem State.Notes.of_waves {s t : State} (h : t = { s with csrs := t.csrs, svc := t.svc, ueLog := t.ueLog }) : s.Notes t := by
  rw [h]
  exact ⟨rfl, .of_waves rfl rfl rfl⟩

theorem State.Notes.refl (s : State) : s.Notes s := .of_waves rfl

theorem State.Notes.trans {s t r : State} (h : s.Notes t) (k : t.Notes r) : s.Notes r :=
  ⟨by rw [k.rest, h.rest], h.run.trans k.run⟩

theorem State.Notes.foldl {α : Type} {f : State → α → State} (hf : ∀ (s : State) a, s.Notes (f s a)) (l : List α) (s : State) : s.Notes (l.foldl f s) := by
  induction l generalizing s with
  | nil => exact .refl s
  | cons a l ih => exact (hf s a).trans (ih _)

theorem State.notes_setCsr (s : State) (a v : Nat) : s.Notes (s.setCsr a v) := .of_waves rfl

theorem State.notes_updSvc (s : State) (f : Svc → Svc) : s.Notes (s.updSvc f) := .of_waves rfl

theorem State.notes_noteIdle (s : State) (p : Wave → Bool) (ev : Nat) : s.Notes (s.noteIdle p ev) := ⟨rfl, s.keepsRun_noteIdle p ev⟩

theorem State.notes_raiseHigh (s : State) : s.Notes s.raiseHigh := (s.notes_updSvc _).trans (State.notes_noteIdle _ _ _)

theorem State.notes_lowIf (s : State) (group unit cnt : Nat) : s.Notes (s.lowIf group unit cnt) := by
  unfold State.lowIf
  split
  · exact (s.notes_updSvc _).trans (State.notes_noteIdle _ _ _)
  · exact .refl s

theorem State.notes_bankError (s : State) (group unit : Nat) (ue consumed : Bool) (src addr info : Nat) :
    s.Notes (s.bankError group unit ue consumed src addr info) := by
  unfold State.bankError
  simp only
  split
  · split
    · exact s.notes_setCsr _ _
    · exact (s.notes_setCsr _ _).trans (State.notes_lowIf _ _ _ _)
  · split
    · have hset (a b c x y z : Nat) : s.Notes (((s.setCsr a x).setCsr b y).setCsr c z) := .of_waves rfl
      split
      · exact (hset _ _ _ _ _ _).trans (State.notes_raiseHigh _)
      · exact (hset _ _ _ _ _ _).trans (State.notes_lowIf _ _ _ _)
    · exact (s.notes_setCsr _ _).trans (State.notes_raiseHigh _)

theorem State.notes_want (s : State) (kind unit : Nat) : s.Notes (s.want kind unit) := by
  unfold State.want
  split
  · exact .refl s
  · exact s.notes_updSvc _

theorem State.notes_wantSram (s : State) (group unit addr : Nat) : s.Notes (s.wantSram group unit addr) := by
  unfold State.wantSram
  split
  · exact s.notes_want _ _
  · split
    · exact s.notes_want _ _
    · exact .refl s

theorem State.notes_markRow (s : State) (group unit addr : Nat) : s.Notes (s.markRow group unit addr) := by
  unfold State.markRow
  split
  · exact .refl s
  · have hrow (f : Svc → Svc) (a v : Nat) : s.Notes ((s.updSvc f).setCsr a v) := .of_waves rfl
    simp only
    split
    · exact (hrow _ _ _).trans (State.notes_wantSram _ _ _ _)
    · exact hrow _ _ _

theorem State.notes_noteCorrected (s : State) (ch : Nat) : s.Notes (s.noteCorrected ch) := by
  unfold State.noteCorrected
  simp only
  split
  · exact (s.notes_updSvc _).trans (State.notes_want _ _ _)
  · exact s.notes_updSvc _

theorem State.notes_trigger (s : State) (group unit : Nat) (ue : Bool) (src addr : Nat) : s.Notes (s.trigger group unit ue src addr) := by
  have hsram (P Q : Prop) [Decidable P] [Decidable Q] (g : Nat) : s.Notes (if P then s.wantSram g unit addr else if Q then s.markRow g unit addr else s) := by
    split
    · exact s.notes_wantSram _ _ _
    · split
      · exact s.notes_markRow _ _ _
      · exact .refl s
  unfold State.trigger
  split
  · exact hsram _ _ 0
  · exact hsram _ _ 1
  · split
    · exact .refl s
    · split
      · exact s.notes_want _ _
      · exact s.notes_noteCorrected _
  · exact .refl s

theorem State.notes_recordErrors (s : State) : s.Notes s.recordErrors :=
  State.Notes.trans (t := { s with ueLog := [] }) (.of_waves rfl)
    (.foldl (fun t _ => (t.notes_bankError _ _ _ _ _ _ _).trans (State.notes_trigger _ _ _ _ _ _)) _ _)

/-! ## Parking -/

/-- A lane that parks (R35). -/
def Thread.parks (t : Thread) : Thread := { t with st := .parked, ue := none, hseg := none }

/-- A thread that runs as it did, and then parks, is the thread parked where it stood. -/
theorem Thread.KeepsRun.parks {a b : Thread} (h : a.KeepsRun b) : Thread.KeepsRun { a with st := .parked, ue := none } b.parks := by
  obtain ⟨hpc, hp, hfl, -, -⟩ := h
  exact ⟨hpc, hp, hfl, rfl, .inl rfl⟩

/-- The lanes of a wave that fault, parked. -/
def Wave.parkLanes (fs : List (Nat × LFault)) (w : Wave) : Wave := fs.foldl (fun w x => w.updThread x.1 Thread.parks) w

theorem Wave.thread_parkLanes (fs : List (Nat × LFault)) (w : Wave) (l : Nat) :
    (w.parkLanes fs).thread l = if l ∈ fs.map (fun p => p.1) then (w.thread l).parks else w.thread l :=
  Wave.thread_foldl_updThread fs (fun p => p.1) (f := Thread.parks) (fun _ => rfl) w l

/-- Parking lanes leaves all but the threads of a wave. -/
theorem Wave.parkLanes_rest (fs : List (Nat × LFault)) (w : Wave) : w.parkLanes fs = { w with threads := (w.parkLanes fs).threads } := by
  unfold Wave.parkLanes
  induction fs generalizing w with
  | nil => rfl
  | cons x fs ih => rw [List.foldl_cons, ih]; rfl

/-- What the lanes of a packet that park leave behind: their waits for memory end. -/
def State.dropLanes (uid : Nat) (fs : List (Nat × LFault)) (s : State) : State :=
  fs.foldl (fun s x => (s.dropReads (.lane uid x.1)).dropAsks (.lane uid x.1)) s

theorem State.dropLanes_rest (uid : Nat) (fs : List (Nat × LFault)) (s : State) :
    s.dropLanes uid fs = { s with link := (s.dropLanes uid fs).link, misses := (s.dropLanes uid fs).misses,
                                  missQ := (s.dropLanes uid fs).missQ, refused := (s.dropLanes uid fs).refused } := by
  unfold State.dropLanes
  induction fs generalizing s with
  | nil => rfl
  | cons x fs ih => rw [List.foldl_cons, ih]; rfl

/-- The state once the lanes are parked, before their record. -/
def State.parkLanes (s : State) (uid : Nat) (fs : List (Nat × LFault)) : State := (s.updWave uid (Wave.parkLanes fs)).dropLanes uid fs

theorem State.parkSub_cons {s : State} {uid : Nat} {w : Wave} (hw : s.wave? uid = some w) (site : VA) (p : Nat × LFault) (fs : List (Nat × LFault)) :
    s.parkSub uid site (p :: fs) =
      if w.fatalKind then { s.parkLanes uid (p :: fs) with fatals := (s.parkLanes uid (p :: fs)).fatals ++ [(w.rid, p.2.code)] }
      else (s.parkLanes uid (p :: fs)).addRec
        { rid := w.rid, uid := uid, site := site, lanes := (p :: fs).map (fun x => ⟨x.1, x.2.code, x.2.info, false⟩),
          eng := none, code := p.2.code, info := p.2.info, handle := none, st := .waiting } := by
  unfold State.parkSub
  rw [hw]
  rfl


theorem State.parkSub_nil (s : State) (uid : Nat) (site : VA) : s.parkSub uid site [] = s := rfl

theorem State.wave?_parkLanes (s : State) (uid : Nat) (fs : List (Nat × LFault)) (u : Nat) :
    (s.parkLanes uid fs).wave? u = if u = uid then (s.wave? u).map (Wave.parkLanes fs) else s.wave? u := by
  rw [← State.wave?_updWave s uid u (Wave.parkLanes fs) (fun w => by rw [Wave.parkLanes_rest])]
  simp only [State.parkLanes, State.wave?]
  rw [State.dropLanes_rest]

/-- The threads once lanes are parked: those lanes are, and every other stands as it did. -/
theorem State.thread_parkLanes {s : State} {uid : Nat} {w : Wave} (hw : s.wave? uid = some w) (fs : List (Nat × LFault)) (u l : Nat) :
    (s.parkLanes uid fs).thread u l = if u = uid ∧ l ∈ fs.map (fun p => p.1) then (w.thread l).parks else s.thread u l := by
  by_cases h : u = uid
  · subst h
    simp only [State.thread, State.wave?_parkLanes, hw, Option.map_some, if_true, true_and]
    exact w.thread_parkLanes fs l
  · simp only [State.thread, State.wave?_parkLanes, h, if_false, false_and]

theorem State.finalReg_parkLanes (s : State) (uid : Nat) (fs : List (Nat × LFault)) (u : Nat) (r : RegRef) :
    (s.parkLanes uid fs).finalReg u r = s.finalReg u r := by
  have hreg (w : Wave) : (w.parkLanes fs).reg r = w.reg r := by rw [Wave.parkLanes_rest]; cases r <;> rfl
  have hpend : (s.parkLanes uid fs).pend = s.pend := by rw [State.parkLanes, State.dropLanes_rest]; rfl
  rw [State.finalReg_eq, State.finalReg_eq, State.wave?_parkLanes, hpend]
  cases s.wave? u with
  | none => simp
  | some w =>
    by_cases h : u = uid
    · simp only [h, if_true, Option.map_some, hreg]
    · rw [if_neg h]

/-- The record of lanes that park, or their fatal fault, changes no thread's run, but for the IDLEs that note it. -/
theorem State.keepsRun_parkSub {s : State} {uid : Nat} {w : Wave} (hw : s.wave? uid = some w) (site : VA) (fs : List (Nat × LFault)) :
    (s.parkLanes uid fs).KeepsRun (s.parkSub uid site fs) := by
  cases fs with
  | nil =>
    refine .of_waves rfl rfl ?_
    simp [State.parkLanes, State.dropLanes, State.updWave, Wave.parkLanes, State.parkSub_nil]
  | cons p fs =>
    rw [State.parkSub_cons hw]
    split
    · exact .of_waves rfl rfl rfl
    · exact State.keepsRun_addRec _ _

/-- Lanes park once the errors that they have met are recorded (R465). -/
theorem State.park_notes (s : State) (uid : Nat) (site : VA) (fs : List (Nat × LFault)) :
    ∃ r, s.Notes r ∧ s.park uid site fs = r.parkSub uid site fs := by
  unfold State.park
  split
  · exact ⟨_, s.notes_recordErrors, rfl⟩
  · exact ⟨s, .refl s, rfl⟩

/-- A fault of a wave that handles faults is fatal: no record is made (R445). -/
theorem State.parkSub_fatal {s : State} {uid : Nat} {w : Wave} (hw : s.wave? uid = some w) (hfatal : w.fatalKind = true) (site : VA)
    (p : Nat × LFault) (fs : List (Nat × LFault)) :
    let t := s.parkSub uid site (p :: fs)
    t.fatals = s.fatals ++ [(w.rid, p.2.code)] ∧ t.recs = s.recs ∧ t.mem = s.mem := by
  simp only [State.parkSub_cons hw, hfatal, if_true, State.parkLanes]
  rw [State.dropLanes_rest]
  exact ⟨rfl, rfl, rfl⟩

/-- Lanes that fault park with every register kept (R35, R439, R445). -/
theorem State.park_keeps (s : State) (uid : Nat) (w : Wave) (site : VA) (fs : List (Nat × LFault)) (hw : s.wave? uid = some w) :
    let t := s.park uid site fs
    (∀ u l, Thread.KeepsRun (if u = uid ∧ l ∈ fs.map (fun p => p.1) then { w.thread l with st := .parked, ue := none } else s.thread u l) (t.thread u l)) ∧
    (∀ u r, t.finalReg u r = s.finalReg u r) ∧ t.packets = s.packets ∧ t.pend = s.pend ∧
    (∀ l f fs', fs = (l, f) :: fs' → w.fatalKind = true → t.fatals = s.fatals ++ [(w.rid, f.code)] ∧ t.recs = s.recs ∧ t.mem = s.mem) := by
  obtain ⟨r, hnotes, hpark⟩ := s.park_notes uid site fs
  obtain ⟨v, hv, hwv⟩ := hnotes.run.wave uid w hw
  have hrun := State.keepsRun_parkSub hv site fs
  have hrest : (r.parkLanes uid fs).packets = r.packets ∧ (r.parkLanes uid fs).pend = r.pend := by
    rw [State.parkLanes, State.dropLanes_rest]; exact ⟨rfl, rfl⟩
  simp only [hpark]
  refine ⟨fun u l => ?_, fun u x => ?_, ?_, ?_, ?_⟩
  · have hthread := hrun.thread u l
    rw [State.thread_parkLanes hv] at hthread
    split
    · next hin =>
      rw [if_pos hin] at hthread
      exact (hwv.thread l).parks.trans hthread
    · next hout =>
      rw [if_neg hout] at hthread
      exact (hnotes.run.thread u l).trans hthread
  · rw [hrun.finalReg, State.finalReg_parkLanes, hnotes.run.finalReg]
  · rw [hrun.packets, hrest.1, hnotes.run.packets]
  · rw [hrun.pend, hrest.2, hnotes.run.pend]
  · rintro l f fs' rfl hfatal
    have hkind : v.fatalKind = true := by rw [← hfatal, Wave.fatalKind, Wave.fatalKind, hwv.kind]
    obtain ⟨hfatals, hrecs, hmem⟩ := State.parkSub_fatal hv hkind site (l, f) fs'
    rw [hfatals, hrecs, hmem, hwv.rid, hnotes.rest]
    exact ⟨rfl, rfl, rfl⟩

/-! ## The record's bits (R188) -/

theorem bitAt_maskOf (ls : List Nat) (l : Nat) : (maskOf ls).toNat.testBit l = true ↔ l < 128 ∧ l ∈ ls := by
  have hfold (ls : List Nat) (m : LaneMask) :
      (ls.foldl (fun m l => m ||| BitVec.ofNat 128 (2 ^ l)) m).toNat.testBit l = true ↔ m.toNat.testBit l = true ∨ (l < 128 ∧ l ∈ ls) := by
    induction ls generalizing m with
    | nil => simp
    | cons a ls ih =>
      rw [List.foldl_cons, ih, BitVec.toNat_or, Nat.testBit_or, BitVec.toNat_ofNat, Nat.testBit_mod_two_pow, Nat.testBit_two_pow]
      simp only [Bool.or_eq_true, Bool.and_eq_true, decide_eq_true_eq, List.mem_cons]
      grind
  exact (hfold ls 0).trans (by simp)

/-- The six fields of the words of a record, one above the other (R188). -/
theorem recordFields (mask site handle more info code : Nat) (hmask : mask < 2 ^ 128) (hsite : site < 2 ^ 54) (hhandle : handle < 2 ^ 9)
    (hmore : more < 2) (hinfo : info < 2 ^ 56) (hcode : code < 2 ^ 8) :
    let b := mask + site * 2 ^ 128 + handle * 2 ^ 182 + more * 2 ^ 191 + info * 2 ^ 192 + code * 2 ^ 248
    b % 2 ^ 128 = mask ∧ bitsAt b 128 54 = site ∧ bitsAt b 182 9 = handle ∧ bitsAt b 191 1 = more ∧ bitsAt b 192 56 = info ∧ bitsAt b 248 8 = code := by
  simp only [bitsAt, Nat.shiftRight_eq_div_pow]
  omega


/-- What R188 lays out in the record of a sub-wave. -/
theorem Rec.bits_fields (r : Rec) (p : ParkLane) (ps : List ParkLane) (h : Nat) (heng : r.eng = none) (hlanes : r.lanes = p :: ps) (hh : h < 512)
    (hcode : p.code < 256) (hsite : r.site.toNat % 4 = 0) :
    let b := r.bits h
    (∀ l, l < 128 → (bitAt b l = true ↔ ∃ q ∈ r.lanes, q.lane = l)) ∧ 4 * bitsAt b 128 54 = r.site.toNat ∧ bitsAt b 182 9 = h ∧
      (bitAt b 191 = true ↔ ∃ q ∈ r.lanes, q.code ≠ p.code) ∧ bitsAt b 192 56 = p.info % 2 ^ 56 ∧ bitsAt b 248 8 = p.code := by
  have hbits : r.bits h = (maskOf (r.lanes.map (fun l => l.lane))).toNat + r.site.toNat / 4 * 2 ^ 128 + h * 2 ^ 182 +
      b2n (r.lanes.any (fun l => l.code ≠ p.code)) * 2 ^ 191 + (p.info % 2 ^ 56) * 2 ^ 192 + p.code * 2 ^ 248 := by
    simp only [Rec.bits, heng, hlanes, List.head?_cons, Option.getD_some]
  have hva := r.site.isLt
  have hmore : b2n (r.lanes.any (fun l => l.code ≠ p.code)) < 2 := by cases r.lanes.any (fun l => l.code ≠ p.code) <;> decide
  obtain ⟨fmask, fsite, fhandle, fmore, finfo, fcode⟩ := recordFields (maskOf (r.lanes.map (fun l => l.lane))).toNat (r.site.toNat / 4) h _ (p.info % 2 ^ 56)
    p.code (BitVec.isLt _) (by omega) hh hmore (Nat.mod_lt _ (by decide)) hcode
  rw [← hbits] at fmask fsite fhandle fmore finfo fcode
  refine ⟨fun l hl => ?_, by omega, fhandle, ?_, finfo, fcode⟩
  · have hlow : (r.bits h).testBit l = (maskOf (r.lanes.map (fun l => l.lane))).toNat.testBit l := by
      rw [← fmask, Nat.testBit_mod_two_pow, decide_eq_true hl, Bool.true_and]
    rw [bitAt, hlow, bitAt_maskOf, List.mem_map]
    exact and_iff_right hl
  · have hbit : bitAt (r.bits h) 191 = r.lanes.any (fun l => l.code ≠ p.code) := by
      rw [bitAt, Nat.testBit_eq_decide_div_mod_eq, ← Nat.shiftRight_eq_div_pow]
      rw [bitsAt, pow_one] at fmore
      rw [fmore]
      cases r.lanes.any (fun l => l.code ≠ p.code) <;> rfl
    rw [hbit]
    simp

/-- The handle of a record is the lowest that no open record of its region holds (R188). -/
theorem State.freeHandle_eq_some (s : State) (rid h : Nat) :
    s.freeHandle rid = some h ↔ h < 512 ∧ h ∉ s.handlesOf rid ∧ ∀ k, k < h → k ∈ s.handlesOf rid := by
  simp [State.freeHandle, List.find?_range_eq_some, and_left_comm]

/-- Settles O54: the errors that are recorded, the record and the handle leave every thread's run as it stood once its lanes are parked. -/
theorem faultsPark : Obligations.FaultsPark :=
  ⟨State.park_keeps, Rec.bits_fields, State.freeHandle_eq_some⟩

end Sys2Proof.Machine
end

section
/-!
PROOF. The events of the cores (R23, R27, R82, R136, R172, R186, R200, R201, R206, R329, R430, R439): the threads that a fill wakes, the landing of a short
result, and the branch of its definition that each other event takes.
-/

namespace Sys2Proof.Machine

/-! ## Threads after a list of updates -/

theorem State.wave?_updThread_eq {s : State} {u : Nat} {w : Wave} (hw : s.wave? u = some w) (v l : Nat) (f : Thread → Thread) :
    (s.updThread v l f).wave? u = some (if u = v then w.updThread l f else w) := by
  rw [State.updThread, State.wave?_updWave s v u (fun w => w.updThread l f) (fun _ => rfl), hw]
  split <;> rfl

/-- The threads after one idempotent update of the lanes that a list names. -/
theorem State.thread_foldl_updThread {f : Thread → Thread} (hf : ∀ t, f (f t) = f t) (xs : List (Nat × Nat)) {s : State} {u : Nat} {w : Wave}
    (hw : s.wave? u = some w) (l : Nat) :
    (xs.foldl (fun s x => s.updThread x.1 x.2 f) s).thread u l = if (u, l) ∈ xs then f (w.thread l) else w.thread l := by
  induction xs generalizing s w with
  | nil => simp [State.thread_of_wave hw]
  | cons x xs ih =>
    obtain ⟨v, k⟩ := x
    rw [List.foldl_cons, ih (State.wave?_updThread_eq hw v k f)]
    by_cases hv : u = v
    · subst hv
      rw [if_pos rfl, Wave.thread_updThread_eq]
      by_cases hk : l = k
      · simp [hk, hf]
      · simp [hk]
    · simp [hv]

/-- A lane whose thread meets a condition that no absent thread meets is among those where it holds. -/
theorem Wave.mem_lanesWhere {w : Wave} {l : Nat} {p : Nat → Thread → Bool} (habsent : p l Thread.absent = false) (h : p l (w.thread l) = true) :
    l ∈ w.lanesWhere p := by
  have hmem (m : Sparse Thread) (hm : p l (Sparse.get Thread.absent m l) = true) : ∃ x ∈ m, p x.1 x.2 = true ∧ x.1 = l := by
    induction m with
    | nil => simp [Sparse.get, habsent] at hm
    | cons x m ih =>
      by_cases hx : x.1 = l
      · exact ⟨x, List.mem_cons_self, by simpa [Sparse.get, hx] using hm, hx⟩
      · obtain ⟨y, hy, hpy⟩ := ih (by simpa [Sparse.get, hx] using hm)
        exact ⟨y, List.mem_cons_of_mem _ hy, hpy⟩
  obtain ⟨x, hx, hpx, rfl⟩ := hmem w.threads h
  exact List.mem_map.mpr ⟨x, List.mem_filter.mpr ⟨hx, hpx⟩, rfl⟩

/-! ## Fills (R82) -/

/-- The threads that a filled block wakes. -/
def State.fillWaiters (s : State) (core : Nat) (root : Option Nat) (blk : Nat) : List (Nat × Nat) :=
  (s.waves.filter (fun w => w.cl = core / 4 && w.core = core % 4 && s.rootOf w.rid = root)).flatMap
    (fun w => (w.lanesWhere (fun _ t => waitsFill blk t)).map (fun l => (w.uid, l)))

theorem State.wakeFill_eq (s : State) (core : Nat) (root : Option Nat) (blk : Nat) :
    s.wakeFill core root blk = (s.fillWaiters core root blk).foldl (fun s x => s.updThread x.1 x.2 (fun t => { t with st := .ready, age := 0 })) s := by
  rw [State.fillWaiters, List.foldl_flatMap, State.wakeFill]
  simp only [List.foldl_map]

theorem State.icache_wakeFill (s : State) (core : Nat) (root : Option Nat) (blk : Nat) : (s.wakeFill core root blk).icache = s.icache := by
  have hfold (xs : List (Nat × Nat)) (f : Thread → Thread) (s : State) : (xs.foldl (fun s x => s.updThread x.1 x.2 f) s).icache = s.icache := by
    induction xs generalizing s with
    | nil => rfl
    | cons x xs ih => rw [List.foldl_cons, ih, State.updThread_icache]
  rw [State.wakeFill_eq, hfold]

/-- A thread that waits for a block is ready once its core has it. -/
theorem State.thread_wakeFill {u : State} {core blk : Nat} {root : Option Nat} {w : Wave} {l : Nat} (hw : u.wave? w.uid = some w) (hcl : w.cl = core / 4)
    (hcore : w.core = core % 4) (hroot : u.rootOf w.rid = root) (hwait : waitsFill blk (w.thread l) = true) :
    (u.wakeFill core root blk).thread w.uid l = { w.thread l with st := .ready, age := 0 } := by
  have hin : (w.uid, l) ∈ u.fillWaiters core root blk := by
    refine List.mem_flatMap.mpr ⟨w, List.mem_filter.mpr ⟨List.mem_of_find?_eq_some hw, by simp [hcl, hcore, hroot]⟩, ?_⟩
    exact List.mem_map.mpr ⟨l, Wave.mem_lanesWhere rfl hwait, rfl⟩
  rw [State.wakeFill_eq, State.thread_foldl_updThread (f := fun t => { t with st := .ready, age := 0 }) (fun _ => rfl) _ hw, if_pos hin]

/-! ## Short results (R23, R136) -/

def Thread.raise (f : Flags) (t : Thread) : Thread := { t with fl := t.fl ||| f }

theorem Thread.raise_raise (f : Flags) (t : Thread) : (t.raise f).raise f = t.raise f := by
  simp [Thread.raise, BitVec.or_assoc]

/-- Flags raised in the lane of a register, or, for a scalar's, in every owner (R136). -/
def Wave.raiseReg (owners : List Nat) (w : Wave) (f : RegRef × Flags) : Wave :=
  match f.1 with
  | .v _ l => w.updThread l (Thread.raise f.2)
  | .s _ => owners.foldl (fun w l => w.updThread l (Thread.raise f.2)) w

theorem Wave.thread_raiseReg (owners : List Nat) (w : Wave) (f : RegRef × Flags) (k : Nat) :
    (w.raiseReg owners f).thread k = if (match f.1 with | .v _ l => decide (l = k) | .s _ => owners.contains k) then (w.thread k).raise f.2 else w.thread k := by
  obtain ⟨r, f⟩ := f
  cases r with
  | v r l =>
    simp only [Wave.raiseReg, Wave.thread_updThread_eq, decide_eq_true_eq, eq_comm (a := l)]
    split
    · next h => rw [h]
    · rfl
  | s r =>
    simpa [Wave.raiseReg] using Wave.thread_foldl_updThread owners (fun l => l) (Thread.raise_raise f) w k

/-- Flags raised one after the other, each in the threads that it is for. -/
theorem Wave.thread_foldl_raise {α : Type} {F : Wave → α → Wave} {hit : α → Bool} {fl : α → Flags} {k : Nat}
    (hF : ∀ (w : Wave) x, (F w x).thread k = if hit x then (w.thread k).raise (fl x) else w.thread k) (xs : List α) (w : Wave) :
    (xs.foldl F w).thread k = ((xs.filter hit).map fl).foldl (fun t f => t.raise f) (w.thread k) := by
  induction xs generalizing w with
  | nil => rfl
  | cons x xs ih =>
    rw [List.foldl_cons, ih, hF, List.filter_cons]
    split <;> rfl

theorem Thread.foldl_raise (fs : List Flags) (t : Thread) :
    fs.foldl (fun t f => t.raise f) t = { t with fl := fs.foldl (fun a b => a ||| b) t.fl } := by
  induction fs generalizing t with
  | nil => rfl
  | cons f fs ih => rw [List.foldl_cons, ih]; rfl

/-- A thread that settles goes on once nothing that it waits for is on its way (R78). -/
def Thread.settle (waits : Bool) (t : Thread) : Thread := if t.st = .settling && !waits then { t with st := .ready, age := 0 } else t

theorem Thread.settle_settle (waits : Bool) (t : Thread) : (t.settle waits).settle waits = t.settle waits := by
  unfold Thread.settle
  split <;> simp_all


/-- A lane settles, where its thread stands so. -/
def Wave.settle (waits : Nat → Bool) (w : Wave) (l : Nat) : Wave :=
  if (w.thread l).st = .settling && !waits l then w.updThread l (fun t => { t with st := .ready, age := 0 }) else w

theorem Wave.thread_settle (waits : Nat → Bool) (w : Wave) (l k : Nat) :
    (w.settle waits l).thread k = if k = l then (w.thread k).settle (waits k) else w.thread k := by
  unfold Wave.settle Thread.settle
  by_cases hk : k = l
  · subst hk
    rw [if_pos rfl]
    split
    · simp [Wave.thread_updThread_eq]
    · rfl
  · rw [if_neg hk]
    split
    · simp [Wave.thread_updThread_eq, hk]
    · rfl

theorem Wave.thread_foldl_settle (waits : Nat → Bool) (ls : List Nat) (w : Wave) (k : Nat) :
    (ls.foldl (Wave.settle waits) w).thread k = if k ∈ ls then (w.thread k).settle (waits k) else w.thread k := by
  induction ls generalizing w with
  | nil => simp
  | cons l ls ih =>
    rw [List.foldl_cons, ih, Wave.thread_settle]
    by_cases hk : k = l
    · simp [hk, Thread.settle_settle]
    · simp [hk]

/-- A wave when a short result of it has landed: its registers, its flags, and the threads that settled on it. -/
def Pend.landed (p : Pend) (waits : Nat → Bool) (w : Wave) : Wave :=
  p.owners.foldl (Wave.settle waits) (p.rflags.foldl (Wave.raiseReg p.owners)
    (p.flags.foldl (fun w f => w.updThread f.1 (Thread.raise f.2)) (p.regs.foldl (fun w r => w.setReg r.1 r.2) w)))

/-- The registers of a wave. -/
def Wave.files (w : Wave) : Sparse Word × Sparse Word := (w.v, w.s)

theorem Wave.files_foldl {α : Type} {F : Wave → α → Wave} (hF : ∀ w x, (F w x).files = w.files) (xs : List α) (w : Wave) : (xs.foldl F w).files = w.files := by
  induction xs generalizing w with
  | nil => rfl
  | cons x xs ih => rw [List.foldl_cons, ih, hF]

theorem Wave.thread_setReg (w : Wave) (r : RegRef) (x : Word) (l : Nat) : (w.setReg r x).thread l = w.thread l := by cases r <;> rfl

theorem Pend.files_landed (p : Pend) (waits : Nat → Bool) (w : Wave) :
    (p.landed waits w).files = (p.regs.foldl (fun w r => w.setReg r.1 r.2) w).files := by
  have hsettle (w : Wave) (l : Nat) : (w.settle waits l).files = w.files := by
    unfold Wave.settle
    split <;> rfl
  have hraise (w : Wave) (f : RegRef × Flags) : (w.raiseReg p.owners f).files = w.files := by
    unfold Wave.raiseReg
    split
    · rfl
    · exact Wave.files_foldl (F := fun w l => w.updThread l (Thread.raise f.2)) (fun _ _ => rfl) _ w
  rw [Pend.landed, Wave.files_foldl hsettle, Wave.files_foldl hraise, Wave.files_foldl (F := fun w (f : Nat × Flags) => w.updThread f.1 (Thread.raise f.2)) (fun _ _ => rfl)]

/-- A thread when a short result of its wave has landed. -/
theorem Pend.thread_landed (p : Pend) (waits : Nat → Bool) (w : Wave) (l : Nat) :
    let t : Thread := { w.thread l with fl := (p.raised l).foldl (fun a b => a ||| b) (w.thread l).fl }
    (p.landed waits w).thread l = if l ∈ p.owners then t.settle (waits l) else t := by
  have hregs (rs : List (RegRef × Word)) (w : Wave) : (rs.foldl (fun w r => w.setReg r.1 r.2) w).thread l = w.thread l := by
    induction rs generalizing w with
    | nil => rfl
    | cons r rs ih => rw [List.foldl_cons, ih, Wave.thread_setReg]
  have hlane (w : Wave) (f : Nat × Flags) : (w.updThread f.1 (Thread.raise f.2)).thread l = if decide (f.1 = l) then (w.thread l).raise f.2 else w.thread l := by
    rw [Wave.thread_updThread_eq]
    by_cases h : f.1 = l
    · simp [h]
    · simp [h, Ne.symm h]
  simp only [Pend.landed]
  rw [Wave.thread_foldl_settle, Wave.thread_foldl_raise (fun w f => Wave.thread_raiseReg p.owners w f l), Wave.thread_foldl_raise hlane, hregs,
    ← List.foldl_append, Thread.foldl_raise]
  rfl

/-- A state in the middle of a landing: its wave, what is on the way, and the synchronous operations. -/
def State.Landing (u : Nat) (pend : List Pend) (asu : Asu) (t : State) (v : Wave) : Prop :=
  t.wave? u = some v ∧ t.pend = pend ∧ t.asu = asu

theorem State.Landing.updWave {u : Nat} {pend : List Pend} {asu : Asu} {t : State} {v : Wave} (h : State.Landing u pend asu t v) {f : Wave → Wave}
    (hf : ∀ w, (f w).uid = w.uid) : State.Landing u pend asu (t.updWave u f) (f v) :=
  ⟨by rw [State.wave?_updWave t u u f hf, if_pos rfl, h.1]; rfl, h.2⟩

theorem State.Landing.updThread {u : Nat} {pend : List Pend} {asu : Asu} {t : State} {v : Wave} (h : State.Landing u pend asu t v) (l : Nat)
    (f : Thread → Thread) : State.Landing u pend asu (t.updThread u l f) (v.updThread l f) :=
  h.updWave (fun _ => rfl)

theorem State.Landing.foldl {α : Type} {u : Nat} {pend : List Pend} {asu : Asu} {F : State → α → State} {G : Wave → α → Wave}
    (hFG : ∀ t v x, State.Landing u pend asu t v → State.Landing u pend asu (F t x) (G v x)) (xs : List α) {t : State} {v : Wave}
    (h : State.Landing u pend asu t v) : State.Landing u pend asu (xs.foldl F t) (xs.foldl G v) :=
  List.foldl_rel h (fun x _ t v h => hFG t v x h)

/-- The landing of a short result without uncorrectable data. -/
theorem State.land_eq {s : State} {k : Nat} {p : Pend} {rest : List Pend} {w : Wave} (hk : takeAt k s.pend = some (p, rest)) (hue : p.ue = none)
    (hw : s.wave? p.uid = some w) :
    State.Landing p.uid rest s.asu (s.land k) (p.landed (({ s with pend := rest } : State).hasPend p.uid) w) := by
  have huid (rs : List (RegRef × Word)) (w : Wave) : (rs.foldl (fun w r => w.setReg r.1 r.2) w).uid = w.uid := by
    induction rs generalizing w with
    | nil => rfl
    | cons r rs ih => rw [List.foldl_cons, ih]; cases r.1 <;> rfl
  have h0 : State.Landing p.uid rest s.asu { s with pend := rest } w := ⟨hw, rfl, rfl⟩
  simp only [State.land, hk, hue]
  refine State.Landing.foldl ?_ _ (.foldl ?_ _ (.foldl ?_ _ (h0.updWave (huid _))))
  case refine_1 =>
    intro t v l h
    obtain ⟨hv, hpend, hasu⟩ := h
    have hwaits : t.hasPend p.uid l = ({ s with pend := rest } : State).hasPend p.uid l := by simp only [State.hasPend, hpend, hasu]
    rw [State.thread_of_wave hv, hwaits, Wave.settle]
    split
    · exact State.Landing.updThread ⟨hv, hpend, hasu⟩ l _
    · exact ⟨hv, hpend, hasu⟩
  case refine_2 =>
    rintro t v ⟨r, f⟩ h
    cases r with
    | v r l => exact h.updThread l _
    | s r => exact State.Landing.foldl (fun t v l h => h.updThread l _) _ h
  case refine_3 =>
    exact fun t v f h => h.updThread f.1 _


/-! ## The events of the cores -/

theorem instructionFill_fills {s : State} {core rid blk : Nat} {bs : List Byte} {a : State} (hdrain : s.draining rid = false)
    (hwaits : (s.waves.any (fun w => w.cl = core / 4 && w.core = core % 4 && s.rootOf w.rid = s.rootOf rid && w.rid = rid &&
        !(w.lanesWhere (fun _ t => waitsFill blk t)).isEmpty)) = true) (hread : s.fillRead core rid blk = (a, .ok bs)) :
    let u := ((a.opDone.dropRops (.fetch core rid blk)).endReads (.fetch core rid blk)).putBlock ⟨core / 4, core % 4, s.rootOf rid, blk, bs, none⟩
    let t := u.wakeFill core (s.rootOf rid) blk
    exec (.instructionFill core rid blk) s = .next t ∧ ⟨core / 4, core % 4, s.rootOf rid, blk, bs, none⟩ ∈ t.icache ∧
      ∀ w l, u.wave? w.uid = some w → w.cl = core / 4 → w.core = core % 4 → u.rootOf w.rid = s.rootOf rid → waitsFill blk (w.thread l) = true →
        t.thread w.uid l = { w.thread l with st := .ready, age := 0 } := by
  refine ⟨?_, ?_, fun w l => State.thread_wakeFill⟩
  · have hexec : exec (.instructionFill core rid blk) s = execInstructionFill core rid blk s := rfl
    rw [hexec, execInstructionFill]
    simp only [hdrain, hwaits, hread, Bool.not_false, Bool.true_and, if_true]
  · rw [State.icache_wakeFill]
    exact List.mem_cons_self

theorem shortResultLand_lands {s : State} {k : Nat} {p : Pend} {rest : List Pend} {w : Wave} (hk : takeAt k s.pend = some (p, rest)) (hue : p.ue = none)
    (hw : s.wave? p.uid = some w) :
    ∃ t v, exec (.shortResultLand k) s = .next t ∧ t.pend = rest ∧ t.wave? p.uid = some v ∧
      v.v = (p.regs.foldl (fun w r => w.setReg r.1 r.2) w).v ∧ v.s = (p.regs.foldl (fun w r => w.setReg r.1 r.2) w).s ∧
      (∀ l, (v.thread l).fl = (p.raised l).foldl (fun a b => a ||| b) (w.thread l).fl) ∧
      (∀ l, l ∈ p.owners → (w.thread l).st = .settling → ({ s with pend := rest } : State).hasPend p.uid l = false → (v.thread l).st = .ready) := by
  obtain ⟨hv, hpend, -⟩ := State.land_eq hk hue hw
  have hfiles := p.files_landed (({ s with pend := rest } : State).hasPend p.uid) w
  refine ⟨s.land k, _, rfl, hpend, hv, congrArg Prod.fst hfiles, congrArg Prod.snd hfiles, fun l => ?_, fun l hl hst hwaits => ?_⟩
  · rw [Pend.thread_landed]
    simp only [Thread.settle]
    split_ifs <;> rfl
  · rw [Pend.thread_landed, if_pos hl]
    simp [Thread.settle, hst, hwaits]

theorem sleepExpire_timer {s : State} {uid lane : Nat} {w : Wave} {till : Nat} {settle : Bool} (hw : s.wave? uid = some w)
    (hst : (w.thread lane).st = .sleeping (.timer till) settle) (htill : till ≤ s.clk) :
    exec (.sleepExpire uid lane) s = .next (s.updThread uid lane (fun t => { t with st := s.goOn uid lane settle, age := 0 })) := by
  have hexec : exec (.sleepExpire uid lane) s = execSleepExpire uid lane s := rfl
  simp only [hexec, execSleepExpire, hw, hst, htill, if_true, State.wake, State.thread_of_wave hw]

theorem sleepExpire_idle {s : State} {uid lane : Nat} {w : Wave} {E till d got : Nat} {settle : Bool} (hw : s.wave? uid = some w)
    (hst : (w.thread lane).st = .sleeping (.idle E till d got) settle) (hev : s.idleEvents w E till got ≠ 0) :
    exec (.sleepExpire uid lane) s = .next (s.endIdle w E till d got) := by
  have hexec : exec (.sleepExpire uid lane) s = execSleepExpire uid lane s := rfl
  simp only [hexec, execSleepExpire, hw, hst, hev, if_false]

theorem State.uiNext_eq {s : State} {w : Wave} {i : Nat} {is : List Nat} {entry : Nat} (hpend : w.uiPend = i :: is) (hen : w.uiEn = true)
    (hrun : w.uiRun = none) (hbank : w.bank = .active) (hstop : s.stopped w.cl w.core w.quad = false)
    (hentry : s.tableEntry w.rid w.htbl i 0 = .ok (some entry)) : s.uiNext w = some (i, entry) := by
  simp [State.uiNext, hpend, hen, hrun, hbank, hstop, hentry]

/-- UI_DELIVER of a wave that may take an interrupt, by what its thread sleeps in. -/
theorem uiDeliver_delivers {s : State} {uid lane i entry : Nat} {w : Wave} (hw : s.wave? uid = some w) (hnext : s.uiNext w = some (i, entry))
    (hlane : s.uiLane w = some lane) :
    ((∀ E till d got settle, (w.thread lane).st = .sleeping (.idle E till d got) settle → bitAt E 0 = false) →
        exec (.uiDeliver uid) s = .next (s.deliverUi w lane i entry)) ∧
      (∀ E till d got settle, (w.thread lane).st = .sleeping (.idle E till d got) settle → bitAt E 0 = true →
        exec (.uiDeliver uid) s = .next (s.endIdle w E till d got)) := by
  have hexec : exec (.uiDeliver uid) s = execUiDeliver uid s := rfl
  simp only [hexec, execUiDeliver, hw, hnext, hlane]
  refine ⟨fun hno => ?_, fun E till d got settle hst hbit => ?_⟩
  · split
    · next E till d got settle hst => rw [hno E till d got settle hst]; rfl
    · rfl
  · simp only [hst, hbit, if_true]

theorem pageWalk_ends {s : State} {rid va : Nat} {m : Miss} {r : Region} {root : Nat}
    (hmiss : (s.misses.take 64).find? (fun m => m.page = va / 2 ^ 16 && m.reqs.any (fun q => q.rid = rid)) = some m)
    (hr : s.region? rid = some r) (hroot : r.ptroot = some root) (hdrain : s.draining rid = false) :
    let u := s.endWalk m va (s.walkOf r root va).1 (s.walkOf r root va).2
    exec (.pageWalk rid va) s = .next ((s.walkWaits.filter (fun w => !u.walkWaits.contains w)).foldl State.settleRop u) := by
  have hexec : exec (.pageWalk rid va) s = execPageWalk rid va s := rfl
  have hwalk : s.pageWalk rid va = s.endWalk m va (s.walkOf r root va).1 (s.walkOf r root va).2 := by
    simp only [State.pageWalk, hmiss, hr, hroot, Option.bind_some, Option.map_some]
  simp only [hexec, execPageWalk, hdrain, hwalk]
  rfl

/-- The end of a walk that finds a leaf. -/
theorem State.endWalk_leaf {s : State} {m : Miss} {va : Nat} {found : WalkRes} {l : Leaf} {tag : Tag} {path : List (Tag × Nat × Nat)} (h : found = .leaf l tag) :
    let qs := (s.misses.filter (found.completes m)).flatMap (fun m => m.reqs)
    let t := ({ s with misses := s.misses.filter (fun x => !found.completes m x) } : State).admitMisses
    s.endWalk m va found path = qs.foldl (fun t q => t.deliverWalk found path q) (if t.passes found qs then t.fillPath va path else t) := by
  subst h
  rfl

/-- The end of a walk that faults. -/
theorem State.endWalk_fault {s : State} {m : Miss} {va : Nat} {found : WalkRes} {bad : Bool} {path : List (Tag × Nat × Nat)} (h : found = .fault bad) :
    let qs := (s.misses.filter (found.completes m)).flatMap (fun m => m.reqs)
    let t := ({ s with misses := s.misses.filter (fun x => !found.completes m x) } : State).admitMisses
    s.endWalk m va found path = qs.foldl (fun t q => t.deliverWalk found path q) (if bad then t.count (csrAddr 9 0 0 0) 32 1 else t) := by
  subst h
  rfl

/-- Settles O39: each event under its conditions is one branch of its definition; a fill and a landing are followed thread by thread. -/
theorem coreEventsComplete : Obligations.CoreEventsComplete := by
  intro s
  refine ⟨fun h => ?slot, fun core rid blk bs a => instructionFill_fills, fun k p rest w => shortResultLand_lands, ?ahead, ?memue, ?timer, ?idle, ?ui, ?checks,
    ?stnxt, ?walk⟩
  case slot =>
    have hexec : exec .issueSlot s = execIssueSlot s := rfl
    rw [hexec, execIssueSlot, h]
  case ahead =>
    intro uid lane tok i a hfind hwatch
    have hexec : exec (.runaheadLand uid lane tok) s = execRunaheadLand uid lane tok s := rfl
    simp only [hexec, execRunaheadLand, hfind, hwatch]
    rfl
  case memue =>
    intro uid lane w info hw hue hbound
    have hexec : exec (.memuePark uid lane) s = execMemuePark uid lane s := rfl
    simp only [hexec, execMemuePark, hw, hue, hbound]
    rfl
  case timer => exact fun uid lane w till settle => sleepExpire_timer
  case idle => exact fun uid lane w E till d got settle => sleepExpire_idle
  case ui =>
    intro uid lane w i is entry hw hpend hlane hen hrun hbank hstop hentry
    exact uiDeliver_delivers hw (State.uiNext_eq hpend hen hrun hbank hstop hentry) hlane
  case checks =>
    intro uid lane settle hst hwatch
    have hexec : exec (.admissionChecksComplete uid lane) s = execAdmissionChecksComplete uid lane s := rfl
    simp only [hexec, execAdmissionChecksComplete, hst, hwatch]
    rfl
  case stnxt =>
    intro k q w r a hq hop hbusy hw hfetch
    have hexec : exec (.stnxtDeliver k) s = execStnxtDeliver k s := rfl
    simp only [hexec, execStnxtDeliver, hq, hop, hbusy, hw, hfetch]
    rfl
  case walk =>
    intro rid va m r root hmiss hr hroot hdrain
    refine ⟨fun l tag hfound => ?_, fun bad hfound => ?_⟩
    · have hres : (s.walkOf r root va).1 = .leaf l tag := hfound
      rw [pageWalk_ends hmiss hr hroot hdrain, State.endWalk_leaf hres]
      rfl
    · have hres : (s.walkOf r root va).1 = .fault bad := hfound
      rw [pageWalk_ends hmiss hr hroot hdrain, State.endWalk_fault hres]
      rfl

end Sys2Proof.Machine
end

section
/-!
PROOF. The events of the work distributor (R21, R39 to R49, R417, R443, R444): the branch of its definition that each event takes under its conditions.
-/

namespace Sys2Proof.Machine

/-! ## Placement and FETCHW -/

theorem fetchwServe_serves {s : State} {k : Nat} {q : WgReq} {qs : List WgReq} (hk : s.cts.wgreqs.drop k = q :: qs)
    (hfirst : (s.cts.wgreqs.take k).any (fun p => p.lid = q.lid) = false) :
    let r := (s.updCts (fun t => { t with wgreqs := t.wgreqs.eraseIdx k })).withdrawWg q
    let at' := (List.range 16).map (fun i => if q.seg = 3 then sharedLoc q.cl (q.a + i) else coreLoc q.cl q.core (q.a + i))
    exec (.fetchwServe k) s = .next ((r.1.store at' (leBytes 16 r.2)).clearTok q.uid q.tok q.lane) := by
  have hexec : exec (.fetchwServe k) s = execFetchwServe k s := rfl
  rw [hexec, execFetchwServe, hk]
  simp only [hfirst]
  rfl

/-! ## The swap (R46, R47) -/

/-- The time slice of a region that is resident on a core is over. -/
theorem State.sliceOver_core {s : State} {r : Region} {cl core : Nat} (hslice : r.tslice ≠ 0) (hclk : Sparse.get 0 s.wd.sliceAt r.rid + 1700 * r.tslice ≤ s.clk)
    (hhere : s.wd.gangs.any (fun g => g.rid = r.rid && g.cl = cl && g.bank = 0 && g.cores.contains core) = true) : s.sliceOver r cl [core] = true := by
  have hcontains (g : Gang) : g.cores.any (fun c => [core].contains c) = g.cores.contains core := by
    rw [Bool.eq_iff_iff]
    simp
  simp only [State.sliceOver, hcontains, hhere, hslice, hclk, decide_true, ne_eq, not_false_eq_true, Bool.and_self]

theorem State.region?_rid {s : State} {rid : Nat} {r : Region} (h : s.region? rid = some r) : r.rid = rid := by
  simpa using List.find?_some h

/-! ## The spill engine (R443, R444) -/

/-- The shadow banks of some cores are not all in one state when they are all in another. -/
theorem State.shadowIs_other {s : State} {cl : Nat} {cs : List Nat} {a b : ShSt} (hab : a ≠ b) (hne : cs ≠ []) (h : cs.all (s.shadowIs a cl) = true) :
    cs.all (s.shadowIs b cl) = false := by
  obtain ⟨c, cs, rfl⟩ := List.exists_cons_of_ne_nil hne
  have hc : s.shadowIs a cl c = true := List.all_eq_true.mp h c List.mem_cons_self
  have hb : s.shadowIs b cl c = false := by
    unfold State.shadowIs at hc ⊢
    split at hc
    · have ha := of_decide_eq_true hc
      simp [ha, hab]
    · simp at hc
  rw [List.all_cons, hb, Bool.false_and]

theorem shadowFill_filled {s : State} {cl core : Nat} (cs : List Nat) (hcs : (s.coreSet cl [1] [core]).filter (fun c => (s.shadow? cl c).isSome) = cs)
    (hne : cs ≠ []) (hfill : cs.all (s.shadowIs .filling cl) = true) : exec (.shadowFill cl core) s = .next (s.fillDone cl cs) := by
  have hexec : exec (.shadowFill cl core) s = execShadowFill cl core s := rfl
  simp only [hexec, execShadowFill, hcs, hfill, List.isEmpty_eq_false_iff.mpr hne, Bool.not_false, Bool.and_self, if_true]

theorem shadowFill_spilling {s : State} {cl core : Nat} (cs : List Nat) (hcs : (s.coreSet cl [1] [core]).filter (fun c => (s.shadow? cl c).isSome) = cs)
    (hne : cs ≠ []) (hspill : cs.all (s.shadowIs .spilling cl) = true) : exec (.shadowFill cl core) s = .next (s.setShadows cl cs .ready false []) := by
  have hexec : exec (.shadowFill cl core) s = execShadowFill cl core s := rfl
  have hfill := State.shadowIs_other (b := .filling) (by decide) hne hspill
  simp only [hexec, execShadowFill, hcs, hfill, hspill, List.isEmpty_eq_false_iff.mpr hne, Bool.not_false, Bool.and_self, Bool.and_false, if_true]
  rfl

theorem shadowFill_begins {s : State} {cl core : Nat} (hcs : (s.coreSet cl [1] [core]).filter (fun c => (s.shadow? cl c).isSome) = []) :
    let xs := s.savedSet cl core
    let back := sortedSet (xs.map (fun x => x.core))
    let t := s.moveTo (xs.flatMap (fun x => x.gids)) (xs.flatMap (fun x => x.uids)) .shadow
    xs ≠ [] → back.all (fun c => (s.shadow? cl c).isNone) = true → t.bankFits cl .shadow = true →
      exec (.shadowFill cl core) s = .next (t.setShadows cl back .filling false []) := by
  intro xs back t hxs hback hfits
  have hexec : exec (.shadowFill cl core) s = execShadowFill cl core s := rfl
  have hsaved : (!xs.isEmpty && back.all (fun c => (s.shadow? cl c).isNone)) = true := by simp [hxs, hback]
  rw [hexec, execShadowFill, hcs]
  exact congrArg Host.Outcome.next ((if_pos hsaved).trans (if_pos hfits))

theorem spill_dirty {s : State} {cl core : Nat} (cs : List Nat) (hcs : (s.coreSet cl [1] [core]).filter (fun c => (s.shadow? cl c).isSome) = cs)
    (hne : cs ≠ []) (hdirty : cs.all (s.shadowIs .dirty cl) = true) : exec (.spill cl core) s = .next (s.setShadows cl cs .spilling false []) := by
  have hexec : exec (.spill cl core) s = execSpill cl core s := rfl
  simp only [hexec, execSpill, hcs, hdirty, List.isEmpty_eq_false_iff.mpr hne, if_true]
  rfl

theorem spill_spilling {s : State} {cl core : Nat} (cs : List Nat) (hcs : (s.coreSet cl [1] [core]).filter (fun c => (s.shadow? cl c).isSome) = cs)
    (hne : cs ≠ []) (hspill : cs.all (s.shadowIs .spilling cl) = true) :
    exec (.spill cl core) s =
      .next (((cs.foldl (fun (t : State) c => t.saveCore s.fresh cl c) { s with fresh := s.fresh + 1 }).moveTo (s.shadowGids cl cs) (s.shadowUids cl cs) .saved).updWd
        (fun w => { w with shadows := w.shadows.filter (fun x => !(x.cl = cl && cs.contains x.core)) })) := by
  have hexec : exec (.spill cl core) s = execSpill cl core s := rfl
  have hdirty := State.shadowIs_other (b := .dirty) (by decide) hne hspill
  simp only [hexec, execSpill, hcs, hdirty, hspill, List.isEmpty_eq_false_iff.mpr hne, if_true]
  rfl

/-- Settles O41: each event under its conditions is one branch of its definition; a core's shadow bank is in one state at a time. -/
theorem distributorEventsComplete : Obligations.DistributorEventsComplete := by
  intro s cl core
  refine ⟨?place, fun _ => rfl, fun k q qs => fetchwServe_serves, ?preempt, ?swap, ?spill, ?gang, ?region⟩
  case place =>
    intro lid l f hl hplace hahead hfits
    have hexec : exec (.wdPlaceGang lid cl core) s = execWdPlaceGang lid cl core s := rfl
    simp only [hexec, execWdPlaceGang, hl, hplace, hahead, hfits]
    rfl
  case preempt =>
    intro lid l f hl cs hplace hnow hmay hshadow hfits
    have hexec : exec (.preempt cl core lid) s = execPreempt cl core lid s := rfl
    have hgo : (!s.placeable l || (List.range 48).any (fun j => (List.range 4).any (fun k => (s.fits l j k .active).isSome)) || !s.mayPreempt l cl cs ||
        cs.any (fun c => (s.shadow? cl c).isSome)) = false := by
      rw [hplace, hnow, hmay, hshadow]
      rfl
    simp only [hexec, execPreempt, hl]
    rw [if_neg (Bool.eq_false_iff.mp hgo), hfits]
  case swap =>
    intro cs hpackets hready hall
    have hcan : s.canSwap cl (s.swapSet cl core) = true := by
      rw [State.canSwap, hpackets, hready, hall]
      rfl
    refine ⟨fun rid r hr hslice hclk hhere => ?_, fun hdue => ?_⟩
    · obtain rfl := State.region?_rid hr
      have hexec : exec (.timeSliceExpire r.rid cl core) s = execTimeSliceExpire r.rid cl core s := rfl
      simp only [hexec, execTimeSliceExpire, hr, State.sliceOver_core hslice hclk hhere, hcan]
      rfl
    · have hexec : exec (.shadowSwap cl core) s = execShadowSwap cl core s := rfl
      have hdue' : s.swapDue cl (s.swapSet cl core) = true := hdue
      simp only [hexec, execShadowSwap, hcan, hdue']
      rfl
  case spill =>
    exact ⟨shadowFill_filled _ rfl, shadowFill_spilling _ rfl, shadowFill_begins, spill_dirty _ rfl, spill_spilling _ rfl⟩
  case gang =>
    intro gid g hg hover htasks hwork
    have hexec : exec (.gangRetire gid) s = execGangRetire gid s := rfl
    simp only [hexec, execGangRetire, hg, hover, htasks, hwork]
    rfl
  case region =>
    intro rid r hr hroot hretire hlaunch hchild hwaves
    have hexec : exec (.regionRetire rid) s = execRegionRetire rid s := rfl
    simp only [hexec, execRegionRetire, hr, decide_eq_true hroot, hretire, hlaunch, hchild, hwaves]
    rfl

end Sys2Proof.Machine
end

section
/-!
PROOF. Mask instructions (R175 to R178), loads and stores (R200 to R205, R427), segments and control registers (R73, R451), the checks and translations at which
memory accesses stop (R63, R69, R189, R199, R201, R206, R213, R426, R427), and the state after reset.
-/

namespace Sys2Proof.Machine

/-! ## The checks of an access (R63) -/

/-- The first check of an access passes where it stands in bounds. -/
theorem inBounds_iff (s : State) (w : Wave) (seg o n : Nat) :
    inBounds s w seg o n ↔ (segLimit (w.seg seg) < o + n || s.outside w seg ((segBaseOf (w.seg seg) + o) % 2 ^ 56) n) = false := by
  simp only [inBounds, State.outside, Bool.or_eq_false_iff, decide_eq_false_iff_not, not_lt]
  refine and_congr_right (fun _ => ?_)
  by_cases hseg : 2 ≤ seg ∧ seg ≤ 4 <;> simp [hseg]

theorem misaligned_eq_false_iff (w : Wave) (seg o n align : Nat) : w.misaligned seg o n align = false ↔ aligned w seg o n align := by
  simp only [aligned, Wave.misaligned, Bool.or_eq_false_iff, Bool.and_eq_false_iff, decide_eq_false_iff_not]
  by_cases hal : align = 0 <;> by_cases hn : n ≤ 32 <;> simp [hal, hn, imp_iff_not_or]

section
variable {s : State} {w : Wave} {lane seg o n align : Nat} {write : Bool}

theorem State.locate_beyond (h : ¬inBounds s w seg o n) : s.locate w lane seg o n write align = .error ⟨fcSegLimit, offInfo seg o⟩ := by
  rw [inBounds_iff, Bool.not_eq_false] at h
  exact if_pos h

theorem State.locate_inBounds (h : inBounds s w seg o n) : s.locate w lane seg o n write align =
    if write && !segWr (w.seg seg) then .error ⟨fcPermission, offInfo seg o⟩
    else if w.misaligned seg o n align then .error ⟨fcMisalign, offInfo seg o⟩ else s.resolveN w lane seg o write n :=
  if_neg (Bool.eq_false_iff.mp ((inBounds_iff ..).mp h))

theorem State.locate_barred (h : inBounds s w seg o n) (hwrite : write = true) (hwr : ¬segWr (w.seg seg) = true) :
    s.locate w lane seg o n write align = .error ⟨fcPermission, offInfo seg o⟩ := by
  rw [State.locate_inBounds h, if_pos (by simp [hwrite, hwr])]

theorem State.locate_permitted (h : inBounds s w seg o n) (hwr : write = true → segWr (w.seg seg) = true) : s.locate w lane seg o n write align =
    if w.misaligned seg o n align then .error ⟨fcMisalign, offInfo seg o⟩ else s.resolveN w lane seg o write n := by
  rw [State.locate_inBounds h, if_neg (by simpa using hwr)]

theorem State.locate_misaligned (h : inBounds s w seg o n) (hwr : write = true → segWr (w.seg seg) = true) (hal : ¬aligned w seg o n align) :
    s.locate w lane seg o n write align = .error ⟨fcMisalign, offInfo seg o⟩ := by
  rw [State.locate_permitted h hwr, if_pos (by rwa [← misaligned_eq_false_iff, Bool.not_eq_false] at hal)]

/-- An access that passes the checks of its segment goes on to its addresses. -/
theorem State.locate_aligned (h : inBounds s w seg o n) (hwr : write = true → segWr (w.seg seg) = true) (hal : aligned w seg o n align) :
    s.locate w lane seg o n write align = s.resolveN w lane seg o write n := by
  rw [State.locate_permitted h hwr, if_neg (by simp [(misaligned_eq_false_iff ..).mpr hal])]

end

/-- The wave of a packet that there is, with the segments as a lane's instruction first found them. -/
theorem issuedOf_eq {c : Ctx} {s : State} (hw : (s.wave? c.uid).isSome) (l : Nat) : issuedOf c s l = (waveOf c s).atIssue l := by
  simp [issuedOf, State.issued?, wave?_of_isSome hw]

theorem State.access_eq {c : Ctx} {s : State} (hw : (s.wave? c.uid).isSome) (f : MemFn) (l : Nat) (write : Bool) (align : Nat) :
    s.access c f l write align = s.locate (issuedOf c s l) l f.seg.toNat (s.memOffset c f l) (szBytes f.sz) write align := by
  simp only [State.access, issuedOf_eq hw, wave?_of_isSome hw]

/-! ## The lane of a load, a store and an atomic -/

section
variable {c : Ctx} {f : MemFn} {s : State} {l : Nat}

theorem State.fetched_fault {e : LFault} (h : s.access c f l false 0 = .error e) : s.fetched c f l = .error e := by
  simp only [State.fetched, h]

/-- A read whose access passes its checks has its places, once no byte of a peer is missing (R427). -/
theorem State.fetched_places {ls : List (Nat × Loc)} (h : s.access c f l false 0 = .ok ls) (hm : s.missing ls = none) : s.fetched c f l = .ok ls := by
  simp only [State.fetched, h, State.absent, hm, Option.map_none]

theorem ldLane_fault {e : LFault} (h : s.access c f l false 0 = .error e) : ldLane f c s l = (s, .fault e) := by
  simp only [ldLane, State.fetched_fault h]

theorem ldUni_fault {e : LFault} (h : s.access c f l false 0 = .error e) : ldUni f c s l = (s, .error e) := by
  simp only [ldUni, State.fetched_fault h]

theorem stLane_fault {e : LFault} (h : s.access c f l true 0 = .error e) : stLane f c s l = (s, .fault e) := by
  simp only [stLane, h]

theorem atomLane_fault {ret : Bool} {e : LFault} (h : s.access c f l true (szBytes f.sz) = .error e) : atomLane f ret c s l = (s, .fault e) := by
  simp only [atomLane, h]

end

/-! ## LD and LDX, each by the condition that chooses its lane -/

theorem exec_ld_perLane {h : Hdr} (hu : h.u = false) (f : MemFn) (x : BitVec 64) (s : State) :
    exec (.ld h f x) s = .next (runPacket (enc 0x80 h (memFnBits f) x) (memWise (ldLane f)) s) := by
  change execLd h f x s = _
  simp only [execLd, hu, Bool.false_eq_true, if_false]

theorem exec_ld_uniform {h : Hdr} (hu : h.u = true) (f : MemFn) (x : BitVec 64) (s : State) :
    exec (.ld h f x) s = .next (runPacket (enc 0x80 h (memFnBits f) x) (uniMem (ldUni f)) s) := by
  change execLd h f x s = _
  simp only [execLd, hu, if_true]

theorem exec_ldx_plain {h : Hdr} {x : BitVec 64} (hx : ¬(h.len = .w128 ∧ bitAt x.toNat 63 = true)) (f : MemFn) (s : State) :
    exec (.ldx h f x) s = .next (runPacket (enc 0x82 h (memFnBits f) x) (memWise (ldLane f)) s) := by
  change execLdx h f x s = _
  have hcond : (decide (h.len = .w128) && bitAt x.toNat 63) = false := by simpa using hx
  simp only [execLdx, hcond, Bool.false_eq_true, if_false]
  rfl

theorem exec_ldx_ahead {h : Hdr} {x : BitVec 64} (hlen : h.len = .w128) (hx : bitAt x.toNat 63 = true) (f : MemFn) (s : State) :
    exec (.ldx h f x) s = .next (runPacket (enc 0x82 h (memFnBits f) x) (memWise (aheadLane f)) s) := by
  change execLdx h f x s = _
  simp only [execLdx, hlen, hx, decide_true, Bool.and_self, if_true]
  rfl

/-! ## Masks (R175 to R178) -/

theorem Does.congr_post {i : Instr} {P : Ctx → State → Nat → Prop} {f : Ctx → State → Nat → State × LaneOut} {post post' : Ctx → State → State}
    (h : Does i P f post) (hp : ∀ c s, post c s = post' c s) : Does i P f post' := by
  obtain rfl : post = post' := by funext c s; exact hp c s
  exact h

theorem DoesOnce.congr_post {i : Instr} {P : Ctx → State → Nat → Prop} {f : Ctx → State → Nat → State × UniOut} {post post' : Ctx → State → State}
    (h : DoesOnce i P f post) (hp : ∀ c s, post c s = post' c s) : DoesOnce i P f post' := by
  obtain rfl : post = post' := by funext c s; exact hp c s
  exact h

/-- The value that MSET gives its mask, by the cases of its code (R176). -/
theorem msetVal_eq (code : BitVec 8) (four m0 : LaneMask) :
    (match code.toNat with | 0 => four | 1 => 0 | _ => m0) = if code = 0 then four else if code = 1 then 0 else m0 := by
  by_cases h0 : code = 0
  · subst h0; rfl
  by_cases h1 : code = 1
  · subst h1; rfl
  · rw [if_neg h0, if_neg h1]
    split
    · next h => exact absurd (BitVec.eq_of_toNat_eq h) h0
    · next h => exact absurd (BitVec.eq_of_toNat_eq h) h1
    · rfl

/-- A member of a mask that arrives at its site, or where it has none, waits there (R177). -/
theorem mwaitLane_waits {m : Nat} {c : Ctx} {s : State} {l : Nat} (hw : (s.wave? c.uid).isSome) (hm : inMask ((waveOf c s).mask m) l = true)
    (hs : (Sparse.get none (waveOf c s).msite m).getD c.pc = c.pc) : mwaitLane m c s l =
      (s.updWave c.uid (fun w => { w with msite := Sparse.put none w.msite m (some c.pc) }), .ok { st := some (.syncWait (.mask m) c.next c.e.h.s) }) := by
  simp [mwaitLane, wave?_of_isSome hw, hm, hs]

/-- Settles O12: the lanes of the instructions that write a mask complete with nothing of their own, and the write follows them. -/
theorem masksComplete : Obligations.MasksComplete := by
  refine ⟨?writes, fun h f x => ?mwait⟩
  case mwait => exact Does.of_lane rfl (fun _ => rfl) (fun c s l hc _ ⟨hw, hm, hs⟩ => by rw [mwaitLane_waits hw hm hs, hc])
  intro h f x after
  refine ⟨?mjoin, ?mleave, ?mset, fun hf => ?mops, fun hf => ?rd, fun hf => ?cnt⟩
  case mjoin => exact Does.of_pure rfl (fun _ => rfl) (fun _ _ _ _ _ => rfl)
  case mleave => exact Does.of_pure rfl (fun _ => rfl) (fun _ _ _ _ _ => rfl)
  case mset =>
    refine Does.congr_post (Does.of_pure rfl (fun _ => rfl) (fun _ _ _ _ _ => rfl)) (fun c s => ?_)
    simp only [after]
    cases s.wave? c.uid with
    | none => rfl
    | some w => exact congrArg (s.writeMask c.uid h.d.toNat) (msetVal_eq f.code (s.mask4 c.uid h.a.toNat) w.m0)
  case mops =>
    refine DoesOnce.congr_post (DoesOnce.of_uni rfl (fun _ => rfl) (fun c s l _ _ _ => ?_)) (fun c s => ?_)
    · simp only
      split
      · omega
      · omega
      · rfl
    · simp only [after]
      cases s.wave? c.uid with
      | none => rfl
      | some w => exact if_pos hf
  case rd | cnt =>
    refine DoesOnce.congr_post (DoesOnce.of_uni rfl (fun _ => rfl) (fun c s l _ _ _ => ?_)) (fun c s => ?_)
    · rw [hf]; rfl
    · rw [hf]; cases s.wave? c.uid <;> rfl

/-! ## Loads (R200, R202) -/

/-- A lane's load whose access passes its checks and whose bytes have come. -/
theorem ldLane_reads {f : MemFn} {c : Ctx} {s : State} {l : Nat} {ls : List (Nat × Loc)} (h : s.access c f l false 0 = .ok ls) (hm : s.missing ls = none) :
    ldLane f c s l = ((s.loaded c f State.updReader [l] ls).1,
      .ok { regs := regWrites l .v c.e.h.d.toNat (szCount f.sz) (loadVal f.sz (s.loaded c f State.updReader [l] ls).2), ue := s.ueAt ls, st := admitted c }) := by
  simp only [ldLane, State.fetched_places h hm]

/-- Settles O15: an access that passes its checks, with its bytes come, takes the one branch of `ldLane` or of `ldUni` that reads. -/
theorem loadsComplete : Obligations.LoadsComplete := by
  intro h f x ls locs passes loads once
  have hlane : ∀ c s l, c.e.h = h → passes c s l → ldLane f c s l = ((loads c s l).1, .ok (loads c s l).2) := by
    rintro c s l rfl ⟨hacc, hm⟩
    rw [ldLane_reads hacc hm]
    rfl
  have huni : ∀ c s l, c.e.h = h → passes c s l → ldUni f c s l = ((once c s l).1, .ok (once c s l).2) := by
    rintro c s l rfl ⟨hacc, hm⟩
    simp only [ldUni, State.fetched_places hacc hm]
    rfl
  refine ⟨fun hu => ?ld, fun hu => ?ldUniform, fun hx => ?ldx, ?ldc⟩
  case ld => exact DoesMem.of_lane rfl (exec_ld_perLane hu f x) (fun c s l hc _ hp => hlane c s l (by rw [hc]) hp)
  case ldUniform => exact DoesOnceMem.of_uni rfl (exec_ld_uniform hu f x) (fun c s l hc _ hp => huni c s l (by rw [hc]) hp)
  case ldx => exact DoesMem.of_lane rfl (exec_ldx_plain hx f) (fun c s l hc _ hp => hlane c s l (by rw [hc]) hp)
  case ldc => exact DoesOnceMem.of_uni rfl (fun _ => rfl) (fun c s l hc _ hp => huni c s l (by rw [hc]) hp)

/-! ## Stores (R203) -/

/-- Settles O16: an access that passes its checks takes the one branch of `stLane` that writes; the bytes on peers, or none, choose the wait. -/
theorem storesComplete : Obligations.StoresComplete := by
  intro h f x ls locs data passes away written asked stores
  have hlane : ∀ c s l, c.e.h = h → passes c s l → stLane f c s l = ((stores c s l).1, .ok (stores c s l).2) := by
    rintro c s l rfl hacc
    have hput : stLane f c s l = s.put c f l (ls c l) (data c s l) := by
      simp only [stLane, show s.access c f l true 0 = .ok (ls c l) from hacc]
      rfl
    have hst : (if (away c s l).isEmpty then admitted c else some (.admission .peer c.e.h.s)) =
        some (.admission (if (away c s l).isEmpty then .checks else .peer) c.e.h.s) := by
      cases (away c s l).isEmpty <;> rfl
    rw [hput]
    exact congrArg (fun st => ((stores c s l).1, LaneRes.ok { st := st })) hst
  refine ⟨?st, ?stx⟩
  case st | stx => exact DoesMem.of_lane rfl (fun _ => rfl) (fun c s l hc _ hp => hlane c s l (by rw [hc]) hp)

/-! ## Segments and control registers (R73, R451) -/

/-- A control register that exists and that the region may reach passes the checks of CSRRD and CSRWR. -/
theorem withCsr_reaches {c : Ctx} {s : State} {a : Nat} {sh : CsrShape} (ha : s.readRegs c.uid 0 .s c.e.h.a.toNat 1 = a) (hsh : csrShape a = some sh)
    (hmay : s.csrAllowed (s.ridOf c.uid) a = true) (g : Bool → Nat → CsrShape → State × Except LFault UniOut) :
    withCsr c s g = g (decide (s.ridOf c.uid = 0)) a sh := by
  simp only [withCsr, ha, hsh, hmay, if_true]

/-- Settles O32: SEGLD and SEGRD have no check of their own, and CSRRD and CSRWR share theirs. -/
theorem segmentAndControlRegistersComplete : Obligations.SegmentAndControlRegistersComplete := by
  intro h f x sh addr csr
  refine ⟨?segld, ?segrd, ?csrrd, ?csrwr⟩
  case segld => exact DoesOnceMem.of_uni rfl (fun _ => rfl) (fun _ _ _ _ _ _ => rfl)
  case segrd =>
    refine DoesOnceMem.of_uni rfl (fun _ => rfl) (fun c s l _ _ hw => ?_)
    simp only [wave?_of_isSome hw]
    rfl
  case csrrd => exact DoesOnceMem.of_uni rfl (fun _ => rfl) (fun c s l hc _ ⟨hsh, hmay⟩ => withCsr_reaches (by rw [hc]) hsh hmay _)
  case csrwr => exact DoesOnceMem.of_uni rfl (fun _ => rfl) (fun c s l hc _ ⟨hsh, hmay⟩ => withCsr_reaches (by rw [hc]) hsh hmay _)

/-! ## Pages (R426, R427) -/

section
variable {l : Leaf} {r : Region} {va : Nat} {write : Bool}

theorem Leaf.check_partition (hpart : r.part.isSome = true ∧ l.part ≠ r.part.getD 0) : l.check r va write = .error ⟨fcPermission, va⟩ :=
  if_pos (by simpa using hpart)

/-- A page of the region's partition goes on to the check of its writes. -/
theorem Leaf.check_here (hpart : ¬(r.part.isSome = true ∧ l.part ≠ r.part.getD 0)) :
    l.check r va write = if write && (l.ro || l.shared) then .error ⟨if l.cow then fcCowWrite else fcPermission, va⟩ else l.loc r va :=
  if_neg (by simpa using hpart)

theorem Leaf.loc_notInstalled (hrem : l.rem = false) (ha : installed ≤ l.addr + va % 2 ^ lvlShift l.lvl) : l.loc r va = .error ⟨fcNotPresent, va⟩ := by
  simp only [Leaf.loc, hrem, Bool.false_eq_true, if_false]
  exact if_neg (Nat.not_lt.mpr ha)

theorem Leaf.loc_noMember (hrem : l.rem = true) (hgrp : (r.grpActive && l.peer < r.cgsz) = false) : l.loc r va = .error ⟨fcPermission, va⟩ := by
  simp only [Leaf.loc, hrem, hgrp, if_true, Bool.false_eq_true, if_false]

end

/-! ## The run-ahead LDX (R201, R206) -/

/-- The state once a lane of a run-ahead LDX has joined its group. -/
def State.joinedGroup (s : State) (c : Ctx) (l : Nat) : State :=
  let k := bitsAt c.e.x.toNat 56 4
  s.updWave c.uid (fun w =>
    { w with jg := Sparse.put 0 w.jg k (setLane (Sparse.get 0 (waveOf c s).jg k) l true), jsite := Sparse.put 0 w.jsite k (joinSite c) })

/-- A lane may join its run-ahead group: its token is free, and the group is empty or of the lane's own site. -/
def mayJoin (c : Ctx) (s : State) (l : Nat) : Prop :=
  let k := bitsAt c.e.x.toNat 56 4
  (waveOf c s).tokPending k l = false ∧ (Sparse.get 0 (waveOf c s).jg k = 0 ∨ Sparse.get 0 (waveOf c s).jsite k = joinSite c)

section
variable {c : Ctx} {f : MemFn} {s : State} {l : Nat}

theorem aheadLane_refused (hw : (s.wave? c.uid).isSome) (hj : ¬mayJoin c s l) : aheadLane f c s l = (s, .fault illegal7) := by
  simp only [aheadLane, wave?_of_isSome hw]
  refine if_pos ?_
  simpa [mayJoin, or_iff_not_imp_left] using hj

/-- A lane that joins its group meets uncorrectable data: what it has read stands in its view, and its token stays clear. -/
theorem aheadLane_uncorrectable {ls : List (Nat × Loc)} {a : Nat} (hw : (s.wave? c.uid).isSome) (hj : mayJoin c s l)
    (hacc : (s.joinedGroup c l).access c f l false 0 = .ok ls) (hm : (s.joinedGroup c l).missing ls = none) (hue : (s.joinedGroup c l).ueAt ls = some a) :
    aheadLane f c s l = (((s.joinedGroup c l).loaded c f State.updReader [] ls).1, .fault ⟨fcMemUe, a⟩) := by
  have hfetched := State.fetched_places hacc hm
  simp only [State.joinedGroup] at hfetched hue ⊢
  simp only [aheadLane, wave?_of_isSome hw]
  rw [if_neg (by simpa [mayJoin, or_iff_not_imp_left] using hj)]
  simp only [hfetched, hue]

end

/-! ## LDMC (R213) -/

/-- The fault of the destinations of an LDMC, or of its token, the checks in their order (log 63). -/
def ldmcDestFail (s : State) (w : Wave) (ds : List (Nat × Nat)) (tok l : Nat) : Option LFault :=
  if ∃ d ∈ ds, 47 < d.1 then some illegal7
  else
    match ds.find? (fun d => !s.inPart w.rid d.1) with
    | some d => some ⟨fcPermission, d.1 + d.2 % 4 * 2 ^ 6⟩
    | none => if w.tokPending tok l = true then some illegal7 else none

/-- The fault of a lane of an LDMC, the checks in their order (log 63). -/
def ldmcFail (h : Hdr) (f : MemFn) (x : BitVec 64) (c : Ctx) (s : State) (l : Nat) : Option LFault :=
  let seg := f.seg.toNat
  let size := 128 * (bitsAt x.toNat 38 6 + 1)
  let o := s.memOffset c f l
  let g := (issuedOf c s l).seg seg
  let a := (segBaseOf g + o) % 2 ^ 56
  if segLimit g < o + size then some ⟨fcSegLimit, offInfo seg o⟩
  else if ¬(o % 128 = 0 ∧ a / 8192 = (a + (size - 1)) / 8192) then some ⟨fcMisalign, offInfo seg o⟩
  else
    match s.translate (waveOf c s).rid a false with
    | .error e => some e
    | .ok _ =>
      ldmcDestFail s (waveOf c s) (mcastDests (s.readRegs c.uid 0 .s (bitsAt x.toNat 44 8) 2) (bitsAt x.toNat 58 6) (bitsAt x.toNat 54 4)) h.d.toNat l

/-- The destinations of an LDMC fail beyond the clusters, outside the partition, or at the token. -/
theorem ldmcDestFail_eq_some {s : State} {w : Wave} {ds : List (Nat × Nat)} {tok l : Nat} {e : LFault} (he : ldmcDestFail s w ds tok l = some e) :
    (∃ d ∈ ds, 47 < d.1) ∧ e = illegal7 ∨
      (¬∃ d ∈ ds, 47 < d.1) ∧ (∃ d, ds.find? (fun d => !s.inPart w.rid d.1) = some d ∧ e = ⟨fcPermission, d.1 + d.2 % 4 * 2 ^ 6⟩) ∨
      (¬∃ d ∈ ds, 47 < d.1) ∧ ds.find? (fun d => !s.inPart w.rid d.1) = none ∧ w.tokPending tok l = true ∧ e = illegal7 := by
  unfold ldmcDestFail at he
  split at he
  · next hfar => cases he; exact .inl ⟨hfar, rfl⟩
  · next hnear =>
    split at he
    · next d hd => cases he; exact .inr (.inl ⟨hnear, d, hd, rfl⟩)
    · next hin =>
      split at he
      · next htok => cases he; exact .inr (.inr ⟨hnear, hin, htok, rfl⟩)
      · cases he

/-- A lane of an LDMC that fails a check has no effect. -/
theorem ldmcLane_fails {h : Hdr} {f : MemFn} {x : BitVec 64} {c : Ctx} {s : State} {l : Nat} {e : LFault} (hc : c.e = enc 0x87 h (memFnBits f) x)
    (hw : (s.wave? c.uid).isSome) (hg : s.granted 7 = true) (he : ldmcFail h f x c s l = some e) : ldmcLane f c s l = (s, .fault e) := by
  simp only [ldmcLane, wave?_of_isSome hw, hg, ← issuedOf_eq hw, hc, enc]
  simp only [ldmcFail] at he
  split_ifs at he with hlimit halign
  · cases he; exact if_pos hlimit
  · rw [if_neg hlimit, if_neg (by simpa using halign)]
    generalize s.translate _ _ _ = read at he ⊢
    cases read with
    | error e' => cases he; rfl
    | ok loc =>
      simp only [List.head?_filter]
      obtain ⟨hfar, rfl⟩ | ⟨hnear, d, hd, rfl⟩ | ⟨hnear, hin, htok, rfl⟩ := ldmcDestFail_eq_some he
      · exact if_pos (by simpa using hfar)
      · rw [if_neg (by simpa using hnear), hd]
      · rw [if_neg (by simpa using hnear), hin]
        exact if_pos htok
  · cases he; rw [if_neg hlimit]; exact if_pos (by simpa [imp_iff_not_or] using halign)

/-- LDMC parks the lanes whose checks fail. -/
theorem ldmc_stops (h : Hdr) (f : MemFn) (x : BitVec 64) {P : Ctx → State → Nat → Prop} {F : Ctx → State → Nat → LFault}
    (hP : ∀ c s l, P c s l → (s.wave? c.uid).isSome ∧ s.granted 7 = true ∧ ldmcFail h f x c s l = some (F c s l)) :
    FaultsMem (.ldmc h f x) P (stopsWith F) :=
  FaultsMem.of_lane rfl (fun _ => rfl) (fun _ _ => rfl) (fun c s l hc hp => by
    obtain ⟨hw, hg, he⟩ := hP c s l hp
    exact ldmcLane_fails hc hw hg he)

/-! ## The stops of memory accesses -/

/-- Settles O37: each check and each translation that fails is one branch of `State.locate`, of a leaf's own check, of `aheadLane` or of `ldmcLane`, which leaves the state
as it was, or, for a run-ahead LDX, its group joined and its read made. -/
theorem memoryAccessesFault : Obligations.MemoryAccessesFault := by
  refine ⟨?access, ?page, ?ahead, ?ldmc⟩
  case access =>
    intro h f x t seg n w o in' info wrOk al beyond barred crosses unmapped stops stopsOnce
    have hbeyond : ∀ write align c s l, beyond c s l → s.access c f l write align = .error ⟨fcSegLimit, offInfo seg (o c s l)⟩ := by
      rintro write align c s l ⟨hw, hin⟩
      rw [State.access_eq hw, State.locate_beyond hin]
    have hbarred : ∀ align c s l, barred c s l → s.access c f l true align = .error ⟨fcPermission, offInfo seg (o c s l)⟩ := by
      rintro align c s l ⟨hw, hin, hwr⟩
      rw [State.access_eq hw, State.locate_barred hin rfl (fun hg => hwr (fun _ => hg))]
    have hcrosses : ∀ write atomic c s l, crosses write atomic c s l →
        s.access c f l write (if atomic then n else 0) = .error ⟨fcMisalign, offInfo seg (o c s l)⟩ := by
      rintro write atomic c s l ⟨hw, hin, hwr, hal⟩
      rw [State.access_eq hw, State.locate_misaligned hin hwr hal]
    have hunmapped : ∀ write atomic c s l, unmapped write atomic c s l → s.access c f l write (if atomic then n else 0) = .error (t c l) := by
      rintro write atomic c s l ⟨hw, hin, hwr, hal, ht⟩
      rw [State.access_eq hw, State.locate_aligned hin hwr hal]
      exact ht
    have hstops : ∀ (i : Instr) (write atomic : Bool),
        (∀ P F, (∀ c s l, P c s l → s.access c f l write (if atomic then n else 0) = .error (F c s l)) → FaultsMem i P (stopsWith F)) →
          stops i write atomic :=
      fun i write atomic hi =>
        ⟨hi _ _ (hbeyond _ _), fun hwrite => hi _ _ (by rw [hwrite]; exact hbarred _), hi _ _ (hcrosses _ _), hi _ _ (hunmapped _ _)⟩
    have hstopsOnce : ∀ i : Instr, (∀ P F, (∀ c s l, P c s l → s.access c f l false 0 = .error (F c s l)) → FaultsOnceMem i P (stopsWith F)) → stopsOnce i :=
      fun i hi => ⟨hi _ _ (hbeyond _ _), hi _ _ (hcrosses false false), hi _ _ (hunmapped false false)⟩
    refine ⟨fun hu => hstops _ _ _ ?ld, fun hu => hstopsOnce _ ?ldUniform, hstopsOnce _ ?ldc, fun hx => hstops _ _ _ ?ldx, hstops _ _ _ ?st, hstops _ _ _ ?stx,
      hstops _ _ _ ?atom, hstops _ _ _ ?red⟩
    case ld => exact fun P F hP => FaultsMem.of_lane rfl (exec_ld_perLane hu f x) (fun _ _ => rfl) (fun c s l _ hp => ldLane_fault (hP c s l hp))
    case ldUniform => exact fun P F hP => FaultsOnceMem.of_uni rfl (exec_ld_uniform hu f x) (fun _ _ => rfl) (fun c s l _ hp => ldUni_fault (hP c s l hp))
    case ldc => exact fun P F hP => FaultsOnceMem.of_uni rfl (fun _ => rfl) (fun _ _ => rfl) (fun c s l _ hp => ldUni_fault (hP c s l hp))
    case ldx => exact fun P F hP => FaultsMem.of_lane rfl (exec_ldx_plain hx f) (fun _ _ => rfl) (fun c s l _ hp => ldLane_fault (hP c s l hp))
    case st | stx => exact fun P F hP => FaultsMem.of_lane rfl (fun _ => rfl) (fun _ _ => rfl) (fun c s l _ hp => stLane_fault (hP c s l hp))
    case atom | red => exact fun P F hP => FaultsMem.of_lane rfl (fun _ => rfl) (fun _ _ => rfl) (fun c s l _ hp => atomLane_fault (hP c s l hp))
  case page =>
    intro l r va write other readOnly
    refine ⟨Leaf.check_partition, fun hpart hro => ?_, fun hpart hro => ?_, Leaf.loc_notInstalled, Leaf.loc_noMember⟩
    · rw [Leaf.check_here hpart, if_pos (by simpa [readOnly] using hro)]
    · rw [Leaf.check_here hpart, if_neg (by simpa [readOnly] using hro)]
  case ahead =>
    intro h f x ls a hlen hx k joined canJoin
    refine ⟨?refused, ?uncorrectable⟩
    case refused =>
      refine FaultsMem.of_lane rfl (exec_ldx_ahead hlen hx f) (fun _ _ => rfl) ?_
      rintro ⟨_, uid, pc, next, all, on⟩ s l rfl ⟨hw, hopen⟩
      exact aheadLane_refused hw hopen
    case uncorrectable =>
      refine FaultsMem.of_lane rfl (exec_ldx_ahead hlen hx f) (fun _ _ => rfl) ?_
      rintro ⟨_, uid, pc, next, all, on⟩ s l rfl ⟨hw, hopen, hacc, hm, hue⟩
      exact aheadLane_uncorrectable hw hopen hacc hm hue
  case ldmc =>
    intro h f x at' t seg size g o a ds runs fits al read info
    have hread : ∀ c s l, read c s l → (s.wave? c.uid).isSome ∧ s.granted 7 = true ∧ ldmcFail h f x c s l = ldmcDestFail s (waveOf c s) (ds c s) h.d.toNat l := by
      rintro c s l ⟨⟨⟨hw, hg⟩, hlimit⟩, hal, hloc⟩
      refine ⟨hw, hg, (if_neg (Nat.not_lt.mpr hlimit)).trans ((if_neg (not_not.mpr hal)).trans ?_)⟩
      rw [hloc]
    refine ⟨?limit, ?alignment, ?translation, ?cluster, fun d => ?partition, ?token⟩
    case limit =>
      exact ldmc_stops h f x (fun c s l ⟨⟨hw, hg⟩, hfits⟩ => ⟨hw, hg, if_pos (Nat.lt_of_not_le (fun hlimit => hfits ⟨⟨hw, hg⟩, hlimit⟩))⟩)
    case alignment =>
      exact ldmc_stops h f x (fun c s l ⟨⟨⟨hw, hg⟩, hlimit⟩, hal⟩ => ⟨hw, hg, (if_neg (Nat.not_lt.mpr hlimit)).trans (if_pos hal)⟩)
    case translation =>
      refine ldmc_stops h f x (fun c s l ⟨⟨⟨hw, hg⟩, hlimit⟩, hal, hloc⟩ => ⟨hw, hg, (if_neg (Nat.not_lt.mpr hlimit)).trans ((if_neg (not_not.mpr hal)).trans ?_)⟩)
      rw [hloc]
    case cluster =>
      refine ldmc_stops h f x (fun c s l ⟨hr, hfar⟩ => ?_)
      obtain ⟨hw, hg, he⟩ := hread c s l hr
      exact ⟨hw, hg, he.trans (if_pos hfar)⟩
    case partition =>
      refine ldmc_stops h f x (fun c s l ⟨hr, hnear, hd⟩ => ?_)
      obtain ⟨hw, hg, he⟩ := hread c s l hr
      refine ⟨hw, hg, he.trans ((if_neg (by simpa using hnear)).trans ?_)⟩
      rw [hd]
    case token =>
      refine ldmc_stops h f x (fun c s l ⟨hr, hok, htok⟩ => ?_)
      obtain ⟨hw, hg, he⟩ := hread c s l hr
      have hin : (ds c s).find? (fun d => !s.inPart (waveOf c s).rid d.1) = none := by
        simpa using fun i j hd => (hok (i, j) hd).2
      refine ⟨hw, hg, he.trans ((if_neg (by simpa using fun i j hd => (hok (i, j) hd).1)).trans ?_)⟩
      rw [hin]
      exact if_pos htok

/-! ## Reset -/

/-- After reset a control register reads its reset value. -/
theorem State.csr_reset (a : Nat) : State.reset.csr a = (csrReset a).toNat := rfl

/-- Settles O58: the fields of the reset state as they stand, and the reset values of three control registers. -/
theorem resetState : Obligations.ResetState := by
  refine ⟨rfl, rfl, rfl, rfl, rfl, rfl, rfl, rfl, rfl, rfl, ?_, ?_, ?_⟩ <;> rw [State.csr_reset] <;> decide

end Sys2Proof.Machine
end

section
/-!
PROOF. The encoding: every FN layout, the common word and the bytes of an instruction read back (R75, R76, R87, R90, R91, R101), and the worked encodings of the spec.
-/

namespace Sys2Proof.Machine

/-! ## The FN layouts (R91)

Each layout is a sum of codes at their places, so a field read from it is a quotient and a remainder that `omega` knows. -/

theorem bitsAt_eq (w lo n : Nat) : bitsAt w lo n = w / 2 ^ lo % 2 ^ n := by
  rw [bitsAt, Nat.shiftRight_eq_div_pow]

theorem b2n_le (b : Bool) : b2n b ≤ 1 := by cases b <;> decide

/-- A bit reads as the Boolean that was written there. -/
theorem bitAt_of_b2n {w i : Nat} {b : Bool} (h : w / 2 ^ i % 2 = b2n b) : bitAt w i = b := by
  rw [bitAt, Nat.testBit_eq_decide_div_mod_eq, h]
  cases b <;> rfl

theorem tyCode_lt (t : Ty) : tyCode t < 16 := by cases t <;> decide
@[simp] theorem tyOf_tyCode (t : Ty) : tyOf (tyCode t) = t := by cases t <;> rfl
theorem ftCode_lt (t : FT) : ftCode t < 4 := by cases t <;> decide
@[simp] theorem ftOf_ftCode (t : FT) : ftOf (ftCode t) = t := by cases t <;> rfl
theorem rndCode_lt (r : Rnd) : rndCode r < 8 := by cases r <;> decide
@[simp] theorem rndOf_rndCode (r : Rnd) : rndOf (rndCode r) = some r := by cases r <;> rfl
theorem cmpCode_lt (c : Cmp) : cmpCode c < 16 := by cases c <;> decide
@[simp] theorem cmpOf_cmpCode (c : Cmp) : cmpOf (cmpCode c) = some c := by cases c <;> rfl
theorem bopCode_lt (b : Bop) : bopCode b < 4 := by cases b <;> decide
@[simp] theorem bopOf_bopCode (b : Bop) : bopOf (bopCode b) = b := by cases b <;> rfl
theorem ordCode_lt (o : MOrd) : ordCode o < 4 := by cases o <;> decide
@[simp] theorem ordOf_ordCode (o : MOrd) : ordOf (ordCode o) = o := by cases o <;> rfl
theorem szCode_lt (z : Size) : szCode z < 16 := by cases z <;> decide
@[simp] theorem szOf_szCode (z : Size) : szOf (szCode z) = some z := by cases z <;> rfl

@[simp] theorem intFnOf_intFnBits (f : IntFn) : intFnOf (intFnBits f) = some f := by
  have hsub := f.sub.isLt
  have hpo := f.po.isLt
  have hsat := b2n_le f.sat
  have hty := tyCode_lt f.ty
  have hn : (intFnBits f).toNat = f.sub.toNat * 512 + f.po.toNat * 64 + b2n f.sat * 16 + tyCode f.ty := Nat.mod_eq_of_lt (by omega)
  unfold intFnOf
  generalize (intFnBits f).toNat = n at hn
  have hbit : bitAt n 4 = f.sat := bitAt_of_b2n (by omega)
  have hfields : bitsAt n 5 1 = 0 ∧ bitsAt n 9 3 = f.sub.toNat ∧ bitsAt n 6 3 = f.po.toNat ∧ bitsAt n 0 4 = tyCode f.ty := by
    simp only [bitsAt_eq]; omega
  simp [hbit, hfields]

@[simp] theorem lutFnOf_lutFnBits (f : LutFn) : lutFnOf (lutFnBits f) = some f := by
  have hlut := f.lut.isLt
  have hn : (lutFnBits f).toNat = f.lut.toNat := Nat.mod_eq_of_lt (by omega)
  have hfields : bitsAt f.lut.toNat 8 4 = 0 ∧ bitsAt f.lut.toNat 0 8 = f.lut.toNat := by
    simp only [bitsAt_eq]; omega
  simp [lutFnOf, hn, hfields]

@[simp] theorem fltFnOf_fltFnBits (f : FltFn) : fltFnOf (fltFnBits f) = some f := by
  have hsub := f.sub.isLt
  have hft := ftCode_lt f.ft
  have haa := b2n_le f.aa
  have hnc := b2n_le f.nc
  have hnb := b2n_le f.nb
  have hna := b2n_le f.na
  have hsat := b2n_le f.sat
  have hrnd := rndCode_lt f.rnd
  have hn : (fltFnBits f).toNat = f.sub.toNat * 1024 + ftCode f.ft * 256 + b2n f.aa * 128 + b2n f.nc * 64 + b2n f.nb * 32 + b2n f.na * 16
      + b2n f.sat * 8 + rndCode f.rnd := Nat.mod_eq_of_lt (by omega)
  unfold fltFnOf
  generalize (fltFnBits f).toNat = n at hn
  have haa' : bitAt n 7 = f.aa := bitAt_of_b2n (by omega)
  have hnc' : bitAt n 6 = f.nc := bitAt_of_b2n (by omega)
  have hnb' : bitAt n 5 = f.nb := bitAt_of_b2n (by omega)
  have hna' : bitAt n 4 = f.na := bitAt_of_b2n (by omega)
  have hsat' : bitAt n 3 = f.sat := bitAt_of_b2n (by omega)
  have hfields : bitsAt n 0 3 = rndCode f.rnd ∧ bitsAt n 10 2 = f.sub.toNat ∧ bitsAt n 8 2 = ftCode f.ft := by
    simp only [bitsAt_eq]; omega
  simp [haa', hnc', hnb', hna', hsat', hfields]

@[simp] theorem cvtFnOf_cvtFnBits (f : CvtFn) : cvtFnOf (cvtFnBits f) = some f := by
  have hst := tyCode_lt f.st
  have hdt := tyCode_lt f.dt
  have hsat := b2n_le f.sat
  have hrnd := rndCode_lt f.rnd
  have hn : (cvtFnBits f).toNat = tyCode f.st * 256 + tyCode f.dt * 16 + b2n f.sat * 8 + rndCode f.rnd := Nat.mod_eq_of_lt (by omega)
  unfold cvtFnOf
  generalize (cvtFnBits f).toNat = n at hn
  have hbit : bitAt n 3 = f.sat := bitAt_of_b2n (by omega)
  have hfields : bitsAt n 0 3 = rndCode f.rnd ∧ bitsAt n 8 4 = tyCode f.st ∧ bitsAt n 4 4 = tyCode f.dt := by
    simp only [bitsAt_eq]; omega
  simp [hbit, hfields]

@[simp] theorem cmpFnOf_cmpFnBits (f : CmpFn) : cmpFnOf (cmpFnBits f) = some f := by
  have hbop := bopCode_lt f.bop
  have hcmp := cmpCode_lt f.cmp
  have hty := tyCode_lt f.ty
  have hn : (cmpFnBits f).toNat = bopCode f.bop * 1024 + cmpCode f.cmp * 16 + tyCode f.ty := Nat.mod_eq_of_lt (by omega)
  unfold cmpFnOf
  generalize (cmpFnBits f).toNat = n at hn
  have hfields : bitsAt n 8 2 = 0 ∧ bitsAt n 4 4 = cmpCode f.cmp ∧ bitsAt n 10 2 = bopCode f.bop ∧ bitsAt n 0 4 = tyCode f.ty := by
    simp only [bitsAt_eq]; omega
  simp [hfields]

@[simp] theorem laneFnOf_laneFnBits (f : LaneFn) : laneFnOf (laneFnBits f) = some f := by
  have hlmod := f.lmod.isLt
  have hlop := f.lop.isLt
  have hty := tyCode_lt f.ty
  have hn : (laneFnBits f).toNat = f.lmod.toNat * 256 + f.lop.toNat * 16 + tyCode f.ty := Nat.mod_eq_of_lt (by omega)
  unfold laneFnOf
  generalize (laneFnBits f).toNat = n at hn
  have hfields : bitsAt n 8 4 = f.lmod.toNat ∧ bitsAt n 4 4 = f.lop.toNat ∧ bitsAt n 0 4 = tyCode f.ty := by
    simp only [bitsAt_eq]; omega
  simp [hfields]

@[simp] theorem codeFnOf_codeFnBits (f : CodeFn) : codeFnOf (codeFnBits f) = some f := by
  have hcode := f.code.isLt
  have hn : (codeFnBits f).toNat = f.code.toNat := Nat.mod_eq_of_lt (by omega)
  have hfields : bitsAt f.code.toNat 8 4 = 0 ∧ bitsAt f.code.toNat 0 8 = f.code.toNat := by
    simp only [bitsAt_eq]; omega
  simp [codeFnOf, hn, hfields]

@[simp] theorem memFnOf_memFnBits (f : MemFn) : memFnOf (memFnBits f) = some f := by
  have hxs := b2n_le f.xs
  have hord := ordCode_lt f.ord
  have hhint := f.hint.isLt
  have hsz := szCode_lt f.sz
  have hseg := f.seg.isLt
  have hn : (memFnBits f).toNat = b2n f.xs * 2048 + ordCode f.ord * 512 + f.hint.toNat * 128 + szCode f.sz * 8 + f.seg.toNat :=
    Nat.mod_eq_of_lt (by omega)
  unfold memFnOf
  generalize (memFnBits f).toNat = n at hn
  have hbit : bitAt n 11 = f.xs := bitAt_of_b2n (by omega)
  have hfields : bitsAt n 3 4 = szCode f.sz ∧ bitsAt n 9 2 = ordCode f.ord ∧ bitsAt n 7 2 = f.hint.toNat ∧ bitsAt n 0 3 = f.seg.toNat := by
    simp only [bitsAt_eq]; omega
  simp [hbit, hfields]

@[simp] theorem engFnOf_engFnBits (f : EngFn) : engFnOf (engFnBits f) = some f := by
  have hsub := f.sub.isLt
  have hty := tyCode_lt f.ty
  have hn : (engFnBits f).toNat = f.sub.toNat * 16 + tyCode f.ty := Nat.mod_eq_of_lt (by omega)
  unfold engFnOf
  generalize (engFnBits f).toNat = n at hn
  have hfields : bitsAt n 4 8 = f.sub.toNat ∧ bitsAt n 0 4 = tyCode f.ty := by
    simp only [bitsAt_eq]; omega
  simp [hfields]

/-! ## The common word (R76) -/

theorem toNat_append_eq {v w : Nat} (a : BitVec v) (b : BitVec w) : (a ++ b).toNat = a.toNat * 2 ^ w + b.toNat := by
  rw [BitVec.toNat_append, ← Nat.shiftLeft_add_eq_or_of_lt b.isLt, Nat.shiftLeft_eq]

theorem toNat_ofBool_eq_b2n (b : Bool) : (BitVec.ofBool b).toNat = b2n b := by cases b <;> rfl

theorem extractLsb'_of_toNat {v n lo : Nat} {w : BitVec v} {y : BitVec n} (h : w.toNat / 2 ^ lo % 2 ^ n = y.toNat) : w.extractLsb' lo n = y :=
  BitVec.eq_of_toNat_eq (by rw [BitVec.extractLsb'_toNat, Nat.shiftRight_eq_div_pow, h])

/-- The layout of the common word (R76), as a number. -/
theorem Enc.toNat_bits (e : Enc) : e.bits.toNat =
    e.x.toNat * 2 ^ 64 + e.h.mx.toNat * 2 ^ 60 + e.fn.toNat * 2 ^ 48 + e.h.c.toNat * 2 ^ 40 + e.h.b.toNat * 2 ^ 32 + e.h.a.toNat * 2 ^ 24 +
      e.h.d.toNat * 2 ^ 16 + b2n e.h.pn * 2 ^ 15 + e.h.pg.toNat * 2 ^ 12 + e.op.toNat * 2 ^ 4 + b2n e.h.u * 2 ^ 3 + b2n e.h.s * 2 ^ 2 + lenCode e.h.len := by
  have hlen : (BitVec.ofNat 2 (lenCode e.h.len)).toNat = lenCode e.h.len := by cases e.h.len <;> rfl
  unfold Enc.bits
  repeat rw [toNat_append_eq]
  simp only [toNat_ofBool_eq_b2n, hlen]
  omega

theorem lenCode_lt (l : Len) : lenCode l < 4 := by cases l <;> decide

@[simp] theorem lenOf_lenCode (l : Len) : lenOf (lenCode l) = some l := by cases l <;> rfl

/-- The length's bits are all of bits 127:64. -/
theorem Enc.lenMask_of_lenBitsOk {e : Enc} (h : e.lenBitsOk = true) : lenMask e.h.len e.x = e.x := by
  unfold Enc.lenBitsOk at h
  cases hl : e.h.len with
  | w64 =>
    rw [hl] at h
    exact (of_decide_eq_true h).symm
  | w96 =>
    rw [hl] at h
    refine BitVec.eq_of_toNat_eq ?_
    rw [lenMask, BitVec.toNat_and]
    exact (Nat.and_two_pow_sub_one_eq_mod _ 32).trans (Nat.mod_eq_of_lt (of_decide_eq_true h))
  | w128 => rfl

theorem Enc.ofBits_bits {e : Enc} (h : e.lenBitsOk = true) : Enc.ofBits e.bits = some e := by
  have hw := e.toNat_bits
  have hpn := b2n_le e.h.pn
  have hu := b2n_le e.h.u
  have hs := b2n_le e.h.s
  have hlen := lenCode_lt e.h.len
  unfold Enc.ofBits
  generalize e.bits = w at hw
  have hlen' : (w.extractLsb' 0 2).toNat = lenCode e.h.len := by
    rw [BitVec.extractLsb'_toNat, Nat.shiftRight_eq_div_pow]; omega
  have hs' : w.getLsbD 2 = e.h.s := bitAt_of_b2n (by omega)
  have hu' : w.getLsbD 3 = e.h.u := bitAt_of_b2n (by omega)
  have hop : w.extractLsb' 4 8 = e.op := extractLsb'_of_toNat (by omega)
  have hpg : w.extractLsb' 12 3 = e.h.pg := extractLsb'_of_toNat (by omega)
  have hpn' : w.getLsbD 15 = e.h.pn := bitAt_of_b2n (by omega)
  have hd : w.extractLsb' 16 8 = e.h.d := extractLsb'_of_toNat (by omega)
  have ha : w.extractLsb' 24 8 = e.h.a := extractLsb'_of_toNat (by omega)
  have hb : w.extractLsb' 32 8 = e.h.b := extractLsb'_of_toNat (by omega)
  have hc : w.extractLsb' 40 8 = e.h.c := extractLsb'_of_toNat (by omega)
  have hfn : w.extractLsb' 48 12 = e.fn := extractLsb'_of_toNat (by omega)
  have hmx : w.extractLsb' 60 4 = e.h.mx := extractLsb'_of_toNat (by omega)
  have hx : w.extractLsb' 64 64 = e.x := extractLsb'_of_toNat (by omega)
  simp only [hlen', lenOf_lenCode, hs', hu', hop, hpg, hpn', hd, ha, hb, hc, hfn, hmx, hx, e.lenMask_of_lenBitsOk h]

/-- The bits lie inside the bytes of the length. -/
theorem Enc.toNat_bits_lt {e : Enc} (h : e.lenBitsOk = true) : e.bits.toNat < 256 ^ lenBytes e.h.len := by
  have hw := e.toNat_bits
  have hpn := b2n_le e.h.pn
  have hu := b2n_le e.h.u
  have hs := b2n_le e.h.s
  have hlen := lenCode_lt e.h.len
  unfold Enc.lenBitsOk at h
  cases hl : e.h.len with
  | w64 =>
    rw [hl] at h
    have hx : e.x.toNat = 0 := by rw [of_decide_eq_true h]; rfl
    simp only [lenBytes]; omega
  | w96 =>
    rw [hl] at h
    have hx := of_decide_eq_true h
    simp only [lenBytes]; omega
  | w128 => exact e.bits.isLt

/-! ## Bytes -/

@[simp] theorem leBytes_length (n x : Nat) : (leBytes n x).length = n := by
  induction n generalizing x with
  | zero => rfl
  | succ n ih => rw [leBytes, List.length_cons, ih]

theorem leNat_leBytes (n x : Nat) : leNat (leBytes n x) = x % 256 ^ n := by
  induction n generalizing x with
  | zero => rw [pow_zero, Nat.mod_one]; rfl
  | succ n ih =>
    have hhead : (BitVec.ofNat 8 x).toNat = x % 256 := rfl
    rw [leBytes, leNat, ih, hhead, Nat.pow_succ', Nat.mod_mul]

theorem firstLen_leBytes {n x : Nat} (hn : n ≠ 0) (ys : List Byte) : firstLen (leBytes n x ++ ys) = lenOf (x % 4) := by
  obtain ⟨n, rfl⟩ := Nat.exists_eq_succ_of_ne_zero hn
  have hlow : bitsAt (x % 256) 0 2 = x % 4 := by rw [bitsAt, Nat.shiftRight_zero]; omega
  exact congrArg lenOf hlow

theorem decodeBytes_of_firstLen {bs : List Byte} {l : Len} {i : Instr} (hlen : firstLen bs = some l) (hn : lenBytes l ≤ bs.length)
    (hword : decodeWord (BitVec.ofNat 128 (leNat (bs.take (lenBytes l)))) = .ok i) : decodeBytes bs = .ok (i, bs.drop (lenBytes l)) := by
  cases bs with
  | nil => cases hlen
  | cons b bs => simp only [decodeBytes, hlen, if_neg (Nat.not_lt.mpr hn), hword]

/-- The bytes of a field form, and others after them, decode as its bits. -/
theorem decodeBytes_leBytes_bits {e : Enc} {i : Instr} (h : e.lenBitsOk = true) (hword : decodeWord e.bits = .ok i) (rest : List Byte) :
    decodeBytes (leBytes (lenBytes e.h.len) e.bits.toNat ++ rest) = .ok (i, rest) := by
  have hpos : lenBytes e.h.len ≠ 0 := by cases e.h.len <;> decide
  have hlow : e.bits.toNat % 4 = lenCode e.h.len := by
    have hlen := lenCode_lt e.h.len
    rw [e.toNat_bits]; omega
  have hfirst : firstLen (leBytes (lenBytes e.h.len) e.bits.toNat ++ rest) = some e.h.len := by
    rw [firstLen_leBytes hpos, hlow, lenOf_lenCode]
  have hback : BitVec.ofNat 128 (leNat (leBytes (lenBytes e.h.len) e.bits.toNat)) = e.bits := by
    rw [leNat_leBytes, Nat.mod_eq_of_lt (Enc.toNat_bits_lt h), BitVec.ofNat_toNat, BitVec.setWidth_eq]
  have hlength := leBytes_length (lenBytes e.h.len) e.bits.toNat
  rw [decodeBytes_of_firstLen hfirst (by simp) (by rw [List.take_left' hlength, hback, hword]), List.drop_left' hlength]

/-! ## Instructions -/

/-- The two digits of the opcode pick the arm, and FN reads back; where constructors share an opcode, SUB picks one of them. -/
theorem instrOf_of_encOf {i : Instr} {e : Enc} (h : encOf i = some e) (hsub : subOk i = true) : instrOf e = some i := by
  unfold instrOf
  cases i <;> cases h <;> dsimp only [BitVec.reduceToNat, Nat.reduceDiv, Nat.reduceMod]
  case' rcbopReg.refl | rcbopRet.refl | rcbopUpd.refl | rcbopQry.refl | rcbopAdr.refl | tlbopVa.refl | tlbopAll.refl | tlbopSva.refl | tlbopSid.refl |
      tlbopPart.refl | svcallAtt.refl | svcallCert.refl | wtblSync.refl | wtblUnpin.refl =>
    change Option.bind _ _ = _
    simp [of_decide_eq_true hsub]
  all_goals
    change Option.map _ _ = _
    simp

/-- An instruction that passes checks 1 to 4 has no bits beyond its length. -/
theorem Enc.lenBitsOk_of_failing {e : Enc} (h : e.failing = none) : e.lenBitsOk = true := by
  unfold Enc.failing at h
  split at h
  · cases h
  · next sh _ =>
    cases hc : e.check2 sh with
    | false => simp [hc] at h
    | true =>
      simp only [Enc.check2, Bool.and_eq_true] at hc
      obtain ⟨⟨⟨hbits, -⟩, -⟩, -⟩ := hc
      exact hbits

theorem wellFormed_iff {i : Instr} : wellFormed i = true ↔ ∃ e, encOf i = some e ∧ e.failing = none ∧ subOk i = true := by
  unfold wellFormed
  cases encOf i <;> simp

theorem decodeWord_bits {i : Instr} {e : Enc} (he : encOf i = some e) (hfail : e.failing = none) (hsub : subOk i = true) : decodeWord e.bits = .ok i := by
  rw [decodeWord, Enc.ofBits_bits (Enc.lenBitsOk_of_failing hfail)]
  simp only [hfail, instrOf_of_encOf he hsub]

/-- Settles O59: the bytes give the bits of the field form back, the bits its fields, and the fields the instruction. -/
theorem decodeOfEncode : Obligations.DecodeOfEncode := by
  intro i rest h
  obtain ⟨e, he, hfail, hsub⟩ := wellFormed_iff.mp h
  simp only [encode, he]
  exact decodeBytes_leBytes_bits (Enc.lenBitsOk_of_failing hfail) (decodeWord_bits he hfail hsub) rest

/-- Bytes that encode a well-formed instruction decode to it. -/
theorem decodeBytes_of_encode {i : Instr} {bs : List Byte} (hwf : WellFormed i) (h : encode i = bs) : decodeBytes bs = .ok (i, []) := by
  rw [← h, ← List.append_nil (encode i)]
  exact decodeOfEncode i [] hwf

/-- Settles O60: each word is the encoding of its instruction, which is well formed. -/
theorem workedEncodingsDecode : Obligations.WorkedEncodingsDecode := by
  unfold Obligations.WorkedEncodingsDecode
  intro reads
  and_intros <;> exact decodeBytes_of_encode (by decide) (by decide)

end Sys2Proof.Machine
end

section
/-!
PROOF. Guards, privilege and the step (R79, R81, R99, R101).
-/

namespace Sys2Proof.Machine

/-! ## Privileged opcodes (R99) -/

theorem shapeInt_priv (e : Enc) (o : Nat) : (shapeInt e o).priv = false := by
  unfold shapeInt; split <;> simp [apply_ite Shape.priv]
theorem shapeFlt_priv (e : Enc) (o : Nat) : (shapeFlt e o).priv = false := by
  unfold shapeFlt; split <;> rfl
theorem shapeCvt_priv (e : Enc) (o : Nat) : (shapeCvt e o).priv = false := by
  unfold shapeCvt; split <;> rfl
theorem shapeCmp_priv (e : Enc) (o : Nat) : (shapeCmp e o).priv = false := by
  unfold shapeCmp; split <;> rfl
theorem shapeCtl_priv (e : Enc) (o : Nat) : (shapeCtl e o).priv = false := by
  unfold shapeCtl; split <;> rfl
theorem shapeSyn_priv (e : Enc) (o : Nat) : (shapeSyn e o).priv = false := by
  unfold shapeSyn; split <;> rfl
theorem shapeMem_priv (e : Enc) (o : Nat) : (shapeMem e o).priv = false := by
  unfold shapeMem; dsimp only; split <;> rfl
theorem shapeTen_priv (e : Enc) (o : Nat) : (shapeTen e o).priv = false := by
  unfold shapeTen; split <;> rfl
theorem shapeStr_priv (e : Enc) (o : Nat) : (shapeStr e o).priv = false := by
  unfold shapeStr; split <;> simp [apply_ite Shape.priv]
theorem shapeNeu_priv (e : Enc) (o : Nat) : (shapeNeu e o).priv = false := by
  unfold shapeNeu; split <;> rfl
theorem shapeRay_priv (e : Enc) (o : Nat) : (shapeRay e o).priv = false := by
  unfold shapeRay; split <;> rfl
/-- Of the engines, SPAWN alone. -/
theorem shapeEng_priv (e : Enc) (o : Nat) : (shapeEng e o).priv = decide (0xE ≤ o) := by
  unfold shapeEng; split <;> simp_all
  omega
/-- Of the system group, all but SEGRD and SVCALL. -/
theorem shapeSys_priv (e : Enc) (o : Nat) : (shapeSys e o).priv = !decide (o = 1 ∨ o = 9) := by
  unfold shapeSys; split <;> simp_all

/-- The opcodes that are privileged: SPAWN, and the system group but SEGRD and SVCALL. -/
def privOp (o : Nat) : Bool := o = 0xAE || (0xF0 ≤ o && o ≤ 0xFB && o ≠ 0xF1 && o ≠ 0xF9)

theorem privOp_eq_false {o : Nat} (ha : o / 16 ≠ 0xA) (hf : o / 16 ≠ 0xF) : privOp o = false := by
  simp [privOp]; omega

theorem Enc.priv_eq (e : Enc) : e.priv = privOp e.op.toNat := by
  have helim : e.priv = (shapeOf e).elim false Shape.priv := by unfold Enc.priv; cases shapeOf e <;> rfl
  rw [helim]
  unfold shapeOf
  generalize e.op.toNat = o
  dsimp only
  split
  -- the engines
  case h_10 =>
    rw [Bool.eq_iff_iff]
    split <;> simp [shapeEng_priv, privOp] <;> omega
  -- the system group
  case h_15 =>
    rw [Bool.eq_iff_iff]
    split <;> simp [shapeSys_priv, privOp] <;> omega
  all_goals
    rw [privOp_eq_false (by omega) (by omega)]
    simp [apply_ite (Option.elim · false Shape.priv), shapeInt_priv, shapeFlt_priv, shapeCvt_priv, shapeCmp_priv, shapeCtl_priv, shapeSyn_priv, shapeMem_priv,
      shapeTen_priv, shapeStr_priv, shapeNeu_priv, shapeRay_priv]

theorem priv_of_encOf {i : Instr} {e : Enc} (h : encOf i = some e) : e.priv = privileged i := by
  rw [Enc.priv_eq]
  cases i <;> cases h <;> rfl

/-! ## A packet of one wave -/

/-- What binds the writes of a packet is all that its start sets. -/
theorem slotStart_eq_setPack (i : Instr) (e : Enc) (s : State) : ∃ p, slotStart i e s = s.setPack p := by
  have hp : ∀ places, ∃ p, s.packed e places = s.setPack p := by
    intro places
    unfold State.packed
    split
    · exact ⟨s.ord.pack, rfl⟩
    · dsimp only
      split
      · exact ⟨s.ord.pack, rfl⟩
      · exact ⟨_, rfl⟩
  unfold slotStart
  split
  case h_6 => exact ⟨s.ord.pack, rfl⟩
  all_goals exact hp _

section Group
variable {s : State} {w : Wave} {ls : List Nat} {pc : VA} {e : Enc} {i : Instr}

theorem Group.setPack (hs : Group s w ls pc) (p : List (Loc × List Nat)) : Group (s.setPack p) w ls pc :=
  ⟨hs.head, hs.wave, hs.once, hs.launched, hs.quiet⟩

theorem Group.group_slotStart (hs : Group s w ls pc) : Group (slotStart i e s) w ls pc := by
  obtain ⟨p, hp⟩ := slotStart_eq_setPack i e s
  exact hp ▸ hs.setPack p

/-- A packet of one wave runs in that wave, and the slot ends if it was its last. -/
theorem Group.runPacketThen_eq (hs : Group s w ls pc) (body : Ctx → State → State × WaveOut) (post : Ctx → State → State) :
    runPacketThen e body post s = (runWave e body post pc { s with packets := s.packets.tail } (w.uid, ls)).endSlot := by
  obtain ⟨p, ps, hp, rfl, hq⟩ := hs.head
  simp only [runPacketThen, hp, hq, List.foldl_cons, List.foldl_nil, List.tail_cons]

/-- Check 5 fails: every thread of the packet parks (R101). -/
theorem Group.run_badRegs (hs : Group s w ls pc) (h : e.check5 w.V w.S = false) (body : Ctx → State → State × WaveOut) (post : Ctx → State → State) :
    runPacketThen e body post s = ((s.taken w ls).park w.uid pc (ls.map (fun l => (l, illegal 5)))).endSlot := by
  have hw : ({ s with packets := s.packets.tail } : State).wave? w.uid = some w := hs.wave
  simp only [hs.runPacketThen_eq, runWave, hw, h]
  rfl

/-- A wave without privilege: every thread of the packet parks (R99). -/
theorem Group.run_unprivileged (hs : Group s w ls pc) (h : e.check5 w.V w.S = true) (he : e.priv = true) (hp : w.priv = false)
    (body : Ctx → State → State × WaveOut) (post : Ctx → State → State) :
    runPacketThen e body post s = ((s.taken w ls).park w.uid pc (ls.map (fun l => (l, ⟨fcPriv, e.op.toNat⟩)))).endSlot := by
  have hw : ({ s with packets := s.packets.tail } : State).wave? w.uid = some w := hs.wave
  simp only [hs.runPacketThen_eq, runWave, hw, h, he, hp]
  rfl

/-- The guard is false in every thread: they pass the instruction, and nothing else happens (R79). -/
theorem Group.run_unguarded (hs : Group s w ls pc) (hm : Able e w) (hon : guarded e w ls = []) (body : Ctx → State → State × WaveOut)
    (post : Ctx → State → State) : runPacketThen e body post s = s.begun e w ls pc := by
  have hw : ({ s with packets := s.packets.tail } : State).wave? w.uid = some w := hs.wave
  have hpr : (e.priv && !w.priv) = false := by
    cases he : e.priv with
    | false => rfl
    | true => rw [hm.mode he]; rfl
  have hrun : runWave e body post pc { s with packets := s.packets.tail } (w.uid, ls) = s.begun e w ls pc := by
    have hempty : (ls.filter (fun l => guardOn e.h (w.thread l))).isEmpty = true := by rw [List.isEmpty_iff]; exact hon
    simp only [runWave, hw, hm.regs, hpr, hempty]
    rfl
  rw [hs.runPacketThen_eq, hrun]
  refine State.endSlot_quiet fun hp => ?_
  rw [State.packets_begun] at hp
  rw [(SameMachine.begun s e w ls pc).tretQ]
  obtain ⟨p, ps, hps, -, -⟩ := hs.head
  rw [hps, List.tail_cons] at hp
  exact hs.quiet (by rw [hps, hp]; rfl)

end Group

/-! ## Privileged instructions -/

/-- A privileged instruction is no store, so it binds no writes. -/
theorem slotStart_of_privileged {i : Instr} (h : privileged i = true) (e : Enc) (s : State) : slotStart i e s = s := by
  cases i <;> cases h <;> rfl

theorem slotEnd_of_privileged {i : Instr} (h : privileged i = true) (s : State) : slotEnd i s = s := by
  cases i <;> cases h <;> rfl

/-- Settles O49: the shape table gives the list, and a packet of a wave parks at check 5, then at privilege. -/
theorem privilegedInstructionsFault : Obligations.PrivilegedInstructionsFault := by
  refine ⟨fun i e he => priv_of_encOf he, fun i e s w ls pc he hs _ => ⟨fun hregs => ?regs, fun hregs hi hw => ?mode⟩⟩
  all_goals
    obtain ⟨body, post, hx⟩ := exec_shape he
    rw [hx]
  case regs => rw [hs.group_slotStart.run_badRegs hregs]
  case mode => rw [slotStart_of_privileged hi, slotEnd_of_privileged hi, hs.run_unprivileged hregs ((priv_of_encOf he).trans hi) hw]

/-! ## A guard that is false -/

section Begun
variable {s : State} {e : Enc} {w : Wave} {ls : List Nat} {pc : VA}

/-- The start of a packet takes the packet and changes threads. -/
theorem State.begun_eq (s : State) (e : Enc) (w : Wave) (ls : List Nat) (pc : VA) :
    s.begun e w ls pc = { s with packets := s.packets.tail, waves := (s.begun e w ls pc).waves } := by
  have hfold : ∀ (off : List Nat) (t : State), off.foldl (fun s l => s.resume w.uid l (nextPc pc e.h.len) false) t =
      { t with waves := (off.foldl (fun s l => s.resume w.uid l (nextPc pc e.h.len) false) t).waves } := by
    intro off
    induction off with
    | nil => intro t; rfl
    | cons l off ih => intro t; rw [List.foldl_cons, ih]; rfl
  unfold State.begun
  rw [hfold]
  rfl

theorem Group.wave?_taken (hs : Group s w ls pc) : (s.taken w ls).wave? w.uid = some (ls.foldl (fun w l => w.updThread l s.atStart) w) := by
  have hw : ({ s with packets := s.packets.tail } : State).wave? w.uid = some w := hs.wave
  have htaken := State.wave?_updWave { s with packets := s.packets.tail } w.uid w.uid
    (fun w => ls.foldl (fun w l => w.updThread l s.atStart) w) (fun w => updThreads_uid ls w _)
  rw [if_pos rfl, hw] at htaken
  exact htaken

theorem filter_unguarded (hon : guarded e w ls = []) : ls.filter (fun l => !guardOn e.h (w.thread l)) = ls := by
  rw [List.filter_eq_self]
  intro l hl
  have hoff := List.filter_eq_nil_iff.mp hon l hl
  simpa using hoff

/-- A thread that passes an instruction whose guard is false. -/
def Thread.passed (next : VA) (t : Thread) : Thread := { t with pc := next, st := .ready, age := 0 }

/-- Where every guard is false, the packet's threads are past the instruction, and no other thread has changed. -/
theorem Group.thread_begun_unguarded (hs : Group s w ls pc) (hon : guarded e w ls = []) (u l : Nat) :
    (s.begun e w ls pc).thread u l = if u = w.uid ∧ l ∈ ls then (s.atStart (w.thread l)).passed (nextPc pc e.h.len) else s.thread u l := by
  obtain ⟨-, hother, -, -⟩ := hs.thread_begun (e := e)
  by_cases hul : u = w.uid ∧ l ∈ ls
  · obtain ⟨rfl, hl⟩ := hul
    rw [if_pos ⟨rfl, hl⟩]
    have hfold := State.thread_foldl_updThread (f := Thread.passed (nextPc pc e.h.len)) (fun _ => rfl) (ls.map (fun l => (w.uid, l))) hs.wave?_taken l
    rw [List.foldl_map, if_pos (List.mem_map_of_mem hl),
      updThreads_thread ls hs.once w _ (fun k hk => State.atStart_absent (hs.launched k hk)), if_pos hl] at hfold
    rw [State.begun, filter_unguarded hon]
    exact hfold
  · rw [if_neg hul, hother u l hul]

theorem Group.packed_unguarded (hs : Group s w ls pc) (hon : guarded e w ls = []) (places : Ctx → State → Nat → Except LFault (List (Nat × Loc))) :
    s.packed e places = s := by
  obtain ⟨p, ps, hp, -, hq⟩ := hs.head
  have hon' : ls.filter (fun l => guardOn e.h (w.thread l)) = [] := hon
  simp [State.packed, hp, hq, hs.wave, hon']

theorem Group.slotStart_unguarded (hs : Group s w ls pc) (hon : guarded e w ls = []) (i : Instr) : slotStart i e s = s := by
  unfold slotStart
  split
  case h_6 => rfl
  all_goals exact hs.packed_unguarded hon _

end Begun

theorem State.flushPeers_quiet {s : State} (h : ∀ r ∈ s.link.rops, r.ask = none) : s.flushPeers = s := by
  have hask : s.link.rops.filter (fun r => r.ask.isSome) = [] := by
    rw [List.filter_eq_nil_iff]
    intro r hr
    simp [h r hr]
  simp [State.flushPeers, hask]

theorem State.settleSlot_quiet {s : State} (h : ∀ b ∈ s.asu.bins, b.trig = false) : s.settleSlot = s := by
  have hnone : s.asu.bins.filter (fun b => b.trig && s.tileRoom b.cl) = [] := by
    rw [List.filter_eq_nil_iff]
    intro b hb
    simp [h b hb]
  have henter : ∀ n, s.enterTiles n = s := by
    intro n
    cases n with
    | zero => rfl
    | succ n => simp [State.enterTiles, hnone, oldestBin]
  unfold State.settleSlot
  split
  · exact henter _
  · rfl

/-- The slot ends with nothing where no write waits to be sent and no bin is triggered. -/
theorem slotEnd_quiet {s : State} (hask : ∀ r ∈ s.link.rops, r.ask = none) (hpack : s.ord.pack = []) (hbins : ∀ b ∈ s.asu.bins, b.trig = false) (i : Instr) :
    slotEnd i s = s := by
  have hset : s.setPack [] = s := by rw [← hpack]; rfl
  unfold slotEnd
  split
  case h_1 | h_2 | h_3 | h_4 | h_5 => rw [hset, State.flushPeers_quiet hask]
  case h_6 | h_7 | h_8 => exact State.settleSlot_quiet hbins
  case h_9 => rfl

theorem guardOn_p7 {h : Hdr} (t : Thread) (hp : h.pg = 7) : guardOn h t = !h.pn := by
  rw [guardOn, hp]
  cases h.pn <;> rfl

/-- Settles O48: the start of the packet moves the threads whose guard is false, and the meaning is asked for the others alone. -/
theorem guardFalseOnlyAdvances : Obligations.GuardFalseOnlyAdvances := by
  refine ⟨fun h t => ⟨rfl, guardOn_p7 t⟩, fun i hi => ?packet, fun i e s w ls pc he hs hon => ⟨fun hm => ?able, fun hregs => ?regs⟩⟩
  case packet =>
    obtain ⟨e, he⟩ := Option.isSome_iff_exists.mp hi
    obtain ⟨body, post, hx⟩ := exec_shape he
    exact PacketDoes.of he hx (fun _ _ _ _ _ hM => hM.elim)
  case able =>
    obtain ⟨body, post, hx⟩ := exec_shape he
    have hrun : exec i s = .next (slotEnd i (s.begun e w ls pc)) := by
      rw [hx, hs.slotStart_unguarded hon, hs.run_unguarded hm hon]
    have hthread := hs.thread_begun_unguarded hon
    have hbegun := s.begun_eq e w ls pc
    refine ⟨hrun, fun hask hpack hbins => ?quiet, fun l hl => ?passed, fun u l hul => ?others, fun u r => s.finalReg_begun e w ls pc u r,
      SameMachine.begun s e w ls pc, by rw [hbegun]⟩
    case quiet => rw [hrun, slotEnd_quiet (by rw [hbegun]; exact hask) (by rw [hbegun]; exact hpack) (by rw [hbegun]; exact hbins)]
    case passed => rw [hthread, if_pos ⟨rfl, hl⟩]; rfl
    case others => rw [hthread, if_neg hul]
  case regs =>
    obtain ⟨body, post, hx⟩ := exec_shape he
    rw [hx, hs.slotStart_unguarded hon, hs.run_badRegs hregs]

/-! ## The step -/

theorem State.packetInstr_head {s : State} {p : Packet} {uid : Nat} {ls : List Nat} {w : Wave} (hq : p.waves.head? = some (uid, ls))
    (hw : s.wave? uid = some w) : s.packetInstr p = s.fetch w p.pc := by
  simp only [State.packetInstr, hq, Option.bind_some, hw]

theorem step_of_ok {s : State} {p : Packet} {ps : List Packet} {i : Instr} (hp : s.packets = p :: ps) (h : s.packetInstr p = .ok i) :
    step s = counted (exec i s) := by
  simp only [step, hp, h]

theorem step_of_error {s : State} {p : Packet} {ps : List Packet} {f : LFault} (hp : s.packets = p :: ps) (h : s.packetInstr p = .error f) :
    step s = counted (.next (({ s with packets := ps } : State).fetchFault p f).endSlot) := by
  simp only [step, hp, h]

theorem State.fetch_misaligned {s : State} {w : Wave} {pc : VA} (h : pc.toNat % 4 ≠ 0) : s.fetch w pc = .error ⟨fcFetchFmt, pc.toNat⟩ := if_pos h

theorem State.fetch_unfilled {s : State} {w : Wave} {pc : VA} {c : Nat} (h : pc.toNat % 4 = 0) (hb : s.blockOf w pc.toNat = .error c) :
    s.fetch w pc = .error ⟨c, pc.toNat⟩ := by
  simp only [State.fetch, h, hb, ne_eq, not_true_eq_false, if_false]

/-- What the block's bytes from the address decode to, or its fault (R80, R81). -/
theorem State.fetch_block {s : State} {w : Wave} {pc : VA} {bs : List Byte} (h : pc.toNat % 4 = 0) (hb : s.blockOf w pc.toNat = .ok bs) :
    (∀ i rest, decodeBytes (bs.drop (pc.toNat % 32)) = .ok (i, rest) → s.fetch w pc = .ok i) ∧
    (∀ n, decodeBytes (bs.drop (pc.toNat % 32)) = .error (.check n) → s.fetch w pc = .error (illegal n)) ∧
    (decodeBytes (bs.drop (pc.toNat % 32)) = .error .crossing → s.fetch w pc = .error ⟨fcFetchFmt, pc.toNat⟩) := by
  unfold State.fetch
  rw [if_neg (not_not.mpr h), hb]
  exact ⟨fun i rest hd => by simp only [hd], fun n hd => by simp only [hd], fun hd => by simp only [hd]⟩

/-- Settles O55: the step follows what the fetch answers. -/
theorem stepRunsDecoded : Obligations.StepRunsDecoded := by
  refine ⟨fun s p ps uid ls w hp hq hw => ?_, fun s hp => by simp only [step, hp], fun t => rfl⟩
  have hinstr := State.packetInstr_head hq hw
  have hok : ∀ {i}, s.fetch w p.pc = .ok i → step s = counted (exec i s) := fun h => step_of_ok hp (hinstr.trans h)
  have hparks : ∀ {f}, s.fetch w p.pc = .error f → step s = counted (.next (({ s with packets := ps } : State).fetchFault p f).endSlot) :=
    fun h => step_of_error hp (hinstr.trans h)
  refine ⟨fun hal bs hb => ?_, fun hal c hb => hparks (State.fetch_unfilled hal hb), fun hal => hparks (State.fetch_misaligned hal)⟩
  obtain ⟨hdecoded, hcheck, hcrossing⟩ := State.fetch_block hal hb
  exact ⟨fun i rest hd => hok (hdecoded i rest hd), fun n hd => hparks (hcheck n hd), fun hd => hparks (hcrossing hd)⟩

end Sys2Proof.Machine
end

section
/-!
PROOF. The writes at once of CVTN, FMTLD, SRSEED, FLGCL and MOVS (R127, R128, R154, R157, R161), and the scalar forms of the lane instructions in a packet
whose lanes have waited (R35, R74, R164, R166).
-/

namespace Sys2Proof.Machine

/-! ## CVTN and the writes at once -/

/-- CVTN is not refused where its element lies in the register and stochastic rounding is granted (R128, R154, R413). -/
theorem cvtn_unrefused {f : CvtFn} {s : State} {j w : Nat} (hj : (j + 1) * w ≤ 32) (hrs : f.rnd = .rs → s.granted 3 = true) :
    (decide (32 < (j + 1) * w) || (decide (f.rnd = .rs) && !s.granted 3)) = false := by
  by_cases hr : f.rnd = .rs
  · simp [hrs hr, hj]
  · simp [hr, hj]

/-- Settles O8: past the refusals of CVTN its destination type chooses the direction, a valid word is the one branch of FMTLD that writes, and the others have no
check of their own. -/
theorem immediateWritesComplete : Obligations.ImmediateWritesComplete := by
  intro h f g x
  refine ⟨fun d => ?toNarrow, fun d => ?fromNarrow, ?fmtld, ?srseed, ?flgcl, ?movs⟩
  case toNarrow =>
    refine Does.of_lane rfl (fun _ => rfl) (fun c s l hc _ ⟨hd, hj, hrs, hdt⟩ => ?_)
    obtain rfl : c.e.h = h := by rw [hc]
    simp only [cvtnLane, hd, cvtn_unrefused hj hrs, Bool.false_eq_true, if_false, if_pos hdt]
  case fromNarrow =>
    refine Does.of_lane rfl (fun _ => rfl) (fun c s l hc _ ⟨hd, hj, hrs, hdt⟩ => ?_)
    obtain rfl : c.e.h = h := by rw [hc]
    simp only [cvtnLane, hd, cvtn_unrefused hj hrs, Bool.false_eq_true, if_false, if_neg hdt]
  case fmtld =>
    refine DoesOnce.of_uni rfl (fun _ => rfl) (fun c s l _ _ hd => ?_)
    obtain ⟨d, hd⟩ := Option.isSome_iff_exists.mp hd
    simp only [hd]
  case srseed => exact Does.of_lane rfl (fun _ => rfl) (fun _ _ _ _ _ _ => rfl)
  case flgcl => exact Does.of_lane rfl (fun _ => rfl) (fun _ _ _ _ _ _ => rfl)
  case movs => exact DoesOnce.of_uni rfl (fun _ => rfl) (fun _ _ _ _ _ _ => rfl)

/-! ## A packet whose other lane has met a fault

`GivesScalars` leaves every thread outside the packet as it was, but the statement does not ask, as `ComputesIf` does, that no lane of the packet has an access
that has waited. Lanes 0 and 1 issued an access together: lane 0 waited for its walk, and lane 1 met a fault, with which it waits for lane 0 (R35). Lane 0 issues
the instruction at its pc again, which is now a BALLOT; as it completes, lane 1 parks. -/

/-- A lane that issues again after its access has waited, with the segments and scalars of its first issue (R74). -/
def reissuingLane : Thread := { Thread.atLaunch 0x1000 [] 0 with hseg := some ([], []) }

/-- A lane that waits with its fault for the other lanes of its packet (R35). -/
def failedLane : Thread := { Thread.atLaunch 0x1000 [] 1 with st := .admission (.failed fcSegLimit 0) false }

/-- The wave of the two lanes, each with the packet number 0. -/
def splitWave : Wave :=
  { startWave 1 ⟨0, 0, 0, 0, .active⟩ .launch 1 2 0x1000 8 16 false [] [] with threads := [(0, reissuingLane), (1, failedLane)] }

/-- The machine with that wave, lane 0 of it in the packet of the slot. -/
def splitState : State := { State.reset with packets := [⟨0, 0, 0, 0x1000, [(1, [0])]⟩], waves := [splitWave] }

/-- The fields of BALLOT s8, p1. -/
def ballotHdr : Hdr := ⟨0xD, 0, 0, 1, 8, false, 7, false, false, .w64⟩

theorem splitState_group : Group splitState splitWave [0] 0x1000 where
  head := ⟨_, _, rfl, rfl, rfl⟩
  wave := rfl
  once := by decide
  launched := by decide
  quiet := fun _ => rfl

theorem splitWave_able : Able ⟨0x57, ballotHdr, laneFnBits ⟨0, 0, .i32⟩, 0⟩ splitWave where
  regs := by decide
  mode := by decide

/-- Lane 1 is outside the packet, and parks as BALLOT completes in lane 0. -/
theorem ballot_parks_failedLane {t : State} (h : exec (.ballot ballotHdr ⟨0, 0, .i32⟩ 0) splitState = .next t) : (t.thread 1 1).st = .parked := by
  cases h
  decide

/-- Refutes O7: no hypothesis keeps out a lane whose access has waited, and with its completion the packet parks a lane of the wave outside it. -/
theorem not_scalarLaneForms : ¬ Obligations.ScalarLaneForms := by
  intro h
  obtain ⟨hballot, -⟩ := h ballotHdr ⟨0, 0, .i32⟩ 0 splitState splitWave [0] 0x1000 rfl
  obtain ⟨t, hrun, hgives⟩ := hballot _ rfl splitState_group splitWave_able (by decide)
  have hstays : t.thread 1 1 = failedLane := hgives.threads 1 1 (by decide)
  have hparks : failedLane.st = .parked := hstays ▸ ballot_parks_failedLane hrun
  cases hparks

end Sys2Proof.Machine
end

section
/-!
PROOF. The rows that only compute, and the lane instructions with a vector result (R142 to R169): each answers a result in every lane. The division by
zero (R144) and the source lane of SHFL (R165) are values of those results.
-/

namespace Sys2Proof.Machine

/-! ## Meanings that answer a result in every lane -/

/-- A row whose lanes all answer a result computes that result. -/
theorem Computes.of_total {i : Instr} {e : Enc} {g : Ctx → State → Nat → Res} (he : encOf i = some e)
    (hx : ∀ s, exec i s = .next (runCompute e (fun c s l => .ok (g c s l)) s)) : Computes i g :=
  ComputesIf.of_compute he hx (fun _ _ _ _ _ => rfl)

theorem Computes.congr {i : Instr} {g g' : Ctx → State → Nat → Res} (h : Computes i g) (hg : ∀ c s l, g c s l = g' c s l) : Computes i g' := by
  obtain rfl : g = g' := funext fun c => funext fun s => funext fun l => hg c s l
  exact h

/-- The effect of one result in a lane of an instruction that is not uniform (R141). -/
theorem Res.out_vector {e : Enc} (hu : e.h.u = false) {r : Res} (hper : r.per = []) (l : Nat) :
    r.out e l = { regs := regWrites l .v e.h.d.toNat r.n r.val, preds := r.preds, flags := r.flags } := by
  have hkind : resKind e = .v := by simp [resKind, hu]
  have hflags : r.regFlags e l = [] := by simp [Res.regFlags, hper]
  rw [Res.out, hkind, hflags]

/-- A lane instruction computes what its lanes answer: registers of their own, predicates and flags. -/
theorem ComputesIf.of_lanes {i : Instr} {e : Enc} {P : Ctx → State → Prop} {g : Ctx → State → Nat → Res} {g' : Ctx → State → Nat → LaneRes}
    (he : encOf i = some e) (hu : e.h.u = false) (hx : ∀ s, exec i s = .next (runPacket e (pureWise g') s)) (hper : ∀ c s l, (g c s l).per = [])
    (hg : ∀ c s l, c.e.h = e.h → P c s →
      g' c s l = .ok { regs := regWrites l .v e.h.d.toNat (g c s l).n (g c s l).val, preds := (g c s l).preds, flags := (g c s l).flags }) :
    ComputesIf i P g :=
  ComputesIf.of_pure he hu hx (fun c s l hc hP => by rw [Res.out_vector hu (hper c s l)]; exact hg c s l (by rw [hc]) hP)

/-! ## Integer, float and packed rows -/

/-- Settles O1: the rows of R142 and R146 differ in the result alone, which each answers in every lane. -/
theorem integerAndBitRowsCompute : Obligations.IntegerAndBitRowsCompute := by
  intro h f g x
  and_intros
  all_goals exact Computes.of_total rfl (fun _ => rfl)

/-- Settles O2: the float rows differ in the result alone, which each answers, SAT applied, in every lane. -/
theorem floatRowsCompute : Obligations.FloatRowsCompute := by
  intro h f x row
  and_intros
  all_goals exact Computes.of_total rfl (fun _ => rfl)

/-- Settles O3: a packed row answers its two halves in one register, and FCLS and the dot products one number. -/
theorem packedAndDotRowsCompute : Obligations.PackedAndDotRowsCompute := by
  intro h f x fin row
  refine ⟨?hadd2, ?hmul2, ?hfma2, ?hmnx2, ?fcls, ?fdot2, ?fdotn⟩
  all_goals exact Computes.of_total rfl (fun _ => rfl)

/-! ## Conversions, comparisons and moves -/

/-- Settles O4: past the checks of NPACK and NUNPK, every lane of a conversion answers its result. -/
theorem conversionsCompute : Obligations.ConversionsCompute := by
  intro h f x
  refine ⟨?cvt, ?cvtw, fun d => ?npack, fun d => ?nunpk, ?fmtst, ?flgrd⟩
  case npack =>
    refine ComputesIf.of_compute rfl (fun _ => rfl) (fun c s l hc ⟨hd, w, hw, hV⟩ => ?_)
    obtain rfl : c.e.h = h := by rw [hc]
    simp only [npackRes, hd, hw, if_neg (not_lt.mpr hV)]
  case nunpk =>
    refine ComputesIf.of_compute rfl (fun _ => rfl) (fun c s l hc ⟨hd, w, hw, hV⟩ => ?_)
    obtain rfl : c.e.h = h := by rw [hc]
    simp only [nunpkRes, hd, hw, if_neg (not_lt.mpr hV)]
  all_goals exact Computes.of_total rfl (fun _ => rfl)

/-- Settles O5: comparisons, selections, moves and special registers answer their result in every lane. -/
theorem compareAndMoveRowsCompute : Obligations.CompareAndMoveRowsCompute := by
  intro h f g x
  refine ⟨?isetp, ?fsetp, ?psetp, ?sel, ?mov, ?getsr⟩
  all_goals exact Computes.of_total rfl (fun _ => rfl)

/-! ## Lane instructions with a vector result -/

/-- BALLOT with a vector D (R166): each participant receives the word of its 32 lanes. -/
theorem exec_ballot_vector {h : Hdr} {f : LaneFn} {x : BitVec 64} (hmx : h.mx ≠ 0xD) (s : State) :
    exec (.ballot h f x) s = .next (runPacket (enc 0x57 h (laneFnBits f) x)
      (pureWise (fun c s l => .ok { regs := regWrites l .v c.e.h.d.toNat 1 (bitsAt (maskOf (c.on.filter (ballotBit f c s))).toNat (32 * (l / 32)) 32) })) s) := by
  simp only [exec, execBallot, if_neg hmx]
  rfl

/-- REDUX with a vector D (R167): each participant receives the combination of its segment. -/
theorem exec_redux_vector {h : Hdr} {f : LaneFn} {x : BitVec 64} (hmx : h.mx ≠ 0xD) (s : State) :
    exec (.redux h f x) s = .next (runPacket (enc 0x5A h (laneFnBits f) x)
      (pureWise (fun c s l =>
        let r := (redAll f.ty f.lop.toNat ((segLanes c (segWidth f) l).map (s.laneA c f))).getD ⟨0, 0⟩
        .ok { regs := regWrites l .v h.d.toNat (tyRegs f.ty) r.bits, flags := BitVec.ofNat 7 r.fl })) s) := by
  simp only [exec, execRedux, if_neg hmx]
  rfl

/-- Settles O6: each participant answers its own registers, predicate and flags; BALLOT and REDUX are not in their scalar form, and QUADS has its flag. -/
theorem laneRowsCompute : Obligations.LaneRowsCompute := by
  intro h f x hu hmx
  refine ⟨?shfl, ?ballot, ?vote, ?matchLanes, ?redux, ?scan, ?elect, ?xchgm, ?quads⟩
  case ballot => exact ComputesIf.of_lanes rfl hu (exec_ballot_vector hmx) (fun _ _ _ => rfl) (fun c s l (hc : c.e.h = h) _ => by subst hc; rfl)
  case redux => exact ComputesIf.of_lanes rfl hu (exec_redux_vector hmx) (fun _ _ _ => rfl) (fun _ _ _ _ _ => rfl)
  case xchgm =>
    refine ComputesIf.of_lanes rfl hu (fun _ => rfl) (fun _ _ _ => rfl) (fun c s l (hc : c.e.h = h) _ => ?_)
    subst hc
    exact (apply_ite (laneVal c l 1) _ _ _).symm
  case quads =>
    refine ComputesIf.of_lanes rfl hu (fun _ => rfl) (fun _ _ _ => rfl) (fun c s l (hc : c.e.h = h) ⟨w, hw, hq⟩ => ?_)
    subst hc
    have hflag : ((s.wave? c.uid).map (fun w => w.quadFlag)).getD false = true := by rw [hw]; exact hq
    exact if_neg (by simp [hflag])
  all_goals exact ComputesIf.of_lanes rfl hu (fun _ => rfl) (fun _ _ _ => rfl) (fun c s l (hc : c.e.h = h) _ => by subst hc; rfl)

/-! ## Division by zero (R144) -/

theorem tyWidth_pos (t : Ty) : 0 < tyWidth t := by cases t <;> decide

@[simp] theorem wrapTo_zero (n : Nat) : wrapTo n 0 = 0 := by simp [wrapTo]

@[simp] theorem wrapTo_neg_one (n : Nat) : wrapTo n (-1) = 2 ^ n - 1 := by
  have hpos : 0 < 2 ^ n := Nat.two_pow_pos n
  have hmod : (-1 : Int) % ((2 ^ n : Nat) : Int) = ((2 ^ n - 1 : Nat) : Int) := by
    rw [← Int.add_emod_right, Int.emod_eq_of_lt] <;> omega
  rw [wrapTo, hmod, Int.toNat_natCast]

theorem wrapTo_natCast {n x : Nat} (h : x < 2 ^ n) : wrapTo n (x : Int) = x := by
  rw [wrapTo, ← Int.natCast_emod, Int.toNat_natCast, Nat.mod_eq_of_lt h]

/-- A pattern is that of the signed integer that it stands for. -/
theorem wrapTo_signedOf {n x : Nat} (h : x < 2 ^ n) : wrapTo n (signedOf n x) = x := by
  simp only [signedOf, Nat.mod_eq_of_lt h]
  split
  · exact wrapTo_natCast h
  · rw [wrapTo, Int.sub_emod_right]
    exact wrapTo_natCast h

theorem wrapTo_tyInt {t : Ty} {x : Nat} (h : x < 2 ^ tyWidth t) : wrapTo (tyWidth t) (tyInt t x) = x := by
  unfold tyInt
  split
  · exact wrapTo_signedOf h
  · rw [Nat.mod_eq_of_lt h]
    exact wrapTo_natCast h

@[simp] theorem tyInt_zero (t : Ty) : tyInt t 0 = 0 := by simp [tyInt, signedOf]

/-- All ones of a signed type stand for −1. -/
theorem tyInt_allOnes {t : Ty} (hs : tySigned t = true) : tyInt t (2 ^ tyWidth t - 1) = -1 := by
  have hw : 2 ^ (tyWidth t - 1) * 2 = 2 ^ tyWidth t := Nat.two_pow_pred_mul_two (tyWidth_pos t)
  have hpos : 0 < 2 ^ (tyWidth t - 1) := Nat.two_pow_pos _
  have hmod : (2 ^ tyWidth t - 1) % 2 ^ tyWidth t = 2 ^ tyWidth t - 1 := Nat.mod_eq_of_lt (by omega)
  rw [tyInt, if_pos hs]
  simp only [signedOf, hmod]
  rw [if_neg (by omega)]
  omega

/-- A value in the range of its type is not changed by saturation (R143). -/
theorem narrowInt_of_mem {t : Ty} {x : Int} (hmin : tyMin t ≤ x) (hmax : x ≤ tyMax t) (sat : Bool) : narrowInt t sat x = wrapTo (tyWidth t) x := by
  cases sat with
  | false => rfl
  | true => simp only [narrowInt, clampInt, if_true, if_neg (not_lt.mpr hmin), if_neg (not_lt.mpr hmax)]

/-- Zero is in the range of every type. -/
theorem tyRange_zero (t : Ty) : tyMin t ≤ 0 ∧ 0 ≤ tyMax t := by
  have hhalf : 0 < 2 ^ (tyWidth t - 1) := Nat.two_pow_pos _
  have hall : 0 < 2 ^ tyWidth t := Nat.two_pow_pos _
  unfold tyMin tyMax
  split <;> omega

/-- And −1 in that of a signed type. -/
theorem tyRange_neg_one {t : Ty} (hs : tySigned t = true) : tyMin t ≤ -1 ∧ -1 ≤ tyMax t := by
  have hhalf : 0 < 2 ^ (tyWidth t - 1) := Nat.two_pow_pos _
  rw [tyMin, tyMax, if_pos hs, if_pos hs]
  omega

/-- The largest value of an unsigned type is all ones. -/
theorem tyMax_unsigned {t : Ty} (hs : tySigned t = false) : tyMax t = ((2 ^ tyWidth t - 1 : Nat) : Int) := by
  have hall : 0 < 2 ^ tyWidth t := Nat.two_pow_pos _
  rw [tyMax, hs, if_neg Bool.false_ne_true]
  omega

@[simp] theorem narrowInt_zero (t : Ty) (sat : Bool) : narrowInt t sat 0 = 0 := by
  obtain ⟨hmin, hmax⟩ := tyRange_zero t
  rw [narrowInt_of_mem hmin hmax, wrapTo_zero]

/-- The quotient by zero is all ones: −1 of a signed type, the largest value of an unsigned one, both in range (R144). -/
theorem narrowInt_div_zero (t : Ty) (sat : Bool) (a : Int) : narrowInt t sat (divInt t a 0) = 2 ^ tyWidth t - 1 := by
  rw [divInt, if_pos rfl]
  cases hs : tySigned t with
  | true =>
    obtain ⟨hmin, hmax⟩ := tyRange_neg_one hs
    rw [if_pos rfl, narrowInt_of_mem hmin hmax, wrapTo_neg_one]
  | false =>
    obtain ⟨hmin, hmax⟩ := tyRange_zero t
    rw [if_neg Bool.false_ne_true, narrowInt_of_mem (hmin.trans hmax) le_rfl, tyMax_unsigned hs,
      wrapTo_natCast (Nat.sub_lt (Nat.two_pow_pos _) Nat.one_pos)]

theorem divRes_val (f : IntFn) (c : Ctx) (s : State) (l : Nat) :
    (divRes f c s l).val = narrowInt f.ty f.sat (divInt f.ty (tyInt f.ty (s.srcInt c l .a f.ty)) (tyInt f.ty (s.srcInt c l .b f.ty))) := rfl

theorem remRes_val (f : IntFn) (c : Ctx) (s : State) (l : Nat) :
    (remRes f c s l).val = narrowInt f.ty f.sat (remInt (tyInt f.ty (s.srcInt c l .a f.ty)) (tyInt f.ty (s.srcInt c l .b f.ty))) := rfl

theorem State.srcInt_lt (s : State) (c : Ctx) (l : Nat) (o : Owner) (t : Ty) : s.srcInt c l o t < 2 ^ tyWidth t := Nat.mod_lt _ (Nat.two_pow_pos _)

@[simp] theorem remInt_zero (a : Int) : remInt a 0 = a := if_pos rfl

@[simp] theorem remInt_neg_one (a : Int) : remInt a (-1) = 0 := by simp [remInt]

/-- Settles O50: IDIV and IREM compute divRes and remRes, whose values at these operands are in range. -/
theorem divisionByZero : Obligations.DivisionByZero := by
  intro h f x _ w a b
  refine ⟨⟨divRes f, Computes.of_total rfl (fun _ => rfl), fun c s l hb => ⟨?quotient, rfl⟩⟩,
    ⟨remRes f, Computes.of_total rfl (fun _ => rfl), fun c s l => ⟨rfl, fun hsat hb => ?remainder, fun hsigned _ hb => ?corner⟩⟩⟩
  case quotient => rw [divRes_val, show s.srcInt c l .b f.ty = 0 from hb, tyInt_zero, narrowInt_div_zero]
  case remainder =>
    rw [remRes_val, show s.srcInt c l .b f.ty = 0 from hb, tyInt_zero, remInt_zero, hsat]
    exact wrapTo_tyInt (s.srcInt_lt c l .a f.ty)
  case corner => rw [remRes_val, show s.srcInt c l .b f.ty = 2 ^ tyWidth f.ty - 1 from hb, tyInt_allOnes hsigned, remInt_neg_one, narrowInt_zero]

/-! ## The source lane of SHFL (R165) -/

/-- The source lane as R165 writes it. -/
theorem shflSrc_eq (lop : BitVec 4) (hlop : lop.toNat ≤ 3) (z n l : Nat) :
    shflSrc lop.toNat z n l =
      let base := l - l % z
      if lop = 0 then some (base + n % z)
      else if lop = 1 then (if (base : Int) ≤ (l : Int) - n then some (l - n) else none)
      else if lop = 2 then (if l + n < base + z then some (l + n) else none)
      else some (base + (l ^^^ n) % z) := by
  obtain rfl | rfl | rfl | rfl : lop = 0 ∨ lop = 1 ∨ lop = 2 ∨ lop = 3 := by bv_omega
  case inr.inl =>
    have hup : ((l - l % z : Nat) : Int) ≤ (l : Int) - n ↔ l - l % z + n ≤ l := by omega
    simp only [hup]
    rfl
  all_goals rfl

/-- The value of the participant that is the source, else the lane's own. -/
theorem value_of_source (src : Option Nat) (on : List Nat) (v : Nat → Nat) (l : Nat) :
    v (match src with | some k => if on.contains k then k else l | none => l) = if ∃ k ∈ src, k ∈ on then v (src.getD l) else v l := by
  cases src with
  | none => simp
  | some k => by_cases hk : k ∈ on <;> simp [hk]

/-- Settles O51: SHFL computes the value of its source lane, which is that of R165. -/
theorem shuffleSources : Obligations.ShuffleSources := by
  intro h f x hu hmx hlop
  obtain ⟨hshfl, -⟩ := laneRowsCompute h f x hu hmx
  refine hshfl.congr (fun c s l => congrArg (fun v => ({ val := v, n := tyRegs f.ty } : Res)) ?_)
  rw [shflSrc_eq f.lop hlop]
  exact value_of_source _ _ _ _

end Sys2Proof.Machine
end

section
/-!
PROOF. Barriers, tokens, supersteps and user-level interrupts (R180 to R187), the handler instructions (R191 to R195, R441), and traps in a packet that issues again (R35,
R173).
-/

namespace Sys2Proof.Machine

/-! ## Arrivals and BARWT (R180 to R182) -/

/-- An arrival whose checks pass is recorded, and its outcome rests on the parity that it found (R180, R181). -/
theorem barLane_arrives {b : Nat} {h : Hdr} {out : Ctx → Bool → LaneRes} {c : Ctx} {s : State} {l : Nat} (hc : c.e.h = h) (ha : arrives b h c s l) :
    barLane b out c s l = (arrived b h c s l, out c (s.bar (waveOf c s).gid (waveOf c s).gangwg b).par) := by
  obtain ⟨hw, hb, hB, hok⟩ := ha
  subst hc
  simp only [barLane, wave?_of_isSome hw]
  rw [if_neg (by simp only [Bool.or_eq_true, decide_eq_true_eq]; omega), hok]
  rfl

/-- Settles O13: BAR and BARARR share the arrival, and BARWT answers by the parity that it finds. -/
theorem barriersComplete : Obligations.BarriersComplete := by
  intro h f x b
  refine ⟨?bar, ?bararr, ?barwt⟩
  case bar => exact Does.of_lane rfl (fun _ => rfl) (fun c s l hc _ ha => by rw [barLane_arrives (by rw [hc]) ha, hc])
  case bararr => exact Does.of_lane rfl (fun _ => rfl) (fun c s l hc _ ha => by rw [barLane_arrives (by rw [hc]) ha])
  case barwt =>
    refine Does.of_lane rfl (fun _ => rfl) (fun c s l hc _ ⟨hw, hb⟩ => ?_)
    simp only [wave?_of_isSome hw]
    rw [if_neg (Nat.not_le.mpr hb), hc]
    split <;> rfl

/-! ## Tokens, steps and user-level interrupts (R184 to R187) -/

/-- An arrival at the step that none of its checks refuses. -/
theorem stepFail_eq_none {r : Region} {w : Wave} {m l : Nat} (hsame : r.stepMask.getD m = m) (hmember : inMask (w.mask m) l = true)
    (hkept : ∀ y, r.stepArr.find? (fun x => x.1 = w.uid) = some y → y.2.1 = w.mask m)
    (hfirst : inMask (((r.stepArr.find? (fun x => x.1 = w.uid)).map (fun x => x.2.2)).getD 0) l = false) : stepFail r w m l = none := by
  simp only [stepFail]
  rw [if_neg (not_not.mpr hsame), if_neg (by simp [hmember]), if_neg (fun ha => (any_bne_iff _ _ _).mp ha hkept), if_neg (Bool.eq_false_iff.mp hfirst)]

/-- The machine with the arrival of lane `l` of wave `w` at the step of its region, which is `r`, under mask `m` (R185, R225). -/
def State.stepArrived (s : State) (r : Region) (w : Wave) (m l : Nat) : State :=
  let arr := ((r.stepArr.find? (fun x => x.1 = w.uid)).map (fun x => x.2.2)).getD 0
  s.updRegion w.rid (fun q => { q with
    stepMask := some m
    stepView := joinIds q.stepView (w.thread l).vw.ids
    stepArr := q.stepArr.filter (fun x => x.1 ≠ w.uid) ++ [(w.uid, w.mask m, setLane arr l true)] })

/-- A lane of a wave of the step's set whose arrival passes its checks is recorded, and waits (R185, R287). -/
theorem sstepLane_arrives {c : Ctx} {s : State} {l : Nat} {r : Region} (hw : (s.wave? c.uid).isSome) (hr : s.region? (waveOf c s).rid = some r)
    (hm : r.ssm = true) (hin : r.stepSet.contains (waveOf c s).uid = true) (hk : stepFail r (waveOf c s) c.e.h.c.toNat l = none) :
    sstepLane c s l = (s.stepArrived r (waveOf c s) c.e.h.c.toNat l, .ok { st := some (.syncWait .step c.next c.e.h.s) }) := by
  simp only [sstepLane, wave?_of_isSome hw, hr, hm, hin, Bool.not_true, Bool.false_eq_true, if_false]
  have hseen : (match r.stepArr.find? (fun x => x.1 = (waveOf c s).uid) with | some x => x.2.1 != (waveOf c s).mask c.e.h.c.toNat | none => false) =
      (r.stepArr.find? (fun x => x.1 = (waveOf c s).uid)).any (fun x => x.2.1 != (waveOf c s).mask c.e.h.c.toNat) := by
    cases r.stepArr.find? (fun x => x.1 = (waveOf c s).uid) <;> rfl
  simp only [stepFail] at hk
  split_ifs at hk with hmask hlane hset hseenLane
  rw [if_neg hmask, if_neg (by simpa using hlane)]
  exact (if_neg (fun h => hset (hseen.symm.trans h))).trans (if_neg hseenLane)

/-- A lane of a wave outside the step's set waits without an arrival (R287). -/
theorem sstepLane_outside {c : Ctx} {s : State} {l : Nat} {r : Region} (hw : (s.wave? c.uid).isSome) (hr : s.region? (waveOf c s).rid = some r)
    (hm : r.ssm = true) (hout : r.stepSet.contains (waveOf c s).uid = false) :
    sstepLane c s l = (s, .ok { st := some (.syncWait .step c.next c.e.h.s) }) := by
  simp only [sstepLane, wave?_of_isSome hw, hr, hm, hout, Bool.not_true, Bool.false_eq_true, if_false, Bool.not_false, if_true]

/-- Settles O14: each instruction answers its lane with one outcome; the two of SSTEP are those of a wave in the step's set and of one outside it. -/
theorem tokensStepsAndUserInterruptsComplete : Obligations.TokensStepsAndUserInterruptsComplete := by
  intro h f x
  refine ⟨?twait, ?ttest, fun R => ?arrival, fun R => ?waits, ?wfi, fun back => ?uiret, ?uimsk⟩
  case twait => exact Does.of_lane rfl (fun _ => rfl) (fun c s l hc _ _ => by rw [hc])
  case ttest =>
    refine Does.of_lane rfl (fun _ => rfl) (fun c s l _ _ ⟨hw, hnone⟩ => ?_)
    simp only [wave?_of_isSome hw, hnone]
  case arrival =>
    refine Does.of_lane rfl (fun _ => rfl) (fun c s l hc _ ⟨hw, hr, hm, hin, hsame, hmember, hkept, hfirst⟩ => ?_)
    have hk := stepFail_eq_none hsame hmember hkept hfirst
    simp only [sstepLane_arrives hw hr hm hin (by rw [hc]; exact hk), hc]
    rfl
  case waits =>
    refine Does.of_lane rfl (fun _ => rfl) (fun c s l hc _ ⟨hw, hr, hm, hout⟩ => ?_)
    simp only [sstepLane_outside hw hr hm hout, hc]
  case wfi => exact Does.of_lane rfl (fun _ => rfl) (fun c s l hc _ _ => by rw [hc])
  case uiret =>
    refine Does.of_lane rfl (fun _ => rfl) (fun c s l _ _ ⟨hw, hrun⟩ => ?_)
    simp only [wave?_of_isSome hw, hrun, if_true]
  case uimsk => exact DoesOnce.of_uni rfl (fun _ => rfl) (fun _ _ _ _ _ _ => rfl)

/-! ## Handles (R192 to R194, R441) -/

/-- Settles O33: on an open handle TRET and PARKQ take the branch of their record's kind, and LANEPC that of its form. -/
theorem handlerInstructionsComplete : Obligations.HandlerInstructionsComplete := by
  intro h f x R e hd is lane inside setPc walks
  refine ⟨?tret, ?tretEngine, ?parkq, fun hf => ?write, fun hf => ?read, fun hf => ?leave⟩
  case tret =>
    refine DoesOnceMem.of_uni rfl (fun _ => rfl) (fun c s l _ _ ⟨hrec, heng⟩ => ?_)
    simp only [is, hd] at hrec
    simp only [hrec, heng]
    rfl
  case tretEngine =>
    refine DoesOnceMem.of_uni rfl (fun _ => rfl) (fun c s l _ _ ⟨hrec, heng⟩ => ?_)
    simp only [is, hd] at hrec
    simp only [hrec, heng, State.tretNow, decide_eq_true_eq]
    rfl
  case parkq =>
    refine DoesOnceMem.of_uni rfl (fun _ => rfl) (fun c s l _ _ hrec => ?_)
    simp only [is, hd] at hrec
    simp only [hrec]
    rfl
  case write =>
    refine DoesMem.of_lane rfl (fun _ => rfl) (fun c s l hc _ ⟨hrec, heng⟩ => ?_)
    obtain rfl : c.e.h = h := by rw [hc]
    simp only [is, hd] at hrec
    simp only [lanepcLane, hrec, heng, hf, Option.isSome_none, Bool.false_eq_true, if_false]
    change (if (!inside c s l) = true then _ else (setPc c s l, _)) = _
    cases inside c s l <;> rfl
  case read =>
    refine DoesMem.of_lane rfl (fun _ => rfl) (fun c s l hc _ ⟨hrec, heng⟩ => ?_)
    obtain rfl : c.e.h = h := by rw [hc]
    simp only [is, hd] at hrec
    simp only [lanepcLane, hrec, heng, hf, Option.isSome_none, Bool.false_eq_true, if_false]
    rfl
  case leave =>
    refine DoesMem.of_lane rfl (fun _ => rfl) (fun c s l hc _ ⟨hrec, heng⟩ => ?_)
    obtain rfl : c.e.h = h := by rw [hc]
    simp only [is, hd] at hrec
    simp only [lanepcLane, hrec, heng, Option.isSome_none, Bool.false_eq_true, if_false]
    split
    · omega
    · omega
    · change (if (!inside c s l) = true then _ else _) = _
      cases inside c s l
      · rfl
      · cases s.wave? (R c l).uid <;> rfl

/-! ## A trap in a packet that issues again

The statement does not ask, as `ComputesIf` does, that no lane of the packet has an access that has waited. A packet with such a lane parks, with its outcomes, the
lanes of the wave that have met faults in packets in which no access waits any more (R35). Lane 0 issues again, at a pc that now holds a TRAP; lane 1, of another
packet, has met a fault. No hypothesis says that such a lane has parked by then. -/

/-- As splitWave, where the waiting lane and the failed lane are of two packets. -/
def strayWave : Wave := { splitWave with threads := [(0, { reissuingLane with pkt := 1 }), (1, failedLane)] }

/-- The machine with that wave, lane 0 of it in the packet of the slot. -/
def strayState : State := { splitState with waves := [strayWave] }

/-- The fields of TRAP. -/
def trapHdr : Hdr := ⟨0, 0, 0, 0, 0, false, 7, false, false, .w64⟩

theorem strayState_group : Group strayState strayWave [0] 0x1000 where
  head := ⟨_, _, rfl, rfl, rfl⟩
  wave := rfl
  once := by decide
  launched := by decide
  quiet := fun _ => rfl

theorem strayWave_able : Able (enc 0x68 trapHdr (codeFnBits ⟨7⟩) 0) strayWave where
  regs := by decide
  mode := by decide

/-- Lane 1 is outside the packet, and parks as TRAP completes in lane 0. -/
theorem trap_parks_failedLane {t : State} (h : exec (.trap trapHdr ⟨7⟩ 0) strayState = .next t) : (t.thread 1 1).st = .parked := by
  cases h
  decide

/-- Refutes O11: no hypothesis keeps out a lane whose access has waited, and with its TRAP the packet parks a lane outside it, which the statement leaves as it was. -/
theorem not_trapsPark : ¬ Obligations.TrapsPark := by
  intro h
  obtain ⟨htrap, -⟩ := h trapHdr ⟨7⟩ 0 _ strayState strayWave [0] 0x1000 strayState_group strayWave_able (by decide)
  exact absurd (trap_parks_failedLane (htrap rfl)) (by decide)

end Sys2Proof.Machine
end

section
/-!
PROOF. MJOIN and MLEAVE (R175): a packet whose lanes complete with no result leaves the masks and registers of its wave, whatever lanes park with it, and the write of the
mask follows.
-/

namespace Sys2Proof.Machine

/-! ## The masks and registers of the waves -/

/-- The mask registers of a wave and its register files. -/
def Wave.regFiles (w : Wave) : Sparse LaneMask × Sparse Word × Sparse Word := (w.m, w.v, w.s)

/-- The mask registers and register files of every wave. -/
def State.regFiles (s : State) (u : Nat) : Option (Sparse LaneMask × Sparse Word × Sparse Word) := (s.wave? u).map Wave.regFiles

theorem State.regFiles_of_waves {s t : State} (h : t.waves = s.waves) : t.regFiles = s.regFiles := by
  funext u
  simp only [State.regFiles, State.wave?, h]

/-- An update of the waves one by one that leaves their masks and registers. -/
theorem State.regFiles_mapWaves (s : State) {g : Wave → Wave} (hu : ∀ w, (g w).uid = w.uid) (hg : ∀ w, (g w).regFiles = w.regFiles) :
    ({ s with waves := s.waves.map g } : State).regFiles = s.regFiles := by
  funext u
  simp only [State.regFiles, State.wave?_mapWaves s hu, Option.map_map, Function.comp_def, hg]

theorem State.regFiles_updWave (s : State) (v : Nat) {f : Wave → Wave} (hu : ∀ w, (f w).uid = w.uid) (hf : ∀ w, (f w).regFiles = w.regFiles) :
    (s.updWave v f).regFiles = s.regFiles :=
  s.regFiles_mapWaves (fun w => by split <;> simp [hu]) (fun w => by split <;> simp [hf])

@[simp] theorem State.regFiles_updThread (s : State) (v l : Nat) (f : Thread → Thread) : (s.updThread v l f).regFiles = s.regFiles :=
  s.regFiles_updWave v (fun _ => rfl) (fun _ => rfl)

@[simp] theorem State.regFiles_noteIdle (s : State) (p : Wave → Bool) (ev : Nat) : (s.noteIdle p ev).regFiles = s.regFiles :=
  s.regFiles_mapWaves (fun w => by split <;> rfl) (fun w => by split <;> rfl)

theorem State.regFiles_asService (s : State) {f : State → State} (hf : ∀ t : State, (f t).regFiles = t.regFiles) : (s.asService f).regFiles = s.regFiles :=
  hf { s with ord := { s.ord with agent := none } }

/-- What every step of a fold keeps, the fold keeps. -/
theorem foldl_keeps {α β γ : Type} {f : γ → α → γ} (g : γ → β) (hf : ∀ s a, g (f s a) = g s) (xs : List α) (s : γ) : g (xs.foldl f s) = g s := by
  induction xs generalizing s with
  | nil => rfl
  | cons a xs ih => rw [List.foldl_cons, ih, hf]

/-! ## Parking leaves the masks and registers -/

@[simp] theorem State.regFiles_raiseHigh (s : State) : s.raiseHigh.regFiles = s.regFiles := State.regFiles_noteIdle _ _ _

@[simp] theorem State.regFiles_lowIf (s : State) (group unit cnt : Nat) : (s.lowIf group unit cnt).regFiles = s.regFiles := by
  unfold State.lowIf
  split
  · exact State.regFiles_noteIdle _ _ _
  · rfl

@[simp] theorem State.regFiles_setCsr (s : State) (a v : Nat) : (s.setCsr a v).regFiles = s.regFiles := State.regFiles_of_waves rfl

theorem State.regFiles_bankError (s : State) (group unit : Nat) (ue consumed : Bool) (src addr info : Nat) :
    (s.bankError group unit ue consumed src addr info).regFiles = s.regFiles := by
  unfold State.bankError
  simp only
  split
  · split <;> simp
  · split
    · split <;> simp
    · simp

@[simp] theorem State.waves_want (s : State) (kind unit : Nat) : (s.want kind unit).waves = s.waves := by
  unfold State.want
  split <;> rfl

@[simp] theorem State.waves_wantSram (s : State) (group unit addr : Nat) : (s.wantSram group unit addr).waves = s.waves := by
  unfold State.wantSram
  split
  · simp
  · split <;> simp

@[simp] theorem State.waves_markRow (s : State) (group unit addr : Nat) : (s.markRow group unit addr).waves = s.waves := by
  unfold State.markRow
  split
  · rfl
  · simp only
    split
    · rw [State.waves_wantSram]; rfl
    · rfl

@[simp] theorem State.waves_noteCorrected (s : State) (ch : Nat) : (s.noteCorrected ch).waves = s.waves := by
  unfold State.noteCorrected
  simp only
  split
  · rw [State.waves_want]; rfl
  · rfl

/-- A spare action that an error calls for is noted, and no wave changes. -/
theorem State.waves_trigger (s : State) (group unit : Nat) (ue : Bool) (src addr : Nat) : (s.trigger group unit ue src addr).waves = s.waves := by
  unfold State.trigger
  split
  · split_ifs <;> simp
  · split_ifs <;> simp
  · split_ifs <;> simp
  · rfl

theorem State.regFiles_recordErrors (s : State) : s.recordErrors.regFiles = s.regFiles :=
  foldl_keeps State.regFiles (fun t _ => (State.regFiles_of_waves (State.waves_trigger _ _ _ _ _ _)).trans (t.regFiles_bankError _ _ _ _ _ _ _)) _
    { s with ueLog := [] }

theorem Wave.regFiles_clearRaised (w : Wave) (ls : List Nat) : (w.clearRaised ls).regFiles = w.regFiles :=
  foldl_keeps Wave.regFiles (fun w l => by split <;> rfl) ls w

/-- Writing a record leaves the masks and registers. -/
theorem State.regFiles_writeRec (s : State) (rid : Nat) : (s.writeRec rid).regFiles = s.regFiles := by
  refine State.regFiles_asService s (fun t => ?_)
  split
  · next r i rec h _ _ _ =>
    split
    · simp only
      split
      · rfl
      · next locs _ =>
        split
        · rfl
        · have hnote : ((t.post rid (r.fq + 32 * (r.fqW % r.fqn)) locs (leBytes 32 (rec.bits h))).noteIdle (fun w => w.rid = rid) 2).regFiles = t.regFiles :=
            (State.regFiles_noteIdle _ _ _).trans (State.regFiles_of_waves (t.waves_post _ _ _ _).2.2)
          split
          · exact hnote
          · exact (State.regFiles_updWave _ _ (fun w => (w.keepsRun_clearRaised _).2) (fun w => w.regFiles_clearRaised _)).trans hnote
    · rfl
  · rfl

theorem State.regFiles_parkLanes (s : State) (uid : Nat) (fs : List (Nat × LFault)) : (s.parkLanes uid fs).regFiles = s.regFiles := by
  rw [State.parkLanes, State.dropLanes_rest]
  exact s.regFiles_updWave uid (fun w => by rw [Wave.parkLanes_rest]) (fun w => by rw [Wave.parkLanes_rest]; rfl)

/-- Lanes of no wave do not park. -/
theorem State.parkSub_none {s : State} {uid : Nat} (hw : s.wave? uid = none) (site : VA) (fs : List (Nat × LFault)) : s.parkSub uid site fs = s := by
  cases fs with
  | nil => rfl
  | cons p fs => simp only [State.parkSub, hw]

theorem State.regFiles_parkSub (s : State) (uid : Nat) (site : VA) (fs : List (Nat × LFault)) : (s.parkSub uid site fs).regFiles = s.regFiles := by
  cases hw : s.wave? uid with
  | none => rw [State.parkSub_none hw]
  | some w =>
    cases fs with
    | nil => rfl
    | cons p fs =>
      rw [State.parkSub_cons hw]
      split
      · exact s.regFiles_parkLanes _ _
      · exact (State.regFiles_writeRec _ _).trans (s.regFiles_parkLanes _ _)

theorem State.regFiles_park (s : State) (uid : Nat) (site : VA) (fs : List (Nat × LFault)) : (s.park uid site fs).regFiles = s.regFiles := by
  unfold State.park
  rw [State.regFiles_parkSub]
  split
  · exact s.regFiles_recordErrors
  · rfl

/-! ## A packet of which other lanes park -/

/-- The masks and registers of the waves, the counters of the threads and the results on their way are as they were. -/
structure State.KeepsFiles (s t : State) : Prop where
  files : t.regFiles = s.regFiles
  pend : t.pend = s.pend
  pc : ∀ u l, (t.thread u l).pc = (s.thread u l).pc

theorem State.KeepsFiles.refl (s : State) : s.KeepsFiles s := ⟨rfl, rfl, fun _ _ => rfl⟩

theorem State.KeepsFiles.trans {s t r : State} (h : s.KeepsFiles t) (k : t.KeepsFiles r) : s.KeepsFiles r :=
  ⟨k.files.trans h.files, k.pend.trans h.pend, fun u l => (k.pc u l).trans (h.pc u l)⟩

theorem State.KeepsFiles.foldl {α : Type} {f : State → α → State} (hf : ∀ (s : State) a, s.KeepsFiles (f s a)) (xs : List α) (s : State) :
    s.KeepsFiles (xs.foldl f s) := by
  induction xs generalizing s with
  | nil => exact .refl s
  | cons a xs ih => exact (hf s a).trans (ih _)

theorem State.keepsFiles_park (s : State) (uid : Nat) (site : VA) (fs : List (Nat × LFault)) : s.KeepsFiles (s.park uid site fs) := by
  cases hw : s.wave? uid with
  | none =>
    obtain ⟨r, hnotes, hpark⟩ := s.park_notes uid site fs
    have hr : s.park uid site fs = r := by rw [hpark, State.parkSub_none (hnotes.run.none uid hw)]
    refine ⟨s.regFiles_park uid site fs, ?_, fun u l => ?_⟩
    · rw [hr, hnotes.run.pend]
    · rw [hr, (hnotes.run.thread u l).1]
  | some w =>
    obtain ⟨hthread, -, -, hpend, -⟩ := s.park_keeps uid w site fs hw
    refine ⟨s.regFiles_park uid site fs, hpend, fun u l => (hthread u l).1.trans ?_⟩
    split
    · next h => rw [h.1, State.thread_of_wave hw]
    · rfl

/-- The lanes of a wave that had met faults park (R35). -/
theorem State.keepsFiles_parkFailed (s : State) (uid : Nat) : s.KeepsFiles (s.parkFailed uid) := by
  unfold State.parkFailed
  split
  · exact .refl s
  · exact .foldl (fun t _ => t.keepsFiles_park _ _ _) _ _

theorem State.keepsFiles_lanePassed (s t : State) (c : Ctx) : t.KeepsFiles (s.lanePassed t c) := by
  unfold State.lanePassed State.failLanes
  split
  · have hmark : t.markFailed c.uid [] = t := t.updWave_id c.uid
    rw [hmark]
    exact t.keepsFiles_parkFailed c.uid
  · exact .refl t

/-! ## A packet whose lanes only complete -/

section Group
variable {s : State} {w : Wave} {ls : List Nat} {pc : VA} {e : Enc}

theorem Wave.regFiles_updThreads (w : Wave) (ls : List Nat) (f : Thread → Thread) : (ls.foldl (fun w l => w.updThread l f) w).regFiles = w.regFiles :=
  foldl_keeps (f := fun w l => w.updThread l f) Wave.regFiles (fun _ _ => rfl) ls w

theorem State.regFiles_begun (s : State) (e : Enc) (w : Wave) (ls : List Nat) (pc : VA) : (s.begun e w ls pc).regFiles = s.regFiles :=
  (foldl_keeps State.regFiles (fun t l => t.regFiles_updThread w.uid l _) _ _).trans
    (State.regFiles_updWave { s with packets := s.packets.tail } w.uid (fun w => updThreads_uid ls w _) (fun w => w.regFiles_updThreads ls _))

theorem State.pend_begun (s : State) (e : Enc) (w : Wave) (ls : List Nat) (pc : VA) : (s.begun e w ls pc).pend = s.pend := by
  rw [State.begun_eq]

/-- Lanes that complete with no result leave the masks, the registers and the results on their way. -/
theorem State.finishLanes_rest (c : Ctx) (on : List Nat) (s : State) :
    (on.foldl (fun s l => s.finishLane c l {}) s).regFiles = s.regFiles ∧ (on.foldl (fun s l => s.finishLane c l {}) s).pend = s.pend := by
  induction on generalizing s with
  | nil => exact ⟨rfl, rfl⟩
  | cons l on ih =>
    obtain ⟨hfiles, hpend⟩ := ih (s.finishLane c l {})
    exact ⟨hfiles.trans ((State.regFiles_updThread _ _ _ _).trans (State.regFiles_updThread _ _ _ _)), hpend⟩

/-- Every thread of a packet whose lanes complete with no result goes on after the instruction. -/
theorem Group.pc_finishLanes (hs : Group s w ls pc) (l : Nat) (hl : l ∈ ls) :
    (((guarded e w ls).foldl (fun s l => s.finishLane (ctxOf e w ls pc) l {}) (s.begun e w ls pc)).thread w.uid l).pc = nextPc pc e.h.len := by
  obtain ⟨hw, -, hon, hoff⟩ := hs.thread_begun (e := e)
  have hlaunched : ∀ k ∈ guarded e w ls, ((s.begun e w ls pc).thread w.uid k).st ≠ .notLaunched := fun k hk => by
    rw [hon k hk]
    exact hs.launched k (List.mem_filter.mp hk).1
  obtain ⟨hrest, hdone⟩ := thread_fold (c := ctxOf e w ls pc) (o := fun _ => {}) (guarded e w ls) (hs.once.filter _) (s.begun e w ls pc) hw hlaunched
    (fun _ => by simp)
  by_cases hg : l ∈ guarded e w ls
  · obtain ⟨st, -, h⟩ := hdone l hg
    exact (congrArg Thread.pc h).trans rfl
  · obtain ⟨st, h⟩ := hoff l hl hg
    rw [hrest w.uid l (fun h => hg h.2), h]

/-- A packet whose lanes complete with no result: what follows finds the wave past the instruction, with its masks and registers, whatever other lanes park. -/
theorem Group.run_completes (hs : Group s w ls pc) (hm : Able e w) (hon : guarded e w ls ≠ []) :
    ∃ t v, (∀ post, runPacketThen e (pureWise (fun _ _ _ => .ok {})) post s = (post (ctxOf e w ls pc) t).endSlot) ∧ t.wave? w.uid = some v ∧
      v.regFiles = w.regFiles ∧ (∀ l ∈ ls, (v.thread l).pc = nextPc pc e.h.len) ∧ t.pend = s.pend := by
  let c := ctxOf e w ls pc
  let u := (guarded e w ls).foldl (fun s l => s.finishLane c l {}) (s.begun e w ls pc)
  obtain ⟨hfiles, hpend⟩ := State.finishLanes_rest c (guarded e w ls) (s.begun e w ls pc)
  have hkeep : u.KeepsFiles ((s.begun e w ls pc).lanePassed u c) := State.keepsFiles_lanePassed _ _ _
  have hwave : ((s.begun e w ls pc).lanePassed u c).regFiles w.uid = some w.regFiles := by
    rw [hkeep.files, hfiles, State.regFiles_begun, State.regFiles, hs.wave, Option.map_some]
  obtain ⟨v, hv, hvw⟩ := Option.map_eq_some_iff.mp hwave
  refine ⟨_, v, fun post => ?_, hv, hvw, fun l hl => ?_, ?_⟩
  · have hbody : pureWise (fun _ _ _ => .ok {}) c (s.begun e w ls pc) =
        (s.begun e w ls pc, { lanes := ((guarded e w ls).map (fun l => (l, ({} : LaneOut)))).map (fun x => (x.1, .ok x.2)) }) := by
      simp only [pureWise, List.map_map]
      rfl
    rw [runPacketThen_group hs hm hon, hbody, State.commit_oks, List.foldl_map]
  · rw [← State.thread_of_wave hv, hkeep.pc, hs.pc_finishLanes l hl]
  · rw [hkeep.pend, hpend, State.pend_begun]

end Group

/-! ## MJOIN and MLEAVE (R175) -/

theorem Wave.m_of_regFiles {v w : Wave} (h : v.regFiles = w.regFiles) : v.m = w.m := congrArg Prod.fst h

theorem Wave.mask_of_regFiles {v w : Wave} (h : v.regFiles = w.regFiles) (k : Nat) : v.mask k = w.mask k := by
  simp only [Wave.mask, Wave.m0, Wave.m_of_regFiles h]

/-- The masks after a write of one, whose bits of lanes clear in m0 stay zero (R55). -/
theorem Wave.mask_setMask {m : Nat} (hm : m ≠ 0) (w : Wave) (x : LaneMask) (k : Nat) : (w.setMask m x).mask k = if k = m then x &&& w.m0 else w.mask k := by
  have hget (j : Nat) : Sparse.get 0 (w.setMask m x).m j = if j = m then x &&& w.m0 else Sparse.get 0 w.m j := by
    simp only [Wave.setMask, if_neg hm, Sparse.get_put]
  have hm0 : (w.setMask m x).m0 = w.m0 := (hget 0).trans (if_neg hm.symm)
  rw [Wave.mask, hget, hm0]
  split
  · rw [BitVec.and_assoc, BitVec.and_self]
  · rfl

theorem inMask_and (a b : LaneMask) (l : Nat) : inMask (a &&& b) l = (inMask a l && inMask b l) := BitVec.getLsbD_and

theorem inMask_or (a b : LaneMask) (l : Nat) : inMask (a ||| b) l = (inMask a l || inMask b l) := BitVec.getLsbD_or

theorem inMask_not (a : LaneMask) {l : Nat} (hl : l < 128) : inMask (~~~a) l = !inMask a l := by
  have h := BitVec.getLsbD_not (x := a) (i := l)
  rw [decide_eq_true hl, Bool.true_and] at h
  exact h

theorem inMask_maskOf (ls : List Nat) {l : Nat} (hl : l < 128) : inMask (maskOf ls) l = decide (l ∈ ls) := by
  rw [Bool.eq_iff_iff, decide_eq_true_eq]
  exact (bitAt_maskOf ls l).trans (and_iff_right hl)

/-- An instruction that writes mask D of its wave, and nothing else, leaves the other masks, the registers and the results on their way; the waits on the mask, and the
barriers, are evaluated then (R175, R178, R182). -/
theorem Group.run_writesMask {s : State} {w : Wave} {ls : List Nat} {pc : VA} {e : Enc} {op : BitVec 8} {h : Hdr} {f : CodeFn} {x : BitVec 64}
    {g : Ctx → State → Wave → LaneMask} (hs : Group s w ls pc) (hm : Able e w) (hon : guarded e w ls ≠ []) (hd : h.d ≠ 0) (he : enc op h (codeFnBits f) x = e)
    {y : LaneMask} (hg : ∀ t v, v.regFiles = w.regFiles → g (ctxOf e w ls pc) t v = y) :
    ∃ (t : State) (v : Wave), runMask op h f x g s = .next ((t.evalMask w.uid h.d.toNat).evalBarsOf w.uid).endSlot ∧ t.wave? w.uid = some v ∧
      v.mask h.d.toNat = y &&& w.m0 ∧ (∀ k, k ≠ h.d.toNat → v.mask k = w.mask k) ∧
      (∀ l ∈ ls, (v.thread l).pc = nextPc pc e.h.len) ∧ v.v = w.v ∧ v.s = w.s ∧ t.pend = s.pend := by
  have hm0 : h.d.toNat ≠ 0 := fun h0 => hd (BitVec.eq_of_toNat_eq h0)
  obtain ⟨t, v, hrun, hv, hfiles, hpc, hpend⟩ := hs.run_completes hm hon
  have hmask := Wave.mask_setMask hm0 v y
  have hset : v.setMask h.d.toNat y = { v with m := (v.setMask h.d.toNat y).m } := by simp only [Wave.setMask, if_neg hm0]
  refine ⟨t.updWave w.uid (fun v => v.setMask h.d.toNat y), v.setMask h.d.toNat y, ?_, ?_, ?_, fun k hk => ?_, fun l hl => ?_, ?_, ?_, hpend⟩
  · subst he
    have hc : (ctxOf (enc op h (codeFnBits f) x) w ls pc).uid = w.uid := rfl
    simp only [runMask, hrun, hc, hv, hg t v hfiles]
    rfl
  · rw [State.wave?_updWave _ _ _ _ (fun v => by unfold Wave.setMask; split <;> rfl), if_pos rfl, hv, Option.map_some]
  · rw [hmask, if_pos rfl, Wave.m0, Wave.m_of_regFiles hfiles, Wave.m0]
  · rw [hmask, if_neg hk, Wave.mask_of_regFiles hfiles]
  · rw [hset]
    exact hpc l hl
  · rw [hset]
    exact congrArg (fun x => x.2.1) hfiles
  · rw [hset]
    exact congrArg (fun x => x.2.2) hfiles

/-- Settles O52: what MJOIN and MLEAVE write is read lane by lane. -/
theorem joinAndLeave : Obligations.JoinAndLeave := by
  intro h f x e s w ls pc hd hs hm hon m on step
  have hstep (i : Instr) (bit : Nat → Bool) (y : LaneMask) (op : BitVec 8) (g : Ctx → State → Wave → LaneMask) (he : enc op h (codeFnBits f) x = e)
      (hx : exec i s = runMask op h f x g s) (hg : ∀ t v, v.regFiles = w.regFiles → g (ctxOf e w ls pc) t v = y)
      (hbit : ∀ l, l < 128 → inMask y l = bit l) : step i bit := by
    obtain ⟨t, v, hrun, hv, hmask, hrest⟩ := hs.run_writesMask hm hon hd he hg
    refine ⟨t, v, hx.trans hrun, hv, fun l hl => ?_, hrest⟩
    rw [hmask, inMask_and, hbit l hl, Bool.and_comm]
  refine ⟨fun he => ?join, fun he => ?leave⟩
  case join =>
    refine hstep _ _ (w.mask m ||| maskOf on) 0x70 _ (Option.some.inj he) rfl (fun t v hv => ?_) (fun l hl => ?_)
    · rw [Wave.mask_of_regFiles hv]
      rfl
    · rw [inMask_or, inMask_maskOf on hl]
  case leave =>
    refine hstep _ _ (w.mask m &&& ~~~(maskOf on)) 0x71 _ (Option.some.inj he) rfl (fun t v hv => ?_) (fun l hl => ?_)
    · rw [Wave.mask_of_regFiles hv]
      rfl
    · rw [inMask_and, inMask_not _ hl, inMask_maskOf on hl]

end Sys2Proof.Machine
end

section
/-!
PROOF. The events of fault service and containment (R185, R188, R421, R436, R438, R445 to R449): the branch of its definition that each event takes under its conditions.
-/

namespace Sys2Proof.Machine

/-! ## Records (R188, R435) -/

/-- What the service does rests on the machine in which it acts (R216). -/
theorem State.asService_congr {s : State} {f g : State → State}
    (h : f { s with ord := { s.ord with agent := none } } = g { s with ord := { s.ord with agent := none } }) :
    s.asService f = s.asService g := by
  simp only [State.asService, State.serve, h]

/-- A waiting record with a handle and a slot free, in a queue that can be written. -/
theorem faultRecordDeferredWrite_writes {s : State} {rid i h : Nat} {r : Region} {q : Rec} {ls : List Loc} (hr : s.region? rid = some r)
    (hq : findIdx (fun q => q.rid = rid && decide (q.st = .waiting)) s.recs = some (i, q)) (hh : s.freeHandle rid = some h) (hroom : s.occupied rid < r.fqn)
    (hls : ({ s with ord := { s.ord with agent := none } } : State).translateRange rid (r.fq + 32 * (r.fqW % r.fqn)) true 32 = .ok ls)
    (hok : ({ s with ord := { s.ord with agent := none } } : State).poisonAt ls = none) :
    exec (.faultRecordDeferredWrite rid) s = .next (s.asService (fun t =>
      let t := (t.post rid (r.fq + 32 * (r.fqW % r.fqn)) ls (leBytes 32 (q.bits h))).noteIdle (fun w => w.rid = rid) 2
      let t := if q.eng.isSome then t else t.updWave q.uid (fun w => w.clearRaised (q.lanes.map (fun l => l.lane)))
      { t with recs := setAt t.recs i { q with handle := some h, st := .written },
               regions := t.regions.map (fun p => if p.rid = rid then { p with fqW := (p.fqW + 1) % 2 ^ 32 } else p) })) := by
  refine congrArg Host.Outcome.next (State.asService_congr ?_)
  generalize hu : ({ s with ord := { s.ord with agent := none } } : State) = u at hls hok
  have hru : u.region? rid = some r := hu ▸ hr
  have hqu : findIdx (fun q => q.rid = rid && decide (q.st = .waiting)) u.recs = some (i, q) := hu ▸ hq
  have hhu : u.freeHandle rid = some h := hu ▸ hh
  have hroomu : u.occupied rid < r.fqn := hu ▸ hroom
  simp only [hru, hqu, hhu, hroomu, hls, hok, Option.isSome_none, Bool.false_eq_true, if_true, if_false]

/-- A record whose handler wave has room in the cluster where its fault arose (R436). -/
theorem faultHandlerStart_home {s t : State} {rid i core : Nat} {r : Region} {q : Rec} (hr : s.region? rid = some r) (hq : s.nextRec r = some (i, q))
    (hfhnd : r.fhnd ≠ 0) (ht : s.startFault r i q (s.recCluster q) core = some t) : exec (.faultHandlerStart rid (s.recCluster q) core) s = .next t := by
  have hexec : exec (.faultHandlerStart rid (s.recCluster q) core) s = execFaultHandlerStart rid (s.recCluster q) core s := rfl
  simp [hexec, execFaultHandlerStart, hr, hq, hfhnd, ht]

/-! ## The service of the SVC (R436) -/

/-- What a record holds goes on, or ends: its parked lanes, or its engine's operation. -/
def State.endRec (s : State) (rid : Nat) (q : Rec) (exit : Bool) : State :=
  match q.eng with
  | none => s.tret rid (q.handle.getD 0) exit []
  | some e => s.tretNow rid (q.handle.getD 0) exit e

/-- Does a record hold a code under which all of its lanes exit? -/
def Rec.exits (q : Rec) : Bool := q.faults.any (fun f => f.1 = fcDeadlock || f.1 = fcAbort)

/-- Does a record hold lanes with WATCH? -/
def Rec.watched (q : Rec) : Bool := q.faults.any (fun f => f.1 = fcWatch)

section Serve

variable {s : State} {rid : Nat} {q : Rec}

/-- A record of DEADLOCK or ABORT. -/
theorem State.svcServe_exits (h : q.exits = true) : s.svcServe rid q = s.endRec rid q true := if_pos h

/-- A record of which a page is still copy-on-write. -/
theorem State.svcServe_copies {va : Nat} {l : Leaf} (h : q.exits = false) (hcow : s.nextCow rid q = some (va, l)) :
    s.svcServe rid q = s.startCow (s.recCluster q) rid (q.handle.getD 0) va l := by
  simp only [Rec.exits] at h
  simp only [State.svcServe, h, hcow, Bool.false_eq_true, if_false]

/-- A record of WATCH lanes that an attached debugger holds. -/
theorem State.svcServe_held (h : q.exits = false) (hcow : s.nextCow rid q = none) (hwatch : q.watched = true) (hdebug : Config.debugHolds s.tick = true) :
    s.svcServe rid q = s := by
  simp only [Rec.exits, Rec.watched] at h hwatch
  simp only [State.svcServe, h, hcow, hwatch, hdebug, Bool.false_eq_true, if_false, Bool.and_self, if_true]

/-- A record that nothing holds. -/
theorem State.svcServe_goesOn (h : q.exits = false) (hcow : s.nextCow rid q = none) (hheld : q.watched = true → Config.debugHolds s.tick = false) :
    s.svcServe rid q = s.endRec rid q false := by
  have hno : (q.watched && Config.debugHolds s.tick) = false := by simpa using hheld
  simp only [Rec.exits, Rec.watched] at h hno
  simp only [State.svcServe, h, hcow, hno, Bool.false_eq_true, if_false]
  rfl

end Serve

section Svc

variable {s : State} {rid : Nat} {r : Region} (hr : s.region? rid = some r) (hfhnd : r.fhnd = 0)
include hr hfhnd

/-- The SVC goes on with the record that it serves. -/
theorem svcFaultService_serves {q : Rec} (hcow : s.svc.cows.find? (fun x => x.rid = rid) = none)
    (hq : s.recs.find? (fun q => q.rid = rid && decide (q.st = .served 0)) = some q) : exec (.svcFaultService rid) s = .next (s.svcServe rid q) := by
  have hexec : exec (.svcFaultService rid) s = execSvcFaultService rid s := rfl
  simp only [hexec, execSvcFaultService, hr, hfhnd, hcow, hq, ne_eq, not_true_eq_false, if_false]

/-- The SVC takes the next record, each of whose codes it serves. -/
theorem svcFaultService_takes {q : Rec} {i : Nat} (hcow : s.svc.cows.find? (fun x => x.rid = rid) = none)
    (hno : s.recs.find? (fun q => q.rid = rid && decide (q.st = .served 0)) = none) (hq : s.nextRec r = some (i, q))
    (hserves : q.faults.find? (fun f => !svcServes f.1) = none) :
    exec (.svcFaultService rid) s = .next ((s.dispatched rid i q 0).svcServe rid q) := by
  have hexec : exec (.svcFaultService rid) s = execSvcFaultService rid s := rfl
  simp only [hexec, execSvcFaultService, hr, hfhnd, hcow, hno, hq, hserves, ne_eq, not_true_eq_false, if_false]

/-- The SVC takes the next record, one of whose codes it does not serve. -/
theorem svcFaultService_fatal {q : Rec} {i : Nat} {f : Nat × Nat} (hcow : s.svc.cows.find? (fun x => x.rid = rid) = none)
    (hno : s.recs.find? (fun q => q.rid = rid && decide (q.st = .served 0)) = none) (hq : s.nextRec r = some (i, q))
    (hfatal : q.faults.find? (fun f => !svcServes f.1) = some f) :
    let d := s.dispatched rid i q 0
    exec (.svcFaultService rid) s = .next { d with fatals := d.fatals ++ [(rid, f.1)] } := by
  have hexec : exec (.svcFaultService rid) s = execSvcFaultService rid s := rfl
  simp only [hexec, execSvcFaultService, hr, hfhnd, hcow, hno, hq, hfatal, ne_eq, not_true_eq_false, if_false]

/-- The SVC goes on with the copy under way. -/
theorem svcFaultService_copies {x : Cow} (hcow : s.svc.cows.find? (fun x => x.rid = rid) = some x) (hdrain : s.draining rid = false) :
    exec (.svcFaultService rid) s = .next (s.advanceCow x) := by
  have hexec : exec (.svcFaultService rid) s = execSvcFaultService rid s := rfl
  simp only [hexec, execSvcFaultService, hr, hfhnd, hcow, hdrain, ne_eq, not_true_eq_false, Bool.false_eq_true, if_false]

end Svc

/-! ## Copies (R434) -/

/-- The end of an agent's reads leaves the service core. -/
theorem State.svc_endReads (s : State) (who : Who) : (s.endReads who).svc = s.svc := by
  unfold State.endReads
  simp only
  split <;> rfl

/-- The agent of a copy has no request, read or write of its own left. -/
def State.cowDone (s : State) (x : Cow) : State := (s.dropRops x.who).endReads x.who

/-- A copy whose next bytes have come writes them to the new page, and notes them. -/
theorem State.advanceCow_moves {s a : State} {x : Cow} {bs : List Byte} (hmore : x.done < x.size) (hread : s.cowRead x 4096 = (a, .ok bs)) :
    (s.advanceCow x).mem = ((a.cowDone x).store ((List.range bs.length).map (fun i => .dev (x.page + x.done + i) .rc)) bs).mem ∧
      ∀ y ∈ (s.advanceCow x).svc.cows, y.slot = x.slot → ∃ z ∈ a.svc.cows, y = { z with done := z.done + 4096 } := by
  have hsvc : ((a.cowDone x).store ((List.range bs.length).map (fun i => .dev (x.page + x.done + i) .rc)) bs).svc = a.svc := by
    rw [State.keeps_store]
    exact State.svc_endReads _ _
  have hadvance : s.advanceCow x =
      (let t := (a.cowDone x).store ((List.range bs.length).map (fun i => .dev (x.page + x.done + i) .rc)) bs
       { t with svc := { t.svc with cows := t.svc.cows.map (fun y => if y.slot = x.slot then { y with done := y.done + 4096 } else y) } }) := by
    simp only [State.advanceCow, if_neg (Nat.not_le.mpr hmore), hread]
    rfl
  rw [hadvance]
  refine ⟨rfl, fun y hy hslot => ?_⟩
  simp only [hsvc, List.mem_map] at hy
  obtain ⟨z, hz, rfl⟩ := hy
  split at hslot
  · next h => exact ⟨z, hz, if_pos h⟩
  · next h => exact absurd hslot h

/-! ## Supersteps (R185, R287) -/

section Step

variable {s : State} {rid : Nat} {r : Region} (hr : s.region? rid = some r) (hdone : s.stepDone r = true) (habort : r.aborting = false)
include hr hdone habort

/-- A step at which every member has arrived ends (R185, R287). -/
theorem stepEnd_ends (hpeers : r.cgrp = 0 ∨ (r.grpActive = true ∧ r.stepPeers.contains (64 * r.stepno + r.peerix) = true ∧ r.cgsz ≤ r.stepHere)) :
    exec (.stepEnd rid) s = .next ((s.stepWaiters rid).foldl (fun t w => w.2.foldl (fun t l =>
        ((t.joinLane r.stepView w.1 l).acquireLane r.stepView w.1 l).release w.1 l) t)
      ((s.updRegion rid (fun r => { r with stepno := (r.stepno + 1) % 2 ^ 32 })).beginStep rid)) := by
  have hexec : exec (.stepEnd rid) s = execStepEnd rid s := rfl
  rcases hpeers with hgrp | ⟨hact, hown, hhere⟩
  · simp [hexec, execStepEnd, hr, hdone, habort, hgrp]
  · simp only [hexec, execStepEnd, hr, hdone, habort, hact, hown, Nat.not_lt.mpr hhere, Bool.not_true, Bool.false_or, Bool.and_false, Bool.false_eq_true, if_false,
      decide_false]

/-- A member whose step is done sends its arrival to its peers. -/
theorem stepEnd_arrives (hgrp : r.cgrp ≠ 0) (hact : r.grpActive = true) (hown : r.stepPeers.contains (64 * r.stepno + r.peerix) = false) :
    exec (.stepEnd rid) s = .next ((s.updRegion rid (fun r' => { r' with stepPeers := r'.stepPeers ++ [64 * r.stepno + r.peerix] })).sendPeers r
      (fun p => .stepArrive rid p r.stepno r.stepView)) := by
  have hexec : exec (.stepEnd rid) s = execStepEnd rid s := rfl
  simp only [hexec, execStepEnd, hr, hdone, habort, hgrp, hact, hown, Bool.not_true, Bool.false_or, Bool.and_false, Bool.false_eq_true, if_false, ne_eq,
    not_false_eq_true, decide_true, Bool.not_false, Bool.and_self, if_true]

end Step

/-! ## Fatal faults and the collective abort (R445 to R447) -/

/-- A fatal fault ends its domain's subtree, or starts the abort of the domain's group (R445, R447). -/
theorem fatalFault_taken {s : State} {rid code : Nat} {d : Region} (hfatal : s.fatals.contains (rid, code) = true) :
    let t := { s with fatals := s.fatals.erase (rid, code) }
    t.region? (t.domainOf 8 rid) = some d →
    exec (.fatalFault rid code) s = .next (if d.cgrp = 0 ∨ d.aborting = true ∨ d.abWave.isSome then t.endSubtree (t.domainOf 8 rid) rid code
      else t.startAbort (t.domainOf 8 rid) (some code)) := by
  intro t hd
  have hexec : exec (.fatalFault rid code) s = execFatalFault rid code s := rfl
  simp only [t] at hd ⊢
  simp only [hexec, execFatalFault, hfatal, hd, Bool.not_true, Bool.false_eq_true, if_false, Bool.or_eq_true, decide_eq_true_eq, or_assoc]

/-- Settles O40: each event under its conditions is one branch of its definition, and what the SVC does with a record is one of four ends of `svcServe`. -/
theorem faultServiceEventsComplete : Obligations.FaultServiceEventsComplete := by
  intro s rid r hr
  refine ⟨fun i q h ls => faultRecordDeferredWrite_writes hr, ?start, ?svc, ?cow, ?budget,
    fun hdone habort => ⟨stepEnd_ends hr hdone habort, stepEnd_arrives hr hdone habort⟩, rfl, fun code d => fatalFault_taken, ?token, ?agree, ?agreeHandler,
    ?timeout, rfl⟩
  case start =>
    rintro i q cl core t hq hfhnd rfl ht
    exact faultHandlerStart_home hr hq hfhnd ht
  case svc =>
    intro hfhnd hcow svc serves
    have hserves (d : State) (q : Rec) (hrun : svc (d.svcServe rid q)) : serves d q := by
      refine ⟨fun h => ?_, fun va l h hc => ?_, fun h hc => ⟨fun hw hd => ?_, fun hheld => ?_⟩⟩
      · exact hrun.trans (congrArg Host.Outcome.next (State.svcServe_exits h))
      · exact hrun.trans (congrArg Host.Outcome.next (State.svcServe_copies h hc))
      · exact hrun.trans (congrArg Host.Outcome.next (State.svcServe_held h hc hw hd))
      · exact hrun.trans (congrArg Host.Outcome.next (State.svcServe_goesOn h hc hheld))
    refine ⟨fun q hq => hserves s q (svcFaultService_serves hr hfhnd hcow hq), fun i q hno hq => ⟨fun f hf => ?_, fun hf => ?_⟩⟩
    · exact svcFaultService_fatal hr hfhnd hcow hno hq hf
    · exact hserves _ q (svcFaultService_takes hr hfhnd hcow hno hq hf)
  case cow =>
    intro x hfhnd hcow hdrain
    have hrun := svcFaultService_copies hr hfhnd hcow hdrain
    refine ⟨fun hend => ?_, fun a bs hmore hread => ⟨_, hrun, State.advanceCow_moves hmore hread⟩⟩
    rw [hrun, State.advanceCow, if_pos hend]
  case budget =>
    intro htbud hcharge hno
    have hexec : exec (.serviceBudgetExceed rid) s = execServiceBudgetExceed rid s := rfl
    simp [hexec, execServiceBudgetExceed, hr, htbud, hcharge, hno]
  case token =>
    intro peer step orig code hact hpeer hother hnew
    have hexec : exec (.abortTokenReceive rid peer step orig code) s = execAbortTokenReceive rid peer step orig code s := rfl
    simp [hexec, execAbortTokenReceive, hr, hact, hother, hnew, Nat.not_le.mpr hpeer]
  case agree =>
    intro hagrees habnd
    have hexec : exec (.abortAgree rid) s = execAbortAgree rid s := rfl
    simp [hexec, execAbortAgree, hr, hagrees, habnd]
  case agreeHandler =>
    intro t hagrees habnd ht
    have hexec : exec (.abortAgree rid) s = execAbortAgree rid s := rfl
    simp [hexec, execAbortAgree, hr, hagrees, habnd, ht]
  case timeout =>
    intro peer hab hact hpeer hclk hnone
    have hexec : exec (.abortTokenTimeout rid peer) s = execAbortTokenTimeout rid peer s := rfl
    simp [hexec, execAbortTokenTimeout, hr, hab, hact, hpeer, hclk, hnone]

end Sys2Proof.Machine
end

section
/-!
PROOF. Atomics (R201, R208, R209, R229, R233), fences and cache maintenance (R211, R212, R224), the run-ahead LDX and GJOIN (R206, R207), and the multicast read (R213,
R214).
-/

namespace Sys2Proof.Machine

/-! ## Atomics (R208, R209) -/

section
variable {f : MemFn} {ret : Bool} {c : Ctx} {s : State} {l : Nat} {ls : List (Nat × Loc)}

/-- An atomic whose first byte is not on a peer is performed here. -/
theorem atomLane_here (h : s.access c f l true (szBytes f.sz) = .ok ls) (haway : ((ls.map (fun x => x.2)).head?.getD default : Loc).away = false) :
    atomLane f ret c s l = s.atomHere c f ret l ls := by
  simp only [atomLane, h]
  split
  · cases haway
  · rfl

/-- An atomic whose first byte is on a peer is asked of that peer. -/
theorem atomLane_there {peer pva : Nat} {k : PageKind} (h : s.access c f l true (szBytes f.sz) = .ok ls)
    (hrem : (ls.map (fun x => x.2)).head?.getD default = .rem peer pva k) : atomLane f ret c s l = s.atomThere c f ret l peer pva k ls := by
  cases ls with
  | nil => cases hrem
  | cons x ls =>
    obtain ⟨va, loc⟩ := x
    cases hrem
    simp only [atomLane, h]

end

/-- Settles O17: an access that passes its checks takes, by where its first byte stands, the branch of `atomLane` that performs the step or the one that asks a peer. -/
theorem atomicsComplete : Obligations.AtomicsComplete := by
  intro h f x ls locs l0 aop b passes here old new after asked
  have hhere (ret : Bool) : ∀ c s l, c.e.h = h → c.e.x = x → here c s l → atomLane f ret c s l = (after ret c s l,
      .ok (if ret then { regs := regWrites l .v h.d.toNat (szCount f.sz) (old c s l), flags := BitVec.ofNat 7 (new c s l).2, ue := s.ueAt (ls c l), st := admitted c }
        else { st := admitted c })) := by
    rintro c s l rfl rfl ⟨haway, hacc⟩
    rw [atomLane_here hacc haway]
    simp only [State.atomHere, Bool.and_eq_true]
    rfl
  have haway (peer pva : Ctx → Nat → Nat) (k : Ctx → Nat → PageKind) (ret : Bool) : ∀ c s l, c.e.h = h → c.e.x = x →
      (l0 c l = .rem (peer c l) (pva c l) (k c l) ∧ passes c s l) →
      atomLane f ret c s l = ((asked peer pva k ret c s l).1, .ok (asked peer pva k ret c s l).2) := by
    rintro c s l rfl rfl ⟨hrem, hacc⟩
    rw [atomLane_there hacc hrem]
    rfl
  refine ⟨?atom, ?red, fun peer pva k => ⟨?atomAway, ?redAway⟩⟩
  case atom => exact DoesMem.of_lane rfl (fun _ => rfl) (fun c s l hc _ hp => hhere true c s l (by rw [hc]) (by rw [hc]) hp)
  case red => exact DoesMem.of_lane rfl (fun _ => rfl) (fun c s l hc _ hp => hhere false c s l (by rw [hc]) (by rw [hc]) hp)
  case atomAway => exact DoesMem.of_lane rfl (fun _ => rfl) (fun c s l hc _ hp => haway peer pva k true c s l (by rw [hc]) (by rw [hc]) hp)
  case redAway => exact DoesMem.of_lane rfl (fun _ => rfl) (fun c s l hc _ hp => haway peer pva k false c s l (by rw [hc]) (by rw [hc]) hp)

/-! ## Fences and cache maintenance (R211, R212) -/

section
variable {f : MemFn} {g : Wave → Nat → Loc → State → State} {c : Ctx} {s : State} {l : Nat}

/-- An instruction that names an offset of device memory acts on the byte that is there. -/
theorem hintLane_acts {va : Nat} {p : Loc} {rest : List (Nat × Loc)} (hw : (s.wave? c.uid).isSome) (ha : s.ord.agent.isSome)
    (hseg : ¬(2 ≤ f.seg.toNat ∧ f.seg.toNat ≤ 4))
    (hloc : s.locate ((waveOf c s).atIssue l) l f.seg.toNat (s.memOffset c f l) 1 false 0 = .ok ((va, p) :: rest)) :
    hintLane f g c s l = (g (waveOf c s) va p s, .ok { st := admitted c }) := by
  obtain ⟨a, ha⟩ := Option.isSome_iff_exists.mp ha
  simp only [hintLane, wave?_of_isSome hw, ha]
  rw [if_neg (by simpa using hseg), hloc]

/-- One that names an offset on chip does nothing. -/
theorem hintLane_onChip (hw : (s.wave? c.uid).isSome) (ha : s.ord.agent.isSome) (hseg : 2 ≤ f.seg.toNat ∧ f.seg.toNat ≤ 4) :
    hintLane f g c s l = (s, .ok { st := admitted c }) := by
  obtain ⟨a, ha⟩ := Option.isSome_iff_exists.mp ha
  simp only [hintLane, wave?_of_isSome hw, ha]
  exact if_pos (by simpa using hseg)

/-- One whose checks or translation fail does nothing, and does not fault. -/
theorem hintLane_failed {e : LFault} (hw : (s.wave? c.uid).isSome) (ha : s.ord.agent.isSome)
    (hloc : s.locate ((waveOf c s).atIssue l) l f.seg.toNat (s.memOffset c f l) 1 false 0 = .error e) (hmiss : e.code ≠ fcMiss) (hdrain : e.code ≠ fcDrain) :
    hintLane f g c s l = (s, .ok { st := admitted c }) := by
  by_cases hseg : 2 ≤ f.seg.toNat ∧ f.seg.toNat ≤ 4
  · exact hintLane_onChip hw ha hseg
  obtain ⟨a, ha⟩ := Option.isSome_iff_exists.mp ha
  simp only [hintLane, wave?_of_isSome hw, ha]
  rw [if_neg (by simpa using hseg), hloc]
  simp only [hmiss, hdrain, if_false]

end

/-- The lane of a fence changes the view of its agent, and a FENCE.ar takes its place in the order F (R224). -/
theorem fenceLane_acts {f : MemFn} {c : Ctx} {s : State} (l : Nat) (ha : s.ord.agent.isSome) :
    let t := s.updAgent (fun g => g.fence f.ord (scopeOf c) s.ord.ars)
    fenceLane f c s l = (match f.ord, t.ord.agent with
      | .ar, some g => { t with ord := { t.ord with ars := t.ord.ars ++ [⟨scopeOf c, g.place, g.vw.hb⟩] } }
      | _, _ => t, .ok {}) := by
  obtain ⟨a, ha⟩ := Option.isSome_iff_exists.mp ha
  cases hord : f.ord <;> simp [fenceLane, State.updAgent, ha, hord]

/-- Settles O18: FENCE by the effect of its lane, PREF and CMAINT by the three ends of `hintLane` that do not wait for a walk or a drain. -/
theorem orderingAndCachesComplete : Obligations.OrderingAndCachesComplete := by
  intro h f x at' rest seg names acts on off wait
  have hoff : ∀ g c s l, off c s l → hintLane f g c s l = (s, .ok (wait c)) := by
    rintro g c s l ⟨⟨hw, ha⟩, hseg | ⟨e, hloc, hmiss, hdrain⟩⟩
    · exact hintLane_onChip hw ha hseg
    · exact hintLane_failed hw ha hloc hmiss hdrain
  have hon : ∀ g c s l, on c s l → hintLane f g c s l = (g (waveOf c s) (at' c l).1 (at' c l).2 s, .ok (wait c)) :=
    fun g c s l ⟨⟨hw, ha⟩, hseg, hloc⟩ => hintLane_acts hw ha hseg hloc
  refine ⟨?fence, ?pref, ?prefOff, ?cmaint, ?cmaintOff⟩
  case fence => exact DoesMem.of_lane rfl (fun _ => rfl) (fun c s l _ _ ha => fenceLane_acts l ha)
  case pref => exact DoesMem.of_lane rfl (fun _ => rfl) (fun c s l _ _ hp => hon _ c s l hp)
  case prefOff => exact DoesMem.of_lane rfl (fun _ => rfl) (fun c s l _ _ hp => hoff _ c s l hp)
  case cmaint => exact DoesMem.of_lane rfl (fun _ => rfl) (fun c s l _ _ hp => hon _ c s l hp)
  case cmaintOff => exact DoesMem.of_lane rfl (fun _ => rfl) (fun c s l _ _ hp => hoff _ c s l hp)

/-! ## The run-ahead LDX and GJOIN (R206, R207) -/

/-- A lane that joins its group is of a wave that there was. -/
theorem State.wave?_of_joinedGroup {c : Ctx} {s : State} {l : Nat} (h : ((s.joinedGroup c l).wave? c.uid).isSome) : (s.wave? c.uid).isSome := by
  simpa [State.joinedGroup, State.wave?_updWave] using h

/-- A lane that joins its group and whose bytes are there, none of them uncorrectable: its data is on its way, and it waits for its token. -/
theorem aheadLane_reads {c : Ctx} {f : MemFn} {s : State} {l : Nat} {ls : List (Nat × Loc)} (hw : (s.wave? c.uid).isSome) (hj : mayJoin c s l)
    (hacc : (s.joinedGroup c l).access c f l false 0 = .ok ls) (hm : (s.joinedGroup c l).missing ls = none) (hue : (s.joinedGroup c l).ueAt ls = none) :
    let k := bitsAt c.e.x.toNat 56 4
    let r := (s.joinedGroup c l).loaded c f State.updReader [l] ls
    let regs := regWrites l .v c.e.h.d.toNat (szCount f.sz) (loadVal f.sz r.2)
    let t := (r.1.dropPend c.uid [l] (regs.map (fun r => r.1))).updWave c.uid (fun w => w.setTok k l true)
    aheadLane f c s l = ({ t with flight := { t.flight with ahead := t.flight.ahead ++ [⟨c.uid, l, k, regs⟩] } },
      .ok { st := some (.tokenWait (BitVec.ofNat 16 (2 ^ k)) c.next false false) }) := by
  have hfetched := State.fetched_places hacc hm
  simp only [State.joinedGroup] at hfetched hue ⊢
  simp only [aheadLane, wave?_of_isSome hw]
  rw [if_neg (by simpa [mayJoin, or_iff_not_imp_left] using hj)]
  simp only [hfetched, hue]

/-! ## The multicast read (R213, R214) -/

section
variable (h : Hdr) (f : MemFn) (x : BitVec 64) (c : Ctx) (s : State) (l : Nat) (loc : Loc)

/-- The bytes that a lane's LDMC reads, the first at `loc`, lie inside its segment and in one 8 KiB block, and its token is free. -/
def ldmcReads : Prop :=
  let g := ((waveOf c s).atIssue l).seg f.seg.toNat
  let o := s.memOffset c f l
  let a := (segBaseOf g + o) % 2 ^ 56
  let size := 128 * (bitsAt x.toNat 38 6 + 1)
  (s.wave? c.uid).isSome ∧ s.granted 7 = true ∧ o + size ≤ segLimit g ∧ o % 128 = 0 ∧ a / 8192 = (a + (size - 1)) / 8192 ∧
    s.translate (waveOf c s).rid a false = .ok loc ∧ (waveOf c s).tokPending h.d.toNat l = false

/-- The cbufs that an LDMC names. -/
def ldmcDests : List (Nat × Nat) :=
  mcastDests (s.readRegs c.uid 0 .s (bitsAt x.toNat 44 8) 2) (bitsAt x.toNat 58 6) (bitsAt x.toNat 54 4)

/-- The request that a lane of an LDMC posts. -/
def ldmcRequest : MReq :=
  let r := s.region? (waveOf c s).rid
  { id := s.fresh, uid := c.uid, lane := l, tok := h.d.toNat, rid := (waveOf c s).rid, step := (r.map (fun r => r.stepno)).getD 0,
    win := (r.bind (fun r => r.part)).getD 8, va := (segBaseOf (((waveOf c s).atIssue l).seg f.seg.toNat) + s.memOffset c f l) % 2 ^ 56, loc := loc,
    size := 128 * (bitsAt x.toNat 38 6 + 1), dests := ldmcDests x c s, hint := hintPrio f.hint, waits := false, entry := none, late := false,
    view := s.opView }

/-- The state once a lane of an LDMC has posted its request. -/
def State.ldmcPosted : State :=
  let t := s.updWave c.uid (fun w => w.setTok h.d.toNat l true)
  { t with fresh := s.fresh + 1, flight := { t.flight with mreqs := t.flight.mreqs ++ [ldmcRequest h f x c s l loc] } }

end

/-- A lane of an LDMC that passes its checks posts its request and sets its token, or, with no destination, only waits. -/
theorem ldmcLane_reads {h : Hdr} {f : MemFn} {x : BitVec 64} {c : Ctx} {s : State} {l : Nat} {loc : Loc} (hc : c.e = enc 0x87 h (memFnBits f) x)
    (hr : ldmcReads h f x c s l loc) (hd : ∀ p ∈ ldmcDests x c s, p.1 ≤ 47 ∧ s.inPart (waveOf c s).rid p.1 = true) :
    ldmcLane f c s l = (if (ldmcDests x c s).isEmpty then s else State.ldmcPosted h f x c s l loc, .ok { st := admitted c }) := by
  obtain ⟨hw, hg, hlimit, halign, hblock, hloc, htok⟩ := hr
  have hnear : (ldmcDests x c s).any (fun d => 47 < d.1) = false := by simpa using fun i j h => (hd (i, j) h).1
  have hin : (ldmcDests x c s).filter (fun d => !s.inPart (waveOf c s).rid d.1) = [] := by simpa using fun i j h => (hd (i, j) h).2
  unfold ldmcDests at hnear hin ⊢
  simp only [ldmcLane, wave?_of_isSome hw, hg, hc, enc]
  rw [if_neg (Nat.not_lt.mpr hlimit), if_neg (by simpa [halign] using hblock), hloc]
  simp only [hnear, hin, htok, List.head?_nil, Bool.false_eq_true, if_false]
  split <;> rfl

theorem mcastDests_zero (clb q : Nat) : mcastDests 0 clb q = [] := by
  simp [mcastDests]

/-- Settles O19: each lane passes the checks of `aheadLane`, of GJOIN or of `ldmcLane`, and takes the branch that follows them. -/
theorem runAheadCompletes : Obligations.RunAheadCompletes := by
  refine ⟨?runAhead, ?ldmc, ?ldmcNone⟩
  case runAhead =>
    intro h f x ls k locs joined
    refine ⟨fun hlen hx => ?ahead, ?gjoin⟩
    case ahead =>
      refine DoesMem.of_lane rfl (exec_ldx_ahead hlen hx f) ?_
      rintro ⟨_, uid, pc, next, all, on⟩ s l rfl - ⟨hw, htok, hopen, hacc, hm, hue⟩
      exact aheadLane_reads (State.wave?_of_joinedGroup hw) ⟨htok, hopen⟩ hacc hm hue
    case gjoin =>
      refine DoesMem.of_lane rfl (fun _ => rfl) (fun c s l _ _ ⟨hw, hsite⟩ => ?_)
      simp only [wave?_of_isSome hw]
      cases hin : inMask (Sparse.get 0 (waveOf c s).jg h.a.toNat) l with
      | false => rfl
      | true => exact if_neg (not_not.mpr (hsite hin))
  case ldmc =>
    intro h f x at' d ds size seg addr
    refine DoesMem.of_lane rfl (fun _ => rfl) (fun c s l hc _ ⟨hw, hg, hlimit, halign, hblock, hloc, hds, hin, htok⟩ => ?_)
    have hdests : ldmcDests x c s = d c l :: ds c l := hds
    rw [ldmcLane_reads hc ⟨hw, hg, hlimit, halign, hblock, hloc, htok⟩ (by rwa [hdests])]
    simp only [State.ldmcPosted, ldmcRequest, hdests]
    rfl
  case ldmcNone =>
    intro h f x at'
    refine DoesMem.of_lane rfl (fun _ => rfl) (fun c s l hc _ ⟨hw, hg, hlimit, halign, hblock, hloc, hzero, htok⟩ => ?_)
    have hdests : ldmcDests x c s = [] := by rw [ldmcDests, hzero, mcastDests_zero]
    rw [ldmcLane_reads hc ⟨hw, hg, hlimit, halign, hblock, hloc, htok⟩ (by simp [hdests]), hdests]
    rfl

end Sys2Proof.Machine
end

section
/-!
PROOF. The service stores one byte (R201): it writes and reads at the newest point of the byte's sector.
-/

namespace Sys2Proof.Machine

/-- What the service reads at a place: the newest byte there, and no page of a peer (log 17). -/
theorem State.readLocs_service {s : State} (hs : s.ord.agent = none) (q : Loc) : s.readLocs [q] = [s.newest q] := by
  cases q <;> simp [State.readLocs, State.spots, sectorsOf, State.readAt, State.putByte, State.heldSector, State.remByte, State.remAns, hs, spotOf, byteAt,
    State.newest]

/-- The service's store of one byte is one part, at the newest point of its sector. -/
theorem State.store_service {s : State} (hs : s.ord.agent = none) (p : Loc) (b : Byte) :
    s.store [p] [b] = s.storePart [(p, b)] ⟨p, 0, 0⟩ 0 [] false := by
  simp [State.store, State.storeAs, State.storeWith, State.spots, hs, sectorsOf]

/-- A byte put in its place is the newest there. -/
theorem State.newest_writeLoc_same {p : Loc} (hp : p.away = false) (s : State) (b : Byte) : (s.writeLoc p b).newest p = b := by
  cases p with
  | rem => cases hp
  | dev | loc | chip => simp [State.writeLoc, State.newest, Sparse.get_put]

/-- A store to a sector of this module writes, but for a part of a sector with uncorrectable data, which is left, with the error noted (R201). -/
theorem State.storePart_here {s : State} {sp : Spot} (hsp : sp.at'.away = false) (xs : List (Loc × Byte)) (i : Nat) (rels : List Rel) (rmw : Bool) :
    s.storePart xs sp i rels rmw =
      if s.isPoison sp.at' then
        if (List.range 32).all (fun o => xs.any (fun x => x.1.off = o)) then
          ({ s with poison := s.poison.filter (fun p => p ≠ sp.at'.sec) } : State).writePart xs sp i rels rmw
        else s.noteUe sp.at' false
      else s.writePart xs sp i rels rmw := by
  unfold State.storePart
  split
  · next he => rw [he] at hsp; cases hsp
  · rfl

/-- An error that is noted changes the log of errors alone. -/
theorem State.noteUe_keeps (s : State) (l : Loc) (consumed : Bool) : s.noteUe l consumed = { s with ueLog := (s.noteUe l consumed).ueLog } := by
  unfold State.noteUe
  split <;> rfl

section
variable {s : State} {p : Loc} {b : Byte} (hs : s.ord.agent = none) (hp : p.away = false)
include hs hp

/-- The service's store of a byte of a sector without uncorrectable data writes it. -/
theorem State.store_service_sound (h : s.isPoison p = false) : s.store [p] [b] = s.writePart [(p, b)] ⟨p, 0, 0⟩ 0 [] false := by
  rw [State.store_service hs, State.storePart_here hp, h]
  rfl

/-- The service's store of a byte of a sector with uncorrectable data, which is not the whole of it, is noted. -/
theorem State.store_service_poison (h : s.isPoison p = true) : s.store [p] [b] = s.noteUe p false := by
  have hpart : (List.range 32).all (fun o => [(p, b)].any (fun x => x.1.off = o)) = false := by
    by_cases hoff : p.off = 0
    · exact List.all_eq_false.mpr ⟨1, by simp, by simp [hoff]⟩
    · exact List.all_eq_false.mpr ⟨0, by simp, by simp [hoff]⟩
  rw [State.store_service hs, State.storePart_here hp, h, hpart]
  rfl

/-- The byte that the service writes is the newest of its place. -/
theorem State.newest_writePart_service : (s.writePart [(p, b)] ⟨p, 0, 0⟩ 0 [] false).newest p = b := by
  have hput : (s.writePart [(p, b)] ⟨p, 0, 0⟩ 0 [] false).newest p = (s.writeLoc p b).newest p := by
    simp only [State.writePart, hs]
    cases p <;> rfl
  rw [hput, State.newest_writeLoc_same hp]

/-- After the service's store the service still acts. -/
theorem State.agent_store_service : (s.store [p] [b]).ord.agent = none := by
  cases h : s.isPoison p with
  | true => rw [State.store_service_poison hs hp h, State.noteUe_keeps, hs]
  | false =>
    rw [State.store_service_sound hs hp h]
    simp only [State.writePart, hs]
    cases p <;> exact hs

/-- What the service reads after its store is the newest byte. -/
theorem State.readLocs_store_service (q : Loc) : (s.store [p] [b]).readLocs [q] = [(s.store [p] [b]).newest q] :=
  State.readLocs_service (State.agent_store_service hs hp) q

/-- A byte that is stored reads back. -/
theorem State.readLocs_store_same (h : s.isPoison p = false) : (s.store [p] [b]).readLocs [p] = [b] := by
  rw [State.readLocs_store_service hs hp, State.store_service_sound hs hp h, State.newest_writePart_service hs hp]

/-- Every other place reads as before. -/
theorem State.readLocs_store_other {q : Loc} (hq : ¬ q.at p) : (s.store [p] [b]).readLocs [q] = s.readLocs [q] := by
  rw [State.readLocs_store_service hs hp, State.readLocs_service hs, State.newest_store s [p] [b] q (by simpa using hq)]

/-- A byte of an uncorrectable sector stays as it was, and its sector uncorrectable (R201). -/
theorem State.store_poison_unchanged (h : s.isPoison p = true) :
    (s.store [p] [b]).readLocs [p] = s.readLocs [p] ∧ (s.store [p] [b]).isPoison p = true := by
  rw [State.readLocs_store_service hs hp, State.readLocs_service hs, State.store_service_poison hs hp h, State.noteUe_keeps]
  cases p with
  | rem => cases hp
  | dev | loc | chip => exact ⟨rfl, h⟩

end

/-- Settles O56: the service's store is one part, which is written or, in an uncorrectable sector, noted; `State.Keeps` gives what no store changes. -/
theorem storeReadsBack : Obligations.StoreReadsBack := by
  intro s p q b hs hrem t
  have hp : p.away = false := by
    cases p with
    | rem m va k => exact absurd rfl (hrem m va k)
    | dev | loc | chip => rfl
  have hkeeps : s.Keeps t := State.keeps_store s [p] [b]
  exact ⟨State.readLocs_store_same hs hp, State.readLocs_store_other hs hp, State.store_poison_unchanged hs hp, fun hok => State.memOk_store hok _ _,
    hkeeps.finalReg, hkeeps.waves, hkeeps.pend, by rw [hkeeps], by rw [hkeeps], by rw [hkeeps]⟩

end Sys2Proof.Machine
end

section
/-!
PROOF. The events of the networks (R214, R215, R243, R246 to R248, R252 to R254, R420): the branch of its definition that each event takes under its conditions.
-/

namespace Sys2Proof.Machine

/-! ## Multicast (R214, R215, R248) -/

/-- A request whose group has an open entry joins it. -/
theorem State.admitReq_joins {t : State} {q : MReq} {e : MEntry} (he : t.flight.ments.find? q.joins = some e) : t.admitReq q = t.joinEntry q e := by
  simp only [State.admitReq, he]

/-- The first of its group opens an entry, where the slice has one free and no request waits. -/
theorem State.admitReq_opens {t : State} {q : MReq} (hnone : t.flight.ments.find? q.joins = none) (hfree : t.entryFree q.slice = true)
    (hwait : t.flight.mreqs.any (fun x => x.waits && x.slice = q.slice) = false) : t.admitReq q = t.openEntry q := by
  simp only [State.admitReq, hnone, hfree, hwait, Bool.not_false, Bool.or_true, Bool.and_self, if_true]

theorem multicastRequestArrive_admits {s : State} {k : Nat} {q : MReq} (hq : s.flight.mreqs.find? (fun q => q.id = k && q.entry.isNone && !q.waits) = some q) :
    exec (.multicastRequestArrive k) s = .next ((s.closeEntries q.slice).admitReq q) := by
  have hexec : exec (.multicastRequestArrive k) s = .next (s.arriveReq k) := rfl
  simp only [hexec, State.arriveReq, hq]

section
variable {s : State} {slice k : Nat} {e : MEntry} (he : s.flight.ments.find? (fun e => e.id = k && e.slice = slice && e.filled.isNone) = some e)
include he

/-- A fill whose bytes are there is read, and its requests are owed their copies. -/
theorem multicastFill_fills {bs : List Byte} :
    let a := s.asOp (.mread k) .port e.view
    let r := (a.updFlight (fun f => { f with ments := f.ments.map (fun x => if x.id = k then { x with view := [] } else x) })).readBy
      (updFill k) (e.locs.map (fun x => x.2)) none
    let u := ((r.1.dropRops (.mread k)).endReads (.mread k)).opDone
    let v := (u.updFlight (fun f => { f with ments := f.ments.map (fun x => if x.id = k then { x with filled := some u.clk, bytes := bs } else x) })).fillLines e
    a.ueAt e.locs = none → a.absent e.locs = none → r.2 = bs →
    exec (.multicastFill slice k) s = .next ((v.flight.mreqs.filter (fun q => q.entry = some k)).foldl (fun t q => t.copiesFor q bs) v) := by
  rintro a r u v hue habsent rfl
  have hexec : exec (.multicastFill slice k) s = execMulticastFill slice k s := rfl
  simp only [hexec, execMulticastFill, he]
  simp only [a] at hue habsent
  simp only [hue, habsent]
  rfl

/-- A fill that meets uncorrectable data ends, with the lanes of its requests to park (R215). -/
theorem multicastFill_uncorrectable {b : Nat} (hue : (s.asOp (.mread k) .port e.view).ueAt e.locs = some b) :
    exec (.multicastFill slice k) s = .next ((((s.asOp (.mread k) .port e.view).meetUe (e.locs.map (fun x => x.2))).failFill e
      (fun t q => t.mcastUe q (b - e.va))).opDone) := by
  have hexec : exec (.multicastFill slice k) s = execMulticastFill slice k s := rfl
  simp only [hexec, execMulticastFill, he, hue]
  rfl

end

theorem multicastEntryClose_closes {s : State} {k : Nat} {e : MEntry} (he : s.flight.ments.find? (fun e => e.id = k) = some e) (hopen : s.isOpen e = false) :
    exec (.multicastEntryClose k) s = .next (s.closeEntries e.slice) := by
  have hexec : exec (.multicastEntryClose k) s = execMulticastEntryClose k s := rfl
  simp only [hexec, execMulticastEntryClose, he, hopen]
  rfl

/-- What happens before a copy: the view of its request. -/
def State.copyView (s : State) (c : MCopy) : List Nat := ((s.flight.mreqs.find? (fun q => q.id = c.req)).map (fun q => q.view)).getD []

section
variable {s : State} {k : Nat} {c : MCopy} (hc : s.cts.copies.find? (fun c => c.id = k) = some c)
include hc

theorem multicastCopyAdvance_drops (hdrop : s.drops c.rid c.cl c.cb = true) :
    exec (.multicastCopyAdvance k) s = .next (((s.count (clReg c.cl 5) 32 1).asOp (.mread c.req) .port (s.copyView c)).endCopy c) := by
  have hexec : exec (.multicastCopyAdvance k) s = execMulticastCopyAdvance k s := rfl
  simp only [hexec, execMulticastCopyAdvance, hc, hdrop]
  rfl

theorem multicastCopyAdvance_lands (hdrop : s.drops c.rid c.cl c.cb = false) (hroom : s.grantable c.cl c.cb true c.asked c.bytes.length = true) :
    exec (.multicastCopyAdvance k) s = .next ((s.asOp (.mread c.req) .port (s.copyView c)).landCopy c) := by
  have hexec : exec (.multicastCopyAdvance k) s = execMulticastCopyAdvance k s := rfl
  simp only [hexec, execMulticastCopyAdvance, hc, hdrop, hroom]
  rfl

end

/-! ## Active messages (R252 to R254) -/

section
variable {s : State} {m : AMsg}

/-- The first message of a relay for a cluster of this module, whose queue has room. -/
theorem State.leaveRelay_queues (hhome : bitAt m.target 6 = false ∨ m.away = true) (hroom : (s.inQueue (bitsAt m.target 0 6) (s.classOf m.rid)).length < 8) :
    s.leaveRelay m = if m.away then (s.moveMsg m .queue).send
        (.ack (.peer ((s.moveMsg m .queue).moduleOf m.rid m.peer) ((s.moveMsg m .queue).classOf m.rid)) m.tok [] 0 ⟨[], []⟩)
      else (s.moveMsg m .queue).messageDone m := by
  have hno : (bitAt m.target 6 && !m.away) = false := by simpa [imp_iff_not_or] using hhome
  simp only [State.leaveRelay, hno, hroom, Bool.false_eq_true, if_true, if_false]

/-- The first message of a relay for a peer of an active group. -/
theorem State.leaveRelay_sends {r : Region} (hpeer : bitAt m.target 6 = true) (haway : m.away = false) (hr : s.region? m.rid = some r) (hact : r.grpActive = true) :
    s.leaveRelay m = (s.send (.amsg m.id m.rid (bitsAt m.target 8 8) m.target m.index m.words m.src m.view)).moveMsg m .peer := by
  simp only [State.leaveRelay, hpeer, haway, hr, hact, Bool.not_false, Bool.and_self, if_true]

variable {k : Nat} (hm : s.cts.msgs.find? (fun m => m.id = k) = some m)
include hm

theorem amsgRelayAdvance_enters (hst : m.stage = .core) (hhead : (s.atCore m.cl m.core .core).head? = some m) (hdrain : s.draining m.rid = false)
    (hroom : (s.inRelay m.relay (s.classOf m.rid)).length < 8) : exec (.amsgRelayAdvance k) s = .next (s.moveMsg m .relay) := by
  have hexec : exec (.amsgRelayAdvance k) s = execAmsgRelayAdvance k s := rfl
  simp only [hexec, execAmsgRelayAdvance, hm, hst, hhead, hdrain, hroom, Bool.not_false, Bool.and_self, decide_true, if_true]

theorem amsgRelayAdvance_leaves (hst : m.stage = .relay) (hhead : (s.inRelay m.relay (s.classOf m.rid)).head? = some m) :
    exec (.amsgRelayAdvance k) s = .next (s.leaveRelay m) := by
  have hexec : exec (.amsgRelayAdvance k) s = execAmsgRelayAdvance k s := rfl
  simp only [hexec, execAmsgRelayAdvance, hm, hst, hhead, if_true]

end

/-! ## Messages of the fabric (R408, R420) -/

/-- The packet that its connection awaits is served. -/
theorem State.arrive_awaited {s : State} {c : Conn} {p : Pkt} (h : s.awaits c p) (f : State → State) : s.arrive c p f = f (s.heard c p) := by
  obtain ⟨hport, hnext⟩ := h
  simp only at hnext
  simp only [State.arrive, hport, hnext, Bool.false_eq_true, if_true, if_false]
  rfl

theorem fabricMessageArrive_serves {s : State} {p : Pkt} {peer part : Nat} {msg : FabricMsg} (h : s.awaits (.peer peer part) p) (hroom : s.relayFull msg = false) :
    exec (.fabricMessageArrive ⟨p, peer, part, msg⟩) s = .next ((s.heard (.peer peer part) p).fromPeer (.peer peer part) msg) := by
  have hexec : exec (.fabricMessageArrive ⟨p, peer, part, msg⟩) s = execFabricMessageArrive ⟨p, peer, part, msg⟩ s := rfl
  simp only [hexec, execFabricMessageArrive, hroom, State.arrive_awaited h, Bool.false_eq_true, if_false]

/-- Settles O42: each event under its conditions is one branch of its definition. -/
theorem networkEventsComplete : Obligations.NetworkEventsComplete := by
  intro s
  refine ⟨fun k q hq => ⟨fun e he => ?joins, fun hnone hfree hwait => ?opens⟩, fun slice k e bs he => multicastFill_fills he,
    fun slice k e b he => multicastFill_uncorrectable he, fun k e => multicastEntryClose_closes,
    fun k c hc => ⟨multicastCopyAdvance_drops hc, multicastCopyAdvance_lands hc⟩, ?beat, ?transfer, ?drain, ?drainEnd, ?enter, fun k m hm => ?relay, ?handler, ?root,
    fun p peer part msg => fabricMessageArrive_serves, fun p peer part id bs fault seen hp => fabricMessageArrive_serves hp rfl, ?amsg⟩
  case joins => rw [multicastRequestArrive_admits hq, State.admitReq_joins he]
  case opens => rw [multicastRequestArrive_admits hq, State.admitReq_opens hnone hfree hwait]
  case beat =>
    intro bus x hx bs pads u t
    have hexec : exec (.busBeatGrant bus) s = execBusBeatGrant bus s := rfl
    have hlast : (if bus < 6 then 8 else 6) - 1 = if bus < 6 then 7 else 5 := by split <;> rfl
    simp only [hexec, execBusBeatGrant, hx, hlast]
    rfl
  case transfer =>
    intro bus k x hx
    have hexec : exec (.busTransferAdvance bus k) s = execBusTransferAdvance bus k s := rfl
    simp only [hexec, execBusTransferAdvance, hx] <;> rfl
  case drain =>
    intro part hpart hno
    have hexec : exec (.drainStart part) s = execDrainStart part s := rfl
    simp only [hexec, execDrainStart, hpart, hno, decide_true, Bool.not_false, Bool.and_self, if_true]
    rfl
  case drainEnd =>
    intro part d hd hover
    have hexec : exec (.drainComplete part) s = execDrainComplete part s := rfl
    have hgo : (s.inNetwork part && decide (s.clk < d.2 + 4096)) = false := by simpa [imp_iff_not_or] using hover
    simp only [hexec, execDrainComplete, hd, hgo]
    rfl
  case enter =>
    intro cl core m ms settle hms hroom hst
    have hexec : exec (.amsgQueueEnter cl core) s = execAmsgQueueEnter cl core s := rfl
    have hst' : ((s.moveMsg m .core).thread m.uid m.lane).st = .admission .message settle := hst
    simp only [hexec, execAmsgQueueEnter, hms, Nat.not_le.mpr hroom, hst', if_false]
    rfl
  case relay =>
    refine ⟨amsgRelayAdvance_enters hm, fun hst hhead => ?_⟩
    rw [amsgRelayAdvance_leaves hm hst hhead]
    refine ⟨fun hhome haway hroom => ?_, fun haway hroom => ?_, fun r hpeer haway hr hact => ?_⟩
    · rw [State.leaveRelay_queues (.inl hhome) hroom, haway]; rfl
    · rw [State.leaveRelay_queues (.inr haway) hroom, haway]; rfl
    · rw [State.leaveRelay_sends hpeer haway hr hact]
  case handler =>
    intro cl core t ht
    have hexec : exec (.amHandlerStart cl core) s = execAmHandlerStart cl core s := rfl
    simp only [hexec, execAmHandlerStart, ht]
  case root =>
    intro t hno ht
    have hexec : exec (.amHandlerStart 0 0) s = execAmHandlerStart 0 0 s := rfl
    simp only [hexec, execAmHandlerStart, hno, ht]
    rfl
  case amsg =>
    intro p peer part rid cl index words src from' id seen c h msg hp hroom hopen hcl
    rw [fabricMessageArrive_serves hp hroom]
    simp only [State.fromPeer, msg, State.amsgArrive]
    rw [show (s.heard (.peer peer part) p).groupOpen rid = true from hopen]
    exact congrArg Host.Outcome.next (if_neg (Nat.not_lt.mpr hcl))

end Sys2Proof.Machine
end

section
/-!
PROOF. EVSET, AMSG and FETCHW (R43, R44, R251 to R253, R282, R284): the outcome of a lane by its checks, and where the instructions complete.
-/

namespace Sys2Proof.Machine

/-! ## EVSET (R282) -/

/-- A read of memory changes no wave. -/
theorem waveOf_of_keepsRead {s t : State} (h : s.KeepsRead t) (c : Ctx) : waveOf c t = waveOf c s := by rw [h]; rfl

theorem State.keepsRead_noteVa (s : State) (rid va n : Nat) : s.KeepsRead (s.noteVa rid va n) := by
  unfold State.noteVa
  split
  · exact State.keepsRead_noteRead s _ _
  · rfl

section
variable {c : Ctx} {s : State} {l : Nat}

/-- The binding, in the cluster of a packet, of the event that its EVSET names. -/
def eventBinding (c : Ctx) (s : State) : Option Bind := s.cts.binds.find? (fun b => b.cl = (waveOf c s).cl && b.evt = c.e.h.d.toNat)

/-- The state with no binding of that event. -/
def State.unbound (s : State) (c : Ctx) : State :=
  s.updCts (fun t => { t with binds := t.binds.filter (fun b => !(b.cl = (waveOf c s).cl && b.evt = c.e.h.d.toNat)) })

/-- The state with that event bound to entry `i` of the handler table, which has been read. -/
def State.boundTo (s : State) (c : Ctx) (i : Nat) : State :=
  ((s.noteVa (waveOf c s).rid ((waveOf c s).htbl + 8 * i) 8).unbound c).updCts (fun t => { t with binds := t.binds ++
    [⟨(waveOf c s).cl, c.e.h.d.toNat, (waveOf c s).uid, (waveOf c s).rid, i⟩] })

theorem evsetLane_clears (hw : (s.wave? c.uid).isSome) :
    evsetLane true c s l = (match eventBinding c s with | some b => if b.uid = c.uid then s.unbound c else s | none => s, .ok {}) := by
  simp only [evsetLane, wave?_of_isSome hw]
  rfl

/-- An index beyond the handler table is illegal. -/
theorem evsetLane_beyond (hw : (s.wave? c.uid).isSome) (hi : 255 < s.srcCount c l .b) : evsetLane false c s l = (s, .fault illegal7) := by
  simp only [evsetLane, wave?_of_isSome hw]
  exact if_pos hi

/-- An event that another region has bound stays as it is. -/
theorem evsetLane_foreign {q : Bind} (hw : (s.wave? c.uid).isSome) (hi : s.srcCount c l .b ≤ 255) (hq : eventBinding c s = some q)
    (hne : q.rid ≠ (waveOf c s).rid) : evsetLane false c s l = (s, .fault ⟨fcPermission, c.e.h.d.toNat⟩) := by
  unfold eventBinding at hq
  simp only [evsetLane, wave?_of_isSome hw, hq]
  exact (if_neg (Nat.not_lt.mpr hi)).trans (if_pos (bne_iff_ne.mpr hne))

/-- The outcome of an EVSET whose event no other region has bound, by the table entry that it names. -/
def evsetEntry (c : Ctx) (s : State) (i : Nat) : Except LFault (Option Nat) → State × LaneRes
  | .error e => (s, .fault e)
  | .ok none => (s, .fault ⟨fcHandle, i⟩)
  | .ok (some _) => (s.boundTo c i, .ok {})

theorem evsetLane_own (hw : (s.wave? c.uid).isSome) (hi : s.srcCount c l .b ≤ 255) (hq : ∀ q, eventBinding c s = some q → q.rid = (waveOf c s).rid) :
    evsetLane false c s l = evsetEntry c s (s.srcCount c l .b) (s.tableEntry (waveOf c s).rid (waveOf c s).htbl (s.srcCount c l .b) 0) := by
  have hown : ¬(match eventBinding c s with | some q => q.rid != (waveOf c s).rid | none => false) = true := by
    cases hb : eventBinding c s with
    | none => exact Bool.false_ne_true
    | some q => simp [hq q hb]
  simp only [evsetLane, wave?_of_isSome hw]
  refine (if_neg (Nat.not_lt.mpr hi)).trans ((if_neg hown).trans ?_)
  cases s.tableEntry (waveOf c s).rid (waveOf c s).htbl (s.srcCount c l .b) 0 with
  | error e => rfl
  | ok o =>
    cases o with
    | none => rfl
    | some a => simp only [evsetEntry, State.boundTo, State.unbound, waveOf_of_keepsRead (s.keepsRead_noteVa _ _ _)]

end

/-! ## AMSG (R251 to R253) -/

section
variable {f : EngFn} {c : Ctx} {s : State} {l : Nat} {r : Region}

/-- The fault that the checks of a lane's AMSG find. -/
def amsgFail (c : Ctx) (s : State) (r : Region) (l : Nat) : Option LFault :=
  s.amFault (waveOf c s) r c.e.h.d.toNat l (s.srcCount c l .b) c.e.h.c.toNat

theorem amsgLane_fails {e : LFault} (hw : (s.wave? c.uid).isSome) (hr : s.region? (s.ridOf c.uid) = some r) (he : amsgFail c s r l = some e)
    (hcode : e.code ≠ fcMemUe) : amsgLane f c s l = (s, .fault e) := by
  unfold amsgFail at he
  simp only [amsgLane, wave?_of_isSome hw, hr, he]
  exact if_neg hcode

/-- Uncorrectable bytes of the table entry are met, and the thread completes with them pending. -/
theorem amsgLane_uncorrectable {a : Nat} (hw : (s.wave? c.uid).isSome) (hr : s.region? (s.ridOf c.uid) = some r) (he : amsgFail c s r l = some ⟨fcMemUe, a⟩) :
    amsgLane f c s l = (s.meetUeAt (waveOf c s).rid ⟨fcMemUe, a⟩, .ok { ue := some a, st := admitted c }) := by
  unfold amsgFail at he
  simp only [amsgLane, wave?_of_isSome hw, hr, he]
  rfl

/-- AMSG parks the lanes whose checks fail, but for uncorrectable bytes. -/
theorem amsg_stops (h : Hdr) (f : EngFn) (x : BitVec 64) {R : Ctx → Nat → Region} {P : Ctx → State → Nat → Prop} {F : Ctx → State → Nat → LFault}
    (hP : ∀ c s l, P c s l → ((s.wave? c.uid).isSome ∧ s.region? (s.ridOf c.uid) = some (R c l)) ∧
      s.amFault (waveOf c s) (R c l) h.d.toNat l (s.srcCount c l .b) h.c.toNat = some (F c s l) ∧ (F c s l).code ≠ fcMemUe) :
    FaultsMem (.amsg h f x) P (stopsWith F) := by
  refine FaultsMem.of_lane rfl (fun _ => rfl) (fun _ _ => rfl) ?_
  rintro ⟨_, uid, pc, next, all, on⟩ s l rfl hp
  obtain ⟨⟨hw, hr⟩, he, hcode⟩ := hP _ s l hp
  exact amsgLane_fails hw hr he hcode

end

/-! ### The checks of R252, in their order -/

section
variable (s : State) (w : Wave) (r : Region) (t C : Nat)

/-- The target of a message names no cluster, or has a reserved bit. -/
abbrev badTarget : Prop := bitsAt t 16 16 ≠ 0 ∨ bitAt t 7 = true ∨ 47 < bitsAt t 0 6

/-- The target names a peer outside the region's group. -/
abbrev badPeer : Prop := bitAt t 6 = true ∧ (r.cgrp = 0 ∨ r.cgsz ≤ bitsAt t 8 8)

/-- The target names a cluster of this module outside the region's partition. -/
abbrev badPart : Prop := bitAt t 6 = false ∧ s.inPart w.rid (bitsAt t 0 6) = false

/-- The fault of the entry of the active-message table that a message names. -/
def State.amEntryFail : Option LFault :=
  if r.amtbl = 0 then some ⟨fcHandle, C⟩
  else
    match s.tableEntry w.rid r.amtbl C 1 with
    | .error e => some e
    | .ok none => some ⟨fcHandle, C⟩
    | .ok (some _) => none

theorem State.amFault_eq (k l : Nat) : s.amFault w r k l t C =
    if w.tokPending k l = true then some illegal7 else if badTarget t then some illegal7 else if badPeer r t then some illegal7
    else if badPart s w t then some ⟨fcPermission, t⟩ else s.amEntryFail w r C := by
  simp only [State.amFault, Bool.or_eq_true, Bool.and_eq_true, Bool.not_eq_true', decide_eq_true_eq, or_assoc]
  rfl

variable {s w r t C}

theorem State.amFault_passed {k l : Nat} (htok : w.tokPending k l = false) (htarget : ¬badTarget t) (hpeer : ¬badPeer r t) (hpart : ¬badPart s w t) :
    s.amFault w r k l t C = s.amEntryFail w r C := by
  rw [State.amFault_eq, if_neg (Bool.eq_false_iff.mp htok), if_neg htarget, if_neg hpeer, if_neg hpart]

theorem State.amEntryFail_invalid (h : r.amtbl = 0 ∨ s.tableEntry w.rid r.amtbl C 1 = .ok none) : s.amEntryFail w r C = some ⟨fcHandle, C⟩ := by
  unfold State.amEntryFail
  split
  · rfl
  · next hne => rw [h.resolve_left hne]

theorem State.amEntryFail_unread {e : LFault} (hne : r.amtbl ≠ 0) (h : s.tableEntry w.rid r.amtbl C 1 = .error e) : s.amEntryFail w r C = some e := by
  rw [State.amEntryFail, if_neg hne, h]

end

/-! ## FETCHW (R43, R44, R284) -/

section
variable {f : EngFn} {c : Ctx} {s : State} {l : Nat}

/-- The offset of the mailbox that a FETCHW names. -/
def mailboxOffset (c : Ctx) (s : State) (l : Nat) : Nat := (s.srcCount c l .a + 16 * c.e.h.c.toNat) % 2 ^ 56

/-- The fault of a mailbox at an offset of a segment, the checks in the order of R284. -/
def State.mailboxFail (s : State) (w : Wave) (seg o : Nat) : Option LFault :=
  if segLimit (w.seg seg) < o + 16 || s.outside w seg ((segBaseOf (w.seg seg) + o) % 2 ^ 56) 16 then some ⟨fcSegLimit, offInfo seg o⟩
  else if !segWr (w.seg seg) then some ⟨fcPermission, offInfo seg o⟩
  else if o % 16 ≠ 0 then some ⟨fcMisalign, offInfo seg o⟩
  else none

theorem State.mailboxFail_beyond {w : Wave} {seg o : Nat} (h : ¬inBounds s w seg o 16) : s.mailboxFail w seg o = some ⟨fcSegLimit, offInfo seg o⟩ := by
  rw [inBounds_iff, Bool.not_eq_false] at h
  exact if_pos h

theorem State.mailboxFail_inBounds {w : Wave} {seg o : Nat} (h : inBounds s w seg o 16) : s.mailboxFail w seg o =
    if !segWr (w.seg seg) then some ⟨fcPermission, offInfo seg o⟩ else if o % 16 ≠ 0 then some ⟨fcMisalign, offInfo seg o⟩ else none :=
  if_neg (Bool.eq_false_iff.mp ((inBounds_iff ..).mp h))

theorem fetchwLane_pending (hw : (s.wave? c.uid).isSome) (htok : (waveOf c s).tokPending (c.e.h.d.toNat % 16) l = true) :
    fetchwLane f c s l = (s, .fault illegal7) := by
  simp only [fetchwLane, wave?_of_isSome hw]
  exact if_pos htok

/-- A FETCHW with a free token faults as its mailbox does, or queues its request. -/
theorem fetchwLane_free (hw : (s.wave? c.uid).isSome) (htok : (waveOf c s).tokPending (c.e.h.d.toNat % 16) l = false) :
    fetchwLane f c s l =
      match s.mailboxFail (waveOf c s) f.sub.toNat (mailboxOffset c s l) with
      | some e => (s, .fault e)
      | none =>
        let w := waveOf c s
        let q : WgReq := ⟨c.uid, l, c.e.h.d.toNat % 16, if w.gid = 0 then 0 else w.lid, f.sub.toNat, w.byteAddr l f.sub.toNat (mailboxOffset c s l) 0,
          w.cl + 48 * w.ctx, w.core⟩
        ((s.updWave c.uid (fun w => w.setTok (c.e.h.d.toNat % 16) l true)).updCts (fun t => { t with wgreqs := t.wgreqs ++ [q] }), .ok {}) := by
  simp only [fetchwLane, wave?_of_isSome hw]
  refine (if_neg (Bool.eq_false_iff.mp htok)).trans ?_
  unfold State.mailboxFail mailboxOffset
  split_ifs <;> rfl

/-- FETCHW parks the lanes whose mailbox fails a check. -/
theorem fetchw_stops (h : Hdr) (f : EngFn) (x : BitVec 64) {P : Ctx → State → Nat → Prop} {F : Ctx → State → Nat → LFault}
    (hP : ∀ c s l, P c s l → ((s.wave? c.uid).isSome ∧ (waveOf c s).tokPending (h.d.toNat % 16) l = false) ∧
      s.mailboxFail (waveOf c s) f.sub.toNat ((s.srcCount c l .a + 16 * h.c.toNat) % 2 ^ 56) = some (F c s l)) :
    FaultsMem (.fetchw h f x) P (stopsWith F) := by
  refine FaultsMem.of_lane rfl (fun _ => rfl) (fun _ _ => rfl) ?_
  rintro ⟨_, uid, pc, next, all, on⟩ s l rfl hp
  obtain ⟨⟨hw, htok⟩, he⟩ := hP _ s l hp
  rw [fetchwLane_free hw htok]
  unfold mailboxOffset
  rw [he]
  rfl

end

/-- Settles O23: each lane passes the checks of `evsetLane`, `amsgLane` or `fetchwLane`, and takes the branch that follows them. -/
theorem evsetAmsgAndFetchwComplete : Obligations.EvsetAmsgAndFetchwComplete := by
  refine ⟨?evset, ?amsg, ?fetchw⟩
  case evset =>
    intro h f x a del cur
    refine ⟨fun hclr => ?clears, fun hclr => ?binds⟩
    case clears =>
      refine DoesMem.of_lane (g := evsetLane true) rfl (fun s => by rw [← hclr]; rfl) ?_
      rintro ⟨_, uid, pc, next, all, on⟩ s l rfl - hw
      exact evsetLane_clears hw
    case binds =>
      refine DoesMem.of_lane (g := evsetLane false) rfl (fun s => by rw [← hclr]; rfl) ?_
      rintro ⟨_, uid, pc, next, all, on⟩ s l rfl - ⟨hw, hi, hown, hentry⟩
      rw [evsetLane_own hw hi hown, hentry]
      rfl
  case amsg =>
    intro h f x R n full
    refine ⟨?posts, ?uncorrectable⟩
    case posts =>
      refine DoesMem.of_lane rfl (fun _ => rfl) ?_
      rintro ⟨_, uid, pc, next, all, on⟩ s l rfl - ⟨hw, hr, he⟩
      simp only [amsgLane, wave?_of_isSome hw, hr]
      rw [he]
      rfl
    case uncorrectable =>
      refine DoesMem.of_lane rfl (fun _ => rfl) ?_
      rintro ⟨_, uid, pc, next, all, on⟩ s l rfl - ⟨hw, hr, a, he⟩
      rw [amsgLane_uncorrectable hw hr he]
      simp only [he]
      rfl
  case fetchw =>
    intro h f x o
    refine DoesMem.of_lane rfl (fun _ => rfl) ?_
    rintro c s l hc - ⟨hw, htok, hlimit, hout, hwr, hal⟩
    obtain rfl : c.e.h = h := by rw [hc]
    have hin : inBounds s (waveOf c s) f.sub.toNat (mailboxOffset c s l) 16 := by
      rw [inBounds_iff, Bool.or_eq_false_iff, decide_eq_false_iff_not]
      exact ⟨Nat.not_lt.mpr hlimit, hout⟩
    have hnone : s.mailboxFail (waveOf c s) f.sub.toNat (mailboxOffset c s l) = none := by
      rw [State.mailboxFail_inBounds hin, if_neg (by simp [hwr])]
      exact if_neg (not_not.mpr hal)
    rw [fetchwLane_free hw htok, hnone]
    rfl

end Sys2Proof.Machine
end

section
/-!
PROOF. Where the engine instructions stop (R252, R263, R266, R274, R278, R279, R282, R284, R451): each check that fails is one branch of its lane.
-/

namespace Sys2Proof.Machine

/-! ## TKPOST (R263, R274) -/

section
variable {f : EngFn} {c : Ctx} {s : State} {l : Nat}

/-- The places of the record that a TKPOST names, by their addresses. -/
def recordAt (f : EngFn) (c : Ctx) (s : State) (l : Nat) : Except LFault (List (Nat × Loc)) :=
  s.locate (issuedOf c s l) l f.sub.toNat (s.readRegs c.uid l (c.e.kindOf .a) (c.e.field .a) 2 % 2 ^ 56) 64 false 64

theorem Wave.atIssue_cl (w : Wave) (l : Nat) : (w.atIssue l).cl = w.cl := by
  unfold Wave.atIssue
  split <;> rfl

theorem tkpostLane_pending (hw : (s.wave? c.uid).isSome) (htok : s.tokBusy c.uid l (tokField c.e.h.b.toNat) = true) : tkpostLane f c s l = (s, .fault illegal7) := by
  simp only [tkpostLane, wave?_of_isSome hw]
  exact if_pos htok

variable (hw : (s.wave? c.uid).isSome) (htok : s.tokBusy c.uid l (tokField c.e.h.b.toNat) = false)
include hw htok

theorem tkpostLane_unlocated {e : LFault} (hat : recordAt f c s l = .error e) : tkpostLane f c s l = (s, .fault e) := by
  rw [recordAt, issuedOf_eq hw] at hat
  simp only [tkpostLane, wave?_of_isSome hw, htok, hat, Bool.false_eq_true, if_false]

variable {ls : List (Nat × Loc)} {slot : Nat} (hat : recordAt f c s l = .ok ls) (hslot : s.freeSlot (waveOf c s).cl = some slot)
include hat hslot

theorem tkpostLane_uncorrectable {a : Nat} (hue : s.ueAt (ls.take 24) = some a) : tkpostLane f c s l = (s, .fault ⟨fcMemUe, a⟩) := by
  rw [recordAt, issuedOf_eq hw] at hat
  simp only [tkpostLane, wave?_of_isSome hw, htok, hat, Wave.atIssue_cl, hslot, hue, Bool.false_eq_true, if_false]

/-- A record that is read and fails a check of R263 is not posted. -/
theorem tkpostLane_refused (hue : s.ueAt (ls.take 24) = none) (hm : s.missing (ls.take 24) = none) :
    let locs := (ls.take 24).map (fun x => x.2)
    (s.noteRead locs none).recordBad (issuedOf c s l) (leNat (s.readLocs locs)) = true → tkpostLane f c s l = (s.noteRead locs none, .fault illegal7) := by
  intro locs hbad
  rw [issuedOf_eq hw] at hbad
  rw [recordAt, issuedOf_eq hw] at hat
  have hbytes : s.bytesAt (ls.take 24) = .ok (s.readLocs locs) := by simp only [State.bytesAt, State.absent, hm, Option.map_none]; rfl
  simp only [tkpostLane, wave?_of_isSome hw, htok, hat, Wave.atIssue_cl, hslot, hue, hbytes, Bool.false_eq_true, if_false]
  exact if_pos hbad

end

/-! ## Buffers (R266, R278, R279) -/

/-- What follows the lanes of a packet rests on the encoding that it executes. -/
theorem runPacketThen_congr_post {e : Enc} {body : Ctx → State → State × WaveOut} {post post' : Ctx → State → State} (h : ∀ c s, c.e = e → post c s = post' c s) :
    runPacketThen e body post = runPacketThen e body post' := by
  have hwave : runWave e body post = runWave e body post' := by
    funext pc s q
    have hpost (next : VA) (on : List Nat) (t : State) : post ⟨e, q.1, pc, next, q.2, on⟩ t = post' ⟨e, q.1, pc, next, q.2, on⟩ t := h _ _ rfl
    simp only [runWave, hpost]
  funext s
  simp only [runPacketThen, hwave]

theorem exec_cbini (h : Hdr) (f : EngFn) (x : BitVec 64) (s : State) :
    exec (.cbini h f x) s = .next (runPacketThen (enc 0xA6 h (engFnBits f) x) (memWise (onCbuf h.d.toNat (cbiniLane f))) evalD s) := by
  refine congrArg Host.Outcome.next (congrFun (runPacketThen_congr_post (fun c s hc => ?_)) s)
  rw [evalD, hc]
  rfl

section
variable {cb : Nat} {g : Ctx → State → Nat → Wave → State × LaneRes} {c : Ctx} {s : State} {l : Nat}

theorem onCbuf_foreign (hw : (s.wave? c.uid).isSome) (hno : s.holds (waveOf c s).gid cb = false) : onCbuf cb g c s l = (s, .fault ⟨fcPermission, cb⟩) := by
  simp only [onCbuf, wave?_of_isSome hw, hno, Bool.false_eq_true, if_false]

theorem onCbuf_held (hw : (s.wave? c.uid).isSome) (hheld : s.holds (waveOf c s).gid cb = true) : onCbuf cb g c s l = g c s l (waveOf c s) := by
  simp only [onCbuf, wave?_of_isSome hw, hheld, if_true]

/-- A claim, or a task that is not done, stands on a buffer. -/
def cbufUsed (s : State) (cl cb : Nat) : Prop :=
  (∃ q ∈ s.cts.claims, q.cl = cl ∧ q.cb = cb) ∨ ∃ t ∈ s.cts.tasks, t.cl = cl ∧ t.st ≠ .done ∧ (t.names cb true = true ∨ t.names cb false = true)

/-- A size that a ring may have (R278). -/
def ringSize (n : Nat) : Prop := n % 32 = 0 ∧ 32 ≤ n ∧ n ≤ 262144

/-- The segment of the ring that a CBINI makes. -/
abbrev ringSeg (f : EngFn) : Nat := if bitAt f.sub.toNat 0 then 3 else 2

section
variable {f : EngFn} {w : Wave}

theorem ringSize_iff (n : Nat) : ringSize n ↔ ¬(n % 32 ≠ 0 || n < 32 || 262144 < n) = true := by
  simp [ringSize, and_assoc]

theorem cbiniLane_badSize (hsize : ¬ringSize (s.srcCount c l .b)) : cbiniLane f c s l w = (s, .fault illegal7) :=
  if_pos (not_not.mp (fun h => hsize ((ringSize_iff _).mpr h)))

variable (hsize : ringSize (s.srcCount c l .b))
include hsize

theorem cbiniLane_misaligned (ho : s.srcCount c l .a % 32 ≠ 0) :
    cbiniLane f c s l w = (s, .fault ⟨fcMisalign, offInfo (ringSeg f) (s.srcCount c l .a)⟩) :=
  (if_neg ((ringSize_iff _).mp hsize)).trans (if_pos ho)

theorem cbiniLane_beyond (ho : s.srcCount c l .a % 32 = 0) (hin : ¬inBounds s w (ringSeg f) (s.srcCount c l .a) (s.srcCount c l .b)) :
    cbiniLane f c s l w = (s, .fault ⟨fcSegLimit, offInfo (ringSeg f) (s.srcCount c l .a)⟩) := by
  rw [inBounds_iff, Bool.not_eq_false] at hin
  exact (if_neg ((ringSize_iff _).mp hsize)).trans ((if_neg (not_not.mpr ho)).trans (if_pos hin))

/-- A buffer is not made again while something is open on it. -/
theorem cbiniLane_used (ho : s.srcCount c l .a % 32 = 0) (hin : inBounds s w (ringSeg f) (s.srcCount c l .a) (s.srcCount c l .b))
    (hused : cbufUsed s w.cl c.e.h.d.toNat) : cbiniLane f c s l w = (s, .fault illegal7) := by
  rw [inBounds_iff] at hin
  refine (if_neg ((ringSize_iff _).mp hsize)).trans ((if_neg (not_not.mpr ho)).trans ((if_neg (Bool.eq_false_iff.mp hin)).trans (if_pos ?_)))
  simpa [cbufUsed, and_assoc] using hused

end

/-- CBPSH and CBPOP of a buffer that is not initialised, on a bus side, of a count that is no multiple of 32, or beyond the room or the count. -/
theorem pushPop_refused {prod : Bool} {w : Wave} (h : ∀ q, s.cbuf? w.cl c.e.h.d.toNat = some q →
      (if prod then q.pe else q.ce) = true ∨ s.srcCount c l .b % 32 ≠ 0 ∨ (if prod then q.room else q.count) < s.srcCount c l .b) :
    pushPop prod c s l w = (s, .fault illegal7) := by
  unfold pushPop
  simp only
  split
  · rfl
  · next q hq => exact if_pos (by simpa [or_assoc] using h q hq)

end

/-! ## Control registers (R451) -/

section
variable {c : Ctx} {s : State} {g : Bool → Nat → CsrShape → State × Except LFault UniOut}

theorem withCsr_unknown (h : csrShape (s.readRegs c.uid 0 .s c.e.h.a.toNat 1) = none) : withCsr c s g = (s, .error illegal7) := by
  simp only [withCsr, h]

theorem withCsr_barred (h : (csrShape (s.readRegs c.uid 0 .s c.e.h.a.toNat 1)).isSome)
    (hmay : s.csrAllowed (s.ridOf c.uid) (s.readRegs c.uid 0 .s c.e.h.a.toNat 1) = false) :
    withCsr c s g = (s, .error ⟨fcPermission, s.readRegs c.uid 0 .s c.e.h.a.toNat 1⟩) := by
  obtain ⟨sh, hsh⟩ := Option.isSome_iff_exists.mp h
  simp only [withCsr, hsh, hmay, Bool.false_eq_true, if_false]

end

/-! ## The stops of engine instructions -/

/-- Settles O38: each check that fails is one branch of the lane of its instruction, or of `amFault`, of a mailbox, or of `withCsr`, which leaves the state as it was,
but for the read of a task's record. -/
theorem engineInstructionsFault : Obligations.EngineInstructionsFault := by
  refine ⟨?tkpost, ?buffers, ?amsg, ?evset, ?fetchw, ?csr⟩
  case tkpost =>
    intro h f x ls slot e tok ill from' rec' at' free
    refine ⟨?pending, ?unlocated, ?uncorrectable, ?refused⟩
    all_goals
      refine FaultsMem.of_lane rfl (fun _ => rfl) (fun _ _ => rfl) ?_
      rintro ⟨_, uid, pc, next, all, on⟩ s l rfl
    case pending => exact fun ⟨hw, htok⟩ => tkpostLane_pending hw htok
    case unlocated => exact fun ⟨⟨hw, htok⟩, hat⟩ => tkpostLane_unlocated hw htok hat
    case uncorrectable => exact fun ⟨⟨hw, htok⟩, hat, hslot, hue⟩ => tkpostLane_uncorrectable hw htok hat hslot hue
    case refused => exact fun ⟨⟨hw, htok⟩, hat, hslot, hue, hm, hbad⟩ => tkpostLane_refused hw htok hat hslot hue hm hbad
  case buffers =>
    intro h f x ill cb live foreign held denied seg size o sized info used turns
    have hforeign (g : Ctx → State → Nat → Wave → State × LaneRes) : ∀ c s l, foreign c s l →
        onCbuf cb g c s l = ((denied c s l).1, .fault (denied c s l).2) := fun c s l ⟨hw, hno⟩ => onCbuf_foreign hw hno
    have hturns (prod : Bool) : ∀ c s l, c.e.h = h → turns prod c s l → onCbuf cb (pushPop prod) c s l = (s, .fault illegal7) := by
      rintro c s l rfl ⟨⟨hw, hheld⟩, hq⟩
      rw [onCbuf_held hw hheld, pushPop_refused hq]
    refine ⟨?foreign, ?size, ?align, ?limit, ?used, ?pushForeign, ?push, ?popForeign, ?pop⟩
    case foreign => exact FaultsMemThen.of_lane rfl (exec_cbini h f x) (fun c s l _ => hforeign _ c s l)
    case pushForeign | popForeign => exact FaultsMemThen.of_lane rfl (fun _ => rfl) (fun c s l _ => hforeign _ c s l)
    case push | pop => exact FaultsMemThen.of_lane rfl (fun _ => rfl) (fun c s l hc => hturns _ c s l (by rw [hc]))
    all_goals refine FaultsMemThen.of_lane rfl (exec_cbini h f x) ?_
    case size =>
      rintro c s l hc ⟨⟨hw, hheld⟩, hbad⟩
      rw [onCbuf_held hw hheld, cbiniLane_badSize (fun hs => hbad ⟨⟨hw, hheld⟩, hs⟩)]
      rfl
    case align =>
      rintro c s l hc ⟨⟨⟨hw, hheld⟩, hsize⟩, ho⟩
      rw [onCbuf_held hw hheld, cbiniLane_misaligned hsize ho]
      rfl
    case limit =>
      rintro c s l hc ⟨⟨⟨hw, hheld⟩, hsize⟩, ho, hin⟩
      rw [onCbuf_held hw hheld, cbiniLane_beyond hsize ho hin]
      rfl
    case used =>
      rintro c s l hc ⟨⟨⟨hw, hheld⟩, hsize⟩, ho, hin, hused⟩
      rw [onCbuf_held hw hheld, cbiniLane_used hsize ho hin (by rw [hc]; exact hused)]
      rfl
  case amsg =>
    intro h f x r k C t runs free badTarget' badPeer' badPart' passes entry ill
    have hpassed : ∀ c s l, passes c s l → s.amFault (waveOf c s) (r c l) k l (t c s l) C = s.amEntryFail (waveOf c s) (r c l) C :=
      fun c s l ⟨⟨_, htok⟩, htarget, hpeer, hpart⟩ => State.amFault_passed htok htarget hpeer hpart
    refine ⟨?token, ?target, ?peer, ?partition, ?handle, fun e => ?entry⟩
    all_goals refine amsg_stops h f x (R := r) (fun c s l hp => ?_)
    case token =>
      obtain ⟨hruns, htok⟩ := hp
      exact ⟨hruns, (State.amFault_eq ..).trans (if_pos htok), by decide⟩
    case target =>
      obtain ⟨⟨hruns, htok⟩, hbad⟩ := hp
      exact ⟨hruns, (State.amFault_eq ..).trans ((if_neg (Bool.eq_false_iff.mp htok)).trans (if_pos hbad)), by decide⟩
    case peer =>
      obtain ⟨⟨hruns, htok⟩, htarget, hbad⟩ := hp
      exact ⟨hruns, (State.amFault_eq ..).trans ((if_neg (Bool.eq_false_iff.mp htok)).trans ((if_neg htarget).trans (if_pos hbad))), by decide⟩
    case partition =>
      obtain ⟨⟨hruns, htok⟩, htarget, hpeer, hbad⟩ := hp
      exact ⟨hruns, (State.amFault_eq ..).trans ((if_neg (Bool.eq_false_iff.mp htok)).trans ((if_neg htarget).trans ((if_neg hpeer).trans (if_pos hbad)))),
        show fcPermission ≠ fcMemUe by decide⟩
    case handle =>
      obtain ⟨hpass, hbad⟩ := hp
      exact ⟨hpass.1.1, (hpassed c s l hpass).trans (State.amEntryFail_invalid hbad), show fcHandle ≠ fcMemUe by decide⟩
    case entry =>
      obtain ⟨hpass, hne, hread, hcode⟩ := hp
      exact ⟨hpass.1.1, (hpassed c s l hpass).trans (State.amEntryFail_unread hne hread), hcode⟩
  case evset =>
    intro h f x hset b foreign
    have hexec : ∀ s, exec (.evset h f x) s = .next (runPacketThen (enc 0xAB h (engFnBits f) x) (memWise (evsetLane false)) (fun _ s => s) s) := by
      intro s
      rw [← hset]
      rfl
    refine ⟨?beyond, ?bound, ?invalid⟩
    all_goals
      refine FaultsMem.of_lane rfl hexec (fun _ _ => rfl) ?_
      rintro ⟨_, uid, pc, next, all, on⟩ s l rfl
    case beyond => exact fun ⟨hw, hi⟩ => evsetLane_beyond hw hi
    case bound => exact fun ⟨hw, hi, q, hq, hne⟩ => evsetLane_foreign hw hi hq hne
    case invalid =>
      rintro ⟨hw, hi, hown, hentry⟩
      rw [evsetLane_own hw hi (fun q hq => by_contra (fun hne => hown ⟨q, hq, hne⟩)), hentry]
      rfl
  case fetchw =>
    intro h f x seg o free in' wr info
    refine ⟨?pending, ?limit, ?barred, ?align⟩
    case pending =>
      refine FaultsMem.of_lane rfl (fun _ => rfl) (fun _ _ => rfl) ?_
      rintro ⟨_, uid, pc, next, all, on⟩ s l rfl ⟨hw, htok⟩
      exact fetchwLane_pending hw htok
    all_goals refine fetchw_stops h f x (fun c s l hp => ?_)
    case limit => exact ⟨hp.1, State.mailboxFail_beyond hp.2⟩
    case barred =>
      obtain ⟨⟨hfree, hin⟩, hwr⟩ := hp
      exact ⟨hfree, (State.mailboxFail_inBounds hin).trans (if_pos (by simpa [wr] using hwr))⟩
    case align =>
      obtain ⟨⟨hfree, hin⟩, hwr, hal⟩ := hp
      exact ⟨hfree, (State.mailboxFail_inBounds hin).trans ((if_neg (by simpa [wr] using hwr)).trans (if_pos hal))⟩
  case csr =>
    intro h f x a stops
    have hstops : ∀ (i : Instr) (g : Ctx → State → Bool → Nat → CsrShape → State × Except LFault UniOut) (op : BitVec 8),
        encOf i = some (enc op h (engFnBits f) x) →
        (∀ s, exec i s = .next (slotEnd i (runPacketThen (enc op h (engFnBits f) x) (uniMem (fun c s _ => withCsr c s (g c s))) (fun _ s => s)
          (slotStart i (enc op h (engFnBits f) x) s)))) → stops i := by
      intro i g op he hx
      refine ⟨?unknown, ?barred⟩
      all_goals
        refine FaultsOnceMem.of_uni he hx (fun _ _ => rfl) ?_
        rintro ⟨_, uid, pc, next, all, on⟩ s l rfl
      case unknown => exact fun hno => withCsr_unknown hno
      case barred => exact fun ⟨hsome, hmay⟩ => withCsr_barred hsome hmay
    exact ⟨hstops _ _ _ rfl (fun _ => rfl), hstops _ _ _ rfl (fun _ => rfl)⟩

end Sys2Proof.Machine
end

section
/-!
PROOF. The events of service life (R244, R411, R450, R461 to R471): the branch of its definition that each event takes under its conditions, the quadrants that a
thermal stop leaves stopped, and what a module reset keeps and loads.
-/

namespace Sys2Proof.Machine

/-! ## Fields of a register -/

/-- A number whose field at `lo` is replaced, by its parts above, in and below the field. -/
theorem putBits_eq (x lo n v : Nat) : putBits x lo n v = 2 ^ lo * (2 ^ n * (x / 2 ^ lo / 2 ^ n) + v % 2 ^ n) + x % 2 ^ lo := by
  have hx : x = x / 2 ^ lo % 2 ^ n * 2 ^ lo + (2 ^ lo * (2 ^ n * (x / 2 ^ lo / 2 ^ n)) + x % 2 ^ lo) := by
    calc x = 2 ^ lo * (x / 2 ^ lo) + x % 2 ^ lo := (Nat.div_add_mod x (2 ^ lo)).symm
      _ = 2 ^ lo * (2 ^ n * (x / 2 ^ lo / 2 ^ n) + x / 2 ^ lo % 2 ^ n) + x % 2 ^ lo := by rw [Nat.div_add_mod (x / 2 ^ lo)]
      _ = _ := by ring
  have hsub : x - x / 2 ^ lo % 2 ^ n * 2 ^ lo = 2 ^ lo * (2 ^ n * (x / 2 ^ lo / 2 ^ n)) + x % 2 ^ lo := Nat.sub_eq_of_eq_add (by omega)
  rw [putBits, bitsAt_eq, hsub]
  ring

/-- The bits of a number whose field at `lo` is replaced. -/
theorem bitAt_putBits (x lo n v i : Nat) :
    bitAt (putBits x lo n v) i = if i < lo then bitAt x i else if i < lo + n then bitAt v (i - lo) else bitAt x i := by
  simp only [bitAt, putBits_eq, Nat.testBit_two_pow_mul_add _ (Nat.mod_lt x (Nat.two_pow_pos lo)),
    Nat.testBit_two_pow_mul_add _ (Nat.mod_lt v (Nat.two_pow_pos n)), Nat.testBit_mod_two_pow, Nat.testBit_div_two_pow]
  split_ifs with hlo hin hin' hin'
  · simp [hlo]
  · simp [hin]
  · omega
  · omega
  · congr 1; omega

/-- The low bits of a number. -/
theorem bitAt_mod (x : Nat) {n i : Nat} (hi : i < n) : bitAt (x % 2 ^ n) i = bitAt x i := by
  rw [bitAt, Nat.testBit_mod_two_pow, decide_eq_true hi, Bool.true_and, bitAt]

/-! ## Control registers -/

theorem State.csr_congr {s t : State} (h : t.csrs = s.csrs) (a : Nat) : t.csr a = s.csr a := by
  rw [State.csr, h, State.csr]

/-- A register reads the 64 bits that it was set to, and every other as it did. -/
theorem State.csr_setCsr (s : State) (a b v : Nat) : (s.setCsr a v).csr b = if b = a then v % 2 ^ 64 else s.csr b := by
  by_cases h : b = a
  · subst h
    simp only [State.csr, State.setCsr, Sparse.get_put, if_true, BitVec.toNat_ofNat]
  · simp only [State.csr, State.setCsr, Sparse.put]
    split
    · simp only [Sparse.get_remove, h, if_false]
    · simp only [Sparse.get_insert, h, if_false]

/-- A table of which the keys that meet `p` are kept. -/
theorem Sparse.get_filter {α : Type} (d : α) (p : Nat → Bool) (m : Sparse α) (k : Nat) :
    Sparse.get d (m.filter (fun x => p x.1)) k = if p k then Sparse.get d m k else d := by
  induction m with
  | nil => simp [Sparse.get]
  | cons x m ih =>
    by_cases hk : x.1 = k
    · subst hk
      cases hp : p x.1 <;> simp [hp, Sparse.get, ih]
    · cases hp : p x.1 <;> simp [hp, Sparse.get, ih, hk]

/-! ## Spares (R244, R461 to R463) -/

/-- A free spare takes the place of a unit that calls for one. -/
theorem State.takeSpare_takes {s : State} {kind reg group unit spare limit : Nat} (f : State → State) (hspare : spare < 2) (hunit : unit < limit)
    (hfree : bitAt (s.csr (svcAddr reg)) (8 * spare + 6) = false) (hwant : s.wanted kind unit = true) :
    s.takeSpare kind reg group unit spare limit f =
      (f ((((s.met kind unit).setCsr (svcAddr reg) (putBits (s.csr (svcAddr reg)) (8 * spare) 7 (64 + unit))).migrated (s.stopTime 4096)).markMig group unit)).drainAll := by
  simp only [State.takeSpare, hfree, hwant, Nat.not_le.mpr hspare, Nat.not_le.mpr hunit]
  rfl

theorem coreSpareMigrate_migrates {s : State} {cl core : Nat} (hcl : cl < 48) (hcore : core < 4) (hfree : bitAt (s.csr (svcAddr 0x10)) cl = false)
    (hstop : s.coreStopped cl core = false) (hwant : s.wanted 0 (5 * cl + core) = true) :
    let u := ((s.met 0 (5 * cl + core)).setSvcBit 0x10 cl).migrated (s.stopTime 12000)
    let v := u.meetWaves (u.context cl core .active)
    let t := v.meetWaves (v.context cl core .shadow)
    exec (.coreSpareMigrate cl core) s = .next ((t.loseSlots cl (t.swapSet cl core) true (s.stopTime 12000)).markMig 0 cl) := by
  have hexec : exec (.coreSpareMigrate cl core) s = execCoreSpareMigrate cl core s := rfl
  simp only [hexec, execCoreSpareMigrate, hfree, hstop, hwant, Nat.not_le.mpr hcl, Nat.not_le.mpr hcore]
  rfl

theorem laneSpareRetrain_retrains {s : State} {port : Nat} (hport : port < 9) (hfree : bitAt (s.csr (svcAddr 0x13)) port = false) :
    exec (.laneSpareRetrain port) s = .next (((s.setSvcBit 0x13 port).migrated 0).markMig 2 (48 + port)) := by
  have hexec : exec (.laneSpareRetrain port) s = execLaneSpareRetrain port s := rfl
  simp only [hexec, execLaneSpareRetrain, hfree, Nat.not_le.mpr hport]
  rfl

/-! ### Failures beyond the spares (R463) -/

theorem sparesExhausted_core {s : State} {cl : Nat} {x : Nat × Nat} (hx : s.svc.wants.find? (fun x => x.1 = 0 && x.2 / 5 = cl) = some x) (hcl : cl < 48)
    (hused : bitAt (s.csr (svcAddr 0x10)) cl = true) : exec (.sparesExhausted 0 cl) s = .next (((s.met 0 x.2).setSvcBit 0x14 cl).raiseHigh) := by
  have hexec : exec (.sparesExhausted 0 cl) s = execSparesExhausted 0 cl s := rfl
  simp only [hexec, execSparesExhausted, hx, hcl, hused]
  rfl

theorem sparesExhausted_slice {s : State} {slice : Nat} (hslice : slice < 64) (hused : s.bothUsed 0x11 = true) (hwant : s.wanted 1 slice = true) :
    exec (.sparesExhausted 1 slice) s = .next (s.met 1 slice).raiseHigh := by
  have hexec : exec (.sparesExhausted 1 slice) s = execSparesExhausted 1 slice s := rfl
  simp only [hexec, execSparesExhausted, hslice, hused, hwant]
  rfl

theorem sparesExhausted_channel {s : State} {ch : Nat} (hch : ch < 32) (hused : s.bothUsed 0x12 = true) (hwant : s.wanted 2 ch = true) :
    exec (.sparesExhausted 2 ch) s = .next (s.met 2 ch).raiseHigh := by
  have hexec : exec (.sparesExhausted 2 ch) s = execSparesExhausted 2 ch s := rfl
  simp only [hexec, execSparesExhausted, hch, hused, hwant]
  rfl

theorem sparesExhausted_lane {s : State} {port : Nat} (hport : port < 9) (hused : bitAt (s.csr (svcAddr 0x13)) port = true) :
    exec (.sparesExhausted 3 port) s = .next (s.portDown port).raiseHigh := by
  have hexec : exec (.sparesExhausted 3 port) s = execSparesExhausted 3 port s := rfl
  simp only [hexec, execSparesExhausted, hport, hused]
  rfl

/-! ## Errors, monitors and telemetry (R464 to R466, R470) -/

/-- An event of a unit that has a bank is entered there, and an uncorrectable one leaves its sector uncorrectable. -/
theorem errorRecord_enters {s : State} {group unit : Nat} (hbank : bankOk group unit = true) (hgroup : group < 4) (ue consumed : Bool) (src addr info : Nat) :
    exec (.errorRecord group unit ue consumed src addr info) s =
      .next (match (if ue then errorSector group unit src (addr % 2 ^ 56) else none) with
        | some l => (s.enterError group unit ue false src (addr % 2 ^ 56) info).poisoned l
        | none => s.enterError group unit ue false src (addr % 2 ^ 56) info) := by
  have hexec : exec (.errorRecord group unit ue consumed src addr info) s = execErrorRecord group unit ue consumed src addr info s := rfl
  simp only [hexec, execErrorRecord, hbank, Nat.not_le.mpr hgroup]
  rfl

theorem wearSample_samples {s : State} {group unit : Nat} (wmpd wmrt : Nat) (hgroup : group < 4) (hbank : bankOk group (unit % 128) = true)
    (hmon : unit / 128 < monitors group (unit % 128)) :
    let a := csrAddr 12 group (unit % 128) (0x20 + unit / 128)
    let t := s.setCsr a (putBits (putBits (s.csr a) 0 16 wmpd) 16 16 wmrt)
    (∀ x ∈ s.svc.trend, x.1 = a → x.2.1 + tenSeconds ≤ s.clk) →
    exec (.wearSample group unit wmpd wmrt) s = .next ((t.updSvc (fun v =>
      { v with trend := v.trend.filter (fun x => t.clk < x.2.1 + thirtyDays) ++ [(a, t.clk, wmpd % 2 ^ 16, wmrt % 2 ^ 16)] })).margin group (unit % 128) (unit / 128)) := by
  intro a t hdue
  have hexec : exec (.wearSample group unit wmpd wmrt) s = execWearSample group unit wmpd wmrt s := rfl
  have hnone : s.svc.trend.any (fun x => x.1 = a && s.clk < x.2.1 + tenSeconds) = false := by
    simpa using fun y z w v hx hxa => hdue (y, z, w, v) hx hxa
  simp only [a] at hnone
  simp only [hexec, execWearSample, hbank, hnone, Nat.not_le.mpr hgroup, Nat.not_le.mpr hmon]
  rfl

theorem telemetrySample_samples {s : State} {reg : Nat} (value : DWord) (high : Bool) (hreg : reg < 64) :
    exec (.telemetrySample reg value high) s =
      .next (if high then (s.setCsr (svcAddr (0x40 + reg)) value.toNat).raiseHigh else s.setCsr (svcAddr (0x40 + reg)) value.toNat) := by
  have hexec : exec (.telemetrySample reg value high) s = execTelemetrySample reg value high s := rfl
  rw [hexec, execTelemetrySample, if_neg (Nat.not_le.mpr hreg)]

/-! ## The thermal stop (R452, R471) -/

/-- A quadrant is stopped, and no step of it is under way. -/
def State.halted (s : State) (x : Nat × Nat × Nat) : Prop := s.stopped x.1 x.2.1 x.2.2 = true ∧ s.stepping.contains x = false

/-- Bits 5 and 0 of the value that a stop gives DQCTL: STPD is set and EN stays. -/
theorem bitAt_stopValue (x cause i : Nat) (hi : i = 5 ∨ i = 0) :
    bitAt (putBits (putBits (putBits (putBits x 5 1 1) 6 1 0) 4 1 1) 7 3 cause) i = (bitAt x i || decide (i = 5)) := by
  rcases hi with rfl | rfl
  · have hbit : bitAt 1 0 = true := by decide
    simp [bitAt_putBits, hbit]
  · simp [bitAt_putBits]

theorem State.dqctl_stopQuad (s : State) (cl core q cause a i : Nat) (hi : i = 5 ∨ i = 0) :
    bitAt ((s.stopQuad cl core q cause).csr a) i = (bitAt (s.csr a) i || (decide (a = dqctl cl core q) && decide (i = 5))) := by
  have hcsrs : (s.stopQuad cl core q cause).csrs =
      (s.setCsr (dqctl cl core q) (putBits (putBits (putBits (putBits (s.csr (dqctl cl core q)) 5 1 1) 6 1 0) 4 1 1) 7 3 cause)).csrs := by
    simp only [State.stopQuad]
  rw [State.csr_congr hcsrs, State.csr_setCsr]
  by_cases ha : a = dqctl cl core q
  · subst ha
    rw [if_pos rfl, bitAt_mod _ (by omega), bitAt_stopValue _ _ _ hi, decide_eq_true rfl, Bool.true_and]
  · rw [if_neg ha, decide_eq_false ha, Bool.false_and, Bool.or_false]

/-- What a thermal stop does to one quadrant. -/
def State.thermalQuad (s : State) (x : Nat × Nat × Nat) : State :=
  if s.stopped x.1 x.2.1 x.2.2 && !s.stepping.contains x then s else s.stopQuad x.1 x.2.1 x.2.2 1

theorem State.debugOn_thermalQuad (s : State) (x : Nat × Nat × Nat) (cl core q : Nat) : (s.thermalQuad x).debugOn cl core q = s.debugOn cl core q := by
  unfold State.thermalQuad
  split
  · rfl
  · rw [State.debugOn, State.dqctl_stopQuad _ _ _ _ _ _ _ (.inr rfl), decide_eq_false (by decide : ¬(0 = 5)), Bool.and_false, Bool.or_false, State.debugOn]

theorem State.stepping_stopQuad (s : State) (cl core q cause : Nat) :
    (s.stopQuad cl core q cause).stepping = s.stepping.filter (fun x => x ≠ (cl, core, q)) := rfl

theorem State.halted_thermalQuad_same (s : State) (x : Nat × Nat × Nat) : (s.thermalQuad x).halted x := by
  obtain ⟨cl, core, q⟩ := x
  unfold State.thermalQuad
  split
  · next h =>
    obtain ⟨hstop, hstep⟩ := Bool.and_eq_true_iff.mp h
    exact ⟨hstop, by rwa [Bool.not_eq_true'] at hstep⟩
  · refine ⟨?_, ?_⟩
    · rw [State.stopped, State.dqctl_stopQuad _ _ _ _ _ _ _ (.inl rfl), decide_eq_true rfl, decide_eq_true rfl, Bool.and_self, Bool.or_true]
    · rw [State.stepping_stopQuad, List.contains_eq_mem, decide_eq_false_iff_not, List.mem_filter]
      exact fun hm => of_decide_eq_true hm.2 rfl

theorem State.halted_thermalQuad {s : State} {y : Nat × Nat × Nat} (h : s.halted y) (x : Nat × Nat × Nat) : (s.thermalQuad x).halted y := by
  obtain ⟨hstop, hstep⟩ := h
  unfold State.thermalQuad
  split
  · exact ⟨hstop, hstep⟩
  · refine ⟨?_, ?_⟩
    · rw [State.stopped] at hstop ⊢
      rw [State.dqctl_stopQuad _ _ _ _ _ _ _ (.inl rfl), hstop, Bool.true_or]
    · rw [List.contains_eq_mem, decide_eq_false_iff_not] at hstep ⊢
      exact fun hy => hstep (List.mem_of_mem_filter hy)

theorem State.halted_foldl (xs : List (Nat × Nat × Nat)) {s : State} {y : Nat × Nat × Nat} (h : y ∈ xs ∨ s.halted y) : (xs.foldl State.thermalQuad s).halted y := by
  induction xs generalizing s with
  | nil => exact h.resolve_left List.not_mem_nil
  | cons x xs ih =>
    rw [List.foldl_cons]
    rcases h with h | h
    · rcases List.mem_cons.mp h with rfl | h
      · exact ih (.inr (s.halted_thermalQuad_same _))
      · exact ih (.inl h)
    · exact ih (.inr (State.halted_thermalQuad h x))

theorem mem_allQuads {cl core q : Nat} (hcl : cl < 48) (hcore : core < 4) (hq : q < 4) : (cl, core, q) ∈ allQuads := by
  simp only [allQuads, List.mem_flatMap, List.mem_map, List.mem_range]
  exact ⟨cl, hcl, core, hcore, q, hq, rfl⟩

theorem exec_thermalStop (s : State) : exec .thermalStop s = .next ((allQuads.foldl State.thermalQuad s).updSvc (fun v => { v with thermal := true })) := by
  have hexec : exec .thermalStop s = execThermalStop s := rfl
  rw [hexec, execThermalStop]
  -- the list is kept from being computed
  generalize allQuads = quads
  rfl

/-- What the thermal stop of some quadrants leaves. -/
theorem State.foldl_thermalQuad (s : State) (quads : List (Nat × Nat × Nat)) :
    let t := (quads.foldl State.thermalQuad s).updSvc (fun v => { v with thermal := true })
    t.svc.thermal = true ∧ ∀ cl core q, (cl, core, q) ∈ quads →
      t.stopped cl core q = true ∧ t.stepping.contains (cl, core, q) = false ∧ t.debugOn cl core q = s.debugOn cl core q := by
  refine ⟨rfl, fun cl core q hx => ?_⟩
  obtain ⟨hstop, hstep⟩ := State.halted_foldl quads (s := s) (.inl hx)
  exact ⟨hstop, hstep, foldl_keeps (fun s => s.debugOn cl core q) (fun s x => s.debugOn_thermalQuad x cl core q) quads s⟩

/-- Every quadrant is stopped, whatever EN holds. -/
theorem thermalStop_stops (s : State) : ∃ t, exec .thermalStop s = .next t ∧ t.svc.thermal = true ∧ ∀ cl core q, cl < 48 → core < 4 → q < 4 →
    t.stopped cl core q = true ∧ t.stepping.contains (cl, core, q) = false ∧ t.debugOn cl core q = s.debugOn cl core q := by
  obtain ⟨hthermal, hquads⟩ := s.foldl_thermalQuad allQuads
  exact ⟨_, exec_thermalStop s, hthermal, fun cl core q hcl hcore hq => hquads cl core q (mem_allQuads hcl hcore hq)⟩

end Sys2Proof.Machine
end

section
/-!
PROOF. A module reset (R411, R463): what it keeps, and the bytes that firmware's stores leave in memory.
-/

namespace Sys2Proof.Machine

/-! ## What a store keeps -/

/-- One part of a plain store of the bytes `zs`. -/
def State.storeSpot (zs : List (Loc × Byte)) (s : State) (x : Nat × Spot) : State :=
  s.storePart (zs.filter (fun y => y.1.sec = x.2.at'.sec)) x.2 x.1 ((s.ord.agent.map (fun a => a.rels x.2.at'.kind none)).getD []) false

theorem State.store_eq_foldl (s : State) (ls : List Loc) (bs : List Byte) :
    s.store ls bs = ((List.range (s.spots ls true).length).zip (s.spots ls true)).foldl (State.storeSpot (ls.zip bs)) s := rfl

section
variable {β : Type} {g : State → β} (hloc : ∀ s l b, g (State.writeLoc s l b) = g s)
include hloc

/-- What the write of one byte keeps, the write of several keeps. -/
theorem State.kept_putBytes (s : State) (xs : List (Loc × Byte)) (h : List WEv) : g (s.putBytes xs h).1 = g s := by
  refine foldl_keeps (fun acc : State × List WEv => g acc.1) (fun acc x => ?_) xs (s, h)
  split
  · rfl
  · exact hloc _ _ _

/-- What the write of one byte keeps, and the order of accesses and the uncorrectable sectors leave, a store keeps. -/
theorem State.kept_store (hrest : ∀ (s : State) ord poison ueLog, g { s with ord := ord, poison := poison, ueLog := ueLog } = g s) (s : State) (ls : List Loc)
    (bs : List Byte) : g (s.store ls bs) = g s := by
  have hwrite (s : State) (xs : List (Loc × Byte)) (sp : Spot) (i : Nat) (rels : List Rel) (rmw : Bool) : g (s.writePart xs sp i rels rmw) = g s := by
    obtain ⟨h, e⟩ := s.writePart_puts xs sp i rels rmw
    rw [e]
    exact (hrest _ _ _ _).trans (State.kept_putBytes hloc s xs h)
  rw [State.store_eq_foldl]
  refine foldl_keeps g (fun s x => ?_) _ s
  unfold State.storeSpot State.storePart
  split
  · rfl
  · split
    · split
      · exact (hwrite _ _ _ _ _ _).trans (hrest s s.ord _ s.ueLog)
      · rw [State.noteUe_keeps]
        exact hrest s s.ord s.poison _
    · exact hwrite _ _ _ _ _ _

end

/-! ## The service's stores, byte by byte -/

/-- Bytes are written one by one, each the newest of its place. -/
def State.writeLocs (s : State) (xs : List (Loc × Byte)) : State := xs.foldl (fun s x => s.writeLoc x.1 x.2) s

theorem State.putBytes_none (s : State) (xs : List (Loc × Byte)) : s.putBytes xs [] = (s.writeLocs xs, []) := by
  unfold State.writeLocs
  induction xs generalizing s with
  | nil => rfl
  | cons x xs ih => exact ih (s.writeLoc x.1 x.2)

/-- The service acts, and the sector of a place holds no uncorrectable data. -/
def State.serviceSound (s : State) (p : Loc) : Prop := s.ord.agent = none ∧ s.isPoison p = false

section
variable {p : Loc} (hp : p.away = false)
include hp

/-- A place that is written once has the byte written. -/
theorem State.newest_writeLocs {b : Byte} {xs : List (Loc × Byte)} {s : State} (h : (p, b) ∈ xs ∨ s.newest p = b) (hone : ∀ y ∈ xs, p.at y.1 → y = (p, b)) :
    (s.writeLocs xs).newest p = b := by
  unfold State.writeLocs
  induction xs generalizing s with
  | nil => exact h.resolve_left List.not_mem_nil
  | cons y xs ih =>
    rw [List.foldl_cons]
    refine ih ?_ (fun z hz => hone z (List.mem_cons_of_mem _ hz))
    by_cases hy : p.at y.1
    · rw [hone y List.mem_cons_self hy]
      exact .inr (State.newest_writeLoc_same hp s b)
    · rcases h with h | h
      · rcases List.mem_cons.mp h with rfl | h
        · exact absurd ⟨rfl, rfl⟩ hy
        · exact .inl h
      · exact .inr ((State.newest_writeLoc s _ _ _ hy).trans h)

theorem State.isPoison_here (s : State) : s.isPoison p = s.poison.contains p.sec := by
  cases p with
  | rem => cases hp
  | dev | loc | chip => rfl

/-- A place in the sector of one of this module is of this module. -/
theorem Loc.away_of_sec {q : Loc} (hq : q.sec = p.sec) : q.away = false := by
  cases q with
  | rem =>
    cases p with
    | rem => cases hp
    | dev | loc | chip => cases hq
  | dev | loc | chip => rfl

section
variable {s : State} (xs : List (Loc × Byte)) (sp : Spot) (i : Nat) (rels : List Rel) (rmw : Bool)

theorem State.newest_writePart_none (hs : s.ord.agent = none) : (s.writePart xs sp i rels rmw).newest p = (s.writeLocs xs).newest p := by
  have hput : (s.writePart xs sp i rels rmw).newest p = (s.putBytes xs []).1.newest p := by
    simp only [State.writePart, hs]
    cases p <;> rfl
  rw [hput, State.putBytes_none]

theorem State.serviceSound_writePart (h : s.serviceSound p) : (s.writePart xs sp i rels rmw).serviceSound p := by
  obtain ⟨hs, hsound⟩ := h
  have hord : (s.putBytes xs []).1.ord = s.ord := State.kept_putBytes (g := State.ord) (fun _ l _ => by cases l <;> rfl) s xs []
  have hpoison : (s.putBytes xs []).1.poison = s.poison := State.kept_putBytes (g := State.poison) (fun _ l _ => by cases l <;> rfl) s xs []
  rw [State.isPoison_here hp] at hsound
  refine ⟨?_, ?_⟩
  · simp only [State.writePart, hs]
    exact (congrArg Ord.agent hord).trans hs
  · rw [State.isPoison_here hp, ← hsound, ← hpoison]
    simp only [State.writePart, hs]
    rfl

theorem State.serviceSound_storePart (h : s.serviceSound p) : (s.storePart xs sp i rels rmw).serviceSound p := by
  unfold State.storePart
  split
  · exact h
  · split
    · split
      · refine State.serviceSound_writePart hp xs sp i rels rmw ⟨h.1, ?_⟩
        obtain ⟨-, hsound⟩ := h
        rw [State.isPoison_here hp, List.contains_eq_mem, decide_eq_false_iff_not] at hsound ⊢
        exact fun hm => hsound (List.mem_of_mem_filter hm)
      · rw [State.noteUe_keeps]
        refine ⟨h.1, ?_⟩
        obtain ⟨-, hsound⟩ := h
        rwa [State.isPoison_here hp] at hsound ⊢
    · exact State.serviceSound_writePart hp xs sp i rels rmw h

/-- A part of the service's store of a sound sector leaves there the byte that it holds for a place. -/
theorem State.newest_storePart_same {b : Byte} (h : s.serviceSound p) (hsec : sp.at'.sec = p.sec) (hmem : (p, b) ∈ xs)
    (hone : ∀ y ∈ xs, p.at y.1 → y = (p, b)) : (s.storePart xs sp i rels rmw).newest p = b := by
  obtain ⟨hs, hsound⟩ := h
  have hspot := Loc.away_of_sec hp hsec
  have hspSound : s.isPoison sp.at' = false := by
    rw [State.isPoison_here hspot, hsec, ← State.isPoison_here hp, hsound]
  rw [State.storePart_here hspot, hspSound]
  exact (State.newest_writePart_none hp xs sp i rels rmw hs).trans (State.newest_writeLocs hp (.inl hmem) hone)

end

theorem State.serviceSound_foldl {zs : List (Loc × Byte)} (ps : List (Nat × Spot)) {s : State} (hs : s.serviceSound p) :
    (ps.foldl (State.storeSpot zs) s).serviceSound p := by
  induction ps generalizing s with
  | nil => exact hs
  | cons x ps ih => exact ih (State.serviceSound_storePart hp _ _ _ _ _ hs)

/-- The parts of the service's store, one after another: where one of them is in the sector of a place, the place has its byte of `zs`. -/
theorem State.newest_foldl_storeSpot {zs : List (Loc × Byte)} {b : Byte} (hmem : (p, b) ∈ zs) (hone : ∀ y ∈ zs, p.at y.1 → y = (p, b))
    (ps : List (Nat × Spot)) {s : State} (hs : s.serviceSound p) (h : (∃ y ∈ ps, y.2.at'.sec = p.sec) ∨ s.newest p = b) :
    (ps.foldl (State.storeSpot zs) s).newest p = b := by
  induction ps generalizing s with
  | nil => exact h.resolve_left (by simp)
  | cons x ps ih =>
    rw [List.foldl_cons]
    refine ih (State.serviceSound_storePart hp _ _ _ _ _ hs) ?_
    by_cases hx : x.2.at'.sec = p.sec
    · refine .inr (State.newest_storePart_same hp _ _ _ _ _ hs hx ?_ (fun y hy => hone y (List.mem_of_mem_filter hy)))
      exact List.mem_filter.mpr ⟨hmem, by simp [hx]⟩
    · rcases h with ⟨y, hy, hsec⟩ | h
      · rcases List.mem_cons.mp hy with rfl | hy
        · exact absurd hsec hx
        · exact .inl ⟨y, hy, hsec⟩
      · refine .inr ((State.newest_storePart s _ _ _ _ _ p (fun y hy hat => hx ?_)).trans h)
        obtain ⟨-, hysec⟩ := List.mem_filter.mp hy
        exact (of_decide_eq_true hysec).symm.trans hat.1.symm

theorem State.serviceSound_store {s : State} (h : s.serviceSound p) (ls : List Loc) (bs : List Byte) : (s.store ls bs).serviceSound p := by
  rw [State.store_eq_foldl]
  exact State.serviceSound_foldl hp _ h

end

/-- Every byte of an access lies in one of its sectors. -/
theorem exists_sectorsOf {ls : List Loc} {p : Loc} (h : p ∈ ls) : ∃ q ∈ sectorsOf ls, q.sec = p.sec := by
  have key (ls acc : List Loc) (h : p ∈ ls ∨ ∃ q ∈ acc, q.sec = p.sec) :
      ∃ q ∈ ls.foldl (fun acc l => if acc.any (fun x => x.sec = l.sec) then acc else acc ++ [l]) acc, q.sec = p.sec := by
    induction ls generalizing acc with
    | nil => exact h.resolve_left List.not_mem_nil
    | cons l ls ih =>
      rw [List.foldl_cons]
      refine ih _ ?_
      rcases h with h | ⟨q, hq, hsec⟩
      · rcases List.mem_cons.mp h with rfl | h
        · right
          split
          · next hany => simpa using hany
          · exact ⟨p, by simp, rfl⟩
        · exact .inl h
      · right
        split
        · exact ⟨q, hq, hsec⟩
        · exact ⟨q, List.mem_append_left _ hq, hsec⟩
  exact key ls [] (.inl h)

/-- A member of a list is numbered in it. -/
theorem exists_mem_range_zip {α : Type} {l : List α} {x : α} (h : x ∈ l) : ∃ i, (i, x) ∈ (List.range l.length).zip l := by
  obtain ⟨i, hi, rfl⟩ := List.mem_iff_getElem.mp h
  exact ⟨i, List.mem_iff_getElem.mpr ⟨i, by simpa using hi, by simp⟩⟩

/-- A byte that the service stores in a place of this module, with sound data in its sector and no other byte for it, is the newest there. -/
theorem State.newest_store_service {s : State} {ls : List Loc} {bs : List Byte} {i : Nat} {p : Loc} {b : Byte} (hs : s.serviceSound p) (hp : p.away = false)
    (hi : ls[i]? = some p) (hb : bs[i]? = some b) (hone : ∀ (j : Nat) q, j ≠ i → ls[j]? = some q → ¬ q.at p) : (s.store ls bs).newest p = b := by
  have hmem : (p, b) ∈ ls.zip bs := List.mem_iff_getElem?.mpr ⟨i, List.getElem?_zip_eq_some.mpr ⟨hi, hb⟩⟩
  have honly : ∀ y ∈ ls.zip bs, p.at y.1 → y = (p, b) := by
    rintro ⟨q, x⟩ hy hat
    obtain ⟨j, hj⟩ := List.mem_iff_getElem?.mp hy
    obtain ⟨hq, hx⟩ := List.getElem?_zip_eq_some.mp hj
    by_cases hji : j = i
    · subst hji
      rw [hi] at hq
      rw [hb] at hx
      cases hq
      cases hx
      rfl
    · exact absurd ⟨hat.1.symm, hat.2.symm⟩ (hone j q hji hq)
  rw [State.store_eq_foldl]
  refine State.newest_foldl_storeSpot hp hmem honly _ hs (.inl ?_)
  obtain ⟨q, hq, hsec⟩ := exists_sectorsOf (List.mem_of_getElem? hi)
  have hspot : (⟨q, 0, 0⟩ : Spot) ∈ s.spots ls true := by
    simp only [State.spots, hs.1]
    exact List.mem_map.mpr ⟨q, hq, rfl⟩
  obtain ⟨n, hn⟩ := exists_mem_range_zip hspot
  exact ⟨(n, ⟨q, 0, 0⟩), hn, hsec⟩

/-! ## The service acts -/

theorem State.keeps_asService (s : State) {f : State → State} (hf : ∀ t : State, t.Keeps (f t)) : s.Keeps (s.asService f) :=
  (hf { s with ord := { s.ord with agent := none } }).trans (s := { s with ord := { s.ord with agent := none } }) rfl

/-- What the service leaves in memory is what it leaves where it acts. -/
theorem State.newest_asService (s : State) (f : State → State) (q : Loc) :
    (s.asService f).newest q = (f { s with ord := { s.ord with agent := none } }).newest q := by
  cases q <;> rfl

theorem State.serviceSound_serve {s : State} {p : Loc} (hp : p.away = false) (h : s.isPoison p = false) :
    ({ s with ord := { s.ord with agent := none } } : State).serviceSound p := by
  rw [State.isPoison_here hp] at h
  exact ⟨rfl, by rwa [State.isPoison_here hp]⟩

/-! ## The state after a module reset -/

theorem State.slicesSpared_of_csr {s t : State} (h : t.csr (svcAddr 0x11) = s.csr (svcAddr 0x11)) : t.slicesSpared = s.slicesSpared := by
  have hreg : csrAddr 10 0 0 0x11 = svcAddr 0x11 := rfl
  simp only [State.slicesSpared, hreg, h]

/-- The tables of classes that have none lead to the spare slices in use. -/
theorem State.foldl_writeRoutes (cs : List Nat) (hnd : cs.Nodup) (s : State) (hno : ∀ x ∈ s.svc.routes, x.1 ∉ cs) :
    cs.foldl State.writeRoutes s =
      s.updSvc (fun v => { v with routes := v.routes ++ cs.flatMap (fun c => s.slicesSpared.map (fun x => (c, x.1, x.2))) }) := by
  induction cs generalizing s with
  | nil => simp [State.updSvc]
  | cons c cs ih =>
    obtain ⟨hc, hnd⟩ := List.nodup_cons.mp hnd
    have hwrite : s.writeRoutes c = s.updSvc (fun v => { v with routes := v.routes ++ s.slicesSpared.map (fun x => (c, x.1, x.2)) }) := by
      have hall : s.svc.routes.filter (fun x => x.1 ≠ c) = s.svc.routes :=
        List.filter_eq_self.mpr (fun x hx => by simpa using fun e : x.1 = c => hno x hx (e ▸ List.mem_cons_self))
      simp only [State.writeRoutes, State.updSvc, hall]
    rw [List.foldl_cons, hwrite, ih hnd]
    · simp only [State.updSvc, List.flatMap_cons, List.append_assoc]
      rfl
    · intro x hx
      rcases List.mem_append.mp hx with hx | hx
      · exact fun h => hno x hx (List.mem_cons_of_mem _ h)
      · obtain ⟨y, -, rfl⟩ := List.mem_map.mp hx
        exact hc

/-- The machine that a module reset leaves, before firmware's stores: the reset state with what is kept. -/
def State.resetKept (s : State) : State :=
  { State.reset with
    tick := s.tick, fresh := s.fresh, booted := true, regions := [rootRegion], csrs := s.csrs.filter (fun p => spareReg p.1)
    mem := s.mem, ls := s.ls, chip := s.chip, pads := s.pads, poison := s.poison
    svc := { State.reset.svc with
      quotes := s.svc.quotes, portsDown := s.svc.portsDown, rows := s.svc.rows.map (fun r => (r.1, r.2.1, r.2.2.1, true)),
      routes := (List.range 9).flatMap (fun c => s.slicesSpared.map (fun x => (c, x.1, x.2))) } }

/-- The registers of the spare state are kept, and every other has its reset value. -/
theorem State.csr_keptSpares {s t : State} (h : t.csrs = s.csrs.filter (fun p => spareReg p.1)) (a : Nat) :
    t.csr a = if spareReg a then s.csr a else State.reset.csr a := by
  rw [State.csr_reset, State.csr, h, Sparse.get_filter]
  split <;> rfl

theorem State.afterReset_eq (s : State) : s.afterReset = s.resetKept := by
  have hspared {t : State} (h : t.csrs = s.csrs.filter (fun p => spareReg p.1)) : t.slicesSpared = s.slicesSpared :=
    State.slicesSpared_of_csr (by rw [State.csr_keptSpares h, if_pos (by decide)])
  rw [State.afterReset, State.foldl_writeRoutes _ List.nodup_range, hspared rfl]
  · rfl
  · exact fun x hx => absurd hx List.not_mem_nil

/-! ## What firmware loads (R411) -/

/-- The launches, gangs and shadow banks of the distributor, and the bins, tiles and waiting calls of the Asterism units. -/
def State.workUnits (s : State) : List Launch × List Gang × List Shadow × List Bin × List Tile × List (Nat × ACall) :=
  (s.wd.launches, s.wd.gangs, s.wd.shadows, s.asu.bins, s.asu.tiles, s.asu.waiting)

theorem State.workUnits_store (s : State) (ls : List Loc) (bs : List Byte) : (s.store ls bs).workUnits = s.workUnits :=
  State.kept_store (g := State.workUnits) (fun _ l _ => by cases l <;> rfl) (fun _ _ _ _ => rfl) s ls bs

theorem State.workUnits_asService (s : State) {f : State → State} (hf : ∀ t : State, (f t).workUnits = t.workUnits) : (s.asService f).workUnits = s.workUnits :=
  hf { s with ord := { s.ord with agent := none } }

theorem State.keeps_boot (s : State) : s.Keeps s.boot := by
  have himage : s.Keeps s.bootImage := s.keeps_asService (fun t => t.keeps_store _ _)
  rw [State.boot]
  exact himage.trans (State.keeps_asService _ (fun t => (t.keeps_store _ _).trans (State.keeps_store _ _ _)))

theorem State.workUnits_boot (s : State) : s.boot.workUnits = s.workUnits := by
  have himage : s.bootImage.workUnits = s.workUnits := s.workUnits_asService (fun t => t.workUnits_store _ _)
  rw [State.boot, State.workUnits_asService _ (fun t => (State.workUnits_store _ _ _).trans (t.workUnits_store _ _)), himage]

/-- The state once firmware's image and the root's control block are in memory, where the service acts. -/
def State.rootBlockStored (s : State) : State :=
  ({ s.bootImage with ord := { s.bootImage.ord with agent := none } } : State).store (s.bootImage.rootSpan rootRegion.adr 256) (leBytes 256 rootRegion.rcb)

theorem State.newest_boot (s : State) (q : Loc) :
    s.boot.newest q = (s.rootBlockStored.store (s.bootImage.rootSpan rootRegion.amtbl 2048) rootTable).newest q :=
  State.newest_asService _ _ q

/-- A place that none of firmware's stores touches. -/
theorem State.newest_boot_other {s : State} {q : Loc} (himage : ∀ x ∈ rootImage, ¬ q.at x.1) (hblock : ∀ p ∈ s.bootImage.rootSpan rootRegion.adr 256, ¬ q.at p)
    (htable : ∀ p ∈ s.bootImage.rootSpan rootRegion.amtbl 2048, ¬ q.at p) : s.boot.newest q = s.newest q := by
  have hloaded : s.bootImage.newest q = s.newest q := by
    rw [State.bootImage, State.newest_asService, State.newest_store _ _ _ q (by simpa using fun p x hx => himage (p, x) hx)]
    cases q <;> rfl
  rw [State.newest_boot, State.newest_store _ _ _ q htable, State.rootBlockStored, State.newest_store _ _ _ q hblock, ← hloaded]
  cases q <;> rfl

section
variable {s : State} {i : Nat} {p : Loc} {x : Byte} (hsound : s.bootImage.isPoison p = false) (hp : p.away = false)
include hsound hp

/-- A byte of the root's table stands in its place. -/
theorem State.newest_boot_table (hi : (s.bootImage.rootSpan rootRegion.amtbl 2048)[i]? = some p) (hx : rootTable[i]? = some x)
    (hone : ∀ (j : Nat) q, j ≠ i → (s.bootImage.rootSpan rootRegion.amtbl 2048)[j]? = some q → ¬ q.at p) : s.boot.newest p = x := by
  rw [State.newest_boot]
  exact State.newest_store_service (State.serviceSound_store hp (State.serviceSound_serve hp hsound) _ _) hp hi hx hone

/-- A byte of the root's control block stands in its place, where the table does not lie over it. -/
theorem State.newest_boot_block (hi : (s.bootImage.rootSpan rootRegion.adr 256)[i]? = some p) (hx : (leBytes 256 rootRegion.rcb)[i]? = some x)
    (hone : ∀ (j : Nat) q, j ≠ i → (s.bootImage.rootSpan rootRegion.adr 256)[j]? = some q → ¬ q.at p)
    (htable : ∀ q ∈ s.bootImage.rootSpan rootRegion.amtbl 2048, ¬ q.at p) : s.boot.newest p = x := by
  rw [State.newest_boot, State.newest_store _ _ _ p (fun q hq hat => htable q hq ⟨hat.1.symm, hat.2.symm⟩)]
  exact State.newest_store_service (State.serviceSound_serve hp hsound) hp hi hx hone

end

/-- A place on no peer is of this module. -/
theorem Loc.away_eq_false {p : Loc} (h : ∀ m va k, p ≠ .rem m va k) : p.away = false := by
  cases p with
  | rem m va k => exact absurd rfl (h m va k)
  | dev | loc | chip => rfl

/-! ## The events -/

/-- Settles O47: each event under its conditions is one branch of its definition; a module reset is the reset state with what is kept, and firmware's stores. -/
theorem serviceEventsComplete : Obligations.ServiceEventsComplete := by
  intro s
  refine ⟨?slice, ?channel, fun _ _ => coreSpareMigrate_migrates, fun _ => laneSpareRetrain_retrains, fun _ _ => sparesExhausted_core,
    fun _ => sparesExhausted_slice, fun _ => sparesExhausted_channel, fun _ => sparesExhausted_lane, ?error,
    fun _ _ wmpd wmrt hgroup hbank hmon => wearSample_samples wmpd wmrt hgroup hbank hmon, fun _ value => telemetrySample_samples value false,
    fun _ value => telemetrySample_samples value true, thermalStop_stops s, fun _ => rfl, fun _ => rfl, ?reset⟩
  case slice =>
    exact fun slice spare hspare hslice hfree hwant => congrArg Host.Outcome.next (State.takeSpare_takes _ hspare hslice hfree hwant)
  case channel =>
    exact fun ch spare hspare hch hfree hwant => congrArg Host.Outcome.next (State.takeSpare_takes _ hspare hch hfree hwant)
  case error =>
    intro group unit ue consumed src addr info hbank hgroup t
    refine ⟨fun l hue hsector => ?_, fun hno => ?_⟩
    · rw [errorRecord_enters hbank hgroup, if_pos hue, hsector]
    · have hnone : (if ue then errorSector group unit src (addr % 2 ^ 56) else none) = none := by
        rcases hno with rfl | hno
        · rfl
        · rw [hno, ite_self]
      rw [errorRecord_enters hbank hgroup, hnone]
  case reset =>
    intro b block table holds
    have hkeeps : s.resetKept.Keeps s.afterReset.boot := s.afterReset_eq ▸ s.afterReset.keeps_boot
    have hcsrs : s.afterReset.boot.csrs = s.csrs.filter (fun p => spareReg p.1) := by rw [hkeeps]; rfl
    have hunits : s.afterReset.boot.workUnits = s.resetKept.workUnits := s.afterReset_eq ▸ s.afterReset.workUnits_boot
    obtain ⟨hlaunches, hgangs, hshadows, hbins, htiles, hwaiting⟩ := by simpa [State.workUnits] using hunits
    have hmem (q : Loc) : s.afterReset.newest q = s.newest q := by
      rw [State.afterReset_eq]
      cases q <;> rfl
    refine ⟨s.afterReset.boot, rfl, hkeeps, fun a ha => ?_, fun a ha => ?_, hlaunches, hgangs, hshadows, hbins, htiles, hwaiting, ?_, ?_, ?_⟩
    · rw [State.csr_keptSpares hcsrs, if_pos ha]
    · rw [State.csr_keptSpares hcsrs, ha]
      rfl
    · exact fun i p x hi hx hsound hrem hone _ => State.newest_boot_table hsound (Loc.away_eq_false hrem) hi hx hone
    · exact fun i p x hi hx hsound hrem hone hrest => State.newest_boot_block hsound (Loc.away_eq_false hrem) hi hx hone hrest
    · exact fun q himage hblock htable => (State.newest_boot_other himage hblock htable).trans (hmem q)

end Sys2Proof.Machine
end

section
/-!
PROOF. Task and buffer instructions (R226, R259, R264, R273 to R281, R316): the outcome of a lane by its checks, and where the instructions complete.
-/

namespace Sys2Proof.Machine

/-! ## TKPOST (R263, R274) -/

section
variable {f : EngFn} {c : Ctx} {s : State} {l : Nat} {ls : List (Nat × Loc)}

/-- Bytes of which none is awaited from a peer are read at once. -/
theorem State.bytesAt_present (hm : s.missing ls = none) : s.bytesAt ls = .ok (s.readLocs (ls.map (fun x => x.2))) := by
  simp only [State.bytesAt, State.absent, hm, Option.map_none]

variable (hw : (s.wave? c.uid).isSome) (htok : s.tokBusy c.uid l (tokField c.e.h.b.toNat) = false) (hat : recordAt f c s l = .ok ls)
include hw htok hat

/-- With no free slot the record is not read (R274). -/
theorem tkpostLane_full (hslot : s.freeSlot (waveOf c s).cl = none) :
    tkpostLane f c s l =
      (s.count (clReg (waveOf c s).cl 6) 32 1, .ok { regs := regWrites l .v c.e.h.d.toNat 1 0xFFFFFFFF, st := admitted c }) := by
  rw [recordAt, issuedOf_eq hw] at hat
  simp only [tkpostLane, wave?_of_isSome hw, htok, hat, Wave.atIssue_cl, hslot, Bool.false_eq_true, if_false]

/-- A record that is read and passes the checks of R263 is posted in the free slot. -/
theorem tkpostLane_posts {slot : Nat} (hslot : s.freeSlot (waveOf c s).cl = some slot) (hue : s.ueAt (ls.take 24) = none) (hm : s.missing (ls.take 24) = none) :
    let w := (waveOf c s).atIssue l
    let locs := (ls.take 24).map (fun x => x.2)
    let u := s.noteRead locs none
    let from' := s.readRegs c.uid l (c.e.kindOf .a) (c.e.field .a) 2 % 2 ^ 56
    let t := u.newTask w l slot (leNat (s.readLocs locs)) (tokField c.e.h.b.toNat) false (f.sub.toNat, w.byteAddr l f.sub.toNat from' 0, w.coreKey) none none
    u.recordBad w (leNat (s.readLocs locs)) = false →
      tkpostLane f c s l = (u.postTask t, .ok { regs := regWrites l .v c.e.h.d.toNat 1 t.id, st := admitted c }) := by
  intro w locs u from' t hok
  rw [recordAt, issuedOf_eq hw] at hat
  simp only [tkpostLane, wave?_of_isSome hw, htok, hat, Wave.atIssue_cl, hslot, hue, State.bytesAt_present hm, Bool.false_eq_true, if_false]
  exact if_neg (Bool.eq_false_iff.mp hok)

end

/-- Settles O20: each lane passes the checks of `tkpostLane`, and the free slot chooses its branch. -/
theorem tkpostCompletes : Obligations.TkpostCompletes := by
  intro h f x ls slot tok from' rec' reads
  have hrecord : ∀ c s l, reads c s l → recordAt f c s l = .ok (ls c l) := fun c s l ⟨hw, _, hat⟩ => by rw [recordAt, issuedOf_eq hw, hat]
  refine ⟨?posts, ?full⟩
  all_goals
    refine DoesMem.of_lane rfl (fun _ => rfl) ?_
    rintro ⟨_, uid, pc, next, all, on⟩ s l rfl -
  case posts =>
    rintro ⟨hreads, hslot, hue, hm, hok⟩
    exact tkpostLane_posts hreads.1 hreads.2.1 (hrecord _ s l hreads) hslot hue hm hok
  case full =>
    rintro ⟨hreads, hslot⟩
    exact tkpostLane_full hreads.1 hreads.2.1 (hrecord _ s l hreads) hslot

/-! ## Instructions on a task (R259, R275 to R277) -/

section
variable {c : Ctx} {s : State} {l : Nat} {t : Task}

theorem onTask_names (g : Ctx → State → Nat → Task → State × LaneRes) (ht : names t c s l) : onTask g c s l = g c s l t := by
  simp only [onTask, wave?_of_isSome ht.1, ht.2]

/-- An instruction on a current task does what its effect on that task answers. -/
theorem DoesMem.of_task {i : Instr} {e : Enc} {T : Ctx → Nat → Task} {P : Ctx → State → Nat → Prop} {F : Ctx → State → Nat → State × LaneOut}
    {g : Ctx → State → Nat → Task → State × LaneRes} (he : encOf i = some e)
    (hx : ∀ s, exec i s = .next (slotEnd i (runPacketThen e (memWise (onTask g)) noPost (slotStart i e s))))
    (hP : ∀ c s l, P c s l → names (T c l) c s l) (hg : ∀ c s l, P c s l → g c s l (T c l) = ((F c s l).1, .ok (F c s l).2)) : DoesMem i P F noPost :=
  DoesMem.of_lane he hx (fun c s l _ _ hp => (onTask_names g (hP c s l hp)).trans (hg c s l hp))

/-- What TKWAIT of a lane answers where the task that A names is current or has been freed (R276). -/
def waitAnswer (h : Hdr) (c : Ctx) (s : State) (l : Nat) : State × LaneOut :=
  match s.taskOf (waveOf c s).cl (s.taskId c l) with
  | .current t =>
    if t.st = .done ∨ t.st = .specDone then (if t.joins then s.joinLane t.view c.uid l else s, { regs := regWrites l .v h.d.toNat 1 t.report })
    else (s, { st := some (.syncWait (.task (s.taskId c l) h.d.toNat) c.next h.s) })
  | _ => (s, { regs := regWrites l .v h.d.toNat 1 0xFF })

theorem tkwaitLane_names (ht : names t c s l) : tkwaitLane c s l = ((waitAnswer c.e.h c s l).1, .ok (waitAnswer c.e.h c s l).2) := by
  simp only [tkwaitLane, waitAnswer, wave?_of_isSome ht.1, ht.2, Bool.or_eq_true, decide_eq_true_eq]
  split <;> rfl

theorem tkwaitLane_gone (hw : (s.wave? c.uid).isSome) (ht : s.taskOf (waveOf c s).cl (s.taskId c l) = .retired) :
    tkwaitLane c s l = ((waitAnswer c.e.h c s l).1, .ok (waitAnswer c.e.h c s l).2) := by
  simp only [tkwaitLane, waitAnswer, wave?_of_isSome hw, ht]

/-- MRPG of a current task reads its progress, and joins a group that it shows completed of a task that is over (R316). -/
theorem mrpgLane_names (ht : names t c s l) :
    mrpgLane c s l =
      (if (t.kind = 3 ∨ t.kind = 4) ∧ (t.st = .done ∨ t.st = .specDone) ∧ bitAt t.progress 15 = true then s.joinLane t.view c.uid l else s,
        .ok { regs := regWrites l .v c.e.h.d.toNat 1 t.progress }) := by
  simp only [mrpgLane, wave?_of_isSome ht.1, ht.2, Bool.and_eq_true, Bool.or_eq_true, decide_eq_true_eq, and_assoc]

theorem mrpgLane_gone (hw : (s.wave? c.uid).isSome) (ht : s.taskOf (waveOf c s).cl (s.taskId c l) = .retired) :
    mrpgLane c s l = (s, .ok { regs := regWrites l .v c.e.h.d.toNat 1 0x50000 }) := by
  simp only [mrpgLane, wave?_of_isSome hw, ht]

end

/-- TKWAIT in a wave of which each lane answers: every lane has its answer before what is done is freed, and then completes. -/
theorem tkwait_packet {h : Hdr} {f : EngFn} {x : BitVec 64} {P : Ctx → State → Nat → Prop} {F : Ctx → State → Nat → State × LaneOut}
    (hlane : ∀ c s l, c.e.h = h → P c s l → tkwaitLane c s l = ((F c s l).1, .ok (F c s l).2)) :
    PacketDoes (.tkwait h f x) (fun c s => LanesMeet (whenActing P) (acting F) c s c.on)
      (fun c s =>
        let r := lanesDo (acting F) c s c.on
        let s' := r.1.collectDone c.uid (c.on.map (s.taskId c))
        s'.lanePassed (r.2.foldl (fun s x => s.finishLane c x.1 x.2) s') c) := by
  refine PacketDoes.of (body := tkwaitBody) (post := noPost) rfl (fun _ => rfl) (fun c s hc _ _ hM => ?_)
  have hrun : memWise tkwaitLane c s =
      ((lanesDo (acting F) c s c.on).1, { lanes := (lanesDo (acting F) c s c.on).2.map (fun x => (x.1, .ok x.2)) }) :=
    laneWise_of LaneRes.ok (fun s l _ hP => byLane_ok (fun s hs => hlane c s l (by rw [hc]) hs) hP) hM
  simp only [tkwaitBody, hrun, State.commit_oks]
  rfl

/-- Settles O21: each lane finds its task current, or freed, and takes the branch of the task's state. -/
theorem taskInstructionsComplete : Obligations.TaskInstructionsComplete := by
  intro h f x t gone waits
  refine ⟨?tkdep, ?tksig, ?tkwait, ?tkcmt, ?tkdis, ?mrpg, ?mrpgGone⟩
  case tkdep | tksig => exact DoesMem.of_task (T := t) rfl (fun _ => rfl) (fun _ _ _ ht => ht) (fun _ _ _ _ => rfl)
  case tkwait =>
    refine tkwait_packet (F := waits) ?_
    rintro c s l rfl (ht | ⟨hw, hgone⟩)
    · exact tkwaitLane_names ht
    · exact tkwaitLane_gone hw hgone
  case tkcmt =>
    refine DoesMem.of_task (T := t) rfl (fun _ => rfl) (fun _ _ _ hp => hp.1) ?_
    rintro c s l ⟨-, hspec, hmark, hst⟩
    refine (if_neg (by simp [hspec, hmark])).trans ?_
    cases hs : (t c l).st with
    | done => exact absurd hs hst
    | waiting | ready | running | specDone => rfl
  case tkdis =>
    refine DoesMem.of_task (T := t) rfl (fun _ => rfl) (fun _ _ _ hp => hp.1) ?_
    rintro c s l ⟨-, hst, hrun⟩
    cases hs : (t c l).st with
    | done => exact absurd hs hst
    | running => simp only [hrun hs, Bool.not_true, Bool.false_eq_true, if_false]
    | waiting | ready | specDone => rfl
  case mrpg => exact DoesMem.of_lane rfl (fun _ => rfl) (fun c s l hc _ ht => by rw [mrpgLane_names ht, hc])
  case mrpgGone => exact DoesMem.of_lane rfl (fun _ => rfl) (fun c s l hc _ ⟨hw, hgone⟩ => by rw [mrpgLane_gone hw hgone, hc])

/-! ## Buffers (R264, R278 to R281) -/

section
variable {c : Ctx} {s : State} {l : Nat}

/-- The buffer that CBINI makes in its gang's segment (R278). -/
def ringOf (f : EngFn) (c : Ctx) (s : State) (l : Nat) (w : Wave) : Cbuf :=
  { cl := w.cl, cb := c.e.h.d.toNat, seg3 := bitAt f.sub.toNat 0, core := w.core, ctx := w.ctx,
    ring := (segBaseOf (w.seg (ringSeg f)) + s.srcCount c l .a) % 2 ^ 56, size := s.srcCount c l .b,
    pe := bitAt f.sub.toNat 1, ce := bitAt f.sub.toNat 2, prv := 0, pcm := 0, crv := 0, crl := 0, prvO := 0, pcmO := 0, crvO := 0, crlO := 0,
    pview := [], cview := [] }

/-- A ring that fits, and whose buffer nothing is open on, is made. -/
theorem cbiniLane_makes {f : EngFn} {w : Wave} (hsize : ringSize (s.srcCount c l .b)) (ho : s.srcCount c l .a % 32 = 0)
    (hin : inBounds s w (ringSeg f) (s.srcCount c l .a) (s.srcCount c l .b))
    (hclaims : s.cts.claims.any (fun q => q.cl = w.cl && q.cb = c.e.h.d.toNat) = false)
    (htasks : s.cts.tasks.any (fun t => t.cl = w.cl && t.st ≠ .done && (t.names c.e.h.d.toNat true || t.names c.e.h.d.toNat false)) = false) :
    cbiniLane f c s l w = (s.setCbuf (ringOf f c s l w), .ok {}) := by
  rw [inBounds_iff] at hin
  have hfree := Bool.or_eq_false_iff.mpr ⟨hclaims, htasks⟩
  exact (if_neg ((ringSize_iff _).mp hsize)).trans ((if_neg (not_not.mpr ho)).trans ((if_neg (Bool.eq_false_iff.mp hin)).trans
    (if_neg (Bool.eq_false_iff.mp hfree))))

variable {w : Wave} {q : Cbuf} (hq : s.cbuf? w.cl c.e.h.d.toNat = some q)
include hq

/-- CBPSH and CBPOP on a thread's side advance by a count that there is room or data for; 0 changes nothing (R279). -/
theorem pushPop_moves {prod : Bool} (hside : (if prod then q.pe else q.ce) = false) (hn : s.srcCount c l .b % 32 = 0)
    (hroom : s.srcCount c l .b ≤ if prod then q.room else q.count) :
    pushPop prod c s l w = (if s.srcCount c l .b = 0 then s else s.updCbuf w.cl c.e.h.d.toNat (fun y =>
      ((y.claim prod (s.srcCount c l .b)).advance prod (s.srcCount c l .b)).note prod s.opView), .ok {}) := by
  simp only [pushPop, hq]
  refine (if_neg (by simp [hside, hn, hroom])).trans ?_
  split <;> rfl

/-- CBWT of a count that the buffer can hold goes on where it is met, and else waits (R280). -/
theorem cbwtLane_answers {room : Bool} (hsize : s.srcCount c l .b ≤ q.size) (hn : s.srcCount c l .b % 32 = 0) :
    let answer := if s.srcCount c l .b ≤ (if room then q.room else q.count) then (s.joinLane (s.cbView w.cl c.e.h.d.toNat room) c.uid l, {})
      else (s, ({ st := some (.syncWait (.cbuf c.e.h.d.toNat (s.srcCount c l .b) room) c.next c.e.h.s) } : LaneOut))
    cbwtLane room c s l w = (answer.1, .ok answer.2) := by
  simp only [cbwtLane, hq]
  rw [if_neg (by simp [hsize, hn])]
  by_cases hmet : s.srcCount c l .b ≤ if room then q.room else q.count
  · simp only [if_pos hmet]
  · simp only [if_neg hmet]

end

/-- Settles O22: each lane holds its buffer, passes the checks of its instruction, and takes the branch that follows them. -/
theorem bufferInstructionsComplete : Obligations.BufferInstructionsComplete := by
  intro h f x q
  refine ⟨?cbini, ?cbpsh, ?cbpop, ?cbwt, ?cbqry⟩
  all_goals
    refine DoesMem.of_lane rfl (fun _ => rfl) ?_
    rintro ⟨_, uid, pc, next, all, on⟩ s l rfl -
  case cbini =>
    rintro ⟨hw, hheld, hmul, hmin, hmax, ho, hlimit, hout, hclaims, htasks⟩
    rw [onCbuf_held hw hheld]
    refine cbiniLane_makes ⟨hmul, hmin, hmax⟩ ho ?_ hclaims htasks
    rw [inBounds_iff, Bool.or_eq_false_iff, decide_eq_false_iff_not]
    exact ⟨Nat.not_lt.mpr hlimit, hout⟩
  case cbpsh | cbpop =>
    rintro ⟨⟨hw, hheld, hq⟩, hside, hn, hroom⟩
    rw [onCbuf_held hw hheld]
    exact pushPop_moves hq (by simpa using hside) hn (by simpa using hroom)
  case cbwt =>
    rintro ⟨⟨hw, hheld, hq⟩, hsize, hn⟩
    rw [onCbuf_held hw hheld]
    exact cbwtLane_answers hq hsize hn
  case cbqry =>
    rintro ⟨hw, hheld, hq⟩
    rw [onCbuf_held hw hheld]
    simp only [State.cbWords]
    rw [hq]

end Sys2Proof.Machine
end

section
/-!
PROOF. RCBOP, SPAWN and TLBOP (R286, R417, R431 to R433): what the SVC answers as they issue.
-/

namespace Sys2Proof.Machine

/-! ## RCBOP and TLBOP (R417, R432, R433) -/

section
variable {i : Instr} {h : Hdr} {f : EngFn} {x : BitVec 64}

/-- A form of RCBOP answers the pair that the SVC gives, on which the thread settles. -/
theorem rcbop_answers {g : Ctx → State → Nat → State × Nat × Nat} {F : Ctx → State → State × Nat × Nat} (he : encOf i = some (enc 0xF7 h (engFnBits f) x))
    (hx : ∀ s, exec i s = .next (slotEnd i (runPacket (enc 0xF7 h (engFnBits f) x)
      (uniMem (fun c s l => let r := s.serve (fun s => g c s l)
        (r.1, .ok { sregs := regWrites 0 .s h.d.toNat 1 r.2.1 ++ regWrites 0 .s (h.d.toNat + 1) 1 r.2.2, st := some .settling })))
      (slotStart i (enc 0xF7 h (engFnBits f) x) s))))
    (hg : ∀ c s l, g c s l = F c s) :
    DoesOnceMem i always (fun c s _ =>
      let r := s.serve (F c)
      (r.1, { sregs := regWrites 0 .s h.d.toNat 1 r.2.1 ++ regWrites 0 .s (h.d.toNat + 1) 1 r.2.2, st := some .settling })) noPost :=
  DoesOnceMem.of_uni he hx (fun c s l _ _ _ => by simp only [hg])

/-- What TLBOP of a form answers: 0 for a region that does not exist, and for one that does the removal, its result held until what has used the translations is over
(R432, R433). -/
def tlbopAnswer (sub : Nat) (h : Hdr) (c : Ctx) (s : State) (l : Nat) : State × UniOut :=
  match s.region? (s.srcCount c l .b) with
  | none => (s, { sregs := regWrites 0 .s h.d.toNat 1 0 })
  | some r =>
    let va := s.readRegs c.uid 0 .s h.a.toNat 2 % 2 ^ 56
    let u := ((s.asService (fun t => t.tlbop r sub va (s.srcCount c l .c % 2 ^ 8))).walksAfter).dropPend c.uid c.on [.s h.d.toNat]
    (u.asService (fun u => (u.settleOld r sub va ⟨c.uid, c.on, [(h.d.toNat, 1)], [], [], []⟩).landOwed), {})

/-- The outcome of a form of TLBOP: those that name a share tag refuse 0 (R424, R432). -/
def tlbopLane (sub : Nat) (h : Hdr) (c : Ctx) (s : State) (l : Nat) : State × Except LFault UniOut :=
  if (sub = 2 || sub = 3) && s.srcCount c l .c % 2 ^ 8 = 0 then (s, .error illegal7)
  else ((tlbopAnswer sub h c s l).1, .ok (tlbopAnswer sub h c s l).2)

theorem runTlbop_eq (sub : Nat) : runTlbop sub h f x = runEngU 0xF8 h f x (tlbopLane sub h) := by
  refine congrArg (runEngU 0xF8 h f x) ?_
  funext c s l
  refine ite_congr rfl (fun _ => rfl) (fun _ => ?_)
  unfold tlbopAnswer
  cases s.region? (s.srcCount c l .b) <;> rfl

/-- A form of TLBOP answers where it names no share tag, or one that is not 0. -/
theorem tlbop_answers (sub : Nat) {P : Ctx → State → Nat → Prop} (he : encOf i = some (enc 0xF8 h (engFnBits f) x))
    (hx : ∀ s, exec i s = .next (slotEnd i (runPacket (enc 0xF8 h (engFnBits f) x) (uniMem (tlbopLane sub h)) (slotStart i (enc 0xF8 h (engFnBits f) x) s))))
    (htag : ∀ c s l, P c s l → sub = 2 ∨ sub = 3 → s.srcCount c l .c % 2 ^ 8 ≠ 0) : DoesOnceMem i P (tlbopAnswer sub h) noPost :=
  DoesOnceMem.of_uni he hx (fun c s l _ _ hp => if_neg (by simpa using htag c s l hp))

end

/-! ## The region instructions -/

/-- Settles O34: every form answers at issue, RCBOP and SPAWN what the SVC answers, and TLBOP by the region that B names. -/
theorem regionInstructionsComplete : Obligations.RegionInstructionsComplete := by
  intro h f x form tlbop tag
  refine ⟨?reg, ?ret, ?upd, ?qry, ?adr, ?spawn, ?va, ?all, ?sva, ?sid, ?part⟩
  case reg | upd | qry => exact rcbop_answers rfl (fun _ => rfl) (fun _ _ _ => rfl)
  case ret | adr =>
    refine rcbop_answers rfl (fun _ => rfl) (fun c s l => ?_)
    dsimp only
    cases s.region? (s.oneA c) <;> rfl
  case spawn => exact DoesOnceMem.of_uni rfl (fun _ => rfl) (fun _ _ _ _ _ _ => rfl)
  case va => exact tlbop_answers 0 rfl (congrFun (runTlbop_eq 0)) (fun _ _ _ _ hsub => absurd hsub (by decide))
  case all => exact tlbop_answers 1 rfl (congrFun (runTlbop_eq 1)) (fun _ _ _ _ hsub => absurd hsub (by decide))
  case sva => exact tlbop_answers 2 rfl (congrFun (runTlbop_eq 2)) (fun _ _ _ hp _ => hp)
  case sid => exact tlbop_answers 3 rfl (congrFun (runTlbop_eq 3)) (fun _ _ _ hp _ => hp)
  case part => exact tlbop_answers 4 rfl (congrFun (runTlbop_eq 4)) (fun _ _ _ _ hsub => absurd hsub (by decide))

end Sys2Proof.Machine
end

section
/-!
PROOF. The events of tasks and engines (R260, R267, R268, R272, R313, R440): the branch of its definition that each event takes under its conditions.
-/

namespace Sys2Proof.Machine

/-! ## Firing, work and completion (R260, R267, R268) -/

theorem State.acts_iff (s : State) (t : Task) : s.acts t = true ↔
    t.st = .running ∧ t.fin = none ∧ t.fault = none ∧ t.rmt = none ∧ (t.susp = false ∨ engineOf t.kind = 1 ∧ s.engineFree t.cl 1 t.unit = true) := by
  simp [State.acts, and_assoc]

section
variable {s : State} {cl slot : Nat} {t : Task} (ht : s.task? cl slot = some t)
include ht

/-- A task that can fire takes an engine that is open to it, with its claims granted (R267). -/
theorem taskFire_fires {unit : Nat} (hfire : s.canFire t = true) (hunit : (s.unitsFor t).contains unit = true) :
    let g := s.grantAll t
    let u := g.1.updTask cl slot (fun q =>
      { q with view := joinIds q.view (s.firedBy t), st := .running, unit := unit, iOff := g.2.1, oOff := g.2.2, since := s.clk })
    exec (.taskFire cl slot unit) s = .next (((t.ins ++ [t.out]).filterMap id).foldl (fun v p => v.evalCbuf cl p.1)
      (if engineOf t.kind = 1 then { u with asu := { u.asu with run := Sparse.put 0 u.asu.run (4 * cl + unit) 0 } } else u)) := by
  have hexec : exec (.taskFire cl slot unit) s = execTaskFire cl slot unit s := rfl
  simp only [hexec, execTaskFire, ht, hfire, hunit, Bool.and_self, if_true]

/-- A running task whose work is over completes, in the order of R260. -/
theorem taskComplete_completes {st : Nat} (hfin : t.fin = some st) (hrun : t.st = .running) (hrmt : t.rmt = none) (hbusy : st ≠ 0 ∨ s.xferBusy t = false)
    (hlast : (Sparse.get (0, 0) s.cts.doneAt cl).1 = s.clk → (Sparse.get (0, 0) s.cts.doneAt cl).2 ≤ slot) :
    exec (.taskComplete cl slot) s =
      .next ((s.updCts (fun c => { c with doneAt := Sparse.put (0, 0) c.doneAt cl (s.clk, slot) })).completeTask t st) := by
  have hexec : exec (.taskComplete cl slot) s = execTaskComplete cl slot s := rfl
  simp only [hexec, execTaskComplete, ht, hfin]
  exact congrArg Host.Outcome.next (if_pos (by simpa [hrun, hrmt, hbusy, imp_iff_not_or] using hlast))

theorem engStep_acts {ks : List Nat} {f : State → Task → EAcc} (hkind : ks.contains t.kind = true) (hacts : s.acts t = true) :
    engStep ks f cl slot s = .next (f (s.asTask t) { t with susp := false }).commit := by
  simp only [engStep, ht, hkind, hacts, Bool.and_self, if_true]

theorem crossStep_acts {k : Nat} (hkind : t.kind = k) (hacts : s.acts t = true) :
    let a := crossWork (s.asTask t) t
    crossStep k cl slot s = .next (if a.2.1.rmt.isSome then a.1.putTask a.2.1 else a.commit) := by
  simp only [crossStep, ht, hkind, hacts, decide_true, Bool.and_self, if_true]

/-! ## Suspension (R313, R440) -/

/-- A task that has met a fault suspends, unless its MXE holds a suspended operation (R313, R440). -/
theorem engineSuspend_task {f : Nat × Nat} (hfault : t.fault = some f) (hcode : f.1 < fcMiss) (hsusp : t.susp = false)
    (hmxe : ekindOf t.kind = 2 → s.mxeHolds cl t.unit = false) :
    exec (.engineSuspend (ekindOf t.kind) cl slot) s = .next ((s.updTask cl slot (fun q => { q with susp := true })).addRec
      (engRec t.rid (ekindOf t.kind) cl (if ekindOf t.kind ≤ 2 then t.unit else 0) t.id slot f)) := by
  have hexec : exec (.engineSuspend (ekindOf t.kind) cl slot) s = .next (s.suspend (ekindOf t.kind) cl slot) := rfl
  have hmet : t.fault.filter suspends = some f := by simp [hfault, suspends, hcode, Option.filter]
  have hkind : ekindOf t.kind = 1 ∨ ekindOf t.kind = 2 ∨ ekindOf t.kind = 3 ∨ ekindOf t.kind = 7 := by unfold ekindOf; split <;> simp
  rw [hexec]
  refine congrArg Host.Outcome.next ?_
  generalize hk : ekindOf t.kind = k at *
  unfold State.suspend
  split
  case h_4 =>
    simp only [ht, hmet]
    exact if_neg (by simpa [hsusp, hk] using hmxe)
  all_goals simp at hkind

end

/-- A ray that has met a fault suspends (R440). -/
theorem engineSuspend_ray {s : State} {cl slot : Nat} {r : Ray} {f : Nat × Nat}
    (hr : s.rtu.rays.find? (fun r => r.cl = cl && r.id = slot && !r.susp) = some r) (hfault : r.fault = some f) (hcode : f.1 < fcMiss) :
    exec (.engineSuspend 4 cl slot) s = .next (({ s with rtu := { s.rtu with rays := s.rtu.rays.map (fun (x : Ray) =>
      if x.id = slot then { x with susp := true } else x) } } : State).addRec (engRec r.rid 4 cl 0 r.r slot f)) := by
  have hexec : exec (.engineSuspend 4 cl slot) s = .next (s.suspend 4 cl slot) := rfl
  have hmet : r.fault.filter suspends = some f := by simp [hfault, suspends, hcode, Option.filter]
  simp only [hexec, State.suspend, hr, hmet]

/-! ## The events -/

/-- Settles O43: each event under its conditions is one branch of its definition; the eleven kinds of work share `engStep` or `crossStep`. -/
theorem taskEventsComplete : Obligations.TaskEventsComplete := by
  intro s cl slot t ht runs local' cross
  have hlocal : ∀ (i : Instr) (k : Nat) (f : State → Task → EAcc), exec i s = engStep [k] f cl slot s → local' i k f :=
    fun i k f hexec hruns hkind => hexec.trans (engStep_acts ht (by simp [hkind]) ((s.acts_iff t).mpr hruns))
  have hcross : ∀ (i : Instr) (k : Nat), exec i s = crossStep k cl slot s → cross i k :=
    fun i k hexec hruns hkind => hexec.trans (crossStep_acts ht hkind ((s.acts_iff t).mpr hruns))
  exact ⟨fun _ => taskFire_fires ht, fun _ => taskComplete_completes ht,
    hlocal _ _ _ rfl, hlocal _ _ _ rfl, hlocal _ _ _ rfl, hlocal _ _ _ rfl, hlocal _ _ _ rfl, hlocal _ _ _ rfl, hlocal _ _ _ rfl, hlocal _ _ _ rfl,
    hcross _ _ rfl, hcross _ _ rfl, hcross _ _ rfl, fun _ => engineSuspend_task ht, fun _ _ => engineSuspend_ray⟩

end Sys2Proof.Machine
end

section
/-!
PROOF. The direct forms of the tensor and gather groups (R315, R340): a record that passes its checks is posted in the free slot, once what its form reads has been read.
-/

namespace Sys2Proof.Machine

section
variable {c : Ctx} {s : State} {l : Nat}

/-- A record that passes its checks is posted in the free slot, or not at all where there is none. -/
theorem postDirect_posts {w : Wave} {tok lrec : Option Nat} {r : Nat} {bad : State → Task → Bool} (hw : waveOf c s = w)
    (hok : postsDirect tok r lrec bad c s l) :
    postDirect c l w tok r lrec bad s = ((posted tok r lrec c s l).1, .ok (posted tok r lrec c s l).2) := by
  subst hw
  obtain ⟨hheld, hrecord, hbad⟩ := hok
  have hforeign : ((recIns r ++ [recOut r]).filterMap id).filter (fun p => !s.holds (waveOf c s).gid p.1) = [] :=
    List.filter_eq_nil_iff.mpr (fun p hp => by simp [hheld p hp])
  simp only [postDirect, hforeign, List.head?_nil, hrecord, hbad, Bool.or_self, Bool.false_eq_true, if_false, posted]
  cases s.freeSlot (waveOf c s).cl <;> rfl

/-- A post that reads `n` bytes without a fault posts its record, in the state in which they have been read, for the wave that the read leaves as it was. -/
theorem readAtPost_posts {va n v : Nat} {tok : Option Nat} {record : State → Nat → Nat} {lrec : Nat → Option Nat} {bad : State → Nat → State → Task → Bool}
    (hread : s.readVa (waveOf c s).rid va n = .ok v) :
    let t := s.noteVa (waveOf c s).rid va n
    postsDirect tok (record t v) (lrec v) (bad t v) c t l →
      readAtPost va n (waveOf c s) s (fun t v => postDirect c l (waveOf c s) tok (record t v) (lrec v) (bad t v) t) =
        ((posted tok (record t v) (lrec v) c t l).1, .ok (posted tok (record t v) (lrec v) c t l).2) := by
  intro t hok
  simp only [readAtPost, State.readNoted, hread]
  exact postDirect_posts (waveOf_of_keepsRead (s.keepsRead_noteVa _ _ _) c) hok

/-! ## TCPY and TCPYW, MMA and MMAS (R315) -/

/-- The pair of scalar registers that stands `i` past the one that A names. -/
def scalarPair (c : Ctx) (s : State) (l i : Nat) : Nat := s.readRegs c.uid l .s (c.e.h.a.toNat + i) 2

variable (hw : (s.wave? c.uid).isSome) (htok : s.tokBusy c.uid l (tokField c.e.h.d.toNat) = false)
include hw htok

/-- The layout of a copy is read where its addresses, and for a TCPY its fill, are in range. -/
theorem tcpyLane_reads {isOut : Bool} (halign : scalarPair c s l 0 % 64 = 0) (hlayout : scalarPair c s l 0 < 2 ^ 56) (hcrec : scalarPair c s l 8 < 2 ^ 56)
    (hfill : isOut = false → s.readRegs c.uid l .s (c.e.h.a.toNat + 7) 1 < 256) :
    tcpyLane isOut c s l = readAtPost (scalarPair c s l 0) 64 (waveOf c s) s (fun t v => postDirect c l (waveOf c s) (tokField c.e.h.d.toNat)
      (t.tcpyRecord isOut c l v) (some v) (tcpyBad isOut c.e.x.toNat (t.tcpyRecord isOut c l v) v) t) := by
  simp only [tcpyLane, wave?_of_isSome hw, htok, Bool.false_eq_true, if_false]
  exact if_neg (by simpa using ⟨⟨⟨halign, hlayout⟩, hcrec⟩, hfill⟩)

/-- The block of a matrix product is read where its address is aligned and in range. -/
theorem mmaLane_reads {kind : Nat} (halign : scalarPair c s l 0 % 8 = 0) (hrange : scalarPair c s l 0 < 2 ^ 56) :
    mmaLane kind c s l = readAtPost (scalarPair c s l 0) 40 (waveOf c s) s (fun t v => postDirect c l (waveOf c s) (tokField c.e.h.d.toNat)
      (mmaRecord kind c.e.x.toNat v) none (fun _ q => mmBad q (mmaRecord kind c.e.x.toNat v)) t) := by
  simp only [mmaLane, wave?_of_isSome hw, htok, Bool.false_eq_true, if_false]
  exact if_neg (by simpa using ⟨halign, hrange⟩)

/-! ## GSX, SSX and SSXA (R340) -/

/-- The command block of a gather is read where its options and its address are those of its form. -/
theorem gsLane_reads {kind : Nat} (hform : gsFormBad kind c.e.x.toNat (scalarPair c s l 0) = false) :
    gsLane kind c s l = readAtPost (scalarPair c s l 0) 64 (waveOf c s) s (fun t v => postDirect c l (waveOf c s) (tokField c.e.h.d.toNat)
      (gsRecord kind c.e.x.toNat (scalarPair c s l 0) v) (some v)
      (fun u q => u.gsBlockBad q.rid kind v || gsRecordBad q (gsRecord kind c.e.x.toNat (scalarPair c s l 0) v) v) t) := by
  simp only [gsLane, wave?_of_isSome hw, htok, Bool.false_or]
  exact if_neg (Bool.eq_false_iff.mp hform)

end

/-! ## The direct forms -/

/-- Settles O24: each form passes its own checks, reads its layout, block or command, and posts the record that the fields give. -/
theorem directFormsComplete : Obligations.DirectFormsComplete := by
  intro h f x r tok pair noted from' post ready copyRec copy tileRec tile gsRec gather gathers
  have hcopy (isOut : Bool) (c : Ctx) (s : State) (l : Nat) (hh : c.e.h = h) (hx : c.e.x = x) (hp : copy isOut c s l) :
      tcpyLane isOut c s l = ((post 64 (copyRec isOut) (some (r c l)) c s l).1, .ok (post 64 (copyRec isOut) (some (r c l)) c s l).2) := by
    subst hh hx
    obtain ⟨halign, hlayout, hcrec, hfill, ⟨hw, htok, hread⟩, hok⟩ := hp
    rw [tcpyLane_reads hw htok halign hlayout hcrec hfill]
    exact readAtPost_posts hread hok
  have htile (kind : Nat) (c : Ctx) (s : State) (l : Nat) (hh : c.e.h = h) (hx : c.e.x = x) (hp : tile kind c s l) :
      mmaLane kind c s l = ((post 40 (tileRec kind) none c s l).1, .ok (post 40 (tileRec kind) none c s l).2) := by
    subst hh hx
    obtain ⟨halign, hrange, ⟨hw, htok, hread⟩, hok⟩ := hp
    rw [mmaLane_reads hw htok halign hrange]
    exact readAtPost_posts (lrec := fun _ => none) hread hok
  have hgather (kind : Nat) (c : Ctx) (s : State) (l : Nat) (hh : c.e.h = h) (hx : c.e.x = x) (hp : gather kind c s l) :
      gsLane kind c s l = ((gathers kind c s l).1, .ok (gathers kind c s l).2) := by
    subst hh hx
    obtain ⟨hform, ⟨hw, htok, hread⟩, hok⟩ := hp
    rw [gsLane_reads hw htok hform]
    exact readAtPost_posts hread hok
  refine ⟨?tcpy, ?tcpyw, ?mma, ?mmas, ?gsx, ?ssx, ?ssxa⟩
  case tcpy | tcpyw => exact DoesMem.of_lane rfl (fun _ => rfl) (fun c s l hc _ => hcopy _ c s l (by rw [hc]) (by rw [hc]))
  case mma | mmas => exact DoesMem.of_lane rfl (fun _ => rfl) (fun c s l hc _ => htile _ c s l (by rw [hc]) (by rw [hc]))
  case gsx | ssx | ssxa => exact DoesMem.of_lane rfl (fun _ => rfl) (fun c s l hc _ => hgather _ c s l (by rw [hc]) (by rw [hc]))

end Sys2Proof.Machine
end

section
/-!
PROOF. The stream instructions and ISECT (R324 to R332): what each does at issue, where no operation before it holds its register.
-/

namespace Sys2Proof.Machine

/-- A stream instruction under feature bit 1 does to the packet what its body answers for the wave. -/
theorem DoesAll.of_stream {i : Instr} {op : BitVec 8} {h : Hdr} {f : EngFn} {x : BitVec 64} {P : Ctx → State → Prop}
    {F : Ctx → State → State × WaveOut} {g : Ctx → State → Wave → State × WaveOut} (he : encOf i = some (enc op h (engFnBits f) x))
    (hx : ∀ s, exec i s = runStream op h f x g s) (hstart : ∀ s, slotStart i (enc op h (engFnBits f) x) s = s) (hend : ∀ s, slotEnd i s = s)
    (hgrant : ∀ c s, P c s → s.granted 1 = true) (hg : ∀ c s, c.e.h = h → P c s → g c s (waveOf c s) = F c s) : DoesAll i P F :=
  DoesAll.of_packet he (fun s => by rw [hstart, hend, hx]; rfl)
    (fun c s hc hw hp => by simp only [wave?_of_isSome hw, hgrant c s hp, if_true, hg c s (congrArg Enc.h hc) hp])

/-! ## Operations on a register that is free (R324) -/

/-- The operation other than STNXT that the wave's participants ask for, as it arrives. -/
def Ctx.streamOp (c : Ctx) (s : State) (op a b : Nat) : StreamOp :=
  ⟨c.uid, c.on, c.pc, c.next, c.e.h, op, 0, 0, a, b, s.stepOf (s.ridOf c.uid), []⟩

/-- Every participant completes, and the scalars `ws` are written once. -/
def Ctx.allDone (c : Ctx) (ws : List (RegRef × Word)) : WaveOut := { lanes := allLanesRes c (.ok {}), sregs := ws }

/-- An operation whose registers no earlier one names is performed at once. -/
theorem strmOp_performs {op a b : Nat} {c : Ctx} {s t : State} {rs : List Nat} {ws : List (RegRef × Word)} (hregs : (c.streamOp s op a b).regs = rs)
    (hfree : s.strmBusy c.uid rs s.streams.length = false) (hdo : s.strmPerform (c.streamOp s op a b) = (t, .ok ws)) :
    strmOp op a b c s = (t, c.allDone ws) := by
  subst hregs
  simp only [Ctx.streamOp] at hfree hdo
  simp only [strmOp, hfree, hdo, Bool.false_eq_true, if_false, Ctx.allDone]

section
variable {s : State} {q : StreamOp}

/-- STSKP of an open stream, ordered and unique once its descriptor is read, raises its skip bound (R327). -/
theorem State.strmPerform_stskp (hop : q.op = 0xC2) (hopen : (s.strm q.uid q.h.a.toNat).st ≠ 0)
    (hsorted : 2 ≤ (s.strm q.uid q.h.a.toNat).st → (s.strm q.uid q.h.a.toNat).ord = true ∧ (s.strm q.uid q.h.a.toNat).unq = true) :
    s.strmPerform q = (s.setStrm q.uid q.h.a.toNat { s.strm q.uid q.h.a.toNat with
      skip := if (s.strm q.uid q.h.a.toNat).skv then max (s.strm q.uid q.h.a.toNat).skip q.b else q.b, skv := true }.bits, .ok []) := by
  simp only [State.strmPerform, hop, if_neg hopen]
  exact if_neg (by simpa using hsorted)

/-- STRST of a valid image writes it: its reserved bits are 0, a closed stream has no field but ERR, and one whose descriptor has been read has a valid index width,
a cursor not past its end, and, if dense or a bitmap, ordered and unique elements (R318, R331). -/
theorem State.strmPerform_strst (hop : q.op = 0xC4) (hlow : bitsAt q.a 434 14 = 0) (hhigh : bitsAt q.a 506 6 = 0)
    (hclosed : (Strm.of q.a).st = 0 → { Strm.of q.a with err := 0 }.bits = 0)
    (hread : 2 ≤ (Strm.of q.a).st → (Strm.of q.a).iw ≠ 3 ∧ (Strm.of q.a).cur ≤ (Strm.of q.a).fin ∧
      ((Strm.of q.a).ty = 0 ∨ (Strm.of q.a).ty = 2 → (Strm.of q.a).ord = true ∧ (Strm.of q.a).unq = true)) :
    s.strmPerform q = (s.setStrm q.uid q.h.d.toNat q.a, .ok []) := by
  simp only [State.strmPerform, hop]
  refine if_neg ?_
  simpa [hlow, hhigh, and_assoc] using And.intro hclosed hread

end

/-! ## The stream instructions -/

/-- Settles O25: an operation on a free register is performed as its row says; STNXT joins the arrival order, and ISECT delivers its pairs. -/
theorem streamInstructionsComplete : Obligations.StreamInstructionsComplete := by
  intro h f x open' done desc img st
  refine ⟨?stopn, ?stskp, ?stsav, ?strst, ?stcls, ?stnxt, ?isect⟩
  case stopn =>
    refine DoesAll.of_stream rfl (fun _ => rfl) (fun _ => rfl) (fun _ => rfl) (fun _ _ hp => hp.1.1) ?_
    rintro c s rfl ⟨⟨-, hfree⟩, halign⟩
    exact (if_neg (not_not.mpr halign)).trans (strmOp_performs rfl hfree rfl)
  case stskp =>
    refine DoesAll.of_stream rfl (fun _ => rfl) (fun _ => rfl) (fun _ => rfl) (fun _ _ hp => hp.1.1) ?_
    rintro c s rfl ⟨⟨-, hfree⟩, hopen, hsorted⟩
    exact strmOp_performs rfl hfree (State.strmPerform_stskp rfl hopen hsorted)
  case stsav =>
    refine DoesAll.of_stream rfl (fun _ => rfl) (fun _ => rfl) (fun _ => rfl) (fun _ _ hp => hp.1) ?_
    rintro c s rfl ⟨-, hfree⟩
    exact strmOp_performs rfl hfree rfl
  case strst =>
    refine DoesAll.of_stream rfl (fun _ => rfl) (fun _ => rfl) (fun _ => rfl) (fun _ _ hp => hp.1.1) ?_
    rintro c s rfl ⟨⟨-, hfree⟩, hlow, hhigh, hclosed, hread⟩
    exact strmOp_performs rfl hfree (State.strmPerform_strst rfl hlow hhigh hclosed hread)
  case stcls =>
    refine DoesAll.of_stream rfl (fun _ => rfl) (fun _ => rfl) (fun _ => rfl) (fun _ _ hp => hp.1) ?_
    rintro c s rfl ⟨-, hfree⟩
    exact strmOp_performs rfl hfree rfl
  case stnxt =>
    refine DoesAll.of_stream rfl (fun _ => rfl) (fun _ => rfl) (fun _ => rfl) (fun _ _ hp => hp.1) ?_
    rintro c s - ⟨-, htok⟩
    exact if_neg (by simpa using htok)
  case isect =>
    refine DoesAll.of_stream rfl (fun _ => rfl) (fun _ => rfl) (fun _ => rfl) (fun _ _ hp => hp.1) ?_
    rintro c s - ⟨-, ha, hb, hon⟩
    exact if_neg (by simpa [ha, hb] using hon)

end Sys2Proof.Machine
end

section
/-!
PROOF. Lists of updates, the order of memory, threads and waves, waits, and the instructions of the memory group keep the canonical form of the byte
memories. Only `State.writeLoc` and `State.setPad` change them, and both put a byte; every other function passes on what its calls keep.
-/

namespace Sys2Proof.Machine

/-! ## Lists of updates -/

theorem State.memOk_foldl {α : Type} {f : State → α → State} (hf : ∀ s a, s.memOk = true → (f s a).memOk = true) (l : List α) {s : State}
    (h : s.memOk = true) :
    (l.foldl f s).memOk = true := by
  induction l generalizing s with
  | nil => exact h
  | cons a l ih => exact ih (hf s a h)

theorem State.memOk_foldl_fst {α β : Type} {f : State × β → α → State × β} (hf : ∀ r a, r.1.memOk = true → (f r a).1.memOk = true) (l : List α)
    {r : State × β} (h : r.1.memOk = true) :
    (l.foldl f r).1.memOk = true := by
  induction l generalizing r with
  | nil => exact h
  | cons a l ih => exact ih (hf r a h)

/-! ## The order of memory -/

theorem State.memOk_addSo {s : State} (h : s.memOk = true) (p : Nat) (x : SoNode) : (s.addSo p x).memOk = true := h

theorem State.memOk_updAgent {s : State} (h : s.memOk = true) (f : Agent → Agent) : (s.updAgent f).memOk = true := h

theorem State.memOk_updReader {s : State} (h : s.memOk = true) (f : Place → View → View) : (s.updReader f).memOk = true := by
  unfold State.updReader
  simp only [State.memOk_updAgent, h]

theorem State.memOk_holdSector {s : State} (h : s.memOk = true) (sp : Spot) : (s.holdSector sp).memOk = true := by
  unfold State.holdSector
  (repeat' split) <;> exact h

theorem State.memOk_noteSpot {s : State} (h : s.memOk = true) {upd : State → (Place → View → View) → State}
    (hu : ∀ s f, s.memOk = true → (upd s f).memOk = true) (ls : List Loc) (acq : Option Nat) (i : Nat) (sp : Spot) :
    (s.noteSpot upd ls acq i sp).memOk = true := by
  grind [State.noteSpot, State.memOk_addSo, State.memOk_holdSector, State.memOk]

theorem State.memOk_readBy {s : State} (h : s.memOk = true) {upd : State → (Place → View → View) → State}
    (hu : ∀ s f, s.memOk = true → (upd s f).memOk = true) (ls : List Loc) (acq : Option Nat) :
    (s.readBy upd ls acq).1.memOk = true := by
  unfold State.readBy
  split
  · exact State.memOk_foldl (fun s x hs => State.memOk_noteSpot hs hu ls acq x.1 x.2) _ h
  · exact State.memOk_foldl_fst (fun r p hr => State.memOk_foldl (fun s x hs => State.memOk_noteSpot hs hu _ acq 0 x) _ hr) _ h

theorem State.memOk_noteUe {s : State} (h : s.memOk = true) (l : Loc) (consumed : Bool) : (s.noteUe l consumed).memOk = true := by
  unfold State.noteUe
  (repeat' split) <;> exact h

theorem State.memOk_putMasked {s : State} (h : s.memOk = true) (w : Who) (va : Nat) (l : Loc) (b m : Byte) (pad : Bool) :
    (s.putMasked w va l b m pad).memOk = true := h

theorem State.memOk_gather {s : State} (h : s.memOk = true) (ls : List (Nat × Loc)) (bs : List Byte) (pad : Bool) :
    (s.gather ls bs pad).memOk = true := by
  grind [State.gather, State.memOk_putMasked, State.memOk_store, State.memOk_foldl, State.memOk_foldl_fst]

theorem State.memOk_setPad {s : State} (h : s.memOk = true) (l : Loc) (v : Bool) : (s.setPad l v).memOk = true := by
  simp only [State.memOk, Bool.and_eq_true] at h ⊢
  unfold State.setPad
  split
  · exact ⟨h.1, Sparse.wf_put h.2 _ _⟩
  · exact h

theorem State.memOk_flush {s : State} (h : s.memOk = true) : (s.flush).memOk = true := by
  grind [State.flush, State.memOk_store, State.memOk_setPad, State.memOk_foldl, State.memOk_foldl_fst, State.memOk]

theorem State.memOk_dropAsks {s : State} (h : s.memOk = true) (who : Who) : (s.dropAsks who).memOk = true := h

theorem State.memOk_endReads {s : State} (h : s.memOk = true) (who : Who) : (s.endReads who).memOk = true := by
  grind [State.endReads, State.memOk_dropAsks, State.memOk]

theorem State.memOk_reveal {s : State} (h : s.memOk = true) (done : WEv → Bool) : (s.reveal done).memOk = true := h

theorem State.memOk_age {s : State} (h : s.memOk = true) : (s.age).memOk = true := by
  grind [State.age, State.memOk_reveal, State.memOk]

/-! ## Updates of threads, waves and regions -/

theorem State.memOk_updWave {s : State} (h : s.memOk = true) (uid : Nat) (f : Wave → Wave) : (s.updWave uid f).memOk = true := h

theorem State.memOk_updThread {s : State} (h : s.memOk = true) (uid lane : Nat) (f : Thread → Thread) : (s.updThread uid lane f).memOk = true := by
  unfold State.updThread
  simp only [State.memOk_updWave, h]

theorem State.memOk_addPend {s : State} (h : s.memOk = true) (p : Pend) : (s.addPend p).memOk = true := by
  unfold State.addPend
  (repeat' split) <;> exact h

theorem State.memOk_landOwed {s : State} (h : s.memOk = true) : (s.landOwed).memOk = true := by
  grind [State.landOwed, State.memOk_addPend, State.memOk_foldl, State.memOk_foldl_fst, State.memOk]

theorem State.memOk_dropPend {s : State} (h : s.memOk = true) (uid : Nat) (owners : List Nat) (rs : List RegRef) :
    (s.dropPend uid owners rs).memOk = true := h

theorem State.memOk_resume {s : State} (h : s.memOk = true) (uid lane : Nat) (pc : VA) (settle : Bool) :
    (s.resume uid lane pc settle).memOk = true := by
  unfold State.resume
  simp only [State.memOk_updThread, h]

theorem State.memOk_orFlags {s : State} (h : s.memOk = true) (uid lane : Nat) (f : Flags) : (s.orFlags uid lane f).memOk = true := by
  unfold State.orFlags
  simp only [State.memOk_updThread, h]

theorem State.memOk_land {s : State} (h : s.memOk = true) (k : Nat) : (s.land k).memOk = true := by
  unfold State.land
  split
  · exact h
  · rename_i p rest _
    refine State.memOk_foldl (fun s l hs => ?_) _ ?_
    · split
      · exact State.memOk_updThread hs _ _ _
      · exact hs
    · split
      · exact State.memOk_foldl (fun s l hs => State.memOk_updThread hs _ _ _) _ h
      · refine State.memOk_foldl (fun s f hs => ?_) _ (State.memOk_foldl (fun s f hs => State.memOk_orFlags hs _ _ _) _ (State.memOk_updWave (s := {
        s with pend := rest }) h _ _))
        split
        · exact State.memOk_orFlags hs _ _ _
        · exact State.memOk_foldl (fun s l hs => State.memOk_orFlags hs _ _ _) _ hs

theorem State.memOk_updRegion {s : State} (h : s.memOk = true) (rid : Nat) (f : Region → Region) : (s.updRegion rid f).memOk = true := h

theorem State.memOk_fillTlb {s : State} (h : s.memOk = true) (e : TlbEntry) : (s.fillTlb e).memOk = true := by
  unfold State.fillTlb
  (repeat' split) <;> exact h

theorem State.memOk_fillTop {s : State} (h : s.memOk = true) (e : TopEntry) : (s.fillTop e).memOk = true := h

theorem State.memOk_fillCore {s : State} (h : s.memOk = true) (rid : Nat) (vas : List Nat) : (s.fillCore rid vas).memOk = true := by
  unfold State.fillCore
  split
  · split
    · refine State.memOk_foldl (fun s va hs => ?_) _ h
      grind [State.memOk_fillTlb]
    · exact h
  · exact h

theorem State.memOk_take {s : State} (h : s.memOk = true) (ls : List (Nat × Loc)) (acq : Option Nat) {r : State × List Byte}
    (e : s.take ls acq = .ok r) :
    r.1.memOk = true := by
  unfold State.take at e
  split at e
  · cases e
  · cases e; exact State.memOk_readBy h (fun s f hs => State.memOk_updReader hs f) _ _

theorem State.memOk_send {s : State} (h : s.memOk = true) (m : OutMsg) : (s.send m).memOk = true := h

theorem State.memOk_sendPeers {s : State} (h : s.memOk = true) (r : Region) (m : Nat → OutMsg) : (s.sendPeers r m).memOk = true := by
  grind [State.sendPeers, State.memOk_send, State.memOk_foldl, State.memOk_foldl_fst]

theorem State.memOk_asLane {s : State} (h : s.memOk = true) (uid lane : Nat) : (s.asLane uid lane).memOk = true := by
  unfold State.asLane
  (repeat' split) <;> exact h

theorem State.memOk_laneDone {s : State} (h : s.memOk = true) (uid lane : Nat) : (s.laneDone uid lane).memOk = true := by
  grind [State.laneDone, State.memOk_updThread, State.memOk]

theorem State.memOk_asOp {s : State} (h : s.memOk = true) (who : Who) (tlb : TlbAt) (view : List Nat) : (s.asOp who tlb view).memOk = true := h

theorem State.memOk_opDone {s : State} (h : s.memOk = true) : (s.opDone).memOk = true := h

theorem State.memOk_joinLane {s : State} (h : s.memOk = true) (l : List Nat) (uid lane : Nat) : (s.joinLane l uid lane).memOk = true := by
  unfold State.joinLane
  simp only [State.memOk_updThread, h]

theorem State.memOk_acquireLane {s : State} (h : s.memOk = true) (l : List Nat) (uid lane : Nat) : (s.acquireLane l uid lane).memOk = true := by
  unfold State.acquireLane
  simp only [State.memOk_updThread, h]

theorem State.memOk_noteEnd {s : State} (h : s.memOk = true) (rid uid : Nat) : (s.noteEnd rid uid).memOk = true := by
  grind [State.noteEnd, State.memOk_updRegion, State.memOk]

theorem State.memOk_enterMiss {s : State} (h : s.memOk = true) (tag : Tag) (q : WalkReq) : (s.enterMiss tag q).memOk = true := by
  unfold State.enterMiss
  (repeat' split) <;> exact h

theorem State.memOk_addMiss {s : State} (h : s.memOk = true) (q : WalkReq) : (s.addMiss q).memOk = true := by
  unfold State.addMiss
  (repeat' split) <;> simp only [State.memOk_enterMiss, h]

theorem State.memOk_admitMisses {s : State} (h : s.memOk = true) : (s.admitMisses).memOk = true := by
  grind [State.admitMisses, State.memOk_addMiss, State.memOk_foldl, State.memOk_foldl_fst, State.memOk]

theorem State.memOk_sendRop {s : State} (h : s.memOk = true) (r : RemOp) (m : Nat → OutMsg) : (s.sendRop r m).memOk = true := by
  grind [State.sendRop, State.memOk_send, State.memOk]

theorem State.memOk_dropWrites {s : State} (h : s.memOk = true) (who : Who) : (s.dropWrites who).memOk = true := h

theorem State.memOk_dropReads {s : State} (h : s.memOk = true) (who : Who) : (s.dropReads who).memOk = true := h

theorem State.memOk_dropFailed {s : State} (h : s.memOk = true) (who : Who) : (s.dropFailed who).memOk = true := h

theorem State.memOk_dropRops {s : State} (h : s.memOk = true) (who : Who) : (s.dropRops who).memOk = true := h

theorem State.memOk_hold {s : State} (h : s.memOk = true) (rid : Nat) (f : LFault) (site : VA) (lanes : List Nat) :
    (s.hold rid f site lanes).memOk = true := by
  grind [State.hold, State.memOk_addMiss, State.memOk_sendRop, State.memOk_foldl, State.memOk_foldl_fst]

theorem State.memOk_awaitMsg {s : State} (h : s.memOk = true) (rid peer pva va n : Nat) (k : PageKind) (m : Nat → OutMsg) :
    (s.awaitMsg rid peer pva va n k m).1.memOk = true := by
  unfold State.awaitMsg
  (repeat' split) <;> simp only [State.memOk_sendRop, State.memOk_updReader, h]

theorem State.memOk_await {s : State} (h : s.memOk = true) (rid peer pva va n : Nat) (k : PageKind) (ops : List SecOp) :
    (s.await rid peer pva va n k ops).1.memOk = true := by
  unfold State.await
  simp only [State.memOk_awaitMsg, h]

theorem State.memOk_awaitAll {s : State} (h : s.memOk = true) (rid : Nat) (ps : List (Nat × Nat × Nat × PageKind × List Byte)) (n : List Byte → Nat)
    (ops : Nat → PageKind → List Byte → List SecOp) :
    (s.awaitAll rid ps n ops).1.memOk = true := by
  grind [State.awaitAll, State.memOk_await, State.memOk_foldl, State.memOk_foldl_fst]

theorem State.memOk_writeAll {s : State} (h : s.memOk = true) (rid : Nat) (ls : List (Nat × Loc)) (bs : List Byte) :
    (s.writeAll rid ls bs).1.memOk = true := by
  grind [State.writeAll, State.memOk_dropWrites, State.memOk_awaitAll, State.memOk_store]

theorem State.memOk_flushAll {s : State} (h : s.memOk = true) (rid : Nat) : (s.flushAll rid).1.memOk = true := by
  grind [State.flushAll, State.memOk_flush, State.memOk_await, State.memOk_dropWrites, State.memOk_dropFailed, State.memOk_foldl,
    State.memOk_foldl_fst, State.memOk]

theorem State.memOk_flushEnd {s : State} (h : s.memOk = true) (rid : Nat) : (s.flushEnd rid).memOk = true := by
  grind [State.flushEnd, State.memOk_flush, State.memOk_send, State.memOk_foldl, State.memOk_foldl_fst, State.memOk]

theorem State.memOk_post {s : State} (h : s.memOk = true) (rid va : Nat) (ls : List Loc) (bs : List Byte) : (s.post rid va ls bs).memOk = true := by
  grind [State.post, State.memOk_send, State.memOk_store, State.memOk_foldl, State.memOk_foldl_fst, State.memOk]

theorem State.memOk_noteIdle {s : State} (h : s.memOk = true) (p : Wave → Bool) (ev : Nat) : (s.noteIdle p ev).memOk = true := h

theorem State.memOk_serve {α : Type} {s : State} (h : s.memOk = true) {f : State → State × α} (hf : ∀ s, s.memOk = true → (f s).1.memOk = true) :
    (s.serve f).1.memOk = true :=
  hf { s with ord := { s.ord with agent := none } } h

theorem State.memOk_asService {s : State} (h : s.memOk = true) {f : State → State} (hf : ∀ s, s.memOk = true → (f s).memOk = true) :
    (s.asService f).memOk = true :=
  State.memOk_serve h hf

theorem State.memOk_writeRec {s : State} (h : s.memOk = true) (rid : Nat) : (s.writeRec rid).memOk = true := by
  grind [State.writeRec, State.memOk_asService, State.memOk_noteIdle, State.memOk_post, State.memOk_updWave, State.memOk]

theorem State.memOk_addRec {s : State} (h : s.memOk = true) (r : Rec) : (s.addRec r).memOk = true := by
  grind [State.addRec, State.memOk_writeRec, State.memOk]

theorem State.memOk_parkSub {s : State} (h : s.memOk = true) (uid : Nat) (site : VA) (fs : List (Nat × LFault)) :
    (s.parkSub uid site fs).memOk = true := by
  have hd : ∀ {u : State}, u.memOk = true → (fs.foldl (fun s x => (s.dropReads (.lane uid x.1)).dropAsks (.lane uid x.1)) u).memOk = true :=
    State.memOk_foldl (fun s x hs => State.memOk_dropAsks (State.memOk_dropReads hs _) _) _
  unfold State.parkSub
  split
  · exact h
  · split
    · exact h
    · split
      · exact hd (State.memOk_updWave h _ _)
      · exact State.memOk_addRec (hd (State.memOk_updWave h _ _)) _

/-! ## Registers -/

theorem State.memOk_setCsr {s : State} (h : s.memOk = true) (a v : Nat) : (s.setCsr a v).memOk = true := h

theorem State.memOk_count {s : State} (h : s.memOk = true) (a n k : Nat) : (s.count a n k).memOk = true := by
  unfold State.count
  simp only [State.memOk_setCsr, h]

theorem State.memOk_stopQuad {s : State} (h : s.memOk = true) (cl core q cause : Nat) : (s.stopQuad cl core q cause).memOk = true := by
  grind [State.stopQuad, State.memOk_setCsr, State.memOk]

/-! ## Errors -/

theorem State.memOk_updSvc {s : State} (h : s.memOk = true) (f : Svc → Svc) : (s.updSvc f).memOk = true := h

theorem State.memOk_raiseHigh {s : State} (h : s.memOk = true) : (s.raiseHigh).memOk = true := by
  unfold State.raiseHigh
  simp only [State.memOk_noteIdle, State.memOk_updSvc, h]

theorem State.memOk_stallUnit {s : State} (h : s.memOk = true) (base cause : Nat) : (s.stallUnit base cause).memOk = true := by
  grind [State.stallUnit, State.memOk_updSvc, State.memOk_count]

theorem State.memOk_lowIf {s : State} (h : s.memOk = true) (group unit cnt : Nat) : (s.lowIf group unit cnt).memOk = true := by
  unfold State.lowIf
  (repeat' split) <;> simp only [State.memOk_noteIdle, State.memOk_updSvc, h]

theorem State.memOk_bankError {s : State} (h : s.memOk = true) (group unit : Nat) (ue consumed : Bool) (src addr info : Nat) :
    (s.bankError group unit ue consumed src addr info).memOk = true := by
  grind [State.bankError, State.memOk_setCsr, State.memOk_lowIf, State.memOk_raiseHigh]

theorem State.memOk_want {s : State} (h : s.memOk = true) (kind unit : Nat) : (s.want kind unit).memOk = true := by
  unfold State.want
  (repeat' split) <;> simp only [State.memOk_updSvc, h]

theorem State.memOk_wantSram {s : State} (h : s.memOk = true) (group unit addr : Nat) : (s.wantSram group unit addr).memOk = true := by
  unfold State.wantSram
  (repeat' split) <;> simp only [State.memOk_want, h]

theorem State.memOk_markRow {s : State} (h : s.memOk = true) (group unit addr : Nat) : (s.markRow group unit addr).memOk = true := by
  grind [State.markRow, State.memOk_updSvc, State.memOk_setCsr, State.memOk_wantSram]

theorem State.memOk_noteCorrected {s : State} (h : s.memOk = true) (ch : Nat) : (s.noteCorrected ch).memOk = true := by
  grind [State.noteCorrected, State.memOk_updSvc, State.memOk_want]

theorem State.memOk_trigger {s : State} (h : s.memOk = true) (group unit : Nat) (ue : Bool) (src addr : Nat) :
    (s.trigger group unit ue src addr).memOk = true := by
  unfold State.trigger
  (repeat' split) <;> simp only [State.memOk_wantSram, State.memOk_markRow, State.memOk_want, State.memOk_noteCorrected, h]

theorem State.memOk_enterError {s : State} (h : s.memOk = true) (group unit : Nat) (ue consumed : Bool) (src addr info : Nat) :
    (s.enterError group unit ue consumed src addr info).memOk = true := by
  unfold State.enterError
  simp only [State.memOk_trigger, State.memOk_bankError, h]

theorem State.memOk_recordErrors {s : State} (h : s.memOk = true) : (s.recordErrors).memOk = true := by
  grind [State.recordErrors, State.memOk_enterError, State.memOk_foldl, State.memOk_foldl_fst, State.memOk]

theorem State.memOk_meetUe {s : State} (h : s.memOk = true) (ls : List Loc) : (s.meetUe ls).memOk = true := by
  grind [State.meetUe, State.memOk_noteUe, State.memOk_foldl, State.memOk_foldl_fst]

theorem State.memOk_park {s : State} (h : s.memOk = true) (uid : Nat) (site : VA) (fs : List (Nat × LFault)) : (s.park uid site fs).memOk = true := by
  unfold State.park
  (repeat' split) <;> simp only [State.memOk_parkSub, State.memOk_recordErrors, h]

/-! ## Bins -/

theorem State.memOk_updAsu {s : State} (h : s.memOk = true) (f : Asu → Asu) : (s.updAsu f).memOk = true := h

theorem State.memOk_dispatchBin {s : State} (h : s.memOk = true) (b : Bin) : (s.dispatchBin b).memOk = true := by
  grind [State.dispatchBin, State.memOk_updAsu, State.memOk_count]

theorem State.memOk_enterTiles (k : Nat) {s : State} (h : s.memOk = true) : (State.enterTiles k s).memOk = true := by
  induction k generalizing s with
  | zero => exact h
  | succ k ih =>
    unfold State.enterTiles
    split
    · exact h
    · exact ih (State.memOk_dispatchBin h _)

theorem State.memOk_settleBins {s : State} (h : s.memOk = true) : (s.settleBins).memOk = true := by
  unfold State.settleBins
  simp only [State.memOk_enterTiles, h]

theorem State.memOk_settleSlot {s : State} (h : s.memOk = true) : (s.settleSlot).memOk = true := by
  unfold State.settleSlot
  (repeat' split) <;> simp only [State.memOk_settleBins, h]

theorem State.memOk_markBins {s : State} (h : s.memOk = true) (p : Bin → Bool) : (s.markBins p).memOk = true := by
  unfold State.markBins
  simp only [State.memOk_updAsu, h]

theorem State.memOk_flushBins {s : State} (h : s.memOk = true) (p : Bin → Bool) : (s.flushBins p).memOk = true := by
  unfold State.flushBins
  simp only [State.memOk_settleBins, State.memOk_markBins, h]

theorem State.memOk_trigBins {s : State} (h : s.memOk = true) (p : ACall → Bool) : (s.trigBins p).memOk = true := by
  unfold State.trigBins
  simp only [State.memOk_markBins, h]

/-! ## Waits -/

theorem State.memOk_release {s : State} (h : s.memOk = true) (uid lane : Nat) : (s.release uid lane).memOk = true := by
  unfold State.release
  (repeat' split) <;> simp only [State.memOk_resume, h]

theorem State.memOk_evalToks {s : State} (h : s.memOk = true) (uid : Nat) (ls : List Nat) : (s.evalToks uid ls).memOk = true := by
  grind [State.evalToks, State.memOk_release, State.memOk_joinLane, State.memOk_updWave, State.memOk_park, State.memOk_foldl, State.memOk_foldl_fst]

theorem State.memOk_clearTok {s : State} (h : s.memOk = true) (uid j lane : Nat) : (s.clearTok uid j lane).memOk = true := by
  unfold State.clearTok
  simp only [State.memOk_evalToks, State.memOk_updWave, h]

theorem State.memOk_failTok {s : State} (h : s.memOk = true) (uid j lane code info : Nat) : (s.failTok uid j lane code info).memOk = true := by
  unfold State.failTok
  simp only [State.memOk_clearTok, State.memOk_updWave, h]

theorem State.memOk_joinLanes {s : State} (h : s.memOk = true) (uid : Nat) (ls gone : List Nat) : (s.joinLanes uid ls gone).memOk = true := by
  grind [State.joinLanes, State.memOk_acquireLane, State.memOk_foldl, State.memOk_foldl_fst]

theorem State.memOk_evalMask {s : State} (h : s.memOk = true) (uid m : Nat) : (s.evalMask uid m).memOk = true := by
  grind [State.evalMask, State.memOk_release, State.memOk_joinLanes, State.memOk_updWave, State.memOk_foldl, State.memOk_foldl_fst]

theorem State.memOk_evalMasks {s : State} (h : s.memOk = true) (uid : Nat) : (s.evalMasks uid).memOk = true := by
  grind [State.evalMasks, State.memOk_evalMask, State.memOk_foldl, State.memOk_foldl_fst]

theorem State.memOk_setBar {s : State} (h : s.memOk = true) (x : Bar) : (s.setBar x).memOk = true := h

theorem State.memOk_releaseBar {s : State} (h : s.memOk = true) (x : Bar) (flip : Bool) : (s.releaseBar x flip).memOk = true := by
  grind [State.releaseBar, State.memOk_release, State.memOk_acquireLane, State.memOk_foldl, State.memOk_foldl_fst]

theorem State.memOk_evalBar {s : State} (h : s.memOk = true) (x : Bar) : (s.evalBar x).memOk = true := by
  unfold State.evalBar
  (repeat' split) <;> simp only [State.memOk_releaseBar, State.memOk_setBar, h]

theorem State.memOk_evalBars {s : State} (h : s.memOk = true) (w : Wave) : (s.evalBars w).memOk = true := by
  grind [State.evalBars, State.memOk_evalBar, State.memOk_foldl, State.memOk_foldl_fst]

theorem State.memOk_evalBarsOf {s : State} (h : s.memOk = true) (uid : Nat) : (s.evalBarsOf uid).memOk = true := by
  unfold State.evalBarsOf
  (repeat' split) <;> simp only [State.memOk_evalBars, h]

theorem State.memOk_writeMask {s : State} (h : s.memOk = true) (uid m : Nat) (x : LaneMask) : (s.writeMask uid m x).memOk = true := by
  grind [State.writeMask, State.memOk_evalBarsOf, State.memOk_evalMask, State.memOk_updWave]

theorem State.memOk_evalGjoin {s : State} (h : s.memOk = true) (uid k : Nat) : (s.evalGjoin uid k).memOk = true := by
  grind [State.evalGjoin, State.memOk_updWave, State.memOk_release, State.memOk_joinLanes, State.memOk_writeMask, State.memOk_foldl,
    State.memOk_foldl_fst]

theorem State.memOk_evalGjoins {s : State} (h : s.memOk = true) (uid : Nat) : (s.evalGjoins uid).memOk = true := by
  grind [State.evalGjoins, State.memOk_evalGjoin, State.memOk_foldl, State.memOk_foldl_fst]

theorem State.memOk_endHandler {s : State} (h : s.memOk = true) (uid : Nat) : (s.endHandler uid).memOk = true := by
  grind [State.endHandler, State.memOk_updRegion, State.memOk_foldl, State.memOk_foldl_fst, State.memOk]

theorem State.memOk_noteExit {s : State} (h : s.memOk = true) (uid : Nat) (ls : List Nat) : (s.noteExit uid ls).memOk = true := by
  grind [State.noteExit, State.memOk_updRegion, State.memOk_updWave, State.memOk_foldl, State.memOk_foldl_fst, State.memOk]

theorem State.memOk_exitLanes {s : State} (h : s.memOk = true) (uid : Nat) (ls : List Nat) : (s.exitLanes uid ls).memOk = true := by
  grind [State.exitLanes, State.memOk_noteExit, State.memOk_updWave, State.memOk_trigBins, State.memOk_endHandler, State.memOk_evalBarsOf,
    State.memOk_evalGjoins, State.memOk_evalMasks, State.memOk_foldl, State.memOk_foldl_fst]

theorem State.memOk_withdraw {s : State} (h : s.memOk = true) (uid : Nat) (ls : List Nat) : (s.withdraw uid ls).memOk = true := by
  grind [State.withdraw, State.memOk_updRegion, State.memOk]

theorem State.memOk_leaveAll {s : State} (h : s.memOk = true) (uid : Nat) (ls : List Nat) : (s.leaveAll uid ls).memOk = true := by
  grind [State.leaveAll, State.memOk_updWave, State.memOk_foldl, State.memOk_foldl_fst, State.memOk]

theorem State.memOk_tret {s : State} (h : s.memOk = true) (rid h : Nat) (exit : Bool) (view : List Nat) : (s.tret rid h exit view).memOk = true := by
  grind [State.tret, State.memOk_settleBins, State.memOk_exitLanes, State.memOk_leaveAll, State.memOk_updWave, State.memOk_evalBarsOf,
    State.memOk_evalGjoins, State.memOk_evalMasks, State.memOk_foldl, State.memOk_foldl_fst, State.memOk]

theorem State.memOk_endSlot {s : State} (h : s.memOk = true) : (s.endSlot).memOk = true := by
  grind [State.endSlot, State.memOk_tret, State.memOk_foldl, State.memOk_foldl_fst, State.memOk]

/-! ## Issue -/

theorem State.memOk_finishLane {s : State} (h : s.memOk = true) (c : Ctx) (lane : Nat) (o : LaneOut) : (s.finishLane c lane o).memOk = true := by
  unfold State.finishLane
  (repeat' split) <;> simp only [State.memOk_orFlags, State.memOk_addPend, State.memOk_updThread, h]

theorem State.memOk_markFailed {s : State} (h : s.memOk = true) (uid : Nat) (fs : List (Nat × LFault)) : (s.markFailed uid fs).memOk = true := by
  unfold State.markFailed
  simp only [State.memOk_updWave, h]

theorem State.memOk_parkFailed {s : State} (h : s.memOk = true) (uid : Nat) : (s.parkFailed uid).memOk = true := by
  grind [State.parkFailed, State.memOk_park, State.memOk_foldl, State.memOk_foldl_fst]

theorem State.memOk_failLanes {s : State} (h : s.memOk = true) (c : Ctx) (waits : Bool) (fs : List (Nat × LFault)) :
    (s.failLanes c waits fs).memOk = true := by
  unfold State.failLanes
  (repeat' split) <;> simp only [State.memOk_parkFailed, State.memOk_markFailed, State.memOk_park, h]

theorem State.memOk_wakeLane {s : State} (h : s.memOk = true) (uid lane : Nat) : (s.wakeLane uid lane).memOk = true := by
  grind [State.wakeLane, State.memOk_updThread, State.memOk_foldl, State.memOk_foldl_fst]

theorem State.memOk_commit {s : State} (h : s.memOk = true) (c : Ctx) (o : WaveOut) : (s.commit c o).memOk = true := by
  grind [State.commit, State.memOk_addPend, State.memOk_finishLane, State.memOk_updWave, State.memOk_failLanes, State.memOk_park, State.memOk_foldl,
    State.memOk_foldl_fst]

theorem memOk_runWave (e : Enc) {body : Ctx → State → State × WaveOut} (hb : ∀ c s, s.memOk = true → (body c s).1.memOk = true)
    {post : Ctx → State → State} (hp : ∀ c s, s.memOk = true → (post c s).memOk = true) (x : VA) {s : State} (h : s.memOk = true) (q : Nat × List Nat) :
    (runWave e body post x s q).memOk = true := by
  unfold runWave
  split
  · exact h
  · have hw := fun f => State.memOk_updWave h q.1 f
    have ho := fun f (off : List Nat) => State.memOk_foldl (fun s l hs => State.memOk_resume hs q.1 l (nextPc x e.h.len) false) off (hw f)
    dsimp only
    split
    · exact State.memOk_park (hw _) _ _ _
    · split
      · exact State.memOk_park (hw _) _ _ _
      · split
        · exact ho _ _
        · exact hp _ _ (State.memOk_commit (hb _ _ (ho _ _)) _ _)

theorem memOk_runPacketThen (e : Enc) {body : Ctx → State → State × WaveOut} (hb : ∀ c s, s.memOk = true → (body c s).1.memOk = true)
    {post : Ctx → State → State} (hp : ∀ c s, s.memOk = true → (post c s).memOk = true) {s : State} (h : s.memOk = true) :
    (runPacketThen e body post s).memOk = true := by
  unfold runPacketThen
  split
  · exact h
  · next p ps _ =>
    exact State.memOk_endSlot (State.memOk_foldl (fun s q hs => memOk_runWave e hb hp p.pc hs q) _ (s := { s with packets := ps }) h)

theorem memOk_runPacket (e : Enc) {body : Ctx → State → State × WaveOut} (hb : ∀ c s, s.memOk = true → (body c s).1.memOk = true) {s : State}
    (h : s.memOk = true) :
    (runPacket e body s).memOk = true := memOk_runPacketThen e hb (fun _ _ hs => hs) h

theorem memOk_laneWise {f : Ctx → State → Nat → State × LaneRes} (hf : ∀ c s l, s.memOk = true → (f c s l).1.memOk = true) (c : Ctx) {s : State}
    (h : s.memOk = true) :
    (laneWise f c s).1.memOk = true :=
  State.memOk_foldl_fst (f := fun r l => ((f c r.1 l).1, r.2 ++ [(l, (f c r.1 l).2)])) (fun r l hr => hf c r.1 l hr) c.on (r := (s, [])) h

theorem State.memOk_asIssued {α : Type} {s : State} (h : s.memOk = true) (uid l : Nat) {f : State → State × α}
    (hf : ∀ s, s.memOk = true → (f s).1.memOk = true) :
    (s.asIssued uid l f).1.memOk = true := by
  unfold State.asIssued
  split
  · exact hf _ h
  · exact State.memOk_updWave (hf _ (State.memOk_updWave h _ _)) _ _

theorem State.memOk_meetUeAt {s : State} (h : s.memOk = true) (rid : Nat) (e : LFault) : (s.meetUeAt rid e).memOk = true := by
  grind [State.meetUeAt, State.memOk_asService, State.memOk_meetUe]

theorem memOk_byLane {f : Ctx → State → Nat → State × LaneRes} (hf : ∀ c s l, s.memOk = true → (f c s l).1.memOk = true) (c : Ctx) {s : State}
    (h : s.memOk = true) (l : Nat) :
    (byLane f c s l).1.memOk = true := by
  have hr := State.memOk_asIssued h c.uid l (f := fun s => f c (s.asLane c.uid l) l) (fun s hs => hf c _ l (State.memOk_asLane hs _ _))
  unfold byLane
  dsimp only
  split
  · split
    · exact State.memOk_laneDone (State.memOk_hold hr _ _ _ _) _ _
    · exact State.memOk_meetUeAt (State.memOk_dropRops (State.memOk_laneDone hr _ _) _) _ _
  · exact State.memOk_dropReads (State.memOk_laneDone hr _ _) _

theorem memOk_memWise {f : Ctx → State → Nat → State × LaneRes} (hf : ∀ c s l, s.memOk = true → (f c s l).1.memOk = true) (c : Ctx) {s : State}
    (h : s.memOk = true) :
    (memWise f c s).1.memOk = true :=
  memOk_laneWise (fun c _ l hs => memOk_byLane hf c hs l) c h

theorem memOk_pureWise (f : Ctx → State → Nat → LaneRes) (c : Ctx) {s : State} (h : s.memOk = true) : (pureWise f c s).1.memOk = true := h

theorem memOk_uniWise {f : Ctx → State → Nat → State × Except LFault UniOut} (c : Ctx) {s : State} (hf : ∀ l, (f c s l).1.memOk = true)
    (h : s.memOk = true) :
    (uniWise f c s).1.memOk = true := by
  unfold uniWise
  split
  · exact h
  · next l _ _ =>
    have hl := hf l
    split
    · next e =>
      rw [e] at hl
      exact State.memOk_foldl (fun s l hs => State.memOk_updThread hs _ _ _) _ hl
    · next e => rw [e] at hl; exact hl

theorem memOk_uniMem {f : Ctx → State → Nat → State × Except LFault UniOut} (hf : ∀ c s l, s.memOk = true → (f c s l).1.memOk = true) (c : Ctx)
    {s : State} (h : s.memOk = true) :
    (uniMem f c s).1.memOk = true := by
  unfold uniMem
  split
  · exact h
  · next l _ _ =>
    have hr := State.memOk_asIssued h c.uid l (f := fun s => f c (s.asLane c.uid l) l) (fun s hs => hf c _ l (State.memOk_asLane hs _ _))
    split
    · next e =>
      rw [e] at hr
      split
      · exact State.memOk_foldl (fun s l hs => State.memOk_updThread hs _ _ _) _ (State.memOk_laneDone (State.memOk_hold hr _ _ _ _) _ _)
      · exact memOk_uniWise c (fun _ => State.memOk_meetUeAt (State.memOk_dropRops (State.memOk_laneDone hr _ _) _) _ _) h
    · next e =>
      rw [e] at hr
      exact memOk_uniWise c (fun _ => State.memOk_dropReads (State.memOk_laneDone hr _ _) _) h

/-! ## Operands -/

theorem memOk_computeBody (g : Ctx → State → Nat → Except LFault Res) (c : Ctx) {s : State} (h : s.memOk = true) :
    (computeBody g c s).1.memOk = true := by
  unfold computeBody
  split
  · exact memOk_uniWise c (fun _ => h) h
  · exact h

theorem memOk_runCompute (e : Enc) (g : Ctx → State → Nat → Except LFault Res) {s : State} (h : s.memOk = true) : (runCompute e g s).memOk = true :=
  memOk_runPacket e (fun c _ hs => memOk_computeBody g c hs) h

/-! ## Conversions -/

theorem memOk_cvtnLane (f : CvtFn) (c : Ctx) {s : State} (h : s.memOk = true) (l : Nat) : (cvtnLane f c s l).1.memOk = true := by
  grind [cvtnLane, State.memOk_updThread]

/-! ## Lane rows -/

theorem State.memOk_arrival {s : State} (h : s.memOk = true) (c : Ctx) (regs : List (RegRef × Word)) : (s.arrival c regs).memOk = true := by
  unfold State.arrival
  simp only [State.memOk_dropPend, h]

/-! ## Control -/

theorem memOk_callTo (c : Ctx) {s : State} (h : s.memOk = true) (l : Nat) (t : VA) : (callTo c s l t).1.memOk = true := by
  unfold callTo
  (repeat' split) <;> simp only [State.memOk_updThread, h]

theorem memOk_yieldLane (c : Ctx) {s : State} (h : s.memOk = true) (l : Nat) : (yieldLane c s l).1.memOk = true := by
  unfold yieldLane
  simp only [State.memOk_updThread, h]

/-! ## Synchronisation -/

theorem memOk_mwaitLane (m : Nat) (c : Ctx) {s : State} (h : s.memOk = true) (l : Nat) : (mwaitLane m c s l).1.memOk = true := by
  unfold mwaitLane
  (repeat' split) <;> simp only [State.memOk_updWave, h]

theorem memOk_barLane (b : Nat) (out : Ctx → Bool → LaneRes) (c : Ctx) {s : State} (h : s.memOk = true) (l : Nat) :
    (barLane b out c s l).1.memOk = true := by
  grind [barLane, State.memOk_setBar]

theorem memOk_postBars (c : Ctx) {s : State} (h : s.memOk = true) : (postBars c s).memOk = true := by
  unfold postBars
  simp only [State.memOk_evalBarsOf, h]

theorem memOk_sstepLane (c : Ctx) {s : State} (h : s.memOk = true) (l : Nat) : (sstepLane c s l).1.memOk = true := by
  grind [sstepLane, State.memOk_updRegion]

/-! ## Memory instructions -/

theorem State.memOk_touchLine {s : State} (h : s.memOk = true) (core : Option Nat) (line : Nat) (p : Option Nat) :
    (s.touchLine core line p).memOk = true := by
  unfold State.touchLine
  (repeat' split) <;> exact h

theorem State.memOk_noteLevel {s : State} (h : s.memOk = true) (core : Nat) (ls : List Loc) : (s.noteLevel core ls).memOk = true := by
  unfold State.noteLevel
  (repeat' split) <;> exact h

theorem State.memOk_touch {s : State} (h : s.memOk = true) (uid : Nat) (p : Option Nat) (ls : List Loc) : (s.touch uid p ls).memOk = true := by
  grind [State.touch, State.memOk_touchLine, State.memOk_noteLevel, State.memOk_foldl, State.memOk_foldl_fst]

theorem State.memOk_noteHits {s : State} (h : s.memOk = true) (c : Ctx) (l seg kind : Nat) (ls : List (Nat × Loc)) (bs : List Byte) :
    (s.noteHits c l seg kind ls bs).memOk = true := by
  grind [State.noteHits, State.memOk_fillCore, State.memOk]

theorem State.memOk_loaded {s : State} (h : s.memOk = true) (c : Ctx) (f : MemFn) {upd : State → (Place → View → View) → State}
    (hu : ∀ s f, s.memOk = true → (upd s f).memOk = true) (on : List Nat) (ls : List (Nat × Loc)) :
    (s.loaded c f upd on ls).1.memOk = true :=
  State.memOk_foldl (fun _ _ hs => State.memOk_noteHits hs ..) _ (State.memOk_touch (State.memOk_meetUe (State.memOk_readBy h hu _ _) _) ..)

theorem memOk_ldLane (f : MemFn) (c : Ctx) {s : State} (h : s.memOk = true) (l : Nat) : (ldLane f c s l).1.memOk = true := by
  grind [ldLane, State.memOk_loaded, State.memOk_updReader]

theorem State.memOk_updLanes (uid : Nat) (ls : List Nat) {s : State} (h : s.memOk = true) (f : Place → View → View) :
    (State.updLanes uid ls s f).memOk = true := by
  grind [State.updLanes, State.memOk_updWave, State.memOk_updReader, State.memOk_foldl, State.memOk_foldl_fst]

theorem State.memOk_setPack {s : State} (h : s.memOk = true) (p : List (Loc × List Nat)) : (s.setPack p).memOk = true := h

theorem memOk_ldUni (f : MemFn) (c : Ctx) {s : State} (h : s.memOk = true) (l : Nat) : (ldUni f c s l).1.memOk = true := by
  grind [ldUni, State.memOk_setPack, State.memOk_loaded, State.memOk_updLanes]

theorem State.memOk_askWrite {s : State} (h : s.memOk = true) (c : Ctx) (l peer pva va n : Nat) (k : PageKind) (acq : Option Nat)
    (atom : Option RemAtom) (op : SecOp) :
    (s.askWrite c l peer pva va n k acq atom op).memOk = true := h

theorem State.memOk_putAs {s : State} (h : s.memOk = true) (c : Ctx) (rel prio : Option Nat) (seg l : Nat) (ls : List (Nat × Loc)) (bs : List Byte) :
    (s.putAs c rel prio seg l ls bs).1.memOk = true := by
  grind [State.putAs, State.memOk_touch, State.memOk_storeAs, State.memOk_askWrite, State.memOk_noteHits, State.memOk_foldl, State.memOk_foldl_fst]

theorem State.memOk_flushPeers {s : State} (h : s.memOk = true) : (s.flushPeers).memOk = true := by
  grind [State.flushPeers, State.memOk_send, State.memOk_foldl, State.memOk_foldl_fst, State.memOk]

theorem State.memOk_packed {s : State} (h : s.memOk = true) (e : Enc) (places : Ctx → State → Nat → Except LFault (List (Nat × Loc))) :
    (s.packed e places).memOk = true := by
  unfold State.packed
  split
  · exact h
  · dsimp only
    split
    · exact h
    · exact State.memOk_setPack h _

theorem State.memOk_put {s : State} (h : s.memOk = true) (c : Ctx) (f : MemFn) (l : Nat) (ls : List (Nat × Loc)) (bs : List Byte) :
    (s.put c f l ls bs).1.memOk = true := by
  unfold State.put
  simp only [State.memOk_putAs, h]

theorem memOk_stLane (f : MemFn) (c : Ctx) {s : State} (h : s.memOk = true) (l : Nat) : (stLane f c s l).1.memOk = true := by
  unfold stLane
  (repeat' split) <;> simp only [State.memOk_put, h]

theorem memOk_aheadLane (f : MemFn) (c : Ctx) {s : State} (h : s.memOk = true) (l : Nat) : (aheadLane f c s l).1.memOk = true := by
  unfold aheadLane
  (repeat' split) <;> grind [State.memOk_updWave, State.memOk_loaded, State.memOk_updReader, State.memOk_dropPend, State.memOk]

theorem State.memOk_atomHere {s : State} (h : s.memOk = true) (c : Ctx) (f : MemFn) (ret : Bool) (l : Nat) (ls : List (Nat × Loc)) :
    (s.atomHere c f ret l ls).1.memOk = true := by
  grind [State.atomHere, State.memOk_meetUe, State.memOk_updReader, State.memOk_storeAs, State.memOk_noteHits, State.memOk_touch]

theorem State.memOk_atomThere {s : State} (h : s.memOk = true) (c : Ctx) (f : MemFn) (ret : Bool) (l peer pva : Nat) (k : PageKind)
    (ls : List (Nat × Loc)) :
    (s.atomThere c f ret l peer pva k ls).1.memOk = true := by
  unfold State.atomThere
  simp only [State.memOk_askWrite, State.memOk_noteHits, h]

theorem memOk_atomLane (f : MemFn) (ret : Bool) (c : Ctx) {s : State} (h : s.memOk = true) (l : Nat) : (atomLane f ret c s l).1.memOk = true := by
  unfold atomLane
  (repeat' split) <;> simp only [State.memOk_atomThere, State.memOk_atomHere, h]

theorem memOk_fenceLane (f : MemFn) (c : Ctx) {s : State} (h : s.memOk = true) (_l : Nat) : (fenceLane f c s _l).1.memOk = true := by
  grind [fenceLane, State.memOk_updAgent, State.memOk]

theorem memOk_hintLane (f : MemFn) {g : Wave → Nat → Loc → State → State} (hg : ∀ w va p s, s.memOk = true → (g w va p s).memOk = true) (c : Ctx)
    {s : State} (h : s.memOk = true) (l : Nat) :
    (hintLane f g c s l).1.memOk = true := by
  grind [hintLane, State.memOk_addMiss]

theorem State.memOk_invalidate {s : State} (h : s.memOk = true) (w : Wave) (a : Nat) : (s.invalidate w a).memOk = true := h

theorem State.memOk_maintain {s : State} (h : s.memOk = true) (w : Wave) (ev : Bool) (p : Loc) : (s.maintain w ev p).memOk = true := by
  unfold State.maintain
  (repeat' split) <;> exact h

theorem memOk_ldmcLane (f : MemFn) (c : Ctx) {s : State} (h : s.memOk = true) (l : Nat) : (ldmcLane f c s l).1.memOk = true := by
  unfold ldmcLane
  dsimp only
  (repeat' split) <;> exact h

end Sys2Proof.Machine
end

section
/-!
PROOF. Buffers, tasks and the engines keep the canonical form of the byte memories.
-/

namespace Sys2Proof.Machine

/-! ## Buffers -/

theorem State.memOk_updCts {s : State} (h : s.memOk = true) (f : Cts → Cts) : (s.updCts f).memOk = true := h

theorem State.memOk_setCbuf {s : State} (h : s.memOk = true) (x : Cbuf) : (s.setCbuf x).memOk = true := by
  unfold State.setCbuf
  simp only [State.memOk_updCts, h]

theorem State.memOk_updCbuf {s : State} (h : s.memOk = true) (cl cb : Nat) (f : Cbuf → Cbuf) : (s.updCbuf cl cb f).memOk = true := by
  unfold State.updCbuf
  simp only [State.memOk_updCts, h]

theorem State.memOk_evalCbuf {s : State} (h : s.memOk = true) (cl cb : Nat) : (s.evalCbuf cl cb).memOk = true := by
  grind [State.evalCbuf, State.memOk_release, State.memOk_joinLane, State.memOk_foldl, State.memOk_foldl_fst]

theorem State.memOk_advanceSide (cl cb : Nat) (prod : Bool) (k : Nat) {s : State} (h : s.memOk = true) :
    (State.advanceSide cl cb prod k s).memOk = true := by
  induction k generalizing s with
  | zero => exact h
  | succ k ih =>
    unfold State.advanceSide
    split
    · exact h
    · split
      · exact h
      · exact ih (State.memOk_updCbuf (State.memOk_updCts h _) _ _ _)

theorem State.memOk_settleClaim {s : State} (h : s.memOk = true) (cl cb : Nat) (prod : Bool) (o : Owner2) (go : Bool) :
    (s.settleClaim cl cb prod o go).memOk = true := by
  grind [State.settleClaim, State.memOk_updCts, State.memOk_evalCbuf, State.memOk_advanceSide]

theorem State.memOk_grantClaim {s : State} (h : s.memOk = true) (cl cb : Nat) (prod : Bool) (o : Owner2) (spec : Bool) (n : Nat) :
    (s.grantClaim cl cb prod o spec n).1.memOk = true := by
  unfold State.grantClaim
  simp only [State.memOk_updCbuf, State.memOk_updCts, h]

theorem State.memOk_growClaim {s : State} (h : s.memOk = true) (cl cb id n : Nat) : (s.growClaim cl cb id n).memOk = true := by
  unfold State.growClaim
  simp only [State.memOk_updCbuf, State.memOk_updCts, h]

theorem State.memOk_updTask {s : State} (h : s.memOk = true) (cl slot : Nat) (f : Task → Task) : (s.updTask cl slot f).memOk = true := by
  unfold State.updTask
  simp only [State.memOk_updCts, h]

theorem State.memOk_releaseTkwait {s : State} (h : s.memOk = true) (cl id val : Nat) (view : List Nat) :
    (s.releaseTkwait cl id val view).memOk = true := by
  grind [State.releaseTkwait, State.memOk_release, State.memOk_joinLane, State.memOk_addPend, State.memOk_foldl, State.memOk_foldl_fst]

theorem State.memOk_reportTask {s : State} (h : s.memOk = true) (t : Task) : (s.reportTask t).memOk = true := by
  unfold State.reportTask
  simp only [State.memOk_releaseTkwait, h]

theorem State.memOk_freeTask {s : State} (h : s.memOk = true) (t : Task) : (s.freeTask t).memOk = true := by
  unfold State.freeTask
  simp only [State.memOk_updCts, State.memOk_releaseTkwait, h]

theorem State.memOk_retireTask {s : State} (h : s.memOk = true) (t : Task) (status : Nat) : (s.retireTask t status).memOk = true := by
  grind [State.retireTask, State.memOk_updTask, State.memOk_freeTask, State.memOk_reportTask]

theorem State.memOk_clearTaskTok {s : State} (h : s.memOk = true) (t : Task) : (s.clearTaskTok t).memOk = true := by
  unfold State.clearTaskTok
  (repeat' split) <;> simp only [State.memOk_clearTok, State.memOk_orFlags, h]

theorem State.memOk_raiseUi {s : State} (h : s.memOk = true) (uid idx : Nat) : (s.raiseUi uid idx).memOk = true := by
  unfold State.raiseUi
  simp only [State.memOk_noteIdle, State.memOk_updWave, h]

theorem State.memOk_raiseEvent {s : State} (h : s.memOk = true) (cl evt : Nat) : (s.raiseEvent cl evt).memOk = true := by
  unfold State.raiseEvent
  (repeat' split) <;> simp only [State.memOk_raiseUi, State.memOk_count, h]

theorem State.memOk_makeReady {s : State} (h : s.memOk = true) (t : Task) (clk : Nat) : (s.makeReady t clk).memOk = true := by
  unfold State.makeReady
  simp only [State.memOk_updTask, h]

theorem State.memOk_succDone {s : State} (h : s.memOk = true) (cl id : Nat) : (s.succDone cl id).memOk = true := by
  unfold State.succDone
  (repeat' split) <;> simp only [State.memOk_makeReady, State.memOk_updTask, State.memOk_count, h]

theorem State.memOk_settleIns {s : State} (h : s.memOk = true) (t : Task) (go : Bool) : (s.settleIns t go).memOk = true := by
  grind [State.settleIns, State.memOk_settleClaim, State.memOk_foldl, State.memOk_foldl_fst]

theorem State.memOk_settleOut {s : State} (h : s.memOk = true) (t : Task) (go : Bool) : (s.settleOut t go).memOk = true := by
  unfold State.settleOut
  (repeat' split) <;> simp only [State.memOk_settleClaim, h]

theorem State.memOk_dropTask {s : State} (h : s.memOk = true) (t : Task) (status : Nat) : (s.dropTask t status).memOk = true := by
  grind [State.dropTask, State.memOk_asService, State.memOk_freeTask, State.memOk_reportTask, State.memOk_clearTaskTok, State.memOk_evalCbuf,
    State.memOk_foldl, State.memOk_foldl_fst]

theorem State.memOk_endXfers {s : State} (h : s.memOk = true) (t : Task) : (s.endXfers t).memOk = true := by
  grind [State.endXfers, State.memOk_settleClaim, State.memOk_updCts, State.memOk_foldl, State.memOk_foldl_fst]

theorem State.memOk_asTask {s : State} (h : s.memOk = true) (t : Task) : (s.asTask t).memOk = true := by
  unfold State.asTask
  simp only [State.memOk_asOp, h]

theorem State.memOk_taskDone {s : State} (h : s.memOk = true) (t : Task) : (s.taskDone t).memOk = true := by
  unfold State.taskDone
  simp only [State.memOk_opDone, State.memOk_updTask, h]

theorem State.memOk_completeSteps {s : State} (h : s.memOk = true) (t : Task) (st : Nat) : (s.completeSteps t st).memOk = true := by
  grind [State.completeSteps, State.memOk_settleOut, State.memOk_settleIns, State.memOk_succDone, State.memOk_clearTaskTok, State.memOk_raiseEvent,
    State.memOk_endXfers, State.memOk_reportTask, State.memOk_updTask, State.memOk_freeTask, State.memOk_retireTask, State.memOk_foldl,
      State.memOk_foldl_fst]

theorem State.memOk_completeTask {s : State} (h : s.memOk = true) (t : Task) (st : Nat) : (s.completeTask t st).memOk = true := by
  grind [State.completeTask, State.memOk_endReads, State.memOk_opDone, State.memOk_noteEnd, State.memOk_completeSteps, State.memOk_flushEnd,
    State.memOk_asTask, State.memOk_dropRops]

theorem State.memOk_endSpec {s : State} (h : s.memOk = true) (t : Task) (commit : Bool) : (s.endSpec t commit).memOk = true := by
  grind [State.endSpec, State.memOk_asService, State.memOk_settleOut, State.memOk_settleIns, State.memOk_asTask, State.memOk_retireTask,
    State.memOk_freeTask, State.memOk_reportTask]

theorem State.memOk_finishTask {s : State} (h : s.memOk = true) (t : Task) (status : Nat) : (s.finishTask t status).memOk = true := by
  unfold State.finishTask
  simp only [State.memOk_updTask, h]

/-! ## Tasks -/

theorem State.memOk_postTask {s : State} (h : s.memOk = true) (t : Task) : (s.postTask t).memOk = true := by
  unfold State.postTask
  (repeat' split) <;> simp only [State.memOk_updCts, State.memOk_updWave, h]

theorem memOk_tkpostLane (f : EngFn) (c : Ctx) {s : State} (h : s.memOk = true) (l : Nat) : (tkpostLane f c s l).1.memOk = true := by
  unfold tkpostLane
  (repeat' split) <;> grind [State.memOk_count, State.memOk_noteRead, State.memOk_postTask, State.memOk]

theorem memOk_onTask {g : Ctx → State → Nat → Task → State × LaneRes} (hg : ∀ c s l t, s.memOk = true → (g c s l t).1.memOk = true) (c : Ctx)
    {s : State} (h : s.memOk = true) (l : Nat) :
    (onTask g c s l).1.memOk = true := by
  grind [onTask]

theorem memOk_tkwaitLane (c : Ctx) {s : State} (h : s.memOk = true) (l : Nat) : (tkwaitLane c s l).1.memOk = true := by
  grind [tkwaitLane, State.memOk_joinLane]

theorem State.memOk_collectDone {s : State} (h : s.memOk = true) (uid : Nat) (ids : List Nat) : (s.collectDone uid ids).memOk = true := by
  grind [State.collectDone, State.memOk_freeTask, State.memOk_foldl, State.memOk_foldl_fst]

theorem memOk_tkwaitBody (c : Ctx) {s : State} (h : s.memOk = true) : (tkwaitBody c s).1.memOk = true := by
  grind [tkwaitBody, memOk_memWise, memOk_tkwaitLane, State.memOk_collectDone]

theorem memOk_onCbuf (cb : Nat) {g : Ctx → State → Nat → Wave → State × LaneRes} (hg : ∀ c s l w, s.memOk = true → (g c s l w).1.memOk = true)
    (c : Ctx) {s : State} (h : s.memOk = true) (l : Nat) :
    (onCbuf cb g c s l).1.memOk = true := by
  grind [onCbuf]

theorem memOk_cbiniLane (f : EngFn) (c : Ctx) {s : State} (h : s.memOk = true) (l : Nat) (w : Wave) : (cbiniLane f c s l w).1.memOk = true := by
  grind [cbiniLane, State.memOk_setCbuf]

theorem memOk_pushPop (prod : Bool) (c : Ctx) {s : State} (h : s.memOk = true) (l : Nat) (w : Wave) : (pushPop prod c s l w).1.memOk = true := by
  grind [pushPop, State.memOk_updCbuf]

theorem memOk_evalD (c : Ctx) {s : State} (h : s.memOk = true) : (evalD c s).memOk = true := by
  unfold evalD
  (repeat' split) <;> simp only [State.memOk_evalCbuf, h]

theorem memOk_cbwtLane (room : Bool) (c : Ctx) {s : State} (h : s.memOk = true) (l : Nat) (w : Wave) : (cbwtLane room c s l w).1.memOk = true := by
  grind [cbwtLane, State.memOk_joinLane]

theorem State.memOk_noteVa {s : State} (h : s.memOk = true) (rid va n : Nat) : (s.noteVa rid va n).memOk = true := by
  unfold State.noteVa
  (repeat' split) <;> simp only [State.memOk_noteRead, h]

theorem State.memOk_readNoted {s : State} (h : s.memOk = true) (rid va n : Nat) {r} (e : s.readNoted rid va n = .ok r) : r.1.memOk = true := by
  grind [State.readNoted, State.memOk_noteVa]

theorem memOk_evsetLane (clr : Bool) (c : Ctx) {s : State} (h : s.memOk = true) (l : Nat) : (evsetLane clr c s l).1.memOk = true := by
  grind [evsetLane, State.memOk_updCts, State.memOk_noteVa]

theorem State.memOk_grantAll {s : State} (h : s.memOk = true) (t : Task) : (s.grantAll t).1.memOk = true := by
  grind [State.grantAll, State.memOk_grantClaim, State.memOk_foldl, State.memOk_foldl_fst]

/-! ## Engine accesses -/

theorem memOk_engLoop {f : Nat → State → Task → EAcc} (hf : ∀ i s t, s.memOk = true → (f i s t).1.memOk = true) (l : List Nat) {s : State}
    (h : s.memOk = true) (t : Task) :
    (engLoop f l s t).1.memOk = true :=
  State.memOk_foldl_fst (fun r i hr => by
    split
    · exact hr
    · exact hf _ _ _ hr) _ h

theorem memOk_andThen {a : EAcc} (h : a.1.memOk = true) {f : State → Task → EAcc} (hf : ∀ s t, s.memOk = true → (f s t).1.memOk = true) :
    (a.andThen f).1.memOk = true := by
  unfold EAcc.andThen
  split
  · exact h
  · exact hf _ _ h

/-- A computation that reads memory, and may stop, keeps the canonical form. -/
structure Reads {ε α : Type} (m : ExceptT ε (StateM State) α) : Prop where
  keeps : ∀ {s : State}, s.memOk = true → (m s).2.memOk = true

theorem Reads.pure {ε α : Type} (a : α) : Reads (pure a : ExceptT ε (StateM State) α) := ⟨fun h => h⟩

theorem Reads.throw {ε α : Type} (e : ε) : Reads (MonadExcept.throw e : ExceptT ε (StateM State) α) := ⟨fun h => h⟩

theorem Reads.get {ε : Type} : Reads (MonadState.get : ExceptT ε (StateM State) State) := ⟨fun h => h⟩

theorem Reads.bind {ε α β : Type} {m : ExceptT ε (StateM State) α} {f : α → ExceptT ε (StateM State) β} (hm : Reads m) (hf : ∀ a, Reads (f a)) :
    Reads (m >>= f) := by
  refine ⟨fun {s} h => ?_⟩
  have hs := hm.keeps h
  rw [show (m >>= f) s = ExceptT.bindCont f (m s).1 (m s).2 from rfl]
  cases ha : (m s).1 with
  | ok a => exact (hf a).keeps hs
  | error e => exact hs

theorem Reads.ite {ε α : Type} {p : Prop} [Decidable p] {m n : ExceptT ε (StateM State) α} (hm : Reads m) (hn : Reads n) :
    Reads (if p then m else n) := by
  split
  · exact hm
  · exact hn

theorem Reads.foldlM {ε α β : Type} {f : β → α → ExceptT ε (StateM State) β} (hf : ∀ b a, Reads (f b a)) (l : List α) (b : β) :
    Reads (l.foldlM f b) := by
  induction l generalizing b with
  | nil => exact .pure b
  | cons a l ih => rw [List.foldlM_cons]; exact .bind (hf b a) ih

theorem reads_readPlaces (ls : List (Nat × Loc)) : Reads (readPlaces ls) := by
  refine ⟨fun {s} h => ?_⟩
  unfold readPlaces
  split
  · exact State.memOk_meetUe h _
  · split
    · exact h
    · next e => exact State.memOk_take h _ _ e

theorem reads_engBytes (rid va n : Nat) : Reads (engBytes rid va n) := by
  refine ⟨fun {s} h => ?_⟩
  unfold engBytes
  split
  · exact h
  · exact (reads_readPlaces _).keeps h

theorem reads_engRead (rid va n : Nat) : Reads (engRead rid va n) := .bind (reads_engBytes ..) (fun _ => .pure _)

theorem State.memOk_engWrite {s : State} (h : s.memOk = true) (rid va : Nat) (bs : List Byte) : (s.engWrite rid va bs).1.memOk = true := by
  unfold State.engWrite
  (repeat' split) <;> simp only [State.memOk_gather, h]

theorem memOk_tryE {α : Type} {r : EM α} (hr : Reads r) {s : State} (h : s.memOk = true) (t : Task) {f : State → α → EAcc}
    (hf : ∀ s a, s.memOk = true → (f s a).1.memOk = true) :
    (tryE r s t f).1.memOk = true := by
  have hs := hr.keeps h
  unfold tryE
  split
  · next e => rw [e] at hs; exact hs
  · next e => rw [e] at hs; exact hf _ _ hs

theorem memOk_tryW {r : State × Option EStop} (h : r.1.memOk = true) (t : Task) {f : State → EAcc} (hf : ∀ s, s.memOk = true → (f s).1.memOk = true) :
    (tryW r t f).1.memOk = true := by
  unfold tryW
  split
  · exact h
  · exact hf _ h

theorem State.memOk_putTask {s : State} (h : s.memOk = true) (t : Task) : (s.putTask t).memOk = true := by
  unfold State.putTask
  simp only [State.memOk_updTask, State.memOk_opDone, h]

theorem State.memOk_stopTask {s : State} (h : s.memOk = true) (t : Task) (f : LFault) : (s.stopTask t f).memOk = true := by
  grind [State.stopTask, State.memOk_putTask, State.memOk_hold, State.memOk_dropFailed, State.memOk_flush]

theorem State.memOk_overTask {s : State} (h : s.memOk = true) (t : Task) (status : Nat) : (s.overTask t status).memOk = true := by
  grind [State.overTask, State.memOk_flushAll, State.memOk_finishTask, State.memOk_putTask, State.memOk_stopTask]

theorem memOk_EAcc_commit {a : EAcc} (h : a.1.memOk = true) : a.commit.memOk = true := by
  grind [EAcc.commit, State.memOk_overTask, State.memOk_putTask, State.memOk_stopTask]

theorem memOk_withBody {s : State} (h : s.memOk = true) (t : Task) {f : State → Task → Nat → EAcc}
    (hf : ∀ s t b, s.memOk = true → (f s t b).1.memOk = true) :
    (withBody s t f).1.memOk = true := by
  unfold withBody
  split
  · exact hf _ _ _ h
  · split
    · exact h
    · exact memOk_tryE (reads_readPlaces _) h t (fun s _ hs => hf _ _ _ hs)

theorem memOk_withBlock (va : Nat) {s : State} (h : s.memOk = true) (t : Task) {f : State → Task → Nat → EAcc}
    (hf : ∀ s t b, s.memOk = true → (f s t b).1.memOk = true) :
    (withBlock va s t f).1.memOk = true := by
  unfold withBlock
  split
  · exact hf _ _ _ h
  · exact memOk_tryE (reads_engRead ..) h t (fun s _ hs => hf _ _ _ hs)

theorem reads_inBytes (t : Task) (i o n : Nat) : Reads (inBytes t i o n) := ⟨fun h => (reads_readPlaces _).keeps h⟩

theorem State.memOk_outBytes {s : State} (h : s.memOk = true) (t : Task) (o : Nat) (bs : List Byte) (pad : Bool) :
    (s.outBytes t o bs pad).memOk = true := by
  unfold State.outBytes
  (repeat' split) <;> simp only [State.memOk_gather, h]

theorem State.memOk_suspend {s : State} (h : s.memOk = true) (ekind cl obj : Nat) : (s.suspend ekind cl obj).memOk = true := by
  unfold State.suspend
  (repeat' split) <;> grind [State.memOk_addRec, State.memOk_updTask, State.memOk]

theorem reads_arrEntry (rid base iw i : Nat) : Reads (arrEntry rid base iw i) := reads_engRead ..

theorem reads_arrBit (rid base n : Nat) : Reads (arrBit rid base n) := .bind (reads_engRead ..) (fun _ => .pure _)

theorem reads_collectE {α β : Type} {f : α → EM (List β)} (hf : ∀ a, Reads (f a)) (l : List α) : Reads (collectE f l) :=
  .foldlM (fun _ a => .bind (hf a) (fun _ => .pure _)) l []

theorem reads_fibre (rid d p : Nat) (lo hi : Int) : Reads (fibre rid d p lo hi) := by
  have entry := fun i => reads_arrEntry rid (lvCrd d) (lvIw d) i
  unfold fibre
  extract_lets size inBox
  split
  · exact .pure _
  · exact .bind (reads_arrEntry ..) (fun a => .bind (reads_arrEntry ..) (fun b => .ite (.throw _)
      (.bind (.foldlM (fun acc i => .bind (entry i) (fun c => .ite (.throw _) (.pure _))) _ _) (fun _ => .pure _))))
  · exact reads_collectE (fun c => .bind (reads_arrBit ..) (fun _ => .pure _)) _
  · exact .bind (entry p) (fun c => .ite (.throw _) (.pure _))

theorem reads_sparseBox (rid : Nat) (dims : List (Nat × Int × Nat)) (p L : Nat) : Reads (sparseBox rid dims p L) := by
  induction dims generalizing p L with
  | nil => exact .pure _
  | cons d dims ih => exact .bind (reads_fibre ..) (fun els => reads_collectE (fun el => ih ..) els)

/-! ## Copies -/

theorem reads_engBits (rid bit w : Nat) : Reads (engBits rid bit w) := .bind (reads_engRead ..) (fun _ => .pure _)

theorem memOk_endRec (crec st : Nat) {s : State} (h : s.memOk = true) (t : Task) : (endRec crec st s t).1.memOk = true := by
  unfold endRec
  split
  · exact h
  · exact memOk_tryW (State.memOk_engWrite h _ _ _) _ (fun _ hs => hs)

theorem State.memOk_abortRec {s : State} (h : s.memOk = true) (t : Task) : (s.abortRec t).memOk = true := by
  grind [State.abortRec, State.memOk_asService, State.memOk_post]

theorem memOk_rejectRec (crec : Nat) {s : State} (h : s.memOk = true) (t : Task) : (rejectRec crec s t).1.memOk = true := memOk_endRec _ _ h _

theorem memOk_memueRec (crec : Nat) {a : EAcc} (h : a.1.memOk = true) : (memueRec crec a).1.memOk = true := by
  unfold memueRec
  split
  · exact memOk_rejectRec _ h _
  · exact memOk_endRec _ _ h _
  · exact h

theorem State.memOk_startXfer {s : State} (h : s.memOk = true) (t : Task) (row : Bool) (mask cb total : Nat) (data : List Byte) (pads : List Bool) :
    (s.startXfer t row mask cb total data pads).memOk = true := by
  grind [State.startXfer, State.memOk_updCts, State.memOk]

theorem memOk_copyInElem (r : Nat) (c : List Int) (hits : List (Nat × Nat)) (L : Nat) {s : State} (h : s.memOk = true) (t : Task) :
    (copyInElem r c hits L s t).1.memOk = true := by
  have put := fun (v : Nat) (pad : Bool) (s : State) (hs : s.memOk = true) => State.memOk_outBytes hs t (lyOff r L) (leBytes 2 v) pad
  unfold copyInElem
  dsimp only
  split
  · exact put _ _ _ h
  · split
    · split
      · exact put _ _ _ h
      · exact memOk_tryE (reads_engBits ..) h t (fun s p hs => put _ _ _ hs)
    · refine memOk_tryE (reads_engBits ..) h t (fun s p hs => ?_)
      split
      · exact put _ _ _ hs
      · exact memOk_tryE (reads_engRead ..) hs t (fun s x hs => put _ _ _ hs)

theorem reads_sparseDims (rid r : Nat) (c : List Int) : Reads (sparseDims rid r c) :=
  reads_collectE (fun _ => .bind (reads_engRead ..) (fun _ => .ite (.throw _) (.pure _))) _

theorem reads_sparseHits (rid r : Nat) (c : List Int) : Reads (sparseHits rid r c) :=
  .ite (.pure _) (.bind (reads_sparseDims ..) (fun _ => reads_sparseBox ..))

theorem State.memOk_castTile {s : State} (h : s.memOk = true) (t : Task) (mask n : Nat) : (s.castTile t mask n).memOk = true := by
  unfold State.castTile
  (repeat' split) <;> simp only [State.memOk_flush, State.memOk_startXfer, h]

theorem memOk_copyInWork {s : State} (h : s.memOk = true) (t : Task) : (copyInWork s t).1.memOk = true := by
  refine memOk_withBody h t (fun s t b hs => ?_)
  dsimp only
  split
  · exact memOk_rejectRec _ hs _
  · refine memOk_memueRec _ (memOk_withBlock _ hs t (fun s t r hs => ?_))
    split
    · exact memOk_rejectRec _ hs _
    · split
      · exact memOk_endRec _ _ hs _
      · refine memOk_tryE (reads_sparseHits ..) hs t (fun s hits hs => ?_)
        refine memOk_andThen (memOk_engLoop (fun i s t hs => memOk_copyInElem _ _ _ _ hs _) _ hs t) (fun s t hs => memOk_endRec _ _ ?_ _)
        split
        · exact State.memOk_castTile (State.memOk_outBytes hs ..) ..
        · exact State.memOk_outBytes hs ..

theorem reads_tileVal (t : Task) (r L : Nat) (wide : Bool) : Reads (tileVal t r L wide) := by
  unfold tileVal
  split <;> exact .bind (reads_inBytes ..) (fun _ => .pure _)

theorem reads_blockScale (t : Task) (r : Nat) (c : List Int) (wide : Bool) (L : Nat) (d : Desc) : Reads (blockScale t r c wide L d) := by
  refine .bind (reads_collectE (fun k => .ite (.bind (reads_tileVal ..) (fun _ => .pure _)) (.pure _)) _) (fun logs => ?_)
  split
  · exact .pure _
  · exact .pure _

theorem State.memOk_engPutBits {s : State} (h : s.memOk = true) (t : Task) (whole : Nat → Bool) (bit w v : Nat) :
    (s.engPutBits t whole bit w v).1.memOk = true := by
  unfold State.engPutBits
  dsimp only
  split
  · exact h
  · have hb := (reads_collectE (f := fun i => do
        let b : BitVec 8 := BitVec.ofNat 8 (v * 2 ^ (bit % 8) / 2 ^ (8 * i))
        let m : BitVec 8 := BitVec.ofNat 8 ((2 ^ w - 1) * 2 ^ (bit % 8) / 2 ^ (8 * i))
        if m = 255 || whole i then return [(b, m)]
        else return (← engBytes t.rid ((bit / 8 % 2 ^ 56 + i) % 2 ^ 56) 1).map (fun old => ((old &&& ~~~m) ||| (b &&& m),
          (255 : BitVec 8)))) (fun i => by
      dsimp only
      split
      · exact .pure _
      · exact .bind (reads_engBytes ..) (fun _ => .pure _)) (List.range ((bit % 8 + w + 7) / 8))).keeps h
    split
    · next e => rw [e] at hb; exact hb
    · next e => rw [e] at hb; exact State.memOk_foldl (fun s x hs => State.memOk_putMasked hs ..) _ hb

theorem memOk_copyOutElem (r rnd seed : Nat) (c : List Int) (wide : Bool) (L : Nat) {s : State} (h : s.memOk = true) (t : Task) :
    (copyOutElem r rnd seed c wide L s t).1.memOk = true := by
  unfold copyOutElem
  split
  · exact h
  · extract_lets n first
    refine memOk_tryE ?_ h t (fun s x hs => memOk_tryW ?_ t (fun s hs => memOk_tryE (reads_tileVal ..) hs t (fun s v hs =>
      memOk_tryW (State.memOk_engPutBits hs ..) t (fun s hs => hs))))
    · split
      · exact .ite (.pure _) (reads_blockScale ..)
      · exact .pure _
    · split
      · exact State.memOk_engWrite hs ..
      · exact hs

theorem memOk_copyOutWork {s : State} (h : s.memOk = true) (t : Task) : (copyOutWork s t).1.memOk = true := by
  refine memOk_withBody h t (fun s t b hs => ?_)
  dsimp only
  split
  · exact memOk_rejectRec _ hs _
  · refine memOk_memueRec _ (memOk_withBlock _ hs t (fun s t r hs => ?_))
    split
    · exact memOk_rejectRec _ hs _
    · exact memOk_andThen (memOk_engLoop (fun i s t hs => memOk_copyOutElem _ _ _ _ _ _ hs _) _ hs t) (fun s t hs => memOk_endRec _ _ hs _)

theorem memOk_readPrefix (rid va n : Nat) {s : State} (h : s.memOk = true) : (readPrefix rid va n s).1.memOk = true := by
  induction n with
  | zero => exact h
  | succ n ih =>
    have hb : ∀ s, s.memOk = true → (engBytes rid ((va + n) % 2 ^ 56) 1 s).2.memOk = true := fun s hs => (reads_engBytes ..).keeps hs
    unfold readPrefix
    grind

theorem memOk_copyChunk (src dst len n_ : Nat) {s : State} (h : s.memOk = true) (t : Task) : (copyChunk src dst len n_ s t).1.memOk = true := by
  grind [copyChunk, memOk_readPrefix, memOk_tryW, State.memOk_engWrite]

theorem memOk_copyWork {s : State} (h : s.memOk = true) (t : Task) : (copyWork s t).1.memOk = true := by
  refine memOk_withBody h t (fun s t b hs => ?_)
  dsimp only
  split
  · exact memOk_rejectRec _ hs _
  · exact memOk_memueRec _ (memOk_andThen (memOk_engLoop (fun i s t hs => memOk_copyChunk _ _ _ _ hs _) _ hs t) (fun s t hs => memOk_endRec _ _ hs _))

theorem reads_localBytes (t : Task) (b : Nat) : Reads (localBytes t b) := .ite (reads_inBytes ..) (reads_engBytes ..)

theorem memOk_sendWait (m : Nat → OutMsg) {s : State} (h : s.memOk = true) (t : Task) : (sendWait m s t).1.memOk = true := by
  grind [sendWait, State.memOk_send, State.memOk]

theorem memOk_crossWork {s : State} (h : s.memOk = true) (t : Task) : (crossWork s t).1.memOk = true := by
  refine memOk_withBody h t (fun s t b hs => ?_)
  dsimp only
  split
  · exact hs
  · split
    · split
      · exact hs
      · split
        · exact memOk_sendWait _ hs _
        · refine memOk_tryE (reads_localBytes ..) hs t (fun s bs hs => ?_)
          split
          · exact memOk_sendWait _ hs _
          · exact memOk_sendWait _ hs _
    · split
      · split
        · exact State.memOk_outBytes hs ..
        · exact memOk_tryW (State.memOk_engWrite hs ..) t (fun s hs => hs)
      · exact hs

/-! ## The weight cache -/

theorem State.memOk_updWc {s : State} (h : s.memOk = true) (f : List WcLine → List WcLine) : (s.updWc f).memOk = true := h

theorem State.memOk_wcAlloc {s : State} (h : s.memOk = true) (cl line : Nat) {t : State} (e : s.wcAlloc cl line = some t) : t.memOk = true := by
  grind [State.wcAlloc, State.memOk_updWc]

theorem State.memOk_wcBypass {s : State} (h : s.memOk = true) (cl : Nat) : (s.wcBypass cl).memOk = true := by
  unfold State.wcBypass
  simp only [State.memOk_stallUnit, State.memOk_count, h]

theorem State.memOk_wcDemand {s : State} (h : s.memOk = true) (cl rid : Nat) (vlines : List Nat) : (s.wcDemand cl rid vlines).memOk = true := by
  refine State.memOk_foldl (fun s v hs => ?_) _ h
  split
  · exact hs
  · split
    · exact hs
    · next line _ _ =>
      cases e : s.wcAlloc cl line with
      | none => exact State.memOk_wcBypass hs _
      | some t => exact State.memOk_wcAlloc hs _ _ e

theorem State.memOk_wcPrefetch {s : State} (h : s.memOk = true) (cl line : Nat) : (s.wcPrefetch cl line).memOk = true := by
  unfold State.wcPrefetch
  cases e : s.wcAlloc cl line with
  | none => exact h
  | some t => exact State.memOk_wcAlloc h _ _ e

theorem State.memOk_wcPin {s : State} (h : s.memOk = true) (cl line : Nat) (key : Nat × Nat) : (s.wcPin cl line key).1.memOk = true := by
  grind [State.wcPin, State.memOk_updWc, State.memOk_wcAlloc, State.memOk_count]

/-! ## The tensor engine -/

theorem reads_mmElemA (t : Task) (b i k : Nat) : Reads (mmElemA t b i k) :=
  .ite (.bind (reads_inBytes ..) (fun _ => .bind .get (fun _ => .pure _))) (.bind (reads_engRead ..) (fun _ => .pure _))

theorem reads_mmElemB (t : Task) (b k j : Nat) : Reads (mmElemB t b k j) :=
  .ite (.bind (reads_inBytes ..) (fun _ => .bind .get (fun _ => .pure _))) (.bind (reads_engRead ..) (fun _ => .pure _))

theorem reads_mmElemC (t : Task) (b i j : Nat) : Reads (mmElemC t b i j) := .ite (.pure _) (.bind (reads_engRead ..) (fun _ => .pure _))

theorem reads_mmMapA (t : Task) (b rb g : Nat) : Reads (mmMapA t b rb g) :=
  .ite (.pure _) (reads_collectE (fun _ => .bind (reads_inBytes ..) (fun _ => .pure _)) _)

theorem reads_mmMapB (t : Task) (b g : Nat) : Reads (mmMapB t b g) :=
  .ite (.pure _) (reads_collectE (fun _ => .bind (reads_inBytes ..) (fun _ => .pure _)) _)

theorem State.memOk_mmSend {s : State} (h : s.memOk = true) (t : Task) (b g : Nat) (bs : List (Nat × Bool)) : (s.mmSend t b g bs).memOk = true := by
  unfold State.mmSend
  (repeat' split) <;> simp only [State.memOk_startXfer, State.memOk_updCts, h]

theorem State.memOk_mmCache {s : State} (h : s.memOk = true) (t : Task) (b rb g : Nat) : (s.mmCache t b rb g).memOk = true := by
  unfold State.mmCache
  (repeat' split) <;> simp only [State.memOk_wcDemand, h]

theorem reads_mmReads (t : Task) (b rb g : Nat) : Reads (mmReads t b rb g) := by
  have rest : ∀ acc : List (Nat × Nat), Reads (do
      let as ← collectE (fun p => do return [← mmElemA t b p.1 p.2]) ((List.range 16).flatMap (fun i => (List.range 32).map (fun k => (16 * rb + i,
        32 * g + k))))
      let bs ← collectE (fun p => do return [← mmElemB t b p.1 p.2]) ((List.range 32).flatMap (fun k => (List.range (mmN b)).map (fun j => (32 * g +
        k, j))))
      return (acc, as, bs, ← mmMapA t b rb g, ← mmMapB t b g)) := fun acc =>
    .bind (reads_collectE (fun _ => .bind (reads_mmElemA ..) (fun _ => .pure _)) _) (fun as =>
      .bind (reads_collectE (fun _ => .bind (reads_mmElemB ..) (fun _ => .pure _)) _) (fun bs =>
        .bind (reads_mmMapA ..) (fun _ => .bind (reads_mmMapB ..) (fun _ => .pure _))))
  exact .ite (.bind (.pure _) rest) (.bind (reads_collectE (fun _ => .bind (reads_mmElemC ..) (fun _ => .pure _)) _) rest)

theorem memOk_mmPair (b rb g : Nat) {s : State} (h : s.memOk = true) (t : Task) : (mmPair b rb g s t).1.memOk = true := by
  refine memOk_tryE (reads_mmReads ..) h t (fun s x hs => State.memOk_mmCache ?_ ..)
  split
  · exact State.memOk_mmSend hs ..
  · exact hs

theorem memOk_mmRows (b rb : Nat) {s : State} (h : s.memOk = true) (t : Task) : (mmRows b rb s t).1.memOk = true := by
  grind [mmRows, State.memOk_outBytes, State.memOk_engWrite, memOk_tryW, State.memOk_foldl, State.memOk_foldl_fst]

theorem memOk_mmStep (b p : Nat) {s : State} (h : s.memOk = true) (t : Task) : (mmStep b p s t).1.memOk = true := by
  grind [mmStep, memOk_mmRows, memOk_mmPair]

theorem memOk_mmWork {s : State} (h : s.memOk = true) (t : Task) : (mmWork s t).1.memOk = true := by
  grind [mmWork, memOk_withBody, memOk_engLoop, memOk_mmStep]

theorem memOk_postDirect (c : Ctx) (l : Nat) (w : Wave) (tok : Option Nat) (r : Nat) (lrec : Option Nat) (bad : State → Task → Bool) {s : State}
    (h : s.memOk = true) :
    (postDirect c l w tok r lrec bad s).1.memOk = true := by
  grind [postDirect, State.memOk_postTask]

theorem memOk_readAtPost (va n : Nat) (w : Wave) {s : State} (h : s.memOk = true) {f : State → Nat → State × LaneRes}
    (hf : ∀ s b, s.memOk = true → (f s b).1.memOk = true) :
    (readAtPost va n w s f).1.memOk = true := by
  unfold readAtPost
  split
  · exact h
  · next e => exact hf _ _ (State.memOk_readNoted h _ _ _ e)

/-- A direct form reads its record, block or layout at post, and posts what it makes of it. -/
theorem memOk_readThenPost (va n : Nat) (w : Wave) {s : State} (h : s.memOk = true) (c : Ctx) (l : Nat) (tok : Option Nat) (g : State → Nat → Nat)
    (lrec : Nat → Option Nat) (bad : State → Nat → State → Task → Bool) :
    (readAtPost va n w s (fun s b => postDirect c l w tok (g s b) (lrec b) (bad s b) s)).1.memOk = true :=
  memOk_readAtPost _ _ _ h (fun _ _ hs => memOk_postDirect _ _ _ _ _ _ _ hs)

theorem memOk_tcpyLane (isOut : Bool) (c : Ctx) {s : State} (h : s.memOk = true) (l : Nat) : (tcpyLane isOut c s l).1.memOk = true := by
  unfold tcpyLane
  split
  · exact h
  · dsimp only
    split
    · exact h
    · split
      · exact h
      · with_reducible exact memOk_readThenPost _ 64 _ h c l _ (fun s r => s.tcpyRecord isOut c l r) some (fun s r => tcpyBad isOut c.e.x.toNat
        (s.tcpyRecord isOut c l r) r)

theorem memOk_mmaLane (kind : Nat) (c : Ctx) {s : State} (h : s.memOk = true) (l : Nat) : (mmaLane kind c s l).1.memOk = true := by
  unfold mmaLane
  split
  · exact h
  · dsimp only
    split
    · exact h
    · split
      · exact h
      · with_reducible exact memOk_readThenPost _ 40 _ h c l _ (fun _ b => mmaRecord kind c.e.x.toNat b) (fun _ => none) (fun _ b _ t => mmBad t
        (mmaRecord kind c.e.x.toNat b))

theorem memOk_mrpgLane (c : Ctx) {s : State} (h : s.memOk = true) (l : Nat) : (mrpgLane c s l).1.memOk = true := by
  grind [mrpgLane, State.memOk_joinLane]

/-! ## Streams -/

theorem State.memOk_setStrm {s : State} (h : s.memOk = true) (uid w x : Nat) : (s.setStrm uid w x).memOk = true := by
  unfold State.setStrm
  simp only [State.memOk_updWave, h]

theorem State.memOk_strmErr {s : State} (h : s.memOk = true) (uid w e : Nat) : (s.strmErr uid w e).memOk = true := by
  unfold State.strmErr
  simp only [State.memOk_setStrm, h]

theorem reads_strmRead (rid va n : Nat) : Reads (strmRead rid va n) := by
  refine ⟨fun {s} h => ?_⟩
  unfold strmRead
  split
  · exact h
  · split
    · exact State.memOk_meetUe h _
    · split
      · exact h
      · next e => exact State.memOk_take h _ _ e

theorem reads_descOf (rid : Nat) (f : Fetch) : Reads (f.descOf rid) := by
  unfold Fetch.descOf
  split
  · exact .pure _
  · exact reads_strmRead ..

theorem reads_arrayRead (rid : Nat) (f : Fetch) (base : Nat → Nat) (off n : Nat) :
    Reads (f.arrayRead rid base off n) := .bind (reads_descOf ..) (fun _ => reads_strmRead ..)

theorem reads_crdEntry (rid : Nat) (f : Fetch) (i : Nat) : Reads (f.crdEntry rid i) := reads_arrayRead ..

theorem reads_posEntry (rid : Nat) (f : Fetch) (i : Nat) : Reads (f.posEntry rid i) := reads_arrayRead ..

theorem reads_nextSet (rid : Nat) (f : Fetch) (n i : Nat) : Reads (f.nextSet rid n i) := by
  induction n generalizing i with
  | zero => exact .pure _
  | succ n ih =>
    exact .bind (reads_arrayRead ..) (fun x => .ite (.pure _) (ih _))

theorem reads_openFetch (rid : Nat) (x : Strm) (b : Bool) : Reads (openFetch rid x b) := by
  refine .ite (.throw _) (.ite (.pure _) (.bind (reads_strmRead ..) (fun d => .ite (.throw _) (.ite (.throw _) ?_))))
  extract_lets y
  split
  · exact .pure _
  · exact .bind (reads_posEntry ..) (fun p => .bind (reads_posEntry ..) (fun q => .ite (.throw _) (.pure _)))
  · exact .bind (reads_nextSet ..) (fun _ => .pure _)
  · exact .pure _

theorem reads_element (rid : Nat) (f : Fetch) : Reads (f.element rid) := by
  unfold Fetch.element
  extract_lets x
  split
  · exact .pure _
  · exact .pure _
  · exact .bind (reads_crdEntry ..) (fun c => .ite (.throw _) (.pure _))

theorem reads_pass (rid : Nat) (f : Fetch) (c : Nat) : Reads (f.pass rid c) := .ite (.bind (reads_nextSet ..) (fun _ => .pure _)) (.pure _)

theorem reads_head (rid n : Nat) (f : Fetch) : Reads (f.head rid n) := by
  induction n generalizing f with
  | zero => exact .pure _
  | succ n ih => exact .ite (.pure _) (.bind (reads_element ..) (fun el => .ite (.bind (reads_pass ..) ih) (.pure _)))

theorem reads_passIf (rid : Nat) (go : Bool) (f : Fetch) (x : Option (Nat × Nat)) : Reads (f.passIf rid go x) := .ite (reads_pass ..) (.pure _)

theorem reads_deliver (j : StrmJob) (k : Nat) (a b : Fetch) (out : List Deliv) : Reads (deliver j k a b out) := by
  induction k generalizing a b out with
  | zero => exact .pure _
  | succ k ih =>
    refine .ite (.pure _) (.bind (reads_head ..) (fun x => ?_))
    obtain ⟨a, ha⟩ := x
    refine .ite (.bind (.pure _) (fun y => ?_)) (.bind (reads_head ..) (fun y => ?_))
    all_goals
      obtain ⟨b, hb⟩ := y
      dsimp only
      split
      · exact .pure _
      · split
        · exact .throw _
        · exact .bind (reads_passIf ..) (fun _ => .bind (reads_passIf ..) (fun _ => ih ..))

theorem State.memOk_strmPerform {s : State} (h : s.memOk = true) (q : StreamOp) : (s.strmPerform q).1.memOk = true := by
  grind [State.strmPerform, State.memOk_strmErr, State.memOk_setStrm]

theorem State.memOk_strmDrain (n k : Nat) {s : State} (h : s.memOk = true) : (State.strmDrain n k s).memOk = true := by
  induction n generalizing k s with
  | zero => exact h
  | succ n ih =>
    unfold State.strmDrain
    split
    · exact h
    · next q _ =>
      split
      · exact ih _ h
      · have hp := State.memOk_strmPerform (s := { s with streams := s.streams.eraseIdx k }) h q
        dsimp only
        split
        · exact ih _ h
        · split
          · exact ih _ (State.memOk_park hp _ _ _)
          · refine ih _ (State.memOk_foldl (fun s l hs => State.memOk_release hs _ _) _ ?_)
            split
            · exact hp
            · exact State.memOk_addPend hp _

theorem reads_strmOpen (q : StreamOp) (rid : Nat) (xa xb : Strm) : Reads (strmOpen q rid xa xb) := by
  have rest : ∀ a b : Fetch, Reads (if bitsAt q.sub 0 2 ≠ 0 && !(a.x.ord && a.x.unq) then stopS (.state false 3)
      else if bitsAt q.sub 0 2 ≠ 0 && !(b.x.ord && b.x.unq) then stopS (.state true 3) else pure (a, b)) :=
    fun a b => .ite (.throw _) (.ite (.throw _) (.pure _))
  exact .bind (reads_openFetch ..) (fun a => .ite (.bind (.pure _) (rest a)) (.bind (reads_openFetch ..) (rest a)))

theorem reads_strmRun (q : StreamOp) (rid : Nat) (a b : Fetch) : Reads (strmRun q rid a b) := reads_deliver ..

theorem State.memOk_setStreams {s : State} (h : s.memOk = true) (q : StreamOp) (a b : Fetch) : (s.setStreams q a b).memOk = true := by
  unfold State.setStreams
  (repeat' split) <;> simp only [State.memOk_setStrm, h]

theorem State.memOk_strmFail {s : State} (h : s.memOk = true) (q : StreamOp) (e : SErr) : (s.strmFail q e).memOk = true := by
  unfold State.strmFail
  (repeat' split) <;> grind [State.memOk_updWave, State.memOk_strmErr, State.memOk_setStrm, State.memOk_park, State.memOk_foldl,
    State.memOk_foldl_fst, State.memOk]

theorem State.memOk_strmStop {s : State} (h : s.memOk = true) (q : StreamOp) (a b : Fetch) (e : SErr) : (s.strmStop q a b e).memOk = true := by
  unfold State.strmStop
  (repeat' split) <;> simp only [State.memOk_strmFail, State.memOk_setStreams, h]

theorem State.memOk_strmDone {s : State} (h : s.memOk = true) (q : StreamOp) (a b : Fetch) (ds : List Deliv) :
    (s.strmDone q a b ds).memOk = true := by
  grind [State.strmDone, State.memOk_setStreams, State.memOk_updWave, State.memOk_writeMask, State.memOk_clearTok, State.memOk_foldl,
    State.memOk_foldl_fst]

theorem State.memOk_asStream {s : State} (h : s.memOk = true) (q : StreamOp) (w : Wave) : (s.asStream q w).memOk = true := by
  unfold State.asStream
  simp only [State.memOk_asOp, h]

theorem State.memOk_strmFetch {s : State} (h : s.memOk = true) (q : StreamOp) (rid : Nat) : (s.strmFetch q rid).1.memOk = true := by
  have ho := (reads_strmOpen q rid (s.strm q.uid q.h.a.toNat) (s.strm q.uid q.h.b.toNat)).keeps h
  unfold State.strmFetch
  split
  · next e => rw [e] at ho; exact ho
  · next a b _ e =>
    rw [e] at ho
    have hr := (reads_strmRun q rid a b).keeps ho
    split <;> next e => rw [e] at hr; exact hr

theorem State.memOk_strmClose {s : State} (h : s.memOk = true) (q : StreamOp) (rid : Nat) : (s.strmClose q rid).memOk = true := by
  grind [State.strmClose, State.memOk_endReads, State.memOk_opDone, State.memOk_dropRops, State.memOk_noteEnd, State.memOk_strmDrain]

theorem memOk_strmOp (op a b : Nat) (c : Ctx) {s : State} (h : s.memOk = true) : (strmOp op a b c s).1.memOk = true := by
  grind [strmOp, State.memOk_strmPerform, State.memOk]

/-! ## Fetch -/

theorem State.memOk_forgetBad {s : State} (h : s.memOk = true) (w : Wave) (pc : Nat) : (s.forgetBad w pc).memOk = true := h

theorem State.memOk_fetchFault {s : State} (h : s.memOk = true) (p : Packet) (f : LFault) : (s.fetchFault p f).memOk = true := by
  grind [State.fetchFault, State.memOk_park, State.memOk_forgetBad, State.memOk_foldl, State.memOk_foldl_fst]

theorem State.memOk_fillRead {s : State} (h : s.memOk = true) (core rid blk : Nat) : (s.fillRead core rid blk).1.memOk = true := by
  have ho := State.memOk_asOp h (.fetch core rid blk) (.core core) ((lookupIn s.ord.fills core).getD [])
  unfold State.fillRead
  extract_lets u
  split
  · exact ho
  · split
    · exact State.memOk_meetUe ho _
    · split
      · exact ho
      · next e => exact State.memOk_fillCore (State.memOk_take ho _ _ e) _ _

theorem State.memOk_putBlock {s : State} (h : s.memOk = true) (b : IBlock) : (s.putBlock b).memOk = true := h

theorem State.memOk_wakeFill {s : State} (h : s.memOk = true) (core : Nat) (root : Option Nat) (blk : Nat) :
    (s.wakeFill core root blk).memOk = true := by
  grind [State.wakeFill, State.memOk_updThread, State.memOk_foldl, State.memOk_foldl_fst]

theorem State.memOk_wake {s : State} (h : s.memOk = true) (uid lane : Nat) : (s.wake uid lane).memOk = true := by
  unfold State.wake
  (repeat' split) <;> simp only [State.memOk_updThread, h]

theorem State.memOk_deliverUi {s : State} (h : s.memOk = true) (w : Wave) (lane i entry : Nat) : (s.deliverUi w lane i entry).memOk = true := by
  unfold State.deliverUi
  simp only [State.memOk_updWave, State.memOk_wake, h]

theorem State.memOk_endIdle {s : State} (h : s.memOk = true) (w : Wave) (E till d got : Nat) : (s.endIdle w E till d got).memOk = true := by
  grind [State.endIdle, State.memOk_wake, State.memOk_addPend, State.memOk_deliverUi, State.memOk_foldl, State.memOk_foldl_fst]

/-! ## The picker -/

theorem State.memOk_startFetch {s : State} (h : s.memOk = true) (cl core q : Nat) : (s.startFetch cl core q).memOk = true := h

theorem State.memOk_ageQuad {s : State} (h : s.memOk = true) (cl core q : Nat) (cs : List Cand) (ps : List Packet) :
    (s.ageQuad cl core q cs ps).memOk = true := h

theorem State.memOk_stallSlot {s : State} (h : s.memOk = true) (cl core q : Nat) : (s.stallSlot cl core q).memOk = true := by
  grind [State.stallSlot, State.memOk_count, State.memOk_foldl, State.memOk_foldl_fst]

theorem State.memOk_updSample {s : State} (h : s.memOk = true) (k : Nat × Nat × Nat) (f : Sample → Sample) : (s.updSample k f).memOk = true := by
  unfold State.updSample
  (repeat' split) <;> simp only [State.memOk_updSvc, h]

theorem State.memOk_noteFetches {s : State} (h : s.memOk = true) (k : Nat × Nat × Nat) : (s.noteFetches k).memOk = true := by
  unfold State.noteFetches
  simp only [State.memOk_updSample, h]

theorem State.memOk_noteIssue {s : State} (h : s.memOk = true) (k : Nat × Nat × Nat) (p : Packet) : (s.noteIssue k p).memOk = true := by
  unfold State.noteIssue
  (repeat' split) <;> simp only [State.memOk_updSample, h]

theorem State.memOk_slotQuad {s : State} (h : s.memOk = true) (k : Nat × Nat × Nat) : (s.slotQuad k).memOk = true := by
  grind [State.slotQuad, State.memOk_stallSlot, State.memOk_noteFetches, State.memOk_startFetch, State.memOk_ageQuad, State.memOk_noteIssue,
    State.memOk_stopQuad, State.memOk_foldl, State.memOk_foldl_fst, State.memOk]

theorem State.memOk_chargeSlot {s : State} (h : s.memOk = true) : (s.chargeSlot).memOk = true := h

/-! ## Regions -/

theorem State.memOk_bootImage {s : State} (h : s.memOk = true) : (s.bootImage).memOk = true := by
  grind [State.bootImage, State.memOk_asService, State.memOk_store]

theorem State.memOk_boot {s : State} (h : s.memOk = true) : (s.boot).memOk = true := by
  grind [State.boot, State.memOk_bootImage, State.memOk_asService, State.memOk_store]

theorem State.memOk_register {s : State} (h : s.memOk = true) (rid adr : Nat) {r} (e : s.register rid adr = some r) : r.1.memOk = true := by
  grind [State.register, State.memOk]

theorem State.memOk_update {s : State} (h : s.memOk = true) (rid id : Nat) {t : State} (e : s.update rid id = some t) : t.memOk = true := by
  grind [State.update, State.memOk_updRegion]

/-! ## Launches -/

theorem State.memOk_noteCores {s : State} (h : s.memOk = true) (rid : Nat) (cores : List Nat) : (s.noteCores rid cores).memOk = true := h

theorem State.memOk_startHandler {s : State} (h : s.memOk = true) (r : Region) (cl core : Nat) (kind : WaveKind) (entry lanes V S : Nat)
    (priv : Bool) (segs : Sparse (BitVec 128)) (view : List Nat) (f : Wave → Wave) {t : State} (e : s.startHandler r cl core kind entry lanes V S priv segs view f = some t) :
    t.memOk = true := by
  grind [State.startHandler, State.memOk_noteCores, State.memOk]

theorem State.memOk_spawn {s : State} (h : s.memOk = true) (rid la ra : Nat) (cpl : Option (Nat × Nat)) (view : List Nat) :
    (s.spawn rid la ra cpl view).1.memOk = true := by
  unfold State.spawn
  (repeat' split) <;> grind [State.memOk]

theorem State.memOk_place {s : State} (h : s.memOk = true) (l : Launch) (cl core : Nat) (b : Bank) (f : Fit) :
    (s.place l cl core b f).memOk = true := by
  grind [State.place, State.memOk_noteCores, State.memOk]

theorem memOk_fetchwLane (f : EngFn) (c : Ctx) {s : State} (h : s.memOk = true) (l : Nat) : (fetchwLane f c s l).1.memOk = true := by
  grind [fetchwLane, State.memOk_updCts, State.memOk_updWave]

theorem State.memOk_withdrawWg {s : State} (h : s.memOk = true) (q : WgReq) : (s.withdrawWg q).1.memOk = true := by
  unfold State.withdrawWg
  (repeat' split) <;> exact h

/-! ## Gather and scatter -/

theorem memOk_gsDeliver (b : Nat) (bs : List Byte) (code : Nat) (f : Option (Nat × Nat × Nat)) {s : State} (h : s.memOk = true) (t : Task) :
    (gsDeliver b bs code f s t).1.memOk = true := by
  grind [gsDeliver, State.memOk_outBytes, memOk_tryW, State.memOk_engWrite]

theorem memOk_gsSkip (b code : Nat) (f : Option (Nat × Nat × Nat)) {s : State} (h : s.memOk = true) (t : Task) :
    (gsSkip b code f s t).1.memOk = true := by
  unfold gsSkip
  (repeat' split) <;> simp only [memOk_gsDeliver, h]

theorem reads_gsSource (t : Task) (b : Nat) : Reads (gsSource t b) := .ite (reads_inBytes ..) (reads_engBytes ..)

theorem State.memOk_addAway {s : State} (h : s.memOk = true) (rid ty : Nat) (w : List (Nat × Loc) × Nat) : (s.addAway rid ty w).1.memOk = true := by
  unfold State.addAway
  (repeat' split) <;> simp only [State.memOk_await, h]

theorem State.memOk_gsAdd {s : State} (h : s.memOk = true) (rid ty : Nat) (ls : List (Nat × Loc)) (bs : List Byte) :
    (s.gsAdd rid ty ls bs).1.memOk = true := by
  grind [State.gsAdd, State.memOk_awaitAll, State.memOk_addAway, State.memOk_writeAll, State.memOk_storeAs, State.memOk_foldl, State.memOk_foldl_fst]

theorem memOk_gsFault (b chip addr : Nat) (e : LFault) {s : State} (h : s.memOk = true) (t : Task) : (gsFault b chip addr e s t).1.memOk = true := by
  unfold gsFault
  (repeat' split) <;> simp only [memOk_gsSkip, State.memOk_dropRops, h]

theorem memOk_gsAccess (b chip addr : Nat) (ls : List (Nat × Loc)) {s : State} (h : s.memOk = true) (t : Task) :
    (gsAccess b chip addr ls s t).1.memOk = true := by
  unfold gsAccess
  (repeat' split) <;> grind [State.memOk_take, memOk_gsFault, memOk_gsDeliver, memOk_tryE, reads_gsSource, State.memOk_writeAll, State.memOk_gsAdd,
    State.memOk_dropWrites, State.memOk]

theorem State.memOk_askPart {s : State} (h : s.memOk = true) (rid chip : Nat) (ls : List (Nat × Loc)) : (s.askPart rid chip ls).memOk = true := by
  grind [State.askPart, State.memOk_sendRop]

theorem memOk_gsRemote (b chip addr : Nat) {s : State} (h : s.memOk = true) (t : Task) : (gsRemote b chip addr s t).1.memOk = true := by
  grind [gsRemote, memOk_gsAccess, State.memOk_askPart]

theorem memOk_gsLocal (b own addr : Nat) {s : State} (h : s.memOk = true) (t : Task) : (gsLocal b own addr s t).1.memOk = true := by
  unfold gsLocal
  (repeat' split) <;> simp only [memOk_gsFault, State.memOk_meetUe, memOk_gsAccess, h]

theorem memOk_gsIndex (b n_ : Nat) {s : State} (h : s.memOk = true) (t : Task) : (gsIndex b n_ s t).1.memOk = true := by
  grind [gsIndex, memOk_tryE, reads_engRead, memOk_gsSkip, memOk_gsRemote, memOk_gsLocal]

theorem memOk_gsReport (b st : Nat) {s : State} (h : s.memOk = true) (t : Task) : (gsReport b st s t).1.memOk = true := by
  grind [gsReport, memOk_tryW, State.memOk_engWrite, State.memOk_foldl, State.memOk_foldl_fst]

theorem State.memOk_abortReport {s : State} (h : s.memOk = true) (t : Task) : (s.abortReport t).memOk = true := by
  grind [State.abortReport, State.memOk_asService, State.memOk_post, State.memOk_foldl, State.memOk_foldl_fst]

theorem memOk_gsTail (b : Nat) {s : State} (h : s.memOk = true) (t : Task) : (gsTail b s t).memOk = true := by
  unfold gsTail
  (repeat' split) <;> simp only [State.memOk_outBytes, h]

theorem memOk_gsWork {s : State} (h : s.memOk = true) (t : Task) : (gsWork s t).1.memOk = true := by
  grind [gsWork, memOk_withBody, memOk_withBlock, memOk_gsReport, memOk_engLoop, memOk_gsIndex, memOk_gsTail]

theorem memOk_gsLane (kind : Nat) (c : Ctx) {s : State} (h : s.memOk = true) (l : Nat) : (gsLane kind c s l).1.memOk = true := by
  unfold gsLane
  split
  · exact h
  · dsimp only
    split
    · exact h
    · with_reducible
        exact memOk_readThenPost _ 64 _ h c l _ (fun _ b => gsRecord kind c.e.x.toNat (s.readRegs c.uid l .s c.e.h.a.toNat 2) b) some
          (fun _ b u t => u.gsBlockBad t.rid kind b || gsRecordBad t (gsRecord kind c.e.x.toNat (s.readRegs c.uid l .s c.e.h.a.toNat 2) b) b)

/-! ## Textures -/

theorem memOk_texStep (g : Ctx → State → Nat → TRes) (c : Ctx) {s : State} (h : s.memOk = true) (l : Nat) : (texStep g c s l).1.memOk = true := by
  unfold texStep
  dsimp only
  split
  · exact State.memOk_noteLevel (State.memOk_meetUe (State.memOk_noteRead h _ _) _) _ _
  · exact h

theorem memOk_quadWise (pre : Ctx → State → Nat → LaneRes) {g : Ctx → State → Nat → State × LaneRes}
    (hg : ∀ c s l, s.memOk = true → (g c s l).1.memOk = true) (c : Ctx) {s : State} (h : s.memOk = true) :
    (quadWise pre g c s).1.memOk = true := by
  refine State.memOk_foldl (fun s l hs => State.memOk_updThread hs _ _ _) _ (memOk_laneWise (fun c s l hs => ?_) c h)
  have hb := memOk_byLane hg c hs l
  split
  · exact hb
  · split
    · exact hb
    · split
      · exact hb
      · exact hs

theorem memOk_texWise (quad : Bool) (g : Ctx → State → Nat → TRes) (c : Ctx) {s : State} (h : s.memOk = true) :
    (texWise quad g c s).1.memOk = true := by
  have hg := fun c s l hs => memOk_texStep g c (s := s) hs l
  unfold texWise
  split
  · exact memOk_quadWise _ hg c h
  · exact memOk_memWise hg c h

end Sys2Proof.Machine
end

section
/-!
PROOF. The Asterism unit, rays, the network, the host link and the services keep the canonical form of the byte memories.
-/

namespace Sys2Proof.Machine

/-! ## The Asterism unit -/

theorem State.memOk_callSeated {s : State} (h : s.memOk = true) (c : ACall) : (s.callSeated c).memOk = true := by
  unfold State.callSeated
  (repeat' split) <;> simp only [State.memOk_resume, h]

theorem State.memOk_openBin {s : State} (h : s.memOk = true) (cl : Nat) (c : ACall) : (s.openBin cl c).memOk = true := by
  grind [State.openBin, State.memOk_updAsu, State.memOk]

theorem State.memOk_joinBin {s : State} (h : s.memOk = true) (b : Bin) (c : ACall) : (s.joinBin b c).memOk = true := by
  unfold State.joinBin
  simp only [State.memOk_flushBins, State.memOk_updAsu, h]

theorem State.memOk_seatCall {s : State} (h : s.memOk = true) (cl : Nat) (c : ACall) {t : State} (e : s.seatCall cl c = some t) : t.memOk = true := by
  grind [State.seatCall, State.memOk_callSeated, State.memOk_joinBin, State.memOk_openBin, State.memOk_dispatchBin]

theorem State.memOk_seatCalls (cl k : Nat) {s : State} (h : s.memOk = true) : (State.seatCalls cl k s).memOk = true := by
  induction k generalizing s with
  | zero => exact h
  | succ k ih =>
    unfold State.seatCalls
    split
    · exact h
    · split
      · next e => exact ih (State.memOk_seatCall (State.memOk_updAsu h _) _ _ e)
      · exact State.memOk_flushBins h _

theorem State.memOk_updTile {s : State} (h : s.memOk = true) (cl id : Nat) (f : Tile → Tile) : (s.updTile cl id f).memOk = true := by
  unfold State.updTile
  simp only [State.memOk_updAsu, h]

theorem State.memOk_tileRead {s : State} (h : s.memOk = true) (id : Nat) : (s.tileRead id).memOk = true := by
  unfold State.tileRead
  simp only [State.memOk_landOwed, State.memOk_updAsu, h]

theorem memOk_updCalls (id : Nat) {s : State} (h : s.memOk = true) (f : Place → View → View) : (updCalls id s f).memOk = true := by
  unfold updCalls
  simp only [State.memOk_updAsu, State.memOk_updReader, h]

theorem State.memOk_tileLayers (k : Nat) {s : State} (h : s.memOk = true) (t : Tile) : (State.tileLayers k s t).1.memOk = true := by
  induction k generalizing s t with
  | zero => exact h
  | succ k ih =>
    unfold State.tileLayers
    split
    · split
      · exact State.memOk_hold h _ _ _ _
      · exact State.memOk_meetUeAt h _ _
    · have hr := State.memOk_wcDemand (State.memOk_dropRops (State.memOk_readBy h (upd := updCalls t.id) (fun s f hs => memOk_updCalls _ hs _)
        (s.spanLocs t.rid (nsSpans t.record t.layer)) none) (.tile t.id)) t.cl t.rid (nsLayerLines t.record t.layer)
      dsimp only
      split
      · exact hr
      · exact ih hr _

theorem State.memOk_asTile {s : State} (h : s.memOk = true) (t : Tile) : (s.asTile t).memOk = true := by
  unfold State.asTile
  simp only [State.memOk_asOp, h]

theorem State.memOk_runTile {s : State} (h : s.memOk = true) (t : Tile) : (s.runTile t).memOk = true := by
  grind [State.runTile, State.memOk_tileLayers, State.memOk_asTile, State.memOk_updTile, State.memOk_opDone, State.memOk_endReads,
    State.memOk_tileRead]

theorem State.memOk_endCall {s : State} (h : s.memOk = true) (t : Tile) (c : ACall) {f : State → State}
    (hf : ∀ s, s.memOk = true → (f s).memOk = true) :
    (s.endCall t c f).memOk = true :=
  State.memOk_opDone (State.memOk_noteEnd (hf _ (State.memOk_asOp h ..)) ..)

theorem State.memOk_writeRow {s : State} (h : s.memOk = true) (t : Tile) (c : ACall) (x : TRow) : (s.writeRow t c x).memOk = true := by
  grind [State.writeRow, State.memOk_endCall, State.memOk_clearTok, State.memOk_updWave, State.memOk_orFlags, State.memOk_foldl,
    State.memOk_foldl_fst]

theorem State.memOk_failTile {s : State} (h : s.memOk = true) (t : Tile) (code info : Nat) : (s.failTile t code info).memOk = true := by
  grind [State.failTile, State.memOk_endReads, State.memOk_tileRead, State.memOk_dropRops, State.memOk_updAsu, State.memOk_updWave,
    State.memOk_opDone, State.memOk_noteEnd, State.memOk_asOp, State.memOk_settleBins, State.memOk_evalToks, State.memOk_foldl, State.memOk_foldl_fst]

theorem State.memOk_startCall {s : State} (h : s.memOk = true) (w : Wave) (c : ACall) : (s.startCall w c).memOk = true := by
  grind [State.startCall, State.memOk_updWave, State.memOk_dropPend, State.memOk_updAsu]

theorem memOk_ncallLane (c : Ctx) {s : State} (h : s.memOk = true) (l : Nat) : (ncallLane c s l).1.memOk = true := by
  grind [ncallLane, State.memOk_noteVa, State.memOk_startCall]

theorem State.memOk_pinSet {s : State} (h : s.memOk = true) (w : Wave) (a r : Nat) : (s.pinSet w a r).1.memOk = true := by
  grind [State.pinSet, State.memOk_wcPin, State.memOk_updWc, State.memOk_foldl, State.memOk_foldl_fst]

theorem memOk_texnLane (c : Ctx) {s : State} (h : s.memOk = true) (l : Nat) : (texnLane c s l).1.memOk = true := by
  grind [texnLane, State.memOk_noteRead, State.memOk_noteVa, State.memOk_startCall]

/-! ## Traversal -/

theorem memOk_rayRead {s : State} (h : s.memOk = true) (r : Ray) (va n : Nat) {k : State → Nat → RAcc}
    (hk : ∀ s b, s.memOk = true → (k s b).1.memOk = true) :
    (rayRead s r va n k).1.memOk = true := by
  grind [rayRead, State.memOk_hold, State.memOk_meetUe, State.memOk_noteRead]

theorem memOk_withTable {s : State} (h : s.memOk = true) (r : Ray) {k : State → Ray → Nat → RAcc}
    (hk : ∀ s r b, s.memOk = true → (k s r b).1.memOk = true) :
    (withTable s r k).1.memOk = true := by
  unfold withTable
  split
  · exact h
  · refine memOk_rayRead h _ _ _ (fun s b hs => ?_)
    split
    · exact hs
    · exact hk _ _ _ hs

theorem memOk_withEntry {s : State} (h : s.memOk = true) (r : Ray) (c : RayHit) (e : Nat) (k : Ray → Nat → Ray) :
    (withEntry s r c e k).1.memOk = true := by
  grind [withEntry, memOk_withTable, memOk_rayRead]

theorem memOk_offer {s : State} (h : s.memOk = true) (btu : Bool) (r : Ray) (c : RayHit) (e : Nat) : (offer s btu r c e).1.memOk = true := by
  unfold offer
  (repeat' split) <;> simp only [memOk_withEntry, h]

theorem memOk_primItem {s : State} (h : s.memOk = true) (btu : Bool) (r : Ray) (i a : Nat) (inst : Option Nat) :
    (primItem s btu r i a inst).1.memOk = true := by
  grind [primItem, memOk_rayRead, memOk_offer]

theorem memOk_refItem {s : State} (h : s.memOk = true) (r : Ray) (i root ref : Nat) (inst : Option Nat) :
    (refItem s r i root ref inst).1.memOk = true := by
  grind [refItem, memOk_rayRead]

theorem memOk_rayItem {s : State} (h : s.memOk = true) (btu : Bool) (r : Ray) (i : Nat) : (rayItem s btu r i).1.memOk = true := by
  grind [rayItem, memOk_rayRead, memOk_refItem, memOk_primItem]

theorem memOk_rayEnd {s : State} (h : s.memOk = true) (r : Ray) : (rayEnd s r).1.memOk = true := by
  grind [rayEnd, memOk_withTable, memOk_withEntry]

theorem memOk_rayStep {s : State} (h : s.memOk = true) (btu : Bool) (r : Ray) : (rayStep s btu r).1.memOk = true := by
  grind [rayStep, memOk_rayEnd, memOk_rayItem]

/-! ## Rays and beams -/

theorem State.memOk_updRtu {s : State} (h : s.memOk = true) (f : Rtu → Rtu) : (s.updRtu f).memOk = true := h

theorem State.memOk_updRay {s : State} (h : s.memOk = true) (cl id : Nat) (f : Ray → Ray) : (s.updRay cl id f).memOk = true := by
  unfold State.updRay
  simp only [State.memOk_updRtu, h]

theorem State.memOk_updBeam {s : State} (h : s.memOk = true) (cl id : Nat) (f : Beam → Beam) : (s.updBeam cl id f).memOk = true := by
  unfold State.updBeam
  simp only [State.memOk_updRtu, h]

theorem State.memOk_seatRay {s : State} (h : s.memOk = true) (r : Ray) : (s.seatRay r).memOk = true := by
  unfold State.seatRay
  (repeat' split) <;> simp only [State.memOk_resume, h]

theorem State.memOk_asRay {s : State} (h : s.memOk = true) (r : Ray) : (s.asRay r).memOk = true := by
  unfold State.asRay
  simp only [State.memOk_asOp, h]

theorem State.memOk_rayOut {s : State} (h : s.memOk = true) (r : Ray) (status code info : Nat) : (s.rayOut r status code info).memOk = true := by
  grind [State.rayOut, State.memOk_updRtu, State.memOk_endReads, State.memOk_dropRops, State.memOk_updBeam, State.memOk_failTok,
    State.memOk_clearTok, State.memOk_opDone, State.memOk_noteEnd]

theorem State.memOk_landRay {s : State} (h : s.memOk = true) (r : Ray) (status code info : Nat) : (s.landRay r status code info).memOk = true := by
  grind [State.landRay, State.memOk_asRay, State.memOk_updRay, State.memOk_opDone, State.memOk_hold, State.memOk_rayOut, State.memOk_writeAll]

theorem State.memOk_updCb {s : State} (h : s.memOk = true) (f : CbLane → CbLane) : (s.updCb f).memOk = true := h

theorem State.memOk_takeExit {s : State} (h : s.memOk = true) (r : Ray) (kind : Nat) : (s.takeExit r kind).memOk = true := by
  grind [State.takeExit, State.memOk_updRay, State.memOk_updCb, State.memOk_endHandler]

theorem State.memOk_commitRay {a : RAcc} (h : a.1.memOk = true) : (State.commitRay a).memOk = true := by
  grind [State.commitRay, State.memOk_dropRops, State.memOk_opDone, State.memOk_updRay]

theorem memOk_callbackWave {s : State} (h : s.memOk = true) (g : Region) (cl core : Nat) (r : Ray) (entry : Nat) {t : State}
    (e : callbackWave s g cl core r entry = some t) :
    t.memOk = true := by
  obtain ⟨u, hu, rfl⟩ := Option.map_eq_some_iff.mp e
  exact State.memOk_foldl (fun s x hs => State.memOk_updRay hs _ _ _) _ (State.memOk_startHandler h _ _ _ _ _ _ _ _ _ _ _ _ hu)

theorem State.memOk_addRay {s : State} (h : s.memOk = true) (r : Ray) : (s.addRay r).memOk = true := by
  grind [State.addRay, State.memOk_updRtu, State.memOk]

theorem memOk_rtraceLane (c : Ctx) {s : State} (h : s.memOk = true) (l : Nat) : (rtraceLane c s l).1.memOk = true := by
  unfold rtraceLane
  (repeat' split) <;> grind [State.memOk_noteRead, State.memOk_updWave, State.memOk_addRay, State.memOk]

theorem memOk_rldLane (f : EngFn) (c : Ctx) {s : State} (h : s.memOk = true) (l : Nat) : (rldLane f c s l).1.memOk = true := by
  unfold rldLane
  (repeat' split) <;> grind [State.memOk_noteHits, State.memOk_touch, State.memOk_meetUe, State.memOk_noteRead, State.memOk]

theorem memOk_rstLane (f : EngFn) (c : Ctx) {s : State} (h : s.memOk = true) (l : Nat) : (rstLane f c s l).1.memOk = true := by
  grind [rstLane, State.memOk_putAs]

theorem memOk_rverdLane (f : EngFn) (c : Ctx) {s : State} (h : s.memOk = true) (l : Nat) : (rverdLane f c s l).1.memOk = true := by
  grind [rverdLane, State.memOk_updWave, State.memOk_updRay]

theorem memOk_rpoolLane (c : Ctx) {s : State} (h : s.memOk = true) (l : Nat) : (rpoolLane c s l).1.memOk = true := by
  grind [rpoolLane, State.memOk_updRay, State.memOk_seatRay, State.memOk_updCb]

theorem memOk_beamLane (c : Ctx) {s : State} (h : s.memOk = true) (l : Nat) : (beamLane c s l).1.memOk = true := by
  grind [beamLane, State.memOk_noteVa, State.memOk_updWave, State.memOk_updRtu, State.memOk]

theorem memOk_beamStop {s : State} (h : s.memOk = true) (b : Beam) (e : LFault) : (beamStop s b e).1.memOk = true := by
  unfold beamStop
  (repeat' split) <;> simp only [State.memOk_hold, h]

theorem memOk_beamWrite {s : State} (h : s.memOk = true) (b : Beam) (ls : Except LFault (List (Nat × Loc))) (bs : List Byte) {k : State → BAcc}
    (hk : ∀ s, s.memOk = true → (k s).1.memOk = true) :
    (beamWrite s b ls bs k).1.memOk = true := by
  unfold beamWrite
  split
  · exact memOk_beamStop h _ _
  · dsimp only
    split
    · exact memOk_beamStop (State.memOk_writeAll h _ _ _) _ _
    · exact hk _ (State.memOk_writeAll h _ _ _)

theorem memOk_splitPixel {s : State} (h : s.memOk = true) (b : Beam) : (splitPixel s b).1.memOk = true := by
  grind [splitPixel, memOk_beamWrite, State.memOk_addRay]

theorem memOk_beamPixel {s : State} (h : s.memOk = true) (b : Beam) : (beamPixel s b).1.memOk = true := by
  grind [beamPixel, memOk_splitPixel, memOk_rayStep]

theorem memOk_beamEntry {s : State} (h : s.memOk = true) (b : Beam) : (beamEntry s b).1.memOk = true := by
  grind [beamEntry, memOk_beamWrite]

theorem State.memOk_beamStep {s : State} (h : s.memOk = true) (b : Beam) {f : State → Beam → BAcc}
    (hf : ∀ s b, s.memOk = true → (f s b).1.memOk = true) :
    (s.beamStep b f).memOk = true := by
  have ha := hf _ b (State.memOk_asOp h (.beam b.id) (.cluster b.cl) b.view)
  grind [State.beamStep, State.memOk_dropRops, State.memOk_opDone, State.memOk_updBeam]

theorem State.memOk_landBeam {s : State} (h : s.memOk = true) (b : Beam) : (s.landBeam b).memOk = true := by
  grind [State.landBeam, State.memOk_updRtu, State.memOk_asOp, State.memOk_endReads, State.memOk_dropRops, State.memOk_failTok, State.memOk_clearTok,
    State.memOk_opDone, State.memOk_noteEnd]

theorem State.memOk_failBeam {s : State} (h : s.memOk = true) (b : Beam) (code info : Nat) : (s.failBeam b code info).memOk = true := by
  grind [State.failBeam, State.memOk_updRtu, State.memOk_updCb, State.memOk_landBeam]

theorem State.memOk_failRay {s : State} (h : s.memOk = true) (cl id code info : Nat) : (s.failRay cl id code info).memOk = true := by
  grind [State.failRay, State.memOk_seatRay, State.memOk_updCb, State.memOk_updRay]

/-! ## The network -/

theorem State.memOk_updFlight {s : State} (h : s.memOk = true) (f : Flight → Flight) : (s.updFlight f).memOk = true := h

theorem State.memOk_copiesFor {s : State} (h : s.memOk = true) (q : MReq) (bytes : List Byte) : (s.copiesFor q bytes).memOk = true := by
  grind [State.copiesFor, State.memOk_updCts, State.memOk_foldl, State.memOk_foldl_fst, State.memOk]

theorem State.memOk_placeReq {s : State} (h : s.memOk = true) (q : MReq) : (s.placeReq q).memOk = true := by
  unfold State.placeReq
  simp only [State.memOk_updFlight, h]

theorem State.memOk_joinEntry {s : State} (h : s.memOk = true) (q : MReq) (e : MEntry) : (s.joinEntry q e).memOk = true := by
  grind [State.joinEntry, State.memOk_updFlight, State.memOk_placeReq, State.memOk_copiesFor]

theorem State.memOk_openEntry {s : State} (h : s.memOk = true) (q : MReq) : (s.openEntry q).memOk = true := by
  grind [State.openEntry, State.memOk_placeReq, State.memOk_updFlight, State.memOk]

theorem State.memOk_admitReq {s : State} (h : s.memOk = true) (q : MReq) : (s.admitReq q).memOk = true := by
  unfold State.admitReq
  (repeat' split) <;> simp only [State.memOk_joinEntry, State.memOk_openEntry, State.memOk_placeReq, h]

theorem State.memOk_closeEntries {s : State} (h : s.memOk = true) (slice : Nat) : (s.closeEntries slice).memOk = true := by
  grind [State.closeEntries, State.memOk_updFlight, State.memOk_admitReq, State.memOk_foldl, State.memOk_foldl_fst]

theorem State.memOk_arriveReq {s : State} (h : s.memOk = true) (k : Nat) : (s.arriveReq k).memOk = true := by
  unfold State.arriveReq
  (repeat' split) <;> simp only [State.memOk_admitReq, State.memOk_closeEntries, h]

theorem memOk_updFill (k : Nat) {s : State} (h : s.memOk = true) (f : Place → View → View) : (updFill k s f).memOk = true := by
  unfold updFill
  simp only [State.memOk_updFlight, State.memOk_updReader, h]

theorem State.memOk_fillLines {s : State} (h : s.memOk = true) (e : MEntry) : (s.fillLines e).memOk = true := by
  grind [State.fillLines, State.memOk_touchLine, State.memOk_foldl, State.memOk_foldl_fst]

theorem State.memOk_mcastUe {s : State} (h : s.memOk = true) (q : MReq) (off : Nat) : (s.mcastUe q off).memOk = true := by
  unfold State.mcastUe
  simp only [State.memOk_clearTok, State.memOk_updThread, h]

theorem State.memOk_failFill {s : State} (h : s.memOk = true) (e : MEntry) {f : State → MReq → State}
    (hf : ∀ s q, s.memOk = true → (f s q).memOk = true) :
    (s.failFill e f).memOk = true :=
  State.memOk_closeEntries (State.memOk_foldl hf _ (State.memOk_updFlight h _)) _

theorem State.memOk_fillStop {s : State} (h : s.memOk = true) (e : MEntry) (f : LFault) : (s.fillStop e f).memOk = true := by
  grind [State.fillStop, State.memOk_hold, State.memOk_failFill, State.memOk_mcastUe, State.memOk_failTok]

theorem State.memOk_endCopy {s : State} (h : s.memOk = true) (c : MCopy) : (s.endCopy c).memOk = true := by
  grind [State.endCopy, State.memOk_updCts, State.memOk_updFlight, State.memOk_opDone, State.memOk_asOp, State.memOk_noteEnd, State.memOk_clearTok]

theorem State.memOk_ringWrite {s : State} (h : s.memOk = true) (cl cb off : Nat) (bs : List Byte) (pads : List Bool) :
    (s.ringWrite cl cb off bs pads).memOk = true := by
  grind [State.ringWrite, State.memOk_store, State.memOk_setPad, State.memOk_foldl, State.memOk_foldl_fst]

theorem State.memOk_afterFreed {s : State} (h : s.memOk = true) (cl cb : Nat) : (s.afterFreed cl cb).memOk = true := by
  unfold State.afterFreed
  simp only [State.memOk_updReader, h]

theorem State.memOk_landCopy {s : State} (h : s.memOk = true) (c : MCopy) : (s.landCopy c).memOk = true := by
  grind [State.landCopy, State.memOk_updCts, State.memOk_grantClaim, State.memOk_endCopy, State.memOk_settleClaim, State.memOk_ringWrite,
    State.memOk_afterFreed]

theorem State.memOk_updXfer {s : State} (h : s.memOk = true) (id : Nat) (f : Xfer → Xfer) : (s.updXfer id f).memOk = true := by
  unfold State.updXfer
  simp only [State.memOk_updCts, h]

theorem State.memOk_setDst {s : State} (h : s.memOk = true) (x : Xfer) (d : Nat) (v : XferDst) : (s.setDst x d v).memOk = true := by
  unfold State.setDst
  simp only [State.memOk_updXfer, h]

theorem State.memOk_dropDsts {s : State} (h : s.memOk = true) (bus : Nat) : (s.dropDsts bus).memOk = true := by
  grind [State.dropDsts, State.memOk_setDst, State.memOk_count, State.memOk_foldl, State.memOk_foldl_fst]

theorem State.memOk_asXfer {s : State} (h : s.memOk = true) (x : Xfer) : (s.asXfer x).memOk = true := by
  unfold State.asXfer
  (repeat' split) <;> simp only [State.memOk_asTask, h]

theorem State.memOk_xferDone {s : State} (h : s.memOk = true) (x : Xfer) : (s.xferDone x).memOk = true := by
  unfold State.xferDone
  (repeat' split) <;> simp only [State.memOk_taskDone, h]

theorem State.memOk_beatDone {s : State} (h : s.memOk = true) (x : Xfer) (n0 : Nat) : (s.beatDone x n0).memOk = true := by
  unfold State.beatDone
  (repeat' split) <;> simp only [State.memOk_xferDone, State.memOk_updReader, h]

theorem State.memOk_landBeat {s : State} (h : s.memOk = true) (x : Xfer) (bs : List Byte) (pads : List Bool) (p : Nat × XferDst) :
    (s.landBeat x bs pads p).memOk = true := by
  grind [State.landBeat, State.memOk_grantClaim, State.memOk_ringWrite, State.memOk_afterFreed, State.memOk_setDst, State.memOk_growClaim]

theorem State.memOk_startDrain {s : State} (h : s.memOk = true) (part : Nat) : (s.startDrain part).memOk = true := by
  unfold State.startDrain
  simp only [State.memOk_updSvc, h]

theorem State.memOk_nextDrain {s : State} (h : s.memOk = true) : (s.nextDrain).memOk = true := by
  unfold State.nextDrain
  (repeat' split) <;> simp only [State.memOk_startDrain, State.memOk_updSvc, h]

theorem State.memOk_moveMsg {s : State} (h : s.memOk = true) (m : AMsg) (st : AmStage) : (s.moveMsg m st).memOk = true := by
  unfold State.moveMsg
  simp only [State.memOk_updCts, h]

theorem memOk_amsgLane (f : EngFn) (c : Ctx) {s : State} (h : s.memOk = true) (l : Nat) : (amsgLane f c s l).1.memOk = true := by
  grind [amsgLane, State.memOk_meetUeAt, State.memOk_updWave, State.memOk_updCts, State.memOk]

theorem State.memOk_dropMsg {s : State} (h : s.memOk = true) (id : Nat) : (s.dropMsg id).memOk = true := by
  unfold State.dropMsg
  simp only [State.memOk_updCts, h]

theorem State.memOk_messageDone {s : State} (h : s.memOk = true) (m : AMsg) : (s.messageDone m).memOk = true := by
  grind [State.messageDone, State.memOk_opDone, State.memOk_noteEnd, State.memOk_clearTok, State.memOk_asOp]

theorem State.memOk_leaveRelay {s : State} (h : s.memOk = true) (m : AMsg) : (s.leaveRelay m).memOk = true := by
  unfold State.leaveRelay
  (repeat' split) <;> simp only [State.memOk_moveMsg, State.memOk_send, State.memOk_failTok, State.memOk_dropMsg, State.memOk_messageDone, h]

theorem State.memOk_startAm {s : State} (h : s.memOk = true) (m : AMsg) (cl core : Nat) {t : State} (e : s.startAm m cl core = some t) :
    t.memOk = true := by
  unfold State.startAm at e
  split at e
  · cases e
  · split at e
    · split at e
      · cases e
      · obtain ⟨u, hu, rfl⟩ := Option.map_eq_some_iff.mp e
        exact State.memOk_dropMsg (State.memOk_startHandler h _ _ _ _ _ _ _ _ _ _ _ _ hu) _
    · cases e

/-! ## Translation -/

theorem State.memOk_fillPtr {s : State} (h : s.memOk = true) (e : PtrEntry) : (s.fillPtr e).memOk = true := h

theorem State.memOk_fillPath {s : State} (h : s.memOk = true) (va : Nat) (path : List (Tag × Nat × Nat)) : (s.fillPath va path).memOk = true := by
  grind [State.fillPath, State.memOk_fillPtr, State.memOk_foldl, State.memOk_foldl_fst]

theorem State.memOk_fillFor {s : State} (h : s.memOk = true) (q : WalkReq) (part ptroot : Nat) (tag : Tag) (l : Leaf) (path : List (Tag × Nat × Nat))
    :
    (s.fillFor q part ptroot tag l path).memOk = true := by
  grind [State.fillFor, State.memOk_fillTlb, State.memOk_fillTop, State.memOk_foldl, State.memOk_foldl_fst]

theorem State.memOk_answerOp {s : State} (h : s.memOk = true) (w : Who) (f : Option (Nat × Nat)) : (s.answerOp w f).memOk = true := by
  unfold State.answerOp
  (repeat' split) <;> grind [State.memOk_updTask, State.memOk]

theorem State.memOk_failWalk {s : State} (h : s.memOk = true) (uid lane : Nat) (q : WalkReq) (f : LFault) :
    (s.failWalk uid lane q f).memOk = true := by
  grind [State.failWalk, State.memOk_parkFailed, State.memOk_resume, State.memOk_updThread, State.memOk_wakeLane, State.memOk_markFailed,
    State.memOk_foldl, State.memOk_foldl_fst]

theorem State.memOk_deliverWalk {s : State} (h : s.memOk = true) (w : WalkRes) (path : List (Tag × Nat × Nat)) (q : WalkReq) :
    (s.deliverWalk w path q).memOk = true := by
  grind [State.deliverWalk, State.memOk_fillFor, State.memOk_wakeLane, State.memOk_answerOp, State.memOk_failWalk, State.memOk]

theorem State.memOk_endWalk {s : State} (h : s.memOk = true) (m : Miss) (va : Nat) (w : WalkRes) (path : List (Tag × Nat × Nat)) :
    (s.endWalk m va w path).memOk = true := by
  unfold State.endWalk
  (repeat' split) <;> grind [State.memOk_admitMisses, State.memOk_fillPath, State.memOk_count, State.memOk_deliverWalk, State.memOk_foldl,
    State.memOk_foldl_fst, State.memOk]

theorem State.memOk_pageWalk {s : State} (h : s.memOk = true) (rid va : Nat) : (s.pageWalk rid va).memOk = true := by
  unfold State.pageWalk
  (repeat' split) <;> simp only [State.memOk_endWalk, h]

/-! ## Debug -/

theorem State.memOk_quadStop {s : State} (h : s.memOk = true) (cl core q : Nat) : (s.quadStop cl core q).memOk = true := by
  unfold State.quadStop
  (repeat' split) <;> simp only [State.memOk_stopQuad, h]

theorem State.memOk_runOn {s : State} (h : s.memOk = true) (cl core q : Nat) : (s.runOn cl core q).memOk = true := by
  grind [State.runOn, State.memOk_setCsr, State.memOk_evalBarsOf, State.memOk_evalMasks, State.memOk_foldl, State.memOk_foldl_fst, State.memOk]

theorem State.memOk_quadResume {s : State} (h : s.memOk = true) (cl core q : Nat) : (s.quadResume cl core q).memOk = true := by
  unfold State.quadResume
  (repeat' split) <;> simp only [State.memOk_runOn, h]

theorem State.memOk_quadStep {s : State} (h : s.memOk = true) (cl core q : Nat) : (s.quadStep cl core q).memOk = true := by
  unfold State.quadStep
  (repeat' split) <;> exact h

theorem State.memOk_quadDump {s : State} (h : s.memOk = true) (cl core q : Nat) : (s.quadDump cl core q).memOk = true := by
  unfold State.quadDump
  simp only [State.memOk_setCsr, h]

theorem State.memOk_svcWrite {s : State} (h : s.memOk = true) (a : Nat) (bs : List Byte) : (s.svcWrite a bs).memOk = true := by
  unfold State.svcWrite
  (repeat' split) <;> simp only [State.memOk_store, h]

theorem State.memOk_dropAtom {s : State} (h : s.memOk = true) (uid : Nat) (r : RegRef) : (s.dropAtom uid r).memOk = true := h

theorem State.memOk_dbgReg {s : State} (h : s.memOk = true) (w : Wave) (r : RegRef) (v : Word) : (s.dbgReg w r v).memOk = true := by
  unfold State.dbgReg
  (repeat' split) <;> grind [State.memOk_dropAtom, State.memOk_dropPend, State.memOk_updWave, State.memOk]

theorem State.memOk_dbgPc {s : State} (h : s.memOk = true) (w : Wave) (lane : Nat) (pc : VA) : (s.dbgPc w lane pc).memOk = true := by
  unfold State.dbgPc
  cases (w.thread lane).st with
  | parked | exited | notLaunched => exact h
  | tokenWait | syncWait =>
    exact State.memOk_evalBarsOf (State.memOk_evalGjoins (State.memOk_evalMasks (State.memOk_updThread (State.memOk_withdraw h _ _) _ _ _) _) _) _
  | _ => exact State.memOk_updThread h _ _ _

theorem State.memOk_debugWrite {s : State} (h : s.memOk = true) (cl core tgt : Nat) : (s.debugWrite cl core tgt).memOk = true := by
  grind [State.debugWrite, State.memOk_dbgReg, State.memOk_updThread, State.memOk_dbgPc, State.memOk_updWave]

theorem State.memOk_debugRead {s : State} (h : s.memOk = true) (cl core tgt : Nat) : (s.debugRead cl core tgt).memOk = true := by
  unfold State.debugRead
  simp only [State.memOk_setCsr, h]

theorem State.memOk_landAhead {s : State} (h : s.memOk = true) (uid lane : Nat) : (s.landAhead uid lane).memOk = true := by
  grind [State.landAhead, State.memOk_updFlight, State.memOk_updWave, State.memOk_foldl, State.memOk_foldl_fst]

theorem State.memOk_watchLand {s : State} (h : s.memOk = true) (h : Hit) : (s.watchLand h).memOk = true := by
  grind [State.watchLand, State.memOk_updThread, State.memOk_landAhead]

theorem State.memOk_watchEnd {s : State} (h : s.memOk = true) (grp : Nat) : (s.watchEnd grp).memOk = true := by
  grind [State.watchEnd, State.memOk_updFlight, State.memOk_stopQuad, State.memOk_park, State.memOk_watchLand, State.memOk_foldl,
    State.memOk_foldl_fst]

theorem State.memOk_writeSample {s : State} (h : s.memOk = true) (k : Nat × Nat × Nat) (x : Tagged) : (s.writeSample k x).memOk = true := by
  unfold State.writeSample
  extract_lets r log head
  split
  · exact State.memOk_count h _ _ _
  · exact State.memOk_count (State.memOk_svcWrite h _ _) _ _ _

/-! ## Control registers -/

theorem State.memOk_writeDqctl {s : State} (h : s.memOk = true) (root : Bool) (cl core q v : Nat) : (s.writeDqctl root cl core q v).memOk = true := by
  grind [State.writeDqctl, State.memOk_setCsr, State.memOk_quadStop, State.memOk_quadResume, State.memOk_quadStep, State.memOk_quadDump]

theorem State.memOk_csrWrite {s : State} (h : s.memOk = true) (root : Bool) (a : Nat) (sh : CsrShape) (v : Nat) :
    (s.csrWrite root a sh v).memOk = true := by
  grind [State.csrWrite, State.memOk_setCsr, State.memOk_writeDqctl, State.memOk_debugWrite, State.memOk_debugRead, State.memOk]

theorem State.memOk_countStalls {s : State} (h : s.memOk = true) : (s.countStalls).memOk = true := by
  grind [State.countStalls, State.memOk_stallUnit, State.memOk_foldl, State.memOk_foldl_fst]

theorem State.memOk_loseSlot {s : State} (h : s.memOk = true) (cl core q : Nat) : (s.loseSlot cl core q).memOk = true := by
  grind [State.loseSlot, State.memOk_updSvc]

/-! ## The host link -/

theorem State.memOk_updLink {s : State} (h : s.memOk = true) (f : Link → Link) : (s.updLink f).memOk = true := h

theorem State.memOk_asQueue {s : State} (h : s.memOk = true) (qp : Nat) : (s.asQueue qp).memOk = true := h

theorem State.memOk_queueDone {s : State} (h : s.memOk = true) (qp : Nat) : (s.queueDone qp).memOk = true := by
  unfold State.queueDone
  simp only [State.memOk_updLink, State.memOk_opDone, h]

theorem State.memOk_arrive {s : State} (h : s.memOk = true) (c : Conn) (p : Pkt) {f : State → State} (hf : ∀ s, s.memOk = true → (f s).memOk = true) :
    (s.arrive c p f).memOk = true := by
  have hn : (if p.ce then s.send (.cnp c) else s).memOk = true := by
    split
    · exact State.memOk_send h _
    · exact h
  unfold State.arrive
  split
  · exact h
  · extract_lets u n want behind
    split
    · exact hf _ (State.memOk_updLink hn _)
    · split
      · exact State.memOk_send hn _
      · exact State.memOk_send hn _

theorem State.memOk_hostWrite {s : State} (h : s.memOk = true) (qp rid va : Nat) (bytes : List Byte) :
    (s.hostWrite qp rid va bytes).1.memOk = true := by
  grind [State.hostWrite, State.memOk_hold, State.memOk_writeAll]

theorem State.memOk_hostRead {s : State} (h : s.memOk = true) (qp rid va len : Nat) : (s.hostRead qp rid va len).1.memOk = true := by
  unfold State.hostRead
  (repeat' split) <;> grind [State.memOk_hold, State.memOk_meetUe, State.memOk_take, State.memOk]

theorem State.memOk_hostOp {s : State} (h : s.memOk = true) (qp : Nat) (op : HostOp) : (s.hostOp qp op).1.memOk = true := by
  unfold State.hostOp
  (repeat' split) <;> simp only [State.memOk_hostWrite, State.memOk_hostRead, State.memOk_updLink, h]

theorem State.memOk_runHops (qp n : Nat) {s : State} (h : s.memOk = true) : (State.runHops qp n s).memOk = true := by
  induction n generalizing s with
  | zero => exact h
  | succ n ih =>
    unfold State.runHops
    split
    · exact h
    · next id op _ =>
      have ho := State.memOk_hostOp (State.memOk_asQueue h qp) qp op
      dsimp only
      split
      · exact State.memOk_opDone ho
      · exact ih (State.memOk_send (State.memOk_updLink (State.memOk_endReads (State.memOk_dropRops (State.memOk_queueDone ho _) _) _) _) _)

theorem State.memOk_resumeHost {s : State} (h : s.memOk = true) (qp : Nat) : (s.resumeHost qp).memOk = true := by
  unfold State.resumeHost
  simp only [State.memOk_runHops, h]

theorem State.memOk_addHop {s : State} (h : s.memOk = true) (qp : Nat) (op : HostOp) : (s.addHop qp op).memOk = true := by
  grind [State.addHop, State.memOk_resumeHost, State.memOk_updLink, State.memOk]

theorem State.memOk_complete {s : State} (h : s.memOk = true) (cpl tag stat result : Nat) : (s.complete cpl tag stat result).memOk = true := by
  unfold State.complete
  (repeat' split) <;> simp only [State.memOk_svcWrite, h]

theorem State.memOk_startRoot {s : State} (h : s.memOk = true) (k : Nat) (r : Req) {t : State} (e : s.startRoot k r = some t) : t.memOk = true := by
  unfold State.startRoot at e
  split at e
  · cases e
  · split at e
    · cases e
    · obtain ⟨u, hu, rfl⟩ := Option.map_eq_some_iff.mp e
      exact State.memOk_updLink (State.memOk_startHandler h _ _ _ _ _ _ _ _ _ _ _ _ hu) _

theorem State.memOk_clearQueue {s : State} (h : s.memOk = true) (rid : Nat) : (s.clearQueue rid).memOk = true := by
  unfold State.clearQueue
  (repeat' split) <;> simp only [State.memOk_store, h]

theorem State.memOk_writeTop {s : State} (h : s.memOk = true) (rid : Nat) : (s.writeTop rid).memOk = true := by
  grind [State.writeTop, State.memOk_store, State.memOk_foldl, State.memOk_foldl_fst]

theorem State.memOk_asPeer {s : State} (h : s.memOk = true) (n : Nat) (a : PeerAcc) : (s.asPeer n a).memOk = true := h

theorem State.memOk_peerRead {s : State} (h : s.memOk = true) (c : Conn) (rid va len id : Nat) (seen : List Nat) :
    (s.peerRead c rid va len id seen).1.memOk = true := by
  unfold State.peerRead
  (repeat' split) <;> grind [State.memOk_meetUe, State.memOk_take, State.memOk]

theorem State.memOk_peerWrite {s : State} (h : s.memOk = true) (c : Conn) (rid va : Nat) (bs : List Byte) (id : Nat) (seen : List Nat) :
    (s.peerWrite c rid va bs id seen).1.memOk = true := by
  grind [State.peerWrite, State.memOk_writeAll]

theorem State.memOk_redInto {s : State} (h : s.memOk = true) (xop xty : Nat) (ls : List Loc) (bs : List Byte) :
    (s.redInto xop xty ls bs).memOk = true := by
  grind [State.redInto, State.memOk_storeAs, State.memOk_foldl, State.memOk_foldl_fst]

theorem State.memOk_peerRed {s : State} (h : s.memOk = true) (c : Conn) (task rid va xop xty : Nat) (bs : List Byte) (id : Nat) (seen : List Nat) :
    (s.peerRed c task rid va xop xty bs id seen).1.memOk = true := by
  grind [State.peerRed, State.memOk_meetUe, State.memOk_awaitMsg, State.memOk_redInto, State.memOk_foldl, State.memOk_foldl_fst]

theorem State.memOk_peerOp {s : State} (h : s.memOk = true) (n : Nat) (o : SecOp) (ls : List Loc) : (s.peerOp n o ls).1.memOk = true := by
  unfold State.peerOp
  (repeat' split) <;> grind [State.memOk_storeWith, State.memOk_asPeer, State.memOk_updReader, State.memOk]

theorem State.memOk_peerOps {s : State} (h : s.memOk = true) (n : Nat) (xs : List (SecOp × List Loc)) : (s.peerOps n xs).1.memOk = true := by
  grind [State.peerOps, State.memOk_setPack, State.memOk_peerOp, State.memOk_foldl, State.memOk_foldl_fst]

theorem State.memOk_forward {s : State} (h : s.memOk = true) (n rid : Nat) (xs : List (SecOp × List (Nat × Loc))) :
    (s.forward n rid xs).1.memOk = true := by
  grind [State.forward, State.memOk_send, State.memOk_updLink, State.memOk_foldl, State.memOk_foldl_fst, State.memOk]

theorem State.memOk_peerSector {s : State} (h : s.memOk = true) (c : Conn) (n rid : Nat) (ops : List SecOp) (id : Nat) :
    (s.peerSector c n rid ops id).1.memOk = true := by
  grind [State.peerSector, State.memOk_forward, State.memOk_meetUe, State.memOk_peerOps]

theorem State.memOk_servePeer {s : State} (h : s.memOk = true) (c : Conn) (n : Nat) (m : FabricMsg) : (s.servePeer c n m).1.memOk = true := by
  unfold State.servePeer
  (repeat' split) <;> simp only [State.memOk_peerWrite, State.memOk_asPeer, State.memOk_peerRead, State.memOk_peerRed, State.memOk_peerSector, h]

theorem State.memOk_endInop {s : State} (h : s.memOk = true) (n : Nat) (m : OutMsg) : (s.endInop n m).memOk = true := by
  grind [State.endInop, State.memOk_send, State.memOk_updLink, State.memOk_endReads, State.memOk_dropRops]

theorem State.memOk_serveInop {s : State} (h : s.memOk = true) (n : Nat) : (s.serveInop n).memOk = true := by
  grind [State.serveInop, State.memOk_endInop, State.memOk_servePeer, State.memOk_opDone, State.memOk_hold, State.memOk_addRec, State.memOk_endReads,
    State.memOk_dropRops]

theorem State.memOk_resumePeer {s : State} (h : s.memOk = true) (n : Nat) (exit : Bool) : (s.resumePeer n exit).memOk = true := by
  unfold State.resumePeer
  (repeat' split) <;> simp only [State.memOk_endInop, State.memOk_serveInop, h]

theorem State.memOk_landAtom {s : State} (h : s.memOk = true) (uid lane : Nat) (a : RemAtom) (bs : List Byte) :
    (s.landAtom uid lane a bs).memOk = true := by
  unfold State.landAtom
  simp only [State.memOk_addPend, h]

theorem State.memOk_landPart {s : State} (h : s.memOk = true) (uid lane : Nat) (r : RemOp) (x : RemAns) : (s.landPart uid lane r x).memOk = true := by
  unfold State.landPart
  (repeat' split) <;> simp only [State.memOk_updThread, State.memOk_landAtom, h]

theorem State.memOk_finishWrites {s : State} (h : s.memOk = true) (uid lane : Nat) : (s.finishWrites uid lane).memOk = true := by
  grind [State.finishWrites, State.memOk_updLink, State.memOk_landPart, State.memOk_parkFailed, State.memOk_resume, State.memOk_markFailed,
    State.memOk_updThread, State.memOk_foldl, State.memOk_foldl_fst]

theorem State.memOk_finishReads {s : State} (h : s.memOk = true) (uid lane : Nat) : (s.finishReads uid lane).memOk = true := by
  grind [State.finishReads, State.memOk_wakeLane, State.memOk_foldl, State.memOk_foldl_fst]

theorem State.memOk_settleRop {s : State} (h : s.memOk = true) (w : Who) : (s.settleRop w).memOk = true := by
  unfold State.settleRop
  (repeat' split) <;> simp only [State.memOk_finishReads, State.memOk_finishWrites, State.memOk_resumeHost, State.memOk_serveInop,
    State.memOk_answerOp, h]

theorem State.memOk_answerRops {s : State} (h : s.memOk = true) (id : Nat) (old : List (List Byte)) (fault : Nat) (seen : Seen) :
    (s.answerRops id old fault seen).memOk = true := by
  grind [State.answerRops, State.memOk_updLink, State.memOk_settleRop, State.memOk_foldl, State.memOk_foldl_fst]

theorem State.memOk_answered {s : State} (h : s.memOk = true) (id : Nat) : (s.answered id).memOk = true := by
  grind [State.answered, State.memOk_updLink, State.memOk_landOwed, State.memOk]

theorem State.memOk_answerTask {s : State} (h : s.memOk = true) (t : Task) (bytes : List Byte) (fault : Nat) (ids : List Nat) :
    (s.answerTask t bytes fault ids).memOk = true := by
  unfold State.answerTask
  (repeat' split) <;> simp only [State.memOk_updTask, State.memOk_finishTask, h]

theorem State.memOk_answerMsg {s : State} (h : s.memOk = true) (m : AMsg) (fault : Nat) (ids : List Nat) :
    (s.answerMsg m fault ids).memOk = true := by
  unfold State.answerMsg
  (repeat' split) <;> simp only [State.memOk_dropMsg, State.memOk_messageDone, State.memOk_failTok, h]

theorem State.memOk_answer {s : State} (h : s.memOk = true) (id : Nat) (old : List (List Byte)) (fault : Nat) (seen : Seen) :
    (s.answer id old fault seen).memOk = true := by
  grind [State.answer, State.memOk_answered, State.memOk_answerTask, State.memOk_answerMsg, State.memOk_answerRops]

theorem State.memOk_endGroup {s : State} (h : s.memOk = true) (rid : Nat) : (s.endGroup rid).memOk = true := by
  grind [State.endGroup, State.memOk_updRegion, State.memOk_answer, State.memOk_foldl, State.memOk_foldl_fst]

theorem State.memOk_amsgArrive {s : State} (h : s.memOk = true) (c : Conn) (rid cl index : Nat) (words : List Word) (src peer id : Nat)
    (seen : List Nat) :
    (s.amsgArrive c rid cl index words src peer id seen).memOk = true := by
  grind [State.amsgArrive, State.memOk_send, State.memOk_updCts, State.memOk]

theorem State.memOk_stepFrom {s : State} (h : s.memOk = true) (rid peer step : Nat) (seen : List Nat) :
    (s.stepFrom rid peer step seen).memOk = true := by
  unfold State.stepFrom
  simp only [State.memOk_updRegion, h]

theorem State.memOk_fromPeer {s : State} (h : s.memOk = true) (c : Conn) (msg : FabricMsg) : (s.fromPeer c msg).memOk = true := by
  unfold State.fromPeer
  (repeat' split) <;> grind [State.memOk_answer, State.memOk_amsgArrive, State.memOk_stepFrom, State.memOk_endGroup, State.memOk_serveInop,
    State.memOk_updLink, State.memOk]

theorem State.memOk_flushLink {s : State} (h : s.memOk = true) : (s.flushLink).memOk = true := by
  unfold State.flushLink
  simp only [State.memOk_updLink, h]

/-! ## Slots -/

theorem State.memOk_writeRoutes {s : State} (h : s.memOk = true) (cls : Nat) : (s.writeRoutes cls).memOk = true := by
  unfold State.writeRoutes
  simp only [State.memOk_updSvc, h]

theorem State.memOk_wakeDrained {s : State} (h : s.memOk = true) (mine : Nat → Bool) : (s.wakeDrained mine).memOk = true := by
  grind [State.wakeDrained, State.memOk_wakeLane, State.memOk_foldl, State.memOk_foldl_fst]

theorem State.memOk_endDrain {s : State} (h : s.memOk = true) (part : Nat) : (s.endDrain part).memOk = true := by
  grind [State.endDrain, State.memOk_writeRoutes, State.memOk_updSvc, State.memOk_wakeDrained, State.memOk_updCts, State.memOk_serveInop,
    State.memOk_nextDrain, State.memOk_resumeHost, State.memOk_foldl, State.memOk_foldl_fst, State.memOk]

theorem State.memOk_overdueDrains {s : State} (h : s.memOk = true) : (s.overdueDrains).memOk = true := by
  grind [State.overdueDrains, State.memOk_endDrain, State.memOk_foldl, State.memOk_foldl_fst]

theorem State.memOk_newSlot {s : State} (h : s.memOk = true) : (s.newSlot).memOk = true := by
  grind [State.newSlot, State.memOk_updSvc, State.memOk]

/-! ## System instructions -/

theorem memOk_withCsr (c : Ctx) {s : State} (h : s.memOk = true) {f : Bool → Nat → CsrShape → State × Except LFault UniOut}
    (hf : ∀ r a sh, (f r a sh).1.memOk = true) :
    (withCsr c s f).1.memOk = true := by
  grind [withCsr]

theorem State.memOk_abortTask {s : State} (h : s.memOk = true) (k : Nat) : (s.abortTask k).memOk = true := by
  unfold State.abortTask
  (repeat' split) <;> simp only [State.memOk_dropTask, h]

theorem State.memOk_endRunning {s : State} (h : s.memOk = true) (t : Task) : (s.endRunning t).memOk = true := by
  grind [State.endRunning, State.memOk_finishTask, State.memOk_abortReport, State.memOk_abortRec, State.memOk_updTask]

theorem State.memOk_freeKnotted {s : State} (h : s.memOk = true) (k : Nat) : (s.freeKnotted k).memOk = true := by
  unfold State.freeKnotted
  (repeat' split) <;> simp only [State.memOk_endRunning, State.memOk_abortTask, h]

theorem State.memOk_dropAsked {s : State} (h : s.memOk = true) (e : EngObj) : (s.dropAsked e).memOk = true := by
  unfold State.dropAsked
  (repeat' split) <;> simp only [State.memOk_dropRops, h]

theorem State.memOk_engResume {s : State} (h : s.memOk = true) (e : EngObj) : (s.engResume e).memOk = true := by
  unfold State.engResume
  (repeat' split) <;> simp only [State.memOk_updRay, State.memOk_updBeam, State.memOk_updTile, State.memOk_resumePeer, State.memOk_updTask, h]

theorem State.memOk_engExit {s : State} (h : s.memOk = true) (rid : Nat) (e : EngObj) : (s.engExit rid e).memOk = true := by
  grind [State.engExit, State.memOk_failRay, State.memOk_failBeam, State.memOk_failTile, State.memOk_freeKnotted, State.memOk_resumePeer,
    State.memOk_endRunning, State.memOk_foldl, State.memOk_foldl_fst]

theorem State.memOk_tretNow {s : State} (h : s.memOk = true) (rid hd : Nat) (exit : Bool) (e : EngObj) : (s.tretNow rid hd exit e).memOk = true := by
  grind [State.tretNow, State.memOk_asService, State.memOk_dropAsked, State.memOk_engExit, State.memOk_engResume, State.memOk]

theorem State.memOk_walksAfter {s : State} (h : s.memOk = true) : (s.walksAfter).memOk = true := h

theorem memOk_lanepcLane (f : EngFn) (c : Ctx) {s : State} (h : s.memOk = true) (l : Nat) : (lanepcLane f c s l).1.memOk = true := by
  grind [lanepcLane, State.memOk_updThread, State.memOk_writeMask, State.memOk]

theorem State.memOk_dropTlb {s : State} (h : s.memOk = true) (e : TlbEntry → Bool) (t : TopEntry → Bool) (p : PtrEntry → Bool) :
    (s.dropTlb e t p).memOk = true := h

theorem State.memOk_tlbop {s : State} (h : s.memOk = true) (r : Region) (sub va sid : Nat) : (s.tlbop r sub va sid).memOk = true := by
  unfold State.tlbop
  (repeat' split) <;> simp only [State.memOk_dropTlb, h]

theorem State.memOk_settleOld {s : State} (h : s.memOk = true) (r : Region) (sub va : Nat) (y : WSync) : (s.settleOld r sub va y).memOk = true := by
  grind [State.settleOld, State.memOk_arriveReq, State.memOk_foldl, State.memOk_foldl_fst, State.memOk]

theorem memOk_idleUni (i : Hdr) (c : Ctx) {s : State} (h : s.memOk = true) (l : Nat) : (idleUni i c s l).1.memOk = true := by
  unfold idleUni
  extract_lets E till
  split
  · exact h
  · split
    · exact h
    · extract_lets now
      split
      · exact h
      · exact h

theorem memOk_idleDeliver (i : Hdr) (c : Ctx) {s : State} (h : s.memOk = true) : (idleDeliver i c s).memOk = true := by
  grind [idleDeliver, State.memOk_deliverUi]

/-! ## The work distributor -/

theorem State.memOk_updWd {s : State} (h : s.memOk = true) (f : Wd → Wd) : (s.updWd f).memOk = true := h

theorem State.memOk_freeCbufs {s : State} (h : s.memOk = true) (g : Gang) : (s.freeCbufs g).memOk = true := by
  grind [State.freeCbufs, State.memOk_endCopy, State.memOk_count, State.memOk_updXfer, State.memOk_updCts, State.memOk_foldl, State.memOk_foldl_fst]

theorem State.memOk_endLaunch {s : State} (h : s.memOk = true) (l : Launch) : (s.endLaunch l).memOk = true := by
  grind [State.endLaunch, State.memOk_reveal, State.memOk_updWd, State.memOk_complete]

theorem State.memOk_dropWaves {s : State} (h : s.memOk = true) (us : List Nat) : (s.dropWaves us).memOk = true := h

theorem State.memOk_retireGang {s : State} (h : s.memOk = true) (g : Gang) : (s.retireGang g).memOk = true := by
  grind [State.retireGang, State.memOk_abortTask, State.memOk_dropWaves, State.memOk_freeCbufs, State.memOk_endLaunch, State.memOk_foldl,
    State.memOk_foldl_fst, State.memOk]

theorem State.memOk_retryOps {s : State} (h : s.memOk = true) (rid : Nat) : (s.retryOps rid).memOk = true := by
  grind [State.retryOps, State.memOk_serveInop, State.memOk_resumeHost, State.memOk_foldl, State.memOk_foldl_fst]

theorem State.memOk_dropRegion {s : State} (h : s.memOk = true) (rid : Nat) : (s.dropRegion rid).memOk = true := by
  grind [State.dropRegion, State.memOk_sendPeers, State.memOk_retryOps, State.memOk]

theorem State.memOk_setShadows {s : State} (h : s.memOk = true) (cl : Nat) (cs : List Nat) (st : ShSt) (due : Bool) (victims : List Nat) :
    (s.setShadows cl cs st due victims).memOk = true := by
  unfold State.setShadows
  simp only [State.memOk_updWd, h]

theorem State.memOk_meetWaves {s : State} (h : s.memOk = true) (us : List Nat) : (s.meetWaves us).memOk = true := by
  grind [State.meetWaves, State.memOk_updWave, State.memOk_foldl, State.memOk_foldl_fst]

theorem State.memOk_loseSlots {s : State} (h : s.memOk = true) (cl : Nat) (cs : List Nat) (all : Bool) (n : Nat) :
    (s.loseSlots cl cs all n).memOk = true := h

theorem State.memOk_swapBanks {s : State} (h : s.memOk = true) (cl : Nat) (cs : List Nat) : (s.swapBanks cl cs).memOk = true := by
  grind [State.swapBanks, State.memOk_meetWaves, State.memOk_updWd, State.memOk_setShadows, State.memOk_loseSlots, State.memOk_foldl,
    State.memOk_foldl_fst, State.memOk]

theorem State.memOk_postImage {s : State} (h : s.memOk = true) (rid va : Nat) (ls : List Loc) (bytes : List Byte) :
    (s.postImage rid va ls bytes).memOk = true := by
  unfold State.postImage
  simp only [State.memOk_updWd, State.memOk_post, h]

theorem State.memOk_saveCore {s : State} (h : s.memOk = true) (set cl core : Nat) : (s.saveCore set cl core).memOk = true := by
  grind [State.saveCore, State.memOk_postImage, State.memOk_updWd, State.memOk_foldl, State.memOk_foldl_fst]

theorem State.memOk_moveTo {s : State} (h : s.memOk = true) (gids uids : List Nat) (b : Bank) : (s.moveTo gids uids b).memOk = true := h

theorem State.memOk_fillDone {s : State} (h : s.memOk = true) (cl : Nat) (cs : List Nat) : (s.fillDone cl cs).memOk = true := by
  grind [State.fillDone, State.memOk_updWd, State.memOk_setShadows, State.memOk]

/-! ## Deadlocks -/

theorem State.memOk_parkKnot {s : State} (h : s.memOk = true) (k : List WEntry) : (s.parkKnot k).memOk = true := by
  grind [State.parkKnot, State.memOk_withdraw, State.memOk_park, State.memOk_evalBarsOf, State.memOk_evalGjoins, State.memOk_evalMasks,
    State.memOk_foldl, State.memOk_foldl_fst]

theorem State.memOk_reportTasks {s : State} (h : s.memOk = true) (k : List WEntry) : (s.reportTasks k).memOk = true := by
  grind [State.reportTasks, State.memOk_addRec, State.memOk_updSvc, State.memOk_foldl, State.memOk_foldl_fst]

theorem State.memOk_reportKnot {s : State} (h : s.memOk = true) (k : List WEntry) : (s.reportKnot k).memOk = true := by
  grind [State.reportKnot, State.memOk_setCsr, State.memOk_parkKnot, State.memOk_reportTasks]

/-! ## Containment -/

theorem State.memOk_dispatched {s : State} (h : s.memOk = true) (rid i : Nat) (q : Rec) (server : Nat) :
    (s.dispatched rid i q server).memOk = true := h

theorem State.memOk_startFault {s : State} (h : s.memOk = true) (r : Region) (i : Nat) (q : Rec) (cl core : Nat) {t : State}
    (e : s.startFault r i q cl core = some t) :
    t.memOk = true := by
  unfold State.startFault at e
  split at e
  · cases e
  · split at e
    · cases e
    · obtain ⟨u, hu, rfl⟩ := Option.map_eq_some_iff.mp e
      exact State.memOk_dispatched (State.memOk_startHandler h _ _ _ _ _ _ _ _ _ _ _ _ hu) _ _ _ _

theorem State.memOk_copyPhys {s : State} (h : s.memOk = true) (src dst n : Nat) : (s.copyPhys src dst n).memOk = true := by
  unfold State.copyPhys
  simp only [State.memOk_store, h]

theorem State.memOk_cowPath {s : State} (h : s.memOk = true) (va tb new lvl t : Nat) (priv : Bool) :
    (s.cowPath va tb new lvl t priv).memOk = true := by
  induction lvl generalizing s t priv with
  | zero => unfold State.cowPath; dsimp only; split; exacts [State.memOk_store h _ _, h]
  | succ lvl ih =>
    unfold State.cowPath
    dsimp only
    split
    · exact State.memOk_store h _ _
    · split
      · exact ih (State.memOk_store (State.memOk_copyPhys h _ _ _) _ _) _ _
      · exact ih h _ _

theorem State.memOk_writeCow {s : State} (h : s.memOk = true) (x : Cow) : (s.writeCow x).memOk = true := by
  unfold State.writeCow
  (repeat' split) <;> simp only [State.memOk_tlbop, State.memOk_cowPath, h]

theorem State.memOk_startCow {s : State} (h : s.memOk = true) (cl rid h va : Nat) (l : Leaf) : (s.startCow cl rid h va l).memOk = true := by
  grind [State.startCow, State.memOk]

theorem State.memOk_cowRead {s : State} (h : s.memOk = true) (x : Cow) (n : Nat) : (s.cowRead x n).1.memOk = true := by
  have ha : ({ s with ord := { s.ord with agent := some ⟨x.who, .op, .port, View.of []⟩ } } : State).memOk = true := h
  unfold State.cowRead
  extract_lets va
  split
  · exact h
  · split
    · exact State.memOk_meetUe h _
    · split
      · split
        · refine State.memOk_opDone ?_
          split
          · exact State.memOk_hold ha _ _ _ _
          · exact ha
        · next e => exact State.memOk_opDone (State.memOk_take ha _ _ e)
      · exact h

theorem State.memOk_endCow {s : State} (h : s.memOk = true) (x : Cow) : (s.endCow x).memOk = true := by
  grind [State.endCow, State.memOk_endReads, State.memOk_dropRops, State.memOk]

theorem State.memOk_advanceCow {s : State} (h : s.memOk = true) (x : Cow) : (s.advanceCow x).memOk = true := by
  unfold State.advanceCow
  split
  · exact State.memOk_endCow (State.memOk_writeCow h _) _
  · have hr := State.memOk_cowRead h x 4096
    split
    · next e =>
      rw [e] at hr
      exact State.memOk_store (State.memOk_endReads (State.memOk_dropRops hr _) _) _ _
    · next e =>
      rw [e] at hr
      have he := State.memOk_endCow hr x
      split
      · exact hr
      · extract_lets u
        split
        · exact he
        · split
          · exact he
          · exact State.memOk_tret he _ _ _ _

theorem State.memOk_svcServe {s : State} (h : s.memOk = true) (rid : Nat) (q : Rec) : (s.svcServe rid q).memOk = true := by
  unfold State.svcServe
  (repeat' split) <;> simp only [State.memOk_tret, State.memOk_tretNow, State.memOk_startCow, h]

theorem State.memOk_beginStep {s : State} (h : s.memOk = true) (rid : Nat) : (s.beginStep rid).memOk = true := by
  unfold State.beginStep
  simp only [State.memOk_updRegion, h]

theorem State.memOk_endCalls {s : State} (h : s.memOk = true) (rids : List Nat) (info : Nat) : (s.endCalls rids info).memOk = true := by
  grind [State.endCalls, State.memOk_updAsu, State.memOk_tileRead, State.memOk_failTok, State.memOk_foldl, State.memOk_foldl_fst]

theorem State.memOk_endTask {s : State} (h : s.memOk = true) (t : Task) : (s.endTask t).memOk = true := by
  grind [State.endTask, State.memOk_completeTask, State.memOk_abortReport, State.memOk_abortRec, State.memOk_updTask, State.memOk_abortTask]

theorem State.memOk_endMcasts {s : State} (h : s.memOk = true) (rids : List Nat) : (s.endMcasts rids).memOk = true := by
  grind [State.endMcasts, State.memOk_updFlight, State.memOk_updCts, State.memOk_clearTok, State.memOk_foldl, State.memOk_foldl_fst]

theorem State.memOk_endMsgs {s : State} (h : s.memOk = true) (rids : List Nat) : (s.endMsgs rids).memOk = true := by
  grind [State.endMsgs, State.memOk_updCts, State.memOk_send, State.memOk_clearTok, State.memOk_foldl, State.memOk_foldl_fst]

theorem State.memOk_endFetchw {s : State} (h : s.memOk = true) (rids : List Nat) : (s.endFetchw rids).memOk = true := by
  grind [State.endFetchw, State.memOk_updCts, State.memOk_clearTok, State.memOk_store, State.memOk_foldl, State.memOk_foldl_fst]

theorem State.memOk_endRay {s : State} (h : s.memOk = true) (r : Ray) (info : Nat) : (s.endRay r info).memOk = true := by
  grind [State.endRay, State.memOk_seatRay, State.memOk_post, State.memOk_rayOut, State.memOk_asRay]

theorem State.memOk_endRays {s : State} (h : s.memOk = true) (rids : List Nat) (info : Nat) : (s.endRays rids info).memOk = true := by
  grind [State.endRays, State.memOk_failBeam, State.memOk_updCb, State.memOk_endRay, State.memOk_foldl, State.memOk_foldl_fst]

theorem State.memOk_endPeerOps {s : State} (h : s.memOk = true) (rids : List Nat) : (s.endPeerOps rids).memOk = true := by
  grind [State.endPeerOps, State.memOk_resumePeer, State.memOk_foldl, State.memOk_foldl_fst]

theorem State.memOk_endEngines {s : State} (h : s.memOk = true) (rids : List Nat) (info : Nat) : (s.endEngines rids info).memOk = true := by
  grind [State.endEngines, State.memOk_endTask, State.memOk_endCalls, State.memOk_endRays, State.memOk_failTile, State.memOk_endPeerOps,
    State.memOk_endFetchw, State.memOk_endMsgs, State.memOk_endMcasts, State.memOk_endCow, State.memOk_foldl, State.memOk_foldl_fst, State.memOk]

theorem State.memOk_exitRegions {s : State} (h : s.memOk = true) (rids : List Nat) : (s.exitRegions rids).memOk = true := by
  grind [State.exitRegions, State.memOk_exitLanes, State.memOk_dropWaves, State.memOk_foldl, State.memOk_foldl_fst]

theorem State.memOk_endSubtree {s : State} (h : s.memOk = true) (dom x code : Nat) : (s.endSubtree dom x code).memOk = true := by
  grind [State.endSubtree, State.memOk_exitRegions, State.memOk_endEngines, State.memOk_retireGang, State.memOk_endLaunch, State.memOk_dropRegion,
    State.memOk_addRec, State.memOk_foldl, State.memOk_foldl_fst, State.memOk]

theorem State.memOk_stopWave {s : State} (h : s.memOk = true) (uid : Nat) : (s.stopWave uid).memOk = true := by
  grind [State.stopWave, State.memOk_updWave, State.memOk_withdraw, State.memOk_evalMasks, State.memOk_dropAsks, State.memOk_dropRops,
    State.memOk_foldl, State.memOk_foldl_fst]

theorem State.memOk_endStreams {s : State} (h : s.memOk = true) (rids : List Nat) : (s.endStreams rids).memOk = true := by
  grind [State.endStreams, State.memOk_updWave, State.memOk_dropAsks, State.memOk_dropRops, State.memOk_foldl, State.memOk_foldl_fst, State.memOk]

theorem State.memOk_startAbort {s : State} (h : s.memOk = true) (rid : Nat) (orig : Option Nat) : (s.startAbort rid orig).memOk = true := by
  grind [State.startAbort, State.memOk_sendPeers, State.memOk_dropWaves, State.memOk_endStreams, State.memOk_stopWave, State.memOk_endEngines,
    State.memOk_updRegion, State.memOk_foldl, State.memOk_foldl_fst, State.memOk]

theorem State.memOk_abortRecords {s : State} (h : s.memOk = true) (rids : List Nat) (A : Nat) : (s.abortRecords rids A).memOk = true := by
  grind [State.abortRecords, State.memOk_park, State.memOk_foldl, State.memOk_foldl_fst]

theorem State.memOk_startAbnd {s : State} (h : s.memOk = true) (r : Region) (A peer code : Nat) {t : State} (e : s.startAbnd r A peer code = some t) :
    t.memOk = true := by
  obtain ⟨k, -, hk⟩ := List.exists_of_findSome?_eq_some e
  split at hk
  · cases hk
  · exact State.memOk_startHandler h _ _ _ _ _ _ _ _ _ _ _ _ hk

theorem State.memOk_agreeOn {s : State} (h : s.memOk = true) (r : Region) (A u : Nat) : (s.agreeOn r A u).memOk = true := by
  grind [State.agreeOn, State.memOk_updRegion, State.memOk_abortRecords, State.memOk_beginStep, State.memOk]

/-! ## Service life -/

theorem State.memOk_setSvcBit {s : State} (h : s.memOk = true) (reg i : Nat) : (s.setSvcBit reg i).memOk = true := by
  unfold State.setSvcBit
  simp only [State.memOk_setCsr, h]

theorem State.memOk_migrated {s : State} (h : s.memOk = true) (n : Nat) : (s.migrated n).memOk = true := by
  unfold State.migrated
  simp only [State.memOk_count, h]

theorem State.memOk_markMig {s : State} (h : s.memOk = true) (group unit : Nat) : (s.markMig group unit).memOk = true := by
  grind [State.markMig, State.memOk_setCsr, State.memOk_foldl, State.memOk_foldl_fst]

theorem State.memOk_met {s : State} (h : s.memOk = true) (kind unit : Nat) : (s.met kind unit).memOk = true := by
  unfold State.met
  simp only [State.memOk_updSvc, h]

theorem State.memOk_drainAll {s : State} (h : s.memOk = true) : (s.drainAll).memOk = true := by
  unfold State.drainAll
  simp only [State.memOk_nextDrain, State.memOk_updSvc, h]

theorem State.memOk_takeSpare {s : State} (h : s.memOk = true) (kind reg group unit spare limit : Nat) {f : State → State}
    (hf : ∀ s, s.memOk = true → (f s).memOk = true) :
    (s.takeSpare kind reg group unit spare limit f).memOk = true := by
  unfold State.takeSpare
  dsimp only
  split
  · exact h
  · exact State.memOk_drainAll (hf _ (State.memOk_markMig (State.memOk_migrated (State.memOk_setCsr (State.memOk_met h _ _) _ _) _) _ _))

theorem State.memOk_portDown {s : State} (h : s.memOk = true) (port : Nat) : (s.portDown port).memOk = true := by
  grind [State.portDown, State.memOk_updSvc, State.memOk_flushLink, State.memOk_updLink]

theorem State.memOk_poisoned {s : State} (h : s.memOk = true) (l : Loc) : (s.poisoned l).memOk = true := by
  unfold State.poisoned
  (repeat' split) <;> exact h

theorem State.memOk_margin {s : State} (h : s.memOk = true) (group unit m : Nat) : (s.margin group unit m).memOk = true := by
  unfold State.margin
  (repeat' split) <;> grind [State.memOk_want, State.memOk]

theorem State.memOk_afterReset {s : State} (h : s.memOk = true) : (s.afterReset).memOk = true := by
  grind [State.afterReset, State.memOk_writeRoutes, State.memOk_foldl, State.memOk_foldl_fst, State.memOk]

end Sys2Proof.Machine
end

section
/-!
PROOF. What each shape of an instruction's execution keeps, each instruction and event by its shape, and the step: the byte
memories stay in their canonical form.
-/

namespace Sys2Proof.Machine

/-! ## The shapes of execution -/

/-- The outcome goes on only to states whose memories are in their canonical form. -/
def KeepsMem (o : Out) : Prop := ∀ t : State, o = .next t → t.memOk = true

theorem keepsMem_next {t : State} (h : t.memOk = true) : KeepsMem (.next t) := by
  rintro u ⟨⟩
  exact h

theorem keepsMem_compute (e : Enc) (g : Ctx → State → Nat → Except LFault Res) {s : State} (h : s.memOk = true) :
    KeepsMem (.next (runCompute e g s)) :=
  keepsMem_next (memOk_runCompute e g h)

theorem keepsMem_pure (e : Enc) (g : Ctx → State → Nat → LaneRes) {s : State} (h : s.memOk = true) :
    KeepsMem (.next (runPacket e (pureWise g) s)) :=
  keepsMem_next (memOk_runPacket e (fun c _ hs => memOk_pureWise g c hs) h)

theorem keepsMem_lanes (e : Enc) {g : Ctx → State → Nat → State × LaneRes} (hg : ∀ c s l, s.memOk = true → (g c s l).1.memOk = true)
    {s : State} (h : s.memOk = true) : KeepsMem (.next (runPacket e (laneWise g) s)) :=
  keepsMem_next (memOk_runPacket e (fun c _ hs => memOk_laneWise hg c hs) h)

theorem keepsMem_uni (e : Enc) {g : Ctx → State → Nat → State × Except LFault UniOut} (hg : ∀ c s l, s.memOk = true → (g c s l).1.memOk = true)
    {s : State} (h : s.memOk = true) : KeepsMem (.next (runPacket e (uniWise g) s)) :=
  keepsMem_next (memOk_runPacket e (fun c s hs => memOk_uniWise c (fun l => hg c s l hs) hs) h)

theorem keepsMem_runCode {op : BitVec 8} {i : Hdr} {f : CodeFn} {x : BitVec 64} {g : Ctx → State → Nat → State × LaneRes} {post : Ctx → State → State}
    (hg : ∀ c s l, s.memOk = true → (g c s l).1.memOk = true) (hp : ∀ c s, s.memOk = true → (post c s).memOk = true)
    {s : State} (h : s.memOk = true) : KeepsMem (runCode op i f x g post s) :=
  keepsMem_next (memOk_runPacketThen _ (fun c _ hs => memOk_laneWise hg c hs) hp h)

theorem keepsMem_runMask (op : BitVec 8) (i : Hdr) (f : CodeFn) (x : BitVec 64) (g : Ctx → State → Wave → LaneMask) {s : State} (h : s.memOk = true) :
    KeepsMem (runMask op i f x g s) :=
  keepsMem_next (memOk_runPacketThen _ (fun c _ hs => memOk_pureWise _ c hs)
    (fun c s hs => by split <;> simp only [State.memOk_writeMask, hs]) h)

theorem keepsMem_runMem {op : BitVec 8} {i : Hdr} {f : MemFn} {x : BitVec 64} {g : Ctx → State → Nat → State × LaneRes} {post : Ctx → State → State}
    (hg : ∀ c s l, s.memOk = true → (g c s l).1.memOk = true) (hp : ∀ c s, s.memOk = true → (post c s).memOk = true)
    {s : State} (h : s.memOk = true) : KeepsMem (runMem op i f x g post s) :=
  keepsMem_next (memOk_runPacketThen _ (fun c _ hs => memOk_memWise hg c hs) hp h)

theorem keepsMem_runWrites (e : Enc) (places : Ctx → State → Nat → Except LFault (List (Nat × Loc))) {g : Ctx → State → Nat → State × LaneRes}
    (hg : ∀ c s l, s.memOk = true → (g c s l).1.memOk = true) {s : State} (h : s.memOk = true) : KeepsMem (runWrites e places g s) :=
  keepsMem_next (State.memOk_flushPeers (State.memOk_setPack
    (memOk_runPacket e (fun c _ hs => memOk_memWise hg c hs) (State.memOk_packed h e places)) _))

theorem keepsMem_runHint (op : BitVec 8) (i : Hdr) (f : MemFn) (x : BitVec 64) {g : Wave → Nat → Loc → State → State}
    (hg : ∀ w va p s, s.memOk = true → (g w va p s).memOk = true) {s : State} (h : s.memOk = true) : KeepsMem (runHint op i f x g s) :=
  keepsMem_next (memOk_runPacket _ (fun c _ hs => memOk_memWise (fun c _ l hs => memOk_hintLane f hg c hs l) c hs) h)

theorem keepsMem_runEng {op : BitVec 8} {i : Hdr} {f : EngFn} {x : BitVec 64} {g : Ctx → State → Nat → State × LaneRes} {post : Ctx → State → State}
    (hg : ∀ c s l, s.memOk = true → (g c s l).1.memOk = true) (hp : ∀ c s, s.memOk = true → (post c s).memOk = true)
    {s : State} (h : s.memOk = true) : KeepsMem (runEng op i f x g post s) :=
  keepsMem_next (memOk_runPacketThen _ (fun c _ hs => memOk_memWise hg c hs) hp h)

theorem keepsMem_runEngU {op : BitVec 8} {i : Hdr} {f : EngFn} {x : BitVec 64} {g : Ctx → State → Nat → State × Except LFault UniOut}
    (hg : ∀ c s l, s.memOk = true → (g c s l).1.memOk = true) {s : State} (h : s.memOk = true) : KeepsMem (runEngU op i f x g s) :=
  keepsMem_next (memOk_runPacket _ (fun c _ hs => memOk_uniMem hg c hs) h)

theorem keepsMem_runStream (op : BitVec 8) (i : Hdr) (f : EngFn) (x : BitVec 64) {g : Ctx → State → Wave → State × WaveOut}
    (hg : ∀ c s w, s.memOk = true → (g c s w).1.memOk = true) {s : State} (h : s.memOk = true) : KeepsMem (runStream op i f x g s) := by
  refine keepsMem_next (memOk_runPacket _ (fun c s hs => ?_) h)
  cases s.wave? c.uid with
  | none => exact hs
  | some w =>
    dsimp only
    split
    · exact hg c s w hs
    · exact hs

theorem keepsMem_runRcbop (i : Hdr) (f : EngFn) (x : BitVec 64) {g : Ctx → State → Nat → State × Nat × Nat}
    (hg : ∀ c s l, s.memOk = true → (g c s l).1.memOk = true) {s : State} (h : s.memOk = true) : KeepsMem (runRcbop i f x g s) := by
  refine keepsMem_runEngU (fun c s l hs => ?_) h
  dsimp only
  exact State.memOk_serve hs (fun s hs => hg c s l hs)

theorem keepsMem_runTex (op : BitVec 8) (i : Hdr) (f : EngFn) (x : BitVec 64) (quad : Bool) (g : Ctx → State → Nat → TRes) {s : State}
    (h : s.memOk = true) :
    KeepsMem (runTex op i f x quad g s) :=
  keepsMem_next (memOk_runPacket _ (fun c _ hs => memOk_texWise quad g c hs) h)

theorem keepsMem_runSet (op : BitVec 8) (i : Hdr) (f : EngFn) (x : BitVec 64) {g : Ctx → State → Wave → Nat → Nat → State × UniOut}
    (hg : ∀ c s w a r, s.memOk = true → (g c s w a r).1.memOk = true) {s : State} (h : s.memOk = true) : KeepsMem (runSet op i f x g s) := by
  refine keepsMem_runEngU (fun c s l hs => ?_) h
  split
  · split
    · exact hs
    · exact hg _ _ _ _ _ (State.memOk_noteVa hs _ _ _)
  · exact hs

theorem keepsMem_runWtbl (i : Hdr) (f : EngFn) (x : BitVec 64) {g : Ctx → State → (Nat → Nat → Bool) → State × UniOut}
    (hg : ∀ c s p, s.memOk = true → (g c s p).1.memOk = true) {s : State} (h : s.memOk = true) : KeepsMem (runWtbl i f x g s) := by
  refine keepsMem_runEngU (fun c s l hs => ?_) h
  split
  · exact hs
  · dsimp only
    split
    · exact hs
    · split
      · exact hs
      · exact hg _ _ _ hs

theorem keepsMem_runTlbop (sub : Nat) (i : Hdr) (f : EngFn) (x : BitVec 64) {s : State} (h : s.memOk = true) : KeepsMem (runTlbop sub i f x s) := by
  refine keepsMem_runEngU (fun c s l hs => ?_) h
  dsimp only
  split
  · exact hs
  · split
    · exact hs
    · exact State.memOk_asService (State.memOk_dropPend (State.memOk_walksAfter (State.memOk_asService hs (fun _ hu => State.memOk_tlbop hu ..))) ..)
        (fun _ hu => State.memOk_landOwed (State.memOk_settleOld hu ..))

theorem keepsMem_runSvcall (n : Nat) (i : Hdr) (f : EngFn) (x : BitVec 64) {g : State → Nat → Nat → List (Nat × Loc) → Option (State × Nat)}
    (hg : ∀ s rid buf ls q, s.memOk = true → g s rid buf ls = some q → q.1.memOk = true) {s : State} (h : s.memOk = true) :
    KeepsMem (runSvcall n i f x g s) := by
  refine keepsMem_runEngU (fun c s l hs => ?_) h
  dsimp only
  refine State.memOk_serve hs (fun s hs => ?_)
  split
  · exact hs
  · split
    · exact hs
    · split
      · exact hs
      · next e => exact hg _ _ _ _ _ hs e

theorem keepsMem_engStep (ks : List Nat) {f : State → Task → EAcc} (hf : ∀ s t, s.memOk = true → (f s t).1.memOk = true) (cl slot : Nat)
    {s : State} (h : s.memOk = true) : KeepsMem (engStep ks f cl slot s) := by
  refine keepsMem_next ?_
  split
  · exact h
  · split
    · exact memOk_EAcc_commit (hf _ _ (State.memOk_asTask h _))
    · exact h

theorem keepsMem_crossStep (k cl slot : Nat) {s : State} (h : s.memOk = true) : KeepsMem (crossStep k cl slot s) := by
  refine keepsMem_next ?_
  split
  · exact h
  · split
    · next t _ _ =>
      have hw := memOk_crossWork (State.memOk_asTask h t) t
      dsimp only
      split
      · exact State.memOk_putTask hw _
      · exact memOk_EAcc_commit hw
    · exact h

theorem keepsMem_rootHandler (hidx c k : Nat) {f : Wave → State → State × Nat × Nat} (hf : ∀ w s, s.memOk = true → (f w s).1.memOk = true)
    {s : State} (h : s.memOk = true) : KeepsMem (rootHandler hidx c k f s) := by
  refine keepsMem_next ?_
  split
  · exact h
  · next w _ =>
    dsimp only
    exact State.memOk_complete (hf w { s with waves := s.waves.filter (fun v => v.uid ≠ w.uid) } h) _ _ _ _

theorem keepsMem_execRdma (q : HostPkt) (rkey va n : Nat) (op : Nat → HostOp) {s : State} (h : s.memOk = true) :
    KeepsMem (execRdma q rkey va n op s) := by
  refine keepsMem_next ?_
  split
  · exact h
  · refine State.memOk_arrive h _ _ (fun s hs => ?_)
    split
    · exact State.memOk_send hs _
    · exact State.memOk_addHop hs _ _

/-! ## Instructions and events: conversions -/

theorem keepsMem_execCvtn (i : Hdr) (f : CvtFn) (x : BitVec 64) {s : State} (h : s.memOk = true) : KeepsMem (execCvtn i f x s) :=
  keepsMem_lanes _ (fun _ _ _ hs => by simp only [memOk_cvtnLane, hs]) h

theorem keepsMem_execFmtld (i : Hdr) (f : CvtFn) (x : BitVec 64) {s : State} (h : s.memOk = true) : KeepsMem (execFmtld i f x s) :=
  keepsMem_uni _ (fun _ _ _ hs => by grind [State.memOk_updWave]) h

/-! ## Instructions and events: lane rows -/

theorem keepsMem_execBallot (i : Hdr) (f : LaneFn) (x : BitVec 64) {s : State} (h : s.memOk = true) : KeepsMem (execBallot i f x s) := by
  refine keepsMem_next ?_
  grind [memOk_runPacket, State.memOk_arrival]

theorem keepsMem_execRedux (i : Hdr) (f : LaneFn) (x : BitVec 64) {s : State} (h : s.memOk = true) : KeepsMem (execRedux i f x s) := by
  refine keepsMem_next ?_
  grind [memOk_runPacket, State.memOk_arrival]

/-! ## Instructions and events: control -/

theorem keepsMem_execCall (i : Hdr) (f : CodeFn) (x : BitVec 64) {s : State} (h : s.memOk = true) : KeepsMem (execCall i f x s) :=
  keepsMem_runCode (fun _ _ _ hs => by simp only [memOk_callTo, hs]) (fun _ _ hs => hs) h

theorem keepsMem_execCallx (i : Hdr) (f : CodeFn) (x : BitVec 64) {s : State} (h : s.memOk = true) : KeepsMem (execCallx i f x s) :=
  keepsMem_runCode (fun _ _ _ hs => by simp only [memOk_callTo, hs]) (fun _ _ hs => hs) h

theorem keepsMem_execExit (i : Hdr) (f : CodeFn) (x : BitVec 64) {s : State} (h : s.memOk = true) : KeepsMem (execExit i f x s) := by
  refine keepsMem_next ?_
  grind [State.memOk_settleSlot, memOk_runPacketThen, memOk_laneWise, State.memOk_exitLanes]

theorem keepsMem_execBkpt (i : Hdr) (f : CodeFn) (x : BitVec 64) {s : State} (h : s.memOk = true) : KeepsMem (execBkpt i f x s) := by
  refine keepsMem_runCode (fun _ _ _ hs => ?_) (fun _ _ hs => ?_) h
  · exact hs
  · grind [State.memOk_stopQuad]

theorem keepsMem_execSleep (i : Hdr) (f : CodeFn) (x : BitVec 64) {s : State} (h : s.memOk = true) : KeepsMem (execSleep i f x s) :=
  keepsMem_runCode (fun _ _ _ hs => by grind [memOk_yieldLane]) (fun _ _ hs => hs) h

/-! ## Instructions and events: synchronisation -/

theorem keepsMem_execMwait (i : Hdr) (f : CodeFn) (x : BitVec 64) {s : State} (h : s.memOk = true) : KeepsMem (execMwait i f x s) := by
  refine keepsMem_runCode (fun _ _ _ hs => ?_) (fun _ _ hs => ?_) h
  · simp only [memOk_mwaitLane, hs]
  · simp only [State.memOk_evalMask, hs]

theorem keepsMem_execMops (i : Hdr) (f : CodeFn) (x : BitVec 64) {s : State} (h : s.memOk = true) : KeepsMem (execMops i f x s) := by
  refine keepsMem_next ?_
  grind [memOk_runPacketThen, memOk_uniWise, State.memOk_writeMask]

theorem keepsMem_execBar (i : Hdr) (f : CodeFn) (x : BitVec 64) {s : State} (h : s.memOk = true) : KeepsMem (execBar i f x s) := by
  refine keepsMem_runCode (fun _ _ _ hs => ?_) (fun _ _ hs => ?_) h
  · simp only [memOk_barLane, hs]
  · simp only [memOk_postBars, hs]

theorem keepsMem_execBararr (i : Hdr) (f : CodeFn) (x : BitVec 64) {s : State} (h : s.memOk = true) : KeepsMem (execBararr i f x s) := by
  refine keepsMem_runCode (fun _ _ _ hs => ?_) (fun _ _ hs => ?_) h
  · simp only [memOk_barLane, hs]
  · simp only [memOk_postBars, hs]

theorem keepsMem_execBarwt (i : Hdr) (f : CodeFn) (x : BitVec 64) {s : State} (h : s.memOk = true) : KeepsMem (execBarwt i f x s) :=
  keepsMem_runCode (fun _ _ _ hs => by grind [State.memOk_acquireLane]) (fun _ _ hs => hs) h

theorem keepsMem_execTwait (i : Hdr) (f : CodeFn) (x : BitVec 64) {s : State} (h : s.memOk = true) : KeepsMem (execTwait i f x s) := by
  refine keepsMem_next ?_
  grind [State.memOk_settleSlot, memOk_runPacketThen, memOk_laneWise, State.memOk_trigBins, State.memOk_evalToks]

theorem keepsMem_execTtest (i : Hdr) (f : CodeFn) (x : BitVec 64) {s : State} (h : s.memOk = true) : KeepsMem (execTtest i f x s) :=
  keepsMem_runCode (fun _ _ _ hs => by grind [State.memOk_updWave, State.memOk_joinLane]) (fun _ _ hs => hs) h

theorem keepsMem_execSstep (i : Hdr) (f : CodeFn) (x : BitVec 64) {s : State} (h : s.memOk = true) : KeepsMem (execSstep i f x s) := by
  refine keepsMem_next ?_
  grind [State.memOk_settleSlot, memOk_runPacketThen, memOk_laneWise, memOk_sstepLane, State.memOk_trigBins]

theorem keepsMem_execUiret (i : Hdr) (f : CodeFn) (x : BitVec 64) {s : State} (h : s.memOk = true) : KeepsMem (execUiret i f x s) :=
  keepsMem_runCode (fun _ _ _ hs => by grind [State.memOk_updWave]) (fun _ _ hs => hs) h

theorem keepsMem_execUimsk (i : Hdr) (f : CodeFn) (x : BitVec 64) {s : State} (h : s.memOk = true) : KeepsMem (execUimsk i f x s) :=
  keepsMem_uni _ (fun _ _ _ hs => by grind [State.memOk_updWave]) h

/-! ## Instructions and events: memory instructions -/

theorem keepsMem_execLd (i : Hdr) (f : MemFn) (x : BitVec 64) {s : State} (h : s.memOk = true) : KeepsMem (execLd i f x s) := by
  refine keepsMem_next ?_
  grind [memOk_runPacket, memOk_uniMem, memOk_ldUni, memOk_memWise, memOk_ldLane]

theorem keepsMem_execSt (i : Hdr) (f : MemFn) (x : BitVec 64) {s : State} (h : s.memOk = true) : KeepsMem (execSt i f x s) :=
  keepsMem_runWrites _ _ (fun c _ l hs => memOk_stLane f c hs l) h

theorem keepsMem_execStx (i : Hdr) (f : MemFn) (x : BitVec 64) {s : State} (h : s.memOk = true) : KeepsMem (execStx i f x s) :=
  keepsMem_runWrites _ _ (fun c _ l hs => memOk_stLane f c hs l) h

theorem keepsMem_execLdc (i : Hdr) (f : MemFn) (x : BitVec 64) {s : State} (h : s.memOk = true) : KeepsMem (execLdc i f x s) := by
  refine keepsMem_next ?_
  grind [memOk_runPacket, memOk_uniMem, memOk_ldUni]

theorem keepsMem_execLdx (i : Hdr) (f : MemFn) (x : BitVec 64) {s : State} (h : s.memOk = true) : KeepsMem (execLdx i f x s) :=
  keepsMem_runMem (fun _ _ _ hs => by grind [memOk_aheadLane, memOk_ldLane]) (fun _ _ hs => hs) h

theorem keepsMem_execGjoin (i : Hdr) (f : MemFn) (x : BitVec 64) {s : State} (h : s.memOk = true) : KeepsMem (execGjoin i f x s) :=
  keepsMem_runMem (fun _ _ _ hs => by (repeat' split) <;> exact hs) (fun _ _ hs => State.memOk_evalGjoin hs _ _) h

theorem keepsMem_execAtom (i : Hdr) (f : MemFn) (x : BitVec 64) {s : State} (h : s.memOk = true) : KeepsMem (execAtom i f x s) :=
  keepsMem_runWrites _ _ (fun c _ l hs => memOk_atomLane f true c hs l) h

theorem keepsMem_execRed (i : Hdr) (f : MemFn) (x : BitVec 64) {s : State} (h : s.memOk = true) : KeepsMem (execRed i f x s) :=
  keepsMem_runWrites _ _ (fun c _ l hs => memOk_atomLane f false c hs l) h

theorem keepsMem_execFence (i : Hdr) (f : MemFn) (x : BitVec 64) {s : State} (h : s.memOk = true) : KeepsMem (execFence i f x s) :=
  keepsMem_runMem (fun _ _ _ hs => by simp only [memOk_fenceLane, hs]) (fun _ _ hs => hs) h

theorem keepsMem_execPref (i : Hdr) (f : MemFn) (x : BitVec 64) {s : State} (h : s.memOk = true) : KeepsMem (execPref i f x s) :=
  keepsMem_runHint _ _ _ _ (fun _ _ _ _ hs => by grind [State.memOk_touch, State.memOk_touchLine]) h

theorem keepsMem_execCmaint (i : Hdr) (f : MemFn) (x : BitVec 64) {s : State} (h : s.memOk = true) : KeepsMem (execCmaint i f x s) :=
  keepsMem_runHint _ _ _ _ (fun _ _ _ _ hs => by grind [State.memOk_invalidate, State.memOk_maintain]) h

theorem keepsMem_execLdmc (i : Hdr) (f : MemFn) (x : BitVec 64) {s : State} (h : s.memOk = true) : KeepsMem (execLdmc i f x s) :=
  keepsMem_runMem (fun _ _ _ hs => by simp only [memOk_ldmcLane, hs]) (fun _ _ hs => hs) h

/-! ## Instructions and events: tasks -/

theorem keepsMem_execTkpost (i : Hdr) (f : EngFn) (x : BitVec 64) {s : State} (h : s.memOk = true) : KeepsMem (execTkpost i f x s) :=
  keepsMem_runEng (fun _ _ _ hs => by simp only [memOk_tkpostLane, hs]) (fun _ _ hs => hs) h

theorem keepsMem_execTkdep (i : Hdr) (f : EngFn) (x : BitVec 64) {s : State} (h : s.memOk = true) : KeepsMem (execTkdep i f x s) :=
  keepsMem_runEng (fun _ _ _ hs => by grind [memOk_onTask, State.memOk_updTask]) (fun _ _ hs => hs) h

theorem keepsMem_execTksig (i : Hdr) (f : EngFn) (x : BitVec 64) {s : State} (h : s.memOk = true) : KeepsMem (execTksig i f x s) :=
  keepsMem_runEng (fun _ _ _ hs => by grind [memOk_onTask, State.memOk_makeReady, State.memOk_updTask]) (fun _ _ hs => hs) h

theorem keepsMem_execTkwait (i : Hdr) (f : EngFn) (x : BitVec 64) {s : State} (h : s.memOk = true) : KeepsMem (execTkwait i f x s) := by
  refine keepsMem_next ?_
  grind [memOk_runPacket, memOk_tkwaitBody]

theorem keepsMem_execTkcmt (i : Hdr) (f : EngFn) (x : BitVec 64) {s : State} (h : s.memOk = true) : KeepsMem (execTkcmt i f x s) :=
  keepsMem_runEng (fun _ _ _ hs => by grind [memOk_onTask, State.memOk_updTask, State.memOk_endSpec]) (fun _ _ hs => hs) h

theorem keepsMem_execTkdis (i : Hdr) (f : EngFn) (x : BitVec 64) {s : State} (h : s.memOk = true) : KeepsMem (execTkdis i f x s) :=
  keepsMem_runEng (fun _ _ _ hs => by grind [memOk_onTask, State.memOk_dropTask, State.memOk_updTask, State.memOk_endSpec]) (fun _ _ hs => hs) h

theorem keepsMem_execCbini (i : Hdr) (f : EngFn) (x : BitVec 64) {s : State} (h : s.memOk = true) : KeepsMem (execCbini i f x s) := by
  refine keepsMem_runEng (fun _ _ _ hs => ?_) (fun _ _ hs => ?_) h
  · grind [memOk_onCbuf, memOk_cbiniLane]
  · grind [State.memOk_evalCbuf]

theorem keepsMem_execCbpsh (i : Hdr) (f : EngFn) (x : BitVec 64) {s : State} (h : s.memOk = true) : KeepsMem (execCbpsh i f x s) := by
  refine keepsMem_runEng (fun _ _ _ hs => ?_) (fun _ _ hs => ?_) h
  · grind [memOk_onCbuf, memOk_pushPop]
  · simp only [memOk_evalD, hs]

theorem keepsMem_execCbpop (i : Hdr) (f : EngFn) (x : BitVec 64) {s : State} (h : s.memOk = true) : KeepsMem (execCbpop i f x s) := by
  refine keepsMem_runEng (fun _ _ _ hs => ?_) (fun _ _ hs => ?_) h
  · grind [memOk_onCbuf, memOk_pushPop]
  · simp only [memOk_evalD, hs]

theorem keepsMem_execCbwt (i : Hdr) (f : EngFn) (x : BitVec 64) {s : State} (h : s.memOk = true) : KeepsMem (execCbwt i f x s) :=
  keepsMem_runEng (fun _ _ _ hs => by grind [memOk_onCbuf, memOk_cbwtLane]) (fun _ _ hs => hs) h

theorem keepsMem_execCbqry (i : Hdr) (f : EngFn) (x : BitVec 64) {s : State} (h : s.memOk = true) : KeepsMem (execCbqry i f x s) :=
  keepsMem_runEng (fun _ _ _ hs => by grind [memOk_onCbuf, State.memOk_joinLane]) (fun _ _ hs => hs) h

theorem keepsMem_execEvset (i : Hdr) (f : EngFn) (x : BitVec 64) {s : State} (h : s.memOk = true) : KeepsMem (execEvset i f x s) :=
  keepsMem_runEng (fun _ _ _ hs => by simp only [memOk_evsetLane, hs]) (fun _ _ hs => hs) h

theorem keepsMem_execTaskFire (cl slot unit : Nat) {s : State} (h : s.memOk = true) : KeepsMem (execTaskFire cl slot unit s) := by
  refine keepsMem_next ?_
  grind [State.memOk_grantAll, State.memOk_updTask, State.memOk_evalCbuf, State.memOk_foldl, State.memOk_foldl_fst, State.memOk]

theorem keepsMem_execTaskComplete (cl slot : Nat) {s : State} (h : s.memOk = true) : KeepsMem (execTaskComplete cl slot s) := by
  refine keepsMem_next ?_
  dsimp only
  (repeat' split) <;> simp only [State.memOk_completeTask, State.memOk_updCts, h]

/-! ## Instructions and events: engine accesses -/

theorem keepsMem_execEngineSuspend (ekind cl obj : Nat) {s : State} (h : s.memOk = true) : KeepsMem (execEngineSuspend ekind cl obj s) := by
  refine keepsMem_next ?_
  simp only [State.memOk_suspend, h]

/-! ## Instructions and events: copies -/

theorem keepsMem_execTaskCopyIn (cl slot : Nat) {s : State} (h : s.memOk = true) : KeepsMem (execTaskCopyIn cl slot s) :=
  keepsMem_engStep _ (fun _ _ hs => by simp only [memOk_copyInWork, hs]) _ _ h

theorem keepsMem_execTaskCopyOut (cl slot : Nat) {s : State} (h : s.memOk = true) : KeepsMem (execTaskCopyOut cl slot s) :=
  keepsMem_engStep _ (fun _ _ hs => by simp only [memOk_copyOutWork, hs]) _ _ h

theorem keepsMem_execTaskCopy (cl slot : Nat) {s : State} (h : s.memOk = true) : KeepsMem (execTaskCopy cl slot s) :=
  keepsMem_engStep _ (fun _ _ hs => by simp only [memOk_copyWork, hs]) _ _ h

/-! ## Instructions and events: the tensor engine -/

theorem keepsMem_execTaskMma (cl slot : Nat) {s : State} (h : s.memOk = true) : KeepsMem (execTaskMma cl slot s) :=
  keepsMem_engStep _ (fun _ _ hs => by simp only [memOk_mmWork, hs]) _ _ h

theorem keepsMem_execTaskMmas (cl slot : Nat) {s : State} (h : s.memOk = true) : KeepsMem (execTaskMmas cl slot s) :=
  keepsMem_engStep _ (fun _ _ hs => by simp only [memOk_mmWork, hs]) _ _ h

theorem keepsMem_execTcpy (i : Hdr) (f : EngFn) (x : BitVec 64) {s : State} (h : s.memOk = true) : KeepsMem (execTcpy i f x s) :=
  keepsMem_runEng (fun _ _ _ hs => by simp only [memOk_tcpyLane, hs]) (fun _ _ hs => hs) h

theorem keepsMem_execTcpyw (i : Hdr) (f : EngFn) (x : BitVec 64) {s : State} (h : s.memOk = true) : KeepsMem (execTcpyw i f x s) :=
  keepsMem_runEng (fun _ _ _ hs => by simp only [memOk_tcpyLane, hs]) (fun _ _ hs => hs) h

theorem keepsMem_execMma (i : Hdr) (f : EngFn) (x : BitVec 64) {s : State} (h : s.memOk = true) : KeepsMem (execMma i f x s) :=
  keepsMem_runEng (fun _ _ _ hs => by simp only [memOk_mmaLane, hs]) (fun _ _ hs => hs) h

theorem keepsMem_execMmas (i : Hdr) (f : EngFn) (x : BitVec 64) {s : State} (h : s.memOk = true) : KeepsMem (execMmas i f x s) :=
  keepsMem_runEng (fun _ _ _ hs => by simp only [memOk_mmaLane, hs]) (fun _ _ hs => hs) h

theorem keepsMem_execMrpg (i : Hdr) (f : EngFn) (x : BitVec 64) {s : State} (h : s.memOk = true) : KeepsMem (execMrpg i f x s) :=
  keepsMem_runEng (fun _ _ _ hs => by simp only [memOk_mrpgLane, hs]) (fun _ _ hs => hs) h

/-! ## Instructions and events: streams -/

theorem keepsMem_execStnxtDeliver (k : Nat) {s : State} (h : s.memOk = true) : KeepsMem (execStnxtDeliver k s) := by
  refine keepsMem_next ?_
  (repeat' split) <;> grind [State.memOk_strmFetch, State.memOk_asStream, State.memOk_hold, State.memOk_opDone, State.memOk_strmClose,
    State.memOk_strmStop, State.memOk_strmFail, State.memOk_strmDone, State.memOk]

theorem keepsMem_execStopn (i : Hdr) (f : EngFn) (x : BitVec 64) {s : State} (h : s.memOk = true) : KeepsMem (execStopn i f x s) :=
  keepsMem_runStream _ _ _ _ (fun _ _ _ hs => by grind [memOk_strmOp]) h

theorem keepsMem_execStnxt (i : Hdr) (f : EngFn) (x : BitVec 64) {s : State} (h : s.memOk = true) : KeepsMem (execStnxt i f x s) :=
  keepsMem_runStream _ _ _ _ (fun _ _ _ hs => by grind [State.memOk_updWave, State.memOk_dropPend, State.memOk_foldl, State.memOk_foldl_fst,
    State.memOk]) h

theorem keepsMem_execStskp (i : Hdr) (f : EngFn) (x : BitVec 64) {s : State} (h : s.memOk = true) : KeepsMem (execStskp i f x s) :=
  keepsMem_runStream _ _ _ _ (fun _ _ _ hs => by simp only [memOk_strmOp, hs]) h

theorem keepsMem_execStsav (i : Hdr) (f : EngFn) (x : BitVec 64) {s : State} (h : s.memOk = true) : KeepsMem (execStsav i f x s) :=
  keepsMem_runStream _ _ _ _ (fun _ _ _ hs => by simp only [memOk_strmOp, hs]) h

theorem keepsMem_execStrst (i : Hdr) (f : EngFn) (x : BitVec 64) {s : State} (h : s.memOk = true) : KeepsMem (execStrst i f x s) :=
  keepsMem_runStream _ _ _ _ (fun _ _ _ hs => by simp only [memOk_strmOp, hs]) h

theorem keepsMem_execStcls (i : Hdr) (f : EngFn) (x : BitVec 64) {s : State} (h : s.memOk = true) : KeepsMem (execStcls i f x s) :=
  keepsMem_runStream _ _ _ _ (fun _ _ _ hs => by simp only [memOk_strmOp, hs]) h

theorem keepsMem_execIsect (i : Hdr) (f : EngFn) (x : BitVec 64) {s : State} (h : s.memOk = true) : KeepsMem (execIsect i f x s) :=
  keepsMem_runStream _ _ _ _ (fun _ _ _ hs => by grind) h

/-! ## Instructions and events: fetch -/

theorem keepsMem_execInstructionFill (core rid blk : Nat) {s : State} (h : s.memOk = true) : KeepsMem (execInstructionFill core rid blk s) := by
  refine keepsMem_next ?_
  grind [State.memOk_fillRead, State.memOk_wakeFill, State.memOk_putBlock, State.memOk_endReads, State.memOk_dropRops, State.memOk_opDone,
    State.memOk_hold]

theorem keepsMem_execShortResultLand (k : Nat) {s : State} (h : s.memOk = true) : KeepsMem (execShortResultLand k s) := by
  refine keepsMem_next ?_
  simp only [State.memOk_land, h]

theorem keepsMem_execRunaheadLand (uid lane tok : Nat) {s : State} (h : s.memOk = true) : KeepsMem (execRunaheadLand uid lane tok s) := by
  refine keepsMem_next ?_
  grind [State.memOk_clearTok, State.memOk_updWave, State.memOk_foldl, State.memOk_foldl_fst, State.memOk]

theorem keepsMem_execMemuePark (uid lane : Nat) {s : State} (h : s.memOk = true) : KeepsMem (execMemuePark uid lane s) := by
  refine keepsMem_next ?_
  dsimp only
  (repeat' split) <;> simp only [State.memOk_park, h]

theorem keepsMem_execAdmissionChecksComplete (uid lane : Nat) {s : State} (h : s.memOk = true) :
    KeepsMem (execAdmissionChecksComplete uid lane s) := by
  refine keepsMem_next ?_
  grind [State.memOk_resume]

theorem keepsMem_execSleepExpire (uid lane : Nat) {s : State} (h : s.memOk = true) : KeepsMem (execSleepExpire uid lane s) := by
  refine keepsMem_next ?_
  grind [State.memOk_wake, State.memOk_endIdle]

/-! ## Instructions and events: the picker -/

theorem keepsMem_execUiDeliver (uid : Nat) {s : State} (h : s.memOk = true) : KeepsMem (execUiDeliver uid s) := by
  refine keepsMem_next ?_
  grind [State.memOk_endIdle, State.memOk_deliverUi]

/-! ## Instructions and events: regions -/

theorem keepsMem_execRcbopReg (i : Hdr) (f : EngFn) (x : BitVec 64) {s : State} (h : s.memOk = true) : KeepsMem (execRcbopReg i f x s) := by
  refine keepsMem_runRcbop _ _ _ (fun _ _ _ hs => ?_) h
  split
  · exact hs
  · next e => exact State.memOk_register hs _ _ e

theorem keepsMem_execRcbopRet (i : Hdr) (f : EngFn) (x : BitVec 64) {s : State} (h : s.memOk = true) : KeepsMem (execRcbopRet i f x s) :=
  keepsMem_runRcbop _ _ _ (fun _ _ _ hs => by grind [State.memOk_updRegion]) h

theorem keepsMem_execRcbopUpd (i : Hdr) (f : EngFn) (x : BitVec 64) {s : State} (h : s.memOk = true) : KeepsMem (execRcbopUpd i f x s) :=
  keepsMem_runRcbop _ _ _ (fun _ _ _ hs => by grind [State.memOk_update]) h

/-! ## Instructions and events: launches -/

theorem keepsMem_execSpawn (i : Hdr) (f : EngFn) (x : BitVec 64) {s : State} (h : s.memOk = true) : KeepsMem (execSpawn i f x s) :=
  keepsMem_runEngU (fun _ _ _ hs => by grind [State.memOk_serve, State.memOk_spawn]) h

theorem keepsMem_execWdPlaceGang (lid cl core : Nat) {s : State} (h : s.memOk = true) : KeepsMem (execWdPlaceGang lid cl core s) := by
  refine keepsMem_next ?_
  grind [State.memOk_place]

theorem keepsMem_execFetchw (i : Hdr) (f : EngFn) (x : BitVec 64) {s : State} (h : s.memOk = true) : KeepsMem (execFetchw i f x s) :=
  keepsMem_runEng (fun _ _ _ hs => by simp only [memOk_fetchwLane, hs]) (fun _ _ hs => hs) h

theorem keepsMem_execFetchwServe (k : Nat) {s : State} (h : s.memOk = true) : KeepsMem (execFetchwServe k s) := by
  refine keepsMem_next ?_
  grind [State.memOk_withdrawWg, State.memOk_updCts, State.memOk_clearTok, State.memOk_store]

/-! ## Instructions and events: gather and scatter -/

theorem keepsMem_execTaskGsx (cl slot : Nat) {s : State} (h : s.memOk = true) : KeepsMem (execTaskGsx cl slot s) :=
  keepsMem_engStep _ (fun _ _ hs => by simp only [memOk_gsWork, hs]) _ _ h

theorem keepsMem_execTaskSsx (cl slot : Nat) {s : State} (h : s.memOk = true) : KeepsMem (execTaskSsx cl slot s) :=
  keepsMem_engStep _ (fun _ _ hs => by simp only [memOk_gsWork, hs]) _ _ h

theorem keepsMem_execTaskSsxa (cl slot : Nat) {s : State} (h : s.memOk = true) : KeepsMem (execTaskSsxa cl slot s) :=
  keepsMem_engStep _ (fun _ _ hs => by simp only [memOk_gsWork, hs]) _ _ h

theorem keepsMem_execGsx (i : Hdr) (f : EngFn) (x : BitVec 64) {s : State} (h : s.memOk = true) : KeepsMem (execGsx i f x s) :=
  keepsMem_runEng (fun _ _ _ hs => by simp only [memOk_gsLane, hs]) (fun _ _ hs => hs) h

theorem keepsMem_execSsx (i : Hdr) (f : EngFn) (x : BitVec 64) {s : State} (h : s.memOk = true) : KeepsMem (execSsx i f x s) :=
  keepsMem_runEng (fun _ _ _ hs => by simp only [memOk_gsLane, hs]) (fun _ _ hs => hs) h

theorem keepsMem_execSsxa (i : Hdr) (f : EngFn) (x : BitVec 64) {s : State} (h : s.memOk = true) : KeepsMem (execSsxa i f x s) :=
  keepsMem_runEng (fun _ _ _ hs => by simp only [memOk_gsLane, hs]) (fun _ _ hs => hs) h

/-! ## Instructions and events: the Asterism unit -/

theorem keepsMem_execAsuCallBin (cl : Nat) {s : State} (h : s.memOk = true) : KeepsMem (execAsuCallBin cl s) := by
  refine keepsMem_next ?_
  simp only [State.memOk_seatCalls, h]

theorem keepsMem_execBinAgeDispatch (cl bin : Nat) {s : State} (h : s.memOk = true) : KeepsMem (execBinAgeDispatch cl bin s) := by
  refine keepsMem_next ?_
  grind [State.memOk_flushBins]

theorem keepsMem_execTileEnter (cl : Nat) {s : State} (h : s.memOk = true) : KeepsMem (execTileEnter cl s) := by
  refine keepsMem_next ?_
  grind [State.memOk_dispatchBin]

theorem State.memOk_getD {s : State} (h : s.memOk = true) {o : Option State} (ho : ∀ t, o = some t → t.memOk = true) : (o.getD s).memOk = true := by
  cases o with
  | none => exact h
  | some t => exact ho t rfl

theorem keepsMem_execTilePlace (cl core : Nat) {s : State} (h : s.memOk = true) : KeepsMem (execTilePlace cl core s) := by
  refine keepsMem_next ?_
  extract_lets mine here
  split
  · exact State.memOk_runTile h _
  · exact State.memOk_runTile h _
  · split
    · exact h
    · next t _ =>
      dsimp only
      split
      · exact h
      · exact State.memOk_settleBins (State.memOk_runTile (State.memOk_updAsu h _) _)

theorem keepsMem_execTileRowWriteback (cl tile : Nat) {s : State} (h : s.memOk = true) : KeepsMem (execTileRowWriteback cl tile s) := by
  refine keepsMem_next ?_
  dsimp only
  (repeat' split) <;> simp only [State.memOk_updAsu, State.memOk_updTile, State.memOk_writeRow, h]

theorem keepsMem_execTileFail (cl tile code : Nat) {s : State} (h : s.memOk = true) : KeepsMem (execTileFail cl tile code s) := by
  refine keepsMem_next ?_
  grind [State.memOk_failTile]

theorem keepsMem_execNcall (i : Hdr) (f : EngFn) (x : BitVec 64) {s : State} (h : s.memOk = true) : KeepsMem (execNcall i f x s) :=
  keepsMem_runEng (fun _ _ _ hs => by simp only [memOk_ncallLane, hs]) (fun _ _ hs => hs) h

theorem keepsMem_execNpin (i : Hdr) (f : EngFn) (x : BitVec 64) {s : State} (h : s.memOk = true) : KeepsMem (execNpin i f x s) :=
  keepsMem_runSet _ _ _ _ (fun _ _ _ _ _ hs => by simp only [State.memOk_pinSet, hs]) h

theorem keepsMem_execNunpin (i : Hdr) (f : EngFn) (x : BitVec 64) {s : State} (h : s.memOk = true) : KeepsMem (execNunpin i f x s) :=
  keepsMem_runSet _ _ _ _ (fun _ _ _ _ _ hs => hs) h

theorem keepsMem_execNpref (i : Hdr) (f : EngFn) (x : BitVec 64) {s : State} (h : s.memOk = true) : KeepsMem (execNpref i f x s) :=
  keepsMem_runSet _ _ _ _ (fun _ _ _ _ _ hs => by grind [State.memOk_wcPrefetch, State.memOk_foldl, State.memOk_foldl_fst]) h

theorem keepsMem_execNqry (i : Hdr) (f : EngFn) (x : BitVec 64) {s : State} (h : s.memOk = true) : KeepsMem (execNqry i f x s) :=
  keepsMem_runSet _ _ _ _ (fun _ _ _ _ _ hs => hs) h

theorem keepsMem_execNflsh (i : Hdr) (f : EngFn) (x : BitVec 64) {s : State} (h : s.memOk = true) : KeepsMem (execNflsh i f x s) :=
  keepsMem_runEngU (fun _ _ _ hs => by grind [State.memOk_flushBins]) h

theorem keepsMem_execTexn (i : Hdr) (f : EngFn) (x : BitVec 64) {s : State} (h : s.memOk = true) : KeepsMem (execTexn i f x s) := by
  refine keepsMem_next ?_
  grind [memOk_runPacket, memOk_quadWise, memOk_texnLane, memOk_memWise]

theorem keepsMem_execWtblSync (i : Hdr) (f : EngFn) (x : BitVec 64) {s : State} (h : s.memOk = true) : KeepsMem (execWtblSync i f x s) :=
  keepsMem_runWtbl _ _ _ (fun _ _ _ hs => by grind [State.memOk_flushBins, State.memOk_updAsu]) h

/-! ## Instructions and events: rays and beams -/

theorem keepsMem_execRayComplete (cl ray : Nat) {s : State} (h : s.memOk = true) : KeepsMem (execRayComplete cl ray s) := by
  refine keepsMem_next ?_
  grind [State.memOk_commitRay, memOk_rayStep, State.memOk_asRay, State.memOk_takeExit, State.memOk_landRay]

theorem keepsMem_execRayCachePlace (cl : Nat) {s : State} (h : s.memOk = true) : KeepsMem (execRayCachePlace cl s) := by
  refine keepsMem_next ?_
  grind [State.memOk_seatRay, State.memOk_updRay]

theorem keepsMem_execCallbackWaveStart (cl core ray : Nat) {s : State} (h : s.memOk = true) : KeepsMem (execCallbackWaveStart cl core ray s) := by
  refine keepsMem_next ?_
  split
  · exact h
  · split
    · split
      · exact State.memOk_getD h (fun t => memOk_callbackWave h _ _ _ _ _)
      · exact h
    · exact h

theorem keepsMem_execRtrace (i : Hdr) (f : EngFn) (x : BitVec 64) {s : State} (h : s.memOk = true) : KeepsMem (execRtrace i f x s) :=
  keepsMem_runEng (fun _ _ _ hs => by simp only [memOk_rtraceLane, hs]) (fun _ _ hs => hs) h

theorem keepsMem_execRld (i : Hdr) (f : EngFn) (x : BitVec 64) {s : State} (h : s.memOk = true) : KeepsMem (execRld i f x s) :=
  keepsMem_runEng (fun _ _ _ hs => by simp only [memOk_rldLane, hs]) (fun _ _ hs => hs) h

theorem keepsMem_execRst (i : Hdr) (f : EngFn) (x : BitVec 64) {s : State} (h : s.memOk = true) : KeepsMem (execRst i f x s) :=
  keepsMem_runWrites _ _ (fun _ _ _ hs => by simp only [memOk_rstLane, hs]) h

theorem keepsMem_execRverd (i : Hdr) (f : EngFn) (x : BitVec 64) {s : State} (h : s.memOk = true) : KeepsMem (execRverd i f x s) :=
  keepsMem_runEng (fun _ _ _ hs => by simp only [memOk_rverdLane, hs]) (fun _ _ hs => hs) h

theorem keepsMem_execRpool (i : Hdr) (f : EngFn) (x : BitVec 64) {s : State} (h : s.memOk = true) : KeepsMem (execRpool i f x s) :=
  keepsMem_runEng (fun _ _ _ hs => by simp only [memOk_rpoolLane, hs]) (fun _ _ hs => hs) h

theorem keepsMem_execRqry (i : Hdr) (f : EngFn) (x : BitVec 64) {s : State} (h : s.memOk = true) : KeepsMem (execRqry i f x s) :=
  keepsMem_runEngU (fun _ _ _ hs => by grind) h

theorem keepsMem_execBeam (i : Hdr) (f : EngFn) (x : BitVec 64) {s : State} (h : s.memOk = true) : KeepsMem (execBeam i f x s) :=
  keepsMem_runEng (fun _ _ _ hs => by simp only [memOk_beamLane, hs]) (fun _ _ hs => hs) h

theorem keepsMem_execBeamComplete (cl k : Nat) {s : State} (h : s.memOk = true) : KeepsMem (execBeamComplete cl k s) := by
  refine keepsMem_next ?_
  grind [State.memOk_updBeam, State.memOk_beamStep, memOk_beamPixel, memOk_beamEntry, State.memOk_landBeam]

/-! ## Instructions and events: the network -/

theorem keepsMem_execMulticastRequestArrive (k : Nat) {s : State} (h : s.memOk = true) : KeepsMem (execMulticastRequestArrive k s) := by
  refine keepsMem_next ?_
  simp only [State.memOk_arriveReq, h]

theorem keepsMem_execMulticastFill (slice k : Nat) {s : State} (h : s.memOk = true) : KeepsMem (execMulticastFill slice k s) := by
  refine keepsMem_next ?_
  grind [State.memOk_asOp, State.memOk_opDone, State.memOk_fillStop, State.memOk_meetUe, State.memOk_updFlight, State.memOk_readBy, memOk_updFill,
    State.memOk_endReads, State.memOk_dropRops, State.memOk_fillLines, State.memOk_copiesFor, State.memOk_foldl, State.memOk_foldl_fst]

theorem keepsMem_execMulticastEntryClose (k : Nat) {s : State} (h : s.memOk = true) : KeepsMem (execMulticastEntryClose k s) := by
  refine keepsMem_next ?_
  grind [State.memOk_closeEntries]

theorem keepsMem_execMulticastCopyAdvance (k : Nat) {s : State} (h : s.memOk = true) : KeepsMem (execMulticastCopyAdvance k s) := by
  refine keepsMem_next ?_
  grind [State.memOk_endCopy, State.memOk_asOp, State.memOk_count, State.memOk_landCopy]

theorem keepsMem_execBusBeatGrant (bus : Nat) {s : State} (h : s.memOk = true) : KeepsMem (execBusBeatGrant bus s) := by
  refine keepsMem_next ?_
  grind [State.memOk_dropDsts, State.memOk_beatDone, State.memOk_landBeat, State.memOk_asXfer, State.memOk_updCts, State.memOk_updXfer,
    State.memOk_foldl, State.memOk_foldl_fst]

theorem keepsMem_execBusTransferAdvance (bus k : Nat) {s : State} (h : s.memOk = true) : KeepsMem (execBusTransferAdvance bus k s) := by
  refine keepsMem_next ?_
  grind [State.memOk_xferDone, State.memOk_settleClaim, State.memOk_asXfer, State.memOk_updXfer, State.memOk_foldl, State.memOk_foldl_fst]

theorem keepsMem_execDrainStart (part : Nat) {s : State} (h : s.memOk = true) : KeepsMem (execDrainStart part s) := by
  refine keepsMem_next ?_
  grind [State.memOk_startDrain]

theorem keepsMem_execAmsg (i : Hdr) (f : EngFn) (x : BitVec 64) {s : State} (h : s.memOk = true) : KeepsMem (execAmsg i f x s) :=
  keepsMem_runEng (fun _ _ _ hs => by simp only [memOk_amsgLane, hs]) (fun _ _ hs => hs) h

theorem keepsMem_execAmsgQueueEnter (cl core : Nat) {s : State} (h : s.memOk = true) : KeepsMem (execAmsgQueueEnter cl core s) := by
  refine keepsMem_next ?_
  dsimp only
  (repeat' split) <;> simp only [State.memOk_moveMsg, State.memOk_resume, h]

theorem keepsMem_execAmsgRelayAdvance (k : Nat) {s : State} (h : s.memOk = true) : KeepsMem (execAmsgRelayAdvance k s) := by
  refine keepsMem_next ?_
  grind [State.memOk_moveMsg, State.memOk_leaveRelay]

/-! ## Instructions and events: debug -/

theorem keepsMem_execDebugStopr (cl core q : Nat) {s : State} (h : s.memOk = true) : KeepsMem (execDebugStopr cl core q s) := by
  refine keepsMem_next ?_
  simp only [State.memOk_quadStop, h]

theorem keepsMem_execDebugResm (cl core q : Nat) {s : State} (h : s.memOk = true) : KeepsMem (execDebugResm cl core q s) := by
  refine keepsMem_next ?_
  simp only [State.memOk_quadResume, h]

theorem keepsMem_execDebugStep (cl core q : Nat) {s : State} (h : s.memOk = true) : KeepsMem (execDebugStep cl core q s) := by
  refine keepsMem_next ?_
  simp only [State.memOk_quadStep, h]

theorem keepsMem_execDebugDump (cl core q : Nat) {s : State} (h : s.memOk = true) : KeepsMem (execDebugDump cl core q s) := by
  refine keepsMem_next ?_
  grind [State.memOk_quadDump]

theorem keepsMem_execDumpWrite (cl core q : Nat) {s : State} (h : s.memOk = true) : KeepsMem (execDumpWrite cl core q s) := by
  refine keepsMem_next ?_
  dsimp only
  (repeat' split) <;> simp only [State.memOk_svcWrite, State.memOk_setCsr, h]

theorem keepsMem_execDebugWrite (cl core tgt : Nat) {s : State} (h : s.memOk = true) : KeepsMem (execDebugWrite cl core tgt s) := by
  refine keepsMem_next ?_
  simp only [State.memOk_debugWrite, h]

theorem keepsMem_execDebugRead (cl core tgt : Nat) {s : State} (h : s.memOk = true) : KeepsMem (execDebugRead cl core tgt s) := by
  refine keepsMem_next ?_
  grind [State.memOk_debugRead]

theorem keepsMem_execWatchEval {s : State} (h : s.memOk = true) : KeepsMem (execWatchEval s) := by
  refine keepsMem_next ?_
  grind [State.memOk_count, State.memOk_updFlight, State.memOk_watchEnd]

theorem keepsMem_execSampleTag (cl core q wait : Nat) {s : State} (h : s.memOk = true) : KeepsMem (execSampleTag cl core q wait s) := by
  unfold execSampleTag
  extract_lets k start
  have hstart : ∀ t : State, t.memOk = true → (start t).memOk = true := fun t ht => by
    simp only [start]
    split
    · exact ht
    · exact State.memOk_updSvc ht _
  refine keepsMem_next ?_
  split
  · exact State.memOk_updSvc h _
  · split
    · split
      · exact hstart s h
      · exact h
    · split
      · exact h
      · split
        · exact h
        · exact hstart _ (State.memOk_updSvc (State.memOk_writeSample h _ _) _)

/-! ## Instructions and events: control registers -/

theorem keepsMem_execRegisterWrite (a : Nat) (data : DWord) {s : State} (h : s.memOk = true) : KeepsMem (execRegisterWrite a data s) := by
  refine keepsMem_next ?_
  grind [State.memOk_csrWrite]

theorem keepsMem_execStallCounterIncrement (a : Nat) {s : State} (h : s.memOk = true) : KeepsMem (execStallCounterIncrement a s) := by
  refine keepsMem_next ?_
  grind [State.memOk_loseSlot, State.memOk_stallUnit]

/-! ## Instructions and events: the host link -/

theorem keepsMem_execRoceSend (q : HostPkt) (bytes : List Byte) {s : State} (h : s.memOk = true) : KeepsMem (execRoceSend q bytes s) := by
  refine keepsMem_next ?_
  grind [State.memOk_arrive, State.memOk_send, State.memOk_addHop]

theorem keepsMem_execAmHandlerStart (cl core : Nat) {s : State} (h : s.memOk = true) : KeepsMem (execAmHandlerStart cl core s) := by
  refine keepsMem_next ?_
  split
  · next hf =>
    obtain ⟨cls, -, hc⟩ := List.exists_of_findSome?_eq_some hf
    obtain ⟨m, -, hm⟩ := Option.bind_eq_some_iff.mp hc
    exact State.memOk_startAm h _ _ _ hm
  · split
    · refine State.memOk_getD h (fun t ht => ?_)
      obtain ⟨k, -, hk⟩ := List.exists_of_findSome?_eq_some ht
      obtain ⟨r, -, hr⟩ := Option.bind_eq_some_iff.mp hk
      exact State.memOk_startRoot h _ _ hr
    · exact h

theorem keepsMem_execAttach (k : Nat) {s : State} (h : s.memOk = true) : KeepsMem (execAttach k s) :=
  keepsMem_rootHandler _ _ _ (fun _ _ hs => by grind [State.memOk]) h

theorem keepsMem_execCtxnew (k : Nat) {s : State} (h : s.memOk = true) : KeepsMem (execCtxnew k s) := by
  refine keepsMem_rootHandler _ _ _ (fun w s hs => ?_) h
  extract_lets adr
  split
  · exact hs
  · split
    · exact hs
    · split
      · exact hs
      · have hu := fun n a bs => State.memOk_svcWrite (State.memOk_updLink hs (fun l => { l with nextRid := n })) a bs
        dsimp only
        split
        · exact hu _ _ _
        · next e => exact State.memOk_clearQueue (State.memOk_writeTop (State.memOk_register (hu _ _ _) _ _ e) _) _

theorem keepsMem_execLaunch (k : Nat) {s : State} (h : s.memOk = true) : KeepsMem (execLaunch k s) :=
  keepsMem_rootHandler _ _ _ (fun _ _ hs => by grind [State.memOk_spawn]) h

theorem keepsMem_execCtxend (k : Nat) {s : State} (h : s.memOk = true) : KeepsMem (execCtxend k s) :=
  keepsMem_rootHandler _ _ _ (fun _ _ hs => by grind [State.memOk_updRegion]) h

theorem keepsMem_execQuery (k : Nat) {s : State} (h : s.memOk = true) : KeepsMem (execQuery k s) :=
  keepsMem_rootHandler _ _ _ (fun _ _ hs => hs) h

theorem keepsMem_execFabricMessageArrive (m : PeerPkt) {s : State} (h : s.memOk = true) : KeepsMem (execFabricMessageArrive m s) := by
  refine keepsMem_next ?_
  grind [State.memOk_arrive, State.memOk_fromPeer]

theorem keepsMem_execPriorityFlowControl (port prio : Nat) (pause : Bool) {s : State} (h : s.memOk = true) :
    KeepsMem (execPriorityFlowControl port prio pause s) := by
  refine keepsMem_next ?_
  grind [State.memOk_flushLink, State.memOk_updLink]

/-! ## Instructions and events: slots -/

theorem keepsMem_execPageWalk (rid va : Nat) {s : State} (h : s.memOk = true) : KeepsMem (execPageWalk rid va s) := by
  refine keepsMem_next ?_
  grind [State.memOk_pageWalk, State.memOk_settleRop, State.memOk_foldl, State.memOk_foldl_fst]

theorem keepsMem_execDrainComplete (part : Nat) {s : State} (h : s.memOk = true) : KeepsMem (execDrainComplete part s) := by
  refine keepsMem_next ?_
  grind [State.memOk_endDrain]

theorem keepsMem_execIssueSlot {s : State} (h : s.memOk = true) : KeepsMem (execIssueSlot s) := by
  refine keepsMem_next ?_
  grind [State.memOk_endSlot, State.memOk_slotQuad, State.memOk_chargeSlot, State.memOk_landOwed, State.memOk_countStalls, State.memOk_overdueDrains,
    State.memOk_recordErrors, State.memOk_age, State.memOk_newSlot, State.memOk_foldl, State.memOk_foldl_fst]

/-! ## Instructions and events: system instructions -/

theorem keepsMem_execCsrrd (i : Hdr) (f : EngFn) (x : BitVec 64) {s : State} (h : s.memOk = true) : KeepsMem (execCsrrd i f x s) :=
  keepsMem_runEngU (fun _ _ _ hs => by grind [memOk_withCsr]) h

theorem keepsMem_execCsrwr (i : Hdr) (f : EngFn) (x : BitVec 64) {s : State} (h : s.memOk = true) : KeepsMem (execCsrwr i f x s) :=
  keepsMem_runEngU (fun _ _ _ hs => by grind [memOk_withCsr, State.memOk_asService, State.memOk_csrWrite]) h

theorem keepsMem_execTret (i : Hdr) (f : EngFn) (x : BitVec 64) {s : State} (h : s.memOk = true) : KeepsMem (execTret i f x s) :=
  keepsMem_runEngU (fun _ _ _ hs => by grind [State.memOk_walksAfter, State.memOk_tretNow, State.memOk]) h

theorem keepsMem_execParkq (i : Hdr) (f : EngFn) (x : BitVec 64) {s : State} (h : s.memOk = true) : KeepsMem (execParkq i f x s) :=
  keepsMem_runEngU (fun _ _ _ hs => by grind) h

theorem keepsMem_execLanepc (i : Hdr) (f : EngFn) (x : BitVec 64) {s : State} (h : s.memOk = true) : KeepsMem (execLanepc i f x s) :=
  keepsMem_runEng (fun _ _ _ hs => by simp only [memOk_lanepcLane, hs]) (fun _ _ hs => hs) h

theorem keepsMem_execSvcallAtt (i : Hdr) (f : EngFn) (x : BitVec 64) {s : State} (h : s.memOk = true) : KeepsMem (execSvcallAtt i f x s) :=
  keepsMem_runSvcall _ _ _ _ (fun _ _ _ _ _ hs e => by grind [State.memOk_post, State.memOk_updSvc]) h

theorem keepsMem_execSvcallCert (i : Hdr) (f : EngFn) (x : BitVec 64) {s : State} (h : s.memOk = true) : KeepsMem (execSvcallCert i f x s) := by
  unfold execSvcallCert
  refine keepsMem_runSvcall _ _ _ _ (fun _ _ _ _ q hs e => ?_) h
  rw [← Option.some.inj e]
  exact State.memOk_post hs ..

theorem keepsMem_execIdle (i : Hdr) (f : EngFn) (x : BitVec 64) {s : State} (h : s.memOk = true) : KeepsMem (execIdle i f x s) := by
  refine keepsMem_next ?_
  grind [memOk_runPacketThen, memOk_uniMem, memOk_idleUni, memOk_idleDeliver]

/-! ## Instructions and events: the work distributor -/

theorem keepsMem_execGangRetire (gid : Nat) {s : State} (h : s.memOk = true) : KeepsMem (execGangRetire gid s) := by
  refine keepsMem_next ?_
  grind [State.memOk_retireGang]

theorem keepsMem_execRegionRetire (rid : Nat) {s : State} (h : s.memOk = true) : KeepsMem (execRegionRetire rid s) := by
  refine keepsMem_next ?_
  grind [State.memOk_dropRegion]

theorem keepsMem_execPreempt (cl core lid : Nat) {s : State} (h : s.memOk = true) : KeepsMem (execPreempt cl core lid s) := by
  refine keepsMem_next ?_
  dsimp only
  (repeat' split) <;> simp only [State.memOk_setShadows, State.memOk_place, h]

theorem keepsMem_execShadowSwap (cl core : Nat) {s : State} (h : s.memOk = true) : KeepsMem (execShadowSwap cl core s) := by
  refine keepsMem_next ?_
  dsimp only
  (repeat' split) <;> simp only [State.memOk_swapBanks, h]

theorem keepsMem_execTimeSliceExpire (rid cl core : Nat) {s : State} (h : s.memOk = true) : KeepsMem (execTimeSliceExpire rid cl core s) := by
  refine keepsMem_next ?_
  dsimp only
  (repeat' split) <;> simp only [State.memOk_swapBanks, h]

theorem keepsMem_execSpill (cl core : Nat) {s : State} (h : s.memOk = true) : KeepsMem (execSpill cl core s) := by
  refine keepsMem_next ?_
  grind [State.memOk_setShadows, State.memOk_saveCore, State.memOk_updWd, State.memOk_moveTo, State.memOk_foldl, State.memOk_foldl_fst, State.memOk]

theorem keepsMem_execShadowFill (cl core : Nat) {s : State} (h : s.memOk = true) : KeepsMem (execShadowFill cl core s) := by
  refine keepsMem_next ?_
  dsimp only
  (repeat' split) <;> simp only [State.memOk_fillDone, State.memOk_setShadows, State.memOk_moveTo, h]

/-! ## Instructions and events: deadlocks -/

theorem keepsMem_execDeadlockWalk {s : State} (h : s.memOk = true) : KeepsMem (execDeadlockWalk s) := by
  refine keepsMem_next ?_
  grind [State.memOk_reportKnot, State.memOk_foldl, State.memOk_foldl_fst]

/-! ## Instructions and events: containment -/

theorem keepsMem_execFaultRecordDeferredWrite (rid : Nat) {s : State} (h : s.memOk = true) : KeepsMem (execFaultRecordDeferredWrite rid s) := by
  refine keepsMem_next ?_
  simp only [State.memOk_writeRec, h]

theorem keepsMem_execFaultHandlerStart (rid cl core : Nat) {s : State} (h : s.memOk = true) : KeepsMem (execFaultHandlerStart rid cl core s) := by
  refine keepsMem_next ?_
  split
  · exact h
  · next r _ =>
    split
    · exact h
    · have hstart := fun i q cl core => State.memOk_getD h (fun t => State.memOk_startFault h r i q cl core (t := t))
      dsimp only
      (repeat' split) <;> simp only [h, hstart]

theorem keepsMem_execSvcFaultService (rid : Nat) {s : State} (h : s.memOk = true) : KeepsMem (execSvcFaultService rid s) := by
  refine keepsMem_next ?_
  grind [State.memOk_advanceCow, State.memOk_svcServe, State.memOk_dispatched, State.memOk]

theorem keepsMem_execServiceBudgetExceed (rid : Nat) {s : State} (h : s.memOk = true) : KeepsMem (execServiceBudgetExceed rid s) := by
  refine keepsMem_next ?_
  grind [State.memOk]

theorem keepsMem_execStepEnd (rid : Nat) {s : State} (h : s.memOk = true) : KeepsMem (execStepEnd rid s) := by
  refine keepsMem_next ?_
  grind [State.memOk_sendPeers, State.memOk_updRegion, State.memOk_beginStep, State.memOk_release, State.memOk_acquireLane, State.memOk_joinLane,
    State.memOk_foldl, State.memOk_foldl_fst]

theorem keepsMem_execFatalFault (rid code : Nat) {s : State} (h : s.memOk = true) : KeepsMem (execFatalFault rid code s) := by
  refine keepsMem_next ?_
  grind [State.memOk_endSubtree, State.memOk_startAbort, State.memOk]

theorem keepsMem_execAbortTokenReceive (rid peer step : Nat) (orig : Bool) (code : Nat) {s : State} (h : s.memOk = true) :
    KeepsMem (execAbortTokenReceive rid peer step orig code s) := by
  refine keepsMem_next ?_
  dsimp only
  (repeat' split) <;> simp only [State.memOk_startAbort, State.memOk_updRegion, h]

theorem keepsMem_execAbortAgree (rid : Nat) {s : State} (h : s.memOk = true) : KeepsMem (execAbortAgree rid s) := by
  refine keepsMem_next ?_
  grind [State.memOk_startAbnd, State.memOk_agreeOn]

theorem keepsMem_execAbortTokenTimeout (rid peer : Nat) {s : State} (h : s.memOk = true) : KeepsMem (execAbortTokenTimeout rid peer s) := by
  refine keepsMem_next ?_
  grind [State.memOk_endGroup]

/-! ## Instructions and events: service life -/

theorem keepsMem_execSliceSpareTakeover (slice spare : Nat) {s : State} (h : s.memOk = true) : KeepsMem (execSliceSpareTakeover slice spare s) := by
  refine keepsMem_next ?_
  grind [State.memOk_takeSpare, State.memOk_writeRoutes]

theorem keepsMem_execChannelSpareMigrate (ch spare : Nat) {s : State} (h : s.memOk = true) : KeepsMem (execChannelSpareMigrate ch spare s) := by
  refine keepsMem_next ?_
  grind [State.memOk_takeSpare]

theorem keepsMem_execCoreSpareMigrate (cl core : Nat) {s : State} (h : s.memOk = true) : KeepsMem (execCoreSpareMigrate cl core s) := by
  refine keepsMem_next ?_
  grind [State.memOk_migrated, State.memOk_setSvcBit, State.memOk_met, State.memOk_meetWaves, State.memOk_markMig, State.memOk_loseSlots,
    State.memOk_foldl, State.memOk_foldl_fst]

theorem keepsMem_execLaneSpareRetrain (port : Nat) {s : State} (h : s.memOk = true) : KeepsMem (execLaneSpareRetrain port s) := by
  refine keepsMem_next ?_
  grind [State.memOk_markMig, State.memOk_migrated, State.memOk_setSvcBit]

theorem keepsMem_execSparesExhausted (kind unit : Nat) {s : State} (h : s.memOk = true) : KeepsMem (execSparesExhausted kind unit s) := by
  refine keepsMem_next ?_
  grind [State.memOk_raiseHigh, State.memOk_setSvcBit, State.memOk_met, State.memOk_portDown]

theorem keepsMem_execErrorRecord (group unit : Nat) (ue consumed : Bool) (src addr info : Nat) {s : State} (h : s.memOk = true) :
    KeepsMem (execErrorRecord group unit ue consumed src addr info s) := by
  refine keepsMem_next ?_
  dsimp only
  (repeat' split) <;> simp only [State.memOk_enterError, State.memOk_poisoned, h]

theorem keepsMem_execWearSample (group unit wmpd wmrt : Nat) {s : State} (h : s.memOk = true) : KeepsMem (execWearSample group unit wmpd wmrt s) := by
  refine keepsMem_next ?_
  grind [State.memOk_setCsr, State.memOk_margin, State.memOk_updSvc]

theorem keepsMem_execTelemetrySample (reg : Nat) (value : DWord) (high : Bool) {s : State} (h : s.memOk = true) :
    KeepsMem (execTelemetrySample reg value high s) := by
  refine keepsMem_next ?_
  dsimp only
  (repeat' split) <;> simp only [State.memOk_setCsr, State.memOk_raiseHigh, h]

theorem keepsMem_execThermalStop {s : State} (h : s.memOk = true) : KeepsMem (execThermalStop s) := by
  refine keepsMem_next (State.memOk_updSvc (State.memOk_foldl (fun s x hs => ?_) _ h) _)
  split
  · exact hs
  · exact State.memOk_stopQuad hs _ _ _ _

theorem keepsMem_execModuleReset {s : State} (h : s.memOk = true) : KeepsMem (execModuleReset s) :=
  keepsMem_next (State.memOk_boot (State.memOk_afterReset h))

/-! ## Every instruction and event -/

theorem keepsMem_exec (i : Instr) {s : State} (h : s.memOk = true) : KeepsMem (exec i s) := by
  cases i with
  | iadd | isub | imul | imulh | imad | idiv | irem | imin | imax | iabs | ineg | and | or | xor | not | lop3 | shl | shr | rot | fshf | bfx
    | bfi | popc | clz | ctz | brev | prmt | lea | iaddc | isad | idp4 | movi | fadd | fsub | fmul | ffma | fmin | fmax | fdiv | fsqrt
    | frcp | frsq | fexp2 | flog2 | fsin | fcos | ftanh | fsigm | ffrc | frnd | fldx | fcls | hadd2 | hmul2 | hfma2 | hmnx2 | dadd | dmul
    | dfma | ddiv | dsqrt | fdot2 | fdotn | fmed3 | cvt | cvtw | npack | nunpk | fmtst | flgrd | isetp | fsetp | psetp | sel | mov | getsr =>
    exact keepsMem_compute _ _ h
  | srseed | flgcl =>
    exact keepsMem_lanes _ (fun _ _ _ hs => hs) h
  | movs =>
    exact keepsMem_uni _ (fun _ _ _ hs => hs) h
  | shfl | vote | matchLanes | scan | elect | xchgm | quads | ddx | ddy =>
    exact keepsMem_pure _ _ h
  | bra | brx | ret | yield | nop | trap | wfi =>
    exact keepsMem_runCode (fun _ _ _ hs => hs) (fun _ _ hs => hs) h
  | mjoin | mleave | mset =>
    exact keepsMem_runMask _ _ _ _ _ h
  | tex | tld | tqry | covrd =>
    exact keepsMem_runTex _ _ _ _ _ _ h
  | segld | segrd =>
    exact keepsMem_runEngU (fun _ _ _ hs => hs) h
  | rcbopQry | rcbopAdr =>
    exact keepsMem_runRcbop _ _ _ (fun _ _ _ hs => hs) h
  | tlbopVa | tlbopAll | tlbopSva | tlbopSid | tlbopPart =>
    exact keepsMem_runTlbop _ _ _ _ h
  | wtblUnpin =>
    exact keepsMem_runWtbl _ _ _ (fun _ _ _ hs => hs) h
  | launchAged | groupActivate | gddrRefresh | memoryScrub | retransmissionTimeout =>
    exact keepsMem_next h
  | taskXput | taskXget | taskXred =>
    exact keepsMem_crossStep _ _ _ h
  | rdmaWrite | rdmaRead =>
    exact keepsMem_execRdma _ _ _ _ _ h
  | cvtn i f x => exact keepsMem_execCvtn i f x h
  | fmtld i f x => exact keepsMem_execFmtld i f x h
  | ballot i f x => exact keepsMem_execBallot i f x h
  | redux i f x => exact keepsMem_execRedux i f x h
  | call i f x => exact keepsMem_execCall i f x h
  | callx i f x => exact keepsMem_execCallx i f x h
  | exit i f x => exact keepsMem_execExit i f x h
  | bkpt i f x => exact keepsMem_execBkpt i f x h
  | sleep i f x => exact keepsMem_execSleep i f x h
  | mwait i f x => exact keepsMem_execMwait i f x h
  | mops i f x => exact keepsMem_execMops i f x h
  | bar i f x => exact keepsMem_execBar i f x h
  | bararr i f x => exact keepsMem_execBararr i f x h
  | barwt i f x => exact keepsMem_execBarwt i f x h
  | twait i f x => exact keepsMem_execTwait i f x h
  | ttest i f x => exact keepsMem_execTtest i f x h
  | sstep i f x => exact keepsMem_execSstep i f x h
  | uiret i f x => exact keepsMem_execUiret i f x h
  | uimsk i f x => exact keepsMem_execUimsk i f x h
  | ld i f x => exact keepsMem_execLd i f x h
  | st i f x => exact keepsMem_execSt i f x h
  | ldx i f x => exact keepsMem_execLdx i f x h
  | stx i f x => exact keepsMem_execStx i f x h
  | ldc i f x => exact keepsMem_execLdc i f x h
  | atom i f x => exact keepsMem_execAtom i f x h
  | red i f x => exact keepsMem_execRed i f x h
  | ldmc i f x => exact keepsMem_execLdmc i f x h
  | fence i f x => exact keepsMem_execFence i f x h
  | pref i f x => exact keepsMem_execPref i f x h
  | cmaint i f x => exact keepsMem_execCmaint i f x h
  | gjoin i f x => exact keepsMem_execGjoin i f x h
  | tkpost i f x => exact keepsMem_execTkpost i f x h
  | tkdep i f x => exact keepsMem_execTkdep i f x h
  | tksig i f x => exact keepsMem_execTksig i f x h
  | tkwait i f x => exact keepsMem_execTkwait i f x h
  | tkcmt i f x => exact keepsMem_execTkcmt i f x h
  | tkdis i f x => exact keepsMem_execTkdis i f x h
  | cbini i f x => exact keepsMem_execCbini i f x h
  | cbpsh i f x => exact keepsMem_execCbpsh i f x h
  | cbpop i f x => exact keepsMem_execCbpop i f x h
  | cbwt i f x => exact keepsMem_execCbwt i f x h
  | cbqry i f x => exact keepsMem_execCbqry i f x h
  | evset i f x => exact keepsMem_execEvset i f x h
  | amsg i f x => exact keepsMem_execAmsg i f x h
  | fetchw i f x => exact keepsMem_execFetchw i f x h
  | spawn i f x => exact keepsMem_execSpawn i f x h
  | tcpy i f x => exact keepsMem_execTcpy i f x h
  | tcpyw i f x => exact keepsMem_execTcpyw i f x h
  | mma i f x => exact keepsMem_execMma i f x h
  | mmas i f x => exact keepsMem_execMmas i f x h
  | mrpg i f x => exact keepsMem_execMrpg i f x h
  | stopn i f x => exact keepsMem_execStopn i f x h
  | stnxt i f x => exact keepsMem_execStnxt i f x h
  | stskp i f x => exact keepsMem_execStskp i f x h
  | stsav i f x => exact keepsMem_execStsav i f x h
  | strst i f x => exact keepsMem_execStrst i f x h
  | stcls i f x => exact keepsMem_execStcls i f x h
  | isect i f x => exact keepsMem_execIsect i f x h
  | gsx i f x => exact keepsMem_execGsx i f x h
  | ssx i f x => exact keepsMem_execSsx i f x h
  | ssxa i f x => exact keepsMem_execSsxa i f x h
  | ncall i f x => exact keepsMem_execNcall i f x h
  | npin i f x => exact keepsMem_execNpin i f x h
  | nunpin i f x => exact keepsMem_execNunpin i f x h
  | npref i f x => exact keepsMem_execNpref i f x h
  | nqry i f x => exact keepsMem_execNqry i f x h
  | nflsh i f x => exact keepsMem_execNflsh i f x h
  | texn i f x => exact keepsMem_execTexn i f x h
  | rtrace i f x => exact keepsMem_execRtrace i f x h
  | rld i f x => exact keepsMem_execRld i f x h
  | rst i f x => exact keepsMem_execRst i f x h
  | rverd i f x => exact keepsMem_execRverd i f x h
  | beam i f x => exact keepsMem_execBeam i f x h
  | rpool i f x => exact keepsMem_execRpool i f x h
  | rqry i f x => exact keepsMem_execRqry i f x h
  | csrrd i f x => exact keepsMem_execCsrrd i f x h
  | csrwr i f x => exact keepsMem_execCsrwr i f x h
  | tret i f x => exact keepsMem_execTret i f x h
  | parkq i f x => exact keepsMem_execParkq i f x h
  | lanepc i f x => exact keepsMem_execLanepc i f x h
  | rcbopReg i f x => exact keepsMem_execRcbopReg i f x h
  | rcbopRet i f x => exact keepsMem_execRcbopRet i f x h
  | rcbopUpd i f x => exact keepsMem_execRcbopUpd i f x h
  | svcallAtt i f x => exact keepsMem_execSvcallAtt i f x h
  | svcallCert i f x => exact keepsMem_execSvcallCert i f x h
  | wtblSync i f x => exact keepsMem_execWtblSync i f x h
  | idle i f x => exact keepsMem_execIdle i f x h
  | issueSlot => exact keepsMem_execIssueSlot h
  | instructionFill core rid blk => exact keepsMem_execInstructionFill core rid blk h
  | shortResultLand k => exact keepsMem_execShortResultLand k h
  | runaheadLand uid lane tok => exact keepsMem_execRunaheadLand uid lane tok h
  | memuePark uid lane => exact keepsMem_execMemuePark uid lane h
  | sleepExpire uid lane => exact keepsMem_execSleepExpire uid lane h
  | uiDeliver uid => exact keepsMem_execUiDeliver uid h
  | faultRecordDeferredWrite rid => exact keepsMem_execFaultRecordDeferredWrite rid h
  | faultHandlerStart rid cl core => exact keepsMem_execFaultHandlerStart rid cl core h
  | svcFaultService rid => exact keepsMem_execSvcFaultService rid h
  | serviceBudgetExceed rid => exact keepsMem_execServiceBudgetExceed rid h
  | stepEnd rid => exact keepsMem_execStepEnd rid h
  | wdPlaceGang lid cl core => exact keepsMem_execWdPlaceGang lid cl core h
  | fetchwServe k => exact keepsMem_execFetchwServe k h
  | preempt cl core lid => exact keepsMem_execPreempt cl core lid h
  | timeSliceExpire rid cl core => exact keepsMem_execTimeSliceExpire rid cl core h
  | shadowSwap cl core => exact keepsMem_execShadowSwap cl core h
  | shadowFill cl core => exact keepsMem_execShadowFill cl core h
  | spill cl core => exact keepsMem_execSpill cl core h
  | gangRetire gid => exact keepsMem_execGangRetire gid h
  | regionRetire rid => exact keepsMem_execRegionRetire rid h
  | multicastRequestArrive k => exact keepsMem_execMulticastRequestArrive k h
  | multicastEntryClose k => exact keepsMem_execMulticastEntryClose k h
  | multicastCopyAdvance k => exact keepsMem_execMulticastCopyAdvance k h
  | busBeatGrant bus => exact keepsMem_execBusBeatGrant bus h
  | busTransferAdvance bus k => exact keepsMem_execBusTransferAdvance bus k h
  | drainStart part => exact keepsMem_execDrainStart part h
  | drainComplete part => exact keepsMem_execDrainComplete part h
  | sliceSpareTakeover slice spare => exact keepsMem_execSliceSpareTakeover slice spare h
  | amsgQueueEnter cl core => exact keepsMem_execAmsgQueueEnter cl core h
  | amsgRelayAdvance k => exact keepsMem_execAmsgRelayAdvance k h
  | amHandlerStart cl core => exact keepsMem_execAmHandlerStart cl core h
  | taskFire cl slot unit => exact keepsMem_execTaskFire cl slot unit h
  | taskComplete cl slot => exact keepsMem_execTaskComplete cl slot h
  | taskCopyIn cl slot => exact keepsMem_execTaskCopyIn cl slot h
  | taskCopyOut cl slot => exact keepsMem_execTaskCopyOut cl slot h
  | taskCopy cl slot => exact keepsMem_execTaskCopy cl slot h
  | taskMma cl slot => exact keepsMem_execTaskMma cl slot h
  | taskMmas cl slot => exact keepsMem_execTaskMmas cl slot h
  | taskGsx cl slot => exact keepsMem_execTaskGsx cl slot h
  | taskSsx cl slot => exact keepsMem_execTaskSsx cl slot h
  | taskSsxa cl slot => exact keepsMem_execTaskSsxa cl slot h
  | engineSuspend ekind cl obj => exact keepsMem_execEngineSuspend ekind cl obj h
  | asuCallBin cl => exact keepsMem_execAsuCallBin cl h
  | binAgeDispatch cl bin => exact keepsMem_execBinAgeDispatch cl bin h
  | tileEnter cl => exact keepsMem_execTileEnter cl h
  | tilePlace cl core => exact keepsMem_execTilePlace cl core h
  | tileRowWriteback cl tile => exact keepsMem_execTileRowWriteback cl tile h
  | tileFail cl tile code => exact keepsMem_execTileFail cl tile code h
  | rayCachePlace cl => exact keepsMem_execRayCachePlace cl h
  | callbackWaveStart cl core ray => exact keepsMem_execCallbackWaveStart cl core ray h
  | rayComplete cl ray => exact keepsMem_execRayComplete cl ray h
  | beamComplete cl k => exact keepsMem_execBeamComplete cl k h
  | stnxtDeliver k => exact keepsMem_execStnxtDeliver k h
  | pageWalk rid va => exact keepsMem_execPageWalk rid va h
  | deadlockWalk => exact keepsMem_execDeadlockWalk h
  | fatalFault rid code => exact keepsMem_execFatalFault rid code h
  | abortTokenReceive rid peer step orig code => exact keepsMem_execAbortTokenReceive rid peer step orig code h
  | abortAgree rid => exact keepsMem_execAbortAgree rid h
  | abortTokenTimeout rid peer => exact keepsMem_execAbortTokenTimeout rid peer h
  | roceSend qp bytes => exact keepsMem_execRoceSend qp bytes h
  | attach k => exact keepsMem_execAttach k h
  | ctxnew k => exact keepsMem_execCtxnew k h
  | launch k => exact keepsMem_execLaunch k h
  | ctxend k => exact keepsMem_execCtxend k h
  | query k => exact keepsMem_execQuery k h
  | debugStopr cl core q => exact keepsMem_execDebugStopr cl core q h
  | debugResm cl core q => exact keepsMem_execDebugResm cl core q h
  | debugStep cl core q => exact keepsMem_execDebugStep cl core q h
  | debugDump cl core q => exact keepsMem_execDebugDump cl core q h
  | dumpWrite cl core q => exact keepsMem_execDumpWrite cl core q h
  | debugWrite cl core tgt => exact keepsMem_execDebugWrite cl core tgt h
  | debugRead cl core tgt => exact keepsMem_execDebugRead cl core tgt h
  | watchEval => exact keepsMem_execWatchEval h
  | sampleTag cl core q wait => exact keepsMem_execSampleTag cl core q wait h
  | registerWrite addr data => exact keepsMem_execRegisterWrite addr data h
  | coreSpareMigrate cl core => exact keepsMem_execCoreSpareMigrate cl core h
  | channelSpareMigrate ch spare => exact keepsMem_execChannelSpareMigrate ch spare h
  | laneSpareRetrain port => exact keepsMem_execLaneSpareRetrain port h
  | sparesExhausted kind unit => exact keepsMem_execSparesExhausted kind unit h
  | errorRecord group unit ue consumed src addr info => exact keepsMem_execErrorRecord group unit ue consumed src addr info h
  | wearSample group unit wmpd wmrt => exact keepsMem_execWearSample group unit wmpd wmrt h
  | telemetrySample reg value high => exact keepsMem_execTelemetrySample reg value high h
  | thermalStop => exact keepsMem_execThermalStop h
  | moduleReset => exact keepsMem_execModuleReset h
  | admissionChecksComplete uid lane => exact keepsMem_execAdmissionChecksComplete uid lane h
  | fabricMessageArrive msg => exact keepsMem_execFabricMessageArrive msg h
  | priorityFlowControl port prio pause => exact keepsMem_execPriorityFlowControl port prio pause h
  | stallCounterIncrement addr => exact keepsMem_execStallCounterIncrement addr h
  | multicastFill slice k => exact keepsMem_execMulticastFill slice k h

/-! ## The step -/

theorem keepsMem_counted {o : Out} (h : KeepsMem o) : KeepsMem (counted o) := by
  cases o with
  | next t => exact keepsMem_next (t := { t with tick := t.tick + 1 }) (h t rfl)
  | fault | refused => rintro t ⟨⟩

theorem keepsMem_step {s : State} (h : s.memOk = true) : KeepsMem (step s) := by
  unfold step
  split
  · next ps _ =>
    split
    · exact keepsMem_counted (keepsMem_exec _ h)
    · exact keepsMem_counted (keepsMem_next (State.memOk_endSlot (State.memOk_fetchFault (s := { s with packets := ps }) h _ _)))
  · exact keepsMem_counted (keepsMem_exec _ h)

/-- Settles O57: every instruction and event goes on only to states whose byte memories are in their canonical form. -/
theorem stepKeepsMemory : Obligations.StepKeepsMemory := by
  unfold Obligations.StepKeepsMemory
  exact fun s t h => keepsMem_step h t

end Sys2Proof.Machine
end

section
/-!
PROOF. Neural calls, residency and WTBL (R359 to R363): what each lane or wave answers under its conditions.
-/

namespace Sys2Proof.Machine

/-! ## The wave as an instruction first found it (R74) -/

/-- Only the segments differ. -/
theorem Wave.atIssue_eq (w : Wave) (l : Nat) : w.atIssue l = { w with g := (w.atIssue l).g } := by
  unfold Wave.atIssue
  split <;> rfl

section
variable {c : Ctx} {s : State} (hw : (s.wave? c.uid).isSome) (l : Nat)
include hw

theorem issued?_of_isSome : s.issued? c.uid l = some (issuedOf c s l) := by
  rw [issuedOf_eq hw, State.issued?, wave?_of_isSome hw, Option.map_some]

/-- The issued wave is the wave of the packet but for its segments. -/
theorem issuedOf_waveOf : issuedOf c s l = { waveOf c s with g := (issuedOf c s l).g } := by
  rw [issuedOf_eq hw]
  exact Wave.atIssue_eq _ _

theorem issuedOf_rid : (issuedOf c s l).rid = (waveOf c s).rid := by rw [issuedOf_waveOf hw]

theorem issuedOf_cl : (issuedOf c s l).cl = (waveOf c s).cl := by rw [issuedOf_waveOf hw]

theorem issuedOf_quadFlag : (issuedOf c s l).quadFlag = (waveOf c s).quadFlag := by rw [issuedOf_waveOf hw]

theorem issuedOf_tokPending (k i : Nat) : (issuedOf c s l).tokPending k i = (waveOf c s).tokPending k i := by
  rw [issuedOf_waveOf hw]
  rfl

end

/-! ## Neural calls (R359, R362) -/

/-- The handle of a call: a scalar where the instruction names one, else the lane's register. -/
def callHandle (c : Ctx) (s : State) (l : Nat) : Nat :=
  (if c.e.h.mx = 0x1 then s.readS c.uid c.e.h.c.toNat else s.readV c.uid l c.e.h.c.toNat).toNat % 2 ^ 16

/-- NCALL with its token free and a record that agrees: the call waits at the unit (R359). -/
theorem ncallLane_calls {c : Ctx} {s : State} {l a r : Nat} (hw : (s.wave? c.uid).isSome) (hgr : s.granted 0 = true)
    (htok : (waveOf c s).tokPending c.e.h.d.toNat l = false) (hrec : s.nsRead (issuedOf c s l) (callHandle c s l) = .ok (a, r))
    (hni : nsNIN r = bitsAt c.e.x.toNat 0 5) (hno : nsNOUT r = bitsAt c.e.x.toNat 5 4) :
    ncallLane c s l =
      let t := s.noteVa (waveOf c s).rid a 128
      (t.startCall (issuedOf c s l) (mkCall t (issuedOf c s l) l c.e.h.d.toNat a r c.e.h.a.toNat (nsNOUT r + 1)
        ((List.range (nsNIN r + 1)).map (fun i => (s.readV c.uid l (c.e.h.b.toNat + i)).toNat)) 0), inCall c) := by
  rw [← issuedOf_tokPending hw l] at htok
  unfold callHandle at hrec
  simp only [ncallLane, issued?_of_isSome hw, hgr, htok, hrec, hni, hno, issuedOf_rid hw, ne_eq, not_true_eq_false, decide_false,
    Bool.or_self, Bool.false_eq_true, if_false]

/-- A TEXN whose descriptor, record and samples can be read has these inputs (R362). -/
theorem texnSample_ok {c : Ctx} {s : State} {l a r d fl : Nat} {chs : List Nat} {m : TMem} (hw : (s.wave? c.uid).isSome) (hgr : s.granted 0 = true)
    (htok : (waveOf c s).tokPending c.e.h.d.toNat l = false)
    (hrec : s.nsRead (issuedOf c s l) (s.readRegs c.uid 0 .s c.e.h.c.toNat 1 % 2 ^ 16) = .ok (a, r))
    (hdesc : s.texnDesc (waveOf c s).rid (s.readRegs c.uid 0 .s (c.e.h.c.toNat + 2) 2 % 2 ^ 56) = .ok d)
    (hni : nsNIN r + 1 = txCh d + bitsAt c.e.x.toNat 4 5) (hno : nsNOUT r = bitsAt c.e.x.toNat 0 4)
    (hsmp : samplerBad (s.readRegs c.uid 0 .s (c.e.h.c.toNat + 1) 1) = false)
    (hquad : bitsAt c.e.x.toNat 9 2 = 1 → (waveOf c s).quadFlag = true)
    (hchs : s.texChannels c l c.e.h.b.toNat (bitsAt c.e.x.toNat 9 2) d (s.readRegs c.uid 0 .s (c.e.h.c.toNat + 1) 1) 0 (txCh d) = .ok (chs, fl, m))
    (hue : m.ue = none) :
    texnSample c s l = .ok (a, r, chs ++ (List.range (bitsAt c.e.x.toNat 4 5)).map (fun i =>
      (s.readV c.uid l (c.e.h.b.toNat + (if bitsAt c.e.x.toNat 9 2 = 0 then 3 else 2) + i)).toNat), fl, m) := by
  have hq : (decide (bitsAt c.e.x.toNat 9 2 = 1) && !(waveOf c s).quadFlag) = false := by
    by_cases h1 : bitsAt c.e.x.toNat 9 2 = 1 <;> simp [h1, hquad]
  rw [← issuedOf_tokPending hw l] at htok
  simp only [texnSample, issued?_of_isSome hw, issuedOf_rid hw, issuedOf_quadFlag hw, hgr, htok, hrec, hdesc, hni, hno, hsmp, hq, hchs, hue, ne_eq,
    not_true_eq_false, decide_false, Bool.or_self, Bool.false_eq_true, if_false]

/-- The state once a TEXN has read its record, its descriptor and its texels. -/
def State.sampled (s : State) (c : Ctx) (a : Nat) (m : TMem) : State :=
  ((s.noteVa (waveOf c s).rid a 128).noteVa (waveOf c s).rid (s.readRegs c.uid 0 .s (c.e.h.c.toNat + 2) 2 % 2 ^ 56) 32).noteRead m.locs none

theorem texnLane_calls {c : Ctx} {s : State} {l a r fl : Nat} {ins : List Nat} {m : TMem} (hw : (s.wave? c.uid).isSome)
    (h : texnSample c s l = .ok (a, r, ins, fl, m)) :
    texnLane c s l =
      ((s.sampled c a m).startCall (issuedOf c s l) (mkCall (s.sampled c a m) (issuedOf c s l) l c.e.h.d.toNat a r c.e.h.a.toNat (nsNOUT r + 1) ins fl),
        inCall c) := by
  simp only [texnLane, issued?_of_isSome hw, h, issuedOf_rid hw, State.sampled]

/-- Settles O26: the lane of each passes its checks, and TEXN issues quad-whole where its derivatives are implicit. -/
theorem neuralCallsComplete : Obligations.NeuralCallsComplete := by
  intro h f x a r d fl chs m handle regs open' call scal at' lodm samples calls
  have htexn : ∀ c s l, c.e = enc 0xD9 h (engFnBits f) x → samples c s l →
      texnLane c s l = ((calls c s l).1, .ok (calls c s l).2) ∧ ∃ o, texnPre c s l = .ok o := by
    intro c s l hc hp
    obtain ⟨⟨hw, hgr, htok⟩, hrec, hdesc, hni, hno, hsmp, hquad, hchs, hue⟩ := hp
    obtain rfl : c.e.h = h := congrArg Enc.h hc
    obtain rfl : c.e.x = x := congrArg Enc.x hc
    have hs := texnSample_ok hw hgr htok hrec hdesc hni hno hsmp hquad hchs hue
    exact ⟨texnLane_calls hw hs, {}, by simp only [texnPre, hs]⟩
  refine ⟨?ncall, fun hl => ?texn, fun hl => ?quad⟩
  case ncall =>
    refine DoesMem.of_lane rfl (fun _ => rfl) (fun c s l hc _ hp => ?_)
    obtain ⟨⟨hw, hgr, htok⟩, hrec, hni, hno⟩ := hp
    obtain rfl : c.e.h = h := congrArg Enc.h hc
    obtain rfl : c.e.x = x := congrArg Enc.x hc
    exact ncallLane_calls hw hgr htok hrec hni hno
  case texn =>
    refine DoesMem.of_lane rfl (fun s => ?_) (fun c s l hc _ hp => (htexn c s l hc hp).1)
    change execTexn h f x s = _
    rw [execTexn, if_neg hl]
    rfl
  case quad =>
    refine DoesQuad.of_lane rfl (fun s => ?_) (fun c s l hc _ hp => htexn c s l hc hp)
    change execTexn h f x s = _
    rw [execTexn, if_pos hl]
    rfl

/-! ## Residency (R360, R361) -/

/-- What the residency instructions share: once per wave, on the set whose record scalar A names. -/
def setUni (g : Ctx → State → Wave → Nat → Nat → State × UniOut) (c : Ctx) (s : State) (l : Nat) : State × Except LFault UniOut :=
  match s.issued? c.uid l, s.granted 0 with
  | some w, true =>
    match s.nsRead w (s.handleA c) with
    | .error e => (s, .error e)
    | .ok (a, r) => let q := g c (s.noteVa w.rid a 128) w a r; (q.1, .ok q.2)
  | _, _ => (s, .error illegal7)

/-- On a readable record a residency instruction does what its form does to the set. -/
theorem setUni_readable {g : Ctx → State → Wave → Nat → Nat → State × UniOut} {c : Ctx} {s : State} {l a r : Nat} (hw : (s.wave? c.uid).isSome)
    (hgr : s.granted 0 = true) (hrec : s.nsRead (issuedOf c s l) (s.handleA c) = .ok (a, r)) :
    setUni g c s l =
      let q := g c (s.noteVa (waveOf c s).rid a 128) (issuedOf c s l) a r
      (q.1, .ok q.2) := by
  simp only [setUni, issued?_of_isSome hw, hgr, hrec, issuedOf_rid hw]

/-- A residency instruction completes where its record can be read. -/
theorem DoesOnceMem.of_set {i : Instr} {op : BitVec 8} {h : Hdr} {f : EngFn} {x : BitVec 64} {g : Ctx → State → Wave → Nat → Nat → State × UniOut}
    {a r : Ctx → Nat} {F : Ctx → State → Nat → State × UniOut} (he : encOf i = some (enc op h (engFnBits f) x)) (hx : ∀ s, exec i s = runSet op h f x g s)
    (hstart : ∀ e s, slotStart i e s = s) (hend : ∀ s, slotEnd i s = s)
    (hg : ∀ c s l, c.e.h = h → (s.wave? c.uid).isSome → g c (s.noteVa (waveOf c s).rid (a c) 128) (issuedOf c s l) (a c) (r c) = F c s l) :
    DoesOnceMem i (fun c s l => (s.wave? c.uid).isSome ∧ s.granted 0 = true ∧ s.nsRead (issuedOf c s l) (s.handleA c) = .ok (a c, r c)) F noPost := by
  refine DoesOnceMem.of_uni (g := setUni g) he (fun s => ?_) (fun c s l hc _ ⟨hw, hgr, hrec⟩ => ?_)
  · rw [hx, hstart, hend]
    rfl
  · rw [setUni_readable hw hgr hrec, hg c s l (congrArg Enc.h hc) hw]

/-- Settles O27: a residency instruction does what its form does to the set, and NFLSH takes the branch of its form. -/
theorem residencyInstructionsComplete : Obligations.ResidencyInstructionsComplete := by
  intro h f x a r set read lines unit g6
  refine ⟨?npin, ?nunpin, ?npref, ?nqry, fun hf => ?wave, fun hf => ?handle, fun hf => ?region⟩
  case npin =>
    refine DoesOnceMem.of_set rfl (fun s => (rfl : execNpin h f x s = _)) (fun _ _ => rfl) (fun _ => rfl) (fun c s l hc hw => ?_)
    obtain rfl := hc
    rfl
  case nqry =>
    refine DoesOnceMem.of_set rfl (fun s => (rfl : execNqry h f x s = _)) (fun _ _ => rfl) (fun _ => rfl) (fun c s l hc hw => ?_)
    obtain rfl := hc
    rfl
  case nunpin =>
    refine DoesOnceMem.of_set rfl (fun s => (rfl : execNunpin h f x s = _)) (fun _ _ => rfl) (fun _ => rfl) (fun c s l hc hw => ?_)
    simp only [issuedOf_rid hw, issuedOf_cl hw, lines, read]
  case npref =>
    refine DoesOnceMem.of_set rfl (fun s => (rfl : execNpref h f x s = _)) (fun _ _ => rfl) (fun _ => rfl) (fun c s l hc hw => ?_)
    simp only [issuedOf_rid hw, issuedOf_cl hw, lines, read]
  case wave =>
    refine DoesOnceMem.of_uni rfl (fun _ => rfl) (fun c s l _ _ ⟨hw, hgr⟩ => ?_)
    simp only [wave?_of_isSome hw, hgr, hf]
    rfl
  case handle =>
    refine DoesOnceMem.of_uni rfl (fun _ => rfl) (fun c s l _ _ ⟨⟨hw, hgr⟩, hlim⟩ => ?_)
    have hin : ¬segLimit (g6 c s) < 128 * s.handleA c + 128 := Nat.not_lt.mpr hlim
    simp only [g6] at hin
    simp only [wave?_of_isSome hw, hgr, hf, if_neg hin, g6]
    rfl
  case region =>
    refine DoesOnceMem.of_uni rfl (fun _ => rfl) (fun c s l _ _ ⟨hw, hgr⟩ => ?_)
    simp only [wave?_of_isSome hw, hgr]
    split
    · omega
    · omega
    · rfl

/-! ## WTBL (R363) -/

/-- What the two forms of WTBL share: the sets that the scalars name. -/
def wtblUni (h : Hdr) (g : Ctx → State → (Nat → Nat → Bool) → State × UniOut) (c : Ctx) (s : State) (_ : Nat) : State × Except LFault UniOut :=
  match s.wave? c.uid with
  | none => (s, .error illegal7)
  | some w =>
    let n := s.readRegs c.uid 0 .s h.b.toNat 1 % 2 ^ 17
    if n = 0 || 65536 < n then (s, .error illegal7)
    else
      match s.wtblSets w (s.readRegs c.uid 0 .s h.a.toNat 1 % 2 ^ 16) n (s.readRegs c.uid 0 .s h.c.toNat 1) with
      | none => (s, .ok { sregs := regWrites 0 .s h.d.toNat 1 0 ++ regWrites 0 .s (h.d.toNat + 1) 1 0xFFFFFFFF, st := some .settling })
      | some p => let q := g c s p; (q.1, .ok q.2)

section
variable {h : Hdr} {g : Ctx → State → (Nat → Nat → Bool) → State × UniOut} {c : Ctx} {s : State} (l : Nat) (hw : (s.wave? c.uid).isSome)
  (hpos : 0 < s.readRegs c.uid 0 .s h.b.toNat 1 % 2 ^ 17) (hmax : s.readRegs c.uid 0 .s h.b.toNat 1 % 2 ^ 17 ≤ 65536)
include hw hpos hmax

/-- A count of 1 to 65,536 of a region that the wave may name goes to the form. -/
theorem wtblUni_names {p : Nat → Nat → Bool} (hsets : s.wtblSets (waveOf c s) (s.readRegs c.uid 0 .s h.a.toNat 1 % 2 ^ 16)
    (s.readRegs c.uid 0 .s h.b.toNat 1 % 2 ^ 17) (s.readRegs c.uid 0 .s h.c.toNat 1) = some p) :
    wtblUni h g c s l = ((g c s p).1, .ok (g c s p).2) := by
  simp only [wtblUni, wave?_of_isSome hw, hsets]
  exact if_neg (by simp; omega)

theorem wtblUni_refuses (hsets : s.wtblSets (waveOf c s) (s.readRegs c.uid 0 .s h.a.toNat 1 % 2 ^ 16)
    (s.readRegs c.uid 0 .s h.b.toNat 1 % 2 ^ 17) (s.readRegs c.uid 0 .s h.c.toNat 1) = none) :
    wtblUni h g c s l = (s, .ok { sregs := regWrites 0 .s h.d.toNat 1 0 ++ regWrites 0 .s (h.d.toNat + 1) 1 0xFFFFFFFF, st := some .settling }) := by
  simp only [wtblUni, wave?_of_isSome hw, hsets]
  exact if_neg (by simp; omega)

end

/-- A form of WTBL completes where its count is in range. -/
theorem DoesOnceMem.of_wtbl {i : Instr} {h : Hdr} {f : EngFn} {x : BitVec 64} {g : Ctx → State → (Nat → Nat → Bool) → State × UniOut}
    {P : Ctx → State → Nat → Prop} {F : Ctx → State → Nat → State × UniOut} (he : encOf i = some (enc 0xFA h (engFnBits f) x))
    (hx : ∀ s, exec i s = runWtbl h f x g s) (hstart : ∀ e s, slotStart i e s = s) (hend : ∀ s, slotEnd i s = s)
    (hg : ∀ c s l, P c s l → wtblUni h g c s l = ((F c s l).1, .ok (F c s l).2)) : DoesOnceMem i P F noPost := by
  refine DoesOnceMem.of_uni (g := wtblUni h g) he (fun s => ?_) (fun c s l _ _ hp => hg c s l hp)
  rw [hx, hstart, hend]
  rfl

/-- Settles O28: the forms answer by the sets that the scalars name, and .sync by whether a bin or tile of theirs is there. -/
theorem wtblCompletes : Obligations.WtblCompletes := by
  intro h f x p n sets ok bins tiles pair hit
  refine ⟨?sync, ?unpin, ?syncRefused, ?unpinRefused⟩
  case sync =>
    refine DoesOnceMem.of_wtbl rfl (fun _ => rfl) (fun _ _ => rfl) (fun _ => rfl) (fun c s l ⟨⟨hw, hpos, hmax⟩, hsets⟩ => ?_)
    rw [wtblUni_names l hw hpos hmax hsets]
  case unpin =>
    refine DoesOnceMem.of_wtbl rfl (fun _ => rfl) (fun _ _ => rfl) (fun _ => rfl) (fun c s l ⟨⟨hw, hpos, hmax⟩, hsets⟩ => ?_)
    rw [wtblUni_names l hw hpos hmax hsets]
  case syncRefused | unpinRefused =>
    exact DoesOnceMem.of_wtbl rfl (fun _ => rfl) (fun _ _ => rfl) (fun _ => rfl)
      (fun c s l ⟨⟨hw, hpos, hmax⟩, hsets⟩ => wtblUni_refuses l hw hpos hmax hsets)

end Sys2Proof.Machine
end

section
/-!
PROOF. Service calls and IDLE (R439, R468, R469): what each answers under its conditions.
-/

namespace Sys2Proof.Machine

/-! ## Service calls (R468, R469) -/

/-- The machine as the SVC finds it: no thread acts. -/
def State.svcSees (s : State) : State := { s with ord := { s.ord with agent := none } }

/-- What the SVC answers is what the function answers with no thread acting. -/
theorem State.serve_of {α : Type} {s : State} {f : State → State × α} {r : State × α} (h : f s.svcSees = r) :
    s.serve f = ({ r.1 with ord := { r.1.ord with agent := s.ord.agent } }, r.2) := by
  subst h
  rfl

/-- The checks of a service call's buffer, and its work: the pair's first word, none where it is refused. -/
def svcallWork (n : Nat) (h : Hdr) (g : State → Nat → Nat → List (Nat × Loc) → Option (State × Nat)) (c : Ctx) (s : State) : State × Option Nat :=
  let rid := s.ridOf c.uid
  let buf := s.readRegs c.uid 0 .s h.a.toNat 2
  if buf % 64 ≠ 0 || 2 ^ 56 ≤ buf then (s, none)
  else
    match s.bytesOfVa rid buf true n with
    | .error _ => (s, none)
    | .ok ls => (match g s rid buf ls with | none => (s, none) | some q => (q.1, some q.2))

/-- A service call: its work, performed by the SVC, and its pair. -/
def svcallUni (n : Nat) (h : Hdr) (g : State → Nat → Nat → List (Nat × Loc) → Option (State × Nat)) (c : Ctx) (s : State) (_ : Nat) :
    State × Except LFault UniOut :=
  let r := s.serve (svcallWork n h g c)
  (r.1, match r.2 with | none => svcallOut h 0 1 | some a => svcallOut h a 0)

/-- A service call completes with what its checks and its work answer. -/
theorem DoesOnceMem.of_svcall {i : Instr} {n : Nat} {h : Hdr} {f : EngFn} {x : BitVec 64}
    {g : State → Nat → Nat → List (Nat × Loc) → Option (State × Nat)} {P : Ctx → State → Nat → Prop} {F : Ctx → State → Nat → State × UniOut}
    (he : encOf i = some (enc 0xF9 h (engFnBits f) x)) (hx : ∀ s, exec i s = runSvcall n h f x g s) (hstart : ∀ e s, slotStart i e s = s)
    (hend : ∀ s, slotEnd i s = s) (hg : ∀ c s l, P c s l → svcallUni n h g c s l = ((F c s l).1, .ok (F c s l).2)) : DoesOnceMem i P F noPost := by
  refine DoesOnceMem.of_uni (g := svcallUni n h g) he (fun s => ?_) (fun c s l _ _ hp => hg c s l hp)
  rw [hx, hstart, hend]
  rfl

section
variable {n : Nat} {h : Hdr} {g : State → Nat → Nat → List (Nat × Loc) → Option (State × Nat)} {c : Ctx} {s : State} (l : Nat)

theorem svcallUni_of_refused (hwork : svcallWork n h g c s.svcSees = (s.svcSees, none)) : svcallUni n h g c s l = (s, svcallOut h 0 1) := by
  simp only [svcallUni, State.serve_of hwork]
  rfl

/-- A buffer that is misaligned, too high or not writable is refused, with no other effect. -/
theorem svcallUni_misses (hmiss : s.readRegs c.uid 0 .s h.a.toNat 2 % 64 ≠ 0 ∨ 2 ^ 56 ≤ s.readRegs c.uid 0 .s h.a.toNat 2 ∨
    ∃ e, s.svcSees.bytesOfVa (s.ridOf c.uid) (s.readRegs c.uid 0 .s h.a.toNat 2) true n = .error e) :
    svcallUni n h g c s l = (s, svcallOut h 0 1) := by
  refine svcallUni_of_refused l ?_
  unfold svcallWork
  dsimp only
  split
  · rfl
  · next hok =>
    rw [Bool.or_eq_true, not_or, decide_eq_true_eq, decide_eq_true_eq] at hok
    obtain hal | hhi | ⟨e, he⟩ := hmiss
    · exact absurd hal hok.1
    · exact absurd hhi hok.2
    · rw [show s.svcSees.bytesOfVa (s.svcSees.ridOf c.uid) (s.svcSees.readRegs c.uid 0 .s h.a.toNat 2) true n = _ from he]

variable {ls : List (Nat × Loc)} (halign : s.readRegs c.uid 0 .s h.a.toNat 2 % 64 = 0) (hlow : s.readRegs c.uid 0 .s h.a.toNat 2 < 2 ^ 56)
  (hbytes : s.svcSees.bytesOfVa (s.ridOf c.uid) (s.readRegs c.uid 0 .s h.a.toNat 2) true n = .ok ls)
include halign hlow hbytes

/-- On a buffer that passes the checks the call does its work. -/
theorem svcallWork_reaches : svcallWork n h g c s.svcSees =
    match g s.svcSees (s.ridOf c.uid) (s.readRegs c.uid 0 .s h.a.toNat 2) ls with
    | none => (s.svcSees, none)
    | some q => (q.1, some q.2) := by
  have hok : ¬(s.svcSees.readRegs c.uid 0 .s h.a.toNat 2 % 64 ≠ 0 || 2 ^ 56 ≤ s.svcSees.readRegs c.uid 0 .s h.a.toNat 2) = true := by
    rw [Bool.or_eq_true, not_or, decide_eq_true_eq, decide_eq_true_eq]
    exact ⟨not_not.mpr halign, Nat.not_le.mpr hlow⟩
  unfold svcallWork
  dsimp only
  rw [if_neg hok, show s.svcSees.bytesOfVa (s.svcSees.ridOf c.uid) (s.svcSees.readRegs c.uid 0 .s h.a.toNat 2) true n = _ from hbytes]
  rfl

theorem svcallUni_serves {q : State × Nat} (hg : g s.svcSees (s.ridOf c.uid) (s.readRegs c.uid 0 .s h.a.toNat 2) ls = some q) :
    svcallUni n h g c s l = ({ q.1 with ord := { q.1.ord with agent := s.ord.agent } }, svcallOut h q.2 0) := by
  have hwork := svcallWork_reaches (g := g) halign hlow hbytes
  rw [hg] at hwork
  simp only [svcallUni, State.serve_of hwork]

theorem svcallUni_refuses (hg : g s.svcSees (s.ridOf c.uid) (s.readRegs c.uid 0 .s h.a.toNat 2) ls = none) :
    svcallUni n h g c s l = (s, svcallOut h 0 1) := by
  have hwork := svcallWork_reaches (g := g) halign hlow hbytes
  rw [hg] at hwork
  exact svcallUni_of_refused l hwork

end

/-- The quote's work on a nonce that can be read (R468). -/
def attWork (s : State) (rid buf : Nat) (ls : List (Nat × Loc)) : Option (State × Nat) :=
  match s.bytesAt (ls.take 48), s.poisonAt ((ls.take 48).map (fun x => x.2)) with
  | .ok nonce, none =>
    some ((s.updSvc (fun v => { v with quotes := v.quotes + 1 })).post rid (buf + 48) ((ls.drop 48).map (fun x => x.2)) (s.quote (leNat nonce)), 1)
  | _, _ => none

theorem attWork_readable {s : State} {rid buf : Nat} {ls : List (Nat × Loc)} (hm : s.missing (ls.take 48) = none)
    (hp : s.poisonAt ((ls.take 48).map (fun x => x.2)) = none) :
    attWork s rid buf ls = some ((s.updSvc (fun v => { v with quotes := v.quotes + 1 })).post rid (buf + 48) ((ls.drop 48).map (fun x => x.2))
      (s.quote (leNat (s.readLocs ((ls.take 48).map (fun x => x.2))))), 1) := by
  simp only [attWork, State.bytesAt_present hm, hp]

theorem attWork_unreadable {s : State} {rid buf : Nat} {ls : List (Nat × Loc)}
    (h : ¬(s.missing (ls.take 48) = none ∧ s.poisonAt ((ls.take 48).map (fun x => x.2)) = none)) : attWork s rid buf ls = none := by
  unfold attWork
  split
  · next hb hp =>
    refine absurd ⟨?_, hp⟩ h
    cases hm : s.missing (ls.take 48) with
    | none => rfl
    | some m => simp [State.bytesAt, State.absent, hm] at hb
  · rfl

/-- The certificate's work (R469). -/
def certWork (cert : List Byte) (s : State) (rid buf : Nat) (ls : List (Nat × Loc)) : Option (State × Nat) :=
  some (s.post rid buf (ls.map (fun x => x.2)) cert, cert.length)

/-- Settles O35: a service call answers by its buffer and its nonce, and IDLE by whether a selected event is there. -/
theorem serviceCallsAndIdleComplete : Obligations.ServiceCallsAndIdleComplete := by
  intro h f x ls buf pair cert svc reaches misses nonce readable E till
  have hatt : ∀ s, exec (.svcallAtt h f x) s = runSvcall 304 h f x attWork s := fun s => (rfl : execSvcallAtt h f x s = _)
  have hcert : ∀ s, exec (.svcallCert h f x) s = runSvcall cert.length h f x (certWork cert) s := fun s => (rfl : execSvcallCert h f x s = _)
  refine ⟨?att, ?unreadable, ?cert, ?attMiss, ?certMiss, ?idle⟩
  case att =>
    refine DoesOnceMem.of_svcall rfl hatt (fun _ _ => rfl) (fun _ => rfl) (fun c s l ⟨⟨halign, hlow, hbytes⟩, hm, hp⟩ => ?_)
    exact svcallUni_serves l halign hlow hbytes (attWork_readable hm hp)
  case unreadable =>
    refine DoesOnceMem.of_svcall rfl hatt (fun _ _ => rfl) (fun _ => rfl) (fun c s l ⟨⟨halign, hlow, hbytes⟩, hr⟩ => ?_)
    exact svcallUni_refuses l halign hlow hbytes (attWork_unreadable hr)
  case cert =>
    refine DoesOnceMem.of_svcall rfl hcert (fun _ _ => rfl) (fun _ => rfl) (fun c s l ⟨halign, hlow, hbytes⟩ => ?_)
    exact svcallUni_serves (g := certWork cert) l halign hlow hbytes rfl
  case attMiss => exact DoesOnceMem.of_svcall rfl hatt (fun _ _ => rfl) (fun _ => rfl) (fun c s l hmiss => svcallUni_misses l hmiss)
  case certMiss => exact DoesOnceMem.of_svcall rfl hcert (fun _ _ => rfl) (fun _ => rfl) (fun c s l hmiss => svcallUni_misses l hmiss)
  case idle =>
    refine DoesOnceMem.of_uni rfl (fun _ => rfl) (fun c s l _ _ ⟨hw, hpos, hlow⟩ => ?_)
    simp only [E] at hpos hlow
    simp only [idleUni, wave?_of_isSome hw]
    rw [if_neg (by simp; omega)]
    split <;> rfl

end Sys2Proof.Machine
end

section
/-!
PROOF. Rays and beams (R378 to R387): what each lane answers under its conditions.
-/

namespace Sys2Proof.Machine

/-! ## Rays (R378 to R382) -/

section
variable {c : Ctx} {s : State} {l r va : Nat} {ls : List (Nat × Loc)} {f : EngFn} (hw : (s.wave? c.uid).isSome) (hgr : s.granted 2 = true)
include hw hgr

/-- A valid record that is not in flight is submitted (R378). -/
theorem rtraceLane_submits (hrec : s.rayRec c (issuedOf c s l) l false = .ok (r, va, ls)) (htok : (waveOf c s).tokPending c.e.h.d.toNat l = false)
    (hfly : s.flying (waveOf c s).rid va = none) (hue : s.ueAt ls = none) (hm : s.missing ls = none)
    (hflags : flagsBad (ryFlags (leNat (s.readLocs (ls.map (fun x => x.2))))) = false) :
    rtraceLane c s l =
      let t := s.noteRead (ls.map (fun x => x.2)) none
      let ray := newRay t (issuedOf c s l) l c.e.h.d.toNat r va (leNat (s.readLocs (ls.map (fun x => x.2)))) (s.readRegs c.uid 0 .s c.e.h.c.toNat 2 % 2 ^ 56)
        (s.readRegs c.uid 0 .s (c.e.h.c.toNat + 2) 2 % 2 ^ 56) none
      ((t.updWave c.uid (fun w => (w.clearFailed c.e.h.d.toNat l).setTok c.e.h.d.toNat l true)).addRay ray,
        .ok { st := if ray.st = .noPlace then some (.admission .ray c.e.h.s) else admitted c }) := by
  rw [← issuedOf_tokPending hw l] at htok
  simp only [rtraceLane, issued?_of_isSome hw, issuedOf_rid hw, hgr, htok, hrec, hfly, hue, State.bytesAt_present hm, hflags, Option.isSome_none,
    Bool.false_eq_true, if_false]

theorem rldLane_inFlight {y : Ray} (hrec : s.rayRec c (issuedOf c s l) l false = .ok (r, va, ls)) (hn : c.e.h.b.toNat + (f.sub.toNat + 1) ≤ 16)
    (hfly : s.flying (waveOf c s).rid va = some y) :
    rldLane f c s l = (s, .ok { regs := regWrites l .v c.e.h.d.toNat (f.sub.toNat + 1) (bitsAt y.copy (32 * c.e.h.b.toNat) (32 * (f.sub.toNat + 1))),
                                st := admitted c }) := by
  simp only [rldLane, issued?_of_isSome hw, issuedOf_rid hw, hgr, hrec, hfly, rwords, Nat.not_lt.mpr hn, if_false]

theorem rldLane_inMemory (hrec : s.rayRec c (issuedOf c s l) l false = .ok (r, va, ls)) (hn : c.e.h.b.toNat + (f.sub.toNat + 1) ≤ 16)
    (hfly : s.flying (waveOf c s).rid va = none) (hm : s.missing ls = none) :
    rldLane f c s l =
      let locs := ls.map (fun x => x.2)
      ((((s.noteRead locs none).meetUe locs).touch c.uid (some 1) locs).noteHits c l 7 0 ls (s.readLocs locs),
        .ok { regs := regWrites l .v c.e.h.d.toNat (f.sub.toNat + 1) (bitsAt (leNat (s.readLocs locs)) (32 * c.e.h.b.toNat) (32 * (f.sub.toNat + 1))),
              ue := s.ueAt ls, st := admitted c }) := by
  simp only [rldLane, issued?_of_isSome hw, issuedOf_rid hw, hgr, hrec, hfly, rwords, Nat.not_lt.mpr hn, State.bytesAt_present hm, if_false]

theorem rstLane_writes (hrec : s.rayRec c (issuedOf c s l) l true = .ok (r, va, ls)) (hn : c.e.h.b.toNat + (f.sub.toNat + 1) ≤ 16)
    (hfly : s.flying (waveOf c s).rid va = none) :
    rstLane f c s l = s.putAs c none (some 1) 7 l ((ls.drop (4 * c.e.h.b.toNat)).take (4 * (f.sub.toNat + 1)))
      (leBytes (4 * (f.sub.toNat + 1)) (s.readRegs c.uid l .v c.e.h.d.toNat (f.sub.toNat + 1))) := by
  simp only [rstLane, issued?_of_isSome hw, issuedOf_rid hw, hgr, hrec, hfly, rwords, Nat.not_lt.mpr hn, Option.isSome_none, Bool.false_eq_true, if_false]

theorem rpoolLane_takes {y : Ray} (hrec : s.rayRec c (issuedOf c s l) l false = .ok (r, va, ls)) (hfly : s.flying (waveOf c s).rid va = some y)
    (hmine : y.rid = (waveOf c s).rid) :
    rpoolLane c s l =
      (((s.seatRay y).updRay y.cl y.id (fun q => { q with st := .finish 7 0 0, fault := none, susp := false })).updCb
        (fun q => if q.ray = y.id then { q with ray := 0 } else q), .ok { preds := [(c.e.h.d.toNat, true)], st := admitted c }) := by
  simp only [rpoolLane, issued?_of_isSome hw, issuedOf_rid hw, hgr, hrec, hfly, hmine, ne_eq, not_true_eq_false, if_false]

theorem rpoolLane_none {y : Ray} (hrec : s.rayRec c (issuedOf c s l) l false = .ok (r, va, ls))
    (hfly : s.flying (waveOf c s).rid va = none ∨ (s.flying (waveOf c s).rid va = some y ∧ y.rid ≠ (waveOf c s).rid)) :
    rpoolLane c s l = (s, .ok { preds := [(c.e.h.d.toNat, false)], st := admitted c }) := by
  obtain hfly | ⟨hfly, hother⟩ := hfly
  · simp only [rpoolLane, issued?_of_isSome hw, issuedOf_rid hw, hgr, hrec, hfly]
  · simp only [rpoolLane, issued?_of_isSome hw, issuedOf_rid hw, hgr, hrec, hfly, if_pos hother]

end

/-- A store waits in admission: for its checks, or for the answers of peers. -/
theorem storeWait_eq (c : Ctx) (here : Bool) :
    (if here then admitted c else some (.admission .peer c.e.h.s)) = some (.admission (if here then .checks else .peer) c.e.h.s) := by
  cases here <;> rfl

/-- Settles O30: each instruction takes the branch of its lane that its record, in flight or not, chooses. -/
theorem rayInstructionsComplete : Obligations.RayInstructionsComplete := by
  intro h f x r va ls y rec' locs flying b n word part
  refine ⟨?rtrace, ?rldFlight, ?rldMemory, ?rst, ?rpool, ?rpoolNone, ?rqry⟩
  case rtrace =>
    refine DoesMem.of_lane rfl (fun _ => rfl) (fun c s l hc _ ⟨⟨hw, hgr, hrec⟩, htok, hfly, hue, hm, hflags⟩ => ?_)
    obtain rfl : c.e.h = h := congrArg Enc.h hc
    exact rtraceLane_submits hw hgr hrec htok hfly hue hm hflags
  case rldFlight =>
    refine DoesMem.of_lane rfl (fun _ => rfl) (fun c s l hc _ ⟨⟨hw, hgr, hrec⟩, hn, hfly⟩ => ?_)
    obtain rfl : c.e.h = h := congrArg Enc.h hc
    exact rldLane_inFlight hw hgr hrec hn hfly
  case rldMemory =>
    refine DoesMem.of_lane rfl (fun _ => rfl) (fun c s l hc _ ⟨⟨hw, hgr, hrec⟩, hn, hfly, hm⟩ => ?_)
    obtain rfl : c.e.h = h := congrArg Enc.h hc
    exact rldLane_inMemory hw hgr hrec hn hfly hm
  case rst =>
    refine DoesMem.of_lane rfl (fun _ => rfl) (fun c s l hc _ ⟨⟨hw, hgr, hrec⟩, hn, hfly⟩ => ?_)
    obtain rfl : c.e.h = h := congrArg Enc.h hc
    rw [rstLane_writes hw hgr hrec hn hfly]
    exact congrArg (fun st => (_, LaneRes.ok { st := st })) (storeWait_eq c _)
  case rpool =>
    refine DoesMem.of_lane rfl (fun _ => rfl) (fun c s l hc _ ⟨⟨hw, hgr, hrec⟩, hfly, hmine⟩ => ?_)
    obtain rfl : c.e.h = h := congrArg Enc.h hc
    exact rpoolLane_takes hw hgr hrec hfly hmine
  case rpoolNone =>
    refine DoesMem.of_lane rfl (fun _ => rfl) (fun c s l hc _ ⟨⟨hw, hgr, hrec⟩, hfly⟩ => ?_)
    obtain rfl : c.e.h = h := congrArg Enc.h hc
    exact rpoolLane_none hw hgr hrec hfly
  case rqry =>
    refine DoesOnceMem.of_uni rfl (fun _ => rfl) (fun c s l _ _ ⟨hw, hgr⟩ => ?_)
    simp only [wave?_of_isSome hw, hgr]

/-! ## Verdicts, beams and visibility entries (R380, R384, R387) -/

/-- The lane of a packet whose access reads through textures' path: what a TRes answers is noted in the order of memory (R389). -/
theorem texStep_ok {g : Ctx → State → Nat → TRes} {c : Ctx} {s : State} {l : Nat} {o : LaneOut} {ls : List Loc} (hw : (s.wave? c.uid).isSome)
    (hg : g c s l = (.ok o, ls)) :
    texStep g c s l = (((s.noteRead ls none).meetUe ls).noteLevel (4 * (waveOf c s).cl + (waveOf c s).core) ls, .ok o) := by
  simp only [texStep, hg, wave?_of_isSome hw, Option.map_some, Option.getD_some]

/-- What a callback lane says of its ray (R380). -/
def cbSays (f : EngFn) (t b : Nat) (x : CbLane) (q : Ray) : Ray :=
  if x.kind = 0 then q.verdict 0 (decide (f.sub ≠ 1)) (decide (f.sub = 2))
  else match (if f.sub = 1 then none else q.given t b) with
    | some g => ({ q with cand := some g } : Ray).verdict 1 true (decide (f.sub = 2))
    | none => q.verdict 1 false (decide (f.sub = 2))

section
variable {c : Ctx} {s : State} {l : Nat} (hw : (s.wave? c.uid).isSome) (hgr : s.granted 2 = true)
include hw hgr

theorem rverdLane_gives {f : EngFn} {ys : List CbLane} {y : CbLane} (hkind : (waveOf c s).kind = .callback ys)
    (hlane : ys.find? (fun q => q.lane = l && !q.done && q.kind ≤ 1) = some y) :
    rverdLane f c s l =
      let t := s.updWave c.uid (fun w => { w with kind := .callback (ys.map (fun q => if q.lane = l then { q with done := true } else q)) })
      (if y.ray = 0 then t else t.updRay (waveOf c s).cl y.ray (fun q =>
        { cbSays f (t.readV c.uid l c.e.h.a.toNat).toNat (t.readV c.uid l c.e.h.b.toNat).toNat y q with view := joinIds q.view t.opView }), .ok {}) := by
  simp only [rverdLane, wave?_of_isSome hw, hgr, hkind, hlane]
  rfl

/-- A valid block whose records pass the checks is submitted (R384). -/
theorem beamLane_submits {b : Nat} (htok : (waveOf c s).tokPending c.e.h.d.toNat l = false) (halign : s.readRegs c.uid 0 .s c.e.h.c.toNat 2 % 2 ^ 56 % 128 = 0)
    (hblock : s.readVa (waveOf c s).rid (s.readRegs c.uid 0 .s c.e.h.c.toNat 2 % 2 ^ 56) 128 = .ok b) (hok : blockBad b = false)
    (hpool : s.poolFault (issuedOf c s l) l (bmBase b) = none) :
    beamLane c s l =
      let w := issuedOf c s l
      let t := s.noteVa w.rid (s.readRegs c.uid 0 .s c.e.h.c.toNat 2 % 2 ^ 56) 128
      let m : Beam :=
        { id := t.fresh, cl := w.cl, rid := w.rid, uid := c.uid, lane := l, tok := c.e.h.d.toNat, owner := w.owner l c.e.h.d.toNat,
          step := ((t.region? w.rid).map (fun q => q.stepno)).getD 0, lid := w.lid, priv := w.priv, segs := w.g, al2 := w.al2, al3 := w.al3,
          ctx := w.ctx, unit := none, block := b, tile := t.readRegs c.uid l .v c.e.h.a.toNat 1, next := 0, cur := none, entries := [], split := [],
          failed := none, written := 0, fault := none, susp := false, view := t.opView }
      let u := t.updWave c.uid (fun w => (w.clearFailed c.e.h.d.toNat l).setTok c.e.h.d.toNat l true)
      (({ u with fresh := u.fresh + 1 } : State).updRtu (fun r => { r with beams := r.beams ++ [m] }), .ok { st := admitted c }) := by
  rw [← issuedOf_tokPending hw l] at htok
  rw [← issuedOf_rid hw l] at hblock
  simp only [beamLane, issued?_of_isSome hw, hgr, htok, hblock, halign, hok, hpool, ne_eq, not_true_eq_false, decide_false, Bool.or_self,
    Bool.false_eq_true, if_false]

theorem covrdLane_reads {b v : Nat} {m q : TMem} (hblock : s.tread (waveOf c s).rid (s.readRegs c.uid 0 .s c.e.h.c.toNat 2 % 2 ^ 56 + 72) 12 = .ok (b, m))
    (hue : m.ue = none)
    (hentry : s.tread (waveOf c s).rid ((bitsAt b 0 56 + bitsAt (s.readRegs c.uid l .v c.e.h.a.toNat 1) 16 16 * bitsAt b 64 32 +
      16 * bitsAt (s.readRegs c.uid l .v c.e.h.a.toNat 1) 0 16) % 2 ^ 56) 16 = .ok (v, q)) :
    covrdLane c s l = (.ok { regs := regWrites l .v c.e.h.d.toNat 4 v, ue := q.ue, st := admitted c }, m.locs ++ q.locs) := by
  simp only [covrdLane, wave?_of_isSome hw, hgr, hblock, hue, hentry, Option.isSome_none, Bool.false_eq_true, if_false]

end

/-- Settles O31: RVERD, BEAM and COVRD pass the checks of their lanes. -/
theorem verdictsAndBeamsComplete : Obligations.VerdictsAndBeamsComplete := by
  intro h f x ys y b v m q
  refine ⟨?rverd, ?beam, ?covrd⟩
  case rverd =>
    refine DoesMem.of_lane rfl (fun _ => rfl) (fun c s l hc _ ⟨hw, hgr, hkind, hlane⟩ => ?_)
    obtain rfl : c.e.h = h := congrArg Enc.h hc
    exact rverdLane_gives hw hgr hkind hlane
  case beam =>
    refine DoesMem.of_lane rfl (fun _ => rfl) (fun c s l hc _ ⟨hw, hgr, htok, halign, hblock, hok, hpool⟩ => ?_)
    obtain rfl : c.e.h = h := congrArg Enc.h hc
    exact beamLane_submits hw hgr htok halign hblock hok hpool
  case covrd =>
    refine DoesMem.of_lane rfl (fun _ => rfl) (fun c s l hc _ ⟨hw, hgr, hblock, hue, hentry⟩ => ?_)
    obtain rfl : c.e.h = h := congrArg Enc.h hc
    exact texStep_ok hw (covrdLane_reads hw hgr hblock hue hentry)

end Sys2Proof.Machine
end

section
/-!
PROOF. Textures and derivatives (R389 to R393): what each lane answers under its conditions.
-/

namespace Sys2Proof.Machine

/-! ## Textures (R389 to R392) -/

/-- On a readable, valid descriptor a lane does what its instruction does with it; the bytes of the descriptor are read first. -/
theorem withDesc_valid {c : Ctx} {s : State} {va d : Nat} {m : TMem} (hw : (s.wave? c.uid).isSome) (hread : s.tread (waveOf c s).rid va 32 = .ok (d, m))
    (hue : m.ue = none) (hok : txBad d = false) (f : Wave → Nat → TRes) :
    withDesc c s va f = ((f (waveOf c s) d).1, m.locs ++ (f (waveOf c s) d).2) := by
  simp only [withDesc, wave?_of_isSome hw, hread, hue, hok, Option.isSome_none, Bool.false_eq_true, if_false]

/-- A lane that gives the values `q`, its descriptor's bytes read before them. -/
theorem texStep_out {g : Ctx → State → Nat → TRes} {c : Ctx} {s : State} {l : Nat} {m : TMem} (hw : (s.wave? c.uid).isSome) (q : List Nat × Nat × TMem)
    (hg : g c s l = ((texOut c l c.e.h.d.toNat q).1, m.locs ++ (texOut c l c.e.h.d.toNat q).2)) :
    texStep g c s l =
      let ls := m.locs ++ q.2.2.locs
      (((s.noteRead ls none).meetUe ls).noteLevel (4 * (waveOf c s).cl + (waveOf c s).core) ls,
        .ok { regs := regWrites l .v c.e.h.d.toNat q.1.length (wordsNat (q.1.map (BitVec.ofNat 32))), flags := BitVec.ofNat 7 q.2.1, ue := q.2.2.ue,
              st := admitted c }) :=
  texStep_ok hw hg

theorem texLane_samples {c : Ctx} {s : State} {l d : Nat} {m : TMem} {r : List Nat × Nat × TMem} (hw : (s.wave? c.uid).isSome)
    (hread : s.tread (waveOf c s).rid (texArgs c s).2.2 32 = .ok (d, m)) (hue : m.ue = none) (hok : txBad d = false)
    (hsmp : samplerBad (texArgs c s).1 = false) (hch : (texArgs c s).2.1 + bitsAt c.e.x.toNat 0 4 < txCh d)
    (hquad : bitsAt c.e.x.toNat 9 2 = 1 → (waveOf c s).quadFlag = true)
    (hval : s.texChannels c l c.e.h.a.toNat (bitsAt c.e.x.toNat 9 2) d (texArgs c s).1 (texArgs c s).2.1 (bitsAt c.e.x.toNat 0 4 + 1) = .ok r) :
    texLane c s l = ((texOut c l c.e.h.d.toNat r).1, m.locs ++ (texOut c l c.e.h.d.toNat r).2) := by
  have hq : (decide (bitsAt c.e.x.toNat 9 2 = 1) && !(waveOf c s).quadFlag) = false := by
    by_cases h1 : bitsAt c.e.x.toNat 9 2 = 1 <;> simp [h1, hquad]
  simp only [texLane, hsmp, withDesc_valid hw hread hue hok, hq, hval, Nat.not_le.mpr hch, decide_false, Bool.or_self, Bool.false_eq_true, if_false]

/-- The values of several channels, and what their reads have met. -/
def texelsOf (t : Nat → Except LFault (Nat × Nat × TMem)) (is : List Nat) (acc : Except LFault (List Nat × Nat × TMem)) :
    Except LFault (List Nat × Nat × TMem) :=
  is.foldl (fun acc i =>
    match acc, t i with
    | .error e, _ => .error e
    | _, .error e => .error e
    | .ok r, .ok q => .ok (r.1 ++ [q.1], 0, r.2.2.or q.2.2)) acc

theorem texelsOf_ok {t : Nat → Except LFault (Nat × Nat × TMem)} {v : Nat → Nat × Nat × TMem} (is : List Nat) (h : ∀ i ∈ is, t i = .ok (v i))
    (vs : List Nat) (m : TMem) :
    texelsOf t is (.ok (vs, 0, m)) = .ok (vs ++ is.map (fun i => (v i).1), 0, is.foldl (fun q i => q.or (v i).2.2) m) := by
  induction is generalizing vs m with
  | nil => simp [texelsOf]
  | cons i is ih =>
    have hstep : texelsOf t (i :: is) (.ok (vs, 0, m)) = texelsOf t is (.ok (vs ++ [(v i).1], 0, m.or (v i).2.2)) := by
      simp only [texelsOf, List.foldl_cons, h i (by simp)]
    rw [hstep, ih (fun k hk => h k (List.mem_cons_of_mem _ hk))]
    simp

/-- A coordinate of TLD: 0 the column, 1 the row, 2 the level. -/
def texCoord (c : Ctx) (s : State) (l i : Nat) : Nat := (s.readV c.uid l (c.e.h.a.toNat + i)).toNat

/-- What TLD tests of its coordinates: its level, and its texel in the level. -/
def inLevel (c : Ctx) (s : State) (l d : Nat) : Prop :=
  texCoord c s l 2 ≤ txLevels d ∧ texCoord c s l 0 < txW d (texCoord c s l 2) ∧ texCoord c s l 1 < txH d (texCoord c s l 2)

/-- TLD, with its texels named. -/
theorem tldLane_eq (c : Ctx) (s : State) (l : Nat) : tldLane c s l =
    withDesc c s (texArgs c s).2.2 (fun w d =>
      if txCh d ≤ (texArgs c s).2.1 + bitsAt c.e.x.toNat 0 4 then (.fault illegal7, [])
      else if txLevels d < texCoord c s l 2 || txW d (texCoord c s l 2) ≤ texCoord c s l 0 || txH d (texCoord c s l 2) ≤ texCoord c s l 1 then
        texOut c l c.e.h.d.toNat (List.replicate (bitsAt c.e.x.toNat 0 4 + 1) 0, 0, .none)
      else
        match texelsOf (fun i => s.texel w.rid d (texCoord c s l 2) ((texArgs c s).2.1 + i) (texCoord c s l 0) (texCoord c s l 1))
          (List.range (bitsAt c.e.x.toNat 0 4 + 1)) (.ok ([], 0, .none)) with
        | .error e => (.fault e, [])
        | .ok r => texOut c l c.e.h.d.toNat r) := rfl

/-- TLD's test of its coordinates fails outside the level. -/
theorem outside_iff (c : Ctx) (s : State) (l d : Nat) :
    (txLevels d < texCoord c s l 2 || txW d (texCoord c s l 2) ≤ texCoord c s l 0 || txH d (texCoord c s l 2) ≤ texCoord c s l 1) = true ↔
      ¬inLevel c s l d := by
  simp only [inLevel, Bool.or_eq_true, decide_eq_true_eq]
  omega

section
variable {c : Ctx} {s : State} {l d : Nat} {m : TMem} (hw : (s.wave? c.uid).isSome)
  (hread : s.tread (waveOf c s).rid (texArgs c s).2.2 32 = .ok (d, m)) (hue : m.ue = none) (hok : txBad d = false)
  (hch : (texArgs c s).2.1 + bitsAt c.e.x.toNat 0 4 < txCh d)
include hw hread hue hok hch

theorem tldLane_texels {v : Nat → Nat × Nat × TMem} (hin : inLevel c s l d)
    (htexel : ∀ i, i ≤ bitsAt c.e.x.toNat 0 4 →
      s.texel (waveOf c s).rid d (texCoord c s l 2) ((texArgs c s).2.1 + i) (texCoord c s l 0) (texCoord c s l 1) = .ok (v i)) :
    let q := ((List.range (bitsAt c.e.x.toNat 0 4 + 1)).map (fun i => (v i).1), 0,
      (List.range (bitsAt c.e.x.toNat 0 4 + 1)).foldl (fun (q : TMem) i => q.or (v i).2.2) TMem.none)
    tldLane c s l = ((texOut c l c.e.h.d.toNat q).1, m.locs ++ (texOut c l c.e.h.d.toNat q).2) := by
  have hr := texelsOf_ok (List.range (bitsAt c.e.x.toNat 0 4 + 1))
    (fun i hi => htexel i (Nat.lt_succ_iff.mp (List.mem_range.mp hi))) [] TMem.none
  have hout := mt (outside_iff c s l d).mp (not_not.mpr hin)
  rw [tldLane_eq, withDesc_valid hw hread hue hok]
  simp only [Nat.not_le.mpr hch, if_false, if_neg hout, hr, List.nil_append]

theorem tldLane_outside (hout : ¬inLevel c s l d) :
    let q := (List.replicate (bitsAt c.e.x.toNat 0 4 + 1) 0, 0, TMem.none)
    tldLane c s l = ((texOut c l c.e.h.d.toNat q).1, m.locs ++ (texOut c l c.e.h.d.toNat q).2) := by
  rw [tldLane_eq, withDesc_valid hw hread hue hok]
  simp only [Nat.not_le.mpr hch, if_false, if_pos ((outside_iff c s l d).mpr hout)]

end

theorem tqryLane_reads {f : EngFn} {c : Ctx} {s : State} {l d : Nat} {m : TMem} (hw : (s.wave? c.uid).isSome)
    (hread : s.tread (waveOf c s).rid (s.readRegs c.uid 0 .s c.e.h.c.toNat 2 % 2 ^ 56) 32 = .ok (d, m)) (hue : m.ue = none) (hok : txBad d = false) :
    let lv := (s.readV c.uid l c.e.h.a.toNat).toNat
    let q := ((if f.sub = 0 then (if txLevels d < lv then [0, 0] else [txW d lv, txH d lv])
      else [txLevels d + 2 ^ 4 * (txCh d - 1) + 2 ^ 8 * txEty d]), 0, TMem.none)
    tqryLane f c s l = ((texOut c l c.e.h.d.toNat q).1, m.locs ++ (texOut c l c.e.h.d.toNat q).2) := by
  simp only [tqryLane, withDesc_valid hw hread hue hok]
  by_cases hs : f.sub = 0
  · simp only [if_pos hs]
  · simp only [if_neg hs]

/-! ## Derivatives (R393) -/

/-- The difference of the two members of a quad that a lane receives, 0 where one of them takes no part (R393). -/
def diffRes (isY : Bool) (f : EngFn) (a : Nat) (c : Ctx) (s : State) (l : Nat) : Res :=
  let p := diffLanes isY (f.sub = 1) l
  let v := fun (b : Nat) => fp32.value (fp32.daz (acDZI (s.acOf c.uid)) b)
  match quadPair c s a p.1 p.2 with
  | none => { val := 0, n := 1 }
  | some q =>
    let r := fp32.subRes .rn (acFZ (s.acOf c.uid)) (v q.1) (v q.2)
    { val := r.bits, n := 1, flags := BitVec.ofNat 7 r.fl }

theorem diffRes_per (isY : Bool) (f : EngFn) (a : Nat) (c : Ctx) (s : State) (l : Nat) : (diffRes isY f a c s l).per = [] := by
  unfold diffRes
  dsimp only
  split <;> rfl

theorem diffLane_quad {isY : Bool} {f : EngFn} {c : Ctx} {s : State} {w : Wave} (hw : s.wave? c.uid = some w) (hq : w.quadFlag = true) (l : Nat) :
    let r := diffRes isY f c.e.h.a.toNat c s l
    diffLane isY f c s l = .ok { regs := regWrites l .v c.e.h.d.toNat r.n r.val, preds := r.preds, flags := r.flags } := by
  simp only [diffLane, diffRes, hw, hq, Bool.not_true, Bool.false_eq_true, if_false]
  cases quadPair c s c.e.h.a.toNat (diffLanes isY (f.sub = 1) l).1 (diffLanes isY (f.sub = 1) l).2 <;> rfl

/-- Settles O29: each lane passes the checks of its descriptor and goes on to its texels, and TEX issues quad-whole where its derivatives are implicit. -/
theorem texturesAndDerivativesComplete : Obligations.TexturesAndDerivativesComplete := by
  refine ⟨?_, ?_⟩
  · intro h f x d m r v n lodm out desc reg holds samples
    have htex : ∀ c s l, c.e = enc 0xD8 h (engFnBits f) x → samples c s l →
        texStep texLane c s l = ((out c s l (r c l)).1, .ok (out c s l (r c l)).2) ∧ ∃ o, (texLane c s l).1 = .ok o := by
      intro c s l hc hp
      obtain ⟨⟨hw, hread, hue, hok⟩, hsmp, hch, hquad, hval⟩ := hp
      obtain rfl : c.e.h = h := congrArg Enc.h hc
      obtain rfl : c.e.x = x := congrArg Enc.x hc
      have hl := texLane_samples hw hread hue hok hsmp hch hquad hval
      exact ⟨texStep_out hw (r c l) hl, _, congrArg Prod.fst hl⟩
    refine ⟨fun hl => ?tex, fun hl => ?quad, ?tld, ?outside, ?tqry⟩
    case tex =>
      refine DoesMem.of_lane rfl (fun s => ?_) (fun c s l hc _ hp => (htex c s l hc hp).1)
      have hform : decide (bitsAt x.toNat 9 2 = 1) = false := decide_eq_false hl
      change execTex h f x s = _
      simp only [execTex, runTex, hform]
      rfl
    case quad =>
      refine DoesQuad.of_lane (pre := fun c s l => (texLane c s l).1) rfl (fun s => ?_) (fun c s l hc _ hp => htex c s l hc hp)
      have hform : decide (bitsAt x.toNat 9 2 = 1) = true := decide_eq_true hl
      change execTex h f x s = _
      simp only [execTex, runTex, hform]
      rfl
    case tld =>
      refine DoesMem.of_lane rfl (fun _ => rfl) (fun c s l hc _ ⟨⟨hw, hread, hue, hok⟩, hch, hin, htexel⟩ => ?_)
      obtain rfl : c.e.h = h := congrArg Enc.h hc
      obtain rfl : c.e.x = x := congrArg Enc.x hc
      exact texStep_out hw _ (tldLane_texels hw hread hue hok hch hin htexel)
    case outside =>
      refine DoesMem.of_lane rfl (fun _ => rfl) (fun c s l hc _ ⟨⟨hw, hread, hue, hok⟩, hch, hout⟩ => ?_)
      obtain rfl : c.e.h = h := congrArg Enc.h hc
      obtain rfl : c.e.x = x := congrArg Enc.x hc
      exact texStep_out hw _ (tldLane_outside hw hread hue hok hch hout)
    case tqry =>
      refine DoesMem.of_lane rfl (fun _ => rfl) (fun c s l hc _ ⟨hw, hread, hue, hok⟩ => ?_)
      obtain rfl : c.e.h = h := congrArg Enc.h hc
      exact texStep_out hw _ (tqryLane_reads hw hread hue hok)
  · intro h f x hu quad diff
    refine ⟨?ddx, ?ddy⟩
    case ddx =>
      refine ComputesIf.of_lanes (g := diffRes false f h.a.toNat) rfl hu (fun _ => rfl) (diffRes_per false f _) (fun c s l (hc : c.e.h = h) ⟨w, hw, hq⟩ => ?_)
      subst hc
      exact diffLane_quad hw hq l
    case ddy =>
      refine ComputesIf.of_lanes (g := diffRes true f h.a.toNat) rfl hu (fun _ => rfl) (diffRes_per true f _) (fun c s l (hc : c.e.h = h) ⟨w, hw, hq⟩ => ?_)
      subst hc
      exact diffLane_quad hw hq l

end Sys2Proof.Machine
end

section
/-!
PROOF. The host link (R408, R409, R411, R413, R418) and registration (R437): the branch of its definition that each event takes under its conditions.
-/

namespace Sys2Proof.Machine

/-! ## RDMA and SENDs (R408, R409) -/

section
variable {s : State} {p : Pkt} {qp : Nat} (hqp : qp < 4096) (haw : s.awaits (.host qp) p)
include hqp haw

theorem execRdma_reaches {rkey va n rid : Nat} (op : Nat → HostOp) (hwin : (s.heard (.host qp) p).rdmaWindow qp rkey va n = some rid) :
    execRdma ⟨qp, p⟩ rkey va n op s = .next ((s.heard (.host qp) p).addHop qp (op rid)) := by
  simp only [execRdma, Nat.not_le.mpr hqp, State.arrive_awaited haw, hwin, if_false]

theorem execRdma_beyond {rkey va n : Nat} (op : Nat → HostOp) (hwin : (s.heard (.host qp) p).rdmaWindow qp rkey va n = none) :
    execRdma ⟨qp, p⟩ rkey va n op s = .next ((s.heard (.host qp) p).send (.hostNak qp .accessError)) := by
  simp only [execRdma, Nat.not_le.mpr hqp, State.arrive_awaited haw, hwin, if_false]

theorem execRoceSend_eq (bytes : List Byte) : execRoceSend ⟨qp, p⟩ bytes s =
    .next (if sendBad bytes then (s.heard (.host qp) p).send (.hostNak qp .invalidRequest)
      else (s.heard (.host qp) p).addHop qp (.send (sentReq qp bytes))) := by
  simp only [execRoceSend, Nat.not_le.mpr hqp, State.arrive_awaited haw, if_false]

end

/-! ## The operations of a queue pair (R229, R408) -/

/-- An operation of a queue pair that has its answer `m` in state `u`: it is over, its answer goes back, and those behind it follow. -/
theorem runHops_answers {s u : State} {qp q id : Nat} {op : HostOp} {m : OutMsg} (n : Nat) (hhop : s.link.hops.find? (fun x => x.1 = qp) = some (q, id, op))
    (hop : (s.asQueue qp).hostOp qp op = (u, some m)) :
    State.runHops qp (n + 1) s = State.runHops qp n
      (((((u.queueDone qp).dropRops (.queue qp)).endReads (.queue qp)).updLink (fun l => { l with hops := l.hops.filter (fun x => x.2.1 ≠ id) })).send m) := by
  simp only [State.runHops, hhop, hop]

section
variable {s u : State} {qp rid va : Nat} {ls : List Loc}

theorem hostOp_write {bs : List Byte} (htr : s.translateRange rid va true bs.length = .ok ls) (hwr : s.writeAll rid (withVas va ls) bs = (u, none)) :
    s.hostOp qp (.write rid va bs) = (u, some (.hostAck qp)) := by
  simp only [State.hostOp, State.hostWrite, htr, hwr]

theorem hostOp_read {len : Nat} {bs : List Byte} (htr : s.translateRange rid va false len = .ok ls) (hue : s.poisonAt ls = none)
    (hrd : s.take (withVas va ls) (some 5) = .ok (u, bs)) : s.hostOp qp (.read rid va len) = (u, some (.hostData qp bs)) := by
  simp only [State.hostOp, State.hostRead, htr, hue, hrd, Option.isSome_none, Bool.false_eq_true, if_false]

theorem hostOp_refused {op : HostOp} {f : LFault} (htr : (∃ bs, op = .write rid va bs ∧ s.translateRange rid va true bs.length = .error f) ∨
    (∃ len, op = .read rid va len ∧ s.translateRange rid va false len = .error f)) (hf : f.holds = false) :
    s.hostOp qp op = (s, some (.hostNak qp .accessError)) := by
  obtain ⟨bs, rfl, htr⟩ | ⟨len, rfl, htr⟩ := htr
  · simp only [State.hostOp, State.hostWrite, htr, hf, Bool.false_eq_true, if_false]
  · simp only [State.hostOp, State.hostRead, htr, hf, Bool.false_eq_true, if_false]

end

/-! ## The handlers of the root's firmware (R411, R413, R418) -/

/-- The machine once a wave has ended. -/
def State.without (s : State) (w : Wave) : State := { s with waves := s.waves.filter (fun v => v.uid ≠ w.uid) }

theorem rootHandler_runs {hidx c k : Nat} {f : Wave → State → State × Nat × Nat} {s : State} {w : Wave} {x : State × Nat × Nat}
    (hk : (s.firmware hidx)[k]? = some w) (hf : f w (s.without w) = x) :
    rootHandler hidx c k f s = .next (x.1.complete (w.addrAt c) (w.word 18) x.2.1 x.2.2) := by
  subst hf
  simp only [rootHandler, hk]
  rfl

section
variable {s : State} {k : Nat} {w : Wave}

theorem execAttach_grants (hk : (s.firmware 0)[k]? = some w) (hno : (s.without w).regions.any (fun g => g.rid ≠ 0) = false) :
    let grant := w.pairAt 0 &&& featuresDefined &&& Config.features.toNat
    execAttach k s = .next (({ s.without w with grant := BitVec.ofNat 64 grant } : State).complete (w.addrAt 2) (w.word 18) 0 grant) := by
  intro grant
  refine rootHandler_runs (x := ({ s.without w with grant := BitVec.ofNat 64 grant }, 0, grant)) hk ?_
  simp only [hno, Bool.false_eq_true, if_false]
  rfl

theorem execAttach_refuses (hk : (s.firmware 0)[k]? = some w) (hany : (s.without w).regions.any (fun g => g.rid ≠ 0) = true) :
    execAttach k s = .next ((s.without w).complete (w.addrAt 2) (w.word 18) 10 0) := by
  refine rootHandler_runs (x := (s.without w, 10, 0)) hk ?_
  simp only [hany, if_true]

/-- The control block with its RID and DEPTH written, and the next RID used up (R418). -/
def State.numbered (t : State) (adr b : Nat) (p : Region) : State :=
  let id := t.freeRid (t.regions.length + 2) t.link.nextRid
  (t.updLink (fun l => { l with nextRid := id + 1 })).svcWrite adr (leBytes 8 (putBits (putBits (bitsAt b 0 64) 0 32 id) 48 3 (p.depth + 1)))

/-- CTXNEW under a parent that stands answers by its registration. -/
theorem execCtxnew_registers {b : Nat} {p : Region} (hk : (s.firmware 1)[k]? = some w) (hb : (s.without w).readVa 0 (w.addrAt 0) 256 = .ok b)
    (hp : (s.without w).region? (bitsAt b 128 32) = some p) (hret : p.retiring = false) :
    let u := (s.without w).numbered (w.addrAt 0) b p
    execCtxnew k s = .next (match u.register 0 (w.addrAt 0) with
      | none => u.complete (w.addrAt 2) (w.word 18) 7 0
      | some (v, i) => ((v.writeTop i).clearQueue i).complete (w.addrAt 2) (w.word 18) 0 i) := by
  intro u
  cases hreg : u.register 0 (w.addrAt 0) with
  | none =>
    refine rootHandler_runs (x := (u, 7, 0)) hk ?_
    simp only [u, State.numbered] at hreg ⊢
    simp only [hb, hp, hret, hreg, Bool.false_eq_true, if_false]
  | some r =>
    refine rootHandler_runs (x := ((r.1.writeTop r.2).clearQueue r.2, 0, r.2)) hk ?_
    simp only [u, State.numbered] at hreg ⊢
    simp only [hb, hp, hret, hreg, Bool.false_eq_true, if_false]

theorem execCtxnew_refused {b : Nat} {p : Region} (hk : (s.firmware 1)[k]? = some w) (hb : (s.without w).readVa 0 (w.addrAt 0) 256 = .ok b)
    (hp : (s.without w).region? (bitsAt b 128 32) = some p) (hret : p.retiring = false)
    (hreg : ((s.without w).numbered (w.addrAt 0) b p).register 0 (w.addrAt 0) = none) :
    execCtxnew k s = .next (((s.without w).numbered (w.addrAt 0) b p).complete (w.addrAt 2) (w.word 18) 7 0) :=
  (execCtxnew_registers hk hb hp hret).trans (by simp only [hreg])

theorem execLaunch_spawns {g : Region} (hk : (s.firmware 2)[k]? = some w) (h5 : w.word 5 = 0) (hg : (s.without w).region? (w.word 0) = some g)
    (hret : g.retiring = false) :
    let x := (s.without w).spawn 0 (w.addrAt 1) g.adr (some (w.addrAt 3, w.word 18)) (w.thread 0).vw.ids
    execLaunch k s = .next (x.1.complete (w.addrAt 3) (w.word 18) x.2.2 x.2.1) := by
  intro x
  refine rootHandler_runs (x := (x.1, x.2.2, x.2.1)) hk ?_
  simp only [h5, hg, hret, ne_eq, not_true_eq_false, Bool.false_eq_true, if_false]
  rfl

theorem execCtxend_retires {g : Region} (hk : (s.firmware 3)[k]? = some w) (hg : (s.without w).region? (w.word 0) = some g) (hret : g.retiring = false) :
    execCtxend k s = .next (((s.without w).updRegion g.rid (fun r => { r with retiring := true })).complete (w.addrAt 1) (w.word 18) 0 0) := by
  refine rootHandler_runs (x := ((s.without w).updRegion g.rid (fun r => { r with retiring := true }), 0, 0)) hk ?_
  simp only [hg, hret, Bool.false_eq_true, if_false]

theorem execQuery_counts (hk : (s.firmware 4)[k]? = some w) : execQuery k s = .next ((s.without w).complete (w.addrAt 0) (w.word 18) 0
    (leNat ((List.range 8).map (fun p => BitVec.ofNat 8 ((List.range 48).filter (fun c => (s.without w).partOf c = some p)).length)))) := by
  simp only [execQuery, rootHandler, hk]
  rfl

end

/-- Settles O45: each event under its conditions is one branch of its definition. -/
theorem hostLinkEventsComplete : Obligations.HostLinkEventsComplete := by
  intro s
  refine ⟨fun p qp rkey va hqp haw => ?rdma, fun p qp bytes hqp haw => ?send, fun qp q n id op hhop => ?hop, fun k w => ?handlers, fun c => rfl,
    fun port prio pause hport hprio => ?flow⟩
  case rdma =>
    exact ⟨fun bs => ⟨fun rid hwin => execRdma_reaches hqp haw (fun rid => .write rid va bs) hwin, execRdma_beyond hqp haw _⟩,
      fun len => ⟨fun rid hwin => execRdma_reaches hqp haw (fun rid => .read rid va len) hwin, execRdma_beyond hqp haw _⟩⟩
  case send =>
    refine ⟨fun hok => ?_, fun hbad => ?_⟩
    · exact (execRoceSend_eq hqp haw bytes).trans (by rw [hok]; rfl)
    · exact (execRoceSend_eq hqp haw bytes).trans (by rw [hbad]; rfl)
  case hop =>
    refine ⟨fun rid va bs ls u hop htr hwr => ?_, fun rid va len ls u bs hop htr hue hrd => ?_, fun rid va f htr hf => ?_, fun r hop => ?_⟩
    · exact runHops_answers n (hop ▸ hhop) (hostOp_write htr hwr)
    · exact runHops_answers n (hop ▸ hhop) (hostOp_read htr hue hrd)
    · exact runHops_answers n hhop (hostOp_refused htr hf)
    · exact runHops_answers n (hop ▸ hhop) rfl
  case handlers =>
    exact ⟨fun hk => ⟨execAttach_grants hk, execAttach_refuses hk⟩, fun b p => execCtxnew_registers, fun g => execLaunch_spawns, fun g => execCtxend_retires,
      execQuery_counts⟩
  case flow =>
    refine congrArg Host.Outcome.next (if_pos ?_)
    simp [hport, hprio]

/-! ## Registration (R437) -/

/-- The control block names handlers and no handler pool (R437), as the registration reads it. -/
structure PoolMissing (s : State) (rid adr b : Nat) (p : Region) : Prop where
  block : s.readVa rid adr 256 = .ok b
  parent : s.region? (bitsAt b 128 32) = some p
  pool : (regionOf b adr p).hpool = 0
  handlers : (regionOf b adr p).fhnd ≠ 0 ∨ (regionOf b adr p).abnd ≠ 0

theorem PoolMissing.regionBad {s : State} {rid adr b : Nat} {p : Region} (h : PoolMissing s rid adr b p) : s.regionBad (regionOf b adr p) p b = true := by
  have hhnd : ((regionOf b adr p).hpool = 0 && ((regionOf b adr p).fhnd ≠ 0 || (regionOf b adr p).abnd ≠ 0)) = true := by
    simpa [h.pool] using h.handlers
  simp only [State.regionBad, hhnd, Bool.or_true, Bool.true_or]

theorem PoolMissing.register {s : State} {rid adr b : Nat} {p : Region} (h : PoolMissing s rid adr b p) : s.register rid adr = none := by
  unfold State.register
  split
  · rfl
  · simp only [h.block, h.parent, h.regionBad, Bool.or_true, if_true]

/-- The registration that RCBOP.reg asks of the SVC (R417). -/
def regWork (c : Ctx) (s : State) : State × Nat × Nat :=
  match s.register (s.ridOf c.uid) (s.pairA c) with
  | none => (s, 0, 4)
  | some (t, id) => (t, id, 0)

theorem regWork_refused {c : Ctx} {s : State} (h : s.register (s.ridOf c.uid) (s.pairA c) = none) : regWork c s = (s, 0, 4) := by
  simp only [regWork, h]

/-- The pair of an RCBOP. -/
def rcbopPair (h : Hdr) (r : State × Nat × Nat) : State × Except LFault UniOut :=
  (r.1, .ok { sregs := regWrites 0 .s h.d.toNat 1 r.2.1 ++ regWrites 0 .s (h.d.toNat + 1) 1 r.2.2, st := some .settling })

/-- Settles O53: the registration of RCBOP.reg and of CTXNEW gives none. -/
theorem handlersNeedAPool : Obligations.HandlersNeedAPool := by
  unfold Obligations.HandlersNeedAPool
  refine ⟨fun h f x => ?reg, fun s k w b p => ?ctxnew⟩
  case reg =>
    refine DoesOnceMem.of_uni rfl (fun _ => rfl) (fun c s l _ _ ⟨b, p, hb, hp, hpool, hhnd⟩ => ?_)
    have hreg := PoolMissing.register ⟨hb, hp, hpool, hhnd⟩
    have hserve : s.serve (regWork c) = (s, 0, 4) := State.serve_of (r := (s.svcSees, 0, 4)) (regWork_refused hreg)
    exact congrArg (rcbopPair h) hserve
  case ctxnew =>
    intro t hk hb hp hret id u ⟨b', p', hb', hp', hpool, hhnd⟩
    have hreg := PoolMissing.register ⟨hb', hp', hpool, hhnd⟩
    exact execCtxnew_refused hk hb hp hret hreg

end Sys2Proof.Machine
end

section
/-!
PROOF. The events of the Asterism unit, rays and beams (R350 to R357, R374 to R386): the branch of its definition that each event takes under its conditions.
-/

namespace Sys2Proof.Machine

/-! ## Calls and bins (R350, R351) -/

/-- A list in which an index is found is not empty. -/
theorem findIdx_length {α : Type} {p : α → Bool} {l : List α} {i : Nat} {x : α} (h : findIdx p l = some (i, x)) : 0 < l.length := by
  have hmem := List.mem_of_find?_eq_some h
  exact List.length_pos_of_mem (List.of_mem_zip hmem).2

section
variable {s t : State} {cl i : Nat} {x : Nat × ACall} (hx : findIdx (fun (x : Nat × ACall) => x.1 = cl) s.asu.waiting = some (i, x))
include hx

/-- The first waiting call that finds its place is followed by those behind it. -/
theorem asuCallBin_seats (hseat : (s.updAsu (fun a => { a with waiting := a.waiting.eraseIdx i })).seatCall cl x.2 = some t) :
    exec (.asuCallBin cl) s = .next (t.seatCalls cl (s.asu.waiting.length - 1)) := by
  change execAsuCallBin cl s = _
  obtain ⟨n, hn⟩ := Nat.exists_eq_succ_of_ne_zero (findIdx_length hx).ne'
  simp only [execAsuCallBin, hn, State.seatCalls, hx, hseat]
  rfl

/-- A call that finds none triggers the oldest bin of its cluster. -/
theorem asuCallBin_triggers {b : Bin} (hseat : (s.updAsu (fun a => { a with waiting := a.waiting.eraseIdx i })).seatCall cl x.2 = none)
    (hold : oldestBin (s.asu.bins.filter (fun b => b.cl = cl)) = some b) :
    exec (.asuCallBin cl) s = .next (s.flushBins (fun y => some y.seq = some b.seq)) := by
  change execAsuCallBin cl s = _
  obtain ⟨n, hn⟩ := Nat.exists_eq_succ_of_ne_zero (findIdx_length hx).ne'
  simp only [execAsuCallBin, hn, State.seatCalls, hx, hseat, hold, Option.map_some]

end

section
variable {s : State} {cl : Nat} {c : ACall}

theorem State.seatCall_joins {b : Bin} (hbin : s.binFor cl c = some b) : s.seatCall cl c = some ((s.joinBin b c).callSeated c) := by
  simp only [State.seatCall, hbin]

variable (hbin : s.binFor cl c = none)
include hbin

theorem State.seatCall_opens (hroom : (s.asu.bins.filter (fun b => b.cl = cl)).length < 16) :
    s.seatCall cl c = some ((s.openBin cl c).callSeated c) := by
  simp only [State.seatCall, hbin, hroom, if_true]

/-- With 16 bins in its cluster a call displaces the oldest, where the buffer has room. -/
theorem State.seatCall_displaces {b : Bin} (hfull : 16 ≤ (s.asu.bins.filter (fun b => b.cl = cl)).length)
    (hold : oldestBin (s.asu.bins.filter (fun b => b.cl = cl)) = some b) :
    s.seatCall cl c = if s.tileRoom cl then some (((s.dispatchBin b).openBin cl c).callSeated c) else none := by
  simp only [State.seatCall, hbin, Nat.not_lt.mpr hfull, hold, if_false]

end

/-- A bin of a cluster is due at the age that the cluster's own register gives. -/
theorem and_binDue (s : State) (cl : Nat) :
    (fun b : Bin => b.cl = cl && s.binDue b) = fun b => b.cl = cl && decide (b.opened + bitsAt (s.csr (clReg cl 7)) 0 16 ≤ s.clk) := by
  funext b
  by_cases hcl : b.cl = cl
  · simp only [State.binDue, hcl]
  · simp only [hcl, decide_false, Bool.false_and]

theorem binAgeDispatch_flushes {s : State} {cl bin : Nat} {b : Bin} (hb : b ∈ s.asu.bins) (hcl : b.cl = cl) (hn : b.n = bin)
    (hold : b.opened + bitsAt (s.csr (clReg cl 7)) 0 16 ≤ s.clk) :
    exec (.binAgeDispatch cl bin) s =
      .next (s.flushBins (fun b => b.cl = cl && decide (b.opened + bitsAt (s.csr (clReg cl 7)) 0 16 ≤ s.clk))) := by
  change execBinAgeDispatch cl bin s = _
  have hany : s.asu.bins.any (fun b => b.cl = cl && b.n = bin && s.binDue b) = true :=
    List.any_eq_true.mpr ⟨b, hb, by simp [hcl, hn, State.binDue, hold]⟩
  simp only [execBinAgeDispatch, hany, if_true, and_binDue]

/-! ## Tiles (R353, R355) -/

theorem tileEnter_dispatches {s : State} {cl : Nat} {b : Bin} (hb : oldestBin (s.asu.bins.filter (fun b => b.cl = cl && b.trig)) = some b)
    (hroom : s.tileRoom cl = true) : exec (.tileEnter cl) s = .next (s.dispatchBin b) := by
  change execTileEnter cl s = _
  simp only [execTileEnter, hb, hroom, if_true]

section
variable {s : State} {cl core : Nat} {t : Tile}

/-- The tile of a cluster that holds an engine and computes goes on first. -/
theorem tilePlace_goes_on
    (ht : (s.asu.tiles.filter (fun t => t.cl = cl)).find? (fun t => t.unit = some core && !t.ready && t.fault.isNone && !t.susp) = some t) :
    exec (.tilePlace cl core) s = .next (s.runTile t) := by
  change execTilePlace cl core s = _
  simp only [execTilePlace, Bool.decide_eq_false, ht]

/-- Else one whose fault has been served takes its engine again, once that is free. -/
theorem tilePlace_takes_again
    (hno : (s.asu.tiles.filter (fun t => t.cl = cl)).find? (fun t => t.unit = some core && !t.ready && t.fault.isNone && !t.susp) = none)
    (hfree : s.engineFree cl 1 core = true)
    (ht : (s.asu.tiles.filter (fun t => t.cl = cl)).find? (fun t => t.unit = some core && !t.ready && t.fault.isNone && t.susp) = some t) :
    exec (.tilePlace cl core) s = .next (s.runTile t) := by
  change execTilePlace cl core s = _
  simp only [execTilePlace, Bool.decide_eq_false, Bool.decide_eq_true, hno, hfree, if_true, ht]

/-- Where no tile has the engine, suspended or not, the oldest without one takes it. -/
theorem tilePlace_places
    (hno : (s.asu.tiles.filter (fun t => t.cl = cl)).find? (fun t => t.unit = some core && !t.ready && t.fault.isNone) = none)
    (ht : (s.asu.tiles.filter (fun t => t.cl = cl)).find? (fun t => t.unit.isNone) = some t) (hcore : core < 4)
    (hfree : s.engineFree cl 1 core = true) (hord : s.ordinaryReady cl core = false) :
    exec (.tilePlace cl core) s = .next (((s.updAsu (fun a => { a with
      run := Sparse.put 0 a.run (4 * cl + core) 0,
      tiles := a.tiles.map (fun x => if x.id = t.id then { t with unit := some core } else x) })).runTile { t with unit := some core }).settleBins) := by
  have hnone : ∀ susp : Bool, (s.asu.tiles.filter (fun t => t.cl = cl)).find?
      (fun t => t.unit = some core && !t.ready && t.fault.isNone && t.susp = susp) = none := by
    intro susp
    rw [List.find?_eq_none] at hno ⊢
    intro x hx hboth
    exact hno x hx (Bool.and_elim_left hboth)
  change execTilePlace cl core s = _
  simp only [execTilePlace, hnone, hfree, ht, hord, Nat.not_le.mpr hcore, if_true, decide_false, Bool.not_true, Bool.false_and, Bool.or_self,
    Bool.false_eq_true, if_false]

end

/-- The row that is next leaves its tile, which is gone with the last one. -/
theorem tileRowWriteback_writes {s : State} {cl tile : Nat} {t : Tile} {c : ACall} {cs : List ACall} {x : TRow} {xs : List TRow}
    (ht : s.asu.tiles.find? (fun t => t.cl = cl && t.id = tile && t.ready) = some t) (hc : t.calls.drop t.done = c :: cs)
    (hx : t.rows.drop t.done = x :: xs) :
    exec (.tileRowWriteback cl tile) s =
      .next ((if cs = [] then s.updAsu (fun a => { a with tiles := a.tiles.filter (fun x => x.id ≠ t.id) })
        else s.updTile cl tile (fun t => { t with done := t.done + 1 })).writeRow t c x) := by
  have hlen : t.calls.length - t.done = cs.length + 1 := by rw [← List.length_drop, hc, List.length_cons]
  have hlast : t.calls.length ≤ t.done + 1 ↔ cs = [] := by
    rw [← List.length_eq_zero_iff]
    omega
  change execTileRowWriteback cl tile s = _
  simp only [execTileRowWriteback, ht, hc, hx, hlast]

theorem tileFail_fails {s : State} {cl tile : Nat} {t : Tile} {f : Nat × Nat}
    (ht : s.asu.tiles.find? (fun t => t.cl = cl && t.id = tile) = some t) (hf : t.fault = some f) (hue : f.1 = fcMemUe) (hsusp : t.susp = false) :
    exec (.tileFail cl tile fcMemUe) s = .next (s.failTile t f.1 f.2) := by
  change execTileFail cl tile fcMemUe s = _
  simp only [execTileFail, ht, hf, hue, hsusp, decide_true, Bool.not_false, Bool.and_self, if_true]

/-! ## Rays (R374, R375, R378) -/

theorem rayCachePlace_seats {s : State} {cl : Nat} {r : Ray} (hr : s.rtu.rays.find? (fun r => r.cl = cl && decide (r.st = .noPlace)) = some r)
    (hroom : s.rayPlaces cl < 4096) :
    exec (.rayCachePlace cl) s = .next ((s.updRay cl r.id (fun r => { r with st := .traverse })).seatRay r) := by
  change execRayCachePlace cl s = _
  simp only [execRayCachePlace, hr, Nat.not_le.mpr hroom, if_false]

section
variable {s : State} {cl id : Nat} {r : Ray} (hr : s.rtu.rays.find? (fun r => r.cl = cl && r.id = id && r.fault.isNone && !r.susp) = some r)
include hr

theorem rayComplete_traverses (hst : r.st = .traverse) :
    exec (.rayComplete cl id) s = .next (State.commitRay (rayStep (s.asRay r) false r)) := by
  change execRayComplete cl id s = _
  simp only [execRayComplete, hr, hst]

theorem rayComplete_exits {k : Nat} (hst : r.st = .inWave k) : exec (.rayComplete cl id) s = .next (s.takeExit r k) := by
  change execRayComplete cl id s = _
  simp only [execRayComplete, hr, hst]

/-- A ray lands once none of its callbacks runs, at once where it failed. -/
theorem rayComplete_lands {st code info : Nat} (hst : r.st = .finish st code info) (hdone : 7 ≤ st ∨ s.cbRuns id = false) :
    exec (.rayComplete cl id) s = .next (s.landRay { r with view := joinIds r.view (s.cbDone id) } st code info) := by
  have hgo : (decide (st < 7) && s.cbRuns id) = false := by
    rcases hdone with hst | hcb
    · rw [decide_eq_false (Nat.not_lt.mpr hst), Bool.false_and]
    · rw [hcb, Bool.and_false]
  change execRayComplete cl id s = _
  simp only [execRayComplete, hr, hst, hgo, Bool.false_eq_true, if_false]

end

theorem callbackWaveStart_starts {s t : State} {cl core id kind entry at' : Nat} {r : Ray} {g : Region}
    (hr : s.rtu.rays.find? (fun r => r.cl = cl && r.id = id) = some r) (hpark : r.parkedAt = some (kind, entry, at'))
    (hg : s.region? r.rid = some g) (hcore : s.coreOk g cl core = true) (hw : callbackWave s g cl core r entry = some t) :
    exec (.callbackWaveStart cl core id) s = .next t := by
  change execCallbackWaveStart cl core id s = _
  simp only [execCallbackWaveStart, hr, hpark, hg, hcore, if_true, hw, Option.getD_some]

/-! ## Beams (R384, R386) -/

section
variable {s : State} {cl id : Nat} {b : Beam} (hb : s.rtu.beams.find? (fun b => b.cl = cl && b.id = id && b.fault.isNone && !b.susp) = some b)
include hb

theorem beamComplete_takes {u : Nat} (hunit : b.unit = none) (hfree : s.freeBtu = some u) :
    exec (.beamComplete cl id) s = .next (s.updBeam cl id (fun b => { b with unit := some u })) := by
  change execBeamComplete cl id s = _
  simp only [execBeamComplete, hb, hunit, hfree, Option.isNone_none, if_true]

variable (hunit : b.unit.isSome = true)
include hunit

theorem beamComplete_pixel (hnext : b.next < 256) : exec (.beamComplete cl id) s = .next (s.beamStep b beamPixel) := by
  change execBeamComplete cl id s = _
  simp only [execBeamComplete, hb, Option.isNone_eq_false_iff.mpr hunit, hnext, if_true, Bool.false_eq_true, if_false]

variable (hnext : 256 ≤ b.next)
include hnext

theorem beamComplete_entry (hwr : b.written < b.entries.length) : exec (.beamComplete cl id) s = .next (s.beamStep b beamEntry) := by
  change execBeamComplete cl id s = _
  simp only [execBeamComplete, hb, Option.isNone_eq_false_iff.mpr hunit, Nat.not_lt.mpr hnext, hwr, if_true, Bool.false_eq_true, if_false]

theorem beamComplete_lands (hwr : b.entries.length ≤ b.written) (hall : b.entries.length = 256) :
    exec (.beamComplete cl id) s = .next (s.landBeam b) := by
  have hdone : ¬ b.written < 256 := by omega
  change execBeamComplete cl id s = _
  simp only [execBeamComplete, hb, Option.isNone_eq_false_iff.mpr hunit, Nat.not_lt.mpr hnext, hall, hdone, if_true, Bool.false_eq_true, if_false]

end

/-- Settles O44, an event at a time: under the conditions of its clause each takes the branch that its lemma above names. -/
theorem unitEventsComplete : Obligations.UnitEventsComplete := by
  unfold Obligations.UnitEventsComplete
  intro s cl
  refine ⟨fun i x hx => ⟨fun b hj => ?joins, fun hj hroom => ?opens, fun b hj hfull hold => ⟨fun hroom => ?displaces, fun hroom => ?waits⟩⟩,
    fun bin b hb hcl hn hold => binAgeDispatch_flushes hb hcl hn hold,
    fun b hb hroom => tileEnter_dispatches hb hroom,
    fun core t ht => tilePlace_goes_on ht,
    fun core t hno hfree ht => tilePlace_takes_again hno hfree ht,
    fun core t hno ht hcore hfree hord => tilePlace_places hno ht hcore hfree hord,
    fun tile t c cs x xs ht hc hx => tileRowWriteback_writes ht hc hx,
    fun tile t f ht hf hue hsusp => tileFail_fails ht hf hue hsusp,
    fun r hr hroom => rayCachePlace_seats hr hroom,
    fun id r hr => ⟨fun hst => rayComplete_traverses hr hst, fun k hst => rayComplete_exits hr hst,
      fun st code info hst hdone => rayComplete_lands hr hst hdone⟩,
    fun core id r kind entry at' g t hr hpark hg hcore hw => callbackWaveStart_starts hr hpark hg hcore hw,
    fun id b hb => ⟨fun u hunit hfree => beamComplete_takes hb hunit hfree, fun hunit hnext => beamComplete_pixel hb hunit hnext,
      fun hunit hnext hwr => beamComplete_entry hb hunit hnext hwr, fun hunit hnext hwr hall => beamComplete_lands hb hunit hnext hwr hall⟩⟩
  case joins => exact asuCallBin_seats hx (State.seatCall_joins hj)
  case opens => exact asuCallBin_seats hx (State.seatCall_opens hj hroom)
  case displaces => exact asuCallBin_seats hx (State.seatCall_displaces (s := s.updAsu (fun a => { a with waiting := a.waiting.eraseIdx i })) hj hfull hold |>.trans (if_pos hroom))
  case waits => exact asuCallBin_triggers hx (State.seatCall_displaces (s := s.updAsu (fun a => { a with waiting := a.waiting.eraseIdx i })) hj hfull hold |>.trans (if_neg (Bool.not_eq_true _ ▸ hroom))) hold

end Sys2Proof.Machine
end

section
/-!
PROOF. The debug events (R452 to R460), and the writes and counters of the control registers (R451, R460).
-/

namespace Sys2Proof.Machine

/-! ## Quadrants under a debugger (R452 to R454) -/

section
variable {s : State} {cl core q : Nat}

theorem debugStopr_stops (hon : s.debugOn cl core q = true) (hruns : s.stopped cl core q = false ∨ s.stepping.contains (cl, core, q) = true) :
    exec (.debugStopr cl core q) s = .next (s.stopQuad cl core q 1) := by
  have hgo : (!s.debugOn cl core q || s.stopped cl core q && !s.stepping.contains (cl, core, q)) = false := by
    rcases hruns with h | h <;> simp only [hon, h, Bool.not_true, Bool.false_and, Bool.and_false, Bool.or_false]
  change execDebugStopr cl core q s = _
  simp only [execDebugStopr, State.quadStop, hgo, Bool.false_eq_true, if_false]

theorem debugResm_runs (hon : s.debugOn cl core q = true) (hstop : s.stopped cl core q = true) (hcool : s.svc.thermal = false) :
    exec (.debugResm cl core q) s = .next (s.runOn cl core q) := by
  change execDebugResm cl core q s = _
  simp only [execDebugResm, State.quadResume, hon, hstop, hcool, Bool.not_true, Bool.or_self, Bool.false_eq_true, if_false]

theorem debugStep_steps (hon : s.debugOn cl core q = true) (hstop : s.stopped cl core q = true) (hcool : s.svc.thermal = false)
    (hnew : s.stepping.contains (cl, core, q) = false) :
    exec (.debugStep cl core q) s = .next { s with stepping := s.stepping ++ [(cl, core, q)] } := by
  change execDebugStep cl core q s = _
  simp only [execDebugStep, State.quadStep, hon, hstop, hcool, hnew, Bool.not_true, Bool.or_self, Bool.false_eq_true, if_false]

theorem debugDump_owes (hcl : cl < 48) (hcore : core < 4) (hq : q < 4) :
    exec (.debugDump cl core q) s = .next (s.setCsr (dqctl cl core q) (putBits (putBits (s.csr (dqctl cl core q)) 6 1 0) 4 1 1)) := by
  change execDebugDump cl core q s = _
  simp only [execDebugDump, hcl, hcore, hq, decide_true, Bool.and_self, if_true, State.quadDump]

/-- An owed dump is written where the core's register points, and DMPD tells so. -/
theorem dumpWrite_writes {t : State} (how : bitAt (s.csr (dqctl cl core q)) 4 = true)
    (ht : t = s.svcWrite (s.csr (csrAddr 1 core cl 0x14) + 65536 * q) (s.dumpBytes cl core q)) :
    exec (.dumpWrite cl core q) s = .next (t.setCsr (dqctl cl core q) (putBits (putBits (t.csr (dqctl cl core q)) 4 1 0) 6 1 1)) := by
  subst ht
  change execDumpWrite cl core q s = _
  simp only [execDumpWrite, how, Bool.not_true, Bool.false_eq_true, if_false]

end

/-! ## A debugger's writes and reads (R455, R456) -/

theorem debugRead_loads {s : State} {cl core : Nat} (tgt : Nat) (hcl : cl < 48) (hcore : core < 4) :
    exec (.debugRead cl core tgt) s = .next (s.setCsr (csrAddr 1 core cl 0x23) (s.dbgValue cl core tgt)) := by
  change execDebugRead cl core tgt s = _
  simp only [execDebugRead, hcl, hcore, decide_true, Bool.and_self, if_true, State.debugRead]

section
variable {s : State} {cl core tgt : Nat} {w : Wave} (hw : s.dbgWave cl core (dbgTarget tgt) = some w)
include hw

theorem debugWrite_vector (hcls : (dbgTarget tgt).cls = 0) (hreg : (dbgTarget tgt).reg < w.V) :
    exec (.debugWrite cl core tgt) s =
      .next (s.dbgReg w (.v (dbgTarget tgt).reg (dbgTarget tgt).lane) (BitVec.ofNat 32 (s.csr (csrAddr 1 core cl 0x20)))) := by
  change execDebugWrite cl core tgt s = _
  simp only [execDebugWrite, State.debugWrite, hw, hcls, hreg, if_true]

theorem debugWrite_scalar (hcls : (dbgTarget tgt).cls = 1) (hreg : (dbgTarget tgt).reg < w.S) :
    exec (.debugWrite cl core tgt) s = .next (s.dbgReg w (.s (dbgTarget tgt).reg) (BitVec.ofNat 32 (s.csr (csrAddr 1 core cl 0x20)))) := by
  change execDebugWrite cl core tgt s = _
  simp only [execDebugWrite, State.debugWrite, hw, hcls, hreg, if_true]

theorem debugWrite_pred (hcls : (dbgTarget tgt).cls = 2) (hin : inMask w.m0 (dbgTarget tgt).lane = true) :
    exec (.debugWrite cl core tgt) s = .next (s.updThread w.uid (dbgTarget tgt).lane (fun th =>
      th.setPred (dbgTarget tgt).reg (bitAt (s.csr (csrAddr 1 core cl 0x20)) 0))) := by
  change execDebugWrite cl core tgt s = _
  simp only [execDebugWrite, State.debugWrite, hw, hcls, hin, if_true]

theorem debugWrite_pc (hcls : (dbgTarget tgt).cls = 3) :
    exec (.debugWrite cl core tgt) s = .next (s.dbgPc w (dbgTarget tgt).lane (BitVec.ofNat 56 (s.csr (csrAddr 1 core cl 0x20)))) := by
  change execDebugWrite cl core tgt s = _
  simp only [execDebugWrite, State.debugWrite, hw, hcls]

theorem debugWrite_mask (hcls : (dbgTarget tgt).cls = 4) (hreg : (dbgTarget tgt).reg < 12) :
    exec (.debugWrite cl core tgt) s = .next (s.updWave w.uid (fun w => w.setMask (dbgTarget tgt).reg
      (setLane (w.mask (dbgTarget tgt).reg) (dbgTarget tgt).lane (bitAt (s.csr (csrAddr 1 core cl 0x20)) 0)))) := by
  change execDebugWrite cl core tgt s = _
  simp only [execDebugWrite, State.debugWrite, hw, hcls, hreg, if_true]

theorem debugWrite_ac (hcls : (dbgTarget tgt).cls = 5) :
    exec (.debugWrite cl core tgt) s =
      .next (s.updWave w.uid (fun w => { w with ac := BitVec.ofNat 32 (s.csr (csrAddr 1 core cl 0x20) % 2 ^ 7) })) := by
  change execDebugWrite cl core tgt s = _
  simp only [execDebugWrite, State.debugWrite, hw, hcls]

end

/-! ## Watchpoints (R458) -/

/-- A hit whose program says yes is decided, and its packet ends once no hit of it is undecided. -/
theorem watchEval_decides {s t : State} {i : Nat} {h : Hit} (hh : findIdx (fun (h : Hit) => h.verdict.isNone) s.flight.hits = some (i, h))
    (hv : s.watchVerdict h = (true, false)) (ht : t = s.updFlight (fun f => { f with hits := setAt f.hits i { h with verdict := some true } }))
    (hyes : (t.flight.hits.filter (fun x => x.grp = h.grp && x.uid = h.uid && x.lane = h.lane)).all (fun x => x.verdict = some false) = false) :
    exec .watchEval s = .next (if t.flight.hits.any (fun x => x.grp = h.grp && x.verdict.isNone) then t else t.watchEnd h.grp) := by
  subst ht
  change execWatchEval s = _
  simp only [execWatchEval, hh, hv, hyes, Bool.false_eq_true, if_false]

/-! ## Sampling (R459) -/

/-- A quadrant's wait for its next sample begins. -/
def State.waitSample (s : State) (cl core q wait : Nat) : State :=
  s.updSvc (fun v => { v with samples := v.samples.filter (fun x => !x.of (cl, core, q)) ++ [⟨cl, core, q, s.clk + 2 * wait, none, []⟩] })

section
variable {s : State} {cl core q wait : Nat} (hon : bitAt (s.csr (dqctl cl core q)) 10 = true) (hpos : wait ≠ 0)
include hon hpos

theorem sampleTag_begins (hwait : wait < 2 ^ (bitsAt (s.csr (csrAddr 1 core cl 0x31)) 0 5 + 1)) (hcl : cl < 48) (hcore : core < 4) (hq : q < 4)
    (hno : s.svc.samples.find? (fun x => x.of (cl, core, q)) = none) :
    exec (.sampleTag cl core q wait) s = .next (s.waitSample cl core q wait) := by
  change execSampleTag cl core q wait s = _
  simp only [execSampleTag, hon, hno, hcl, hcore, hq, hpos, Nat.not_le.mpr hwait, decide_true, decide_false, Bool.and_self, Bool.or_self, Bool.not_true,
    Bool.false_eq_true, if_true, if_false, State.waitSample]

/-- Once the tagged instruction is done its record enters the ring, and the next wait begins. -/
theorem sampleTag_records {u : State} {x : Sample} {g : Tagged} (hx : s.svc.samples.find? (fun x => x.of (cl, core, q)) = some x)
    (hg : x.tag = some g) (hdone : s.underWay g.uid g.lane = false)
    (hu : u = (s.writeSample (cl, core, q) g).updSvc (fun v => { v with samples := v.samples.filter (fun x => !x.of (cl, core, q)) }))
    (hwait : wait < 2 ^ (bitsAt (u.csr (csrAddr 1 core cl 0x31)) 0 5 + 1)) :
    exec (.sampleTag cl core q wait) s = .next (u.waitSample cl core q wait) := by
  subst hu
  change execSampleTag cl core q wait s = _
  simp only [execSampleTag, hon, hx, hg, hdone, hpos, Nat.not_le.mpr hwait, decide_false, Bool.or_self, Bool.not_true, Bool.false_eq_true, if_false,
    State.waitSample]

end

/-! ## Control registers (R451, R460) -/

theorem registerWrite_writes {s : State} {a : Nat} {sh : CsrShape} (data : DWord) (hsh : csrShape a = some sh) :
    exec (.registerWrite a data) s = .next (s.csrWrite true a sh data.toNat) := by
  change execRegisterWrite a data s = _
  simp only [execRegisterWrite, hsh]

/-- A unit that holds work counts a cause that its state does not show, where it shows none with a lower code. -/
theorem stallCounterIncrement_counts {s : State} {a c : Nat} (hsh : (csrShape a).isSome = true) (hreg : bitsAt a 0 10 = 0x80 + c) (hc : c < 0x40)
    (hcause : (blkCauses (bitsAt a 19 4)).contains c = true) (hhid : s.stalled (bitsAt a 19 4) (bitsAt a 10 7) (bitsAt a 17 2) c = none)
    (hwork : s.holdsWork (bitsAt a 19 4) (bitsAt a 10 7) (bitsAt a 17 2) = true)
    (hlow : ∀ k, s.shownCause (bitsAt a 19 4) (bitsAt a 10 7) (bitsAt a 17 2) = some k → c ≤ k) :
    exec (.stallCounterIncrement a) s = .next (s.stallUnit (a - c) c) := by
  have hsome : (csrShape a).isNone = false := Option.isNone_eq_false_iff.mpr hsh
  have hquad : ¬ 0x100 ≤ 0x80 + c := by omega
  have hfirst : ¬ 0x80 + c < 0x80 := by omega
  have hlast : ¬ 0xC0 ≤ 0x80 + c := by omega
  have hnone : (s.shownCause (bitsAt a 19 4) (bitsAt a 10 7) (bitsAt a 17 2)).any (fun k => decide (k < c)) = false := by
    rw [Option.any_eq_false]
    exact fun k hk => decide_eq_false (Nat.not_lt.mpr (hlow k hk))
  change execStallCounterIncrement a s = _
  simp only [execStallCounterIncrement, hsome, hreg, Nat.add_sub_cancel_left, hquad, hfirst, hlast, hcause, hhid, hwork, hnone, decide_false,
    Bool.and_false, Bool.false_and, Bool.or_self, Bool.not_true, Option.isSome_none, Bool.false_eq_true, if_false]

/-- Settles O46, an event at a time: under the conditions of its clause each takes the branch that its lemma above names. -/
theorem debugEventsComplete : Obligations.DebugEventsComplete := by
  unfold Obligations.DebugEventsComplete
  intro s cl core q
  exact ⟨fun hon => ⟨fun hruns => debugStopr_stops hon hruns, fun hstop hcool => debugResm_runs hon hstop hcool,
      fun hstop hcool hnew => debugStep_steps hon hstop hcool hnew⟩,
    fun hcl hcore hq => debugDump_owes hcl hcore hq,
    fun how => dumpWrite_writes how rfl,
    fun tgt w hw => ⟨fun hcls hreg => debugWrite_vector hw hcls hreg, fun hcls hreg => debugWrite_scalar hw hcls hreg,
      fun hcls hin => debugWrite_pred hw hcls hin, fun hcls => debugWrite_pc hw hcls, fun hcls hreg => debugWrite_mask hw hcls hreg,
      fun hcls => debugWrite_ac hw hcls⟩,
    fun tgt hcl hcore => debugRead_loads tgt hcl hcore,
    fun i h hh hv hyes => watchEval_decides hh hv rfl hyes,
    fun wait hon hpos hwait => ⟨fun hcl hcore hq hno => sampleTag_begins hon hpos hwait hcl hcore hq hno,
      fun x g hx hg hdone hnext => sampleTag_records hon hpos hx hg hdone rfl hnext⟩,
    fun a data sh hsh => registerWrite_writes data hsh,
    fun a c hsh hreg hc hcause hhid hwork hlow => stallCounterIncrement_counts hsh hreg hc hcause hhid hwork hlow⟩

end Sys2Proof.Machine
end
